-- ==== Sys2Proof/Word.lean ====
section
/-! DEFINITION. Bytes, 32-bit words, the place of a bit field in a word, and the one shape of a keyed table
(a list of key and value pairs in rising order of key). -/

namespace Sys2Proof

/-- One byte of memory (R4). -/
abbrev Byte := BitVec 8

/-- One register, or one word of a general core (R9, R174). -/
abbrev Word := BitVec 32

/-- The place of a field in a 32-bit register: its lowest bit and its length (R3). -/
structure Fld where
  lo : Nat
  len : Nat
  deriving DecidableEq, Repr

/-- A table from natural numbers to values: pairs in rising order of key. -/
abbrev Tbl (α : Type) := List (Nat × α)

end Sys2Proof
end

