-- ==== Sys2Proof/Syntax.lean ====
section
/-! DEFINITION. What comes in from outside: command packets, control symbols, fabric frames, control-network messages,
measured quantities, and the commands of the block, one constructor for each row of the opcode table. The table gives no
operand fields; each constructor carries what the row's event brings from outside the model (log entry 2). -/

namespace Sys2Proof

/-- A command packet (14 R377). -/
structure Packet where
  opcode : Nat
  flags : Nat
  tag : Nat
  p0 : Nat
  p1 : Nat
  p2 : Nat
  p3 : Nat
  p4 : Nat
  p5 : Nat
  p6 : Nat
  deriving DecidableEq, Repr

/-- A control symbol (12 R331): type, byte 0x01, origin, bell, 32-bit word, CRC-16. -/
structure Sym where
  typ : Nat
  a8 : Nat
  origin : Nat
  bell : Nat
  b32 : Nat
  crc : Nat
  deriving DecidableEq, Repr

/-- A fabric frame (12 R328); rsvHdr holds the reserved bytes 0x16-0x17 and 0x2C-0x2F of the header, rsvTail the twelve reserved
bytes of the trailer. -/
structure Frame where
  kind : Nat
  flags : Nat
  src : Nat
  dst : Nat
  stream : Nat
  bell : Nat
  seq : Nat
  sendCycle : Nat
  tieId : Nat
  poison : Nat
  gaddr : Nat
  bytes : Nat
  status : Nat
  payload : List Byte
  crc : Nat
  rsvHdr : Nat
  rsvTail : Nat
  deriving DecidableEq, Repr

/-- A control-network message (07 R229): beside its words, the seat to which the seating plan in force when it left its source takes
a message for a tile, none for an absent tile (R230), and whether this is the second copy of a priority message (R231). -/
structure CnetMsg where
  typ : Nat
  prio : Bool
  bcast : Bool
  dest : Nat
  src : Nat
  payload : Nat
  words : List Nat
  seat : Option Nat
  second : Bool
  deriving DecidableEq, Repr

/-- The header of a flit of the Milbex Link (13 R356): class and type, flags, sequence number, acknowledgement with its nak bit, receive
buffers returned, length field, tag. -/
structure FlitHead where
  cls : Nat
  typ : Nat
  flags : Nat
  seq : Nat
  ack : Nat
  nak : Bool
  cmdCredits : Nat
  bulkCredits : Nat
  len : Nat
  tag : Nat
  deriving DecidableEq, Repr

/-- A flit: its header, 240 payload bytes, CRC-32. -/
structure Flit extends FlitHead where
  payload : List Byte
  crc : Nat
  deriving DecidableEq, Repr

/-- What the check of an arriving flit has to go by: its CRC-32, and whether the FEC corrected bytes of it. -/
structure FlitCheck where
  crc : Nat
  corrected : Bool
  deriving DecidableEq, Repr

/-- A flit as it arrives, with whether the FEC corrected bytes of it (13 R372). -/
structure RxFlit where
  flit : Flit
  corrected : Bool
  deriving DecidableEq, Repr

/-- A flit put together from the parts a row brings, and its check. -/
def RxFlit.of (h : FlitHead) (payload : List Byte) (x : FlitCheck) : RxFlit := ⟨⟨h, payload, x.crc⟩, x.corrected⟩
def RxFlit.check (x : RxFlit) : FlitCheck := ⟨x.flit.crc, x.corrected⟩

/-- A word written to a register, and the register's events that are set in the same cycle (00 R13). -/
structure ClearWrite where
  w : Word
  now : Word
  deriving DecidableEq, Repr

/-- The same of a write of 4 or 8 bytes. -/
structure DataWrite where
  v : Nat
  now : Nat
  deriving DecidableEq, Repr

/-- How the words of a control-network message arrived: how many had a single-bit error corrected, and whether one could not be
(07 R231). -/
structure CnetCheck where
  corrected : Nat
  bad : Bool
  deriving DecidableEq, Repr

/-- What a service slot has room for: layers whose half-row the free MEM cycles of the host share complete (08 R252); tiles whose
scrubber yielded to service transfers, with the bytes it read before the slot ended (07 R215). -/
structure SlotLoad where
  hot : List Nat
  cut : List (Nat × Nat)
  deriving DecidableEq, Repr

/-- Times of one PROBE exchange (12 R334): its arrival, the far end's time, the next departure. -/
structure ProbeTimes where
  arrival : Nat
  far : Nat
  depart : Nat
  deriving DecidableEq, Repr

/-- What a receiver sees of a failing fibre lane (12 R326): the codeword at hand, symbols corrected in the last 2^16 codewords, lock lost. -/
structure LaneCheck where
  codeword : Nat
  corrected : Nat
  lost : Bool
  deriving DecidableEq, Repr

/-- What a receiver sees of a failing lane of the Milbex Link (13 R353): the lane, symbols corrected in the last 2^16 flits, lock lost. -/
structure MxlLaneCheck where
  lane : Nat
  corrected : Nat
  lost : Bool
  deriving DecidableEq, Repr

/-- Energy of one bell as the power controller measures it, in µJ (15 R409, R410): the module, each form, the memory beneath
each field, each port, the base die's service work of each partition; the input in 10 mV, and the current of each domain. -/
structure BellEnergy where
  module : Nat
  forms : List Nat
  vmem : List Nat
  ports : List Nat
  service : List Nat
  volts : Nat
  amps : List Nat
  deriving DecidableEq, Repr

/-- A command: one constructor for each row of the opcode table, with what the row's event brings from outside. -/
inductive Instr where
  /-- Once the 48 V input has stayed at or above 40.0 V for 10 ms, the VPM starts raising the supply domains in order. (R438) -/
  | inputValid (volts : Nat)
  /-- All domains have reached their setpoints, power-good is asserted, PGOOD_N is driven low and stage S0 ends. (R438) -/
  | powerGood (volts duration : Nat)
  /-- The input has stayed below 38.0 V for more than 20 µs, so the module shuts down. (R437) -/
  | inputLowShutdown (value ms : Nat)
  /-- The input has risen above 62.0 V, so the module shuts down. (R437) -/
  | inputHighShutdown (value : Nat)
  /-- VCMP current has stayed above 2,750 A for 1 µs, so the module shuts down. (R442) -/
  | vcmpOvercurrentShutdown (value : Nat)
  /-- A domain has stayed more than 20 % below its setpoint for 10 µs, so the module shuts down. (R442) -/
  | domainSagShutdown (value : Nat)
  /-- A VPM phase reports overcurrent, an output-stage fault or overtemperature; the phase is disabled and the ceiling of its form or domain is lowered. (R441) -/
  | phaseFault (phase : Nat)
  /-- An overcurrent or undervoltage condition has held for 200 ns, so the form's isolation switch opens; its tiles are lost and any course running in its partition is halted. (R445) -/
  | isolationSwitchOpen (form amps : Nat)
  /-- At a bell boundary the power controller raises the VCMP setpoint by 5 mV after a warn report, or lowers it by 5 mV after 4,096 bells without one. (R443) -/
  | vcmpSetpointStep
  /-- Once per bell the power controller compares each form's sensed voltage with its model voltage. (R444) -/
  | crackCompare (form mv amps : Nat)
  /-- At a0 the previous bell's measured energy is added to the module, partition and ring counters. (R409) -/
  | energyAccumulate (e : BellEnergy)
  /-- At each recess point the power controller compares allotment times its correction with the budget, and requests recess with reason POWER if the budget is exceeded. (R451) -/
  | powerRecessEvaluate
  /-- Budgets set by POWER_CAP or BUDGET_MOVE come into use at the next bell boundary. (R450) -/
  | budgetTakeEffect
  /-- The root PLL's selected reference is lost; the device enters holdover and counts the loss. (R420) -/
  | referenceLoss
  /-- The root PLL frees its input in holdover, switches reference and relocks within 1 ms. (R419) -/
  | referenceSwitch
  /-- A device has stayed in holdover for 10 ms and is therefore out of step. (R59) -/
  | holdoverTimeout
  /-- A droop detector or canary asserts; the stretch gate suppresses every second root pulse and charges stretch to the bell. (R432) -/
  | droopAssert (die site : Nat)
  /-- The last assertion ends; the gate suppresses a further tail pulses and then returns to full rate. (R432) -/
  | droopDeassert (die site periods : Nat)
  /-- A detector that has stayed asserted for 1,024 root periods is masked until the next stack reset. (R434) -/
  | droopDetectorMask (die site periods : Nat)
  /-- A canary group's margin reaches the act level and is treated as an asserted droop detector in the same cycle. (R431) -/
  | canaryAct (group site margin : Nat)
  /-- A canary group's margin reaches the warn level and is reported to the power controller at the next bell boundary. (R431) -/
  | canaryWarn (group site margin : Nat)
  /-- A seam side leaves its phase window; the device counts the excursion, halts any running course and re-centres the trim. (R426) -/
  | seamExcursion (seam : Nat) (phase : Int)
  /-- A stack-reset request is accepted; any running course sends HALT, layers enter self-refresh and in-flight vertical transfers end. (R430) -/
  | stackReset
  /-- At 2 µs the stretch gate closes, every derived clock stops and reset is asserted on every layer. (R430) -/
  | stackResetGateClose
  /-- After relock on REFCLK, reset is released, the dividers restart on one edge and bring-up resumes at S1. (R430) -/
  | stackResetRelease
  /-- The control-complex watchdog expires at a stage bound and requests a base-die reset, which is promoted to a stack reset. (R471) -/
  | watchdogExpiry (step : Option Nat)
  /-- At a0 of every bell BELL_COUNT advances and the bell's lesson, recess or open work begins. (R63) -/
  | bellStart (depart : Nat)
  /-- At a3776 every column controller closes every open row, and the guard starts paying back stretch. (R236) -/
  | guardStart
  /-- Every bank refreshes the row at refresh_row, the pointer advances, and matured canary rows are read. (R248) -/
  | refreshSlotA (phases : List Int) (failed : List Nat)
  /-- In refresh slot B each layer either refreshes a further row or scrubs a half-row. (R249) -/
  | refreshSlotB
  /-- The service slot begins and carries host, control-complex, scrub, exam and arming traffic. (R50) -/
  | serviceSlot (x : SlotLoad)
  /-- One of the eight ungating steps of forms active in the next lesson takes effect at a3968 + 8k. (R448) -/
  | formUngateStep (p k : Nat)
  /-- One gating step of a form in lesson slack takes effect at last_cycle + 1 + 8k. (R448) -/
  | formGateStep (p k : Nat)
  /-- At a4095 of a lesson's final bell, every tile sequencer arms the next lesson's program and buffered patches are applied. (R50) -/
  | lessonArm (p : Nat)
  /-- A bell's stretch charge exceeds 256 units; OVERRUN is raised and the device either declares itself out of step or takes the excess from the next bell. (R55) -/
  | bellOverrun
  /-- After four bells without BELL, the backup originates bells and devices that missed them follow the backup tree. (R347) -/
  | bellSymbolMissing
  /-- The phase error has stayed within ±2 ARITH cycles for 16 bells, so the out-of-step device clears out_of_step. (R68) -/
  | rejoinComplete
  /-- At a0 of the named halt bell, the partition stops its timetable, becomes HALTED and raises COURSE_HALTED. (R64) -/
  | haltBellReached (p : Nat)
  /-- A halt broadcast reaches a tile's control node, and its MXE, VE, cores, movers and translation unit quiesce. (R140) -/
  | haltNoticeTile (lt : Nat)
  /-- A halt notice reaches a memory-layer controller, and its NBUs finish their current transfer and close their rows. (R277) -/
  | haltNoticeLayer (l : Nat)
  /-- A halt notice reaches a port's control node, and the port starts no further frame and writes no received frame. (R349) -/
  | haltNoticePort (port : Nat)
  /-- A unit's QUIESCE message arrives and is counted in CMD_STOP_STATUS. (R391) -/
  | quiesceReport (node : Nat)
  /-- Units that have not reported quiescence within 10 µs of a STOP are named in a STOP_INCOMPLETE event. (R391) -/
  | stopReportTimeout
  /-- At a0 of bell B - H_R the timekeeper sends RECESS with the largest k among live requests covering recess point B. (R71) -/
  | recessAnnounce
  /-- A roster's deadline passes before its commit point; the command completes ROSTER_LATE and lesson L runs with an empty roster. (R74) -/
  | rosterDeadline (ring tag : Nat)
  /-- The device has copied and checked a roster into its slot, which is ROSTER_COMMIT's commit point. (R73) -/
  | rosterCopyComplete (ring tag : Nat)
  /-- From roster_cycle the device writes the following lesson's roster into the tile buffer at roster_addr. (R187) -/
  | rosterTileWrite (lt : Nat)
  /-- At a0 of bell B - 1, COURSE_START commits and clears engines, flags and state for lesson 0 at bell B. (R82) -/
  | courseStartCommit (p : Nat)
  /-- At a0 of bell B - 1, COURSE_RESUME commits, clears engines and restarts after the last checkpoint. (R388) -/
  | courseResumeCommit (p : Nat)
  /-- The programs of the first lesson to run have been restaged for a resume or repeated start. (R81) -/
  | courseRestageDone (p : Nat)
  /-- Every staging copy of a group table in the partition is complete. (R310) -/
  | groupTableCopyDone (p : Nat)
  /-- At a0 of bell B - 1 the group table's staging bank is scheduled to become active at B, or the command completes GROUP_LATE. (R310) -/
  | groupTableCommit (ring tag : Nat)
  /-- The tile shadows have been written after UPD_SHADOW.enable was set, and copying clears. (R312) -/
  | shadowEnableDone
  /-- At the first a0 with no partition starting, running or halting, the units switch to the named image set. (R511) -/
  | imageActivateCommit
  /-- The units finish switching; either IMAGE_ACTIVATED is raised, or on a rejection every unit returns to the previous set. (R511) -/
  | imageSwitchDone (rejected : Bool)
  /-- After 2^20 bells without a return, known_good takes the activated set. (R511) -/
  | knownGoodUpdate
  /-- BELL_COUNT is loaded with the system bell number and joined is set. (R473) -/
  | bellJoinCommit (ring tag : Nat)
  /-- A device not committed within 65,536 bells completes NOT_IN_STEP. (R473) -/
  | bellJoinTimeout (ring tag : Nat)
  /-- A LOAD descriptor fills the shadow weight plane from the tile buffer; cycle: where in its bell the event comes. (R127) -/
  | mxeLoad (lt idx cycle : Nat)
  /-- A PASS descriptor issues input rows and overwrites or accumulates accumulator rows, swapping planes if asked. (R128) -/
  | mxePass (lt idx cycle : Nat)
  /-- A SEND descriptor reads accumulator rows and sends them over the mesh as merge beats. (R138) -/
  | mxeSend (lt idx cycle : Nat)
  /-- A MERGE descriptor adds received rows to its target rows, poisoning on missing beats or tag mismatch. (R139) -/
  | mxeMerge (lt idx row : Nat)
  /-- An MXE descriptor takes its fields at start_cycle - 8, including any landed eacc patch. (R192) -/
  | descriptorFetch (lt idx : Nat)
  /-- A RUN descriptor loads and checks a slate and run block, then issues the slate for I iterations. (R158) -/
  | veRun (lt idx : Nat)
  /-- A TABLE descriptor loads a lookup table image into a slot, or marks the slot unloaded if the header is bad. (R167) -/
  | veTable (lt idx cycle : Nat)
  /-- A CACHE descriptor fills operand-cache lines from the tile buffer or drains them to it. (R160) -/
  | veCache (lt idx cycle : Nat)
  /-- Slate NOP does nothing. (R156) -/
  | slateNop (lt : Nat)
  /-- Slate MOV copies a. (R156) -/
  | slateMov (lt : Nat)
  /-- Slate ADD adds b, aligned, to a. (R156) -/
  | slateAdd (lt : Nat)
  /-- Slate SUB subtracts b, aligned, from a. (R156) -/
  | slateSub (lt : Nat)
  /-- Slate MUL multiplies and shifts right by sh with nearest-even rounding. (R156) -/
  | slateMul (lt : Nat)
  /-- Slate MAC adds the MUL result to c, aligned to the product's tag. (R156) -/
  | slateMac (lt : Nat)
  /-- Slate NEG negates a. (R156) -/
  | slateNeg (lt : Nat)
  /-- Slate ABS takes the absolute value of a. (R156) -/
  | slateAbs (lt : Nat)
  /-- Slate MIN takes the lane-wise minimum. (R156) -/
  | slateMin (lt : Nat)
  /-- Slate MAX takes the lane-wise maximum. (R156) -/
  | slateMax (lt : Nat)
  /-- Slate SHL shifts left by an immediate. (R156) -/
  | slateShl (lt : Nat)
  /-- Slate SHR shifts arithmetically right, rounding nearest-even or toward -∞. (R156) -/
  | slateShr (lt : Nat)
  /-- Slate SHRL shifts logically right. (R156) -/
  | slateShrl (lt : Nat)
  /-- Slate AND takes the bitwise AND. (R156) -/
  | slateAnd (lt : Nat)
  /-- Slate OR takes the bitwise OR. (R156) -/
  | slateOr (lt : Nat)
  /-- Slate XOR takes the bitwise XOR. (R156) -/
  | slateXor (lt : Nat)
  /-- Slate NOT takes the bitwise complement. (R156) -/
  | slateNot (lt : Nat)
  /-- Slate CMPEQ yields -1 where the lanes are equal, else 0. (R156) -/
  | slateCmpeq (lt : Nat)
  /-- Slate CMPLT yields -1 where a < b, else 0. (R156) -/
  | slateCmplt (lt : Nat)
  /-- Slate CMPLE yields -1 where a ≤ b, else 0. (R156) -/
  | slateCmple (lt : Nat)
  /-- Slate SEL selects a where c is nonzero, else b. (R152) -/
  | slateSel (lt : Nat)
  /-- Slate ALIGN shifts a to an immediate tag. (R152) -/
  | slateAlign (lt : Nat)
  /-- Slate GETE writes each lane with its block's tag. (R156) -/
  | slateGete (lt : Nat)
  /-- Slate SETE sets the block tags from lane 32j of b. (R156) -/
  | slateSete (lt : Nat)
  /-- Slate GETF reads the lane flags. (R171) -/
  | slateGetf (lt : Nat)
  /-- Slate CLRF clears the lane flags. (R171) -/
  | slateClrf (lt : Nat)
  /-- Slate CVT narrows or widens between lane widths. (R157) -/
  | slateCvt (lt : Nat)
  /-- Slate RSUM adds every lane into a w register modulo 2^64. (R169) -/
  | slateRsum (lt : Nat)
  /-- Slate RMAX takes the block or vector maximum, optionally with the old value. (R156) -/
  | slateRmax (lt : Nat)
  /-- Slate RMAXABS takes the maximum magnitude. (R156) -/
  | slateRmaxabs (lt : Nat)
  /-- Slate RCPW forms the reciprocal of a w register. (R170) -/
  | slateRcpw (lt : Nat)
  /-- Slate LUT looks up a table and interpolates. (R168) -/
  | slateLut (lt : Nat)
  /-- Slate RQ requantises blocks to an SBI or INT32 format. (R164) -/
  | slateRq (lt : Nat)
  /-- Slate EXPS computes AUTO exponents without rounding. (R166) -/
  | slateExps (lt : Nat)
  /-- At start_cycle a general core starts a task with g1-g3 set. (R190) -/
  | taskStart (lt idx : Nat)
  /-- A task still running at its deadline traps DEADLINE. (R190) -/
  | taskDeadline (gc : Nat)
  /-- A core's pending tile-buffer load or store is served in its window. (R178) -/
  | gcTbWindow (lt cycle : Nat)
  /-- A core waiting in WAITC reaches the named cycle and resumes. (R180) -/
  | waitcWake (gc : Nat)
  /-- Chalk ADD. (R180) -/
  | chalkAdd (gc : Nat)
  /-- Chalk SUB. (R180) -/
  | chalkSub (gc : Nat)
  /-- Chalk AND. (R180) -/
  | chalkAnd (gc : Nat)
  /-- Chalk OR. (R180) -/
  | chalkOr (gc : Nat)
  /-- Chalk XOR. (R180) -/
  | chalkXor (gc : Nat)
  /-- Chalk SLL shifts left logically by a register amount. (R180) -/
  | chalkSll (gc : Nat)
  /-- Chalk SRL shifts right logically by a register amount. (R180) -/
  | chalkSrl (gc : Nat)
  /-- Chalk SRA shifts right arithmetically by a register amount. (R180) -/
  | chalkSra (gc : Nat)
  /-- Chalk SLT compares signed. (R180) -/
  | chalkSlt (gc : Nat)
  /-- Chalk SLTU compares unsigned. (R180) -/
  | chalkSltu (gc : Nat)
  /-- Chalk MUL gives the low 32 bits of the product. (R180) -/
  | chalkMul (gc : Nat)
  /-- Chalk MULH gives the signed high 32 bits of the product. (R180) -/
  | chalkMulh (gc : Nat)
  /-- Chalk MULHU gives the unsigned high 32 bits of the product. (R180) -/
  | chalkMulhu (gc : Nat)
  /-- Chalk MIN. (R180) -/
  | chalkMin (gc : Nat)
  /-- Chalk MAX. (R180) -/
  | chalkMax (gc : Nat)
  /-- Chalk CLZ counts leading zeros of ra. (R180) -/
  | chalkClz (gc : Nat)
  /-- Chalk DIV divides signed, with fixed results for division by zero. (R180) -/
  | chalkDiv (gc : Nat)
  /-- Chalk DIVU divides unsigned. (R180) -/
  | chalkDivu (gc : Nat)
  /-- Chalk REM gives the signed remainder. (R180) -/
  | chalkRem (gc : Nat)
  /-- Chalk REMU gives the unsigned remainder. (R180) -/
  | chalkRemu (gc : Nat)
  /-- Chalk ADDI adds a sign-extended immediate. (R180) -/
  | chalkAddi (gc : Nat)
  /-- Chalk ANDI ANDs a zero-extended immediate. (R180) -/
  | chalkAndi (gc : Nat)
  /-- Chalk ORI ORs a zero-extended immediate. (R180) -/
  | chalkOri (gc : Nat)
  /-- Chalk XORI XORs a zero-extended immediate. (R180) -/
  | chalkXori (gc : Nat)
  /-- Chalk SLLI shifts left by an immediate. (R180) -/
  | chalkSlli (gc : Nat)
  /-- Chalk SRLI shifts right logically by an immediate. (R180) -/
  | chalkSrli (gc : Nat)
  /-- Chalk SRAI shifts right arithmetically by an immediate. (R180) -/
  | chalkSrai (gc : Nat)
  /-- Chalk SLTI compares signed with an immediate. (R180) -/
  | chalkSlti (gc : Nat)
  /-- Chalk LUI loads imm19 << 13. (R180) -/
  | chalkLui (gc : Nat)
  /-- Chalk LDW loads a word. (R180) -/
  | chalkLdw (gc : Nat)
  /-- Chalk LDH loads a sign-extended half. (R180) -/
  | chalkLdh (gc : Nat)
  /-- Chalk LDHU loads a zero-extended half. (R180) -/
  | chalkLdhu (gc : Nat)
  /-- Chalk LDB loads a sign-extended byte. (R180) -/
  | chalkLdb (gc : Nat)
  /-- Chalk LDBU loads a zero-extended byte. (R180) -/
  | chalkLdbu (gc : Nat)
  /-- Chalk STW stores a word, including patch-window stores. (R180) -/
  | chalkStw (gc : Nat)
  /-- Chalk STH stores a half. (R180) -/
  | chalkSth (gc : Nat)
  /-- Chalk STB stores a byte. (R180) -/
  | chalkStb (gc : Nat)
  /-- Chalk BEQ branches if equal. (R180) -/
  | chalkBeq (gc : Nat)
  /-- Chalk BNE branches if not equal. (R180) -/
  | chalkBne (gc : Nat)
  /-- Chalk BLT branches if less, signed. (R180) -/
  | chalkBlt (gc : Nat)
  /-- Chalk BGE branches if greater or equal, signed. (R180) -/
  | chalkBge (gc : Nat)
  /-- Chalk BLTU branches if less, unsigned. (R180) -/
  | chalkBltu (gc : Nat)
  /-- Chalk BGEU branches if greater or equal, unsigned. (R180) -/
  | chalkBgeu (gc : Nat)
  /-- Chalk JAL jumps and links. (R180) -/
  | chalkJal (gc : Nat)
  /-- Chalk JALR jumps to a register plus offset and links. (R180) -/
  | chalkJalr (gc : Nat)
  /-- Chalk SYS END ends the task. (R190) -/
  | chalkEnd (gc : Nat)
  /-- Chalk SYS WAITC waits until an ARITH cycle of the bell. (R180) -/
  | chalkWaitc (gc : Nat)
  /-- Chalk SYS RDCYC reads the ARITH cycle of the bell. (R180) -/
  | chalkRdcyc (gc : Nat)
  /-- Chalk SYS RDBELL reads BELL_COUNT[31:0]. (R180) -/
  | chalkRdbell (gc : Nat)
  /-- Chalk SYS RDID reads the global GC number. (R180) -/
  | chalkRdid (gc : Nat)
  /-- Chalk SYS TRAP traps SOFTWARE with a code. (R181) -/
  | chalkTrap (gc : Nat)
  /-- Chalk SYS RET returns from runtime mode. (R180) -/
  | chalkRet (gc : Nat)
  /-- A static COPY entry starts on a mover channel and issues its beats. (R197) -/
  | moverCopy (lt idx : Nat)
  /-- An INDIRECT entry starts reading built descriptors within its window. (R198) -/
  | moverIndirect (lt idx : Nat)
  /-- The channel reads the next built descriptor and runs it, or halts on an invalid, poisoned or overrunning descriptor. (R198) -/
  | builtDescriptor (lt c : Nat)
  /-- A mover beat issues at its cycle through the crossbar, the mesh or a locker. (R197) -/
  | moverBeat (lt c : Nat)
  /-- A mover channel carries a service transfer that the control complex posted. (R200) -/
  | serviceTransfer (lt c : Nat)
  /-- A locker read beat delivers its data into the tile buffer. (R239) -/
  | lockerReadDeliver (lt c : Nat)
  /-- A locker write is acknowledged 40 cycles after its last beat. (R239) -/
  | lockerWriteAck (lt c : Nat)
  /-- A column controller receives a locker command word and performs RD or WR, checking parity and the row rule. (R237) -/
  | lockerCommand (locker w : Nat) (data wires : List Nat)
  /-- A column controller receives an NBU command from the base die and starts a COPY or FILL. (R278) -/
  | lockerNbuCommand (locker w : Nat)
  /-- A host or control-complex access is served from below in a base-die window. (R253) -/
  | serviceAccessBelow (write : Bool) (a n off : Nat)
  /-- The base die copies locker data from the failed seat to the new seat in its windows. (R257) -/
  | evacuationStep (bad : List Nat)
  /-- All lockers are copied; EVACUATION_DONE is raised, EVACUATE completes and the pending bit clears. (R491) -/
  | evacuationComplete
  /-- A layer-program sequence entry starts on its NBUs and takes compute tokens. (R268) -/
  | nbuSequenceStart (l part idx : Nat)
  /-- A GATHER_REDUCE sequence gathers weighted entries into bag sums. (R272) -/
  | nbuGatherReduce (l part idx : Nat)
  /-- A MATVEC sequence forms matrix-vector products. (R273) -/
  | nbuMatvec (l part idx : Nat)
  /-- A SIGN_UPDATE sequence applies the sign rule to master parameters. (R274) -/
  | nbuSignUpdate (l part idx : Nat)
  /-- A COPY sequence copies rows within the NBU's banks. (R275) -/
  | nbuSeqCopy (l part idx : Nat)
  /-- A FILL sequence writes a pattern or poison. (R275) -/
  | nbuSeqFill (l part idx : Nat)
  /-- One fixed internal transfer of a sequence runs at its MEM cycles, or the sequence suspends to the next bell. (R270) -/
  | nbuTransfer (l part idx : Nat)
  /-- A sequence's last transfer closes and its tokens are freed. (R263) -/
  | nbuSequenceEnd (l part idx : Nat)
  /-- At j0 the translation unit starts translating roster entries. (R295) -/
  | translationJobStart (lt : Nat)
  /-- The unit translates one roster entry and writes its page-map record with a status. (R296) -/
  | translateEntry (lt entry : Nat)
  /-- In fall-back the control cores write page-map records through the service port. (R300) -/
  | fallbackRecordWrite (lt lesson iter record : Nat)
  /-- A timed beat is injected, with SEND ahead of movers. (R222) -/
  | meshInject (lt cycle : Nat)
  /-- A beat arrives at a router and passes, or collides and is discarded, halting the course. (R224) -/
  | meshBeatRoute (id corrected : Nat) (bad : List Nat) (hdrBad : Bool)
  /-- A beat is ejected after padding to L(a, b) and written to the buffer or MXE. (R223) -/
  | meshEject (id : Nat)
  /-- A service beat advances over an idle link cycle. (R226) -/
  | serviceBeatAdvance (id cycle corrected : Nat) (bad : List Nat) (hdrBad : Bool)
  /-- A HALL_REQ message asks a tile for passes. (R227) -/
  | hallReq (lt c dest n : Nat)
  /-- A HALL_GRANT message gives passes to the sender. (R227) -/
  | hallGrant (lt : Nat)
  /-- A pass returns to its tile when its beat is written or the transfer ends. (R227) -/
  | hallPassReturn (lt c : Nat)
  /-- A register-read control message reaches its node. (R229) -/
  | cnetRegRead (m : CnetMsg) (corrected : Nat) (bad : Bool)
  /-- A register-write control message reaches its node. (R229) -/
  | cnetRegWrite (m : CnetMsg) (x : CnetCheck) (now : Nat)
  /-- A register reply reaches the hub. (R229) -/
  | cnetRegReply (m : CnetMsg) (corrected : Nat) (bad : Bool)
  /-- An event message reaches the control complex. (R229) -/
  | cnetEvent (m : CnetMsg) (corrected : Nat) (bad : Bool)
  /-- An ARM message reaches a tile sequencer. (R229) -/
  | cnetArm (m : CnetMsg) (corrected : Nat) (bad : Bool)
  /-- A service post reaches a mover channel. (R229) -/
  | cnetServicePost (m : CnetMsg) (corrected : Nat) (bad : Bool)
  /-- A port SEND entry transmits its local source at the frame cycle. (R342) -/
  | portSend (port idx i : Nat)
  /-- A RECV entry consumes a frame and writes it to its destination. (R342) -/
  | portRecv (port idx i : Nat)
  /-- A REDUCE entry adds its local contribution to an incoming frame. (R343) -/
  | portReduce (port idx i : Nat)
  /-- A RELAY entry forwards a frame unchanged. (R342) -/
  | portRelay (port idx i : Nat)
  /-- A VOTE_SEND entry sends a vote leg. (R344) -/
  | portVoteSend (port idx i : Nat)
  /-- A VOTE_ADD entry adds count planes bit-serially. (R344) -/
  | portVoteAdd (port idx i : Nat)
  /-- A VOTE_SIGN entry emits the sign frame. (R344) -/
  | portVoteSign (port idx i : Nat)
  /-- A port receives a frame and checks it into delivered, poisoned or absent. (R329) -/
  | frameReceive (port : Nat) (f : Frame) (hdrBad : Bool) (badSpans : Nat)
  /-- A service write frame is routed on or performed. (R330) -/
  | svcWrite (port : Nat)
  /-- A service read frame is routed on or performed and answered. (R330) -/
  | svcRead (port : Nat)
  /-- A service reply completes the remote access. (R330) -/
  | svcReply (port : Nat)
  /-- A remote access without a reply within 10 ms completes REMOTE_TIMEOUT. (R330) -/
  | remoteTimeout (tag : Nat)
  /-- A BELL symbol arrives and is used and forwarded. (R346) -/
  | symBell (port : Nat) (y : Sym) (bad : Bool) (arrival : Int) (resid : Nat)
  /-- A HALT symbol arrives and is applied and forwarded once. (R64) -/
  | symHalt (port : Nat) (y : Sym) (bad : Bool)
  /-- A RECESS symbol arrives on the bell tree and schedules recess bells. (R348) -/
  | symRecess (port : Nat) (y : Sym) (bad : Bool)
  /-- A RECESS_REQ symbol is forwarded upstream, or entered at the timekeeper. (R348) -/
  | symRecessReq (port : Nat) (y : Sym) (bad : Bool)
  /-- A CREDIT symbol returns service buffers. (R330) -/
  | symCredit (port : Nat) (y : Sym) (bad : Bool)
  /-- A LANE_SWAP symbol schedules a spare takeover. (R326) -/
  | symLaneSwap (port : Nat) (y : Sym) (bad : Bool)
  /-- A TRAIN symbol exchanges identity during IDENT. (R333) -/
  | symTrain (port : Nat) (y : Sym) (bad : Bool)
  /-- A PROBE symbol is exchanged during MEASURE. (R334) -/
  | symProbe (port : Nat) (y : Sym) (bad : Bool) (t : ProbeTimes)
  /-- An IDLE symbol is received. (R331) -/
  | symIdle (port : Nat) (y : Sym) (bad : Bool)
  /-- A lane loses lock or exceeds the swap threshold, and the receiver sends LANE_SWAP. (R326) -/
  | portLaneFault (port lane : Nat) (x : LaneCheck)
  /-- At the named codeword boundary the spare takes over. (R326) -/
  | portLaneTakeover (port : Nat)
  /-- Light on 16 fibres moves the port from DETECT to LANES. (R333) -/
  | portDetectLight (port fibres : Nat)
  /-- A training state (LANES, ALIGN, IDENT, MEASURE) completes and the port advances. (R333) -/
  | portTrainStateDone (port lanes fibres round depart : Nat)
  /-- A training state exceeds its duration and the port goes DOWN. (R333) -/
  | portTrainTimeout (port : Nat)
  /-- An UP port retrains after uncovered lane faults or failing codewords. (R337) -/
  | portRetrain (port : Nat)
  /-- Retraining ends at a cycle of a bell; the port returns to UP at a bell boundary or goes DOWN with LINK_SLOW. (R337) -/
  | portRetrainDone (port lanes fibres round cycle : Nat)
  /-- A PRIORITY command flit is decoded in hardware, or answered PRIO_BUSY. (R359) -/
  | mxlPrioCmd (f : Flit) (corrected : Bool)
  /-- A DOORBELL sets a ring's tail, or is dropped. (R364) -/
  | mxlDoorbell (h : FlitHead) (payload : List Byte) (x : FlitCheck) (part : Nat)
  /-- A REG_READ flit reads a register and is answered with REG_DATA. (R371) -/
  | mxlRegRead (h : FlitHead) (payload : List Byte) (x : FlitCheck)
  /-- A REG_WRITE flit writes a register after earlier MEM_WRITEs complete. (R363) -/
  | mxlRegWrite (h : FlitHead) (payload : List Byte) (x : FlitCheck) (now : Nat)
  /-- A MEM_READ flit reads memory and returns MEM_DATA. (R365) -/
  | mxlMemRead (h : FlitHead) (payload : List Byte) (x : FlitCheck)
  /-- A MEM_WRITE flit writes memory and returns MEM_ACK. (R365) -/
  | mxlMemWrite (h : FlitHead) (payload : List Byte) (crc : Nat) (corrected : Bool)
  /-- HOST_DATA arrives for a device read of host memory. (R365) -/
  | mxlHostData (h : FlitHead) (payload : List Byte) (crc : Nat) (corrected : Bool)
  /-- An IDLE flit returns credits and acks, or is discarded for rate matching. (R362) -/
  | mxlIdleFlit (x : RxFlit)
  /-- A LANE_SWAP flit schedules a spare takeover. (R353) -/
  | mxlLaneSwapFlit (h : FlitHead) (payload : List Byte) (x : FlitCheck)
  /-- A flit fails its check; the receiver sends nak and discards what follows. (R360) -/
  | mxlFlitCheckFail (f : Flit) (corrected uncorrectable : Bool)
  /-- A nak makes the sender replay from the acknowledged sequence number. (R361) -/
  | mxlNak (x : RxFlit)
  /-- With no ack advance for 2 µs, the sender replays. (R361) -/
  | mxlReplayTimeout
  /-- A HOST_READ without HOST_DATA within 100 µs is abandoned with HOST_TIMEOUT. (R365) -/
  | hostReadTimeout (tag : Nat)
  /-- An MXL lane fails and is replaced by the spare, or the link retrains. (R353) -/
  | mxlLaneFault (x : MxlLaneCheck)
  /-- An MXL training state completes and the link advances. (R354) -/
  | mxlStateDone (lanes : List Nat) (cmd bulk : Nat)
  /-- An MXL state exceeds its duration and the link goes DOWN. (R354) -/
  | mxlStateTimeout
  /-- 100 ms after DOWN, the link re-enters DETECT. (R354) -/
  | mxlDownRecover
  /-- The device fetches a pending command once a completion slot is free, and checks it. (R374) -/
  | commandFetch (r : Nat) (d : List Byte)
  /-- Held event and EVENTS_LOST records are written as the ring frees places. (R403) -/
  | heldRecordFlush
  /-- NOP completes at acceptance. (R385) -/
  | cmdNop (ring tag : Nat)
  /-- STOP halts the named partitions' running courses. (R389) -/
  | cmdStop (tag : Nat)
  /-- ABORT aborts a target command before its commit point. (R383) -/
  | cmdAbort (ring tag : Nat) (entry : Option (Nat × List Byte))
  /-- RESET completes, then starts a stack reset. (R392) -/
  | cmdReset (ring tag : Nat)
  /-- PARTITION_SET divides the device into partitions. (R384) -/
  | cmdPartitionSet (ring tag : Nat)
  /-- LINKMAP_LOAD applies a link map record. (R336) -/
  | cmdLinkmapLoad (ring tag : Nat)
  /-- BELL_JOIN starts the join to the system bell. (R473) -/
  | cmdBellJoin (ring tag : Nat)
  /-- MEM_COPY copies memory. (R386) -/
  | cmdMemCopy (ring tag : Nat)
  /-- MEM_FILL fills memory with a pattern. (R386) -/
  | cmdMemFill (ring tag : Nat)
  /-- DMA_IN copies from host memory. (R386) -/
  | cmdDmaIn (ring tag : Nat)
  /-- DMA_OUT copies to host memory. (R386) -/
  | cmdDmaOut (ring tag : Nat)
  /-- NBU_FILL zero-fills rows through NBUs. (R278) -/
  | cmdNbuFill (ring tag : Nat)
  /-- NBU_COPY copies rows through NBUs. (R278) -/
  | cmdNbuCopy (ring tag : Nat)
  /-- COURSE_LOAD checks and loads a timetable image and stages lesson 0. (R79) -/
  | cmdCourseLoad (ring tag : Nat)
  /-- COURSE_START schedules a course for bell B. (R82) -/
  | cmdCourseStart (ring tag : Nat)
  /-- COURSE_END ends the loop after an iteration. (R83) -/
  | cmdCourseEnd (ring tag : Nat)
  /-- COURSE_UNLOAD unloads the partition's course. (R385) -/
  | cmdCourseUnload (ring tag : Nat)
  /-- COURSE_RESUME schedules a halted course to resume from its checkpoint. (R388) -/
  | cmdCourseResume (ring tag : Nat)
  /-- ROSTER_COMMIT reads and commits a roster for lesson L. (R74) -/
  | cmdRosterCommit (ring tag : Nat)
  /-- SEQ_OPEN opens a sequence. (R289) -/
  | cmdSeqOpen (ring tag : Nat)
  /-- SEQ_CLOSE closes a sequence and releases its pages. (R289) -/
  | cmdSeqClose (ring tag : Nat)
  /-- PAGE_MAP maps virtual pages to free frames. (R289) -/
  | cmdPageMap (ring tag : Nat)
  /-- PAGE_UNMAP releases pages. (R289) -/
  | cmdPageUnmap (ring tag : Nat)
  /-- SEQ_FORK shares a sequence's pages with another. (R289) -/
  | cmdSeqFork (ring tag : Nat)
  /-- PAGE_PRIVATE copies shared pages into private frames. (R289) -/
  | cmdPagePrivate (ring tag : Nat)
  /-- A page command's last write lands in a service slot and the command completes. (R292) -/
  | pageCommandCommit (ring tag : Nat)
  /-- GROUP_TABLE stages a new group table for bell B. (R310) -/
  | cmdGroupTable (ring tag : Nat)
  /-- RECESS_REQUEST sends a host recess request. (R464) -/
  | cmdRecessRequest (ring tag : Nat)
  /-- POWER_CAP sets the module cap. (R450) -/
  | cmdPowerCap (ring tag : Nat)
  /-- BUDGET_MOVE moves watts between partitions. (R450) -/
  | cmdBudgetMove (ring tag : Nat)
  /-- IMAGE_STAGE writes and verifies an image in the staging set. (R509) -/
  | cmdImageStage (ring tag : Nat)
  /-- IMAGE_ACTIVATE schedules a switch to an image set. (R511) -/
  | cmdImageActivate (ring tag : Nat)
  /-- SYLLABUS_LOAD verifies and stores a syllabus. (R506) -/
  | cmdSyllabusLoad (ring tag : Nat)
  /-- LICENCE_LOAD verifies and stores a licence. (R513) -/
  | cmdLicenceLoad (ring tag : Nat)
  /-- ATTEST writes a signed attestation report. (R516) -/
  | cmdAttest (ring tag : Nat)
  /-- EXAM examines seats of a form. (R484) -/
  | cmdExam (ring tag : Nat)
  /-- EVACUATE moves a tile's lockers to its new seat. (R491) -/
  | cmdEvacuate (ring tag : Nat)
  /-- AREA_RESTORE rebuilds a lost page area. (R493) -/
  | cmdAreaRestore (ring tag : Nat)
  /-- RENUMBER writes a new seating plan between courses. (R495) -/
  | cmdRenumber (ring tag : Nat)
  /-- ENERGY_SNAPSHOT requests an energy snapshot. (R412) -/
  | cmdEnergySnapshot (ring tag : Nat)
  /-- At a0 of the next bell the energy counters are copied into the snapshot registers. (R412) -/
  | energySnapshotTake (ring tag : Nat)
  /-- COUNTERS_CLEAR requests a clear of counter classes. (R406) -/
  | cmdCountersClear (ring tag : Nat)
  /-- At a3968 of the next bell the named counters are cleared together. (R406) -/
  | countersClearApply (ring tag : Nat)
  /-- TRACE_CONFIG starts or stops a trace. (R528) -/
  | cmdTraceConfig (ring tag : Nat)
  /-- Every 32 bells the sensors are converted and pair values, adopted estimates and the model are updated. (R457) -/
  | sensorSample (readings powers : List Nat) (inlet outlet : Nat)
  /-- A hardware comparator sees both sensors of a pair at the trip limit and trips the module. (R461) -/
  | tripComparator (pair a b : Nat)
  /-- At each recess point the forecast may request recess. (R463) -/
  | thermalForecast
  /-- Every 1,024 samples the measured coolant rise is compared with the expected rise, and decline is set after 16 excesses. (R465) -/
  | coolantEvaluate
  /-- S1 loads fuses, reads the ledger and chooses and loads an image set. (R507) -/
  | stageS1Boot (duration : Nat) (loadFails : List Nat)
  /-- S2 locks the PLL, aligns fields and seams, and trains the MXL. (R424) -/
  | stageS2Clocks (duration : Nat) (seamFails : List (Nat × Nat)) (trims : List Int)
  /-- S3 trains the memory layers, starts refresh and runs the memory quiz. (R250) -/
  | stageS3Memory (duration : Nat) (fails : List Nat) (badForms : List (Nat × Nat)) (lost : List Nat) (corrected columns : Nat) (deadSeats : List Nat)
  /-- S4 quizzes the compute die, refines attendance and seats the forms. (R29) -/
  | stageS4Seating (duration : Nat) (quiz : List (Nat × Nat)) (covers : List (Nat × Bool × Nat × Nat)) (gateFails rf : List Nat)
  /-- S5 checks steppings and forms licence rights. (R514) -/
  | stageS5Licences (duration stepping : Nat)
  /-- S6 trains the fabric ports to WAIT_MAP. (R333) -/
  | stageS6Ports (duration : Nat)
  /-- S8 marks the device ready and raises fuse floors and revocations. (R506) -/
  | stageS8Ready (duration total : Nat)
  /-- Automatic exam work on a substitute seat proceeds in a service slot, and a failure reduces the spares. (R483) -/
  | autoExamStep (result : Option Nat)
  /-- An EXAM finishes, EXAM_DONE is raised and the command completes. (R484) -/
  | examComplete (failing : List (Nat × Nat))
  /-- No heartbeat for four periods of 64 bells declares a tile failure. (R486) -/
  | heartbeatTimeout (lt : Nat)
  /-- Uncorrectable errors reach the threshold within 1,024 bells and declare a tile failure. (R486) -/
  | errorsThreshold (lt : Nat)
  /-- Substitution completes and SUBSTITUTION is raised. (R487) -/
  | substitutionComplete (lt : Nat)
  /-- ENTDAA assigns the dynamic address. (R519) -/
  | i3cEntdaa (addr : Nat)
  /-- SETDASA sets the dynamic address from the static one. (R519) -/
  | i3cSetdasa (addr : Nat)
  /-- RSTDAA resets the dynamic address. (R519) -/
  | i3cRstdaa
  /-- ENEC enables events. (R519) -/
  | i3cEnec (mask : Nat)
  /-- DISEC disables events. (R519) -/
  | i3cDisec (mask : Nat)
  /-- GETSTATUS returns the target status. (R519) -/
  | i3cGetstatus
  /-- A two-byte private write sets the index. (R520) -/
  | i3cSetIndex (index : Nat)
  /-- A private read latches the telemetry map and returns bytes. (R520) -/
  | i3cPrivateRead (n : Nat)
  /-- RESET_REQUEST requests a stack reset with cause 3. (R522) -/
  | mgmtResetRequest
  /-- LEDGER_CLEAR clears alternatives and unready, then resets. (R522) -/
  | mgmtLedgerClear
  /-- HOLD_NEXT holds the next start at HELD after S2. (R522) -/
  | mgmtHoldNext
  /-- ALERT_ACK clears MGMT_STATUS.alert. (R522) -/
  | mgmtAlertAck
  /-- A command pair whose complement does not match is discarded with result 0x03. (R522) -/
  | mgmtMalformed (code complement : Nat)
  /-- EXTEST drives the boundary cells, or selects bypass if refused. (R525) -/
  | jtagExtest (cells pins : List Bool)
  /-- SAMPLE/PRELOAD samples or preloads the boundary register. (R524) -/
  | jtagSamplePreload (cells pins : List Bool)
  /-- IDCODE selects the identity register. (R524) -/
  | jtagIdcode
  /-- CLAMP holds the outputs and selects bypass, or is refused. (R525) -/
  | jtagClamp
  /-- HIGHZ releases the outputs, or is refused. (R525) -/
  | jtagHighz
  /-- EXTEST_PULSE runs an IEEE 1149.6 test. (R524) -/
  | jtagExtestPulse (cells pins : List Bool)
  /-- EXTEST_TRAIN runs an IEEE 1149.6 test. (R524) -/
  | jtagExtestTrain (cells pins : List Bool)
  /-- BYPASS, or any undefined code, selects the bypass register. (R524) -/
  | jtagBypass
  /-- An instrument READ reads a space. (R526) -/
  | instRead (space addr : Nat)
  /-- An instrument WRITE writes a stack address. (R526) -/
  | instWrite (space addr data : Nat)
  /-- An instrument operation ends and its status and data are captured. (R526) -/
  | instComplete
  /-- Writing clear_peak sets BELL_STRETCH.peak_charge to 0. (R85) -/
  | bellClearPeak (w : Word)
  /-- Writing clear sets BELL_OVERRUN_COUNT to 0. (R85) -/
  | bellOverrunClear (w : Word)
  /-- clear_all clears every arithmetic flag and ARI_FIRST. (R113) -/
  | ariClearAll (w : Word)
  /-- An RW1C write clears tile or port flags and re-arms ARITH_FLAG. (R114) -/
  | ariFlagClear (port : Bool) (n : Nat) (x : ClearWrite)
  /-- Clearing MEM_FAULT_HI.valid re-arms the fault record. (R245) -/
  | memFaultClear (l : Nat) (x : ClearWrite)
  /-- A write sets the token limit when no course is loaded, clamped to max. (R264) -/
  | nbuTokenLimitWrite (w : Word)
  /-- clear_peak resets the NBU_TOKENS peak. (R280) -/
  | nbuTokensClearPeak (w : Word)
  /-- TRN_AREA accepts a write only while no sequence is open. (R288) -/
  | trnAreaWrite (w : Word)
  /-- TRN_POOL accepts a write only while no sequence is open. (R288) -/
  | trnPoolWrite (w : Word)
  /-- A write sets fall-back mode while no course is loaded. (R300) -/
  | trnFallbackWrite (lt : Nat) (w : Word)
  /-- A write sets or enables the tile shadows while no course is loaded. (R312) -/
  | updShadowWrite (w : Word)
  /-- A write assigns ports to partitions unless a course is loaded. (R350) -/
  | fabPartWrite (w : Word)
  /-- A ring configuration write takes effect only while enable is 0. (R395) -/
  | ringCfgWrite (a : Nat) (w : Word)
  /-- The host advances a completion ring's head, freeing slots. (R375) -/
  | cplRingHeadWrite (q : Nat) (w : Word)
  /-- The host advances an event ring's head, freeing places. (R396) -/
  | evtRingHeadWrite (e : Nat) (w : Word)
  /-- A write lowers throttle limits, clamped to 60 °C and the default. (R460) -/
  | throttleLimitWrite (w : Word)
  /-- Clearing decline re-arms COOLANT_DECLINE. (R465) -/
  | coolantDeclineClear (x : ClearWrite)
  /-- Clearing crack_suspect re-arms CRACK_SUSPECT. (R444) -/
  | crackSuspectClear (form : Nat) (x : ClearWrite)
  /-- The host clears a pending evacuation bit after its own restore. (R492) -/
  | evacPendingClear (i : Nat) (x : ClearWrite)
  /-- Clearing event_armed re-arms REG_ACCESS. (R415) -/
  | regAccessArmClear (x : ClearWrite)
  /-- Clearing service_stop lets the channel take service transfers again. (R200) -/
  | serviceStopClear (lt c : Nat) (x : ClearWrite)
  /-- A 32-bit read of a LO register captures HI into a shadow. (R85) -/
  | loRegisterRead (req a : Nat)
  /-- A misaligned or wrong-width access is discarded or returns 0, and a REG_ACCESS error is recorded. (R11) -/
  | registerAccessError (a width : Nat) (write : Bool)
  /-- A write to any other register sets its RW fields, clears RW1C bits or acts as a WO bit. (R12) -/
  | registerWrite (a width : Nat) (x : DataWrite)
  /-- A device in holdover regains its upstream recovered clock, or the timekeeper regains REFCLK, relocks to it and clears holdover. (R420) -/
  | referenceRegained
  /-- At the flit boundary named in a LANE_SWAP flit, the MXL spare lane takes over from the failed lane at both ends. (R353) -/
  | mxlLaneTakeover
  /-- The security block finishes the flash write or report of an IMAGE_STAGE, SYLLABUS_LOAD, LICENCE_LOAD or ATTEST, which then completes, and starts the next waiting command. (R510) -/
  | securityCommandDone
  /-- When the STOP bound has elapsed after decode, the device forms the STOP's completion record and sends it by PRIO_WRITE. (R370) -/
  | stopBoundElapsed (tag : Nat)
  /-- The board controller drives TRST_N low and the TAP goes to Test-Logic-Reset. (R524) -/
  | trstNAssert
  deriving DecidableEq, Repr

end Sys2Proof
end

