-- ==== Sys2Proof/Decode.lean ====
section
/-! DEFINITION. The command that a word of the opcode table spells. The table gives no row any bits, so no word spells a
command: the block takes its commands from the queue (log entry 4). -/

namespace Sys2Proof

/-- The command spelt by the low nbits of a word: none, for any word. -/
def decodeTableWord (_nbits _w : Nat) : Option Instr := none

end Sys2Proof
end

