-- ==== Sys2Proof/Config.lean ====
section
/-! DEFINITION. What the spec fixes no value for: constants without a body, so that nothing can evaluate them and a
statement about them holds for every value (log entries 7, 11 and 12). -/

namespace Sys2Proof

/-- A byte the spec leaves undefined, by the count of free values drawn before it (log entry 7). -/
opaque Config.freeByte : Nat → Byte

/-- A number the spec leaves open, by the count of free values drawn before it (log entry 7). -/
opaque Config.freeNat : Nat → Nat

/-- The value of a lane of a width in bits where the number that stands there does not fit it (05 R151, R156, R162 leave it
open; log entry 20). A function of the number, so that runs with equal inputs agree (03 R109). -/
opaque Config.narrowLane : Nat → Int → Nat

/-- What RMAX and RMAXABS with mod 1 take as the old value of the OUT stream, which has none: bytes, and block tags, by the
first source's bytes and their place (05 R156; log entry 20). -/
opaque Config.outOldByte : List Byte → Nat → Byte
opaque Config.outOldTag : List Byte → Nat → Nat

/-- Reason code a declaring device puts into HALT and COURSE_HALTED, by cause (15 R401 names the field and lists no
codes; log entry 7). -/
opaque Config.haltReason : Nat → Nat

/-- SHA-384 of a byte string (21 R498; log entry 11). -/
opaque Config.sha384 : List Byte → List Byte

/-- Whether an RSA signature verifies: key, message, signature (21 R498; log entry 11). -/
opaque Config.rsaVerify : List Byte → List Byte → List Byte → Bool

/-- Whether an SLH-DSA signature verifies: key, message, signature (21 R498; log entry 11). -/
opaque Config.slhVerify : List Byte → List Byte → List Byte → Bool

/-- Signature of the attestation report under the device key (21 R516; log entry 11). -/
opaque Config.attestSign : List Byte → List Byte

/-- Model estimate of a region in units of 1/16 °C after a sample (19 R455 gives no conductances; log entry 12): count of
free values drawn, region, previous estimate, measured powers of the regions with the sink reading. -/
opaque Config.modelEstimate : Nat → Nat → Nat → List Nat → Nat

/-- Canary estimate in units of 0.25 °C from the failed cells of a row: region, row, count (19 R456: fused curve; log
entry 12). -/
opaque Config.canaryCurve : Nat → Nat → Nat → Nat

/-- Forecast peak of a region in units of 0.25 °C when k recess bells are inserted at each of n points from bell r (19 R463
gives no network; log entry 12): count of free values drawn, region, k, n, r. -/
opaque Config.forecastPeak : Nat → Nat → Nat → Nat → Nat → Nat

/-- Bells from the evaluation to the forecast peak of a region (19 R463; log entry 12): count of free values drawn, region. -/
opaque Config.forecastBell : Nat → Nat → Nat

/-! What is fixed in one part at the factory: fuses, and what the flash is delivered with (21; log entry 5). -/

/-- Serial number (21 R517). -/
opaque Config.fuseSerial : Nat

/-- SEC_STEPPING as fused (21 R517). -/
opaque Config.fuseStepping : Nat

/-- Set point of VCMP fused into the part, in mV above 600, taken modulo 201 so that it lies in the range of 18 R439. -/
opaque Config.fuseVcmp : Nat

/-- Purpose bits of the four key slots, 4 bits each (21 R497). -/
opaque Config.fusePurpose : Nat

/-- SHA-384 of the key block of a slot (21 R497). -/
opaque Config.fuseKeyHash : Nat → List Byte

/-- Image of a component of the golden set as delivered (21 R501). -/
opaque Config.factoryImage : Nat → List Byte

/-- Syllabus as delivered (21 R504). -/
opaque Config.factorySyllabus : List Byte

/-- Licence of the part's tier, stored at the factory (23 R546). -/
opaque Config.factoryLicence : List Byte

/-- Device certificate (21 R515). -/
opaque Config.deviceCertificate : List Byte

/-- Walnaxa's JEP106 identity (22 R524). -/
opaque Config.jep106 : Nat

end Sys2Proof
end

