-- ==== Sys2Proof/Machine/State.lean ====
section
/-! DEFINITION. The state of one Ahnard A4 module: its registers, its memories, its engines, the programs they run,
the commands it has accepted, the links, the ledger and the flash, and the queue of commands that wait.
Everything is plain data. A table (Tbl) lists only the keys that have been written. -/

namespace Sys2Proof.Machine

/-- The two variants of the module (00 R2). -/
inductive Variant where
  | ahn4W
  | ahn4H
  deriving DecidableEq, Repr

/-- Why a step stops. No command of this block stops on a fault. -/
inductive Fault where
  /-- A command that names an operand outside the unit it addresses; raised by no meaning; safe. -/
  | operandRange
  deriving DecidableEq, Repr

/-- Why a step refuses. -/
inductive Refusal where
  /-- Raised by an arm of the dispatch whose command has no meaning yet; safe. -/
  | notModelled (mnemonic : String)
  deriving DecidableEq, Repr

/-- States of an accepted command (14 R380). -/
inductive CmdPhase where
  | accepted
  | active
  | committed
  deriving DecidableEq, Repr

/-- A command fetched from a ring, or decoded from a PRIORITY flit, that has not reached DONE (14 R374, R380). -/
structure Cmd where
  /-- Command ring 0-63, or 255 for a PRIORITY packet. -/
  ring : Nat
  /-- Completion ring that holds its reserved slot. -/
  cplRing : Nat
  /-- Partition it acts on. -/
  part : Nat
  pkt : Packet
  phase : CmdPhase
  /-- BELL_COUNT at acceptance. -/
  bell : Nat
  /-- The command's own working values, in the order its chapter's definition gives. -/
  data : List Nat
  deriving DecidableEq, Repr

/-- A command that has reached DONE, kept for ABORT (14 R383). -/
structure DoneCmd where
  ring : Nat
  tag : Nat
  opcode : Nat
  status : Nat
  deriving DecidableEq, Repr

/-- A completion record (14 R378). -/
structure CplRec where
  tag : Nat
  opcode : Nat
  status : Nat
  ring : Nat
  changed : Bool
  cmdHead : Nat
  detail : Nat
  result : Nat
  bell : Nat
  deriving DecidableEq, Repr

/-- An event record (15 R399), its phase bit apart. -/
structure EvRec where
  code : Nat
  late : Bool
  seq : Nat
  bell : Nat
  cycle : Nat
  part : Nat
  kind : Nat
  unit : Nat
  lesson : Nat
  d0 : Nat
  d1 : Nat
  d2 : Nat
  d3 : Nat
  deriving DecidableEq, Repr

/-- An event ring's records not yet written and its pending EVENTS_LOST record (15 R402, R403). -/
structure EvRing where
  held : List EvRec
  lost : Option EvRec
  /-- Number of the ring's last HOST_WRITE message; outstanding until its flit is acknowledged. -/
  outstanding : Option Nat
  deriving DecidableEq, Repr

/-- A message that the device sends on the Milbex Link (13 R357). -/
inductive Msg where
  /-- HOST_WRITE of bytes at a host address, of class BULK or COMMAND, with the command that caused it (R363). -/
  | hostWrite (bulk : Bool) (owner : Option (Nat × Nat)) (addr : Nat) (data : List Byte)
  /-- HOST_READ request: class, tag, address, bytes. -/
  | hostRead (bulk : Bool) (tag addr len : Nat)
  /-- PRIO_WRITE of a completion record (14 R377). -/
  | prioWrite (addr : Nat) (data : List Byte)
  /-- REG_DATA reply: tag, status, global address, data. -/
  | regData (tag status addr : Nat) (data : List Byte)
  /-- MEM_DATA reply: tag, status, global address, data. -/
  | memData (tag status addr : Nat) (data : List Byte)
  /-- MEM_ACK reply: tag, status, global address. -/
  | memAck (tag status addr : Nat)
  deriving DecidableEq, Repr

/-- A flit of a message of the device, with the number of its message and, for a HOST_WRITE, the command that caused it. -/
structure TxFlit where
  flit : Flit
  msg : Nat
  owner : Option (Nat × Nat)
  deriving DecidableEq, Repr

/-- What the device sends to the outside. -/
inductive Out where
  /-- A flit on the Milbex Link (13 R356). -/
  | flit (f : Flit)
  /-- A control symbol on a fabric port (12 R331). -/
  | symbol (port : Nat) (sym : Sym)
  /-- A frame on a fabric port (12 R328). -/
  | frame (port : Nat) (f : Frame)
  /-- A control-network message (07 R229). -/
  | cnet (m : CnetMsg)
  /-- An in-band interrupt with its mandatory byte (22 R523). -/
  | ibi (mandatory : Nat)
  /-- Bytes returned by an I3C read (22 R520). -/
  | i3cData (data : List Byte)
  /-- Status returned by GETSTATUS (22 R519). -/
  | i3cStatus (value : Nat)
  deriving DecidableEq, Repr

/-- A recess request (02 R71): k bells at each of the s recess points still to come from bell on. -/
structure RecessReq where
  k : Nat
  s : Nat
  bell : Nat
  reason : Nat
  value : Nat
  origin : Nat
  deriving DecidableEq, Repr

/-- An announced recess (02 R71): k bells at B, with the requester named in the symbol. -/
structure Recess where
  bell : Nat
  k : Nat
  origin : Nat
  deriving DecidableEq, Repr

/-- The recess point being taken (15 R413): first bell, bells taken and voided, reason, requester and value. -/
structure RecessNow where
  start : Nat
  left : Nat
  taken : Nat
  voided : Nat
  reason : Nat
  requester : Nat
  value : Nat
  deriving DecidableEq, Repr

/-- Progress of a bell join (20 R473). -/
structure Join where
  ring : Nat
  tag : Nat
  start : Nat
  aligned : Bool
  good : Nat
  /-- Hops of the last BELL taken and the bell number it carried. -/
  hops : Nat
  sysBell : Nat
  deriving DecidableEq, Repr

/-- The pacer and the bell domain (02 R53-R72). -/
structure BellSt where
  /-- Stretch charge from a0 to the end of the guard, root periods (R54). -/
  chargeGuard : Nat
  /-- Stretch charge in the refresh slots and the service slot. -/
  chargeSlots : Nat
  /-- Excess of an overrun taken from the next bell's lesson window (R55). -/
  carried : Nat
  /-- The overrun of this bell has been handled. -/
  overrun : Bool
  /-- ARITH cycles the guard and the service slot deliver in this bell, and the root periods for which the clocks are held
  at the end of each (R54). -/
  guardCycles : Nat
  guardHold : Nat
  slotCycles : Nat
  slotHold : Nat
  /-- ARITH cycles taken from the start of this bell's lesson window (R55). -/
  lost : Nat
  /-- A BELL was taken in this bell. -/
  heard : Bool
  /-- Consecutive bells without BELL (R62, 12 R347). -/
  missing : Nat
  /-- Consecutive bells within tolerance since out of step (R68). -/
  inTol : Nat
  /-- BELL_PHASE_WARN already raised for this excursion (R60). -/
  warned : Bool
  /-- PLL phase trims applied, root periods (R60). -/
  trim : Int
  /-- Pacer offset applied at the join, root periods (20 R473). -/
  pacer : Int
  join : Option Join
  /-- Recess points announced and not yet begun, in order of bell. -/
  announced : List Recess
  recess : Option RecessNow
  /-- Requests in the timekeeper's table (R71). -/
  requests : List RecessReq
  /-- The device's own live requests (15 R414). -/
  own : List RecessReq
  /-- Out-of-step device waits for the next BELL to reload BELL_COUNT (R68). -/
  reload : Bool
  /-- The device originated bells and has stopped for want of REFCLK (17 R420). -/
  silent : Bool
  /-- Bell of the last recess point evaluated, and whether the device asked for recess at it (22 R521). -/
  point : Nat
  asked : Bool
  deriving DecidableEq, Repr

/-- The link map record in force, its ports apart (12 R335). -/
structure LinkMap where
  loaded : Bool
  device : Nat
  nx : Nat
  ny : Nat
  nz : Nat
  timekeeper : Nat
  backup : Nat
  horizon : Nat
  deriving DecidableEq, Repr

/-- A roster held in a slot (02 R73, R74): target course bell, its bytes, the command that brought it. -/
structure Roster where
  lesson : Nat
  iter : Nat
  courseBell : Nat
  data : List Byte
  committed : Bool
  ring : Nat
  tag : Nat
  deriving DecidableEq, Repr

/-- A partition's course (02 R76-R83). -/
structure Course where
  imgAddr : Nat
  image : List Byte
  /-- Lesson and loop iteration that run, or run next. -/
  lesson : Nat
  iter : Nat
  /-- Bell of that lesson, counted from 0. -/
  lessonBell : Nat
  /-- The present bell is a course bell of the lesson. -/
  ran : Bool
  /-- No lesson is left (R83). -/
  ended : Bool
  /-- Bell at which lesson 0, or the lesson resumed, begins (R82). -/
  startBell : Nat
  /-- Ring of the command that started the course (15 R411). -/
  startRing : Nat
  startTag : Nat
  /-- Whether the start pending is a COURSE_RESUME. -/
  resuming : Bool
  /-- The start's commit point has been reached. -/
  startCommitted : Bool
  /-- Programs of the first lesson to run are in place (R81). -/
  staged : Bool
  /-- Loop iteration named by COURSE_END (R83). -/
  endIter : Option Nat
  /-- Lesson and iteration that follow the last checkpoint (14 R388). -/
  resumeAt : Option (Nat × Nat)
  rosters : List Roster
  /-- Halt pending: bell named, reason code, declaring device, whether it came late (R64). -/
  haltBell : Option Nat
  /-- No timetabled work starts from this bell on (R64). -/
  stopFrom : Option Nat
  haltReason : Nat
  haltDeclarer : Nat
  deriving DecidableEq, Repr

/-- A patch store that has not reached its descriptor: index, value, and for a current-lesson patch the bell of the
lesson and the cycle at which it lands (06 R192). -/
structure Patch where
  idx : Nat
  value : Nat
  bell : Nat
  cycle : Nat
  deriving DecidableEq, Repr

/-- One access at a slice port of a tile buffer in the present bell (07 R205-R207). -/
structure SliceUse where
  cycle : Nat
  slice : Nat
  /-- 0 wide read, 1 wide write, 2 scale read, 3 scale write, 4 write of a narrow port. -/
  port : Nat
  prio : Nat
  off : Nat
  len : Nat
  /-- A requester of higher priority took the slice port in the same cycle. -/
  lost : Bool
  /-- Where the channel that read puts the first byte it read, where it puts it into the stack at once. -/
  sink : Option Nat
  /-- What a write replaced in this slice: address, byte and stored code; slot, and the copies of its poison and tag. -/
  bytes : List (Nat × Byte × Nat)
  slots : List (Nat × Nat × Nat)
  deriving DecidableEq, Repr

/-- A weight plane of a matrix engine (04 R116, R120, R121): format code, fold, and the columns that a LOAD has filled, each
with its elements along k and its scale bytes. -/
structure Plane where
  filled : Bool
  wfmt : Nat
  fold : Nat
  data : List Byte
  scale : List Byte
  /-- Poison of each block of 32 weights, and of each scale byte, column by column. -/
  poison : List Bool
  scalePoison : List Bool
  /-- Bytes of data whose parity bit is wrong. -/
  badParity : List Nat
  deriving DecidableEq, Repr

/-- One entry of the accumulator of a matrix engine (04 R122, R123). -/
structure AccEntry where
  value : Int
  poison : Bool
  /-- Stored code error: 0 none, 1 corrected on read, 2 uncorrectable. -/
  err : Nat
  deriving DecidableEq, Repr

/-- A merge beat that has arrived for a MERGE (04 R138, R139): its bytes, poison sideband, and the row's tag if it is the
first of its row. -/
structure MergeBeat where
  data : List Byte
  poison : Nat
  tag : Int
  deriving DecidableEq, Repr

/-- A PASS under way (04 R128, R131): descriptor, accumulation exponent taken, cycles per row, rows to issue, row that issues
next. -/
structure PassRun where
  desc : Nat
  exp : Int
  p : Nat
  rows : Nat
  next : Nat
  deriving DecidableEq, Repr

/-- A LOAD under way (04 R127): descriptor, column that is read next. -/
structure LoadRun where
  desc : Nat
  next : Nat
  deriving DecidableEq, Repr

/-- A SEND under way (04 R138): descriptor, rows to send, row that is read next. -/
structure SendRun where
  desc : Nat
  rows : Nat
  next : Nat
  deriving DecidableEq, Repr

/-- An update of an accumulator row on its way (04 R124, R131): the cycle in which it is written, the row, the tag that an
overwrite writes (none: the terms are added to the row), the terms' sums with their poison, their flags, rows of the PASS
written with it. -/
structure AccUpdate where
  at_ : Nat
  row : Nat
  tag : Option Int
  vals : List (Int × Bool)
  inx : Bool
  ovf : Bool
  done : Nat
  deriving DecidableEq, Repr

/-- A matrix engine (04). -/
structure MxeSt where
  active : Plane
  shadow : Plane
  /-- Entry r*128 + c of row r, column c. -/
  acc : Tbl AccEntry
  /-- Row tags (Eacc), signed. -/
  tags : Tbl Int
  /-- Stored error of a row's tag: 1 corrected on read, 2 uncorrectable (04 R123). -/
  tagErr : Tbl Nat
  /-- Beats received for MERGE entries of the lesson: key 2^14 x descriptor + 6 x row + beat. -/
  merges : Tbl MergeBeat
  /-- Fields taken by DESCRIPTOR_FETCH: descriptor index and the accumulation exponent in force (06 R192). -/
  taken : Tbl Int
  /-- Descriptors under way, and the row updates on their way in order of their cycles. -/
  pass : Option PassRun
  load : Option LoadRun
  send : Option SendRun
  updates : List AccUpdate
  /-- Index of the MERGE whose rows are being added. -/
  merge : Option Nat
  deriving DecidableEq, Repr

/-- A vector register: 512 bytes, 16 block tags, 16 poison bits (05 R147). -/
structure VReg where
  data : List Byte
  tags : List Int
  poison : List Bool
  deriving DecidableEq, Repr

/-- A w register: 64 bits, tag, poison (05 R147). -/
structure WReg where
  value : Int
  tag : Int
  poison : Bool
  deriving DecidableEq, Repr

/-- A line of the operand cache (05 R149), with the stored error of each 8-byte word: 1 corrected on read, 2 uncorrectable. -/
structure CacheLine where
  reg : VReg
  errs : Tbl Nat
  deriving DecidableEq, Repr

/-- A loaded lookup table (05 R167): header fields, entries T[0] to T[255], entries whose parity bit is wrong. -/
structure TableSlot where
  base : Int
  shift : Nat
  ex : Int
  et : Int
  entries : List Int
  bad : List Nat
  deriving DecidableEq, Repr

/-- Where a slate result goes: nowhere, a vector register, a row-sum register, a cache line, or the OUT stream with the
addresses of elements and scale bytes, the format and the exponent of an INT32 stream. -/
inductive VeDst where
  | none
  | v (n : Nat)
  | w (n : Nat)
  | line (n : Nat)
  | out (addr scaleAddr fmt : Nat) (exp : Int)
  deriving DecidableEq, Repr

/-- A result on its way (05 R159): the cycle in which it is written, its destination, and what it writes there: width code,
lanes lo to hi, tags and poison of their blocks, the row sum, the lane flags it raises, and what it reports. -/
structure VeFlight where
  at_ : Nat
  dst : VeDst
  width : Nat
  lo : Nat
  hi : Nat
  vals : List Int
  tags : List Int
  poison : List Bool
  w : WReg
  inx : List Bool
  sat : List Bool
  clear : Bool
  rcpBad : Bool
  tableBad : Bool
  parity : Bool
  deriving DecidableEq, Repr

/-- The RUN that a vector engine is working on (05 R158): its descriptor and first issue cycle, the slate, the run block,
iterations to run, iteration and instruction that issue next, accesses of this iteration by operand code. -/
structure VeRun where
  idx : Nat
  base : Nat
  slate : List Nat
  block : List Byte
  iters : Nat
  iter : Nat
  instr : Nat
  q : Tbl Nat
  deriving DecidableEq, Repr

/-- A TABLE or CACHE under way (05 R160): descriptor, cycles it takes, cycle that is next, and what a TABLE has read, with its
poison. -/
structure VeJob where
  desc : Nat
  steps : Nat
  next : Nat
  data : List Byte
  poison : List Bool
  deriving DecidableEq, Repr

/-- A vector engine (05). -/
structure VeSt where
  v : Tbl VReg
  w : Tbl WReg
  cache : Tbl CacheLine
  /-- Slots that hold a table. -/
  slots : Tbl TableSlot
  /-- Lane flags by lane: bit 0 inx, bit 1 sat (05 R171). -/
  flags : Tbl Nat
  run : Option VeRun
  job : Option VeJob
  flight : List VeFlight
  deriving DecidableEq, Repr

/-- A tile (06, 07, 10). -/
structure TileSt where
  bank0 : List Byte
  bank1 : List Byte
  armedBank : Nat
  armed : Bool
  /-- The sequencer has acknowledged ARM in this bell (02 R50). -/
  armAck : Bool
  /-- Buffered next-lesson patches, oldest first (06 R192). -/
  nextPatches : List Patch
  curPatches : List Patch
  mxe : MxeSt
  ve : VeSt
  uses : List SliceUse
  tbConflictSent : Bool
  trnRefusedSent : Bool
  hallQueue : List (Nat × Nat)
  scrubPos : Nat
  /-- Entry that the translation job treats next; bytes of page-map records that the control cores have written in this service
  slot (10 R295, R300). -/
  trnNext : Nat
  fallBytes : Nat
  heartbeats : Nat
  /-- Uncorrectable errors counted when the window of 1,024 bells began, and its first bell (20 R486). -/
  errBase : Nat
  errBell : Nat
  /-- Ungating steps in force, 0 gated to 8 running (18 R448). -/
  ungated : Nat
  halted : Bool
  deriving DecidableEq, Repr

/-- A tile-buffer access of a core that waits for its window (06 R178). -/
structure TbAccess where
  isStore : Bool
  off : Nat
  bytes : Nat
  signed : Bool
  rd : Nat
  value : Nat
  /-- CTRL cycle of the bell at which the window falls. -/
  window : Nat
  deriving DecidableEq, Repr

/-- A general core (06 R174-R190). -/
structure CoreSt where
  g : Tbl Word
  pc : Nat
  /-- CTRL cycle of the bell at which the next instruction may issue. -/
  issue : Nat
  /-- CTRL cycle at which each register's latest result is available (06 R177). -/
  ready : Tbl Nat
  tb : Option TbAccess
  /-- ARITH cycle a WAITC waits for. -/
  waitc : Option Nat
  deadline : Nat
  deriving DecidableEq, Repr

/-- A COPY that a channel is running (06 R196): its fields, the cycle of its first beat, beats issued. -/
structure CopyRun where
  mc : Nat
  srcLk8 : Bool
  dstLk8 : Bool
  dstTag : Nat
  src : Nat
  dst : Nat
  rowBytes : Nat
  rows : Nat
  srcStride : Nat
  dstStride : Nat
  startCycle : Nat
  beat : Nat
  deriving DecidableEq, Repr

/-- An INDIRECT window (06 R198). -/
structure IndirectRun where
  listAddr : Nat
  count : Nat
  next : Nat
  firstCycle : Nat
  window : Nat
  cycle : Nat
  deriving DecidableEq, Repr

/-- A service transfer posted to a channel (06 R200). -/
structure ServicePost where
  src : Nat
  dst : Nat
  bytes : Nat
  ring : Nat
  tag : Nat
  /-- Bytes of the transfer moved so far. -/
  moved : Nat
  deriving DecidableEq, Repr

/-- One word of a mover beat at a locker, from its issue to its delivery or acknowledgement (08 R237-R240). -/
structure LkOp where
  write : Bool
  /-- Word address, and the beat it belongs to. -/
  addr : Nat
  beat : Nat
  /-- Issue cycle of the beat. -/
  cycle : Nat
  /-- Tile-buffer offset that a read's word goes to, and the COPY's tag. -/
  off : Nat
  tag : Nat
  data : Nat
  poison : Bool
  done : Bool
  deriving DecidableEq, Repr

/-- A mover channel (06 R194-R200). -/
structure ChanSt where
  copy : Option CopyRun
  ind : Option IndirectRun
  posts : List ServicePost
  /-- Words at lockers issued and not yet delivered or acknowledged. -/
  ops : List LkOp
  passes : Nat
  /-- Tile whose hall passes are held. -/
  passTile : Nat
  /-- Passes on their way back from transfers that have ended: tile and number. -/
  owed : List (Nat × Nat)
  deriving DecidableEq, Repr

/-- The last beat of a bank in the present bell (08 R240). -/
structure BankUse where
  /-- Row and issue cycle of that beat. -/
  row : Nat
  cycle : Nat
  deriving DecidableEq, Repr

/-- What one NBU holds (09 R260): accumulators, their poison bits, operand elements (or index or sign words) with the
poison of each stored word, operand blocks' scale bytes, their poison, the row latch with the poison of each word. -/
structure NbuSt where
  acc : Tbl Int
  accPoison : List Nat
  operand : List Byte
  operandPoison : List Bool
  scale : List Byte
  blockPoison : List Bool
  latch : List Byte
  latchPoison : List Bool
  deriving DecidableEq, Repr

/-- An NBU sequence under way (09): the partition whose layer program it belongs to, or 255 for one started from below; its
index, or its locker; its entry; transfers done; the bell and MEM cycle at which its next transfer falls (bell of the lesson,
or system bell from below); step and decay shift read at its start; tokens held (R264); its NBUs by locker. -/
structure SeqRun where
  part : Nat
  idx : Nat
  entry : Nat
  xfer : Nat
  bell : Nat
  t : Nat
  step : Nat
  shift : Nat
  tokens : Nat
  nbus : Tbl NbuSt
  /-- The NBU_FILL or NBU_COPY that it serves: ring and tag (R278). -/
  owner : Option (Nat × Nat)
  deriving DecidableEq, Repr

/-- A memory layer (08, 09). -/
structure LayerSt where
  /-- Layer program of each partition: in force, and staged for its next lesson. -/
  prog : Tbl (List Byte)
  progNext : Tbl (List Byte)
  banks : Tbl BankUse
  /-- Consecutive bells with the estimate below 82 °C (08 R249). -/
  coolBells : Nat
  seqs : List SeqRun
  /-- The last sequence started from a layer program: partition and index (09 R280). -/
  last : Option (Nat × Nat)
  /-- Partitions whose halt notice has reached the controller. -/
  halted : List Nat
  selfRefresh : Bool
  /-- Reads of canary rows: bells since each row was written (19 R456), by 4 x form + row. -/
  canaryAge : Tbl Nat
  deriving DecidableEq, Repr

/-- The group table of a partition (11 R309-R312): the two banks, and the image of a command as the control complex read it. -/
structure GroupSt where
  bank0 : Tbl Nat
  bank1 : Tbl Nat
  image : Tbl Nat
  /-- A GROUP_TABLE command has not reached its commit point: ring, tag, bell B, generation, copies complete. -/
  cmd : Option (Nat × Nat)
  bell : Nat
  generation : Nat
  copied : Bool
  /-- The staging bank is committed: bell at which it becomes active, and its generation. -/
  scheduled : Option (Nat × Nat)
  /-- The shadows of the partition are being written after UPD_SHADOW.enable was set. -/
  shadowing : Bool
  deriving DecidableEq, Repr

/-- A data-mesh beat (07 R216, R217). -/
structure Beat where
  id : Nat
  destLt : Nat
  srcLt : Nat
  mc : Nat
  /-- 0 timed write, 1 timed merge, 2 service write. -/
  kind : Nat
  first : Bool
  last : Bool
  dstTag : Nat
  dstOff : Nat
  poison : Nat
  data : List Byte
  /-- Bell and cycle of injection; of a service beat, the bell in which it last moved. -/
  injBell : Nat
  injCycle : Nat
  /-- Where the beat is: row, column of its router, side of entry, cycle of arrival (counted from that bell). -/
  row : Nat
  col : Nat
  side : Nat
  arrive : Nat
  /-- Unit of the tile that offered the beat: 0 SEND, 1 + c mover channel c. -/
  unit : Nat
  injected : Bool
  /-- Identity of the beat injected, of which this is a copy; tiles that this copy still goes to; router outputs it has taken, seat
  and output. -/
  root : Nat
  targets : List Nat
  path : List (Nat × Nat)
  deriving DecidableEq, Repr

/-- A router output or ejection port in use in a cycle (07 R224). -/
structure RouteUse where
  seat : Nat
  out : Nat
  cycle : Nat
  side : Nat
  /-- Identity of the beat injected. -/
  beat : Nat
  timed : Bool
  deriving DecidableEq, Repr

/-- The data mesh and the control network (07). -/
structure MeshSt where
  beats : List Beat
  nextId : Nat
  uses : List RouteUse
  msgs : List CnetMsg
  deriving DecidableEq, Repr

/-- The vote group being added or signed (12 R344): carry plane, poisoned spans so far, identity of the tie plane in use,
the votes given at its first frame cycle, and the planes read. -/
structure VoteSt where
  carry : Nat
  poison : Nat
  tieId : Nat
  inVote : Nat
  locVote : Nat
  planes : List Nat
  deriving DecidableEq, Repr

/-- A fabric port (12). -/
structure PortSt where
  prog : List Byte
  progNext : List Byte
  rx : List Frame
  /-- Identity learnt at IDENT: serial, neighbour's port, half width. -/
  learnt : Option (Nat × Nat × Bool)
  /-- PROBE round trips completed in this MEASURE, and their sum in root periods (12 R334). -/
  probes : Nat
  trips : Int
  /-- How far a retraining has come: 0 ALIGN, 1 IDENT, 2 MEASURE (12 R333). -/
  again : Nat
  /-- From the link map record: enabled, half width recorded, serial. -/
  enabled : Bool
  recHalf : Bool
  heldDark : Bool
  /-- Symbols acted on: type, origin, bell (12 R332). -/
  seen : List (Nat × Nat × Nat)
  credits : Nat
  svcQueue : List Frame
  /-- Lane swaps to come in the receive and in the transmit direction, oldest first: lane, codeword boundary (12 R326). -/
  rxSwaps : List (Nat × Nat)
  txSwaps : List (Nat × Nat)
  /-- Nominal send cycle, counted over bells of 4,096, of the last timed frame sent and of the last one delivered (12 R337). -/
  lastSent : Option Nat
  lastTaken : Option Nat
  quiesced : Bool
  /-- Votes under way, by entry of the port program (12 R344). -/
  votes : Tbl VoteSt
  /-- Lowest voter identity of each count or vote leg written to the reduction buffer, by its offset (12 R344). -/
  rbTies : Tbl Nat
  /-- Service frames to send, oldest first. -/
  svcOut : List Frame
  deriving DecidableEq, Repr

/-- What a remote access serves: a request of the host, by its MXL tag, or an accepted command. -/
inductive RemoteFor where
  | reg (tag : Nat)
  | mem (tag : Nat)
  /-- A MEM_WRITE that a poisoned flit has ended: the bytes of its earlier flits are written (13 R365). -/
  | memCut (tag : Nat)
  | cmd (ring tag : Nat)
  deriving DecidableEq, Repr

/-- A service access to another device under way (12 R330): the tag of the frame sent, the address and bytes of the whole
access, and for a write its data, for a read the data returned so far. -/
structure Remote where
  tag : Nat
  owner : RemoteFor
  write : Bool
  gaddr : Nat
  bytes : Nat
  done : Nat
  data : List Byte
  deriving DecidableEq, Repr

/-- What a service access on this device serves: a MEM_READ or MEM_WRITE of the host, a MEM_WRITE that a poisoned flit has ended,
an accepted command, a service frame of another device. -/
inductive SvcFor where
  | mem (tag gaddr : Nat)
  | memCut (tag gaddr : Nat)
  | cmd (ring tag : Nat)
  | peer (f : Frame)
  deriving DecidableEq, Repr

/-- A service access on this device that waits for a window in which it may run (02 R45, R50, 08 R238). -/
structure SvcAcc where
  owner : SvcFor
  write : Bool
  addr : Nat
  len : Nat
  data : List Byte
  deriving DecidableEq, Repr

/-- A request of the host that a message of COMMAND or BULK class carries (13 R357): its tag, global address, bytes, data. -/
inductive HostReq where
  | doorbell (part ring tail : Nat)
  | regRead (tag g n : Nat)
  | regWrite (tag g n v now : Nat)
  | memRead (tag g n : Nat)
  /-- A MEM_WRITE with the data of its flits before a poisoned one; bad: there was such a flit (R365). -/
  | memWrite (tag g : Nat) (d : List Byte) (bad : Bool)
  deriving DecidableEq, Repr

/-- A request that waits until the BULK requests of these tags have completed (13 R363). -/
structure HeldReq where
  req : HostReq
  waits : List Nat
  deriving DecidableEq, Repr

/-- Where the receiver stands in a pair of PRIORITY flits: no pair open, first copy good, first copy failed (13 R359). -/
inductive PrioPair where
  | idle | good | failed
  deriving DecidableEq, Repr

/-- A HOST_READ that waits for its data (13 R365). -/
structure HostRead where
  bulk : Bool
  tag : Nat
  ring : Nat
  cmdTag : Nat
  addr : Nat
  len : Nat
  deriving DecidableEq, Repr

/-- The Milbex Link (13). -/
structure MxlSt where
  /-- Next sequence number to send, last received in order, last acknowledged by the host. -/
  txSeq : Nat
  rxSeq : Nat
  acked : Nat
  /-- Unacknowledged flits, oldest first. -/
  replay : List TxFlit
  /-- Consecutive replays of the same flit (R354). -/
  sameReplays : Nat
  lastReplay : Nat
  /-- Discarding COMMAND and BULK flits until the failed one is replayed (R360). -/
  discarding : Bool
  cmdCredits : Nat
  bulkCredits : Nat
  hostReads : List HostRead
  nextTag : Nat
  /-- Flits that wait to be sent, by class, oldest first (R358, 15 R404). -/
  prioQ : List TxFlit
  cmdQ : List TxFlit
  bulkQ : List TxFlit
  /-- COMMAND flits sent in a row, flits sent since the last IDLE flit, number of the next message. -/
  cmdRun : Nat
  sinceIdle : Nat
  nextMsg : Nat
  /-- Flits of the message being received in each class; receive buffers granted to the host and not yet used (R358). -/
  rxCmd : List Flit
  rxBulk : List Flit
  cmdGrant : Nat
  bulkGrant : Nat
  pair : PrioPair
  /-- Requests that wait for others to complete, in the order sent (R363). -/
  heldReqs : List HeldReq
  /-- Physical lanes that carry the logical lanes 0 to 7 of the receive direction, and its spare (R353). -/
  logical : List Nat
  spare : Option Nat
  /-- Swaps to come in the receive and in the transmit direction: lane, flits ahead. -/
  swap : Option (Nat × Nat)
  txSwap : Option (Nat × Nat)
  /-- The retraining under way follows a lane that no spare covers: it is at half width (R353). -/
  halfNext : Bool
  deriving DecidableEq, Repr

/-- The units of the last STOP whose QUIESCE message has not arrived, by control node (14 R391). -/
structure StopSt where
  awaited : List Nat
  /-- The units that had not reported after 10 µs have been named. -/
  named : Bool
  deriving DecidableEq, Repr

/-- What the bell that has just ended leaves for the energy accounts (15 R409-R411, 18 R451): the ring that started each
running course, the allotment of each partition that ran a course bell, bytes moved by each ring and its partition, whether it
was a recess bell, and the partitions in force. -/
structure BellPast where
  starters : Tbl Nat
  allots : Tbl Nat
  moved : Tbl Nat
  recess : Bool
  /-- Partition of each field and of each port, and of the rings that moved bytes. -/
  fields : Tbl Nat
  ports : Tbl Nat
  rings : Tbl Nat
  deriving DecidableEq, Repr

/-- Energy counters and what they accumulate from (15 R409-R412). -/
structure EnergySt where
  module : Nat
  parts : Tbl Nat
  rings : Tbl Nat
  /-- Remainder below 1 µJ of each partition, in quarters of a µJ. -/
  carry : Tbl Nat
  /-- Bytes moved through the service paths by each ring in this bell. -/
  moved : Tbl Nat
  past : BellPast
  /-- The energy of the bell that has ended has been added to the counters. -/
  counted : Bool
  deriving DecidableEq, Repr

/-- Clock gate, droop and seams (17). -/
structure ClockSt where
  gateClosed : Bool
  /-- Detectors that assert, and canaries (site + 512): die and site. -/
  asserting : List (Nat × Nat)
  masked : List (Nat × Nat)
  /-- Seams reported and not yet back: consecutive bells within the window, by segment. -/
  seamBack : Tbl Nat
  /-- Smallest margin that each canary group has reported in this bell. -/
  margins : Tbl Nat
  /-- Trim of each field root, in steps of 2.79 ps. -/
  trims : Tbl Int
  /-- Cause of an accepted stack reset that has not been released, and whether its sequence has begun (R430). -/
  resetPending : Option Nat
  resetBegun : Bool
  /-- The message with the record of a RESET that has not left the pins (14 R392). -/
  resetMsg : Option Nat
  deriving DecidableEq, Repr

/-- Phases of the power sequence (18 R438). -/
inductive PowerPhase where
  | off
  | rising
  | on
  | latched
  deriving DecidableEq, Repr

/-- Power delivery (18). -/
structure PowerSt where
  phase : PowerPhase
  /-- PGOOD_N is driven low. -/
  pgoodLow : Bool
  /-- A canary group reported at or below its warn level since the last bell boundary (R443). -/
  warnSeen : Bool
  /-- Bells since the last warn report (R443). -/
  quiet : Nat
  /-- Consecutive excesses of each form (R444). -/
  excess : Tbl Nat
  /-- Budgets set and not yet in use (R450). -/
  budgets : Option (List Nat)
  /-- Energy in µJ and allotment of the last 1,024 bells of each partition, newest first (R451). -/
  hist : Tbl (List (Nat × Nat))
  /-- Energy of the last 64 recess bells, newest first. -/
  idle : List Nat
  deriving DecidableEq, Repr

/-- Cause, region and value in the VPM's status store (19 R461, 20 R474). -/
structure StoredCause where
  cause : Nat
  region : Nat
  value : Nat
  deriving DecidableEq, Repr

/-- Sensor and model history (19). -/
structure ThermalSt where
  /-- By pair of sensors: consecutive samples of disagreement, and of agreement (R457). -/
  apart : Tbl Nat
  together : Tbl Nat
  /-- By sensor: consecutive samples more than 8 K from the model, and within 4 K of it (R458). -/
  far : Tbl Nat
  near : Tbl Nat
  /-- Model estimate of each region in 1/16 °C (R455). -/
  model : Tbl Nat
  /-- Canary estimate of each memory-layer region in 0.25 °C (R456). -/
  canary : Tbl Nat
  /-- Hottest CD adopted and model estimates of the last 513 samples in 1/16 °C, newest first (R466). -/
  hottest : List Nat
  modelHot : List Nat
  /-- Consecutive samples with a rise above model beyond 5 K/s (R466). -/
  fastRise : Nat
  /-- Samples since the last coolant evaluation, with the sums of outlet - inlet and of input power (R465). -/
  samples : Nat
  riseSum : Int
  powerSum : Nat
  /-- Consecutive evaluations above the threshold (R465). -/
  declineCount : Nat
  /-- A throttle limit has been reached and not every estimate is 1 K below its limit again (R462). -/
  limitReached : Bool
  /-- Stage S4 has refined the model (R455). -/
  modelValid : Bool
  deriving DecidableEq, Repr

/-- A record of the boot ledger's log (20 R475). -/
structure LogRec where
  seq : Nat
  start : Nat
  kind : Nat
  stage : Nat
  step : Nat
  detail : Nat
  bell : Nat
  body : List Nat
  deriving DecidableEq, Repr

/-- The boot ledger's carry block (20 R476) in force. -/
structure Carry where
  valid : Bool
  generation : Nat
  start : Nat
  /-- Attendance entries by seat: 64-bit words (R480). -/
  seats : Tbl Nat
  /-- Seating plan: seat index of each logical tile. -/
  plan : Tbl Nat
  /-- Alternatives in force, by step index. -/
  alts : List Nat
  phases : List Nat
  sensors : List Nat
  rf : Tbl Nat
  lanes : Tbl Nat
  deriving DecidableEq, Repr

/-- An exam in progress (20 R484): its command, its form, the seat indices it examines. -/
structure Exam where
  ring : Nat
  tag : Nat
  form : Nat
  left : List Nat
  deriving DecidableEq, Repr

/-- A declared tile failure whose substitution is not complete (20 R487): the tile and the test recorded for its seat. -/
structure Subst where
  lt : Nat
  test : Nat
  /-- Bell from which it may proceed: the one after the declaration where a course ran (20 R487). -/
  bell : Nat
  deriving DecidableEq, Repr

/-- An evacuation in progress (20 R491). -/
structure Evac where
  ring : Nat
  tag : Nat
  lt : Nat
  /-- Lockers copied, and addresses of the words the base die could not read. -/
  done : Nat
  bad : List Nat
  deriving DecidableEq, Repr

/-- Bring-up, ledger and repair (20). -/
structure BringSt where
  carry : Carry
  log : List LogRec
  nextSeq : Nat
  /-- HOLD_NEXT has been given for the next start; this start holds after S2 (22 R522, 20 R479). -/
  holdNext : Bool
  hold : Bool
  exam : Option Exam
  /-- Substitute seat under automatic exam (R483). -/
  autoSeat : Option Nat
  substs : List Subst
  evac : Option Evac
  deriving DecidableEq, Repr

/-- A security command under way (21 R510): its ring and tag, and the bytes it has read, or the report it writes. -/
structure SecJob where
  ring : Nat
  tag : Nat
  data : List Byte
  deriving DecidableEq, Repr

/-- An image switch past its commit point (21 R511): the set named, the set to return to, the command. -/
structure SetSwitch where
  set : Nat
  from_ : Nat
  ring : Nat
  tag : Nat
  deriving DecidableEq, Repr

/-- The security block (21): flash and fuses, and the commands it carries out. -/
structure SecSt where
  /-- Image slots: 8 x set + component, sets 0 A, 1 B, 2 golden; an unlisted slot is empty (R502, R503). -/
  slots : Tbl (List Byte)
  /-- The governing copy of the syllabus store, and the other (R501). -/
  syllabus : List Byte
  syllabusOld : List Byte
  /-- Licence store: places 0-15 (R501). -/
  licences : Tbl (List Byte)
  /-- Fuses that start-ups blow: floor and revocation bits (R506). -/
  fuseFloor : Nat
  fuseRevoked : Nat
  /-- The command that runs, and those that wait in order of acceptance (R510). -/
  job : Option SecJob
  waiting : List SecJob
  switch : Option SetSwitch
  /-- Set activated and the bell of it, until known_good takes it (R511). -/
  activated : Option (Nat × Nat)
  /-- Fallback in this start: the set started and the reason (R507). -/
  fallback : Option (Nat × Nat)
  /-- IMAGE_FALLBACK of this start waits for the MXL. -/
  fallbackDue : Bool
  deriving DecidableEq, Repr

/-- Management, TAP and trace (22). -/
structure MgmtSt where
  index : Nat
  /-- The telemetry map as last refreshed, and the whole map as latched by the last read (R520, R521). -/
  telemetry : List Byte
  latched : List Byte
  /-- Control area: command, complement, result (R521). -/
  control : List Nat
  /-- Events enabled by ENEC, and in-band interrupts that wait for it (R519, R523). -/
  events : Nat
  pendingIbi : List Nat
  /-- TAP: instruction, data register captured, boundary cells updated, and how the contacts are driven: 0 by the module,
  1 by the cells, 2 held by CLAMP, 3 released by HIGHZ (R524, R525). -/
  ir : Nat
  dr : Nat
  boundary : List Bool
  drive : Nat
  /-- Instrument operation under way: op, space, addr, data; status and data of the last (R526). -/
  instOp : Option (Nat × Nat × Nat × Nat)
  instStatus : Nat
  instData : Nat
  /-- Trace setup in force, records formed and not yet written, place of the next (R528, R529). -/
  traceSetup : List Byte
  traceQueue : List (List Byte)
  tracePos : Nat
  deriving DecidableEq, Repr

/-- Memories of the stack (01 R37): bytes by stack address, the difference of each stored check code from the code of
the stored data, poison, tags. An unlisted byte reads 0 and an unlisted difference is 0. -/
structure MemSt where
  bytes : List Host.Cell
  /-- 5-bit code difference of a tile-buffer byte, by stack address (07 R210). -/
  tbChk : Tbl Nat
  /-- The three copies of a slot's poison bit, bits 2-0, by stack address / 64 (07 R209). -/
  slotPoison : Tbl Nat
  /-- The three copies of a slot's EMPTY mark, bits 2-0, by stack address / 64; 0 is FULL (07 R209). -/
  slotEmpty : Tbl Nat
  /-- 8-bit code difference of a locker word, by stack address / 8; 0x7F is stored poison (08 R243, R244). -/
  lkChk : Tbl Nat
  /-- Poison bit of a local-memory word, by stack address / 4 (06 R175). -/
  lmPoison : Tbl Nat
  /-- Stored error of a local-memory word: 1 single bit, 2 double bit (06 R175). -/
  lmErr : Tbl Nat
  /-- Poison of a 64-byte span of a reduction buffer, by stack address / 64 (12 R343). -/
  rbPoison : Tbl Nat
  /-- Tiles whose lockers hold undefined data, with the count of free values at which they became so: a stored byte there
  is the listed byte added bit by bit to a free byte (20 R490, log entry 6). -/
  undef : Tbl Nat
  /-- Lockers of the failed seat of a tile whose evacuation is pending: bytes, code differences and undef entry, under the
  tile's addresses (20 R491). -/
  leftBytes : List Host.Cell
  leftChk : Tbl Nat
  leftUndef : Tbl Nat
  /-- Control-complex memory by offset (01 R41). -/
  cc : List Host.Cell
  deriving DecidableEq, Repr

/-- The module. -/
structure State where
  regs : Tbl Word
  /-- HI words captured by a 32-bit read of their LO register, by 2^48 x requester + address (02 R85). -/
  shadows : Tbl Word
  mem : MemSt
  /-- The model's own count of free values drawn (log entry 7). -/
  freeCtr : Nat
  variant : Variant
  /-- ARITH cycle of the bell (02 R47, log entry 9). -/
  cyc : Nat
  bell : BellSt
  map : LinkMap
  crs : Tbl Course
  groups : Tbl GroupSt
  tiles : Tbl TileSt
  cores : Tbl CoreSt
  chans : Tbl ChanSt
  layers : Tbl LayerSt
  mesh : MeshSt
  ports : Tbl PortSt
  remotes : List Remote
  /-- Service accesses that wait for their window, oldest first. -/
  svcWait : List SvcAcc
  /-- Next request tag for a service frame. -/
  nextSvcTag : Nat
  mxl : MxlSt
  cmds : List Cmd
  done : List DoneCmd
  /-- Pending entries that an ABORT has fetched out of turn: ring and index (14 R383). -/
  skips : List (Nat × Nat)
  /-- Ring last served and commands it has fetched in a row (14 R376). -/
  lastRing : Nat
  lastRun : Nat
  /-- Rings whose head entry has its fence flag set and waits for their earlier commands (14 R377). -/
  fences : List Nat
  evRings : Tbl EvRing
  stop : Option StopSt
  energy : EnergySt
  clock : ClockSt
  power : PowerSt
  stored : Option StoredCause
  /-- Bell and cycle of the setting that ARI_FIRST records (03 R115). -/
  ariAt : Nat × Nat
  therm : ThermalSt
  bring : BringSt
  sec : SecSt
  mgmt : MgmtSt
  /-- What the device has sent, oldest first. -/
  out : List Out
  /-- Commands that wait, first in first out. -/
  pending : List Instr
  deriving DecidableEq, Repr

/-! Reset. Register values stand in Regs.lean (a register not listed here holds its reset value); the values of what the
spec gives no reset value are those of log entry 13, and what a part is delivered with is open (log entry 5). -/

def BellSt.reset : BellSt :=
  { chargeGuard := 0, chargeSlots := 0, carried := 0, overrun := false, guardCycles := 64, guardHold := 0, slotCycles := 128,
    slotHold := 0, lost := 0, heard := false, missing := 0,
    inTol := 0, warned := false, trim := 0, pacer := 0, join := none, announced := [], recess := none, requests := [],
    own := [], reload := false, silent := false, point := 0, asked := false }

def LinkMap.reset : LinkMap :=
  { loaded := false, device := 0, nx := 1, ny := 1, nz := 1, timekeeper := 0, backup := 0, horizon := 0 }

def MeshSt.reset : MeshSt := { beats := [], nextId := 0, uses := [], msgs := [] }

def MxlSt.reset : MxlSt :=
  { txSeq := 0, rxSeq := 4095, acked := 4095, replay := [], sameReplays := 0, lastReplay := 0, discarding := false,
    cmdCredits := 0, bulkCredits := 0, hostReads := [], nextTag := 0, prioQ := [], cmdQ := [], bulkQ := [], cmdRun := 0,
    sinceIdle := 0, nextMsg := 0, rxCmd := [], rxBulk := [], cmdGrant := 0, bulkGrant := 0, pair := .idle, heldReqs := [],
    logical := [], spare := none, swap := none, txSwap := none, halfNext := false }

def EnergySt.reset : EnergySt :=
  { module := 0, parts := [], rings := [], carry := [], moved := [],
    past := { starters := [], allots := [], moved := [], recess := false, fields := [], ports := [], rings := [] }
    counted := true }

def ClockSt.reset : ClockSt :=
  { gateClosed := false, asserting := [], masked := [], seamBack := [], margins := [], trims := [], resetPending := none,
    resetBegun := false, resetMsg := none }

def PowerSt.reset : PowerSt :=
  { phase := .on, pgoodLow := true, warnSeen := false, quiet := 0, excess := [], budgets := none, hist := [], idle := [] }

def ThermalSt.reset : ThermalSt :=
  { apart := [], together := [], far := [], near := [], model := [], canary := [], hottest := [], modelHot := [],
    fastRise := 0, samples := 0, riseSum := 0, powerSum := 0, declineCount := 0, limitReached := false, modelValid := false }

def Carry.reset : Carry :=
  { valid := false, generation := 0, start := 0, seats := [], plan := [], alts := [], phases := [], sensors := [], rf := [],
    lanes := [] }

def BringSt.reset : BringSt :=
  { carry := .reset, log := [], nextSeq := 0, holdNext := false, hold := false, exam := none, autoSeat := none,
    substs := [], evac := none }

/-- A part as delivered: the golden set and the syllabus in flash, the licence of its tier stored, no floor and no
revocation blown (21 R501, 23 R546). -/
def SecSt.reset : SecSt :=
  { slots := [(17, Config.factoryImage 1), (18, Config.factoryImage 2), (19, Config.factoryImage 3),
      (20, Config.factoryImage 4), (21, Config.factoryImage 5)]
    syllabus := Config.factorySyllabus, syllabusOld := [], licences := [(0, Config.factoryLicence)],
    fuseFloor := 0, fuseRevoked := 0, job := none,
    waiting := [], switch := none, activated := none, fallback := none, fallbackDue := false }

def MgmtSt.reset : MgmtSt :=
  { index := 0, telemetry := [], latched := [], control := [0, 0, 0], events := 0, pendingIbi := [], ir := 2, dr := 0,
    boundary := [], drive := 0, instOp := none, instStatus := 0, instData := 0, traceSetup := [], traceQueue := [],
    tracePos := 0 }

def MemSt.reset : MemSt :=
  { bytes := [], tbChk := [], slotPoison := [], slotEmpty := [], lkChk := [], lmPoison := [], lmErr := [], rbPoison := [],
    undef := [], leftBytes := [], leftChk := [], leftUndef := [], cc := [] }

/-- The module right after a reset on power-on: power-good, stage S1 about to run, nothing in any memory, no command
waiting. -/
def State.reset : State :=
  { regs := [], shadows := [], mem := .reset, freeCtr := 0, variant := .ahn4W, cyc := 0, bell := .reset, map := .reset,
    crs := [], groups := [], tiles := [], cores := [], chans := [], layers := [], mesh := .reset, ports := [],
    remotes := [], svcWait := [], nextSvcTag := 0, mxl := .reset, cmds := [], done := [], skips := [], lastRing := 0, lastRun := 0, fences := [],
    evRings := [], stop := none, energy := .reset, clock := .reset, power := .reset, stored := none, ariAt := (0, 0), therm := .reset,
    bring := .reset, sec := .reset, mgmt := .reset, out := [], pending := [] }

end Sys2Proof.Machine
end

