-- ==== Sys2Proof/Machine/Regs.lean ====
section
/-! DEFINITION. The registers: the stack address of each register the spec names, its fields, and for each kind of
register its reset value, the bits a write sets, the bits a write of 1 clears, the bits preserved across a stack
reset and the bits that are error counters. Transcribed from the register tables of the chapters; a reset entry P is 0
after power-on, and a reset entry F is loaded at S1 (State.loadFuses), with the value of log entry 37 until then. -/

namespace Sys2Proof.Machine

/-- R35. -/
def STK_ID : Nat := 0xf00000010000
def STK_ID_device_id : Fld := ⟨0, 16⟩
def STK_ID_id_valid : Fld := ⟨31, 1⟩

/-- R35, index below 256. -/
def STK_SEAT_LT (i : Nat) : Nat := 0xf00000010400 + 0x4 * i
def STK_SEAT_LT_seat : Fld := ⟨0, 5⟩
def STK_SEAT_LT_moves : Fld := ⟨8, 8⟩

/-- R35, index below 16. -/
def STK_FORM_STATUS (i : Nat) : Nat := 0xf00000010800 + 0x4 * i
def STK_FORM_STATUS_dead : Fld := ⟨0, 18⟩
def STK_FORM_STATUS_spares : Fld := ⟨18, 2⟩
def STK_FORM_STATUS_short : Fld := ⟨20, 1⟩
def STK_FORM_STATUS_excluded : Fld := ⟨21, 1⟩
def STK_FORM_STATUS_isolated : Fld := ⟨22, 1⟩

/-- R84. -/
def BELL_COUNT_LO : Nat := 0xf00000020000
def BELL_COUNT_LO_value : Fld := ⟨0, 32⟩

/-- R84. -/
def BELL_COUNT_HI : Nat := 0xf00000020004
def BELL_COUNT_HI_value : Fld := ⟨0, 32⟩

/-- R85. -/
def BELL_SYNC : Nat := 0xf00000020008
def BELL_SYNC_joined : Fld := ⟨0, 1⟩
def BELL_SYNC_out_of_step : Fld := ⟨1, 1⟩
def BELL_SYNC_holdover : Fld := ⟨2, 1⟩
def BELL_SYNC_timekeeper : Fld := ⟨3, 1⟩
def BELL_SYNC_backup : Fld := ⟨4, 1⟩
def BELL_SYNC_recess : Fld := ⟨5, 1⟩
def BELL_SYNC_phase_err : Fld := ⟨16, 8⟩

/-- R85. -/
def BELL_STRETCH : Nat := 0xf0000002000c
def BELL_STRETCH_last_charge : Fld := ⟨0, 12⟩
def BELL_STRETCH_peak_charge : Fld := ⟨16, 12⟩
def BELL_STRETCH_clear_peak : Fld := ⟨31, 1⟩

/-- R85. -/
def BELL_OVERRUN_COUNT : Nat := 0xf00000020010
def BELL_OVERRUN_COUNT_count : Fld := ⟨0, 16⟩
def BELL_OVERRUN_COUNT_clear : Fld := ⟨31, 1⟩

/-- R84. -/
def BELL_RECESS_AT_LO : Nat := 0xf00000020018
def BELL_RECESS_AT_LO_value : Fld := ⟨0, 32⟩

/-- R84. -/
def BELL_RECESS_AT_HI : Nat := 0xf0000002001c
def BELL_RECESS_AT_HI_value : Fld := ⟨0, 32⟩

/-- R84. -/
def BELL_RECESS_K : Nat := 0xf00000020020
def BELL_RECESS_K_k : Fld := ⟨0, 8⟩

/-- R84. -/
def BELL_RECESS_TAKEN_LO : Nat := 0xf00000020028
def BELL_RECESS_TAKEN_LO_value : Fld := ⟨0, 32⟩

/-- R84. -/
def BELL_RECESS_TAKEN_HI : Nat := 0xf0000002002c
def BELL_RECESS_TAKEN_HI_value : Fld := ⟨0, 16⟩
def BELL_RECESS_TAKEN_HI_pinned : Fld := ⟨31, 1⟩

/-- R85, index below 4. -/
def BELL_CRS_STATE (i : Nat) : Nat := 0xf00000020100 + 0x40 * i
def BELL_CRS_STATE_state : Fld := ⟨0, 3⟩
def BELL_CRS_STATE_open : Fld := ⟨3, 1⟩
def BELL_CRS_STATE_halt_late : Fld := ⟨4, 1⟩
def BELL_CRS_STATE_roster_late : Fld := ⟨16, 16⟩

/-- R84, index below 4. -/
def BELL_CRS_BELLS_LO (i : Nat) : Nat := 0xf00000020104 + 0x40 * i
def BELL_CRS_BELLS_LO_value : Fld := ⟨0, 32⟩

/-- R84, index below 4. -/
def BELL_CRS_BELLS_HI (i : Nat) : Nat := 0xf00000020108 + 0x40 * i
def BELL_CRS_BELLS_HI_value : Fld := ⟨0, 32⟩

/-- R84, index below 4. -/
def BELL_CRS_LESSON (i : Nat) : Nat := 0xf0000002010c + 0x40 * i
def BELL_CRS_LESSON_lesson : Fld := ⟨0, 17⟩

/-- R84, index below 4. -/
def BELL_CRS_ITER (i : Nat) : Nat := 0xf00000020110 + 0x40 * i
def BELL_CRS_ITER_value : Fld := ⟨0, 32⟩

/-- R84, index below 4. -/
def BELL_CRS_HALT_LO (i : Nat) : Nat := 0xf00000020114 + 0x40 * i
def BELL_CRS_HALT_LO_value : Fld := ⟨0, 32⟩

/-- R84, index below 4. -/
def BELL_CRS_HALT_HI (i : Nat) : Nat := 0xf00000020118 + 0x40 * i
def BELL_CRS_HALT_HI_value : Fld := ⟨0, 32⟩

/-- R84, index below 4. -/
def BELL_CRS_CKPT_LO (i : Nat) : Nat := 0xf0000002011c + 0x40 * i
def BELL_CRS_CKPT_LO_value : Fld := ⟨0, 32⟩

/-- R84, index below 4. -/
def BELL_CRS_CKPT_HI (i : Nat) : Nat := 0xf00000020120 + 0x40 * i
def BELL_CRS_CKPT_HI_value : Fld := ⟨0, 32⟩

/-- R115. -/
def ARI_SUMMARY : Nat := 0xf00000030000
def ARI_SUMMARY_inx : Fld := ⟨0, 1⟩
def ARI_SUMMARY_ovf : Fld := ⟨1, 1⟩
def ARI_SUMMARY_sat : Fld := ⟨2, 1⟩
def ARI_SUMMARY_clear_all : Fld := ⟨31, 1⟩

/-- R115. -/
def ARI_FIRST : Nat := 0xf00000030008
def ARI_FIRST_lesson : Fld := ⟨0, 17⟩
def ARI_FIRST_unit : Fld := ⟨17, 8⟩
def ARI_FIRST_partition : Fld := ⟨25, 2⟩
def ARI_FIRST_port : Fld := ⟨27, 1⟩
def ARI_FIRST_flag : Fld := ⟨28, 2⟩
def ARI_FIRST_valid : Fld := ⟨31, 1⟩

/-- R115, index below 256. -/
def ARI_FLAGS_LT (i : Nat) : Nat := 0xf00000030400 + 0x4 * i
def ARI_FLAGS_LT_inx : Fld := ⟨0, 1⟩
def ARI_FLAGS_LT_ovf : Fld := ⟨1, 1⟩
def ARI_FLAGS_LT_sat : Fld := ⟨2, 1⟩
def ARI_FLAGS_LT_inx_mxe : Fld := ⟨8, 1⟩
def ARI_FLAGS_LT_inx_ve : Fld := ⟨9, 1⟩
def ARI_FLAGS_LT_inx_nbu : Fld := ⟨10, 1⟩

/-- R115, index below 6. -/
def ARI_FLAGS_PORT (i : Nat) : Nat := 0xf00000030800 + 0x4 * i
def ARI_FLAGS_PORT_inx : Fld := ⟨0, 1⟩
def ARI_FLAGS_PORT_ovf : Fld := ⟨1, 1⟩
def ARI_FLAGS_PORT_sat : Fld := ⟨2, 1⟩

/-- R145, index below 256. -/
def MXE_STATUS_LT (i : Nat) : Nat := 0xf00000040000 + 0x20 * i
def MXE_STATUS_LT_busy : Fld := ⟨0, 1⟩
def MXE_STATUS_LT_halted : Fld := ⟨1, 1⟩
def MXE_STATUS_LT_square_mismatch : Fld := ⟨2, 1⟩
def MXE_STATUS_LT_tag_mismatch : Fld := ⟨3, 1⟩
def MXE_STATUS_LT_merge_dropped : Fld := ⟨4, 1⟩
def MXE_STATUS_LT_plane_wfmt : Fld := ⟨8, 3⟩
def MXE_STATUS_LT_plane_fold : Fld := ⟨11, 2⟩
def MXE_STATUS_LT_square_ok : Fld := ⟨16, 16⟩

/-- R145, index below 256. -/
def MXE_PROGRESS_LT (i : Nat) : Nat := 0xf00000040004 + 0x20 * i
def MXE_PROGRESS_LT_rows_done : Fld := ⟨0, 12⟩
def MXE_PROGRESS_LT_pass_active : Fld := ⟨12, 1⟩

/-- R145, index below 256. -/
def MXE_REPAIR_ROW_LT (i : Nat) : Nat := 0xf00000040008 + 0x20 * i
def MXE_REPAIR_ROW_LT_x0 : Fld := ⟨0, 6⟩
def MXE_REPAIR_ROW_LT_x1 : Fld := ⟨8, 6⟩
def MXE_REPAIR_ROW_LT_x2 : Fld := ⟨16, 6⟩
def MXE_REPAIR_ROW_LT_x3 : Fld := ⟨24, 6⟩
def MXE_REPAIR_ROW_LT_soft : Fld := ⟨31, 1⟩

/-- R145, index below 256. -/
def MXE_REPAIR_COL_LT (i : Nat) : Nat := 0xf0000004000c + 0x20 * i
def MXE_REPAIR_COL_LT_x0 : Fld := ⟨0, 6⟩
def MXE_REPAIR_COL_LT_x1 : Fld := ⟨8, 6⟩
def MXE_REPAIR_COL_LT_x2 : Fld := ⟨16, 6⟩
def MXE_REPAIR_COL_LT_x3 : Fld := ⟨24, 6⟩
def MXE_REPAIR_COL_LT_soft : Fld := ⟨31, 1⟩

/-- R145, index below 256. -/
def MXE_ERRORS_LT (i : Nat) : Nat := 0xf00000040010 + 0x20 * i
def MXE_ERRORS_LT_acc_corrected : Fld := ⟨0, 10⟩
def MXE_ERRORS_LT_acc_uncorrected : Fld := ⟨10, 10⟩
def MXE_ERRORS_LT_plane_parity : Fld := ⟨20, 10⟩

/-- R173, index below 256. -/
def VE_STATUS_LT (i : Nat) : Nat := 0xf00000050000 + 0x10 * i
def VE_STATUS_LT_busy : Fld := ⟨0, 1⟩
def VE_STATUS_LT_halted : Fld := ⟨1, 1⟩
def VE_STATUS_LT_table_bad : Fld := ⟨2, 1⟩
def VE_STATUS_LT_rcp_bad : Fld := ⟨3, 1⟩
def VE_STATUS_LT_slate_bad : Fld := ⟨4, 1⟩
def VE_STATUS_LT_tables_loaded : Fld := ⟨8, 8⟩

/-- R173, index below 256. -/
def VE_PROGRESS_LT (i : Nat) : Nat := 0xf00000050004 + 0x10 * i
def VE_PROGRESS_LT_iters_done : Fld := ⟨0, 12⟩
def VE_PROGRESS_LT_run_active : Fld := ⟨12, 1⟩

/-- R173, index below 256. -/
def VE_ERRORS_LT (i : Nat) : Nat := 0xf00000050008 + 0x10 * i
def VE_ERRORS_LT_cache_corrected : Fld := ⟨0, 10⟩
def VE_ERRORS_LT_cache_uncorrected : Fld := ⟨10, 10⟩
def VE_ERRORS_LT_table_parity : Fld := ⟨20, 10⟩

/-- R203, index below 16384. -/
def GC_STATUS (i : Nat) : Nat := 0xf00000060000 + 0x10 * i
def GC_STATUS_running : Fld := ⟨0, 1⟩
def GC_STATUS_halted : Fld := ⟨1, 1⟩
def GC_STATUS_tainted : Fld := ⟨2, 1⟩
def GC_STATUS_runtime : Fld := ⟨3, 1⟩
def GC_STATUS_dead_stop : Fld := ⟨4, 1⟩
def GC_STATUS_trap_cause : Fld := ⟨8, 8⟩
def GC_STATUS_task : Fld := ⟨16, 12⟩
def GC_STATUS_patch_dropped : Fld := ⟨28, 4⟩

/-- R203, index below 16384. -/
def GC_TRAP_PC (i : Nat) : Nat := 0xf00000060004 + 0x10 * i
def GC_TRAP_PC_pc : Fld := ⟨0, 32⟩

/-- R203, index below 16384. -/
def GC_TRAP_ADDR (i : Nat) : Nat := 0xf00000060008 + 0x10 * i
def GC_TRAP_ADDR_addr : Fld := ⟨0, 32⟩

/-- R203, index below 16384. -/
def GC_ERRORS (i : Nat) : Nat := 0xf0000006000c + 0x10 * i
def GC_ERRORS_lm_corrected : Fld := ⟨0, 10⟩
def GC_ERRORS_lm_uncorrected : Fld := ⟨10, 10⟩
def GC_ERRORS_fetch_uncorrected : Fld := ⟨20, 10⟩

/-- R203, indices below 256 and 8. -/
def MOV_STATUS_LT (i j : Nat) : Nat := 0xf000000a0000 + 0x80 * i + 0x10 * j
def MOV_STATUS_LT_status : Fld := ⟨0, 8⟩
def MOV_STATUS_LT_busy : Fld := ⟨8, 1⟩
def MOV_STATUS_LT_service_stop : Fld := ⟨9, 1⟩
def MOV_STATUS_LT_reset_lost : Fld := ⟨10, 1⟩

/-- R203, indices below 256 and 8. -/
def MOV_PROGRESS_LT (i j : Nat) : Nat := 0xf000000a0004 + 0x80 * i + 0x10 * j
def MOV_PROGRESS_LT_rows_done : Fld := ⟨0, 16⟩
def MOV_PROGRESS_LT_desc_done : Fld := ⟨16, 12⟩

/-- R203, indices below 256 and 8. -/
def MOV_FAULT_ADDR_LO_LT (i j : Nat) : Nat := 0xf000000a0008 + 0x80 * i + 0x10 * j
def MOV_FAULT_ADDR_LO_LT_addr_lo : Fld := ⟨0, 32⟩

/-- R203, indices below 256 and 8. -/
def MOV_FAULT_ADDR_HI_LT (i j : Nat) : Nat := 0xf000000a000c + 0x80 * i + 0x10 * j
def MOV_FAULT_ADDR_HI_LT_addr_hi : Fld := ⟨0, 16⟩

/-- R203, index below 256. -/
def GC_PATCH_LT (i : Nat) : Nat := 0xf000000a8000 + 0x4 * i
def GC_PATCH_LT_pending : Fld := ⟨0, 7⟩
def GC_PATCH_LT_dropped : Fld := ⟨7, 1⟩

/-- R234, index below 256. -/
def TB_ERRORS_LT (i : Nat) : Nat := 0xf000000b0000 + 0x10 * i
def TB_ERRORS_LT_byte_corrected : Fld := ⟨0, 10⟩
def TB_ERRORS_LT_byte_uncorrected : Fld := ⟨10, 10⟩
def TB_ERRORS_LT_conflicts : Fld := ⟨20, 10⟩

/-- R234, index below 256. -/
def TB_READS_LT (i : Nat) : Nat := 0xf000000b0004 + 0x10 * i
def TB_READS_LT_empty_read : Fld := ⟨0, 10⟩

/-- R234, index below 256. -/
def TB_FAULT_LT (i : Nat) : Nat := 0xf000000b0008 + 0x10 * i
def TB_FAULT_LT_offset : Fld := ⟨0, 22⟩
def TB_FAULT_LT_kind : Fld := ⟨22, 2⟩
def TB_FAULT_LT_valid : Fld := ⟨31, 1⟩

/-- R234, index below 256. -/
def TB_HALL_LT (i : Nat) : Nat := 0xf000000b000c + 0x10 * i
def TB_HALL_LT_free : Fld := ⟨0, 5⟩

/-- R234. -/
def TB_SCRUB_CTRL : Nat := 0xf000000b1000
def TB_SCRUB_CTRL_enable : Fld := ⟨0, 1⟩
def TB_SCRUB_CTRL_span : Fld := ⟨1, 2⟩

/-- R234. -/
def TB_SCRUB_PASSES : Nat := 0xf000000b1004
def TB_SCRUB_PASSES_passes : Fld := ⟨0, 16⟩

/-- R234, index below 288. -/
def MESH_ERRORS_SEAT (i : Nat) : Nat := 0xf000000c0000 + 0x4 * i
def MESH_ERRORS_SEAT_link_corrected : Fld := ⟨0, 10⟩
def MESH_ERRORS_SEAT_link_uncorrected : Fld := ⟨10, 10⟩
def MESH_ERRORS_SEAT_hdr_drop : Fld := ⟨20, 10⟩
def MESH_ERRORS_SEAT_bypassed : Fld := ⟨30, 1⟩

/-- R234. -/
def MESH_CONFLICT : Nat := 0xf000000c0800
def MESH_CONFLICT_lt : Fld := ⟨0, 8⟩
def MESH_CONFLICT_cycle : Fld := ⟨8, 12⟩
def MESH_CONFLICT_kind : Fld := ⟨20, 2⟩
def MESH_CONFLICT_valid : Fld := ⟨31, 1⟩

/-- R234. -/
def CNET_ERRORS : Nat := 0xf000000c1000
def CNET_ERRORS_word_corrected : Fld := ⟨0, 10⟩
def CNET_ERRORS_word_dropped : Fld := ⟨10, 10⟩

/-- R259, index below 4. -/
def MEM_LAYER (i : Nat) : Nat := 0xf000000d0000 + 0x10 * i
def MEM_LAYER_slot_b_refresh : Fld := ⟨0, 1⟩
def MEM_LAYER_trained : Fld := ⟨1, 1⟩
def MEM_LAYER_temp : Fld := ⟨8, 8⟩
def MEM_LAYER_refresh_row : Fld := ⟨16, 11⟩

/-- R259, index below 4. -/
def MEM_CHAN (i : Nat) : Nat := 0xf000000d0004 + 0x10 * i
def MEM_CHAN_conflicts : Fld := ⟨0, 10⟩
def MEM_CHAN_cmd_parity : Fld := ⟨10, 10⟩

/-- R259, index below 4. -/
def MEM_FAULT_LO (i : Nat) : Nat := 0xf000000d0008 + 0x10 * i
def MEM_FAULT_LO_addr_lo : Fld := ⟨0, 32⟩

/-- R259, index below 4. -/
def MEM_FAULT_HI (i : Nat) : Nat := 0xf000000d000c + 0x10 * i
def MEM_FAULT_HI_addr_hi : Fld := ⟨0, 16⟩
def MEM_FAULT_HI_kind : Fld := ⟨16, 2⟩
def MEM_FAULT_HI_valid : Fld := ⟨31, 1⟩

/-- R259. -/
def MEM_SCRUB_CTRL : Nat := 0xf000000d0100
def MEM_SCRUB_CTRL_enable : Fld := ⟨0, 1⟩
def MEM_SCRUB_CTRL_hot_scrub : Fld := ⟨1, 1⟩

/-- R259, index below 4. -/
def MEM_SCRUB_STATUS (i : Nat) : Nat := 0xf000000d0110 + 0x4 * i
def MEM_SCRUB_STATUS_position : Fld := ⟨0, 13⟩
def MEM_SCRUB_STATUS_passes : Fld := ⟨13, 16⟩

/-- R259. -/
def MEM_EVAC : Nat := 0xf000000d0120
def MEM_EVAC_lt : Fld := ⟨0, 8⟩
def MEM_EVAC_lockers_done : Fld := ⟨8, 7⟩
def MEM_EVAC_active : Fld := ⟨15, 1⟩
def MEM_EVAC_poisoned : Fld := ⟨16, 10⟩

/-- R259, indices below 4 and 16. -/
def MEM_ERRORS_L_F (i j : Nat) : Nat := 0xf000000d0200 + 0x40 * i + 0x4 * j
def MEM_ERRORS_L_F_corrected : Fld := ⟨0, 10⟩
def MEM_ERRORS_L_F_uncorrected : Fld := ⟨10, 10⟩
def MEM_ERRORS_L_F_poison_read : Fld := ⟨20, 10⟩

/-- R280. -/
def NBU_TOKEN_LIMIT : Nat := 0xf000000e0000
def NBU_TOKEN_LIMIT_limit : Fld := ⟨0, 15⟩
def NBU_TOKEN_LIMIT_locked : Fld := ⟨15, 1⟩
def NBU_TOKEN_LIMIT_max : Fld := ⟨16, 15⟩

/-- R280. -/
def NBU_TOKENS : Nat := 0xf000000e0004
def NBU_TOKENS_in_use : Fld := ⟨0, 15⟩
def NBU_TOKENS_peak : Fld := ⟨16, 15⟩
def NBU_TOKENS_clear_peak : Fld := ⟨31, 1⟩

/-- R280, index below 4. -/
def NBU_LAYER (i : Nat) : Nat := 0xf000000e0010 + 0x4 * i
def NBU_LAYER_active : Fld := ⟨0, 13⟩
def NBU_LAYER_seq : Fld := ⟨16, 10⟩
def NBU_LAYER_seq_active : Fld := ⟨26, 1⟩
def NBU_LAYER_halted : Fld := ⟨27, 1⟩

/-- R280, index below 4. -/
def NBU_PROGRESS (i : Nat) : Nat := 0xf000000e0020 + 0x4 * i
def NBU_PROGRESS_transfers_done : Fld := ⟨0, 16⟩

/-- R280, index below 256. -/
def NBU_STATUS_LT (i : Nat) : Nat := 0xf000000e0400 + 0x4 * i
def NBU_STATUS_LT_busy : Fld := ⟨0, 4⟩
def NBU_STATUS_LT_bad_index : Fld := ⟨8, 10⟩
def NBU_STATUS_LT_sign_invalid : Fld := ⟨18, 10⟩

/-- R305. -/
def TRN_AREA : Nat := 0xf000000f0000
def TRN_AREA_base : Fld := ⟨0, 10⟩
def TRN_AREA_leaf_blocks : Fld := ⟨10, 4⟩
def TRN_AREA_enable : Fld := ⟨31, 1⟩

/-- R305. -/
def TRN_POOL : Nat := 0xf000000f0004
def TRN_POOL_row_first : Fld := ⟨0, 11⟩
def TRN_POOL_row_last : Fld := ⟨16, 11⟩

/-- R305, index below 256. -/
def TRN_STATUS_LT (i : Nat) : Nat := 0xf000000f0400 + 0x10 * i
def TRN_STATUS_LT_busy : Fld := ⟨0, 1⟩
def TRN_STATUS_LT_fallback : Fld := ⟨1, 1⟩
def TRN_STATUS_LT_area_lost : Fld := ⟨2, 1⟩
def TRN_STATUS_LT_last_status : Fld := ⟨8, 8⟩

/-- R305, index below 256. -/
def TRN_COUNT_LT (i : Nat) : Nat := 0xf000000f0404 + 0x10 * i
def TRN_COUNT_LT_refused : Fld := ⟨0, 10⟩
def TRN_COUNT_LT_poisoned : Fld := ⟨10, 10⟩
def TRN_COUNT_LT_fallback_late : Fld := ⟨20, 10⟩

/-- R305, index below 256. -/
def TRN_FREE_LT (i : Nat) : Nat := 0xf000000f0408 + 0x10 * i
def TRN_FREE_LT_frames : Fld := ⟨0, 15⟩
def TRN_FREE_LT_leaves : Fld := ⟨16, 13⟩

/-- R320. -/
def UPD_SHADOW : Nat := 0xf00000100000
def UPD_SHADOW_base : Fld := ⟨0, 10⟩
def UPD_SHADOW_enable : Fld := ⟨31, 1⟩

/-- R320, index below 4. -/
def UPD_STATE (i : Nat) : Nat := 0xf00000100100 + 0x40 * i
def UPD_STATE_active_bank : Fld := ⟨0, 1⟩
def UPD_STATE_pending : Fld := ⟨1, 1⟩
def UPD_STATE_copying : Fld := ⟨2, 1⟩
def UPD_STATE_late : Fld := ⟨16, 16⟩

/-- R320, index below 4. -/
def UPD_GEN_ACTIVE (i : Nat) : Nat := 0xf00000100104 + 0x40 * i
def UPD_GEN_ACTIVE_generation : Fld := ⟨0, 32⟩

/-- R320, index below 4. -/
def UPD_GEN_PENDING (i : Nat) : Nat := 0xf00000100108 + 0x40 * i
def UPD_GEN_PENDING_generation : Fld := ⟨0, 32⟩

/-- R320, index below 4. -/
def UPD_ACTIVE_AT_LO (i : Nat) : Nat := 0xf0000010010c + 0x40 * i
def UPD_ACTIVE_AT_LO_bell_lo : Fld := ⟨0, 32⟩

/-- R320, index below 4. -/
def UPD_ACTIVE_AT_HI (i : Nat) : Nat := 0xf00000100110 + 0x40 * i
def UPD_ACTIVE_AT_HI_bell_hi : Fld := ⟨0, 32⟩

/-- R350, index below 6. -/
def PORT_STATE (i : Nat) : Nat := 0xf00000110000 + 0x40 * i
def PORT_STATE_state : Fld := ⟨0, 4⟩
def PORT_STATE_half_width : Fld := ⟨4, 1⟩
def PORT_STATE_licensed : Fld := ⟨5, 1⟩
def PORT_STATE_enable : Fld := ⟨6, 1⟩
def PORT_STATE_down_reason : Fld := ⟨8, 4⟩
def PORT_STATE_neighbour : Fld := ⟨16, 16⟩

/-- R350, index below 6. -/
def PORT_LANES (i : Nat) : Nat := 0xf00000110004 + 0x40 * i
def PORT_LANES_lanes_good : Fld := ⟨0, 6⟩
def PORT_LANES_spares_left : Fld := ⟨6, 2⟩
def PORT_LANES_swaps : Fld := ⟨8, 8⟩
def PORT_LANES_swap_threshold : Fld := ⟨16, 8⟩

/-- R350, index below 6. -/
def PORT_LATENCY (i : Nat) : Nat := 0xf00000110008 + 0x40 * i
def PORT_LATENCY_d_meas : Fld := ⟨0, 12⟩
def PORT_LATENCY_d_rec : Fld := ⟨12, 12⟩

/-- R350, index below 6. -/
def PORT_SYMDELAY (i : Nat) : Nat := 0xf0000011000c + 0x40 * i
def PORT_SYMDELAY_delay : Fld := ⟨0, 24⟩

/-- R350, index below 6. -/
def PORT_ERRORS (i : Nat) : Nat := 0xf00000110010 + 0x40 * i
def PORT_ERRORS_frames_poisoned : Fld := ⟨0, 10⟩
def PORT_ERRORS_frames_absent : Fld := ⟨10, 10⟩
def PORT_ERRORS_symbols_dropped : Fld := ⟨20, 10⟩

/-- R350. -/
def FAB_TREE : Nat := 0xf00000110200
def FAB_TREE_up_primary : Fld := ⟨0, 3⟩
def FAB_TREE_up_backup : Fld := ⟨3, 3⟩
def FAB_TREE_down_primary : Fld := ⟨6, 6⟩
def FAB_TREE_down_backup : Fld := ⟨12, 6⟩
def FAB_TREE_following_backup : Fld := ⟨18, 1⟩

/-- R350. -/
def FAB_PART : Nat := 0xf00000110204
def FAB_PART_part : Fld := ⟨0, 12⟩

/-- R372. -/
def MXL_STATE : Nat := 0xf00000120000
def MXL_STATE_state : Fld := ⟨0, 4⟩
def MXL_STATE_half_width : Fld := ⟨4, 1⟩
def MXL_STATE_spare_used : Fld := ⟨5, 1⟩
def MXL_STATE_enable : Fld := ⟨6, 1⟩
def MXL_STATE_down_reason : Fld := ⟨8, 4⟩
def MXL_STATE_retrains : Fld := ⟨16, 8⟩

/-- R372. -/
def MXL_LANES : Nat := 0xf00000120004
def MXL_LANES_good : Fld := ⟨0, 9⟩
def MXL_LANES_swap_threshold : Fld := ⟨16, 8⟩

/-- R372. -/
def MXL_ERRORS : Nat := 0xf00000120008
def MXL_ERRORS_flits_corrected : Fld := ⟨0, 10⟩
def MXL_ERRORS_flits_failed : Fld := ⟨10, 10⟩
def MXL_ERRORS_bad_type : Fld := ⟨20, 5⟩
def MXL_ERRORS_db_dropped : Fld := ⟨25, 5⟩

/-- R372. -/
def MXL_RETRY : Nat := 0xf0000012000c
def MXL_RETRY_replays : Fld := ⟨0, 10⟩
def MXL_RETRY_timeouts : Fld := ⟨10, 10⟩

/-- R372. -/
def MXL_PRIO : Nat := 0xf00000120010
def MXL_PRIO_queued : Fld := ⟨0, 5⟩
def MXL_PRIO_overflow : Fld := ⟨8, 4⟩
def MXL_PRIO_prio_bad : Fld := ⟨12, 4⟩
def MXL_PRIO_last_tag : Fld := ⟨16, 16⟩

/-- R395, index below 64. -/
def CMD_RING_BASE_LO (i : Nat) : Nat := 0xf00000130000 + 0x40 * i
def CMD_RING_BASE_LO_base_lo : Fld := ⟨12, 20⟩

/-- R395, index below 64. -/
def CMD_RING_BASE_HI (i : Nat) : Nat := 0xf00000130004 + 0x40 * i
def CMD_RING_BASE_HI_base_hi : Fld := ⟨0, 32⟩

/-- R395, index below 64. -/
def CMD_RING_CFG (i : Nat) : Nat := 0xf00000130008 + 0x40 * i
def CMD_RING_CFG_size_log2 : Fld := ⟨0, 4⟩
def CMD_RING_CFG_cpl_ring : Fld := ⟨4, 6⟩
def CMD_RING_CFG_partition : Fld := ⟨10, 2⟩
def CMD_RING_CFG_device : Fld := ⟨12, 1⟩
def CMD_RING_CFG_enable : Fld := ⟨13, 1⟩
def CMD_RING_CFG_weight : Fld := ⟨16, 4⟩

/-- R395, index below 64. -/
def CMD_RING_HEAD (i : Nat) : Nat := 0xf0000013000c + 0x40 * i
def CMD_RING_HEAD_head : Fld := ⟨0, 32⟩

/-- R395, index below 64. -/
def CMD_RING_TAIL (i : Nat) : Nat := 0xf00000130010 + 0x40 * i
def CMD_RING_TAIL_tail : Fld := ⟨0, 32⟩

/-- R395, index below 64. -/
def CPL_RING_BASE_LO (i : Nat) : Nat := 0xf00000131000 + 0x20 * i
def CPL_RING_BASE_LO_base_lo : Fld := ⟨12, 20⟩

/-- R395, index below 64. -/
def CPL_RING_BASE_HI (i : Nat) : Nat := 0xf00000131004 + 0x20 * i
def CPL_RING_BASE_HI_base_hi : Fld := ⟨0, 32⟩

/-- R395, index below 64. -/
def CPL_RING_CFG (i : Nat) : Nat := 0xf00000131008 + 0x20 * i
def CPL_RING_CFG_size_log2 : Fld := ⟨0, 4⟩
def CPL_RING_CFG_enable : Fld := ⟨4, 1⟩

/-- R395, index below 64. -/
def CPL_RING_HEAD (i : Nat) : Nat := 0xf0000013100c + 0x20 * i
def CPL_RING_HEAD_head : Fld := ⟨0, 32⟩

/-- R395, index below 64. -/
def CPL_RING_TAIL (i : Nat) : Nat := 0xf00000131010 + 0x20 * i
def CPL_RING_TAIL_tail : Fld := ⟨0, 32⟩

/-- R395. -/
def CMD_STOP_STATUS : Nat := 0xf00000132000
def CMD_STOP_STATUS_reported : Fld := ⟨0, 10⟩
def CMD_STOP_STATUS_expected : Fld := ⟨10, 10⟩
def CMD_STOP_STATUS_incomplete : Fld := ⟨20, 1⟩

/-- R395. -/
def CMD_RESET_INFO : Nat := 0xf00000132004
def CMD_RESET_INFO_lost : Fld := ⟨0, 11⟩

/-- R395. -/
def CMD_PART : Nat := 0xf00000132008
def CMD_PART_count : Fld := ⟨0, 3⟩

/-- R415, index below 8. -/
def EVT_RING_BASE_LO (i : Nat) : Nat := 0xf00000140000 + 0x20 * i
def EVT_RING_BASE_LO_base_lo : Fld := ⟨12, 20⟩

/-- R415, index below 8. -/
def EVT_RING_BASE_HI (i : Nat) : Nat := 0xf00000140004 + 0x20 * i
def EVT_RING_BASE_HI_base_hi : Fld := ⟨0, 32⟩

/-- R415, index below 8. -/
def EVT_RING_CFG (i : Nat) : Nat := 0xf00000140008 + 0x20 * i
def EVT_RING_CFG_size_log2 : Fld := ⟨0, 4⟩
def EVT_RING_CFG_enable : Fld := ⟨4, 1⟩
def EVT_RING_CFG_partitions : Fld := ⟨5, 4⟩
def EVT_RING_CFG_device : Fld := ⟨9, 1⟩
def EVT_RING_CFG_class_mask : Fld := ⟨16, 9⟩

/-- R415, index below 8. -/
def EVT_RING_HEAD (i : Nat) : Nat := 0xf0000014000c + 0x20 * i
def EVT_RING_HEAD_head : Fld := ⟨0, 32⟩

/-- R415, index below 8. -/
def EVT_RING_TAIL (i : Nat) : Nat := 0xf00000140010 + 0x20 * i
def EVT_RING_TAIL_tail : Fld := ⟨0, 32⟩

/-- R415, index below 8. -/
def EVT_RING_LOST (i : Nat) : Nat := 0xf00000140014 + 0x20 * i
def EVT_RING_LOST_lost : Fld := ⟨0, 16⟩

/-- R415. -/
def EVT_SEQ : Nat := 0xf00000140100
def EVT_SEQ_next : Fld := ⟨0, 32⟩

/-- R415. -/
def EVT_UNROUTED : Nat := 0xf00000140104
def EVT_UNROUTED_unrouted : Fld := ⟨0, 16⟩

/-- R415. -/
def REG_ACCESS_ERR : Nat := 0xf00000140108
def REG_ACCESS_ERR_count : Fld := ⟨0, 16⟩
def REG_ACCESS_ERR_event_armed : Fld := ⟨31, 1⟩

/-- R415. -/
def THR_LOG_COUNT : Nat := 0xf00000140200
def THR_LOG_COUNT_count : Fld := ⟨0, 32⟩

/-- R415, indices below 4 and 8. -/
def PERF_LO (i j : Nat) : Nat := 0xf00000140400 + 0x40 * i + 0x8 * j
def PERF_LO_value_lo : Fld := ⟨0, 32⟩

/-- R415, indices below 4 and 8. -/
def PERF_HI (i j : Nat) : Nat := 0xf00000140404 + 0x40 * i + 0x8 * j
def PERF_HI_value_hi : Fld := ⟨0, 16⟩
def PERF_HI_pinned : Fld := ⟨31, 1⟩

/-- R415. -/
def ENERGY_SNAP_SEQ : Nat := 0xf00000140800
def ENERGY_SNAP_SEQ_value : Fld := ⟨0, 32⟩

/-- R415. -/
def ENERGY_SNAP_BELL_LO : Nat := 0xf00000140808
def ENERGY_SNAP_BELL_LO_value : Fld := ⟨0, 32⟩

/-- R415. -/
def ENERGY_SNAP_BELL_HI : Nat := 0xf0000014080c
def ENERGY_SNAP_BELL_HI_value : Fld := ⟨0, 32⟩

/-- R415. -/
def ENERGY_MODULE_LO : Nat := 0xf00000140810
def ENERGY_MODULE_LO_value : Fld := ⟨0, 32⟩

/-- R415. -/
def ENERGY_MODULE_HI : Nat := 0xf00000140814
def ENERGY_MODULE_HI_value : Fld := ⟨0, 32⟩

/-- R415, index below 4. -/
def ENERGY_PART_LO (i : Nat) : Nat := 0xf00000140820 + 0x8 * i
def ENERGY_PART_LO_value : Fld := ⟨0, 32⟩

/-- R415, index below 4. -/
def ENERGY_PART_HI (i : Nat) : Nat := 0xf00000140824 + 0x8 * i
def ENERGY_PART_HI_value : Fld := ⟨0, 32⟩

/-- R415, index below 64. -/
def ENERGY_RING_LO (i : Nat) : Nat := 0xf00000140900 + 0x8 * i
def ENERGY_RING_LO_value : Fld := ⟨0, 32⟩

/-- R415, index below 64. -/
def ENERGY_RING_HI (i : Nat) : Nat := 0xf00000140904 + 0x8 * i
def ENERGY_RING_HI_value : Fld := ⟨0, 32⟩

/-- R415, indices below 256 and 8. -/
def THR_LOG (i j : Nat) : Nat := 0xf00000141000 + 0x20 * i + 0x4 * j
def THR_LOG_word : Fld := ⟨0, 32⟩

/-- R435. -/
def CLK_REF : Nat := 0xf00000150000
def CLK_REF_locked : Fld := ⟨0, 1⟩
def CLK_REF_ref_sel : Fld := ⟨1, 1⟩
def CLK_REF_holdover : Fld := ⟨2, 1⟩
def CLK_REF_refclk_present : Fld := ⟨3, 1⟩
def CLK_REF_upstream_port : Fld := ⟨4, 3⟩
def CLK_REF_lock_losses : Fld := ⟨8, 8⟩

/-- R435. -/
def CLK_DROOP_CTRL : Nat := 0xf00000150004
def CLK_DROOP_CTRL_thr_cd : Fld := ⟨0, 8⟩
def CLK_DROOP_CTRL_thr_ml : Fld := ⟨8, 8⟩
def CLK_DROOP_CTRL_thr_bd : Fld := ⟨16, 8⟩
def CLK_DROOP_CTRL_tail : Fld := ⟨24, 4⟩

/-- R435. -/
def CLK_DROOP_COUNT : Nat := 0xf00000150008
def CLK_DROOP_COUNT_events : Fld := ⟨0, 16⟩
def CLK_DROOP_COUNT_last_die : Fld := ⟨16, 3⟩
def CLK_DROOP_COUNT_last_site : Fld := ⟨19, 9⟩
def CLK_DROOP_COUNT_masked : Fld := ⟨28, 4⟩

/-- R435, index below 4. -/
def CLK_SEAM (i : Nat) : Nat := 0xf00000150010 + 0x4 * i
def CLK_SEAM_mode : Fld := ⟨0, 1⟩
def CLK_SEAM_active_mode : Fld := ⟨1, 1⟩
def CLK_SEAM_calibrated : Fld := ⟨2, 1⟩
def CLK_SEAM_phase : Fld := ⟨8, 8⟩
def CLK_SEAM_excursions : Fld := ⟨16, 10⟩

/-- R435, index below 4. -/
def CLK_CANARY_CD (i : Nat) : Nat := 0xf00000150020 + 0x4 * i
def CLK_CANARY_CD_margin : Fld := ⟨0, 8⟩
def CLK_CANARY_CD_warn : Fld := ⟨8, 8⟩
def CLK_CANARY_CD_act : Fld := ⟨16, 8⟩
def CLK_CANARY_CD_acts : Fld := ⟨24, 8⟩

/-- R435, index below 4. -/
def CLK_CANARY_ML (i : Nat) : Nat := 0xf00000150030 + 0x4 * i
def CLK_CANARY_ML_margin : Fld := ⟨0, 8⟩
def CLK_CANARY_ML_warn : Fld := ⟨8, 8⟩
def CLK_CANARY_ML_act : Fld := ⟨16, 8⟩
def CLK_CANARY_ML_acts : Fld := ⟨24, 8⟩

/-- R435. -/
def CLK_CANARY_BD : Nat := 0xf00000150040
def CLK_CANARY_BD_margin : Fld := ⟨0, 8⟩
def CLK_CANARY_BD_warn : Fld := ⟨8, 8⟩
def CLK_CANARY_BD_act : Fld := ⟨16, 8⟩
def CLK_CANARY_BD_acts : Fld := ⟨24, 8⟩

/-- R435. -/
def CLK_RESET_CAUSE : Nat := 0xf00000150050
def CLK_RESET_CAUSE_cause : Fld := ⟨0, 4⟩
def CLK_RESET_CAUSE_count : Fld := ⟨4, 12⟩

/-- R452. -/
def PWR_INPUT : Nat := 0xf00000160000
def PWR_INPUT_volts : Fld := ⟨0, 14⟩
def PWR_INPUT_power_w : Fld := ⟨16, 16⟩

/-- R452. -/
def PWR_VCMP : Nat := 0xf00000160004
def PWR_VCMP_fused_mv : Fld := ⟨0, 10⟩
def PWR_VCMP_setpoint_mv : Fld := ⟨10, 10⟩
def PWR_VCMP_current_a : Fld := ⟨20, 12⟩

/-- R452. -/
def PWR_CAP : Nat := 0xf00000160008
def PWR_CAP_cap_w : Fld := ⟨0, 16⟩
def PWR_CAP_idle_w : Fld := ⟨16, 16⟩

/-- R452, index below 4. -/
def PWR_PART (i : Nat) : Nat := 0xf00000160010 + 0x4 * i
def PWR_PART_budget_w : Fld := ⟨0, 16⟩
def PWR_PART_avg_w : Fld := ⟨16, 16⟩

/-- R452, index below 4. -/
def PWR_ALLOT (i : Nat) : Nat := 0xf00000160020 + 0x4 * i
def PWR_ALLOT_allotment : Fld := ⟨0, 16⟩
def PWR_ALLOT_correction : Fld := ⟨16, 12⟩

/-- R452, index below 16. -/
def PWR_FORM (i : Nat) : Nat := 0xf00000160100 + 0x4 * i
def PWR_FORM_phases_good : Fld := ⟨0, 5⟩
def PWR_FORM_crack_suspect : Fld := ⟨5, 1⟩
def PWR_FORM_isolated : Fld := ⟨6, 1⟩
def PWR_FORM_gated : Fld := ⟨7, 1⟩
def PWR_FORM_ceiling_w : Fld := ⟨8, 8⟩
def PWR_FORM_sensed_mv : Fld := ⟨16, 12⟩

/-- R452, index below 6. -/
def PWR_DOMAIN (i : Nat) : Nat := 0xf00000160140 + 0x4 * i
def PWR_DOMAIN_phases_good : Fld := ⟨0, 9⟩
def PWR_DOMAIN_current_a : Fld := ⟨12, 12⟩

/-- R452. -/
def PWR_CRACK_CTRL : Nat := 0xf00000160160
def PWR_CRACK_CTRL_threshold : Fld := ⟨0, 8⟩

/-- R452, index below 12. -/
def PWR_PHASE_FAIL (i : Nat) : Nat := 0xf00000160180 + 0x4 * i
def PWR_PHASE_FAIL_failed : Fld := ⟨0, 32⟩

/-- R469. -/
def THM_TRIP_LIMIT : Nat := 0xf00000170000
def THM_TRIP_LIMIT_cd : Fld := ⟨0, 8⟩
def THM_TRIP_LIMIT_ml : Fld := ⟨8, 8⟩
def THM_TRIP_LIMIT_bd : Fld := ⟨16, 8⟩

/-- R469. -/
def THM_THROTTLE_LIMIT : Nat := 0xf00000170004
def THM_THROTTLE_LIMIT_cd : Fld := ⟨0, 8⟩
def THM_THROTTLE_LIMIT_ml : Fld := ⟨8, 8⟩
def THM_THROTTLE_LIMIT_bd : Fld := ⟨16, 8⟩

/-- R469. -/
def THM_COOLANT : Nat := 0xf00000170008
def THM_COOLANT_inlet : Fld := ⟨0, 10⟩
def THM_COOLANT_outlet : Fld := ⟨10, 10⟩
def THM_COOLANT_excess : Fld := ⟨20, 10⟩
def THM_COOLANT_decline : Fld := ⟨30, 1⟩
def THM_COOLANT_present : Fld := ⟨31, 1⟩

/-- R469. -/
def THM_COOLANT_CTRL : Nat := 0xf0000017000c
def THM_COOLANT_CTRL_threshold : Fld := ⟨0, 8⟩
def THM_COOLANT_CTRL_flow : Fld := ⟨8, 8⟩

/-- R469. -/
def THM_FORECAST : Nat := 0xf00000170010
def THM_FORECAST_peak : Fld := ⟨0, 10⟩
def THM_FORECAST_region : Fld := ⟨10, 7⟩
def THM_FORECAST_k_last : Fld := ⟨24, 8⟩

/-- R469. -/
def THM_COUNTS : Nat := 0xf00000170014
def THM_COUNTS_disagree : Fld := ⟨0, 10⟩
def THM_COUNTS_suspect : Fld := ⟨10, 10⟩
def THM_COUNTS_override : Fld := ⟨20, 10⟩

/-- R469, index below 88. -/
def THM_REGION (i : Nat) : Nat := 0xf00000170100 + 0x4 * i
def THM_REGION_adopted : Fld := ⟨0, 10⟩
def THM_REGION_model : Fld := ⟨10, 10⟩
def THM_REGION_source : Fld := ⟨20, 2⟩
def THM_REGION_canary : Fld := ⟨22, 10⟩

/-- R469, index below 864. -/
def THM_SENSOR (i : Nat) : Nat := 0xf00000170400 + 0x4 * i
def THM_SENSOR_reading : Fld := ⟨0, 10⟩
def THM_SENSOR_suspect : Fld := ⟨10, 1⟩
def THM_SENSOR_disagree : Fld := ⟨11, 1⟩

/-- R496. -/
def BRG_STAGE : Nat := 0xf00000180000
def BRG_STAGE_stage : Fld := ⟨0, 4⟩
def BRG_STAGE_state : Fld := ⟨4, 3⟩
def BRG_STAGE_unready : Fld := ⟨8, 4⟩

/-- R496. -/
def BRG_START_COUNT : Nat := 0xf00000180004
def BRG_START_COUNT_start : Fld := ⟨0, 32⟩

/-- R496. -/
def BRG_EXAM_CTRL : Nat := 0xf00000180008
def BRG_EXAM_CTRL_auto : Fld := ⟨0, 1⟩

/-- R496. -/
def BRG_EXAM_STATUS : Nat := 0xf0000018000c
def BRG_EXAM_STATUS_seat : Fld := ⟨0, 9⟩
def BRG_EXAM_STATUS_active : Fld := ⟨9, 1⟩
def BRG_EXAM_STATUS_failed : Fld := ⟨16, 10⟩

/-- R496. -/
def BRG_SUB_CTRL : Nat := 0xf00000180010
def BRG_SUB_CTRL_threshold : Fld := ⟨0, 10⟩

/-- R496, index below 8. -/
def BRG_EVAC_PENDING (i : Nat) : Nat := 0xf00000180040 + 0x4 * i
def BRG_EVAC_PENDING_pending : Fld := ⟨0, 32⟩

/-- R496, indices below 9 and 8. -/
def BRG_CARD (i j : Nat) : Nat := 0xf00000180100 + 0x20 * i + 0x4 * j
def BRG_CARD_word : Fld := ⟨0, 32⟩

/-- R496, index below 288. -/
def BRG_SEAT (i : Nat) : Nat := 0xf00000180400 + 0x4 * i
def BRG_SEAT_status : Fld := ⟨0, 2⟩
def BRG_SEAT_test : Fld := ⟨2, 6⟩
def BRG_SEAT_passes : Fld := ⟨8, 2⟩
def BRG_SEAT_substitute : Fld := ⟨10, 1⟩
def BRG_SEAT_in_use : Fld := ⟨11, 1⟩

/-- R517. -/
def SEC_SERIAL_LO : Nat := 0xf00000190000
def SEC_SERIAL_LO_serial_lo : Fld := ⟨0, 32⟩

/-- R517. -/
def SEC_SERIAL_HI : Nat := 0xf00000190004
def SEC_SERIAL_HI_serial_hi : Fld := ⟨0, 32⟩

/-- R517. -/
def SEC_STEPPING : Nat := 0xf00000190008
def SEC_STEPPING_bd : Fld := ⟨0, 4⟩
def SEC_STEPPING_ml : Fld := ⟨4, 16⟩
def SEC_STEPPING_cd : Fld := ⟨20, 4⟩

/-- R517. -/
def SEC_SET : Nat := 0xf0000019000c
def SEC_SET_running : Fld := ⟨0, 2⟩
def SEC_SET_boot : Fld := ⟨2, 2⟩
def SEC_SET_known_good : Fld := ⟨4, 2⟩
def SEC_SET_staging : Fld := ⟨6, 2⟩
def SEC_SET_pending : Fld := ⟨8, 1⟩
def SEC_SET_slots : Fld := ⟨16, 5⟩

/-- R517. -/
def SEC_KEYS : Nat := 0xf00000190010
def SEC_KEYS_revoked : Fld := ⟨0, 4⟩
def SEC_KEYS_purpose : Fld := ⟨4, 16⟩
def SEC_KEYS_floor : Fld := ⟨20, 7⟩

/-- R517. -/
def SEC_SYLLABUS : Nat := 0xf00000190014
def SEC_SYLLABUS_generation : Fld := ⟨0, 32⟩

/-- R517. -/
def SEC_LICENCE : Nat := 0xf00000190018
def SEC_LICENCE_features : Fld := ⟨0, 10⟩
def SEC_LICENCE_stored : Fld := ⟨10, 5⟩

/-- R517. -/
def SEC_LICENCE_SIZE : Nat := 0xf0000019001c
def SEC_LICENCE_SIZE_max_size : Fld := ⟨0, 17⟩

/-- R517. -/
def SEC_LAST_REJECT : Nat := 0xf00000190020
def SEC_LAST_REJECT_opcode : Fld := ⟨0, 16⟩
def SEC_LAST_REJECT_reason : Fld := ⟨16, 8⟩
def SEC_LAST_REJECT_rsa_fail : Fld := ⟨24, 1⟩
def SEC_LAST_REJECT_slh_fail : Fld := ⟨25, 1⟩
def SEC_LAST_REJECT_valid : Fld := ⟨31, 1⟩

/-- R530. -/
def MGMT_STATUS : Nat := 0xf000001a0000
def MGMT_STATUS_i3c_addr : Fld := ⟨0, 7⟩
def MGMT_STATUS_alert : Fld := ⟨7, 1⟩
def MGMT_STATUS_last_cmd : Fld := ⟨8, 8⟩
def MGMT_STATUS_last_result : Fld := ⟨16, 8⟩
def MGMT_STATUS_extest_refused : Fld := ⟨24, 1⟩

/-- R530. -/
def TRC_STATUS : Nat := 0xf000001a0004
def TRC_STATUS_running : Fld := ⟨0, 1⟩
def TRC_STATUS_wrapped : Fld := ⟨1, 1⟩
def TRC_STATUS_full : Fld := ⟨2, 1⟩
def TRC_STATUS_dropped : Fld := ⟨16, 16⟩

/-- One kind of register: first address, counts and strides of its indices, and its masks. -/
structure RegKind where
  base : Nat
  n1 : Nat
  s1 : Nat
  n2 : Nat
  s2 : Nat
  reset : Nat
  rw : Nat
  w1c : Nat
  pres : Nat
  err : Nat
  deriving DecidableEq, Repr

def regKinds0 : List RegKind := [
  ⟨0xf00000010000, 1, 0x4, 1, 0x4, 0x0, 0x0, 0x0, 0x0, 0x0⟩,
  ⟨0xf00000010400, 256, 0x4, 1, 0x4, 0x1f, 0x0, 0x0, 0xff00, 0x0⟩,
  ⟨0xf00000010800, 16, 0x4, 1, 0x4, 0x0, 0x0, 0x0, 0x400000, 0x0⟩,
  ⟨0xf00000020000, 1, 0x4, 1, 0x4, 0x0, 0x0, 0x0, 0x0, 0x0⟩,
  ⟨0xf00000020004, 1, 0x4, 1, 0x4, 0x0, 0x0, 0x0, 0x0, 0x0⟩,
  ⟨0xf00000020008, 1, 0x4, 1, 0x4, 0x0, 0x0, 0x0, 0x0, 0x0⟩,
  ⟨0xf0000002000c, 1, 0x4, 1, 0x4, 0x0, 0x0, 0x0, 0x0, 0x0⟩,
  ⟨0xf00000020010, 1, 0x4, 1, 0x4, 0x0, 0x0, 0x0, 0x0, 0x0⟩,
  ⟨0xf00000020018, 1, 0x4, 1, 0x4, 0x0, 0x0, 0x0, 0x0, 0x0⟩,
  ⟨0xf0000002001c, 1, 0x4, 1, 0x4, 0x0, 0x0, 0x0, 0x0, 0x0⟩,
  ⟨0xf00000020020, 1, 0x4, 1, 0x4, 0x0, 0x0, 0x0, 0x0, 0x0⟩,
  ⟨0xf00000020028, 1, 0x4, 1, 0x4, 0x0, 0x0, 0x0, 0x0, 0x0⟩,
  ⟨0xf0000002002c, 1, 0x4, 1, 0x4, 0x0, 0x0, 0x0, 0x0, 0x0⟩,
  ⟨0xf00000020100, 4, 0x40, 1, 0x40, 0x8, 0x0, 0x0, 0x0, 0x0⟩,
  ⟨0xf00000020104, 4, 0x40, 1, 0x40, 0x0, 0x0, 0x0, 0x0, 0x0⟩,
  ⟨0xf00000020108, 4, 0x40, 1, 0x40, 0x0, 0x0, 0x0, 0x0, 0x0⟩,
  ⟨0xf0000002010c, 4, 0x40, 1, 0x40, 0x0, 0x0, 0x0, 0x0, 0x0⟩,
  ⟨0xf00000020110, 4, 0x40, 1, 0x40, 0x0, 0x0, 0x0, 0x0, 0x0⟩,
  ⟨0xf00000020114, 4, 0x40, 1, 0x40, 0x0, 0x0, 0x0, 0x0, 0x0⟩,
  ⟨0xf00000020118, 4, 0x40, 1, 0x40, 0x0, 0x0, 0x0, 0x0, 0x0⟩,
  ⟨0xf0000002011c, 4, 0x40, 1, 0x40, 0x0, 0x0, 0x0, 0x0, 0x0⟩,
  ⟨0xf00000020120, 4, 0x40, 1, 0x40, 0x0, 0x0, 0x0, 0x0, 0x0⟩,
  ⟨0xf00000030000, 1, 0x4, 1, 0x4, 0x0, 0x0, 0x0, 0x0, 0x0⟩,
  ⟨0xf00000030008, 1, 0x4, 1, 0x4, 0x0, 0x0, 0x0, 0x0, 0x0⟩]

def regKinds1 : List RegKind := [
  ⟨0xf00000030400, 256, 0x4, 1, 0x4, 0x0, 0x0, 0x707, 0x0, 0x0⟩,
  ⟨0xf00000030800, 6, 0x4, 1, 0x4, 0x0, 0x0, 0x7, 0x0, 0x0⟩,
  ⟨0xf00000040000, 256, 0x20, 1, 0x20, 0x1f00, 0x0, 0x1c, 0x0, 0x0⟩,
  ⟨0xf00000040004, 256, 0x20, 1, 0x20, 0x0, 0x0, 0x0, 0x0, 0x0⟩,
  ⟨0xf00000040008, 256, 0x20, 1, 0x20, 0x20202020, 0x0, 0x0, 0x0, 0x0⟩,
  ⟨0xf0000004000c, 256, 0x20, 1, 0x20, 0x20202020, 0x0, 0x0, 0x0, 0x0⟩,
  ⟨0xf00000040010, 256, 0x20, 1, 0x20, 0x0, 0x0, 0x0, 0x0, 0x3fffffff⟩,
  ⟨0xf00000050000, 256, 0x10, 1, 0x10, 0x0, 0x0, 0x1c, 0x0, 0x0⟩,
  ⟨0xf00000050004, 256, 0x10, 1, 0x10, 0x0, 0x0, 0x0, 0x0, 0x0⟩,
  ⟨0xf00000050008, 256, 0x10, 1, 0x10, 0x0, 0x0, 0x0, 0x0, 0x3fffffff⟩,
  ⟨0xf00000060000, 16384, 0x10, 1, 0x10, 0x0, 0x0, 0x0, 0x0, 0x0⟩,
  ⟨0xf00000060004, 16384, 0x10, 1, 0x10, 0x0, 0x0, 0x0, 0x0, 0x0⟩,
  ⟨0xf00000060008, 16384, 0x10, 1, 0x10, 0x0, 0x0, 0x0, 0x0, 0x0⟩,
  ⟨0xf0000006000c, 16384, 0x10, 1, 0x10, 0x0, 0x0, 0x0, 0x0, 0x3fffffff⟩,
  ⟨0xf000000a0000, 256, 0x80, 8, 0x10, 0x0, 0x0, 0x600, 0x400, 0x0⟩,
  ⟨0xf000000a0004, 256, 0x80, 8, 0x10, 0x0, 0x0, 0x0, 0x0, 0x0⟩,
  ⟨0xf000000a0008, 256, 0x80, 8, 0x10, 0x0, 0x0, 0x0, 0x0, 0x0⟩,
  ⟨0xf000000a000c, 256, 0x80, 8, 0x10, 0x0, 0x0, 0x0, 0x0, 0x0⟩,
  ⟨0xf000000a8000, 256, 0x4, 1, 0x4, 0x0, 0x0, 0x80, 0x0, 0x0⟩,
  ⟨0xf000000b0000, 256, 0x10, 1, 0x10, 0x0, 0x0, 0x0, 0x0, 0x3fffffff⟩,
  ⟨0xf000000b0004, 256, 0x10, 1, 0x10, 0x0, 0x0, 0x0, 0x0, 0x3ff⟩,
  ⟨0xf000000b0008, 256, 0x10, 1, 0x10, 0x0, 0x0, 0x80000000, 0x0, 0x0⟩,
  ⟨0xf000000b000c, 256, 0x10, 1, 0x10, 0x10, 0x0, 0x0, 0x0, 0x0⟩,
  ⟨0xf000000b1000, 1, 0x4, 1, 0x4, 0x5, 0x7, 0x0, 0x0, 0x0⟩]

def regKinds2 : List RegKind := [
  ⟨0xf000000b1004, 1, 0x4, 1, 0x4, 0x0, 0x0, 0x0, 0x0, 0x0⟩,
  ⟨0xf000000c0000, 288, 0x4, 1, 0x4, 0x0, 0x0, 0x0, 0x0, 0x3fffffff⟩,
  ⟨0xf000000c0800, 1, 0x4, 1, 0x4, 0x0, 0x0, 0x80000000, 0x0, 0x0⟩,
  ⟨0xf000000c1000, 1, 0x4, 1, 0x4, 0x0, 0x0, 0x0, 0x0, 0xfffff⟩,
  ⟨0xf000000d0000, 4, 0x10, 1, 0x10, 0x0, 0x0, 0x0, 0x0, 0x0⟩,
  ⟨0xf000000d0004, 4, 0x10, 1, 0x10, 0x0, 0x0, 0x0, 0x0, 0xfffff⟩,
  ⟨0xf000000d0008, 4, 0x10, 1, 0x10, 0x0, 0x0, 0x0, 0x0, 0x0⟩,
  ⟨0xf000000d000c, 4, 0x10, 1, 0x10, 0x0, 0x0, 0x80000000, 0x0, 0x0⟩,
  ⟨0xf000000d0100, 1, 0x4, 1, 0x4, 0x3, 0x3, 0x0, 0x0, 0x0⟩,
  ⟨0xf000000d0110, 4, 0x4, 1, 0x4, 0x0, 0x0, 0x0, 0x0, 0x0⟩,
  ⟨0xf000000d0120, 1, 0x4, 1, 0x4, 0x0, 0x0, 0x0, 0x0, 0x0⟩,
  ⟨0xf000000d0200, 4, 0x40, 16, 0x4, 0x0, 0x0, 0x0, 0x0, 0x3fffffff⟩,
  ⟨0xf000000e0000, 1, 0x4, 1, 0x4, 0x40002000, 0x7fff, 0x0, 0x0, 0x0⟩,
  ⟨0xf000000e0004, 1, 0x4, 1, 0x4, 0x0, 0x0, 0x0, 0x0, 0x0⟩,
  ⟨0xf000000e0010, 4, 0x4, 1, 0x4, 0x0, 0x0, 0x0, 0x0, 0x0⟩,
  ⟨0xf000000e0020, 4, 0x4, 1, 0x4, 0x0, 0x0, 0x0, 0x0, 0x0⟩,
  ⟨0xf000000e0400, 256, 0x4, 1, 0x4, 0x0, 0x0, 0x0, 0x0, 0xfffff00⟩,
  ⟨0xf000000f0000, 1, 0x4, 1, 0x4, 0x0, 0x80003fff, 0x0, 0x0, 0x0⟩,
  ⟨0xf000000f0004, 1, 0x4, 1, 0x4, 0x0, 0x7ff07ff, 0x0, 0x0, 0x0⟩,
  ⟨0xf000000f0400, 256, 0x10, 1, 0x10, 0x0, 0x2, 0x0, 0x0, 0x0⟩,
  ⟨0xf000000f0404, 256, 0x10, 1, 0x10, 0x0, 0x0, 0x0, 0x0, 0x3fffffff⟩,
  ⟨0xf000000f0408, 256, 0x10, 1, 0x10, 0x0, 0x0, 0x0, 0x0, 0x0⟩,
  ⟨0xf00000100000, 1, 0x4, 1, 0x4, 0x0, 0x800003ff, 0x0, 0x0, 0x0⟩,
  ⟨0xf00000100100, 4, 0x40, 1, 0x40, 0x0, 0x0, 0x0, 0x0, 0xffff0000⟩]

def regKinds3 : List RegKind := [
  ⟨0xf00000100104, 4, 0x40, 1, 0x40, 0x0, 0x0, 0x0, 0x0, 0x0⟩,
  ⟨0xf00000100108, 4, 0x40, 1, 0x40, 0x0, 0x0, 0x0, 0x0, 0x0⟩,
  ⟨0xf0000010010c, 4, 0x40, 1, 0x40, 0x0, 0x0, 0x0, 0x0, 0x0⟩,
  ⟨0xf00000100110, 4, 0x40, 1, 0x40, 0x0, 0x0, 0x0, 0x0, 0x0⟩,
  ⟨0xf00000110000, 6, 0x40, 1, 0x40, 0x40, 0x40, 0x0, 0x0, 0x0⟩,
  ⟨0xf00000110004, 6, 0x40, 1, 0x40, 0x400000, 0xff0000, 0x0, 0x0, 0x0⟩,
  ⟨0xf00000110008, 6, 0x40, 1, 0x40, 0x0, 0x0, 0x0, 0x0, 0x0⟩,
  ⟨0xf0000011000c, 6, 0x40, 1, 0x40, 0x0, 0x0, 0x0, 0x0, 0x0⟩,
  ⟨0xf00000110010, 6, 0x40, 1, 0x40, 0x0, 0x0, 0x0, 0x0, 0x3fffffff⟩,
  ⟨0xf00000110200, 1, 0x4, 1, 0x4, 0x3f, 0x0, 0x0, 0x0, 0x0⟩,
  ⟨0xf00000110204, 1, 0x4, 1, 0x4, 0x0, 0xfff, 0x0, 0x0, 0x0⟩,
  ⟨0xf00000120000, 1, 0x4, 1, 0x4, 0x40, 0x40, 0x0, 0x0, 0x0⟩,
  ⟨0xf00000120004, 1, 0x4, 1, 0x4, 0x400000, 0xff0000, 0x0, 0x0, 0x0⟩,
  ⟨0xf00000120008, 1, 0x4, 1, 0x4, 0x0, 0x0, 0x0, 0x0, 0x3fffffff⟩,
  ⟨0xf0000012000c, 1, 0x4, 1, 0x4, 0x0, 0x0, 0x0, 0x0, 0xfffff⟩,
  ⟨0xf00000120010, 1, 0x4, 1, 0x4, 0x0, 0x0, 0x0, 0x0, 0xff00⟩,
  ⟨0xf00000130000, 64, 0x40, 1, 0x40, 0x0, 0xfffff000, 0x0, 0x0, 0x0⟩,
  ⟨0xf00000130004, 64, 0x40, 1, 0x40, 0x0, 0xffffffff, 0x0, 0x0, 0x0⟩,
  ⟨0xf00000130008, 64, 0x40, 1, 0x40, 0x10000, 0xf3fff, 0x0, 0x0, 0x0⟩,
  ⟨0xf0000013000c, 64, 0x40, 1, 0x40, 0x0, 0x0, 0x0, 0x0, 0x0⟩,
  ⟨0xf00000130010, 64, 0x40, 1, 0x40, 0x0, 0x0, 0x0, 0x0, 0x0⟩,
  ⟨0xf00000131000, 64, 0x20, 1, 0x20, 0x0, 0xfffff000, 0x0, 0x0, 0x0⟩,
  ⟨0xf00000131004, 64, 0x20, 1, 0x20, 0x0, 0xffffffff, 0x0, 0x0, 0x0⟩,
  ⟨0xf00000131008, 64, 0x20, 1, 0x20, 0x0, 0x1f, 0x0, 0x0, 0x0⟩]

def regKinds4 : List RegKind := [
  ⟨0xf0000013100c, 64, 0x20, 1, 0x20, 0x0, 0xffffffff, 0x0, 0x0, 0x0⟩,
  ⟨0xf00000131010, 64, 0x20, 1, 0x20, 0x0, 0x0, 0x0, 0x0, 0x0⟩,
  ⟨0xf00000132000, 1, 0x4, 1, 0x4, 0x0, 0x0, 0x100000, 0x0, 0x0⟩,
  ⟨0xf00000132004, 1, 0x4, 1, 0x4, 0x0, 0x0, 0x0, 0x7ff, 0x0⟩,
  ⟨0xf00000132008, 1, 0x4, 1, 0x4, 0x1, 0x0, 0x0, 0x0, 0x0⟩,
  ⟨0xf00000140000, 8, 0x20, 1, 0x20, 0x0, 0xfffff000, 0x0, 0x0, 0x0⟩,
  ⟨0xf00000140004, 8, 0x20, 1, 0x20, 0x0, 0xffffffff, 0x0, 0x0, 0x0⟩,
  ⟨0xf00000140008, 8, 0x20, 1, 0x20, 0x0, 0x1ff03ff, 0x0, 0x0, 0x0⟩,
  ⟨0xf0000014000c, 8, 0x20, 1, 0x20, 0x0, 0xffffffff, 0x0, 0x0, 0x0⟩,
  ⟨0xf00000140010, 8, 0x20, 1, 0x20, 0x0, 0x0, 0x0, 0x0, 0x0⟩,
  ⟨0xf00000140014, 8, 0x20, 1, 0x20, 0x0, 0x0, 0x0, 0x0, 0xffff⟩,
  ⟨0xf00000140100, 1, 0x4, 1, 0x4, 0x0, 0x0, 0x0, 0xffffffff, 0x0⟩,
  ⟨0xf00000140104, 1, 0x4, 1, 0x4, 0x0, 0x0, 0x0, 0x0, 0xffff⟩,
  ⟨0xf00000140108, 1, 0x4, 1, 0x4, 0x0, 0x0, 0x80000000, 0x0, 0xffff⟩,
  ⟨0xf00000140200, 1, 0x4, 1, 0x4, 0x0, 0x0, 0x0, 0x0, 0x0⟩,
  ⟨0xf00000140400, 4, 0x40, 8, 0x8, 0x0, 0x0, 0x0, 0x0, 0x0⟩,
  ⟨0xf00000140404, 4, 0x40, 8, 0x8, 0x0, 0x0, 0x0, 0x0, 0x0⟩,
  ⟨0xf00000140800, 1, 0x4, 1, 0x4, 0x0, 0x0, 0x0, 0xffffffff, 0x0⟩,
  ⟨0xf00000140808, 1, 0x4, 1, 0x4, 0x0, 0x0, 0x0, 0xffffffff, 0x0⟩,
  ⟨0xf0000014080c, 1, 0x4, 1, 0x4, 0x0, 0x0, 0x0, 0xffffffff, 0x0⟩,
  ⟨0xf00000140810, 1, 0x4, 1, 0x4, 0x0, 0x0, 0x0, 0xffffffff, 0x0⟩,
  ⟨0xf00000140814, 1, 0x4, 1, 0x4, 0x0, 0x0, 0x0, 0xffffffff, 0x0⟩,
  ⟨0xf00000140820, 4, 0x8, 1, 0x8, 0x0, 0x0, 0x0, 0xffffffff, 0x0⟩,
  ⟨0xf00000140824, 4, 0x8, 1, 0x8, 0x0, 0x0, 0x0, 0xffffffff, 0x0⟩]

def regKinds5 : List RegKind := [
  ⟨0xf00000140900, 64, 0x8, 1, 0x8, 0x0, 0x0, 0x0, 0xffffffff, 0x0⟩,
  ⟨0xf00000140904, 64, 0x8, 1, 0x8, 0x0, 0x0, 0x0, 0xffffffff, 0x0⟩,
  ⟨0xf00000141000, 256, 0x20, 8, 0x4, 0x0, 0x0, 0x0, 0x0, 0x0⟩,
  ⟨0xf00000150000, 1, 0x4, 1, 0x4, 0x70, 0x0, 0x0, 0x0, 0xff00⟩,
  ⟨0xf00000150004, 1, 0x4, 1, 0x4, 0x41e1e28, 0xfffffff, 0x0, 0x0, 0x0⟩,
  ⟨0xf00000150008, 1, 0x4, 1, 0x4, 0x0, 0x0, 0x0, 0x0, 0xf000ffff⟩,
  ⟨0xf00000150010, 4, 0x4, 1, 0x4, 0x0, 0x1, 0x0, 0x0, 0x3ff0000⟩,
  ⟨0xf00000150020, 4, 0x4, 1, 0x4, 0x308ff, 0xffff00, 0x0, 0x0, 0xff000000⟩,
  ⟨0xf00000150030, 4, 0x4, 1, 0x4, 0x308ff, 0xffff00, 0x0, 0x0, 0xff000000⟩,
  ⟨0xf00000150040, 1, 0x4, 1, 0x4, 0x308ff, 0xffff00, 0x0, 0x0, 0xff000000⟩,
  ⟨0xf00000150050, 1, 0x4, 1, 0x4, 0x0, 0x0, 0x0, 0xffff, 0x0⟩,
  ⟨0xf00000160000, 1, 0x4, 1, 0x4, 0x0, 0x0, 0x0, 0x0, 0x0⟩,
  ⟨0xf00000160004, 1, 0x4, 1, 0x4, 0xb42d0, 0x0, 0x0, 0x0, 0x0⟩,
  ⟨0xf00000160008, 1, 0x4, 1, 0x4, 0x28a0af0, 0x0, 0x0, 0x0, 0x0⟩,
  ⟨0xf00000160010, 4, 0x4, 1, 0x4, 0x0, 0x0, 0x0, 0x0, 0x0⟩,
  ⟨0xf00000160020, 4, 0x4, 1, 0x4, 0x4000000, 0x0, 0x0, 0x0, 0x0⟩,
  ⟨0xf00000160100, 16, 0x4, 1, 0x4, 0x9b12, 0x0, 0x20, 0x40, 0x0⟩,
  ⟨0xf00000160140, 6, 0x4, 1, 0x4, 0x0, 0x0, 0x0, 0x0, 0x0⟩,
  ⟨0xf00000160160, 1, 0x4, 1, 0x4, 0xf, 0xff, 0x0, 0x0, 0x0⟩,
  ⟨0xf00000160180, 12, 0x4, 1, 0x4, 0x0, 0x0, 0x0, 0xffffffff, 0x0⟩,
  ⟨0xf00000170000, 1, 0x4, 1, 0x4, 0x6e696e, 0x0, 0x0, 0x0, 0x0⟩,
  ⟨0xf00000170004, 1, 0x4, 1, 0x4, 0x5f5a5f, 0xffffff, 0x0, 0x0, 0x0⟩,
  ⟨0xf00000170008, 1, 0x4, 1, 0x4, 0x80000000, 0x0, 0x40000000, 0x0, 0x0⟩,
  ⟨0xf0000017000c, 1, 0x4, 1, 0x4, 0x3c08, 0xffff, 0x0, 0x0, 0x0⟩]

def regKinds6 : List RegKind := [
  ⟨0xf00000170010, 1, 0x4, 1, 0x4, 0x0, 0x0, 0x0, 0x0, 0x0⟩,
  ⟨0xf00000170014, 1, 0x4, 1, 0x4, 0x0, 0x0, 0x0, 0x0, 0x3fffffff⟩,
  ⟨0xf00000170100, 88, 0x4, 1, 0x4, 0x0, 0x0, 0x0, 0x0, 0x0⟩,
  ⟨0xf00000170400, 864, 0x4, 1, 0x4, 0x0, 0x0, 0x0, 0x0, 0x0⟩,
  ⟨0xf00000180000, 1, 0x4, 1, 0x4, 0x1, 0x0, 0x0, 0xf00, 0x0⟩,
  ⟨0xf00000180004, 1, 0x4, 1, 0x4, 0x0, 0x0, 0x0, 0x0, 0x0⟩,
  ⟨0xf00000180008, 1, 0x4, 1, 0x4, 0x1, 0x1, 0x0, 0x0, 0x0⟩,
  ⟨0xf0000018000c, 1, 0x4, 1, 0x4, 0x0, 0x0, 0x0, 0x0, 0x3ff0000⟩,
  ⟨0xf00000180010, 1, 0x4, 1, 0x4, 0x10, 0x3ff, 0x0, 0x0, 0x0⟩,
  ⟨0xf00000180040, 8, 0x4, 1, 0x4, 0x0, 0x0, 0xffffffff, 0xffffffff, 0x0⟩,
  ⟨0xf00000180100, 9, 0x20, 8, 0x4, 0x0, 0x0, 0x0, 0x0, 0x0⟩,
  ⟨0xf00000180400, 288, 0x4, 1, 0x4, 0x0, 0x0, 0x0, 0x0, 0x0⟩,
  ⟨0xf00000190000, 1, 0x4, 1, 0x4, 0x0, 0x0, 0x0, 0x0, 0x0⟩,
  ⟨0xf00000190004, 1, 0x4, 1, 0x4, 0x0, 0x0, 0x0, 0x0, 0x0⟩,
  ⟨0xf00000190008, 1, 0x4, 1, 0x4, 0x0, 0x0, 0x0, 0x0, 0x0⟩,
  ⟨0xf0000019000c, 1, 0x4, 1, 0x4, 0x0, 0x0, 0x0, 0x1f00ff, 0x0⟩,
  ⟨0xf00000190010, 1, 0x4, 1, 0x4, 0x0, 0x0, 0x0, 0x0, 0x0⟩,
  ⟨0xf00000190014, 1, 0x4, 1, 0x4, 0x0, 0x0, 0x0, 0xffffffff, 0x0⟩,
  ⟨0xf00000190018, 1, 0x4, 1, 0x4, 0x0, 0x0, 0x0, 0x0, 0x0⟩,
  ⟨0xf0000019001c, 1, 0x4, 1, 0x4, 0x1, 0x0, 0x0, 0x0, 0x0⟩,
  ⟨0xf00000190020, 1, 0x4, 1, 0x4, 0x0, 0x0, 0x80000000, 0x0, 0x0⟩,
  ⟨0xf000001a0000, 1, 0x4, 1, 0x4, 0x0, 0x0, 0x1000000, 0x0, 0x0⟩,
  ⟨0xf000001a0004, 1, 0x4, 1, 0x4, 0x0, 0x0, 0x0, 0x0, 0xffff0000⟩]

/-- Every kind of register, in the order of the chapters. -/
def regKinds : List RegKind :=
  regKinds0 ++ regKinds1 ++ regKinds2 ++ regKinds3 ++ regKinds4 ++ regKinds5 ++ regKinds6

/-- Whether address a is one of the registers of a kind. -/
def RegKind.has (k : RegKind) (a : Nat) : Bool :=
  k.base ≤ a && (a - k.base) / k.s1 < k.n1 && ((a - k.base) % k.s1) / k.s2 < k.n2 && ((a - k.base) % k.s1) % k.s2 == 0

/-- The kind of register at an address; none where no register lies there. -/
def regKind (a : Nat) : Option RegKind := regKinds.find? (·.has a)

/-- Reset values that differ from index to index: the good phases of a supply domain (R439) and the budgets
of R450 with one partition. -/
def regResetIdx (a : Nat) : Option Nat :=
  if a = 0xf00000160140 then some 288
  else if a = 0xf00000160144 then some 16
  else if a = 0xf00000160148 then some 32
  else if a = 0xf0000016014c then some 4
  else if a = 0xf00000160150 then some 24
  else if a = 0xf00000160154 then some 12
  else if a = 0xf00000160010 then some 2800
  else if a = 0xf00000160014 ∨ a = 0xf00000160018 ∨ a = 0xf0000016001c then some 0
  else none

/-- The word a register holds after a stack reset (R15); 0 where no register lies. R15 gives a field of entry F its value at S1
only; between the reset and S1 such a field holds the value named here, whatever the part and the variant (DESIGN CHOICE, log
entry 37): serial number, stepping and keys 0, the cap and the first budget 2,800 W, the set point of VCMP 720 mV, the largest
token limit 0x4000. -/
def regReset (a : Nat) : Word :=
  match regResetIdx a with
  | some v => BitVec.ofNat 32 v
  | none => match regKind a with
    | some k => BitVec.ofNat 32 k.reset
    | none => 0

end Sys2Proof.Machine
end

