-- ==== Sys2Proof/Machine/Ops.lean ====
section
/-! DEFINITION. The named operations over tables, bytes, register fields and memories, and the few questions about the
module that many commands ask (which partition owns a form, whether a tile is seated, whether a course runs). -/

namespace Sys2Proof.Machine

/-! Tables. -/

/-- The value at a key. -/
def tfind {α : Type} : Tbl α → Nat → Option α
  | [], _ => none
  | (k', v) :: t, k => if k = k' then some v else tfind t k

/-- The value at a key, or d where the key is not listed. -/
def tgetD {α : Type} (t : Tbl α) (k : Nat) (d : α) : α := (tfind t k).getD d

/-- Set a key, keeping the keys in rising order. -/
def tput {α : Type} : Tbl α → Nat → α → Tbl α
  | [], k, v => [(k, v)]
  | (k', v') :: t, k, v =>
    if k < k' then (k, v) :: (k', v') :: t
    else if k = k' then (k, v) :: t
    else (k', v') :: tput t k v

/-- Remove a key. -/
def tdel {α : Type} : Tbl α → Nat → Tbl α
  | [], _ => []
  | (k', v) :: t, k => if k = k' then tdel t k else (k', v) :: tdel t k

/-- Set a key of a table whose unlisted keys hold d: the value d is not listed. -/
def tset {α : Type} [DecidableEq α] (t : Tbl α) (k : Nat) (v d : α) : Tbl α :=
  if v = d then tdel t k else tput t k v

/-- Change the value at a key of a table whose unlisted keys hold d. -/
def tmod {α : Type} (t : Tbl α) (k : Nat) (d : α) (f : α → α) : Tbl α := tput t k (f (tgetD t k d))

/-! Numbers, bits and bytes (00 R4: little-endian, bit 0 least significant). -/

def bitAt (v i : Nat) : Nat := (v / 2 ^ i) % 2

def bitSet (v i : Nat) : Bool := bitAt v i == 1

/-- Bits [lo + len - 1 : lo] of a value. -/
def bitsAt (v lo len : Nat) : Nat := (v / 2 ^ lo) % 2 ^ len

/-- A value with bit i set. -/
def withBit (v i : Nat) : Nat := if bitSet v i then v else v + 2 ^ i

/-- A value with bit i clear. -/
def withoutBit (v i : Nat) : Nat := if bitSet v i then v - 2 ^ i else v

def popCount (v len : Nat) : Nat := ((List.range len).filter (bitSet v)).length

/-- Rounded-up quotient; 0 for a divisor of 0. -/
def ceilDiv (a b : Nat) : Nat := (a + b - 1) / b

/-- Two's complement reading of the low len bits. -/
def signedOf (v len : Nat) : Int :=
  if bitSet v (len - 1) then (v % 2 ^ len : Nat) - (2 ^ len : Nat) else (v % 2 ^ len : Nat)

/-- Two's complement code of an integer in len bits. -/
def codeOf (v : Int) (len : Nat) : Nat := (v % (2 ^ len : Nat)).toNat

def boolNat (b : Bool) : Nat := if b then 1 else 0

/-- The n bytes of a value, lowest first. -/
def leBytes : Nat → Nat → List Byte
  | 0, _ => []
  | n + 1, v => BitVec.ofNat 8 (v % 256) :: leBytes n (v / 256)

/-- The value of bytes, lowest first. -/
def leVal : List Byte → Nat
  | [] => 0
  | b :: l => b.toNat + 256 * leVal l

/-- n bytes of a byte string from an offset; bytes past its end read 0. -/
def bytesFrom (l : List Byte) (off n : Nat) : List Byte :=
  let t := (l.drop off).take n
  t ++ List.replicate (n - t.length) 0

/-- The little-endian value of n bytes at an offset. -/
def leAt (l : List Byte) (off n : Nat) : Nat := leVal (bytesFrom l off n)

/-- A byte string with the bytes from an offset replaced; it must reach that far. -/
def putBytes (l : List Byte) (off : Nat) (b : List Byte) : List Byte :=
  l.take off ++ b ++ l.drop (off + b.length)

def zeros (n : Nat) : List Byte := List.replicate n 0

/-! Check sequences. The manual names the polynomials; bit order, initial value and final inversion of CRC-32 are those
of IEEE 802.3, CRC-16 is taken bit 7 first without final inversion (PRESUMED, log entry 10). -/

def crc32Step (c : Nat) : Nat := if c % 2 = 1 then Nat.xor (c / 2) 0xEDB88320 else c / 2

def crc32Byte (c : Nat) (b : Byte) : Nat :=
  (List.range 8).foldl (fun c _ => crc32Step c) (Nat.xor c b.toNat)

/-- CRC-32 with the IEEE 802.3 polynomial. -/
def crc32 (l : List Byte) : Nat := Nat.xor (l.foldl crc32Byte 0xFFFFFFFF) 0xFFFFFFFF

def crc16Step (c : Nat) : Nat :=
  if bitSet c 15 then Nat.xor (c * 2 % 65536) 0x1021 else c * 2 % 65536

def crc16Byte (c : Nat) (b : Byte) : Nat :=
  (List.range 8).foldl (fun c _ => crc16Step c) (Nat.xor c (b.toNat * 256))

/-- CRC-16 with polynomial 0x1021 and initial value 0xFFFF (12 R331). -/
def crc16 (l : List Byte) : Nat := l.foldl crc16Byte 0xFFFF

/-! Register fields. -/

def fldMask (f : Fld) : Word := BitVec.ofNat 32 ((2 ^ f.len - 1) * 2 ^ f.lo)

/-- The value of a field. -/
def fldGet (w : Word) (f : Fld) : Nat := (w.toNat / 2 ^ f.lo) % 2 ^ f.len

/-- A register with one field replaced. -/
def fldPut (w : Word) (f : Fld) (v : Nat) : Word :=
  (w &&& ~~~ fldMask f) ||| BitVec.ofNat 32 ((v % 2 ^ f.len) * 2 ^ f.lo)

/-- The word a register holds. -/
def State.reg (s : State) (a : Nat) : Word := tgetD s.regs a (regReset a)

/-- Load a register. -/
def State.setReg (s : State) (a : Nat) (w : Word) : State :=
  { s with regs := tset s.regs a w (regReset a) }

/-- The value of a register's field. -/
def State.getF (s : State) (a : Nat) (f : Fld) : Nat := fldGet (s.reg a) f

/-- A one-bit field as a truth value. -/
def State.flag (s : State) (a : Nat) (f : Fld) : Bool := s.getF a f != 0

/-- Load a field, the rest of its register unchanged. -/
def State.setF (s : State) (a : Nat) (f : Fld) (v : Nat) : State := s.setReg a (fldPut (s.reg a) f v)

/-- Load a one-bit field. -/
def State.setB (s : State) (a : Nat) (f : Fld) (b : Bool) : State := s.setF a f (boolNat b)

/-- Count in a field that stops at all ones (15 R405). -/
def State.incF (s : State) (a : Nat) (f : Fld) (n : Nat) : State :=
  s.setF a f (min (2 ^ f.len - 1) (s.getF a f + n))

/-- A quantity of 64 bits in two consecutive registers (00 R10). -/
def State.pair (s : State) (lo : Nat) : Nat := (s.reg lo).toNat + 2 ^ 32 * (s.reg (lo + 4)).toNat

def State.setPair (s : State) (lo : Nat) (v : Nat) : State :=
  (s.setReg lo (BitVec.ofNat 32 v)).setReg (lo + 4) (BitVec.ofNat 32 (v / 2 ^ 32))

/-! Free values. -/

/-- Draw a number the spec leaves open. -/
def State.freeNat (s : State) : Nat := Config.freeNat s.freeCtr

/-- Count one free value as drawn. -/
def State.drawn (s : State) (n : Nat) : State := { s with freeCtr := s.freeCtr + n }

/-- The next n free bytes. -/
def State.freeBytes (s : State) (n : Nat) : List Byte :=
  (List.range n).map (fun i => Config.freeByte (s.freeCtr + i))

/-! Bytes of the stack by stack address, as stored. -/

/-- What the listed byte of an address is added to: 0, or a free byte where the locker's data are undefined. -/
def memBase (m : MemSt) (a : Nat) : Byte :=
  if a < 2 ^ 38 then
    match tfind m.undef (a / 2 ^ 30) with
    | some k => Config.freeByte (k + a % 2 ^ 30)
    | none => 0
  else 0

def memGet (m : MemSt) (a : Nat) : Byte := tgetD m.bytes a 0 ^^^ memBase m a

def memPut (m : MemSt) (a : Nat) (b : Byte) : MemSt := { m with bytes := tset m.bytes a (b ^^^ memBase m a) 0 }

def memRead (m : MemSt) (a n : Nat) : List Byte := (List.range n).map (fun i => memGet m (a + i))

/-- Store bytes from an address, ascending. -/
def memWrite (m : MemSt) (a : Nat) : List Byte → MemSt
  | [] => m
  | b :: l => memWrite (memPut m a b) (a + 1) l

def ccRead (s : State) (a n : Nat) : List Byte := (List.range n).map (fun i => tgetD s.mem.cc (a + i) 0)

/-! The grid (01 R26, R27, R33) and the partitions (14 R384). -/

def seatRow (m : Nat) : Nat := 8 * (m / 18 / 4 / 2) + 2 * (m / 18 % 4) + m % 18 / 9

def seatCol (m : Nat) : Nat := 9 * (m / 18 / 4 % 2) + m % 18 % 9

/-- Seat number 18 x form + s of the router at a row and column. -/
def seatAt (row col : Nat) : Nat :=
  18 * (4 * (2 * (row / 8) + col / 9) + row % 8 / 2) + 9 * (row % 2) + col % 9

def ltForm (lt : Nat) : Nat := lt / 16

def ltRow (lt : Nat) : Nat := 8 * (lt / 64 / 2) + 2 * (lt / 16 % 4) + lt % 16 / 8

def ltCol (lt : Nat) : Nat := 8 * (lt / 64 % 2) + lt % 16 % 8

/-- Seat index of a tile in its form; 31 when it is not seated (01 R35). -/
def State.seatIdx (s : State) (lt : Nat) : Nat := s.getF (STK_SEAT_LT lt) STK_SEAT_LT_seat

/-- Whether a logical tile is present: it exists and is seated (01 R29). -/
def State.present (s : State) (lt : Nat) : Bool := decide (lt < 256) && s.seatIdx lt != 31

/-- Seat number of a present tile. -/
def State.seatOf (s : State) (lt : Nat) : Nat := 18 * ltForm lt + s.seatIdx lt

def State.isolated (s : State) (form : Nat) : Bool := s.flag (STK_FORM_STATUS form) STK_FORM_STATUS_isolated

/-- A logical tile that is present and whose form is not isolated (18 R446). -/
def State.alive (s : State) (lt : Nat) : Bool := s.present lt && !s.isolated (ltForm lt)

/-- Partitions in force: 1, 2 or 4. -/
def State.partCount (s : State) : Nat := s.getF CMD_PART CMD_PART_count

/-- Partition that owns a field. -/
def State.partOfField (s : State) (f : Nat) : Nat :=
  if s.partCount = 4 then f else if s.partCount = 2 then f / 2 else 0

def State.partOfForm (s : State) (f : Nat) : Nat := s.partOfField (f / 4)

def State.partOfLt (s : State) (lt : Nat) : Nat := s.partOfField (lt / 64)

/-- Number of fields a partition owns. -/
def State.fieldCount (s : State) (p : Nat) : Nat := ((List.range 4).filter (fun f => s.partOfField f == p)).length

/-- Mask of the fields a partition owns. -/
def State.fieldMask (s : State) (p : Nat) : Nat :=
  (List.range 4).foldl (fun m f => if s.partOfField f = p then m + 2 ^ f else m) 0

/-- Partition that owns a fabric port (12 R350); 0 on an unpartitioned device (02 R67). -/
def State.partOfPort (s : State) (p : Nat) : Nat :=
  if s.partCount = 1 then 0 else bitsAt (s.getF FAB_PART FAB_PART_part) (2 * p) 2

def State.portUp (s : State) (p : Nat) : Bool := s.getF (PORT_STATE p) PORT_STATE_state == 7

/-- Logical tiles of a partition that are present. -/
def State.tilesOf (s : State) (p : Nat) : List Nat :=
  (List.range 256).filter (fun lt => s.partOfLt lt == p && s.present lt)

def State.bellCount (s : State) : Nat := s.pair BELL_COUNT_LO

def State.deviceId (s : State) : Nat := s.getF STK_ID STK_ID_device_id

/-! Courses (02 R85): the state field of a partition. -/

def csNone : Nat := 0
def csLoaded : Nat := 1
def csStarting : Nat := 2
def csRunning : Nat := 3
def csHalting : Nat := 4
def csHalted : Nat := 5
def csDone : Nat := 6

def State.courseState (s : State) (p : Nat) : Nat := s.getF (BELL_CRS_STATE p) BELL_CRS_STATE_state

/-- A course is loaded in the partition. -/
def State.courseLoaded (s : State) (p : Nat) : Bool := s.courseState p != csNone

/-- A course is running there: from lesson 0 until it ends or its halt bell. -/
def State.courseRunning (s : State) (p : Nat) : Bool := s.courseState p == csRunning || s.courseState p == csHalting

/-- A course is loaded in some partition. -/
def State.anyLoaded (s : State) : Bool := (List.range 4).any s.courseLoaded

/-- A course changes its state; NBU_TOKEN_LIMIT.locked follows (09 R280). -/
def State.setCourseState (s : State) (p v : Nat) : State :=
  let s := s.setF (BELL_CRS_STATE p) BELL_CRS_STATE_state v
  s.setB NBU_TOKEN_LIMIT NBU_TOKEN_LIMIT_locked s.anyLoaded

/-- A course is running in some partition. -/
def State.anyRunning (s : State) : Bool := (List.range 4).any s.courseRunning

/-! Default contents of the tables of State. -/

def course0 : Course :=
  { imgAddr := 0, image := [], lesson := 0, iter := 0, lessonBell := 0, ran := false, ended := false,
    startBell := 0, startRing := 0, startTag := 0, resuming := false,
    startCommitted := false, staged := false, endIter := none, resumeAt := none, rosters := [], haltBell := none,
    stopFrom := none, haltReason := 0, haltDeclarer := 0 }

def plane0 : Plane :=
  { filled := false, wfmt := 7, fold := 3, data := [], scale := [], poison := [], scalePoison := [], badParity := [] }

/-- An accumulator entry that no lesson has written: 0 and poisoned (04 R122; log entry 13). -/
def accEntry0 : AccEntry := { value := 0, poison := true, err := 0 }

def mxe0 : MxeSt :=
  { active := plane0, shadow := plane0, acc := [], tags := [], tagErr := [], merges := [], taken := [],
    pass := none, load := none, send := none, updates := [], merge := none }

def vreg0 : VReg := { data := zeros 512, tags := List.replicate 16 0, poison := List.replicate 16 true }

def wreg0 : WReg := { value := 0, tag := 0, poison := true }

def ve0 : VeSt := { v := [], w := [], cache := [], slots := [], flags := [], run := none, job := none, flight := [] }

def tile0 : TileSt :=
  { bank0 := [], bank1 := [], armedBank := 0, armed := false, armAck := false, nextPatches := [], curPatches := [],
    mxe := mxe0, ve := ve0, uses := [], tbConflictSent := false, trnRefusedSent := false, hallQueue := [],
    scrubPos := 0, trnNext := 0, fallBytes := 0, heartbeats := 0, errBase := 0, errBell := 0, ungated := 0, halted := false }

def core0 : CoreSt := { g := [], pc := 0, issue := 0, ready := [], tb := none, waitc := none, deadline := 0 }

def chan0 : ChanSt := { copy := none, ind := none, posts := [], ops := [], passes := 0, passTile := 0, owed := [] }

def layer0 : LayerSt :=
  { prog := [], progNext := [], banks := [], coolBells := 0, seqs := [], last := none,
    halted := [], selfRefresh := false, canaryAge := [] }

def group0 : GroupSt :=
  { bank0 := [], bank1 := [], image := [], cmd := none, bell := 0, generation := 0, copied := false, scheduled := none,
    shadowing := false }

def vote0 : VoteSt := { carry := 0, poison := 0, tieId := 0, inVote := 0, locVote := 0, planes := [] }

def port0 : PortSt :=
  { prog := [], progNext := [], rx := [], learnt := none, probes := 0, enabled := false, recHalf := false,
    heldDark := false, trips := 0, again := 0, seen := [], credits := 16, svcQueue := [], rxSwaps := [], txSwaps := [],
    lastSent := none, lastTaken := none, quiesced := false, votes := [],
    rbTies := [], svcOut := [] }

def evRing0 : EvRing := { held := [], lost := none, outstanding := none }

def State.crsOf (s : State) (p : Nat) : Course := tgetD s.crs p course0
def State.modCrs (s : State) (p : Nat) (f : Course → Course) : State := { s with crs := tmod s.crs p course0 f }
def State.tile (s : State) (n : Nat) : TileSt := tgetD s.tiles n tile0
def State.modTile (s : State) (n : Nat) (f : TileSt → TileSt) : State := { s with tiles := tmod s.tiles n tile0 f }
def State.core (s : State) (n : Nat) : CoreSt := tgetD s.cores n core0
def State.modCore (s : State) (n : Nat) (f : CoreSt → CoreSt) : State := { s with cores := tmod s.cores n core0 f }
def State.chan (s : State) (n : Nat) : ChanSt := tgetD s.chans n chan0
def State.modChan (s : State) (n : Nat) (f : ChanSt → ChanSt) : State := { s with chans := tmod s.chans n chan0 f }
def State.layer (s : State) (l : Nat) : LayerSt := tgetD s.layers l layer0
def State.modLayer (s : State) (l : Nat) (f : LayerSt → LayerSt) : State := { s with layers := tmod s.layers l layer0 f }
def State.group (s : State) (p : Nat) : GroupSt := tgetD s.groups p group0
def State.modGroup (s : State) (p : Nat) (f : GroupSt → GroupSt) : State := { s with groups := tmod s.groups p group0 f }
def State.port (s : State) (p : Nat) : PortSt := tgetD s.ports p port0
def State.modPort (s : State) (p : Nat) (f : PortSt → PortSt) : State := { s with ports := tmod s.ports p port0 f }
def State.evRing (s : State) (e : Nat) : EvRing := tgetD s.evRings e evRing0
def State.modEvRing (s : State) (e : Nat) (f : EvRing → EvRing) : State := { s with evRings := tmod s.evRings e evRing0 f }

/-- UPD_STATE.copying follows the copies that are incomplete: of a table into the staging banks, or into shadows just enabled
(11 R312, R320). -/
def State.showCopying (s : State) (p : Nat) : State :=
  let g := s.group p
  s.setB (UPD_STATE p) UPD_STATE_copying ((g.cmd.isSome && !g.copied) || g.shadowing)

/-- Send something to the outside. -/
def State.send (s : State) (o : Out) : State := { s with out := s.out ++ [o] }

/-- The module has power and its stretch gate is open (17 R428, R430, 18 R437). -/
def State.powered (s : State) : Bool := s.power.phase == .on && !s.clock.gateClosed

/-- The effect of a command on a module whose clocks run; with its clocks stopped nothing happens (17 R428). -/
def live (s t : State) : Host.Outcome State Fault Refusal := .next (if s.powered then t else s)

/-- Repeat an update for each element of a list, in order. -/
def forEach {α σ : Type} (l : List α) (s : σ) (f : σ → α → σ) : σ := l.foldl f s

end Sys2Proof.Machine
end

