-- ==== Sys2Proof/Machine/Events.lean ====
section
/-! DEFINITION. What the device sends of its own accord: messages on the Milbex Link, event records, in-band
interrupts, performance counters. -/

namespace Sys2Proof.Machine

/-- The Milbex Link is UP (13 R354). -/
def State.mxlUp (s : State) : Bool := s.getF MXL_STATE MXL_STATE_state == 5

/-! Flits (13 R356-R362). -/

def fcIDLE : Nat := 0
def fcPRIORITY : Nat := 1
def fcCOMMAND : Nat := 2
def fcBULK : Nat := 3

def ftIDLE : Nat := 0x00
def ftLANE_SWAP : Nat := 0x01
def ftPRIO_CMD : Nat := 0x02
def ftPRIO_WRITE : Nat := 0x03
def ftDOORBELL : Nat := 0x04
def ftREG_READ : Nat := 0x05
def ftREG_WRITE : Nat := 0x06
def ftREG_DATA : Nat := 0x07
def ftMEM_READ : Nat := 0x08
def ftMEM_WRITE : Nat := 0x09
def ftMEM_DATA : Nat := 0x0A
def ftMEM_ACK : Nat := 0x0B
def ftHOST_READ : Nat := 0x0C
def ftHOST_WRITE : Nat := 0x0D
def ftHOST_DATA : Nat := 0x0E

/-- The bytes that a flit's CRC covers. -/
def flitBytes (f : Flit) : List Byte :=
  leBytes 1 (f.cls + 4 * f.typ) ++ leBytes 1 f.flags ++ leBytes 2 f.seq ++ leBytes 2 (f.ack + 2 ^ 15 * boolNat f.nak) ++
  leBytes 1 f.cmdCredits ++ leBytes 1 f.bulkCredits ++ leBytes 1 f.len ++ leBytes 1 0 ++ leBytes 2 f.tag ++ f.payload

def sealFlit (f : Flit) : Flit := { f with crc := crc32 (flitBytes f) }

/-- A flit whose sequence number, acknowledgement and CRC are filled in as it leaves; len is 0 where it carries no byte. -/
def blankFlit (cls typ flags tag : Nat) (d : List Byte) : Flit :=
  { cls := cls, typ := typ, flags := flags, seq := 0, ack := 0, nak := false, cmdCredits := 0, bulkCredits := 0,
    len := d.length - 1, tag := tag, payload := bytesFrom d 0 240, crc := 0 }

/-- The request header of a message: address, length − 1, status. -/
def reqHeader (addr n status : Nat) : List Byte := leBytes 8 addr ++ leBytes 4 (n - 1) ++ leBytes 2 status ++ leBytes 2 0

/-- The flits of a message whose header and data are the bytes b: 240 to a flit, the first and the last flagged. -/
def cutFlits (cls typ tag : Nat) (b : List Byte) : List Flit :=
  let n := ceilDiv b.length 240
  (List.range n).map (fun i =>
    blankFlit cls typ (boolNat (i == 0) + 2 * boolNat (i + 1 == n)) tag ((b.drop (240 * i)).take 240))

/-- The flits of a message. A HOST_WRITE and a PRIO_WRITE expect no answer and carry tag 0, and a reply's header repeats the address
of the request (DESIGN CHOICE, log entry 45). -/
def msgFlits : Msg → List Flit
  | .hostWrite bulk _ a d => cutFlits (if bulk then fcBULK else fcCOMMAND) ftHOST_WRITE 0 (reqHeader a d.length 0 ++ d)
  | .hostRead bulk t a n => cutFlits (if bulk then fcBULK else fcCOMMAND) ftHOST_READ t (reqHeader a n 0)
  | .prioWrite a d => cutFlits fcPRIORITY ftPRIO_WRITE 0 (reqHeader a d.length 0 ++ d)
  | .regData t st a d => cutFlits fcCOMMAND ftREG_DATA t (reqHeader a d.length st ++ d)
  | .memData t st a d => cutFlits fcBULK ftMEM_DATA t (reqHeader a d.length st ++ d)
  | .memAck t st a => cutFlits fcBULK ftMEM_ACK t (reqHeader a 0 st)

def msgOwner : Msg → Option (Nat × Nat)
  | .hostWrite _ o _ _ => o
  | _ => none

/-- A flit leaves, with the cumulative acknowledgement that every flit carries (R360). -/
def State.putFlit (s : State) (f : Flit) : State :=
  { s with
    out := s.out ++ [.flit (sealFlit { f with ack := s.mxl.rxSeq })]
    mxl := { s.mxl with
      cmdRun := if f.cls = fcCOMMAND then s.mxl.cmdRun + 1 else 0
      sinceIdle := if f.cls = fcIDLE && f.typ = ftIDLE then 0 else s.mxl.sinceIdle + 1 } }

/-- An IDLE flit with a nak bit and the receive buffers that it returns. -/
def State.sendIdle (s : State) (nak : Bool) (cmd bulk : Nat) : State :=
  ({ s with mxl := { s.mxl with cmdGrant := s.mxl.cmdGrant + cmd, bulkGrant := s.mxl.bulkGrant + bulk } } : State).putFlit
    { blankFlit fcIDLE ftIDLE 3 0 [] with nak := nak, cmdCredits := cmd, bulkCredits := bulk }

/-- A flit leaves, behind an IDLE flit where 4,095 others have gone since the last one (R362). -/
def State.emitFlit (s : State) (f : Flit) : State := (if 4095 ≤ s.mxl.sinceIdle then s.sendIdle false 0 0 else s).putFlit f

/-- A LANE_SWAP flit (R353): the lane in payload byte 0, the flits to the swap as its tag. -/
def State.sendLaneSwap (s : State) (lane flits : Nat) : State :=
  s.emitFlit (blankFlit fcIDLE ftLANE_SWAP 3 flits [BitVec.ofNat 8 lane])

/-- A flit that waits may leave: a credit of its class, room in the replay buffer of 512 flits, and for a record no BULK
HOST_WRITE of its command still waiting (R358, R361, R363). -/
def State.mayLeave (s : State) (credits : Nat) (t : TxFlit) : Bool :=
  0 < credits && s.mxl.replay.length < 512 &&
  (t.owner == none || t.flit.cls != fcCOMMAND || !s.mxl.bulkQ.any (fun x => x.owner == t.owner))

/-- The next flit to leave (R358): PRIORITY; then COMMAND, but after 7 of them in a row a BULK flit that waits; then BULK. -/
def State.nextFlit (s : State) : Option TxFlit :=
  let c := s.mxl.cmdQ.head?.filter (s.mayLeave s.mxl.cmdCredits)
  let b := s.mxl.bulkQ.head?.filter (s.mayLeave s.mxl.bulkCredits)
  s.mxl.prioQ.head? <|> (if 7 ≤ s.mxl.cmdRun then b <|> c else c <|> b)

/-- A flit leaves its queue. A PRIORITY flit goes twice (R359); another takes a sequence number and a credit, and stays in the
replay buffer until it is acknowledged (R361). -/
def State.sendNext (s : State) (t : TxFlit) : State :=
  let m := s.mxl
  if t.flit.cls = fcPRIORITY then
    (({ s with mxl := { m with prioQ := m.prioQ.drop 1 } } : State).emitFlit t.flit).emitFlit
      { t.flit with flags := t.flit.flags + 8 }
  else
    let f := { t.flit with seq := m.txSeq }
    let m := { m with txSeq := (m.txSeq + 1) % 4096, replay := m.replay ++ [{ t with flit := f }] }
    let m := if f.cls = fcBULK then { m with bulkQ := m.bulkQ.drop 1, bulkCredits := m.bulkCredits - 1 }
      else { m with cmdQ := m.cmdQ.drop 1, cmdCredits := m.cmdCredits - 1 }
    ({ s with mxl := m } : State).emitFlit f

/-- Send what waits, at most k flits. -/
def flitPump : Nat → State → State
  | 0, s => s
  | k + 1, s => match s.nextFlit with
    | some t => flitPump k (s.sendNext t)
    | none => s

/-- Send what waits as far as credits reach, while the link is UP. -/
def State.mxlFlush (s : State) : State :=
  if s.mxlUp then flitPump (s.mxl.prioQ.length + s.mxl.cmdQ.length + s.mxl.bulkQ.length) s else s

/-- A message joins the queue of its class, and the link sends what it can. -/
def State.mxlSend (s : State) (x : Msg) : State :=
  let m := s.mxl
  let l := (msgFlits x).map (fun f => ({ flit := f, msg := m.nextMsg, owner := msgOwner x } : TxFlit))
  let of (c : Nat) : List TxFlit := l.filter (fun t => t.flit.cls == c)
  ({ s with mxl := { m with prioQ := m.prioQ ++ of fcPRIORITY, cmdQ := m.cmdQ ++ of fcCOMMAND, bulkQ := m.bulkQ ++ of fcBULK,
                            nextMsg := m.nextMsg + 1 } } : State).mxlFlush

/-- A message has flits that wait or are unacknowledged. -/
def State.msgOut (s : State) (n : Nat) : Bool := (s.mxl.cmdQ ++ s.mxl.replay).any (fun t => t.msg == n)

/-! In-band interrupts (22 R523). -/

/-- Raise an in-band interrupt with its mandatory byte; with interrupts disabled it stays pending (22 R519). -/
def State.raiseIbi (s : State) (b : Nat) : State :=
  if bitSet s.mgmt.events 0 then s.send (.ibi b)
  else { s with mgmt := { s.mgmt with pendingIbi := s.mgmt.pendingIbi ++ [b] } }

/-- Interrupt of a severity-3 event: none while MGMT_STATUS.alert = 1, and alert is set (22 R523). -/
def State.alertIbi (s : State) : State :=
  if s.flag MGMT_STATUS MGMT_STATUS_alert then s
  else (s.raiseIbi 2).setB MGMT_STATUS MGMT_STATUS_alert true

/-! Trace (22 R528, R529). -/

/-- The running trace has this source selected. -/
def State.traceOn (s : State) (src : Nat) : Bool := bitSet (leAt s.mgmt.traceSetup 0x0C 4) src

/-- A source produces a trace record; the service slot writes it. Records beyond 4,096 in a bell, or after the buffer is
full, are dropped. What the spec does not say a field holds is free (log entry 7). -/
def State.trace (s : State) (src : Nat) (code node data : Option Nat) : State :=
  if !s.traceOn src then s
  else if s.flag TRC_STATUS TRC_STATUS_full || 4096 ≤ s.mgmt.traceQueue.length then s.incF TRC_STATUS TRC_STATUS_dropped 1
  else
    let k := s.freeCtr
    let r := leBytes 5 s.bellCount ++ leBytes 2 s.cyc ++ leBytes 1 src ++ leBytes 2 (code.getD (Config.freeNat k)) ++
      leBytes 2 (node.getD (Config.freeNat (k + 1))) ++ leBytes 4 (data.getD (Config.freeNat (k + 2)))
    ({ s with mgmt := { s.mgmt with traceQueue := s.mgmt.traceQueue ++ [r] } }).drawn 3

/-- BRG_STAGE takes a stage and a state, and the change is signalled (20 R496, 22 R523). -/
def State.setStage (s : State) (stage state : Nat) : State :=
  ((s.setF BRG_STAGE BRG_STAGE_stage stage).setF BRG_STAGE BRG_STAGE_state state).raiseIbi 1

/-- BRG_STAGE takes a count of unready starts; a change is signalled (22 R523). -/
def State.setUnready (s : State) (n : Nat) : State :=
  if s.getF BRG_STAGE BRG_STAGE_unready = n then s else (s.setF BRG_STAGE BRG_STAGE_unready n).raiseIbi 1

/-! Event codes (15 R401). -/

def evCourseHalted : Nat := 0x0001
def evCourseDone : Nat := 0x0002
def evCourseMark : Nat := 0x0003
def evOutOfStep : Nat := 0x0004
def evOverrun : Nat := 0x0005
def evBellPhaseWarn : Nat := 0x0006
def evGcTrap : Nat := 0x0007
def evArithFlag : Nat := 0x0100
def evTbConflict : Nat := 0x0200
def evMeshDrop : Nat := 0x0201
def evMeshConflict : Nat := 0x0202
def evTrnRefused : Nat := 0x0203
def evMemUncorrectable : Nat := 0x0204
def evLinkState : Nat := 0x0300
def evLaneSwap : Nat := 0x0301
def evPhaseLoss : Nat := 0x0400
def evCrackSuspect : Nat := 0x0401
def evSensorDisagree : Nat := 0x0402
def evSensorSuspect : Nat := 0x0403
def evThrottle : Nat := 0x0404
def evIsolationOpen : Nat := 0x0405
def evCoolantDecline : Nat := 0x0406
def evSubstitution : Nat := 0x0500
def evSeatDead : Nat := 0x0501
def evFormShort : Nat := 0x0502
def evExamDone : Nat := 0x0503
def evEvacuationDone : Nat := 0x0504
def evImageFallback : Nat := 0x0600
def evImageActivated : Nat := 0x0601
def evPerfPinned : Nat := 0x0700
def evEventsLost : Nat := 0x0701
def evStopIncomplete : Nat := 0x0800
def evRegAccess : Nat := 0x0801

/-- Severity of an event code (15 R401): 0 information, 1 warning, 2 fault, 3 critical. -/
def evSeverity (code : Nat) : Nat :=
  if code ∈ [0x0002, 0x0003, 0x0301, 0x0404, 0x0503, 0x0504, 0x0601] then 0
  else if code ∈ [0x0006, 0x0100, 0x0203, 0x0204, 0x0300, 0x0402, 0x0403, 0x0501, 0x0700, 0x0801] then 1
  else if code ∈ [0x0004, 0x0405, 0x0800] then 3
  else 2

/-- Class of an event: bits [11:8] of its code. -/
def evClass (code : Nat) : Nat := code / 256 % 16

/-- The 64 bytes of an event record with a phase bit (15 R399). -/
def evBytes (r : EvRec) (phase : Nat) : List Byte :=
  leBytes 2 r.code ++ leBytes 1 (evClass r.code + 16 * evSeverity r.code) ++ leBytes 1 (phase + 2 * boolNat r.late) ++
  leBytes 4 r.seq ++ leBytes 8 r.bell ++ leBytes 2 r.cycle ++ leBytes 1 r.part ++ leBytes 1 r.kind ++
  leBytes 2 r.unit ++ leBytes 2 0 ++ leBytes 4 r.lesson ++ leBytes 4 0 ++
  leBytes 8 r.d0 ++ leBytes 8 r.d1 ++ leBytes 8 r.d2 ++ leBytes 8 r.d3

/-- Phase bit of record j in a ring of 2^n entries (14 R375). -/
def phaseOf (j n : Nat) : Nat := 1 - j / 2 ^ n % 2

/-- Ring size exponent of an event ring, where the ring is enabled (15 R415). -/
def State.evSize (s : State) (e : Nat) : Option Nat :=
  let n := s.getF (EVT_RING_CFG e) EVT_RING_CFG_size_log2
  if s.flag (EVT_RING_CFG e) EVT_RING_CFG_enable && 4 ≤ n && n ≤ 12 then some n else none

/-- Host base address held in a BASE_LO and BASE_HI pair. -/
def State.ringBase (s : State) (lo : Nat) : Nat := s.pair lo / 4096 * 4096

/-- Occupied places of a ring with free-running 32-bit indices. -/
def ringUsed (head tail : Nat) : Nat := (tail + 2 ^ 32 - head) % 2 ^ 32

/-- Whether a record can be written to an event ring at once (15 R402); while the control cores switch images it is held (21 R511). -/
def State.evFree (s : State) (e n : Nat) : Bool :=
  s.mxlUp && s.sec.switch.isNone && decide (ringUsed (s.reg (EVT_RING_HEAD e)).toNat (s.reg (EVT_RING_TAIL e)).toNat < 2 ^ n) &&
  (match (s.evRing e).outstanding with
   | none => true
   | some q => !s.msgOut q)

/-- Write one record at the ring's tail and advance the tail (15 R396). -/
def State.evWrite (s : State) (e n : Nat) (r : EvRec) : State :=
  let j := (s.reg (EVT_RING_TAIL e)).toNat
  let q := s.mxl.nextMsg
  ((s.mxlSend (.hostWrite false none (s.ringBase (EVT_RING_BASE_LO e) + 64 * (j % 2 ^ n)) (evBytes r (phaseOf j n)))).setReg
    (EVT_RING_TAIL e) (BitVec.ofNat 32 (j + 1))).modEvRing e (fun v => { v with outstanding := some q })

/-- The ring's records that wait, EVENTS_LOST among them, in order of sequence field (15 R403). -/
def evWaiting (v : EvRing) : List EvRec :=
  match v.lost with
  | none => v.held
  | some l => v.held.filter (fun r => r.seq < l.seq) ++ [l] ++ v.held.filter (fun r => !(r.seq < l.seq))

/-- Take a written record out of what a ring holds. -/
def evTake (v : EvRing) (r : EvRec) : EvRing :=
  if v.lost = some r then { v with lost := none } else { v with held := v.held.erase r }

/-- Write waiting records of a ring while it can take them, at most k. -/
def evDrain : Nat → Nat → Nat → State → State
  | 0, _, _, s => s
  | k + 1, e, n, s =>
    match evWaiting (s.evRing e) with
    | [] => s
    | r :: _ => if s.evFree e n then evDrain k e n ((s.evWrite e n r).modEvRing e (fun v => evTake v r)) else s

/-- The EVENTS_LOST record after the loss of r (15 R400, R403). -/
def evLostRec (old : Option EvRec) (r : EvRec) : EvRec :=
  match old with
  | some l => { l with d0 := l.d0 + 1, d2 := r.seq }
  | none => { code := evEventsLost, late := false, seq := r.seq, bell := r.bell, cycle := r.cycle, part := 255,
              kind := 0, unit := 0, lesson := 0, d0 := 1, d1 := r.seq, d2 := r.seq, d3 := 0 }

/-- Places an event of a severity may take among the 256 of a ring (15 R402). -/
def evPlaces (sev : Nat) : Nat := if 2 ≤ sev then 256 else 224

/-- Hand a record to one ring: written, held or lost (15 R402, R403). -/
def State.evOffer (s : State) (e n : Nat) (r : EvRec) : State :=
  if evWaiting (s.evRing e) = [] && s.evFree e n then s.evWrite e n r
  else if (s.evRing e).held.length < evPlaces (evSeverity r.code) then
    s.modEvRing e (fun v => { v with held := v.held ++ [r] })
  else (s.incF (EVT_RING_LOST e) EVT_RING_LOST_lost 1).modEvRing e (fun v => { v with lost := some (evLostRec v.lost r) })

/-- Whether an event is delivered to ring e (15 R397); 255 is device-wide. -/
def State.evMatches (s : State) (e : Nat) (r : EvRec) : Bool :=
  (s.evSize e).isSome && bitSet (s.getF (EVT_RING_CFG e) EVT_RING_CFG_class_mask) (evClass r.code) &&
  (if r.part = 255 then s.flag (EVT_RING_CFG e) EVT_RING_CFG_device
   else bitSet (s.getF (EVT_RING_CFG e) EVT_RING_CFG_partitions) r.part)

/-- Deliver a record to every ring that takes it, or count it as unrouted (15 R397). -/
def State.evRoute (s : State) (r : EvRec) : State :=
  let rings := (List.range 8).filter (fun e => s.evMatches e r)
  if rings = [] then s.incF EVT_UNROUTED EVT_UNROUTED_unrouted 1
  else forEach rings s (fun s e => s.evOffer e ((s.evSize e).getD 4) r)

/-- The lesson field of an event (15 R399). -/
def State.evLesson (s : State) (part : Nat) : Nat :=
  if part < 4 && s.courseRunning part then s.getF (BELL_CRS_LESSON part) BELL_CRS_LESSON_lesson else 0

/-- Raise an event: it takes the next sequence number, is delivered, and a severity of 3 is also signalled over
management (15 R397-R400, 22 R523). -/
def State.raiseWith (s : State) (late : Bool) (code part kind unit d0 d1 d2 d3 : Nat) : State :=
  let q := (s.reg EVT_SEQ).toNat
  let r : EvRec :=
    { code := code, late := late, seq := q, bell := s.bellCount, cycle := s.cyc, part := part, kind := kind, unit := unit,
      lesson := s.evLesson part, d0 := d0, d1 := d1, d2 := d2, d3 := d3 }
  let s := ((s.setReg EVT_SEQ (BitVec.ofNat 32 (q + 1))).evRoute r).trace 2 (some code) none none
  if evSeverity code = 3 then s.alertIbi else s

def State.raise (s : State) (code part kind unit d0 d1 d2 d3 : Nat) : State :=
  s.raiseWith false code part kind unit d0 d1 d2 d3

/-- The low d bits of a signed detail word. -/
def detail64 (v : Int) : Nat := codeOf v 64

/-! Performance counters (15 R407, R408). -/

/-- Add to counter k of partition p: 48 bits, pinned at their end, one PERF_PINNED. Counters of an absent partition stay
0. -/
def State.perfAdd (s : State) (p k n : Nat) : State :=
  let lo := PERF_LO p k
  let hi := PERF_HI p k
  if s.partCount ≤ p || s.flag hi PERF_HI_pinned then s
  else
    let v := (s.reg lo).toNat + 2 ^ 32 * s.getF hi PERF_HI_value_hi + n
    if v < 2 ^ 48 - 1 then (s.setReg lo (BitVec.ofNat 32 v)).setF hi PERF_HI_value_hi (v / 2 ^ 32)
    else (((s.setReg lo (BitVec.ofNat 32 (2 ^ 32 - 1))).setF hi PERF_HI_value_hi 0xFFFF).setB hi PERF_HI_pinned true).raise
      evPerfPinned p 0 0 (8 * p + k) 0 0 0

/-- Count one recess bell (02 R84): the same 48-bit counter form. -/
def State.recessTaken (s : State) : State :=
  let v := (s.reg BELL_RECESS_TAKEN_LO).toNat + 2 ^ 32 * s.getF BELL_RECESS_TAKEN_HI BELL_RECESS_TAKEN_HI_value + 1
  if s.flag BELL_RECESS_TAKEN_HI BELL_RECESS_TAKEN_HI_pinned then s
  else if v < 2 ^ 48 - 1 then
    (s.setReg BELL_RECESS_TAKEN_LO (BitVec.ofNat 32 v)).setF BELL_RECESS_TAKEN_HI BELL_RECESS_TAKEN_HI_value (v / 2 ^ 32)
  else ((s.setReg BELL_RECESS_TAKEN_LO (BitVec.ofNat 32 (2 ^ 32 - 1))).setF BELL_RECESS_TAKEN_HI
    BELL_RECESS_TAKEN_HI_value 0xFFFF).setB BELL_RECESS_TAKEN_HI BELL_RECESS_TAKEN_HI_pinned true

/-! Control symbols (12 R331, R332). -/

/-- Bytes 0x00-0x0D of a control symbol. -/
def symBytes (y : Sym) : List Byte :=
  leBytes 1 y.typ ++ leBytes 1 y.a8 ++ leBytes 2 y.origin ++ leBytes 6 y.bell ++ leBytes 4 y.b32

/-- A symbol with its CRC-16. -/
def mkSym (typ a8 origin bell b32 : Nat) : Sym :=
  let y : Sym := { typ := typ, a8 := a8, origin := origin, bell := bell % 2 ^ 48, b32 := b32, crc := 0 }
  { y with crc := crc16 (symBytes y) }

/-- Send a symbol on a port. -/
def State.sendSym (s : State) (p : Nat) (y : Sym) : State := s.send (.symbol p y)

/-- HALT, RECESS and RECESS_REQ go three times in consecutive symbol positions (12 R332). -/
def State.sendSym3 (s : State) (p : Nat) (y : Sym) : State := ((s.sendSym p y).sendSym p y).sendSym p y

def State.sendSym3All (s : State) (ps : List Nat) (y : Sym) : State := forEach ps s (fun s p => s.sendSym3 p y)

/-- UP ports of a partition. -/
def State.upPorts (s : State) (part : Nat) : List Nat :=
  (List.range 6).filter (fun p => s.portUp p && s.partOfPort p == part)

/-- Send a control-network message: it takes the seat of a destination tile along (07 R230); a priority message goes twice and before
the messages of the normal class (R231). -/
def State.sendCnet (s : State) (m : CnetMsg) : State :=
  let x := { m with seat := if !m.bcast && s.present m.dest then some (s.seatOf m.dest) else none, second := false }
  let l := s.mesh.msgs
  let l := if m.prio then l.filter (·.prio) ++ [x, { x with second := true }] ++ l.filter (fun y => !y.prio) else l ++ [x]
  ({ s with mesh := { s.mesh with msgs := l } }).trace 0 none none none

/-- A control message of one word (07 R229). -/
def cnetMsg (typ dest src payload : Nat) (bcast prio : Bool) : CnetMsg :=
  { typ := typ, prio := prio, bcast := bcast, dest := dest, src := src, payload := payload, words := [], seat := none, second := false }

/-! Halting (02 R64, R67; 06 R182). -/

/-- A halt of partition p's course, named by a bell: the earliest bell counts (R64). -/
def State.nameHalt (s : State) (p bell reason declarer : Nat) (late : Bool) : State :=
  let c := s.crsOf p
  let earlier := match c.haltBell with
    | none => true
    | some b => decide (bell < b)
  let s := if earlier then
      (((s.modCrs p (fun c => { c with haltBell := some bell, haltReason := reason, haltDeclarer := declarer })).setPair
        (BELL_CRS_HALT_LO p) bell).setB (BELL_CRS_STATE p) BELL_CRS_STATE_halt_late late)
    else s
  s.setCourseState p csHalting

/-- Announcement horizon H of the partition's course (02 R76). -/
def State.horizonOf (s : State) (p : Nat) : Nat := leAt (s.crsOf p).image 0x24 2

/-- A course that a halt can stop: it runs, or its start has committed (log entry 15). -/
def State.courseGoes (s : State) (p : Nat) : Bool := s.courseRunning p || s.courseState p == csStarting

/-- The device declares a halt of partition p's course in the present bell N: no timetabled work from N + 1, HALT naming
N + H on the partition's UP ports (02 R64, R67). A course past its start's commit
point counts as running (log entry 15); with none nothing happens. -/
def State.declareHalt (s : State) (p cause : Nat) : State :=
  if s.courseGoes p then
    let n := s.bellCount
    let hb := n + s.horizonOf p
    let r := Config.haltReason cause % 2 ^ 32
    let s := s.nameHalt p hb r s.deviceId false
    let s := s.modCrs p (fun c => { c with
      stopFrom := some (match c.stopFrom with
        | none => n + 1
        | some b => min b (n + 1)) })
    s.sendSym3All (s.upPorts p) (mkSym 3 0 s.deviceId hb r)
  else s

/-- Causes the model gives Config.haltReason (15 R401 lists no codes; log entry 7). -/
def hcStep : Nat := 0
def hcStop : Nat := 1
def hcTrap : Nat := 2
def hcTile : Nat := 3
def hcChannel : Nat := 4
def hcMesh : Nat := 5
def hcLocker : Nat := 6
def hcSlate : Nat := 7
def hcPatch : Nat := 8
def hcSeam : Nat := 9
def hcIsolation : Nat := 10
def hcGroup : Nat := 11
def hcReset : Nat := 12
def hcMxe : Nat := 13

/-- The device declares itself out of step (02 R61, R64, R67): causes 1 bell number, 2 phase, 3 holdover, 4 overrun. -/
def State.outOfStep (s : State) (cause : Nat) : State :=
  if s.flag BELL_SYNC BELL_SYNC_out_of_step then s
  else
    let s := s.setB BELL_SYNC BELL_SYNC_out_of_step true
    let s := { s with bell := { s.bell with inTol := 0, reload := true } }
    let s := s.raise evOutOfStep 255 0 0 cause 0 0 0
    forEach (List.range 4) s (fun s p => s.declareHalt p hcStep)

end Sys2Proof.Machine
end

