-- ==== Sys2Proof/Machine/Cmds.lean ====
section
/-! DEFINITION. Commands from the rings: status codes, completion records, the checks at acceptance (14). -/

namespace Sys2Proof.Machine

/-! Status codes (14 R393). -/

def stOK : Nat := 0x0000
def stABORTED : Nat := 0x0001
def stABORT_TOO_LATE : Nat := 0x0002
def stABORT_NO_TARGET : Nat := 0x0003
def stBAD_OPCODE : Nat := 0x0004
def stBAD_PARAM : Nat := 0x0005
def stWRONG_PARTITION : Nat := 0x0006
def stPRIO_BUSY : Nat := 0x0007
def stLICENCE : Nat := 0x0008
def stDEVICE_STATE : Nat := 0x0009
def stADDR_UNMAPPED : Nat := 0x0100
def stADDR_PROTECTED : Nat := 0x0101
def stUNCORRECTABLE : Nat := 0x0102
def stLOCKER_MOVING : Nat := 0x0103
def stHOST_TIMEOUT : Nat := 0x0104
def stREMOTE_TIMEOUT : Nat := 0x0105
def stREMOTE_UNREACHABLE : Nat := 0x0106
def stTT_FORMAT : Nat := 0x0200
def stTT_DEVICE : Nat := 0x0201
def stSEATING_MISMATCH : Nat := 0x0202
def stTT_LIMIT : Nat := 0x0203
def stCOURSE_BUSY : Nat := 0x0204
def stNOT_IN_STEP : Nat := 0x0205
def stSTART_TOO_LATE : Nat := 0x0206
def stEND_TOO_LATE : Nat := 0x0207
def stNO_COURSE : Nat := 0x0208
def stCOURSE_STATE : Nat := 0x0209
def stLINKMAP_FORMAT : Nat := 0x020A
def stLINK_MISMATCH : Nat := 0x020B
def stLINK_SLOW : Nat := 0x020C
def stNO_CHECKPOINT : Nat := 0x020D
def stROSTER_LATE : Nat := 0x0300
def stROSTER_FORMAT : Nat := 0x0301
def stROSTER_REPLACED : Nat := 0x0302
def stSEQ_STATE : Nat := 0x0304
def stSEQ_BUSY : Nat := 0x0305
def stNO_FRAMES : Nat := 0x0306
def stNO_LEAVES : Nat := 0x0307
def stREFCOUNT_LIMIT : Nat := 0x0308
def stAREA_OFF : Nat := 0x0309
def stAREA_LOST : Nat := 0x030A
def stGROUP_LATE : Nat := 0x0400
def stGROUP_FORMAT : Nat := 0x0401
def stGROUP_BUSY : Nat := 0x0402
def stPOWER_RANGE : Nat := 0x0500
def stSIG_INVALID : Nat := 0x0600
def stNOT_IN_SYLLABUS : Nat := 0x0601
def stIMAGE_FORMAT : Nat := 0x0602
def stLICENCE_BINDING : Nat := 0x0603
def stNO_SPARE : Nat := 0x0700

/-- The 32 bytes of a completion record with a phase bit (14 R378). -/
def cplBytes (r : CplRec) (phase : Nat) : List Byte :=
  leBytes 4 r.tag ++ leBytes 2 r.opcode ++ leBytes 2 r.status ++ leBytes 1 r.ring ++
  leBytes 1 (phase + 2 * boolNat r.changed) ++ leBytes 2 r.cmdHead ++ leBytes 4 r.detail ++ leBytes 8 r.result ++
  leBytes 8 r.bell

/-- The number of commands of a ring kept for ABORT (14 R383). -/
def keepDone (l : List DoneCmd) (d : DoneCmd) : List DoneCmd :=
  let same := l.filter (fun x => x.ring == d.ring)
  let l' := if same.length < 256 then l
    else match same.head? with
      | some x => l.erase x
      | none => l
  l' ++ [d]

/-- Form and send a completion record: to the ring's reserved slot, which is its tail (14 R375), or by PRIO_WRITE to the
address in p6 (14 R377). -/
def State.sendRecord (s : State) (c : Cmd) (status : Nat) (changed : Bool) (detail result : Nat) : State :=
  let r : CplRec :=
    { tag := c.pkt.tag, opcode := c.pkt.opcode, status := status, ring := c.ring, changed := changed,
      cmdHead := if c.ring < 64 then (s.reg (CMD_RING_HEAD c.ring)).toNat % 65536 else 0,
      detail := detail, result := result, bell := s.bellCount }
  if c.ring < 64 then
    let q := c.cplRing
    let n := s.getF (CPL_RING_CFG q) CPL_RING_CFG_size_log2
    let j := (s.reg (CPL_RING_TAIL q)).toNat
    (s.mxlSend (.hostWrite false (some (c.ring, c.pkt.tag)) (s.ringBase (CPL_RING_BASE_LO q) + 32 * (j % 2 ^ n))
      (cplBytes r (phaseOf j n)))).setReg
      (CPL_RING_TAIL q) (BitVec.ofNat 32 (j + 1))
  else s.mxlSend (.prioWrite c.pkt.p6 (cplBytes r 0))

/-- MXL_PRIO.queued: PRIORITY packets the decoder holds, from their arrival to their record (13 R359). -/
def State.prioHeld (s : State) : Nat := (s.cmds.filter (fun c => c.ring == 255)).length

def State.showPrio (s : State) : State := s.setF MXL_PRIO MXL_PRIO_queued s.prioHeld

/-- Trace the command states that a command passes at once on its way to DONE: no state is skipped (14 R380). -/
def State.tracePhases (s : State) (c : Cmd) (changed : Bool) : State :=
  let n := if !changed then 0 else match c.phase with
    | .accepted => 2
    | .active => 1
    | .committed => 0
  forEach (List.range n) s (fun s _ => s.trace 1 none (some c.ring) none)

/-- A command reaches DONE: it leaves the accepted commands, is kept for ABORT, and its record is sent. -/
def State.finish (s : State) (c : Cmd) (status : Nat) (changed : Bool) (detail result : Nat) : State :=
  let s := s.tracePhases c changed
  let s := { s with cmds := s.cmds.erase c,
                    done := keepDone s.done { ring := c.ring, tag := c.pkt.tag, opcode := c.pkt.opcode, status := status } }
  let s := (s.sendRecord c status changed detail result).trace 1 none (some c.ring) none
  if c.ring < 64 then s.perfAdd c.part 7 1 else s.showPrio

/-- Completion with a failure: nothing changed (14 R379). -/
def State.fail (s : State) (c : Cmd) (status : Nat) : State := s.finish c status false 0 0

/-- Completion with a failure that one field of the packet is the ground for: its word and bit stand in the detail (14 R378). -/
def State.failAt (s : State) (c : Cmd) (status word bit : Nat) : State := s.finish c status false (word + 256 * bit) 0

/-- Completion with OK after the commit point. -/
def State.ok (s : State) (c : Cmd) (result : Nat) : State := s.finish c stOK true 0 result

/-- BAD_PARAM with the parameter word and bit of the first field found invalid (14 R378). -/
def State.badParam (s : State) (c : Cmd) (word bit : Nat) : State :=
  s.failAt c stBAD_PARAM word bit

/-- The accepted command of a ring with a tag and an opcode. -/
def State.findCmd (s : State) (ring tag opcode : Nat) : Option Cmd :=
  s.cmds.find? (fun c => c.ring == ring && c.pkt.tag == tag && c.pkt.opcode == opcode)

def State.findTag (s : State) (ring tag : Nat) : Option Cmd :=
  s.cmds.find? (fun c => c.ring == ring && c.pkt.tag == tag)

/-- Replace an accepted command by its next form. -/
def State.putCmd (s : State) (c c' : Cmd) : State :=
  let s := { s with cmds := s.cmds.map (fun x => if x = c then c' else x) }
  if c.phase = c'.phase then s else s.trace 1 none (some c.ring) none

/-- While the control cores switch images an accepted command waits; PRIORITY packets are decoded in hardware (21 R511). -/
def State.switchWait (s : State) (c : Cmd) : Bool := s.sec.switch.isSome && c.ring != 255

/-- Carry out f on the accepted command a row names; with no such command nothing happens (log entry 3). -/
def State.onCmd (s : State) (ring tag opcode : Nat) (f : State → Cmd → State) : State :=
  match s.findCmd ring tag opcode with
  | some c => if c.phase = .accepted && !s.switchWait c then f s c else s
  | none => s

/-- As onCmd, for a command in any phase. -/
def State.onActive (s : State) (ring tag opcode : Nat) (f : State → Cmd → State) : State :=
  match s.findCmd ring tag opcode with
  | some c => f s c
  | none => s

/-! Opcodes (14 R385). -/

def opNOP : Nat := 0x0000
def opSTOP : Nat := 0x0001
def opABORT : Nat := 0x0002
def opRESET : Nat := 0x0003
def opPARTITION_SET : Nat := 0x0004
def opLINKMAP_LOAD : Nat := 0x0005
def opBELL_JOIN : Nat := 0x0006
def opMEM_COPY : Nat := 0x0100
def opMEM_FILL : Nat := 0x0101
def opDMA_IN : Nat := 0x0102
def opDMA_OUT : Nat := 0x0103
def opNBU_FILL : Nat := 0x0104
def opNBU_COPY : Nat := 0x0105
def opCOURSE_LOAD : Nat := 0x0200
def opCOURSE_START : Nat := 0x0201
def opCOURSE_END : Nat := 0x0202
def opCOURSE_UNLOAD : Nat := 0x0203
def opCOURSE_RESUME : Nat := 0x0204
def opROSTER_COMMIT : Nat := 0x0300
def opSEQ_OPEN : Nat := 0x0301
def opSEQ_CLOSE : Nat := 0x0302
def opPAGE_MAP : Nat := 0x0303
def opPAGE_UNMAP : Nat := 0x0304
def opSEQ_FORK : Nat := 0x0305
def opPAGE_PRIVATE : Nat := 0x0306
def opGROUP_TABLE : Nat := 0x0400
def opRECESS_REQUEST : Nat := 0x0500
def opPOWER_CAP : Nat := 0x0501
def opBUDGET_MOVE : Nat := 0x0502
def opIMAGE_STAGE : Nat := 0x0600
def opIMAGE_ACTIVATE : Nat := 0x0601
def opSYLLABUS_LOAD : Nat := 0x0602
def opLICENCE_LOAD : Nat := 0x0603
def opATTEST : Nat := 0x0604
def opEXAM : Nat := 0x0700
def opEVACUATE : Nat := 0x0701
def opAREA_RESTORE : Nat := 0x0702
def opRENUMBER : Nat := 0x0703
def opENERGY_SNAPSHOT : Nat := 0x0800
def opCOUNTERS_CLEAR : Nat := 0x0801
def opTRACE_CONFIG : Nat := 0x0802

/-- What the opcode table says of an opcode (14 R385): code, path R, path P, device-wide, the stage whose end admits it
(20 R472), and the bits of p0-p5 that may be set. -/
structure OpRow where
  code : Nat
  ring : Bool
  prio : Bool
  device : Bool
  stage : Nat
  masks : List Nat
  deriving DecidableEq, Repr

def mAll : Nat := 2 ^ 64 - 1

def opRows0 : List OpRow := [
  ⟨opNOP, true, true, false, 2, []⟩,
  ⟨opSTOP, false, true, false, 2, [0xF]⟩,
  ⟨opABORT, true, true, false, 2, [0x3F, 2 ^ 32 - 1]⟩,
  ⟨opRESET, true, false, true, 2, [1]⟩,
  ⟨opPARTITION_SET, true, false, true, 4, [7]⟩,
  ⟨opLINKMAP_LOAD, true, false, true, 5, [2 ^ 48 - 1]⟩,
  ⟨opBELL_JOIN, true, false, true, 6, []⟩,
  ⟨opMEM_COPY, true, false, false, 4, [mAll, mAll, 2 ^ 30 - 1]⟩,
  ⟨opMEM_FILL, true, false, false, 4, [mAll, 2 ^ 30 - 1, mAll]⟩,
  ⟨opDMA_IN, true, false, false, 4, [mAll, mAll, 2 ^ 30 - 1]⟩,
  ⟨opDMA_OUT, true, false, false, 4, [mAll, mAll, 2 ^ 30 - 1]⟩,
  ⟨opNBU_FILL, true, false, false, 4, [2 ^ 31 - 1, 0x7FF07FF]⟩,
  ⟨opNBU_COPY, true, false, false, 4, [2 ^ 31 - 1, 0x7FFFFF07FF]⟩,
  ⟨opCOURSE_LOAD, true, false, false, 8, [2 ^ 48 - 1, 2 ^ 32 - 1]⟩,
  ⟨opCOURSE_START, true, false, false, 8, [mAll]⟩,
  ⟨opCOURSE_END, true, false, false, 8, [2 ^ 32 - 1]⟩,
  ⟨opCOURSE_UNLOAD, true, false, false, 8, []⟩,
  ⟨opCOURSE_RESUME, true, false, false, 8, [mAll]⟩,
  ⟨opROSTER_COMMIT, true, false, false, 8, [2 ^ 48 - 1, mAll]⟩,
  ⟨opSEQ_OPEN, true, false, false, 8, [0xFFF]⟩,
  ⟨opSEQ_CLOSE, true, false, false, 8, [0xFFF]⟩]

def opRows1 : List OpRow := [
  ⟨opPAGE_MAP, true, false, false, 8, [0xFFF, 0xFFF, 0x1FFF]⟩,
  ⟨opPAGE_UNMAP, true, false, false, 8, [0xFFF, 0xFFF, 0x1FFF]⟩,
  ⟨opSEQ_FORK, true, false, false, 8, [0xFFF, 0xFFF, 0x1FFF]⟩,
  ⟨opPAGE_PRIVATE, true, false, false, 8, [0xFFF, 0xFFF, 0x1FFF]⟩,
  ⟨opGROUP_TABLE, true, false, false, 8, [2 ^ 48 - 1, 2 ^ 32 - 1, mAll]⟩,
  ⟨opRECESS_REQUEST, true, false, false, 8, [0xFFFFFF]⟩,
  ⟨opPOWER_CAP, true, false, true, 4, [0xFFFF]⟩,
  ⟨opBUDGET_MOVE, true, false, true, 4, [0xFFFF000F]⟩,
  ⟨opIMAGE_STAGE, true, false, true, 2, [2 ^ 48 - 1, 2 ^ 32 - 1]⟩,
  ⟨opIMAGE_ACTIVATE, true, false, true, 2, [3]⟩,
  ⟨opSYLLABUS_LOAD, true, false, true, 2, [2 ^ 48 - 1, 2 ^ 32 - 1]⟩,
  ⟨opLICENCE_LOAD, true, false, true, 2, [2 ^ 48 - 1, 2 ^ 32 - 1]⟩,
  ⟨opATTEST, true, false, false, 2, [2 ^ 48 - 1, 2 ^ 48 - 1]⟩,
  ⟨opEXAM, true, false, false, 4, [0x3FFFF, 0x10F]⟩,
  ⟨opEVACUATE, true, false, false, 4, [0xFF]⟩,
  ⟨opAREA_RESTORE, true, false, false, 4, [0xFF, 2 ^ 48 - 1]⟩,
  ⟨opRENUMBER, true, false, true, 4, []⟩,
  ⟨opENERGY_SNAPSHOT, true, false, false, 4, []⟩,
  ⟨opCOUNTERS_CLEAR, true, false, true, 4, [7]⟩,
  ⟨opTRACE_CONFIG, true, false, false, 2, [2 ^ 48 - 1]⟩]

def opRows : List OpRow := opRows0 ++ opRows1

def opRow (code : Nat) : Option OpRow := opRows.find? (fun r => r.code == code)

/-- Parameter word i of a packet. -/
def pktWord (k : Packet) (i : Nat) : Nat :=
  match i with
  | 0 => k.p0
  | 1 => k.p1
  | 2 => k.p2
  | 3 => k.p3
  | 4 => k.p4
  | 5 => k.p5
  | _ => k.p6

/-- Lowest set bit of v outside a mask. -/
def strayBit (v mask : Nat) : Option Nat := (List.range 64).find? (fun b => bitSet v b && !bitSet mask b)

/-- The first parameter word with a reserved bit set, and that bit (14 R377, R381). PRIORITY packets use p6 for their
record's address, a multiple of 32. -/
def strayParam (r : OpRow) (k : Packet) (prio : Bool) : Option (Nat × Nat) :=
  (List.range 7).findSome? (fun i =>
    if i = 6 && prio then (if k.p6 % 32 = 0 then none else (strayBit k.p6 (mAll - 31)).map (fun b => (6, b)))
    else (strayBit (pktWord k i) (r.masks.getD i 0)).map (fun b => (i, b)))

/-- First value of a field that its opcode's table excludes (14 R385, R464, R406, R384): word and bit. -/
def rangeParam (k : Packet) : Option (Nat × Nat) :=
  if k.opcode = opRESET && k.p0 % 2 = 0 then some (0, 0)
  else if k.opcode = opPARTITION_SET && !(k.p0 = 1 || k.p0 = 2 || k.p0 = 4) then some (0, 0)
  else if k.opcode = opRECESS_REQUEST && k.p0 % 256 = 0 then some (0, 0)
  else if k.opcode = opRECESS_REQUEST && k.p0 / 256 % 65536 = 0 then some (0, 8)
  else if k.opcode = opIMAGE_ACTIVATE && k.p0 = 3 then some (0, 0)
  else if (k.opcode = opPAGE_MAP || k.opcode = opPAGE_UNMAP || k.opcode = opPAGE_PRIVATE) &&
      (k.p2 = 0 || 4096 < k.p1 + k.p2) then some (2, 0)
  else if k.opcode = opSEQ_FORK && 4096 < k.p2 then some (2, 0)
  else if (k.opcode = opNBU_FILL || k.opcode = opNBU_COPY) &&
      16384 < bitsAt k.p0 0 14 + bitsAt k.p0 14 14 + 1 then some (0, 14)
  else if (k.opcode = opNBU_FILL || k.opcode = opNBU_COPY) &&
      2048 < bitsAt k.p1 0 11 + bitsAt k.p1 16 11 + 1 then some (1, 16)
  else if k.opcode = opNBU_COPY && 2048 < bitsAt k.p1 27 11 + bitsAt k.p1 16 11 + 1 then some (1, 27)
  else none

/-- Licence features (21 R512), as bits of SEC_LICENCE.features. -/
def State.licensed (s : State) (bit : Nat) : Bool := bitSet (s.getF SEC_LICENCE SEC_LICENCE_features) bit

def featNbu : Nat := 6
def featTraining : Nat := 7

/-- Largest partition count licensed (21 R512, R514): the partitions field 0, 1 or 2 gives 1, 2 or 4. -/
def State.licensedParts (s : State) : Nat := 2 ^ bitsAt (s.getF SEC_LICENCE SEC_LICENCE_features) 8 2

/-- Step 4 of R381: an opcode or parameter the licences do not enable. -/
def State.licenceFails (s : State) (k : Packet) : Bool :=
  (k.opcode == opGROUP_TABLE && !s.licensed featTraining) ||
  (k.opcode == opPARTITION_SET && decide (s.licensedParts < k.p0))

/-- A command arrives before the end of the stage named for it (20 R472). -/
def State.stageFails (s : State) (r : OpRow) : Bool :=
  let st := s.getF BRG_STAGE BRG_STAGE_stage
  if st = 8 && s.getF BRG_STAGE BRG_STAGE_state = 2 then false else decide (st ≤ r.stage)

/-- Checks 1-4 of R381 and the stage gate, in order: the status and detail of the first failure. -/
def State.acceptFails (s : State) (k : Packet) (prio device : Bool) : Option (Nat × Nat) :=
  match opRow k.opcode with
  | none => some (stBAD_OPCODE, 0)
  | some r =>
    if !(if prio then r.prio else r.ring) then some (stBAD_OPCODE, 0)
    else if s.stageFails r then some (stDEVICE_STATE, 0)
    else if r.device && !device && !prio then some (stWRONG_PARTITION, 0)
    else if k.flags / 2 ≠ 0 || (prio && k.flags ≠ 0) then some (stBAD_PARAM, 0)
    else match strayParam r k prio with
      | some (w, b) => some (stBAD_PARAM, w + 256 * b)
      | none => match rangeParam k with
        | some (w, b) => some (stBAD_PARAM, w + 256 * b)
        | none => if s.licenceFails k then some (stLICENCE, 0) else none

/-- An accepted command enters the list, or completes with the first failure of its checks. -/
def State.accept (s : State) (c : Cmd) (device : Bool) : State :=
  let s := ({ s with cmds := s.cmds ++ [c] }).trace 1 none (some c.ring) none
  match s.acceptFails c.pkt (c.ring == 255) device with
  | some (st, d) => s.finish c st false d 0
  | none => s

/-! Rings (14 R373-R376). -/

def State.ringSize (s : State) (r : Nat) : Nat := s.getF (CMD_RING_CFG r) CMD_RING_CFG_size_log2

/-- A command ring is configured: enabled, of a size the rule allows, in a partition that is present. -/
def State.ringOn (s : State) (r : Nat) : Bool :=
  decide (r < 64) && s.flag (CMD_RING_CFG r) CMD_RING_CFG_enable && 4 ≤ s.ringSize r && s.ringSize r ≤ 12 &&
  s.getF (CMD_RING_CFG r) CMD_RING_CFG_partition < s.partCount

def State.ringPending (s : State) (r : Nat) : Nat :=
  ringUsed (s.reg (CMD_RING_HEAD r)).toNat (s.reg (CMD_RING_TAIL r)).toNat

/-- Commands of a ring accepted and not completed. -/
def State.ringOpen (s : State) (r : Nat) : Nat := (s.cmds.filter (fun c => c.ring == r)).length

/-- Slots of a completion ring already reserved for accepted commands. -/
def State.cplReserved (s : State) (q : Nat) : Nat :=
  (s.cmds.filter (fun c => decide (c.ring < 64) && c.cplRing == q)).length

/-- A completion ring has a free slot beyond those reserved (14 R374, R375). -/
def State.cplFree (s : State) (q : Nat) : Bool :=
  let n := s.getF (CPL_RING_CFG q) CPL_RING_CFG_size_log2
  s.flag (CPL_RING_CFG q) CPL_RING_CFG_enable && 4 ≤ n && n ≤ 12 &&
  ringUsed (s.reg (CPL_RING_HEAD q)).toNat (s.reg (CPL_RING_TAIL q)).toNat + s.cplReserved q < 2 ^ n

/-- The ring can fetch its next pending entry; one that was read with its fence flag set waits for every earlier command of the
ring (14 R377). -/
def State.canFetch (s : State) (r : Nat) : Bool :=
  s.ringOn r && decide (0 < s.ringPending r) && s.cplFree (s.getF (CMD_RING_CFG r) CMD_RING_CFG_cpl_ring) &&
  decide (s.ringOpen r < 64) && decide (s.cmds.length < 1024) &&
  (!s.fences.contains r || s.ringOpen r == 0)

/-- Weight of a ring; 0 reads as 1 (14 R395). -/
def State.ringWeight (s : State) (r : Nat) : Nat := max 1 (s.getF (CMD_RING_CFG r) CMD_RING_CFG_weight)

/-- Weighted round robin (14 R376): the ring served last goes on up to its weight; then the next one that can fetch, in rising
order of number and from 63 to 0 (DEDUCED, log entry 43: the rule names no order). -/
def State.nextRing (s : State) : Option Nat :=
  if s.canFetch s.lastRing && decide (s.lastRun < s.ringWeight s.lastRing) then some s.lastRing
  else ((List.range 64).map (fun i => (s.lastRing + 1 + i) % 64)).find? s.canFetch

/-- The partition a ring acts on. -/
def State.ringPart (s : State) (r : Nat) : Nat := s.getF (CMD_RING_CFG r) CMD_RING_CFG_partition

/-- A command packet from its 64 bytes (14 R377). -/
def packetOf (d : List Byte) : Packet :=
  { opcode := leAt d 0 2, flags := leAt d 2 2, tag := leAt d 4 4, p0 := leAt d 0x08 8, p1 := leAt d 0x10 8, p2 := leAt d 0x18 8,
    p3 := leAt d 0x20 8, p4 := leAt d 0x28 8, p5 := leAt d 0x30 8, p6 := leAt d 0x38 8 }

/-- Read entry i of a command ring in host memory (14 R373). -/
def State.readEntry (s : State) (r i : Nat) : State :=
  let t := s.mxl.nextTag
  ({ s with mxl := { s.mxl with nextTag := (t + 1) % 65536 } }).mxlSend
    (.hostRead false t (s.ringBase (CMD_RING_BASE_LO r) + 64 * (i % 2 ^ s.ringSize r)) 64)

end Sys2Proof.Machine
end

