-- ==== Sys2Proof/Machine/Codes.lean ====
section
/-! DEFINITION. The codes that protect stored bytes and words, and reading and writing each kind of memory with its
codes, poison and tags: tile buffers (07 R204-R214), lockers (08 R241-R247), local memories (06 R175), reduction
buffers; and the accesses the base die serves (08 R253). -/

namespace Sys2Proof.Machine

def bx (v i : Nat) : Bool := bitSet v i

/-- Check code chk[4:0] = p, c8, c4, c2, c1 of a byte (07 R210). -/
def tbCode (b : Byte) : Nat :=
  let d := b.toNat
  let c1 := ((bx d 0).xor (bx d 1)).xor (((bx d 3).xor (bx d 4)).xor (bx d 6))
  let c2 := ((bx d 0).xor (bx d 2)).xor (((bx d 3).xor (bx d 5)).xor (bx d 6))
  let c4 := ((bx d 1).xor (bx d 2)).xor ((bx d 3).xor (bx d 7))
  let c8 := ((bx d 4).xor (bx d 5)).xor ((bx d 6).xor (bx d 7))
  let p := popCount d 8 % 2 == 1
  let p := (p.xor c1).xor ((c2.xor c4).xor c8)
  boolNat c1 + 2 * boolNat c2 + 4 * boolNat c4 + 8 * boolNat c8 + 16 * boolNat p

/-- Data bit at a codeword position (07 R210). -/
def tbDataBit (pos : Nat) : Option Nat :=
  if pos = 3 then some 0 else if pos = 5 then some 1 else if pos = 6 then some 2 else if pos = 7 then some 3
  else if pos = 9 then some 4 else if pos = 10 then some 5 else if pos = 11 then some 6 else if pos = 12 then some 7
  else none

/-- Outcome of a code check. -/
inductive Check where
  | good
  | corrected
  | uncorrectable
  deriving DecidableEq, Repr

/-- Check a stored byte whose code differs from the code of its data by diff: the syndrome is diff[3:0], and the parity
over all 13 bits is wrong when diff has an odd number of ones (07 R210). -/
def tbCheck (b : Byte) (diff : Nat) : Byte × Check :=
  if diff % 32 = 0 then (b, .good)
  else if popCount diff 5 % 2 = 1 then
    match tbDataBit (diff % 16) with
    | some i => (b ^^^ BitVec.ofNat 8 (2 ^ i), .corrected)
    | none => (b, .corrected)
  else (b, .uncorrectable)

/-- 8-bit values of a given weight, ascending. -/
def weightVals (w : Nat) : List Nat := (List.range 256).filter (fun v => popCount v 8 == w)

/-- The columns h_i of the word code (08 R243). -/
def lkCols : List Nat := weightVals 3 ++ (weightVals 5).take 8

/-- Check byte of a 64-bit word (08 R243). -/
def lkCode (w : Nat) : Nat :=
  ((List.range 64).zip lkCols).foldl (fun c p => if bitSet w p.1 then Nat.xor c p.2 else c) 0

/-- Outcome of reading a locker word. -/
inductive WordCheck where
  | good
  | corrected
  | poison
  | uncorrectable
  deriving DecidableEq, Repr

/-- Check a stored word by its syndrome (08 R243). -/
def lkCheck (w syn : Nat) : Nat × WordCheck :=
  if syn = 0 then (w, .good)
  else if syn = 0x7F then (w, .poison)
  else match lkCols.findIdx? (· == syn) with
    | some i => (Nat.xor w (2 ^ i), .corrected)
    | none => if popCount syn 8 = 1 then (w, .corrected) else (w, .uncorrectable)

/-! Addresses (01 R37-R39, 08 R246). -/

def tbBase : Nat := 0x010000000000
def lmBase : Nat := 0x020000000000
def aliasBase : Nat := 0x030000000000
def rbBase : Nat := 0x040000000000
def regBase : Nat := 0xF00000000000

/-- Regions of the stack address map (01 R37). -/
inductive Region where
  | locker
  | tile
  | localMem
  | reduction
  | register
  | none
  deriving DecidableEq, Repr

/-- The native address an address of the host alias window stands for (08 R246); other addresses are themselves. -/
def canonAddr (a : Nat) : Nat :=
  if aliasBase ≤ a && a < aliasBase + 2 ^ 38 then
    let x := a - aliasBase
    bitsAt x 12 14 * 0x1000000 + bitsAt x 26 12 * 0x1000 + x % 4096
  else a

/-- The alias of a native locker address. -/
def aliasOf (a : Nat) : Nat :=
  aliasBase + a % 0x1000000 / 4096 * 2 ^ 26 + a / 0x1000000 * 4096 + a % 4096

/-- Region of a canonical address. -/
def regionOf (a : Nat) : Region :=
  if a < 2 ^ 38 then .locker
  else if tbBase ≤ a && a < tbBase + 2 ^ 30 then .tile
  else if lmBase ≤ a && a < lmBase + 2 ^ 29 then .localMem
  else if rbBase ≤ a && a < rbBase + 6 * 2 ^ 24 then .reduction
  else if regBase ≤ a && a < 2 ^ 48 then .register
  else .none

/-- Logical tile that owns a canonical address. -/
def addrTile (a : Nat) : Nat :=
  match regionOf a with
  | .locker => a / 0x1000000 / 64
  | .tile => (a - tbBase) / 0x400000
  | .localMem => (a - lmBase) / 0x8000 / 64
  | _ => 0

/-- Whether an address is mapped (01 R29, R39): its region exists and its tile is present. Tile buffer and local memory of
an isolated form are lost with its tiles (18 R446). -/
def State.mapped (s : State) (a : Nat) : Bool :=
  let c := canonAddr a
  match regionOf c with
  | .locker => s.present (addrTile c)
  | .tile | .localMem => s.alive (addrTile c)
  | .reduction | .register => true
  | .none => false

/-- Every byte of a range is mapped memory. -/
def State.mappedRange (s : State) (a n : Nat) : Bool :=
  (List.range n).all (fun i => s.mapped (a + i) && regionOf (canonAddr (a + i)) != .register)

/-! Protected ranges (02 R80, 10 R287, 11 R312). -/

/-- A canonical byte lies in the image range of a loaded course. -/
def State.imageByte (s : State) (x : Nat) : Bool :=
  (List.range 4).any (fun p => s.courseLoaded p &&
    (let c := s.crsOf p
     let y := if aliasBase ≤ c.imgAddr && c.imgAddr < aliasBase + 2 ^ 38 && x < 2 ^ 38 then aliasOf x else x
     c.imgAddr ≤ y && y < c.imgAddr + c.image.length))

/-- A tile-buffer offset lies in the page area (10 R286). -/
def State.areaOffset (s : State) (o : Nat) : Bool :=
  let b := s.getF TRN_AREA TRN_AREA_base * 0x1000
  let n := s.getF TRN_AREA TRN_AREA_leaf_blocks + 1
  s.flag TRN_AREA TRN_AREA_enable && b ≤ o && o < b + 0xC000 + 0x4000 * n

/-- A tile-buffer offset lies in the tile shadow (11 R312). -/
def State.shadowOffset (s : State) (o : Nat) : Bool :=
  let b := s.getF UPD_SHADOW UPD_SHADOW_base * 0x1000
  s.flag UPD_SHADOW UPD_SHADOW_enable && b ≤ o && o < b + 0x9000

/-- A canonical byte that host and mover writes may not change. -/
def State.protectedByte (s : State) (x : Nat) : Bool :=
  s.imageByte x ||
  (regionOf x == .tile && (s.areaOffset ((x - tbBase) % 0x400000) || s.shadowOffset ((x - tbBase) % 0x400000)))

def State.protectedRange (s : State) (a n : Nat) : Bool :=
  (List.range n).any (fun i => s.protectedByte (canonAddr (a + i)))

/-! Tile buffers. -/

/-- Majority of three copies. -/
def majority (v : Nat) : Bool := decide (2 ≤ popCount v 3)

def tbAddr (lt off : Nat) : Nat := tbBase + lt * 0x400000 + off

def slotPoisoned (m : MemSt) (slot : Nat) : Bool := majority (tgetD m.slotPoison slot 0)
def slotIsEmpty (m : MemSt) (slot : Nat) : Bool := majority (tgetD m.slotEmpty slot 0)

def setSlotPoison (m : MemSt) (slot : Nat) (b : Bool) : MemSt :=
  { m with slotPoison := tset m.slotPoison slot (if b then 7 else 0) 0 }

def setSlotEmpty (m : MemSt) (slot : Nat) (b : Bool) : MemSt :=
  { m with slotEmpty := tset m.slotEmpty slot (if b then 7 else 0) 0 }

/-- A byte of a tile buffer as delivered, and the outcome of its check. -/
def tbByte (m : MemSt) (a : Nat) : Byte × Check := tbCheck (memGet m a) (tgetD m.tbChk a 0)

/-- Record a tile-buffer fault; the first since valid was cleared stays (07 R234). -/
def State.tbFault (s : State) (lt off kind : Nat) : State :=
  let r := TB_FAULT_LT lt
  if s.flag r TB_FAULT_LT_valid then s
  else ((s.setF r TB_FAULT_LT_offset off).setF r TB_FAULT_LT_kind kind).setB r TB_FAULT_LT_valid true

/-- Count the checks of the bytes read from a tile buffer that holds m (07 R211). -/
def State.tbCount (s : State) (m : MemSt) (lt off n : Nat) : State :=
  forEach (List.range n) s (fun s i =>
    match (tbByte m (tbAddr lt (off + i))).2 with
    | .good => s
    | .corrected => s.incF (TB_ERRORS_LT lt) TB_ERRORS_LT_byte_corrected 1
    | .uncorrectable => (s.incF (TB_ERRORS_LT lt) TB_ERRORS_LT_byte_uncorrected 1).tbFault lt (off + i) 0)

/-- Slots that a range of n bytes at an offset touches, as absolute slot numbers. -/
def slotsOf (lt off n : Nat) : List Nat :=
  if n = 0 then [] else
  let a := tbAddr lt off / 64
  (List.range (tbAddr lt (off + n - 1) / 64 - a + 1)).map (a + ·)

/-- Bytes read from a tile buffer, and for each whether it is delivered poisoned: its slot is poisoned, holds an
uncorrectable byte among those read, or is EMPTY on a timetabled read (07 R211, R214). -/
def tbPeek (m : MemSt) (lt off n : Nat) (timed : Bool) : List Byte × List Bool :=
  let cs := (List.range n).map (fun i => tbByte m (tbAddr lt (off + i)))
  let bad := (slotsOf lt off n).filter (fun k =>
    slotPoisoned m k || (timed && slotIsEmpty m k) ||
    (List.range n).any (fun i => tbAddr lt (off + i) / 64 == k &&
      (tbByte m (tbAddr lt (off + i))).2 == .uncorrectable))
  (cs.map (·.1), (List.range n).map (fun i => bad.contains (tbAddr lt (off + i) / 64)))

/-- A read of a tile buffer that holds m, with its counters. -/
def State.tbRead (s : State) (m : MemSt) (lt off n : Nat) (timed : Bool) : (List Byte × List Bool) × State :=
  let s := s.tbCount m lt off n
  let e := if timed then ((slotsOf lt off n).filter (slotIsEmpty m)).length else 0
  (tbPeek m lt off n timed, s.incF (TB_READS_LT lt) TB_READS_LT_empty_read e)

/-- Store bytes with valid codes, nothing else changed. -/
def tbStoreBytes (m : MemSt) (a : Nat) : List Byte → MemSt
  | [] => m
  | b :: l => tbStoreBytes { memPut m a b with tbChk := tdel m.tbChk a } (a + 1) l

/-- A write to a tile buffer (07 R211-R213): bytes with fresh codes; a slot written whole takes the poison of the data,
a slot written in part keeps its own as well; tag 0 unchanged, 1 FULL, 2 EMPTY. -/
def tbWrite (m : MemSt) (lt off : Nat) (data : List Byte) (poison : List Bool) (tag : Nat) : MemSt :=
  let n := data.length
  let a := tbAddr lt off
  let m1 := tbStoreBytes m a data
  forEach (slotsOf lt off n) m1 (fun m k =>
    let inSlot := (List.range n).filter (fun i => (a + i) / 64 == k)
    let p := inSlot.any (fun i => poison.getD i false)
    let m := setSlotPoison m k (if inSlot.length = 64 then p else p || slotPoisoned m k)
    if tag = 1 then setSlotEmpty m k false else if tag = 2 then setSlotEmpty m k true else m)

/-- Every slot of a tile buffer to zero data, valid codes, FULL, poison clear (07 R209). -/
def tbClear (m : MemSt) (lt : Nat) : MemSt :=
  let a := tbAddr lt 0
  let z := a + 0x400000
  { m with
    bytes := m.bytes.filter (fun c => !(a ≤ c.1 && c.1 < z))
    tbChk := m.tbChk.filter (fun c => !(a ≤ c.1 && c.1 < z))
    slotPoison := m.slotPoison.filter (fun c => !(a / 64 ≤ c.1 && c.1 < z / 64))
    slotEmpty := m.slotEmpty.filter (fun c => !(a / 64 ≤ c.1 && c.1 < z / 64)) }

/-! Slice ports and conflicts (07 R204-R207). -/

/-- Slices that n bytes at an offset touch. -/
def slicesOf (off n : Nat) : List Nat :=
  if n = 0 then [] else ((List.range ((off + n - 1) / 128 - off / 128 + 1)).map (fun i => (off / 128 + i) % 32)).eraseDups

/-- Accesses of other requesters at the slices and cycle of an access. -/
def rivals (t : TileSt) (cycle port prio off n : Nat) : List SliceUse :=
  t.uses.filter (fun u => u.cycle == cycle && u.port == port && u.prio != prio && (slicesOf off n).contains u.slice)

/-- Count conflicts on a tile, record the first and raise TB_CONFLICT once per lesson and tile (07 R206). -/
def State.tbConflict (s : State) (lt off n : Nat) : State :=
  let s := (s.incF (TB_ERRORS_LT lt) TB_ERRORS_LT_conflicts n).tbFault lt off 1
  if (s.tile lt).tbConflictSent then s
  else (s.modTile lt (fun t => { t with tbConflictSent := true })).raise evTbConflict (s.partOfLt lt) 1 lt off 0 0 0

/-- Bytes of an access, by index, that lie in a slice. -/
def inSlice (off i slice : Nat) : Bool := (off + i) / 128 % 32 == slice

/-- The pieces of an access, one in each 128-byte span it touches: first byte by index, bytes. -/
def sliceSpans (off n : Nat) : List (Nat × Nat) :=
  if n = 0 then []
  else (List.range ((off + n - 1) / 128 - off / 128 + 1)).map (fun k =>
    let lo := max off (128 * (off / 128 + k))
    (lo - off, min (off + n) (128 * (off / 128 + k + 1)) - lo))

/-- The slots of a tile buffer that bytes of an access, by index, lie in. -/
def slotsAt (lt off : Nat) (idx : List Nat) : List Nat := (idx.map (fun i => tbAddr lt (off + i) / 64)).eraseDups

/-- What an access enters at its slices; a write, what it replaces there. -/
def useEntries (m : MemSt) (lt cycle port prio off n : Nat) (sink : Option Nat) (lost : List Nat) : List SliceUse :=
  let write := port % 2 == 1 || port == 4
  (slicesOf off n).map (fun k =>
    let idx := if write then (List.range n).filter (fun i => inSlice off i k) else []
    { cycle := cycle, slice := k, port := port, prio := prio, off := off, len := n, lost := lost.contains k, sink := sink
      bytes := idx.map (fun i => (tbAddr lt (off + i), memGet m (tbAddr lt (off + i)), tgetD m.tbChk (tbAddr lt (off + i)) 0))
      slots := (slotsAt lt off idx).map (fun q => (q, tgetD m.slotPoison q 0, tgetD m.slotEmpty q 0)) })

/-- Memory as it was before a write. -/
def tbUndo (m : MemSt) (u : SliceUse) : MemSt :=
  let m := forEach u.bytes m (fun m x => { memPut m x.1 x.2.1 with tbChk := tset m.tbChk x.1 x.2.2 0 })
  forEach u.slots m (fun m x =>
    { m with slotPoison := tset m.slotPoison x.1 x.2.1 0, slotEmpty := tset m.slotEmpty x.1 x.2.2 0 })

/-- Memory as a read in a cycle finds it: before the writes of that cycle to the tile (07 R207). -/
def tbBefore (t : TileSt) (m : MemSt) (cycle : Nat) : MemSt :=
  (t.uses.filter (fun u => decide (cycle ≤ u.cycle) && !u.lost)).reverse.foldl tbUndo m

/-- Poison the slots of a tile buffer, or the word of a local memory, that the byte at an address lies in, the byte itself
open. -/
def spoilByte (m : MemSt) (a free : Nat) : MemSt :=
  let m := memPut m a (Config.freeByte free)
  if regionOf a == .tile then { setSlotPoison m (a / 64) true with tbChk := tdel m.tbChk a }
  else { m with lmPoison := tset m.lmPoison (a / 4) 1 0 }

/-- Bytes of a list by index replaced by free ones. -/
def spoilList (l : List Byte) (free : Nat) (bad : Nat → Bool) : List Byte :=
  (l.zip (List.range l.length)).map (fun x => if bad x.2 then Config.freeByte (free + x.2) else x.1)

/-- Byte i of an access lies in the slice that the access has lost. -/
def useSpoils (u : SliceUse) (i : Nat) : Bool := decide (i < u.len) && inSlice u.off i u.slice

/-- The bytes that a withdrawn read has already put into the stack. -/
def spoilUse (m : MemSt) (u : SliceUse) (free : Nat) : MemSt :=
  match u.sink with
  | some a => forEach ((List.range u.len).filter (useSpoils u)) m (fun m i => spoilByte m (a + i) (free + i))
  | none => m

/-- The beat that a withdrawn read of tile lt has already offered to the mesh. -/
def spoilBeat (lt bell : Nat) (u : SliceUse) (free : Nat) (b : Beat) : Beat :=
  let half := fun (h : Nat) => (List.range 64).any (fun i => useSpoils u (64 * h + i))
  if b.kind = 0 && b.srcLt == lt && b.unit + 6 == u.prio && b.injBell == bell && b.injCycle == u.cycle then
    { b with data := spoilList b.data free (useSpoils u), poison := Nat.lor b.poison (boolNat (half 0) + 2 * boolNat (half 1)) }
  else b

/-- The words that a withdrawn read has already made ready for lockers. -/
def spoilOps (u : SliceUse) (free : Nat) (l : List LkOp) : List LkOp :=
  let word := fun (k : Nat) (o : LkOp) =>
    if (List.range 8).any (fun i => useSpoils u (8 * k + i)) then
      { o with data := leVal (spoilList (leBytes 8 o.data) (free + 8 * k) (fun i => useSpoils u (8 * k + i))), poison := true } else o
  let mine := fun (o : LkOp) => o.write && o.beat == u.cycle
  (l.zip (List.range l.length)).map (fun x => if mine x.1 then word ((l.take x.2).filter mine).length x.1 else x.1)

/-- A mover channel's read has lost a slice after its row: its data of that slice are poisoned and open where they are, in the
stack, in beats of the mesh, in words for lockers (07 R206). -/
def State.withdraw (s : State) (lt : Nat) (u : SliceUse) : State :=
  let free := s.freeCtr
  let s := { s with mem := spoilUse s.mem u free, mesh := { s.mesh with beats := s.mesh.beats.map (spoilBeat lt s.bellCount u free) } }
  (if 7 ≤ u.prio && u.prio < 15 then s.modChan (8 * lt + (u.prio - 7)) (fun c => { c with ops := spoilOps u free c.ops }) else s).drawn u.len

/-- An access that has taken a slice port gives way to one of higher priority: its write is undone there and the slots it
addressed are poisoned, its read is withdrawn (07 R206). -/
def State.giveWay (s : State) (lt : Nat) (u : SliceUse) : State :=
  if u.port % 2 = 1 then
    { s with mem := forEach u.slots (tbUndo s.mem u) (fun m x => setSlotPoison m x.1 true) }
  else s.withdraw lt u

/-- Enter an access at its slice ports. The answer lists the slices this access loses: those where a requester of higher
priority uses the same port in the same cycle; where this access is the higher one, the other gives way. A slice port at which
an access loses counts once in a cycle (07 R205, R206; log entry 14). -/
def State.useSlices (s : State) (lt cycle port prio off n : Nat) (sink : Option Nat) : List Nat × State :=
  let t := s.tile lt
  let rs := rivals t cycle port prio off n
  let lost := ((rs.filter (fun u => u.prio < prio)).map (·.slice)).eraseDups
  let beaten := rs.filter (fun u => decide (prio < u.prio) && !u.lost)
  let fresh := (lost ++ beaten.map (·.slice)).eraseDups.filter (fun k =>
    !t.uses.any (fun u => u.cycle == cycle && u.port == port && u.slice == k && u.lost))
  let s := forEach beaten s (fun s u => s.giveWay lt u)
  let s := s.modTile lt (fun t => { t with
    uses := t.uses.map (fun u => if beaten.contains u then { u with lost := true } else u) ++
      useEntries s.mem lt cycle port prio off n sink lost })
  (lost, if fresh = [] then s else s.tbConflict lt (if lost = [] then (beaten.map (·.off)).headD off else off) fresh.length)

/-- A timetabled read through a slice port: bytes of lost slices are poisoned and their values are free (07 R206). -/
def State.tbPortRead (s : State) (lt cycle port prio off n : Nat) (sink : Option Nat := none) :
    (List Byte × List Bool) × State :=
  let (lost, s) := s.useSlices lt cycle port prio off n sink
  let ((d, p), s) := s.tbRead (tbBefore (s.tile lt) s.mem cycle) lt off n true
  if lost = [] then ((d, p), s)
  else
    let d' := spoilList d s.freeCtr (fun i => lost.any (inSlice off i))
    let p' := (List.range n).map (fun i => lost.any (inSlice off i) || p.getD i false)
    ((d', p'), s.drawn n)

/-- A write that leaves the page area and the tile shadow as they are: only page commands and table copies change those (10 R287,
11 R312). The parts of the write that lie there are dropped (DESIGN CHOICE, log entry 36: R287 says it of no other write than the
four it lists). -/
def State.tbOutside (s : State) (lt off : Nat) (data : List Byte) (poison : List Bool) (tag : Nat) (m : MemSt) : MemSt :=
  if s.areaOffset off || s.shadowOffset off then m else tbWrite m lt off data poison tag

/-- A timetabled write through a slice port: at lost slices nothing is stored and the slots addressed are poisoned. -/
def State.tbPortWrite (s : State) (lt cycle port prio off : Nat) (data : List Byte) (poison : List Bool) (tag : Nat) :
    State :=
  let (lost, s) := s.useSlices lt cycle port prio off data.length none
  { s with mem := forEach (sliceSpans off data.length) s.mem (fun m x =>
      if lost.contains ((off + x.1) / 128 % 32) then
        forEach (slotsAt lt off ((List.range x.2).map (x.1 + ·))) m (fun m q => setSlotPoison m q true)
      else s.tbOutside lt (off + x.1) ((data.drop x.1).take x.2) ((poison.drop x.1).take x.2) tag m) }

/-! Lockers. -/

/-- The 64-bit word stored at an aligned address. -/
def lkWord (m : MemSt) (a : Nat) : Nat := leVal (memRead m a 8)

def lkRead (m : MemSt) (a : Nat) : Nat × WordCheck := lkCheck (lkWord m a) (tgetD m.lkChk (a / 8) 0)

/-- Store a word with a fresh code, or with the poison code (08 R244). -/
def lkStore (m : MemSt) (a w : Nat) (poison : Bool) : MemSt :=
  let m := memWrite m a (leBytes 8 w)
  { m with lkChk := tset m.lkChk (a / 8) (if poison then 0x7F else 0) 0 }

/-- Layer and form of a locker address. -/
def lkLayer (a : Nat) : Nat := bitsAt a 22 2
def lkForm (a : Nat) : Nat := a / 0x1000000 / 64 / 16

/-- Record a memory fault of layer l; the event is raised when valid goes from 0 to 1 (08 R245). -/
def State.memFaultAt (s : State) (l a kind : Nat) : State :=
  if s.flag (MEM_FAULT_HI l) MEM_FAULT_HI_valid then s
  else
    let s := s.setF (MEM_FAULT_LO l) MEM_FAULT_LO_addr_lo a
    let s := s.setF (MEM_FAULT_HI l) MEM_FAULT_HI_addr_hi (a / 2 ^ 32)
    let s := s.setF (MEM_FAULT_HI l) MEM_FAULT_HI_kind kind
    let s := s.setB (MEM_FAULT_HI l) MEM_FAULT_HI_valid true
    s.raise evMemUncorrectable 255 4 l a kind 0 0

def State.memFault (s : State) (a kind : Nat) : State := s.memFaultAt (lkLayer a) a kind

/-- Count the outcome of one word check (08 R244, R245). -/
def State.lkCount (s : State) (a : Nat) (k : WordCheck) : State :=
  let r := MEM_ERRORS_L_F (lkLayer a) (lkForm a)
  match k with
  | .good => s
  | .corrected => s.incF r MEM_ERRORS_L_F_corrected 1
  | .poison => s.incF r MEM_ERRORS_L_F_poison_read 1
  | .uncorrectable => (s.incF r MEM_ERRORS_L_F_uncorrected 1).memFault a 0

/-- A word read from the array with its counters: value and whether it is delivered poisoned. -/
def State.lkLoad (s : State) (a : Nat) : (Nat × Bool) × State :=
  let (w, k) := lkRead s.mem a
  ((w, k == .poison || k == .uncorrectable), s.lkCount a k)

/-! Local memories (06 R175). -/

def lmAddr (core off : Nat) : Nat := lmBase + core * 0x8000 + off

def lmWord (m : MemSt) (a : Nat) : Nat := leVal (memRead m a 4)

def lmPoisoned (m : MemSt) (a : Nat) : Bool := tgetD m.lmPoison (a / 4) 0 == 1

/-- Store a word with a fresh code. -/
def lmStore (m : MemSt) (a w : Nat) (poison : Bool) : MemSt :=
  let m := memWrite m a (leBytes 4 w)
  { m with lmPoison := tset m.lmPoison (a / 4) (boolNat poison) 0, lmErr := tdel m.lmErr (a / 4) }

/-- Store n bytes within one word; the rest of the word is kept (06 R175). A part of a word that has a double-bit error leaves the
word with that error: the spec does not say what its read-modify-write leaves (DESIGN CHOICE, log entry 21). -/
def lmStoreBytes (m : MemSt) (a : Nat) (data : List Byte) (poison : Bool) : MemSt :=
  let base := a / 4 * 4
  let old := memRead m base 4
  let whole := data.length == 4
  let m1 := lmStore m base (leVal (putBytes old (a - base) data)) (if whole then poison else poison || lmPoisoned m base)
  if !whole && tgetD m.lmErr (base / 4) 0 == 2 then { m1 with lmErr := tput m1.lmErr (base / 4) 2 } else m1

/-- Store bytes within one word of a core's local memory; a store of less than a word reads it, with its counters (06 R175). -/
def State.lmStoreAt (s : State) (a : Nat) (data : List Byte) (poison : Bool) : State :=
  let r := GC_ERRORS ((a - lmBase) / 0x8000)
  let e := if data.length = 4 then 0 else tgetD s.mem.lmErr (a / 4) 0
  let s := { s with mem := lmStoreBytes s.mem a data poison }
  if e = 1 then s.incF r GC_ERRORS_lm_corrected 1 else if e = 2 then s.incF r GC_ERRORS_lm_uncorrected 1 else s

/-- A core's local memory set to zero with poison clear. -/
def lmClear (m : MemSt) (core lo hi : Nat) : MemSt :=
  let a := lmAddr core lo
  let z := lmAddr core hi
  { m with
    bytes := m.bytes.filter (fun c => !(a ≤ c.1 && c.1 < z))
    lmPoison := m.lmPoison.filter (fun c => !(a / 4 ≤ c.1 && c.1 < z / 4))
    lmErr := m.lmErr.filter (fun c => !(a / 4 ≤ c.1 && c.1 < z / 4)) }

/-! Accesses from below (08 R253, 13 R365). -/

/-- Bytes from an address to the end of its protected unit: an 8-byte locker word, a 4-byte local-memory word, a 64-byte
slot or span; never more than n. -/
def pieceLen (a n : Nat) : Nat :=
  let c := canonAddr a
  let u := match regionOf c with
    | .locker => 8
    | .localMem => 4
    | _ => 64
  min n (u - c % u)

/-- The pieces of a range, one protected unit each; k bounds their number. -/
def piecesOf : Nat → Nat → Nat → List (Nat × Nat)
  | 0, _, _ => []
  | k + 1, a, n => if n = 0 then [] else (a, pieceLen a n) :: piecesOf k (a + pieceLen a n) (n - pieceLen a n)

/-- Read one piece: none where the word is poisoned or uncorrectable. -/
def State.svcReadPiece (s : State) (a n : Nat) : Option (List Byte) × State :=
  let c := canonAddr a
  match regionOf c with
  | .locker =>
    let ((w, bad), s) := s.lkLoad (c / 8 * 8)
    (if bad then none else some (bytesFrom (leBytes 8 w) (c % 8) n), s)
  | .tile =>
    let ((d, p), s) := s.tbRead s.mem ((c - tbBase) / 0x400000) ((c - tbBase) % 0x400000) n false
    (if p.any id then none else some d, s)
  | .localMem =>
    let core := (c - lmBase) / 0x8000
    match tgetD s.mem.lmErr (c / 4) 0 with
    | 2 => (none, s.incF (GC_ERRORS core) GC_ERRORS_lm_uncorrected 1)
    | 1 => (if lmPoisoned s.mem c then none else some (memRead s.mem c n), s.incF (GC_ERRORS core) GC_ERRORS_lm_corrected 1)
    | _ => (if lmPoisoned s.mem c then none else some (memRead s.mem c n), s)
  | _ => (if tgetD s.mem.rbPoison (c / 64) 0 = 1 then none else some (memRead s.mem c n), s)

/-- Read pieces until one is poisoned or uncorrectable. -/
def svcReadPieces : State → List (Nat × Nat) → List Byte → (List Byte × Bool) × State
  | s, [], d => ((d, true), s)
  | s, (a, n) :: l, d =>
    match s.svcReadPiece a n with
    | (some b, s) => svcReadPieces s l (d ++ b)
    | (none, s) => ((d, false), s)

/-- A service read: the bytes read in ascending order and whether all were good. -/
def State.svcRead (s : State) (a n : Nat) : (List Byte × Bool) × State := svcReadPieces s (piecesOf n a n) []

/-- Write one piece. A locker word written in part is merged with the stored word; where that is poisoned or
uncorrectable, nothing is written and the transfer stops (08 R253). A service write sets FULL (07 R213). -/
def State.svcWritePiece (s : State) (a : Nat) (d : List Byte) : Bool × State :=
  let c := canonAddr a
  match regionOf c with
  | .locker =>
    if d.length = 8 then (true, { s with mem := lkStore s.mem c (leVal d) false })
    else
      let ((w, bad), s) := s.lkLoad (c / 8 * 8)
      if bad then (false, s)
      else (true, { s with mem := lkStore s.mem (c / 8 * 8) (leVal (putBytes (leBytes 8 w) (c % 8) d)) false })
  | .tile => (true, { s with mem := tbWrite s.mem ((c - tbBase) / 0x400000) ((c - tbBase) % 0x400000) d [] 1 })
  | .localMem => (true, s.lmStoreAt c d false)
  | _ => (true, { s with mem := { memWrite s.mem c d with
      rbPoison := if d.length = 64 then tdel s.mem.rbPoison (c / 64) else s.mem.rbPoison } })

def svcWritePieces : State → List (Nat × Nat) → List Byte → Nat → (Nat × Bool) × State
  | s, [], _, k => ((k, true), s)
  | s, (a, n) :: l, d, k =>
    match s.svcWritePiece a (d.take n) with
    | (true, s) => svcWritePieces s l (d.drop n) (k + n)
    | (false, s) => ((k, false), s)

/-- A service write: the bytes written in ascending order and whether all were. -/
def State.svcWrite (s : State) (a : Nat) (d : List Byte) : (Nat × Bool) × State :=
  svcWritePieces s (piecesOf d.length a d.length) d 0

/-- An address whose locker is under evacuation (08 R258). -/
def State.lockerMoving (s : State) (a : Nat) : Bool :=
  let c := canonAddr a
  regionOf c == .locker && s.flag MEM_EVAC MEM_EVAC_active && s.getF MEM_EVAC MEM_EVAC_lt == addrTile c

def State.movingRange (s : State) (a n : Nat) : Bool := (List.range n).any (fun i => s.lockerMoving (a + i))

/-- Why a service access to a range cannot begin. -/
def State.svcRefuse (s : State) (a n : Nat) (write : Bool) : Option Nat :=
  if !s.mappedRange a n then some 0x0100
  else if write && s.protectedRange a n then some 0x0101
  else if s.movingRange a n then some 0x0103
  else none

/-- The object a command names in stack memory, read under R548: its bytes, or the status that fails the command. -/
def State.readObject (s : State) (a n : Nat) : (List Byte × Nat) × State :=
  if !s.mappedRange a n then (([], 0x0100), s)
  else if s.movingRange a n then (([], 0x0103), s)
  else
    let ((d, good), s) := s.svcRead a n
    ((d, if good then 0 else 0x0102), s)

end Sys2Proof.Machine
end

