-- ==== Sys2Proof/Machine/Image.lean ====
section
/-! DEFINITION. Reading a timetable image: its header, lesson table, program directories and programs, and the order in
which the lessons run (02 R76-R78, 06 R185). -/

namespace Sys2Proof.Machine

/-! Header fields (02 R76). -/

def hdCourseId (m : List Byte) : Nat := leAt m 0x08 8
def hdFlags (m : List Byte) : Nat := leAt m 0x06 2
def hdLessonCount (m : List Byte) : Nat := leAt m 0x14 4
def hdLoopFirst (m : List Byte) : Nat := leAt m 0x18 4
def hdLoopLast (m : List Byte) : Nat := leAt m 0x1C 4
def hdLoopCount (m : List Byte) : Nat := leAt m 0x20 4
def hdHorizon (m : List Byte) : Nat := leAt m 0x24 2
def hdTokensMax (m : List Byte) : Nat := leAt m 0x26 2
def hdSeed (m : List Byte) : Nat := leAt m 0x28 8
def hdTable (m : List Byte) : Nat := leAt m 0x30 4
def hdRequired (m : List Byte) : Nat := leAt m 0x40 32
def hdTraining (m : List Byte) : Bool := bitSet (hdFlags m) 1

/-! Lesson entries (02 R77). -/

def lsAt (m : List Byte) (l off n : Nat) : Nat := leAt m (hdTable m + 32 * l + off) n
def lsBells (m : List Byte) (l : Nat) : Nat := lsAt m l 0 2
def lsKind (m : List Byte) (l : Nat) : Nat := lsAt m l 2 1
def lsFlags (m : List Byte) (l : Nat) : Nat := lsAt m l 3 1
def lsForms (m : List Byte) (l : Nat) : Nat := lsAt m l 4 2
def lsLast (m : List Byte) (l : Nat) : Nat := lsAt m l 6 2
def lsAllot (m : List Byte) (l : Nat) : Nat := lsAt m l 8 2
def lsTokens (m : List Byte) (l : Nat) : Nat := lsAt m l 0xA 2
def lsCapacity (m : List Byte) (l : Nat) : Nat := lsAt m l 0xC 2
def lsDirectory (m : List Byte) (l : Nat) : Nat := lsAt m l 0x10 4
def lsRecess (m : List Byte) (l : Nat) : Bool := bitSet (lsFlags m l) 0
def lsRoster (m : List Byte) (l : Nat) : Bool := bitSet (lsFlags m l) 1
def lsCheckpoint (m : List Byte) (l : Nat) : Bool := bitSet (lsFlags m l) 2

/-! Program directories (02 R78). -/

def dirOffset (m : List Byte) (l unit : Nat) : Nat := leAt m (lsDirectory m l + 8 * unit) 4
def dirSize (m : List Byte) (l unit : Nat) : Nat := leAt m (lsDirectory m l + 8 * unit + 4) 4

/-- The program of a unit in a lesson; empty where the unit has no work. -/
def programOf (m : List Byte) (l unit : Nat) : List Byte :=
  if dirSize m l unit = 0 then [] else bytesFrom m (dirOffset m l unit) (dirSize m l unit)

/-- Some unit has work in a lesson. -/
def lessonWorks (m : List Byte) (l : Nat) : Bool := (List.range 266).any (fun u => dirSize m l u != 0)

/-! The order of lessons (02 R76, R83). -/

/-- The lesson and iteration after one; none after the last. -/
def nextPos (c : Course) (lesson iter : Nat) : Option (Nat × Nat) :=
  let m := c.image
  let ended := match c.endIter with
    | some e => decide (e ≤ iter)
    | none => false
  if lesson = hdLoopLast m && !ended && (hdLoopCount m = 0 || iter + 1 < hdLoopCount m) then some (hdLoopFirst m, iter + 1)
  else if lesson + 1 < hdLessonCount m then some (lesson + 1, iter) else none

/-- Lessons that may come directly after a lesson: the table's order, and the first of the loop after its last. -/
def after (m : List Byte) (l : Nat) : List Nat :=
  (if l + 1 < hdLessonCount m then [l + 1] else []) ++ (if l = hdLoopLast m && hdLoopCount m ≠ 1 then [hdLoopFirst m] else [])

/-- A position in the course: lesson, iteration, bell of the lesson. -/
structure Pos where
  lesson : Nat
  iter : Nat
  bell : Nat
  deriving DecidableEq, Repr

/-- The position of the next course bell. -/
def posAfter (c : Course) (x : Pos) : Option Pos :=
  if x.bell + 1 < lsBells c.image x.lesson then some { x with bell := x.bell + 1 }
  else (nextPos c x.lesson x.iter).map (fun y => { lesson := y.1, iter := y.2, bell := 0 })

def coursePos (c : Course) : Pos := { lesson := c.lesson, iter := c.iter, bell := c.lessonBell }

/-- Course bells of lessons a to b of the lesson table, a included and b excluded. -/
def bellsBetween (m : List Byte) (a b : Nat) : Nat :=
  (List.range (b - a)).foldl (fun n i => n + lsBells m (a + i)) 0

/-- Passes of the loop range that the course makes: none where it repeats until COURSE_END. -/
def loopPasses (c : Course) : Option Nat :=
  let n := hdLoopCount c.image
  match c.endIter with
  | some e => some (if n = 0 then e + 1 else min n (e + 1))
  | none => if n = 0 then none else some n

/-- First course bell of a lesson in a given iteration (02 R76): lessons before the loop in iteration 0, lessons after it
in the last. -/
def firstBell (c : Course) (lesson iter : Nat) : Nat :=
  let m := c.image
  let body := bellsBetween m (hdLoopFirst m) (hdLoopLast m + 1)
  if lesson < hdLoopFirst m then bellsBetween m 0 lesson
  else if lesson ≤ hdLoopLast m then bellsBetween m 0 lesson + iter * body
  else bellsBetween m 0 lesson + ((loopPasses c).getD (iter + 1) - 1) * body

/-- The lesson and iteration whose first course bell is n and whose roster flag is set, every pass of the loop counted
(02 R74). -/
def rosterLesson (c : Course) (n : Nat) : Option (Nat × Nat) :=
  let m := c.image
  let body := max 1 (bellsBetween m (hdLoopFirst m) (hdLoopLast m + 1))
  (List.range (hdLessonCount m)).findSome? (fun l =>
    if !lsRoster m l then none
    else if l < hdLoopFirst m then (if n = bellsBetween m 0 l then some (l, 0) else none)
    else if l ≤ hdLoopLast m then
      let b := bellsBetween m 0 l
      if b ≤ n && (n - b) % body = 0 && (match loopPasses c with
        | some k => decide ((n - b) / body < k)
        | none => true) then some (l, (n - b) / body) else none
    else match loopPasses c with
      | some k => if n = bellsBetween m 0 l + (k - 1) * body then some (l, k - 1) else none
      | none => none)

/-! Fetching a command (14 R373-R377, R380, R381, R548). -/

/-- The object that a command has read at its acceptance, in its working values: the status of the read, then the bytes. -/
def Cmd.object (c : Cmd) : List Byte × Nat := (c.data.tail.map (fun v => BitVec.ofNat 8 v), c.data.headD 0)

/-- ROSTER_COMMIT reads its roster once, at acceptance: the header, and the entries that it counts, at most 4,096. -/
def State.readRoster (s : State) (c : Cmd) : State :=
  let ((h, st), s) := s.readObject c.pkt.p0 32
  let ((e, st'), s) := if st = 0 then s.readObject (c.pkt.p0 + 32) (16 * min 4096 (leAt h 0x10 4)) else (([], st), s)
  s.putCmd c { c with data := st' :: (h ++ e).map (·.toNat) }

/-- A command enters the accepted commands; a roster is read with it. -/
def State.acceptRing (s : State) (c : Cmd) (device : Bool) : State :=
  let s := s.accept c device
  if c.pkt.opcode = opROSTER_COMMIT && s.cmds.contains c then s.readRoster c else s

/-- The device fetches the entry at the head of ring r, whose turn it is; host memory holds the 64 bytes d there (R374, R380,
R381). One with its fence flag set stays pending while an earlier command of the ring is open. An entry that an ABORT has
fetched out of turn is passed over (R383). -/
def State.fetch (s : State) (r : Nat) (d : List Byte) : State :=
  let head := (s.reg (CMD_RING_HEAD r)).toNat
  let k := packetOf d
  if s.ringOn r && s.skips.contains (r, head) then
    { s.setReg (CMD_RING_HEAD r) (BitVec.ofNat 32 (head + 1)) with skips := s.skips.erase (r, head) }
  else if s.nextRing = some r then
    let rest := s.fences.filter (fun q => q != r)
    let s := s.readEntry r head
    if k.flags % 2 = 1 && s.ringOpen r ≠ 0 then { s with fences := rest ++ [r] }
    else
      let run := if s.lastRing = r then s.lastRun + 1 else 1
      let s := { s.setReg (CMD_RING_HEAD r) (BitVec.ofNat 32 (head + 1)) with lastRing := r, lastRun := run, fences := rest }
      let c : Cmd := { ring := r, cplRing := s.getF (CMD_RING_CFG r) CMD_RING_CFG_cpl_ring, part := s.ringPart r, pkt := k,
                       phase := .accepted, bell := s.bellCount, data := [] }
      s.acceptRing c (s.flag (CMD_RING_CFG r) CMD_RING_CFG_device)
  else s

def execCommandFetch (r : Nat) (d : List Byte) (s : State) : Host.Outcome State Fault Refusal := live s (s.fetch r d)

/-! Tile programs (06 R185). -/

def tpMxeOffset (t : List Byte) : Nat := leAt t 0x08 4
def tpMxeCount (t : List Byte) : Nat := leAt t 0x0C 2
def tpVeCount (t : List Byte) : Nat := leAt t 0x0E 2
def tpVeOffset (t : List Byte) : Nat := leAt t 0x10 4
def tpMovOffset (t : List Byte) : Nat := leAt t 0x14 4
def tpMovCount (t : List Byte) : Nat := leAt t 0x18 2
def tpTaskCount (t : List Byte) : Nat := leAt t 0x1A 2
def tpTaskOffset (t : List Byte) : Nat := leAt t 0x1C 4
def tpImageOffset (t : List Byte) : Nat := leAt t 0x20 4
def tpImageSize (t : List Byte) : Nat := leAt t 0x24 4
def tpHasImage (t : List Byte) : Bool := bitSet (leAt t 0x06 2) 0
def tpRosterAddr (t : List Byte) : Nat := leAt t 0x28 4 % 2 ^ 22
def tpRosterValid (t : List Byte) : Bool := bitSet (leAt t 0x28 4) 31
def tpRosterCycle (t : List Byte) : Nat := leAt t 0x2C 2

/-- A descriptor of 32 bytes as a 256-bit value: word w bit b is bit 64 w + b. -/
def descAt (t : List Byte) (off i : Nat) : Nat := leAt t (off + 32 * i) 32

/-- Bits [lo + len - 1 : lo] of word w of a descriptor. -/
def dBits (d w lo len : Nat) : Nat := bitsAt d (64 * w + lo) len

/-- The tile program in force: the armed bank (06 R186). -/
def armedProgram (t : TileSt) : List Byte := if t.armed then (if t.armedBank = 0 then t.bank0 else t.bank1) else []

/-- Start of a descriptor, task or entry (04 R126): bell of the lesson and cycle, word 0 bits [31:4]. -/
def dStartCycle (d : Nat) : Nat := dBits d 0 4 12
def dStartBell (d : Nat) : Nat := dBits d 0 16 16

/-- Partition p carries timetabled work in the present bell. -/
def State.working (s : State) (p : Nat) : Bool := s.courseRunning p && (s.crsOf p).ran

/-- The bells of partition p are open (02 R51). -/
def State.openBell (s : State) (p : Nat) : Bool := s.flag (BELL_CRS_STATE p) BELL_CRS_STATE_open

/-- The present cycle is one that the bell delivers: the guard and the service slot lose their last cycles to stretch, and an
overrun of the bell before takes the first ones of the lesson window (02 R54, R55). -/
def State.delivered (s : State) : Bool :=
  decide (s.bell.lost ≤ s.cyc) &&
  !(decide (3776 + s.bell.guardCycles ≤ s.cyc) && decide (s.cyc < 3840)) && decide (s.cyc < 3968 + s.bell.slotCycles)

/-- Service traffic of partition p may run now: in the service slot, and in the lesson window and guard of an open bell (02 R45,
R50, R51, R69). -/
def State.serviceOpen (s : State) (p : Nat) : Bool :=
  s.delivered && (decide (3968 ≤ s.cyc) || (s.openBell p && decide (s.cyc < 3840)))

/-- The base die may drive the lockers of partition p now, as the host share: from a1920 of an open bell to its guard, and in
the service slot before its turnaround (08 R238). What comes while the program share runs is served in the host share that follows. -/
def State.belowOpen (s : State) (p : Nat) : Bool :=
  s.delivered && ((decide (3968 ≤ s.cyc) && decide (s.cyc < 4080)) ||
    (s.openBell p && decide (1920 ≤ s.cyc) && decide (s.cyc < 3840)))

/-- Movers may carry timetabled or service beats to the lockers of partition p now (08 R238): the lesson window of a course that
runs, the first part of an open bell. -/
def State.topOpen (s : State) (p : Nat) : Bool :=
  s.delivered && (if s.openBell p then decide (s.cyc < 1920) else decide (s.cyc < 3776))

end Sys2Proof.Machine
end

