-- ==== Sys2Proof/Machine/Flags.lean ====
section
/-! DEFINITION. The three sticky arithmetic flags of tiles and port reduction engines, their summary and the record of
the first setting (03 R112-R115). -/

namespace Sys2Proof.Machine

/-- Flags raised by a step: INX, OVF, SAT. -/
structure Flags where
  inx : Bool
  ovf : Bool
  sat : Bool
  deriving DecidableEq, Repr

def noFlags : Flags := { inx := false, ovf := false, sat := false }

def flagsOr (a b : Flags) : Flags := { inx := a.inx || b.inx, ovf := a.ovf || b.ovf, sat := a.sat || b.sat }

def flagsNat (f : Flags) : Nat := boolNat f.inx + 2 * boolNat f.ovf + 4 * boolNat f.sat

/-- Form f is excluded (01 R29). -/
def State.excluded (s : State) (f : Nat) : Bool := s.flag (STK_FORM_STATUS f) STK_FORM_STATUS_excluded

/-- Flag bits [2:0] held anywhere: the OR of every tile and port. The flags of an excluded form's tiles read 0. -/
def State.ariAny (s : State) : Nat :=
  let t := ((List.range 256).filter (fun n => !s.excluded (ltForm n))).foldl
    (fun v n => Nat.lor v ((s.reg (ARI_FLAGS_LT n)).toNat % 8)) 0
  (List.range 6).foldl (fun v p => Nat.lor v ((s.reg (ARI_FLAGS_PORT p)).toNat % 8)) t

/-- ARI_SUMMARY follows the flags after a clear. -/
def State.ariResum (s : State) : State :=
  s.setReg ARI_SUMMARY (BitVec.ofNat 32 s.ariAny)

/-- Lowest flag code set: 0 INX, 1 OVF, 2 SAT (R115). -/
def lowestFlag (f : Flags) : Nat := if f.inx then 0 else if f.ovf then 1 else 2

/-- Rank of a setting among those of one cycle (R115): tiles before ports, then the lowest unit, then the lowest flag. -/
def ariRank (port : Bool) (unit flag : Nat) : Nat := 1024 * boolNat port + 4 * unit + flag

/-- Rank of the setting that ARI_FIRST records. -/
def State.firstRank (s : State) : Nat :=
  ariRank (s.flag ARI_FIRST ARI_FIRST_port) (s.getF ARI_FIRST ARI_FIRST_unit) (s.getF ARI_FIRST ARI_FIRST_flag)

/-- A setting at the present cycle comes before the one that ARI_FIRST records: in an earlier cycle, or in the same with a lower rank. -/
def State.ariBefore (s : State) (rank : Nat) : Bool :=
  decide (s.bellCount < s.ariAt.1) || (s.bellCount == s.ariAt.1 &&
    (decide (s.cyc < s.ariAt.2) || (s.cyc == s.ariAt.2 && decide (rank < s.firstRank))))

/-- Record the first setting (R115). -/
def State.ariFirst (s : State) (f : Flags) (unit part : Nat) (port : Bool) : State :=
  if f = noFlags || (s.flag ARI_FIRST ARI_FIRST_valid && !s.ariBefore (ariRank port unit (lowestFlag f))) then s
  else
    let s := { s with ariAt := (s.bellCount, s.cyc) }
    let lesson := s.getF (BELL_CRS_LESSON part) BELL_CRS_LESSON_lesson
    s.setReg ARI_FIRST (BitVec.ofNat 32 (lesson % 2 ^ 17 + 2 ^ 17 * (unit % 256) + 2 ^ 25 * (part % 4) +
      2 ^ 27 * boolNat port + 2 ^ 28 * lowestFlag f + 2 ^ 31))

/-- Raise one ARITH_FLAG for each summary flag that goes from 0 to 1 (R114). -/
def State.ariSummary (s : State) (f : Flags) (unit part kind : Nat) : State :=
  forEach [(0, f.inx), (1, f.ovf), (2, f.sat)] s (fun s x =>
    let fl : Fld := ⟨x.1, 1⟩
    if x.2 && !s.flag ARI_SUMMARY fl then
      (s.setB ARI_SUMMARY fl true).raise evArithFlag part kind unit x.1 0 0 0
    else s)

/-- Set flags of a tile; INX also in the field of the unit that set it: 8 MXE, 9 VE, 10 NBU (R115). -/
def State.tileFlags (s : State) (lt : Nat) (f : Flags) (src : Nat) : State :=
  if f = noFlags then s
  else
    let w := (s.reg (ARI_FLAGS_LT lt)).toNat
    let w := Nat.lor w (Nat.lor (flagsNat f) (if f.inx then 2 ^ src else 0))
    let p := s.partOfLt lt
    ((s.setReg (ARI_FLAGS_LT lt) (BitVec.ofNat 32 w)).ariFirst f lt p false).ariSummary f lt p 1

/-- Set flags of a port's reduction engine. -/
def State.portFlags (s : State) (port : Nat) (f : Flags) : State :=
  if f = noFlags then s
  else
    let w := Nat.lor (s.reg (ARI_FLAGS_PORT port)).toNat (flagsNat f)
    let p := s.partOfPort port
    ((s.setReg (ARI_FLAGS_PORT port) (BitVec.ofNat 32 w)).ariFirst f port p true).ariSummary f port p 3

/-- The clears of COURSE_START in partition p (R113, R115). -/
def State.ariStart (s : State) (p : Nat) : State :=
  let s := forEach ((List.range 256).filter (fun n => s.partOfLt n == p)) s (fun s n => s.setReg (ARI_FLAGS_LT n) 0)
  let s := if s.partCount = 1 then forEach (List.range 6) s (fun s q => s.setReg (ARI_FLAGS_PORT q) 0) else s
  let s := if s.partCount = 1 || s.getF ARI_FIRST ARI_FIRST_partition = p then s.setReg ARI_FIRST 0 else s
  s.ariResum

end Sys2Proof.Machine
end

