-- ==== Sys2Proof/Machine/Operands.lean ====
section
/-! DEFINITION. Scaled block integers: formats, packing, products and block sums, alignment of terms, sums that wrap,
requantisation and rounding draws (03 R86-R107). -/

namespace Sys2Proof.Machine

/-! Formats (R89-R92). -/

def fSBI2 : Nat := 0
def fSBI4 : Nat := 1
def fSBI8 : Nat := 2
def fSBI16 : Nat := 3
def fINT32 : Nat := 4

/-- Bits of an element. -/
def fmtBits (f : Nat) : Nat := 2 ^ (f + 1)

/-- Largest magnitude requantisation produces, M. -/
def fmtM (f : Nat) : Int := if f = 4 then 2 ^ 31 - 1 else 2 ^ (fmtBits f - 1) - 1

/-- Bytes of n elements. -/
def fmtBytes (f n : Nat) : Nat := n * fmtBits f / 8

/-- Element i of packed data (R90). -/
def elemAt (f : Nat) (d : List Byte) (i : Nat) : Int :=
  let b := fmtBits f
  if b < 8 then signedOf ((d.getD (i * b / 8) 0).toNat / 2 ^ (i * b % 8) % 2 ^ b) b
  else signedOf (leAt d (i * b / 8) (b / 8)) b

def elemsOf (f : Nat) (d : List Byte) (n : Nat) : List Int := (List.range n).map (elemAt f d)

/-- Pack elements of fewer than 8 bits, k to a byte, lowest first. -/
def packSmall (b : Nat) : Nat → List Int → List Byte
  | 0, _ => []
  | n + 1, l =>
    let k := 8 / b
    let v := ((l.take k).zip (List.range k)).foldl (fun v x => v + codeOf x.1 b * 2 ^ (b * x.2)) 0
    BitVec.ofNat 8 v :: packSmall b n (l.drop k)

/-- Pack elements (R90). -/
def packElems (f : Nat) (l : List Int) : List Byte :=
  let b := fmtBits f
  if b < 8 then packSmall b (fmtBytes f l.length) l else l.flatMap (fun x => leBytes (b / 8) (codeOf x b))

/-- A scale byte, or any signed byte. -/
def byteInt (b : Byte) : Int := signedOf b.toNat 8

/-- A number in two's complement at a width. -/
def wrapInt (v : Int) (len : Nat) : Int := signedOf (codeOf v len) len

/-! Terms (R93-R97). -/

/-- The exact sum of products of two blocks (R93). -/
def blockSum (a b : List Int) : Int := (a.zip b).foldl (fun s x => s + x.1 * x.2) 0

/-- Quotient by 2^n truncated toward zero. -/
def shrTrunc (v : Int) (n : Nat) : Int := if v < 0 then -((v.natAbs / 2 ^ n : Nat) : Int) else ((v.natAbs / 2 ^ n : Nat) : Int)

def loseBits (v : Int) (n : Nat) : Bool := v.natAbs % 2 ^ n != 0

/-- v times 2^d: exact to the left, truncated toward zero to the right with INX for a lost bit (R95). -/
def alignShift (v : Int) (d : Int) : Int × Bool :=
  if 0 ≤ d then (v * 2 ^ d.toNat, false) else (shrTrunc v (-d).toNat, loseBits v (-d).toNat)

/-- Whether a value lies in the signed range of a width. -/
def fits (v : Int) (len : Nat) : Bool := decide (-(2 ^ (len - 1)) ≤ v ∧ v < 2 ^ (len - 1))

/-- The term of a sum S at shift d, for an adder of a width, with its flags (R95, R96). -/
def termOf (v : Int) (d : Int) (len : Nat) : Int × Flags :=
  let (t, inx) := alignShift v d
  (t, { inx := inx, ovf := !fits t len, sat := false })

/-- Addition modulo the width of the sum register (R97). -/
def addWrap (a b : Int) (len : Nat) : Int := wrapInt (a + b) len

/-! Rounding (R104, R106, R107). -/

def mask64 : Nat := 2 ^ 64

/-- One round of the draw's mixing function (R106). -/
def drawRound (z : Nat) : Nat :=
  let z := (z + 0x9E3779B97F4A7C15) % mask64
  let z := Nat.xor z (z / 2 ^ 30) * 0xBF58476D1CE4E5B9 % mask64
  let z := Nat.xor z (z / 2 ^ 27) * 0x94D049BB133111EB % mask64
  Nat.xor z (z / 2 ^ 31)

/-- The 24-bit draw of a seed and a key. -/
def drawOf (seed key : Nat) : Nat := drawRound (drawRound (Nat.xor seed key)) / 2 ^ 40

/-- Key of element i of block b (R107). -/
def drawKey (keyHi keyBase b i : Nat) : Nat := 2 ^ 32 * (keyHi % 2 ^ 32) + (keyBase + 32 * b + i) % 2 ^ 32

/-- x / 2^r to the nearest integer, halves to even. -/
def roundRne (x : Int) (r : Nat) : Int :=
  let q := x / 2 ^ r
  let m := x % 2 ^ r
  if 2 * m < 2 ^ r then q else if 2 * m = 2 ^ r then (if q % 2 = 0 then q else q + 1) else q + 1

/-- Stochastic rounding by a draw. -/
def roundSr (x : Int) (r draw : Nat) : Int :=
  let u := if r ≤ 24 then draw / 2 ^ (24 - r) else draw * 2 ^ (r - 24)
  (x + (u : Int)) / 2 ^ r

/-- Division by 2^r: exact for r up to 0; else rounded, with INX where a low bit is lost. -/
def divRound (x : Int) (r : Int) (draw : Option Nat) : Int × Bool :=
  if r ≤ 0 then (x * 2 ^ (-r).toNat, false)
  else
    let n := r.toNat
    (match draw with
      | none => roundRne x n
      | some d => roundSr x n d, x % 2 ^ n != 0)

def clampM (v m : Int) : Int := max (-m) (min m v)

/-! Requantisation of one block (R101-R103). -/

/-- Smallest r with m ≤ M 2^r, for m at least 1. -/
def fitExp (m limit : Nat) : Int :=
  if limit < m then ((List.range 64).find? (fun r => m ≤ limit * 2 ^ r)).getD 64
  else -(((List.range 64).reverse.find? (fun k => m * 2 ^ k ≤ limit)).getD 0 : Nat)

/-- A requantised block: elements, exponent, flags. -/
structure Requant where
  elems : List Int
  exp : Int
  flags : Flags
  deriving DecidableEq, Repr

/-- Round each element at r with its draw, then clamp to the format. -/
def requantAt (xs : List Int) (r limit : Int) (draws : Option (List Nat)) (exp : Int) : Requant :=
  let y := (xs.zip (List.range xs.length)).map (fun x => divRound x.1 r (draws.map (fun l => l.getD x.2 0)))
  let z := y.map (fun v => clampM v.1 limit)
  { elems := z, exp := exp, flags := { inx := y.any (·.2), ovf := false, sat := decide (z ≠ y.map (·.1)) } }

/-- AUTO mode: the smallest exponent that holds the block, with headroom h (R101, R102). -/
def requantAuto (xs : List Int) (ein : Int) (f h : Nat) (draws : Option (List Nat)) : Requant :=
  let m := xs.foldl (fun m x => max m x.natAbs) 0
  if m = 0 then { elems := xs.map (fun _ => 0), exp := -128, flags := noFlags }
  else
    let r := fitExp m (fmtM f).toNat + h
    let e := max (-128) (min 127 (ein + r))
    requantAt xs (e - ein) (fmtM f) draws e

/-- FIXED mode (R103). -/
def requantFixed (xs : List Int) (ein eout : Int) (f : Nat) (draws : Option (List Nat)) : Requant :=
  requantAt xs (eout - ein) (fmtM f) draws eout

end Sys2Proof.Machine
end

