-- ==== Sys2Proof/Machine/Lanes.lean ====
section
/-! DEFINITION. Vectors of the vector engine: lanes, block tags and poison, alignment, and the writing of results
(05 R146-R154, R159, R162, R171). -/

namespace Sys2Proof.Machine

/-! Widths (R146). -/

def laneBits (w : Nat) : Nat := if w = 0 then 32 else if w = 1 then 16 else 8
def laneCount (w : Nat) : Nat := if w = 0 then 128 else if w = 1 then 256 else 512
def laneBlocks (w : Nat) : Nat := laneCount w / 32

/-- Format whose elements have the width of a lane. -/
def laneFmt (w : Nat) : Nat := if w = 0 then fINT32 else if w = 1 then fSBI16 else fSBI8

def VReg.lanes (v : VReg) (w : Nat) : List Int := elemsOf (laneFmt w) v.data (laneCount w)
def VReg.tag (v : VReg) (j : Nat) : Int := v.tags.getD j 0
def VReg.bad (v : VReg) (j : Nat) : Bool := v.poison.getD j true

/-- A lane of a result: value and flags. -/
structure Lane where
  v : Int
  inx : Bool
  sat : Bool
  deriving DecidableEq, Repr

def lane (v : Int) : Lane := { v := v, inx := false, sat := false }

def laneMin (b : Nat) : Int := -(2 ^ (b - 1))
def laneMax (b : Nat) : Int := 2 ^ (b - 1) - 1

/-- Clamp to the lane range, with SAT where it changes the value. -/
def clampLane (x : Lane) (b : Nat) : Lane :=
  let v := max (laneMin b) (min (laneMax b) x.v)
  { x with v := v, sat := x.sat || decide (v ≠ x.v) }

/-- Right shift truncating toward zero, with INX for a lost bit. -/
def truncLane (x : Lane) (n : Nat) : Lane := { x with v := shrTrunc x.v n, inx := x.inx || loseBits x.v n }

/-- Alignment by d = tag - target (R152). -/
def alignLane (x : Lane) (d : Int) (b : Nat) : Lane :=
  if 0 < d then clampLane { x with v := x.v * 2 ^ d.toNat } b
  else if d < 0 then truncLane x (-d).toNat else x

/-- The sat bit: clamp with SAT, or modulo the lane width without a flag (R155). -/
def fitLane (sat : Bool) (x : Lane) (b : Nat) : Lane :=
  if sat then clampLane x b else { x with v := wrapInt x.v b }

/-- A tag beyond its range is held at the end of the range and its elements shifted (R153). -/
def tagLane (x : Lane) (t : Int) (b : Nat) : Lane :=
  if 511 < t then clampLane { x with v := x.v * 2 ^ (t - 511).toNat } b
  else if t < -512 then truncLane x (-512 - t).toNat else x

def clampTag (t : Int) : Int := max (-512) (min 511 t)

/-- Lanes of a vector, each block aligned to a tag. -/
def VReg.aligned (v : VReg) (w : Nat) (target : Nat → Int) : List Lane :=
  ((v.lanes w).zip (List.range (laneCount w))).map (fun x =>
    alignLane (lane x.1) (v.tag (x.2 / 32) - target (x.2 / 32)) (laneBits w))

/-! Registers and lines. -/

def State.ve (s : State) (lt : Nat) : VeSt := (s.tile lt).ve

def State.modVe (s : State) (lt : Nat) (f : VeSt → VeSt) : State := s.modTile lt (fun t => { t with ve := f t.ve })

def VeSt.vr (e : VeSt) (n : Nat) : VReg := tgetD e.v n vreg0
def VeSt.wr (e : VeSt) (n : Nat) : WReg := tgetD e.w n wreg0

def cacheLine0 : CacheLine := { reg := vreg0, errs := [] }

def VeSt.line (e : VeSt) (n : Nat) : CacheLine := tgetD e.cache n cacheLine0

/-- Lay a result over a destination: lanes lo to hi - 1 at the width, with the tags and poison of their blocks; the rest
keeps its values (R147, R157). -/
def overlay (old : VReg) (w lo : Nat) (vals tags : List Int) (poison : List Bool) : VReg :=
  let j := lo / 32
  { data := putBytes old.data (lo * laneBits w / 8) (packElems (laneFmt w) vals)
    tags := old.tags.take j ++ tags ++ old.tags.drop (j + tags.length)
    poison := old.poison.take j ++ poison ++ old.poison.drop (j + poison.length) }

/-! Lane flags (R171). -/

/-- Set lane flags, and the tile flags they give. -/
def State.laneFlags (s : State) (lt lo : Nat) (inx sat : List Bool) : State :=
  let marks := ((inx.zip sat).zip (List.range inx.length)).filter (fun x => x.1.1 || x.1.2)
  if marks = [] then s
  else
    let s := s.modVe lt (fun e => { e with flags := marks.foldl (fun t x =>
      tset t (lo + x.2) (Nat.lor (tgetD t (lo + x.2) 0) (boolNat x.1.1 + 2 * boolNat x.1.2)) 0) e.flags })
    s.tileFlags lt { inx := inx.any id, ovf := false, sat := sat.any id } 9

/-! Writing results (R154, R159, R162). -/

/-- Poison of bytes from the poison of their blocks. -/
def blockBytesPoison (poison : List Bool) (blockBytes : Nat) : List Bool :=
  poison.flatMap (fun p => List.replicate blockBytes p)

/-- Lanes of a result as the OUT format takes them: aligned to exp for INT32, clamped to the accepted range; for SBI formats
the tag clamped too. -/
def outLanes (f : VeFlight) (fmt : Nat) (exp : Int) : List Lane :=
  (f.vals.zip (List.range f.vals.length)).map (fun x =>
    let t := f.tags.getD (x.2 / 32) 0
    let y := if fmt = 4 then alignLane (lane x.1) (t - exp) (laneBits f.width)
      else { lane x.1 with sat := decide (t < -128) || decide (127 < t) }
    clampLane y (fmtBits fmt))

/-- An OUT write reaches the tile buffer through the VE's write port. -/
def State.outWrite (s : State) (lt : Nat) (f : VeFlight) (addr scaleAddr fmt : Nat) (exp : Int) : State :=
  let ls := outLanes f fmt exp
  let quiet := fun (i : Nat) => f.poison.getD (i / 32) true
  let idx := List.range ls.length
  let s := s.laneFlags lt f.lo ((ls.zip idx).map (fun x => x.1.inx && !quiet x.2)) ((ls.zip idx).map (fun x => x.1.sat && !quiet x.2))
  let bb := fmtBytes fmt 32
  let s := s.tbPortWrite lt f.at_ 1 5 (addr + fmtBytes fmt f.lo) (packElems fmt (ls.map (·.v)))
    (blockBytesPoison f.poison bb) 0
  if fmt = 4 then s
  else s.tbPortWrite lt f.at_ 3 5 (scaleAddr + f.lo / 32)
    (f.tags.map (fun t => BitVec.ofNat 8 (codeOf (max (-128) (min 127 t)) 8))) f.poison 0

/-- One result is written. -/
def State.land (s : State) (lt : Nat) (f : VeFlight) : State :=
  let s := if f.clear then s.modVe lt (fun e => { e with flags := [] }) else s
  let s := s.laneFlags lt f.lo f.inx f.sat
  let r := VE_STATUS_LT lt
  let s := if f.rcpBad then s.setB r VE_STATUS_LT_rcp_bad true else s
  let s := if f.tableBad then s.setB r VE_STATUS_LT_table_bad true else s
  let s := if f.parity then s.incF (VE_ERRORS_LT lt) VE_ERRORS_LT_table_parity 1 else s
  match f.dst with
  | .none => s
  | .v n => s.modVe lt (fun e => { e with v := tput e.v n (overlay (e.vr n) f.width f.lo f.vals f.tags f.poison) })
  | .w n => s.modVe lt (fun e => { e with w := tput e.w n f.w })
  | .line n =>
    let keep := fun (x : Nat × Nat) => !(f.lo * laneBits f.width / 8 ≤ 8 * x.1 && 8 * x.1 < f.hi * laneBits f.width / 8)
    let next := fun (c : CacheLine) => CacheLine.mk (overlay c.reg f.width f.lo f.vals f.tags f.poison) (c.errs.filter keep)
    s.modVe lt (fun e => { e with cache := tput e.cache n (next (e.line n)) })
  | .out a sa fmt exp => s.outWrite lt f a sa fmt exp

/-- Insert a result behind every other written in the same cycle or earlier. -/
def insertFlight (f : VeFlight) : List VeFlight → List VeFlight
  | [] => [f]
  | g :: l => if f.at_ < g.at_ then f :: g :: l else g :: insertFlight f l

/-- The first result on its way is written, in its cycle. -/
def State.landStep (s : State) (lt : Nat) : State :=
  match (s.ve lt).flight with
  | f :: l => ({ s with cyc := f.at_ % 4096 }.modVe lt (fun e => { e with flight := l })).land lt f
  | [] => s

end Sys2Proof.Machine
end

