-- ==== Sys2Proof/Machine/Engines.lean ====
section
/-! DEFINITION. The matrix and vector engine of a tile at work: planes, accumulator rows, tables and cache lines, and what
their descriptors under way do cycle by cycle (04 R116-R140, 05 R149, R159, R160, R167). -/

namespace Sys2Proof.Machine

/-! Descriptors (R126-R129). -/

def moLOAD : Nat := 1
def moPASS : Nat := 2
def moSEND : Nat := 3
def moMERGE : Nat := 4

def mdOp (d : Nat) : Nat := dBits d 0 0 4
def ldFmt (d : Nat) : Nat := dBits d 0 32 3
def ldFold (d : Nat) : Nat := dBits d 0 35 2
def ldAddr (d : Nat) : Nat := dBits d 1 0 22
def ldScaleAddr (d : Nat) : Nat := dBits d 1 22 22
def ldStride (d : Nat) : Nat := dBits d 2 0 16
def ldScaleStride (d : Nat) : Nat := dBits d 2 16 16
def psFmt (d : Nat) : Nat := dBits d 0 32 3
def psAxis (d : Nat) : Nat := dBits d 0 35 1
def psAcc (d : Nat) : Nat := dBits d 0 36 1
def psSwap (d : Nat) : Nat := dBits d 0 37 1
def psEacc (d : Nat) : Int := signedOf (dBits d 0 38 10) 10
def psAddr (d : Nat) : Nat := dBits d 1 0 22
def psScaleAddr (d : Nat) : Nat := dBits d 1 22 22
def psRows (d : Nat) : Nat := dBits d 1 44 11 + 1
def psStride (d : Nat) : Nat := dBits d 2 0 16
def psScaleStride (d : Nat) : Nat := dBits d 2 16 16
def psRow0 (d : Nat) : Nat := dBits d 2 32 11
def sdDest (d : Nat) : Nat := dBits d 0 32 8
def sdClear (d : Nat) : Nat := dBits d 0 40 1
def sdRow0 (d : Nat) : Nat := dBits d 1 0 11
def sdRows (d : Nat) : Nat := dBits d 1 11 11 + 1

/-- Chunks a fold code gives: 1, 2 or 4. -/
def foldOf (f : Nat) : Nat := if f = 1 then 2 else if f = 2 then 4 else 1

/-- Contraction per row of a weight format and fold (R118, R133). -/
def kRow (wfmt fold : Nat) : Nat :=
  if foldOf fold ≠ 1 then 128 * foldOf fold else [512, 256, 128, 128].getD wfmt 128

/-- ARITH cycles per row of a pair of formats (R118). -/
def passP (wfmt afmt : Nat) : Nat := (if wfmt = 3 then 2 else 1) * (if afmt = 3 then 2 else 1)

/-- LOAD cycles of a weight format. -/
def loadCycles (wfmt : Nat) : Nat := if wfmt = 3 then 64 else 32

/-- Pipeline depth D (R131). -/
def passDepth (p : Nat) : Nat := if p = 4 then 28 else if p = 2 then 26 else 24

def State.modMxe (s : State) (lt : Nat) (f : MxeSt → MxeSt) : State := s.modTile lt (fun t => { t with mxe := f t.mxe })

/-! Columns of a LOAD (04 R119-R121, R127, R140). -/

/-- A column as read: elements, poison of each block, scale bytes, poison of each. -/
structure ColumnIn where
  data : List Byte
  poison : List Bool
  scale : List Byte
  scalePoison : List Bool
  deriving DecidableEq, Repr

/-- Poison of each of nb blocks of elements, blockBytes each. -/
def blockPoison (p : List Bool) (blockBytes nb : Nat) : List Bool :=
  (List.range nb).map (fun b => ((p.drop (b * blockBytes)).take blockBytes).any id)

/-- Read column j through the weight port at its cycle. -/
def State.loadColumn (s : State) (lt d j : Nat) : ColumnIn × State :=
  let k := kRow (ldFmt d) (ldFold d)
  let n := fmtBytes (ldFmt d) k
  let x := dStartCycle d + j * n / 512
  let ((b, p), s) := s.tbPortRead lt x 0 2 (ldAddr d + j * ldStride d) n
  let ((sc, sp), s) := s.tbPortRead lt x 2 2 (ldScaleAddr d + j * ldScaleStride d) (k / 32)
  ({ data := b, poison := blockPoison p (fmtBytes (ldFmt d) 32) (k / 32), scale := sc, scalePoison := sp }, s)

/-- A list with the elements from place i on replaced; where it is shorter it is filled up first. -/
def overlayAt {α : Type} (l : List α) (i : Nat) (fill : α) (new : List α) : List α :=
  let l := l ++ List.replicate (i - l.length) fill
  l.take i ++ new ++ l.drop (i + new.length)

/-- Bytes of a column, and columns, of a LOAD. -/
def ldBytes (d : Nat) : Nat := fmtBytes (ldFmt d) (kRow (ldFmt d) (ldFold d))
def ldColumns (d : Nat) : Nat := 128 / foldOf (ldFold d)

/-- A column of a LOAD is written over what the plane held there; the plane keeps its format until the LOAD has filled it. -/
def Plane.putColumn (p : Plane) (d j : Nat) (c : ColumnIn) : Plane :=
  let n := ldBytes d
  let k := kRow (ldFmt d) (ldFold d) / 32
  { p with
    data := overlayAt p.data (j * n) 0 c.data
    scale := overlayAt p.scale (j * k) 0 c.scale
    poison := overlayAt p.poison (j * k) true c.poison
    scalePoison := overlayAt p.scalePoison (j * k) true c.scalePoison
    badParity := p.badParity.filter (fun i => !(decide (j * n ≤ i) && decide (i < (j + 1) * n))) }

/-- A plane that a LOAD has filled records its format and fold (R121). -/
def Plane.filledBy (p : Plane) (d : Nat) : Plane :=
  let n := ldColumns d * ldBytes d
  let k := ldColumns d * (kRow (ldFmt d) (ldFold d) / 32)
  { filled := true, wfmt := ldFmt d, fold := ldFold d, data := p.data.take n, scale := p.scale.take k,
    poison := p.poison.take k, scalePoison := p.scalePoison.take k, badParity := p.badParity.filter (· < n) }

/-- The next column of the LOAD under way. -/
def State.loadStep (s : State) (lt : Nat) : State :=
  match (s.tile lt).mxe.load with
  | some k =>
    let (c, s) := s.loadColumn lt k.desc k.next
    s.modMxe lt (fun m =>
      let p := m.shadow.putColumn k.desc k.next c
      if k.next + 1 < ldColumns k.desc then { m with shadow := p, load := some { k with next := k.next + 1 } }
      else { m with shadow := p.filledBy k.desc, load := none })
  | none => s

/-! Planes (R120, R136). -/

def Plane.blocks (p : Plane) : Nat := kRow p.wfmt p.fold / 32

/-- The 32 weights of block b of column j. -/
def Plane.block (p : Plane) (j b : Nat) : List Int :=
  let n := fmtBytes p.wfmt 32
  elemsOf p.wfmt (bytesFrom p.data ((j * p.blocks + b) * n) n) 32

def Plane.blockExp (p : Plane) (j b : Nat) : Int := byteInt (p.scale.getD (j * p.blocks + b) 0)

/-- Bytes of block b of column j with a parity error. -/
def Plane.parityIn (p : Plane) (j b : Nat) : Nat :=
  let n := fmtBytes p.wfmt 32
  (p.badParity.filter (fun i => i / n == j * p.blocks + b)).length

/-- Poisoned weights in block b of column j. -/
def Plane.blockBad (p : Plane) (j b : Nat) : Bool :=
  !p.filled || p.poison.getD (j * p.blocks + b) true || p.parityIn j b != 0

/-- Weight W[k][n] is poisoned: its block of 32 lies in one slot, so it is poisoned with its block; a parity error poisons
only the weight whose byte it is in. -/
def Plane.weightBad (p : Plane) (k n : Nat) : Bool :=
  let e := fmtBits p.wfmt / 8
  let at0 := (n * p.blocks + k / 32) * fmtBytes p.wfmt 32 + k % 32 * e
  !p.filled || p.poison.getD (n * p.blocks + k / 32) true || p.badParity.any (fun i => at0 ≤ i && i < at0 + e)

def Plane.scaleBad (p : Plane) (j b : Nat) : Bool := !p.filled || p.scalePoison.getD (j * p.blocks + b) true

/-- Weight W[k][n]. -/
def Plane.weight (p : Plane) (k n : Nat) : Int := (p.block n (k / 32)).getD (k % 32) 0

/-- Whether a plane can be read transposed. -/
def Plane.square (p : Plane) : Bool := p.filled && p.fold == 0 && (p.wfmt == 2 || p.wfmt == 3)

/-- The 32 columns of square (b, c) carry equal scale bytes for block b. -/
def Plane.squareEq (p : Plane) (b c : Nat) : Bool :=
  (List.range 32).all (fun i => p.blockExp (32 * c + i) b == p.blockExp (32 * c) b)

def Plane.squareOk (p : Plane) : Nat :=
  if p.square then
    (List.range 16).foldl (fun v i => if p.squareEq (i / 4) (i % 4) then v + 2 ^ i else v) 0
  else 0

/-- MXE_STATUS_LT_n shows the active plane. -/
def State.showPlane (s : State) (lt : Nat) : State :=
  let p := (s.tile lt).mxe.active
  let r := MXE_STATUS_LT lt
  ((s.setF r MXE_STATUS_LT_plane_wfmt (if p.filled then p.wfmt else 7)).setF r MXE_STATUS_LT_plane_fold
    (if p.filled then p.fold else 3)).setF r MXE_STATUS_LT_square_ok p.squareOk

def State.swapPlanes (s : State) (lt : Nat) : State :=
  (s.modMxe lt (fun m => { m with active := m.shadow, shadow := m.active })).showPlane lt

/-! Accumulator rows (R123-R125). -/

/-- A row as read: values and poison of its entries, its tag. -/
structure AccRow where
  entries : List (Int × Bool)
  tag : Int
  deriving DecidableEq, Repr

/-- Read a row with its checks; an uncorrectable tag poisons the whole row. -/
def State.accRead (s : State) (lt row : Nat) : AccRow × State :=
  let m := (s.tile lt).mxe
  let es := (List.range 128).map (fun c => tgetD m.acc (row * 128 + c) accEntry0)
  let te := tgetD m.tagErr row 0
  let fixed := (es.filter (fun e => e.err == 1)).length + boolNat (te == 1)
  let lost := (es.filter (fun e => e.err == 2)).length + boolNat (te == 2)
  let s := s.incF (MXE_ERRORS_LT lt) MXE_ERRORS_LT_acc_corrected fixed
  let s := s.incF (MXE_ERRORS_LT lt) MXE_ERRORS_LT_acc_uncorrected lost
  ({ entries := es.map (fun e => (e.value, e.poison || e.err == 2 || te == 2)), tag := tgetD m.tags row 0 }, s)

/-- A row with sums added to its first entries, modulo 2^48, their poison ORed in (R97, R125, R139). -/
def AccRow.plus (a : AccRow) (l : List (Int × Bool)) : List (Int × Bool) :=
  (l.zip a.entries).map (fun z => (addWrap z.2.1 z.1.1 48, z.2.2 || z.1.2))

/-- Write the first entries of a row with fresh codes. -/
def MxeSt.accWrite (m : MxeSt) (row : Nat) (l : List (Int × Bool)) : MxeSt :=
  { m with acc := (l.zip (List.range l.length)).foldl (fun t x =>
      tput t (row * 128 + x.2) { value := x.1.1, poison := x.1.2, err := 0 }) m.acc }

def MxeSt.setTag (m : MxeSt) (row : Nat) (v : Int) : MxeSt :=
  { m with tags := tput m.tags row v, tagErr := tdel m.tagErr row }

/-! PASS (R117, R125, R128, R133, R135, R136). -/

/-- An input row: blocks of 32 elements, their poison, exponents and their poison. -/
structure InputRow where
  blocks : List (List Int)
  bad : List Bool
  exps : List Int
  expBad : List Bool
  deriving DecidableEq, Repr

/-- Read an input row of k elements through the operand port at a cycle. -/
def State.passInput (s : State) (lt d r x k : Nat) : InputRow × State :=
  let f := psFmt d
  let n := fmtBytes f 32
  let nb := k / 32
  let ((b, p), s) := s.tbPortRead lt x 0 1 (psAddr d + r * psStride d) (fmtBytes f k)
  let ((e, ep), s) := s.tbPortRead lt x 2 1 (psScaleAddr d + r * psScaleStride d) nb
  ({ blocks := (List.range nb).map (fun i => elemsOf f (bytesFrom b (i * n) n) 32), bad := blockPoison p n nb,
     exps := e.map byteInt, expBad := ep }, s)

/-- A sum of terms with its poison and flags. -/
structure TermSum where
  value : Int
  poison : Bool
  flags : Flags
  deriving DecidableEq, Repr

def termSum0 : TermSum := { value := 0, poison := false, flags := noFlags }

/-- Add the term of a block pair at a shift; flags of a poisoned term are not recorded (R111). -/
def TermSum.add (t : TermSum) (v d : Int) (bad : Bool) : TermSum :=
  let (x, f) := termOf v d 48
  { value := addWrap t.value x 48, poison := t.poison || bad, flags := if bad then t.flags else flagsOr t.flags f }

/-- Output n of a forward pass. -/
def forwardOut (p : Plane) (y : InputRow) (eacc : Int) (n : Nat) : TermSum :=
  (List.range p.blocks).foldl (fun t b =>
    t.add (blockSum (p.block n b) (y.blocks.getD b [])) (p.blockExp n b + y.exps.getD b 0 - eacc)
      (p.blockBad n b || p.scaleBad n b || y.bad.getD b true || y.expBad.getD b true)) termSum0

/-- Output k of a transposed pass: the square's exponent is the scale byte of block k / 32 of column 32c. -/
def transposedOut (p : Plane) (y : InputRow) (eacc : Int) (k : Nat) : TermSum :=
  (List.range 4).foldl (fun t c =>
    let w := (List.range 32).map (fun i => p.weight k (32 * c + i))
    let bad := (List.range 32).any (fun i => p.weightBad k (32 * c + i)) || p.scaleBad (32 * c) (k / 32)
    t.add (blockSum w (y.blocks.getD c [])) (y.exps.getD c 0 + p.blockExp (32 * c) (k / 32) - eacc)
      (bad || y.bad.getD c true || y.expBad.getD c true)) termSum0

/-- Outputs of a row: 128, or 128/g of a folded plane. An unfilled plane gives 128 poisoned sums of zero weights. -/
def rowOut (p : Plane) (y : InputRow) (eacc : Int) (axis : Nat) : List TermSum :=
  if !p.filled then List.replicate 128 { termSum0 with poison := true }
  else if axis = 1 then (List.range 128).map (transposedOut p y eacc)
  else (List.range (128 / foldOf p.fold)).map (forwardOut p y eacc)

/-- Elements of an input row. -/
def passK (p : Plane) (axis : Nat) : Nat := if axis = 1 || !p.filled then 128 else kRow p.wfmt p.fold

/-- The tag that a row has once the updates on their way are written. -/
def MxeSt.tagDue (m : MxeSt) (row : Nat) : Int :=
  ((m.updates.filter (fun u => u.row == row)).filterMap (·.tag)).getLastD (tgetD m.tags row 0)

/-- Insert an update behind every other written in the same cycle or earlier. -/
def insertUpdate (u : AccUpdate) : List AccUpdate → List AccUpdate
  | [] => [u]
  | v :: l => if u.at_ < v.at_ then u :: v :: l else v :: insertUpdate u l

/-- The next row of the PASS under way issues: its terms are on their way to its accumulator row, which is written D cycles
later (R128, R131). -/
def State.passStep (s : State) (lt : Nat) : State :=
  match (s.tile lt).mxe.pass with
  | some k =>
    let d := k.desc
    let p := (s.tile lt).mxe.active
    let x := dStartCycle d + k.next * k.p
    let row := psRow0 d + k.next
    let (y, s) := ({ s with cyc := x }).passInput lt d k.next x (passK p (psAxis d))
    let s := s.incF (MXE_ERRORS_LT lt) MXE_ERRORS_LT_plane_parity p.badParity.length
    let s := s.perfAdd (s.partOfLt lt) 1 1
    let tag := if psAcc d = 0 then k.exp else (s.tile lt).mxe.tagDue row
    let out := rowOut p y tag (psAxis d)
    let f := out.foldl (fun f t => flagsOr f t.flags) noFlags
    let u : AccUpdate :=
      { at_ := x + passDepth k.p, row := row, tag := if psAcc d = 0 then some tag else none,
        vals := out.map (fun t => (t.value, t.poison)), inx := f.inx, ovf := f.ovf, done := k.next + 1 }
    s.modMxe lt (fun m => { m with
      updates := insertUpdate u m.updates
      pass := if k.next + 1 < k.rows then some { k with next := k.next + 1 } else none })
  | none => s

/-- An update is written, and its flags are merged in the same cycle (R125, R131). -/
def State.accUpdate (s : State) (lt : Nat) (u : AccUpdate) : State :=
  let s := { s with cyc := u.at_ % 4096 }
  let s := match u.tag with
    | some e => s.modMxe lt (fun m => (m.accWrite u.row u.vals).setTag u.row e)
    | none =>
      let (a, s) := s.accRead lt u.row
      s.modMxe lt (fun m => m.accWrite u.row (a.plus u.vals))
  (s.tileFlags lt { inx := u.inx, ovf := u.ovf, sat := false } 8).setF (MXE_PROGRESS_LT lt) MXE_PROGRESS_LT_rows_done u.done

/-- The first update on its way is written. -/
def State.updateStep (s : State) (lt : Nat) : State :=
  match (s.tile lt).mxe.updates with
  | u :: l => (s.modMxe lt (fun m => { m with updates := l })).accUpdate lt u
  | [] => s

/-! Rows of a SEND (04 R138). -/

/-- Offer a beat for injection, under a fresh identity. -/
def State.offerBeat (s : State) (b : Beat) : State :=
  let b := { b with id := s.mesh.nextId, root := s.mesh.nextId }
  { s with mesh := { s.mesh with beats := s.mesh.beats ++ [b], nextId := s.mesh.nextId + 1 } }

/-- The 768 bytes of a row. -/
def rowBytes (a : AccRow) : List Byte := a.entries.flatMap (fun e => leBytes 6 (codeOf e.1 48))

/-- Poison of the 64-byte spans of a row: an entry that touches a span poisons it. -/
def rowSpans (a : AccRow) : List Bool :=
  (List.range 12).map (fun k => (a.entries.zip (List.range 128)).any (fun e =>
    e.1.2 && decide (6 * e.2 < 64 * k + 64) && decide (64 * k < 6 * e.2 + 6)))

/-- Row r of a SEND: read, cleared where the descriptor says so, and offered as six beats. -/
def State.sendRow (s : State) (lt d r : Nat) : State :=
  let row := sdRow0 d + r
  let (a, s) := s.accRead lt row
  let s := if sdClear d = 1 then s.modMxe lt (fun m => m.accWrite row (List.replicate 128 (0, false))) else s
  let bytes := rowBytes a
  let spans := rowSpans a
  forEach (List.range 6) s (fun s j =>
    s.offerBeat { id := 0, destLt := sdDest d, srcLt := lt, mc := 0, kind := 1, first := j == 0, last := j == 5, dstTag := 0,
                  dstOff := if j = 0 then codeOf a.tag 10 else 0,
                  poison := boolNat (spans.getD (2 * j) false) + 2 * boolNat (spans.getD (2 * j + 1) false),
                  data := bytesFrom bytes (128 * j) 128, injBell := s.bellCount, injCycle := dStartCycle d + 6 * r + j,
                  row := 0, col := 0, side := 4, arrive := 0, unit := 0, injected := false, root := 0, targets := [],
                  path := [] })

/-- The next row of the SEND under way. -/
def State.sendStep (s : State) (lt : Nat) : State :=
  match (s.tile lt).mxe.send with
  | some k =>
    ({ s with cyc := dStartCycle k.desc + 6 * k.next }.sendRow lt k.desc k.next).modMxe lt (fun m => { m with
      send := if k.next + 1 < k.rows then some { k with next := k.next + 1 } else none })
  | none => s

/-! Steps of a TABLE and of a CACHE (05 R149, R160, R167). -/

def voRUN : Nat := 1
def voTABLE : Nat := 2
def voCACHE : Nat := 3

/-- VE_STATUS_LT_n shows the loaded slots. -/
def State.showTables (s : State) (lt : Nat) : State :=
  s.setF (VE_STATUS_LT lt) VE_STATUS_LT_tables_loaded ((s.ve lt).slots.foldl (fun v x => v + 2 ^ x.1) 0)

/-- The table of an image of 1,040 bytes, with the poison of each byte; none where its header is bad. Bits [15:10]
beside the exponents are not looked at. -/
def lookupOf (b : List Byte) (p : List Bool) : Option TableSlot :=
  if (p.take 16).any id || 24 < leAt b 4 1 || leAt b 5 1 ≠ 0 || leAt b 0xA 6 ≠ 0 then none
  else some
    { base := signedOf (leAt b 0 4) 32, shift := leAt b 4 1, ex := signedOf (leAt b 6 2 % 1024) 10,
      et := signedOf (leAt b 8 2 % 1024) 10, entries := elemsOf fINT32 (bytesFrom b 16 1024) 256,
      bad := (List.range 256).filter (fun i => ((p.drop (16 + 4 * i)).take 4).any id) }

/-! The operand cache (R149). -/

/-- Poison that a line's uncorrectable words give the blocks of a width. -/
def CacheLine.lost (c : CacheLine) (w : Nat) : List Bool :=
  (List.range 16).map (fun j => c.errs.any (fun x => x.2 == 2 && 8 * x.1 / (4 * laneBits w) == j))

/-- Read a line at a width with its counters. -/
def State.cacheRead (s : State) (lt n w : Nat) : VReg × State :=
  let c := (s.ve lt).line n
  let r := VE_ERRORS_LT lt
  let s := s.incF r VE_ERRORS_LT_cache_corrected (c.errs.filter (fun x => x.2 == 1)).length
  let s := s.incF r VE_ERRORS_LT_cache_uncorrected (c.errs.filter (fun x => x.2 == 2)).length
  ({ c.reg with poison := (c.reg.poison.zip (c.lost w)).map (fun x => x.1 || x.2) }, s)

/-- One line of a CACHE. A block of a line is 32 bytes here: sixteen tags and poison bits for 512 bytes. -/
def State.cacheLine (s : State) (lt d i : Nat) : State :=
  let x := dStartCycle d + i
  let n := dBits d 0 33 9 + i
  let ea := dBits d 1 0 22 + 512 * i
  let ta := dBits d 1 22 22 + 32 * i
  if dBits d 0 32 1 = 0 then
    let ((b, p), s) := s.tbPortRead lt x 0 3 ea 512
    let ((t, tp), s) := s.tbPortRead lt x 2 3 ta 32
    let tag := fun (j : Nat) => leAt t (2 * j) 2
    let v : VReg :=
      { data := b, tags := (List.range 16).map (fun j => signedOf (tag j % 1024) 10)
        poison := (List.range 16).map (fun j => bitSet (tag j) 15 || ((p.drop (32 * j)).take 32).any id ||
          ((tp.drop (2 * j)).take 2).any id) }
    s.modVe lt (fun e => { e with cache := tput e.cache n { reg := v, errs := [] } })
  else
    let (v, s) := s.cacheRead lt n 2
    let tags := (List.range 16).flatMap (fun j => leBytes 2 (codeOf (v.tag j) 10 + 2 ^ 15 * boolNat (v.bad j)))
    let s := s.tbPortWrite lt x 1 5 ea v.data (blockBytesPoison v.poison 32) 0
    s.tbPortWrite lt x 3 5 ta tags (blockBytesPoison v.poison 2) 0

/-- Bytes that a TABLE reads in its cycle i. -/
def tablePart (i : Nat) : Nat := if i < 2 then 512 else 16

/-- The next cycle of the TABLE or CACHE under way. After its third a TABLE has its image: the slot is loaded, or stays
unloaded with table_bad set. -/
def State.jobStep (s : State) (lt : Nat) : State :=
  match (s.ve lt).job with
  | some k =>
    let d := k.desc
    let x := dStartCycle d + k.next
    let s := { s with cyc := x }
    let last := decide (k.steps ≤ k.next + 1)
    if dBits d 0 0 4 = voCACHE then
      (s.cacheLine lt d k.next).modVe lt (fun e => { e with job := if last then none else some { k with next := k.next + 1 } })
    else
      let ((b, p), s) := s.tbPortRead lt x 0 3 (dBits d 1 0 22 + 512 * k.next) (tablePart k.next)
      let k := { k with next := k.next + 1, data := k.data ++ b, poison := k.poison ++ p }
      if last then
        let s := s.modVe lt (fun e => { e with job := none })
        match lookupOf k.data k.poison with
        | some t => (s.modVe lt (fun e => { e with slots := tput e.slots (dBits d 0 32 3) t })).showTables lt
        | none => (s.setB (VE_STATUS_LT lt) VE_STATUS_LT_table_bad true).showTables lt
      else s.modVe lt (fun e => { e with job := some k })
  | none => s

/-! The engines of a tile in order of cycle. -/

/-- What an engine of a tile has due. -/
inductive TileDue where
  | pass
  | load
  | send
  | job
  | land
  | update
  deriving DecidableEq, Repr

/-- What is due in a tile, each with twice its cycle, and one more for what is written at the end of the cycle: a read in the
cycle of a write gives the value before it (04 R124, 05 R159, 07 R207). -/
def TileSt.dues (t : TileSt) : List (Nat × TileDue) :=
  let m := t.mxe
  (m.pass.toList.map (fun k => (2 * (dStartCycle k.desc + k.next * k.p), .pass))) ++
  (m.load.toList.map (fun k => (2 * (dStartCycle k.desc + k.next * ldBytes k.desc / 512), .load))) ++
  (m.send.toList.map (fun k => (2 * (dStartCycle k.desc + 6 * k.next), .send))) ++
  (t.ve.job.toList.map (fun k => (2 * (dStartCycle k.desc + k.next), .job))) ++
  ((t.ve.flight.take 1).map (fun f => (2 * f.at_ + 1, .land))) ++
  ((m.updates.take 1).map (fun u => (2 * u.at_ + 1, .update)))

/-- The first of what is due. -/
def firstDue : List (Nat × TileDue) → Option (Nat × TileDue)
  | [] => none
  | e :: l => match firstDue l with
    | some f => if f.1 < e.1 then some f else some e
    | none => some e

/-- What is due in a tile, in all. -/
def TileSt.dueCount (t : TileSt) : Nat :=
  let m := t.mxe
  (m.pass.map (fun k => 2 * (k.rows - k.next))).getD 0 + (m.load.map (fun k => ldColumns k.desc - k.next)).getD 0 +
  (m.send.map (fun k => k.rows - k.next)).getD 0 + (t.ve.job.map (fun k => k.steps - k.next)).getD 0 +
  t.ve.flight.length + m.updates.length

def State.engineStep (s : State) (lt : Nat) (e : TileDue) : State :=
  match e with
  | .pass => s.passStep lt
  | .load => s.loadStep lt
  | .send => s.sendStep lt
  | .job => s.jobStep lt
  | .land => s.landStep lt
  | .update => s.updateStep lt

/-- Up to n of what is due in a tile, in order, as far as a key. -/
def engineRun (lt key : Nat) : Nat → State → State
  | 0, s => s
  | n + 1, s =>
    match firstDue (s.tile lt).dues with
    | some (k, e) => if k ≤ key then engineRun lt key n (s.engineStep lt e) else s
    | none => s

/-- MXE_STATUS and MXE_PROGRESS follow the descriptors under way (04 R145). -/
def State.showMxe (s : State) (lt : Nat) : State :=
  let m := (s.tile lt).mxe
  let pass := m.pass.isSome || !m.updates.isEmpty
  let busy := pass || m.load.isSome || m.send.isSome || m.merge.isSome
  let s := (s.setB (MXE_STATUS_LT lt) MXE_STATUS_LT_busy busy).setB (MXE_PROGRESS_LT lt) MXE_PROGRESS_LT_pass_active pass
  if (s.tile lt).halted && !busy then s.setB (MXE_STATUS_LT lt) MXE_STATUS_LT_halted true else s

/-- VE_STATUS and VE_PROGRESS follow the descriptors under way (05 R173). -/
def State.showVe (s : State) (lt : Nat) : State :=
  let e := s.ve lt
  let run := e.run.isSome || !e.flight.isEmpty
  let busy := run || e.job.isSome
  let s := (s.setB (VE_STATUS_LT lt) VE_STATUS_LT_busy busy).setB (VE_PROGRESS_LT lt) VE_PROGRESS_LT_run_active run
  if (s.tile lt).halted && !busy then s.setB (VE_STATUS_LT lt) VE_STATUS_LT_halted true else s

def State.showEngines (s : State) (lt : Nat) : State := (s.showMxe lt).showVe lt

/-- The engines of a tile have done what they read up to a cycle and what they write before it. -/
def State.engines (s : State) (lt x : Nat) : State :=
  if (s.tile lt).dues = [] then s
  else ({ engineRun lt (2 * x) (s.tile lt).dueCount s with cyc := s.cyc } : State).showEngines lt

/-- The engines of every tile have done what the bell holds. -/
def State.enginesAll (s : State) : State := forEach (s.tiles.map (·.1)) s (fun s lt => s.engines lt 4096)

/-- A read through a slice port by another requester of the tile (07 R205-R207). -/
def State.portRead (s : State) (lt cycle port prio off n : Nat) (sink : Option Nat := none) :
    (List Byte × List Bool) × State := (s.engines lt cycle).tbPortRead lt cycle port prio off n sink

/-- A write through a slice port by another requester of the tile. -/
def State.portWrite (s : State) (lt cycle port prio off : Nat) (data : List Byte) (poison : List Bool) (tag : Nat) : State :=
  (s.engines lt cycle).tbPortWrite lt cycle port prio off data poison tag

/-! A halt notice reaches the engines (04 R140, 05 R172). -/

/-- Rows a PASS issues when a halt comes cut issue cycles after its start: to the end of the group of 128 (R140). -/
def passRows (rows p c : Nat) : Nat := min rows (128 * (c / 128 + 1) / p)

/-- A PASS completes its group of 128 issue cycles, a SEND its row; a LOAD stops. -/
def MxeSt.stop (m : MxeSt) (x : Nat) : MxeSt :=
  { m with
    pass := (m.pass.map (fun k => { k with rows := passRows k.rows k.p (x - dStartCycle k.desc) })).filter (fun k => k.next < k.rows)
    load := none
    send := (m.send.map (fun k => { k with rows := min k.rows ((x - dStartCycle k.desc) / 6 + 1) })).filter (fun k => k.next < k.rows) }

/-- A RUN finishes its current iteration; a TABLE or CACHE stops. -/
def VeSt.stop (e : VeSt) : VeSt :=
  { e with
    job := none
    run := e.run.bind (fun r => if r.instr = 0 then none else some { r with iters := r.iter + 1 }) }

/-- The engines of a tile stop taking up work in the present cycle; what has issued completes. -/
def State.stopEngines (s : State) (lt : Nat) : State :=
  ((s.engines lt s.cyc).modTile lt (fun t => { t with halted := true, mxe := t.mxe.stop s.cyc, ve := t.ve.stop })).showEngines lt

end Sys2Proof.Machine
end

