-- ==== Sys2Proof/Machine/Bells.lean ====
section
/-! DEFINITION. The bell: a0 of each bell, stretch and overrun, the system bell and its loss, halts, recess (02 R44-R72,
12 R345-R348, 15 R413-R414, 20 R473). -/

namespace Sys2Proof.Machine

/-! Clock gating of forms (18 R447). -/

/-- Gate or ungate a form: PWR_FORM.gated and the ungating steps of its tiles. -/
def State.setGated (s : State) (f : Nat) (b : Bool) : State :=
  let s := s.setB (PWR_FORM f) PWR_FORM_gated b
  forEach (List.range 16) s (fun s k => s.modTile (16 * f + k) (fun t => { t with ungated := if b then 0 else 8 }))

/-- Forms of a partition. -/
def State.formsOf (s : State) (p : Nat) : List Nat := (List.range 16).filter (fun f => s.partOfForm f == p)

/-- Forms of partition p outside a mask are gated; those inside keep their state. -/
def State.gateOutside (s : State) (p mask : Nat) : State :=
  forEach (s.formsOf p) s (fun s f => if bitSet mask f then s else s.setGated f true)

/-! Sequences held by rosters (10 R291). -/

/-- Sequences a roster names. -/
def rosterSeqs (r : Roster) : List Nat :=
  (List.range (leAt r.data 0x10 4)).map (fun i => leAt r.data (0x20 + 16 * i) 4)

/-- Sequence q of partition p is pinned: a committed roster names it and its lesson has not ended. -/
def State.pinned (s : State) (p q : Nat) : Bool :=
  (s.crsOf p).rosters.any (fun r => r.committed && (rosterSeqs r).contains q)

/-- Rosters leave their slots. R74 discards those that completed OK; how a command whose roster has not committed completes
when COURSE_END, a halt or the end of the course takes its lesson away is open, and the model answers ROSTER_LATE (DESIGN
CHOICE, log entry 38). -/
def State.dropRosters (s : State) (p : Nat) (gone : Roster → Bool) : State :=
  let late := (s.crsOf p).rosters.filter (fun r => gone r && !r.committed)
  let s := s.modCrs p (fun c => { c with rosters := c.rosters.filter (fun r => !gone r) })
  forEach late s (fun s r =>
    let s := s.incF (BELL_CRS_STATE p) BELL_CRS_STATE_roster_late 1
    match s.findCmd r.ring r.tag opROSTER_COMMIT with
    | some c => s.fail c stROSTER_LATE
    | none => s)

/-! One course at a0 (02 R46, R69, R83, 14 R387). -/

/-- The bell that has just ended counts; at the end of its lesson a checkpoint is recorded, pins end, and the next lesson
is found. -/
def State.endBell (s : State) (p : Nat) : State :=
  let c := s.crsOf p
  if !c.ran then s
  else
    let done := s.pair (BELL_CRS_BELLS_LO p) + 1
    let s := s.setPair (BELL_CRS_BELLS_LO p) done
    if c.lessonBell + 1 < lsBells c.image c.lesson then
      s.modCrs p (fun c => { c with lessonBell := c.lessonBell + 1, ran := false })
    else
      let nx := nextPos c c.lesson c.iter
      let s := if lsCheckpoint c.image c.lesson then
          (s.setPair (BELL_CRS_CKPT_LO p) (done - lsBells c.image c.lesson)).modCrs p (fun c => { c with resumeAt := nx })
        else s
      let s := s.dropRosters p (fun r => r.lesson == c.lesson && r.iter == c.iter)
      match nx with
      | some (l, i) => s.modCrs p (fun c => { c with lesson := l, iter := i, lessonBell := 0, ran := false })
      | none => s.modCrs p (fun c => { c with ended := true, ran := false })

/-- Control-complex MARK entries of a lesson (14 R394). -/
def marksOf (m : List Byte) (l : Nat) : List Nat :=
  let g := programOf m l 266
  ((List.range (leAt g 6 2)).filter (fun i => leAt g (16 + 16 * i) 4 == l)).map (fun i => leAt g (16 + 16 * i + 8) 4)

/-- The first bell of a lesson: registers, marks, gating. -/
def State.lessonStart (s : State) (p : Nat) : State :=
  let c := s.crsOf p
  let s := (s.setF (BELL_CRS_LESSON p) BELL_CRS_LESSON_lesson c.lesson).setReg (BELL_CRS_ITER p) (BitVec.ofNat 32 c.iter)
  let s := forEach (s.tilesOf p) s (fun s lt =>
    s.modTile lt (fun t => { t with tbConflictSent := false, trnRefusedSent := false, mxe := { t.mxe with merges := [] } }))
  let s := s.gateOutside p (lsForms c.image c.lesson)
  let s := s.setF (PWR_ALLOT p) PWR_ALLOT_allotment (lsAllot c.image c.lesson)
  forEach (marksOf c.image c.lesson) s (fun s v => s.raise evCourseMark p 0 0 v 0 0 0)

/-- The course ends: COURSE_DONE, bells open (02 R83). -/
def State.courseDone (s : State) (p : Nat) : State :=
  let s := (s.setCourseState p csDone).setB (BELL_CRS_STATE p) BELL_CRS_STATE_open true
  let s := s.dropRosters p (fun _ => true)
  let s := (s.gateOutside p 0).setF (PWR_ALLOT p) PWR_ALLOT_allotment 0
  s.raise evCourseDone p 0 0 (hdCourseId (s.crsOf p).image) 0 0 0

/-- A course is in one of the states in which it may carry work. -/
def State.courseLive (s : State) (p : Nat) : Bool :=
  s.courseState p == csStarting || s.courseState p == csRunning || s.courseState p == csHalting

/-- The partition's part of a0 of bell b, in a recess bell or not; the bell before it has been counted. A course whose halt
came before its lesson 0 runs from its start bell to its halt bell, and its bells are not open. -/
def State.courseBell (s : State) (p b : Nat) (recess : Bool) : State :=
  let st := s.courseState p
  if !s.courseLive p then s
  else
    let c := s.crsOf p
    if b < c.startBell then s
    else
      let s := if st = csStarting then s.setCourseState p csRunning else s
      let s := if b = c.startBell then s.setB (BELL_CRS_STATE p) BELL_CRS_STATE_open false else s
      let halted := match c.haltBell with
        | some h => decide (h ≤ b)
        | none => false
      let stopped := match c.stopFrom with
        | some n => decide (n ≤ b)
        | none => false
      if halted then s
      else if c.ended then (if c.haltBell = none then s.courseDone p else s)
      else if recess then s.gateOutside p 0
      else if stopped then s
      else
        let s := s.modCrs p (fun c => { c with ran := true })
        let s := s.perfAdd p 0 1
        if c.lessonBell = 0 then s.lessonStart p else s.gateOutside p (lsForms c.image c.lesson)

/-! Recess (02 R69-R72, 15 R413, R414). -/

/-- Some partition runs a course whose halt bell lies after b. -/
def State.runsBeyond (s : State) (b : Nat) : Bool :=
  (List.range 4).any (fun p => s.courseRunning p && !(s.crsOf p).ended &&
    (match (s.crsOf p).haltBell with
     | some h => decide (b < h)
     | none => true))

/-- BELL_RECESS_AT and BELL_RECESS_K show the next announced recess point. -/
def State.showRecess (s : State) : State :=
  match s.bell.announced with
  | [] => (s.setPair BELL_RECESS_AT_LO 0).setF BELL_RECESS_K BELL_RECESS_K_k 0
  | r :: _ => (s.setPair BELL_RECESS_AT_LO r.bell).setF BELL_RECESS_K BELL_RECESS_K_k r.k

/-- Enter an announced recess, in order of bell. -/
def insertRecess (r : Recess) : List Recess → List Recess
  | [] => [r]
  | x :: l => if r.bell < x.bell then r :: x :: l else x :: insertRecess r l

/-- Requests that cover a recess point B: begun by B with points left. -/
def covering (l : List RecessReq) (b : Nat) : List RecessReq := l.filter (fun q => q.bell ≤ b && 0 < q.s)

/-- After a point has been met, each request that covered it has one point fewer. -/
def spendPoint (l : List RecessReq) (b : Nat) : List RecessReq :=
  (l.map (fun q => if q.bell ≤ b && 0 < q.s then { q with s := q.s - 1 } else q)).filter (fun q => 0 < q.s)

/-- The request with the largest k, the lowest reason code among equals (15 R414). -/
def bestRequest : List RecessReq → Option RecessReq
  | [] => none
  | q :: l => match bestRequest l with
    | none => some q
    | some r => if r.k < q.k || (r.k = q.k && q.reason ≤ r.reason) then some q else some r

/-- Identity of the device whose BELL is followed. -/
def State.timekeeperId (s : State) : Nat :=
  if s.flag FAB_TREE FAB_TREE_following_backup then s.map.backup else s.map.timekeeper

/-- Begin the recess point announced for bell b (15 R414). -/
def State.beginRecess (s : State) (r : Recess) : State :=
  let now : RecessNow := match bestRequest (covering s.bell.own r.bell) with
    | some q => { start := r.bell, left := r.k, taken := 0, voided := 0, reason := q.reason, requester := s.deviceId,
                  value := q.value }
    | none => { start := r.bell, left := r.k, taken := 0, voided := 0, reason := 6, requester := s.timekeeperId,
                value := r.k }
  { s with bell := { s.bell with recess := some now, own := spendPoint s.bell.own r.bell } }

/-- The 32 bytes of a throttle record as four detail words (15 R413). -/
def throttleWords (r : RecessNow) (n : Nat) : Nat × Nat × Nat × Nat :=
  (r.start,
   r.taken % 65536 + 2 ^ 16 * (r.reason % 256) + 2 ^ 24 * boolNat (decide (0 < r.voided)) + 2 ^ 32 * (r.requester % 65536) +
     2 ^ 48 * (r.value % 65536),
   n % 2 ^ 32, 0)

/-- Append a throttle record to the log and raise THROTTLE (15 R413). -/
def State.throttleRecord (s : State) (r : RecessNow) : State :=
  let n := (s.reg THR_LOG_COUNT).toNat
  let (d0, d1, d2, d3) := throttleWords r n
  let i := n % 256
  let s := forEach [(0, d0), (1, d0 / 2 ^ 32), (2, d1), (3, d1 / 2 ^ 32), (4, d2), (5, d2 / 2 ^ 32), (6, d3), (7, 0)] s
    (fun s x => s.setReg (THR_LOG i x.1) (BitVec.ofNat 32 x.2))
  (s.setReg THR_LOG_COUNT (BitVec.ofNat 32 (n + 1))).raise evThrottle 255 0 0 d0 d1 d2 d3

/-- A recess point that has no bell left: its record is written and it is over. -/
def State.endRecess (s : State) : State :=
  match s.bell.recess with
  | some r =>
    if r.left = 0 then
      let s := { s with bell := { s.bell with recess := none } }
      s.throttleRecord r
    else s
  | none => s

/-- The recess point announced for bell b begins; a device with no running course takes its bells as open (02 R72). -/
def State.takeAnnounced (s : State) (b : Nat) : State :=
  match s.bell.announced with
  | r :: l =>
    if r.bell = b then
      let s := ({ s with bell := { s.bell with announced := l } }).showRecess
      if s.anyRunning && s.runsBeyond b then s.beginRecess r
      else { s with bell := { s.bell with own := spendPoint s.bell.own b } }
    else if r.bell < b then ({ s with bell := { s.bell with announced := l } }).showRecess
    else s
  | [] => s

/-- One bell of the recess point under way: taken, or void at or after a halt bell (02 R72). -/
def State.recessBell (s : State) (b : Nat) : Bool × State :=
  match s.bell.recess with
  | some r =>
    if s.runsBeyond b then
      let s := { s with bell := { s.bell with recess := some { r with left := r.left - 1, taken := r.taken + 1 } } }
      (true, s.recessTaken.setB BELL_SYNC BELL_SYNC_recess true)
    else
      (false, ({ s with bell := { s.bell with recess := some { r with left := r.left - 1, voided := r.voided + 1 } } }).setB
        BELL_SYNC BELL_SYNC_recess false)
  | none => (false, s.setB BELL_SYNC BELL_SYNC_recess false)

/-! The bell tree (12 R345-R347). -/

def State.isTimekeeper (s : State) : Bool := s.flag BELL_SYNC BELL_SYNC_timekeeper

/-- This device originates bells: the timekeeper, or the backup once it has taken over (12 R347), until it stops for want of
REFCLK (17 R420). -/
def State.originates (s : State) : Bool :=
  s.flag BELL_SYNC BELL_SYNC_joined &&
  !s.bell.silent && ((s.isTimekeeper && !s.flag FAB_TREE FAB_TREE_following_backup) ||
   (s.flag BELL_SYNC BELL_SYNC_backup && s.flag FAB_TREE FAB_TREE_following_backup))

/-- Ports of a mask. -/
def portsOf (mask : Nat) : List Nat := (List.range 6).filter (bitSet mask)

/-- Downstream ports of the tree in use. -/
def State.downPorts (s : State) : List Nat :=
  portsOf (if s.flag FAB_TREE FAB_TREE_following_backup then s.getF FAB_TREE FAB_TREE_down_backup
    else s.getF FAB_TREE FAB_TREE_down_primary)

/-- Upstream port of the tree in use; 7 none. -/
def State.upPort (s : State) : Nat :=
  if s.flag FAB_TREE FAB_TREE_following_backup then s.getF FAB_TREE FAB_TREE_up_backup
  else s.getF FAB_TREE FAB_TREE_up_primary

/-! Stretch (02 R53-R55). -/

def State.bellCharge (s : State) : Nat := s.bell.chargeGuard + s.bell.chargeSlots

/-- The bell that ends leaves its charge in BELL_STRETCH. -/
def State.showStretch (s : State) : State :=
  let c := min 4095 s.bellCharge
  let s := s.trace 3 none none (some s.bellCharge)
  let s := s.setF BELL_STRETCH BELL_STRETCH_last_charge c
  if s.getF BELL_STRETCH BELL_STRETCH_peak_charge < c then s.setF BELL_STRETCH BELL_STRETCH_peak_charge c else s

/-- What the bell that ends leaves for the energy accounts. -/
def State.bellPast (s : State) : BellPast :=
  let run := (List.range 4).filter s.courseRunning
  { starters := run.map (fun p => (p, (s.crsOf p).startRing))
    allots := (run.filter (fun p => (s.crsOf p).ran)).map (fun p => (p, s.getF (PWR_ALLOT p) PWR_ALLOT_allotment))
    moved := s.energy.moved
    recess := s.flag BELL_SYNC BELL_SYNC_recess
    fields := (List.range 4).map (fun f => (f, s.partOfField f))
    ports := (List.range 6).map (fun q => (q, s.partOfPort q))
    rings := s.energy.moved.map (fun x => (x.1, s.ringPart x.1)) }

/-- Bells within tolerance when a bell ends: a bell without BELL breaks the run (R68). A device that originates bells measures
itself against its own, which never err (DEDUCED, log entry 39). -/
def State.toleratedBells (s : State) : Nat :=
  if s.originates then (if s.flag BELL_SYNC BELL_SYNC_out_of_step then s.bell.inTol + 1 else 0)
  else if s.bell.heard then s.bell.inTol else 0

/-- A core's counts of CTRL cycles and its waits go on from the new bell: a bell has 2,048 of them (06 R177, R178, R180). -/
def CoreSt.newBell (c : CoreSt) : CoreSt :=
  { c with
    issue := c.issue - 2048
    ready := (c.ready.map (fun x => (x.1, x.2 - 2048))).filter (fun x => x.2 != 0)
    tb := c.tb.map (fun a => { a with window := if 2048 ≤ a.window then a.window - 2048 else a.window })
    waitc := c.waitc.map (· - 4096)
    deadline := c.deadline - 4096 }

/-- Bell bookkeeping of the pacer: bells without BELL, the join's count of good bells, the cycles that an overrun takes from
the start of the lesson window (R55), the logs of the bell. -/
def State.newBell (s : State) : State :=
  let b := s.bell
  let waits := s.flag BELL_SYNC BELL_SYNC_joined && !s.originates
  let join := b.join.map (fun j => if b.heard then j else { j with good := 0 })
  { s with
    cyc := 0
    bell := { b with chargeGuard := 0, chargeSlots := 0, overrun := false, heard := false, guardCycles := 64,
                     guardHold := 0, slotCycles := 128, slotHold := 0, lost := ceilDiv b.carried 4, carried := 0,
                     inTol := s.toleratedBells,
                     missing := if waits then (if b.heard then 0 else b.missing + 1) else 0, join := join }
    tiles := s.tiles.map (fun x => (x.1, { x.2 with uses := [], armAck := false, fallBytes := 0 }))
    cores := s.cores.map (fun x => (x.1, x.2.newBell))
    layers := s.layers.map (fun x => (x.1, { x.2 with banks := [] }))
    mesh := { s.mesh with uses := [], msgs := s.mesh.msgs.filter (fun m => m.typ != 8 && m.typ != 9) }
    energy := { s.energy with moved := [], past := s.bellPast, counted := false } }

/-- Register of a canary group (17 R431): 0-3 the fields of the compute die, 4-7 the memory layers, 8 the base die. The three kinds
share one layout. -/
def canaryReg (g : Nat) : Nat := if g < 4 then CLK_CANARY_CD g else if g < 8 then CLK_CANARY_ML (g - 4) else CLK_CANARY_BD

/-- Each canary group shows the smallest margin that it reported in the bell that has ended (17 R435). -/
def State.showMargins (s : State) : State :=
  forEach s.clock.margins { s with clock := { s.clock with margins := [] } }
    (fun s x => s.setF (canaryReg x.1) CLK_CANARY_CD_margin (min 255 x.2))

/-- At a0 of bell B the staging bank of a group table becomes active (11 R310). -/
def State.groupSwitch (s : State) (p b : Nat) : State :=
  match (s.group p).scheduled with
  | some (at_, gen) =>
    if at_ = b then
      let s := s.setF (UPD_STATE p) UPD_STATE_active_bank (1 - s.getF (UPD_STATE p) UPD_STATE_active_bank)
      let s := (s.setReg (UPD_GEN_ACTIVE p) (BitVec.ofNat 32 gen)).setPair (UPD_ACTIVE_AT_LO p) b
      s.modGroup p (fun g => { g with scheduled := none })
    else s
  | none => s

/-- a0 of a bell (02 R63, R46, R69). The origin sends BELL with the root periods from the boundary to its departure
(12 R346). The bell that has just ended counts before a recess is looked for, so that a course whose last lesson is over no
longer runs (R72). -/
def State.bellStart (s : State) (depart : Nat) : State :=
  let s := s.showStretch.showMargins.newBell
  let b := s.bellCount + 1
  let s := s.setPair BELL_COUNT_LO b
  let s := forEach ((List.range 4).filter s.courseLive) s State.endBell
  let s := s.endRecess.takeAnnounced b
  let (recess, s) := s.recessBell b
  let s := forEach (List.range 4) s (fun s p => s.groupSwitch p b)
  let s := forEach (List.range 4) s (fun s p => s.courseBell p b recess)
  if s.originates then
    forEach s.downPorts s (fun s p => s.sendSym p (mkSym 2 0 s.deviceId b depart))
  else s

/-! Guard (02 R54, 08 R236, R249). -/

/-- The layer's adopted estimate in °C decides slot B (08 R249). -/
def State.slotBDecide (s : State) (l : Nat) : State :=
  let t := s.getF (MEM_LAYER l) MEM_LAYER_temp
  let y := s.layer l
  let cool := if t < 82 then min 4096 (y.coolBells + 1) else 0
  let r := decide (84 ≤ t) || (s.flag (MEM_LAYER l) MEM_LAYER_slot_b_refresh && decide (cool < 4096))
  (s.modLayer l (fun y => { y with coolBells := cool })).setB (MEM_LAYER l) MEM_LAYER_slot_b_refresh r

/-- Adopted estimate of a layer in °C: the largest of its 16 regions (19 R454). -/
def State.layerTemp (s : State) (l : Nat) : Nat :=
  ((List.range 16).foldl (fun m f => max m (s.getF (THM_REGION (16 + 16 * l + f)) THM_REGION_adopted)) 0) / 4

/-- The charge so far is paid back: the guard delivers 64 - ceil(c/4) cycles and then holds the clocks for 4 ceil(c/4) - c root
periods, and the end of the service slot pays what the refresh slots and the slot itself bring in the same way (R54). -/
def State.payBack (s : State) : State :=
  let g := s.bell.chargeGuard
  let c := s.bell.chargeSlots
  { s with bell := { s.bell with guardCycles := 64 - ceilDiv g 4, guardHold := 4 * ceilDiv g 4 - g,
                                 slotCycles := 128 - ceilDiv c 4, slotHold := 4 * ceilDiv c 4 - c } }

/-- a3776: every open row closes, the guard is shortened by the charge of the lesson window, and each layer decides its
slot B. -/
def State.guardStart (s : State) : State :=
  let s := ({ s with cyc := 3776,
                     layers := s.layers.map (fun x => (x.1, { x.2 with banks := [] })) } : State).payBack
  forEach (List.range 4) s (fun s l => (s.setF (MEM_LAYER l) MEM_LAYER_temp (s.layerTemp l)).slotBDecide l)

/-! Overrun (02 R55). -/

/-- The course's next bell carries timetabled work. -/
def State.nextBellWorks (s : State) (p : Nat) : Bool :=
  let c := s.crsOf p
  let b := s.bellCount + 1
  let pos := if c.ran then posAfter c (coursePos c) else if c.ended then none else some (coursePos c)
  let void := (match c.haltBell with
    | some h => decide (h ≤ b)
    | none => false) || (match c.stopFrom with
    | some h => decide (h ≤ b)
    | none => false)
  let recess := s.bell.announced.any (fun r => r.bell == b) || (match s.bell.recess with
    | some r => decide (0 < r.left)
    | none => false)
  (s.courseRunning p || s.courseState p == csStarting) && decide (c.startBell ≤ b) && !void && !recess &&
  (match pos with
   | some x => lessonWorks c.image x.lesson
   | none => false)

def State.bellOverrun (s : State) : State :=
  let c := s.bellCharge
  if 256 < c && !s.bell.overrun then
    let s := (s.raise evOverrun 255 0 0 c 0 0 0).incF BELL_OVERRUN_COUNT BELL_OVERRUN_COUNT_count 1
    let s := { s with bell := { s.bell with overrun := true } }
    if (List.range 4).any s.nextBellWorks then s.outOfStep 4
    else { s with bell := { s.bell with carried := c - 256 } }
  else s

def execBellOverrun (s : State) : Host.Outcome State Fault Refusal := live s s.bellOverrun

/-! The system bell (02 R58-R63, R68, 12 R346, R347, 20 R473). -/

/-- Count a dropped symbol (12 R331). -/
def State.dropSym (s : State) (port : Nat) : State := s.incF (PORT_ERRORS port) PORT_ERRORS_symbols_dropped 1

/-- A symbol checks good: its CRC, its type, no byte marked bad (12 R331). -/
def symGood (typ : Nat) (y : Sym) (bad : Bool) : Bool := y.typ == typ && y.crc == crc16 (symBytes y) && !bad

/-- Full number of a bell carried in 48 bits. -/
def State.fullBell (s : State) (b : Nat) : Nat := s.bellCount / 2 ^ 48 * 2 ^ 48 + b % 2 ^ 48

/-- Whether a BELL on a port is taken (12 R345, R347): from the timekeeper on the primary upstream port, or, after four
bells missed, from the backup on the backup upstream port. -/
def State.takesBell (s : State) (port origin : Nat) : Bool :=
  if s.flag FAB_TREE FAB_TREE_following_backup then
    port == s.getF FAB_TREE FAB_TREE_up_backup && origin == s.map.backup
  else (port == s.getF FAB_TREE FAB_TREE_up_primary && origin == s.map.timekeeper) ||
    (port == s.getF FAB_TREE FAB_TREE_up_backup && origin == s.map.backup && decide (4 ≤ s.bell.missing))

/-- Phase error as BELL_SYNC shows it: two's complement, saturating at ±127. -/
def phaseField (e : Int) : Nat := codeOf (max (-127) (min 127 e)) 8

/-- Phase error e root periods measured at a bell (02 R60). -/
def State.measurePhase (s : State) (e : Int) : State :=
  let s := s.setF BELL_SYNC BELL_SYNC_phase_err (phaseField e)
  let a := e.natAbs
  if a ≤ 8 then { s with bell := { s.bell with warned := false } }
  else if a ≤ 32 then
    let s := { s with bell := { s.bell with trim := s.bell.trim + (if e < 0 then 1 else -1) } }
    if s.bell.warned then s
    else ({ s with bell := { s.bell with warned := true } }).raise evBellPhaseWarn 255 0 0 (detail64 e) 0 0 0
  else s.outOfStep 2

/-- A joined device takes a good BELL (02 R60, R61, R68). An out-of-step device reloads its count and phase from the first
one; the error that this one showed stays in phase_err. -/
def State.joinedBell (s : State) (bell : Nat) (e : Int) : State :=
  if s.flag BELL_SYNC BELL_SYNC_out_of_step then
    if s.bell.reload then
      ({ s.setPair BELL_COUNT_LO (s.fullBell bell) with bell := { s.bell with reload := false, inTol := 0, pacer := s.bell.pacer + e } }).setF
        BELL_SYNC BELL_SYNC_phase_err (phaseField e)
    else
      let s := s.measurePhase e
      if bell % 2 ^ 48 ≠ s.bellCount % 2 ^ 48 then { s with bell := { s.bell with reload := true, inTol := 0 } }
      else { s with bell := { s.bell with inTol := if e.natAbs ≤ 8 then s.bell.inTol + 1 else 0 } }
  else if bell % 2 ^ 48 ≠ s.bellCount % 2 ^ 48 then s.outOfStep 1
  else s.measurePhase e

/-- A device that is joining takes a good BELL (20 R473): the first one moves the pacer, later ones are counted. -/
def State.joiningBell (s : State) (j : Join) (e : Int) : State :=
  if !j.aligned then
    { s with bell := { s.bell with pacer := s.bell.pacer + e, join := some { j with aligned := true, good := 0 } } }
  else
    let s := s.measurePhase e
    { s with bell := { s.bell with join := some { j with good := if e.natAbs ≤ 8 then j.good + 1 else 0 } } }

/-- BELL arrives on a port, arrival root periods after the local a0, and leaves resid root periods later (12 R346). -/
def State.symBell (s : State) (port : Nat) (y : Sym) (bad : Bool) (arrival : Int) (resid : Nat) : State :=
  if !s.portUp port then s
  else if !symGood 2 y bad then s.dropSym port
  else if s.originates || !s.takesBell port y.origin then s
  else
    let moved := !s.flag FAB_TREE FAB_TREE_following_backup && y.origin != s.map.timekeeper
    let s := if moved then (s.setB FAB_TREE FAB_TREE_following_backup true).setF CLK_REF CLK_REF_upstream_port port else s
    let delay := s.getF (PORT_SYMDELAY port) PORT_SYMDELAY_delay
    let e : Int := -(arrival - delay - y.b32)
    let s := { s with bell := { s.bell with heard := true, missing := 0 } }
    if s.flag BELL_SYNC BELL_SYNC_joined then
      let s := s.joinedBell y.bell e
      forEach s.downPorts s (fun s p => s.sendSym p (mkSym 2 (y.a8 + 1) y.origin y.bell (y.b32 + delay + resid)))
    else match s.bell.join with
      | some j => s.joiningBell { j with hops := y.a8 + 1, sysBell := y.bell } e
      | none => s

def execSymBell (port : Nat) (y : Sym) (bad : Bool) (arrival : Int) (resid : Nat) (s : State) :
    Host.Outcome State Fault Refusal := live s (s.symBell port y bad arrival resid)

/-- Four bells without BELL: the backup originates bells and continues the numbering (02 R62, 12 R347). The other devices
take the backup's BELL when it arrives. -/
def State.bellMissing (s : State) : State :=
  if s.flag BELL_SYNC BELL_SYNC_joined && 4 ≤ s.bell.missing then
    let s := if s.flag BELL_SYNC BELL_SYNC_backup then
        ((s.setB FAB_TREE FAB_TREE_following_backup true).setF CLK_REF CLK_REF_ref_sel 0).setF CLK_REF CLK_REF_upstream_port 7
      else s
    s
  else s

def execBellSymbolMissing (s : State) : Host.Outcome State Fault Refusal := live s s.bellMissing

def State.rejoin (s : State) : State :=
  if s.flag BELL_SYNC BELL_SYNC_out_of_step && 16 ≤ s.bell.inTol then
    ({ s with bell := { s.bell with inTol := 0, warned := false } }).setB BELL_SYNC BELL_SYNC_out_of_step false
  else s

def execRejoinComplete (s : State) : Host.Outcome State Fault Refusal := live s s.rejoin

/-! Halts (02 R64, R67). -/

/-- A HALT that arrives on a port applies to the port's partition and is forwarded once on its other UP ports. -/
def State.symHalt (s : State) (port : Nat) (y : Sym) (bad : Bool) : State :=
  if !s.portUp port then s
  else if !symGood 3 y bad then s.dropSym port
  else if (s.port port).seen.contains (3, y.origin, y.bell) || (List.range 6).any (fun q => s.partOfPort q == s.partOfPort port &&
      (s.port q).seen.contains (3, y.origin, y.bell)) then s
  else
    let p := s.partOfPort port
    let s := s.modPort port (fun t => { t with seen := t.seen ++ [(3, y.origin, y.bell)] })
    let s := s.sendSym3All ((s.upPorts p).filter (· != port)) y
    if s.courseRunning p || s.courseState p = csStarting then
      let b := s.fullBell y.bell
      if b ≤ s.bellCount then s.nameHalt p (s.bellCount + 1) y.b32 y.origin true
      else s.nameHalt p b y.b32 y.origin false
    else s

def execSymHalt (port : Nat) (y : Sym) (bad : Bool) (s : State) : Host.Outcome State Fault Refusal :=
  live s (s.symHalt port y bad)

/-- At a0 of its halt bell a partition stops its timetable, is HALTED and raises COURSE_HALTED (02 R64, R83); its tiles,
layers and ports receive the halt notice over the control network. -/
def State.haltReached (s : State) (p : Nat) : State :=
  let c := s.crsOf p
  match c.haltBell with
  | some h =>
    if s.courseState p = csHalting && h ≤ s.bellCount then
      let s := ((s.endBell p).setCourseState p csHalted).setB (BELL_CRS_STATE p) BELL_CRS_STATE_open true
      let s := s.modCrs p (fun c => { c with haltBell := none, stopFrom := none, ran := false })
      let s := s.dropRosters p (fun _ => true)
      let s := (s.gateOutside p 0).setF (PWR_ALLOT p) PWR_ALLOT_allotment 0
      let s := s.sendCnet (cnetMsg 8 0 0x180 p true true)
      s.raiseWith (s.flag (BELL_CRS_STATE p) BELL_CRS_STATE_halt_late) evCourseHalted p 0 0 h c.haltReason c.haltDeclarer 0
    else s
  | none => s

def execHaltBellReached (p : Nat) (s : State) : Host.Outcome State Fault Refusal :=
  live s (if p < 4 then s.haltReached p else s)

/-! Recess points and requests (02 R70, R71, 12 R348). -/

/-- Walk of a course bell by bell: position that runs or runs next, whether the boundary just crossed is a recess point, and for
how many bells, the present one among them, the position does not advance. -/
structure Walk where
  pos : Option Pos
  point : Bool
  recess : Nat
  deriving DecidableEq, Repr

/-- Cross the boundary into bell b. -/
def walkStep (c : Course) (ann : List Recess) (w : Walk) (b : Nat) : Walk :=
  let k := if 0 < w.recess then w.recess else ((ann.find? (fun r => r.bell == b)).map (·.k)).getD 0
  match w.pos with
  | none => { pos := none, point := false, recess := 0 }
  | some x =>
    if 0 < w.recess then
      if w.recess = 1 then { pos := some x, point := false, recess := 0 } else { w with point := false, recess := w.recess - 1 }
    else
      let ends := decide (lsBells c.image x.lesson ≤ x.bell + 1)
      { pos := posAfter c x, point := ends && lsRecess c.image x.lesson, recess := k }

/-- Partition p's course walked to bell b, as the timetable stands: the present bell runs a lesson, or it is a bell of a recess or
one before the course's start. -/
def State.walkTo (s : State) (p b : Nat) : Walk :=
  let c := s.crsOf p
  let now := s.bellCount
  let left := max (((s.bell.recess.map (·.left)).getD 0) + 1) (c.startBell - now)
  let start : Walk := { pos := if c.ended then none else some (coursePos c), point := false, recess := if c.ran then 0 else left }
  (List.range (b - now)).foldl (fun w i => walkStep c s.bell.announced w (now + 1 + i)) start

/-- Partition p has a recess point at bell b, as the timetable stands (02 R70). -/
def State.pointAt (s : State) (p b : Nat) : Bool := (s.walkTo p b).point

/-- A recess point of the domain at bell b on the timekeeper: every boundary while no course runs there. -/
def State.domainPoint (s : State) (b : Nat) : Bool :=
  if s.anyRunning then (List.range 4).any (fun p => s.courseRunning p && s.pointAt p b) else true

/-- The first recess point of partition p at or after bell b, within n bells. -/
def State.firstPoint (s : State) (p b : Nat) : Nat → Option Nat
  | 0 => none
  | n + 1 => if s.pointAt p b then some b else s.firstPoint p (b + 1) n

/-- Enter a recess into the device's schedule. -/
def State.scheduleRecess (s : State) (r : Recess) : State :=
  ({ s with bell := { s.bell with announced := insertRecess r s.bell.announced } }).showRecess

/-- At a0 of bell B - H_R the timekeeper announces the recess point B (02 R71). A request is charged with the points that are
announced while the timekeeper holds it: one that came too late for some of its points keeps its whole count s for those still
to be announced (DESIGN CHOICE, log entry 40: the rule says that its count continues from there). -/
def State.recessAnnounce (s : State) : State :=
  let b := s.bellCount + s.map.horizon
  let live := covering s.bell.requests b
  match bestRequest live with
  | some q =>
    if s.originates && s.domainPoint b then
      let left := live.foldl (fun m r => max m (r.s - 1)) 0
      let s := { s with bell := { s.bell with requests := spendPoint s.bell.requests b } }
      let s := s.sendSym3All s.downPorts (mkSym 4 q.k s.deviceId b left)
      s.scheduleRecess { bell := b, k := q.k, origin := s.deviceId }
    else s
  | none => s

def execRecessAnnounce (s : State) : Host.Outcome State Fault Refusal := live s s.recessAnnounce

/-- RECESS is taken only on the port that BELL is taken from, and forwarded down the same tree (12 R348). -/
def State.symRecess (s : State) (port : Nat) (y : Sym) (bad : Bool) : State :=
  if !s.portUp port then s
  else if !symGood 4 y bad then s.dropSym port
  else if port ≠ s.upPort then s.dropSym port
  else if (s.port port).seen.contains (4, y.origin, y.bell) then s
  else
    let s := s.modPort port (fun t => { t with seen := t.seen ++ [(4, y.origin, y.bell)] })
    let s := s.sendSym3All s.downPorts y
    s.scheduleRecess { bell := s.fullBell y.bell, k := y.a8, origin := y.origin }

def execSymRecess (port : Nat) (y : Sym) (bad : Bool) (s : State) : Host.Outcome State Fault Refusal :=
  live s (s.symRecess port y bad)

/-- RECESS_REQ travels up the tree; at the timekeeper it enters the request table (02 R71, 12 R348). -/
def State.symRecessReq (s : State) (port : Nat) (y : Sym) (bad : Bool) : State :=
  if !s.portUp port then s
  else if !symGood 5 y bad then s.dropSym port
  else if (s.port port).seen.contains (5, y.origin, y.bell) then s
  else
    let s := s.modPort port (fun t => { t with seen := t.seen ++ [(5, y.origin, y.bell)] })
    if s.originates then
      { s with bell := { s.bell with requests := s.bell.requests ++
          [{ k := y.a8, s := y.b32, bell := s.fullBell y.bell, reason := 0, value := 0, origin := y.origin }] } }
    else if s.upPort < 6 then s.sendSym3 s.upPort y else s

def execSymRecessReq (port : Nat) (y : Sym) (bad : Bool) (s : State) : Host.Outcome State Fault Refusal :=
  live s (s.symRecessReq port y bad)

/-- A recess point is evaluated: the device has not asked for recess at it yet. -/
def State.markPoint (s : State) : State :=
  if s.bell.point = s.bellCount then s else { s with bell := { s.bell with point := s.bellCount, asked := false } }

/-- The device sends a recess request of its own (02 R71). -/
def State.requestRecess (s : State) (k n r reason value : Nat) : State :=
  let q : RecessReq := { k := k, s := n, bell := r, reason := reason, value := value, origin := s.deviceId }
  let s := { s with bell := { s.bell with own := s.bell.own ++ [q], asked := true } }
  if s.originates then { s with bell := { s.bell with requests := s.bell.requests ++ [q] } }
  else if s.upPort < 6 then s.sendSym3 s.upPort (mkSym 5 k s.deviceId r n) else s

end Sys2Proof.Machine
end

