-- ==== Sys2Proof/Machine/Seats.lean ====
section
/-! DEFINITION. Seats: the attendance list, the boot ledger, the seating plan, route latencies, what a start of a course
clears in an engine, tile failures and substitution (01 R26-R36, 04 R142, R143, 07 R221, R222, 20 R474-R495). -/

namespace Sys2Proof.Machine

/-! Ledger (20 R475, R476). -/

def logSTART : Nat := 1
def logINTENT : Nat := 2
def logDONE : Nat := 3
def logALTERNATIVE : Nat := 4
def logCARD : Nat := 5
def logSHUTDOWN : Nat := 6
def logSUBSTITUTION : Nat := 7
def logEXAM : Nat := 8
def logRETRY : Nat := 9

def State.startNo (s : State) : Nat := (s.reg BRG_START_COUNT).toNat

/-- Append a record to the log. Entering a sector of 1,024 records erases the oldest 1,024 of the ring of 6,144. -/
def State.logAppend (s : State) (kind stage step detail : Nat) (body : List Nat) : State :=
  let n := s.bring.nextSeq
  let r : LogRec :=
    { seq := n, start := s.startNo, kind := kind, stage := stage, step := step, detail := detail, bell := s.bellCount, body := body }
  let kept := if n % 1024 = 0 then s.bring.log.filter (fun x => decide (n < x.seq + 5121)) else s.bring.log
  { s with bring := { s.bring with log := kept ++ [r], nextSeq := n + 1 } }

/-- Write the carry block: the next generation, with the seating plan in force. -/
def State.writeCarry (s : State) : State :=
  let c := s.bring.carry
  { s with bring := { s.bring with carry := { c with
      valid := true
      generation := c.generation + 1
      start := s.startNo
      plan := (List.range 256).map (fun lt => (lt, s.seatIdx lt)) } } }

/-- A failed lane enters the carry block: ports 0-5, the Milbex Link as 6 (12 R326, R327, 13 R353, 20 R476). -/
def State.carryLane (s : State) (port lane : Nat) : State :=
  let c := s.bring.carry
  ({ s with bring := { s.bring with carry := { c with lanes := tput c.lanes port (withBit (tgetD c.lanes port 0) lane) } } } : State).writeCarry

/-! The attendance list (20 R480, R481). -/

/-- An entry with status good, no test failed, every exclusion index 32. -/
def seatEntry0 : Nat :=
  let x := 32 + 64 * 32 + 64 ^ 2 * 32 + 64 ^ 3 * 32
  2 ^ 16 * x + 2 ^ 40 * x

def State.seatEntry (s : State) (m : Nat) : Nat := tgetD s.bring.carry.seats m seatEntry0

def State.seatStatus (s : State) (m : Nat) : Nat := bitsAt (s.seatEntry m) 0 2

def State.seatGood (s : State) (m : Nat) : Bool := s.seatStatus m == 0

/-- The seat holds a logical tile. -/
def State.seatUsed (s : State) (m : Nat) : Bool :=
  (List.range 16).any (fun k => s.seatIdx (16 * (m / 18) + k) == m % 18)

/-- BRG_SEAT_m shows the entry, and whether the seat is a substitute or in use; MESH_ERRORS_SEAT_m shows a dead seat, which the mesh
bypasses (07 R219, R234). -/
def State.showSeat (s : State) (m : Nat) : State :=
  let e := s.seatEntry m
  let used := s.seatUsed m
  let w := bitsAt e 0 10 + 2 ^ 10 * boolNat (bitsAt e 0 2 == 0 && !used && !s.flag (STK_FORM_STATUS (m / 18)) STK_FORM_STATUS_excluded) +
    2 ^ 11 * boolNat used
  (s.setReg (BRG_SEAT m) (BitVec.ofNat 32 w)).setB (MESH_ERRORS_SEAT m) MESH_ERRORS_SEAT_bypassed (!s.seatGood m)

def State.showForm (s : State) (f : Nat) : State := forEach (List.range 18) s (fun s k => s.showSeat (18 * f + k))

/-- Replace bits [9:0] of an entry: status, test, passes. -/
def State.setSeat (s : State) (m status test passes : Nat) : State :=
  let e := s.seatEntry m / 1024 * 1024 + status + 4 * (test % 64) + 256 * (passes % 4)
  let c := s.bring.carry
  { s with bring := { s.bring with carry := { c with seats := tput c.seats m e } } }

/-- Dead seats of a form, as STK_FORM_STATUS shows them. -/
def State.deadMask (s : State) (f : Nat) : Nat :=
  (List.range 18).foldl (fun v k => if s.seatGood (18 * f + k) then v else v + 2 ^ k) 0

/-- Good seats of a form that hold no tile. -/
def State.freeSeats (s : State) (f : Nat) : List Nat :=
  (List.range 18).filter (fun k => s.seatGood (18 * f + k) && !s.seatUsed (18 * f + k))

/-- STK_FORM_STATUS_f in one write: dead, spares, short, excluded; isolated is kept. The flags of an excluded form leave the
arithmetic summary (03 R115). -/
def State.showFormStatus (s : State) (f : Nat) (excluded : Bool) : State :=
  let sp := if excluded then 0 else min 2 (s.freeSeats f).length
  let w := s.deadMask f + 2 ^ 18 * sp + 2 ^ 20 * boolNat (!excluded && sp == 0) + 2 ^ 21 * boolNat excluded +
    2 ^ 22 * boolNat (s.isolated f)
  ((s.setReg (STK_FORM_STATUS f) (BitVec.ofNat 32 w)).showForm f).ariResum

def State.spares (s : State) (f : Nat) : Nat := s.getF (STK_FORM_STATUS f) STK_FORM_STATUS_spares

/-- A good seat fails a test: field-dead, SEAT_DEAD (R481). -/
def State.seatFails (s : State) (m test : Nat) : State :=
  if s.seatGood m then (s.setSeat m 2 test 0).raise evSeatDead (s.partOfForm (m / 18)) 2 m test 0 0 0
  else s.setSeat m (s.seatStatus m) test 0

/-- A tested seat passed (test 0) or failed. A field-dead seat is good after its third pass in a row; while a course is
loaded in its partition it stays field-dead with three passes until the unload. -/
def State.refine (s : State) (m test : Nat) : State :=
  if test ≠ 0 then s.seatFails m test
  else if s.seatStatus m = 2 then
    let n := min 3 (bitsAt (s.seatEntry m) 8 2 + 1)
    if n = 3 && !s.courseLoaded (s.partOfForm (m / 18)) then s.setSeat m 0 0 0
    else s.setSeat m 2 (bitsAt (s.seatEntry m) 2 6) n
  else s

/-! Seating (01 R29). -/

/-- Order in which substitute seats are chosen. -/
def substituteOrder : List Nat := [4, 13, 5, 12, 3, 14, 6, 11, 2, 15, 7, 10, 1, 16, 8, 9, 0, 17]

/-- Lockers of a tile take undefined data; with keep, those of the failed seat stay readable from below (20 R490, R491). -/
def loseLockers (m : MemSt) (lt k : Nat) (keep : Bool) : MemSt :=
  let a := lt * 2 ^ 30
  let z := a + 2 ^ 30
  let mine := fun (x : Nat) => decide (a ≤ x && x < z)
  let mineW := fun (x : Nat) => decide (a ≤ 8 * x && 8 * x < z)
  { m with
    bytes := m.bytes.filter (fun c => !mine c.1)
    lkChk := m.lkChk.filter (fun c => !mineW c.1)
    undef := tput m.undef lt k
    leftBytes := (if keep then m.bytes.filter (fun c => mine c.1) else []).foldl (fun t c => tput t c.1 c.2)
      (m.leftBytes.filter (fun c => !mine c.1))
    leftChk := (if keep then m.lkChk.filter (fun c => mineW c.1) else []).foldl (fun t c => tput t c.1 c.2)
      (m.leftChk.filter (fun c => !mineW c.1))
    leftUndef := if keep then (match tfind m.undef lt with
      | some e => tput m.leftUndef lt e
      | none => tdel m.leftUndef lt) else tdel m.leftUndef lt }

/-- The lockers of a tile hold undefined data from now on. -/
def State.loseLockers (s : State) (lt : Nat) (keep : Bool) : State :=
  { s with mem := Sys2Proof.Machine.loseLockers s.mem lt s.freeCtr keep, freeCtr := s.freeCtr + 2 ^ 30 }

/-- The lockers of the failed seat stand in the new seat's lockers (R491). -/
def fetchLockers (m : MemSt) (lt : Nat) : MemSt :=
  let a := lt * 2 ^ 30
  let z := a + 2 ^ 30
  let mine := fun (x : Nat) => decide (a ≤ x && x < z)
  let mineW := fun (x : Nat) => decide (a ≤ 8 * x && 8 * x < z)
  let put := fun (t : Tbl Byte) (c : Nat × Byte) => tput t c.1 c.2
  { m with
    bytes := (m.leftBytes.filter (fun c => mine c.1)).foldl put (m.bytes.filter (fun c => !mine c.1))
    lkChk := (m.leftChk.filter (fun c => mineW c.1)).foldl (fun t c => tput t c.1 c.2) (m.lkChk.filter (fun c => !mineW c.1))
    undef := (match tfind m.leftUndef lt with
      | some e => tput m.undef lt e
      | none => tdel m.undef lt)
    leftBytes := m.leftBytes.filter (fun c => !mine c.1)
    leftChk := m.leftChk.filter (fun c => !mineW c.1)
    leftUndef := tdel m.leftUndef lt }

/-- Place a tile at a seat index, or unseat it with 31; moves is kept. -/
def State.putSeat (s : State) (lt idx : Nat) : State := s.setF (STK_SEAT_LT lt) STK_SEAT_LT_seat idx

/-- MXE exclusions of the seat's attendance entry (04 R142, R143); fused indices are 32 (log entry 5). -/
def State.loadExclusions (s : State) (lt : Nat) : State :=
  if s.present lt then
    let e := s.seatEntry (s.seatOf lt)
    let word := fun (v : Nat) => bitsAt v 0 6 + 2 ^ 8 * bitsAt v 6 6 + 2 ^ 16 * bitsAt v 12 6 + 2 ^ 24 * bitsAt v 18 6 +
      2 ^ 31 * boolNat (bitsAt v 0 24 != bitsAt seatEntry0 16 24)
    (s.setReg (MXE_REPAIR_ROW_LT lt) (BitVec.ofNat 32 (word (bitsAt e 16 24)))).setReg (MXE_REPAIR_COL_LT lt)
      (BitVec.ofNat 32 (word (bitsAt e 40 24)))
  else s

/-- Seat a form afresh from its good seats, or exclude it. -/
def State.seatForm (s : State) (f : Nat) : State :=
  let good := (List.range 18).filter (fun k => s.seatGood (18 * f + k))
  let s := if good.length < 16 || s.isolated f then
      (forEach (List.range 16) s (fun s k => s.putSeat (16 * f + k) 31)).showFormStatus f true
    else
      let subs := (substituteOrder.filter good.contains).take (good.length - 16)
      let used := good.filter (fun k => !subs.contains k)
      (forEach (List.range 16) s (fun s k => s.putSeat (16 * f + k) (used.getD k 31))).showFormStatus f false
  forEach (List.range 16) s (fun s k => s.loadExclusions (16 * f + k))

/-! Route latencies (07 R219, R221, R222). -/

def absDiff (a b : Nat) : Nat := max a b - min a b

/-- Seams between two routers. -/
def seamsBetween (r1 c1 r2 c2 : Nat) : Nat := boolNat (r1 / 8 != r2 / 8) + boolNat (c1 / 9 != c2 / 9)

/-- Cycles of a route between two seats. -/
def seatLatency (m1 m2 : Nat) : Nat :=
  4 + 2 * (absDiff (seatRow m1) (seatRow m2) + absDiff (seatCol m1) (seatCol m2)) +
    2 * seamsBetween (seatRow m1) (seatCol m1) (seatRow m2) (seatCol m2)

/-- Published latency L(a, b): the largest over all candidate seats of both forms. -/
def routeL (a b : Nat) : Nat :=
  ((List.range 18).flatMap (fun i => (List.range 18).map (fun j =>
    seatLatency (18 * ltForm a + i) (18 * ltForm b + j)))).foldl max 0

/-- Entry of a padding table: L(a, b) minus the length of the route between the seats in use. The table follows the seating
plan (R222), so the model keeps no copy of it. -/
def State.padOf (s : State) (a b : Nat) : Nat := routeL a b - seatLatency (s.seatOf a) (s.seatOf b)

/-! What COURSE_START clears in an engine, and loading local memory (04 R122, 05 R150, 06 R183, R184, R188, R190). -/

/-- Registers that show a tile's engines after their clear. -/
def State.clearEngineRegs (s : State) (lt : Nat) : State :=
  let r := MXE_STATUS_LT lt
  let s := (((((s.setB r MXE_STATUS_LT_busy false).setB r MXE_STATUS_LT_halted false).setF r MXE_STATUS_LT_plane_wfmt 7).setF
    r MXE_STATUS_LT_plane_fold 3).setF r MXE_STATUS_LT_square_ok 0).setB (MXE_PROGRESS_LT lt) MXE_PROGRESS_LT_pass_active false
  let v := VE_STATUS_LT lt
  let s := (((s.setB v VE_STATUS_LT_busy false).setB v VE_STATUS_LT_halted false).setF v VE_STATUS_LT_tables_loaded 0).setB
    (VE_PROGRESS_LT lt) VE_PROGRESS_LT_run_active false
  let s := s.setF (GC_PATCH_LT lt) GC_PATCH_LT_pending 0
  forEach (List.range 64) s (fun s c =>
    let g := GC_STATUS (64 * lt + c)
    ((((s.setB g GC_STATUS_running false).setB g GC_STATUS_halted false).setB g GC_STATUS_tainted false).setB g
      GC_STATUS_runtime false).setB g GC_STATUS_dead_stop false)

/-- Engines of a tile as at COURSE_START. -/
def State.clearEngines (s : State) (lt : Nat) : State :=
  let s := { s with cores := s.cores.filter (fun x => x.1 / 64 != lt) }
  (s.modTile lt (fun t => { t with
    mxe := mxe0, ve := ve0, nextPatches := [], curPatches := [], tbConflictSent := false, trnRefusedSent := false,
    halted := false })).clearEngineRegs lt

/-- Task memory of each core from the local image of a tile program, zero elsewhere (R188). -/
def State.loadLocal (s : State) (lt : Nat) (prog : List Byte) : State :=
  forEach (List.range 64) s (fun s c =>
    let core := 64 * lt + c
    let m := lmClear s.mem core 0x1000 0x8000
    let e := tpImageOffset prog + 8 * c
    let off := leAt prog e 4
    let size := if tpHasImage prog then leAt prog (e + 4) 4 else 0
    { s with mem := forEach (List.range (size / 4)) m (fun m i =>
        lmStore m (lmAddr core 0x1000 + 4 * i) (leAt prog (off + 4 * i) 4) false) })

/-! Tile failure and substitution (20 R486-R489, R494). -/

/-- A tile failure is declared: a running course halts, and a substitution is due (R487). -/
def State.tileFailure (s : State) (lt test : Nat) : State :=
  if !s.present lt || s.bring.substs.any (fun x => x.lt == lt) then s
  else
    let n := s.bellCount + boolNat (s.courseGoes (s.partOfLt lt))
    let s := s.declareHalt (s.partOfLt lt) hcTile
    { s with bring := { s.bring with substs := s.bring.substs ++ [{ lt := lt, test := test, bell := n }] } }

/-- Seat the tile takes: the first good substitute in the order of R29. -/
def State.nextSubstitute (s : State) (f : Nat) : Option Nat :=
  substituteOrder.find? (fun k => (s.freeSeats f).contains k)

def State.courseImage (s : State) (p : Nat) : List Byte := (s.crsOf p).image

/-- A pending bit of BRG_EVAC_PENDING. -/
def State.evacPending (s : State) (lt : Nat) : Bool :=
  s.flag (BRG_EVAC_PENDING (lt / 32)) ⟨lt % 32, 1⟩

def State.setEvacPending (s : State) (lt : Nat) (b : Bool) : State := s.setB (BRG_EVAC_PENDING (lt / 32)) ⟨lt % 32, 1⟩ b

/-- The tile buffer and engines of a tile as at S4 and COURSE_START, local memory from the image of lesson 0 (steps 5-7). -/
def State.freshTile (s : State) (lt : Nat) : State :=
  let p := s.partOfLt lt
  let s := { s with mem := tbClear s.mem lt }
  let s := s.clearEngines lt
  let s := s.loadLocal lt (if s.courseLoaded p then programOf (s.courseImage p) 0 lt else [])
  s.loadExclusions lt

/-- An exam that uses a seat chosen for a substitution stops, and the seat is treated as good (R485). -/
def Exam.without (m : Nat) (e : Exam) : Exam :=
  if e.form = m / 18 then { e with left := e.left.filter (fun k => k != m % 18) } else e

def State.stopExam (s : State) (m : Nat) : State :=
  { s with bring := { s.bring with exam := s.bring.exam.map (Exam.without m) } }

/-- Steps 1-8 of a substitution and its events. An exam that uses the chosen seat ends (R485). -/
def State.substitute (s : State) (lt test : Nat) : State :=
  let f := ltForm lt
  let old := s.seatOf lt
  let s := s.setSeat old 2 test 0
  match s.nextSubstitute f with
  | some k =>
    let r := STK_SEAT_LT lt
    let s := (s.setF r STK_SEAT_LT_seat k).incF r STK_SEAT_LT_moves 1
    let s := s.showFormStatus f false
    let s := if s.bring.autoSeat = some (18 * f + k) then
        ({ s with bring := { s.bring with autoSeat := none } } : State).setB BRG_EXAM_STATUS BRG_EXAM_STATUS_active
          s.bring.exam.isSome
      else s
    let s := s.stopExam (18 * f + k)
    let s := s.freshTile lt
    let s := s.loseLockers lt true
    let s := if s.flag TRN_AREA TRN_AREA_enable then s.setB (TRN_STATUS_LT lt) TRN_STATUS_LT_area_lost true else s
    let s := (s.setEvacPending lt true).writeCarry
    let s := s.logAppend logSUBSTITUTION 0xFF 0 0 [old, 18 * f + k, s.spares f, 0]
    let s := s.raise evSubstitution (s.partOfLt lt) 1 lt old (18 * f + k) (s.spares f) 0
    if s.spares f = 0 then s.raise evFormShort (s.partOfLt lt) 5 f 0 0 0 0 else s
  | none =>
    let s := (s.putSeat lt 31).showFormStatus f false
    let s := s.writeCarry
    let s := s.logAppend logSUBSTITUTION 0xFF 0 0 [old, 0xFFFF, 0, 0]
    s.raise evSubstitution (s.partOfLt lt) 1 lt old 0xFFFF 0 0

/-- A substitution that is due completes. -/
def State.substitutionDone (s : State) (lt : Nat) : State :=
  match s.bring.substs.find? (fun x => x.lt == lt) with
  | some x =>
    let s := { s with bring := { s.bring with substs := s.bring.substs.filter (fun y => y.lt != lt) } }
    s.substitute lt x.test
  | none => s

/-- Several tiles of one form that failed are substituted in ascending logical number (R489), each from its bell on (R487). -/
def State.firstDue (s : State) (lt : Nat) : Bool :=
  s.bring.substs.all (fun x => x.lt / 16 != lt / 16 || decide (lt ≤ x.lt)) &&
  s.bring.substs.all (fun x => x.lt != lt || decide (x.bell ≤ s.bellCount))

/-- SUBSTITUTION_COMPLETE for a tile whose failure has been declared; while the course of its partition has not reached the
next bell the tile waits (R487). -/
def execSubstitutionComplete (lt : Nat) (s : State) : Host.Outcome State Fault Refusal :=
  live s (if s.firstDue lt then s.substitutionDone lt else s)

/-- No heartbeat from the tile for four periods of 64 bells (R486). -/
def execHeartbeatTimeout (lt : Nat) (s : State) : Host.Outcome State Fault Refusal :=
  live s (if s.present lt then s.tileFailure lt 0 else s)

/-- Uncorrectable errors that count for R486: tile-buffer bytes, accumulator entries, local-memory words. -/
def State.tileErrors (s : State) (lt : Nat) : Nat :=
  s.getF (TB_ERRORS_LT lt) TB_ERRORS_LT_byte_uncorrected + s.getF (MXE_ERRORS_LT lt) MXE_ERRORS_LT_acc_uncorrected +
  (List.range 64).foldl (fun n c => n + s.getF (GC_ERRORS (64 * lt + c)) GC_ERRORS_lm_uncorrected) 0

/-- The errors of a tile since the window of 1,024 bells began reach BRG_SUB_CTRL.threshold; a window that has passed, or a
count that has been cleared, starts again. -/
def State.errorsThreshold (s : State) (lt : Nat) : State :=
  let t := s.tile lt
  let n := s.tileErrors lt
  let th := s.getF BRG_SUB_CTRL BRG_SUB_CTRL_threshold
  if !s.present lt then s
  else if th ≠ 0 && th ≤ n - t.errBase && s.bellCount < t.errBell + 1024 then s.tileFailure lt 0
  else if t.errBell + 1024 ≤ s.bellCount || n < t.errBase then
    s.modTile lt (fun t => { t with errBase := n, errBell := s.bellCount })
  else s

def execErrorsThreshold (lt : Nat) (s : State) : Host.Outcome State Fault Refusal := live s (s.errorsThreshold lt)

end Sys2Proof.Machine
end

