-- ==== Sys2Proof/Machine/Courses.lean ====
section
/-! DEFINITION. Starting, resuming, ending and unloading a course, rosters, STOP, halt notices and quiescence (02 R73-R83,
14 R387-R391). -/

namespace Sys2Proof.Machine

/-! Halt notices (04 R140, 05 R172, 06 R202, 10 R298, 09 R277, 12 R349). -/

/-- A halt of the partition has been named or has happened. -/
def State.haltingPart (s : State) (p : Nat) : Bool := s.courseState p == csHalting || s.courseState p == csHalted

/-- MOV_STATUS of a channel that a course halt stops. -/
def State.haltChan (s : State) (lt c : Nat) : State :=
  let ch := s.chan (8 * lt + c)
  let r := MOV_STATUS_LT lt c
  if ch.ind.isSome || ch.copy.isSome then
    ((s.modChan (8 * lt + c) (fun ch => { ch with copy := none, ind := none })).setF r MOV_STATUS_LT_status 0x01).setB r
      MOV_STATUS_LT_busy false
  else s

/-- A core completes the instruction it is executing and issues no more. -/
def State.haltCore (s : State) (g : Nat) : State :=
  (s.modCore g (fun c => { c with waitc := none })).setB (GC_STATUS g) GC_STATUS_halted true

/-- The halt notice reaches a tile: its MXE, VE, cores, channels and translation unit quiesce. -/
def State.haltTile (s : State) (lt : Nat) : State :=
  let s := s.stopEngines lt
  let s := forEach (List.range 64) s (fun s c => s.haltCore (64 * lt + c))
  let s := forEach (List.range 8) s (fun s c => s.haltChan lt c)
  s.setB (TRN_STATUS_LT lt) TRN_STATUS_LT_busy false

def execHaltNoticeTile (lt : Nat) (s : State) : Host.Outcome State Fault Refusal :=
  live s (if s.present lt && s.haltingPart (s.partOfLt lt) then s.haltTile lt else s)

/-- Lockers of an NBU sequence entry: the first, and how many (09 R268). -/
def sqFirst (e : Nat) : Nat := bitsAt e 32 14
def sqLockers (e : Nat) : Nat := bitsAt e 46 14 + 1

/-- Compute tokens held by the sequences of every layer (09 R264). -/
def State.tokensHeld (s : State) : Nat :=
  (List.range 4).foldl (fun n l => (s.layer l).seqs.foldl (fun n q => n + q.tokens) n) 0

/-- NBU_LAYER and NBU_TOKENS follow the sequences that run. -/
def State.showSeqs (s : State) (l : Nat) : State :=
  let r := NBU_LAYER l
  let run := (s.layer l).seqs
  let s := (s.setB r NBU_LAYER_seq_active (run.any (fun q => some (q.part, q.idx) == (s.layer l).last))).setF r NBU_LAYER_active
    (run.foldl (fun n q => n + q.tokens) 0)
  let s := s.setF NBU_TOKENS NBU_TOKENS_in_use s.tokensHeld
  s.setF NBU_TOKENS NBU_TOKENS_peak (max (s.getF NBU_TOKENS NBU_TOKENS_peak) s.tokensHeld)

/-- Tiles above the lockers of a sequence entry. -/
def sqTiles (e : Nat) : List Nat :=
  (List.range 256).filter (fun lt => decide (sqFirst e < 64 * lt + 64) && decide (64 * lt < sqFirst e + sqLockers e))

/-- NBU_STATUS_LT.busy of some tiles follows the sequences that run on a layer (09 R280). -/
def State.showBusy (s : State) (l : Nat) (tiles : List Nat) : State :=
  let held := (s.layer l).seqs.flatMap (fun q => sqTiles q.entry)
  forEach tiles s (fun s lt =>
    let v := s.getF (NBU_STATUS_LT lt) NBU_STATUS_LT_busy
    s.setF (NBU_STATUS_LT lt) NBU_STATUS_LT_busy (if held.contains lt then withBit v l else withoutBit v l))

/-- Sequences of a layer end, their rows close and their tokens are free. -/
def State.dropSeqs (s : State) (l : Nat) (gone : SeqRun → Bool) : State :=
  let tiles := ((s.layer l).seqs.filter gone).flatMap (fun q => sqTiles q.entry)
  let s := s.modLayer l (fun y => { y with seqs := y.seqs.filter (fun q => !gone q) })
  (s.showSeqs l).showBusy l tiles.eraseDups

/-- Every NBU that works for partition p on a layer ends after its current transfer and closes its rows. -/
def State.haltLayer (s : State) (l p : Nat) : State :=
  let s := s.modLayer l (fun y => { y with halted := p :: y.halted.filter (fun q => q != p) })
  (s.setB (NBU_LAYER l) NBU_LAYER_halted true).dropSeqs l (fun q => q.part == p)

/-- A halt notice reaches a memory-layer controller. -/
def execHaltNoticeLayer (l : Nat) (s : State) : Host.Outcome State Fault Refusal :=
  live s (if l < 4 then forEach ((List.range 4).filter s.haltingPart) s (fun s p => s.haltLayer l p) else s)

/-- A halt notice reaches a port: no further frame starts, no received frame is written. -/
def execHaltNoticePort (port : Nat) (s : State) : Host.Outcome State Fault Refusal :=
  live s (if port < 6 && s.haltingPart (s.partOfPort port) then s.modPort port (fun t => { t with quiesced := true }) else s)

/-! STOP and its reports (14 R389-R391). -/

/-- Units of a partition that report quiescence: present tiles, layer controllers, ports, by control node (07 R230). -/
def State.reportNodes (s : State) (p : Nat) : List Nat :=
  s.tilesOf p ++ (List.range 4).map (0x100 + ·) ++
  ((List.range 6).filter (fun q => s.partOfPort q == p)).map (0x188 + ·)

/-- A COURSE_START or COURSE_RESUME that waits for its commit point. -/
def State.pendingStart (s : State) (p : Nat) : Option Cmd :=
  s.cmds.find? (fun c => (c.pkt.opcode == opCOURSE_START || c.pkt.opcode == opCOURSE_RESUME) && c.part == p &&
    c.phase == .active)

/-- Every COURSE_START or COURSE_RESUME of a partition that has not reached its commit point, taken up or not (R389). -/
def State.startsWaiting (s : State) (p : Nat) : List Cmd :=
  s.cmds.filter (fun c => (c.pkt.opcode == opCOURSE_START || c.pkt.opcode == opCOURSE_RESUME) && c.part == p &&
    c.phase != .committed)

def State.stopPart (s : State) (p : Nat) : State :=
  (forEach (s.startsWaiting p) s (fun s c => s.fail c stABORTED)).declareHalt p hcStop

/-- STOP is decoded: the named partitions' running courses halt; tiles are told at once. -/
def State.stopCmd (s : State) (c : Cmd) : State :=
  let mask := if c.pkt.p0 = 0 then 15 else c.pkt.p0
  let parts := (List.range s.partCount).filter (bitSet mask)
  let live := parts.filter (fun p => s.courseRunning p || s.courseState p == csStarting)
  let s := forEach parts s State.stopPart
  let s := forEach live s (fun s p => s.sendCnet (cnetMsg 9 0 0x180 p true true))
  let nodes := (live.flatMap s.reportNodes).eraseDups
  let last := (live.map (fun p => s.pair (BELL_CRS_HALT_LO p))).foldl max 0
  let s := { s with stop := if nodes = [] then none else some { awaited := nodes, named := false } }
  let s := ((s.setF CMD_STOP_STATUS CMD_STOP_STATUS_reported 0).setF CMD_STOP_STATUS CMD_STOP_STATUS_expected nodes.length)
  s.putCmd c { c with phase := .committed, data := [last] }

def execCmdStop (tag : Nat) (s : State) : Host.Outcome State Fault Refusal :=
  live s (s.onCmd 255 tag opSTOP State.stopCmd)

/-- The STOP bound has elapsed: the record is formed and sent (13 R370). -/
def execStopBoundElapsed (tag : Nat) (s : State) : Host.Outcome State Fault Refusal :=
  live s (s.onActive 255 tag opSTOP (fun s c => if c.phase = .committed then s.ok c (c.data.headD 0) else s))

/-- The units still awaited after a report. -/
def State.setAwaited (s : State) (t : StopSt) (rest : List Nat) : State :=
  { s with stop := if rest = [] then none else some { t with awaited := rest } }

/-- A QUIESCE message arrives from a control node; a tile has then completed what its engines had issued. -/
def State.quiesce (s : State) (node : Nat) : State :=
  let s := if node < 256 && (s.tile node).halted then s.engines node 4096 else s
  match s.stop with
  | some t =>
    if t.awaited.contains node then
      (s.incF CMD_STOP_STATUS CMD_STOP_STATUS_reported 1).setAwaited t (t.awaited.filter (fun n => n != node))
    else s
  | none => s

def execQuiesceReport (node : Nat) (s : State) : Host.Outcome State Fault Refusal := live s (s.quiesce node)

/-- 10 µs after a STOP the units that have not reported are named, once; their later reports still count. -/
def State.stopTimeout (s : State) : State :=
  match s.stop with
  | some t =>
    if t.named then s
    else
      let s := ({ s with stop := some { t with named := true } }).setB CMD_STOP_STATUS CMD_STOP_STATUS_incomplete true
      s.raise evStopIncomplete 255 0 0 t.awaited.length (t.awaited.headD 0) 0 0
  | none => s

def execStopReportTimeout (s : State) : Host.Outcome State Fault Refusal := live s s.stopTimeout

/-! Placing programs (02 R81, 06 R186, 08 R254). -/

/-- Write bytes of a program into the bank a tile does not run. -/
def TileSt.putInactive (t : TileSt) (b : List Byte) : TileSt :=
  if t.armedBank = 0 then { t with bank1 := b } else { t with bank0 := b }

/-- Stage a lesson whole: tile programs into the inactive banks, layer and port programs into their controllers. -/
def State.stageLesson (s : State) (p lesson : Nat) : State :=
  let m := s.courseImage p
  let s := forEach (s.tilesOf p) s (fun s lt => s.modTile lt (TileSt.putInactive · (programOf m lesson lt)))
  let s := forEach (List.range 4) s (fun s l => s.modLayer l (fun y => { y with progNext := tput y.progNext p (programOf m lesson (256 + l)) }))
  forEach ((List.range 6).filter (fun q => s.partOfPort q == p)) s (fun s q =>
    s.modPort q (fun t => { t with progNext := programOf m lesson (260 + q) }))

/-- Program share of one service slot: what lesson bells 0 to j have brought of the next lesson (06 R186, 08 R254). -/
def State.prefetch (s : State) (p : Nat) : State :=
  let c := s.crsOf p
  if !s.working p then s
  else match nextPos c c.lesson c.iter with
    | none => s
    | some (l, _) =>
      let m := c.image
      let j := c.lessonBell + 1
      let s := forEach (s.tilesOf p) s (fun s lt =>
        s.modTile lt (TileSt.putInactive · ((programOf m l lt).take (8192 * j))))
      let s := forEach (List.range 4) s (fun s y =>
        s.modLayer y (fun v => { v with progNext := tput v.progNext p ((programOf m l (256 + y)).take (2048 * j)) }))
      forEach ((List.range 6).filter (fun q => s.partOfPort q == p)) s (fun s q =>
        s.modPort q (fun t => { t with progNext := programOf m l (260 + q) }))

/-! COURSE_START and COURSE_RESUME (02 R81, R82, 14 R388, 20 R492, R494, 21 R511). -/

/-- A tile of the partition has an evacuation pending or running (20 R492). -/
def State.evacBusy (s : State) (p : Nat) : Bool :=
  (List.range 256).any (fun lt => s.partOfLt lt == p && s.evacPending lt) ||
  (match s.bring.evac with
   | some e => s.partOfLt e.lt == p
   | none => false)

/-- lt_required names an unseated tile (20 R494). -/
def State.lacksTile (s : State) (p : Nat) : Bool :=
  (List.range 256).any (fun lt => bitSet (hdRequired (s.courseImage p)) lt && !s.present lt)

def State.inStep (s : State) : Bool := s.flag BELL_SYNC BELL_SYNC_joined && !s.flag BELL_SYNC BELL_SYNC_out_of_step

/-- The checks COURSE_START and COURSE_RESUME share, after their own on the state. -/
def State.startFails (s : State) (p b : Nat) : Option Nat :=
  if s.flag SEC_SET SEC_SET_pending then some stDEVICE_STATE
  else if (s.pendingStart p).isSome || s.evacBusy p then some stCOURSE_STATE
  else if !s.inStep then some stNOT_IN_STEP
  else if b ≤ s.bellCount + 1 then some stSTART_TOO_LATE
  else none

/-- The start waits for its commit point; the programs of its first lesson must be staged where they are not in place. -/
def State.armStart (s : State) (c : Cmd) (inPlace resuming : Bool) : State :=
  (s.modCrs c.part (fun k => { k with
    startBell := c.pkt.p0, startRing := c.ring, startTag := c.pkt.tag, resuming := resuming, startCommitted := false,
    staged := inPlace })).putCmd c { c with phase := .active }

def State.courseStart (s : State) (c : Cmd) : State :=
  let st := s.courseState c.part
  if st = csNone then s.fail c stNO_COURSE
  else if !(st = csLoaded || st = csDone) then s.fail c stCOURSE_STATE
  else match s.startFails c.part c.pkt.p0 with
    | some e => s.fail c e
    | none => s.armStart c (st == csLoaded && (s.crsOf c.part).staged) false

def execCmdCourseStart (ring tag : Nat) (s : State) : Host.Outcome State Fault Refusal :=
  live s (s.onCmd ring tag opCOURSE_START State.courseStart)

def State.courseResume (s : State) (c : Cmd) : State :=
  let st := s.courseState c.part
  if st = csNone then s.fail c stNO_COURSE
  else if st ≠ csHalted then s.fail c stCOURSE_STATE
  else if (s.crsOf c.part).resumeAt = none then s.fail c stNO_CHECKPOINT
  else if s.lacksTile c.part then s.fail c stCOURSE_STATE
  else match s.startFails c.part c.pkt.p0 with
    | some e => s.fail c e
    | none => s.armStart c false true

def execCmdCourseResume (ring tag : Nat) (s : State) : Host.Outcome State Fault Refusal :=
  live s (s.onCmd ring tag opCOURSE_RESUME State.courseResume)

/-- Position at which a pending start begins. -/
def Course.startPos (c : Course) : Nat × Nat := if c.resuming then c.resumeAt.getD (0, 0) else (0, 0)

/-- The programs of the first lesson to run are in place again (R81). -/
def State.restage (s : State) (p : Nat) : State :=
  match s.pendingStart p with
  | some _ =>
    if (s.crsOf p).staged then s
    else (s.stageLesson p (s.crsOf p).startPos.1).modCrs p (fun c => { c with staged := true })
  | none => s

def execCourseRestageDone (p : Nat) (s : State) : Host.Outcome State Fault Refusal :=
  live s (if p < 4 then s.restage p else s)

/-- Every clear of a start, and the bookkeeping of the run (R82, R113, R115, R122, R150, R184, R190). -/
def State.startClears (s : State) (p : Nat) : State :=
  let s := forEach (s.tilesOf p) s State.clearEngines
  let s := forEach (List.range 4) s (fun s l => (s.modLayer l (fun y => { y with halted := y.halted.filter (fun q => q != p) })).setB
    (NBU_LAYER l)
    NBU_LAYER_halted ((s.layer l).halted.any (fun q => q != p)))
  let s := forEach ((List.range 6).filter (fun q => s.partOfPort q == p)) s (fun s q =>
    s.modPort q (fun t => { t with quiesced := false, rx := [], votes := [] }))
  s.ariStart p

/-- a0 of bell B - 1: the pending start commits (R82, R388). -/
def State.startCommit (s : State) (p : Nat) (c : Cmd) : State :=
  let k := s.crsOf p
  if s.bellCount + 1 < k.startBell then s
  else if !s.inStep then s.fail c stNOT_IN_STEP
  else if !k.staged || k.startBell < s.bellCount + 1 then s.fail c stSTART_TOO_LATE
  else
    let (l, i) := k.startPos
    let s := s.startClears p
    let cb := if k.resuming then firstBell k l i else 0
    let s := s.modCrs p (fun c => { c with
      lesson := l, iter := i, lessonBell := 0, ran := false, ended := false, startCommitted := true, staged := false
      haltBell := none, stopFrom := none
      endIter := if k.resuming then c.endIter else none
      resumeAt := if k.resuming then c.resumeAt else none })
    let s := (s.setPair (BELL_CRS_BELLS_LO p) cb).setCourseState p csStarting
    let s := s.setB (BELL_CRS_STATE p) BELL_CRS_STATE_halt_late false
    let s := if k.resuming then s else s.setPair (BELL_CRS_CKPT_LO p) 0
    let s := s.dropRosters p (fun r => !r.committed && r.lesson == l && r.iter == i)
    s.ok c k.startBell

def execCourseStartCommit (p : Nat) (s : State) : Host.Outcome State Fault Refusal :=
  live s (match s.pendingStart p with
    | some c => if c.pkt.opcode = opCOURSE_START then s.startCommit p c else s
    | none => s)

def execCourseResumeCommit (p : Nat) (s : State) : Host.Outcome State Fault Refusal :=
  live s (match s.pendingStart p with
    | some c => if c.pkt.opcode = opCOURSE_RESUME then s.startCommit p c else s
    | none => s)

/-! COURSE_END and COURSE_UNLOAD (02 R83, 14 R385). -/

/-- Course bells of partition p begun so far. -/
def State.bellsBegun (s : State) (p : Nat) : Nat := s.pair (BELL_CRS_BELLS_LO p) + boolNat (s.crsOf p).ran

/-- A lesson still lies in the course as it will run. -/
def inRun (c : Course) (lesson iter : Nat) : Bool :=
  let m := c.image
  match loopPasses c with
  | none => decide (lesson ≤ hdLoopLast m)
  | some k =>
    if lesson < hdLoopFirst m then iter == 0
    else if lesson ≤ hdLoopLast m then decide (iter < k) else iter == k - 1

/-- COURSE_END. R83 names no state of the course in which it is accepted; the model accepts it in STARTING and RUNNING, and
answers COURSE_STATE in LOADED, HALTING, HALTED and DONE (DESIGN CHOICE, log entry 38). -/
def State.courseEnd (s : State) (c : Cmd) : State :=
  let p := c.part
  let k := s.crsOf p
  let i := c.pkt.p0 % 2 ^ 32
  let n := hdLoopCount k.image
  if s.courseState p = csNone then s.fail c stNO_COURSE
  else if !(s.courseState p = csStarting || s.courseState p = csRunning) then s.fail c stCOURSE_STATE
  else if n ≠ 0 && n ≤ i then s.ok c 0
  else if firstBell k (hdLoopLast k.image) i < s.bellsBegun p then s.fail c stEND_TOO_LATE
  else
    let s := s.modCrs p (fun k => { k with endIter := some i })
    let k := s.crsOf p
    let s := s.dropRosters p (fun r => !inRun k r.lesson r.iter)
    s.ok c 0

def execCmdCourseEnd (ring tag : Nat) (s : State) : Host.Outcome State Fault Refusal :=
  live s (s.onCmd ring tag opCOURSE_END State.courseEnd)

/-- A field-dead seat that passed its third test while a course was loaded returns at the unload (20 R481). -/
def State.returnSeats (s : State) (p : Nat) : State :=
  forEach (s.formsOf p) s (fun s f =>
    let ready := (List.range 18).filter (fun k => s.seatStatus (18 * f + k) == 2 && bitsAt (s.seatEntry (18 * f + k)) 8 2 == 3)
    if ready = [] then s
    else
      let s := forEach ready s (fun s k => s.setSeat (18 * f + k) 0 0 0)
      (s.showFormStatus f (s.excluded f)).writeCarry)

def State.courseUnload (s : State) (c : Cmd) : State :=
  let p := c.part
  let st := s.courseState p
  if st = csNone then s.fail c stNO_COURSE
  else if st = csStarting || st = csRunning || st = csHalting || (s.pendingStart p).isSome then s.fail c stCOURSE_STATE
  else
    let s := s.dropRosters p (fun _ => true)
    let s := { s with crs := tdel s.crs p }
    let s := s.setCourseState p csNone
    (s.returnSeats p).ok c 0

def execCmdCourseUnload (ring tag : Nat) (s : State) : Host.Outcome State Fault Refusal :=
  live s (s.onCmd ring tag opCOURSE_UNLOAD State.courseUnload)

/-! Rosters (02 R73-R75, 10 R291, R293). -/

/-- The lesson that runs before a lesson and iteration: none before lesson 0 of iteration 0. -/
def prevPos (c : Course) (lesson iter : Nat) : Option (Nat × Nat) :=
  let m := c.image
  if lesson = 0 && iter = 0 then none
  else if lesson = hdLoopFirst m && 0 < iter then some (hdLoopLast m, iter - 1)
  else some (lesson - 1, iter)

/-- The deadline of a roster has passed (R73): a0 of the first bell of the lesson before it, the start's commit point for
lesson 0. A course that is loaded or DONE has passed none: its next start begins at lesson 0 (DEDUCED, log entry 38). A halted
one has passed those up to its halt. -/
def State.rosterLate (s : State) (p lesson iter : Nat) : Bool :=
  let st := s.courseState p
  let c := s.crsOf p
  if st = csLoaded || st = csDone then false
  else match prevPos c lesson iter with
    | none => true
    | some (l, i) => decide (firstBell c l i < s.bellsBegun p)

/-- Layout rules of a roster (R75) and of its sequence numbers (10 R293). -/
def rosterGood (m d : List Byte) (lesson : Nat) : Bool :=
  let n := leAt d 0x10 4
  leAt d 0 8 == hdCourseId m && decide (n ≤ lsCapacity m lesson) && leAt d 0x14 12 == 0 &&
  (List.range n).all (fun i =>
    let e := 0x20 + 16 * i
    leAt d e 4 < 4096 && 1 ≤ leAt d (e + 8) 2 && leAt d (e + 8) 2 ≤ 4096 && leAt d (e + 10) 2 < 2 && leAt d (e + 12) 4 == 0 &&
    !((List.range i).any (fun j => leAt d (0x20 + 16 * j) 4 == leAt d e 4)))

/-- A command that completes ROSTER_LATE is counted (R85). -/
def State.failLate (s : State) (c : Cmd) : State :=
  (s.incF (BELL_CRS_STATE c.part) BELL_CRS_STATE_roster_late 1).fail c stROSTER_LATE

/-- ROSTER_COMMIT: the roster read at its acceptance is checked, and its copy into the slot begins. -/
def State.rosterCommit (s : State) (c : Cmd) : State :=
  let p := c.part
  let (d, st) := c.object
  if st ≠ 0 then s.fail c st
  else if s.courseState p = csNone then s.fail c stNO_COURSE
  else
    let k := s.crsOf p
    match rosterLesson k c.pkt.p1 with
    | none => s.failAt c stROSTER_FORMAT 1 0
    | some (l, i) =>
      if leAt d 8 8 ≠ c.pkt.p1 then s.failAt c stROSTER_FORMAT 1 0
      else if s.rosterLate p l i then s.failLate c
      else if !rosterGood k.image d l then s.fail c stROSTER_FORMAT
      else
        let r : Roster := { lesson := l, iter := i, courseBell := c.pkt.p1, data := d, committed := false,
                            ring := c.ring, tag := c.pkt.tag }
        (s.modCrs p (fun k => { k with rosters := k.rosters ++ [r] })).putCmd c { c with phase := .active }

def execCmdRosterCommit (ring tag : Nat) (s : State) : Host.Outcome State Fault Refusal :=
  live s (s.onCmd ring tag opROSTER_COMMIT State.rosterCommit)

/-- The roster a ROSTER_COMMIT brought and that is not committed. -/
def State.rosterOf (s : State) (c : Cmd) : Option Roster :=
  (s.crsOf c.part).rosters.find? (fun r => r.ring == c.ring && r.tag == c.pkt.tag && !r.committed)

/-- The copy into the slot is complete: the commit point, or ROSTER_LATE where the deadline has passed. -/
def State.rosterDone (s : State) (c : Cmd) : State :=
  match s.rosterOf c with
  | none => s
  | some r =>
    let p := c.part
    if s.rosterLate p r.lesson r.iter then s.dropRosters p (fun x => x == r)
    else
      let same := fun (x : Roster) => x.lesson == r.lesson && x.iter == r.iter && x.committed
      let replaced := (s.crsOf p).rosters.any same
      let s := s.modCrs p (fun k => { k with
        rosters := (k.rosters.filter (fun x => !same x)).map (fun x => if x = r then { r with committed := true } else x) })
      s.finish c (if replaced then stROSTER_REPLACED else stOK) true 0 0

def execRosterCopyComplete (ring tag : Nat) (s : State) : Host.Outcome State Fault Refusal :=
  live s (s.onActive ring tag opROSTER_COMMIT State.rosterDone)

/-- The deadline comes first: ROSTER_LATE, and the lesson runs with an empty roster. -/
def State.rosterDeadline (s : State) (c : Cmd) : State :=
  match s.rosterOf c with
  | none => s
  | some r => if s.rosterLate c.part r.lesson r.iter then s.dropRosters c.part (fun x => x == r) else s

def execRosterDeadline (ring tag : Nat) (s : State) : Host.Outcome State Fault Refusal :=
  live s (s.onActive ring tag opROSTER_COMMIT State.rosterDeadline)

/-- The bytes the device writes for the roster of a lesson (06 R187): header and roster_capacity entries; an absent roster
has count 0. -/
def rosterImage (c : Course) (lesson iter : Nat) : List Byte :=
  let m := c.image
  let n := 32 + 16 * lsCapacity m lesson
  match c.rosters.find? (fun r => r.committed && r.lesson == lesson && r.iter == iter) with
  | some r => bytesFrom r.data 0 n
  | none => leBytes 8 (hdCourseId m) ++ leBytes 8 (firstBell c lesson iter) ++ zeros (n - 16)

/-- From roster_cycle of the lesson's first bell the following lesson's roster is written into the tile buffer, through
the service port, which sets FULL (07 R205, R213). -/
def State.rosterWrite (s : State) (lt : Nat) : State :=
  let p := s.partOfLt lt
  let c := s.crsOf p
  let t := armedProgram (s.tile lt)
  if s.present lt && s.working p && c.lessonBell = 0 && tpRosterValid t then
    match nextPos c c.lesson c.iter with
    | some (l, i) =>
      let a := tpRosterAddr t
      let d := rosterImage c l i
      { s with cyc := tpRosterCycle t, mem := forEach (sliceSpans a d.length) s.mem (fun m x =>
          s.tbOutside lt (a + x.1) ((d.drop x.1).take x.2) [] 1 m) }
    | none => s
  else s

def execRosterTileWrite (lt : Nat) (s : State) : Host.Outcome State Fault Refusal := live s (s.rosterWrite lt)

end Sys2Proof.Machine
end

