-- ==== Sys2Proof/Machine/Power.lean ====
section
/-! DEFINITION. Power delivery and energy: phases and ceilings, the VCMP setpoint, cracked connections, isolation, gating
steps, energy accounts, the module cap and the budgets (15 R405-R412, 18). -/

namespace Sys2Proof.Machine

/-! Input and shutdown (R437, R438, R442). -/

/-- Clocks stop at one root edge, the domains are removed, PGOOD_N is released; the cause is kept in the VPM's status
store. -/
def State.shutdown (s : State) (cause region value : Nat) : State :=
  { s with
    power := { s.power with phase := .off, pgoodLow := false }
    stored := some { cause := cause, region := region, value := value } }

/-- The input has stayed at or above 40.0 V for 10 ms; volts in units of 10 mV. -/
def State.inputValid (s : State) (volts : Nat) : State :=
  if s.power.phase = .off && 4000 ≤ volts then
    ({ s with power := { s.power with phase := .rising } }).setF PWR_INPUT PWR_INPUT_volts volts
  else s

def execInputValid (volts : Nat) (s : State) : Host.Outcome State Fault Refusal := .next (s.inputValid volts)

/-- The input stays below 38.0 V, for ms milliseconds: a module that runs shuts down; one that a trip has latched may start
again once it has lasted 100 ms (19 R461). -/
def execInputLowShutdown (value ms : Nat) (s : State) : Host.Outcome State Fault Refusal :=
  if s.power.phase = .latched && 100 ≤ ms then .next { s with power := { s.power with phase := .off } }
  else live s (s.shutdown 1 0 value)

def execInputHighShutdown (value : Nat) (s : State) : Host.Outcome State Fault Refusal :=
  live s (s.shutdown 2 0 value)

def execVcmpOvercurrentShutdown (value : Nat) (s : State) : Host.Outcome State Fault Refusal :=
  live s (s.shutdown 3 0 value)

def execDomainSagShutdown (value : Nat) (s : State) : Host.Outcome State Fault Refusal :=
  live s (s.shutdown 4 0 value)

/-! Phases (R439-R441). -/

def State.setpoint (s : State) : Nat := s.getF PWR_VCMP PWR_VCMP_setpoint_mv

/-- Supply domain of a phase, and how many phases the domain has. -/
def phaseDomain (ph : Nat) : Nat :=
  if ph < 288 then 0 else if ph < 304 then 1 else if ph < 336 then 2 else if ph < 340 then 3 else if ph < 364 then 4 else 5

def domainPhases (d : Nat) : Nat := [288, 16, 32, 4, 24, 12].getD d 0

/-- Design current in A and nominal setpoint in mV of a domain. -/
def domainAmps (d : Nat) : Nat := [2500, 120, 320, 20, 240, 160].getD d 0
def domainMv (d : Nat) : Nat := [720, 1100, 750, 1800, 750, 900].getD d 0

/-- Ceiling of a form in W: 12 A for each good phase at the VCMP setpoint. -/
def formCeiling (good mv : Nat) : Nat := 12 * good * mv / 1000

/-- Ceiling of a domain other than VCMP in W: the ratings of its good phases; a VOPT phase is rated for a whole port. -/
def domainCeiling (d good : Nat) : Nat :=
  if d = 5 then good * domainAmps 5 * domainMv 5 / 6000
  else good * domainAmps d * domainMv d / (1000 * (domainPhases d - 1))

def State.phaseFailed (s : State) (ph : Nat) : Bool := s.flag (PWR_PHASE_FAIL (ph / 32)) ⟨ph % 32, 1⟩

/-- The ceiling of a form follows its phases and the setpoint. -/
def State.showCeiling (s : State) (f : Nat) : State :=
  s.setF (PWR_FORM f) PWR_FORM_ceiling_w (formCeiling (s.getF (PWR_FORM f) PWR_FORM_phases_good) s.setpoint)

/-- A phase is disabled until power is cycled. -/
def State.phaseFault (s : State) (ph : Nat) : State :=
  if 376 ≤ ph || s.phaseFailed ph then s
  else
    let s := s.setB (PWR_PHASE_FAIL (ph / 32)) ⟨ph % 32, 1⟩ true
    let d := phaseDomain ph
    let s := s.setF (PWR_DOMAIN d) PWR_DOMAIN_phases_good (s.getF (PWR_DOMAIN d) PWR_DOMAIN_phases_good - 1)
    let c := s.bring.carry
    let s := { s with bring := { s.bring with carry := { c with phases := c.phases ++ [ph] } } }
    let s := s.writeCarry
    if d = 0 then
      let f := ph / 18
      let s := s.setF (PWR_FORM f) PWR_FORM_phases_good (s.getF (PWR_FORM f) PWR_FORM_phases_good - 1)
      let s := s.showCeiling f
      s.raise evPhaseLoss 255 9 ph f (s.getF (PWR_FORM f) PWR_FORM_ceiling_w) 0 0
    else s.raise evPhaseLoss 255 9 ph (16 + d) (domainCeiling d (s.getF (PWR_DOMAIN d) PWR_DOMAIN_phases_good)) 0 0

def execPhaseFault (phase : Nat) (s : State) : Host.Outcome State Fault Refusal := live s (s.phaseFault phase)

/-! Isolation (R445, R446). -/

def State.isolate (s : State) (f amps : Nat) : State :=
  if 16 ≤ f || s.isolated f then s
  else
    let s := (s.setB (STK_FORM_STATUS f) STK_FORM_STATUS_isolated true).setB (PWR_FORM f) PWR_FORM_isolated true
    let s := s.declareHalt (s.partOfForm f) hcIsolation
    s.raise evIsolationOpen (s.partOfForm f) 5 f amps 0 0 0

def execIsolationSwitchOpen (form amps : Nat) (s : State) : Host.Outcome State Fault Refusal := live s (s.isolate form amps)

/-! Setpoint (R443). -/

def State.setSetpoint (s : State) (mv : Nat) : State :=
  forEach (List.range 16) (s.setF PWR_VCMP PWR_VCMP_setpoint_mv mv) State.showCeiling

/-- At a bell boundary: 5 mV up after a warn report, 5 mV down after 4,096 bells without one. -/
def State.setpointStep (s : State) : State :=
  let p := s.power
  if p.warnSeen then
    ({ s with power := { p with warnSeen := false, quiet := 0 } }).setSetpoint (min 800 (s.setpoint + 5))
  else if 4096 ≤ p.quiet + 1 then
    ({ s with power := { p with quiet := 0 } }).setSetpoint (max (s.getF PWR_VCMP PWR_VCMP_fused_mv) (s.setpoint - 5))
  else { s with power := { p with quiet := p.quiet + 1 } }

def execVcmpSetpointStep (s : State) : Host.Outcome State Fault Refusal := live s s.setpointStep

/-! Cracked connections (R444). -/

/-- One comparison of a form: mean sensed voltage in mV, phase current in A. The model voltage is V_set - R_f I_f, R_f in
µΩ. -/
def State.crackCompare (s : State) (f mv amps : Nat) : State :=
  if 16 ≤ f then s
  else
    let drop := tgetD s.bring.carry.rf f 0 * amps
    let above := decide (1000 * (mv + s.getF PWR_CRACK_CTRL PWR_CRACK_CTRL_threshold) + drop < 1000 * s.setpoint)
    let s := s.setF (PWR_FORM f) PWR_FORM_sensed_mv mv
    let n := if above then min 16 (tgetD s.power.excess f 0 + 1) else 0
    let s := { s with power := { s.power with excess := tput s.power.excess f n } }
    if n = 16 && !s.flag (PWR_FORM f) PWR_FORM_crack_suspect then
      (s.setB (PWR_FORM f) PWR_FORM_crack_suspect true).raise evCrackSuspect (s.partOfForm f) 5 f mv
        ((1000 * s.setpoint - drop) / 1000) 0 0
    else s

def execCrackCompare (form mv amps : Nat) (s : State) : Host.Outcome State Fault Refusal :=
  live s (s.crackCompare form mv amps)

/-! Gating steps (R447, R448). -/

/-- Forms the next lesson of partition p uses: those of lesson 0 before a start, of the following lesson in a lesson's last
bell. -/
def State.nextForms (s : State) (p : Nat) : Nat :=
  let c := s.crsOf p
  if s.courseState p = csStarting && s.bellCount + 1 = c.startBell then lsForms c.image c.lesson
  else if s.working p && lsBells c.image c.lesson ≤ c.lessonBell + 1 then
    match nextPos c c.lesson c.iter with
    | some (l, _) => lsForms c.image l
    | none => 0
  else if s.working p then lsForms c.image c.lesson
  else if s.courseRunning p && !c.ended then lsForms c.image c.lesson
  else 0

/-- Ungating step k of a form: the units of that step run again. -/
def State.ungateForm (s : State) (k f : Nat) : State :=
  let t := 16 * f
  if (s.tile t).ungated = k then
    let s := forEach (List.range 16) s (fun s i => s.modTile (t + i) (fun x => { x with ungated := k + 1 }))
    s.setB (PWR_FORM f) PWR_FORM_gated false
  else s

/-- Step k of the ungating of the forms partition p uses next, at a3968 + 8k. -/
def State.ungateStep (s : State) (p k : Nat) : State :=
  if k < 8 then
    let s := { s with cyc := 3968 + 8 * k }
    forEach ((s.formsOf p).filter (bitSet (s.nextForms p))) s (fun s f => s.ungateForm k f)
  else s

def execFormUngateStep (p k : Nat) (s : State) : Host.Outcome State Fault Refusal := live s (s.ungateStep p k)

/-- Gating step k of a form undoes ungating step 7 - k. -/
def State.gateForm (s : State) (k f : Nat) : State :=
  let t := 16 * f
  if (s.tile t).ungated = 8 - k then
    let s := forEach (List.range 16) s (fun s i => s.modTile (t + i) (fun x => { x with ungated := 7 - k }))
    if k = 7 then s.setB (PWR_FORM f) PWR_FORM_gated true else s
  else s

/-- Step k of the gating of partition p's forms in the slack of a lesson's last bell, where the slack is at least 128
cycles. -/
def State.gateStep (s : State) (p k : Nat) : State :=
  let c := s.crsOf p
  let last := lsLast c.image c.lesson
  if k < 8 && s.working p && lsBells c.image c.lesson ≤ c.lessonBell + 1 && 128 ≤ 3775 - last then
    forEach (s.formsOf p) { s with cyc := last + 1 + 8 * k } (fun s f => s.gateForm k f)
  else s

def execFormGateStep (p k : Nat) (s : State) : Host.Outcome State Fault Refusal := live s (s.gateStep p k)

/-! Energy (15 R409-R411). -/

def sumList (l : List Nat) : Nat := l.foldl (· + ·) 0

/-- Energy that falls to partition p alone, of those in force at the bell: its forms, the memory beneath its fields, its ports. -/
def BellPast.ownEnergy (b : BellPast) (e : BellEnergy) (p : Nat) : Nat :=
  sumList (((List.range 16).filter (fun f => tgetD b.fields (f / 4) 0 == p)).map (fun f => e.forms.getD f 0)) +
  sumList (((List.range 4).filter (fun f => tgetD b.fields f 0 == p)).map (fun f => e.vmem.getD f 0)) +
  sumList (((List.range 6).filter (fun q => tgetD b.ports q 0 == p)).map (fun q => e.ports.getD q 0))

/-- Number of fields that partition p owned at the bell. -/
def BellPast.fieldCount (b : BellPast) (p : Nat) : Nat := ((List.range 4).filter (fun f => tgetD b.fields f 0 == p)).length

/-- Partition p's energy of the bell in quarters of a µJ, its carried remainder included: its own energy, and its fields'
share of the rest (R410). -/
def State.partQuarters (s : State) (e : BellEnergy) (p : Nat) : Nat :=
  let b := s.energy.past
  let own := sumList ((List.range 4).map (b.ownEnergy e))
  (4 * (b.ownEnergy e p : Int) + ((e.module : Int) - own) * b.fieldCount p + tgetD s.energy.carry p 0).toNat

/-- Add to an energy counter: 64 bits, wraps (R405). -/
def addEnergy (t : Tbl Nat) (k v : Nat) : Tbl Nat := tset t k ((tgetD t k 0 + v) % 2 ^ 64) 0

/-- The rings of partition p that moved bytes in the bell, with their bytes. -/
def State.movers (s : State) (p : Nat) : List (Nat × Nat) :=
  s.energy.past.moved.filter (fun x => tgetD s.energy.past.rings x.1 0 == p && 0 < x.2)

/-- Divide e among rings in proportion to the bytes each moved. -/
def shareEnergy (rings : Tbl Nat) (l : List (Nat × Nat)) (e : Nat) : Tbl Nat :=
  let total := sumList (l.map (·.2))
  if total = 0 then rings else l.foldl (fun t x => addEnergy t x.1 (e * x.2 / total)) rings

/-- Energy of partition p to its rings (R411): service energy to the rings that moved bytes, the rest of a course's bell to
the ring that started it. -/
def State.ringEnergy (s : State) (p e service : Nat) : Tbl Nat :=
  match tfind s.energy.past.starters p with
  | some r =>
    let sv := if s.movers p = [] then 0 else min e service
    shareEnergy (addEnergy s.energy.rings r (e - sv)) (s.movers p) sv
  | none => shareEnergy s.energy.rings (s.movers p) e

/-- Power in W of an energy in µJ over n bells of 4,096 cycles at 1.4 GHz. -/
def wattsOf (e n : Nat) : Nat := e * 1400 / (4096 * n)

/-- The correction c of R451 in 1/1,024: the largest ratio of measured power to allotment, at least 1. -/
def correctionOf (h : List (Nat × Nat)) : Nat :=
  min 0xFFF (h.foldl (fun m x => if x.2 = 0 then m else max m (x.1 * 3500 / x.2)) 1024)

/-- One partition's account of the bell. -/
def State.partEnergy (s : State) (e : BellEnergy) (p : Nat) : State :=
  let q := s.partQuarters e p
  let h := ((q / 4, tgetD s.energy.past.allots p 0) :: tgetD s.power.hist p []).take 1024
  let s := { s with
    energy := { s.energy with
      parts := addEnergy s.energy.parts p (q / 4)
      carry := tset s.energy.carry p (q % 4) 0
      rings := s.ringEnergy p (q / 4) (e.service.getD p 0) }
    power := { s.power with hist := tput s.power.hist p h } }
  let s := s.setF (PWR_PART p) PWR_PART_avg_w (min 65535 (wattsOf (sumList (h.map (·.1))) h.length))
  s.setF (PWR_ALLOT p) PWR_ALLOT_correction (correctionOf h)

/-- a0: the energy of the bell that has ended is added to the module, partition and ring counters. -/
def State.addBell (s : State) (e : BellEnergy) : State :=
  let s := { s with energy := { s.energy with module := (s.energy.module + e.module) % 2 ^ 64, counted := true } }
  let s := forEach ((List.range 4).filter (fun p => s.energy.past.fieldCount p != 0)) s (fun s p => s.partEnergy e p)
  let s := (s.setF PWR_INPUT PWR_INPUT_volts e.volts).setF PWR_INPUT PWR_INPUT_power_w (min 65535 (wattsOf e.module 1))
  let s := s.setF PWR_VCMP PWR_VCMP_current_a (e.amps.getD 0 0)
  let s := forEach (List.range 6) s (fun s d => s.setF (PWR_DOMAIN d) PWR_DOMAIN_current_a (e.amps.getD d 0))
  if s.energy.past.recess then
    let l := (e.module :: s.power.idle).take 64
    ({ s with power := { s.power with idle := l } }).setF PWR_CAP PWR_CAP_idle_w (min 65535 (wattsOf (sumList l) l.length))
  else s

/-- Each bell's energy is added once. -/
def State.energyAccumulate (s : State) (e : BellEnergy) : State := if s.energy.counted then s else s.addBell e

def execEnergyAccumulate (e : BellEnergy) (s : State) : Host.Outcome State Fault Refusal := live s (s.energyAccumulate e)

/-! Snapshot and clears (15 R405, R406, R412). -/

/-- ENERGY_SNAPSHOT is accepted; the snapshot is taken at a0 of the next bell. -/
def execCmdEnergySnapshot (ring tag : Nat) (s : State) : Host.Outcome State Fault Refusal :=
  live s (s.onCmd ring tag opENERGY_SNAPSHOT (fun s c => s.putCmd c { c with phase := .active }))

/-- The energy counters, BELL_COUNT and a new sequence number enter the snapshot registers together, after the energy of the bell
before has been added. -/
def State.snapshot (s : State) (c : Cmd) : State :=
  if s.bellCount ≤ c.bell || !s.energy.counted then s
  else
    let n := ((s.reg ENERGY_SNAP_SEQ).toNat + 1) % 2 ^ 32
    let s := (s.setReg ENERGY_SNAP_SEQ (BitVec.ofNat 32 n)).setPair ENERGY_SNAP_BELL_LO s.bellCount
    let s := s.setPair ENERGY_MODULE_LO s.energy.module
    let s := forEach (List.range 4) s (fun s p => s.setPair (ENERGY_PART_LO p) (tgetD s.energy.parts p 0))
    let s := forEach (List.range 64) s (fun s r => s.setPair (ENERGY_RING_LO r) (tgetD s.energy.rings r 0))
    s.ok c n

def execEnergySnapshotTake (ring tag : Nat) (s : State) : Host.Outcome State Fault Refusal :=
  live s (s.onActive ring tag opENERGY_SNAPSHOT (fun s c => if c.phase = .active then s.snapshot c else s))

def execCmdCountersClear (ring tag : Nat) (s : State) : Host.Outcome State Fault Refusal :=
  live s (s.onCmd ring tag opCOUNTERS_CLEAR (fun s c => s.putCmd c { c with phase := .committed }))

/-- A register with its error-counter bits clear. -/
def clearErr (a : Nat) (w : Word) : Word :=
  match regKind a with
  | some k => w &&& ~~~ BitVec.ofNat 32 k.err
  | none => w

/-- Every error counter of the device to 0. -/
def State.clearErrors (s : State) : State := forEach s.regs s (fun s x => s.setReg x.1 (clearErr x.1 x.2))

/-- Every performance counter with its pinned bit, and BELL_RECESS_TAKEN, to 0. -/
def State.clearPerf (s : State) : State :=
  let s := forEach (List.range 4) s (fun s p => forEach (List.range 8) s (fun s k =>
    (s.setReg (PERF_LO p k) 0).setReg (PERF_HI p k) 0))
  (s.setReg BELL_RECESS_TAKEN_LO 0).setReg BELL_RECESS_TAKEN_HI 0

/-- The throttle log and its count to 0. -/
def State.clearThrottle (s : State) : State :=
  (forEach (List.range 256) s (fun s i => forEach (List.range 8) s (fun s j => s.setReg (THR_LOG i j) 0))).setReg
    THR_LOG_COUNT 0

/-- a3968 of the bell after acceptance: the named classes are cleared together, then the record is formed. What other rows count in
that cycle comes after it (log entry 9). -/
def State.countersClear (s : State) (c : Cmd) : State :=
  if s.bellCount ≤ c.bell then s
  else
    let s := { s with cyc := 3968 }
    let s := if bitSet c.pkt.p0 0 then s.clearErrors else s
    let s := if bitSet c.pkt.p0 1 then s.clearPerf else s
    let s := if bitSet c.pkt.p0 2 then s.clearThrottle else s
    s.ok c 0

def execCountersClearApply (ring tag : Nat) (s : State) : Host.Outcome State Fault Refusal :=
  live s (s.onActive ring tag opCOUNTERS_CLEAR (fun s c => if c.phase = .committed then s.countersClear c else s))

/-! Cap and budgets (R450, 14 R384). -/

/-- Budgets last set, whether or not they are in use yet. -/
def State.budgets (s : State) : List Nat :=
  match s.power.budgets with
  | some l => l
  | none => (List.range 4).map (fun p => s.getF (PWR_PART p) PWR_PART_budget_w)

def designPower (v : Variant) : Nat :=
  match v with
  | .ahn4W => 2800
  | .ahn4H => 1400

def State.cap (s : State) : Nat := s.getF PWR_CAP PWR_CAP_cap_w

/-- Budgets of a partition layout at a cap: the cap by fields. -/
def State.evenBudgets (s : State) : List Nat := (List.range 4).map (fun p => s.cap * s.fieldCount p / 4)

/-- POWER_CAP scales the budgets in proportion, rounds down and gives the remainder to partition 0. -/
def scaleBudgets (l : List Nat) (cap : Nat) : List Nat :=
  let total := sumList l
  let r := l.map (fun b => if total = 0 then 0 else b * cap / total)
  match r with
  | [] => []
  | b :: t => (b + (cap - sumList r)) :: t

def State.powerCap (s : State) (c : Cmd) : State :=
  let w := c.pkt.p0
  if w < 900 || designPower s.variant < w then s.failAt c stPOWER_RANGE 0 0
  else
    let l := scaleBudgets s.budgets w
    let s := ({ s with power := { s.power with budgets := some l } }).setF PWR_CAP PWR_CAP_cap_w w
    s.ok c 0

def execCmdPowerCap (ring tag : Nat) (s : State) : Host.Outcome State Fault Refusal :=
  live s (s.onCmd ring tag opPOWER_CAP State.powerCap)

def State.budgetMove (s : State) (c : Cmd) : State :=
  let a := bitsAt c.pkt.p0 0 2
  let b := bitsAt c.pkt.p0 2 2
  let w := bitsAt c.pkt.p0 16 16
  let l := s.budgets
  if s.partCount ≤ a then s.failAt c stPOWER_RANGE 0 0
  else if a = b || s.partCount ≤ b then s.failAt c stPOWER_RANGE 0 2
  else if w = 0 || l.getD a 0 < w + 225 * s.fieldCount a then s.failAt c stPOWER_RANGE 0 16
  else
    let l := (l.set a (l.getD a 0 - w)).set b (l.getD b 0 + w)
    ({ s with power := { s.power with budgets := some l } }).ok c 0

def execCmdBudgetMove (ring tag : Nat) (s : State) : Host.Outcome State Fault Refusal :=
  live s (s.onCmd ring tag opBUDGET_MOVE State.budgetMove)

/-- Budgets come into use at a bell boundary. -/
def State.budgetTake (s : State) : State :=
  match s.power.budgets with
  | some l =>
    let s := { s with power := { s.power with budgets := none } }
    forEach (List.range 4) s (fun s p => s.setF (PWR_PART p) PWR_PART_budget_w (l.getD p 0))
  | none => s

def execBudgetTakeEffect (s : State) : Host.Outcome State Fault Refusal := live s s.budgetTake

/-! Recess for power (R451). -/

/-- The position of partition p's course at bell b, as the timetable stands. -/
def State.posAt (s : State) (p b : Nat) : Option Pos :=
  (s.walkTo p b).pos

/-- Allotments summed over the course bells from a position to the next recess point, and their number. -/
def segment : Nat → Course → Option Pos → Nat × Nat
  | 0, _, _ => (0, 0)
  | _, _, none => (0, 0)
  | n + 1, c, some x =>
    let a := lsAllot c.image x.lesson
    if lsBells c.image x.lesson ≤ x.bell + 1 && lsRecess c.image x.lesson then (a, 1)
    else
      let (t, k) := segment n c (posAfter c x)
      (a + t, k + 1)

/-- Bells searched for a recess point, and course bells of a segment: bounds of the search only. -/
def searchBells : Nat := 131072
def segmentBells : Nat := 2 ^ 33

/-- The present bell follows a lesson with a recess point. -/
def State.atRecessPoint (s : State) (p : Nat) : Bool :=
  let c := s.crsOf p
  s.courseRunning p && c.lessonBell = 0 && (match prevPos c c.lesson c.iter with
    | some (l, _) => lsRecess c.image l
    | none => false)

/-- The request of one partition: bell, k, forecast power. -/
def State.powerNeed (s : State) (p : Nat) : Option (Nat × Nat × Nat) :=
  if !s.atRecessPoint p then none
  else match s.firstPoint p (s.bellCount + 2 * s.map.horizon) searchBells with
    | none => none
    | some r =>
      let (t, n) := segment segmentBells (s.crsOf p) (s.posAt p r)
      let sum := t * s.getF (PWR_ALLOT p) PWR_ALLOT_correction
      let b := s.getF (PWR_PART p) PWR_PART_budget_w
      let idle4 := s.getF PWR_CAP PWR_CAP_idle_w * s.fieldCount p
      if n = 0 || sum ≤ 10240 * n * b then none
      else some (r, if 4 * b ≤ idle4 then 255 else min 255 (ceilDiv (4 * (sum - 10240 * n * b)) (10240 * (4 * b - idle4))),
        sum / (10240 * n))

/-- The largest k among the partitions is requested, with reason POWER. -/
def State.powerRecess (s : State) : State :=
  let s := if (List.range 4).any s.atRecessPoint then s.markPoint else s
  let l := (List.range 4).filterMap s.powerNeed
  match l.foldl (fun m x => match m with
      | some y => if y.2.1 < x.2.1 then some x else some y
      | none => some x) (none : Option (Nat × Nat × Nat)) with
  | some (r, k, w) => s.requestRecess k 1 r 4 (min 65535 w)
  | none => s

def execPowerRecessEvaluate (s : State) : Host.Outcome State Fault Refusal := live s s.powerRecess

end Sys2Proof.Machine
end

