-- ==== Sys2Proof/Machine/Clocks.lean ====
section
/-! DEFINITION. The root PLL and its reference, droop and stretch, margin canaries and seams (02 R53, R59, 17). -/

namespace Sys2Proof.Machine

/-! Reference (R419, R420, 02 R59). -/

def State.setHoldover (s : State) (b : Bool) : State :=
  (s.setB CLK_REF CLK_REF_holdover b).setB BELL_SYNC BELL_SYNC_holdover b

/-- The selected reference is lost. -/
def State.referenceLoss (s : State) : State :=
  if s.flag CLK_REF CLK_REF_holdover then s
  else
    let s := (s.setHoldover true).setB CLK_REF CLK_REF_locked false
    let s := if s.flag CLK_REF CLK_REF_ref_sel then s else s.setB CLK_REF CLK_REF_refclk_present false
    s.incF CLK_REF CLK_REF_lock_losses 1

def execReferenceLoss (s : State) : Host.Outcome State Fault Refusal := live s s.referenceLoss

/-- The reference the table of R419 gives: REFCLK (7) or an upstream port. -/
def State.referencePort (s : State) : Nat :=
  if s.originates || s.isTimekeeper || !s.map.loaded then 7 else s.upPort

/-- The loop has switched its input in holdover and relocked. -/
def State.referenceSwitch (s : State) : State :=
  let q := s.referencePort
  let s := (s.setHoldover false).setB CLK_REF CLK_REF_locked true
  (s.setB CLK_REF CLK_REF_ref_sel (q != 7)).setF CLK_REF CLK_REF_upstream_port q

def execReferenceSwitch (s : State) : Host.Outcome State Fault Refusal := live s s.referenceSwitch

/-- Holdover has lasted 10 ms: the device is out of step, and one that originates bells stops sending them (R420). -/
def State.holdoverEnds (s : State) : State :=
  let silent := s.bell.silent || s.originates
  ({ s with bell := { s.bell with silent := silent } }).outOfStep 3

def execHoldoverTimeout (s : State) : Host.Outcome State Fault Refusal :=
  live s (if s.flag CLK_REF CLK_REF_holdover then s.holdoverEnds else s)

/-- The selected reference is back and the loop relocks to it. -/
def State.referenceRegained (s : State) : State :=
  if s.flag CLK_REF CLK_REF_holdover then
    let s := (s.setHoldover false).setB CLK_REF CLK_REF_locked true
    if s.flag CLK_REF CLK_REF_ref_sel then s else s.setB CLK_REF CLK_REF_refclk_present true
  else s

def execReferenceRegained (s : State) : Host.Outcome State Fault Refusal := live s s.referenceRegained

/-! Droop and stretch (R432-R434, 02 R53). -/

/-- A STOP has been decoded and its bound has not elapsed (R433). -/
def State.stopBound (s : State) : Bool := s.cmds.any (fun c => c.pkt.opcode == opSTOP && c.phase == .committed)

/-- Root pulses suppressed by n root periods of assertion: every second one, one in 16 within the STOP bound. -/
def State.suppressed (s : State) (n : Nat) : Nat := if s.stopBound then ceilDiv n 16 else ceilDiv n 2

def State.tailPulses (s : State) : Nat := max 1 (s.getF CLK_DROOP_CTRL CLK_DROOP_CTRL_tail)

/-- Charge stretch to the bell: before refresh slot A it is paid in the guard, else at the end of the service slot. What comes
in the guard or later shortens the window that runs (R54); after an overrun it adds to the excess (R55). -/
def State.charge (s : State) (n : Nat) : State :=
  let b := s.bell
  let b := { b with carried := if 0 < b.carried then b.carried + n else 0 }
  if s.cyc < 3776 then { s with bell := { b with chargeGuard := b.chargeGuard + n } }
  else if s.cyc < 3840 then ({ s with bell := { b with chargeGuard := b.chargeGuard + n } } : State).payBack
  else ({ s with bell := { b with chargeSlots := b.chargeSlots + n } } : State).payBack

/-- Key of a canary among the detectors of its die. -/
def canaryKey (site : Nat) : Nat := site + 512

/-- An assertion; one that starts a stretch is counted. -/
def State.droopAssert (s : State) (die site : Nat) : State :=
  if 6 ≤ die || s.clock.masked.contains (die, site) || s.clock.asserting.contains (die, site) then s
  else
    let first := s.clock.asserting = []
    let s := { s with clock := { s.clock with asserting := s.clock.asserting ++ [(die, site)] } }
    let s := (s.setF CLK_DROOP_COUNT CLK_DROOP_COUNT_last_die die).setF CLK_DROOP_COUNT CLK_DROOP_COUNT_last_site (site % 512)
    if first then s.incF CLK_DROOP_COUNT CLK_DROOP_COUNT_events 1 else s

def execDroopAssert (die site : Nat) (s : State) : Host.Outcome State Fault Refusal := live s (s.droopAssert die site)

/-- An assertion ends; with the last one the stretch of n root periods and its tail are charged. -/
def State.droopEnd (s : State) (die site n : Nat) : State :=
  if s.clock.asserting.contains (die, site) then
    let rest := s.clock.asserting.filter (fun x => x != (die, site))
    let s := { s with clock := { s.clock with asserting := rest } }
    if rest = [] then s.charge (s.suppressed n + s.tailPulses) else s
  else s

/-- The last assertion has lasted n root periods since the first one began. -/
def execDroopDeassert (die site periods : Nat) (s : State) : Host.Outcome State Fault Refusal :=
  live s (s.droopEnd die site periods)

/-- A detector that has stayed asserted for 1,024 root periods is masked until the next stack reset. -/
def State.droopMask (s : State) (die site periods : Nat) : State :=
  if s.clock.asserting.contains (die, site) then
    let s := (s.droopEnd die site periods).incF CLK_DROOP_COUNT CLK_DROOP_COUNT_masked 1
    { s with clock := { s.clock with masked := s.clock.masked ++ [(die, site)] } }
  else s

def execDroopDetectorMask (die site periods : Nat) (s : State) : Host.Outcome State Fault Refusal :=
  live s (if 1024 ≤ periods then s.droopMask die site periods else s)

/-! Canaries (R431): groups 0-3 the fields of the compute die, 4-7 the memory layers, 8 the base die. -/

def canaryDie (g : Nat) : Nat := if g < 4 then 5 else if g < 8 then g - 3 else 0

/-- A canary under a dead seat is ignored. -/
def State.canaryCounts (s : State) (g site : Nat) : Bool := decide (g < 9) && (decide (4 ≤ g) || s.seatGood site)

/-- A margin joins those of the bell, of which the smallest is shown when the bell has ended (log entry 49). -/
def State.noteMargin (s : State) (g margin : Nat) : State :=
  { s with clock := { s.clock with margins := tput s.clock.margins g (min margin (tgetD s.clock.margins g margin)) } }

/-- A group's margin at or below act: counted, and an asserted detector in the same cycle. -/
def State.canaryAct (s : State) (g site margin : Nat) : State :=
  let r := canaryReg g
  if s.canaryCounts g site && margin ≤ s.getF r CLK_CANARY_CD_act then
    ((s.noteMargin g margin).incF r CLK_CANARY_CD_acts 1).droopAssert (canaryDie g) (canaryKey site)
  else s

def execCanaryAct (group site margin : Nat) (s : State) : Host.Outcome State Fault Refusal :=
  live s (s.canaryAct group site margin)

/-- A group's margin at or below warn: reported to the power controller at the next bell boundary. -/
def State.canaryWarn (s : State) (g site margin : Nat) : State :=
  let r := canaryReg g
  if s.canaryCounts g site && margin ≤ s.getF r CLK_CANARY_CD_warn then
    { s.noteMargin g margin with power := { s.power with warnSeen := true } }
  else s

def execCanaryWarn (group site margin : Nat) (s : State) : Host.Outcome State Fault Refusal :=
  live s (s.canaryWarn group site margin)

/-! Seams (R425, R426). -/

/-- A phase of n steps of 1/64 root period lies in the window of a mode: ±100 ps calibrated, ±25 ps phase-aligned. -/
def inWindow (mode : Nat) (n : Int) : Bool := decide (n.natAbs * 17857 ≤ (if mode = 0 then 100 else 25) * 6400)

def State.seamMode (s : State) (m : Nat) : Nat := s.getF (CLK_SEAM m) CLK_SEAM_active_mode

/-- The larger phase of a seam's two sides, saturating in its field. -/
def State.setSeamPhase (s : State) (m : Nat) (n : Int) : State :=
  s.setF (CLK_SEAM m) CLK_SEAM_phase (codeOf (max (-128) (min 127 n)) 8)

/-- A seam side leaves its window: counted, running courses halt; no further report until 16 bells back within it. -/
def State.seamExcursion (s : State) (m : Nat) (n : Int) : State :=
  if 4 ≤ m then s
  else
    let s := s.setSeamPhase m n
    if inWindow (s.seamMode m) n || (tfind s.clock.seamBack m).isSome then s
    else
      let s := s.incF (CLK_SEAM m) CLK_SEAM_excursions 1
      let s := { s with clock := { s.clock with seamBack := tput s.clock.seamBack m 0 } }
      forEach (List.range 4) s (fun s p => s.declareHalt p hcSeam)

def execSeamExcursion (seam : Nat) (phase : Int) (s : State) : Host.Outcome State Fault Refusal :=
  live s (s.seamExcursion seam phase)

def stepTowardZero (n : Int) : Int := if 0 < n then n - 1 else if n < 0 then n + 1 else 0

/-- In a bell the trim of an excursed seam moves by one step; after 16 bells within the window it may report again. -/
def State.seamRecentre (s : State) (m : Nat) : State :=
  match tfind s.clock.seamBack m with
  | some k =>
    let n := stepTowardZero (signedOf (s.getF (CLK_SEAM m) CLK_SEAM_phase) 8)
    let s := s.setSeamPhase m n
    if inWindow (s.seamMode m) n then
      { s with clock := { s.clock with
        seamBack := if 16 ≤ k + 1 then tdel s.clock.seamBack m else tput s.clock.seamBack m (k + 1) } }
    else { s with clock := { s.clock with seamBack := tput s.clock.seamBack m 0 } }
  | none => s

/-- In refresh slot A each field root's trim moves by at most one step toward zero phase (R424): phases of the four fields
in steps. -/
def State.fieldTrim (s : State) (phases : List Int) : State :=
  let s := forEach (List.range 4) s (fun s f =>
    let d : Int := (phases.getD f 0)
    let k := if 0 < d then (-1 : Int) else if d < 0 then 1 else 0
    { s with clock := { s.clock with trims := tset s.clock.trims f (tgetD s.clock.trims f 0 + k) 0 } })
  forEach (List.range 4) s State.seamRecentre

end Sys2Proof.Machine
end

