-- ==== Sys2Proof/Machine/Pages.lean ====
section
/-! DEFINITION. Sequences, page tables and their commands, and the translation of rosters into page-map records (10). -/

namespace Sys2Proof.Machine

/-! The page area (R286): directory, reference counts, leaf pool. -/

def State.areaOn (s : State) : Bool := s.flag TRN_AREA TRN_AREA_enable

def State.areaBase (s : State) : Nat := s.getF TRN_AREA TRN_AREA_base * 0x1000

def State.leafTotal (s : State) : Nat := 256 * (s.getF TRN_AREA TRN_AREA_leaf_blocks + 1)

def State.areaWord (s : State) (lt off n : Nat) : Nat := leVal (tbPeek s.mem lt (s.areaBase + off) n false).1

/-- A write of the control complex through the service port (R292). -/
def State.putArea (s : State) (lt off n v : Nat) : State :=
  { s with mem := tbWrite s.mem lt (s.areaBase + off) (leBytes n v) [] 1 }

def State.dirEntry (s : State) (lt q : Nat) : Nat := s.areaWord lt (4 * q) 4

def dirOpen (e : Nat) : Bool := bitSet e 31
def dirBase (e : Nat) : Nat := bitsAt e 0 12
def dirCount (e : Nat) : Nat := bitsAt e 12 9
def dirMake (base count : Nat) : Nat := base + 2 ^ 12 * count + 2 ^ 31

def State.seqOpen (s : State) (lt q : Nat) : Bool := dirOpen (s.dirEntry lt q)

/-- Offset in the area of the page word of a virtual page; none beyond the sequence's leaves. -/
def wordOff (e vp : Nat) : Option Nat :=
  if vp / 16 < dirCount e then some (0xC000 + 64 * (dirBase e + vp / 16) + 4 * (vp % 16)) else none

/-- The page word of a virtual page; 0 where it is unmapped. -/
def State.pageWord (s : State) (lt q vp : Nat) : Nat :=
  match wordOff (s.dirEntry lt q) vp with
  | some o => s.areaWord lt o 4
  | none => 0

def wordValid (w : Nat) : Bool := bitSet w 31
def wordFrame (w : Nat) : Nat := bitsAt w 0 22

/-- Reference count at index 2,048 c + row. -/
def State.frameCount (s : State) (lt i : Nat) : Nat := s.areaWord lt (0x4000 + 2 * i) 2

def State.setFrameCount (s : State) (lt i v : Nat) : State := s.putArea lt (0x4000 + 2 * i) 2 v

/-- Pool rows (R285). -/
def State.poolRows (s : State) : List Nat :=
  let a := s.getF TRN_POOL TRN_POOL_row_first
  (List.range (s.getF TRN_POOL TRN_POOL_row_last + 1 - a)).map (a + ·)

/-- Free pool rows of a channel's locker group, ascending. -/
def State.freeRows (s : State) (lt c : Nat) : List Nat :=
  s.poolRows.filter (fun r => s.frameCount lt (2048 * c + r) == 0)

/-- Leaf runs of the open sequences: first leaf and length. -/
def State.leafRuns (s : State) (lt : Nat) : List (Nat × Nat) :=
  (List.range 4096).filterMap (fun q =>
    let e := s.dirEntry lt q
    if dirOpen e && dirCount e != 0 then some (dirBase e, dirCount e) else none)

/-- The lowest free run of n leaves (R290). -/
def State.freeRun (s : State) (lt n : Nat) : Option Nat :=
  let runs := s.leafRuns lt
  (List.range (s.leafTotal + 1 - n)).find? (fun b => runs.all (fun r => b + n ≤ r.1 || r.1 + r.2 ≤ b))

/-- TRN_FREE_LT shows the free frames and leaves of a tile (R305). -/
def State.showFree (s : State) (lt : Nat) : State :=
  let rows := s.poolRows.length
  let frames := (List.range 8).foldl (fun n c => n + (s.freeRows lt c).length) 0
  let used := (s.leafRuns lt).foldl (fun n r => n + r.2) 0
  if !s.areaOn || rows = 0 then s.setReg (TRN_FREE_LT lt) 0
  else (s.setF (TRN_FREE_LT lt) TRN_FREE_LT_frames frames).setF (TRN_FREE_LT lt) TRN_FREE_LT_leaves (s.leafTotal - used)

/-- Some directory of a present tile has an open entry: the top bit of a directory word is stored set. -/
def State.anySeqOpen (s : State) : Bool :=
  s.areaOn && s.mem.bytes.any (fun c => regionOf c.1 == .tile && s.present (addrTile c.1) &&
    (let o := (c.1 - tbBase) % 0x400000
     s.areaBase ≤ o && o < s.areaBase + 0x4000 && o % 4 = 3 && 128 ≤ c.2.toNat))

/-! What the page commands do on one tile (R289, R290). -/

/-- Clear a valid page word and lower its frame's count. -/
def State.releasePage (s : State) (lt q vp : Nat) : State :=
  match wordOff (s.dirEntry lt q) vp with
  | none => s
  | some o =>
    let w := s.areaWord lt o 4
    if wordValid w then
      let i := wordFrame w % 16384
      (s.putArea lt o 4 0).setFrameCount lt i (s.frameCount lt i - 1)
    else s

/-- Lengthen a sequence's run to n leaves by moving it to the lowest free run; the new leaves map nothing. -/
def State.growRun (s : State) (lt q n : Nat) : State :=
  let e := s.dirEntry lt q
  if n ≤ dirCount e then s
  else match s.freeRun lt n with
    | none => s
    | some b =>
      let old := (tbPeek s.mem lt (s.areaBase + 0xC000 + 64 * dirBase e) (64 * dirCount e) false).1
      let m := tbWrite s.mem lt (s.areaBase + 0xC000 + 64 * b) (bytesFrom old 0 (64 * n)) [] 1
      ({ s with mem := m }).putArea lt (4 * q) 4 (dirMake b n)

def pageRange (vp0 k : Nat) : List Nat := (List.range k).map (vp0 + ·)

/-- Map one unmapped page to the lowest free row of its group. -/
def State.mapPage (s : State) (lt q vp : Nat) : State :=
  if wordValid (s.pageWord lt q vp) then s
  else match wordOff (s.dirEntry lt q) vp, (s.freeRows lt (vp % 8)).head? with
    | some o, some r =>
      let i := 2048 * (vp % 8) + r
      (s.setFrameCount lt i 1).putArea lt o 4 (16384 * lt + i + 2 ^ 31)
    | _, _ => s

/-- Locker words of a frame row, as addresses (R283, 06 R195). -/
def frameWords (frame : Nat) : List Nat :=
  (List.range 8).flatMap (fun i => (List.range 128).flatMap (fun x => (List.range 8).map (fun w =>
    (8 * (frame / 2048) + w) * 0x1000000 + (frame % 2048) * 0x400 + i * 0x200000 + 8 * x)))

/-- Copy a frame to another row of its group; stored poison travels with its words. -/
def State.copyFrame (s : State) (src dst : Nat) : State :=
  forEach ((frameWords src).zip (frameWords dst)) s (fun s a =>
    let ((w, bad), s) := s.lkLoad a.1
    { s with mem := lkStore s.mem a.2 w bad })

/-- Give a shared page a frame of its own. -/
def State.privatePage (s : State) (lt q vp : Nat) : State :=
  match wordOff (s.dirEntry lt q) vp with
  | none => s
  | some o =>
    let w := s.areaWord lt o 4
    let i := wordFrame w % 16384
    if wordValid w && 1 < s.frameCount lt i then
      match (s.freeRows lt (i / 2048)).head? with
      | none => s
      | some r =>
        let j := i / 2048 * 2048 + r
        let s := s.copyFrame (16384 * lt + i) (16384 * lt + j)
        ((s.setFrameCount lt j 1).setFrameCount lt i (s.frameCount lt i - 1)).putArea lt o 4 (16384 * lt + j + 2 ^ 31)
    else s

/-- Copy a page word to the forked sequence and raise its frame's count. -/
def State.forkPage (s : State) (lt src dst vp : Nat) : State :=
  let w := s.pageWord lt src vp
  match wordOff (s.dirEntry lt dst) vp with
  | some o =>
    let s := s.putArea lt o 4 w
    if wordValid w then
      let i := wordFrame w % 16384
      s.setFrameCount lt i (s.frameCount lt i + 1)
    else s
  | none => s

/-- Leaves that a fork of k pages takes: none for pages beyond the source's leaves. -/
def State.forkLeaves (s : State) (lt src k : Nat) : Nat := min (ceilDiv k 16) (dirCount (s.dirEntry lt src))

/-- The effect of a page command on one tile. -/
def State.pageTile (s : State) (k : Packet) (lt : Nat) : State :=
  let q := k.p0
  if k.opcode = opSEQ_OPEN then s.putArea lt (4 * q) 4 (dirMake 0 0)
  else if k.opcode = opSEQ_CLOSE then
    (forEach (List.range (16 * dirCount (s.dirEntry lt q))) s (fun s vp => s.releasePage lt q vp)).putArea lt (4 * q) 4 0
  else if k.opcode = opPAGE_MAP then
    forEach (pageRange k.p1 k.p2) (s.growRun lt q ((k.p1 + k.p2 - 1) / 16 + 1)) (fun s vp => s.mapPage lt q vp)
  else if k.opcode = opPAGE_UNMAP then forEach (pageRange k.p1 k.p2) s (fun s vp => s.releasePage lt q vp)
  else if k.opcode = opSEQ_FORK then
    forEach (List.range k.p2) (s.growRun lt k.p1 (s.forkLeaves lt q k.p2)) (fun s vp => s.forkPage lt q k.p1 vp)
  else forEach (pageRange k.p1 k.p2) s (fun s vp => s.privatePage lt q vp)

/-! What makes a page command fail (R289, R291). -/

/-- Sequences a page command names. -/
def pageSeqs (k : Packet) : List Nat := if k.opcode = opSEQ_FORK then [k.p0, k.p1] else [k.p0]

/-- SEQ_STATE on one tile. -/
def State.seqStateFails (s : State) (k : Packet) (lt : Nat) : Bool :=
  if k.opcode = opSEQ_OPEN then s.seqOpen lt k.p0
  else if k.opcode = opSEQ_FORK then
    !s.seqOpen lt k.p0 || !s.seqOpen lt k.p1 ||
    (List.range (16 * dirCount (s.dirEntry lt k.p1))).any (fun vp => wordValid (s.pageWord lt k.p1 vp))
  else !s.seqOpen lt k.p0

/-- Pages for which a command takes a frame on a tile. -/
def State.framesWanted (s : State) (k : Packet) (lt : Nat) : List Nat :=
  if k.opcode = opPAGE_MAP then
    ((pageRange k.p1 k.p2).filter (fun vp => !wordValid (s.pageWord lt k.p0 vp))).map (fun vp => vp % 8)
  else if k.opcode = opPAGE_PRIVATE then
    (pageRange k.p1 k.p2).filterMap (fun vp =>
      let w := s.pageWord lt k.p0 vp
      let i := wordFrame w % 16384
      if wordValid w && 1 < s.frameCount lt i then some (i / 2048) else none)
  else []

def State.framesFail (s : State) (k : Packet) (lt : Nat) : Bool :=
  let l := s.framesWanted k lt
  (List.range 8).any (fun c => decide ((s.freeRows lt c).length < (l.filter (fun x => x == c)).length))

/-- Length of the run a command needs on a tile, with the sequence that needs it. -/
def State.leavesWanted (s : State) (k : Packet) (lt : Nat) : Option (Nat × Nat) :=
  if k.opcode = opPAGE_MAP then some (k.p0, (k.p1 + k.p2 - 1) / 16 + 1)
  else if k.opcode = opSEQ_FORK then some (k.p1, s.forkLeaves lt k.p0 k.p2)
  else none

def State.leavesFail (s : State) (k : Packet) (lt : Nat) : Bool :=
  match s.leavesWanted k lt with
  | none => false
  | some (q, n) => decide (dirCount (s.dirEntry lt q) < n) && (s.freeRun lt n).isNone

def State.refsFail (s : State) (k : Packet) (lt : Nat) : Bool :=
  k.opcode == opSEQ_FORK && (List.range k.p2).any (fun vp =>
    let w := s.pageWord lt k.p0 vp
    wordValid w && 65535 ≤ s.frameCount lt (wordFrame w % 16384))

/-- The first check of a page command that fails: nothing may change on any tile (R289). -/
def State.pageFails (s : State) (p : Nat) (k : Packet) : Option Nat :=
  let tiles := s.tilesOf p
  if !s.areaOn then some stAREA_OFF
  else if tiles.any (fun lt => s.flag (TRN_STATUS_LT lt) TRN_STATUS_LT_area_lost) then some stAREA_LOST
  else if tiles.any (s.seqStateFails k) then some stSEQ_STATE
  else if (pageSeqs k).any (s.pinned p) then some stSEQ_BUSY
  else if tiles.any (s.framesFail k) then some stNO_FRAMES
  else if tiles.any (s.leavesFail k) then some stNO_LEAVES
  else if tiles.any (s.refsFail k) then some stREFCOUNT_LIMIT
  else none

/-- Acceptance of a page command: its checks, then its work begins. -/
def State.pageAccept (s : State) (c : Cmd) : State :=
  match s.pageFails c.part c.pkt with
  | some e => s.fail c e
  | none => s.putCmd c { c with phase := .active }

def execCmdSeqOpen (ring tag : Nat) (s : State) : Host.Outcome State Fault Refusal :=
  live s (s.onCmd ring tag opSEQ_OPEN State.pageAccept)

def execCmdSeqClose (ring tag : Nat) (s : State) : Host.Outcome State Fault Refusal :=
  live s (s.onCmd ring tag opSEQ_CLOSE State.pageAccept)

def execCmdPageMap (ring tag : Nat) (s : State) : Host.Outcome State Fault Refusal :=
  live s (s.onCmd ring tag opPAGE_MAP State.pageAccept)

def execCmdPageUnmap (ring tag : Nat) (s : State) : Host.Outcome State Fault Refusal :=
  live s (s.onCmd ring tag opPAGE_UNMAP State.pageAccept)

def execCmdSeqFork (ring tag : Nat) (s : State) : Host.Outcome State Fault Refusal :=
  live s (s.onCmd ring tag opSEQ_FORK State.pageAccept)

def execCmdPagePrivate (ring tag : Nat) (s : State) : Host.Outcome State Fault Refusal :=
  live s (s.onCmd ring tag opPAGE_PRIVATE State.pageAccept)

def isPageOp (o : Nat) : Bool :=
  [opSEQ_OPEN, opSEQ_CLOSE, opPAGE_MAP, opPAGE_UNMAP, opSEQ_FORK, opPAGE_PRIVATE].contains o

/-- The service slot, or open bell, in which a page command's last write lands: its commit point; at any other time the command
waits. The tables may have changed since its acceptance, so its checks precede it here too (R292, 14 R382). -/
def State.pageCommit (s : State) (c : Cmd) : State :=
  if !s.serviceOpen c.part then s
  else match s.pageFails c.part c.pkt with
  | some e => s.fail c e
  | none =>
    let tiles := s.tilesOf c.part
    let frames := tiles.foldl (fun n lt => n + (s.framesWanted c.pkt lt).length) 0
    let s := forEach tiles s (fun s lt => (s.pageTile c.pkt lt).showFree lt)
    s.ok c frames

def execPageCommandCommit (ring tag : Nat) (s : State) : Host.Outcome State Fault Refusal :=
  live s (match s.findTag ring tag with
    | some c => if isPageOp c.pkt.opcode && c.phase = .active then s.pageCommit c else s
    | none => s)

/-! Translation (R294-R298). -/

/-- The translation plan's fields. -/
structure Plan where
  map : Nat
  vpBase : Nat
  tpp : Nat
  words : Nat
  rest : Nat
  deriving DecidableEq, Repr

def planOf (b : List Byte) : Plan :=
  { map := leAt b 0 4, vpBase := leAt b 4 2, tpp := leAt b 6 2, words := leAt b 8 2, rest := leAt b 10 54 }

/-- Bytes of one record, S. -/
def recordSize (p : Nat) : Nat := 64 * ceilDiv (16 + 4 * p) 64

def entryCycles (p : Nat) : Nat := 4 + 2 * p + ceilDiv (16 + 4 * p) 128

/-- First cycle of the job, counted in lesson-window cycles from the lesson's first bell. -/
def jobStart (rosterCycle cap : Nat) : Nat := rosterCycle + ceilDiv (32 + 16 * cap) 128 + 64

def overlaps (a n b k : Nat) : Bool := a < b + k && b < a + n

/-- Records of a plan have no place: map_addr or P is out of range, so S or where the records stand is not known; or the first n
records would not end within the buffer. Such a record is not stored (DEDUCED, log entry 16); any other is stored with its
status, PLAN_BAD too. -/
def noPlace (y : Plan) (n : Nat) : Bool :=
  y.map % 64 ≠ 0 || decide (2 ^ 22 ≤ y.map) || y.words == 0 || decide (256 < y.words) || decide (2 ^ 22 < y.map + n * recordSize y.words)

/-- PLAN_BAD: a field out of range, or records that overlap the page area or the roster. -/
def State.planBad (s : State) (y : Plan) (rosterAddr cap : Nat) : Bool :=
  let n := cap * recordSize y.words
  noPlace y cap || decide (4095 < y.vpBase) || y.tpp == 0 || decide (4096 < y.tpp) || y.rest != 0 ||
  (s.areaOn && overlaps y.map n s.areaBase (0xC000 + 64 * s.leafTotal)) || overlaps y.map n rosterAddr (32 + 16 * cap)

/-- A roster entry's fields. -/
structure RosterEntry where
  seq : Nat
  position : Nat
  newTokens : Nat
  flags : Nat
  deriving DecidableEq, Repr

def entryOf (b : List Byte) : RosterEntry :=
  { seq := leAt b 0 4, position := leAt b 4 4, newTokens := leAt b 8 2, flags := leAt b 10 2 }

/-- What the pages of an entry show, in order k: the leaf word, the frame's count, poison in either read. -/
structure PageRead where
  word : Nat
  count : Nat
  poison : Bool
  deriving DecidableEq, Repr

/-- Group of R284 for virtual page vp of tile lt. -/
def wordForeign (lt vp w : Nat) : Bool := wordFrame w / 2048 != 8 * lt + vp % 8

/-- A page word of the record: the leaf word with private set when its frame's count is 1. -/
def recordWord (r : PageRead) : Nat := if r.count = 1 then withBit r.word 30 else r.word

/-- Status of a record from what was read, after EMPTY, PLAN_BAD and AREA_LOST: the first case that applies (R296). -/
def readStatus (lt : Nat) (y : Plan) (e : RosterEntry) (opened poison : Bool) (need : Nat) (l : List PageRead) : Nat :=
  let first := e.position / y.tpp
  let last := (e.position + e.newTokens - 1) / y.tpp
  if poison || l.any (·.poison) then 0x15
  else if !opened then 0x10
  else if y.words < need || 4095 < y.vpBase + need - 1 then 0x11
  else if l.any (fun r => !wordValid r.word) then 0x12
  else if (l.zip (List.range need)).any (fun r => wordForeign lt (y.vpBase + r.2) r.1.word) then 0x14
  else if bitSet e.flags 0 &&
      (l.zip (List.range need)).any (fun r => first ≤ r.2 && r.2 ≤ last && 1 < r.1.count) then 0x13
  else 0

/-- The bytes of a record (R296). -/
def recordBytes (y : Plan) (e : RosterEntry) (status need courseBell : Nat) (l : List PageRead) : List Byte :=
  let ws := if status = 0 then l.map recordWord else []
  leBytes 4 e.seq ++ leBytes 2 (if status = 0 then need else 0) ++ leBytes 1 status ++ leBytes 1 0 ++
  leBytes 4 courseBell ++ leBytes 2 e.flags ++ leBytes 2 e.newTokens ++
  (ws ++ List.replicate (y.words - ws.length) 0).flatMap (leBytes 4)

/-- A record has been written: its status and the counters (R297, R305). -/
def State.recordDone (s : State) (lt : Nat) (e : RosterEntry) (status : Nat) : State :=
  let s := s.setF (TRN_STATUS_LT lt) TRN_STATUS_LT_last_status status
  let s := if status = 0x15 then s.incF (TRN_COUNT_LT lt) TRN_COUNT_LT_poisoned 1 else s
  if 0x10 ≤ status then
    let s := s.incF (TRN_COUNT_LT lt) TRN_COUNT_LT_refused 1
    if (s.tile lt).trnRefusedSent then s
    else (s.modTile lt (fun t => { t with trnRefusedSent := true })).raise evTrnRefused (s.partOfLt lt) 1 lt e.seq status 0 0
  else s

/-- Capacity of the roster that a tile's program receives: the following lesson's. -/
def State.jobRoster (s : State) (p : Nat) : Option (Nat × Nat × Nat) :=
  let c := s.crsOf p
  (nextPos c c.lesson c.iter).map (fun x => (lsCapacity c.image x.1, x.1, x.2))

/-- At j0 the translation job of the lesson starts; with no entry to treat it is over at once. -/
def State.jobBegin (s : State) (lt : Nat) : State :=
  let p := s.partOfLt lt
  let c := s.crsOf p
  let t := armedProgram (s.tile lt)
  match s.jobRoster p with
  | some (cap, _, _) =>
    let j0 := jobStart (tpRosterCycle t) cap
    if s.alive lt && s.working p && tpRosterValid t && !(s.tile lt).halted && c.lessonBell = j0 / 3776 &&
        !s.flag (TRN_STATUS_LT lt) TRN_STATUS_LT_fallback then
      (({ s with cyc := j0 % 3776 }).setB (TRN_STATUS_LT lt) TRN_STATUS_LT_busy (cap != 0)).modTile lt (fun y => { y with trnNext := 0 })
    else s
  | none => s

def execTranslationJobStart (lt : Nat) (s : State) : Host.Outcome State Fault Refusal := live s (s.jobBegin lt)

/-- A read of the translation unit through the port of mover channel 7, at a window cycle (R295). -/
def State.trnRead (s : State) (lt x off n : Nat) : (List Byte × List Bool) × State :=
  s.portRead lt (x % 3776) 0 14 off n

/-- The pages k of an entry: leaf words and counts, from window cycle x on. -/
def trnPages (lt : Nat) (y : Plan) (dir x : Nat) : List Nat → State → List PageRead → List PageRead × State
  | [], s, l => (l, s)
  | k :: ks, s, l =>
    match wordOff dir (y.vpBase + k) with
    | none => trnPages lt y dir x ks s (l ++ [{ word := 0, count := 0, poison := false }])
    | some o =>
      let ((b, pb), s) := s.trnRead lt (x + 2 * k) (s.areaBase + o) 4
      let w := leVal b
      let bad := pb.any id
      if wordValid w && !bad && !wordForeign lt (y.vpBase + k) w then
        let ((cb, cp), s) := s.trnRead lt (x + 2 * k + 1) (s.areaBase + 0x4000 + 2 * (wordFrame w % 16384)) 2
        trnPages lt y dir x ks s (l ++ [{ word := w, count := leVal cb, poison := cp.any id }])
      else trnPages lt y dir x ks s (l ++ [{ word := w, count := 0, poison := bad }])

/-- Write a record in beats of 128 bytes from window cycle x. -/
def State.trnWrite (s : State) (lt x off : Nat) (b : List Byte) : State :=
  forEach (List.range (ceilDiv b.length 128)) s (fun s j =>
    s.portWrite lt ((x + j) % 3776) 1 14 (off + 128 * j) ((b.drop (128 * j)).take 128) [] 0)

/-- Entry i of the job: its reads from window cycle x, its status, its record. -/
def State.translate (s : State) (lt i x cap rosterAddr courseBell : Nat) : State :=
  let ((pd, pp), s) := s.trnRead lt x (rosterAddr - 64) 64
  let ((hd, hp), s) := s.trnRead lt (x + 1) rosterAddr 32
  let ((ed, ep), s) := s.trnRead lt (x + 2) (rosterAddr + 32 + 16 * i) 16
  let y := planOf pd
  let e := entryOf ed
  let bad := s.planBad y rosterAddr cap
  let need := ceilDiv (e.position + e.newTokens) y.tpp
  let lost := s.flag (TRN_STATUS_LT lt) TRN_STATUS_LT_area_lost
  let ((dd, dp), s) := s.trnRead lt (x + 3) (s.areaBase + 4 * (e.seq % 4096)) 4
  let dir := leVal dd
  let opened := decide (e.seq < 4096) && dirOpen dir && s.areaOn
  let poison := (pp ++ hp ++ ep ++ dp).any id
  let inRange := need ≤ y.words && y.vpBase + need ≤ 4096
  let early := leAt hd 0x10 4 ≤ i || bad || lost || poison || !opened || !inRange
  let (l, s) := if early then ([], s) else trnPages lt y dir (x + 4) (List.range need) s []
  let status := if leAt hd 0x10 4 ≤ i then 1 else if bad then 0x16 else if lost then 0x17
    else readStatus lt y e opened poison need l
  let s := if noPlace y (i + 1) then s
    else s.trnWrite lt (x + 4 + 2 * y.words) (y.map + i * recordSize y.words) (recordBytes y e status need courseBell l)
  s.recordDone lt e status

/-- TRANSLATE_ENTRY: entry i at its cycle, in order; the job ends with the last entry. -/
def State.translateEntry (s : State) (lt i : Nat) : State :=
  let p := s.partOfLt lt
  let c := s.crsOf p
  let t := armedProgram (s.tile lt)
  match s.jobRoster p with
  | some (cap, l, it) =>
    let a := tpRosterAddr t
    let n := leAt (tbPeek s.mem lt (a - 64) 64 true).1 8 2
    let x := jobStart (tpRosterCycle t) cap + i * entryCycles n
    if s.alive lt && s.working p && s.flag (TRN_STATUS_LT lt) TRN_STATUS_LT_busy && i < cap && i = (s.tile lt).trnNext &&
        c.lessonBell = x / 3776 then
      let s := (({ s with cyc := x % 3776 }).translate lt i x cap a (firstBell c l it)).modTile lt (fun y => { y with trnNext := i + 1 })
      if i + 1 = cap then s.setB (TRN_STATUS_LT lt) TRN_STATUS_LT_busy false else s
    else s
  | none => s

def execTranslateEntry (lt i : Nat) (s : State) : Host.Outcome State Fault Refusal := live s (s.translateEntry lt i)

/-! The fall-back (R300). -/

/-- Pages of an entry as the control cores read them. -/
def State.svcPages (s : State) (lt : Nat) (y : Plan) (dir need : Nat) : List PageRead :=
  (List.range need).map (fun k =>
    match wordOff dir (y.vpBase + k) with
    | none => { word := 0, count := 0, poison := false }
    | some o =>
      let (b, pb) := tbPeek s.mem lt (s.areaBase + o) 4 false
      let w := leVal b
      let (cb, cp) := tbPeek s.mem lt (s.areaBase + 0x4000 + 2 * (wordFrame w % 16384)) 2 false
      if wordValid w && !wordForeign lt (y.vpBase + k) w then
        { word := w, count := leVal cb, poison := pb.any id || cp.any id }
      else { word := w, count := 0, poison := pb.any id })

/-- A record is late when it is written after the job for its roster would have ended. -/
def recordLate (c : Course) (lesson iter : Nat) (prev : Nat × Nat) (jobEnd : Nat) : Bool :=
  (c.lesson == lesson && c.iter == iter && c.ran) ||
  (c.lesson == prev.1 && c.iter == prev.2 && c.ran && decide (jobEnd < 3776 * (c.lessonBell + 1)))

/-- Room for n bytes of records on a tile: in an open bell before its service slot, or within 2 KiB in a service slot (R300). -/
def State.fallRoom (s : State) (lt n : Nat) : Bool :=
  s.serviceOpen (s.partOfLt lt) && (decide (s.cyc < 3968) || decide ((s.tile lt).fallBytes + n ≤ 2048))

/-- The control cores write record i of the committed roster for a lesson, through the service port. -/
def State.fallbackRecord (s : State) (lt lesson iter i : Nat) : State :=
  let p := s.partOfLt lt
  let c := s.crsOf p
  match c.rosters.find? (fun r => r.committed && r.lesson == lesson && r.iter == iter), prevPos c lesson iter with
  | some r, some prev =>
    let t := programOf c.image prev.1 lt
    let cap := lsCapacity c.image lesson
    let a := tpRosterAddr t
    let (pd, pp) := tbPeek s.mem lt (a - 64) 64 false
    let y := planOf pd
    if s.alive lt && tpRosterValid t && i < cap && s.flag (TRN_STATUS_LT lt) TRN_STATUS_LT_fallback &&
        s.fallRoom lt (recordSize y.words) then
      let e := entryOf (bytesFrom r.data (32 + 16 * i) 16)
      let (dd, dp) := tbPeek s.mem lt (s.areaBase + 4 * (e.seq % 4096)) 4 false
      let need := ceilDiv (e.position + e.newTokens) y.tpp
      let opened := decide (e.seq < 4096) && dirOpen (leVal dd) && s.areaOn
      let bad := s.planBad y a cap
      let inRange := need ≤ y.words && y.vpBase + need ≤ 4096
      let l := if bad || !opened || !inRange then [] else s.svcPages lt y (leVal dd) need
      let status := if leAt r.data 0x10 4 ≤ i then 1 else if bad then 0x16
        else if s.flag (TRN_STATUS_LT lt) TRN_STATUS_LT_area_lost then 0x17
        else readStatus lt y e opened ((pp ++ dp).any id) need l
      let d := recordBytes y e status need (firstBell c lesson iter) l
      let o := y.map + i * recordSize y.words
      let s := if noPlace y (i + 1) then s
        else
          let m := forEach (sliceSpans o d.length) s.mem (fun m x =>
            s.tbOutside lt (o + x.1) ((d.drop x.1).take x.2) [] 1 m)
          let n := if s.cyc < 3968 then 0 else recordSize y.words
          ({ s with mem := m }).modTile lt (fun t => { t with fallBytes := t.fallBytes + n })
      let jobEnd := jobStart (tpRosterCycle t) cap + cap * entryCycles y.words + 16
      let s := if recordLate c lesson iter prev jobEnd then s.incF (TRN_COUNT_LT lt) TRN_COUNT_LT_fallback_late 1 else s
      s.recordDone lt e status
    else s
  | _, _ => s

def execFallbackRecordWrite (lt lesson iter i : Nat) (s : State) : Host.Outcome State Fault Refusal :=
  live s (s.fallbackRecord lt lesson iter i)

end Sys2Proof.Machine
end

