-- ==== Sys2Proof/Machine/Accesses.lean ====
section
/-! DEFINITION. Reads and writes of registers by the host, the control complex and the cores: access types, the registers
whose write does more than load a field, shadows of LO and HI pairs, and access errors (00 R9-R15, 02 R85). -/

namespace Sys2Proof.Machine

/-! What a port or the Milbex Link signals when its state changes (12 R327, 13 R354). -/

/-- A fabric port enters a state: PORT_STATE and LINK_STATE; a reason stays until the port leaves DOWN. -/
def State.portTo (s : State) (p st reason : Nat) : State :=
  if s.getF (PORT_STATE p) PORT_STATE_state = st then s
  else
    let s := ((s.setF (PORT_STATE p) PORT_STATE_state st).setF (PORT_STATE p) PORT_STATE_down_reason reason).trace 4 none
      none none
    s.raise evLinkState 255 3 p st reason (s.getF (PORT_STATE p) PORT_STATE_half_width) 0

/-- The flits of messages of which none has been sent. -/
def wholeMsgs (l : List TxFlit) : List TxFlit := l.dropWhile (fun t => !bitSet t.flit.flags 0)

/-- The Milbex Link enters a state. Going DOWN or being disabled clears the replay buffer, with what is left of a message that had
begun to leave or to arrive (DESIGN CHOICE, log entry 45), and UP sends what waits (13 R366). -/
def State.mxlTo (s : State) (st reason : Nat) : State :=
  if s.getF MXL_STATE MXL_STATE_state = st then s
  else
    let s := ((s.setF MXL_STATE MXL_STATE_state st).setF MXL_STATE MXL_STATE_down_reason reason).trace 4 none none none
    let m := s.mxl
    let s := if st = 7 || st = 0 then
        { s with mxl := { m with replay := [], discarding := false, cmdQ := wholeMsgs m.cmdQ, bulkQ := wholeMsgs m.bulkQ, rxCmd := [],
                                 rxBulk := [], pair := .idle } }
      else s
    let s := s.raise evLinkState 255 8 0 st reason (s.getF MXL_STATE MXL_STATE_half_width) 0
    if st = 5 then s.mxlFlush else s

/-! Plain registers (R12, R14). -/

/-- Load the RW bits, clear the RW1C bits written 1, leave every other bit. A bit of now is one that the hardware sets in the
cycle of the write: if it stands it stays (R13). -/
def regWritten (k : RegKind) (old w now : Word) : Word :=
  let rw := BitVec.ofNat 32 k.rw
  ((old &&& ~~~rw) ||| (w &&& rw)) &&& ~~~(w &&& BitVec.ofNat 32 k.w1c &&& ~~~now)

def State.plainWrite (s : State) (a : Nat) (w now : Word) : State :=
  match regKind a with
  | some k => s.setReg a (regWritten k (s.reg a) w now)
  | none => s

/-- Logical tile that a per-tile register belongs to. -/
def regTile (a : Nat) : Option Nat :=
  let o := a - regBase
  if a < regBase then none
  else if 0x30400 ≤ o && o < 0x30800 then some ((o - 0x30400) / 4)
  else if 0x40000 ≤ o && o < 0x42000 then some ((o - 0x40000) / 0x20)
  else if 0x50000 ≤ o && o < 0x51000 then some ((o - 0x50000) / 0x10)
  else if 0x60000 ≤ o && o < 0xA0000 then some ((o - 0x60000) / 0x400)
  else if 0xA0000 ≤ o && o < 0xA8000 then some ((o - 0xA0000) / 0x80)
  else if 0xA8000 ≤ o && o < 0xA8400 then some ((o - 0xA8000) / 4)
  else if 0xB0000 ≤ o && o < 0xB1000 then some ((o - 0xB0000) / 0x10)
  else if 0xE0400 ≤ o && o < 0xE0800 then some ((o - 0xE0400) / 4)
  else if 0xF0400 ≤ o && o < 0xF1400 then some ((o - 0xF0400) / 0x10)
  else none

/-- The registers of an excluded form's tiles read 0 (03 R115, 04, 05, 06, 07 R234, 09 R280, 10 R305). -/
def State.regExcluded (s : State) (a : Nat) : Bool :=
  match regTile a with
  | some lt => s.excluded (ltForm lt)
  | none => false

/-- The value a 32-bit register reads as; WO and reserved bits are never stored. -/
def State.regRead (s : State) (a : Nat) : Word :=
  if s.regExcluded a || (a == THM_COOLANT && s.variant == .ahn4H) then 0 else s.reg a

/-! Registers whose write does more. -/

/-- BELL_STRETCH.clear_peak (02 R85). -/
def State.writeStretch (s : State) (w : Word) : State :=
  if fldGet w BELL_STRETCH_clear_peak = 1 then s.setF BELL_STRETCH BELL_STRETCH_peak_charge 0 else s

/-- BELL_OVERRUN_COUNT.clear (02 R85). -/
def State.writeOverrunCount (s : State) (w : Word) : State :=
  if fldGet w BELL_OVERRUN_COUNT_clear = 1 then s.setF BELL_OVERRUN_COUNT BELL_OVERRUN_COUNT_count 0 else s

/-- ARI_SUMMARY.clear_all (03 R113). -/
def State.writeAriSummary (s : State) (w : Word) : State :=
  if fldGet w ARI_SUMMARY_clear_all = 1 then
    let s := forEach (List.range 256) s (fun s n => s.setReg (ARI_FLAGS_LT n) 0)
    let s := forEach (List.range 6) s (fun s p => s.setReg (ARI_FLAGS_PORT p) 0)
    (s.setReg ARI_FIRST 0).ariResum
  else s

/-- RW1C of a tile's or a port's flags; the summary follows (03 R113, R114). -/
def State.writeAriFlags (s : State) (a : Nat) (w now : Word) : State := (s.plainWrite a w now).ariResum

/-- NBU_TOKEN_LIMIT.limit: only while no course is loaded, at most max (09 R264). -/
def State.writeTokenLimit (s : State) (w : Word) : State :=
  if s.anyLoaded then s
  else s.setF NBU_TOKEN_LIMIT NBU_TOKEN_LIMIT_limit
    (min (fldGet w NBU_TOKEN_LIMIT_limit) (s.getF NBU_TOKEN_LIMIT NBU_TOKEN_LIMIT_max))

/-- NBU_TOKENS.clear_peak (09 R280). -/
def State.writeTokens (s : State) (w : Word) : State :=
  if fldGet w NBU_TOKENS_clear_peak = 1 then s.setF NBU_TOKENS NBU_TOKENS_peak 0 else s

def State.showFreeAll (s : State) : State := forEach ((List.range 256).filter s.present) s State.showFree

/-- TRN_AREA: only while no sequence is open, and never beyond 4 MiB (10 R288). -/
def State.writeArea (s : State) (w : Word) : State :=
  let top := fldGet w TRN_AREA_base * 0x1000 + 0xC000 + 0x4000 * (fldGet w TRN_AREA_leaf_blocks + 1)
  if s.anySeqOpen || 2 ^ 22 < top then s else (s.plainWrite TRN_AREA w 0).showFreeAll

/-- TRN_POOL: only while no sequence is open (10 R288). -/
def State.writePool (s : State) (w : Word) : State := if s.anySeqOpen then s else (s.plainWrite TRN_POOL w 0).showFreeAll

/-- TRN_STATUS_LT.fallback changes only while no course is loaded (10 R300). -/
def State.writeFallback (s : State) (lt : Nat) (w : Word) : State :=
  if s.anyLoaded then s else s.plainWrite (TRN_STATUS_LT lt) w 0

/-- UPD_SHADOW: only while no course is loaded, base at most 0x3F7; enabling starts the copies, disabling ends them (11 R312). -/
def State.writeShadow (s : State) (w : Word) : State :=
  if s.anyLoaded || 0x3F7 < fldGet w UPD_SHADOW_base then s
  else
    let s := s.plainWrite UPD_SHADOW w 0
    forEach (List.range s.partCount) s (fun s p =>
      (s.modGroup p (fun g => { g with shadowing := s.flag UPD_SHADOW UPD_SHADOW_enable })).showCopying p)

/-- FAB_PART: discarded while a course is loaded (12 R350). -/
def State.writeFabPart (s : State) (w : Word) : State := if s.anyLoaded then s else s.plainWrite FAB_PART w 0

/-- The configuration and base registers of a ring: fields other than enable only while enable is 0 (14 R395, 15 R415). -/
def State.writeRingCfg (s : State) (a : Nat) (enable : Fld) (w : Word) : State :=
  if s.flag a enable then s.setF a enable (fldGet w enable) else s.plainWrite a w 0

def State.writeRingBase (s : State) (a cfg : Nat) (enable : Fld) (w : Word) : State :=
  if s.flag cfg enable then s else s.plainWrite a w 0

/-- A head index set by the host; a write that moves it past the tail is discarded (14 R375, R395, 15 R396). -/
def State.writeHead (s : State) (head tail : Nat) (w : Word) : State :=
  let h := (s.reg head).toNat
  if ringUsed h w.toNat ≤ ringUsed h (s.reg tail).toNat then s.setReg head w else s

/-- Throttle limits: a write above the default sets the default, one below 60 sets 60 (19 R460). -/
def clampLimit (w : Word) (f : Fld) (default : Nat) : Nat := max 60 (min default (fldGet w f))

def State.writeThrottle (s : State) (w : Word) : State :=
  ((s.setF THM_THROTTLE_LIMIT THM_THROTTLE_LIMIT_cd (clampLimit w THM_THROTTLE_LIMIT_cd 95)).setF THM_THROTTLE_LIMIT
    THM_THROTTLE_LIMIT_ml (clampLimit w THM_THROTTLE_LIMIT_ml 90)).setF THM_THROTTLE_LIMIT THM_THROTTLE_LIMIT_bd
    (clampLimit w THM_THROTTLE_LIMIT_bd 95)

/-- PORT_STATE.enable: 0 holds the port DARK (12 R350). -/
def State.writePortState (s : State) (p : Nat) (w : Word) : State :=
  let s := s.plainWrite (PORT_STATE p) w 0
  if s.flag (PORT_STATE p) PORT_STATE_enable then s else s.portTo p 0 0

/-- MXL_STATE.enable: 0 holds the link DISABLED; 1 lets a disabled link train again (13 R354). -/
def State.writeMxlState (s : State) (w : Word) : State :=
  let s := s.plainWrite MXL_STATE w 0
  if !s.flag MXL_STATE MXL_STATE_enable then s.mxlTo 0 0
  else if s.getF MXL_STATE MXL_STATE_state = 0 then s.mxlTo 1 0 else s

/-! One 32-bit write, whichever register it names. -/

/-- Registers of the rings, by block offset. -/
def State.writeRings (s : State) (a : Nat) (w now : Word) : State :=
  let o := a - CMD_RING_BASE_LO 0
  let e := a - EVT_RING_BASE_LO 0
  if CMD_RING_BASE_LO 0 ≤ a && o < 0x1000 then
    let r := o / 0x40
    if o % 0x40 = 8 then s.writeRingCfg a CMD_RING_CFG_enable w
    else if o % 0x40 < 8 then s.writeRingBase a (CMD_RING_CFG r) CMD_RING_CFG_enable w
    else s.plainWrite a w now
  else if CMD_RING_BASE_LO 0 ≤ a && o < 0x1800 then
    let q := (o - 0x1000) / 0x20
    if o % 0x20 = 8 then s.writeRingCfg a CPL_RING_CFG_enable w
    else if o % 0x20 < 8 then s.writeRingBase a (CPL_RING_CFG q) CPL_RING_CFG_enable w
    else if o % 0x20 = 12 then s.writeHead (CPL_RING_HEAD q) (CPL_RING_TAIL q) w
    else s.plainWrite a w now
  else if EVT_RING_BASE_LO 0 ≤ a && e < 0x100 then
    let q := e / 0x20
    if e % 0x20 = 8 then s.writeRingCfg a EVT_RING_CFG_enable w
    else if e % 0x20 < 8 then s.writeRingBase a (EVT_RING_CFG q) EVT_RING_CFG_enable w
    else if e % 0x20 = 12 then s.writeHead (EVT_RING_HEAD q) (EVT_RING_TAIL q) w
    else s.plainWrite a w now
  else s.plainWrite a w now

/-- A write of one register; now as in regWritten. -/
def State.regWrite (s : State) (a : Nat) (w now : Word) : State :=
  if s.regExcluded a then s
  else if a = BELL_STRETCH then s.writeStretch w
  else if a = BELL_OVERRUN_COUNT then s.writeOverrunCount w
  else if a = ARI_SUMMARY then s.writeAriSummary w
  else if (ARI_FLAGS_LT 0 ≤ a && a ≤ ARI_FLAGS_LT 255) || (ARI_FLAGS_PORT 0 ≤ a && a ≤ ARI_FLAGS_PORT 5) then
    s.writeAriFlags a w now
  else if a = NBU_TOKEN_LIMIT then s.writeTokenLimit w
  else if a = NBU_TOKENS then s.writeTokens w
  else if a = TRN_AREA then s.writeArea w
  else if a = TRN_POOL then s.writePool w
  else if TRN_STATUS_LT 0 ≤ a && a ≤ TRN_STATUS_LT 255 && (a - TRN_STATUS_LT 0) % 16 = 0 then
    s.writeFallback ((a - TRN_STATUS_LT 0) / 16) w
  else if a = UPD_SHADOW then s.writeShadow w
  else if a = FAB_PART then s.writeFabPart w
  else if a = THM_THROTTLE_LIMIT then s.writeThrottle w
  else if a = THM_COOLANT_CTRL && s.variant = .ahn4H then s
  else if PORT_STATE 0 ≤ a && a ≤ PORT_STATE 5 && (regKind a == regKind (PORT_STATE 0)) then
    s.writePortState ((a - PORT_STATE 0) / (PORT_STATE 1 - PORT_STATE 0)) w
  else if a = MXL_STATE then s.writeMxlState w
  else s.writeRings a w now

/-! Accesses (R11, R85, 15 R415). -/

/-- LO registers that have a HI register in the next word (R10, R85). -/
def loPairs : List Nat :=
  [BELL_COUNT_LO, BELL_RECESS_AT_LO, BELL_RECESS_TAKEN_LO, ENERGY_SNAP_BELL_LO, ENERGY_MODULE_LO, SEC_SERIAL_LO] ++
  (List.range 4).flatMap (fun p => [BELL_CRS_BELLS_LO p, BELL_CRS_HALT_LO p, BELL_CRS_CKPT_LO p, UPD_ACTIVE_AT_LO p,
    ENERGY_PART_LO p, MEM_FAULT_LO p]) ++
  (List.range 64).flatMap (fun r => [CMD_RING_BASE_LO r, CPL_RING_BASE_LO r, ENERGY_RING_LO r]) ++
  (List.range 8).map EVT_RING_BASE_LO ++
  (List.range 32).map (fun i => PERF_LO (i / 8) (i % 8)) ++
  (List.range 2048).map (fun i => MOV_FAULT_ADDR_LO_LT (i / 8) (i % 8))

/-- Key of a requester's shadow of a HI register. -/
def shadowKey (req a : Nat) : Nat := 2 ^ 48 * req + a

/-- A register access error: counted, and one REG_ACCESS until event_armed is cleared (R11, 15 R415). -/
def State.accessError (s : State) (a width : Nat) (write : Bool) : State :=
  let s := s.incF REG_ACCESS_ERR REG_ACCESS_ERR_count 1
  if s.flag REG_ACCESS_ERR REG_ACCESS_ERR_event_armed then s
  else (s.setB REG_ACCESS_ERR REG_ACCESS_ERR_event_armed true).raise evRegAccess 255 0 0 a width (boolNat write) 0

/-- Whether an access has a width and alignment the registers serve. -/
def accessGood (a width : Nat) : Bool := (width == 4 && a % 4 == 0) || (width == 8 && a % 8 == 0)

/-- A write of 4 or 8 bytes; any other width or alignment is discarded and recorded. -/
def State.accessWrite (s : State) (a width v now : Nat) : State :=
  if !accessGood a width then s.accessError a width true
  else if width = 4 then s.regWrite a (BitVec.ofNat 32 v) (BitVec.ofNat 32 now)
  else (s.regWrite a (BitVec.ofNat 32 v) (BitVec.ofNat 32 now)).regWrite (a + 4) (BitVec.ofNat 32 (v / 2 ^ 32))
    (BitVec.ofNat 32 (now / 2 ^ 32))

/-- A read of 4 or 8 bytes by a requester: 0 and a record for any other width or alignment; a 32-bit read of a LO register
leaves the HI register in the requester's shadow, which its next 32-bit read of that HI register returns. -/
def State.accessRead (s : State) (req a width : Nat) : Nat × State :=
  if !accessGood a width then (0, s.accessError a width false)
  else if width = 8 then ((s.regRead a).toNat + 2 ^ 32 * (s.regRead (a + 4)).toNat, s)
  else match tfind s.shadows (shadowKey req a) with
    | some w => (w.toNat, { s with shadows := tdel s.shadows (shadowKey req a) })
    | none =>
      let v := (s.regRead a).toNat
      if loPairs.contains a then (v, { s with shadows := tput s.shadows (shadowKey req (a + 4)) (s.regRead (a + 4)) })
      else (v, s)

/-! The rows. Each carries the value written; now names the RW1C bits that the hardware sets in the cycle of the write (00 R13). -/

def execBellClearPeak (w : Word) (s : State) : Host.Outcome State Fault Refusal := live s (s.writeStretch w)

def execBellOverrunClear (w : Word) (s : State) : Host.Outcome State Fault Refusal := live s (s.writeOverrunCount w)

def execAriClearAll (w : Word) (s : State) : Host.Outcome State Fault Refusal := live s (s.writeAriSummary w)

/-- The flags of logical tile n, or of port n. -/
def execAriFlagClear (port : Bool) (n : Nat) (x : ClearWrite) (s : State) : Host.Outcome State Fault Refusal :=
  live s (if port then (if n < 6 then s.writeAriFlags (ARI_FLAGS_PORT n) x.w x.now else s)
    else if n < 256 && !s.excluded (ltForm n) then s.writeAriFlags (ARI_FLAGS_LT n) x.w x.now else s)

def execMemFaultClear (l : Nat) (x : ClearWrite) (s : State) : Host.Outcome State Fault Refusal :=
  live s (if l < 4 then s.plainWrite (MEM_FAULT_HI l) x.w x.now else s)

def execNbuTokenLimitWrite (w : Word) (s : State) : Host.Outcome State Fault Refusal := live s (s.writeTokenLimit w)

def execNbuTokensClearPeak (w : Word) (s : State) : Host.Outcome State Fault Refusal := live s (s.writeTokens w)

def execTrnAreaWrite (w : Word) (s : State) : Host.Outcome State Fault Refusal := live s (s.writeArea w)

def execTrnPoolWrite (w : Word) (s : State) : Host.Outcome State Fault Refusal := live s (s.writePool w)

def execTrnFallbackWrite (lt : Nat) (w : Word) (s : State) : Host.Outcome State Fault Refusal :=
  live s (if lt < 256 && !s.excluded (ltForm lt) then s.writeFallback lt w else s)

def execUpdShadowWrite (w : Word) (s : State) : Host.Outcome State Fault Refusal := live s (s.writeShadow w)

def execFabPartWrite (w : Word) (s : State) : Host.Outcome State Fault Refusal := live s (s.writeFabPart w)

/-- A write of a base or configuration register of a command, completion or event ring, by its address. -/
def execRingCfgWrite (a : Nat) (w : Word) (s : State) : Host.Outcome State Fault Refusal :=
  live s (if (CMD_RING_BASE_LO 0 ≤ a && a < CMD_RING_BASE_LO 0 + 0x1800) ||
    (EVT_RING_BASE_LO 0 ≤ a && a < EVT_RING_BASE_LO 0 + 0x100) then s.writeRings a w 0 else s)

def execCplRingHeadWrite (q : Nat) (w : Word) (s : State) : Host.Outcome State Fault Refusal :=
  live s (if q < 64 then s.writeHead (CPL_RING_HEAD q) (CPL_RING_TAIL q) w else s)

def execEvtRingHeadWrite (e : Nat) (w : Word) (s : State) : Host.Outcome State Fault Refusal :=
  live s (if e < 8 then s.writeHead (EVT_RING_HEAD e) (EVT_RING_TAIL e) w else s)

def execThrottleLimitWrite (w : Word) (s : State) : Host.Outcome State Fault Refusal := live s (s.writeThrottle w)

def execCoolantDeclineClear (x : ClearWrite) (s : State) : Host.Outcome State Fault Refusal :=
  live s (s.plainWrite THM_COOLANT x.w x.now)

def execCrackSuspectClear (form : Nat) (x : ClearWrite) (s : State) : Host.Outcome State Fault Refusal :=
  live s (if form < 16 then s.plainWrite (PWR_FORM form) x.w x.now else s)

def execEvacPendingClear (i : Nat) (x : ClearWrite) (s : State) : Host.Outcome State Fault Refusal :=
  live s (if i < 8 then s.plainWrite (BRG_EVAC_PENDING i) x.w x.now else s)

def execRegAccessArmClear (x : ClearWrite) (s : State) : Host.Outcome State Fault Refusal :=
  live s (s.plainWrite REG_ACCESS_ERR x.w x.now)

def execServiceStopClear (lt c : Nat) (x : ClearWrite) (s : State) : Host.Outcome State Fault Refusal :=
  live s (if lt < 256 && c < 8 && !s.excluded (ltForm lt) then s.plainWrite (MOV_STATUS_LT lt c) x.w x.now else s)

/-- A 32-bit read of a LO register by a requester. -/
def execLoRegisterRead (req a : Nat) (s : State) : Host.Outcome State Fault Refusal := live s (s.accessRead req a 4).2

/-- An access of another width or alignment. -/
def execRegisterAccessError (a width : Nat) (write : Bool) (s : State) : Host.Outcome State Fault Refusal :=
  live s (if accessGood a width then s else s.accessError a width write)

/-- A write of 4 or 8 bytes to any register. -/
def execRegisterWrite (a width : Nat) (x : DataWrite) (s : State) : Host.Outcome State Fault Refusal :=
  live s (if accessGood a width then s.accessWrite a width x.v x.now else s)

end Sys2Proof.Machine
end

