-- ==== Sys2Proof/Machine/Service.lean ====
section
/-! DEFINITION. Service accesses: those served by this device's own paths, and those carried over the fabric to another
device (01 R40, 08 R253, 12 R328-R330, 13 R365). -/

namespace Sys2Proof.Machine

/-! Global addresses (01 R40). -/

def gaDevice (g : Nat) : Nat := g / 2 ^ 48 % 65536
def gaAddr (g : Nat) : Nat := g % 2 ^ 48

/-- The device's own identity: 0 until a link map gives one. -/
def State.ownId (s : State) : Nat := if s.flag STK_ID STK_ID_id_valid then s.deviceId else 0

def State.gaLocal (s : State) (g : Nat) : Bool := gaDevice g == s.ownId

/-! Accesses on this device. -/

/-- A read by a service requester: status and bytes up to a poisoned word. Registers obey R11. -/
def State.localRead (s : State) (req a n : Nat) : (Nat × List Byte) × State :=
  if regionOf (canonAddr a) = .register then
    let (v, s) := s.accessRead req a n
    ((0, leBytes n v), s)
  else match s.svcRefuse a n false with
    | some e => ((e, []), s)
    | none =>
      let ((d, good), s) := s.svcRead a n
      ((if good then 0 else stUNCORRECTABLE, d), s)

/-- A write by a service requester: status, and how many bytes were written. -/
def State.localWrite (s : State) (a : Nat) (d : List Byte) : (Nat × Nat) × State :=
  if regionOf (canonAddr a) = .register then ((0, d.length), s.accessWrite a d.length (leVal d) 0)
  else match s.svcRefuse a d.length true with
    | some e => ((e, 0), s)
    | none =>
      let ((k, good), s) := s.svcWrite a d
      ((if good then 0 else stUNCORRECTABLE, k), s)

/-! Windows (02 R45, R50, R51, 08 R238): an access to memory runs in the service slot and in open bells. One that comes outside
them waits; what waits is served, oldest first, at a0 and a3776 of a bell and in its service slot. Accesses to registers
go over the control network and do not wait (DEDUCED, log entry 41). -/

/-- Partition that a canonical address belongs to: its tile's, or for a reduction buffer its port's. -/
def State.addrPart (s : State) (c : Nat) : Nat :=
  match regionOf c with
  | .reduction => s.partOfPort ((c - rbBase) / 0x1000000)
  | _ => s.partOfLt (addrTile c)

/-- The byte at an address may be accessed now. -/
def State.byteOpen (s : State) (a : Nat) : Bool :=
  let c := canonAddr a
  match regionOf c with
  | .locker => s.belowOpen (s.addrPart c)
  | .register => true
  | _ => s.serviceOpen (s.addrPart c)

def State.rangeOpen (s : State) (a n : Nat) : Bool := (List.range n).all (fun i => s.byteOpen (a + i))

/-- An access waits for its window. -/
def State.svcHold (s : State) (owner : SvcFor) (write : Bool) (a n : Nat) (d : List Byte) : State :=
  { s with svcWait := s.svcWait ++ [{ owner := owner, write := write, addr := a, len := n, data := d }] }

/-! Frames (12 R328). -/

/-- Header and payload, the bytes the CRC covers. -/
def frameBytes (f : Frame) : List Byte :=
  leBytes 1 f.kind ++ leBytes 1 f.flags ++ leBytes 2 f.src ++ leBytes 2 f.dst ++ leBytes 2 f.stream ++ leBytes 8 f.bell ++
  leBytes 2 f.seq ++ leBytes 2 f.sendCycle ++ leBytes 2 f.tieId ++ leBytes 2 f.rsvHdr ++ leBytes 8 f.poison ++ leBytes 8 f.gaddr ++
  leBytes 2 f.bytes ++ leBytes 2 f.status ++ leBytes 4 (f.rsvHdr / 2 ^ 16) ++ f.payload

def sealFrame (f : Frame) : Frame := { f with crc := crc32 (frameBytes f) }

def fkTIMED : Nat := 1
def fkWRITE : Nat := 2
def fkREAD : Nat := 3
def fkREPLY : Nat := 4

/-- A service frame of this device. -/
def State.svcFrame (s : State) (kind dst tag gaddr n status : Nat) (d : List Byte) : Frame :=
  sealFrame { kind := kind, flags := 0, src := s.deviceId, dst := dst, stream := tag, bell := s.bellCount, seq := 0,
              sendCycle := s.cyc % 3776, tieId := 0, poison := 0, gaddr := gaddr, bytes := n - 1, status := status,
              payload := bytesFrom d 0 3840, crc := 0, rsvHdr := 0, rsvTail := 0 }

/-! Routing (12 R322, R330). -/

def devX (d : Nat) : Nat := d % 64
def devY (d : Nat) : Nat := d / 64 % 32
def devZ (d : Nat) : Nat := d / 2048 % 32

/-- A device lies in the torus of the link map. -/
def State.inTorus (s : State) (d : Nat) : Bool :=
  s.map.loaded && decide (devX d < s.map.nx) && decide (devY d < s.map.ny) && decide (devZ d < s.map.nz)

/-- Port toward a coordinate on a ring of n: the shorter way, + where the two are equal. -/
def ringWay (here there n plus : Nat) : Nat := if 2 * ((there + n - here) % n) ≤ n then plus else plus + 1

/-- Port of the next hop: along X, then Y, then Z. -/
def State.nextHop (s : State) (d : Nat) : Nat :=
  let me := s.deviceId
  if devX d ≠ devX me then ringWay (devX me) (devX d) s.map.nx 0
  else if devY d ≠ devY me then ringWay (devY me) (devY d) s.map.ny 2
  else ringWay (devZ me) (devZ d) s.map.nz 4

/-- Send a service frame on a port when it is UP and holds a credit; else it waits its turn. -/
def State.svcEmit (s : State) (q : Nat) (f : Frame) : State :=
  let t := s.port q
  if s.portUp q && 0 < t.credits && t.svcOut = [] then
    (s.modPort q (fun t => { t with credits := t.credits - 1 })).send (.frame q f)
  else s.modPort q (fun t => { t with svcOut := t.svcOut ++ [f] })

/-- Frames that waited go out as credits return. -/
def svcDrain (q : Nat) : State → List Frame → State
  | s, [] => s.modPort q (fun t => { t with svcOut := [] })
  | s, f :: l =>
    if s.portUp q && 0 < (s.port q).credits then
      svcDrain q ((s.modPort q (fun t => { t with credits := t.credits - 1 })).send (.frame q f)) l
    else s.modPort q (fun t => { t with svcOut := f :: l })

def State.svcRoute (s : State) (f : Frame) : State := s.svcEmit (s.nextHop f.dst) f

/-! Accesses to other devices (12 R330): frames of at most 3,840 bytes, one after another. -/

/-- The frame that carries the next part of a remote access. -/
def State.remoteFrame (s : State) (r : Remote) : Frame :=
  let n := min 3840 (r.bytes - r.done)
  if r.write then s.svcFrame fkWRITE (gaDevice r.gaddr) r.tag (r.gaddr + r.done) n 0 ((r.data.drop r.done).take n)
  else s.svcFrame fkREAD (gaDevice r.gaddr) r.tag (r.gaddr + r.done) n 0 []

/-- Start a remote access, or part of one, under a fresh tag. -/
def State.remoteGo (s : State) (r : Remote) : State :=
  let r := { r with tag := s.nextSvcTag }
  let s := { s with remotes := s.remotes ++ [r], nextSvcTag := (s.nextSvcTag + 1) % 65536 }
  s.svcRoute (s.remoteFrame r)

/-- Why a remote access cannot start: with no identity every other device is unmapped; a device outside the link map
cannot be reached (01 R40, 12 R330). -/
def State.remoteRefuse (s : State) (g : Nat) : Option Nat :=
  if !s.flag STK_ID STK_ID_id_valid then some stADDR_UNMAPPED
  else if !s.inTorus (gaDevice g) then some stREMOTE_UNREACHABLE else none

/-! Service transfers of the mover channels (06 R200): status codes (06 R203). -/

def mvUNMAPPED : Nat := 0x10
def mvPROTECTED : Nat := 0x11
def mvUNCORRECTABLE : Nat := 0x12
def mvPOISONED : Nat := 0x13
def mvWINDOW : Nat := 0x14
def mvINVALID : Nat := 0x16

/-- A channel's oldest transfer ends: its requests for passes are void, and the passes it holds go back (07 R227). -/
def State.dropPost (s : State) (lt c : Nat) : State :=
  let g := 8 * lt + c
  let s := { s with tiles := s.tiles.map (fun (x : Nat × TileSt) => (x.1, { x.2 with hallQueue := x.2.hallQueue.filter (fun q => q.1 != g) })) }
  s.modChan g (fun ch => { ch with
    posts := ch.posts.drop 1, passes := 0, owed := if ch.passes = 0 then ch.owed else ch.owed ++ [(ch.passTile, ch.passes)] })

/-- The service transfer of a command that a channel is carrying halts with UNCORRECTABLE, and the channel takes no further one
until service_stop is cleared; those of the command behind it are dropped (06 R200, 13 R365). -/
def State.stopTransfers (s : State) (ring tag : Nat) : State :=
  let mine (x : ServicePost) : Bool := x.ring == ring && x.tag == tag
  forEach (s.chans.map (·.1)) s (fun s g =>
    let s := if (s.chan g).posts.head?.any mine then
        (((s.dropPost (g / 8) (g % 8)).setF (MOV_STATUS_LT (g / 8) (g % 8)) MOV_STATUS_LT_status mvUNCORRECTABLE).setB
          (MOV_STATUS_LT (g / 8) (g % 8)) MOV_STATUS_LT_busy false).setB (MOV_STATUS_LT (g / 8) (g % 8)) MOV_STATUS_LT_service_stop true
      else s
    s.modChan g (fun ch => { ch with posts := ch.posts.filter (fun x => !mine x) }))

/-! Memory-class transfers (14 R385, R386): a command's bytes move in ascending order; the bytes moved stand in the
command's working values. -/

/-- Where a transfer reads from, or writes to. -/
inductive Side where
  | here (a : Nat)
  | there (g : Nat)
  | host (a : Nat)
  | fill (v : Nat)
  deriving DecidableEq, Repr

def State.gaSide (s : State) (g : Nat) : Side := if s.gaLocal g then .here (gaAddr g) else .there g

/-- Source, destination and bytes of a memory-class command. -/
def State.xferOf (s : State) (k : Packet) : Side × Side × Nat :=
  if k.opcode = opMEM_COPY then (s.gaSide k.p0, s.gaSide k.p1, k.p2 + 1)
  else if k.opcode = opMEM_FILL then (.fill k.p2, s.gaSide k.p0, k.p1 + 1)
  else if k.opcode = opDMA_IN then (.host k.p0, s.gaSide k.p1, k.p2 + 1)
  else (s.gaSide k.p0, .host k.p1, k.p2 + 1)

/-- Bytes of a fill from an offset on: the pattern repeats every 8 bytes. -/
def fillBytes (v off n : Nat) : List Byte := (List.range n).map (fun i => BitVec.ofNat 8 (v / 2 ^ (8 * ((off + i) % 8)) % 256))

/-- Count the bytes a command has moved (15 R408, R411). -/
def State.countMoved (s : State) (c : Cmd) (n : Nat) : State :=
  let s := s.perfAdd c.part 6 n
  { s with energy := { s.energy with moved := tset s.energy.moved c.ring (tgetD s.energy.moved c.ring 0 + n) 0 } }

/-- Bytes of one part: whole for a transfer within the device, one message or frame otherwise. -/
def partLen (src dst : Side) (left : Nat) : Nat :=
  match src, dst with
  | .here _, .here _ => left
  | .fill _, .here _ => left
  | .there _, _ => min 3840 left
  | _, .there _ => min 3840 left
  | _, _ => min 4096 left

/-- The command ends on a failure with the bytes moved as its result; with none moved it has changed nothing. -/
def State.xferFail (s : State) (c : Cmd) (st moved : Nat) : State :=
  (s.countMoved c moved).finish c st (decide (0 < moved)) 0 moved

/-- The command with its bytes moved noted; the first byte is its commit point. -/
def xferNoted (c : Cmd) (moved : Nat) : Cmd :=
  { c with data := [moved], phase := if 0 < moved then .committed else .active }

/-- Deliver the next part of a transfer; the answer says how many bytes have been moved in all, and the status where it
ended. A remote destination answers later, and so does one on this device that waits for its window. -/
def State.xferPut (s : State) (c : Cmd) (dst : Side) (done : Nat) (d : List Byte) : (Nat × Option Nat × Bool) × State :=
  match dst with
  | .here a =>
    if s.rangeOpen (a + done) d.length then
      let ((st, k), s) := s.localWrite (a + done) d
      ((done + k, if st = 0 then none else some st, false), s)
    else ((done, none, true), s.svcHold (.cmd c.ring c.pkt.tag) true (a + done) d.length d)
  | .host a => ((done + d.length, none, false), s.mxlSend (.hostWrite true (some (c.ring, c.pkt.tag)) (a + done) d))
  | .there g =>
    ((done, none, true), s.remoteGo { tag := 0, owner := .cmd c.ring c.pkt.tag, write := true, gaddr := g + done,
                                      bytes := d.length, done := 0, data := d })
  | .fill _ => ((done + d.length, none, false), s)

/-- Ask the source of the next part for its bytes where they cannot be read at once. -/
def State.xferAsk (s : State) (c : Cmd) (src : Side) (done n : Nat) : State :=
  match src with
  | .there g =>
    s.remoteGo { tag := 0, owner := .cmd c.ring c.pkt.tag, write := false, gaddr := g + done, bytes := n, done := 0,
                 data := [] }
  | .host a =>
    let t := s.mxl.nextTag
    let h : HostRead := { bulk := true, tag := t, ring := c.ring, cmdTag := c.pkt.tag, addr := a + done, len := n }
    let s := { s with mxl := { s.mxl with nextTag := (t + 1) % 65536, hostReads := s.mxl.hostReads ++ [h] } }
    s.mxlSend (.hostRead true t (a + done) n)
  | .here a => s.svcHold (.cmd c.ring c.pkt.tag) false (a + done) n []
  | .fill _ => s

/-- Bytes of the next part from a source on this device: status and bytes; none where they must be asked for. -/
def State.xferGet (s : State) (src : Side) (done n : Nat) : Option ((Nat × List Byte) × State) :=
  match src with
  | .here a => if s.rangeOpen (a + done) n then some (s.localRead 0 (a + done) n) else none
  | .fill v => some ((0, fillBytes v done n), s)
  | _ => none

/-- Move parts until the transfer ends or must wait for an answer; fuel bounds the parts. -/
def xferPump : Nat → Cmd → State → Nat → State
  | 0, _, s, _ => s
  | k + 1, c, s, done =>
    let (src, dst, total) := s.xferOf c.pkt
    if total ≤ done then (s.countMoved c total).ok c total
    else
      let n := partLen src dst (total - done)
      match s.xferGet src done n with
      | none => s.xferAsk c src done n
      | some ((st, d), s) =>
        if d = [] && st ≠ 0 then s.xferFail c st done
        else match s.xferPut c dst done d with
          | ((_, none, true), s) => if st = 0 then s else s.putCmd c { c with data := [done, st] }
          | ((moved, none, false), s) =>
            let c' := xferNoted c moved
            let s := s.putCmd c c'
            if st = 0 then xferPump k c' s moved else s.xferFail c' st moved
          | ((moved, some e, _), s) => s.xferFail c e moved

def xferFuel (s : State) (c : Cmd) : Nat := (s.xferOf c.pkt).2.2 / 3840 + 3

/-- Bytes the command has moved so far. -/
def xferDone (c : Cmd) : Nat := c.data.headD 0

/-- The part asked for has arrived: deliver it and go on. -/
def State.xferArrive (s : State) (c : Cmd) (st : Nat) (d : List Byte) : State :=
  let done := xferDone c
  if d = [] then s.xferFail c st done
  else match s.xferPut c (s.xferOf c.pkt).2.1 done d with
    | ((_, none, true), s) => if st = 0 then s else s.putCmd c { c with data := [done, st] }
    | ((moved, none, false), s) =>
      let c' := xferNoted c moved
      let s := s.putCmd c c'
      if st = 0 then xferPump (xferFuel s c') c' s moved else s.xferFail c' st moved
    | ((moved, some e, _), s) => s.xferFail c e moved

/-- The status with which the transfer ends once the part being written is done: the source failed behind that part. -/
def xferEnds (c : Cmd) : Nat := c.data.getD 1 0

/-- A part of n bytes has been written after a wait: go on, or end with the n bytes of it that were written. -/
def State.xferWritten (s : State) (c : Cmd) (st n : Nat) : State :=
  if st ≠ 0 then s.xferFail c st (xferDone c + n)
  else if xferEnds c ≠ 0 then s.xferFail c (xferEnds c) (xferDone c + n)
  else
    let c' := xferNoted c (xferDone c + n)
    xferPump (xferFuel s c') c' (s.putCmd c c') (xferDone c')

/-- Some byte of a range lies in another partition than p: a ring's commands act on its partition alone (14 R384). -/
def State.rangeForeign (s : State) (p a n : Nat) : Bool :=
  (List.range n).any (fun i => s.addrPart (canonAddr (a + i)) != p)

/-- Check of a side on this device before the first byte moves. R384 names no status for an address of another partition; the
model answers WRONG_PARTITION (DESIGN CHOICE, log entry 42). -/
def State.sideRefuse (s : State) (p : Nat) (x : Side) (n : Nat) (write : Bool) : Option Nat :=
  match x with
  | .here a =>
    match s.svcRefuse a n write with
    | some e => some e
    | none => if regionOf (canonAddr a) != .register && s.rangeForeign p a n then some stWRONG_PARTITION else none
  | .there g => s.remoteRefuse g
  | _ => none

/-- A canonical byte lies in a range that begins at a native or an alias address. -/
def inRange (c b n : Nat) : Bool :=
  let y := if aliasBase ≤ b && b < aliasBase + 2 ^ 38 && c < 2 ^ 38 then aliasOf c else c
  b ≤ y && y < b + n

/-- The sides of a transfer overlap (14 R386). -/
def sidesOverlap (x y : Side) (n : Nat) : Bool :=
  match x, y with
  | .here a, .here b => (List.range n).any (fun i => inRange (canonAddr (a + i)) b n)
  | .there g, .there h =>
    gaDevice g == gaDevice h && (List.range n).any (fun i => inRange (canonAddr (gaAddr g + i)) (gaAddr h) n)
  | _, _ => false

/-- Parameter words that hold the addresses of a memory-class command. -/
def srcWord (_ : Nat) : Nat := 0

def dstWord (o : Nat) : Nat := if o = opMEM_FILL then 0 else 1

/-- A memory-class command is accepted: its checks, then its bytes move (14 R385, R386). Once a stack reset has begun no
service transfer is accepted (17 R430). -/
def State.xferStart (s : State) (c : Cmd) : State :=
  let (src, dst, n) := s.xferOf c.pkt
  if s.clock.resetBegun then s
  else if sidesOverlap src dst n then s.badParam c 0 0
  else match s.sideRefuse c.part src n false, s.sideRefuse c.part dst n true with
    | some e, _ => s.failAt c e (srcWord c.pkt.opcode) 0
    | none, some e => s.failAt c e (dstWord c.pkt.opcode) 0
    | none, none =>
      let c' := xferNoted c 0
      xferPump (xferFuel s c') c' (s.putCmd c c') 0

end Sys2Proof.Machine
end

