-- ==== Sys2Proof/Machine/Requests.lean ====
section
/-! DEFINITION. The host's requests over the Milbex Link: doorbells, register and memory accesses, and the order in which they
take effect (13 R357, R363-R365). -/

namespace Sys2Proof.Machine

/-! What each request does. -/

/-- DOORBELL (R364). -/
def State.doorbell (s : State) (part ring tail : Nat) : State :=
  let head := (s.reg (CMD_RING_HEAD ring)).toNat
  if !s.ringOn ring || s.ringPart ring ≠ part || 2 ^ s.ringSize ring < ringUsed head (tail % 2 ^ 32) then
    s.incF MXL_ERRORS MXL_ERRORS_db_dropped 1
  else s.setReg (CMD_RING_TAIL ring) (BitVec.ofNat 32 tail)

def isRegister (a : Nat) : Bool := regionOf (canonAddr a) == .register

/-- REG_READ of 4 or 8 bytes at a global address. -/
def State.mxlRegRead (s : State) (tag g width : Nat) : State :=
  if s.gaLocal g then
    if isRegister (gaAddr g) then
      let (v, s) := s.accessRead 0 (gaAddr g) width
      s.mxlSend (.regData tag 0 g (leBytes width v))
    else s.mxlSend (.regData tag stADDR_UNMAPPED g (leBytes width 0))
  else match s.remoteRefuse g with
    | some e => s.mxlSend (.regData tag e g (leBytes width 0))
    | none => s.remoteGo { tag := 0, owner := .reg tag, write := false, gaddr := g, bytes := width, done := 0, data := [] }

def State.mxlRegWrite (s : State) (tag g width v now : Nat) : State :=
  if s.gaLocal g then (if isRegister (gaAddr g) then s.accessWrite (gaAddr g) width v now else s)
  else match s.remoteRefuse g with
    | some _ => s
    | none => s.remoteGo { tag := 0, owner := .reg tag, write := true, gaddr := g, bytes := width, done := 0,
                           data := leBytes width v }

/-- A BULK request has completed: what waited for it alone may go on (R363). -/
def State.bulkDone (s : State) (tag : Nat) : State :=
  { s with mxl := { s.mxl with heldReqs := s.mxl.heldReqs.map (fun h => { h with waits := h.waits.filter (· != tag) }) } }

/-- The reply to a MEM_READ or a MEM_WRITE, which is then complete. -/
def State.memReply (s : State) (tag : Nat) (x : Msg) : State := (s.mxlSend x).bulkDone tag

/-- MEM_READ of up to 4,096 bytes; poisoned data end the reply before the poisoned word (R365). -/
def State.mxlMemRead (s : State) (tag g n : Nat) : State :=
  if s.gaLocal g then
    if s.rangeOpen (gaAddr g) n then
      let ((st, d), s) := s.localRead 0 (gaAddr g) n
      s.memReply tag (.memData tag st g d)
    else s.svcHold (.mem tag g) false (gaAddr g) n []
  else match s.remoteRefuse g with
    | some e => s.memReply tag (.memData tag e g [])
    | none => s.remoteGo { tag := 0, owner := .mem tag, write := false, gaddr := g, bytes := n, done := 0, data := [] }

/-- MEM_WRITE of the data before a poisoned flit, where there is one (R365). -/
def State.mxlMemWrite (s : State) (tag g : Nat) (b : List Byte) (bad : Bool) : State :=
  if s.gaLocal g then
    if s.rangeOpen (gaAddr g) b.length then
      let ((st, _), s) := if b = [] then ((0, 0), s) else s.localWrite (gaAddr g) b
      s.memReply tag (.memAck tag (if st = 0 && bad then stUNCORRECTABLE else st) g)
    else s.svcHold (if bad then .memCut tag g else .mem tag g) true (gaAddr g) b.length b
  else match s.remoteRefuse g with
    | some e => s.memReply tag (.memAck tag e g)
    | none =>
      if b = [] then s.memReply tag (.memAck tag (if bad then stUNCORRECTABLE else 0) g)
      else s.remoteGo { tag := 0, owner := if bad then .memCut tag else .mem tag, write := true, gaddr := g, bytes := b.length,
                        done := 0, data := b }

def State.serveReq (s : State) (q : HostReq) : State :=
  match q with
  | .doorbell part ring tail => s.doorbell part ring tail
  | .regRead tag g n => s.mxlRegRead tag g n
  | .regWrite tag g n v now => s.mxlRegWrite tag g n v now
  | .memRead tag g n => s.mxlMemRead tag g n
  | .memWrite tag g d bad => s.mxlMemWrite tag g d bad

/-! Their order (R363). -/

def reqCommand : HostReq → Bool
  | .memRead _ _ _ => false
  | .memWrite _ _ _ _ => false
  | _ => true

/-- A BULK request that has not completed: its tag, whether it writes, its global address and bytes. -/
structure BulkOpen where
  tag : Nat
  write : Bool
  g : Nat
  n : Nat
  deriving DecidableEq, Repr

def remoteOpen (r : Remote) : Option BulkOpen :=
  match r.owner with
  | .mem t => some ⟨t, r.write, r.gaddr, r.bytes⟩
  | .memCut t => some ⟨t, r.write, r.gaddr, r.bytes⟩
  | _ => none

def svcAccOpen (x : SvcAcc) : Option BulkOpen :=
  match x.owner with
  | .mem t g => some ⟨t, x.write, g, x.len⟩
  | .memCut t g => some ⟨t, x.write, g, x.len⟩
  | _ => none

def heldOpen (h : HeldReq) : Option BulkOpen :=
  match h.req with
  | .memRead t g n => some ⟨t, false, g, n⟩
  | .memWrite t g d _ => some ⟨t, true, g, d.length⟩
  | _ => none

/-- BULK requests under way: on other devices, waiting for a window on this one, or held behind others. -/
def State.bulkOpen (s : State) : List BulkOpen :=
  s.remotes.filterMap remoteOpen ++ s.svcWait.filterMap svcAccOpen ++ s.mxl.heldReqs.filterMap heldOpen

/-- A byte that a request names is one of the n bytes at a global address. -/
def State.reqMeets (s : State) (g n : Nat) (o : BulkOpen) : Bool :=
  (gaDevice g == gaDevice o.g || (s.gaLocal g && s.gaLocal o.g)) &&
  (List.range n).any (fun i => inRange (canonAddr (gaAddr g + i)) (gaAddr o.g) o.n)

/-- Tags of the BULK requests that must complete first: every MEM_WRITE sent before a DOORBELL or REG_WRITE, every access sent
before a MEM_READ or MEM_WRITE to overlapping bytes. -/
def State.waitsOf (s : State) (q : HostReq) : List Nat :=
  let writes := (s.bulkOpen.filter (·.write)).map (·.tag)
  match q with
  | .doorbell _ _ _ => writes
  | .regWrite _ _ _ _ _ => writes
  | .regRead _ _ _ => []
  | .memRead _ g n => (s.bulkOpen.filter (s.reqMeets g n)).map (·.tag)
  | .memWrite _ g d _ => (s.bulkOpen.filter (s.reqMeets g d.length)).map (·.tag)

/-- A register write that was held takes effect later than the cycle that its now named. -/
def reqHeld : HostReq → HostReq
  | .regWrite t g n v _ => .regWrite t g n v 0
  | q => q

/-- A request takes effect, or is held: for what it waits for, or as a COMMAND request behind another one that is held. -/
def State.issue (s : State) (q : HostReq) : State :=
  let w := s.waitsOf q
  if w = [] && !(reqCommand q && s.mxl.heldReqs.any (fun h => reqCommand h.req)) then s.serveReq q
  else { s with mxl := { s.mxl with heldReqs := s.mxl.heldReqs ++ [{ req := reqHeld q, waits := w }] } }

/-- The first held request that waits for nothing; a COMMAND request also waits for those of its class before it. -/
def nextReady : Bool → List HeldReq → Option HeldReq
  | _, [] => none
  | seen, h :: l =>
    if h.waits = [] && !(reqCommand h.req && seen) then some h else nextReady (seen || reqCommand h.req) l

/-- Requests that wait for nothing any more take effect, at most k. -/
def releaseReqs : Nat → State → State
  | 0, s => s
  | k + 1, s => match nextReady false s.mxl.heldReqs with
    | some h => releaseReqs k (({ s with mxl := { s.mxl with heldReqs := s.mxl.heldReqs.erase h } } : State).serveReq h.req)
    | none => s

def State.release (s : State) : State := releaseReqs s.mxl.heldReqs.length s

end Sys2Proof.Machine
end

