-- ==== Sys2Proof/Machine/Fabric.lean ====
section
/-! DEFINITION. The Denwifen Fabric: port programs and their frames, reduction and votes, service frames, symbols,
training and the link map (12). -/

namespace Sys2Proof.Machine

/-! Port programs (R339, R340). -/

def poSEND : Nat := 1
def poRECV : Nat := 2
def poREDUCE : Nat := 3
def poRELAY : Nat := 4
def poVSEND : Nat := 5
def poVADD : Nat := 6
def poVSIGN : Nat := 7

def ppCount (g : List Byte) : Nat := leAt g 6 2
def ppOffset (g : List Byte) : Nat := leAt g 8 4

def peOp (d : Nat) : Nat := dBits d 0 0 4
def peStream (d : Nat) : Nat := dBits d 0 32 12
def peOutStream (d : Nat) : Nat := dBits d 0 44 12
def peOutPort (d : Nat) : Nat := dBits d 0 56 3
def peFrames (d : Nat) : Nat := dBits d 1 0 10 + 1
def peGap (d : Nat) : Nat := dBits d 1 10 6
def peForms (d : Nat) : Nat := dBits d 1 16 16
def peSrcAddr (d : Nat) : Nat := dBits d 1 32 24
def peSrc (d : Nat) : Nat := dBits d 1 56 2
def peSrcFmt (d : Nat) : Nat := dBits d 1 58 3
def peVin (d : Nat) : Nat := dBits d 1 62 2
def peStride (d : Nat) : Nat := dBits d 2 0 16
def peScaleStride (d : Nat) : Nat := dBits d 2 16 16
def peScaleAddr (d : Nat) : Nat := dBits d 2 32 24
def peDstAddr (d : Nat) : Nat := dBits d 3 0 24
def peDst (d : Nat) : Nat := dBits d 3 24 2
def peDstFmt (d : Nat) : Nat := dBits d 3 26 3
def peExp (d : Nat) : Int := signedOf (dBits d 3 29 10) 10
def peW (d : Nat) : Nat := dBits d 3 39 5
/-- Voters in the domain, n. -/
def peVoters (d : Nat) : Nat := dBits d 3 44 17 + 1

/-- Landing position k of a port in each form (R321). -/
def landingPos (port : Nat) : Nat := 2 * port + 1

/-- One frame of an entry: port, the entry's place in its program, descriptor, index, frame cycle. -/
structure PortWork where
  port : Nat
  idx : Nat
  desc : Nat
  i : Nat
  t : Nat
  deriving DecidableEq, Repr

/-- Bits of a mask, ascending. -/
def maskBits (v len : Nat) : List Nat := (List.range len).filter (bitSet v)

/-- Frame i of an entry falls now: the entry's op, the port running, its bell. -/
def State.portWork (s : State) (port idx i op : Nat) : Option PortWork :=
  let p := s.partOfPort port
  let t := s.port port
  let d := descAt t.prog (ppOffset t.prog) idx
  if port < 6 && idx < ppCount t.prog && peOp d = op && i < peFrames d && s.working p && !t.quiesced &&
      dStartBell d = (s.crsOf p).lessonBell then
    some { port := port, idx := idx, desc := d, i := i, t := dStartCycle d + i * peGap d }
  else none

/-- Landing tile of the frame and the frame's place among that tile's frames. -/
def PortWork.tile (w : PortWork) : Option (Nat × Nat) :=
  let forms := maskBits (peForms w.desc) 16
  if forms = [] then none
  else some (16 * forms.getD (w.i % forms.length) 0 + landingPos w.port, w.i / forms.length)

def rbOf (port off : Nat) : Nat := rbBase + port * 2 ^ 24 + off % 2 ^ 24

/-- Read n bytes of a landing tile through its channel-6 port in beats of 128 bytes from a cycle on (R338, R340). A tile
that is absent gives free bytes, poisoned. -/
def landingBeats (lt cycle off : Nat) : Nat → Nat → State → (List Byte × List Bool) × State
  | 0, _, s => (([], []), s)
  | k + 1, n, s =>
    let m := min 128 n
    let ((d, p), s) := s.portRead lt cycle 0 13 off m
    let ((d', p'), s) := landingBeats lt (cycle + 1) (off + m) k (n - m) s
    ((d ++ d', p ++ p'), s)

def State.landingRead (s : State) (lt cycle off n : Nat) : (List Byte × List Bool) × State :=
  if s.alive lt then landingBeats lt cycle off (ceilDiv n 128) n s
  else ((s.freeBytes n, List.replicate n true), s.drawn n)

def State.landingWrite (s : State) (lt cycle off : Nat) (d : List Byte) (p : List Bool) : State :=
  if s.alive lt then
    forEach (List.range (ceilDiv d.length 128)) s (fun s j =>
      s.portWrite lt (cycle + j) 1 13 (off + 128 * j) ((d.drop (128 * j)).take 128) ((p.drop (128 * j)).take 128) 0)
  else s

/-- Read a reduction buffer. -/
def State.rbRead (s : State) (port off n : Nat) : List Byte × List Bool :=
  let a := rbOf port off
  (memRead s.mem a n, (List.range n).map (fun i => tgetD s.mem.rbPoison ((a + i) / 64) 0 == 1))

def State.rbWrite (s : State) (port off : Nat) (d : List Byte) (p : List Bool) : State :=
  let a := rbOf port off
  let m := memWrite s.mem a d
  let spans := ((List.range d.length).map (fun i => (a + i) / 64)).eraseDups
  { s with mem := { m with rbPoison := spans.foldl (fun t k =>
      let bad := (List.range d.length).any (fun i => (a + i) / 64 == k && p.getD i false)
      tset t k (boolNat bad) 0) m.rbPoison } }

/-- n bytes of the entry's local source for the frame, with poison by byte; stride bytes apart (R340). -/
def State.portSource (s : State) (w : PortWork) (n : Nat) : (List Byte × List Bool) × State :=
  let d := w.desc
  if peSrc d = 1 then
    match w.tile with
    | some (lt, j) => s.landingRead lt (w.t - 42) (peSrcAddr d % 2 ^ 22 + j * peStride d) n
    | none => (([], []), s)
  else if peSrc d = 2 then (s.rbRead w.port (peSrcAddr d + w.i * peStride d) n, s)
  else (([], []), s)

/-- The 30 scale bytes of the frame's local source, after its elements. -/
def State.portScales (s : State) (w : PortWork) (after : Nat) : (List Byte × List Bool) × State :=
  let d := w.desc
  if peSrc d = 1 then
    match w.tile with
    | some (lt, j) => s.landingRead lt (w.t - 42 + after) (peScaleAddr d % 2 ^ 22 + j * peScaleStride d) 30
    | none => (([], []), s)
  else (s.rbRead w.port (peScaleAddr d + w.i * peScaleStride d) 30, s)

/-- Write to the entry's destination, with the scale bytes where there are any. -/
def State.portDest (s : State) (w : PortWork) (b : List Byte) (p : List Bool) (scales : List Byte) (tie : Nat) : State :=
  let d := w.desc
  if peDst d = 1 then
    match w.tile with
    | some (lt, j) =>
      let s := s.landingWrite lt (w.t + 20) (peDstAddr d % 2 ^ 22 + j * peStride d) b p
      if scales = [] then s
      else s.landingWrite lt (w.t + 20 + ceilDiv b.length 128) (peScaleAddr d % 2 ^ 22 + j * peScaleStride d) scales []
    | none => s
  else if peDst d = 2 then
    let o := peDstAddr d + w.i * peStride d
    let s := s.rbWrite w.port o b p
    let s := s.modPort w.port (fun t => { t with rbTies := tset t.rbTies (o % 2 ^ 24) tie 0 })
    if scales = [] then s else s.rbWrite w.port (peScaleAddr d + w.i * peScaleStride d) scales []
  else s

/-! Frames in and out (R328, R329, 02 R56). -/

/-- Poison of bytes as bits of 64-byte spans. -/
def spansOf (p : List Bool) : Nat :=
  (List.range (ceilDiv p.length 64)).foldl (fun v i => if ((p.drop (64 * i)).take 64).any id then v + 2 ^ i else v) 0

/-- Poison bits of spans, byte by byte. -/
def spanBytes (v n : Nat) : List Bool := (List.range n).map (fun i => bitSet v (i / 64))

def allSpans : Nat := 2 ^ 60 - 1

/-- At half width a frame at a nominal time follows the one before by less than 14 cycles: it is beyond the rate (R328, R337). -/
def State.tooSoon (s : State) (port now : Nat) (before : Option Nat) : Bool :=
  s.flag (PORT_STATE port) PORT_STATE_half_width && before.any (fun t => decide (now < t + 14))

/-- Send a timed frame at a cycle; on a port that is not UP, or beyond the half-width rate, it is lost. -/
def State.portSend (s : State) (port cycle stream seq : Nat) (last : Bool) (b : List Byte) (poison tie : Nat) : State :=
  let now := s.bellCount * 4096 + cycle
  if port < 6 && s.portUp port && !s.tooSoon port now (s.port port).lastSent then
    let s := s.modPort port (fun t => { t with lastSent := some now })
    let f : Frame := sealFrame {
      kind := fkTIMED, flags := boolNat last, src := s.deviceId, dst := s.getF (PORT_STATE port) PORT_STATE_neighbour,
      stream := stream, bell := s.bellCount, seq := seq, sendCycle := cycle, tieId := tie, poison := poison, gaddr := 0,
      bytes := 3839, status := 0, payload := bytesFrom b 0 3840, crc := 0, rsvHdr := 0, rsvTail := 0 }
    (s.send (.frame port f)).perfAdd (s.partOfPort port) 5 1
  else s

/-- Nominal send time of a timed frame, on bells of 4,096 cycles (02 R56). -/
def sentAt (f : Frame) : Nat := f.bell * 4096 + f.sendCycle

/-- A frame is what a consuming entry expects: neighbour, stream, index, and sent in the bell and cycle it expects. An entry has no
field for those two; the model expects a send no later than 02 R56 allows and less than one bell before that, so that the frame of
an earlier bell is never taken for this one's (DESIGN CHOICE, log entry 48). -/
def State.expected (s : State) (port stream seq cycle : Nat) (f : Frame) : Bool :=
  let due := sentAt f + s.getF (PORT_LATENCY port) PORT_LATENCY_d_rec + 80
  let now := s.bellCount * 4096 + cycle
  f.src == s.getF (PORT_STATE port) PORT_STATE_neighbour && f.stream == stream && f.seq == seq &&
  decide (due ≤ now) && decide (now < due + 4096) && !s.tooSoon port (sentAt f) (s.port port).lastTaken

/-- Frames of a stream still to come after the one consumed; those before it are discarded. -/
def dropThrough (stream : Nat) (f : Frame) : List Frame → List Frame
  | [] => []
  | x :: l => if x = f then l else if x.stream = stream then dropThrough stream f l else x :: dropThrough stream f l

/-- Consume frame seq of a stream at a cycle: payload, poisoned spans, tie identity (none of an absent frame). An absent frame gives
free bytes with every span poisoned. -/
def State.consume (s : State) (port stream seq cycle : Nat) : (List Byte × Nat × Option Nat) × State :=
  match (s.port port).rx.find? (s.expected port stream seq cycle) with
  | some f =>
    let s := s.modPort port (fun t => { t with rx := dropThrough stream f t.rx, lastTaken := some (sentAt f) })
    ((f.payload, f.poison, some f.tieId),
     if f.poison = 0 then s else s.incF (PORT_ERRORS port) PORT_ERRORS_frames_poisoned 1)
  | none =>
    ((s.freeBytes 3840, allSpans, none), (s.drawn 3840).incF (PORT_ERRORS port) PORT_ERRORS_frames_absent 1)

/-- Tie identity of a consumed count or vote leg; that of an absent one is a free value. -/
def State.tieOf (s : State) (tie : Option Nat) : Nat × State :=
  match tie with
  | some t => (t, s)
  | none => (leVal (s.freeBytes 2), s.drawn 2)

def frameKinds : List Nat := [fkTIMED, fkWRITE, fkREAD, fkREPLY]

/-- The header of a frame is valid. -/
def State.frameHeader (s : State) (f : Frame) : Bool :=
  frameKinds.contains f.kind && f.flags < 2 && f.rsvHdr == 0 && f.poison < 2 ^ 60 && f.payload.length == 3840 &&
  (if f.kind = fkTIMED then
    f.dst == s.deviceId && f.stream < 4096 && f.sendCycle < 3776 && f.gaddr == 0 && f.bytes == 3839 && f.status == 0
   else f.bytes < 3840 && (f.kind == fkREPLY || f.status == 0))

/-- Return one service buffer to the sender. -/
def State.returnCredit (s : State) (port : Nat) : State := s.sendSym port (mkSym 6 1 s.deviceId 0 0)

/-- Answer a service frame. -/
def State.svcAnswer (s : State) (f : Frame) (status : Nat) (d : List Byte) : State :=
  let r := s.svcFrame fkREPLY f.src f.stream f.gaddr (if d = [] then 1 else d.length) status d
  s.svcRoute r

/-- A frame arrives on a port: bytes of the header marked bad, spans with bytes marked bad (R329, R330). -/
def State.frameReceive (s : State) (port : Nat) (f : Frame) (hdrBad : Bool) (badSpans : Nat) : State :=
  if !s.portUp port then s
  else if hdrBad || !s.frameHeader f then
    if f.kind = fkTIMED then s else s.incF (PORT_ERRORS port) PORT_ERRORS_frames_absent 1
  else
    let crcBad := f.crc != crc32 (frameBytes f)
    if f.kind = fkTIMED then
      let p := if badSpans ≠ 0 then Nat.lor f.poison (badSpans % 2 ^ 60) else if crcBad then allSpans else f.poison
      s.modPort port (fun t => { t with rx := t.rx ++ [{ f with poison := p }] })
    else if crcBad || badSpans ≠ 0 || f.poison ≠ 0 then
      let s := s.returnCredit port
      if f.kind = fkREPLY then s else s.svcAnswer f stUNCORRECTABLE []
    else if (s.port port).svcQueue.length < 16 then
      s.modPort port (fun t => { t with svcQueue := t.svcQueue ++ [f] })
    else s

def execFrameReceive (port : Nat) (f : Frame) (hdrBad : Bool) (badSpans : Nat) (s : State) :
    Host.Outcome State Fault Refusal :=
  live s (if port < 6 then s.frameReceive port f hdrBad badSpans else s)

/-! Data operations (R342, R343). Each row names a port, an entry and a frame of it. -/

def State.onPort (s : State) (port idx i op : Nat) (f : State → PortWork → State) : State :=
  match s.portWork port idx i op with
  | some w => f { s with cyc := w.t } w
  | none => s

def PortWork.last (w : PortWork) : Bool := w.i + 1 == peFrames w.desc

def State.doSend (s : State) (w : PortWork) : State :=
  let ((b, p), s) := s.portSource w 3840
  s.portSend w.port w.t (peStream w.desc) w.i w.last b (spansOf p) 0

def execPortSend (port idx i : Nat) (s : State) : Host.Outcome State Fault Refusal :=
  live s (s.onPort port idx i poSEND State.doSend)

def State.doRecv (s : State) (w : PortWork) : State :=
  let ((b, p, tie), s) := s.consume w.port (peStream w.desc) w.i w.t
  let (tie, s) := s.tieOf tie
  s.portDest w b (spanBytes p 3840) [] tie

def execPortRecv (port idx i : Nat) (s : State) : Host.Outcome State Fault Refusal :=
  live s (s.onPort port idx i poRECV State.doRecv)

/-- The payload goes on unchanged, its poison bits and tie identity with it; the frame sent for an absent one has tie identity 0. -/
def State.doRelay (s : State) (w : PortWork) : State :=
  let ((b, p, tie), s) := s.consume w.port (peStream w.desc) w.i w.t
  s.portSend (peOutPort w.desc) (w.t + 8) (peOutStream w.desc) w.i w.last b p (tie.getD 0)

def execPortRelay (port idx i : Nat) (s : State) : Host.Outcome State Fault Refusal :=
  live s (s.onPort port idx i poRELAY State.doRelay)

/-- The local contribution of a REDUCE: 960 terms at exp with their flags and poison. -/
structure Terms where
  terms : List (Int × Bool)
  flags : Flags
  deriving DecidableEq, Repr

/-- Terms of 960 local elements: INT32 at exp, or SBI blocks aligned to exp (R343). -/
def localTerms (f : Nat) (exp : Int) (b : List Byte) (p : List Bool) (sc : List Byte) (sp : List Bool) : Terms :=
  let n := fmtBytes f 1
  let ts := (List.range 960).map (fun e =>
    let bad := (List.range n).any (fun k => p.getD (e * n + k) false) || (f != fINT32 && sp.getD (e / 32) false)
    if f = fINT32 then ((elemAt f b e, noFlags), bad)
    else (termOf (elemAt f b e) (byteInt (sc.getD (e / 32) 0) - exp) 32, bad))
  { terms := ts.map (fun x => (x.1.1, x.2)),
    flags := ts.foldl (fun g x => if x.2 then g else flagsOr g x.1.2) noFlags }

def noTerms : Terms := { terms := List.replicate 960 (0, false), flags := noFlags }

/-- The frame's local contribution. -/
def State.reduceLocal (s : State) (w : PortWork) : Terms × State :=
  let f := peSrcFmt w.desc
  if peSrc w.desc = 0 then (noTerms, s)
  else
    let n := fmtBytes f 960
    let ((b, p), s) := s.portSource w n
    let ((sc, sp), s) := if f = fINT32 then (([], []), s) else s.portScales w (ceilDiv n 128)
    (localTerms f (peExp w.desc) b p sc sp, s)

/-- REDUCE: incoming plus terms modulo 2^32; the result goes to out_port as INT32 and to dst as INT32 or SBI16. -/
def State.doReduce (s : State) (w : PortWork) : State :=
  let d := w.desc
  let ((b, p, _), s) := s.consume w.port (peStream d) w.i w.t
  let (tm, s) := s.reduceLocal w
  let res := (List.range 960).map (fun e =>
    let t := tm.terms.getD e (0, false)
    (addWrap (elemAt fINT32 b e) t.1 32, bitSet p (e / 16) || t.2))
  let bytes32 := packElems fINT32 (res.map (·.1))
  let pois32 := res.flatMap (fun x => List.replicate 4 x.2)
  let s := if peOutPort d = 7 then s
    else s.portSend (peOutPort d) (w.t + 8) (peOutStream d) w.i w.last bytes32 (spansOf pois32) 0
  if peDst d = 0 then s.portFlags w.port tm.flags
  else if peDstFmt d = fSBI16 then
    let y := res.map (fun x => (clampM x.1 32767, x.2))
    let sat := (y.zip res).any (fun x => !x.2.2 && x.1.1 != x.2.1)
    let s := s.portDest w (packElems fSBI16 (y.map (·.1))) (y.flatMap (fun x => List.replicate 2 x.2))
      (List.replicate 30 (BitVec.ofNat 8 (codeOf (peExp d) 8))) 0
    s.portFlags w.port (flagsOr tm.flags { noFlags with sat := sat })
  else (s.portDest w bytes32 pois32 [] 0).portFlags w.port tm.flags

def execPortReduce (port idx i : Nat) (s : State) : Host.Outcome State Fault Refusal :=
  live s (s.onPort port idx i poREDUCE State.doReduce)

/-! Votes (R344). A plane is 30,720 bits. -/

def planeLen : Nat := 30720

/-- The bits of the elements in poisoned spans: 512 elements to a span. -/
def poisonMask (p : Nat) : Nat :=
  (List.range 60).foldl (fun v i => if bitSet p i then v + (2 ^ 512 - 1) * 2 ^ (512 * i) else v) 0

def State.doVoteSend (s : State) (w : PortWork) : State :=
  let ((b, p), s) := s.portSource w 3840
  s.portSend w.port w.t (peStream w.desc) w.i w.last b (spansOf p) s.deviceId

def execPortVoteSend (port idx i : Nat) (s : State) : Host.Outcome State Fault Refusal :=
  live s (s.onPort port idx i poVSEND State.doVoteSend)

/-- One input of a vote op in frame cycle j of a group: its plane, poisoned spans, and at j = 0 the identity its tie plane
carries; an input that is not there has no identity and counts nothing. -/
structure PlaneIn where
  plane : Nat
  poison : Nat
  tie : Nat
  deriving DecidableEq, Repr

def noPlane : PlaneIn := { plane := 0, poison := 0, tie := 65536 }

/-- The incoming leg. A vote leg is one frame a group, taken at j = 0; its only count plane is the vote. -/
def State.voteIn (s : State) (w : PortWork) (j g : Nat) (v : VoteSt) : PlaneIn × State :=
  let d := w.desc
  if peVin d = 2 then
    let ((b, p, tie), s) := s.consume w.port (peStream d) w.i w.t
    let (tie, s) := s.tieOf tie
    ({ plane := leVal b, poison := p, tie := tie }, s)
  else if peVin d = 1 then
    if j = 0 then
      let ((b, p, tie), s) := s.consume w.port (peStream d) g w.t
      let (tie, s) := s.tieOf tie
      ({ plane := leVal b, poison := p, tie := tie }, s)
    else ({ noPlane with plane := if j = 1 then v.inVote else 0 }, s)
  else (noPlane, s)

/-- The local leg: the device's own vote from a landing tile at j = 0, or plane j from the reduction buffer. -/
def State.voteLocal (s : State) (w : PortWork) (j : Nat) (v : VoteSt) : PlaneIn × State :=
  let d := w.desc
  if peSrc d = 2 then
    let o := peSrcAddr d + w.i * peStride d
    let (b, p) := s.rbRead w.port o 3840
    ({ plane := leVal b, poison := spansOf p, tie := tgetD (s.port w.port).rbTies (o % 2 ^ 24) 0 }, s)
  else if peSrc d = 1 then
    if j = 0 then
      let ((b, p), s) := s.portSource w 3840
      ({ plane := leVal b, poison := spansOf p, tie := s.deviceId }, s)
    else ({ noPlane with plane := if j = 1 then v.locVote else 0 }, s)
  else (noPlane, s)

/-- Emit a plane: on out_port at t + 8 and to the destination. -/
def State.votePut (s : State) (w : PortWork) (seq : Nat) (plane poison tie : Nat) : State :=
  let d := w.desc
  let b := leBytes 3840 plane
  let s := if peOutPort d = 7 then s else s.portSend (peOutPort d) (w.t + 8) (peOutStream d) seq w.last b poison tie
  s.portDest w b (spanBytes poison 3840) [] tie

/-- The vote of an entry that is under way. -/
def State.voteOf (s : State) (w : PortWork) : VoteSt := tgetD (s.port w.port).votes w.idx vote0

def State.setVote (s : State) (w : PortWork) (v : VoteSt) : State :=
  s.modPort w.port (fun t => { t with votes := tset t.votes w.idx v vote0 })

/-- VOTE_ADD in frame cycle j of its group: plane 0 is the tie plane of the lower identity, planes 1 to W the sum. -/
def State.doVoteAdd (s : State) (w : PortWork) : State :=
  let n := peW w.desc
  let j := w.i % (n + 1)
  let v := if j = 0 then vote0 else s.voteOf w
  let (a, s) := s.voteIn w j (w.i / (n + 1)) v
  let (b, s) := s.voteLocal w j v
  let poison := Nat.lor v.poison (Nat.lor a.poison b.poison)
  if j = 0 then
    let tie := min a.tie b.tie
    let v := { v with poison := poison, tieId := tie, inVote := a.plane, locVote := b.plane }
    let s := s.setVote w v
    s.votePut w w.i (if a.tie ≤ b.tie then a.plane else b.plane) poison (tie % 65536)
  else
    let sum := Nat.xor (Nat.xor a.plane b.plane) v.carry
    let carry := Nat.lor (Nat.land a.plane b.plane) (Nat.land v.carry (Nat.lor a.plane b.plane))
    let s := s.setVote w { v with carry := carry, poison := poison }
    let lost := Nat.land carry (2 ^ planeLen - 1 - poisonMask poison)
    let s := s.votePut w w.i sum poison (v.tieId % 65536)
    if j = n && lost ≠ 0 then s.portFlags w.port { noFlags with ovf := true } else s

def execPortVoteAdd (port idx i : Nat) (s : State) : Host.Outcome State Fault Refusal :=
  live s (s.onPort port idx i poVADD State.doVoteAdd)

/-- The sign of element e: planes are the tie plane and the count planes, n voters. -/
def signBit (planes : List Nat) (n e : Nat) : Nat :=
  let c := ((planes.drop 1).zip (List.range planes.length)).foldl (fun v x => v + bitAt x.1 e * 2 ^ x.2) 0
  if n < 2 * c then 1 else if 2 * c < n then 0 else bitAt (planes.headD 0) e

/-- VOTE_SIGN reads a count leg; at plane W it emits the signs. -/
def State.doVoteSign (s : State) (w : PortWork) : State :=
  let d := w.desc
  let n := peW d
  let j := w.i % (n + 1)
  let g := w.i / (n + 1)
  let v := if j = 0 then vote0 else s.voteOf w
  let (a, s) := if peVin d ≠ 0 then s.voteIn w j g v else s.voteLocal w j v
  let v := { v with planes := v.planes ++ [a.plane], poison := Nat.lor v.poison a.poison,
                    inVote := if j = 0 then a.plane else v.inVote, locVote := if j = 0 then a.plane else v.locVote }
  let s := s.setVote w v
  if j = n then
    let bits := (List.range planeLen).foldr (fun e acc => 2 * acc + signBit v.planes (peVoters d) e) 0
    s.votePut w g bits v.poison 0
  else s

def execPortVoteSign (port idx i : Nat) (s : State) : Host.Outcome State Fault Refusal :=
  live s (s.onPort port idx i poVSIGN State.doVoteSign)

/-! Service frames (R330). Each row takes the oldest service frame of a port where it is of the row's kind. -/

/-- Carry out f on the oldest service frame of a port, whose buffer is then returned; a frame for another device goes on. -/
def State.onSvc (s : State) (port kind : Nat) (f : State → Frame → State) : State :=
  match (s.port port).svcQueue with
  | [] => s
  | x :: l =>
    if x.kind = kind && port < 6 then
      let s := (s.modPort port (fun t => { t with svcQueue := l })).returnCredit port
      if x.dst = s.deviceId then f s x else s.svcRoute x
    else s

/-- The data of a service write. -/
def svcData (f : Frame) : List Byte := f.payload.take (f.bytes + 1)

def State.doSvcWrite (s : State) (f : Frame) : State :=
  if s.rangeOpen (gaAddr f.gaddr) (svcData f).length then
    let ((st, _), s) := s.localWrite (gaAddr f.gaddr) (svcData f)
    s.svcAnswer f st []
  else s.svcHold (.peer f) true (gaAddr f.gaddr) (svcData f).length (svcData f)

def execSvcWrite (port : Nat) (s : State) : Host.Outcome State Fault Refusal := live s (s.onSvc port fkWRITE State.doSvcWrite)

def State.doSvcRead (s : State) (f : Frame) : State :=
  if s.rangeOpen (gaAddr f.gaddr) (f.bytes + 1) then
    let ((st, d), s) := s.localRead (2 ^ 16 + f.src) (gaAddr f.gaddr) (f.bytes + 1)
    s.svcAnswer f st d
  else s.svcHold (.peer f) false (gaAddr f.gaddr) (f.bytes + 1) []

def execSvcRead (port : Nat) (s : State) : Host.Outcome State Fault Refusal := live s (s.onSvc port fkREAD State.doSvcRead)

/-- A remote access ends: its owner is answered. -/
def State.remoteDone (s : State) (r : Remote) (st : Nat) : State :=
  match r.owner with
  | .reg tag => if r.write then s else s.mxlSend (.regData tag st r.gaddr (bytesFrom r.data 0 r.bytes))
  | .mem tag => s.memReply tag (if r.write then .memAck tag st r.gaddr else .memData tag st r.gaddr r.data)
  | .memCut tag => s.memReply tag (.memAck tag (if st = 0 then stUNCORRECTABLE else st) r.gaddr)
  | .cmd ring tag =>
    match s.findTag ring tag with
    | some c => if r.write then s.xferWritten c st (if st = 0 then r.bytes else 0) else s.xferArrive c st r.data
    | none => s

/-- SVC_REPLY: the part answered is done; the next part goes out, or the access ends. -/
def State.doSvcReply (s : State) (f : Frame) : State :=
  match s.remotes.find? (fun r => r.tag == f.stream) with
  | none => s
  | some r =>
    let s := { s with remotes := s.remotes.erase r }
    let r' := if r.write then { r with done := min r.bytes (r.done + 3840) }
      else { r with done := min r.bytes (r.done + 3840), data := r.data ++ f.payload.take (f.bytes + 1) }
    if f.status ≠ 0 then s.remoteDone (if r.write then r else r') f.status
    else if r'.done < r'.bytes then s.remoteGo r' else s.remoteDone r' 0

def execSvcReply (port : Nat) (s : State) : Host.Outcome State Fault Refusal := live s (s.onSvc port fkREPLY State.doSvcReply).release

/-- No reply within 10 ms. -/
def State.remoteTimeout (s : State) (tag : Nat) : State :=
  match s.remotes.find? (fun r => r.tag == tag) with
  | some r => ({ s with remotes := s.remotes.erase r }).remoteDone { r with data := [] } stREMOTE_TIMEOUT
  | none => s

def execRemoteTimeout (tag : Nat) (s : State) : Host.Outcome State Fault Refusal := live s (s.remoteTimeout tag).release

/-! Accesses on this device that waited for their window. -/

/-- A read that waited answers with a status and the bytes read. -/
def State.svcGot (s : State) (x : SvcAcc) (st : Nat) (d : List Byte) : State :=
  match x.owner with
  | .mem tag g => s.memReply tag (.memData tag st g d)
  | .memCut tag g => s.memReply tag (.memData tag st g d)
  | .cmd ring tag => match s.findTag ring tag with
    | some c => s.xferArrive c st d
    | none => s
  | .peer f => s.svcAnswer f st d

/-- A write that waited answers with a status and how many bytes were written. -/
def State.svcPut (s : State) (x : SvcAcc) (st n : Nat) : State :=
  match x.owner with
  | .mem tag g => s.memReply tag (.memAck tag st g)
  | .memCut tag g => s.memReply tag (.memAck tag (if st = 0 then stUNCORRECTABLE else st) g)
  | .cmd ring tag => match s.findTag ring tag with
    | some c => s.xferWritten c st n
    | none => s
  | .peer f => s.svcAnswer f st []

/-- Requester that a waiting access reads for. -/
def SvcAcc.requester (x : SvcAcc) : Nat :=
  match x.owner with
  | .peer f => 2 ^ 16 + f.src
  | _ => 0

/-- A waiting access runs where its window is open, and goes on waiting where it is not. -/
def State.svcServe (s : State) (x : SvcAcc) : State :=
  if !s.rangeOpen x.addr x.len then { s with svcWait := s.svcWait ++ [x] }
  else if x.write then
    let ((st, k), s) := s.localWrite x.addr x.data
    s.svcPut x st k
  else
    let ((st, d), s) := s.localRead x.requester x.addr x.len
    s.svcGot x st d

/-- Serve what waits, oldest first, and then the host's requests that waited for it (13 R363). -/
def State.svcDrainAll (s : State) : State := (forEach s.svcWait { s with svcWait := [] } State.svcServe).release

/-! Symbols of a link (R330-R334). -/

/-- State of a port. -/
def State.portSt (s : State) (port : Nat) : Nat := s.getF (PORT_STATE port) PORT_STATE_state

/-- A symbol of a type gets through: TRAIN and PROBE while the port trains, any other while it is UP (R333, R337). -/
def State.symHeard (s : State) (port typ : Nat) : Bool :=
  if typ = 8 || typ = 9 then [4, 5, 8].contains (s.portSt port) else s.portUp port

/-- Act on a good symbol of a type, or count it dropped; one that does not get through is lost. -/
def State.onSym (s : State) (port typ : Nat) (y : Sym) (bad : Bool) (f : State → State) : State :=
  if 6 ≤ port || !s.symHeard port typ then s else if symGood typ y bad then f s else s.dropSym port

def State.symCredit (s : State) (port : Nat) (y : Sym) : State :=
  let s := s.modPort port (fun t => { t with credits := min 16 (t.credits + y.a8) })
  svcDrain port s (s.port port).svcOut

def execSymCredit (port : Nat) (y : Sym) (bad : Bool) (s : State) : Host.Outcome State Fault Refusal :=
  live s (s.onSym port 6 y bad (fun s => s.symCredit port y))

/-- The far receiver names a lane of this end's transmit direction and the codeword boundary at which the spare takes over. -/
def execSymLaneSwap (port : Nat) (y : Sym) (bad : Bool) (s : State) : Host.Outcome State Fault Refusal :=
  live s (s.onSym port 7 y bad (fun s => s.modPort port (fun t => { t with txSwaps := t.txSwaps ++ [(y.a8, y.b32)] })))

/-- TRAIN carries a serial number, a port and a width (R331; log entry 17 gives the places within b32). -/
def trainWord (port : Nat) (half : Bool) (serial : Nat) : Nat := serial / 2 ^ 48 % 2 ^ 16 + 2 ^ 16 * boolNat half + 2 ^ 24 * port

def State.symTrain (s : State) (port : Nat) (y : Sym) : State :=
  if s.portSt port = 4 || (s.portSt port = 8 && (s.port port).again = 1) then
    s.modPort port (fun t => { t with
      learnt := some (y.bell + 2 ^ 48 * (y.b32 % 2 ^ 16), y.b32 / 2 ^ 24 % 256, y.b32 / 2 ^ 16 % 256 == 1) })
  else s

def execSymTrain (port : Nat) (y : Sym) (bad : Bool) (s : State) : Host.Outcome State Fault Refusal :=
  live s (s.onSym port 8 y bad (fun s => s.symTrain port y))

/-- The port measures: in MEASURE, or in that part of a retraining. -/
def State.measuring (s : State) (port : Nat) : Bool := s.portSt port == 5 || (s.portSt port == 8 && (s.port port).again == 2)

/-- PROBE i leaves, with its departure time. -/
def State.sendProbe (s : State) (port i depart : Nat) : State := s.sendSym port (mkSym 9 (i % 256) s.deviceId 0 (depart % 2 ^ 32))

/-- PROBE i of the far end arrives and completes round trip i: its own time on the way, from its b32, and the time that this end's
PROBE i took, which the far end finds (DESIGN CHOICE, log entry 47); both ends' clocks drop out of the sum. The next PROBE leaves. -/
def State.symProbe (s : State) (port : Nat) (y : Sym) (arrival far depart : Nat) : State :=
  let t := s.port port
  if s.measuring port && t.probes < 1024 && y.a8 = t.probes % 256 then
    let trip : Int := ((arrival : Int) - y.b32) + far
    let s := s.modPort port (fun t => { t with probes := t.probes + 1, trips := t.trips + trip })
    if t.probes = 1023 then s else s.sendProbe port (t.probes + 1) depart
  else s

def execSymProbe (port : Nat) (y : Sym) (bad : Bool) (t : ProbeTimes) (s : State) : Host.Outcome State Fault Refusal :=
  live s (s.onSym port 9 y bad (fun s => s.symProbe port y t.arrival t.far t.depart))

def execSymIdle (port : Nat) (y : Sym) (bad : Bool) (s : State) : Host.Outcome State Fault Refusal :=
  live s (s.onSym port 1 y bad id)

/-! Lanes and training (R326, R327, R333, R337). -/

/-- Light on at least 16 receive fibres. -/
def execPortDetectLight (port fibres : Nat) (s : State) : Host.Outcome State Fault Refusal :=
  live s (if port < 6 && s.portSt port = 1 && 16 ≤ fibres then s.portTo port 2 0 else s)

/-- Width that good lanes and fibres allow: some false full, some true half, none neither (R327). -/
def widthOf (lanes fibres : Nat) : Option Bool :=
  if 32 ≤ lanes && fibres % 2 ^ 32 = 2 ^ 32 - 1 then some false
  else if 16 ≤ lanes && (fibres % 2 ^ 16 = 2 ^ 16 - 1 || fibres / 2 ^ 16 % 2 ^ 16 = 2 ^ 16 - 1) then some true
  else none

/-- LANES has ranked the lanes. -/
def State.lanesRanked (s : State) (port lanes fibres : Nat) : Option State :=
  (widthOf lanes fibres).map (fun half =>
    let s := (s.setF (PORT_LANES port) PORT_LANES_lanes_good lanes).setF (PORT_LANES port) PORT_LANES_spares_left
      (if half then 0 else min 2 (lanes - 32))
    s.setB (PORT_STATE port) PORT_STATE_half_width half)

/-- D_meas, half of the round trip that MEASURE finds for a frame, in root periods, of which an ARITH cycle has four; and the symbol
delay, half of the mean PROBE round trip (R334; the mean is a DESIGN CHOICE, log entry 47). -/
def State.measured (s : State) (port round : Nat) : State :=
  (s.setF (PORT_LATENCY port) PORT_LATENCY_d_meas (ceilDiv round 8)).setF (PORT_SYMDELAY port) PORT_SYMDELAY_delay
    ((s.port port).trips.toNat / 2048)

/-- Serial number of the module. -/
def State.serial (s : State) : Nat := s.pair SEC_SERIAL_LO

/-- IDENT begins: what an earlier IDENT learnt is forgotten, and TRAIN goes out. -/
def State.identBegins (s : State) (port : Nat) : State :=
  let half := s.flag (PORT_STATE port) PORT_STATE_half_width
  (s.modPort port (fun t => { t with learnt := none })).sendSym port (mkSym 8 0 s.deviceId s.serial (trainWord port half s.serial))

/-- MEASURE begins: the first PROBE leaves. -/
def State.measureBegins (s : State) (port depart : Nat) : State :=
  (s.modPort port (fun t => { t with probes := 0, trips := 0 })).sendProbe port 0 depart

/-- A training state completes, with good lanes and fibres (LANES), the departure of the first PROBE (IDENT), the round trip of a frame
(MEASURE). In RETRAIN the same is said of ALIGN and IDENT. -/
def State.trainDone (s : State) (port lanes fibres round depart : Nat) : State :=
  let st := s.portSt port
  let t := s.port port
  if st = 2 then
    match s.lanesRanked port lanes fibres with
    | some s => s.portTo port 3 0
    | none => s.portTo port 9 1
  else if st = 3 then (s.portTo port 4 0).identBegins port
  else if st = 4 then
    if t.learnt.isSome then (s.portTo port 5 0).measureBegins port depart else s
  else if st = 5 then
    if t.probes = 1024 then (s.measured port round).portTo port 6 0 else s
  else if st = 8 && t.again = 0 then (s.modPort port (fun t => { t with again := 1 })).identBegins port
  else if st = 8 && t.again = 1 && t.learnt.isSome then (s.modPort port (fun t => { t with again := 2 })).measureBegins port depart
  else s

def execPortTrainStateDone (port lanes fibres round depart : Nat) (s : State) : Host.Outcome State Fault Refusal :=
  live s (if port < 6 then s.trainDone port lanes fibres round depart else s)

/-- A training state has exceeded its duration. -/
def execPortTrainTimeout (port : Nat) (s : State) : Host.Outcome State Fault Refusal :=
  live s (if port < 6 && [2, 3, 4, 5, 8].contains (s.portSt port) then s.portTo port 9 2 else s)

/-- An UP port retrains, from ALIGN on; on the port the root PLL follows, that loses the reference (R337, 02 R59). -/
def State.retrain (s : State) (port : Nat) : State :=
  if s.portUp port then
    let s := (s.modPort port (fun t => { t with again := 0, probes := 0, trips := 0, rxSwaps := [], txSwaps := [] })).portTo port 8 0
    if s.flag CLK_REF CLK_REF_ref_sel && s.getF CLK_REF CLK_REF_upstream_port = port then s.referenceLoss else s
  else s

def execPortRetrain (port : Nat) (s : State) : Host.Outcome State Fault Refusal :=
  live s (if port < 6 then s.retrain port else s)

/-- Retraining ends, at cycle 0 of the bell with which the port returns to UP. Its MEASURE must have made its 1,024 round trips. -/
def State.retrainDone (s : State) (port lanes fibres round cycle : Nat) : State :=
  if cycle ≠ 0 || s.portSt port ≠ 8 || (s.port port).again ≠ 2 || (s.port port).probes ≠ 1024 then s
  else match s.lanesRanked port lanes fibres with
    | none => s.portTo port 9 1
    | some s =>
      let s := s.measured port round
      if ceilDiv round 8 + 32 ≤ s.getF (PORT_LATENCY port) PORT_LATENCY_d_rec then
        let s := s.portTo port 7 0
        svcDrain port s (s.port port).svcOut
      else s.portTo port 9 4

def execPortRetrainDone (port lanes fibres round cycle : Nat) (s : State) : Host.Outcome State Fault Refusal :=
  live s (if port < 6 then s.retrainDone port lanes fibres round cycle else s)

/-! Lane swaps (R326, R327, R337). -/

/-- A receive lane fails: it has lost signal or codeword lock, or the symbols corrected in its last 2^16 codewords exceed the
threshold. The receiver names it, and the codeword boundary 256 after the present one, while a spare is left that no swap to come
has taken; a fault that no spare covers makes the port retrain. -/
def State.laneFault (s : State) (port lane codeword corrected : Nat) (lost : Bool) : State :=
  if !(lost || s.getF (PORT_LANES port) PORT_LANES_swap_threshold < corrected) then s
  else
    let s := s.carryLane port lane
    let b := (codeword + 256) % 2 ^ 32
    if (s.port port).rxSwaps.length < s.getF (PORT_LANES port) PORT_LANES_spares_left then
      (s.sendSym port (mkSym 7 lane s.deviceId 0 b)).modPort port (fun t => { t with rxSwaps := t.rxSwaps ++ [(lane, b)] })
    else s.retrain port

def execPortLaneFault (port lane : Nat) (x : LaneCheck) (s : State) : Host.Outcome State Fault Refusal :=
  live s (if port < 6 && s.portUp port then s.laneFault port lane x.codeword x.corrected x.lost else s)

/-- A spare takes over, in the receive direction, whose spares the register counts, or in the transmit direction. -/
def State.laneTakeover (s : State) (port : Nat) (sent : Bool) : State :=
  match (if sent then (s.port port).txSwaps else (s.port port).rxSwaps) with
  | [] => s
  | (lane, _) :: l =>
    let s := s.modPort port (fun t => if sent then { t with txSwaps := l } else { t with rxSwaps := l })
    let s := s.incF (PORT_LANES port) PORT_LANES_swaps 1
    let left := s.getF (PORT_LANES port) PORT_LANES_spares_left - boolNat (!sent)
    (s.setF (PORT_LANES port) PORT_LANES_spares_left left).raise evLaneSwap 255 3 port lane left 0 0

/-- A swap of the receive direction goes first where each direction has one to come (DESIGN CHOICE, log entry 46). -/
def execPortLaneTakeover (port : Nat) (s : State) : Host.Outcome State Fault Refusal :=
  live s (if port < 6 then s.laneTakeover port (s.port port).rxSwaps.isEmpty else s)

/-! LINKMAP_LOAD (R335, R336, R345). -/

def lmPort (m : List Byte) (p off n : Nat) : Nat := leAt m (0x10 + 16 * p + off) n
def lmEnabled (m : List Byte) (p : Nat) : Bool := bitSet (lmPort m p 3 1) 0
def lmFlag (m : List Byte) (p b : Nat) : Bool := bitSet (lmPort m p 3 1) b
def lmPorts (m : List Byte) (b : Nat) : List Nat := (List.range 6).filter (fun p => lmFlag m p b)
def lmDim (m : List Byte) (k : Nat) : Nat := leAt m (8 + k) 1 + 1

/-- An identity lies in the torus of a record. -/
def lmIn (m : List Byte) (d : Nat) : Bool := devX d < lmDim m 0 && devY d < lmDim m 1 && devZ d < lmDim m 2

/-- Every field in range, every reserved field 0, the CRC good. -/
def lmFormat (m : List Byte) : Bool :=
  leAt m 0 4 == 0x4D4B4E4C && leAt m 4 2 == 1 && lmDim m 0 ≤ 64 && lmDim m 1 ≤ 32 && lmDim m 2 ≤ 32 &&
  lmIn m (leAt m 6 2) && leAt m 0x0B 1 == 0 && lmIn m (leAt m 0x0C 2) && lmIn m (leAt m 0x0E 2) &&
  (List.range 6).all (fun p => lmPort m p 3 1 < 64 &&
    (!lmEnabled m p || (lmIn m (lmPort m p 0 2) && lmPort m p 2 1 < 6 && lmPort m p 4 4 < 4096))) &&
  2 ≤ leAt m 0x70 2 && leAt m 0x70 2 ≤ 1024 && leAt m 0x72 10 == 0 &&
  leAt m 0x7C 4 == crc32 (m.take 0x7C)

/-- A record enables a port, and the dimension of the port is not of size 1, in which the port stays DARK (R322). -/
def lmLit (m : List Byte) (p : Nat) : Bool := lmEnabled m p && decide (lmDim m (p / 2) ≠ 1)

/-- The first check of R336 that fails, after the read of the record. -/
def State.linkmapFails (s : State) (m : List Byte) : Option Nat :=
  let en := (List.range 6).filter (lmLit m)
  if s.flag BELL_SYNC BELL_SYNC_joined then some stDEVICE_STATE
  else if !lmFormat m then some stLINKMAP_FORMAT
  else if s.getF SEC_LICENCE_SIZE SEC_LICENCE_SIZE_max_size < lmDim m 0 * lmDim m 1 * lmDim m 2 then some stLICENCE
  else if en.any (fun p => !([5, 6, 7, 8].contains (s.portSt p)) || (s.port p).learnt.isNone) then some stLINK_MISMATCH
  else if en.any (fun p => (s.port p).learnt !=
      some (lmPort m p 8 8, lmPort m p 2 1, lmFlag m p 1)) then some stLINK_MISMATCH
  else if 1 < (lmPorts m 2).length || 1 < (lmPorts m 3).length then some stLINK_MISMATCH
  else if leAt m 0x0C 2 ≠ leAt m 6 2 && lmPorts m 2 = [] then some stLINK_MISMATCH
  else if en.any (fun p =>
      let d := s.getF (PORT_LATENCY p) PORT_LATENCY_d_meas
      lmPort m p 4 4 < d + 32 || d + 2800 < lmPort m p 4 4) then some stLINK_SLOW
  else none

/-- A record applies to one port; one that it does not enable, and one of a dimension of size 1, is DARK. -/
def State.linkPort (s : State) (m : List Byte) (p : Nat) : State :=
  if lmLit m p then
    let s := s.setF (PORT_STATE p) PORT_STATE_neighbour (lmPort m p 0 2)
    let s := s.setF (PORT_LATENCY p) PORT_LATENCY_d_rec (lmPort m p 4 4)
    let s := s.modPort p (fun t => { t with enabled := true, recHalf := lmFlag m p 1, heldDark := false })
    s.portTo p 7 0
  else (s.modPort p (fun t => { t with enabled := false, heldDark := true })).portTo p 0 0

def maskOf (l : List Nat) : Nat := l.foldl (fun v p => withBit v p) 0

/-- The record is applied: identity, torus, ports, trees, timekeeper and backup. -/
def State.linkApply (s : State) (m : List Byte) : State :=
  let d := leAt m 6 2
  let s := (s.setF STK_ID STK_ID_device_id d).setB STK_ID STK_ID_id_valid true
  let map : LinkMap :=
    { loaded := true, device := d, nx := lmDim m 0, ny := lmDim m 1, nz := lmDim m 2, timekeeper := leAt m 0x0C 2,
      backup := leAt m 0x0E 2, horizon := leAt m 0x70 2 }
  let s := { s with map := map }
  let s := forEach (List.range 6) s (fun s p => s.linkPort m p)
  let s := (s.setF FAB_TREE FAB_TREE_up_primary ((lmPorts m 2).headD 7)).setF FAB_TREE FAB_TREE_up_backup
    ((lmPorts m 3).headD 7)
  let s := (s.setF FAB_TREE FAB_TREE_down_primary (maskOf (lmPorts m 4))).setF FAB_TREE FAB_TREE_down_backup
    (maskOf (lmPorts m 5))
  let s := s.setB FAB_TREE FAB_TREE_following_backup false
  (s.setB BELL_SYNC BELL_SYNC_timekeeper (leAt m 0x0C 2 == d)).setB BELL_SYNC BELL_SYNC_backup (leAt m 0x0E 2 == d)

def State.linkmapLoad (s : State) (c : Cmd) : State :=
  let ((m, st), s) := s.readObject c.pkt.p0 128
  if st ≠ 0 then s.fail c st
  else match s.linkmapFails m with
    | some e => s.fail c e
    | none => (s.linkApply m).ok c 0

def execCmdLinkmapLoad (ring tag : Nat) (s : State) : Host.Outcome State Fault Refusal :=
  live s (s.onCmd ring tag opLINKMAP_LOAD State.linkmapLoad)

end Sys2Proof.Machine
end

