-- ==== Sys2Proof/Machine/Mxl.lean ====
section
/-! DEFINITION. The Milbex Link: flits from the host, retry, doorbells, register and memory accesses, lanes and states
(13). -/

namespace Sys2Proof.Machine

/-! Acknowledgement and replay (R360, R361). -/

/-- Unacknowledged flits after a cumulative acknowledgement. -/
def ackedList (ack : Nat) (l : List TxFlit) : List TxFlit :=
  if l.any (fun t => t.flit.seq == ack) then (l.dropWhile (fun t => t.flit.seq != ack)).drop 1 else l

/-- The link retrains (R354). -/
def State.mxlRetrain (s : State) : State := (s.incF MXL_STATE MXL_STATE_retrains 1).mxlTo 6 0

/-- Send every unacknowledged flit again, in order. After 8 replays in a row that begin at the same flit the link
retrains (R354). -/
def State.mxlReplay (s : State) : State :=
  match s.mxl.replay with
  | [] => s
  | t :: _ =>
    let q := t.flit.seq
    let n := if s.mxl.lastReplay = q then s.mxl.sameReplays + 1 else 1
    let s := s.incF MXL_RETRY MXL_RETRY_replays 1
    let s := forEach s.mxl.replay { s with mxl := { s.mxl with sameReplays := n, lastReplay := q } } (fun s t => s.emitFlit t.flit)
    if n < 8 then s else ({ s with mxl := { s.mxl with sameReplays := 0 } } : State).mxlRetrain

/-- What the header of every flit carries: acknowledgement, credits, nak. -/
def State.takeHeader (s : State) (x : RxFlit) : State :=
  let s := if x.corrected then s.incF MXL_ERRORS MXL_ERRORS_flits_corrected 1 else s
  let h := x.flit
  let m := s.mxl
  let left := ackedList h.ack m.replay
  let m := { m with replay := left, acked := h.ack, cmdCredits := m.cmdCredits + h.cmdCredits,
                    bulkCredits := m.bulkCredits + h.bulkCredits,
                    sameReplays := if left.length < m.replay.length then 0 else m.sameReplays }
  let s := { s with mxl := m }
  let s := if h.nak then s.mxlReplay else s
  s.mxlFlush

/-! Checks of a flit (R356, R357, R359, R360). -/

def flitGood (f : Flit) : Bool := f.crc == crc32 (flitBytes f)

/-- Class and type match a row of the table of R357. -/
def flitRow (cls typ : Nat) : Bool :=
  (cls == fcIDLE && typ ≤ ftLANE_SWAP) || (cls == fcPRIORITY && (typ == ftPRIO_CMD || typ == ftPRIO_WRITE)) ||
  (cls == fcCOMMAND && ftDOORBELL ≤ typ && typ ≤ ftREG_DATA) || (cls == fcBULK && ftMEM_READ ≤ typ && typ ≤ ftMEM_ACK) ||
  ((cls == fcCOMMAND || cls == fcBULK) && ftHOST_READ ≤ typ && typ ≤ ftHOST_DATA)

/-- The HOST_READ that a flit of HOST_DATA answers: its tag is unique in its class. -/
def State.readOf (s : State) (f : Flit) : Option HostRead :=
  s.mxl.hostReads.find? (fun r => r.tag == f.tag && r.bulk == (f.cls == fcBULK))

/-- Class and type match a row; HOST_DATA comes in the class of its HOST_READ. -/
def State.flitKnown (s : State) (f : Flit) : Bool :=
  flitRow f.cls f.typ && (f.typ != ftHOST_DATA || (s.readOf f).isSome || !s.mxl.hostReads.any (fun r => r.tag == f.tag))

/-- Ask for a replay from the last good sequence number on, and discard what follows until it comes (R360). -/
def State.sendNak (s : State) : State :=
  ({ s with mxl := { s.mxl with discarding := true } } : State).sendIdle true 0 0

/-- One of a pair of PRIORITY flits fails its check: with both failed the flit is lost, and never retried (R359). -/
def State.prioFails (s : State) : State :=
  match s.mxl.pair with
  | .idle => { s with mxl := { s.mxl with pair := .failed } }
  | .good => { s with mxl := { s.mxl with pair := .idle } }
  | .failed => ({ s with mxl := { s.mxl with pair := .idle } } : State).incF MXL_PRIO MXL_PRIO_prio_bad 1

/-- A flit fails its check. -/
def State.flitFails (s : State) (f : Flit) : State :=
  let s := s.incF MXL_ERRORS MXL_ERRORS_flits_failed 1
  if f.cls = fcPRIORITY then s.prioFails else s.sendNak

/-- A flit that checks good matches no row: it is discarded, and one of class COMMAND or BULK is retried (R357). -/
def State.flitUnknown (s : State) (f : Flit) : State :=
  let s := s.incF MXL_ERRORS MXL_ERRORS_bad_type 1
  if f.cls = fcCOMMAND || f.cls = fcBULK then s.sendNak else s

/-- A flit arrives while the link is UP; f acts on one that checks good and matches a row. -/
def State.onFlit (s : State) (x : RxFlit) (f : State → State) : State :=
  if !s.mxlUp then s
  else if !flitGood x.flit then s.flitFails x.flit
  else
    let s := s.takeHeader x
    if !s.mxlUp then s else if s.flitKnown x.flit then f s else s.flitUnknown x.flit

/-! COMMAND and BULK messages (R357, R358, R360). -/

def State.rxPart (s : State) (bulk : Bool) : List Flit := if bulk then s.mxl.rxBulk else s.mxl.rxCmd

/-- Accept a flit of a COMMAND or BULK type where its sequence number is the next one and the host was granted a buffer for it; else
it is discarded. f acts on the flits of a message when its last one is there, and their buffers are then returned; before that
the flit is acknowledged alone. -/
def State.takeFlit (s : State) (x : RxFlit) (typ : Nat) (f : State → List Flit → State) : State :=
  s.onFlit x (fun s =>
    let h := x.flit
    let bulk := h.cls == fcBULK
    if h.typ ≠ typ || h.seq ≠ (s.mxl.rxSeq + 1) % 4096 || (if bulk then s.mxl.bulkGrant else s.mxl.cmdGrant) = 0 then s
    else
      let l := (if bitSet h.flags 0 then [] else s.rxPart bulk) ++ [h]
      let whole := bitSet h.flags 1
      let m := { s.mxl with rxSeq := h.seq, discarding := false }
      let keep := if whole then [] else l
      let m := if bulk then { m with rxBulk := keep, bulkGrant := m.bulkGrant - 1 }
        else { m with rxCmd := keep, cmdGrant := m.cmdGrant - 1 }
      let n := if whole then l.length else 0
      let s := ({ s with mxl := m } : State).sendIdle false (if bulk then 0 else n) (if bulk then n else 0)
      if whole then f s l else s)

/-- Header and data bytes of a message. -/
def msgBytes (l : List Flit) : List Byte := l.flatMap (fun f => f.payload.take (f.len + 1))

def reqAddr (l : List Flit) : Nat := leAt (msgBytes l) 0 8

/-- Length that the request header gives. -/
def reqLen (l : List Flit) : Nat := leAt (msgBytes l) 8 4 + 1

def reqTag (l : List Flit) : Nat := (l.headD (blankFlit 0 0 0 0 [])).tag

/-- The flits before the first one whose poison bit is set. -/
def cleanFlits (l : List Flit) : List Flit := l.takeWhile (fun f => !bitSet f.flags 2)

/-- Data of a message before a poisoned flit. -/
def cleanData (l : List Flit) : List Byte := ((msgBytes (cleanFlits l)).drop 16).take (reqLen l)

def hasPoison (l : List Flit) : Bool := l.any (fun f => bitSet f.flags 2)

/-! PRIORITY (R359). -/

/-- A STOP goes ahead of every other PRIORITY packet that waits. -/
def prioOrder (l : List Cmd) : List Cmd :=
  let isStop (c : Cmd) : Bool := c.ring == 255 && c.pkt.opcode == opSTOP
  l.filter isStop ++ l.filter (fun c => !isStop c)

/-- A PRIORITY packet; a 17th held packet is answered PRIO_BUSY. -/
def State.prioCmd (s : State) (k : Packet) : State :=
  let c : Cmd := { ring := 255, cplRing := 0, part := 0, pkt := k, phase := .accepted, bell := s.bellCount, data := [] }
  if 16 ≤ s.prioHeld then
    (s.incF MXL_PRIO MXL_PRIO_overflow 1).sendRecord c stPRIO_BUSY false 0 0
  else
    let s := s.setF MXL_PRIO MXL_PRIO_last_tag k.tag
    let s := s.accept c false
    ({ s with cmds := prioOrder s.cmds }).showPrio

/-- A copy of a PRIO_CMD flit: the first good copy of a pair counts, and the second is ignored after it. The packet follows the
request header. -/
def State.takePrio (s : State) (f : Flit) : State :=
  if f.typ ≠ ftPRIO_CMD then s
  else if bitSet f.flags 3 && s.mxl.pair = .good then { s with mxl := { s.mxl with pair := .idle } }
  else
    ({ s with mxl := { s.mxl with pair := if bitSet f.flags 3 then .idle else .good } } : State).prioCmd
      (packetOf ((msgBytes [f]).drop 16))

def execMxlPrioCmd (f : Flit) (corrected : Bool) (s : State) : Host.Outcome State Fault Refusal :=
  live s (s.onFlit ⟨f, corrected⟩ (fun s => s.takePrio f))

/-! Requests (R357, R363-R365). -/

/-- DOORBELL: ring and tail, in a message without a request header. -/
def State.takeDoorbell (s : State) (part : Nat) (l : List Flit) : State :=
  s.issue (.doorbell part (leAt (msgBytes l) 0 1) (leAt (msgBytes l) 4 4))

def execMxlDoorbell (h : FlitHead) (payload : List Byte) (x : FlitCheck) (part : Nat) (s : State) : Host.Outcome State Fault Refusal :=
  live s (s.takeFlit (.of h payload x) ftDOORBELL (fun s l => s.takeDoorbell part l))

def execMxlRegRead (h : FlitHead) (payload : List Byte) (x : FlitCheck) (s : State) : Host.Outcome State Fault Refusal :=
  live s (s.takeFlit (.of h payload x) ftREG_READ (fun s l => s.issue (.regRead (reqTag l) (reqAddr l) (reqLen l))))

/-- REG_WRITE takes effect after every MEM_WRITE sent before it (R363); now as in a register write's row. -/
def execMxlRegWrite (h : FlitHead) (payload : List Byte) (x : FlitCheck) (now : Nat) (s : State) :
    Host.Outcome State Fault Refusal :=
  live s (s.takeFlit (.of h payload x) ftREG_WRITE (fun s l =>
    s.issue (.regWrite (reqTag l) (reqAddr l) (reqLen l) (leVal (cleanData l)) now)))

def execMxlMemRead (h : FlitHead) (payload : List Byte) (x : FlitCheck) (s : State) : Host.Outcome State Fault Refusal :=
  live s (s.takeFlit (.of h payload x) ftMEM_READ (fun s l => s.issue (.memRead (reqTag l) (reqAddr l) (min 4096 (reqLen l)))))

def execMxlMemWrite (h : FlitHead) (payload : List Byte) (crc : Nat) (corrected : Bool) (s : State) :
    Host.Outcome State Fault Refusal :=
  live s (s.takeFlit (.of h payload ⟨crc, corrected⟩) ftMEM_WRITE (fun s l =>
    s.issue (.memWrite (reqTag l) (reqAddr l) (cleanData l) (hasPoison l))))

/-! The device's reads of host memory (R365). -/

/-- A HOST_READ is over, with a status and the data before it. -/
def State.hostReadDone (s : State) (r : HostRead) (st : Nat) (d : List Byte) : State :=
  let s := { s with mxl := { s.mxl with hostReads := s.mxl.hostReads.erase r } }
  match s.findTag r.ring r.cmdTag with
  | some c => s.xferArrive c st (if st = 0 then bytesFrom d 0 r.len else d.take r.len)
  | none => s

/-- HOST_DATA. A poisoned flit halts the transfer there, and every service transfer of the command (06 R200). -/
def State.takeHostData (s : State) (l : List Flit) : State :=
  match s.readOf (l.headD (blankFlit 0 0 0 0 [])) with
  | none => s
  | some r =>
    if hasPoison l then (s.stopTransfers r.ring r.cmdTag).hostReadDone r stUNCORRECTABLE (cleanData l)
    else s.hostReadDone r 0 (cleanData l)

def execMxlHostData (h : FlitHead) (payload : List Byte) (crc : Nat) (corrected : Bool) (s : State) :
    Host.Outcome State Fault Refusal :=
  live s (s.takeFlit (.of h payload ⟨crc, corrected⟩) ftHOST_DATA State.takeHostData)

/-- No HOST_DATA within 100 µs. Tags are unique in a class; the oldest HOST_READ of the tag is the one that has waited. -/
def State.hostReadTimeout (s : State) (tag : Nat) : State :=
  match s.mxl.hostReads.find? (fun r => r.tag == tag) with
  | some r => s.hostReadDone r stHOST_TIMEOUT []
  | none => s

def execHostReadTimeout (tag : Nat) (s : State) : Host.Outcome State Fault Refusal := live s (s.hostReadTimeout tag)

/-! IDLE flits, checks and replays. -/

def execMxlIdleFlit (x : RxFlit) (s : State) : Host.Outcome State Fault Refusal := live s (s.onFlit x id)

/-- LANE_SWAP: the lane of this end's transmit direction in payload byte 0, the flits to the swap as its tag (R353, R356). -/
def State.takeLaneSwap (s : State) (f : Flit) : State :=
  if f.typ = ftLANE_SWAP then { s with mxl := { s.mxl with txSwap := some (leAt f.payload 0 1, f.tag) } } else s

def execMxlLaneSwapFlit (h : FlitHead) (payload : List Byte) (x : FlitCheck) (s : State) : Host.Outcome State Fault Refusal :=
  live s (s.onFlit (.of h payload x) (fun s => s.takeLaneSwap (RxFlit.of h payload x).flit))

/-- A flit with an uncorrectable codeword fails its check whatever its CRC (R356). -/
def execMxlFlitCheckFail (f : Flit) (corrected uncorrectable : Bool) (s : State) : Host.Outcome State Fault Refusal :=
  live s (if s.mxlUp && uncorrectable then s.flitFails f else s.onFlit ⟨f, corrected⟩ id)

/-- A flit whose nak bit asks for a replay: what its header carries is all that is done with it here. -/
def execMxlNak (x : RxFlit) (s : State) : Host.Outcome State Fault Refusal := live s (s.onFlit x id)

/-- No ack has advanced for 2 µs. -/
def execMxlReplayTimeout (s : State) : Host.Outcome State Fault Refusal :=
  live s (if s.mxlUp && s.mxl.replay ≠ [] then (s.incF MXL_RETRY MXL_RETRY_timeouts 1).mxlReplay else s)

/-! Lanes and states (R353, R354). -/

def State.mxlSt (s : State) : Nat := s.getF MXL_STATE MXL_STATE_state

/-- A receive lane fails: it has lost lock, or the symbols corrected in its last 2^16 flits exceed the threshold. The spare is named to
take its place 64 flits ahead. Where no spare covers it, because it has been named already, or training found none, or the link runs
at half width, the link retrains at half width. A lane that carries nothing is no loss of traffic. -/
def State.mxlLaneFault (s : State) (lane corrected : Nat) (lost : Bool) : State :=
  if !(lost || s.getF MXL_LANES MXL_LANES_swap_threshold < corrected) then s
  else
    let s := (s.setF MXL_LANES MXL_LANES_good (withoutBit (s.getF MXL_LANES MXL_LANES_good) lane)).carryLane 6 lane
    let m := s.mxl
    if !m.logical.contains lane then { s with mxl := { m with spare := m.spare.filter (· != lane) } }
    else if m.swap = none && m.spare.isSome then
      ({ s with mxl := { m with swap := some (lane, 64) } } : State).sendLaneSwap lane 64
    else ({ s with mxl := { m with swap := none, halfNext := true } } : State).mxlRetrain

def execMxlLaneFault (x : MxlLaneCheck) (s : State) : Host.Outcome State Fault Refusal :=
  live s (if s.mxlUp && x.lane < 9 then s.mxlLaneFault x.lane x.corrected x.lost else s)

/-- The lane that fails gives its logical lane to the spare. -/
def steered (l : List Nat) (lane : Nat) (spare : Option Nat) : List Nat :=
  l.map (fun n => if n = lane then spare.getD n else n)

/-- At the flit boundary named, the spare takes over, in the receive or in the transmit direction. -/
def State.mxlTakeover (s : State) (sent : Bool) : State :=
  let m := s.mxl
  match (if sent then m.txSwap else m.swap) with
  | none => s
  | some (lane, _) =>
    let s := { s with mxl := if sent then { m with txSwap := none }
                             else { m with swap := none, logical := steered m.logical lane m.spare, spare := none } }
    (s.setB MXL_STATE MXL_STATE_spare_used true).raise evLaneSwap 255 8 0 lane 0 0 0

/-- A swap of the receive direction goes first where each direction has one to come (DESIGN CHOICE, log entry 46). -/
def execMxlLaneTakeover (s : State) : Host.Outcome State Fault Refusal := live s (s.mxlTakeover s.mxl.swap.isNone)

/-- Half width is the alternative in force, and this is no start that tries full width again (20 R477, R478). -/
def State.heldHalf (s : State) : Bool :=
  s.bring.carry.alts.contains 7 && !(s.getF BRG_STAGE BRG_STAGE_stage == 2 && s.startNo % 16 == 0)

/-- Training has ranked the good lanes, best first: the eight best carry the logical lanes and the ninth is the spare; with fewer than
eight, where that alternative is in force, or after a failure that no spare covers, the link runs at half width on the four best. -/
def State.mxlRanked (s : State) (lanes : List Nat) : Option State :=
  if lanes.length < 4 then none
  else
    let half := decide (lanes.length < 8) || s.heldHalf || s.mxl.halfNext
    let s := { s with mxl := { s.mxl with logical := lanes.take (if half then 4 else 8), spare := if half then none else lanes[8]?,
                                          swap := none, txSwap := none, halfNext := false } }
    let s := s.setF MXL_LANES MXL_LANES_good (maskOf lanes)
    some ((s.setB MXL_STATE MXL_STATE_half_width half).setB MXL_STATE MXL_STATE_spare_used false)

/-- CREDIT ends: the host's credits are known, the device's own buffers are granted, and sequence numbers begin at 0. -/
def State.mxlCredited (s : State) (cmd bulk : Nat) : State :=
  let m := { s.mxl with txSeq := 0, rxSeq := 4095, acked := 4095, cmdCredits := cmd, bulkCredits := bulk }
  { s with mxl := { m with replay := [], discarding := false, cmdGrant := 64, bulkGrant := 1024 } }

/-- A training state completes: the lanes with signal (DETECT), the good lanes ranked (LANES, RETRAIN), credits granted (CREDIT). -/
def State.mxlStateDone (s : State) (lanes : List Nat) (cmd bulk : Nat) : State :=
  let st := s.mxlSt
  if st = 1 then (if 4 ≤ lanes.length then s.mxlTo 2 0 else s)
  else if st = 2 then
    match s.mxlRanked lanes with
    | some s => s.mxlTo 3 0
    | none => s.mxlTo 7 1
  else if st = 3 then s.mxlTo 4 0
  else if st = 4 then (s.mxlCredited cmd bulk).mxlTo 5 0
  else if st = 6 then
    match s.mxlRanked lanes with
    | some s => s.mxlTo 5 0
    | none => s.mxlTo 7 1
  else s

def execMxlStateDone (lanes : List Nat) (cmd bulk : Nat) (s : State) : Host.Outcome State Fault Refusal :=
  live s (s.mxlStateDone lanes cmd bulk)

def execMxlStateTimeout (s : State) : Host.Outcome State Fault Refusal :=
  live s (if [2, 3, 4, 6].contains s.mxlSt then s.mxlTo 7 2 else s)

/-- 100 ms after DOWN. -/
def execMxlDownRecover (s : State) : Host.Outcome State Fault Refusal :=
  live s (if s.mxlSt = 7 then s.mxlTo 1 0 else s)

/-! Records that waited for room (15 R402-R404, 14 R374). -/

/-- Held records of every ring are written as far as the rings have places. -/
def State.flushHeld (s : State) : State :=
  forEach (List.range 8) s.mxlFlush (fun s e =>
    match s.evSize e with
    | some n => evDrain ((evWaiting (s.evRing e)).length) e n s
    | none => s)

def execHeldRecordFlush (s : State) : Host.Outcome State Fault Refusal := live s s.flushHeld

end Sys2Proof.Machine
end

