-- ==== Sys2Proof/Machine/Commands.lean ====
section
/-! DEFINITION. Report cards, and the commands NOP, RESET, PARTITION_SET, the memory class, RECESS_REQUEST, GROUP_TABLE and
BELL_JOIN (11 R309-R312, 14 R384-R386, R392, 19 R464, 20 R473, R474). -/

namespace Sys2Proof.Machine

/-! Report cards (20 R474). -/

def cardPASS : Nat := 0
def cardPASSALT : Nat := 1
def cardFAIL : Nat := 2
def cardNOTRUN : Nat := 3

/-- Steps of a stage that ran their alternative in this start. -/
def State.altsOf (s : State) (stage : Nat) : Nat :=
  (s.bring.log.filter (fun r => r.kind == logALTERNATIVE && r.stage == stage && r.start == s.startNo)).length

/-- A stage ends: its card enters BRG_CARD and the ledger. -/
def State.writeCard (s : State) (stage result duration firstFail : Nat) (c : List Nat) : State :=
  let alts := s.altsOf stage
  let result := if result = cardPASS && 0 < alts then cardPASSALT else result
  let ws := [stage + 2 ^ 8 * result + 2 ^ 16 * alts, min duration (2 ^ 32 - 1), s.startNo, firstFail] ++
    (List.range 4).map (fun i => c.getD i 0)
  let s := forEach (List.range 8) s (fun s i => s.setReg (BRG_CARD stage i) (BitVec.ofNat 32 (ws.getD i 0)))
  s.logAppend logCARD stage 0 0 ws

/-- At the start of a stage its card and every later one show NOT_RUN. -/
def State.clearCards (s : State) (stage : Nat) : State :=
  forEach ((List.range 9).filter (fun k => stage ≤ k)) s (fun s k =>
    forEach (List.range 8) s (fun s i => s.setReg (BRG_CARD k i) (if i = 0 then 0x300 else 0)))

/-! NOP, RESET, PARTITION_SET (14 R384, R385, R392). -/

def execCmdNop (ring tag : Nat) (s : State) : Host.Outcome State Fault Refusal :=
  live s (s.onCmd ring tag opNOP (fun s c => s.ok c 0))

/-- RESET completes at once; the stack reset begins 10 µs after its record, which is the next message, has left the pins. -/
def State.resetCmd (s : State) (c : Cmd) : State :=
  let n := s.mxl.nextMsg
  let s := s.ok c 0
  { s with clock := { s.clock with resetPending := some 1, resetMsg := some n } }

def execCmdReset (ring tag : Nat) (s : State) : Host.Outcome State Fault Refusal :=
  live s (s.onCmd ring tag opRESET State.resetCmd)

/-- PARTITION_SET while no course is loaded and no sequence is open; the budgets follow the fields (18 R450). -/
def State.partitionSet (s : State) (c : Cmd) : State :=
  if s.anyLoaded || s.anySeqOpen then s.fail c stDEVICE_STATE
  else
    let s := s.setF CMD_PART CMD_PART_count c.pkt.p0
    let s := { s with power := { s.power with budgets := some s.evenBudgets } }
    s.ok c 0

def execCmdPartitionSet (ring tag : Nat) (s : State) : Host.Outcome State Fault Refusal :=
  live s (s.onCmd ring tag opPARTITION_SET State.partitionSet)

/-! The memory class (14 R385, R386). -/

def execCmdMemCopy (ring tag : Nat) (s : State) : Host.Outcome State Fault Refusal :=
  live s (s.onCmd ring tag opMEM_COPY State.xferStart)

def execCmdMemFill (ring tag : Nat) (s : State) : Host.Outcome State Fault Refusal :=
  live s (s.onCmd ring tag opMEM_FILL State.xferStart)

def execCmdDmaIn (ring tag : Nat) (s : State) : Host.Outcome State Fault Refusal :=
  live s (s.onCmd ring tag opDMA_IN State.xferStart)

def execCmdDmaOut (ring tag : Nat) (s : State) : Host.Outcome State Fault Refusal :=
  live s (s.onCmd ring tag opDMA_OUT State.xferStart)

/-! RECESS_REQUEST (19 R464). -/

/-- Reason code of a host's request (15 R413). -/
def reasonHost : Nat := 5

def State.recessRequest (s : State) (c : Cmd) : State :=
  if !s.flag BELL_SYNC BELL_SYNC_joined || s.flag BELL_SYNC BELL_SYNC_out_of_step then s.fail c stDEVICE_STATE
  else
    let s := s.requestRecess (c.pkt.p0 % 256) (c.pkt.p0 / 256 % 65536) (s.bellCount + 2 * s.map.horizon) reasonHost
      (c.pkt.p0 % 256)
    s.ok c 0

def execCmdRecessRequest (ring tag : Nat) (s : State) : Host.Outcome State Fault Refusal :=
  live s (s.onCmd ring tag opRECESS_REQUEST State.recessRequest)

/-! GROUP_TABLE (11 R309-R312). -/

/-- The words of a table image, entries of 0 not listed. -/
def tableOf (m : List Byte) : Tbl Nat :=
  (List.range 4096).filterMap (fun i =>
    let w := leAt m (4 * i) 4
    if w = 0 then none else some (i, w))

/-- Every reserved bit of every entry is 0 (R308). -/
def tableGood (t : Tbl Nat) : Bool := t.all (fun e => e.2 < 2 ^ 20 && bitAt e.2 15 == 0)

/-- The bytes of a table. -/
def tableBytes (t : Tbl Nat) : List Byte := (List.range 4096).flatMap (fun i => leBytes 4 (tgetD t i 0))

def State.activeBank (s : State) (p : Nat) : Nat := s.getF (UPD_STATE p) UPD_STATE_active_bank

def State.activeTable (s : State) (p : Nat) : Tbl Nat :=
  if s.activeBank p = 0 then (s.group p).bank0 else (s.group p).bank1

/-- Load the staging bank. -/
def State.setStaging (s : State) (p : Nat) (t : Tbl Nat) : State :=
  if s.activeBank p = 0 then s.modGroup p (fun g => { g with bank1 := t }) else s.modGroup p (fun g => { g with bank0 := t })

def State.stagingTable (s : State) (p : Nat) : Tbl Nat :=
  if s.activeBank p = 0 then (s.group p).bank1 else (s.group p).bank0

/-- GROUP_TABLE at acceptance: image read, its checks in order, copying begins. A table committed for the next bell keeps the
staging bank until it becomes active. -/
def State.groupTable (s : State) (c : Cmd) : State :=
  let ((m, st), s) := s.readObject c.pkt.p0 16384
  let p := c.part
  let t := tableOf m
  if st ≠ 0 then s.fail c st
  else if !tableGood t then s.fail c stGROUP_FORMAT
  else if (s.group p).cmd.isSome then s.fail c stGROUP_BUSY
  else
    let s := s.modGroup p (fun g => { g with
      image := t, cmd := some (c.ring, c.pkt.tag), bell := c.pkt.p2, generation := c.pkt.p1, copied := false })
    let s := (s.setB (UPD_STATE p) UPD_STATE_pending true).showCopying p
    let s := s.setReg (UPD_GEN_PENDING p) (BitVec.ofNat 32 c.pkt.p1)
    s.putCmd c { c with phase := .active }

def execCmdGroupTable (ring tag : Nat) (s : State) : Host.Outcome State Fault Refusal :=
  live s (s.onCmd ring tag opGROUP_TABLE State.groupTable)

def State.shadowOn (s : State) : Bool := s.flag UPD_SHADOW UPD_SHADOW_enable

def State.shadowBase (s : State) : Nat := s.getF UPD_SHADOW UPD_SHADOW_base * 0x1000

/-- Write one bank of the shadows of a partition through the service port. -/
def State.shadowBank (s : State) (p bank : Nat) (t : Tbl Nat) : State :=
  let b := tableBytes t
  forEach ((s.tilesOf p).filter s.alive) s (fun s lt =>
    { s with mem := tbWrite s.mem lt (s.shadowBase + 0x1000 + 0x4000 * bank) b [] 1 })

/-- Write the header of the shadows: active bank, generation, bell, and after them n zero bytes. -/
def State.shadowHead (s : State) (p bank gen bell n : Nat) : State :=
  let b := leBytes 4 bank ++ leBytes 4 gen ++ leBytes 8 bell ++ zeros n
  forEach ((s.tilesOf p).filter s.alive) s (fun s lt =>
    { s with mem := tbWrite s.mem lt s.shadowBase b [] 1 })

/-- Every staging copy of a partition's table is complete. While the bank still holds a table that is to become active, and outside
service slots and open bells, nothing is copied (R310). -/
def State.groupCopied (s : State) (p : Nat) : State :=
  let g := s.group p
  if g.cmd.isNone || g.copied || g.scheduled.isSome || !s.serviceOpen p then s
  else
    let s := (s.setStaging p g.image).modGroup p (fun g => { g with copied := true })
    let s := s.showCopying p
    if s.shadowOn then s.shadowBank p (1 - s.activeBank p) (s.stagingTable p) else s

def execGroupTableCopyDone (p : Nat) (s : State) : Host.Outcome State Fault Refusal :=
  live s (if p < 4 then s.groupCopied p else s)

/-- a0 of bell B - 1: the table is scheduled for B, or the command is late. A late table halts a running course with the
training flag. -/
def State.groupCommit (s : State) (c : Cmd) : State :=
  let p := c.part
  let g := s.group p
  if s.bellCount + 1 < g.bell then s
  else
    let s := s.setB (UPD_STATE p) UPD_STATE_pending false
    if g.copied && g.bell = s.bellCount + 1 && c.bell < s.bellCount then
      (s.modGroup p (fun g => { g with cmd := none, copied := false, scheduled := some (g.bell, g.generation) })).ok c 0
    else
      let s := s.modGroup p (fun g => { g with cmd := none, copied := false })
      let s := (s.showCopying p).incF (UPD_STATE p) UPD_STATE_late 1
      let s := if s.courseRunning p && hdTraining (s.courseImage p) then s.declareHalt p hcGroup else s
      s.fail c stGROUP_LATE

def execGroupTableCommit (ring tag : Nat) (s : State) : Host.Outcome State Fault Refusal :=
  live s (s.onActive ring tag opGROUP_TABLE (fun s c => if c.phase = .active then s.groupCommit c else s))

/-- A table stands in the staging bank, copied and not yet active. -/
def GroupSt.staged (g : GroupSt) : Bool := (g.cmd.isSome && g.copied) || g.scheduled.isSome

/-- The shadows just enabled hold the active table of their partition in both banks, and the header; a table that already stands
in the staging bank stands in the shadows' staging bank too (R312). -/
def State.shadowDone (s : State) : State :=
  forEach (List.range s.partCount) s (fun s p =>
    if (s.group p).shadowing && s.serviceOpen p then
      let a := s.activeBank p
      let s := s.shadowBank p a (s.activeTable p)
      let s := s.shadowBank p (1 - a) (if (s.group p).staged then s.stagingTable p else s.activeTable p)
      let s := s.shadowHead p a (s.reg (UPD_GEN_ACTIVE p)).toNat (s.pair (UPD_ACTIVE_AT_LO p)) 48
      (s.modGroup p (fun g => { g with shadowing := false })).showCopying p
    else s)

def execShadowEnableDone (s : State) : Host.Outcome State Fault Refusal := live s s.shadowDone

/-- In the service slot of bell B - 1 the header of the shadows names the bank that becomes active at B. -/
def State.shadowNext (s : State) (p : Nat) : State :=
  match (s.group p).scheduled with
  | some (b, gen) => if b = s.bellCount + 1 && s.shadowOn then s.shadowHead p (1 - s.activeBank p) gen b 0 else s
  | none => s

/-! BELL_JOIN (20 R473). -/

def State.bellJoin (s : State) (c : Cmd) : State :=
  if !s.map.loaded || s.flag BELL_SYNC BELL_SYNC_joined || s.bell.join.isSome then s.fail c stDEVICE_STATE
  else
    let j : Join := { ring := c.ring, tag := c.pkt.tag, start := s.bellCount, aligned := false, good := 0, hops := 0, sysBell := 0 }
    let s := { s with bell := { s.bell with join := some j } }
    s.putCmd c { c with phase := .active }

def execCmdBellJoin (ring tag : Nat) (s : State) : Host.Outcome State Fault Refusal :=
  live s (s.onCmd ring tag opBELL_JOIN State.bellJoin)

/-- The commit point: the timekeeper at a0 of its own pacer, any other device after 16 good bells, loading BELL_COUNT; the S7
card is written and S8 begins. -/
def State.joinCommit (s : State) (c : Cmd) : State :=
  match s.bell.join with
  | none => s
  | some j =>
    if s.isTimekeeper || 16 ≤ j.good then
      let waited := s.bellCount - j.start
      let s := if s.isTimekeeper then s else s.setPair BELL_COUNT_LO (s.fullBell (j.sysBell + 1))
      let s := s.setB BELL_SYNC BELL_SYNC_joined true
      let s := { s with bell := { s.bell with join := none, missing := 0 } }
      let s := s.writeCard 7 cardPASS (waited * 29257 / 10000) 0
        [s.bellCount % 2 ^ 32, waited, s.map.timekeeper, if s.isTimekeeper then 0 else j.hops]
      (s.setStage 8 0).ok c 0
    else s

def execBellJoinCommit (ring tag : Nat) (s : State) : Host.Outcome State Fault Refusal :=
  live s (s.onActive ring tag opBELL_JOIN (fun s c => if c.phase = .active then s.joinCommit c else s))

/-- 65,536 bells after acceptance without a commit. -/
def State.joinTimeout (s : State) (c : Cmd) : State :=
  match s.bell.join with
  | some j =>
    if j.start + 65536 ≤ s.bellCount then ({ s with bell := { s.bell with join := none } }).fail c stNOT_IN_STEP else s
  | none => s

def execBellJoinTimeout (ring tag : Nat) (s : State) : Host.Outcome State Fault Refusal :=
  live s (s.onActive ring tag opBELL_JOIN (fun s c => if c.phase = .active then s.joinTimeout c else s))

end Sys2Proof.Machine
end

