-- ==== Sys2Proof/Machine/Memory.lean ====
section
/-! DEFINITION. The memory layers: locker commands and the row rule, refresh, scrubbing, accesses from below, evacuation,
the service slot and the arming of lessons (02 R50, 07 R215, 08 R235-R258, 19 R456, 20 R491). -/

namespace Sys2Proof.Machine

/-! Banks (R38, R240). -/

def lkLocker (a : Nat) : Nat := a / 0x1000000
def lkBank (a : Nat) : Nat := bitsAt a 21 1
def lkRow (a : Nat) : Nat := bitsAt a 10 11

/-- Key of a bank in its layer's table. -/
def bankKey (a : Nat) : Nat := 2 * lkLocker a + lkBank a

/-- An NBU sequence holds the banks of a locker on a layer (09 R266). -/
def State.bankHeld (s : State) (l locker : Nat) : Bool :=
  (s.layer l).seqs.any (fun q => decide (sqFirst q.entry ≤ locker) && decide (locker < sqFirst q.entry + sqLockers q.entry))

/-- Whether a beat at a word, issued at a cycle, keeps the row rule and finds its bank free; a beat that does not is counted
and does not stand as the bank's previous beat. -/
def State.rowRule (s : State) (a cycle : Nat) : Bool × State :=
  let l := lkLayer a
  let good := match tfind (s.layer l).banks (bankKey a) with
    | some u => u.row == lkRow a || decide (u.cycle + 48 ≤ cycle)
    | none => true
  if good && !s.bankHeld l (lkLocker a) then
    let u : BankUse := { row := lkRow a, cycle := cycle }
    (true, s.modLayer l (fun y => { y with banks := tput y.banks (bankKey a) u }))
  else (false, (s.incF (MEM_CHAN l) MEM_CHAN_conflicts 1).memFault a 1)

/-! Words on the wires (R245): wire state 0 good, 1 a single-bit error, 2 uncorrectable. A single-bit error in a poisoned word
yields a syndrome that is neither correctable nor that of poison (R244). -/

/-- What the check at the end of the wires finds of a word that was driven good or poisoned. -/
def wireCheck (wire : Nat) (poison : Bool) : WordCheck :=
  if wire = 0 then .good else if wire = 1 && !poison then .corrected else .uncorrectable

/-- A word arrives at the column controller and is stored. -/
def State.wordArrives (s : State) (a w : Nat) (poison : Bool) (wire : Nat) : State :=
  let k := wireCheck wire poison
  let s := s.lkCount a k
  { s with mem := lkStore s.mem a w (poison || k == .uncorrectable) }

/-- A word read from the array arrives at the endpoint. -/
def State.wordReturns (s : State) (a wire : Nat) : (Nat × Bool) × State :=
  let ((w, bad), s) := s.lkLoad a
  let k := wireCheck wire bad
  ((w, bad || k == .uncorrectable), s.lkCount a k)

/-! Locker commands (R237, R242). -/

def lcCmd (w : Nat) : Nat := bitsAt w 0 4
def lcSide (w : Nat) : Nat := bitsAt w 27 1
def lcMask (w : Nat) : Nat := bitsAt w 23 4
def lcLayer (w : Nat) : Nat := bitsAt w 4 2

/-- Byte address of the column a command names on a locker. -/
def lcAddr (locker w : Nat) : Nat :=
  locker * 0x1000000 + lcLayer w * 0x400000 + bitsAt w 6 1 * 0x200000 + bitsAt w 7 11 * 0x400 + bitsAt w 18 5 * 32

def lcParity (w : Nat) : Bool := popCount w 48 % 2 == 0

/-- Channel of a tile that serves a locker (06 R194). -/
def lockerChan (locker : Nat) : Nat := locker / 8

/-- Replace the first operation of a channel that satisfies a test. -/
def mapFirst (f : LkOp → Bool) (g : LkOp → LkOp) : List LkOp → List LkOp
  | [] => []
  | o :: l => if f o then g o :: l else o :: mapFirst f g l

/-- The word of a locker that waits for its command, at an address and in a direction. -/
def waits (write : Bool) (a : Nat) (o : LkOp) : Bool := o.write == write && o.addr == a && !o.done

def State.setOp (s : State) (ch : Nat) (o o' : LkOp) : State :=
  s.modChan ch (fun c => { c with ops := mapFirst (fun x => x == o) (fun _ => o') c.ops })

/-- A word that the row rule refuses: a read is delivered as poisoned with an open value, a write is discarded and the
course halts (R240). -/
def State.refuseOp (s : State) (ch : Nat) (o : LkOp) : State :=
  if o.write then (s.setOp ch o { o with done := true }).declareHalt (s.partOfLt (ch / 8)) hcLocker
  else (s.setOp ch o { o with data := s.freeNat % 2 ^ 64, poison := true, done := true }).drawn 1

/-- The column controller performs a mover's word. -/
def State.performOp (s : State) (ch : Nat) (o : LkOp) (wire : Nat) : State :=
  match s.rowRule o.addr o.cycle with
  | (false, s) => s.refuseOp ch o
  | (true, s) =>
    if o.write then (s.wordArrives o.addr o.data o.poison wire).setOp ch o { o with done := true }
    else
      let ((w, bad), s) := s.wordReturns o.addr wire
      s.setOp ch o { o with data := w, poison := bad, done := true }

/-- Words of a command's column that its mask names, ascending. -/
def maskWords (w : Nat) : List Nat := (List.range 4).filter (bitSet (lcMask w))

/-- A good RD or WR of the top endpoint. -/
def State.topCommand (s : State) (locker w : Nat) (wires : List Nat) : State :=
  let ch := lockerChan locker
  let write := lcCmd w == 2
  forEach (maskWords w) s (fun s i =>
    match (s.chan ch).ops.find? (waits write (lcAddr locker w + 8 * i)) with
    | some o => s.performOp ch o (wires.getD i 0)
    | none => s)

/-- A good RD or WR of the base die; it obeys no timetable, and its words come with the command (R253). -/
def State.baseCommand (s : State) (locker w : Nat) (data wires : List Nat) : State :=
  forEach (maskWords w) s (fun s i =>
    let a := lcAddr locker w + 8 * i
    if lcCmd w = 2 then s.wordArrives a (data.getD i 0 % 2 ^ 64) false (wires.getD i 0)
    else (s.wordReturns a (wires.getD i 0)).2)

/-- A command with a parity error (R242, R245): nothing is performed, the first error is recorded with the locker's base address,
a write halts the course. The oldest column that the mover waits for at the locker is the one it commanded; a read of it
delivers four poisoned words of open value. -/
def State.badCommand (s : State) (locker w : Nat) : State :=
  let ch := lockerChan locker
  let l := lcLayer w
  let s := (s.incF (MEM_CHAN l) MEM_CHAN_cmd_parity 1).memFaultAt l (locker * 0x1000000) 2
  let write := lcCmd w == 2
  let s := if write then s.declareHalt (s.partOfLt (locker / 64)) hcLocker else s
  if lcSide w = 1 || !(write || lcCmd w == 1) then s
  else
    let mine := fun (o : LkOp) => o.write == write && !o.done && lkLocker o.addr == locker
    match (s.chan ch).ops.find? mine with
    | some o =>
      let k := s.freeCtr
      (s.modChan ch (fun c => { c with ops := c.ops.map (fun x =>
        if mine x && x.addr / 32 == o.addr / 32 then
          { x with poison := true, done := true,
                   data := if write then x.data else Config.freeNat (k + x.addr / 8 % 4) % 2 ^ 64 }
        else x) })).drawn 4
    | none => s

/-- A locker command word reaches its column controller: the word, the words a base-die write carries, the state of each
word on the wires. Each endpoint drives the locker in its own windows alone (R238). -/
def State.lockerCommand (s : State) (locker w : Nat) (data wires : List Nat) : State :=
  let p := s.partOfLt (locker / 64)
  if !s.present (locker / 64) then s
  else if !lcParity w then s.badCommand locker w
  else if !(lcCmd w = 1 || lcCmd w = 2) then s
  else if lcSide w = 1 then (if s.belowOpen p then s.baseCommand locker w data wires else s)
  else if s.topOpen p then s.topCommand locker w wires else s

def execLockerCommand (locker w : Nat) (data wires : List Nat) (s : State) : Host.Outcome State Fault Refusal :=
  live s (s.lockerCommand locker w data wires)

/-- The oldest read beat of a channel whose words have all been driven is written into the tile buffer, 60 to 63 cycles
after its issue (R239); a poisoned word poisons every slot it writes (R244). -/
def State.lockerDeliver (s : State) (lt c : Nat) : State :=
  let ch := 8 * lt + c
  match (s.chan ch).ops.find? (fun o => !o.write) with
  | none => s
  | some o =>
    let beat := (s.chan ch).ops.filter (fun x => !x.write && x.beat == o.beat)
    if beat.all (·.done) then
      let x := o.cycle + 60
      let s := { s with cyc := x % 4096 }
      let s := s.portWrite lt x 1 (7 + c) o.off (beat.flatMap (fun y => leBytes 8 y.data))
        (beat.flatMap (fun y => List.replicate 8 y.poison)) o.tag
      let s := s.modChan ch (fun v => { v with ops := v.ops.filter (fun y => y.write || y.beat != o.beat) })
      if (s.chan ch).ops = [] && (s.chan ch).copy.isNone && (s.chan ch).ind.isNone then
        s.setB (MOV_STATUS_LT lt c) MOV_STATUS_LT_busy false else s
    else s

def execLockerReadDeliver (lt c : Nat) (s : State) : Host.Outcome State Fault Refusal :=
  live s (if lt < 256 && c < 8 then s.lockerDeliver lt c else s)

/-- The writes of a channel that have been stored are acknowledged, 40 cycles after the last beat (R239). -/
def State.lockerAck (s : State) (lt c : Nat) : State :=
  let ch := 8 * lt + c
  let v := s.chan ch
  if v.ops.any (fun o => o.write) && v.ops.all (fun o => o.write && o.done) && v.copy.isNone then
    let s := { s with cyc := (v.ops.foldl (fun (m : Nat) (o : LkOp) => max m o.cycle) 0 + 40) % 4096 }
    let s := s.modChan ch (fun v => { v with ops := [] })
    if v.ind.isNone then s.setB (MOV_STATUS_LT lt c) MOV_STATUS_LT_busy false else s
  else s

def execLockerWriteAck (lt c : Nat) (s : State) : Host.Outcome State Fault Refusal :=
  live s (if lt < 256 && c < 8 then s.lockerAck lt c else s)

/-! a0 and a3776: the engines have done what the lesson window held, then comes the bell's own work, and the service accesses
whose window opens there (02 R48, R51, R63, 08 R236, R238). -/

def execBellStart (depart : Nat) (s : State) : Host.Outcome State Fault Refusal := live s (s.enginesAll.bellStart depart).svcDrainAll

def execGuardStart (s : State) : Host.Outcome State Fault Refusal := live s s.enginesAll.guardStart.svcDrainAll

/-! Refresh (R248, R249) and canary rows (19 R456). -/

def State.layerTrained (s : State) (l : Nat) : Bool := s.flag (MEM_LAYER l) MEM_LAYER_trained

/-- Every bank refreshes the row at the pointer, which advances. -/
def State.refreshRow (s : State) (l : Nat) : State :=
  s.setF (MEM_LAYER l) MEM_LAYER_refresh_row (s.getF (MEM_LAYER l) MEM_LAYER_refresh_row + 1)

/-- Canary row r of a form's region of a layer: one bell older, or matured, read and rewritten. -/
def State.canaryRow (s : State) (l f r failed : Nat) : State :=
  let k := 4 * f + r
  let age := tgetD (s.layer l).canaryAge k 0 + 1
  let region := 16 + 16 * l + f
  if 256 * 2 ^ r ≤ age then
    { s.modLayer l (fun y => { y with canaryAge := tdel y.canaryAge k }) with
      therm := { s.therm with canary := tput s.therm.canary region (Config.canaryCurve region r failed) } }
  else s.modLayer l (fun y => { y with canaryAge := tput y.canaryAge k age })

/-- Refresh slot A: refresh, canary rows, and the trims of the field roots (17 R424). Operands: phases of the field roots,
and the failed cells found in each canary row, by 64 x layer + 4 x form + row. -/
def State.refreshA (s : State) (phases : List Int) (failed : List Nat) : State :=
  let s := { s with cyc := 3840 }
  let s := s.fieldTrim phases
  forEach ((List.range 4).filter s.layerTrained) s (fun s l =>
    forEach (List.range 64) (s.refreshRow l) (fun s k => s.canaryRow l (k / 4) (k % 4) (failed.getD (64 * l + k) 0)))

def execRefreshSlotA (phases : List Int) (failed : List Nat) (s : State) : Host.Outcome State Fault Refusal :=
  live s (s.refreshA phases failed)

/-! Scrubbing of the lockers (R251, R252). -/

/-- Words of a layer at a scrub position whose stored code differs from their data's: no other word gives the scrubber
anything to do. -/
def State.scrubWords (s : State) (l pos : Nat) : List Nat :=
  (s.mem.lkChk.map (fun x => 8 * x.1)).filter (fun a => lkLayer a == l && bitsAt a 9 13 == pos && s.present (addrTile a))

/-- The scrubber reads one word. -/
def State.scrubWord (s : State) (a : Nat) : State :=
  let (w, k) := lkRead s.mem a
  let s := s.lkCount a k
  match k with
  | .corrected => { s with mem := lkStore s.mem a w false }
  | .uncorrectable => { s with mem := lkStore s.mem a w true }
  | _ => s

/-- One half-row in every locker of a layer, and the position advances. -/
def State.scrubHalfRow (s : State) (l : Nat) : State :=
  let r := MEM_SCRUB_STATUS l
  let pos := s.getF r MEM_SCRUB_STATUS_position
  let s := forEach (s.scrubWords l pos) s State.scrubWord
  let s := s.setF r MEM_SCRUB_STATUS_position ((pos + 1) % 8192)
  if pos = 8191 then s.incF r MEM_SCRUB_STATUS_passes 1 else s

def State.slotB (s : State) (l : Nat) : State :=
  if !s.layerTrained l then s
  else if s.flag (MEM_LAYER l) MEM_LAYER_slot_b_refresh then s.refreshRow l
  else if s.flag MEM_SCRUB_CTRL MEM_SCRUB_CTRL_enable then s.scrubHalfRow l else s

def execRefreshSlotB (s : State) : Host.Outcome State Fault Refusal :=
  live s (forEach (List.range 4) { s with cyc := 3904 } State.slotB)

/-! The service slot (02 R50): prefetch, scrubbing of the tile buffers, hot scrub. -/

/-- Slots of a tile that hold an uncorrectable byte among some bytes. -/
def badSlots (m : MemSt) (bytes : List Nat) : List Nat :=
  ((bytes.filter (fun a => (tbByte m a).2 == .uncorrectable)).map (· / 64)).eraseDups

/-- The scrubber of a tile reads n bytes of its buffer on from where it stopped, and wraps at 4 MiB (07 R215): corrected bytes are
rewritten, slots with an uncorrectable byte are poisoned and counted once. -/
def State.scrubTile (s : State) (lt n : Nat) : State :=
  let pos := (s.tile lt).scrubPos
  let a := tbAddr lt 0
  let bytes := (s.mem.tbChk.map (·.1)).filter (fun x =>
    decide (a ≤ x) && decide (x < a + 0x400000) && decide ((x - a + 0x400000 - pos) % 0x400000 < n))
  let good := bytes.filter (fun x => (tbByte s.mem x).2 == .corrected)
  let bad := badSlots s.mem bytes
  let s := s.incF (TB_ERRORS_LT lt) TB_ERRORS_LT_byte_corrected good.length
  let s := forEach bad s (fun s k =>
    ((s.incF (TB_ERRORS_LT lt) TB_ERRORS_LT_byte_uncorrected 1).tbFault lt (64 * k - tbAddr lt 0) 0))
  let m := forEach good s.mem (fun m x => tbStoreBytes m x [(tbByte m x).1])
  let m := forEach bad m (fun m k => setSlotPoison m k true)
  let next := (pos + n) % 0x400000
  let s := ({ s with mem := m }).modTile lt (fun t => { t with scrubPos := next })
  if 0x400000 ≤ pos + n && (List.range lt).all (fun x => !s.present x) then s.incF TB_SCRUB_PASSES TB_SCRUB_PASSES_passes 1 else s

/-- Bytes that a tile's scrubber reads in this slot: its span, or fewer where service transfers have taken its time. -/
def State.scrubBytes (s : State) (cut : List (Nat × Nat)) (lt : Nat) : Nat :=
  let span := 1024 * 2 ^ s.getF TB_SCRUB_CTRL TB_SCRUB_CTRL_span
  match cut.find? (fun x => x.1 == lt) with
  | some x => min x.2 span
  | none => span

def State.scrubTiles (s : State) (cut : List (Nat × Nat)) : State :=
  if s.flag TB_SCRUB_CTRL TB_SCRUB_CTRL_enable then
    forEach ((List.range 256).filter s.alive) s (fun s lt => s.scrubTile lt (s.scrubBytes cut lt))
  else s

/-- A layer scrubs in the host share. -/
def State.hotScrubs (s : State) (l : Nat) : Bool :=
  s.layerTrained l && s.flag (MEM_LAYER l) MEM_LAYER_slot_b_refresh && s.flag MEM_SCRUB_CTRL MEM_SCRUB_CTRL_enable &&
  s.flag MEM_SCRUB_CTRL MEM_SCRUB_CTRL_hot_scrub

/-! Trace records leave through the host share (22 R529). -/

/-- One record of 16 bytes enters the trace buffer; a full buffer stops the trace, or wraps it. -/
def State.traceWrite (s : State) (r : List Byte) : State :=
  let m := s.mgmt
  let size := leAt m.traceSetup 8 4
  if s.flag TRC_STATUS TRC_STATUS_full then s.incF TRC_STATUS TRC_STATUS_dropped 1
  else
    let pos := if size < m.tracePos + 16 then 0 else m.tracePos
    let a := canonAddr (leAt m.traceSetup 0 8 + pos)
    let mem := if s.mapped a && !s.lockerMoving a then
        lkStore (lkStore s.mem a (leVal (r.take 8)) false) (a + 8) (leVal (r.drop 8)) false else s.mem
    let s := { s with mem := mem, mgmt := { m with tracePos := pos + 16 } }
    let s := if pos = m.tracePos then s else s.setB TRC_STATUS TRC_STATUS_wrapped true
    if leAt m.traceSetup 0x10 1 = 0 && size < pos + 32 then
      (s.setB TRC_STATUS TRC_STATUS_full true).setB TRC_STATUS TRC_STATUS_running false
    else s

def State.traceFlush (s : State) : State :=
  let q := s.mgmt.traceQueue
  forEach q { s with mgmt := { s.mgmt with traceQueue := [] } } State.traceWrite

/-- The service slot: what waited for it is served, and scrubbing and traces take what is left (07 R215). Operands: layers whose
half-row the free MEM cycles of the host share complete (R252); tiles whose scrubber yielded to service transfers, with the bytes it
read before the slot ended. -/
def State.serviceSlot (s : State) (hot : List Nat) (cut : List (Nat × Nat)) : State :=
  let s := { s.enginesAll with cyc := 3968 }
  let s := forEach (List.range 4) s (fun s p => (s.prefetch p).shadowNext p)
  let s := (s.svcDrainAll.scrubTiles cut).traceFlush
  forEach ((List.range 4).filter (fun l => hot.contains l && s.hotScrubs l)) s State.scrubHalfRow

def execServiceSlot (x : SlotLoad) (s : State) : Host.Outcome State Fault Refusal := live s (s.serviceSlot x.hot x.cut)

/-! Arming (02 R50, 06 R186, R192, R193). -/

/-- The lesson that begins with the next bell, if one is armed in this bell: the lesson after this one in its final bell,
the first lesson to run in the bell before its start. -/
def State.armsNext (s : State) (p : Nat) : Bool :=
  let c := s.crsOf p
  (s.working p && decide (lsBells c.image c.lesson ≤ c.lessonBell + 1) && (nextPos c c.lesson c.iter).isSome) ||
  (s.courseState p == csStarting && c.startBell == s.bellCount + 1)

/-- Whether descriptor i of a tile program is a PASS with acc = 0. -/
def isOverwritePass (t : List Byte) (i : Nat) : Bool :=
  let d := descAt t (tpMxeOffset t) i
  i < tpMxeCount t && dBits d 0 0 4 == 2 && dBits d 0 36 1 == 0

/-- Bits [47:38] of word 0 of MXE descriptor i set to a value. -/
def patchProgram (t : List Byte) (i v : Nat) : List Byte :=
  let o := tpMxeOffset t + 32 * i
  let w := leAt t o 8
  let w := w - 2 ^ 38 * bitsAt w 38 10 + 2 ^ 38 * (v % 1024)
  putBytes t o (leBytes 8 w)

/-- Apply the buffered patches to the program that is armed, in store order; one that finds no overwrite PASS is discarded
and the course halts. -/
def State.applyPatches (s : State) (lt : Nat) : State :=
  let s := forEach (s.tile lt).nextPatches s (fun s x =>
    if isOverwritePass (armedProgram (s.tile lt)) x.idx then
      s.modTile lt (fun t =>
        if t.armedBank = 0 then { t with bank0 := patchProgram t.bank0 x.idx x.value }
        else { t with bank1 := patchProgram t.bank1 x.idx x.value })
    else (s.setB (GC_PATCH_LT lt) GC_PATCH_LT_dropped true).declareHalt (s.partOfLt lt) hcPatch)
  (s.modTile lt (fun t => { t with nextPatches := [] })).setF (GC_PATCH_LT lt) GC_PATCH_LT_pending 0

/-- A tile arms its inactive bank. -/
def TileSt.arm (t : TileSt) : TileSt :=
  { t with armedBank := 1 - t.armedBank, armed := true, curPatches := [], mxe := { t.mxe with taken := [], merges := [] } }

/-- The programs of partition p switch to the next lesson; a tile that did not acknowledge ARM has failed (20 R486). R77 has
the kind field of the lesson's entry select the units that are armed and says nothing of which; the model arms every unit, whatever
the kind, and each does what its program holds (DESIGN CHOICE, log entry 38). -/
def State.lessonArm (s : State) (p : Nat) : State :=
  if !s.armsNext p then s
  else
    let s := { s with cyc := 4095 }
    let silent := (s.tilesOf p).filter (fun lt => !(s.tile lt).armAck)
    let s := forEach ((s.tilesOf p).filter (fun lt => (s.tile lt).armAck)) s (fun s lt =>
      (s.modTile lt TileSt.arm).applyPatches lt)
    let s := forEach (List.range 4) s (fun s l =>
      s.modLayer l (fun y => { y with prog := tput y.prog p (tgetD y.progNext p []) }))
    let s := forEach ((List.range 6).filter (fun q => s.partOfPort q == p)) s (fun s q =>
      s.modPort q (fun t => { t with prog := t.progNext }))
    forEach silent s (fun s lt => s.tileFailure lt 0)

def execLessonArm (p : Nat) (s : State) : Host.Outcome State Fault Refusal :=
  live s (if p < 4 then s.lessonArm p else s)

/-! Accesses from below (R253) and evacuation (R257, R258, 20 R491). -/

/-- Bytes stored in control-complex memory. -/
def State.ccWrite (s : State) (off : Nat) (d : List Byte) : State :=
  let cells := (d.zip (List.range d.length)).foldl (fun t x => tset t (off + x.2) x.1 (0 : Byte)) s.mem.cc
  { s with mem := { s.mem with cc := cells } }

/-- The control complex moves n bytes between stack memory and its own memory: a write takes them from there, a read puts
the good bytes there. It does so in the windows that the base die has (R238). -/
def State.accessBelow (s : State) (write : Bool) (a n off : Nat) : State :=
  if (s.svcRefuse a n write).isSome || !s.rangeOpen a n then s
  else if write then (s.svcWrite a (ccRead s off n)).2
  else
    let ((d, _), s) := s.svcRead a n
    s.ccWrite off d

def execServiceAccessBelow (write : Bool) (a n off : Nat) (s : State) : Host.Outcome State Fault Refusal :=
  live s (s.accessBelow write a n off)

/-- The base die completes one more locker, in a window it owns (R238, R257); bad lists the words of it that could not be read. -/
def State.evacStep (s : State) (bad : List Nat) : State :=
  match s.bring.evac with
  | some e =>
    if e.done < 64 && s.belowOpen (s.partOfLt e.lt) then
      let e := { e with
        done := e.done + 1
        bad := e.bad ++ (bad.map (fun w => e.lt * 2 ^ 30 + e.done * 0x1000000 + w % 0x200000 * 8)).eraseDups }
      { s with bring := { s.bring with evac := some e } }.setF MEM_EVAC MEM_EVAC_lockers_done e.done
    else s
  | none => s

def execEvacuationStep (bad : List Nat) (s : State) : Host.Outcome State Fault Refusal := live s (s.evacStep bad)

/-- Words of a tile's lockers with a code difference. -/
def markedWords (m : MemSt) (lt : Nat) : List Nat := (m.lkChk.map (fun x => 8 * x.1)).filter (fun a => addrTile a == lt)

/-- A word of the new seat after the copy: corrected, or written as poisoned; the answer counts the latter. -/
def State.evacWord (s : State) (a : Nat) (lost : Bool) : Nat × State :=
  let (w, k) := lkRead s.mem a
  let s := s.lkCount a (if lost then .uncorrectable else k)
  if lost || k == .poison || k == .uncorrectable then (1, { s with mem := lkStore s.mem a w true })
  else (0, { s with mem := lkStore s.mem a w false })

/-- Every locker is done: the lockers stand beneath the new seat, EVACUATION_DONE is raised, EVACUATE completes. -/
def State.evacDone (s : State) : State :=
  match s.bring.evac with
  | some e =>
    if e.done < 64 then s
    else
      let s := { s with mem := fetchLockers s.mem e.lt, bring := { s.bring with evac := none } }
      let words := (markedWords s.mem e.lt).filter (fun a => !e.bad.contains a)
      let (n, s) := words.foldl (fun (x : Nat × State) a =>
        let (k, t) := x.2.evacWord a false
        (x.1 + k, t)) (0, s)
      let (n, s) := e.bad.foldl (fun (x : Nat × State) a =>
        let (k, t) := x.2.evacWord a true
        (x.1 + k, t)) (n, s)
      let s := (s.incF MEM_EVAC MEM_EVAC_poisoned n).setB MEM_EVAC MEM_EVAC_active false
      let s := s.raise evEvacuationDone (s.partOfLt e.lt) 1 e.lt n 0 0 0
      let s := s.setEvacPending e.lt false
      match s.findTag e.ring e.tag with
      | some c => s.ok c 0
      | none => s
  | none => s

def execEvacuationComplete (s : State) : Host.Outcome State Fault Refusal := live s s.evacDone

end Sys2Proof.Machine
end

