-- ==== Sys2Proof/Machine/Mesh.lean ====
section
/-! DEFINITION. The data mesh, service beats and hall passes, and the control network (07 R216-R233). -/

namespace Sys2Proof.Machine

/-! Work of a tile in the present bell. -/

/-- A tile carries out a descriptor, entry or task of a start bell of the lesson: its partition works, the bell is reached,
no halt notice has come. -/
def State.tileWorks (s : State) (lt startBell : Nat) : Bool :=
  decide (lt < 256) && s.alive lt && s.working (s.partOfLt lt) && (s.crsOf (s.partOfLt lt)).lessonBell == startBell &&
  !(s.tile lt).halted

/-! Beats (R217, R219). -/

/-- Logical tile seated at a seat. -/
def State.ltAtSeat (s : State) (m : Nat) : Option Nat :=
  ((List.range 16).map (16 * (m / 18) + ·)).find? (fun lt => s.seatIdx lt == m % 18)

def Beat.seat (b : Beat) : Nat := seatAt b.row b.col

/-- The mesh bypasses a seat (R219). -/
def State.bypassed (s : State) (m : Nat) : Bool := s.flag (MESH_ERRORS_SEAT m) MESH_ERRORS_SEAT_bypassed

/-- A next router on a beat's way: output taken (0 east, 1 west, 2 north, 3 south), row, column, side of entry there, cycles to
it. -/
structure Hop where
  out : Nat
  row : Nat
  col : Nat
  side : Nat
  cycles : Nat
  deriving DecidableEq, Repr

/-- A hop to a neighbouring seat: 2 cycles, and 2 for each seam. -/
def hopTo (out side row col row2 col2 : Nat) : Hop :=
  { out := out, row := row2, col := col2, side := side, cycles := 2 + 2 * seamsBetween row col row2 col2 }

/-- Along the row to the destination column, then along the column (R219); none at the destination. -/
def hopOf (row col destRow destCol : Nat) : Option Hop :=
  if col < destCol then some (hopTo 0 1 row col row (col + 1))
  else if destCol < col then some (hopTo 1 0 row col row (col - 1))
  else if destRow < row then some (hopTo 2 3 row col (row - 1) col)
  else if row < destRow then some (hopTo 3 2 row col (row + 1) col)
  else none

/-- A hop carried on over the bypasses of dead seats; fuel bounds the seats passed. -/
def State.overDead (s : State) (destRow destCol : Nat) : Nat → Hop → Hop
  | 0, h => h
  | k + 1, h =>
    if s.bypassed (seatAt h.row h.col) then
      match hopOf h.row h.col destRow destCol with
      | some g => s.overDead destRow destCol k { g with out := h.out, cycles := h.cycles + g.cycles }
      | none => h
    else h

/-- Side at which a beat enters its destination's router. -/
def lastSide (m1 m2 : Nat) : Nat :=
  if seatRow m1 < seatRow m2 then 2 else if seatRow m2 < seatRow m1 then 3
  else if seatCol m1 < seatCol m2 then 1 else if seatCol m2 < seatCol m1 then 0 else 4

/-- A beat's next hop toward a tile. -/
def State.hop (s : State) (b : Beat) (t : Nat) : Option Hop :=
  let r := seatRow (s.seatOf t)
  let c := seatCol (s.seatOf t)
  (hopOf b.row b.col r c).map (s.overDead r c 32)

def State.dropBeat (s : State) (id : Nat) : State :=
  { s with mesh := { s.mesh with beats := s.mesh.beats.filter (fun x => x.id != id) } }

def State.putBeat (s : State) (b : Beat) : State :=
  { s with mesh := { s.mesh with beats := s.mesh.beats.map (fun x => if x.id = b.id then b else x) } }

/-- A beat no longer goes to some tiles. -/
def State.without (s : State) (b : Beat) (ts : List Nat) : State :=
  let rest := b.targets.filter (fun t => !ts.contains t)
  if rest = [] then s.dropBeat b.id else s.putBeat { b with targets := rest }

/-- Record the first collision or discard (R234). A router beneath no logical tile has no number to record: the value is
open. -/
def State.meshRecord (s : State) (seat cycle kind : Nat) : State :=
  if s.flag MESH_CONFLICT MESH_CONFLICT_valid then s
  else
    let lt := (s.ltAtSeat seat).getD (s.freeNat % 256)
    (s.setReg MESH_CONFLICT (BitVec.ofNat 32 (lt + 2 ^ 8 * (cycle % 4096) + 2 ^ 20 * kind + 2 ^ 31))).drawn 1

/-- A timed beat of a tile has lost and is discarded: record, MESH_CONFLICT, halt (R224). -/
def State.collide (s : State) (src seat cycle kind : Nat) : State :=
  let s := s.meshRecord seat cycle kind
  let lt := s.getF MESH_CONFLICT MESH_CONFLICT_lt
  let p := s.partOfLt src
  (s.raise evMeshConflict p 1 lt (s.reg MESH_CONFLICT).toNat 0 0 0).declareHalt p hcMesh

/-! Injection (R222, R224, R225). -/

/-- Tiles to which copies of a beat go. -/
def State.meshTargets (s : State) (src dest mc : Nat) : List Nat :=
  if mc = 0 then [dest].filter s.present
  else (s.tilesOf (s.partOfLt src)).filter (fun t =>
    if mc = 1 then ltRow t == ltRow dest else if mc = 2 then ltCol t == ltCol dest else true)

/-- A beat enters its own tile's router; it divides where its routes do (R222). -/
def State.launch (s : State) (b : Beat) : State :=
  let m := s.seatOf b.srcLt
  let ts := s.meshTargets b.srcLt b.destLt b.mc
  if ts = [] then s.dropBeat b.id
  else s.putBeat { b with injected := true, row := seatRow m, col := seatCol m, side := 4, arrive := b.injCycle + 2, targets := ts }

/-- Beats that units of a tile offer in a cycle. -/
def State.offers (s : State) (lt cycle : Nat) : List Beat :=
  s.mesh.beats.filter (fun b => b.srcLt == lt && !b.injected && b.injCycle == cycle && b.injBell == s.bellCount && b.kind != 2)

/-- Injection from a tile in a cycle: SEND passes, then the mover channels in ascending number; the others collide. -/
def State.inject (s : State) (lt cycle : Nat) : State :=
  let s := s.engines lt cycle
  let l := s.offers lt cycle
  match l.find? (fun b => l.all (fun x => decide (b.unit ≤ x.unit))) with
  | none => s
  | some b =>
    let s := ({ s with cyc := cycle % 4096 }).launch b
    forEach (l.filter (fun x => x.id != b.id)) s (fun s x => (s.dropBeat x.id).collide lt (s.seatOf lt) cycle 0)

def execMeshInject (lt cycle : Nat) (s : State) : Host.Outcome State Fault Refusal := live s (s.inject lt cycle)

/-! Routing (R218, R219, R224). -/

/-- Errors on the link a beat has crossed: corrected words, uncorrectable data words, an uncorrectable sideband. -/
def State.linkErrors (s : State) (b : Beat) (corrected : Nat) (bad : List Nat) (hdrBad : Bool) : State :=
  let r := MESH_ERRORS_SEAT b.seat
  let s := s.incF r MESH_ERRORS_SEAT_link_corrected corrected
  let s := s.incF r MESH_ERRORS_SEAT_link_uncorrected bad.length
  if hdrBad then
    let s := (s.incF r MESH_ERRORS_SEAT_hdr_drop 1).dropBeat b.id
    let s := s.raise evMeshDrop (s.partOfForm (b.seat / 18)) 2 b.seat (boolNat (b.kind != 2)) 0 0 0
    if b.kind ≠ 2 then s.declareHalt (s.partOfLt b.srcLt) hcMesh else s
  else s.putBeat { b with poison := bad.foldl (fun v w => withBit v (w % 16 / 8)) b.poison }

/-- The copy of a beat for some of its tiles crosses a link to the next router; where others remain, it is a beat of its own. -/
def State.advance (s : State) (b : Beat) (h : Hop) (ts : List Nat) (cycle corrected : Nat) (bad : List Nat) (hdrBad : Bool) :
    State :=
  let all := b.targets.all ts.contains
  let x := { b with id := if all then b.id else s.mesh.nextId, targets := ts, row := h.row, col := h.col, side := h.side,
                    arrive := cycle + h.cycles, path := b.path ++ [(b.seat, h.out)] }
  let s := if all then s.putBeat x
    else
      let t := s.without b ts
      { t with mesh := { t.mesh with beats := t.mesh.beats ++ [x], nextId := t.mesh.nextId + 1 } }
  s.linkErrors x corrected bad hdrBad

/-- The hop that a beat takes next, of the lowest output and then the nearest router, and its tiles that lie that way. -/
def State.nextHops (s : State) (b : Beat) : Option (Hop × List Nat) :=
  let l := b.targets.filterMap (fun t => if s.present t then (s.hop b t).map (fun h => (h, t)) else none)
  let key := fun (h : Hop) => 64 * h.out + h.cycles
  match l.find? (fun x => l.all (fun y => decide (key x.1 ≤ key y.1))) with
  | some x => some (x.1, (l.filter (fun y => y.1 == x.1)).map (·.2))
  | none => none

/-- A copy of the beat takes an output at its router. -/
def State.needs (s : State) (b : Beat) (out : Nat) : Bool :=
  b.targets.any (fun t => s.present t && (s.hop b t).any (fun h => h.out == out))

/-- Timed beats of other injections that need a router's output in a cycle and have not taken it. -/
def State.contenders (s : State) (seat out cycle root : Nat) : List Beat :=
  s.mesh.beats.filter (fun y => y.injected && y.kind != 2 && y.root != root && y.seat == seat && y.arrive == cycle && s.needs y out)

/-- A beat must leave an output to another that needs it in the same cycle: one from a lower-numbered side passes, and of two from one
side, which meet after a bypass, the one injected first (the latter DESIGN CHOICE, log entry 18). -/
def State.outputLost (s : State) (b : Beat) (out : Nat) : Bool :=
  let before := fun (side root : Nat) => side < b.side || (side == b.side && root < b.root)
  s.mesh.uses.any (fun u => u.timed && u.seat == b.seat && u.out == out && u.cycle == b.arrive && u.beat != b.root && before u.side u.beat) ||
  (s.contenders b.seat out b.arrive b.root).any (fun y => before y.side y.root)

/-- Beats that took an output in a cycle although b passes there: what went that way of each is discarded. -/
def State.oust (s : State) (b : Beat) (out : Nat) : State :=
  let l := s.mesh.uses.filter (fun u => u.timed && u.seat == b.seat && u.out == out && u.cycle == b.arrive && u.beat != b.root)
  forEach l s (fun s u =>
    let gone := s.mesh.beats.filter (fun y => y.root == u.beat && y.path.contains (b.seat, out))
    let src := (gone.head?.map (·.srcLt)).getD b.srcLt
    let t := { s with mesh := { s.mesh with beats := s.mesh.beats.filter (fun y => !gone.contains y), uses := s.mesh.uses.erase u } }
    if gone = [] then t else t.collide src b.seat b.arrive 0)

/-- A timed beat at a router takes an output, unless it must leave it to another. -/
def State.routeTimed (s : State) (b : Beat) (h : Hop) (ts : List Nat) (corrected : Nat) (bad : List Nat) (hdrBad : Bool) : State :=
  let s := { s with cyc := b.arrive % 4096 }
  if s.outputLost b h.out then (s.without b ts).collide b.srcLt b.seat b.arrive 0
  else
    let s := s.oust b h.out
    let u : RouteUse := { seat := b.seat, out := h.out, cycle := b.arrive, side := b.side, beat := b.root, timed := true }
    ({ s with mesh := { s.mesh with uses := s.mesh.uses ++ [u] } }).advance b h ts b.arrive corrected bad hdrBad

/-- A beat at a router: its identity, and the errors of the link it takes. A beat that divides takes one output with each command. -/
def State.meshRoute (s : State) (id corrected : Nat) (bad : List Nat) (hdrBad : Bool) : State :=
  match s.mesh.beats.find? (fun x => x.id == id && x.injected && x.kind != 2) with
  | some b =>
    let b := { b with targets := b.targets.filter s.present }
    if b.targets = [] then s.dropBeat id
    else match s.nextHops b with
      | some (h, ts) => s.routeTimed b h ts corrected bad hdrBad
      | none => s
  | none => s

def execMeshBeatRoute (id corrected : Nat) (bad : List Nat) (hdrBad : Bool) (s : State) : Host.Outcome State Fault Refusal :=
  live s (s.meshRoute id corrected bad hdrBad)

/-! Ejection (R222-R225, 04 R139). -/

/-- Cycle at which a beat is delivered: L(a, b) after its injection. -/
def deliverCycle (b : Beat) : Nat := b.injCycle + routeL b.srcLt b.destLt

/-- The MERGE entry of a tile that expects a beat from a tile at a cycle: its index and the beat's place in it. -/
def State.mergeFor (s : State) (lt src cycle : Nat) : Option (Nat × Nat) :=
  let t := armedProgram (s.tile lt)
  (List.range (tpMxeCount t)).findSome? (fun i =>
    let d := descAt t (tpMxeOffset t) i
    let a := dStartCycle d
    if dBits d 0 0 4 = 4 && dBits d 0 32 8 = src && s.tileWorks lt (dStartBell d) && a ≤ cycle &&
        cycle < a + 6 * (dBits d 1 11 11 + 1) then some (i, cycle - a) else none)

/-- Poison of a beat's bytes from its sideband. -/
def beatPoison (b : Beat) : List Bool := (List.range b.data.length).map (fun i => bitSet b.poison (i / 64))

/-- A merge beat reaches the MXE: kept for its MERGE, or discarded. -/
def State.mergeBeat (s : State) (b : Beat) : State :=
  let x := deliverCycle b
  match s.mergeFor b.destLt b.srcLt x with
  | some (i, k) =>
    let y : MergeBeat := { data := b.data, poison := b.poison, tag := signedOf b.dstOff 10 }
    s.modTile b.destLt (fun t => { t with mxe := { t.mxe with merges := tput t.mxe.merges (2 ^ 14 * i + k) y } })
  | none => s.setB (MXE_STATUS_LT b.destLt) MXE_STATUS_LT_merge_dropped true

/-- Another beat has or takes the ejection port in the same cycle: one from a lower-numbered side, of two from one side the one
injected first, and a beat that has already been written (log entry 18). -/
def State.ejectLoses (s : State) (b : Beat) : Bool :=
  let x := deliverCycle b
  let seat := s.seatOf b.destLt
  let side := lastSide (s.seatOf b.srcLt) seat
  s.mesh.uses.any (fun u => u.seat == seat && u.out == 4 && u.cycle == x) ||
  s.mesh.beats.any (fun y => y.root != b.root && y.injected && y.kind != 2 && y.targets.contains b.destLt &&
    deliverCycle { y with destLt := b.destLt } == x &&
    (let z := lastSide (s.seatOf y.srcLt) seat
     z < side || (z == side && y.root < b.root)))

/-- An earlier beat of the same transfer has not been written yet: beats of one transfer arrive in the order sent (R222). -/
def State.ejectEarly (s : State) (b : Beat) : Bool :=
  s.mesh.beats.any (fun y => y.root != b.root && y.srcLt == b.srcLt && y.unit == b.unit && y.kind == b.kind && y.injBell == b.injBell &&
    decide (y.injCycle < b.injCycle) && y.targets.contains b.destLt)

/-- A beat's copy at its destination is written at its cycle, or discarded. -/
def State.ejectBeat (s : State) (b : Beat) : State :=
  let x := deliverCycle b
  let seat := s.seatOf b.destLt
  let s := { s with cyc := x % 4096 }
  if s.partOfLt b.srcLt ≠ s.partOfLt b.destLt then s.meshRecord seat x 2
  else if s.ejectLoses b then s.collide b.srcLt seat x 1
  else
    let u : RouteUse := { seat := seat, out := 4, cycle := x, side := b.side, beat := b.root, timed := true }
    let s := { s with mesh := { s.mesh with uses := s.mesh.uses ++ [u] } }
    if !s.alive b.destLt then s
    else if b.kind = 1 then s.mergeBeat b
    else s.portWrite b.destLt x 1 6 b.dstOff b.data (beatPoison b) b.dstTag

def State.meshEject (s : State) (id : Nat) : State :=
  match s.mesh.beats.find? (fun x => x.id == id && x.injected && x.kind != 2) with
  | some b =>
    match b.targets.find? (fun t => s.present t && s.seatOf t == b.seat) with
    | some t =>
      let x := { b with destLt := t }
      if s.ejectEarly x then s else (s.without b [t]).ejectBeat x
    | none => s
  | none => s

def execMeshEject (id : Nat) (s : State) : Host.Outcome State Fault Refusal := live s (s.meshEject id)

/-! Service beats and hall passes (R226, R227). -/

/-- A tile gets a pass back. -/
def State.passBack (s : State) (lt n : Nat) : State :=
  s.setF (TB_HALL_LT lt) TB_HALL_LT_free (min 16 (s.getF (TB_HALL_LT lt) TB_HALL_LT_free + n))

/-- A service beat is written through the service port in a cycle in which no timed requester uses its slice ports, which sets FULL, and
its pass returns. One from another partition is discarded at the ejection port (R225), and its pass returns too. -/
def State.writeService (s : State) (b : Beat) (cycle : Nat) : State :=
  let s := s.engines b.destLt cycle
  if s.partOfLt b.srcLt ≠ s.partOfLt b.destLt then
    ((s.dropBeat b.id).meshRecord b.seat cycle 2).passBack b.destLt 1
  else if (s.tile b.destLt).uses.any (fun u =>
      u.cycle == cycle && u.port == 1 && (slicesOf b.dstOff b.data.length).contains u.slice) then s
  else
    let s := s.dropBeat b.id
    let s := if s.alive b.destLt then { s with mem := tbWrite s.mem b.destLt b.dstOff b.data (beatPoison b) 1 } else s
    s.passBack b.destLt 1

/-- Service beats at a router input, which holds four. -/
def State.atInput (s : State) (seat side : Nat) : Nat :=
  (s.mesh.beats.filter (fun x => x.kind == 2 && x.injected && x.seat == seat && x.side == side)).length

/-- A beat uses, or a timed beat needs, a link in a cycle. -/
def State.linkBusy (s : State) (seat out cycle : Nat) : Bool :=
  s.mesh.uses.any (fun u => u.seat == seat && u.out == out && u.cycle == cycle) || (s.contenders seat out cycle s.mesh.nextId) ≠ []

/-- A service beat advances over a link in a cycle in which no other beat uses it, or is written at its destination. -/
def State.serviceAdvance (s : State) (id cycle corrected : Nat) (bad : List Nat) (hdrBad : Bool) : State :=
  match s.mesh.beats.find? (fun x => x.id == id && x.injected && x.kind == 2) with
  | some b =>
    if !s.present b.destLt then (s.dropBeat id).passBack b.destLt 1
    else if b.injBell = s.bellCount && cycle < b.arrive then s
    else match s.hop b b.destLt with
      | none => s.writeService b cycle
      | some h =>
        if s.linkBusy b.seat h.out cycle || 4 ≤ s.atInput (seatAt h.row h.col) h.side then s
        else
          let u : RouteUse := { seat := b.seat, out := h.out, cycle := cycle, side := b.side, beat := b.root, timed := false }
          let s := { s with mesh := { s.mesh with uses := s.mesh.uses ++ [u] } }
          let s := s.advance { b with injBell := s.bellCount } h b.targets cycle corrected bad hdrBad
          if hdrBad then s.passBack b.destLt 1 else s
  | none => s

def execServiceBeatAdvance (id cycle corrected : Nat) (bad : List Nat) (hdrBad : Bool) (s : State) :
    Host.Outcome State Fault Refusal := live s (s.serviceAdvance id cycle corrected bad hdrBad)

/-- Passes that a channel has asked for and not been granted, and whether all of them are asked of one tile. -/
def State.hallAsked (s : State) (g : Nat) : Nat :=
  ((s.tiles.flatMap (fun x => x.2.hallQueue)).filter (fun q => q.1 == g)).foldl (fun n q => n + q.2) 0

def State.hallOnly (s : State) (g dest : Nat) : Bool :=
  s.tiles.all (fun x => x.1 == dest || !x.2.hallQueue.any (fun q => q.1 == g))

/-- A HALL_REQ of channel c of tile lt for n passes reaches tile dest. A channel asks for passes of one tile at a time, at most 16
with those it holds. -/
def State.hallReq (s : State) (lt c dest n : Nat) : State :=
  let g := 8 * lt + c
  let ch := s.chan g
  if lt < 256 && c < 8 && dest < 256 && s.present dest && ch.posts ≠ [] && 1 ≤ n && ch.passes + s.hallAsked g + n ≤ 16 &&
      (ch.passes == 0 || ch.passTile == dest) && s.hallOnly g dest then
    s.modTile dest (fun t => { t with hallQueue := t.hallQueue ++ [(g, n)] })
  else s

def execHallReq (lt c dest n : Nat) (s : State) : Host.Outcome State Fault Refusal := live s (s.hallReq lt c dest n)

/-- A tile grants as many passes as it has free to its oldest request. -/
def State.hallGrant (s : State) (lt : Nat) : State :=
  match (s.tile lt).hallQueue with
  | (g, n) :: rest =>
    let free := s.getF (TB_HALL_LT lt) TB_HALL_LT_free
    let k := min n free
    if k = 0 then s
    else
      let s := s.setF (TB_HALL_LT lt) TB_HALL_LT_free (free - k)
      let s := s.modTile lt (fun t => { t with hallQueue := if k < n then (g, n - k) :: rest else rest })
      s.modChan g (fun c => { c with passes := c.passes + k, passTile := lt })
  | [] => s

def execHallGrant (lt : Nat) (s : State) : Host.Outcome State Fault Refusal :=
  live s (if lt < 256 then s.hallGrant lt else s)

/-- The passes that a channel's ended transfers left reach their tiles. -/
def State.hallReturn (s : State) (lt c : Nat) : State :=
  let g := 8 * lt + c
  (forEach (s.chan g).owed s (fun s x => s.passBack x.1 x.2)).modChan g (fun v => { v with owed := [] })

def execHallPassReturn (lt c : Nat) (s : State) : Host.Outcome State Fault Refusal :=
  live s (if lt < 256 && c < 8 then s.hallReturn lt c else s)

/-! The control network (R229-R231). The table gives the payload of no message but HALT and STOP: log entry 19. -/

def cnetWords (m : CnetMsg) : Nat := 1 + m.words.length

/-- A message its first node discards: an invalid type, HALT or STOP without priority, more words than four, a destination tile that
was absent when it left. -/
def cnetVoid (m : CnetMsg) : Bool :=
  decide (10 < m.typ) || ((m.typ == 8 || m.typ == 9) && !m.prio) || decide (4 < cnetWords m) ||
  (!m.bcast && decide (m.dest < 256) && m.seat.isNone)

/-- Nodes that act on a message: the tiles of the partition named for a broadcast; for a tile's message the tile, where it still stands
at the seat to which the message was sent; the node named otherwise. -/
def State.cnetNodes (s : State) (m : CnetMsg) : List Nat :=
  if m.bcast then s.tilesOf (m.payload % 4)
  else if m.dest < 256 then (if m.seat = some (s.seatOf m.dest) then [m.dest] else [])
  else [m.dest]

/-- A message, or a copy of a priority message, reaches its node: words corrected on the way, and whether a word of it was
uncorrectable. The node acts on the first copy of a priority message that checks good: the second copy of a message not sent by
this model waits only where the first was bad (R231). -/
def State.onCnet (s : State) (m : CnetMsg) (typ corrected : Nat) (bad : Bool) (f : State → CnetMsg → State) : State :=
  let acted := m.second && !s.mesh.msgs.contains m
  let msgs := s.mesh.msgs.erase m
  let twin := { m with second := true }
  let drop := bad || cnetVoid m
  let msgs := if !m.prio || m.second then msgs
    else if !drop then msgs.erase twin
    else if msgs.contains twin then msgs else twin :: msgs
  let s := ({ s with mesh := { s.mesh with msgs := msgs } }).trace 0 none none none
  let s := s.incF CNET_ERRORS CNET_ERRORS_word_corrected corrected
  if drop then s.incF CNET_ERRORS CNET_ERRORS_word_dropped (cnetWords m)
  else if acted || m.typ ≠ typ then s
  else forEach (s.cnetNodes m) s (fun s k => f s { m with dest := k })

/-- The register that a message names, and the node of the unit that holds a register (R230; log entry 19). -/
def cnetReg (m : CnetMsg) : Nat := regBase + m.payload % 2 ^ 32 / 4 * 4

def nodeOfReg (a : Nat) : Nat :=
  let o := a - regBase
  match regTile a with
  | some lt => lt
  | none =>
    if 0xC0000 ≤ o && o < 0xC0480 then 0x200 + (o - 0xC0000) / 4
    else if 0xD0000 ≤ o && o < 0xD0040 then 0x100 + (o - 0xD0000) / 0x10
    else if 0x110000 ≤ o && o < 0x110180 then 0x188 + (o - 0x110000) / 0x40
    else if 0x120000 ≤ o && o < 0x130000 then 0x18E
    else if 0x160000 ≤ o && o < 0x170000 then 0x181
    else if 0x190000 ≤ o && o < 0x1A0000 then 0x182
    else 0x180

/-- REG_READ: the node's register goes back in a REG_REPLY; a register of another unit reads 0 there. -/
def State.cnetRead (s : State) (m : CnetMsg) : State :=
  if nodeOfReg (cnetReg m) = m.dest then
    let (v, s) := s.accessRead (2 ^ 20 + m.src) (cnetReg m) 4
    s.sendCnet (cnetMsg 2 m.src m.dest v false m.prio)
  else s.sendCnet (cnetMsg 2 m.src m.dest 0 false m.prio)

def execCnetRegRead (m : CnetMsg) (corrected : Nat) (bad : Bool) (s : State) : Host.Outcome State Fault Refusal :=
  live s (s.onCnet m 0 corrected bad State.cnetRead)

/-- REG_WRITE: the value stands in the first payload word; a node does nothing with a register of another unit. -/
def State.cnetWrite (now : Nat) (s : State) (m : CnetMsg) : State :=
  if nodeOfReg (cnetReg m) = m.dest then s.accessWrite (cnetReg m) 4 (m.words.headD 0 % 2 ^ 32) now else s

def execCnetRegWrite (m : CnetMsg) (x : CnetCheck) (now : Nat) (s : State) : Host.Outcome State Fault Refusal :=
  live s (s.onCnet m 1 x.corrected x.bad (State.cnetWrite now))

/-- REG_REPLY leaves the network at the hub, which sends the value on over the link where a host request waits for it. -/
def State.cnetReply (s : State) (m : CnetMsg) : State := if m.dest = 0x180 then s.send (.cnet m) else s

def execCnetRegReply (m : CnetMsg) (corrected : Nat) (bad : Bool) (s : State) : Host.Outcome State Fault Refusal :=
  live s (s.onCnet m 2 corrected bad State.cnetReply)

/-- An EVENT message reaches the control complex: code in payload [15:0], partition in [23:16], kind in [31:24], unit in the
first payload word's [15:0], details d0 and d1 in the others. -/
def State.cnetEvent (s : State) (m : CnetMsg) : State :=
  let w := fun (i : Nat) => m.words.getD i 0
  if m.dest = 0x180 then
    s.raise (m.payload % 65536) (bitsAt m.payload 16 8) (bitsAt m.payload 24 8) (w 0 % 65536) (w 1) (w 2) 0 0
  else s

def execCnetEvent (m : CnetMsg) (corrected : Nat) (bad : Bool) (s : State) : Host.Outcome State Fault Refusal :=
  live s (s.onCnet m 5 corrected bad State.cnetEvent)

/-- ARM reaches a tile sequencer, which acknowledges it (02 R50). -/
def State.cnetArm (s : State) (m : CnetMsg) : State :=
  if s.alive m.dest then s.modTile m.dest (fun t => { t with armAck := true }) else s

def execCnetArm (m : CnetMsg) (corrected : Nat) (bad : Bool) (s : State) : Host.Outcome State Fault Refusal :=
  live s (s.onCnet m 6 corrected bad State.cnetArm)

/-- SERVICE_POST reaches a tile: channel in payload [2:0], bytes less 1 in [31:3], source and destination in the next words;
the last names the command, ring in [7:0] and tag in [39:8]. -/
def State.cnetPost (s : State) (m : CnetMsg) : State :=
  let w := fun (i : Nat) => m.words.getD i 0
  let x : ServicePost := { src := w 0 % 2 ^ 48, dst := w 1 % 2 ^ 48, bytes := m.payload % 2 ^ 32 / 8 + 1, ring := w 2 % 256,
                           tag := w 2 / 256 % 2 ^ 32, moved := 0 }
  if s.alive m.dest && !s.clock.resetBegun then s.modChan (8 * m.dest + m.payload % 8) (fun c => { c with posts := c.posts ++ [x] }) else s

def execCnetServicePost (m : CnetMsg) (corrected : Nat) (bad : Bool) (s : State) : Host.Outcome State Fault Refusal :=
  live s (s.onCnet m 7 corrected bad State.cnetPost)

end Sys2Proof.Machine
end

