-- ==== Sys2Proof/Machine/Matrix.lean ====
section
/-! DEFINITION. The matrix engines: LOAD, PASS, SEND, MERGE, and the moment a descriptor takes its fields (04, 06 R192). -/

namespace Sys2Proof.Machine

/-- The MXE descriptor of a tile's armed program that runs in the present bell. -/
def State.mxeDesc (s : State) (lt idx op : Nat) : Option Nat :=
  let t := armedProgram (s.tile lt)
  let d := descAt t (tpMxeOffset t) idx
  if idx < tpMxeCount t && mdOp d = op && s.tileWorks lt (dStartBell d) then some d else none

/-- A descriptor starts, at its start cycle and at no other: what the engines have done up to there comes first. -/
def State.onMxe (s : State) (lt idx cycle op : Nat) (f : State → Nat → State) : State :=
  match s.mxeDesc lt idx op with
  | some d => if cycle = dStartCycle d then (f { s.engines lt cycle with cyc := cycle } d).showMxe lt else s
  | none => s

/-! Taking fields (06 R192). -/

/-- Bell of the lesson and cycle at which a descriptor takes its fields; none at arming. -/
def fetchPoint (d : Nat) : Option (Nat × Nat) :=
  if 8 ≤ dStartCycle d then some (dStartBell d, dStartCycle d - 8)
  else if 1 ≤ dStartBell d then some (dStartBell d - 1, 3768 + dStartCycle d) else none

/-- The accumulation exponent of descriptor i: the last patch in store order that has landed by the fetch point, else its
own. -/
def fetchedExp (patches : List Patch) (i d : Nat) : Int :=
  match fetchPoint d with
  | none => psEacc d
  | some (b, c) =>
    match (patches.filter (fun x => x.idx == i && (decide (x.bell < b) || (x.bell == b && decide (x.cycle ≤ c))))).getLast? with
    | some x => signedOf (x.value % 1024) 10
    | none => psEacc d

def State.takeFields (s : State) (lt idx : Nat) : State :=
  let t := armedProgram (s.tile lt)
  let d := descAt t (tpMxeOffset t) idx
  match fetchPoint d with
  | some (b, c) =>
    if idx < tpMxeCount t && s.tileWorks lt b then
      ({ s with cyc := c }).modTile lt (fun t => { t with mxe := { t.mxe with
        taken := tput t.mxe.taken idx (fetchedExp t.curPatches idx d) } })
    else s
  | none => s

def execDescriptorFetch (lt idx : Nat) (s : State) : Host.Outcome State Fault Refusal := live s (s.takeFields lt idx)

/-! LOAD, PASS and SEND start (R119-R121, R127-R129). Their columns and rows follow cycle by cycle (State.engines). -/

def State.startLoad (s : State) (lt d : Nat) : State :=
  s.modMxe lt (fun m => { m with load := some { desc := d, next := 0 } })

def execMxeLoad (lt idx cycle : Nat) (s : State) : Host.Outcome State Fault Refusal :=
  live s (s.onMxe lt idx cycle moLOAD (fun s d => s.startLoad lt d))

/-- PASS: the planes swap where it says so, and its rows issue from now on. A transposed read of a plane whose squares differ
is noted (R136). -/
def State.startPass (s : State) (lt idx d : Nat) : State :=
  let s := if psSwap d = 1 then s.swapPlanes lt else s
  let m := (s.tile lt).mxe
  let k : PassRun :=
    { desc := d, exp := (tfind m.taken idx).getD (fetchedExp (s.tile lt).curPatches idx d),
      p := passP (if m.active.filled then m.active.wfmt else 2) (psFmt d), rows := psRows d, next := 0 }
  let s := (s.modMxe lt (fun m => { m with pass := some k })).setF (MXE_PROGRESS_LT lt) MXE_PROGRESS_LT_rows_done 0
  if psAxis d = 1 && m.active.filled && m.active.squareOk ≠ 0xFFFF then
    s.setB (MXE_STATUS_LT lt) MXE_STATUS_LT_square_mismatch true else s

def execMxePass (lt idx cycle : Nat) (s : State) : Host.Outcome State Fault Refusal :=
  live s (s.onMxe lt idx cycle moPASS (fun s d => s.startPass lt idx d))

def State.startSend (s : State) (lt d : Nat) : State :=
  s.modMxe lt (fun m => { m with send := some { desc := d, rows := sdRows d, next := 0 } })

def execMxeSend (lt idx cycle : Nat) (s : State) : Host.Outcome State Fault Refusal :=
  live s (s.onMxe lt idx cycle moSEND (fun s d => s.startSend lt d))

/-! MERGE (R129, R138, R139). -/

/-- Received beats of row r of a MERGE; none where a beat is missing. -/
def mergeBeats (m : MxeSt) (idx r : Nat) : List (Option MergeBeat) :=
  (List.range 6).map (fun j => tfind m.merges (2 ^ 14 * idx + 6 * r + j))

/-- The received entries: a missing beat counts as zeros with both poison bits set. -/
def mergeEntries (l : List (Option MergeBeat)) : List (Int × Bool) :=
  let bytes := l.flatMap (fun b => match b with
    | some x => bytesFrom x.data 0 128
    | none => zeros 128)
  let spans := l.flatMap (fun b => match b with
    | some x => [bitSet x.poison 0, bitSet x.poison 1]
    | none => [true, true])
  (List.range 128).map (fun e =>
    (signedOf (leAt bytes (6 * e) 6) 48, spans.getD (6 * e / 64) true || spans.getD ((6 * e + 5) / 64) true))

/-- Add row r of a MERGE, in the cycle start + 6 r + 7 (R132). After a halt only a row that has arrived whole is added (R140). -/
def State.mergeRow (s : State) (lt idx d r : Nat) : State :=
  let x := dStartCycle d + 6 * r + 7
  let s := s.engines lt x
  let l := mergeBeats (s.tile lt).mxe idx r
  if sdRows d ≤ r || ((s.tile lt).halted && l.any (fun b => b.isNone)) then s
  else
    let row := sdRow0 d + r
    let (a, s) := s.accRead lt row
    let first := (l.headD none).map (·.tag)
    let wrong := first ≠ some a.tag
    let sums := (a.plus (mergeEntries l)).map (fun v => (v.1, v.2 || wrong))
    let s := s.modMxe lt (fun m => { m.accWrite row sums with
      merge := if r + 1 < sdRows d then some idx else none
      merges := m.merges.filter (fun x => x.1 / 2 ^ 14 != idx || x.1 % 2 ^ 14 / 6 != r) })
    let s := { s with cyc := x % 4096 }.showMxe lt
    if wrong && first.isSome then s.setB (MXE_STATUS_LT lt) MXE_STATUS_LT_tag_mismatch true else s

/-- Row r of MERGE entry idx is added. -/
def State.doMerge (s : State) (lt idx r : Nat) : State :=
  let t := armedProgram (s.tile lt)
  let d := descAt t (tpMxeOffset t) idx
  let p := s.partOfLt lt
  if lt < 256 && idx < tpMxeCount t && mdOp d = moMERGE && s.alive lt && s.working p &&
      (s.crsOf p).lessonBell = dStartBell d then s.mergeRow lt idx d r else s

def execMxeMerge (lt idx row : Nat) (s : State) : Host.Outcome State Fault Refusal := live s (s.doMerge lt idx row)

end Sys2Proof.Machine
end

