-- ==== Sys2Proof/Machine/Vector.lean ====
section
/-! DEFINITION. The vector engine: descriptors, the check of a slate and its run block, RUN, TABLE and CACHE, and how an
instruction of a slate reads its operands and issues (05 R151, R155, R158-R163, R167, R549). -/

namespace Sys2Proof.Machine

/-! Slate instructions (R155, R156). -/

/-- A slate instruction word. -/
structure Slate where
  op : Nat
  width : Nat
  dst : Nat
  a : Nat
  b : Nat
  c : Nat
  sat : Bool
  mod : Bool
  zero : Nat
  imm : Nat
  ext : Nat
  deriving DecidableEq, Repr

def slateOf (w : Nat) : Slate :=
  { op := bitsAt w 0 6, width := bitsAt w 6 2, dst := bitsAt w 8 5, a := bitsAt w 13 5, b := bitsAt w 18 5, c := bitsAt w 23 5,
    sat := bitSet w 28, mod := bitSet w 29, zero := bitsAt w 30 2, imm := bitsAt w 32 16, ext := bitsAt w 48 16 }

/-- Result latency L; 0 for NOP and for codes not listed. -/
def slateLatency (op : Nat) : Nat :=
  if op ∈ [0x01, 0x02, 0x03, 0x06, 0x07, 0x08, 0x09, 0x10, 0x11, 0x12, 0x18, 0x19, 0x1A, 0x1B, 0x20, 0x21, 0x22, 0x23, 0x29,
    0x2A, 0x2B, 0x2C] then 4
  else if op ∈ [0x04, 0x05, 0x28, 0x2D] then 6
  else if op = 0x38 then 8
  else if op ∈ [0x30, 0x31, 0x32, 0x34, 0x3C, 0x3D] then 10 else 0

/-- Fields that an opcode uses. -/
structure Uses where
  dst : Bool
  a : Bool
  b : Bool
  c : Bool
  ext : Bool
  sat : Bool
  mod : Bool
  imm : Bool
  width : Bool
  deriving DecidableEq, Repr

def uses0 : Uses :=
  { dst := false, a := false, b := false, c := false, ext := false, sat := false, mod := false, imm := false, width := true }

def usesA : Uses := { uses0 with dst := true, a := true }
def usesAB : Uses := { usesA with b := true }

def rqMode (i : Slate) : Nat := bitsAt i.ext 3 2

def usesOf (i : Slate) : Option Uses :=
  let o := i.op
  if o = 0x00 || o = 0x2C then some { uses0 with width := false }
  else if o ∈ [0x01, 0x1B, 0x29] then some usesA
  else if o ∈ [0x02, 0x03] then some { usesAB with sat := true }
  else if o = 0x04 then some { usesAB with ext := true, sat := true }
  else if o = 0x05 then some { usesAB with c := true, ext := true, sat := true }
  else if o ∈ [0x06, 0x07] then some { usesA with sat := true }
  else if o ∈ [0x08, 0x09, 0x18, 0x19, 0x1A, 0x20, 0x21, 0x22, 0x2A] then some usesAB
  else if o = 0x11 then some { usesA with imm := true, mod := true }
  else if o ∈ [0x10, 0x12, 0x28] then some { usesA with imm := true }
  else if o = 0x23 then some { usesAB with c := true }
  else if o = 0x2B then some { uses0 with dst := true }
  else if o = 0x2D then some { usesA with ext := true }
  else if o = 0x30 then some { usesA with mod := true }
  else if o = 0x31 then some { usesA with ext := true, mod := true }
  else if o = 0x32 then some { usesA with ext := true, sat := true, mod := true }
  else if o = 0x34 then some usesA
  else if o = 0x38 then some { usesA with ext := true, sat := true }
  else if o = 0x3C then some { usesA with ext := true, b := rqMode i == 2, imm := rqMode i == 1 }
  else if o = 0x3D then some { usesA with ext := true }
  else none

def ocIN0 : Nat := 16
def ocIN1 : Nat := 17
def ocACC : Nat := 18
def ocIMM : Nat := 21
def ocLANE : Nat := 22
def ocOUT : Nat := 24

/-- A source code that any operand may name. -/
def plainSource (c : Nat) : Bool := c ≤ 17 || c == 19 || c == 20 || c == 21 || c == 22

def vectorDst (c : Nat) : Bool := c ≤ 15 || c == 19 || c == 20 || c == 24

def wCode (c : Nat) : Bool := 25 ≤ c && c ≤ 28

/-- srca: ACC for RQ, a w register for RCPW. -/
def sourceAGood (i : Slate) : Bool :=
  if i.op = 0x34 then wCode i.a else plainSource i.a || (i.op == 0x3C && i.a == ocACC)

/-- The ext and imm16 fields of the opcodes that limit them (R156, R157, R164, R166). Of imm16 only the bits that an opcode
names are looked at, of ext every bit above those it names must be 0, and a nearest-even RQ may name a key pair: R155 asks for 0
in a field that is not used and says nothing of unused bits of one that is (DESIGN CHOICE, log entry 20). -/
def extGood (i : Slate) : Bool :=
  let b := laneBits i.width
  let e := i.ext
  if i.op ∈ [0x10, 0x11, 0x12] then i.imm % 32 < b
  else if i.op ∈ [0x04, 0x05] then e < 64
  else if i.op = 0x2D then
    let d := e % 4
    e < 16 && d != 3 && d != i.width && bitsAt e 2 2 < max b (laneBits d) / min b (laneBits d)
  else if i.op ∈ [0x31, 0x32] then e < 2
  else if i.op = 0x38 then e < 8
  else if i.op = 0x3D then e % 8 ≤ 3 && e < 256 && bitsAt e 3 3 == 0
  else if i.op = 0x3C then
    let f := e % 8
    e < 512 && f ≤ 4 && rqMode i != 3 && (f != 4 || rqMode i == 1) && (rqMode i == 0 || bitsAt e 6 2 == 0) &&
    (i.a != ocACC || i.width == 0) && fmtBits f ≤ b
  else true

/-- A slate instruction is valid and in range. -/
def Slate.good (i : Slate) : Bool :=
  match usesOf i with
  | none => false
  | some u =>
    i.zero == 0 && i.width != 3 &&
    (u.width || i.width == 0) && (u.dst || i.dst == 0) && (u.a || i.a == 0) && (u.b || i.b == 0) && (u.c || i.c == 0) &&
    (u.ext || i.ext == 0) && (u.sat || !i.sat) && (u.mod || !i.mod) &&
    (u.imm || i.imm == 0 || (u.a && i.a == ocIMM) || (u.b && i.b == ocIMM) || (u.c && i.c == ocIMM)) &&
    (!u.a || sourceAGood i) && (!u.b || plainSource i.b) && (!u.c || plainSource i.c) &&
    (!u.dst || (if i.op = 0x30 then wCode i.dst else vectorDst i.dst)) && extGood i

/-- Width of an instruction's result (R162). -/
def Slate.outWidth (i : Slate) : Nat := if i.op = 0x2D then i.ext % 4 else if i.op = 0x34 then 0 else i.width

/-! The run block (R161). -/

def rbStream (b : List Byte) (k off n : Nat) : Nat := leAt b (16 * k + off) n
def rbAddr (b : List Byte) (k : Nat) : Nat := rbStream b k 0 4
def rbScale (b : List Byte) (k : Nat) : Nat := rbStream b k 4 4
def rbStride (b : List Byte) (k : Nat) : Nat := rbStream b k 8 2
def rbScaleStride (b : List Byte) (k : Nat) : Nat := rbStream b k 0xA 2
def rbFmt (b : List Byte) (k : Nat) : Nat := rbStream b k 0xC 2
def rbExp (b : List Byte) (k : Nat) : Int := signedOf (rbStream b k 0xE 2 % 1024) 10
def rbCptr (b : List Byte) (k : Nat) : Nat := leAt b (0x30 + 4 * k) 4
def rbAcc (b : List Byte) : Nat := leAt b 0x38 4 % 2048
def rbKeyHi (b : List Byte) (k : Nat) : Nat := leAt b (0x40 + 8 * k) 4
def rbKeyBase (b : List Byte) (k : Nat) : Nat := leAt b (0x44 + 8 * k) 4

/-- Every run-block field is valid. -/
def blockGood (b : List Byte) : Bool :=
  (List.range 3).all (fun k =>
    rbAddr b k < 2 ^ 22 && rbAddr b k % 64 == 0 && rbScale b k < 2 ^ 22 && rbStride b k % 64 == 0 && rbFmt b k ≤ 4 &&
    rbStream b k 0xE 2 < 1024) &&
  rbCptr b 0 < 2 ^ 18 && rbCptr b 1 < 2 ^ 18 && leAt b 0x38 4 < 2048 && leAt b 0x3C 4 == 0 && leAt b 0x50 48 == 0

/-- Stream accesses of an instruction: stream number and lanes. -/
def streamUses (i : Slate) : List (Nat × Nat) :=
  match usesOf i with
  | none => []
  | some u =>
    let one : Bool → Nat → List (Nat × Nat) := fun used c => if used && c == ocIN0 then [(0, laneCount i.width)]
      else if used && c == ocIN1 then [(1, laneCount i.width)] else []
    one u.a i.a ++ one u.b i.b ++ one u.c i.c ++ (if u.dst && i.dst == ocOUT then [(2, laneCount i.outWidth)] else [])

/-- Every byte of the access numbered q lies in the buffer, in every row. -/
def accessInside (b : List Byte) (iters k lanes q : Nat) : Bool :=
  let f := rbFmt b k
  rbAddr b k + (iters - 1) * rbStride b k + (q + 1) * fmtBytes f lanes ≤ 2 ^ 22 &&
  (f == 4 || rbScale b k + (iters - 1) * rbScaleStride b k + (q + 1) * (lanes / 32) ≤ 2 ^ 22)

def accessesInside (b : List Byte) (iters : Nat) : List (Nat × Nat) → Tbl Nat → Bool
  | [], _ => true
  | (k, lanes) :: l, q =>
    accessInside b iters k lanes (tgetD q k 0) && accessesInside b iters l (tput q k (tgetD q k 0 + 1))

/-- Two writes of a port, at these cycles of an iteration of n, meet in some pair of I iterations. -/
def portsMeet (offs : List Nat) (n iters : Nat) : Bool :=
  (offs.zip (List.range offs.length)).any (fun x => (offs.zip (List.range offs.length)).any (fun y =>
    x.2 < y.2 && absDiff x.1 y.1 % n == 0 && absDiff x.1 y.1 / n < iters))

/-- Cycles at which instructions of a slate write a destination, within an iteration. -/
def writeOffsets (l : List Slate) (dst : Nat → Bool) : List Nat :=
  ((l.zip (List.range l.length)).filter (fun x => slateLatency x.1.op != 0 && x.1.op != 0x2C && dst x.1.dst)).map
    (fun x => x.2 + slateLatency x.1.op)

/-- Cycles of a bell in which SENDs of a tile program read the accumulator. -/
def sendCycles (t : List Byte) (bell : Nat) : List Nat :=
  (List.range (tpMxeCount t)).flatMap (fun i =>
    let d := descAt t (tpMxeOffset t) i
    if mdOp d = moSEND && dStartBell d = bell then (List.range (sdRows d)).map (fun r => dStartCycle d + 6 * r) else [])

/-- Every obligation of R163 on a slate and run block (R549). -/
def slateGood (t : List Byte) (bell base iters : Nat) (slate : List Nat) (block : List Byte) : Bool :=
  let l := slate.map slateOf
  let n := l.length
  let accs := ((l.zip (List.range n)).filter (fun x => x.1.op == 0x3C && x.1.a == ocACC)).map (·.2)
  l.all Slate.good && blockGood block && accs.length ≤ 1 &&
  accs.all (fun k => rbAcc block + iters ≤ 2048 &&
    !(sendCycles t bell).any (fun x => base + k ≤ x && x < base + k + n * iters && (x - (base + k)) % n == 0)) &&
  accessesInside block iters (l.flatMap streamUses) [] &&
  !portsMeet (writeOffsets l (· == ocOUT)) n iters && !portsMeet (writeOffsets l (fun c => c == 19 || c == 20)) n iters

/-! Descriptors (R160). -/

def runN (d : Nat) : Nat := dBits d 0 32 6 + 1
def runIters (d : Nat) : Nat := dBits d 0 38 12 + 1
def runSlate (d : Nat) : Nat := dBits d 1 0 22
def runBlock (d : Nat) : Nat := dBits d 1 22 22

/-- A descriptor starts on an idle engine: what the tile's engines have done up to its first cycle comes first. -/
def State.onVe (s : State) (lt idx op : Nat) (starts : Nat → Bool) (f : State → Nat → State) : State :=
  let t := armedProgram (s.tile lt)
  let d := descAt t (tpVeOffset t) idx
  if idx < tpVeCount t && dBits d 0 0 4 = op && s.tileWorks lt (dStartBell d) && starts (dStartCycle d) then
    let s := s.engines lt (dStartCycle d)
    if (s.ve lt).run.isNone && (s.ve lt).job.isNone then (f { s with cyc := dStartCycle d } d).showVe lt else s
  else s

def words64 (b : List Byte) (n : Nat) : List Nat := (List.range n).map (fun k => leAt b (8 * k) 8)

/-- RUN: the slate and the run block are read and checked; the first instruction issues 4 cycles after the start, or the RUN
issues none and the course halts. -/
def State.veRun (s : State) (lt idx d : Nat) : State :=
  let x := dStartCycle d
  let n := runN d
  let ((sb, sp), s) := s.tbPortRead lt x 0 3 (runSlate d) (8 * n)
  let ((bb, bp), s) := s.tbPortRead lt (x + 1) 0 3 (runBlock d) 128
  let slate := words64 sb n
  let s := s.setF (VE_PROGRESS_LT lt) VE_PROGRESS_LT_iters_done 0
  if sp.any id || bp.any id || !slateGood (armedProgram (s.tile lt)) (dStartBell d) (x + 4) (runIters d) slate bb then
    (s.setB (VE_STATUS_LT lt) VE_STATUS_LT_slate_bad true).declareHalt (s.partOfLt lt) hcSlate
  else
    let r : VeRun := { idx := idx, base := x + 4, slate := slate, block := bb, iters := runIters d, iter := 0, instr := 0, q := [] }
    s.modVe lt (fun e => { e with run := some r })

def execVeRun (lt idx : Nat) (s : State) : Host.Outcome State Fault Refusal :=
  live s (s.onVe lt idx voRUN (fun _ => true) (fun s d => s.veRun lt idx d))

/-- A TABLE or CACHE of a number of cycles starts (R160); they follow one by one (State.engines). -/
def State.veJob (s : State) (lt d n : Nat) : State :=
  s.modVe lt (fun e => { e with job := some { desc := d, steps := n, next := 0, data := [], poison := [] } })

/-- TABLE: three cycles; the slot is unloaded from the first on, and stays so where a halt stops it (R172). -/
def State.veTable (s : State) (lt d : Nat) : State :=
  ((s.modVe lt (fun e => { e with slots := tdel e.slots (dBits d 0 32 3) })).showTables lt).veJob lt d 3

def execVeTable (lt idx cycle : Nat) (s : State) : Host.Outcome State Fault Refusal :=
  live s (s.onVe lt idx voTABLE (cycle == ·) (fun s d => s.veTable lt d))

def execVeCache (lt idx cycle : Nat) (s : State) : Host.Outcome State Fault Refusal :=
  live s (s.onVe lt idx voCACHE (cycle == ·) (fun s d => s.veJob lt d (dBits d 0 42 9 + 1)))

/-! Issue of an instruction (R151, R158, R159, R162). -/

/-- What an instruction works on: sources as read, the destination's old value where it is taken, the accumulator row,
w registers, lane flags, tables, seed, keys and iteration. -/
structure SlateIn where
  i : Slate
  a : VReg
  b : VReg
  c : VReg
  old : VReg
  acc : AccRow
  ws : WReg
  wd : WReg
  flags : Tbl Nat
  slot : Option TableSlot
  seed : Nat
  block : List Byte
  iter : Nat
  deriving DecidableEq, Repr

/-- A lane's value, or a free one where it does not fit the lane (log entry 20). -/
def fitFree (w : Nat) (v : Int) : Int :=
  if fits v (laneBits w) then v else signedOf (Config.narrowLane (laneBits w) v % 2 ^ laneBits w) (laneBits w)

/-- A vector from its lanes. -/
def vectorOf (w : Nat) (vals tags : List Int) (poison : List Bool) : VReg :=
  { data := packElems (laneFmt w) vals, tags := tags, poison := poison }

def noPoison : List Bool := List.replicate 16 false

/-- Next place of an operand code's accesses in this iteration. -/
def VeRun.next (r : VeRun) (code : Nat) : Nat × VeRun :=
  let q := tgetD r.q code 0
  (q, { r with q := tput r.q code (q + 1) })

/-- Read the next vector of stream IN0 or IN1 at a cycle. A vector of more than the port's 512 bytes (R148) is moved in that
one cycle: the spec says nothing of it (DESIGN CHOICE, log entry 20). -/
def State.streamRead (s : State) (lt : Nat) (r : VeRun) (k w q x : Nat) : VReg × State :=
  let f := rbFmt r.block k
  let l := laneCount w
  let n := fmtBytes f l
  let ((b, p), s) := s.tbPortRead lt x 0 (3 + k) (rbAddr r.block k + r.iter * rbStride r.block k + q * n) n
  let vals := (elemsOf f b l).map (fitFree w)
  let bad := blockPoison p (fmtBytes f 32) (l / 32)
  if f = 4 then (vectorOf w vals (List.replicate 16 (rbExp r.block k)) bad, s)
  else
    let ((e, ep), s) := s.tbPortRead lt x 2 (3 + k)
      (rbScale r.block k + r.iter * rbScaleStride r.block k + q * (l / 32)) (l / 32)
    (vectorOf w vals (e.map byteInt) ((bad.zip ep).map (fun y => y.1 || y.2)), s)

/-- The line that the next access to CACHEk reaches. -/
def cacheLineOf (r : VeRun) (k q : Nat) : Nat :=
  let v := rbCptr r.block k
  (v % 512 + r.iter * (v / 512 % 512) + q) % 512

/-- Read a source operand; tags are those IMM and LANE take. -/
def State.sourceRead (s : State) (lt : Nat) (r : VeRun) (i : Slate) (code x : Nat) (tags : List Int) :
    (VReg × VeRun) × State :=
  let w := i.width
  if code ≤ 15 then (((s.ve lt).vr code, r), s)
  else if code = ocIN0 || code = ocIN1 then
    let (q, r) := r.next code
    let (v, s) := s.streamRead lt r (code - 16) w q x
    ((v, r), s)
  else if code = 19 || code = 20 then
    let (q, r) := r.next code
    let (v, s) := s.cacheRead lt (cacheLineOf r (code - 19) q) w
    ((v, r), s)
  else if code = ocIMM then
    let v := signedOf i.imm 16
    ((vectorOf w (List.replicate (laneCount w) (fitFree w v)) tags noPoison, r), s)
  else if code = ocLANE then
    ((vectorOf w ((List.range (laneCount w)).map (fun e => fitFree w (e : Nat))) tags noPoison, r), s)
  else ((vreg0, r), s)

/-- Where an instruction's result goes. -/
def destOf (r : VeRun) (i : Slate) : VeDst × VeRun :=
  if i.op = 0x00 || i.op = 0x2C then (.none, r)
  else if i.dst ≤ 15 then (.v i.dst, r)
  else if i.dst = 19 || i.dst = 20 then
    let (q, r) := r.next i.dst
    (.line (cacheLineOf r (i.dst - 19) q), r)
  else if i.dst = ocOUT then
    let (q, r) := r.next ocOUT
    let l := laneCount i.outWidth
    let f := rbFmt r.block 2
    (.out (rbAddr r.block 2 + r.iter * rbStride r.block 2 + q * fmtBytes f l)
      (rbScale r.block 2 + r.iter * rbScaleStride r.block 2 + q * (l / 32)) f (rbExp r.block 2), r)
  else (.w (i.dst - 25), r)

/-- RMAX and RMAXABS with mod 1 take the destination's old value into the maximum (R156). -/
def Slate.takesOld (i : Slate) : Bool := (i.op == 0x31 || i.op == 0x32) && i.mod

/-- The destination's old value as read: a cache line through its checks (R149). The OUT stream has none: open lanes and tags,
the same for the same first source (log entry 20). -/
def State.oldOf (s : State) (lt w : Nat) (a : VReg) (d : VeDst) : VReg × State :=
  match d with
  | .v n => ((s.ve lt).vr n, s)
  | .line n => s.cacheRead lt n w
  | _ => ({ data := (List.range 512).map (Config.outOldByte a.data),
            tags := (List.range 16).map (fun j => signedOf (Config.outOldTag a.data j % 1024) 10), poison := noPoison }, s)

/-- Cycle in which a result is written. -/
def landAt (x op : Nat) (d : VeDst) : Nat :=
  match d with
  | .line _ => x + slateLatency op + 2
  | .out _ _ _ _ => x + slateLatency op + 2
  | _ => x + slateLatency op - 1

/-- The run after an instruction has issued: the next instruction, the next iteration, or the end. -/
def State.issued (s : State) (lt : Nat) (r : VeRun) : State :=
  if r.instr + 1 < r.slate.length then s.modVe lt (fun e => { e with run := some { r with instr := r.instr + 1 } })
  else
    let r := { r with instr := 0, iter := r.iter + 1, q := [] }
    let s := (s.modVe lt (fun e => { e with run := some r })).setF (VE_PROGRESS_LT lt) VE_PROGRESS_LT_iters_done r.iter
    if r.iters ≤ r.iter then s.modVe lt (fun e => { e with run := none }) else s

/-- Read what an instruction works on. -/
def State.slateIn (s : State) (lt : Nat) (r : VeRun) (i : Slate) (x : Nat) : (SlateIn × VeDst × VeRun) × State :=
  let u := (usesOf i).getD uses0
  let ((a, r), s) := if u.a then s.sourceRead lt r i i.a x (List.replicate 16 0) else ((vreg0, r), s)
  let (acc, s) := if i.op = 0x3C && i.a = ocACC then s.accRead lt (rbAcc r.block + r.iter)
    else ({ entries := [], tag := 0 }, s)
  let tags := if i.a = ocACC then List.replicate 16 acc.tag else a.tags
  let ((b, r), s) := if u.b then s.sourceRead lt r i i.b x tags else ((vreg0, r), s)
  let ((c, r), s) := if u.c then s.sourceRead lt r i i.c x tags else ((vreg0, r), s)
  let (d, r) := destOf r i
  let (old, s) := if i.takesOld then s.oldOf lt i.width a d else (vreg0, s)
  let e := s.ve lt
  let y : SlateIn :=
    { i := i, a := a, b := b, c := c, old := old, acc := acc, ws := e.wr (i.a - 25), wd := e.wr (i.dst - 25),
      flags := e.flags, slot := tfind e.slots (i.ext % 8), seed := hdSeed (s.courseImage (s.partOfLt lt)), block := r.block,
      iter := r.iter }
  ((y, d, r), s)

/-- The next instruction of a tile's RUN issues, if it has the opcode of the row. -/
def State.slateStep (s : State) (lt op : Nat) (f : SlateIn → VeFlight) : State :=
  match (s.ve lt).run with
  | none => s
  | some r =>
    let i := slateOf (r.slate.getD r.instr 0)
    if i.op ≠ op then s
    else
      let x := r.base + r.iter * r.slate.length + r.instr
      let s := { s.engines lt x with cyc := x % 4096 }
      if op = 0x00 then (s.issued lt r).showVe lt
      else
        let ((y, d, r), s) := s.slateIn lt r i x
        let g := { f y with at_ := landAt x op d, dst := d }
        let s := s.modVe lt (fun e => { e with flight := insertFlight g e.flight })
        ((s.perfAdd (s.partOfLt lt) 2 1).issued lt r).showVe lt

end Sys2Proof.Machine
end

