-- ==== Sys2Proof/Machine/Slates.lean ====
section
/-! DEFINITION. What each instruction of a slate computes (05 R152-R157, R164-R171). -/

namespace Sys2Proof.Machine

/-! Results. -/

def flight0 : VeFlight :=
  { at_ := 0, dst := .none, width := 0, lo := 0, hi := 0, vals := [], tags := [], poison := [], w := wreg0, inx := [], sat := [],
    clear := false, rcpBad := false, tableBad := false, parity := false }

/-- A result of lanes from lane lo on; flags of poisoned blocks are not recorded (R154). -/
def resultAt (w lo : Nat) (ls : List Lane) (tags : List Int) (poison : List Bool) : VeFlight :=
  let heard := fun (e : Nat) => !poison.getD (e / 32) true
  let idx := List.range ls.length
  { flight0 with
    width := w, lo := lo, hi := lo + ls.length, vals := ls.map (·.v), tags := tags, poison := poison
    inx := (ls.zip idx).map (fun x => x.1.inx && heard x.2)
    sat := (ls.zip idx).map (fun x => x.1.sat && heard x.2) }

def result (w : Nat) (ls : List Lane) (tags : List Int) (poison : List Bool) : VeFlight := resultAt w 0 ls tags poison

def SlateIn.w (y : SlateIn) : Nat := y.i.width
def SlateIn.bits (y : SlateIn) : Nat := laneBits y.i.width
def SlateIn.nb (y : SlateIn) : Nat := laneBlocks y.i.width

/-- The first block tags, or poison bits, of a vector at the instruction's width. -/
def SlateIn.tagsOf (y : SlateIn) (v : VReg) : List Int := (List.range y.nb).map v.tag
def SlateIn.badOf (y : SlateIn) (v : VReg) : List Bool := (List.range y.nb).map v.bad

def orBools (a b : List Bool) : List Bool := (a.zip b).map (fun x => x.1 || x.2)

/-- An operation on each lane of a, with its number. -/
def unary (y : SlateIn) (f : Int → Nat → Lane) : VeFlight :=
  let l := y.a.lanes y.w
  result y.w ((l.zip (List.range l.length)).map (fun x => f x.1 x.2)) (y.tagsOf y.a) (y.badOf y.a)

/-- An operation on each lane of a and of b, b aligned to the tags of a (R152). -/
def binary (y : SlateIn) (tags : List Int) (f : Int → Int → Int) (sat : Bool → Lane → Nat → Lane) : VeFlight :=
  let lb := y.b.aligned y.w y.a.tag
  let ls := ((y.a.lanes y.w).zip lb).map (fun x => sat y.i.sat { x.2 with v := f x.1 x.2.v } y.bits)
  result y.w ls tags (orBools (y.badOf y.a) (y.badOf y.b))

def noFit (_ : Bool) (x : Lane) (_ : Nat) : Lane := x

/-! Moves and arithmetic. -/

def execSlateNop (lt : Nat) (s : State) : Host.Outcome State Fault Refusal :=
  live s (s.slateStep lt 0x00 (fun _ => flight0))

def slMov (y : SlateIn) : VeFlight := unary y (fun v _ => lane v)

def execSlateMov (lt : Nat) (s : State) : Host.Outcome State Fault Refusal := live s (s.slateStep lt 0x01 slMov)

def slAdd (y : SlateIn) : VeFlight := binary y (y.tagsOf y.a) (· + ·) fitLane

def execSlateAdd (lt : Nat) (s : State) : Host.Outcome State Fault Refusal := live s (s.slateStep lt 0x02 slAdd)

def slSub (y : SlateIn) : VeFlight := binary y (y.tagsOf y.a) (· - ·) fitLane

def execSlateSub (lt : Nat) (s : State) : Host.Outcome State Fault Refusal := live s (s.slateStep lt 0x03 slSub)

/-- Tags of a product before the clamp of R153. -/
def productTags (y : SlateIn) : List Int :=
  (List.range y.nb).map (fun j => y.a.tag j + y.b.tag j + (y.i.ext % 64 : Nat))

/-- Lanes of a product under R153; its rounding sets no flag (R99). The exact product is shifted to a tag in range before the
sat bit applies: the spec orders the two nowhere (DESIGN CHOICE, log entry 20). -/
def productLanes (y : SlateIn) : List Lane :=
  let l := (y.a.lanes y.w).zip (y.b.lanes y.w)
  let t := productTags y
  (l.zip (List.range l.length)).map (fun x =>
    tagLane (lane (roundRne (x.1.1 * x.1.2) (y.i.ext % 64))) (t.getD (x.2 / 32) 0) y.bits)

def slMul (y : SlateIn) : VeFlight :=
  result y.w ((productLanes y).map (fun x => fitLane y.i.sat x y.bits)) ((productTags y).map clampTag)
    (orBools (y.badOf y.a) (y.badOf y.b))

def execSlateMul (lt : Nat) (s : State) : Host.Outcome State Fault Refusal := live s (s.slateStep lt 0x04 slMul)

/-- The sum is formed before the sat bit applies (log entry 20). -/
def slMac (y : SlateIn) : VeFlight :=
  let t := (productTags y).map clampTag
  let c := y.c.aligned y.w (fun j => t.getD j 0)
  let ls := ((productLanes y).zip c).map (fun x =>
    fitLane y.i.sat { v := x.1.v + x.2.v, inx := x.1.inx || x.2.inx, sat := x.1.sat || x.2.sat } y.bits)
  result y.w ls t (orBools (orBools (y.badOf y.a) (y.badOf y.b)) (y.badOf y.c))

def execSlateMac (lt : Nat) (s : State) : Host.Outcome State Fault Refusal := live s (s.slateStep lt 0x05 slMac)

def slNeg (y : SlateIn) : VeFlight := unary y (fun v _ => fitLane y.i.sat (lane (-v)) y.bits)

def execSlateNeg (lt : Nat) (s : State) : Host.Outcome State Fault Refusal := live s (s.slateStep lt 0x06 slNeg)

def magnitude (y : SlateIn) (v : Int) : Lane := fitLane y.i.sat (lane (v.natAbs : Int)) y.bits

def slAbs (y : SlateIn) : VeFlight := unary y (fun v _ => magnitude y v)

def execSlateAbs (lt : Nat) (s : State) : Host.Outcome State Fault Refusal := live s (s.slateStep lt 0x07 slAbs)

def slMin (y : SlateIn) : VeFlight := binary y (y.tagsOf y.a) min noFit

def execSlateMin (lt : Nat) (s : State) : Host.Outcome State Fault Refusal := live s (s.slateStep lt 0x08 slMin)

def slMax (y : SlateIn) : VeFlight := binary y (y.tagsOf y.a) max noFit

def execSlateMax (lt : Nat) (s : State) : Host.Outcome State Fault Refusal := live s (s.slateStep lt 0x09 slMax)

/-! Shifts and bits. -/

def slShl (y : SlateIn) : VeFlight := unary y (fun v _ => lane (wrapInt (v * 2 ^ (y.i.imm % 32)) y.bits))

def execSlateShl (lt : Nat) (s : State) : Host.Outcome State Fault Refusal := live s (s.slateStep lt 0x10 slShl)

def slShr (y : SlateIn) : VeFlight :=
  let n := y.i.imm % 32
  unary y (fun v _ =>
    { v := if y.i.mod then roundRne v n else v / 2 ^ n, inx := v % 2 ^ n != 0, sat := false })

def execSlateShr (lt : Nat) (s : State) : Host.Outcome State Fault Refusal := live s (s.slateStep lt 0x11 slShr)

def slShrl (y : SlateIn) : VeFlight :=
  unary y (fun v _ => lane (signedOf (codeOf v y.bits / 2 ^ (y.i.imm % 32)) y.bits))

def execSlateShrl (lt : Nat) (s : State) : Host.Outcome State Fault Refusal := live s (s.slateStep lt 0x12 slShrl)

/-- A bitwise operation: the tag of a is kept, that of b ignored. -/
def bitwise (y : SlateIn) (f : Nat → Nat → Nat) : VeFlight :=
  let ls := ((y.a.lanes y.w).zip (y.b.lanes y.w)).map (fun x =>
    lane (signedOf (f (codeOf x.1 y.bits) (codeOf x.2 y.bits)) y.bits))
  result y.w ls (y.tagsOf y.a) (orBools (y.badOf y.a) (y.badOf y.b))

def execSlateAnd (lt : Nat) (s : State) : Host.Outcome State Fault Refusal :=
  live s (s.slateStep lt 0x18 (fun y => bitwise y Nat.land))

def execSlateOr (lt : Nat) (s : State) : Host.Outcome State Fault Refusal :=
  live s (s.slateStep lt 0x19 (fun y => bitwise y Nat.lor))

def execSlateXor (lt : Nat) (s : State) : Host.Outcome State Fault Refusal :=
  live s (s.slateStep lt 0x1A (fun y => bitwise y Nat.xor))

def slNot (y : SlateIn) : VeFlight := unary y (fun v _ => lane (-v - 1))

def execSlateNot (lt : Nat) (s : State) : Host.Outcome State Fault Refusal := live s (s.slateStep lt 0x1B slNot)

/-! Comparisons and selection. -/

def zeroTags (y : SlateIn) : List Int := List.replicate y.nb 0

def truth (b : Bool) : Int := if b then -1 else 0

def slCmpeq (y : SlateIn) : VeFlight := binary y (zeroTags y) (fun a b => truth (a == b)) noFit

def execSlateCmpeq (lt : Nat) (s : State) : Host.Outcome State Fault Refusal := live s (s.slateStep lt 0x20 slCmpeq)

def slCmplt (y : SlateIn) : VeFlight := binary y (zeroTags y) (fun a b => truth (decide (a < b))) noFit

def execSlateCmplt (lt : Nat) (s : State) : Host.Outcome State Fault Refusal := live s (s.slateStep lt 0x21 slCmplt)

def slCmple (y : SlateIn) : VeFlight := binary y (zeroTags y) (fun a b => truth (decide (a ≤ b))) noFit

def execSlateCmple (lt : Nat) (s : State) : Host.Outcome State Fault Refusal := live s (s.slateStep lt 0x22 slCmple)

/-- The condition c is tested as read. Each lane of b is aligned, selected or not, and raises its flags. -/
def slSel (y : SlateIn) : VeFlight :=
  let lb := y.b.aligned y.w y.a.tag
  let ls := (((y.a.lanes y.w).zip lb).zip (y.c.lanes y.w)).map (fun x =>
    { x.1.2 with v := if x.2 ≠ 0 then x.1.1 else x.1.2.v })
  result y.w ls (y.tagsOf y.a) (orBools (orBools (y.badOf y.a) (y.badOf y.b)) (y.badOf y.c))

def execSlateSel (lt : Nat) (s : State) : Host.Outcome State Fault Refusal := live s (s.slateStep lt 0x23 slSel)

/-! Tags and lane flags. -/

def slAlign (y : SlateIn) : VeFlight :=
  let t := signedOf (y.i.imm % 1024) 10
  result y.w (y.a.aligned y.w (fun _ => t)) (List.replicate y.nb t) (y.badOf y.a)

def execSlateAlign (lt : Nat) (s : State) : Host.Outcome State Fault Refusal := live s (s.slateStep lt 0x28 slAlign)

/-- A tag that does not fit the lane gives an open value (log entry 20). -/
def slGete (y : SlateIn) : VeFlight :=
  { unary y (fun _ e => lane (fitFree y.w (y.a.tag (e / 32)))) with tags := zeroTags y }

def execSlateGete (lt : Nat) (s : State) : Host.Outcome State Fault Refusal := live s (s.slateStep lt 0x29 slGete)

def slSete (y : SlateIn) : VeFlight :=
  let lb := y.b.lanes y.w
  { unary y (fun v _ => lane v) with
    tags := (List.range y.nb).map (fun j => clampTag (lb.getD (32 * j) 0))
    poison := orBools (y.badOf y.a) (y.badOf y.b) }

def execSlateSete (lt : Nat) (s : State) : Host.Outcome State Fault Refusal := live s (s.slateStep lt 0x2A slSete)

def slGetf (y : SlateIn) : VeFlight :=
  result y.w ((List.range (laneCount y.w)).map (fun e => lane (tgetD y.flags e 0 : Nat))) (zeroTags y) (List.replicate y.nb false)

def execSlateGetf (lt : Nat) (s : State) : Host.Outcome State Fault Refusal := live s (s.slateStep lt 0x2B slGetf)

def slClrf (_ : SlateIn) : VeFlight := { flight0 with clear := true }

def execSlateClrf (lt : Nat) (s : State) : Host.Outcome State Fault Refusal := live s (s.slateStep lt 0x2C slClrf)

/-! Conversion of width (R157). -/

/-- Narrowing: every lane of a into lanes q L to q L + L - 1 of the destination, clamped. -/
def cvtNarrow (y : SlateIn) (d q : Nat) : VeFlight :=
  resultAt d (q * laneCount y.w) ((y.a.lanes y.w).map (fun v => clampLane (lane v) (laneBits d))) (y.tagsOf y.a) (y.badOf y.a)

/-- Widening: lanes q L to q L + L - 1 of a into every lane of the destination. -/
def cvtWiden (y : SlateIn) (d q : Nat) : VeFlight :=
  let l := laneCount d
  let b := laneBlocks d
  result d ((((y.a.lanes y.w).drop (q * l)).take l).map lane) ((List.range b).map (fun j => y.a.tag (q * b + j)))
    ((List.range b).map (fun j => y.a.bad (q * b + j)))

def slCvt (y : SlateIn) : VeFlight :=
  let d := y.i.ext % 4
  let q := bitsAt y.i.ext 2 2
  if laneBits d < y.bits then cvtNarrow y d q else cvtWiden y d q

def execSlateCvt (lt : Nat) (s : State) : Host.Outcome State Fault Refusal := live s (s.slateStep lt 0x2D slCvt)

/-! Reductions (R156, R169, R170). -/

/-- RSUM: the lanes, aligned to the row sum's tag, are added modulo 2^64. -/
def slRsum (y : SlateIn) : VeFlight :=
  let w0 : WReg := if y.i.mod then { value := 0, tag := y.a.tag 0, poison := false } else y.wd
  let ls := y.a.aligned y.w (fun _ => w0.tag)
  let bad := y.badOf y.a
  let sum := ls.foldl (fun (v : Int) (x : Lane) => v + x.v) w0.value
  { result y.w ls (zeroTags y) bad with
    w := { value := wrapInt sum 64, tag := w0.tag, poison := w0.poison || bad.any id } }

def execSlateRsum (lt : Nat) (s : State) : Host.Outcome State Fault Refusal := live s (s.slateStep lt 0x30 slRsum)

/-- Maximum over each span of n lanes, in every lane of the span. -/
def spanMax (l : List Int) (n : Nat) : List Int :=
  (List.range l.length).map (fun e =>
    let g := (l.drop (e / n * n)).take n
    g.foldl max (g.headD 0))

/-- RMAX and RMAXABS from the values of a, aligned over a whole vector to the tag of block 0, and with mod = 1 the
destination's old value aligned to the result's tags. -/
def maxOf (y : SlateIn) (f : Lane → Lane) : VeFlight :=
  let whole := bitSet y.i.ext 0
  let tag := fun (j : Nat) => if whole then y.a.tag 0 else y.a.tag j
  let la := (y.a.aligned y.w tag).map f
  let lo := y.old.aligned y.w tag
  let n := if whole then laneCount y.w else 32
  let m := spanMax (la.map (·.v)) n
  let m := if y.i.mod then (m.zip (spanMax (lo.map (·.v)) n)).map (fun x => max x.1 x.2) else m
  let bad := if y.i.mod then orBools (y.badOf y.a) (y.badOf y.old) else y.badOf y.a
  let bad := if whole then List.replicate y.nb (bad.any id) else bad
  let ls := ((m.zip la).zip lo).map (fun x =>
    { v := x.1.1, inx := x.1.2.inx || (y.i.mod && x.2.inx), sat := x.1.2.sat || (y.i.mod && x.2.sat) })
  result y.w ls ((List.range y.nb).map tag) bad

def execSlateRmax (lt : Nat) (s : State) : Host.Outcome State Fault Refusal :=
  live s (s.slateStep lt 0x31 (fun y => maxOf y id))

/-- The magnitude is formed under the sat bit before the maximum. -/
def slRmaxabs (y : SlateIn) : VeFlight :=
  maxOf y (fun x => fitLane y.i.sat { x with v := (x.v.natAbs : Int) } y.bits)

def execSlateRmaxabs (lt : Nat) (s : State) : Host.Outcome State Fault Refusal := live s (s.slateStep lt 0x32 slRmaxabs)

/-- RCPW (R170). -/
def slRcpw (y : SlateIn) : VeFlight :=
  let w := y.ws
  let bad := List.replicate 4 w.poison
  if w.value ≤ 0 then
    { result 0 (List.replicate 128 { v := 0x3FFFFFFF, inx := false, sat := true }) (List.replicate 4 0) bad with rcpBad := true }
  else
    let n := w.value.toNat
    let z := Nat.log2 n
    let t : Int := -((z : Int) + 30) - w.tag
    let x := tagLane { v := (2 ^ (z + 30) / n : Nat), inx := 2 ^ (z + 30) % n != 0, sat := false } t 32
    result 0 (List.replicate 128 x) (List.replicate 4 (clampTag t)) bad

def execSlateRcpw (lt : Nat) (s : State) : Host.Outcome State Fault Refusal := live s (s.slateStep lt 0x34 slRcpw)

/-! Lookup and interpolate (R168). -/

/-- Entries a lane reads at u = x - base. -/
def lutEntries (t : TableSlot) (u : Int) : List Nat :=
  if u < 0 then [0]
  else
    let i := u.toNat / 2 ^ t.shift
    if 255 ≤ i then [255] else [i, i + 1]

/-- The value of a lane. -/
def lutLane (t : TableSlot) (x : Lane) : Lane :=
  let u := x.v - t.base
  match lutEntries t u with
  | [i] => { x with v := t.entries.getD i 0 }
  | l =>
    let i := l.headD 0
    let a := t.entries.getD i 0
    let p := (t.entries.getD (i + 1) 0 - a) * ((u.toNat % 2 ^ t.shift : Nat) : Int)
    { x with v := a + roundRne p t.shift, inx := x.inx || p % 2 ^ t.shift != 0 }

def slLut (y : SlateIn) : VeFlight :=
  match y.slot with
  | none =>
    { result y.w (List.replicate (laneCount y.w) (lane 0)) (zeroTags y) (List.replicate y.nb true) with tableBad := true }
  | some t =>
    let xs := y.a.aligned y.w (fun _ => t.ex)
    let hit := xs.map (fun x => (lutEntries t (x.v - t.base)).any t.bad.contains)
    let bad := (List.range y.nb).map (fun j => y.a.bad j || ((hit.drop (32 * j)).take 32).any id)
    { result y.w (xs.map (fun x => fitLane y.i.sat (lutLane t x) y.bits)) (List.replicate y.nb t.et) bad with
      parity := hit.any id }

def execSlateLut (lt : Nat) (s : State) : Host.Outcome State Fault Refusal := live s (s.slateStep lt 0x38 slLut)

/-! Requantisation and scale selection (R164-R166). -/

/-- Integers, input exponents and poison of the blocks RQ works on. -/
def rqInput (y : SlateIn) : List Int × List Int × List Bool :=
  if y.i.a = ocACC then
    (y.acc.entries.map (·.1), List.replicate 4 y.acc.tag,
      (List.range 4).map (fun j => ((y.acc.entries.drop (32 * j)).take 32).any (·.2)))
  else (y.a.lanes y.w, y.tagsOf y.a, y.badOf y.a)

/-- Draws of block j (R165). -/
def rqDraws (y : SlateIn) (j : Nat) : Option (List Nat) :=
  if bitSet y.i.ext 5 then
    let k := bitsAt y.i.ext 8 1
    some ((List.range 32).map (fun i =>
      drawOf y.seed (drawKey (rbKeyHi y.block k) (rbKeyBase y.block k) (y.iter * y.nb + j) i)))
  else none

/-- A block requantised, lane by lane with its flags. -/
def rqBlock (y : SlateIn) (xs : List Int) (ein : Int) (j : Nat) : List Lane × Int :=
  let f := y.i.ext % 8
  let draws := rqDraws y j
  let q := if rqMode y.i = 0 then requantAuto xs ein f (bitsAt y.i.ext 6 2) draws
    else if rqMode y.i = 1 then requantFixed xs ein (signedOf (y.i.imm % 1024) 10) f draws
    else requantFixed xs ein (y.b.tag j) f draws
  let zero := rqMode y.i = 0 && xs.all (· == 0)
  let ls := ((xs.zip q.elems).zip (List.range xs.length)).map (fun x =>
    let (v, inx) := divRound x.1.1 (q.exp - ein) (draws.map (fun l => l.getD x.2 0))
    if zero then lane 0 else { v := x.1.2, inx := inx, sat := decide (v ≠ x.1.2) })
  (ls, q.exp)

def slRq (y : SlateIn) : VeFlight :=
  let (xs, ein, bad) := rqInput y
  let bs := (List.range y.nb).map (fun j => rqBlock y ((xs.drop (32 * j)).take 32) (ein.getD j 0) j)
  let bad := if rqMode y.i = 2 then orBools bad (y.badOf y.b) else bad
  result y.w (bs.flatMap (·.1)) (bs.map (·.2)) bad

def execSlateRq (lt : Nat) (s : State) : Host.Outcome State Fault Refusal := live s (s.slateStep lt 0x3C slRq)

/-- The AUTO exponent of a magnitude, clamped (R166). -/
def autoExp (m : Nat) (ein : Int) (f h : Nat) : Int :=
  if m = 0 then -128 else max (-128) (min 127 (ein + fitExp m (fmtM f).toNat + (h : Nat)))

def slExps (y : SlateIn) : VeFlight :=
  let la := y.a.lanes y.w
  let e := fun (j : Nat) => autoExp (la.getD (32 * j) 0).natAbs (y.a.tag j) (y.i.ext % 8) (bitsAt y.i.ext 6 2)
  result y.w (List.replicate (laneCount y.w) (lane 0)) ((List.range y.nb).map e) (y.badOf y.a)

def execSlateExps (lt : Nat) (s : State) : Host.Outcome State Fault Refusal := live s (s.slateStep lt 0x3D slExps)

end Sys2Proof.Machine
end

