-- ==== Sys2Proof/Machine/Cores.lean ====
section
/-! DEFINITION. The general cores: tasks, the issue of chalk instructions with their timing, the core address map, traps and
taint, tile-buffer windows, patch windows (06 R174-R193). -/

namespace Sys2Proof.Machine

/-! Registers (R174). -/

def CoreSt.get (c : CoreSt) (r : Nat) : Word := if r = 0 then 0 else tgetD c.g r 0

def CoreSt.put (c : CoreSt) (r : Nat) (v : Word) : CoreSt := if r = 0 then c else { c with g := tset c.g r v 0 }

/-- CTRL cycle at which a register's latest result is available. -/
def CoreSt.readyAt (c : CoreSt) (r : Nat) : Nat := if r = 0 then 0 else tgetD c.ready r 0

/-! Encoding (R179, R180). -/

def ckOp (w : Nat) : Nat := bitsAt w 0 8
/-- rd of formats A, B and C; ra of format D. -/
def ckRd (w : Nat) : Nat := bitsAt w 8 5
/-- ra of formats A and B; rb of format D. -/
def ckRa (w : Nat) : Nat := bitsAt w 13 5
def ckRb (w : Nat) : Nat := bitsAt w 18 5
def ckFn (w : Nat) : Nat := bitsAt w 23 9
def ckImm14 (w : Nat) : Nat := bitsAt w 18 14
def ckImm19 (w : Nat) : Nat := bitsAt w 13 19
def ckSImm14 (w : Nat) : Word := BitVec.ofInt 32 (signedOf (ckImm14 w) 14)
def ckSImm19 (w : Nat) : Word := BitVec.ofInt 32 (signedOf (ckImm19 w) 19)

/-- Number of an ALU operation, and of a SYS operation. -/
def ckAlu (fn : Nat) : Nat := 0x100 + fn
def ckSys (fn : Nat) : Nat := 0x200 + fn

/-- Fields that a SYS instruction does not use are 0. -/
def sysGood (w : Nat) : Bool :=
  let fn := ckFn w
  if fn = 0 || fn = 6 then ckRd w == 0 && ckRa w == 0 && ckRb w == 0
  else if fn = 1 || fn = 5 then ckRd w == 0 && ckRb w == 0
  else ckRa w == 0 && ckRb w == 0

/-- The instruction a word encodes; none where an opcode, fn or reserved field is invalid. -/
def chalkOf (w : Nat) : Option Nat :=
  let op := ckOp w
  if op = 0x01 then (if ckFn w < 20 && (ckFn w != 15 || ckRb w == 0) then some (ckAlu (ckFn w)) else none)
  else if op = 0x3F then (if ckFn w ≤ 6 && sysGood w then some (ckSys (ckFn w)) else none)
  else if 0x06 ≤ op && op ≤ 0x08 then (if ckImm14 w < 32 then some op else none)
  else if (0x02 ≤ op && op ≤ 0x0A) || (0x10 ≤ op && op ≤ 0x14) || (0x18 ≤ op && op ≤ 0x1A) || (0x20 ≤ op && op ≤ 0x25) ||
      op = 0x28 || op = 0x29 then some op
  else none

/-- Registers that an instruction reads. -/
def chalkReads (op w : Nat) : List Nat :=
  if op = 0x0A || op = 0x28 then []
  else if 0x100 ≤ op && op < 0x200 then [ckRa w, ckRb w]
  else if op = ckSys 1 || op = ckSys 5 then [ckRa w]
  else if 0x200 ≤ op then []
  else if 0x18 ≤ op && op ≤ 0x25 then [ckRd w, ckRa w]
  else [ckRa w]

/-! Traps (R181-R183). -/

def trFETCH : Nat := 1
def trILLEGAL : Nat := 2
def trMISALIGNED : Nat := 3
def trUNMAPPED : Nat := 4
def trPROTECTED : Nat := 5
def trDEADLINE : Nat := 6
def trPATCH : Nat := 7
def trSOFTWARE : Nat := 8

/-- The device's answer to a trap: GC_TRAP, and a halt of the course. -/
def State.trapReport (s : State) (g cause pc addr : Nat) : State :=
  let lt := g / 64
  (s.raise evGcTrap (s.partOfLt lt) 1 lt (g % 64) cause pc addr).declareHalt (s.partOfLt lt) hcTrap

/-- A trap of core g at a CTRL cycle: the task stops and the core enters runtime mode at address 0. addr is the faulting
address, or the software code. -/
def State.trap (s : State) (g t cause : Nat) (addr : Option Nat) : State :=
  let pc := (s.core g).pc
  let s := { s with cyc := 2 * t % 4096 }
  let r := GC_STATUS g
  let s := ((s.setF r GC_STATUS_trap_cause cause).setB r GC_STATUS_running false).setB r GC_STATUS_runtime true
  let s := s.setF (GC_TRAP_PC g) GC_TRAP_PC_pc pc
  let s := match addr with
    | some a => s.setF (GC_TRAP_ADDR g) GC_TRAP_ADDR_addr a
    | none => s
  let s := s.modCore g (fun c => { c with pc := 0, issue := t + 1, tb := none, waitc := none })
  s.trapReport g cause pc (addr.getD 0)

/-- A fetch finds a double-bit error: a trap, or a dead stop in runtime mode. -/
def State.fetchDead (s : State) (g t : Nat) : State :=
  let s := s.incF (GC_ERRORS g) GC_ERRORS_fetch_uncorrected 1
  if s.flag (GC_STATUS g) GC_STATUS_runtime then
    let s := { s with cyc := 2 * t % 4096 }
    (s.setB (GC_STATUS g) GC_STATUS_dead_stop true).trapReport g trFETCH (s.core g).pc 0
  else s.trap g t trFETCH none

/-! Issue (R177). -/

/-- Core g executes a task or the runtime, and waits for nothing. -/
def State.coreBusy (s : State) (g : Nat) : Bool :=
  let r := GC_STATUS g
  decide (g < 16384) && s.alive (g / 64) && !s.flag r GC_STATUS_halted && !s.flag r GC_STATUS_dead_stop &&
  (s.flag r GC_STATUS_running || s.flag r GC_STATUS_runtime)

def State.coreRuns (s : State) (g : Nat) : Bool := s.coreBusy g && (s.core g).tb.isNone && (s.core g).waitc.isNone

/-- The word at the program counter. -/
def State.fetchWord (s : State) (g : Nat) : Nat := lmWord s.mem (lmAddr g (s.core g).pc)

/-- CTRL cycle at which an instruction of a core issues: no earlier than the results it reads. -/
def CoreSt.issueAt (c : CoreSt) (op w : Nat) : Nat := (chalkReads op w).foldl (fun t r => max t (c.readyAt r)) c.issue

/-- CTRL cycle of the next issue, and whether END issues there. -/
def State.nextIssue (s : State) (g : Nat) : Nat × Bool :=
  let c := s.core g
  match chalkOf (s.fetchWord g) with
  | some op => (c.issueAt op (s.fetchWord g), op == ckSys 0)
  | none => (c.issue, false)

/-- The deadline comes first: END may still execute at it, nothing else. -/
def State.pastDeadline (s : State) (g : Nat) : Bool :=
  let (t, last) := s.nextIssue g
  s.flag (GC_STATUS g) GC_STATUS_running &&
  (if last then decide ((s.core g).deadline < 2 * t) else decide ((s.core g).deadline ≤ 2 * t))

/-- An issued instruction: core, word, CTRL cycle. -/
structure Issued where
  g : Nat
  w : Nat
  t : Nat
  deriving DecidableEq, Repr

/-- Core g issues its next instruction if that is operation op. A fetch that fails, and a word that encodes nothing, trap
whatever instruction was expected. -/
def State.onCore (s : State) (g op : Nat) (f : State → Issued → State) : State :=
  if !s.coreRuns g || s.pastDeadline g then s
  else
    let c := s.core g
    if 0x8000 ≤ c.pc then s.trap g c.issue trUNMAPPED (some c.pc)
    else match tgetD s.mem.lmErr (lmAddr g c.pc / 4) 0 with
      | 2 => s.fetchDead g c.issue
      | e =>
        let w := s.fetchWord g
        let s1 := if e = 1 then s.incF (GC_ERRORS g) GC_ERRORS_lm_corrected 1 else s
        match chalkOf w with
        | none => s1.trap g c.issue trILLEGAL none
        | some k =>
          if k = op then
            let t := c.issueAt k w
            f { s1 with cyc := 2 * t % 4096 } { g := g, w := w, t := t }
          else s

/-- The next instruction may issue n cycles later, at an address. -/
def State.goOn (s : State) (x : Issued) (n pc : Nat) : State :=
  s.modCore x.g (fun c => { c with issue := x.t + n, pc := pc % 2 ^ 32 })

/-- A result: register, value, cycles from issue to availability, issue cycles. -/
def State.result (s : State) (x : Issued) (r : Nat) (v : Word) (avail n : Nat) : State :=
  let s := s.modCore x.g (fun c => { c.put r v with ready := if r = 0 then c.ready else tput c.ready r (x.t + avail) })
  s.goOn x n ((s.core x.g).pc + 4)

/-- rd from ra and rb. -/
def State.chalkA (s : State) (g fn : Nat) (h : Word → Word → Word) (avail n : Nat) : State :=
  s.onCore g (ckAlu fn) (fun s x =>
    let c := s.core g
    s.result x (ckRd x.w) (h (c.get (ckRa x.w)) (c.get (ckRb x.w))) avail n)

/-- rd from ra and the immediate. -/
def State.chalkB (s : State) (g op : Nat) (h : Word → Nat → Word) : State :=
  s.onCore g op (fun s x => s.result x (ckRd x.w) (h ((s.core g).get (ckRa x.w)) (ckImm14 x.w)) 1 1)

/-! Arithmetic (R180). -/

def wBool (b : Bool) : Word := if b then 1 else 0

/-- Signed and unsigned high halves of a product. -/
def mulHigh (a b : Word) : Word := BitVec.ofInt 32 (a.toInt * b.toInt / 2 ^ 32)
def mulHighU (a b : Word) : Word := BitVec.ofNat 32 (a.toNat * b.toNat / 2 ^ 32)

def clzWord (a : Word) : Word := if a = 0 then 32 else BitVec.ofNat 32 (31 - Nat.log2 a.toNat)

def divWord (a b : Word) : Word := if b = 0 then 0xFFFFFFFF else BitVec.ofInt 32 (a.toInt.tdiv b.toInt)
def divWordU (a b : Word) : Word := if b = 0 then 0xFFFFFFFF else BitVec.ofNat 32 (a.toNat / b.toNat)
def remWord (a b : Word) : Word := if b = 0 then a else BitVec.ofInt 32 (a.toInt.tmod b.toInt)
def remWordU (a b : Word) : Word := if b = 0 then a else BitVec.ofNat 32 (a.toNat % b.toNat)

def execChalkAdd (gc : Nat) (s : State) : Host.Outcome State Fault Refusal := live s (s.chalkA gc 0 (fun a b => a + b) 1 1)
def execChalkSub (gc : Nat) (s : State) : Host.Outcome State Fault Refusal := live s (s.chalkA gc 1 (fun a b => a - b) 1 1)
def execChalkAnd (gc : Nat) (s : State) : Host.Outcome State Fault Refusal := live s (s.chalkA gc 2 (fun a b => a &&& b) 1 1)
def execChalkOr (gc : Nat) (s : State) : Host.Outcome State Fault Refusal := live s (s.chalkA gc 3 (fun a b => a ||| b) 1 1)
def execChalkXor (gc : Nat) (s : State) : Host.Outcome State Fault Refusal := live s (s.chalkA gc 4 (fun a b => a ^^^ b) 1 1)
def execChalkSll (gc : Nat) (s : State) : Host.Outcome State Fault Refusal :=
  live s (s.chalkA gc 5 (fun a b => a <<< (b.toNat % 32)) 1 1)
def execChalkSrl (gc : Nat) (s : State) : Host.Outcome State Fault Refusal :=
  live s (s.chalkA gc 6 (fun a b => a >>> (b.toNat % 32)) 1 1)
def execChalkSra (gc : Nat) (s : State) : Host.Outcome State Fault Refusal :=
  live s (s.chalkA gc 7 (fun a b => a.sshiftRight (b.toNat % 32)) 1 1)
def execChalkSlt (gc : Nat) (s : State) : Host.Outcome State Fault Refusal :=
  live s (s.chalkA gc 8 (fun a b => wBool (a.slt b)) 1 1)
def execChalkSltu (gc : Nat) (s : State) : Host.Outcome State Fault Refusal :=
  live s (s.chalkA gc 9 (fun a b => wBool (a.ult b)) 1 1)
def execChalkMul (gc : Nat) (s : State) : Host.Outcome State Fault Refusal := live s (s.chalkA gc 10 (fun a b => a * b) 3 1)
def execChalkMulh (gc : Nat) (s : State) : Host.Outcome State Fault Refusal := live s (s.chalkA gc 11 mulHigh 3 1)
def execChalkMulhu (gc : Nat) (s : State) : Host.Outcome State Fault Refusal := live s (s.chalkA gc 12 mulHighU 3 1)

/-- MIN and MAX compare signed: the table marks unsigned forms with U and has none of these (DEDUCED, log entry 21). -/
def execChalkMin (gc : Nat) (s : State) : Host.Outcome State Fault Refusal :=
  live s (s.chalkA gc 13 (fun a b => if b.slt a then b else a) 1 1)
def execChalkMax (gc : Nat) (s : State) : Host.Outcome State Fault Refusal :=
  live s (s.chalkA gc 14 (fun a b => if a.slt b then b else a) 1 1)
def execChalkClz (gc : Nat) (s : State) : Host.Outcome State Fault Refusal :=
  live s (s.chalkA gc 15 (fun a _ => clzWord a) 1 1)
def execChalkDiv (gc : Nat) (s : State) : Host.Outcome State Fault Refusal := live s (s.chalkA gc 16 divWord 18 18)
def execChalkDivu (gc : Nat) (s : State) : Host.Outcome State Fault Refusal := live s (s.chalkA gc 17 divWordU 18 18)
def execChalkRem (gc : Nat) (s : State) : Host.Outcome State Fault Refusal := live s (s.chalkA gc 18 remWord 18 18)
def execChalkRemu (gc : Nat) (s : State) : Host.Outcome State Fault Refusal := live s (s.chalkA gc 19 remWordU 18 18)

def immS (i : Nat) : Word := BitVec.ofInt 32 (signedOf i 14)
def immZ (i : Nat) : Word := BitVec.ofNat 32 i

def execChalkAddi (gc : Nat) (s : State) : Host.Outcome State Fault Refusal := live s (s.chalkB gc 0x02 (fun a i => a + immS i))
def execChalkAndi (gc : Nat) (s : State) : Host.Outcome State Fault Refusal := live s (s.chalkB gc 0x03 (fun a i => a &&& immZ i))
def execChalkOri (gc : Nat) (s : State) : Host.Outcome State Fault Refusal := live s (s.chalkB gc 0x04 (fun a i => a ||| immZ i))
def execChalkXori (gc : Nat) (s : State) : Host.Outcome State Fault Refusal := live s (s.chalkB gc 0x05 (fun a i => a ^^^ immZ i))
def execChalkSlli (gc : Nat) (s : State) : Host.Outcome State Fault Refusal :=
  live s (s.chalkB gc 0x06 (fun a i => a <<< (i % 32)))
def execChalkSrli (gc : Nat) (s : State) : Host.Outcome State Fault Refusal :=
  live s (s.chalkB gc 0x07 (fun a i => a >>> (i % 32)))
def execChalkSrai (gc : Nat) (s : State) : Host.Outcome State Fault Refusal :=
  live s (s.chalkB gc 0x08 (fun a i => a.sshiftRight (i % 32)))
def execChalkSlti (gc : Nat) (s : State) : Host.Outcome State Fault Refusal :=
  live s (s.chalkB gc 0x09 (fun a i => wBool (a.slt (immS i))))
def execChalkLui (gc : Nat) (s : State) : Host.Outcome State Fault Refusal :=
  live s (s.onCore gc 0x0A (fun s x => s.result x (ckRd x.w) (BitVec.ofNat 32 (ckImm19 x.w * 2 ^ 13)) 1 1))

/-! The core address map (R176). -/

/-- Where a core address leads: local memory, the tile's own buffer, a patch window. -/
inductive CoreArea where
  | localMem (off : Nat)
  | buffer (off : Nat)
  | patchNow (i : Nat)
  | patchNext (i : Nat)
  | none
  deriving DecidableEq, Repr

def coreArea (a : Nat) : CoreArea :=
  if a < 0x8000 then .localMem a
  else if 0x400000 ≤ a && a < 0x800000 then .buffer (a - 0x400000)
  else if 0x1000000 ≤ a && a < 0x1004000 then .patchNow ((a - 0x1000000) / 4)
  else if 0x1010000 ≤ a && a < 0x1014000 then .patchNext ((a - 0x1010000) / 4)
  else .none

/-- Address of a load or store. -/
def State.coreAddr (s : State) (x : Issued) : Nat := ((s.core x.g).get (ckRa x.w) + ckSImm14 x.w).toNat

/-- The window of a core at or after a CTRL cycle (R178). -/
def windowAt (g t : Nat) : Nat := t + (g % 64 % 8 + 8 - t % 8) % 8

/-- Bytes extended to a register. -/
def extend (bytes v : Nat) (signed : Bool) : Word :=
  if signed then BitVec.ofInt 32 (signedOf v (8 * bytes)) else BitVec.ofNat 32 (v % 2 ^ (8 * bytes))

def State.setTaint (s : State) (g : Nat) : State := s.setB (GC_STATUS g) GC_STATUS_tainted true

/-- A load from local memory (R175). -/
def State.localLoad (s : State) (x : Issued) (off bytes : Nat) (signed : Bool) : State :=
  let a := lmAddr x.g off
  let e := tgetD s.mem.lmErr (a / 4) 0
  let s1 := if e = 1 then s.incF (GC_ERRORS x.g) GC_ERRORS_lm_corrected 1
    else if e = 2 then s.incF (GC_ERRORS x.g) GC_ERRORS_lm_uncorrected 1 else s
  let s1 := if e = 2 || lmPoisoned s.mem a then s1.setTaint x.g else s1
  s1.result x (ckRd x.w) (extend bytes (leVal (memRead s.mem a bytes)) signed) 2 1

/-- A load of 1, 2 or 4 bytes. -/
def State.chalkLoad (s : State) (g op bytes : Nat) (signed : Bool) : State :=
  s.onCore g op (fun s x =>
    let a := s.coreAddr x
    if a % bytes ≠ 0 then s.trap g x.t trMISALIGNED (some a)
    else match coreArea a with
      | .localMem off => s.localLoad x off bytes signed
      | .buffer off =>
        let acc : TbAccess :=
          { isStore := false, off := off, bytes := bytes, signed := signed, rd := ckRd x.w, value := 0, window := windowAt g x.t }
        s.modCore g (fun c => { c with tb := some acc })
      | .patchNow _ => s.result x (ckRd x.w) 0 2 1
      | .patchNext _ => s.result x (ckRd x.w) 0 2 1
      | .none => s.trap g x.t trUNMAPPED (some a))

def execChalkLdw (gc : Nat) (s : State) : Host.Outcome State Fault Refusal := live s (s.chalkLoad gc 0x10 4 false)
def execChalkLdh (gc : Nat) (s : State) : Host.Outcome State Fault Refusal := live s (s.chalkLoad gc 0x11 2 true)
def execChalkLdhu (gc : Nat) (s : State) : Host.Outcome State Fault Refusal := live s (s.chalkLoad gc 0x12 2 false)
def execChalkLdb (gc : Nat) (s : State) : Host.Outcome State Fault Refusal := live s (s.chalkLoad gc 0x13 1 true)
def execChalkLdbu (gc : Nat) (s : State) : Host.Outcome State Fault Refusal := live s (s.chalkLoad gc 0x14 1 false)

/-! Stores (R175, R184, R192, R193, 10 R287, 11 R312). -/

def State.tainted (s : State) (g : Nat) : Bool := s.flag (GC_STATUS g) GC_STATUS_tainted

/-- The next instruction after a store of n issue cycles. -/
def State.nextInstr (s : State) (x : Issued) (n : Nat) : State := s.goOn x n ((s.core x.g).pc + 4)

def State.localStore (s : State) (x : Issued) (off bytes v : Nat) : State :=
  if off < 0x1000 && !s.flag (GC_STATUS x.g) GC_STATUS_runtime then s.trap x.g x.t trPROTECTED (some off)
  else
    (s.lmStoreAt (lmAddr x.g off) (leBytes bytes v) (s.tainted x.g)).nextInstr x (if bytes = 4 then 1 else 2)

def State.bufferStore (s : State) (x : Issued) (off bytes v : Nat) : State :=
  if (List.range bytes).any (fun i => s.areaOffset (off + i) || s.shadowOffset (off + i)) then
    s.trap x.g x.t trPROTECTED (some (0x400000 + off))
  else
    let acc : TbAccess :=
      { isStore := true, off := off, bytes := bytes, signed := false, rd := 0, value := v, window := windowAt x.g x.t }
    s.modCore x.g (fun c => { c with tb := some acc })

/-- A patch stored under taint is discarded. -/
def State.patchTainted (s : State) (x : Issued) : State :=
  (s.incF (GC_STATUS x.g) GC_STATUS_patch_dropped 1).nextInstr x 1

/-- A patch of the current lesson: it lands 2 CTRL cycles after its issue. -/
def State.patchCurrent (s : State) (x : Issued) (a i v : Nat) : State :=
  let lt := x.g / 64
  if s.tainted x.g then s.patchTainted x
  else if !isOverwritePass (armedProgram (s.tile lt)) i then s.trap x.g x.t trPATCH (some a)
  else
    let p : Patch := { idx := i, value := v, bell := (s.crsOf (s.partOfLt lt)).lessonBell, cycle := 2 * (x.t + 2) }
    (s.modTile lt (fun t => { t with curPatches := t.curPatches ++ [p] })).nextInstr x 1

/-- A patch of the next lesson: the tile's buffer holds 64. -/
def State.patchBuffer (s : State) (x : Issued) (a i v : Nat) : State :=
  let lt := x.g / 64
  if s.tainted x.g then s.patchTainted x
  else if 64 ≤ (s.tile lt).nextPatches.length then s.trap x.g x.t trPATCH (some a)
  else
    let p : Patch := { idx := i, value := v, bell := 0, cycle := 0 }
    let s := s.modTile lt (fun t => { t with nextPatches := t.nextPatches ++ [p] })
    (s.setF (GC_PATCH_LT lt) GC_PATCH_LT_pending (s.tile lt).nextPatches.length).nextInstr x 1

/-- A store of 1, 2 or 4 bytes of rd. -/
def State.chalkStore (s : State) (g op bytes : Nat) : State :=
  s.onCore g op (fun s x =>
    let a := s.coreAddr x
    let v := ((s.core g).get (ckRd x.w)).toNat % 2 ^ (8 * bytes)
    if a % bytes ≠ 0 then s.trap g x.t trMISALIGNED (some a)
    else match coreArea a with
      | .localMem off => s.localStore x off bytes v
      | .buffer off => s.bufferStore x off bytes v
      | .patchNow i => if bytes = 4 then s.patchCurrent x a i v else s.trap g x.t trUNMAPPED (some a)
      | .patchNext i => if bytes = 4 then s.patchBuffer x a i v else s.trap g x.t trUNMAPPED (some a)
      | .none => s.trap g x.t trUNMAPPED (some a))

def execChalkStw (gc : Nat) (s : State) : Host.Outcome State Fault Refusal := live s (s.chalkStore gc 0x18 4)
def execChalkSth (gc : Nat) (s : State) : Host.Outcome State Fault Refusal := live s (s.chalkStore gc 0x19 2)
def execChalkStb (gc : Nat) (s : State) : Host.Outcome State Fault Refusal := live s (s.chalkStore gc 0x1A 1)

/-! Tile-buffer windows (R178, 07 R207). -/

/-- The access of a core that falls in a window. -/
def State.windowAccess (s : State) (g t : Nat) : Option TbAccess :=
  if s.present (g / 64) then (s.core g).tb.filter (fun a => a.window == t) else none

/-- The deadline of a running task comes before a window. -/
def State.windowLate (s : State) (g t : Nat) : Bool :=
  s.flag (GC_STATUS g) GC_STATUS_running && decide ((s.core g).deadline ≤ 2 * t)

/-- A load: what the buffer held before the writes of the cycle (07 R207); an EMPTY slot taints the core and is not counted as a
timetabled read (07 R214). -/
def State.windowLoad (s : State) (g t : Nat) (a : TbAccess) : State :=
  let m := tbBefore (s.tile (g / 64)) s.mem (2 * t)
  let (d, p) := tbPeek m (g / 64) a.off a.bytes true
  let s := s.tbCount m (g / 64) a.off a.bytes
  let s := if p.any id then s.setTaint g else s
  (s.modCore g (fun c => { c with tb := none })).result { g := g, w := 0, t := t } a.rd (extend a.bytes (leVal d) a.signed) 4 1

/-- A store through a narrow port; what it replaces is kept for reads of the same cycle (07 R207). -/
def State.windowStore (s : State) (g t : Nat) (a : TbAccess) : State :=
  let lt := g / 64
  let s := s.modTile lt (fun y => { y with uses := y.uses ++ useEntries s.mem lt (2 * t) 4 0 a.off a.bytes none [] })
  let m := tbWrite s.mem lt a.off (leBytes a.bytes a.value) (List.replicate a.bytes (s.tainted g)) 0
  (({ s with mem := m }).modCore g (fun c => { c with tb := none })).nextInstr { g := g, w := 0, t := t } 1

/-- A window of tile lt at a CTRL cycle: every access that waits for it is served, loads before stores, stores in ascending
number of their port. -/
def State.tbWindow (s : State) (lt t : Nat) : State :=
  let cores := ((List.range 64).map (64 * lt + ·)).filter (fun g => (s.windowAccess g t).isSome && !s.windowLate g t)
  let serve := fun (store : Bool) (s : State) (g : Nat) =>
    match s.windowAccess g t with
    | some a => if a.isStore = store then (if store then s.windowStore g t a else s.windowLoad g t a) else s
    | none => s
  forEach cores (forEach cores { s.engines lt (2 * t) with cyc := 2 * t % 4096 } (serve false)) (serve true)

def execGcTbWindow (lt cycle : Nat) (s : State) : Host.Outcome State Fault Refusal :=
  live s (if lt < 256 && s.alive lt then s.tbWindow lt cycle else s)

/-! Branches and jumps. -/

def State.branch (s : State) (g op : Nat) (h : Word → Word → Bool) : State :=
  s.onCore g op (fun s x =>
    let c := s.core g
    if h (c.get (ckRd x.w)) (c.get (ckRa x.w)) then
      s.goOn x 2 (BitVec.ofNat 32 c.pc + 4 * ckSImm14 x.w : Word).toNat
    else s.goOn x 1 (c.pc + 4))

def execChalkBeq (gc : Nat) (s : State) : Host.Outcome State Fault Refusal := live s (s.branch gc 0x20 (fun a b => a == b))
def execChalkBne (gc : Nat) (s : State) : Host.Outcome State Fault Refusal := live s (s.branch gc 0x21 (fun a b => a != b))
def execChalkBlt (gc : Nat) (s : State) : Host.Outcome State Fault Refusal := live s (s.branch gc 0x22 (fun a b => a.slt b))
def execChalkBge (gc : Nat) (s : State) : Host.Outcome State Fault Refusal := live s (s.branch gc 0x23 (fun a b => !a.slt b))
def execChalkBltu (gc : Nat) (s : State) : Host.Outcome State Fault Refusal := live s (s.branch gc 0x24 (fun a b => a.ult b))
def execChalkBgeu (gc : Nat) (s : State) : Host.Outcome State Fault Refusal := live s (s.branch gc 0x25 (fun a b => !a.ult b))

/-- The link register takes pc + 4, and the core goes on at a target. -/
def State.jump (s : State) (x : Issued) (target : Word) : State :=
  let s := s.result x (ckRd x.w) (BitVec.ofNat 32 ((s.core x.g).pc + 4)) 1 2
  s.goOn x 2 target.toNat

def execChalkJal (gc : Nat) (s : State) : Host.Outcome State Fault Refusal :=
  live s (s.onCore gc 0x28 (fun s x => s.jump x (BitVec.ofNat 32 (s.core gc).pc + 4 * ckSImm19 x.w)))

def execChalkJalr (gc : Nat) (s : State) : Host.Outcome State Fault Refusal :=
  live s (s.onCore gc 0x29 (fun s x => s.jump x (((s.core gc).get (ckRa x.w) + ckSImm14 x.w) &&& 0xFFFFFFFC)))

/-! SYS. -/

/-- END ends the task; in runtime mode, where no task runs, it has nothing to end (log entry 21). -/
def State.chalkEnd (s : State) (g : Nat) : State :=
  s.onCore g (ckSys 0) (fun s x =>
    if s.flag (GC_STATUS g) GC_STATUS_running then (s.nextInstr x 1).setB (GC_STATUS g) GC_STATUS_running false
    else s.nextInstr x 1)

def execChalkEnd (gc : Nat) (s : State) : Host.Outcome State Fault Refusal := live s (s.chalkEnd gc)

/-- WAITC: a cycle already passed, or above 3,775, takes 1 cycle. -/
def State.chalkWaitc (s : State) (g : Nat) : State :=
  s.onCore g (ckSys 1) (fun s x =>
    let v := ((s.core g).get (ckRa x.w)).toNat
    let s := s.nextInstr x 1
    if 2 * x.t < v && v ≤ 3775 then s.modCore g (fun c => { c with waitc := some v }) else s)

def execChalkWaitc (gc : Nat) (s : State) : Host.Outcome State Fault Refusal := live s (s.chalkWaitc gc)

/-- The named cycle of a WAITC comes, before the task's deadline. -/
def State.waitcWake (s : State) (g : Nat) : State :=
  match (s.core g).waitc with
  | some v =>
    if !s.coreBusy g || (s.flag (GC_STATUS g) GC_STATUS_running && decide ((s.core g).deadline < v)) then s
    else ({ s with cyc := v }).modCore g (fun c => { c with waitc := none, issue := max c.issue ((v + 1) / 2) })
  | none => s

def execWaitcWake (gc : Nat) (s : State) : Host.Outcome State Fault Refusal := live s (s.waitcWake gc)

def execChalkRdcyc (gc : Nat) (s : State) : Host.Outcome State Fault Refusal :=
  live s (s.onCore gc (ckSys 2) (fun s x => s.result x (ckRd x.w) (BitVec.ofNat 32 (2 * x.t % 4096)) 1 1))

def execChalkRdbell (gc : Nat) (s : State) : Host.Outcome State Fault Refusal :=
  live s (s.onCore gc (ckSys 3) (fun s x => s.result x (ckRd x.w) (s.reg BELL_COUNT_LO) 1 1))

def execChalkRdid (gc : Nat) (s : State) : Host.Outcome State Fault Refusal :=
  live s (s.onCore gc (ckSys 4) (fun s x => s.result x (ckRd x.w) (BitVec.ofNat 32 gc) 1 1))

/-- TRAP: the code in ra is from 0x40 to 0x1F_FFFF. -/
def State.chalkTrap (s : State) (g : Nat) : State :=
  s.onCore g (ckSys 5) (fun s x =>
    let v := ((s.core g).get (ckRa x.w)).toNat
    if 0x40 ≤ v && v ≤ 0x1FFFFF then s.trap g x.t trSOFTWARE (some v) else s.trap g x.t trILLEGAL none)

def execChalkTrap (gc : Nat) (s : State) : Host.Outcome State Fault Refusal := live s (s.chalkTrap gc)

/-- RET leaves runtime mode. The trap has stopped the task, so no task runs and the core is gated until its next one (log
entry 21). Outside runtime mode it is illegal. -/
def State.chalkRet (s : State) (g : Nat) : State :=
  s.onCore g (ckSys 6) (fun s x =>
    if s.flag (GC_STATUS g) GC_STATUS_runtime then (s.nextInstr x 1).setB (GC_STATUS g) GC_STATUS_runtime false
    else s.trap g x.t trILLEGAL none)

def execChalkRet (gc : Nat) (s : State) : Host.Outcome State Fault Refusal := live s (s.chalkRet gc)

/-! Tasks (R189, R190). -/

/-- Fields of task entry i of a tile program. -/
def tkAt (t : List Byte) (i off n : Nat) : Nat := leAt t (tpTaskOffset t + 16 * i + off) n

/-- The core of a task can take it. -/
def State.coreIdle (s : State) (g : Nat) : Bool :=
  let r := GC_STATUS g
  !s.flag r GC_STATUS_running && !s.flag r GC_STATUS_runtime && !s.flag r GC_STATUS_halted && !s.flag r GC_STATUS_dead_stop

def State.taskStart (s : State) (lt idx : Nat) : State :=
  let t := armedProgram (s.tile lt)
  let g := 64 * lt + tkAt t idx 0 1 % 64
  if idx < tpTaskCount t && s.tileWorks lt (tkAt t idx 2 2) && s.coreIdle g then
    let crs := s.crsOf (s.partOfLt lt)
    let s := { s with cyc := tkAt t idx 4 2 }
    let r := GC_STATUS g
    let s := ((s.setB r GC_STATUS_running true).setB r GC_STATUS_tainted false).setF r GC_STATUS_task idx
    s.modCore g (fun c =>
      let c := ((c.put 1 (BitVec.ofNat 32 (tkAt t idx 12 4))).put 2 (BitVec.ofNat 32 crs.lesson)).put 3 (BitVec.ofNat 32 crs.iter)
      { c with pc := tkAt t idx 8 4, issue := tkAt t idx 4 2 / 2, ready := [], tb := none, waitc := none,
               deadline := tkAt t idx 6 2 })
  else s

def execTaskStart (lt idx : Nat) (s : State) : Host.Outcome State Fault Refusal := live s (s.taskStart lt idx)

/-- Nothing that a core waits for, and no instruction, comes before its deadline. -/
def State.deadlineDue (s : State) (g : Nat) : Bool :=
  let c := s.core g
  match c.tb, c.waitc with
  | some a, _ => decide (c.deadline ≤ 2 * a.window)
  | none, some v => decide (c.deadline < v)
  | none, none => s.pastDeadline g

/-- A task still running at its deadline traps there. -/
def State.taskDeadline (s : State) (g : Nat) : State :=
  if s.coreBusy g && s.flag (GC_STATUS g) GC_STATUS_running && s.deadlineDue g then
    s.trap g ((s.core g).deadline / 2) trDEADLINE none
  else s

def execTaskDeadline (gc : Nat) (s : State) : Host.Outcome State Fault Refusal := live s (s.taskDeadline gc)

end Sys2Proof.Machine
end

