-- ==== Sys2Proof/Machine/Movers.lean ====
section
/-! DEFINITION. The mover channels: paths and their checks, COPY and INDIRECT entries, built descriptors, beats, service
transfers (06 R194-R202, 08 R241, R247). -/

namespace Sys2Proof.Machine

/-! Descriptors (R196). -/

def mvChannel (d : Nat) : Nat := dBits d 0 32 3
def inList (d : Nat) : Nat := dBits d 1 0 22
def inCount (d : Nat) : Nat := dBits d 1 22 12 + 1
def inCycles (d : Nat) : Nat := dBits d 2 0 12

/-- The COPY that a descriptor describes, with its first beat at a cycle. -/
def copyOf (d cycle : Nat) : CopyRun :=
  { mc := dBits d 0 35 2, srcLk8 := dBits d 0 37 1 == 1, dstLk8 := dBits d 0 38 1 == 1, dstTag := dBits d 0 39 2,
    src := dBits d 1 0 48, dst := dBits d 2 0 48, rowBytes := dBits d 2 48 16 + 1, rows := dBits d 3 0 16 + 1,
    srcStride := dBits d 3 16 24, dstStride := dBits d 3 40 24, startCycle := cycle, beat := 0 }

/-- Fields that a COPY does not list are 0, and dst_tag is valid. -/
def copyGood (d : Nat) : Bool := dBits d 0 41 23 == 0 && dBits d 1 48 16 == 0 && dBits d 0 39 2 != 3

/-! Paths (R194, R195). -/

/-- The pairs of R194. -/
inductive MovPath where
  | own
  | mesh
  | toLk8
  | fromLk8
  | toLocker
  | fromLocker
  | toLocal
  | fromLocal
  deriving DecidableEq, Repr

/-- Bytes per ARITH cycle. -/
def MovPath.rate : MovPath → Nat
  | .own | .mesh => 128
  | .toLk8 | .fromLk8 => 64
  | .toLocker | .fromLocker => 8
  | .toLocal | .fromLocal => 16

def ownTile (lt a : Nat) : Bool := regionOf a == .tile && addrTile a == lt
def ownGroup (lt c a : Nat) : Bool := regionOf a == .locker && lockerChan (lkLocker a) == 8 * lt + c
def ownLocal (lt a : Nat) : Bool := regionOf a == .localMem && addrTile a == lt

/-- The path of a COPY on channel c of tile lt; none for any other pair. -/
def pathOf (lt c : Nat) (k : CopyRun) : Option MovPath :=
  if ownTile lt k.src && !k.srcLk8 then
    if k.dstLk8 then (if ownGroup lt c k.dst && lkLocker k.dst % 8 == 0 && k.mc == 0 then some .toLk8 else none)
    else if regionOf k.dst = .tile then (if k.mc = 0 && ownTile lt k.dst then some .own else some .mesh)
    else if k.mc ≠ 0 then none
    else if ownGroup lt c k.dst then some .toLocker
    else if ownLocal lt k.dst then some .toLocal else none
  else if ownTile lt k.dst && !k.dstLk8 && k.mc == 0 then
    if k.srcLk8 then (if ownGroup lt c k.src && lkLocker k.src % 8 == 0 then some .fromLk8 else none)
    else if ownGroup lt c k.src then some .fromLocker
    else if ownLocal lt k.src then some .fromLocal else none
  else none

/-- Offset of an address in the unit that its region makes: tile buffer, local memory, locker. -/
def unitOffset (a : Nat) : Nat :=
  match regionOf a with
  | .tile => (a - tbBase) % 0x400000
  | .localMem => (a - lmBase) % 0x8000
  | _ => a % 0x1000000

def unitSize (a : Nat) : Nat :=
  match regionOf a with
  | .tile => 0x400000
  | .localMem => 0x8000
  | _ => 0x1000000

/-- Every row of one side of a COPY ends within its unit; a row in lk8 spread takes an eighth of its bytes in each locker. -/
def sideFits (a rows stride bytes : Nat) (lk8 : Bool) : Bool :=
  decide (unitOffset a + (rows - 1) * stride + (if lk8 then bytes / 8 else bytes) ≤ unitSize a)

/-- Multiples that a locker asks for (R195, R241). -/
def lockerAligned (k : CopyRun) : Bool :=
  k.src % 8 == 0 && k.dst % 8 == 0 && k.rowBytes % 8 == 0 && k.srcStride % 8 == 0 && k.dstStride % 8 == 0 &&
  (!(k.srcLk8 || k.dstLk8) || k.rowBytes % 64 == 0)

def MovPath.locker : MovPath → Bool
  | .toLk8 | .fromLk8 | .toLocker | .fromLocker => true
  | .own | .mesh | .toLocal | .fromLocal => false

/-- Form of a COPY that needs no state: its path, its units, its alignment. -/
def copyForm (lt c : Nat) (k : CopyRun) : Bool :=
  match pathOf lt c k with
  | some p =>
    sideFits k.src k.rows k.srcStride k.rowBytes k.srcLk8 && sideFits k.dst k.rows k.dstStride k.rowBytes k.dstLk8 &&
    (!p.locker || lockerAligned k)
  | none => false

/-- A destination tile that R225 refuses: outside the partition, or absent for a unicast. -/
def State.meshRefused (s : State) (lt : Nat) (k : CopyRun) : Bool :=
  regionOf k.dst == .tile &&
  (s.partOfLt (addrTile k.dst) != s.partOfLt lt || (k.mc == 0 && !s.present (addrTile k.dst)))

/-- An address that leads nowhere (01 R39); the alias window is invalid for a mover instead (08 R247), and an absent
destination tile is R225's. -/
def State.nowhere (s : State) (a : Nat) (dst : Bool) : Bool :=
  regionOf a == .none && !(decide (aliasBase ≤ a) && decide (a < aliasBase + 2 ^ 38)) ||
  (regionOf a == .tile && !dst || regionOf a == .locker || regionOf a == .localMem) && !s.mapped a

/-- Rows of a multicast that meet a protected range at some target (R199). -/
def State.multicastGuard (s : State) (lt : Nat) (k : CopyRun) : Bool :=
  k.mc != 0 && (s.meshTargets lt (addrTile k.dst) k.mc).any (fun t =>
    (List.range k.rows).any (fun r =>
      s.protectedRange (tbAddr t (unitOffset k.dst + r * k.dstStride)) k.rowBytes))

/-- Why a COPY halts its channel before its first beat: status and address. -/
def State.copyRefused (s : State) (lt c : Nat) (k : CopyRun) : Option (Nat × Nat) :=
  if s.nowhere k.src false then some (mvUNMAPPED, k.src)
  else if s.nowhere k.dst true then some (mvUNMAPPED, k.dst)
  else if !copyForm lt c k || s.meshRefused lt k then some (mvINVALID, k.dst)
  else if s.multicastGuard lt k then some (mvPROTECTED, k.dst) else none

def beatsPerRow (p : MovPath) (k : CopyRun) : Nat := ceilDiv k.rowBytes p.rate

def copyBeats (p : MovPath) (k : CopyRun) : Nat := k.rows * beatsPerRow p k

/-! Status registers. -/

def State.setMovFault (s : State) (lt c a : Nat) : State :=
  (s.setF (MOV_FAULT_ADDR_LO_LT lt c) MOV_FAULT_ADDR_LO_LT_addr_lo a).setF (MOV_FAULT_ADDR_HI_LT lt c)
    MOV_FAULT_ADDR_HI_LT_addr_hi (a / 2 ^ 32)

/-- A channel halts in a timetabled transfer (R199). -/
def State.movHalt (s : State) (lt c status a : Nat) : State :=
  let r := MOV_STATUS_LT lt c
  let s := ((s.setF r MOV_STATUS_LT_status status).setB r MOV_STATUS_LT_busy false).setMovFault lt c a
  let s := s.modChan (8 * lt + c) (fun ch => { ch with copy := none, ind := none })
  s.declareHalt (s.partOfLt lt) hcChannel

/-- A transfer starts: status OK, busy, progress from 0. -/
def State.movBegin (s : State) (lt c : Nat) : State :=
  let r := MOV_STATUS_LT lt c
  let s := (s.setF r MOV_STATUS_LT_status 0).setB r MOV_STATUS_LT_busy true
  (s.setF (MOV_PROGRESS_LT lt c) MOV_PROGRESS_LT_rows_done 0).setF (MOV_PROGRESS_LT lt c) MOV_PROGRESS_LT_desc_done 0

/-- Nothing is left to issue: the channel is busy only while words are under way at lockers. -/
def State.movSettle (s : State) (lt c : Nat) : State :=
  let ch := s.chan (8 * lt + c)
  if ch.copy.isNone && ch.ind.isNone && ch.ops = [] then s.setB (MOV_STATUS_LT lt c) MOV_STATUS_LT_busy false else s

/-! Static entries (R197, R198). -/

def State.movEntry (s : State) (lt idx op : Nat) : Option Nat :=
  let t := armedProgram (s.tile lt)
  let d := descAt t (tpMovOffset t) idx
  let ch := s.chan (8 * lt + mvChannel d)
  if idx < tpMovCount t && dBits d 0 0 4 = op && s.tileWorks lt (dStartBell d) && ch.copy.isNone && ch.ind.isNone then some d
  else none

/-- A COPY takes the channel, or halts it. -/
def State.beginCopy (s : State) (lt c : Nat) (k : CopyRun) : State :=
  match s.copyRefused lt c k with
  | some (st, a) => s.movHalt lt c st a
  | none => s.modChan (8 * lt + c) (fun ch => { ch with copy := some k })

def State.moverCopy (s : State) (lt idx : Nat) : State :=
  match s.movEntry lt idx 1 with
  | some d =>
    let s := { s with cyc := dStartCycle d }
    (s.movBegin lt (mvChannel d)).beginCopy lt (mvChannel d) (copyOf d (dStartCycle d))
  | none => s

def execMoverCopy (lt idx : Nat) (s : State) : Host.Outcome State Fault Refusal := live s (s.moverCopy lt idx)

def State.moverIndirect (s : State) (lt idx : Nat) : State :=
  match s.movEntry lt idx 2 with
  | some d =>
    let i : IndirectRun :=
      { listAddr := inList d, count := inCount d, next := 0, firstCycle := dStartCycle d, window := inCycles d,
        cycle := dStartCycle d }
    let s := { s with cyc := dStartCycle d }
    (s.movBegin lt (mvChannel d)).modChan (8 * lt + mvChannel d) (fun ch => { ch with ind := some i })
  | none => s

def execMoverIndirect (lt idx : Nat) (s : State) : Host.Outcome State Fault Refusal := live s (s.moverIndirect lt idx)

/-! Built descriptors (R196, R198, R199). -/

/-- The fields of a built descriptor are valid: NULL with nothing else set, or a COPY. -/
def builtGood (d : Nat) : Bool := d == 0 || (dBits d 0 0 4 == 1 && dBits d 0 4 28 == 0 && copyGood d)

/-- Why a built descriptor is not run: status and address; a is where it stands. -/
def State.builtRefused (s : State) (lt c d a : Nat) : Option (Nat × Nat) :=
  if !builtGood d then some (mvINVALID, a) else if d = 0 then none else s.copyRefused lt c (copyOf d 0)

/-- One more descriptor of a list is complete; at the last the list is. -/
def State.builtDone (s : State) (lt c cycle : Nat) : State :=
  let s := s.incF (MOV_PROGRESS_LT lt c) MOV_PROGRESS_LT_desc_done 1
  let s := s.modChan (8 * lt + c) (fun ch => { ch with
    copy := none, ind := ch.ind.bind (fun i => if i.count ≤ i.next then none else some { i with cycle := cycle }) })
  s.movSettle lt c

/-- A descriptor read without poison. -/
def State.builtRun (s : State) (lt c : Nat) (i : IndirectRun) (d a : Nat) : State :=
  let k := copyOf d (i.cycle + 1)
  let n := match pathOf lt c k with
    | some p => if d = 0 then 0 else copyBeats p k
    | none => 0
  match s.builtRefused lt c d a with
  | some (st, x) => s.movHalt lt c st x
  | none =>
    if i.firstCycle + i.window < i.cycle + 1 + n then s.movHalt lt c mvWINDOW a
    else
      let s := s.modChan (8 * lt + c) (fun ch => { ch with ind := some { i with next := i.next + 1, cycle := i.cycle + 1 } })
      if d = 0 then s.builtDone lt c (i.cycle + 1)
      else (s.setF (MOV_PROGRESS_LT lt c) MOV_PROGRESS_LT_rows_done 0).modChan (8 * lt + c) (fun ch => { ch with copy := some k })

/-- The channel reads the next descriptor of its list. -/
def State.builtNext (s : State) (lt c : Nat) : State :=
  let ch := s.chan (8 * lt + c)
  match ch.ind with
  | some i =>
    if ch.copy.isSome || i.count ≤ i.next then s
    else
      let off := i.listAddr + 32 * i.next
      let s := { s with cyc := i.cycle }
      if i.firstCycle + i.window < i.cycle + 1 then s.movHalt lt c mvWINDOW (tbAddr lt off)
      else
        let ((b, p), s) := s.portRead lt i.cycle 0 (7 + c) (off % 0x400000) 32
        if p.any id then s.movHalt lt c mvPOISONED (tbAddr lt off) else s.builtRun lt c i (leVal b) (tbAddr lt off)
  | none => s

def execBuiltDescriptor (lt c : Nat) (s : State) : Host.Outcome State Fault Refusal :=
  live s (if lt < 256 && c < 8 && s.alive lt then s.builtNext lt c else s)

/-! Beats (R195, R197). -/

/-- Address of the i-th 8-byte word of a row in lk8 spread: locker L0 + i mod 8, 8 bytes on for every eight words. -/
def lk8Word (a i : Nat) : Nat := a + i % 8 * 0x1000000 + 8 * (i / 8)

/-- Poison of each word of data. -/
def wordPoison (p : List Bool) (i : Nat) : Bool := ((p.drop (8 * i)).take 8).any id

/-- Read bytes of a core's local memory for a channel (06 R175): a poisoned or uncorrectable word is poisoned data. -/
def State.localBytes (s : State) (a n : Nat) : (List Byte × List Bool) × State :=
  let words := (List.range ((a + n - 1) / 4 - a / 4 + 1)).map (fun i => a / 4 + i)
  let core := (a - lmBase) / 0x8000
  let s1 := forEach words s (fun s w =>
    let e := tgetD s.mem.lmErr w 0
    if e = 1 then s.incF (GC_ERRORS core) GC_ERRORS_lm_corrected 1
    else if e = 2 then s.incF (GC_ERRORS core) GC_ERRORS_lm_uncorrected 1 else s)
  ((memRead s.mem a n, (List.range n).map (fun i =>
    lmPoisoned s.mem (a + i) || tgetD s.mem.lmErr ((a + i) / 4) 0 == 2)), s1)

/-- Write pieces of words to local memory. -/
def lmWritePieces : State → List (Nat × Nat) → List Byte → List Bool → State
  | s, [], _, _ => s
  | s, (a, n) :: l, d, p => lmWritePieces (s.lmStoreAt a (d.take n) ((p.take n).any id)) l (d.drop n) (p.drop n)

/-- A timed mesh beat of a COPY; first and last are those of its row (07 R217). -/
def State.meshBeat (s : State) (lt c : Nat) (k : CopyRun) (off cycle : Nat) (d : List Byte) (p : List Bool) (first last : Bool) :
    State :=
  let half := fun (h : Nat) => boolNat (((p.drop (64 * h)).take 64).any id)
  s.offerBeat
    { id := 0, destLt := addrTile k.dst, srcLt := lt, mc := k.mc, kind := 0, first := first, last := last,
      dstTag := k.dstTag, dstOff := off, poison := half 0 + 2 * half 1, data := d, injBell := s.bellCount, injCycle := cycle,
      row := 0, col := 0, side := 4, arrive := 0, unit := 1 + c, injected := false, root := 0, targets := [], path := [] }

/-- Words of a beat at lockers. -/
def lkOps (write : Bool) (addrs : List Nat) (cycle off tag : Nat) (d : List Byte) (p : List Bool) : List LkOp :=
  (addrs.zip (List.range addrs.length)).map (fun x =>
    { write := write, addr := x.1, beat := cycle, cycle := cycle, off := off, tag := tag, data := leAt d (8 * x.2) 8,
      poison := wordPoison p x.2, done := false })

def State.addOps (s : State) (lt c : Nat) (l : List LkOp) : State :=
  s.modChan (8 * lt + c) (fun ch => { ch with ops := ch.ops ++ l })

/-- Addresses that a beat writes, as ranges. -/
def beatWrites (p : MovPath) (dst j n : Nat) : List (Nat × Nat) :=
  match p with
  | .toLk8 => (List.range (n / 8)).map (fun i => (lk8Word dst (j / 8 + i), 8))
  | _ => [(dst + j, n)]

/-- One beat: path, row addresses, bytes before it in its row, its bytes, its cycle. -/
def State.moveBeat (s : State) (lt c : Nat) (k : CopyRun) (p : MovPath) (src dst j n cycle : Nat) : State :=
  let so := unitOffset src + j
  let d_ := unitOffset dst + j
  match p with
  | .own =>
    let ((d, q), s) := s.portRead lt cycle 0 (7 + c) so n (some (tbAddr lt d_))
    s.portWrite lt cycle 1 (7 + c) d_ d q k.dstTag
  | .mesh =>
    let ((d, q), s) := s.portRead lt cycle 0 (7 + c) so n
    s.meshBeat lt c k d_ cycle d q (j == 0) (j + n == k.rowBytes)
  | .toLk8 =>
    let ((d, q), s) := s.portRead lt cycle 0 (7 + c) so n
    s.addOps lt c (lkOps true ((List.range (n / 8)).map (fun i => lk8Word dst (j / 8 + i))) cycle 0 0 d q)
  | .toLocker =>
    let ((d, q), s) := s.portRead lt cycle 0 (7 + c) so n
    s.addOps lt c (lkOps true [dst + j] cycle 0 0 d q)
  | .fromLk8 =>
    s.addOps lt c (lkOps false ((List.range (n / 8)).map (fun i => lk8Word src (j / 8 + i))) cycle d_ k.dstTag [] [])
  | .fromLocker => s.addOps lt c (lkOps false [src + j] cycle d_ k.dstTag [] [])
  | .toLocal =>
    let ((d, q), s) := s.portRead lt cycle 0 (7 + c) so n (some (dst + j))
    lmWritePieces s (piecesOf n (dst + j) n) d q
  | .fromLocal =>
    let ((d, q), s) := s.localBytes (src + j) n
    s.portWrite lt cycle 1 (7 + c) d_ d q k.dstTag

/-- After the last beat of a COPY. -/
def State.copyDone (s : State) (lt c cycle : Nat) : State :=
  if (s.chan (8 * lt + c)).ind.isSome then s.builtDone lt c (cycle + 1)
  else (s.modChan (8 * lt + c) (fun ch => { ch with copy := none })).movSettle lt c

/-- The next beat of the COPY that a channel runs. -/
def State.moverBeat (s : State) (lt c : Nat) : State :=
  match (s.chan (8 * lt + c)).copy with
  | some k =>
    match pathOf lt c k with
    | some p =>
      let bpr := beatsPerRow p k
      let row := k.beat / bpr
      let j := k.beat % bpr * p.rate
      let n := min p.rate (k.rowBytes - j)
      let cycle := k.startCycle + k.beat
      let src := k.src + row * k.srcStride
      let dst := k.dst + row * k.dstStride
      let final := k.beat + 1 == k.rows * bpr
      let s := { s with cyc := cycle }
      match (beatWrites p dst j n).find? (fun x => s.protectedRange x.1 x.2) with
      | some x => s.movHalt lt c mvPROTECTED x.1
      | none =>
        let s := (s.perfAdd (s.partOfLt lt) 3 1).moveBeat lt c k p src dst j n cycle
        let s := if k.beat % bpr + 1 = bpr then s.incF (MOV_PROGRESS_LT lt c) MOV_PROGRESS_LT_rows_done 1 else s
        if final then s.copyDone lt c cycle
        else s.modChan (8 * lt + c) (fun ch => { ch with copy := some { k with beat := k.beat + 1 } })
    | none => s
  | none => s

def execMoverBeat (lt c : Nat) (s : State) : Host.Outcome State Fault Refusal :=
  live s (if lt < 256 && c < 8 && s.alive lt then s.moverBeat lt c else s)

/-! Service transfers (R200, 07 R226, R227, 08 R238). -/

/-- The COPY of one row that a posted transfer stands for; its bytes are ascending stack addresses on both sides. -/
def postCopy (x : ServicePost) : CopyRun :=
  { mc := 0, srcLk8 := false, dstLk8 := false, dstTag := 0, src := x.src, dst := x.dst, rowBytes := x.bytes, rows := 1,
    srcStride := 0, dstStride := 0, startCycle := 0, beat := 0 }

/-- A service transfer halts: its command completes with a status and the bytes moved (14 R386). -/
def State.postFail (s : State) (lt c mv st a : Nat) (x : ServicePost) : State :=
  let r := MOV_STATUS_LT lt c
  let s := (s.dropPost lt c).setMovFault lt c a
  let s := (s.setF r MOV_STATUS_LT_status mv).setB r MOV_STATUS_LT_busy false
  let s := if mv = mvUNCORRECTABLE then s.setB r MOV_STATUS_LT_service_stop true else s
  match s.findTag x.ring x.tag with
  | some k => s.xferFail k st (xferDone k + x.moved)
  | none => s

/-- Part of a transfer has moved. -/
def State.postMoved (s : State) (lt c : Nat) (x : ServicePost) (n rate : Nat) : State :=
  let s := s.perfAdd (s.partOfLt lt) 3 (ceilDiv n rate)
  if n = x.bytes then (s.dropPost lt c).setB (MOV_STATUS_LT lt c) MOV_STATUS_LT_busy false
  else
    let y := { x with src := x.src + n, dst := x.dst + n, bytes := x.bytes - n, moved := x.moved + n }
    s.modChan (8 * lt + c) (fun ch => { ch with posts := y :: ch.posts.drop 1 })

/-- Service beats to another tile: one for each pass held, and no more than the router's injection input holds (07 R226). -/
def servicePump (lt c dest : Nat) : Nat → State → ServicePost → State
  | 0, s, _ => s
  | k + 1, s, x =>
    let g := 8 * lt + c
    let waiting := s.atInput (s.seatOf lt) 4
    if (s.chan g).passes = 0 || 4 ≤ waiting then s
    else
      let n := min 128 x.bytes
      let ((d, good), s1) := s.svcRead x.src n
      if !good then s1.postFail lt c mvUNCORRECTABLE stUNCORRECTABLE x.src x
      else
        let m := s1.seatOf lt
        let s2 := s1.offerBeat
          { id := 0, destLt := dest, srcLt := lt, mc := 0, kind := 2, first := x.moved == 0, last := n == x.bytes, dstTag := 0,
            dstOff := unitOffset x.dst, poison := 0, data := d, injBell := s1.bellCount, injCycle := s1.cyc, row := seatRow m,
            col := seatCol m, side := 4, arrive := s1.cyc + 2 + waiting, unit := 1 + c, injected := true, root := 0,
            targets := [dest], path := [] }
        let s3 := (s2.modChan g (fun ch => { ch with passes := ch.passes - 1 })).postMoved lt c x n 128
        if n = x.bytes then s3
        else servicePump lt c dest k s3 { x with src := x.src + n, dst := x.dst + n, bytes := x.bytes - n, moved := x.moved + n }

/-- A transfer that stays in the tile and its lockers. -/
def State.serviceLocal (s : State) (lt c : Nat) (x : ServicePost) (rate : Nat) : State :=
  let ((d, good), s) := s.svcRead x.src x.bytes
  if !good then s.postFail lt c mvUNCORRECTABLE stUNCORRECTABLE x.src x
  else
    let ((n, whole), s) := s.svcWrite x.dst d
    if whole then s.postMoved lt c x x.bytes rate
    else s.postFail lt c mvUNCORRECTABLE stUNCORRECTABLE (x.dst + n) { x with moved := x.moved + n }

/-- The channel may carry service transfers now: service slot or open bell; lockers only in the first part of an open
bell's lesson window (08 R238). -/
def State.serviceTime (s : State) (lt : Nat) (p : MovPath) : Bool :=
  if p.locker then s.openBell (s.partOfLt lt) && s.topOpen (s.partOfLt lt) else s.serviceOpen (s.partOfLt lt)

/-- The oldest posted transfer of a channel moves. -/
def State.serviceTransfer (s : State) (lt c : Nat) : State :=
  let g := 8 * lt + c
  match (s.chan g).posts with
  | x :: _ =>
    if s.flag (MOV_STATUS_LT lt c) MOV_STATUS_LT_service_stop then s
    else match s.copyRefused lt c (postCopy x) with
      | some (st, a) =>
        s.postFail lt c st (if st = mvPROTECTED then stADDR_PROTECTED else if st = mvUNMAPPED then stADDR_UNMAPPED else stBAD_PARAM) a x
      | none =>
        if s.protectedRange x.dst x.bytes then s.postFail lt c mvPROTECTED stADDR_PROTECTED x.dst x
        else match pathOf lt c (postCopy x) with
          | some p =>
            if !s.serviceTime lt p then s
            else if p = .mesh then
              if (s.chan g).passTile = addrTile x.dst then servicePump lt c (addrTile x.dst) 16 s x else s
            else s.serviceLocal lt c x p.rate
          | none => s
  | [] => s

def execServiceTransfer (lt c : Nat) (s : State) : Host.Outcome State Fault Refusal :=
  live s (if lt < 256 && c < 8 && s.alive lt then s.serviceTransfer lt c else s)

end Sys2Proof.Machine
end

