-- ==== Sys2Proof/Machine/Nbu.lean ====
section
/-! DEFINITION. The near-bank units: sequence entries, the placing of transfers, the five operations, sequences and commands
from below (09 R260-R280). -/

namespace Sys2Proof.Machine

/-! Layer programs and sequence entries (08 R254, 09 R268). -/

def lpCount (m : List Byte) : Nat := leAt m 6 2
def lpOffset (m : List Byte) : Nat := leAt m 8 4
def seqAt (m : List Byte) (i : Nat) : Nat := descAt m (lpOffset m) i

def sqOp (e : Nat) : Nat := dBits e 0 0 4
def sqSrcBank (e : Nat) : Nat := dBits e 1 0 1
def sqSrcRow (e : Nat) : Nat := dBits e 1 1 11
def sqRows (e : Nat) : Nat := dBits e 1 12 11 + 1
def sqDstBank (e : Nat) : Nat := dBits e 1 23 1
def sqDstRow (e : Nat) : Nat := dBits e 1 24 11
def sqOpndBank (e : Nat) : Nat := dBits e 1 35 1
def sqOpndRow (e : Nat) : Nat := dBits e 1 36 11
def sqEacc (e : Nat) : Int := signedOf (dBits e 2 0 10) 10
/-- Entry width E in elements. -/
def sqE (e : Nat) : Nat := 32 * 2 ^ dBits e 2 10 2
def sqBagLen (e : Nat) : Nat := dBits e 2 12 8 + 1
def sqBags (e : Nat) : Nat := dBits e 2 20 10 + 1
/-- Vectors b. -/
def sqB (e : Nat) : Nat := 2 ^ dBits e 2 10 2
def sqKb (e : Nat) : Nat := dBits e 2 12 7 + 1
def sqN (e : Nat) : Nat := dBits e 2 19 8 + 1
def sqGroup (e : Nat) : Nat := dBits e 2 0 12
def sqPattern (e : Nat) : Nat := dBits e 2 0 64
def sqPoison (e : Nat) : Bool := dBits e 3 0 1 == 1

/-! Transfers (R269). -/

/-- A transfer: index or operand row, index step of a bag, weight row, sign row, read-modify-write, row pair, filled row,
result row. -/
inductive Xfer where
  | operand (i : Nat)
  | index (bag j : Nat)
  | weight (i : Nat)
  | sign (i : Nat)
  | modify (i : Nat)
  | pair (i : Nat)
  | fill (i : Nat)
  | result (i : Nat)
  deriving DecidableEq, Repr

/-- Bags whose sums fill a result row. -/
def bagsPerRow (e : Nat) : Nat := 256 / sqE e

def indexRows (e : Nat) : Nat := ceilDiv (4 * sqBags e * sqBagLen e) 1024
def operandRows (e : Nat) : Nat := ceilDiv (sqB e * sqKb e) 31

/-- Number of transfers of a sequence. -/
def xferCount (e : Nat) : Nat :=
  match sqOp e with
  | 1 => indexRows e + sqBags e * sqBagLen e + ceilDiv (sqBags e) (bagsPerRow e)
  | 2 => operandRows e + sqRows e + 1
  | 3 => sqRows e + ceilDiv (sqRows e) 8
  | _ => sqRows e

/-- Transfer y of a GATHER_REDUCE after its index rows: groups of bags, each with its index steps and a result row. -/
def gatherXfer (e y : Nat) : Xfer :=
  let group := bagsPerRow e * sqBagLen e + 1
  let g := y / group
  let r := y % group
  let bags := min (bagsPerRow e) (sqBags e - g * bagsPerRow e)
  if r < bags * sqBagLen e then .index (g * bagsPerRow e + r / sqBagLen e) (r % sqBagLen e) else .result g

def xferAt (e x : Nat) : Xfer :=
  match sqOp e with
  | 1 => if x < indexRows e then .operand x else gatherXfer e (x - indexRows e)
  | 2 =>
    if x < operandRows e then .operand x
    else if x < operandRows e + sqRows e then .weight (x - operandRows e) else .result 0
  | 3 => if x % 9 = 0 then .sign (x / 9) else .modify (x / 9 * 8 + x % 9 - 1)
  | 4 => .pair x
  | _ => .fill x

/-- MEM cycles of a transfer. -/
def xferCycles (e : Nat) : Xfer → Nat
  | .operand _ => 16
  | .index _ _ => 8
  | .weight _ => 16 * sqB e
  | .sign _ => 16
  | .modify _ => 32
  | .pair _ => 32
  | .fill _ => 16
  | .result _ => 16

/-! Array rows (01 R38, R276). -/

def rowAddr (l locker bank row : Nat) : Nat := locker * 0x1000000 + l * 0x400000 + bank * 0x200000 + row * 0x400

/-- Words of the array as an NBU reads them, with their poison; every read is checked and counted. -/
def State.nbuWords (s : State) (addrs : List Nat) : List (Nat × Bool) × State :=
  addrs.foldl (fun (x : List (Nat × Bool) × State) a =>
    let (v, t) := x.2.lkLoad a
    (x.1 ++ [v], t)) ([], s)

/-- A row: 1,024 bytes, and the poison of each of its 128 words. -/
def State.nbuRow (s : State) (a : Nat) : (List Byte × List Bool) × State :=
  let (ws, s) := s.nbuWords ((List.range 128).map (fun i => a + 8 * i))
  ((ws.flatMap (fun w => leBytes 8 w.1), ws.map (·.2)), s)

/-- Write words from an address on. -/
def lkPutWords : MemSt → Nat → List (Nat × Bool) → MemSt
  | m, _, [] => m
  | m, a, w :: l => lkPutWords (lkStore m a w.1 w.2) (a + 8) l

/-- Poison of the element bytes of block b of a row in the row-scaled layout (R261), and of its scale byte. -/
def rowBlockPoison (p : List Bool) (b : Nat) : Bool :=
  ((p.drop (4 * b)).take 4).any id || p.getD ((992 + b) / 8) false

/-! One NBU. -/

def nbu0 : NbuSt :=
  { acc := [], accPoison := [], operand := [], operandPoison := [], scale := [], blockPoison := [], latch := [],
    latchPoison := [] }

/-- Add a term to an accumulator (R262). -/
def NbuSt.add (n : NbuSt) (i : Nat) (v : Int) (poison : Bool) : NbuSt :=
  { n with acc := tput n.acc i (addWrap (tgetD n.acc i 0) v 32),
           accPoison := if poison && !n.accPoison.contains i then i :: n.accPoison else n.accPoison }

def NbuSt.poisonAt (n : NbuSt) (i : Nat) : NbuSt := n.add i 0 true

/-- The accumulators as a result row, and cleared. -/
def NbuSt.resultRow (n : NbuSt) : List (Nat × Bool) :=
  (List.range 128).map (fun w =>
    (codeOf (tgetD n.acc (2 * w) 0) 32 + 2 ^ 32 * codeOf (tgetD n.acc (2 * w + 1) 0) 32,
     n.accPoison.contains (2 * w) || n.accPoison.contains (2 * w + 1)))

/-- What a transfer leaves: the NBU, the flags of its terms, indices and signs rejected. -/
structure NbuStep where
  n : NbuSt
  flags : Flags
  badIndex : Nat
  badSign : Nat
  deriving DecidableEq, Repr

def nbuStep (n : NbuSt) : NbuStep := { n := n, flags := noFlags, badIndex := 0, badSign := 0 }

/-! GATHER_REDUCE (R272). -/

/-- The bag of an index that adds nothing is poisoned. -/
def badIndexStep (e : Nat) (n : NbuSt) (bag : Nat) : NbuStep :=
  let base := bag % bagsPerRow e * sqE e
  { nbuStep ((List.range (sqE e)).foldl (fun (n : NbuSt) i => n.poisonAt (base + i)) n) with badIndex := 1 }

/-- Add one block of an entry: its elements, its exponent, the poison of both. -/
def gatherBlock (x : NbuStep) (base : Nat) (weight : Int) (els : List Int) (d : Int) (poison : Bool) : NbuStep :=
  (els.zip (List.range els.length)).foldl (fun (x : NbuStep) v =>
    let (t, f) := termOf (weight * v.1) d 32
    { x with n := x.n.add (base + v.2) t poison, flags := if poison then x.flags else flagsOr x.flags f }) x

/-- One index step. -/
def State.indexStep (s : State) (l locker e bag j : Nat) (n : NbuSt) : NbuStep × State :=
  let k := bag * sqBagLen e + j
  let w := leAt n.operand (4 * k) 4
  let per := 992 / sqE e
  let ent := w % 65536
  let row := sqSrcRow e + ent / per
  if n.operandPoison.getD (k / 2) false || bitsAt w 17 7 ≠ 0 || sqSrcRow e + sqRows e ≤ row then (badIndexStep e n bag, s)
  else
    let a := rowAddr l locker (bitAt w 16) row
    let slot := ent % per
    let nb := sqE e / 32
    let b0 := slot * nb
    let words := (List.range (4 * nb)).map (fun i => 4 * b0 + i)
    let scales := ((List.range nb).map (fun i => (992 + b0 + i) / 8)).eraseDups
    let (vs, s) := s.nbuWords ((words ++ scales).map (fun i => a + 8 * i))
    let bytes := (vs.take words.length).flatMap (fun v => leBytes 8 v.1)
    let scaleOf := fun (b : Nat) =>
      let z := vs.getD (words.length + (scales.findIdx (· == (992 + b) / 8))) (0, false)
      (byteInt (BitVec.ofNat 8 (z.1 / 2 ^ (8 * (b % 8)))), z.2)
    let weight := signedOf (w / 2 ^ 24) 8
    let x := (List.range nb).foldl (fun (x : NbuStep) t =>
      let p := ((vs.drop (4 * t)).take 4).any (·.2) || (scaleOf (b0 + t)).2
      gatherBlock x (bag % bagsPerRow e * sqE e + 32 * t) weight (elemsOf fSBI8 (bytes.drop (32 * t)) 32)
        ((scaleOf (b0 + t)).1 - sqEacc e) p) (nbuStep n)
    (x, s)

/-! MATVEC (R273). -/

/-- Operand row i of a MATVEC joins the operand buffer. -/
def matOperand (e i : Nat) (n : NbuSt) (d : List Byte) (p : List Bool) : NbuSt :=
  let k := min 31 (sqB e * sqKb e - 31 * i)
  { n with operand := n.operand ++ d.take (32 * k), scale := n.scale ++ (d.drop 992).take k,
           blockPoison := n.blockPoison ++ (List.range k).map (rowBlockPoison p) }

/-- One weight block against every vector. -/
def matBlock (e k : Nat) (x : NbuStep) (els : List Int) (ew : Int) (poison : Bool) : NbuStep :=
  let o := k / sqKb e
  let c := k % sqKb e
  (List.range (sqB e)).foldl (fun (x : NbuStep) v =>
    let q := v * sqKb e + c
    let p := poison || x.n.blockPoison.getD q false
    let (t, f) := termOf (blockSum els (elemsOf fSBI8 (x.n.operand.drop (32 * q)) 32))
      (ew + byteInt (x.n.scale.getD q 0) - sqEacc e) 32
    { x with n := x.n.add (v * sqN e + o) t p, flags := if p then x.flags else flagsOr x.flags f }) x

/-- A weight row. -/
def matRow (e i : Nat) (n : NbuSt) (d : List Byte) (p : List Bool) : NbuStep :=
  let k := min 31 (sqN e * sqKb e - 31 * i)
  (List.range k).foldl (fun (x : NbuStep) t =>
    matBlock e (31 * i + t) x (elemsOf fSBI8 (d.drop (32 * t)) 32) (byteInt (d.getD (992 + t) 0)) (rowBlockPoison p t))
    (nbuStep n)

/-! SIGN_UPDATE (R274, 11 R306). -/

/-- Sign code of element m of weight row i, from the sign row. -/
def signCode (n : NbuSt) (i m : Nat) : Nat :=
  (n.operand.getD (i % 8 * 128 + m / 4) 0).toNat / 2 ^ (2 * (m % 4)) % 4

/-- The new value of a mantissa, and whether the clamp changed it. -/
def signUpdate (step shift : Nat) (m sign : Int) : Int × Bool :=
  let d := if shift = 0 then 0 else m / 2 ^ shift
  let v := m - step * sign - d
  (clampM v 32767, clampM v 32767 != v)

/-- One 8-byte word of a weight row: 4 elements. -/
def signWord (q : SeqRun) (n : NbuSt) (i w : Nat) (v : Nat × Bool) : (Nat × Bool) × Flags × Nat :=
  if v.2 then (v, noFlags, 0)
  else if n.operandPoison.getD (i % 8 * 16 + w / 8) false then ((v.1, true), noFlags, 0)
  else
    let r := (List.range 4).map (fun j =>
      let m := signedOf (v.1 / 2 ^ (16 * j)) 16
      let c := signCode n i (4 * w + j)
      if c = 2 then (m, false, 1)
      else
        let (y, sat) := signUpdate q.step q.shift m (if c = 1 then 1 else if c = 3 then -1 else 0)
        (y, sat, 0))
    let word := (r.zip (List.range 4)).foldl (fun z x => z + codeOf x.1.1 16 * 2 ^ (16 * x.2)) 0
    ((word, false), { inx := false, ovf := false, sat := r.any (·.2.1) }, r.foldl (fun c x => c + x.2.2) 0)

/-- The read-modify-write of weight row i. -/
def State.signRow (s : State) (l locker : Nat) (q : SeqRun) (i : Nat) (n : NbuSt) : NbuStep × State :=
  let a := rowAddr l locker (sqSrcBank q.entry) (sqSrcRow q.entry + i)
  let (vs, s) := s.nbuWords ((List.range 128).map (fun k => a + 8 * k))
  let r := (vs.zip (List.range 128)).map (fun v => signWord q n i v.2 v.1)
  let x : NbuStep :=
    { n := n, flags := r.foldl (fun f v => flagsOr f v.2.1) noFlags, badIndex := 0, badSign := r.foldl (fun c v => c + v.2.2) 0 }
  (x, { s with mem := lkPutWords s.mem a (r.map (·.1)) })

/-! A transfer of one NBU. -/

def State.nbuXfer (s : State) (l locker : Nat) (q : SeqRun) (n : NbuSt) : NbuStep × State :=
  let e := q.entry
  match xferAt e q.xfer with
  | .operand i =>
    let ((d, p), s) := s.nbuRow (rowAddr l locker (sqOpndBank e) (sqOpndRow e + i))
    let n := { n with latch := d, latchPoison := p }
    if sqOp e = 1 then
      (nbuStep { n with operand := n.operand ++ d, operandPoison := n.operandPoison ++ p }, s)
    else (nbuStep (matOperand e i n d p), s)
  | .index bag j => s.indexStep l locker e bag j n
  | .weight i =>
    let ((d, p), s) := s.nbuRow (rowAddr l locker (sqSrcBank e) (sqSrcRow e + i))
    (matRow e i { n with latch := d, latchPoison := p } d p, s)
  | .sign i =>
    let ((d, p), s) := s.nbuRow (rowAddr l locker (sqOpndBank e) (sqOpndRow e + i))
    (nbuStep { n with operand := d, operandPoison := p }, s)
  | .modify i => s.signRow l locker q i n
  | .pair i =>
    let ((d, p), s) := s.nbuRow (rowAddr l locker (sqSrcBank e) (sqSrcRow e + i))
    let a := rowAddr l locker (sqDstBank e) (sqDstRow e + i)
    let ws := (List.range 128).map (fun k => (leAt d (8 * k) 8, p.getD k false))
    (nbuStep { n with latch := d, latchPoison := p }, { s with mem := lkPutWords s.mem a ws })
  | .fill i =>
    let a := rowAddr l locker (sqDstBank e) (sqDstRow e + i)
    (nbuStep n, { s with mem := lkPutWords s.mem a (List.replicate 128 (sqPattern e, sqPoison e)) })
  | .result i =>
    let a := rowAddr l locker (sqDstBank e) (sqDstRow e + i)
    (nbuStep { n with acc := [], accPoison := [] }, { s with mem := lkPutWords s.mem a n.resultRow })

/-- What an NBU's transfer raises at the tile above it. -/
def State.nbuReport (s : State) (locker : Nat) (x : NbuStep) : State :=
  let r := NBU_STATUS_LT (locker / 64)
  ((s.incF r NBU_STATUS_LT_bad_index x.badIndex).incF r NBU_STATUS_LT_sign_invalid x.badSign).tileFlags (locker / 64) x.flags 10

/-! Sequences (R263, R268, R270). -/

def seqLockers (e : Nat) : List Nat := (List.range (sqLockers e)).map (sqFirst e + ·)

def State.findSeq (s : State) (l p idx : Nat) : Option SeqRun :=
  (s.layer l).seqs.find? (fun q => q.part == p && q.idx == idx)

def State.putSeq (s : State) (l : Nat) (q : SeqRun) : State :=
  s.modLayer l (fun y => { y with seqs := y.seqs.map (fun z => if z.part = q.part && z.idx = q.idx then q else z) })

/-- A sequence's next transfer is due in the present bell; one started from below goes on in the next open bell. -/
def State.seqDue (s : State) (q : SeqRun) : Bool :=
  if q.part = 255 then s.openBell (s.partOfLt (sqFirst q.entry / 64)) && decide (q.bell ≤ s.bellCount)
  else s.working q.part && q.bell == (s.crsOf q.part).lessonBell

/-- The token limits of R263 leave room for an entry's NBUs on a layer. -/
def State.tokensFree (s : State) (l e : Nat) : Bool :=
  decide (s.tokensHeld + sqLockers e ≤ s.getF NBU_TOKEN_LIMIT NBU_TOKEN_LIMIT_limit) &&
  decide ((s.layer l).seqs.foldl (fun n q => n + q.tokens) 0 + sqLockers e ≤ 4096) &&
  (List.range 4).all (fun k => (s.layer k).seqs.all (fun q =>
    decide (sqFirst q.entry + sqLockers q.entry ≤ sqFirst e) || decide (sqFirst e + sqLockers e ≤ sqFirst q.entry)))

/-- A sequence starts: its tokens, its NBUs cleared, the group entry it reads; owner is the command it serves. -/
def State.seqBegin (s : State) (l p idx e bell t : Nat) (owner : Option (Nat × Nat)) : State :=
  let g := if p < 4 then tgetD (s.activeTable p) (sqGroup e) 0 else 0
  let q : SeqRun :=
    { part := p, idx := idx, entry := e, xfer := 0, bell := bell, t := t, step := g % 2 ^ 15, shift := bitsAt g 16 4,
      tokens := sqLockers e, nbus := [], owner := owner }
  let s := s.modLayer l (fun y => { y with seqs := y.seqs ++ [q], last := if p < 4 then some (p, idx) else y.last })
  let s := if p < 4 then (s.setF (NBU_LAYER l) NBU_LAYER_seq idx).setF (NBU_PROGRESS l) NBU_PROGRESS_transfers_done 0 else s
  (s.showSeqs l).showBusy l (sqTiles e)

def State.seqStart (s : State) (l p idx : Nat) : State :=
  let m := tgetD (s.layer l).prog p []
  let e := seqAt m idx
  if idx < lpCount m && s.working p && (s.crsOf p).lessonBell == dStartBell e && !(s.layer l).halted.contains p &&
      (s.findSeq l p idx).isNone && s.tokensFree l e then
    ({ s with cyc := dStartCycle e }).seqBegin l p idx e (dStartBell e) (dStartCycle e / 4 + 8) none
  else s

def execNbuSequenceStart (l part idx : Nat) (s : State) : Host.Outcome State Fault Refusal :=
  live s (if l < 4 && part < 4 then s.seqStart l part idx else s)

/-- Every NBU of a sequence performs the transfer; the first row written is the commit point of the command it serves. -/
def State.runXfer (s : State) (l : Nat) (q : SeqRun) : State :=
  let u := xferCycles q.entry (xferAt q.entry q.xfer)
  let (nbus, s) := (seqLockers q.entry).foldl (fun (x : Tbl NbuSt × State) k =>
    let (y, t) := x.2.nbuXfer l k q (tgetD q.nbus k nbu0)
    (tput x.1 k y.n, t.nbuReport k y)) (([] : Tbl NbuSt), { s with cyc := 4 * q.t })
  let s := s.putSeq l { q with xfer := q.xfer + 1, t := q.t + u, nbus := nbus }
  let p := if q.part < 4 then q.part else s.partOfLt (sqFirst q.entry / 64)
  let s := s.perfAdd p 4 1
  let s := match q.owner.bind (fun o => s.findTag o.1 o.2) with
    | some c => s.putCmd c { c with phase := .committed }
    | none => s
  if (s.layer l).last = some (q.part, q.idx) then s.incF (NBU_PROGRESS l) NBU_PROGRESS_transfers_done 1 else s

/-- The next transfer runs, or the sequence suspends to the next bell where it would not close in time. -/
def State.xferNext (s : State) (l : Nat) (q : SeqRun) : State :=
  let q := if q.part = 255 && q.bell < s.bellCount then { q with bell := s.bellCount, t := 8 } else q
  if xferCount q.entry ≤ q.xfer then s
  else if 944 < q.t + xferCycles q.entry (xferAt q.entry q.xfer) + 4 then
    s.putSeq l { q with bell := q.bell + 1, t := 8 }
  else if s.seqDue q then s.runXfer l q else s

def execNbuTransfer (l part idx : Nat) (s : State) : Host.Outcome State Fault Refusal :=
  live s (match s.findSeq l part idx with
    | some q => s.xferNext l q
    | none => s)

/-- The transfers of a sequence that fall in the present bell, at most k. -/
def seqRunBell : Nat → State → Nat → Nat → Nat → State
  | 0, s, _, _, _ => s
  | k + 1, s, l, p, idx =>
    match s.findSeq l p idx with
    | some q => if q.xfer < xferCount q.entry && s.seqDue q then seqRunBell k (s.xferNext l q) l p idx else s
    | none => s

/-- A sequence of an operation works through the transfers of the bell. -/
def State.seqWork (s : State) (l p idx op : Nat) : State :=
  match s.findSeq l p idx with
  | some q => if sqOp q.entry = op then seqRunBell 118 s l p idx else s
  | none => s

def execNbuGatherReduce (l part idx : Nat) (s : State) : Host.Outcome State Fault Refusal := live s (s.seqWork l part idx 1)
def execNbuMatvec (l part idx : Nat) (s : State) : Host.Outcome State Fault Refusal := live s (s.seqWork l part idx 2)
def execNbuSignUpdate (l part idx : Nat) (s : State) : Host.Outcome State Fault Refusal := live s (s.seqWork l part idx 3)
def execNbuSeqCopy (l part idx : Nat) (s : State) : Host.Outcome State Fault Refusal := live s (s.seqWork l part idx 4)
def execNbuSeqFill (l part idx : Nat) (s : State) : Host.Outcome State Fault Refusal := live s (s.seqWork l part idx 5)

/-! Commands from below (R278). -/

def nlSub (w : Nat) : Nat := bitsAt w 7 4

/-- The sequence entry that an NBU locker command stands for: one locker, COPY or FILL with zero. -/
def belowEntry (locker w : Nat) : Nat :=
  nlSub w + 2 ^ 32 * locker +
  2 ^ 64 * (bitAt w 6 + 2 * bitsAt w 11 11 + 2 ^ 12 * bitsAt w 22 5 + 2 ^ 23 * bitAt w 39 + 2 ^ 24 * bitsAt w 28 11)

/-- The rows of an entry stay within their banks: an NBU serves its own two banks (R260). -/
def entryRowsGood (e : Nat) : Bool :=
  (sqOp e != 4 || decide (sqSrcRow e + sqRows e ≤ 2048)) && decide (sqDstRow e + sqRows e ≤ 2048)

/-- A column controller receives an NBU command: from above, or with a parity error, it is discarded and counted, and the first
parity error is recorded (08 R245). One with an invalid field, rows past the last row of a bank among them, is discarded too
(DESIGN CHOICE, log entry 21: the rule gives it no effect). -/
def State.nbuCommand (s : State) (locker w : Nat) : State :=
  let l := lcLayer w
  if !s.present (locker / 64) || lcCmd w ≠ 8 then s
  else if !lcParity w then (s.incF (MEM_CHAN l) MEM_CHAN_cmd_parity 1).memFaultAt l (locker * 0x1000000) 2
  else if lcSide w = 0 then s.incF (MEM_CHAN l) MEM_CHAN_cmd_parity 1
  else
    let e := belowEntry locker w
    if (nlSub w = 4 || nlSub w = 5) && bitsAt w 40 7 = 0 && entryRowsGood e && s.openBell (s.partOfLt (locker / 64)) &&
        s.tokensFree l e then s.seqBegin l 255 locker e s.bellCount (ceilDiv s.cyc 4 + 8) none
    else s

def execLockerNbuCommand (locker w : Nat) (s : State) : Host.Outcome State Fault Refusal := live s (s.nbuCommand locker w)

/-! NBU_FILL and NBU_COPY (R278, 14 R385): the control complex has the NBUs carry out rows of every locker named. -/

def nfLockers (k : Packet) : List Nat := (List.range (bitsAt k.p0 14 14 + 1)).map (bitsAt k.p0 0 14 + ·)
def nfLayer (k : Packet) : Nat := bitsAt k.p0 28 2
def nfBank (k : Packet) : Nat := bitsAt k.p0 30 1
def nfRow (k : Packet) : Nat := bitsAt k.p1 0 11
def nfRows (k : Packet) : Nat := bitsAt k.p1 16 11 + 1

/-- Why the rows of the lockers cannot be taken: bank and first row, written or read. -/
def State.nfRefuse (s : State) (k : Packet) (bank row : Nat) (write : Bool) : Option Nat :=
  (nfLockers k).findSome? (fun x => s.svcRefuse (rowAddr (nfLayer k) x bank row) (1024 * nfRows k) write)

/-- Checks of both commands: the partition's lockers, an open bell, the rows. -/
def State.nfCheck (s : State) (c : Cmd) (dstBank : Nat) (src : Option (Nat × Nat)) : Option Nat :=
  if (nfLockers c.pkt).any (fun x => s.partOfLt (x / 64) != c.part) then some stWRONG_PARTITION
  else if !s.openBell c.part then some stCOURSE_BUSY
  else match src.bind (fun x => s.nfRefuse c.pkt x.1 x.2 false) with
    | some e => some e
    | none => s.nfRefuse c.pkt dstBank (nfRow c.pkt) true

/-- The entry of one locker for a whole command. -/
def nfEntry (k : Packet) (locker : Nat) : Nat :=
  let copy := k.opcode == opNBU_COPY
  (if copy then 4 else 5) + 2 ^ 32 * locker +
  2 ^ 64 * (nfBank k + 2 * (if copy then bitsAt k.p1 27 11 else 0) + 2 ^ 12 * (nfRows k - 1) +
    2 ^ 23 * (if copy then bitsAt k.p1 38 1 else nfBank k) + 2 ^ 24 * nfRow k)

/-- NBUs of a command start in ascending order of locker while the limits of R263 leave tokens; the answer counts them. -/
def nfStart (c : Cmd) : State → List Nat → Nat → Nat × State
  | s, [], n => (n, s)
  | s, x :: l, n =>
    let e := nfEntry c.pkt x
    if s.tokensFree (nfLayer c.pkt) e then
      nfStart c (s.seqBegin (nfLayer c.pkt) 255 x e s.bellCount (ceilDiv s.cyc 4 + 8) (some (c.ring, c.pkt.tag))) l (n + 1)
    else (n, s)

/-- A command's working values: NBUs started, NBUs that have ended. -/
def nfStarted (c : Cmd) : Nat := c.data.headD 0
def nfEnded (c : Cmd) : Nat := c.data.getD 1 0

/-- More NBUs of a command start in an open bell; with every NBU ended it completes with the bytes of all rows. -/
def State.nfGo (s : State) (c : Cmd) : State :=
  let ks := nfLockers c.pkt
  if ks.length ≤ nfEnded c then
    let n := 1024 * nfRows c.pkt * ks.length
    (s.countMoved c n).ok c n
  else if !s.openBell c.part then s
  else
    let (n, s) := nfStart c s (ks.drop (nfStarted c)) 0
    s.putCmd c { c with data := [nfStarted c + n, nfEnded c] }

/-- NBU commands that have NBUs still to start. -/
def State.nfWaiting (s : State) : List Cmd :=
  s.cmds.filter (fun c => (c.pkt.opcode == opNBU_FILL || c.pkt.opcode == opNBU_COPY) && c.phase != .accepted)

/-- The rows close after the last transfer, and the tokens are free; NBU commands that wait for tokens go on. -/
def State.seqEnd (s : State) (l p idx : Nat) : State :=
  match s.findSeq l p idx with
  | some q =>
    if q.xfer < xferCount q.entry then s
    else
      let s := s.dropSeqs l (fun z => z.part == p && z.idx == idx)
      let s := match q.owner.bind (fun o => s.findTag o.1 o.2) with
        | some c => s.putCmd c { c with data := [nfStarted c, nfEnded c + 1] }
        | none => s
      forEach s.nfWaiting s State.nfGo
  | none => s

def execNbuSequenceEnd (l part idx : Nat) (s : State) : Host.Outcome State Fault Refusal := live s (s.seqEnd l part idx)

/-- A command that passes its checks is under way: its NBUs start. A later command of the same row goes on with those that no token
was free for. -/
def State.nfTake (s : State) (c : Cmd) (refused : Option Nat) : State :=
  if c.phase ≠ .accepted then s.nfGo c
  else if s.switchWait c then s
  else match refused with
    | some e => s.fail c e
    | none =>
      let c' := { c with phase := .active, data := [0, 0] }
      (s.putCmd c c').nfGo c'

def State.nbuFill (s : State) (c : Cmd) : State := s.nfTake c (s.nfCheck c (nfBank c.pkt) none)

def execCmdNbuFill (ring tag : Nat) (s : State) : Host.Outcome State Fault Refusal :=
  live s (s.onActive ring tag opNBU_FILL State.nbuFill)

/-- Source and destination rows of a copy must not overlap (14 R386). -/
def nfOverlap (k : Packet) : Bool :=
  bitsAt k.p1 38 1 == nfBank k && overlaps (bitsAt k.p1 27 11) (nfRows k) (nfRow k) (nfRows k)

def State.nbuCopy (s : State) (c : Cmd) : State :=
  if nfOverlap c.pkt then s.badParam c 1 27
  else s.nfTake c (s.nfCheck c (bitsAt c.pkt.p1 38 1) (some (nfBank c.pkt, bitsAt c.pkt.p1 27 11)))

def execCmdNbuCopy (ring tag : Nat) (s : State) : Host.Outcome State Fault Refusal :=
  live s (s.onActive ring tag opNBU_COPY State.nbuCopy)

end Sys2Proof.Machine
end

