-- ==== Sys2Proof/Machine/Checks.lean ====
section
/-! DEFINITION. The form of the programs of a timetable image as COURSE_LOAD checks it: tile, layer, port and
control-complex programs (04 R126-R132, 05 R160-R163, 06 R185-R198, 09 R268-R271, 12 R339-R341, 14 R394). -/

namespace Sys2Proof.Machine

/-! Lists of entries. -/

/-- No two elements, in order, satisfy a test. -/
def noPair {α : Type} (f : α → α → Bool) : List α → Bool
  | [] => true
  | x :: l => !l.any (f x) && noPair f l

/-- Start of a descriptor on the lesson's time line: 4,096 cycles to a bell. -/
def startOf (d : Nat) : Nat := 4096 * dStartBell d + dStartCycle d

/-- Entries ascend in (start_bell, start_cycle). -/
def ascending : List Nat → Bool
  | a :: b :: l => decide (a ≤ b) && ascending (b :: l)
  | _ => true

/-- The descriptors of a list in a program. -/
def descList (t : List Byte) (off n : Nat) : List Nat := (List.range n).map (descAt t off)

def zeroBytes (t : List Byte) (off n : Nat) : Bool := (bytesFrom t off n).all (· == 0)

/-- A list of n entries of a size lies within a program at a multiple of 32. -/
def listFits (t : List Byte) (off n size : Nat) : Bool := off % 32 == 0 && decide (off + size * n ≤ t.length)

/-- start_cycle and start_bell of an engine descriptor lie in the lesson. -/
def startGood (bells d : Nat) : Bool := decide (dStartCycle d ≤ 3775) && decide (dStartBell d < bells)

/-- A run of rows lies within the tile buffer. -/
def rowsFit (a rows stride n : Nat) : Bool := decide (a + (rows - 1) * stride + n ≤ 0x400000)

/-! MXE descriptors (04 R126-R130). -/

/-- Pairs of formats the MXE accepts (04 R118, R134). -/
def pairGood (w a : Nat) : Bool := (decide (w ≤ 3) && a == 2) || ((w == 2 || w == 3) && a == 3)

def loadGood (d : Nat) : Bool :=
  let n := fmtBytes (ldFmt d) (kRow (ldFmt d) (ldFold d))
  let cols := 128 / foldOf (ldFold d)
  let k := kRow (ldFmt d) (ldFold d)
  ldFmt d ≤ 3 && ldFold d ≤ 2 && (ldFold d == 0 || ldFmt d == 2) && dBits d 0 37 27 == 0 && dBits d 1 44 20 == 0 &&
  dBits d 2 32 32 == 0 && dBits d 3 0 64 == 0 && ldAddr d % 64 == 0 && ldStride d % 64 == 0 && n ≤ ldStride d &&
  k / 32 ≤ ldScaleStride d && rowsFit (ldAddr d) cols (ldStride d) n && rowsFit (ldScaleAddr d) cols (ldScaleStride d) (k / 32) &&
  dStartCycle d + loadCycles (ldFmt d) ≤ 3776

/-- A PASS apart from its plane. -/
def passGood (d : Nat) : Bool :=
  (psFmt d == 2 || psFmt d == 3) && (psAcc d == 0 || dBits d 0 38 10 == 0) && dBits d 0 48 16 == 0 && psAddr d % 64 == 0 &&
  dBits d 1 55 9 == 0 && psStride d % 64 == 0 && psRow0 d + psRows d ≤ 2048 && dBits d 2 43 21 == 0 && dBits d 3 0 64 == 0

/-- Contraction of a PASS on a plane of a format and fold. -/
def descK (d : Nat) (w : Nat × Nat) : Nat := if psAxis d = 1 then 128 else kRow w.1 w.2

/-- A PASS on a plane: formats, fold, axis, its rows within the buffer, its end within the window. -/
def passOn (d : Nat) (w : Nat × Nat) : Bool :=
  let k := descK d w
  let n := fmtBytes (psFmt d) k
  let p := passP w.1 (psFmt d)
  pairGood w.1 (psFmt d) && (w.2 == 0 || (psFmt d == 2 && psAxis d == 0)) && (psAxis d == 0 || (2 ≤ w.1 && w.2 == 0)) &&
  n ≤ psStride d && rowsFit (psAddr d) (psRows d) (psStride d) n &&
  rowsFit (psScaleAddr d) (psRows d) (psScaleStride d) (k / 32) &&
  dStartCycle d + (psRows d - 1) * p + passDepth p ≤ 3775

def sendGood (d : Nat) : Bool :=
  dBits d 0 41 23 == 0 && dBits d 1 22 42 == 0 && dBits d 2 0 64 == 0 && dBits d 3 0 64 == 0 && sdRow0 d + sdRows d ≤ 2048 &&
  dStartCycle d + 6 * sdRows d ≤ 3776

def mergeGood (d : Nat) : Bool :=
  sendGood d && dBits d 0 40 1 == 0 && dStartCycle d + 6 * (sdRows d - 1) + 7 ≤ 3775

/-- The plane that an unfilled plane's PASS is taken to use (log entry 22). -/
def plainPlane : Nat × Nat := (2, 0)

/-- Fields of one MXE descriptor; a PASS with each plane it may meet. -/
def mxeGood (bells : Nat) (planes : List (Option (Nat × Nat))) (d : Nat) : Bool :=
  startGood bells d &&
  (match mdOp d with
   | 1 => loadGood d
   | 2 => passGood d && planes.all (fun w => passOn d (w.getD plainPlane))
   | 3 => sendGood d
   | 4 => mergeGood d
   | _ => false)

/-- Last cycle in which a descriptor's own issue works, on the lesson's time line; p is a PASS's cycles per row. -/
def mxeEnd (d p : Nat) : Nat :=
  startOf d + (match mdOp d with
    | 1 => loadCycles (ldFmt d)
    | 2 => psRows d * p
    | _ => 6 * sdRows d) - 1

/-! The planes that a PASS meets (04 R121, R122, R130). -/

/-- Formats and folds of the active and shadow planes; none while unfilled. -/
structure PlaneWalk where
  active : Option (Nat × Nat)
  shadow : Option (Nat × Nat)
  /-- Planes met: lesson, descriptor, plane. -/
  met : List (Nat × Nat × Option (Nat × Nat))
  deriving DecidableEq, Repr

/-- Walk a tile program's MXE descriptors in order. -/
def walkProgram (lesson : Nat) (t : List Byte) (w : PlaneWalk) : PlaneWalk :=
  (List.range (tpMxeCount t)).foldl (fun (w : PlaneWalk) i =>
    let d := descAt t (tpMxeOffset t) i
    match mdOp d with
    | 1 => { w with shadow := some (ldFmt d, ldFold d) }
    | 2 =>
      let w := if psSwap d = 1 then { w with active := w.shadow, shadow := w.active } else w
      { w with met := (lesson, i, w.active) :: w.met }
    | _ => w) w

/-- Walk lessons a to b, b excluded, of a tile. -/
def walkLessons (m : List Byte) (lt a b : Nat) (w : PlaneWalk) : PlaneWalk :=
  (List.range (b - a)).foldl (fun w i => walkProgram (a + i) (programOf m (a + i) lt) w) w

/-- Passes of the loop range that can differ for the planes: a pass of it only moves and overwrites two planes. -/
def walkPasses (m : List Byte) : Nat := if hdLoopCount m = 0 then 4 else min 4 (hdLoopCount m)

/-- The planes met on every path: the loop range some times, and the tail after each. -/
def walkLoop (m : List Byte) (lt : Nat) : Nat → PlaneWalk → PlaneWalk
  | 0, w => w
  | k + 1, w =>
    let w := walkLessons m lt (hdLoopFirst m) (hdLoopLast m + 1) w
    let tail := walkLessons m lt (hdLoopLast m + 1) (hdLessonCount m) w
    walkLoop m lt k { w with met := tail.met }

def planesMet (m : List Byte) (lt : Nat) : List (Nat × Nat × Option (Nat × Nat)) :=
  (walkLoop m lt (walkPasses m) (walkLessons m lt 0 (hdLoopFirst m) { active := none, shadow := none, met := [] })).met.eraseDups

/-- Planes that PASS i of a lesson meets. -/
def planesOf (met : List (Nat × Nat × Option (Nat × Nat))) (lesson i : Nat) : List (Option (Nat × Nat)) :=
  (met.filter (fun x => x.1 == lesson && x.2.1 == i)).map (·.2.2)

/-- An MXE descriptor, by its place in the list, with one plane it may meet. -/
structure MxeUse where
  idx : Nat
  d : Nat
  plane : Nat × Nat
  deriving DecidableEq, Repr

def MxeUse.p (u : MxeUse) : Nat := if mdOp u.d = 2 then passP u.plane.1 (psFmt u.d) else 1

/-- The MXE descriptors of a tile in a lesson, one element for each plane a PASS may meet. -/
def mxeUses (m : List Byte) (met : List (Nat × Nat × Option (Nat × Nat))) (lesson lt : Nat) : List MxeUse :=
  let t := programOf m lesson lt
  (List.range (tpMxeCount t)).flatMap (fun i =>
    let d := descAt t (tpMxeOffset t) i
    if mdOp d = 2 then ((planesOf met lesson i).map (fun w => ({ idx := i, d := d, plane := w.getD plainPlane } : MxeUse))).eraseDups
    else [{ idx := i, d := d, plane := plainPlane }])

/-- Descriptors of one op overlap in time. -/
def mxeOverlap (x y : MxeUse) : Bool :=
  mdOp x.d == mdOp y.d && x.idx != y.idx && decide (startOf x.d ≤ mxeEnd y.d y.p) && decide (startOf y.d ≤ mxeEnd x.d x.p)

/-- Orderings of R121 between a LOAD and a PASS that swaps. -/
def planeOrder (x y : MxeUse) : Bool :=
  let bad := fun (l p : MxeUse) => mdOp l.d == 1 && mdOp p.d == 2 && psSwap p.d == 1 &&
    ((decide (startOf l.d ≤ startOf p.d) && decide (startOf p.d ≤ mxeEnd l.d l.p)) ||
     (decide (startOf p.d ≤ startOf l.d) && decide (startOf l.d < startOf p.d + 8)))
  bad x y || bad y x

/-- Cycles in which a descriptor uses the accumulator's update port. -/
def updateTimes (u : MxeUse) : List Nat :=
  match mdOp u.d with
  | 2 => (List.range (psRows u.d)).map (fun r => startOf u.d + r * u.p + passDepth u.p)
  | 4 => (List.range (sdRows u.d)).map (fun r => startOf u.d + 6 * r + 7)
  | _ => []

def updateClash (x y : MxeUse) : Bool := x.idx != y.idx && (updateTimes x).any (updateTimes y).contains

def mxeOrder (l : List MxeUse) : Bool := noPair (fun x y => mxeOverlap x y || planeOrder x y || updateClash x y) l

/-- A SEND has its MERGE on the destination tile (04 R130, R138). -/
def mergeFound (m : List Byte) (lesson lt d : Nat) : Bool :=
  let t := programOf m lesson (sdDest d)
  (descList t (tpMxeOffset t) (tpMxeCount t)).any (fun e =>
    mdOp e == 4 && sdDest e == lt && sdRows e == sdRows d && dStartBell e == dStartBell d &&
    dStartCycle e == dStartCycle d + routeL lt (sdDest d))

/-! VE descriptors (05 R160, R163). -/

def veGood (bells d : Nat) : Bool :=
  startGood bells d && dBits d 2 0 64 == 0 && dBits d 3 0 64 == 0 &&
  (match mdOp d with
   | 1 =>
     dBits d 0 50 14 == 0 && runIters d ≤ 3772 && dBits d 1 44 20 == 0 && runSlate d % 64 == 0 && runBlock d % 64 == 0 &&
     runSlate d + 8 * runN d ≤ 0x400000 && runBlock d + 128 ≤ 0x400000 &&
     dStartCycle d + 4 + runIters d * runN d - 1 + 12 ≤ 3775
   | 2 =>
     dBits d 0 35 29 == 0 && dBits d 1 22 42 == 0 && dBits d 1 0 22 % 64 == 0 && dBits d 1 0 22 + 1040 ≤ 0x400000 &&
     dStartCycle d + 2 ≤ 3775
   | 3 =>
     dBits d 0 51 13 == 0 && dBits d 1 44 20 == 0 && dBits d 0 33 9 + dBits d 0 42 9 ≤ 511 && dBits d 1 0 22 % 64 == 0 &&
     dBits d 1 0 22 + 512 * (dBits d 0 42 9 + 1) ≤ 0x400000 && dBits d 1 22 22 + 32 * (dBits d 0 42 9 + 1) ≤ 0x400000 &&
     dStartCycle d + dBits d 0 42 9 ≤ 3775
   | _ => false)

/-- Last cycle of a VE descriptor on the lesson's time line. -/
def veEnd (d : Nat) : Nat :=
  startOf d + (match mdOp d with
    | 1 => 4 + runIters d * runN d
    | 2 => 3
    | _ => dBits d 0 42 9 + 1) - 1

def veOverlap (x y : Nat) : Bool := decide (startOf x ≤ veEnd y) && decide (startOf y ≤ veEnd x)

/-! Mover entries (06 R194-R198). -/

/-- Longest delivery of a path after its last beat. -/
def State.pathLatency (s : State) (lt : Nat) (p : MovPath) (k : CopyRun) : Nat :=
  match p with
  | .mesh => ((s.meshTargets lt (addrTile k.dst) k.mc).map (routeL lt)).foldl max 0
  | .fromLk8 | .fromLocker => 64
  | .toLk8 | .toLocker => 40
  | .own | .toLocal | .fromLocal => 0

/-- Ranges of tile buffers that a static COPY writes: tile, offset, bytes. -/
def State.copyTargets (s : State) (lt c : Nat) (k : CopyRun) : List (Nat × Nat × Nat) :=
  let tiles := match pathOf lt c k with
    | some .mesh => s.meshTargets lt (addrTile k.dst) k.mc
    | some .own | some .fromLk8 | some .fromLocker | some .fromLocal => [lt]
    | some .toLk8 | some .toLocker | some .toLocal => []
    | none => []
  tiles.flatMap (fun t => (List.range k.rows).map (fun r => (t, unitOffset k.dst + r * k.dstStride, k.rowBytes)))

/-- A range of a tile buffer meets the page area or the tile shadow (10 R287, 11 R312). -/
def State.areaRange (s : State) (off n : Nat) : Bool :=
  (List.range n).any (fun i => s.areaOffset (off + i) || s.shadowOffset (off + i))

/-- A static COPY entry. -/
def State.copyEntryGood (s : State) (lt d : Nat) : Bool :=
  let c := mvChannel d
  let k := copyOf d (dStartCycle d)
  copyGood d && copyForm lt c k && !s.meshRefused lt k && !s.nowhere k.src false && !s.nowhere k.dst true &&
  (match pathOf lt c k with
   | some p => decide (dStartCycle d + copyBeats p k - 1 + s.pathLatency lt p k ≤ 3775)
   | none => false) &&
  !(s.copyTargets lt c k).any (fun x => s.areaRange x.2.1 x.2.2)

/-- A static INDIRECT entry. -/
def indirectGood (d : Nat) : Bool :=
  dBits d 0 35 29 == 0 && dBits d 1 34 30 == 0 && dBits d 2 12 52 == 0 && dBits d 3 0 64 == 0 && inList d % 32 == 0 &&
  1 ≤ inCycles d && inCycles d ≤ 3776 && inList d + 32 * inCount d ≤ 0x400000 && dStartCycle d + inCycles d + 72 ≤ 3775

def State.moverGood (s : State) (bells lt d : Nat) : Bool :=
  startGood bells d && (match dBits d 0 0 4 with
    | 1 => s.copyEntryGood lt d
    | 2 => indirectGood d
    | _ => false)

/-- Last cycle in which an entry holds its channel. -/
def moverEnd (lt d : Nat) : Nat :=
  startOf d + (if dBits d 0 0 4 = 2 then inCycles d
    else match pathOf lt (mvChannel d) (copyOf d 0) with
      | some p => copyBeats p (copyOf d 0)
      | none => 1) - 1

def moverOverlap (lt x y : Nat) : Bool :=
  mvChannel x == mvChannel y && decide (startOf x ≤ moverEnd lt y) && decide (startOf y ≤ moverEnd lt x)

/-! The translation job (10 R294, R295). The plan that gives P lies in the tile buffer, not in the image: the check takes the
least P, so it refuses a course only where every plan fails (log entry 22). -/

/-- Entries that the job of a lesson treats: those of the roster of the lesson that follows, at most; none where no lesson follows. -/
def jobCapacity (m : List Byte) (lesson : Nat) : Option Nat :=
  if after m lesson = [] then none else some (((after m lesson).map (lsCapacity m)).foldl max 0)

/-- First and last cycle of the job on the lesson's time line, counted in lesson-window cycles. -/
def jobSpan (t : List Byte) (capacity : Nat) : Nat × Nat :=
  let j0 := tpRosterCycle t + ceilDiv (32 + 16 * capacity) 128 + 64
  let j1 := j0 + capacity * (4 + 2 + ceilDiv 20 128) + 16
  let lesson := fun (j : Nat) => 4096 * (j / 3776) + j % 3776
  (lesson j0, lesson (j1 - 1))

def jobOverlap (t : List Byte) (lt capacity d : Nat) : Bool :=
  mvChannel d == 7 && decide (startOf d ≤ (jobSpan t capacity).2) && decide ((jobSpan t capacity).1 ≤ moverEnd lt d)

/-! Tasks (06 R189). -/

def taskGood (t : List Byte) (bells i : Nat) : Bool :=
  tkAt t i 0 1 < 64 && tkAt t i 1 1 == 0 && tkAt t i 2 2 < bells && tkAt t i 4 2 % 2 == 0 && tkAt t i 4 2 ≤ 3772 &&
  tkAt t i 6 2 % 2 == 0 && tkAt t i 4 2 < tkAt t i 6 2 && tkAt t i 6 2 ≤ 3774 && tkAt t i 8 4 % 4 == 0 &&
  0x1000 ≤ tkAt t i 8 4 && tkAt t i 8 4 ≤ 0x7FFC

def taskStartOf (t : List Byte) (i : Nat) : Nat := 4096 * tkAt t i 2 2 + tkAt t i 4 2

def taskOverlap (t : List Byte) (i j : Nat) : Bool :=
  tkAt t i 0 1 == tkAt t j 0 1 && tkAt t i 2 2 == tkAt t j 2 2 && decide (tkAt t i 4 2 ≤ tkAt t j 6 2) &&
  decide (tkAt t j 4 2 ≤ tkAt t i 6 2)

/-! Tile programs (06 R185, R188, R191). -/

/-- The local image: 64 entries and their data within the image region. -/
def imageGood (t : List Byte) : Bool :=
  let o := tpImageOffset t
  let z := o + tpImageSize t
  o % 32 == 0 && 512 ≤ tpImageSize t && z ≤ t.length &&
  (List.range 64).all (fun c =>
    let off := leAt t (o + 8 * c) 4
    let n := leAt t (o + 8 * c + 4) 4
    n == 0 || (n ≤ 28672 && n % 4 == 0 && o + 512 ≤ off && off + n ≤ z))

def tileHeaderGood (lesson : Nat) (t : List Byte) : Bool :=
  64 ≤ t.length && leAt t 0 4 == 0x4C545047 && leAt t 4 2 == 1 && leAt t 6 2 < 2 && (!tpHasImage t || lesson == 0) &&
  (tpHasImage t || tpImageSize t == 0) && t.length ≤ 32768 + tpImageSize t && tpMxeCount t ≤ 4096 && tpVeCount t ≤ 4096 &&
  tpMovCount t ≤ 4096 && tpTaskCount t ≤ 4096 && listFits t (tpMxeOffset t) (tpMxeCount t) 32 &&
  listFits t (tpVeOffset t) (tpVeCount t) 32 && listFits t (tpMovOffset t) (tpMovCount t) 32 &&
  listFits t (tpTaskOffset t) (tpTaskCount t) 16 && tpImageOffset t % 32 == 0 && (!tpHasImage t || imageGood t) && tpRosterAddr t % 64 == 0 &&
  bitsAt (leAt t 0x28 4) 22 9 == 0 && (!tpRosterValid t || 64 ≤ tpRosterAddr t) && tpRosterCycle t ≤ 3775 &&
  zeroBytes t 0x2E 18

def mxeDescs (t : List Byte) : List Nat := descList t (tpMxeOffset t) (tpMxeCount t)
def veDescs (t : List Byte) : List Nat := descList t (tpVeOffset t) (tpVeCount t)
def movDescs (t : List Byte) : List Nat := descList t (tpMovOffset t) (tpMovCount t)

/-- A CACHE drain writes the page area or the shadow. -/
def State.drainArea (s : State) (d : Nat) : Bool :=
  mdOp d == 3 && dBits d 0 32 1 == 1 &&
  (s.areaRange (dBits d 1 0 22) (512 * (dBits d 0 42 9 + 1)) || s.areaRange (dBits d 1 22 22) (32 * (dBits d 0 42 9 + 1)))

/-- The program of a tile in a lesson, apart from what it shares with other programs. -/
def State.tileGood (s : State) (m : List Byte) (met : List (Nat × Nat × Option (Nat × Nat))) (lesson lt : Nat) : Bool :=
  let t := programOf m lesson lt
  let bells := lsBells m lesson
  let tasks := List.range (tpTaskCount t)
  tileHeaderGood lesson t &&
  ascending ((mxeDescs t).map startOf) && ascending ((veDescs t).map startOf) && ascending ((movDescs t).map startOf) &&
  ascending (tasks.map (taskStartOf t)) &&
  (List.range (tpMxeCount t)).all (fun i => mxeGood bells (planesOf met lesson i) (descAt t (tpMxeOffset t) i)) &&
  mxeOrder (mxeUses m met lesson lt) && (mxeDescs t).all (fun d => mdOp d != 3 || mergeFound m lesson lt d) &&
  (veDescs t).all (veGood bells) && noPair veOverlap (veDescs t) && !(veDescs t).any s.drainArea &&
  (movDescs t).all (s.moverGood bells lt) && noPair (moverOverlap lt) (movDescs t) &&
  (jobCapacity m lesson).all (fun k => !tpRosterValid t || !(movDescs t).any (jobOverlap t lt k)) &&
  tasks.all (taskGood t bells) && noPair (taskOverlap t) tasks

/-! Layer programs (08 R254, 09 R268-R271). -/

/-- Bell and MEM cycle after the last transfer of a sequence (09 R270). -/
def seqClose (e : Nat) : Nat × Nat :=
  (List.range (xferCount e)).foldl (fun (x : Nat × Nat) i =>
    let u := xferCycles e (xferAt e i)
    if 944 < x.2 + u + 4 then (x.1 + 1, 8 + u) else (x.1, x.2 + u)) (dStartBell e, dStartCycle e / 4 + 8)

/-- First and last MEM cycle of a sequence on the lesson's time line, 1,024 to a bell. -/
def seqSpan (e : Nat) : Nat × Nat :=
  (1024 * dStartBell e + dStartCycle e / 4, 1024 * (seqClose e).1 + (seqClose e).2 + 3)

def seqsMeet (x y : Nat) : Bool := decide ((seqSpan x).1 ≤ (seqSpan y).2) && decide ((seqSpan y).1 ≤ (seqSpan x).2)

def lockersMeet (x y : Nat) : Bool :=
  decide (sqFirst x < sqFirst y + sqLockers y) && decide (sqFirst y < sqFirst x + sqLockers x)

/-- Rows from one on end within the bank. -/
def rowsIn (row n : Nat) : Bool := decide (row + n ≤ 2048)

/-- Fields of an entry by op, reserved bits included. -/
def seqFields (e : Nat) : Bool :=
  dBits e 0 60 4 == 0 && dBits e 1 47 17 == 0 &&
  (match sqOp e with
   | 1 =>
     dBits e 2 30 34 == 0 && dBits e 3 0 64 == 0 && sqSrcBank e == 0 && sqBags e * sqBagLen e ≤ 1024 &&
     rowsIn (sqSrcRow e) (sqRows e) && rowsIn (sqOpndRow e) (indexRows e) && rowsIn (sqDstRow e) (ceilDiv (sqBags e) (bagsPerRow e))
   | 2 =>
     dBits e 2 10 2 ≤ 2 && dBits e 2 27 37 == 0 && dBits e 3 0 64 == 0 && sqB e * sqKb e ≤ 128 && sqN e * sqB e ≤ 256 &&
     sqRows e == ceilDiv (sqN e * sqKb e) 31 && rowsIn (sqSrcRow e) (sqRows e) && rowsIn (sqOpndRow e) (operandRows e) &&
     rowsIn (sqDstRow e) 1
   | 3 =>
     dBits e 2 12 52 == 0 && dBits e 3 0 64 == 0 && rowsIn (sqSrcRow e) (sqRows e) && rowsIn (sqOpndRow e) (ceilDiv (sqRows e) 8)
   | 4 => dBits e 2 0 64 == 0 && dBits e 3 0 64 == 0 && rowsIn (sqSrcRow e) (sqRows e) && rowsIn (sqDstRow e) (sqRows e)
   | 5 => dBits e 3 1 63 == 0 && rowsIn (sqDstRow e) (sqRows e)
   | _ => false)

/-- An entry: its fields, its lockers' tiles required and the partition's, its close within the lesson. -/
def State.seqGood (s : State) (m : List Byte) (p lesson e : Nat) : Bool :=
  seqFields e && dStartCycle e % 4 == 0 && dStartCycle e ≤ 3772 && dStartBell e < lsBells m lesson &&
  sqFirst e + sqLockers e ≤ 16384 &&
  (((seqLockers e).map (· / 64)).eraseDups).all (fun lt => bitSet (hdRequired m) lt && s.partOfLt lt == p) &&
  (seqClose e).1 < lsBells m lesson

def layerSeqs (m : List Byte) (lesson l : Nat) : List Nat :=
  let t := programOf m lesson (256 + l)
  descList t (lpOffset t) (lpCount t)

def State.layerGood (s : State) (m : List Byte) (p lesson l : Nat) : Bool :=
  let t := programOf m lesson (256 + l)
  let es := layerSeqs m lesson l
  t == [] ||
  (16 ≤ t.length && leAt t 0 4 == 0x4D4C5047 && leAt t 4 2 == 1 && lpCount t ≤ 1024 && listFits t (lpOffset t) (lpCount t) 32 &&
   zeroBytes t 0xC 4 && ascending (es.map startOf) && es.all (s.seqGood m p lesson) &&
   noPair (fun x y => lockersMeet x y && seqsMeet x y) es)

/-- Every sequence of a lesson, with its layer. -/
def lessonSeqs (m : List Byte) (lesson : Nat) : List (Nat × Nat) :=
  (List.range 4).flatMap (fun l => (layerSeqs m lesson l).map (fun e => (l, e)))

/-- NBUs that run at a MEM cycle. -/
def nbusAt (l : List (Nat × Nat)) (t : Nat) : Nat :=
  (l.filter (fun x => decide ((seqSpan x.2).1 ≤ t) && decide (t ≤ (seqSpan x.2).2))).foldl (fun n x => n + sqLockers x.2) 0

/-- NBUs that run never outnumber the lesson's nbu_tokens (R265): they are most at some start. -/
def tokensKept (m : List Byte) (lesson : Nat) : Bool :=
  let l := lessonSeqs m lesson
  l.all (fun x => decide (nbusAt l (seqSpan x.2).1 ≤ lsTokens m lesson))

/-- The layer and column limits of R263. -/
def limitsKept (m : List Byte) (lesson : Nat) : Bool :=
  let l := lessonSeqs m lesson
  l.all (fun x => decide (nbusAt (l.filter (fun y => y.1 == x.1)) (seqSpan x.2).1 ≤ 4096)) &&
  noPair (fun x y => x.1 != y.1 && lockersMeet x.2 y.2 && seqsMeet x.2 y.2) l

/-! Port programs (12 R339-R341). -/

def voteOp (op : Nat) : Bool := op == poVADD || op == poVSIGN

/-- Frame cycles of an entry on the lesson's time line. -/
def frameTimes (d : Nat) : List Nat := (List.range (peFrames d)).map (fun i => startOf d + i * peGap d)

def lastFrame (d : Nat) : Nat := dStartCycle d + (peFrames d - 1) * peGap d

/-- An offset in a landing tile has bits [21:0] alone; the reduction buffer has all 24. -/
def tileField (side a : Nat) : Bool := side != 1 || decide (a < 2 ^ 22)

def portFields (bells d : Nat) : Bool :=
  startGood bells d && 1 ≤ peOp d && peOp d ≤ 7 && dBits d 0 59 5 == 0 && dBits d 1 61 1 == 0 && dBits d 2 56 8 == 0 &&
  dBits d 3 61 3 == 0 && 7 ≤ peGap d && tileField (peSrc d) (peSrcAddr d) && tileField (peDst d) (peDstAddr d) &&
  (peOp d != poREDUCE || tileField (if peSrc d == 1 || peDst d == 1 then 1 else 0) (peScaleAddr d)) &&
  peSrcAddr d % 64 == 0 && peDstAddr d % 64 == 0 && peStride d % 64 == 0 &&
  peSrc d ≤ 2 && peDst d ≤ 2 && peVin d ≤ 2 && (peOutPort d ≤ 5 || peOutPort d == 7) &&
  (peOp d != poREDUCE || ((peSrcFmt d == 2 || peSrcFmt d == 3 || peSrcFmt d == 4) && (peDstFmt d == 3 || peDstFmt d == 4) &&
    (peDstFmt d != 3 || decide (-128 ≤ peExp d ∧ peExp d ≤ 127)))) &&
  (!voteOp (peOp d) || (1 ≤ peW d && peW d ≤ 17 && peVoters d < 2 ^ peW d))

/-- Every activity of R340 lies within the lesson window. -/
def portWindow (d : Nat) : Bool :=
  let t0 := dStartCycle d
  let t1 := lastFrame d
  t1 ≤ 3775 && (peSrc d != 1 || 42 ≤ t0) && (peSrc d != 2 || 8 ≤ t0) && (peOutPort d == 7 || t1 + 8 ≤ 3775) &&
  (peDst d != 2 || t1 + 15 ≤ 3775) && (peDst d != 1 || t1 + 49 ≤ 3775)

def peLanding (port d : Nat) : List Nat :=
  if peSrc d = 1 || peDst d = 1 then (maskBits (peForms d) 16).map (fun f => 16 * f + landingPos port) else []

def portEntries (m : List Byte) (lesson port : Nat) : List Nat :=
  let t := programOf m lesson (260 + port)
  descList t (ppOffset t) (ppCount t)

/-- Landing-tile ranges that an entry writes: offset, bytes. -/
def landingWrites (d : Nat) : List (Nat × Nat) :=
  if peDst d = 1 then
    let n := max 1 (maskBits (peForms d) 16).length
    (List.range (ceilDiv (peFrames d) n)).flatMap (fun j =>
      (peDstAddr d % 2 ^ 22 + j * peStride d, 3840) ::
      (if peOp d = poREDUCE && peDstFmt d = fSBI16 then [(peScaleAddr d % 2 ^ 22 + j * peScaleStride d, 30)] else []))
  else []

def State.portGood (s : State) (m : List Byte) (lesson port : Nat) : Bool :=
  let t := programOf m lesson (260 + port)
  let es := portEntries m lesson port
  t == [] ||
  (32 ≤ t.length && leAt t 0 4 == 0x50475046 && leAt t 4 2 == 1 && ppCount t ≤ 4096 && listFits t (ppOffset t) (ppCount t) 32 &&
   zeroBytes t 0xC 20 && ascending (es.map startOf) && es.all (portFields (lsBells m lesson)) && es.all portWindow &&
   es.all (fun d => (peLanding port d).all (bitSet (hdRequired m))) &&
   !es.any (fun d => (landingWrites d).any (fun x => s.areaRange x.1 x.2)))

/-- Send cycles of a lesson on a port: frames of its own entries, and results that any port's entries send on it. -/
def sendTimes (m : List Byte) (lesson port : Nat) : List Nat :=
  ((portEntries m lesson port).filter (fun d => peOp d == poSEND || peOp d == poVSEND)).flatMap frameTimes ++
  (List.range 6).flatMap (fun q => ((portEntries m lesson q).filter (fun d => peOutPort d == port)).flatMap (fun d =>
    if peOp d = poSEND || peOp d = poVSEND || peOp d = poRECV then []
    else if peOp d = poVSIGN then
      ((frameTimes d).zip (List.range (peFrames d))).filterMap (fun x => if x.2 % (peW d + 1) = peW d then some (x.1 + 8) else none)
    else (frameTimes d).map (· + 8)))

/-- Consumption cycles of a lesson on a port. -/
def consumeTimes (m : List Byte) (lesson port : Nat) : List Nat :=
  (portEntries m lesson port).flatMap (fun d =>
    if peOp d = poRECV || peOp d = poREDUCE || peOp d = poRELAY then frameTimes d
    else if voteOp (peOp d) && peVin d = 2 then frameTimes d
    else if voteOp (peOp d) && peVin d = 1 then
      ((frameTimes d).zip (List.range (peFrames d))).filterMap (fun x => if x.2 % (peW d + 1) = 0 then some x.1 else none)
    else [])

/-- Times at least n apart. -/
def spaced (n : Nat) (l : List Nat) : Bool := noPair (fun a b => decide (a < b + n) && decide (b < a + n)) l

/-! The control-complex program (14 R394). -/

def controlGood (m : List Byte) : Bool :=
  let t := programOf m 0 266
  (List.range (hdLessonCount m)).all (fun l => dirOffset m l 266 == dirOffset m 0 266 && dirSize m l 266 == dirSize m 0 266) &&
  (t == [] ||
   (16 ≤ t.length && leAt t 0 4 == 0x47435043 && leAt t 4 2 == 1 && leAt t 6 2 ≤ 4096 && zeroBytes t 8 8 &&
    16 + 16 * leAt t 6 2 ≤ t.length &&
    ascending ((List.range (leAt t 6 2)).map (fun i => leAt t (16 + 16 * i) 4)) &&
    (List.range (leAt t 6 2)).all (fun i =>
      leAt t (16 + 16 * i) 4 < hdLessonCount m && leAt t (20 + 16 * i) 2 == 1 && leAt t (22 + 16 * i) 2 == 0 &&
      leAt t (28 + 16 * i) 4 == 0)))

end Sys2Proof.Machine
end

