-- ==== Sys2Proof/Machine/Loads.lean ====
section
/-! DEFINITION. COURSE_LOAD: static conflicts and collisions, the load checks in their order, staging (02 R76-R81, 07 R208,
08 R240, 09 R265, R266, 12 R341, 18 R449). -/

namespace Sys2Proof.Machine

/-! Static accesses of a tile in a lesson (07 R208). -/

/-- An access at slice ports on the lesson's time line; port and prio as in SliceUse. -/
structure StaticUse where
  time : Nat
  port : Nat
  prio : Nat
  off : Nat
  len : Nat
  deriving DecidableEq, Repr

def mxeStatic (u : MxeUse) : List StaticUse :=
  let d := u.d
  match mdOp d with
  | 1 =>
    let k := kRow (ldFmt d) (ldFold d)
    let n := fmtBytes (ldFmt d) k
    (List.range (128 / foldOf (ldFold d))).flatMap (fun j =>
      let x := startOf d + j * n / 512
      [⟨x, 0, 2, ldAddr d + j * ldStride d, n⟩, ⟨x, 2, 2, ldScaleAddr d + j * ldScaleStride d, k / 32⟩])
  | 2 =>
    let k := descK d u.plane
    (List.range (psRows d)).flatMap (fun r =>
      let x := startOf d + r * u.p
      [⟨x, 0, 1, psAddr d + r * psStride d, fmtBytes (psFmt d) k⟩, ⟨x, 2, 1, psScaleAddr d + r * psScaleStride d, k / 32⟩])
  | _ => []

def veStatic (d : Nat) : List StaticUse :=
  let x := startOf d
  match mdOp d with
  | 1 => [⟨x, 0, 3, runSlate d, 8 * runN d⟩, ⟨x + 1, 0, 3, runBlock d, 128⟩]
  | 2 => (List.range 3).map (fun i => ⟨x + i, 0, 3, dBits d 1 0 22 + 512 * i, if i < 2 then 512 else 16⟩)
  | _ =>
    let fill := dBits d 0 32 1 == 0
    (List.range (dBits d 0 42 9 + 1)).flatMap (fun i =>
      [⟨x + i, if fill then 0 else 1, if fill then 3 else 5, dBits d 1 0 22 + 512 * i, 512⟩,
       ⟨x + i, if fill then 2 else 3, if fill then 3 else 5, dBits d 1 22 22 + 32 * i, 32⟩])

/-- A beat of a static COPY: its time, the address of its row on each side, bytes before it in the row, its bytes. -/
structure StaticBeat where
  time : Nat
  src : Nat
  dst : Nat
  j : Nat
  len : Nat
  deriving DecidableEq, Repr

def copyBeatList (lt d : Nat) : List StaticBeat :=
  let k := copyOf d 0
  match pathOf lt (mvChannel d) k with
  | some p =>
    let bpr := beatsPerRow p k
    (List.range (copyBeats p k)).map (fun i =>
      let j := i % bpr * p.rate
      { time := startOf d + i, src := k.src + i / bpr * k.srcStride, dst := k.dst + i / bpr * k.dstStride, j := j,
        len := min p.rate (k.rowBytes - j) })
  | none => []

/-- Static COPY entries of a tile program. -/
def copyEntries (t : List Byte) : List Nat := (movDescs t).filter (fun d => dBits d 0 0 4 == 1)

/-- Accesses of a COPY at its own tile's buffer. -/
def copyStatic (lt d : Nat) : List StaticUse :=
  let q := 7 + mvChannel d
  (copyBeatList lt d).flatMap (fun b =>
    let rd : StaticUse := ⟨b.time, 0, q, unitOffset b.src + b.j, b.len⟩
    let wr := fun (x : Nat) => (⟨x, 1, q, unitOffset b.dst + b.j, b.len⟩ : StaticUse)
    match pathOf lt (mvChannel d) (copyOf d 0) with
    | some .own => [rd, wr b.time]
    | some .mesh | some .toLk8 | some .toLocker | some .toLocal => [rd]
    | some .fromLk8 | some .fromLocker => [wr (b.time + 60)]
    | some .fromLocal => [wr b.time]
    | none => [])

/-- Beats that frame i of an entry reads from a landing tile: a vote op reads its own vote in the first frame cycle of a group, a
REDUCE its elements and then their scale bytes (12 R340, R343, R344). -/
def stationReads (d i : Nat) : Nat :=
  if peSrc d ≠ 1 || peOp d = poRECV || peOp d = poRELAY then 0
  else if voteOp (peOp d) then (if i % (peW d + 1) = 0 then 30 else 0)
  else if peOp d = poREDUCE && peSrcFmt d ≠ fINT32 then ceilDiv (fmtBytes (peSrcFmt d) 960) 128 + 1
  else 30

/-- Beats that frame i of an entry writes to a landing tile: a VOTE_SIGN writes in the last frame cycle of a group. -/
def stationWrites (d i : Nat) : Nat :=
  if peDst d ≠ 1 || peOp d = poSEND || peOp d = poVSEND || peOp d = poRELAY then 0
  else if peOp d = poVSIGN && i % (peW d + 1) ≠ peW d then 0
  else if peOp d = poREDUCE && peDstFmt d = fSBI16 then 16
  else 30

/-- Accesses of the port stations at a landing tile (12 R340): 128 bytes a cycle. -/
def stationStatic (m : List Byte) (lesson lt : Nat) : List StaticUse :=
  (List.range 6).flatMap (fun port =>
    if lt % 16 = landingPos port then
      (portEntries m lesson port).flatMap (fun d =>
        let forms := maskBits (peForms d) 16
        ((frameTimes d).zip (List.range (peFrames d))).flatMap (fun x =>
          if forms.getD (x.2 % max 1 forms.length) 16 = lt / 16 then
            let j := x.2 / max 1 forms.length
            let scale := peScaleAddr d % 2 ^ 22 + j * peScaleStride d
            let rd := stationReads d x.2
            let wr := stationWrites d x.2
            (List.range rd).map (fun i => (⟨x.1 - 42 + i, 0, 13,
              if i = rd - 1 && rd < 30 then scale else peSrcAddr d % 2 ^ 22 + j * peStride d + 128 * i,
              if i = rd - 1 && rd < 30 then 30 else 128⟩ : StaticUse)) ++
            (List.range wr).map (fun i => (⟨x.1 + 20 + i, 1, 13,
              if i = wr - 1 && wr < 30 then scale else peDstAddr d % 2 ^ 22 + j * peStride d + 128 * i,
              if i = wr - 1 && wr < 30 then 30 else 128⟩ : StaticUse))
          else []))
    else [])

/-- Mesh beats of static entries that a tile ejects: time and offset (07 R222). -/
def State.arrivals (s : State) (m : List Byte) (p lesson lt : Nat) : List StaticUse :=
  (s.tilesOf p).flatMap (fun src =>
    (copyEntries (programOf m lesson src)).flatMap (fun d =>
      let k := copyOf d 0
      if pathOf src (mvChannel d) k = some .mesh && (s.meshTargets src (addrTile k.dst) k.mc).contains lt then
        (copyBeatList src d).map (fun b => ⟨b.time + routeL src lt, 1, 6, unitOffset b.dst + b.j, b.len⟩)
      else []))

def useClash (x y : StaticUse) : Bool :=
  x.time == y.time && x.port == y.port && x.prio != y.prio && (slicesOf x.off x.len).any (slicesOf y.off y.len).contains

/-- Channel 6's port of a landing tile is used twice in one cycle (12 R341). -/
def stationClash (x y : StaticUse) : Bool := x.prio == 13 && y.prio == 13 && x.time == y.time

/-- No conflict among a tile's static accesses. -/
def State.tileQuiet (s : State) (m : List Byte) (met : List (Nat × Nat × Option (Nat × Nat))) (p lesson lt : Nat) : Bool :=
  let t := programOf m lesson lt
  let own := (mxeUses m met lesson lt).flatMap mxeStatic ++ (veDescs t).flatMap veStatic
  let copies := (copyEntries t).flatMap (copyStatic lt)
  let station := stationStatic m lesson lt
  noPair useClash (own ++ copies ++ station ++ s.arrivals m p lesson lt) &&
  noPair stationClash station && !station.any (fun x => copies.any (stationClash x))

/-! Static beats (07 R208, R224). -/

/-- A beat offered by a unit of a tile, with its targets. -/
structure StaticSend where
  src : Nat
  unit : Nat
  time : Nat
  targets : List Nat
  deriving DecidableEq, Repr

/-- Outputs a beat takes on its way, with their times; k bounds the hops. -/
def hopMarks : Nat → Nat → Nat → Nat → Nat → Nat → List (Nat × Nat × Nat)
  | 0, _, _, _, _, _ => []
  | k + 1, row, col, dr, dc, x =>
    match hopOf row col dr dc with
    | some h => (seatAt row col, h.out, x) :: hopMarks k h.row h.col dr dc (x + 2 + 2 * seamsBetween row col h.row h.col)
    | none => []

/-- Injection, router outputs and ejection ports that a beat uses. -/
def State.sendMarks (s : State) (b : StaticSend) : List (Nat × Nat × Nat) :=
  let m := s.seatOf b.src
  ((m, 5, b.time) :: b.targets.flatMap (fun t =>
    let n := s.seatOf t
    (n, 4, b.time + routeL b.src t) :: hopMarks 34 (seatRow m) (seatCol m) (seatRow n) (seatCol n) (b.time + 2))).eraseDups

/-- Static mesh beats of a lesson. -/
def State.staticSends (s : State) (m : List Byte) (p lesson : Nat) : List StaticSend :=
  (s.tilesOf p).flatMap (fun lt =>
    let t := programOf m lesson lt
    ((mxeDescs t).filter (fun d => mdOp d == 3)).flatMap (fun d =>
      (List.range (6 * sdRows d)).map (fun i => ({ src := lt, unit := 0, time := startOf d + i, targets := [sdDest d] } : StaticSend))) ++
    (copyEntries t).flatMap (fun d =>
      let k := copyOf d 0
      if pathOf lt (mvChannel d) k = some .mesh then
        (copyBeatList lt d).map (fun b =>
          ({ src := lt, unit := 1 + mvChannel d, time := b.time, targets := s.meshTargets lt (addrTile k.dst) k.mc } : StaticSend))
      else []))

def State.meshQuiet (s : State) (m : List Byte) (p lesson : Nat) : Bool :=
  noPair (fun x y => (s.sendMarks x).any (s.sendMarks y).contains) (s.staticSends m p lesson)

/-! Static locker beats (08 R240, 09 R266). -/

/-- A word address and the time of the beat that moves it. -/
def lockerBeats (lt d : Nat) : List (Nat × Nat) :=
  (copyBeatList lt d).flatMap (fun b =>
    let words := fun (a : Nat) => (List.range (b.len / 8)).map (fun i => (lk8Word a (b.j / 8 + i), b.time))
    match pathOf lt (mvChannel d) (copyOf d 0) with
    | some .toLk8 => words b.dst
    | some .fromLk8 => words b.src
    | some .toLocker => [(b.dst + b.j, b.time)]
    | some .fromLocker => [(b.src + b.j, b.time)]
    | _ => [])

/-- Two beats at one bank in one bell, of different rows, less than 48 cycles apart. -/
def rowClash (x y : Nat × Nat) : Bool :=
  lkLayer x.1 == lkLayer y.1 && bankKey x.1 == bankKey y.1 && x.2 / 4096 == y.2 / 4096 && lkRow x.1 != lkRow y.1 &&
  decide (x.2 < y.2 + 48) && decide (y.2 < x.2 + 48)

/-- A beat at a bank that a sequence holds. -/
def heldClash (m : List Byte) (lesson : Nat) (x : Nat × Nat) : Bool :=
  let t := 1024 * (x.2 / 4096) + x.2 % 4096 / 4
  (lessonSeqs m lesson).any (fun q => q.1 == lkLayer x.1 && decide (sqFirst q.2 ≤ lkLocker x.1) &&
    decide (lkLocker x.1 < sqFirst q.2 + sqLockers q.2) && decide ((seqSpan q.2).1 ≤ t) && decide (t ≤ (seqSpan q.2).2))

def lockersQuiet (m : List Byte) (lesson lt : Nat) : Bool :=
  let l := (copyEntries (programOf m lesson lt)).flatMap (lockerBeats lt)
  noPair rowClash l && !l.any (heldClash m lesson)

/-! The header, the lesson table and the directories (R76-R78). -/

def hdPartition (m : List Byte) : Nat := leAt m 0x12 1
def hdFieldMask (m : List Byte) : Nat := leAt m 0x13 1

/-- The CRC over the image, its field taken as 0. -/
def imageCrc (m : List Byte) : Nat := crc32 (putBytes m 0x38 (zeros 4))

def headerGood (m : List Byte) (size : Nat) : Bool :=
  128 ≤ m.length && leAt m 0 4 == 0x42545457 && leAt m 4 2 == 1 && hdFlags m < 4 && hdPartition m ≤ 3 && hdFieldMask m < 16 &&
  1 ≤ hdLessonCount m && hdLessonCount m ≤ 131072 && hdLoopFirst m ≤ hdLoopLast m && hdLoopLast m < hdLessonCount m &&
  hdTable m % 64 == 0 && hdTable m + 32 * hdLessonCount m ≤ m.length && leAt m 0x34 4 == size &&
  leAt m 0x38 4 == imageCrc m && zeroBytes m 0x3C 4 && zeroBytes m 0x60 32

def lessonGood (m : List Byte) (l : Nat) : Bool :=
  1 ≤ lsBells m l && lsKind m l ≤ 6 && lsFlags m l < 16 && lsCapacity m l ≤ 4096 && (lsRoster m l || lsCapacity m l == 0) &&
  lsAt m l 0xE 2 == 0 && lsDirectory m l % 64 == 0 && lsDirectory m l + 2136 ≤ m.length && lsAt m l 0x14 4 == 2136 &&
  lsAt m l 0x18 8 == 0 &&
  (List.range 267).all (fun u => dirSize m l u == 0 || dirOffset m l u + dirSize m l u ≤ m.length)

def lessons (m : List Byte) : List Nat := List.range (hdLessonCount m)

/-- Flags[0], nbu_tokens_max and lt_required agree with the lessons. -/
def headerAgrees (m : List Byte) : Bool :=
  bitSet (hdFlags m) 0 == (lessons m).any (lsRoster m) &&
  hdTokensMax m == ((lessons m).map (lsTokens m)).foldl max 0 &&
  (lessons m).all (fun l => (List.range 256).all (fun lt => dirSize m l lt == 0 || bitSet (hdRequired m) lt))

/-! The load checks in their order (R79). -/

/-- First check: TT_FORMAT. -/
def State.formatFails (s : State) (m : List Byte) (p size : Nat) : Bool :=
  !(headerGood m size && (lessons m).all (lessonGood m)) || !(headerAgrees m && controlGood m) ||
  !(lessons m).all (fun l =>
    (List.range 256).all (fun lt => dirSize m l lt == 0 || s.tileGood m (planesMet m lt) l lt) &&
    (List.range 4).all (s.layerGood m p l) && tokensKept m l && (List.range 6).all (s.portGood m l) &&
    (List.range 6).all (fun q => spaced 7 (sendTimes m l q) && spaced 7 (consumeTimes m l q)) &&
    (List.range 256).all (fun lt => (dirSize m l lt == 0 && stationStatic m l lt == []) ||
      (s.tileQuiet m (planesMet m lt) p l lt && lockersQuiet m l lt)) &&
    s.meshQuiet m p l)

/-- TT_DEVICE: device, partition, fields, ports (12 R341). -/
def State.deviceFails (s : State) (m : List Byte) (p : Nat) : Bool :=
  leAt m 0x10 2 != s.deviceId || hdPartition m != p || hdFieldMask m != s.fieldMask p ||
  (s.partCount != 1 && (lessons m).any (fun l => (List.range 6).any (fun q =>
    dirSize m l (260 + q) != 0 && (s.partOfPort q != p ||
      (portEntries m l q).any (fun d => peOutPort d != 7 && s.partOfPort (peOutPort d) != p)))))

/-- SEATING_MISMATCH: a required tile is unseated or outside the partition's fields. -/
def State.seatingFails (s : State) (m : List Byte) (p : Nat) : Bool :=
  (List.range 256).any (fun lt => bitSet (hdRequired m) lt && !(s.present lt && s.partOfLt lt == p))

/-- LICENCE (09 R265, 11 R315, 21 R512). -/
def State.licenceRefuses (s : State) (m : List Byte) : Bool :=
  let seqs := (lessons m).flatMap (fun l => (lessonSeqs m l).map (·.2))
  let votes := (lessons m).any (fun l => (List.range 6).any (fun q => (portEntries m l q).any (fun d => 5 ≤ peOp d)))
  (seqs.any (fun e => sqOp e ≤ 3) && !s.licensed featNbu) ||
  ((hdTraining m || votes || seqs.any (fun e => sqOp e == 3)) && !s.licensed featTraining) ||
  decide (s.licensedParts < s.partCount)

/-- Lessons that come directly before a lesson (06 R186): the table's order, and the end of the loop for its first. -/
def before (m : List Byte) (l : Nat) : List Nat :=
  (if l = 0 then [] else [l - 1]) ++ (if l = hdLoopFirst m && hdLoopCount m ≠ 1 then [hdLoopLast m] else [])

/-- Sum of nbu_tokens_max of the courses loaded. -/
def State.tokensLoaded (s : State) : Nat :=
  (List.range 4).foldl (fun n p => if s.courseLoaded p then n + hdTokensMax (s.courseImage p) else n) 0

/-- TT_LIMIT. -/
def State.limitFails (s : State) (m : List Byte) : Bool :=
  let limit := s.getF NBU_TOKEN_LIMIT NBU_TOKEN_LIMIT_limit
  limit < s.tokensLoaded + hdTokensMax m || hdHorizon m < 2 || 1024 < hdHorizon m ||
  (lessons m).any (fun l =>
    limit < lsTokens m l || 3775 < lsLast m l || 10 * designPower s.variant < lsAllot m l || !limitsKept m l ||
    (before m l).any (fun b =>
      (List.range 256).any (fun lt => 8192 * lsBells m b < dirSize m l lt) ||
      (List.range 4).any (fun y => 2048 * lsBells m b < dirSize m l (256 + y))) ||
    (List.range 6).any (fun q => (s.port q).recHalf && !spaced 14 (sendTimes m l q)) ||
    (jobCapacity m l).any (fun k => (List.range 256).any (fun lt =>
      let t := programOf m l lt
      t != [] && tpRosterValid t && 4096 * lsBells m l ≤ (jobSpan t k).2)))

/-- The first check that fails. -/
def State.loadFails (s : State) (m : List Byte) (p size : Nat) : Option Nat :=
  if s.formatFails m p size then some stTT_FORMAT
  else if s.deviceFails m p then some stTT_DEVICE
  else if s.seatingFails m p then some stSEATING_MISMATCH
  else if s.licenceRefuses m then some stLICENCE
  else if s.limitFails m then some stTT_LIMIT
  else if s.courseLoaded p then some stCOURSE_BUSY else none

/-- The course is loaded: its image kept, lesson 0 staged, local images in place (R81, 06 R188). -/
def State.loadCourse (s : State) (p addr : Nat) (m : List Byte) : State :=
  let s := { s with crs := tput s.crs p { course0 with imgAddr := addr, image := m, staged := true } }
  let s := (s.setCourseState p csLoaded).setF (BELL_CRS_STATE p) BELL_CRS_STATE_roster_late 0
  let s := s.stageLesson p 0
  forEach ((s.tilesOf p).filter (fun lt => tpHasImage (programOf m 0 lt))) s (fun s lt => s.loadLocal lt (programOf m 0 lt))

def State.courseLoad (s : State) (c : Cmd) : State :=
  let size := c.pkt.p1 % 2 ^ 32
  let ((m, st), s) := s.readObject c.pkt.p0 size
  if st ≠ 0 then s.fail c st
  else match s.loadFails m c.part size with
    | some e => s.fail c e
    | none => (s.loadCourse c.part c.pkt.p0 m).ok c (hdCourseId m)

def execCmdCourseLoad (ring tag : Nat) (s : State) : Host.Outcome State Fault Refusal :=
  live s (s.onCmd ring tag opCOURSE_LOAD State.courseLoad)

end Sys2Proof.Machine
end

