-- ==== Sys2Proof/Machine/Thermal.lean ====
section
/-! DEFINITION. Sensors, adopted estimates, limits and trip, forecast recess, coolant, and the telemetry map that is refreshed
at the sensor rate (19 R453-R466, 22 R521). Readings and estimates are in 1/16 °C (R453); registers and events show them in
units of 0.25 °C. -/

namespace Sys2Proof.Machine

/-! Sensors and regions (R453, R454). -/

/-- The region that a sensor belongs to. -/
def sensorRegion (n : Nat) : Nat :=
  if n < 576 then n / 36 else if n < 832 then 16 + (n - 576) / 4 else 80 + (n - 832) / 4

/-- Die of a region: 0 CD, 1 memory layer, 2 BD. -/
def regionDie (r : Nat) : Nat := if r < 16 then 0 else if r < 80 then 1 else 2

/-- Sensor pairs of a region: the first and how many. -/
def regionPairs (r : Nat) : List Nat :=
  if r < 16 then (List.range 18).map (18 * r + ·) else (List.range 2).map (288 + 2 * (r - 16) + ·)

/-- Trip limit of a region in °C (R460). -/
def State.tripLimit (s : State) (r : Nat) : Nat :=
  match regionDie r with
  | 0 => s.getF THM_TRIP_LIMIT THM_TRIP_LIMIT_cd
  | 1 => s.getF THM_TRIP_LIMIT THM_TRIP_LIMIT_ml
  | _ => s.getF THM_TRIP_LIMIT THM_TRIP_LIMIT_bd

/-- Throttle limit of a region in °C (R460). -/
def State.throttleLimit (s : State) (r : Nat) : Nat :=
  match regionDie r with
  | 0 => s.getF THM_THROTTLE_LIMIT THM_THROTTLE_LIMIT_cd
  | 1 => s.getF THM_THROTTLE_LIMIT THM_THROTTLE_LIMIT_ml
  | _ => s.getF THM_THROTTLE_LIMIT THM_THROTTLE_LIMIT_bd

def State.suspect (s : State) (n : Nat) : Bool := s.flag (THM_SENSOR n) THM_SENSOR_suspect

def State.adopted (s : State) (r : Nat) : Nat := s.getF (THM_REGION r) THM_REGION_adopted

def State.modelAt (s : State) (r : Nat) : Nat := tgetD s.therm.model r 0

/-! The model (R455). -/

/-- The network takes one sample: every region's estimate, once stage S4 has refined it. -/
def State.modelSample (s : State) (powers : List Nat) : State :=
  if s.therm.modelValid then
    let k := s.freeCtr
    let m := (List.range 88).map (fun r => (r, Config.modelEstimate k r (s.modelAt r) powers))
    ({ s with therm := { s.therm with model := m } }).drawn 1
  else s

/-! Suspect sensors (R458). -/

/-- The carry block takes the sensors that are suspect now. -/
def State.carrySuspects (s : State) : State :=
  let c := s.bring.carry
  let s := { s with bring := { s.bring with carry := { c with sensors := (List.range 864).filter s.suspect } } }
  s.writeCarry

/-- A sensor is marked suspect. -/
def State.markSuspect (s : State) (n v : Nat) : State :=
  let s := (s.setB (THM_SENSOR n) THM_SENSOR_suspect true).incF THM_COUNTS THM_COUNTS_suspect 1
  s.carrySuspects.raise evSensorSuspect 255 7 n (v / 4) (s.modelAt (sensorRegion n) / 4) 0 0

/-- One sensor's reading: register, and the suspect rule against its region's model estimate. -/
def State.sensorReading (s : State) (n v : Nat) : State :=
  let s := s.setF (THM_SENSOR n) THM_SENSOR_reading (min 1023 (v / 4))
  if !s.therm.modelValid then s
  else
    let d := absDiff v (s.modelAt (sensorRegion n))
    let far := if 128 < d then min 16 (tgetD s.therm.far n 0 + 1) else 0
    let near := if d ≤ 64 then min 4096 (tgetD s.therm.near n 0 + 1) else 0
    let s := { s with therm := { s.therm with far := tset s.therm.far n far 0, near := tset s.therm.near n near 0 } }
    if far = 16 && !s.suspect n then s.markSuspect n v
    else if near = 4096 && s.suspect n then (s.setB (THM_SENSOR n) THM_SENSOR_suspect false).carrySuspects
    else s

/-! Pairs (R457). -/

/-- A sensor counts as suspect only while the model is in use (R455). -/
def State.distrusts (s : State) (n : Nat) : Bool := s.therm.modelValid && s.suspect n

/-- Disagreement of pair q: sensors 2q and 2q + 1 with their readings. -/
def State.pairDisagree (s : State) (q a b : Nat) : State :=
  let bad := !s.distrusts (2 * q) && !s.distrusts (2 * q + 1) && decide (48 < absDiff a b)
  let apart := if bad then min 16 (tgetD s.therm.apart q 0 + 1) else 0
  let together := if absDiff a b ≤ 48 then min 16 (tgetD s.therm.together q 0 + 1) else 0
  let s := { s with therm := { s.therm with
    apart := tset s.therm.apart q apart 0, together := tset s.therm.together q together 0 } }
  let shown := s.flag (THM_SENSOR (2 * q)) THM_SENSOR_disagree
  let put := fun (s : State) (v : Bool) =>
    (s.setB (THM_SENSOR (2 * q)) THM_SENSOR_disagree v).setB (THM_SENSOR (2 * q + 1)) THM_SENSOR_disagree v
  if apart = 16 && !shown then
    ((put s true).incF THM_COUNTS THM_COUNTS_disagree 1).raise evSensorDisagree 255 7 (2 * q) (2 * q + 1) (absDiff a b / 4) 0 0
  else if together = 16 && shown then put s false
  else s

/-- Value of pair q and its source code. -/
def State.pairValue (s : State) (q a b : Nat) : Nat × Nat :=
  match s.distrusts (2 * q), s.distrusts (2 * q + 1) with
  | true, true => (s.modelAt (sensorRegion (2 * q)) + 80, 2)
  | true, false => (b + 48, 1)
  | false, true => (a + 48, 1)
  | false, false => (max a b, 0)

/-! Adopted estimates (R457, R459). -/

/-- Sensor value of a region and its source: the largest of its pair values. -/
def State.sensorValue (s : State) (r : Nat) (v : List Nat) : Nat × Nat :=
  (regionPairs r).foldl (fun m q =>
    let x := s.pairValue q (v.getD (2 * q) 0) (v.getD (2 * q + 1) 0)
    if m.1 < x.1 then x else m) (0, 0)

/-- The adopted estimate of a region enters its register; the answer is the estimate. -/
def State.adopt (s : State) (r : Nat) (v : List Nat) : Nat × State :=
  let (x, src) := s.sensorValue r v
  let can := 4 * tgetD s.therm.canary r 0
  let believe := regionDie r == 1 && s.therm.modelValid && decide (x + 48 < can) && decide (x + 48 < s.modelAt r)
  let a := if believe then can else x
  let reg := THM_REGION r
  let before := s.getF reg THM_REGION_source
  let s := (s.setF reg THM_REGION_adopted (min 1023 (a / 4))).setF reg THM_REGION_model (min 1023 (s.modelAt r / 4))
  let s := s.setF reg THM_REGION_source (if believe then 3 else src)
  let s := s.setF reg THM_REGION_canary (if regionDie r = 1 then min 1023 (tgetD s.therm.canary r 0) else 0)
  (a, if believe && before ≠ 3 then s.incF THM_COUNTS THM_COUNTS_override 1 else s)

/-- Every region in order. -/
def adoptAll (v : List Nat) : List Nat → State → List Nat × State
  | [], s => ([], s)
  | r :: l, s =>
    let (a, s) := s.adopt r v
    let (t, s) := adoptAll v l s
    (a :: t, s)

/-! Trip and sudden coolant stop (R461, R466). -/

/-- The clocks stop, the domains are removed, the VPM stores the cause, and the module stays off until its input has been
cycled. -/
def State.trip (s : State) (cause region value : Nat) : State :=
  { s with
    power := { s.power with phase := .latched, pgoodLow := false }
    stored := some { cause := cause, region := region, value := value } }

/-- The first region whose adopted estimate has reached its trip limit, with the estimate. -/
def State.tripped (s : State) (l : List Nat) : Option (Nat × Nat) :=
  ((List.range 88).map (fun r => (r, l.getD r 0))).find? (fun x => decide (16 * s.tripLimit x.1 ≤ x.2))

/-- The rise of the hottest CD estimate over 512 samples, less that of the model, is beyond 5 K/s: 512 samples of 32 bells
take 67,108,864 cycles of 1.4 GHz. -/
def risesFast (hot model : List Nat) : Bool :=
  match hot.head?, (hot.drop 512).head?, model.head?, (model.drop 512).head? with
  | some a, some b, some c, some d =>
    decide (80 * 67108864 < (((a : Int) - b) - ((c : Int) - d)) * 1400000000)
  | _, _, _, _ => false

/-- Bookkeeping of R466 at a sample. -/
def State.hotSample (s : State) (l : List Nat) : State :=
  let hot := ((l.take 16).foldl max 0 :: s.therm.hottest).take 513
  let model := (((List.range 16).map s.modelAt).foldl max 0 :: s.therm.modelHot).take 513
  let n := if s.therm.modelValid && risesFast hot model then s.therm.fastRise + 1 else 0
  { s with therm := { s.therm with hottest := hot, modelHot := if s.therm.modelValid then model else [], fastRise := n } }

/-! Throttle limit (R462). -/

/-- Every adopted estimate is below its throttle limit - 1 K. -/
def State.allCool (s : State) : Bool := (List.range 88).all (fun r => decide (s.adopted r + 4 < 4 * s.throttleLimit r))

def State.anyAtLimit (s : State) : Bool := (List.range 88).any (fun r => decide (4 * s.throttleLimit r ≤ s.adopted r))

def State.limitSample (s : State) : State :=
  let b := if s.anyRunning && s.anyAtLimit then true else if s.allCool then false else s.therm.limitReached
  { s with therm := { s.therm with limitReached := b } }

/-! Telemetry (22 R521). -/

def State.hottestOf (s : State) (rs : List Nat) : Nat := (rs.map s.adopted).foldl max 0

/-- Byte 0x14 of the map. -/
def State.telemetryFlags (s : State) : Nat :=
  boolNat (s.flag THM_COOLANT THM_COOLANT_decline) + 2 * boolNat ((List.range 864).any s.suspect) +
  4 * boolNat s.bell.asked + 8 * boolNat s.anyRunning + 16 * boolNat (s.flag BELL_SYNC BELL_SYNC_out_of_step) +
  32 * boolNat (s.flag BELL_SYNC BELL_SYNC_holdover) + 64 * boolNat s.mxlUp

/-- The 256 bytes of the telemetry map. -/
def State.telemetryMap (s : State) : List Byte :=
  leBytes 1 1 ++ leBytes 1 ((s.reg BRG_STAGE).toNat % 128) ++ leBytes 2 (s.getF PWR_INPUT PWR_INPUT_volts) ++
  leBytes 2 (s.getF PWR_INPUT PWR_INPUT_power_w) ++ leBytes 2 s.setpoint ++ leBytes 2 (s.getF PWR_VCMP PWR_VCMP_current_a) ++
  leBytes 2 (s.hottestOf (List.range 16)) ++ leBytes 2 (s.hottestOf ((List.range 64).map (16 + ·))) ++
  leBytes 2 (s.hottestOf ((List.range 8).map (80 + ·))) ++
  leBytes 2 (s.getF THM_COOLANT THM_COOLANT_inlet) ++ leBytes 2 (s.getF THM_COOLANT THM_COOLANT_outlet) ++
  leBytes 1 s.telemetryFlags ++ leBytes 1 (maskOf ((List.range 6).filter s.portUp)) ++ leBytes 2 s.deviceId ++
  leBytes 8 s.bellCount ++ leBytes 8 s.serial ++ leBytes 4 s.startNo ++ leBytes 4 (s.reg EVT_SEQ).toNat ++
  leBytes 4 (s.reg (BRG_CARD 1 5)).toNat ++ leBytes 4 (s.reg CLK_RESET_CAUSE).toNat ++ zeros 8 ++
  (List.range 88).flatMap (fun r => leBytes 2 (s.adopted r)) ++ zeros 16

/-! The sample (R453, R457-R462, R465, R466). -/

/-- Coolant readings of a sample, in 0.25 °C; an AHN4-H has none. -/
def State.coolantSample (s : State) (inlet outlet : Nat) : State :=
  if s.variant = .ahn4W then
    let s := (s.setF THM_COOLANT THM_COOLANT_inlet (min 1023 inlet)).setF THM_COOLANT THM_COOLANT_outlet (min 1023 outlet)
    let t := s.therm
    { s with therm := { t with
        samples := t.samples + 1
        riseSum := t.riseSum + ((outlet : Int) - inlet)
        powerSum := t.powerSum + s.getF PWR_INPUT PWR_INPUT_power_w } }
  else s

/-- The readings of a sample: coolant, model, each sensor, each pair. -/
def State.sampleReadings (s : State) (v powers : List Nat) (inlet outlet : Nat) : State :=
  let s := (s.coolantSample inlet outlet).modelSample powers
  forEach (List.range 432) (forEach (List.range 864) s (fun s n => s.sensorReading n (v.getD n 0)))
    (fun s q => s.pairDisagree q (v.getD (2 * q) 0) (v.getD (2 * q + 1) 0))

/-- What follows from the temperatures of the regions: hot regions, limits, telemetry, the trip. -/
def State.sampleEffects (s : State) (l : List Nat) : State :=
  let s := (s.hotSample l).limitSample
  let s := { s with mgmt := { s.mgmt with telemetry := s.telemetryMap } }
  match s.tripped l with
  | some (r, a) => s.trip 5 r (a / 4)
  | none => if 2 ≤ s.therm.fastRise then s.trip 6 0 (l.headD 0 / 4) else s

/-- One sample: readings of the 864 sensors, measured powers, coolant temperatures. -/
def State.sample (s : State) (v powers : List Nat) (inlet outlet : Nat) : State :=
  let r := adoptAll v (List.range 88) (s.sampleReadings v powers inlet outlet)
  (forEach (List.range 4) r.2 (fun s k => s.setF (MEM_LAYER k) MEM_LAYER_temp (s.layerTemp k))).sampleEffects r.1

def execSensorSample (readings powers : List Nat) (inlet outlet : Nat) (s : State) : Host.Outcome State Fault Refusal :=
  live s (s.sample readings powers inlet outlet)

/-- A hardware comparator beside pair q sees both readings at or above the die's trip limit (R461). -/
def State.comparator (s : State) (q a b : Nat) : State :=
  let r := sensorRegion (2 * q)
  if q < 432 && 16 * s.tripLimit r ≤ a && 16 * s.tripLimit r ≤ b then s.trip 5 r (max a b / 4) else s

def execTripComparator (pair a b : Nat) (s : State) : Host.Outcome State Fault Refusal := live s (s.comparator pair a b)

/-! Forecast and recess (R462, R463). -/

/-- First later recess point of the partitions at a recess point now, at least 2 H_R ahead. -/
def State.nextPoint (s : State) (ps : List Nat) : Option Nat :=
  (ps.filterMap (fun p => s.firstPoint p (s.bellCount + 2 * s.map.horizon) searchBells)).foldl
    (fun m r => match m with
      | some x => some (min x r)
      | none => some r) none

/-- Recess points from bell r up to the last before the forecast peak, at least 1. -/
def State.pointsUntil (s : State) (r peak : Nat) : Nat :=
  max 1 ((List.range (peak - r)).filter (fun i => s.domainPoint (r + i))).length

/-- Reason code and value of a thermal request for a region. -/
def State.thermalReason (s : State) (region value : Nat) : Nat × Nat :=
  if s.flag THM_COOLANT THM_COOLANT_decline then (3, s.getF THM_COOLANT THM_COOLANT_excess)
  else (if regionDie region = 1 then 2 else 1, min 65535 value)

/-- The region of the largest value, the lowest among equals. -/
def largestOf (l : List (Nat × Nat)) : Option (Nat × Nat) :=
  l.foldl (fun m x => match m with
    | some y => if y.2 < x.2 then some x else some y
    | none => some x) none

/-- The smallest k that keeps every forecast peak below its throttle limit - 1 K, or 255. -/
def State.recessLength (s : State) (ctr n r : Nat) : Nat :=
  (((List.range 255).map (· + 1)).find? (fun k => (List.range 88).all (fun g =>
    decide (Config.forecastPeak ctr g k n r + 4 < 4 * s.throttleLimit g)))).getD 255

/-- The request that the forecast or a reached limit calls for. -/
def State.thermalRequest (s : State) (ctr r : Nat) (peaks : List (Nat × Nat)) : State :=
  let ask := fun (s : State) (k n region value : Nat) =>
    let (reason, v) := s.thermalReason region value
    (s.setF THM_FORECAST THM_FORECAST_k_last k).requestRecess k n r reason v
  if s.therm.limitReached then
    match largestOf (((List.range 88).map (fun g => (g, s.adopted g))).filter
        (fun x => decide (4 * s.throttleLimit x.1 ≤ x.2 + 4))) with
    | some (g, a) => ask s 255 1 g a
    | none => s
  else match largestOf (peaks.filter (fun x => decide (4 * s.throttleLimit x.1 ≤ x.2 + 4))) with
    | some (g, a) =>
      let n := s.pointsUntil r (s.bellCount + min 34180 (Config.forecastBell ctr g))
      ask s (s.recessLength ctr n r) n g a
    | none => s

/-- The forecast at a recess point of a running course. -/
def State.forecast (s : State) : State :=
  let ps := (List.range 4).filter s.atRecessPoint
  if ps = [] then s
  else
    let s := s.markPoint
    let ctr := s.freeCtr
    let s := s.drawn 1
    let peaks := (List.range 88).map (fun g => (g, Config.forecastPeak ctr g 0 0 0))
    let (g, a) := (largestOf peaks).getD (0, 0)
    let s := (s.setF THM_FORECAST THM_FORECAST_peak (min 1023 a)).setF THM_FORECAST THM_FORECAST_region g
    match s.nextPoint ps with
    | some r => s.thermalRequest ctr r peaks
    | none => s

def execThermalForecast (s : State) : Host.Outcome State Fault Refusal := live s s.forecast

/-! Coolant (R465). -/

/-- Installed flow in 0.1 L/min; 0 reads as 0x3C (R469). -/
def State.flow (s : State) : Nat :=
  let f := s.getF THM_COOLANT_CTRL THM_COOLANT_CTRL_flow
  if f = 0 then 0x3C else f

/-- Measured less expected rise, in 0.25 K, as numerator over 697 x flow x samples. -/
def State.riseExcess (s : State) : Int × Nat :=
  (s.therm.riseSum * (697 * s.flow) - 400 * s.therm.powerSum, 697 * s.flow * s.therm.samples)

/-- The evaluation after 1,024 samples. -/
def State.coolantEvaluate (s : State) : State :=
  if s.variant ≠ .ahn4W || s.therm.samples < 1024 then s
  else
    let (num, den) := s.riseExcess
    let above := decide ((s.getF THM_COOLANT_CTRL THM_COOLANT_CTRL_threshold : Int) * den < num)
    let n := if above then min 16 (s.therm.declineCount + 1) else 0
    let x := min 1023 (num / den).toNat
    let s := s.setF THM_COOLANT THM_COOLANT_excess x
    let s := { s with therm := { s.therm with samples := 0, riseSum := 0, powerSum := 0, declineCount := n } }
    if n = 16 && !s.flag THM_COOLANT THM_COOLANT_decline then
      (s.setB THM_COOLANT THM_COOLANT_decline true).raise evCoolantDecline 255 0 0 x 0 0 0
    else s

def execCoolantEvaluate (s : State) : Host.Outcome State Fault Refusal := live s s.coolantEvaluate

end Sys2Proof.Machine
end

