-- ==== Sys2Proof/Machine/Security.lean ====
section
/-! DEFINITION. Signed objects, image sets, the syllabus, licences, attestation, and the commands of the security block
(21). -/

namespace Sys2Proof.Machine

/-! Signed objects (R497-R500). -/

def soSize (b : List Byte) : Nat := leAt b 8 4
def soSlot (b : List Byte) : Nat := leAt b 0x0C 1

/-- Bytes of a trailer: key block 432, RSA signature 384, SLH-DSA signature 16,224. -/
def trailerBytes : Nat := 17040

/-- The prefix of a signed object of a kind is well formed, and names the object's own size. -/
def soPrefix (kind : Nat) (b : List Byte) : Bool :=
  leAt b 0 4 == 0x53474E57 && leAt b 4 2 == 1 && leAt b 6 2 == kind && soSize b == b.length && soSlot b < 4 &&
  leAt b 0x0D 3 == 0 && decide (16 + trailerBytes ≤ b.length)

def soKeyBlock (b : List Byte) : List Byte := bytesFrom b (b.length - trailerBytes) 432
def soRsa (b : List Byte) : List Byte := bytesFrom b (b.length - 16608) 384
def soSlh (b : List Byte) : List Byte := bytesFrom b (b.length - 16224) 16224

/-- What both signatures cover. -/
def soMessage (b : List Byte) : List Byte := b.take (b.length - 16608)

/-- Reasons of SEC_LAST_REJECT (R517). -/
def rjFORMAT : Nat := 1
def rjKEYSLOT : Nat := 2
def rjKEYMISMATCH : Nat := 3
def rjDIGEST : Nat := 4
def rjSIGNATURE : Nat := 5
def rjROLLBACK : Nat := 6
def rjBINDING : Nat := 7
def rjSTOREFULL : Nat := 8
def rjNOTLISTED : Nat := 9
def rjINTERRUPTED : Nat := 10
def rjLOADFAIL : Nat := 11
def rjSLOTEMPTY : Nat := 12
def rjSTACKMISMATCH : Nat := 13

/-- Outcome of a verification: reason (0 passes), and which signatures failed. -/
structure Verdict where
  reason : Nat
  rsa : Bool
  slh : Bool
  deriving DecidableEq, Repr

def passes : Verdict := { reason := 0, rsa := false, slh := false }

def failsFor (reason : Nat) : Verdict := { reason := reason, rsa := false, slh := false }

/-- The key slot is unrevoked and serves objects of the kind. -/
def State.slotServes (s : State) (slot kind : Nat) : Bool :=
  !bitSet (s.getF SEC_KEYS SEC_KEYS_revoked) slot && bitSet (s.getF SEC_KEYS SEC_KEYS_purpose) (4 * slot + kind - 1)

/-- Verification of a signed object (R499); body says that the body is well formed, digest that its digests match. -/
def State.verify (s : State) (kind : Nat) (b : List Byte) (body digest : Bool) : Verdict :=
  if !(soPrefix kind b && body) then failsFor rjFORMAT
  else
    let k := soKeyBlock b
    let rsa := !Config.rsaVerify (k.take 384) (soMessage b) (soRsa b)
    let slh := !Config.slhVerify (k.drop 384) (soMessage b) (soSlh b)
    let reason := if !s.slotServes (soSlot b) kind then rjKEYSLOT
      else if Config.sha384 k ≠ Config.fuseKeyHash (soSlot b) then rjKEYMISMATCH
      else if !digest then rjDIGEST
      else if rsa || slh then rjSIGNATURE else 0
    { reason := reason, rsa := rsa, slh := slh }

/-- SEC_LAST_REJECT takes a refusal; opcode 0 for S1 and S5. -/
def State.reject (s : State) (opcode : Nat) (v : Verdict) : State :=
  s.setReg SEC_LAST_REJECT (BitVec.ofNat 32 (opcode + 2 ^ 16 * v.reason + 2 ^ 24 * boolNat v.rsa + 2 ^ 25 * boolNat v.slh + 2 ^ 31))

/-! Images and sets (R501-R505). -/

def imComponent (b : List Byte) : Nat := leAt b 0x10 2
def imEpoch (b : List Byte) : Nat := leAt b 0x12 1
def imVersion (b : List Byte) : Nat := leAt b 0x14 4
def imSize (b : List Byte) : Nat := leAt b 0x18 4
def imDigest (b : List Byte) : List Byte := bytesFrom b 0x20 48
def imPayload (b : List Byte) : List Byte := bytesFrom b 0x80 (imSize b)

/-- Largest payload of a component. -/
def imLimit (c : Nat) : Nat := [0, 0x400000, 0x80000, 0x40000, 0x1000, 0x100000].getD c 0

/-- The body of an image is well formed. -/
def imBody (b : List Byte) : Bool :=
  1 ≤ imComponent b && imComponent b ≤ 5 && imEpoch b < 128 && leAt b 0x13 1 == 0 && imSize b ≤ imLimit (imComponent b) &&
  leAt b 0x1C 4 == 0 && leAt b 0x50 48 == 0 && b.length == 128 + imSize b + trailerBytes

def State.verifyImage (s : State) (b : List Byte) : Verdict :=
  s.verify 1 b (imBody b) (Config.sha384 (imPayload b) == imDigest b)

def State.floor (s : State) : Nat := s.getF SEC_KEYS SEC_KEYS_floor

/-- Slot of a component in a set; empty where its first four bytes are not the magic. -/
def State.slotOf (s : State) (set c : Nat) : List Byte :=
  let b := tgetD s.sec.slots (8 * set + c) []
  if leAt b 0 4 = 0x53474E57 then b else []

def State.putSlot (s : State) (set c : Nat) (b : List Byte) : State :=
  { s with sec := { s.sec with slots := if b = [] then tdel s.sec.slots (8 * set + c) else tput s.sec.slots (8 * set + c) b } }

def syEntries (b : List Byte) : Nat := leAt b 0x16 2
def syGeneration (b : List Byte) : Nat := leAt b 0x10 4
def syFloor (b : List Byte) : Nat := leAt b 0x14 1
def syRevoke (b : List Byte) : Nat := leAt b 0x15 1

/-- The body of a syllabus is well formed (R504). -/
def syBody (b : List Byte) : Bool :=
  1 ≤ syEntries b && syEntries b ≤ 256 && syFloor b < 128 && syRevoke b < 16 && leAt b 0x18 40 == 0 &&
  b.length == 0x40 + 288 * syEntries b + trailerBytes &&
  (List.range (syEntries b)).all (fun i => leAt b (0x40 + 288 * i + 3) 5 == 0 &&
    (List.range 5).all (fun k => leAt b (0x40 + 288 * i + 8 + 56 * k) 4 == k + 1))

def State.verifySyllabus (s : State) (b : List Byte) : Verdict := s.verify 2 b (syBody b) true

/-- Entry i of the governing syllabus holds the set, and names the stack's steppings (R505). -/
def State.entryLists (s : State) (set i : Nat) : Bool :=
  let b := s.sec.syllabus
  let e := 0x40 + 288 * i
  let st := s.getF SEC_STEPPING
  bitSet (leAt b e 1) (st SEC_STEPPING_bd) && bitSet (leAt b (e + 2) 1) (st SEC_STEPPING_cd) &&
  (List.range 4).all (fun l => bitSet (leAt b (e + 1) 1) (bitsAt (st SEC_STEPPING_ml) (4 * l) 4)) &&
  (List.range 5).all (fun k =>
    let img := s.slotOf set (k + 1)
    img != [] && leAt b (e + 8 + 56 * k + 4) 4 == imVersion img && bytesFrom b (e + 8 + 56 * k + 8) 48 == imDigest img)

def State.listed (s : State) (set : Nat) : Bool := (List.range (syEntries s.sec.syllabus)).any (s.entryLists set)

def State.runningSet (s : State) : Nat := s.getF SEC_SET SEC_SET_running

/-- The staging set (R509): never the golden set, never the running one. -/
def stagingOf (running known : Nat) : Nat :=
  if running = 0 then 1 else if running = 1 then 0 else if known = 0 then 1 else 0

/-- SEC_SET shows the staging set and which of its slots hold an image. -/
def State.showSets (s : State) : State :=
  let g := stagingOf s.runningSet (s.getF SEC_SET SEC_SET_known_good)
  (s.setF SEC_SET SEC_SET_staging g).setF SEC_SET SEC_SET_slots
    (maskOf ((List.range 5).filter (fun k => s.slotOf g (k + 1) != [])))

/-- A set's failed mark, an alternative of the carry block (R507, 20 R477). -/
def State.setFailed (s : State) (k : Nat) : Bool := s.bring.carry.alts.contains k

/-- The carry block takes or drops an alternative. -/
def State.putAlt (s : State) (i : Nat) (on : Bool) : State :=
  let c := s.bring.carry
  let l := c.alts.filter (fun x => x != i)
  ({ s with bring := { s.bring with carry := { c with alts := if on then l ++ [i] else l } } }).writeCarry

def State.clearFailed (s : State) (k : Nat) : State := if s.setFailed k then s.putAlt k false else s

/-- The first failure among a set's images: empty slots, then verification, in order of component. -/
def State.imagesVerdict (s : State) (set : Nat) : Verdict :=
  ((List.range 5).foldl (fun (m : Verdict) k =>
    if m.reason ≠ 0 then m
    else
      let b := s.slotOf set (k + 1)
      if b = [] then failsFor rjSLOTEMPTY else if imComponent b ≠ k + 1 then failsFor rjFORMAT else s.verifyImage b) passes)

/-- Whether a candidate set may start (R507): the syllabus, the images, the listing, the floor, and the load itself. -/
def State.trySet (s : State) (set : Nat) (loadFails : Bool) : Verdict :=
  let y := s.verifySyllabus s.sec.syllabus
  let v := s.imagesVerdict set
  if y.reason ≠ 0 then y
  else if v.reason ≠ 0 then v
  else if !s.listed set then failsFor rjNOTLISTED
  else if (List.range 5).any (fun k => imEpoch (s.slotOf set (k + 1)) < s.floor) then failsFor rjROLLBACK
  else if loadFails then failsFor rjLOADFAIL else passes

/-- The resident runtime enters every general core (R502, 06 R176). -/
def State.loadRuntime (s : State) (set : Nat) : State :=
  let p := imPayload (s.slotOf set 4)
  { s with mem := forEach (List.range 16384) s.mem (fun m core =>
      forEach (List.range (ceilDiv p.length 4)) m (fun m i => lmStore m (lmAddr core (4 * i)) (leAt p (4 * i) 4) false)) }

/-- A set's images enter their units; the control-core firmware stands from offset 0 of control-complex memory (log entry
5). -/
def State.loadSet (s : State) (set : Nat) : State := (s.ccWrite 0 (imPayload (s.slotOf set 1))).loadRuntime set

/-! Licences (R512-R514). -/

def liId (b : List Byte) : Nat := leAt b 0x18 4
def liFeatures (b : List Byte) : Nat := leAt b 0x1C 4
def liSize (b : List Byte) : Nat := leAt b 0x20 4

def liBody (b : List Byte) : Bool :=
  liFeatures b < 1024 && bitsAt (liFeatures b) 8 2 < 3 && 1 ≤ liSize b && liSize b ≤ 65536 && leAt b 0x24 28 == 0 &&
  b.length == 64 + trailerBytes

def State.verifyLicence (s : State) (b : List Byte) : Verdict := s.verify 3 b (liBody b) true

/-- Place that a licence takes: that of its own id, else the first empty one. -/
def State.licencePlace (s : State) (id : Nat) : Option Nat :=
  match s.sec.licences.find? (fun x => liId x.2 == id) with
  | some x => some x.1
  | none => (List.range 16).find? (fun i => (tfind s.sec.licences i).isNone)

/-! Attestation (R515, R516). -/

def State.certificate : List Byte := bytesFrom Config.deviceCertificate 0 17536

/-- The report for a nonce. -/
def State.report (s : State) (nonce : List Byte) : List Byte :=
  let flags := boolNat (s.runningSet == 2) + 2 * boolNat s.sec.fallback.isSome + 4 * s.getF SEC_SET SEC_SET_pending
  let valid := (List.range 16).flatMap (fun i =>
    let b := tgetD s.sec.licences i []
    if b ≠ [] && (s.verifyLicence b).reason = 0 then b else [])
  let forms := List.range 16
  let body :=
    leBytes 4 0x53474E57 ++ leBytes 2 1 ++ leBytes 2 5 ++ leBytes 4 35088 ++ leBytes 1 0xFF ++ zeros 3 ++
    leBytes 8 s.serial ++ leBytes 2 s.deviceId ++ leBytes 1 s.partCount ++ leBytes 1 flags ++ leBytes 4 s.startNo ++
    leBytes 8 s.bellCount ++ bytesFrom nonce 0 32 ++ leBytes 4 (s.reg SEC_STEPPING).toNat ++
    leBytes 1 ((s.reg SEC_SET).toNat % 256) ++ leBytes 1 s.floor ++ zeros 2 ++ leBytes 4 (s.reg SEC_SYLLABUS).toNat ++
    leBytes 4 (s.getF SEC_LICENCE SEC_LICENCE_features) ++ leBytes 4 (s.getF SEC_LICENCE_SIZE SEC_LICENCE_SIZE_max_size) ++
    zeros 4 ++ bytesFrom (Config.sha384 s.sec.syllabus) 0 48 ++ bytesFrom (Config.sha384 valid) 0 48 ++
    (List.range 5).flatMap (fun k => imDigest (s.slotOf s.runningSet (k + 1))) ++
    leBytes 2 ((List.range 288).filter (fun m => !s.seatGood m)).length ++ leBytes 2 (maskOf (forms.filter s.excluded)) ++
    leBytes 2 (maskOf (forms.filter (fun f => s.flag (STK_FORM_STATUS f) STK_FORM_STATUS_short))) ++ zeros 74 ++
    State.certificate
  let signed := body ++ bytesFrom State.certificate 64 432
  signed ++ bytesFrom (Config.attestSign signed) 0 16608

/-! The commands of the security block, one at a time (R509-R513, R516). -/

/-- A command fails for the reason of a verdict. -/
def State.secReject (s : State) (c : Cmd) (st : Nat) (v : Verdict) : State := (s.reject c.pkt.opcode v).fail c st

/-- A command becomes the one that runs. -/
def State.secRun (s : State) (c : Cmd) (b : List Byte) : State :=
  ({ s with sec := { s.sec with job := some { ring := c.ring, tag := c.pkt.tag, data := b } } }).putCmd c
    { c with phase := .active }

/-- IMAGE_STAGE: the slot is emptied, the image written and verified. -/
def State.stageImage (s : State) (c : Cmd) (b : List Byte) : State :=
  if !(soPrefix 1 b && imBody b) then s.secReject c stIMAGE_FORMAT (failsFor rjFORMAT)
  else
    let s := (s.putSlot (s.getF SEC_SET SEC_SET_staging) (imComponent b) []).showSets
    let v := s.verifyImage b
    if imEpoch b < s.floor then s.secReject c stIMAGE_FORMAT (failsFor rjROLLBACK)
    else if v.reason ≠ 0 then s.secReject c stSIG_INVALID v
    else s.secRun c b

/-- SYLLABUS_LOAD: verification, then what may not fall or name its own signer. -/
def State.stageSyllabus (s : State) (c : Cmd) (b : List Byte) : State :=
  let v := s.verifySyllabus b
  if v.reason ≠ 0 then s.secReject c stSIG_INVALID v
  else if syGeneration b ≤ (s.reg SEC_SYLLABUS).toNat || syFloor b < s.floor || bitSet (syRevoke b) (soSlot b) then
    s.secReject c stIMAGE_FORMAT (failsFor rjFORMAT)
  else s.secRun c b

/-- LICENCE_LOAD: verification, binding, a place. -/
def State.stageLicence (s : State) (c : Cmd) (b : List Byte) : State :=
  let v := s.verifyLicence b
  if v.reason ≠ 0 then s.secReject c stSIG_INVALID v
  else if leAt b 0x10 8 ≠ s.serial then s.secReject c stLICENCE_BINDING (failsFor rjBINDING)
  else if (s.licencePlace (liId b)).isNone then s.secReject c stDEVICE_STATE (failsFor rjSTOREFULL)
  else s.secRun c b

/-- ATTEST: the nonce is read, the target checked, the report formed. -/
def State.stageReport (s : State) (c : Cmd) : State :=
  let ((n, st), s) := s.readObject c.pkt.p0 32
  if st ≠ 0 then s.fail c st
  else match s.svcRefuse c.pkt.p1 35088 true with
    | some e => s.failAt c e 1 0
    | none => s.secRun c (s.report n)

/-- A command's turn comes. -/
def State.secBegin (s : State) (c : Cmd) : State :=
  if c.pkt.opcode = opATTEST then s.stageReport c
  else if c.pkt.opcode = opIMAGE_ACTIVATE then s.secRun c []
  else
    let ((b, st), s) := s.readObject c.pkt.p0 c.pkt.p1
    if st ≠ 0 then s.fail c st
    else if c.pkt.opcode = opIMAGE_STAGE then s.stageImage c b
    else if c.pkt.opcode = opSYLLABUS_LOAD then s.stageSyllabus c b
    else s.stageLicence c b

/-- The next of the waiting commands that does not fail at once runs. -/
def secNext : List SecJob → State → State
  | [], s => { s with sec := { s.sec with waiting := [] } }
  | j :: l, s =>
    let s := match s.findTag j.ring j.tag with
      | some c => s.secBegin c
      | none => s
    if s.sec.job.isSome then { s with sec := { s.sec with waiting := l } } else secNext l s

/-- The running command ends. -/
def State.secEnd (s : State) : State := secNext s.sec.waiting { s with sec := { s.sec with job := none } }

/-- A command of the block is accepted: it runs, or waits behind the one that does. -/
def State.secAccept (s : State) (c : Cmd) : State :=
  if s.sec.job.isSome then
    let j : SecJob := { ring := c.ring, tag := c.pkt.tag, data := [] }
    let s : State := { s with sec := { s.sec with waiting := s.sec.waiting ++ [j] } }
    s.putCmd c { c with phase := .active }
  else s.secBegin c

def execCmdImageStage (ring tag : Nat) (s : State) : Host.Outcome State Fault Refusal :=
  live s (s.onCmd ring tag opIMAGE_STAGE State.secAccept)

def execCmdSyllabusLoad (ring tag : Nat) (s : State) : Host.Outcome State Fault Refusal :=
  live s (s.onCmd ring tag opSYLLABUS_LOAD State.secAccept)

def execCmdLicenceLoad (ring tag : Nat) (s : State) : Host.Outcome State Fault Refusal :=
  live s (s.onCmd ring tag opLICENCE_LOAD State.secAccept)

def execCmdAttest (ring tag : Nat) (s : State) : Host.Outcome State Fault Refusal :=
  live s (s.onCmd ring tag opATTEST State.secAccept)

/-- IMAGE_ACTIVATE: the listing is checked at acceptance, and pending reads 1 until completion. -/
def State.activate (s : State) (c : Cmd) : State :=
  if !s.listed c.pkt.p0 then s.secReject c stNOT_IN_SYLLABUS (failsFor rjNOTLISTED)
  else (s.setB SEC_SET SEC_SET_pending true).secAccept c

def execCmdImageActivate (ring tag : Nat) (s : State) : Host.Outcome State Fault Refusal :=
  live s (s.onCmd ring tag opIMAGE_ACTIVATE State.activate)

/-- The commit point of a command whose write has ended. -/
def State.secCommit (s : State) (c : Cmd) (b : List Byte) : State :=
  if c.pkt.opcode = opIMAGE_STAGE then
    let g := s.getF SEC_SET SEC_SET_staging
    (((s.putSlot g (imComponent b) b).clearFailed g).showSets).ok c 0
  else if c.pkt.opcode = opSYLLABUS_LOAD then
    let s := { s with sec := { s.sec with syllabus := b, syllabusOld := s.sec.syllabus } }
    (s.setReg SEC_SYLLABUS (BitVec.ofNat 32 (syGeneration b))).ok c 0
  else if c.pkt.opcode = opLICENCE_LOAD then
    let s := match s.licencePlace (liId b) with
      | some i => { s with sec := { s.sec with licences := tput s.sec.licences i b } }
      | none => s
    (s.setF SEC_LICENCE SEC_LICENCE_stored s.sec.licences.length).ok c 0
  else
    let (_, s) := s.svcWrite c.pkt.p1 b
    s.ok c 0

/-- The running command's flash write, or its report, ends; the report is written in the windows of a service access. -/
def State.secDone (s : State) : State :=
  match s.sec.job with
  | some j => match s.findTag j.ring j.tag with
    | some c =>
      if c.pkt.opcode = opIMAGE_ACTIVATE || (c.pkt.opcode == opATTEST && !s.rangeOpen c.pkt.p1 35088) then s
      else (s.secCommit c j.data).secEnd
    | none => s.secEnd
  | none => s

def execSecurityCommandDone (s : State) : Host.Outcome State Fault Refusal := live s s.secDone

/-! Activation (R511). -/

/-- No partition is starting, running or halting. -/
def State.atCourseBoundary (s : State) : Bool :=
  (List.range 4).all (fun p => !(s.courseState p == csStarting || s.courseRunning p))

/-- IMAGE_ACTIVATE completes. -/
def State.activateEnd (s : State) (c : Cmd) : State := ((s.setB SEC_SET SEC_SET_pending false).ok c 0).secEnd

/-- The commit point: boot takes the named set, and the units begin to switch; the running set changes nothing. -/
def State.activateCommit (s : State) (c : Cmd) : State :=
  let k := c.pkt.p0
  if k = s.runningSet then s.activateEnd c
  else
    let s := (s.setF SEC_SET SEC_SET_boot k).clearFailed k
    let w : SetSwitch := { set := k, from_ := s.runningSet, ring := c.ring, tag := c.pkt.tag }
    ({ s with sec := { s.sec with switch := some w } }).putCmd c { c with phase := .committed }

def execImageActivateCommit (s : State) : Host.Outcome State Fault Refusal :=
  live s (match s.sec.job with
    | some j => match s.findTag j.ring j.tag with
      | some c => if c.pkt.opcode = opIMAGE_ACTIVATE && c.phase == .active && s.atCourseBoundary then s.activateCommit c else s
      | none => s
    | none => s)

/-- The units have switched, or one rejected its image and every unit is back at the previous set. -/
def State.switchDone (s : State) (rejected : Bool) : State :=
  match s.sec.switch with
  | none => s
  | some w =>
    let s := { s with sec := { s.sec with switch := none } }
    let s := if rejected then
        (s.reject opIMAGE_ACTIVATE (failsFor rjLOADFAIL)).raise evImageFallback 255 0 0 w.from_ rjLOADFAIL 0 0
      else
        let s := ((s.setF SEC_SET SEC_SET_running w.set).loadSet w.set).showSets
        let s := { s with sec := { s.sec with activated := some (w.set, s.bellCount) } }
        s.raise evImageActivated 255 0 0 w.set 0 0 0
    match s.findTag w.ring w.tag with
    | some c => s.activateEnd c
    | none => s.secEnd

def execImageSwitchDone (rejected : Bool) (s : State) : Host.Outcome State Fault Refusal := live s (s.switchDone rejected)

/-- 2^20 bells after an activation without a return. -/
def State.knownGood (s : State) : State :=
  match s.sec.activated with
  | some (k, b) =>
    if b + 2 ^ 20 ≤ s.bellCount then
      let s := s.setF SEC_SET SEC_SET_known_good k
      ({ s with sec := { s.sec with activated := none } } : State).showSets
    else s
  | none => s

def execKnownGoodUpdate (s : State) : Host.Outcome State Fault Refusal := live s s.knownGood

end Sys2Proof.Machine
end

