-- ==== Sys2Proof/Machine/Resets.lean ====
section
/-! DEFINITION. Power-good, the stack reset in its three steps, and the watchdog (17 R429, R430, 18 R438, 20 R471, R479). -/

namespace Sys2Proof.Machine

/-! Steps of the ledger (20 R477). -/

/-- Step code of a step index. -/
def stepCode (i : Nat) : Nat :=
  if i < 3 then 0x1000 + i
  else if i < 7 then 0x2000 + (i - 3)
  else if i = 7 then 0x2010
  else if i < 12 then 0x3000 + (i - 8)
  else if i < 300 then 0x4000 + (i - 12)
  else if i < 316 then 0x4200 + (i - 300)
  else 0x6000 + (i - 316)

/-- Stage of a step index. -/
def stepStage (i : Nat) : Nat :=
  if i < 3 then 1 else if i < 8 then 2 else if i < 12 then 3 else if i < 316 then 4 else 6

/-- Append a record about a step. -/
def State.logStep (s : State) (kind i detail : Nat) : State := s.logAppend kind (stepStage i) (stepCode i) detail []

/-! Power-good (18 R438, 20 R470). -/

/-- What a module holds when its domains have come up: everything as at reset but the flash, the ledger and the VPM's
store; the lockers hold undefined data (08 R250). -/
def State.poweredUp (s : State) : State :=
  let b := s.bring
  let undef := (List.range 256).map (fun lt => (lt, s.freeCtr + lt * 2 ^ 30))
  { State.reset with
    freeCtr := s.freeCtr + 2 ^ 38
    variant := s.variant
    out := s.out
    pending := s.pending
    stored := s.stored
    mem := { MemSt.reset with undef := undef }
    bring := { BringSt.reset with carry := b.carry, log := b.log, nextSeq := b.nextSeq, hold := b.holdNext }
    sec := { s.sec with job := none, waiting := [], switch := none, activated := none, fallback := none, fallbackDue := false } }

/-- VCMP's set point as fused into the part, 600 to 800 mV (R439). -/
def fusedVcmp : Nat := 600 + Config.fuseVcmp % 201

/-- The fused set point is in force. -/
def State.fuseSetpoint (s : State) : State :=
  (s.setF PWR_VCMP PWR_VCMP_fused_mv fusedVcmp).setF PWR_VCMP PWR_VCMP_setpoint_mv fusedVcmp

/-- Every domain has reached its setpoint: PGOOD_N is driven low, S0 ends with its card, S1 begins. Operands: the input in
10 mV, and the time of S0 in µs. -/
def State.powerGood (s : State) (volts duration : Nat) : State :=
  let s := s.poweredUp.fuseSetpoint.setF PWR_INPUT PWR_INPUT_volts volts
  let s := s.writeCard 0 cardPASS duration 0 [volts, fusedVcmp, 0, 0]
  s.clearCards 1

def execPowerGood (volts duration : Nat) (s : State) : Host.Outcome State Fault Refusal :=
  .next (if s.power.phase = .rising then s.powerGood volts duration else s)

/-! Requests (17 R429). -/

/-- A stack reset is requested; one that is pending already keeps its cause, and waits for no record any more. -/
def State.requestReset (s : State) (cause : Nat) : State :=
  match s.clock.resetPending with
  | some _ => { s with clock := { s.clock with resetMsg := none } }
  | none => { s with clock := { s.clock with resetPending := some cause } }

/-- The stage's bound expires while it runs: the watchdog requests a reset, and the start counts as unready. Operand: index
of the step under way, whose INTENT stands in the ledger without an end. -/
def State.watchdog (s : State) (step : Option Nat) : State :=
  let st := s.getF BRG_STAGE BRG_STAGE_stage
  if s.getF BRG_STAGE BRG_STAGE_state ≠ 0 || st = 0 then s
  else
    let s := match step with
      | some i => if stepStage i = st then s.logStep logINTENT i 0 else s
      | none => s
    (s.setUnready (min 15 (s.getF BRG_STAGE BRG_STAGE_unready + 1))).requestReset 2

def execWatchdogExpiry (step : Option Nat) (s : State) : Host.Outcome State Fault Refusal := live s (s.watchdog step)

/-! The reset begins (17 R430, 06 R201, 08 R250). -/

/-- The bytes that a COPY writes to lockers. -/
def lockerTargets (lt c : Nat) (k : CopyRun) : List (Nat × Nat) :=
  match pathOf lt c k with
  | some p =>
    if p = .toLk8 || p = .toLocker then (List.range k.rows).flatMap (fun r => beatWrites p (k.dst + r * k.dstStride) 0 k.rowBytes)
    else []
  | none => []

/-- Bytes take undefined values (R201). -/
def State.scramble (s : State) (a n : Nat) : State :=
  ({ s with mem := memWrite s.mem a (s.freeBytes n) }).drawn n

/-- The vertical transfer of a channel ends: RESET_LOST, its target bytes undefined. -/
def State.loseTransfer (s : State) (lt c : Nat) : State :=
  let ch := s.chan (8 * lt + c)
  let vertical := !ch.ops.isEmpty || (match ch.copy with
    | some k => (match pathOf lt c k with
      | some p => p.locker
      | none => false)
    | none => false)
  if vertical then
    let s := match ch.copy with
      | some k => forEach (lockerTargets lt c k) s (fun (s : State) (x : Nat × Nat) => s.scramble x.1 x.2)
      | none => s
    let s := forEach (ch.ops.filter (·.write)) s (fun s o => s.scramble o.addr 8)
    let r := MOV_STATUS_LT lt c
    let s := ((s.setF r MOV_STATUS_LT_status 0x15).setB r MOV_STATUS_LT_busy false).setB r MOV_STATUS_LT_reset_lost true
    s.modChan (8 * lt + c) (fun ch => { ch with copy := none, ind := none, ops := [] })
  else s

/-- Time 0 to 1 µs: HALT of every running course, self-refresh of every trained layer, the end of vertical transfers. -/
def State.resetStarts (s : State) : State :=
  let s := { s with clock := { s.clock with resetBegun := true } }
  let s := forEach ((List.range 4).filter s.courseRunning) s (fun s p => s.declareHalt p hcReset)
  let s := forEach ((List.range 4).filter s.layerTrained) s (fun s l => s.modLayer l (fun y => { y with selfRefresh := true }))
  forEach (s.chans.map (·.1)) s (fun s x => s.loseTransfer (x / 8) (x % 8))

/-- A stack reset is due: requested, not begun, and with no record of a RESET still to leave the pins (14 R392). -/
def State.resetDue (s : State) : Bool :=
  s.clock.resetPending.isSome && !s.clock.resetBegun && (match s.clock.resetMsg with
    | some n => !(s.mxl.prioQ ++ s.mxl.cmdQ).any (fun t => t.msg == n)
    | none => true)

def execStackReset (s : State) : Host.Outcome State Fault Refusal :=
  live s (if s.resetDue then s.resetStarts else s)

/-! The gate closes (17 R430, 14 R392, 22 R518). -/

/-- Commands that have not reached DONE: accepted ones, and entries that rings have not fetched. -/
def State.unfinished (s : State) : Nat :=
  s.cmds.length + ((List.range 64).filter s.ringOn).foldl (fun n r => n + s.ringPending r) 0 - s.skips.length

/-- 2 µs: every derived clock stops and reset is asserted on every layer and the management block. -/
def State.gateCloses (s : State) : State :=
  let s := s.setF CMD_RESET_INFO CMD_RESET_INFO_lost (min 2047 s.unfinished)
  let s := s.setF MGMT_STATUS MGMT_STATUS_i3c_addr 0
  { s with
    clock := { s.clock with gateClosed := true }
    mgmt := { s.mgmt with ir := 2, drive := 0 } }

def execStackResetGateClose (s : State) : Host.Outcome State Fault Refusal :=
  live s (if s.clock.resetBegun then s.gateCloses else s)

/-! Release (00 R15, 07 R209, 10, 11 R308, 17 R430). -/

/-- A register after a stack reset: its preserved bits, reset values elsewhere. -/
def resetWord (a : Nat) (w : Word) : Word :=
  match regKind a with
  | some k =>
    let p := BitVec.ofNat 32 k.pres
    (regReset a &&& ~~~p) ||| (w &&& p)
  | none => regReset a

def resetRegs (t : Tbl Word) : Tbl Word :=
  (t.map (fun x => (x.1, resetWord x.1 x.2))).filter (fun x => x.2 != regReset x.1)

/-- Memories through a stack reset: every slot of every tile buffer is zeroed, the rest stands. -/
def resetMem (m : MemSt) : MemSt := (List.range 256).foldl tbClear m

/-- The registers that show failed phases, which stay disabled (18 R441). -/
def State.showPhases (s : State) : State :=
  let failed := (List.range 376).filter s.phaseFailed
  let s := forEach (List.range 6) s (fun s d => s.setF (PWR_DOMAIN d) PWR_DOMAIN_phases_good
    (domainPhases d - (failed.filter (fun ph => phaseDomain ph == d)).length))
  forEach (List.range 16) s (fun s f =>
    (s.setF (PWR_FORM f) PWR_FORM_phases_good (18 - (failed.filter (fun ph => ph / 18 == f)).length)).showCeiling f)

/-- What a stack reset leaves: preserved registers, the contents of the lockers, energy counters, ledger and flash. -/
def State.afterReset (s : State) : State :=
  let b := s.bring
  { State.reset with
    regs := resetRegs s.regs
    mem := resetMem s.mem
    freeCtr := s.freeCtr
    variant := s.variant
    layers := s.layers.map (fun x => (x.1, { layer0 with selfRefresh := x.2.selfRefresh }))
    energy := s.energy
    power := { PowerSt.reset with phase := s.power.phase, pgoodLow := s.power.pgoodLow }
    stored := s.stored
    bring := { BringSt.reset with carry := b.carry, log := b.log, nextSeq := b.nextSeq, hold := b.holdNext }
    sec := { s.sec with job := none, waiting := [], switch := none, activated := none, fallback := none, fallbackDue := false }
    out := s.out
    pending := s.pending }

/-- Relock on REFCLK, release, and the start of S1. -/
def State.released (s : State) : State :=
  let cause := s.clock.resetPending.getD 0
  let s := s.afterReset.showPhases
  let s := (s.setF CLK_RESET_CAUSE CLK_RESET_CAUSE_cause cause).incF CLK_RESET_CAUSE CLK_RESET_CAUSE_count 1
  let hold := s.bring.hold || decide (8 ≤ s.getF BRG_STAGE BRG_STAGE_unready)
  ({ s with bring := { s.bring with hold := hold } }).clearCards 1

def execStackResetRelease (s : State) : Host.Outcome State Fault Refusal :=
  .next (if s.power.phase = .on && s.clock.gateClosed then s.released else s)

end Sys2Proof.Machine
end

