-- ==== Sys2Proof/Machine/Stages.lean ====
section
/-! DEFINITION. The stages of a start S1 to S6 and S8: fuses and ledger, choice of an image set, clocks, memory layers,
seating, licences, ports (01 R29, 08 R250, 17 R419, R424, R425, 20 R470-R490, 21 R503-R508, R514). -/

namespace Sys2Proof.Machine

/-! Steps with alternatives (20 R477, R478). -/

def State.stageIs (s : State) (stage state : Nat) : Bool :=
  s.getF BRG_STAGE BRG_STAGE_stage == stage && s.getF BRG_STAGE BRG_STAGE_state == state

def State.altInForce (s : State) (i : Nat) : Bool := s.bring.carry.alts.contains i

/-- Every start whose number is a multiple of 16 runs again the steps whose alternatives are in force. -/
def State.retries (s : State) : Bool := s.startNo % 16 == 0

/-- A step runs, or its alternative in force does: the records of it, and whether the alternative was taken. -/
def State.runStep (s : State) (i : Nat) (fails : Bool) : Bool × State :=
  if s.altInForce i then
    if s.retries then
      let s := s.logStep logRETRY i 0
      if fails then (true, s.logStep logALTERNATIVE i 0) else (false, (s.logStep logDONE i 0).putAlt i false)
    else (true, s.logStep logALTERNATIVE i 0)
  else
    let s := s.logStep logINTENT i 0
    if fails then (true, (s.logStep logALTERNATIVE i 0).putAlt i true) else (false, s.logStep logDONE i 0)

/-- A stage ends with result FAIL: the device stays there, FAILED, or HELD where this start is to hold (R477, R479). -/
def State.stageEndsFail (s : State) (stage duration firstFail : Nat) (c : List Nat) : State :=
  (s.writeCard stage cardFAIL duration firstFail c).setStage stage (if s.bring.hold then 4 else 3)

/-- A stage ends and the next begins. -/
def State.stagePasses (s : State) (stage duration : Nat) (degraded : Bool) (c : List Nat) : State :=
  ((s.writeCard stage (if degraded then cardPASSALT else cardPASS) duration 0 c).clearCards (stage + 1)).setStage (stage + 1) 0

/-! S1 (R461, R470, R476, R477, R507). -/

/-- What S1 loads from fuses, or from what a variant is (00 R2, R15, 09 R263, R280, 18 R439, R450, 21 R517). -/
def State.loadFuses (s : State) : State :=
  let s := s.setPair SEC_SERIAL_LO (Config.fuseSerial % 2 ^ 64)
  let s := s.setReg SEC_STEPPING (BitVec.ofNat 32 (Config.fuseStepping % 2 ^ 24))
  let keys := s.sec.fuseRevoked % 16 + 2 ^ 4 * (Config.fusePurpose % 2 ^ 16) + 2 ^ 20 * (s.sec.fuseFloor % 128)
  let s := s.setReg SEC_KEYS (BitVec.ofNat 32 keys)
  let s := s.fuseSetpoint.setF NBU_TOKEN_LIMIT NBU_TOKEN_LIMIT_max (if s.variant = .ahn4H then 0x2000 else 0x4000)
  let s := s.setF PWR_CAP PWR_CAP_cap_w (designPower s.variant)
  s.setF (PWR_PART 0) PWR_PART_budget_w (designPower s.variant)

/-- Number of the last start that the ledger records. -/
def State.lastStart (s : State) : Nat := s.bring.log.foldl (fun n r => max n r.start) s.bring.carry.start

/-- An INTENT of a start that no DONE or ALTERNATIVE of the same step ends. -/
def openIntent (l : List LogRec) (start i : Nat) : Bool :=
  l.any (fun r => r.kind == logINTENT && r.start == start && r.step == stepCode i &&
    !l.any (fun e => (e.kind == logDONE || e.kind == logALTERNATIVE) && e.start == start && e.step == r.step &&
      decide (r.seq < e.seq)))

/-- A step in which the last start ended takes its alternative. -/
def State.takeInterrupted (s : State) (l : List Nat) : State :=
  forEach l s (fun s i =>
    if i < 3 then ((s.reject 0 (failsFor rjINTERRUPTED)).logStep logALTERNATIVE i rjINTERRUPTED).putAlt i true
    else s.putAlt i true)

/-- The ledger is read: start number, shutdown cause, suspect sensors, interrupted steps. -/
def State.readLedger (s : State) : State :=
  let last := s.lastStart
  let broken := (List.range 322).filter (openIntent s.bring.log last)
  let s := s.setReg BRG_START_COUNT (BitVec.ofNat 32 (last + 1))
  let s := s.logAppend logSTART 1 0 0 []
  let s := match s.stored with
    | some c => ({ s with stored := none } : State).logAppend logSHUTDOWN 0xFF 0 c.cause [c.cause, c.value + 2 ^ 16 * c.region]
    | none => s
  let s := forEach s.bring.carry.sensors s (fun s n => s.setB (THM_SENSOR n) THM_SENSOR_suspect true)
  s.takeInterrupted broken

/-- The newest shutdown in the ledger, as c1 and c2 of the S1 card; 0 with none. -/
def State.lastShutdown (s : State) : Nat × Nat :=
  match (s.bring.log.filter (fun r => r.kind == logSHUTDOWN)).getLast? with
  | some r => (r.body.getD 0 0, r.body.getD 1 0)
  | none => (0, 0)

/-- Candidate sets in order. -/
def candidates (boot : Nat) : List Nat := boot :: [0, 1, 2].filter (fun k => k != boot)

/-- Reason of the last ALTERNATIVE of a set's verification. -/
def State.setReason (s : State) (k : Nat) : Nat :=
  match (s.bring.log.filter (fun r => r.kind == logALTERNATIVE && r.step == stepCode k)).getLast? with
  | some r => r.detail
  | none => rjINTERRUPTED

/-- Candidates are tried until one passes; a set marked failed is skipped. -/
def chooseSet (loadFails : List Nat) : List Nat → State → Option Nat × State
  | [], s => (none, s)
  | k :: l, s =>
    if s.setFailed k then chooseSet loadFails l s
    else
      let s := s.logStep logINTENT k 0
      let v := s.trySet k (loadFails.contains k)
      if v.reason = 0 then (some k, s.logStep logDONE k 0)
      else chooseSet loadFails l (((s.reject 0 v).logStep logALTERNATIVE k v.reason).putAlt k true)

/-- A set starts: running and boot take it, its images enter their units. -/
def State.startSet (s : State) (first k : Nat) : State :=
  let s := ((s.setF SEC_SET SEC_SET_running k).setF SEC_SET SEC_SET_boot k).loadSet k
  let s := s.showSets
  if k = first then s
  else { s with sec := { s.sec with fallback := some (k, s.setReason first), fallbackDue := true } }

/-- S1. Operands: its duration in µs, and the sets whose load into their units fails. -/
def State.stageS1 (s : State) (duration : Nat) (loadFails : List Nat) : State :=
  let valid := s.bring.carry.valid
  let s := s.loadFuses.readLedger
  let s := s.setReg SEC_SYLLABUS (BitVec.ofNat 32 (syGeneration s.sec.syllabus))
  let first := s.getF SEC_SET SEC_SET_boot
  let (cause, value) := s.lastShutdown
  let reset := s.getF CLK_RESET_CAUSE CLK_RESET_CAUSE_cause
  match chooseSet loadFails (candidates first) s with
  | (some k, s) => (s.startSet first k).stagePasses 1 duration (!valid || k != first) [k, cause, value, reset]
  | (none, s) => s.showSets.stageEndsFail 1 duration (stepCode first + 2 ^ 16 * s.setReason first) [0, cause, value, reset]

def execStageS1Boot (duration : Nat) (loadFails : List Nat) (s : State) : Host.Outcome State Fault Refusal :=
  live s (if s.stageIs 1 0 then s.stageS1 duration loadFails else s)

/-! S2 (17 R419, R424, R425, 13 R353, R354, 20 R472). -/

/-- A seam segment: calibrated in the mode chosen, or in mode 0 where mode 1 fails; none where mode 0 fails too. -/
def State.seamStep (s : State) (m : Nat) (fails : List (Nat × Nat)) : Option State :=
  let mode1 := s.flag (CLK_SEAM m) CLK_SEAM_mode
  let (alt, s) := if mode1 then s.runStep (3 + m) (fails.contains (m, 1)) else (true, s)
  if alt && fails.contains (m, 0) then none
  else
    let s := s.setF (CLK_SEAM m) CLK_SEAM_active_mode (boolNat (!alt))
    some ((s.setSeamPhase m 0).setB (CLK_SEAM m) CLK_SEAM_calibrated true)

/-- The first segment that cannot be calibrated ends the work. -/
def seamSteps (fails : List (Nat × Nat)) : List Nat → State → Option Nat × State
  | [], s => (none, s)
  | m :: l, s =>
    match s.seamStep m fails with
    | some s => seamSteps fails l s
    | none => (some m, s)

def State.seamModes (s : State) : Nat := maskOf ((List.range 4).filter (fun m => s.seamMode m == 1))

def maxTrim (t : Tbl Int) : Nat := t.foldl (fun m x => max m x.2.natAbs) 0

def State.s2Words (s : State) : List Nat :=
  [s.seamModes, s.getF MXL_LANES MXL_LANES_good, s.getF MXL_STATE MXL_STATE_half_width, maxTrim s.clock.trims]

/-- The PLL locks on REFCLK, fields and seams are aligned, and the MXL begins to train. -/
def State.alignClocks (s : State) (duration : Nat) (fails : List (Nat × Nat)) (trims : List Int) : State :=
  let s := (s.setB CLK_REF CLK_REF_locked true).setB CLK_REF CLK_REF_refclk_present true
  let s := (s.setB CLK_REF CLK_REF_ref_sel false).setF CLK_REF CLK_REF_upstream_port 7
  let s := { s with clock := { s.clock with
    trims := (List.range 4).foldl (fun t f => tset t f (trims.getD f 0) 0) s.clock.trims } }
  match seamSteps fails (List.range 4) s with
  | (some m, s) => s.stageEndsFail 2 duration (stepCode (3 + m)) s.s2Words
  | (none, s) =>
    let s := if s.altInForce 7 then (if s.retries then s.logStep logRETRY 7 0 else s) else s.logStep logINTENT 7 0
    let s := if s.flag MXL_STATE MXL_STATE_enable && s.mxlSt = 0 then s.mxlTo 1 0 else s
    s.setStage 2 1

/-- The MXL is UP: the width it trained to settles step 7. -/
def State.mxlStep (s : State) : State :=
  let half := s.flag MXL_STATE MXL_STATE_half_width
  let s := s.logStep (if half then logALTERNATIVE else logDONE) 7 0
  if half = s.altInForce 7 then s else s.putAlt 7 half

/-- S2 ends; IMAGE_FALLBACK of this start is raised; a start that is to hold goes no further. -/
def State.s2Ends (s : State) (duration : Nat) : State :=
  let s := s.mxlStep
  let s := match s.sec.fallback with
    | some (k, r) =>
      if s.sec.fallbackDue then
        ({ s with sec := { s.sec with fallbackDue := false } } : State).raise evImageFallback 255 0 0 k r 0 0
      else s
    | none => s
  let lost := s.flag MXL_STATE MXL_STATE_half_width
  if s.bring.hold then
    (s.writeCard 2 (if lost then cardPASSALT else cardPASS) duration 0 s.s2Words).setStage 2 4
  else s.stagePasses 2 duration lost s.s2Words

/-- S2: first the alignment, then, with the MXL UP, its end. Operands: duration in µs, seam segments and modes whose
calibration fails, trims of the fields. -/
def State.stageS2 (s : State) (duration : Nat) (fails : List (Nat × Nat)) (trims : List Int) : State :=
  if s.stageIs 2 0 then s.alignClocks duration fails trims
  else if s.stageIs 2 1 && s.mxlUp then s.s2Ends duration
  else s

def execStageS2Clocks (duration : Nat) (seamFails : List (Nat × Nat)) (trims : List Int) (s : State) :
    Host.Outcome State Fault Refusal :=
  live s (s.stageS2 duration seamFails trims)

/-! S3 (08 R250, 01 R24, 20 R477). -/

/-- A layer is trained: refresh runs from now on, and self-refresh ends. -/
def State.trainLayer (s : State) (l : Nat) : State :=
  (s.setB (MEM_LAYER l) MEM_LAYER_trained true).modLayer l (fun y => { y with selfRefresh := false })

/-- A layer's training, or its alternative: one form at a time, the seats above a form whose columns fail dead. -/
def State.layerStep (s : State) (l : Nat) (fails : Bool) (badForms : List (Nat × Nat)) : State :=
  let (alt, s) := s.runStep (8 + l) fails
  let s := if alt then
      forEach (badForms.filter (fun x => x.1 == l && decide (x.2 < 16))) s (fun s x =>
        forEach (List.range 18) s (fun s k => if s.seatGood (18 * x.2 + k) then s.seatFails (18 * x.2 + k) 0x0B else s))
    else s
  s.trainLayer l

def State.goodSeats (s : State) : Nat := ((List.range 288).filter s.seatGood).length

/-- S3. Operands: duration in µs, layers whose training fails, layers and forms whose columns fail under the alternative,
layers whose alternative fails too, words corrected and columns failed in the quiz, seats it shows dead. -/
def State.stageS3 (s : State) (duration : Nat) (fails : List Nat) (badForms : List (Nat × Nat)) (lost : List Nat)
    (corrected columns : Nat) (deadSeats : List Nat) : State :=
  let good := s.goodSeats
  let s := forEach (List.range 4) s (fun s l =>
    if lost.contains l then (s.runStep (8 + l) true).2 else s.layerStep l (fails.contains l) badForms)
  let s := forEach deadSeats s (fun s m => if m < 288 && s.seatGood m then s.seatFails m 0x0B else s)
  let s := if s.goodSeats = good then s else s.writeCarry
  let words := [maskOf ((List.range 4).filter s.layerTrained), corrected, columns, good - s.goodSeats]
  match (List.range 4).find? lost.contains with
  | some l => s.stageEndsFail 3 duration (stepCode (8 + l)) words
  | none => s.stagePasses 3 duration (decide (s.goodSeats < good)) words

def execStageS3Memory (duration : Nat) (fails : List Nat) (badForms : List (Nat × Nat)) (lost : List Nat)
    (corrected columns : Nat) (deadSeats : List Nat) (s : State) : Host.Outcome State Fault Refusal :=
  live s (if s.stageIs 3 0 then s.stageS3 duration fails badForms lost corrected columns deadSeats else s)

/-! S4 (01 R29, 04 R143, 07 R209, 20 R480-R482, R490). -/

/-- Bit position of an exclusion index in an attendance entry. -/
def exclusionAt (col : Bool) (group : Nat) : Nat := (if col then 40 else 16) + 6 * (group % 4)

/-- A faulty physical row or column 0-32 of a group: covered where it is the one the group excludes, or enters an index that is
32, as of a group without a fault (R142); a second fault of the group is not covered. -/
def State.coverFault (s : State) (m : Nat) (col : Bool) (group value : Nat) : Bool × State :=
  let at_ := exclusionAt col group
  let e := s.seatEntry m
  if bitsAt e at_ 6 = value then (true, s)
  else if bitsAt e at_ 6 = 32 && decide (value < 32) then
    let e := e - 2 ^ at_ * 32 + 2 ^ at_ * value
    let c := s.bring.carry
    (true, { s with bring := { s.bring with carry := { c with seats := tput c.seats m e } } })
  else (false, s)

/-- The quiz found row or column 32 of a group faulty as well as another: no index covers both. -/
def faultAt32 (covers : List (Nat × Bool × Nat × Nat)) (c : Nat × Bool × Nat × Nat) : Bool :=
  c.2.2.2 != 32 && covers.any (fun x => x.1 == c.1 && x.2.1 == c.2.1 && x.2.2.1 % 4 == c.2.2.1 % 4 && x.2.2.2 == 32)

/-- The faults that the quiz of a seat found in its MXE; true where one is not covered. -/
def State.coverSeat (s : State) (m : Nat) (covers : List (Nat × Bool × Nat × Nat)) : Bool × State :=
  covers.foldl (fun (x : Bool × State) c =>
    if c.1 = m && faultAt32 covers c then (true, x.2)
    else if c.1 = m then
      let (done, t) := x.2.coverFault m c.2.1 c.2.2.1 c.2.2.2
      (x.1 || !done, t)
    else x) (false, s)

/-- The quiz of one seat: factory-dead seats are not tested, a seat whose quiz the last start ended in is field-dead. -/
def State.quizSeat (s : State) (m : Nat) (quiz : List (Nat × Nat)) (covers : List (Nat × Bool × Nat × Nat)) : State :=
  if s.seatStatus m = 1 then s
  else if s.altInForce (12 + m) then ((s.logStep logALTERNATIVE (12 + m) 0).refine m 0x01).putAlt (12 + m) false
  else
    let s := s.logStep logINTENT (12 + m) 0
    let (left, s) := s.coverSeat m covers
    let test := match quiz.find? (fun x => x.1 == m) with
      | some x => x.2 % 64
      | none => if left then 0x05 else 0
    let s := s.logStep (if test = 0x01 then logALTERNATIVE else logDONE) (12 + m) test
    s.refine m test

/-- The carried plan seats every tile of a form. -/
def State.planSeats (s : State) (f : Nat) : Bool :=
  s.bring.carry.valid && (List.range 16).all (fun k => tgetD s.bring.carry.plan (16 * f + k) 31 < 18)

/-- Tiles of a form whose carried seat is not good. -/
def State.displaced (s : State) (f : Nat) : List Nat :=
  ((List.range 16).map (fun k => 16 * f + k)).filter (fun lt => !s.seatGood (18 * f + tgetD s.bring.carry.plan lt 31))

/-- The carried plan in force, as it stood before the quiz. -/
def State.takePlan (s : State) (f : Nat) : State :=
  forEach (List.range 16) s (fun s k => s.putSeat (16 * f + k) (tgetD s.bring.carry.plan (16 * f + k) 31))

/-- A tile whose seat failed the quiz moves to the next substitute, its evacuation pending (R487, R490). It counts in
STK_SEAT_LT.moves as a substitution made while a course runs does: R490 applies the steps of R487, of which step 3 updates that
register, and 01 R35 says that moves counts in-service substitutions (DESIGN CHOICE, log entry 29). -/
def State.reseat (s : State) (lt : Nat) : State :=
  match s.nextSubstitute (ltForm lt) with
  | some k =>
    let old := s.seatOf lt
    let r := STK_SEAT_LT lt
    let s := (s.setF r STK_SEAT_LT_seat k).incF r STK_SEAT_LT_moves 1
    let s := (s.loseLockers lt true).setEvacPending lt true
    s.logAppend logSUBSTITUTION 4 0 0 [old, 18 * ltForm lt + k, 0, 0]
  | none => s

/-- A form is seated: by its carried plan where that is valid, afresh otherwise; excluded where its ungating failed. -/
def State.seatAtS4 (s : State) (f : Nat) (excluded : Bool) : State :=
  if excluded then (forEach (List.range 16) s (fun s k => s.putSeat (16 * f + k) 31)).showFormStatus f true
  else
    let plan := s.bring.carry.plan
    let t := s.takePlan f
    let moved := t.displaced f
    if s.planSeats f && !s.isolated f && moved.length ≤ (t.freeSeats f).length then
      let s := (forEach moved t (fun (s : State) lt => s.reseat lt)).showFormStatus f false
      forEach (List.range 16) s (fun s k => s.loadExclusions (16 * f + k))
    else
      let s := s.seatForm f
      forEach (List.range 16) s (fun s k =>
        let lt := 16 * f + k
        if s.present lt && s.seatIdx lt != tgetD plan lt 31 then s.loseLockers lt false else s)

def State.countForms (s : State) (p : State → Nat → Bool) : Nat := maskOf ((List.range 16).filter (p s))

def State.short (s : State) (f : Nat) : Bool := s.flag (STK_FORM_STATUS f) STK_FORM_STATUS_short

/-- S4. Operands: duration in µs, seats that fail a test of the quiz, faults found in MXEs (seat, column, group, index),
forms whose first ungating fails, path resistances measured. -/
def State.stageS4 (s : State) (duration : Nat) (quiz : List (Nat × Nat)) (covers : List (Nat × Bool × Nat × Nat))
    (gateFails rf : List Nat) : State :=
  let before := (List.range 288).filter s.seatGood
  let s := forEach (List.range 288) s (fun s m => s.quizSeat m quiz covers)
  let s := forEach (List.range 16) s (fun s f =>
    let (alt, s) := s.runStep (300 + f) (gateFails.contains f)
    s.seatAtS4 f alt)
  let s := forEach ((List.range 256).filter s.present) s (fun s lt => s.freshTile lt)
  let c := s.bring.carry
  let s : State := { s with
    bring := { s.bring with carry := { c with rf := (List.range 16).map (fun f => (f, rf.getD f 0)) } }
    therm := { s.therm with modelValid := true } }
  let s := s.writeCarry
  let dead := (before.filter (fun m => !s.seatGood m)).length
  let back := ((List.range 288).filter (fun m => s.seatGood m && !before.contains m)).length
  let ex := s.countForms State.excluded
  let sh := s.countForms State.short
  s.stagePasses 4 duration (decide (0 < ex + sh + dead))
    [288 - s.goodSeats, ex + 2 ^ 16 * sh, dead + (s.reg (BRG_CARD 3 7)).toNat, back]

def execStageS4Seating (duration : Nat) (quiz : List (Nat × Nat)) (covers : List (Nat × Bool × Nat × Nat))
    (gateFails rf : List Nat) (s : State) : Host.Outcome State Fault Refusal :=
  live s (if s.stageIs 4 0 then s.stageS4 duration quiz covers gateFails rf else s)

/-! S5 (21 R508, R514). -/

/-- Rights from the features of valid licences: bits [7:0] joined, the largest partitions field. -/
def joinFeatures (l : List Nat) : Nat :=
  (List.range 8).foldl (fun v i => if l.any (fun x => bitSet x i) then v + 2 ^ i else v) 0 +
    2 ^ 8 * l.foldl (fun m x => max m (bitsAt x 8 2)) 0

/-- Licences that fail are discarded and the rights formed. -/
def State.formRights (s : State) : State :=
  let verdicts := s.sec.licences.map (fun x => (x, s.verifyLicence x.2))
  let good := (verdicts.filter (fun y => y.2.reason == 0 && leAt y.1.2 0x10 8 == s.serial)).map (·.1)
  let s := forEach verdicts s (fun s y => if y.2.reason = 0 then s else s.reject 0 y.2)
  let f := joinFeatures (good.map (fun x => liFeatures x.2))
  let size := (good.map (fun x => liSize x.2)).foldl max 1
  let s := { s with sec := { s.sec with licences := good } }
  let s := s.setReg SEC_LICENCE (BitVec.ofNat 32 (f + 2 ^ 10 * good.length))
  let s := s.setF SEC_LICENCE_SIZE SEC_LICENCE_SIZE_max_size size
  forEach (List.range 6) s (fun s p => s.setB (PORT_STATE p) PORT_STATE_licensed (bitSet f p))

/-- S5. Operands: duration in µs, SEC_STEPPING as the dies' own stepping fuses give it. -/
def State.stageS5 (s : State) (duration stepping : Nat) : State :=
  let gen := (s.reg SEC_SYLLABUS).toNat
  if BitVec.ofNat 32 stepping ≠ s.reg SEC_STEPPING then
    (s.reject 0 (failsFor rjSTACKMISMATCH)).stageEndsFail 5 duration (2 ^ 16 * rjSTACKMISMATCH) [0, 0, gen, 0]
  else
    let s := s.formRights
    s.stagePasses 5 duration false
      [s.getF SEC_LICENCE SEC_LICENCE_features, s.getF SEC_LICENCE SEC_LICENCE_stored, gen, 0]

def execStageS5Licences (duration stepping : Nat) (s : State) : Host.Outcome State Fault Refusal :=
  live s (if s.stageIs 5 0 then s.stageS5 duration stepping else s)

/-! S6 (12 R323, R333, 20 R470, R477). -/

/-- The port belongs to a dimension of size 1 of the link map that is loaded (12 R322). -/
def State.portAlone (s : State) (p : Nat) : Bool :=
  s.map.loaded && (if p < 2 then s.map.nx else if p < 4 then s.map.ny else s.map.nz) == 1

/-- A licensed and enabled port begins to train; one whose alternative is in force is held DARK, and one of a dimension of size 1
stays so. -/
def State.portBegins (s : State) (p : Nat) : State :=
  if !(s.flag (PORT_STATE p) PORT_STATE_licensed && s.flag (PORT_STATE p) PORT_STATE_enable) || s.portAlone p then s
  else if s.altInForce (316 + p) && !s.retries then
    (s.logStep logALTERNATIVE (316 + p) 0).modPort p (fun t => { t with heldDark := true })
  else (s.logStep (if s.altInForce (316 + p) then logRETRY else logINTENT) (316 + p) 0).portTo p 1 0

/-- At the end of S6 a port that went DOWN takes its alternative. -/
def State.portEnds (s : State) (p : Nat) : State :=
  if !(s.flag (PORT_STATE p) PORT_STATE_licensed && s.flag (PORT_STATE p) PORT_STATE_enable) || s.portAlone p ||
      (s.altInForce (316 + p) && !s.retries) then s
  else if s.portSt p = 9 then
    let s := (s.logStep logALTERNATIVE (316 + p) 0).putAlt (316 + p) true
    (s.modPort p (fun t => { t with heldDark := true })).portTo p 0 0
  else
    let s := s.logStep logDONE (316 + p) 0
    if s.altInForce (316 + p) then s.putAlt (316 + p) false else s

def State.s6Words (s : State) : List Nat :=
  let up := (List.range 6).filter s.portUp
  let half := up.filter (fun p => s.flag (PORT_STATE p) PORT_STATE_half_width)
  let lanes := up.map (fun p => s.getF (PORT_LANES p) PORT_LANES_lanes_good)
  [maskOf up + 2 ^ 8 * maskOf half, lanes.foldl min (lanes.headD 0),
    (up.map (fun p => s.getF (PORT_LATENCY p) PORT_LATENCY_d_meas)).foldl max 0, s.deviceId]

/-- S6: first the ports begin to train, then, with the link map loaded, its end; S7 waits for BELL_JOIN. -/
def State.stageS6 (s : State) (duration : Nat) : State :=
  if s.stageIs 6 0 then (forEach (List.range 6) s State.portBegins).setStage 6 1
  else if s.stageIs 6 1 && s.map.loaded then
    let s := forEach (List.range 6) s State.portEnds
    let half := (List.range 6).any (fun p => s.portUp p && s.flag (PORT_STATE p) PORT_STATE_half_width)
    ((s.writeCard 6 (if half then cardPASSALT else cardPASS) duration 0 s.s6Words).clearCards 7).setStage 7 1
  else s

def execStageS6Ports (duration : Nat) (s : State) : Host.Outcome State Fault Refusal := live s (s.stageS6 duration)

/-! S8 (20 R479, 21 R506, R508). -/

/-- The governing syllabus raises the fused floor and blows the revocation bits it names. -/
def State.blowFuses (s : State) : State :=
  let y := s.sec.syllabus
  let floor := max s.sec.fuseFloor (syFloor y)
  let revoked := (List.range 4).foldl (fun v i => if bitSet (syRevoke y) i then withBit v i else v) s.sec.fuseRevoked
  let s := { s with sec := { s.sec with fuseFloor := floor, fuseRevoked := revoked } }
  (s.setF SEC_KEYS SEC_KEYS_floor floor).setF SEC_KEYS SEC_KEYS_revoked revoked

/-- Alternatives taken in this start. -/
def State.altsTaken (s : State) : Nat :=
  (s.bring.log.filter (fun r => r.kind == logALTERNATIVE && r.start == s.startNo)).length

/-- S8: ready. Operands: duration of the stage in µs, bring-up time in ms. -/
def State.stageS8 (s : State) (duration total : Nat) : State :=
  let s := s.blowFuses
  let s := (s.setF SEC_SET SEC_SET_known_good s.runningSet).setF BRG_STAGE BRG_STAGE_unready 0
  let s := s.showSets
  (s.writeCard 8 (if 0 < s.altsTaken then cardPASSALT else cardPASS) duration 0 [total, s.altsTaken, 0, 0]).setStage 8 2

def execStageS8Ready (duration total : Nat) (s : State) : Host.Outcome State Fault Refusal :=
  live s (if s.stageIs 8 0 then s.stageS8 duration total else s)

end Sys2Proof.Machine
end

