-- ==== Sys2Proof/Machine/Repair.lean ====
section
/-! DEFINITION. Exams of seats, EVACUATE, AREA_RESTORE and RENUMBER (20 R483-R485, R491, R493, R495). -/

namespace Sys2Proof.Machine

/-! Exams (R483, R484). -/

/-- A seat of the form has failed: what the form shows, and FORM_SHORT where its last substitute is gone. -/
def State.afterExam (s : State) (f spares : Nat) : State :=
  let s := s.showFormStatus f (s.excluded f)
  let s := s.writeCarry
  if 0 < spares && s.spares f = 0 && !s.excluded f then s.raise evFormShort (s.partOfForm f) 5 f 0 0 0 0 else s

def State.examCount (s : State) (n : Nat) : State := s.incF BRG_EXAM_STATUS BRG_EXAM_STATUS_failed n

/-- Substitute seats, ascending. -/
def State.substituteSeats (s : State) : List Nat :=
  (List.range 288).filter (fun m => s.seatGood m && !s.seatUsed m && !s.excluded (m / 18))

/-- The next substitute seat after the one last examined, in ascending order and from the first again. -/
def State.nextAuto (s : State) : Option Nat :=
  let l := s.substituteSeats
  match l.find? (fun m => decide (s.getF BRG_EXAM_STATUS BRG_EXAM_STATUS_seat < m)) with
  | some m => some m
  | none => l.head?

/-- No seat is under automatic exam. -/
def State.autoEnds (s : State) : State :=
  ({ s with bring := { s.bring with autoSeat := none } } : State).setB BRG_EXAM_STATUS BRG_EXAM_STATUS_active s.bring.exam.isSome

/-- A service slot or open bell for the exam of a seat, in its form's partition. -/
def State.examOpen (s : State) : Bool :=
  match s.bring.autoSeat <|> s.nextAuto with
  | some m => s.serviceOpen (s.partOfForm (m / 18))
  | none => true

/-- A service slot spent on automatic exams. Operand: the test code that ends the seat's exam, 0 for a pass; none while the
exam goes on. -/
def State.autoStep (s : State) (result : Option Nat) : State :=
  if !s.flag BRG_EXAM_CTRL BRG_EXAM_CTRL_auto then (if s.bring.autoSeat.isSome then s.autoEnds else s)
  else match s.bring.autoSeat with
    | none => match s.nextAuto with
      | some m =>
        let s := { s with bring := { s.bring with autoSeat := some m } }
        (s.setF BRG_EXAM_STATUS BRG_EXAM_STATUS_seat m).setB BRG_EXAM_STATUS BRG_EXAM_STATUS_active true
      | none => s
    | some m => match result with
      | none => s
      | some 0 => s.autoEnds
      | some t =>
        let sp := s.spares (m / 18)
        (((s.seatFails m t).examCount 1).afterExam (m / 18) sp).autoEnds

def execAutoExamStep (result : Option Nat) (s : State) : Host.Outcome State Fault Refusal :=
  live s (if s.stageIs 8 2 && s.examOpen then s.autoStep result else s)

/-- Some sequence is open in a partition. -/
def State.seqOpenIn (s : State) (p : Nat) : Bool :=
  s.areaOn && s.mem.bytes.any (fun c => regionOf c.1 == .tile && s.present (addrTile c.1) &&
    s.partOfLt (addrTile c.1) == p &&
    (let o := (c.1 - tbBase) % 0x400000
     s.areaBase ≤ o && o < s.areaBase + 0x4000 && o % 4 = 3 && 128 ≤ c.2.toNat))

/-- Seats of a form that a mask selects for an exam: factory-dead ones and, unless asked for, those in use are skipped. -/
def State.examSeats (s : State) (f mask : Nat) (active : Bool) : List Nat :=
  (List.range 18).filter (fun k => bitSet mask k && s.seatStatus (18 * f + k) != 1 && (active || !s.seatUsed (18 * f + k)))

/-- EXAM starts, unless one runs already. -/
def State.examStart (s : State) (c : Cmd) : State :=
  let f := bitsAt c.pkt.p1 0 4
  let active := bitSet c.pkt.p1 8
  if s.partOfForm f ≠ c.part then s.failAt c stWRONG_PARTITION 1 0
  else if active && s.courseLoaded c.part then s.fail c stCOURSE_BUSY
  else if active && s.seqOpenIn c.part then s.fail c stDEVICE_STATE
  else if s.bring.exam.isSome then s
  else
    let e : Exam := { ring := c.ring, tag := c.pkt.tag, form := f, left := s.examSeats f c.pkt.p0 active }
    let s := ({ s with bring := { s.bring with exam := some e } } : State).setB BRG_EXAM_STATUS BRG_EXAM_STATUS_active true
    s.putCmd c { c with phase := .committed }

def execCmdExam (ring tag : Nat) (s : State) : Host.Outcome State Fault Refusal :=
  live s (s.onCmd ring tag opEXAM State.examStart)

/-- Tile that a seat holds. -/
def State.tileAt (s : State) (m : Nat) : Option Nat :=
  ((List.range 16).map (fun k => 16 * (m / 18) + k)).find? (fun lt => s.seatIdx lt == m % 18)

/-- One examined seat: its tile, if it holds one, loses what it held; a tile whose seat fails is to be replaced. -/
def State.examSeat (s : State) (m test : Nat) : State :=
  let s := (s.setF BRG_EXAM_STATUS BRG_EXAM_STATUS_seat m).examCount (if test = 0 then 0 else 1)
  let s := s.refine m test
  match s.tileAt m with
  | some lt =>
    let s := s.freshTile lt
    if test = 0 then s else s.tileFailure lt test
  | none => s

/-- Test code of a seat index among those that failed; 0 for a pass. -/
def testOf (failing : List (Nat × Nat)) (k : Nat) : Nat :=
  match failing.find? (fun x => x.1 == k) with
  | some x => x.2 % 64
  | none => 0

/-- The last seat of the exam is done. Operand: seat indices that failed, with their test codes. -/
def State.examDone (s : State) (failing : List (Nat × Nat)) : State :=
  match s.bring.exam with
  | none => s
  | some e =>
    let f := e.form
    let sp := s.spares f
    let bad := e.left.filter (fun k => testOf failing k != 0)
    let passed := maskOf (e.left.filter (fun k => testOf failing k == 0))
    let s := forEach e.left s (fun s k => s.examSeat (18 * f + k) (testOf failing k))
    let s := ({ s with bring := { s.bring with exam := none } } : State).afterExam f sp
    let s := s.setB BRG_EXAM_STATUS BRG_EXAM_STATUS_active s.bring.autoSeat.isSome
    let s := s.logAppend logEXAM 0xFF 0 f [passed, maskOf bad, 0, 0]
    let s := s.raise evExamDone (s.partOfForm f) 5 f passed (maskOf bad) 0 0
    match s.findTag e.ring e.tag with
    | some c => s.ok c (passed + 2 ^ 32 * maskOf bad)
    | none => s

def execExamComplete (failing : List (Nat × Nat)) (s : State) : Host.Outcome State Fault Refusal :=
  live s (s.examDone failing)

/-! EVACUATE (R491). -/

/-- The transfer starts: the commit point. -/
def State.evacStart (s : State) (c : Cmd) (lt : Nat) : State :=
  let e : Evac := { ring := c.ring, tag := c.pkt.tag, lt := lt, done := 0, bad := [] }
  let s := { s with bring := { s.bring with evac := some e } }
  let s := s.setReg MEM_EVAC (BitVec.ofNat 32 (lt + 2 ^ 15))
  s.putCmd c { c with phase := .committed }

def State.evacuate (s : State) (c : Cmd) : State :=
  let lt := c.pkt.p0
  if s.partOfLt lt ≠ c.part then s.fail c stWRONG_PARTITION
  else if s.evacPending lt then
    if s.bring.evac.isSome then s.fail c stLOCKER_MOVING else s.evacStart c lt
  else if s.courseRunning c.part then s.fail c stDEVICE_STATE
  else if !s.present lt || (s.nextSubstitute (ltForm lt)).isNone then s.fail c stNO_SPARE
  else if s.bring.evac.isSome then s.fail c stLOCKER_MOVING
  else (s.substitute lt 0).evacStart c lt

def execCmdEvacuate (ring tag : Nat) (s : State) : Host.Outcome State Fault Refusal :=
  live s (s.onCmd ring tag opEVACUATE State.evacuate)

/-! AREA_RESTORE (R493). -/

/-- Bytes of a page area, and words of a saved copy of one (10 R286). -/
def State.areaBytes (s : State) : Nat := 0xC000 + 64 * s.leafTotal

def copyEntry (b : List Byte) (q : Nat) : Nat := leAt b (4 * q) 4

/-- Page words of the leaves a copy's open entry lists. -/
def copyWords (b : List Byte) (q : Nat) : List Nat :=
  let e := copyEntry b q
  if dirOpen e then (List.range (16 * dirCount e)).map (fun i => leAt b (0xC000 + 64 * dirBase e + 4 * i) 4) else []

/-- Leaf runs of a copy. -/
def copyRuns (b : List Byte) : List (Nat × Nat) :=
  (List.range 4096).filterMap (fun q =>
    let e := copyEntry b q
    if dirOpen e && dirCount e != 0 then some (dirBase e, dirCount e) else none)

/-- No two runs share a leaf. -/
def disjointRuns : List (Nat × Nat) → Bool
  | [] => true
  | r :: l => l.all (fun x => decide (x.1 + x.2 ≤ r.1 || r.1 + r.2 ≤ x.1)) && disjointRuns l

/-- Present tiles of the partition that hold an area, this one apart. -/
def State.peers (s : State) (lt : Nat) : List Nat :=
  (s.tilesOf (s.partOfLt lt)).filter (fun x => x != lt && !s.flag (TRN_STATUS_LT x) TRN_STATUS_LT_area_lost)

/-- A copy agrees with the partition, with the tile's groups and pool rows, and with itself. -/
def State.copyFits (s : State) (lt : Nat) (b : List Byte) : Bool :=
  let rows := s.poolRows
  let words := (List.range 4096).flatMap (fun q => (copyWords b q).filter wordValid)
  (List.range 4096).all (fun q => (s.peers lt).all (fun x => s.seqOpen x q == dirOpen (copyEntry b q))) &&
  words.all (fun w => wordFrame w / 16384 == lt && rows.contains (wordFrame w % 2048)) &&
  (copyRuns b).all (fun r => decide (r.1 + r.2 ≤ s.leafTotal)) && disjointRuns (copyRuns b)

/-- Directory and leaf pool come from the copy; each reference count is the number of valid words that name the frame. -/
def State.fillArea (s : State) (lt : Nat) (b : List Byte) : State :=
  let words := (List.range 4096).flatMap (fun q => (copyWords b q).filter wordValid)
  let count := fun (i : Nat) => (words.filter (fun w => wordFrame w % 16384 == i)).length
  let m := tbWrite s.mem lt s.areaBase (bytesFrom b 0 0x4000) [] 1
  let m := tbWrite m lt (s.areaBase + 0x4000) ((List.range 16384).flatMap (fun i => leBytes 2 (count i))) [] 1
  { s with mem := tbWrite m lt (s.areaBase + 0xC000) (bytesFrom b 0xC000 (64 * s.leafTotal)) [] 1 }

/-- An area that maps nothing: the partition's open bits, no leaves. -/
def State.bareArea (s : State) (lt : Nat) : List Byte :=
  (List.range 4096).flatMap (fun q =>
    let open_ := match (s.peers lt).head? with
      | some x => s.seqOpen x q
      | none => false
    leBytes 4 (if open_ then dirMake 0 0 else 0))

/-- The commit point clears area_lost. -/
def State.areaRestored (s : State) (c : Cmd) (lt : Nat) (b : List Byte) : State :=
  (((s.fillArea lt b).setB (TRN_STATUS_LT lt) TRN_STATUS_LT_area_lost false).showFree lt).ok c 0

def State.areaRestore (s : State) (c : Cmd) : State :=
  let lt := c.pkt.p0
  if s.partOfLt lt ≠ c.part then s.fail c stWRONG_PARTITION
  else if s.courseRunning c.part then s.fail c stCOURSE_BUSY
  else if !s.flag (TRN_STATUS_LT lt) TRN_STATUS_LT_area_lost then s.fail c stDEVICE_STATE
  else if c.pkt.p1 = 0 then s.areaRestored c lt (s.bareArea lt)
  else
    let ((b, st), s) := s.readObject c.pkt.p1 s.areaBytes
    if st ≠ 0 then s.failAt c st 1 0
    else if !s.copyFits lt b then s.badParam c 1 0
    else s.areaRestored c lt b

def execCmdAreaRestore (ring tag : Nat) (s : State) : Host.Outcome State Fault Refusal :=
  live s (s.onCmd ring tag opAREA_RESTORE State.areaRestore)

/-! RENUMBER (R495). -/

def State.goodOf (s : State) (f : Nat) : Nat := ((List.range 18).filter (fun k => s.seatGood (18 * f + k))).length

/-- A form is excluded in the new plan. -/
def State.willExclude (s : State) (f : Nat) : Bool :=
  s.goodOf f < 16 || s.isolated f ||
  (!s.excluded f && (List.range 16).any (fun k => !s.present (16 * f + k)))

def State.renumberForm (s : State) (f : Nat) : State :=
  if s.willExclude f then (forEach (List.range 16) s (fun s k => s.putSeat (16 * f + k) 31)).showFormStatus f true
  else if s.excluded f then
    forEach (List.range 16) (s.seatForm f) (fun s k => (s.loseLockers (16 * f + k) false).freshTile (16 * f + k))
  else s

def State.anyEvacPending (s : State) : Bool := (List.range 256).any s.evacPending

def State.renumber (s : State) (c : Cmd) : State :=
  let forms := List.range 16
  if s.anyLoaded then s.fail c stCOURSE_BUSY
  else if s.anySeqOpen || s.anyEvacPending then s.fail c stDEVICE_STATE
  else if (List.range s.partCount).any (fun p => (forms.filter (fun f => s.partOfForm f == p)).all s.willExclude) then
    s.fail c stNO_SPARE
  else
    let out := maskOf (forms.filter s.willExclude)
    let back := maskOf (forms.filter (fun f => s.excluded f && !s.willExclude f))
    ((forEach forms s State.renumberForm).writeCarry).ok c (out + 2 ^ 16 * back)

def execCmdRenumber (ring tag : Nat) (s : State) : Host.Outcome State Fault Refusal :=
  live s (s.onCmd ring tag opRENUMBER State.renumber)

end Sys2Proof.Machine
end

