-- ==== Sys2Proof/Machine/Aborts.lean ====
section
/-! DEFINITION. ABORT (14 R383). -/

namespace Sys2Proof.Machine

/-- STOP, RESET and ABORT may not be named. -/
def notAborted (o : Nat) : Bool := o == opSTOP || o == opRESET || o == opABORT

/-- A command is at or after its commit point; one whose write is on its way to another device counts as such. -/
def State.pastCommit (s : State) (c : Cmd) : Bool :=
  c.phase == .committed || s.remotes.any (fun r => r.write && r.owner == .cmd c.ring c.pkt.tag)

/-- A security command gives up its turn or its place. -/
def State.secAbort (s : State) (c : Cmd) : State :=
  let s := if c.pkt.opcode = opIMAGE_ACTIVATE then s.setB SEC_SET SEC_SET_pending false else s
  let mine := fun (j : SecJob) => j.ring == c.ring && j.tag == c.pkt.tag
  let s := { s with sec := { s.sec with waiting := s.sec.waiting.filter (fun j => !mine j) } }
  match s.sec.job with
  | some j => if mine j then s.secEnd else s
  | none => s

/-- What an active command has under way goes with it. -/
def State.undo (s : State) (c : Cmd) : State :=
  let o := c.pkt.opcode
  if o = opBELL_JOIN then { s with bell := { s.bell with join := none } }
  else if o = opROSTER_COMMIT then
    s.modCrs c.part (fun k => { k with
      rosters := k.rosters.filter (fun r => !(r.ring == c.ring && r.tag == c.pkt.tag && !r.committed)) })
  else if o = opGROUP_TABLE then
    ((s.modGroup c.part (fun g => { g with cmd := none, copied := false })).setB (UPD_STATE c.part)
      UPD_STATE_pending false).showCopying c.part
  else if o = opNBU_FILL || o = opNBU_COPY then
    forEach (List.range 4) s (fun s l => s.dropSeqs l (fun q => q.owner == some (c.ring, c.pkt.tag)))
  else if 0x0600 ≤ o && o < 0x0700 then s.secAbort c
  else
    { s with
      remotes := s.remotes.filter (fun r => !(r.owner == .cmd c.ring c.pkt.tag))
      svcWait := s.svcWait.filter (fun x => !(x.owner == .cmd c.ring c.pkt.tag))
      mxl := { s.mxl with hostReads := s.mxl.hostReads.filter (fun h => !(h.ring == c.ring && h.cmdTag == c.pkt.tag)) } }

/-- A target before its commit point completes ABORTED, and the ABORT OK. -/
def State.abortTarget (s : State) (c t : Cmd) : State :=
  let s := s.fail t stABORTED
  let s := if t.phase = .active then s.undo t else s
  s.ok c 0

/-- A pending target is fetched out of turn; it needs a free completion slot as any other. -/
def State.abortPending (s : State) (c : Cmd) (ring index : Nat) (k : Packet) : State :=
  let q := s.getF (CMD_RING_CFG ring) CMD_RING_CFG_cpl_ring
  if notAborted k.opcode then s.badParam c 1 0
  else if !s.cplFree q then s
  else
    let t : Cmd := { ring := ring, cplRing := q, part := s.ringPart ring, pkt := k, phase := .accepted, bell := s.bellCount,
                     data := [] }
    let s := { s with cmds := s.cmds ++ [t], skips := s.skips ++ [(ring, index)] }
    s.abortTarget c t

/-- An index is that of a pending entry of a ring. -/
def State.isPending (s : State) (ring index : Nat) : Bool :=
  s.ringOn ring && !s.skips.contains (ring, index) &&
  decide (ringUsed (s.reg (CMD_RING_HEAD ring)).toNat index < s.ringPending ring)

/-- ABORT. Operand: the 64 bytes of the pending entry of the ring that carries the tag named, with its index, if there is one. A
completed command that may not be named is BAD_PARAM as one under way is. -/
def State.abort (s : State) (c : Cmd) (entry : Option (Nat × List Byte)) : State :=
  let r := c.pkt.p0
  let tag := c.pkt.p1
  match s.findTag r tag with
  | some t =>
    if notAborted t.pkt.opcode then s.badParam c 1 0
    else if s.pastCommit t then s.fail c stABORT_TOO_LATE
    else s.abortTarget c t
  | none =>
    match entry with
    | some (i, b) =>
      let k := packetOf b
      if k.tag = tag && s.isPending r i then (s.readEntry r i).abortPending c r i k
      else s
    | none =>
      match s.done.reverse.find? (fun d => d.ring == r && d.tag == tag) with
      | some d => if notAborted d.opcode then s.badParam c 1 0 else s.fail c stABORT_TOO_LATE
      | none => s.fail c stABORT_NO_TARGET

def execCmdAbort (ring tag : Nat) (entry : Option (Nat × List Byte)) (s : State) : Host.Outcome State Fault Refusal :=
  live s (s.onCmd ring tag opABORT (fun s c => s.abort c entry))

end Sys2Proof.Machine
end

