-- ==== Sys2Proof/Machine/Manage.lean ====
section
/-! DEFINITION. Management over I3C, the test access port and its instruments, and TRACE_CONFIG (22). A module without power,
after a trip, or whose clocks a stack reset has stopped answers nothing (R518). -/

namespace Sys2Proof.Machine

/-! I3C (R519, R520). -/

def State.i3cAddr (s : State) : Nat := s.getF MGMT_STATUS MGMT_STATUS_i3c_addr

def State.setAddr (s : State) (a : Nat) : State := s.setF MGMT_STATUS MGMT_STATUS_i3c_addr a

/-- The provisional ID, most significant byte first (log entry 34 for the widths of its parts). -/
def State.provisionalId (s : State) : List Byte :=
  (leBytes 6 (0x2A5 * 2 ^ 33 + 0x0A4 * 2 ^ 16 + s.serial % 65536 / 2 * 2)).reverse

/-- ENTDAA: a target without a dynamic address sends its provisional ID and takes the address assigned. -/
def execI3cEntdaa (addr : Nat) (s : State) : Host.Outcome State Fault Refusal :=
  live s (if s.i3cAddr = 0 then (s.send (.i3cData s.provisionalId)).setAddr addr else s)

/-- SETDASA to the static address 0x4A, for a target without a dynamic address. -/
def execI3cSetdasa (addr : Nat) (s : State) : Host.Outcome State Fault Refusal :=
  live s (if s.i3cAddr = 0 then s.setAddr addr else s)

def execI3cRstdaa (s : State) : Host.Outcome State Fault Refusal := live s (s.setAddr 0)

/-- ENEC: events enabled; interrupts that waited are raised. -/
def State.enable (s : State) (mask : Nat) : State :=
  let s := { s with mgmt := { s.mgmt with events := Nat.lor s.mgmt.events (mask % 256) } }
  if bitSet s.mgmt.events 0 then
    forEach s.mgmt.pendingIbi { s with mgmt := { s.mgmt with pendingIbi := [] } } (fun s b => s.send (.ibi b))
  else s

def execI3cEnec (mask : Nat) (s : State) : Host.Outcome State Fault Refusal :=
  live s (if s.i3cAddr = 0 then s else s.enable mask)

def State.disable (s : State) (mask : Nat) : State :=
  { s with mgmt := { s.mgmt with events := s.mgmt.events - Nat.land s.mgmt.events (mask % 256) } }

def execI3cDisec (mask : Nat) (s : State) : Host.Outcome State Fault Refusal :=
  live s (if s.i3cAddr = 0 then s else s.disable mask)

/-- GETSTATUS: the spec gives the status no layout, and its value is free (log entry 7). -/
def execI3cGetstatus (s : State) : Host.Outcome State Fault Refusal :=
  live s (if s.i3cAddr = 0 then s else (s.send (.i3cStatus s.freeNat)).drawn 1)

def State.setIndex (s : State) (index : Nat) : State := { s with mgmt := { s.mgmt with index := index % 65536 } }

def execI3cSetIndex (index : Nat) (s : State) : Host.Outcome State Fault Refusal :=
  live s (if s.i3cAddr = 0 then s else s.setIndex index)

/-- The byte at an index: the latched map, the control area, 0 above. -/
def State.mapByte (s : State) (i : Nat) : Byte :=
  if i < 0x100 then s.mgmt.latched.getD i 0
  else if i < 0x103 then BitVec.ofNat 8 (s.mgmt.control.getD (i - 0x100) 0)
  else 0

/-- A private read of n bytes: the telemetry map is latched at its first byte. -/
def State.privateRead (s : State) (n : Nat) : State :=
  if n = 0 then s
  else
    let s := { s with mgmt := { s.mgmt with latched := s.mgmt.telemetry } }
    let i := s.mgmt.index
    (s.send (.i3cData ((List.range n).map (fun k => s.mapByte ((i + k) % 65536))))).setIndex (i + n)

def execI3cPrivateRead (n : Nat) (s : State) : Host.Outcome State Fault Refusal :=
  live s (if s.i3cAddr = 0 then s else s.privateRead n)

/-! Management commands (R522). -/

def mrDONE : Nat := 0
def mrREFUSED : Nat := 1
def mrBUSY : Nat := 2
def mrMALFORMED : Nat := 3

/-- The control area and MGMT_STATUS take a command and its result. -/
def State.mgmtResult (s : State) (code complement result : Nat) : State :=
  let s := { s.setIndex 0x100 with mgmt := { s.mgmt with index := 0x100, control := [code, complement, result] } }
  (s.setF MGMT_STATUS MGMT_STATUS_last_cmd code).setF MGMT_STATUS MGMT_STATUS_last_result result

/-- A management command: busy while a reset asked for has not happened, refused where its condition fails. -/
def State.mgmtCmd (s : State) (code : Nat) (accepted : Bool) (f : State → State) : State :=
  if s.i3cAddr = 0 then s
  else if s.clock.resetPending.isSome then s.mgmtResult code (255 - code) mrBUSY
  else if !accepted then s.mgmtResult code (255 - code) mrREFUSED
  else (f s).mgmtResult code (255 - code) mrDONE

def execMgmtResetRequest (s : State) : Host.Outcome State Fault Refusal :=
  live s (s.mgmtCmd 1 true (fun s => s.requestReset 3))

/-- Every alternative is dropped, the unready count is 0, and a reset follows. -/
def State.ledgerClear (s : State) : State :=
  let c := s.bring.carry
  let s : State := ({ s with bring := { s.bring with carry := { c with alts := [] } } } : State).writeCarry
  (s.setUnready 0).requestReset 3

def execMgmtLedgerClear (s : State) : Host.Outcome State Fault Refusal :=
  live s (s.mgmtCmd 2 (let st := s.getF BRG_STAGE BRG_STAGE_state; st == 3 || st == 4) State.ledgerClear)

def execMgmtHoldNext (s : State) : Host.Outcome State Fault Refusal :=
  live s (s.mgmtCmd 3 true (fun s => { s with bring := { s.bring with holdNext := true } }))

def execMgmtAlertAck (s : State) : Host.Outcome State Fault Refusal :=
  live s (s.mgmtCmd 4 true (fun s => s.setB MGMT_STATUS MGMT_STATUS_alert false))

/-- A pair of bytes that are no complements of each other. -/
def execMgmtMalformed (code complement : Nat) (s : State) : Host.Outcome State Fault Refusal :=
  live s (if s.i3cAddr = 0 || code % 256 + complement % 256 = 255 then s
    else s.mgmtResult (code % 256) (complement % 256) mrMALFORMED)

/-! The test access port (R524, R525). -/

/-- An instruction is selected: its data register's capture and how the contacts are driven. -/
def State.tap (s : State) (ir dr drive : Nat) : State := { s with mgmt := { s.mgmt with ir := ir, dr := dr, drive := drive } }

def State.setCells (s : State) (cells : List Bool) : State :=
  { s with mgmt := { s.mgmt with boundary := (List.range 27).map (fun i => cells.getD i false) } }

/-- Levels of the 27 cells as a number, cell 0 lowest (23 R539). -/
def cellsVal (l : List Bool) : Nat := leVal ((List.range 4).map (fun k => BitVec.ofNat 8 (maskOf ((List.range 8).filter (fun i =>
  8 * k + i < 27 && l.getD (8 * k + i) false)))))

/-- EXTEST, CLAMP and HIGHZ need a module with no course loaded and the MXL not UP. -/
def State.extestOk (s : State) : Bool := !s.anyLoaded && !s.mxlUp

/-- The TAP selects bypass in place of the instruction. -/
def State.extestRefused (s : State) : State := (s.tap 0xFF 0 0).setB MGMT_STATUS MGMT_STATUS_extest_refused true

/-- EXTEST with the cells shifted in and the levels captured. -/
def execJtagExtest (cells pins : List Bool) (s : State) : Host.Outcome State Fault Refusal :=
  live s (if s.extestOk then (s.setCells cells).tap 0x00 (cellsVal pins) 1 else s.extestRefused)

/-- SAMPLE/PRELOAD: the levels are captured and the cells loaded; the module goes on driving its contacts. -/
def execJtagSamplePreload (cells pins : List Bool) (s : State) : Host.Outcome State Fault Refusal :=
  live s ((s.setCells cells).tap 0x01 (cellsVal pins) 0)

/-- The identity register. -/
def State.idcode (s : State) : Nat :=
  s.getF SEC_STEPPING SEC_STEPPING_bd * 2 ^ 28 + 0xA4A4 * 2 ^ 12 + Config.jep106 % 2 ^ 11 * 2 + 1

def execJtagIdcode (s : State) : Host.Outcome State Fault Refusal := live s (s.tap 0x02 s.idcode 0)

def execJtagClamp (s : State) : Host.Outcome State Fault Refusal :=
  live s (if s.extestOk then s.tap 0x03 0 2 else s.extestRefused)

def execJtagHighz (s : State) : Host.Outcome State Fault Refusal :=
  live s (if s.extestOk then s.tap 0x04 0 3 else s.extestRefused)

/-- An IEEE 1149.6 test: drivers and test receivers of the AC-coupled lanes take part. -/
def execJtagExtestPulse (cells pins : List Bool) (s : State) : Host.Outcome State Fault Refusal :=
  live s ((s.setCells cells).tap 0x08 (cellsVal pins) 1)

def execJtagExtestTrain (cells pins : List Bool) (s : State) : Host.Outcome State Fault Refusal :=
  live s ((s.setCells cells).tap 0x09 (cellsVal pins) 1)

/-- BYPASS, and every code that the table does not list. -/
def execJtagBypass (s : State) : Host.Outcome State Fault Refusal := live s (s.tap 0xFF 0 0)

/-- TRST_N low: Test-Logic-Reset, which selects IDCODE. -/
def execTrstNAssert (s : State) : Host.Outcome State Fault Refusal := live s (s.tap 0x02 s.idcode 0)

/-! Instruments (R526). -/

/-- Update-DR starts an operation, unless one is under way. -/
def State.instStart (s : State) (op space addr data : Nat) : State :=
  let s := { s with mgmt := { s.mgmt with ir := 0x10, drive := 0 } }
  if s.mgmt.instOp.isSome then s
  else { s with mgmt := { s.mgmt with
    instOp := some (op, space % 16, addr % 2 ^ 48, data % 2 ^ 32), instStatus := 3 } }

def execInstRead (space addr : Nat) (s : State) : Host.Outcome State Fault Refusal := live s (s.instStart 1 space addr 0)

def execInstWrite (space addr data : Nat) (s : State) : Host.Outcome State Fault Refusal :=
  live s (s.instStart 2 space addr data)

/-- Requester number of the TAP among those that hold shadow words (02 R85). -/
def reqJtag : Nat := 2

/-- Engines of a tile may be read: no course in RUNNING or HALTING in its partition, and an open bell. -/
def State.instOpen (s : State) (lt : Nat) : Bool := !s.courseRunning (s.partOfLt lt) && s.openBell (s.partOfLt lt)

/-- One half of an accumulator entry. -/
def accHalf (e : AccEntry) (half : Nat) : Nat :=
  let v := codeOf e.value 48
  if half = 0 then v % 2 ^ 32 else v / 2 ^ 32 + 2 ^ 16 * boolNat (e.poison || e.err == 2)

/-- Status and data of a read of an engine. -/
def State.instEngine (s : State) (space addr : Nat) : Nat × Nat :=
  let lt := addr % 256
  if !s.present lt then (2, 0)
  else if !s.instOpen lt then (1, 0)
  else if space = 1 then
    (0, accHalf (tgetD (s.tile lt).mxe.acc (bitsAt addr 8 11 * 128 + bitsAt addr 19 7) accEntry0) (bitAt addr 26))
  else (0, leAt (tgetD (s.tile lt).ve.cache (bitsAt addr 8 9) { reg := vreg0, errs := [] }).reg.data (4 * bitsAt addr 17 7) 4)

/-- An operation ends with its status and data. -/
def State.instEnd (s : State) (status data : Nat) : State :=
  { s with mgmt := { s.mgmt with instOp := none, instStatus := status, instData := data } }

/-- What a read or write of one word answered. -/
def instAnswer (st : Nat) : Nat := if st = 0 then 0 else 2

def State.instRead (s : State) (space addr : Nat) : State :=
  if space = 0 then
    if addr % 4 ≠ 0 then s.instEnd 2 0
    else
      let ((st, d), s) := s.localRead reqJtag addr 4
      s.instEnd (instAnswer st) (leAt d 0 4)
  else if space = 1 || space = 2 then
    let (st, v) := s.instEngine space addr
    s.instEnd st v
  else if space = 3 && addr % 4 = 0 then s.instEnd 0 (leVal (ccRead s (addr % 2 ^ 23) 4))
  else s.instEnd 2 0

def State.instWrite (s : State) (space addr data : Nat) : State :=
  if space ≠ 0 || addr % 4 ≠ 0 then s.instEnd 2 s.mgmt.instData
  else
    let ((st, _), s) := s.localWrite addr (leBytes 4 data)
    s.instEnd (instAnswer st) s.mgmt.instData

/-- The operation under way ends; an access to memory by its stack address waits for a window as any other does (log entry 41). -/
def State.instDone (s : State) : State :=
  match s.mgmt.instOp with
  | none => s
  | some (op, space, addr, data) =>
    if space = 0 && addr % 4 = 0 && !s.rangeOpen addr 4 then s
    else if op = 1 then s.instRead space addr else s.instWrite space addr data

def execInstComplete (s : State) : Host.Outcome State Fault Refusal := live s s.instDone

/-! TRACE_CONFIG (R528). -/

/-- The buffer of a setup lies in the alias window, in whole 4 KiB pages, and the reserved fields are 0. -/
def setupGood (b : List Byte) : Bool :=
  let a := leAt b 0 8
  let n := leAt b 8 4
  a % 4096 == 0 && n % 4096 == 0 && 4096 ≤ n && aliasBase ≤ a && a + n ≤ aliasBase + 2 ^ 38 &&
  leAt b 0x0C 4 < 32 && leAt b 0x10 1 < 2 && leAt b 0x11 15 == 0

def State.traceStart (s : State) (b : List Byte) : State :=
  ({ s with mgmt := { s.mgmt with traceSetup := b, traceQueue := [], tracePos := 0 } }).setReg TRC_STATUS
    (fldPut (s.reg TRC_STATUS) ⟨0, 16⟩ 1)

/-- A trace stops; the records it has formed are still written. -/
def State.traceStop (s : State) : State :=
  ({ s with mgmt := { s.mgmt with traceSetup := putBytes s.mgmt.traceSetup 0x0C (zeros 4) } }).setB TRC_STATUS
    TRC_STATUS_running false

def State.traceConfig (s : State) (c : Cmd) : State :=
  let ((b, st), s) := s.readObject c.pkt.p0 32
  if st ≠ 0 then s.fail c st
  else if leAt b 0x0C 4 = 0 then s.traceStop.ok c 0
  else if s.flag TRC_STATUS TRC_STATUS_running then s.fail c stDEVICE_STATE
  else if !setupGood b then s.badParam c 0 0
  else (s.traceStart b).ok c 0

def execCmdTraceConfig (ring tag : Nat) (s : State) : Host.Outcome State Fault Refusal :=
  live s (s.onCmd ring tag opTRACE_CONFIG State.traceConfig)

end Sys2Proof.Machine
end

