-- ==== Sys2Proof/Machine/Dispatch.lean ====
section
/-! DEFINITION. The dispatch: one arm per command, each one direct call of its meaning. -/

namespace Sys2Proof.Machine

def exec (i : Instr) (s : State) : Host.Outcome State Fault Refusal :=
  match i with
  | .inputValid volts => Sys2Proof.Machine.execInputValid volts s
  | .powerGood volts duration => Sys2Proof.Machine.execPowerGood volts duration s
  | .inputLowShutdown value ms => Sys2Proof.Machine.execInputLowShutdown value ms s
  | .inputHighShutdown value => Sys2Proof.Machine.execInputHighShutdown value s
  | .vcmpOvercurrentShutdown value => Sys2Proof.Machine.execVcmpOvercurrentShutdown value s
  | .domainSagShutdown value => Sys2Proof.Machine.execDomainSagShutdown value s
  | .phaseFault phase => Sys2Proof.Machine.execPhaseFault phase s
  | .isolationSwitchOpen form amps => Sys2Proof.Machine.execIsolationSwitchOpen form amps s
  | .vcmpSetpointStep => Sys2Proof.Machine.execVcmpSetpointStep s
  | .crackCompare form mv amps => Sys2Proof.Machine.execCrackCompare form mv amps s
  | .energyAccumulate e => Sys2Proof.Machine.execEnergyAccumulate e s
  | .powerRecessEvaluate => Sys2Proof.Machine.execPowerRecessEvaluate s
  | .budgetTakeEffect => Sys2Proof.Machine.execBudgetTakeEffect s
  | .referenceLoss => Sys2Proof.Machine.execReferenceLoss s
  | .referenceSwitch => Sys2Proof.Machine.execReferenceSwitch s
  | .holdoverTimeout => Sys2Proof.Machine.execHoldoverTimeout s
  | .droopAssert die site => Sys2Proof.Machine.execDroopAssert die site s
  | .droopDeassert die site periods => Sys2Proof.Machine.execDroopDeassert die site periods s
  | .droopDetectorMask die site periods => Sys2Proof.Machine.execDroopDetectorMask die site periods s
  | .canaryAct group site margin => Sys2Proof.Machine.execCanaryAct group site margin s
  | .canaryWarn group site margin => Sys2Proof.Machine.execCanaryWarn group site margin s
  | .seamExcursion seam phase => Sys2Proof.Machine.execSeamExcursion seam phase s
  | .stackReset => Sys2Proof.Machine.execStackReset s
  | .stackResetGateClose => Sys2Proof.Machine.execStackResetGateClose s
  | .stackResetRelease => Sys2Proof.Machine.execStackResetRelease s
  | .watchdogExpiry step => Sys2Proof.Machine.execWatchdogExpiry step s
  | .bellStart depart => Sys2Proof.Machine.execBellStart depart s
  | .guardStart => Sys2Proof.Machine.execGuardStart s
  | .refreshSlotA phases failed => Sys2Proof.Machine.execRefreshSlotA phases failed s
  | .refreshSlotB => Sys2Proof.Machine.execRefreshSlotB s
  | .serviceSlot x => Sys2Proof.Machine.execServiceSlot x s
  | .formUngateStep p k => Sys2Proof.Machine.execFormUngateStep p k s
  | .formGateStep p k => Sys2Proof.Machine.execFormGateStep p k s
  | .lessonArm p => Sys2Proof.Machine.execLessonArm p s
  | .bellOverrun => Sys2Proof.Machine.execBellOverrun s
  | .bellSymbolMissing => Sys2Proof.Machine.execBellSymbolMissing s
  | .rejoinComplete => Sys2Proof.Machine.execRejoinComplete s
  | .haltBellReached p => Sys2Proof.Machine.execHaltBellReached p s
  | .haltNoticeTile lt => Sys2Proof.Machine.execHaltNoticeTile lt s
  | .haltNoticeLayer l => Sys2Proof.Machine.execHaltNoticeLayer l s
  | .haltNoticePort port => Sys2Proof.Machine.execHaltNoticePort port s
  | .quiesceReport node => Sys2Proof.Machine.execQuiesceReport node s
  | .stopReportTimeout => Sys2Proof.Machine.execStopReportTimeout s
  | .recessAnnounce => Sys2Proof.Machine.execRecessAnnounce s
  | .rosterDeadline ring tag => Sys2Proof.Machine.execRosterDeadline ring tag s
  | .rosterCopyComplete ring tag => Sys2Proof.Machine.execRosterCopyComplete ring tag s
  | .rosterTileWrite lt => Sys2Proof.Machine.execRosterTileWrite lt s
  | .courseStartCommit p => Sys2Proof.Machine.execCourseStartCommit p s
  | .courseResumeCommit p => Sys2Proof.Machine.execCourseResumeCommit p s
  | .courseRestageDone p => Sys2Proof.Machine.execCourseRestageDone p s
  | .groupTableCopyDone p => Sys2Proof.Machine.execGroupTableCopyDone p s
  | .groupTableCommit ring tag => Sys2Proof.Machine.execGroupTableCommit ring tag s
  | .shadowEnableDone => Sys2Proof.Machine.execShadowEnableDone s
  | .imageActivateCommit => Sys2Proof.Machine.execImageActivateCommit s
  | .imageSwitchDone rejected => Sys2Proof.Machine.execImageSwitchDone rejected s
  | .knownGoodUpdate => Sys2Proof.Machine.execKnownGoodUpdate s
  | .bellJoinCommit ring tag => Sys2Proof.Machine.execBellJoinCommit ring tag s
  | .bellJoinTimeout ring tag => Sys2Proof.Machine.execBellJoinTimeout ring tag s
  | .mxeLoad lt idx cycle => Sys2Proof.Machine.execMxeLoad lt idx cycle s
  | .mxePass lt idx cycle => Sys2Proof.Machine.execMxePass lt idx cycle s
  | .mxeSend lt idx cycle => Sys2Proof.Machine.execMxeSend lt idx cycle s
  | .mxeMerge lt idx row => Sys2Proof.Machine.execMxeMerge lt idx row s
  | .descriptorFetch lt idx => Sys2Proof.Machine.execDescriptorFetch lt idx s
  | .veRun lt idx => Sys2Proof.Machine.execVeRun lt idx s
  | .veTable lt idx cycle => Sys2Proof.Machine.execVeTable lt idx cycle s
  | .veCache lt idx cycle => Sys2Proof.Machine.execVeCache lt idx cycle s
  | .slateNop lt => Sys2Proof.Machine.execSlateNop lt s
  | .slateMov lt => Sys2Proof.Machine.execSlateMov lt s
  | .slateAdd lt => Sys2Proof.Machine.execSlateAdd lt s
  | .slateSub lt => Sys2Proof.Machine.execSlateSub lt s
  | .slateMul lt => Sys2Proof.Machine.execSlateMul lt s
  | .slateMac lt => Sys2Proof.Machine.execSlateMac lt s
  | .slateNeg lt => Sys2Proof.Machine.execSlateNeg lt s
  | .slateAbs lt => Sys2Proof.Machine.execSlateAbs lt s
  | .slateMin lt => Sys2Proof.Machine.execSlateMin lt s
  | .slateMax lt => Sys2Proof.Machine.execSlateMax lt s
  | .slateShl lt => Sys2Proof.Machine.execSlateShl lt s
  | .slateShr lt => Sys2Proof.Machine.execSlateShr lt s
  | .slateShrl lt => Sys2Proof.Machine.execSlateShrl lt s
  | .slateAnd lt => Sys2Proof.Machine.execSlateAnd lt s
  | .slateOr lt => Sys2Proof.Machine.execSlateOr lt s
  | .slateXor lt => Sys2Proof.Machine.execSlateXor lt s
  | .slateNot lt => Sys2Proof.Machine.execSlateNot lt s
  | .slateCmpeq lt => Sys2Proof.Machine.execSlateCmpeq lt s
  | .slateCmplt lt => Sys2Proof.Machine.execSlateCmplt lt s
  | .slateCmple lt => Sys2Proof.Machine.execSlateCmple lt s
  | .slateSel lt => Sys2Proof.Machine.execSlateSel lt s
  | .slateAlign lt => Sys2Proof.Machine.execSlateAlign lt s
  | .slateGete lt => Sys2Proof.Machine.execSlateGete lt s
  | .slateSete lt => Sys2Proof.Machine.execSlateSete lt s
  | .slateGetf lt => Sys2Proof.Machine.execSlateGetf lt s
  | .slateClrf lt => Sys2Proof.Machine.execSlateClrf lt s
  | .slateCvt lt => Sys2Proof.Machine.execSlateCvt lt s
  | .slateRsum lt => Sys2Proof.Machine.execSlateRsum lt s
  | .slateRmax lt => Sys2Proof.Machine.execSlateRmax lt s
  | .slateRmaxabs lt => Sys2Proof.Machine.execSlateRmaxabs lt s
  | .slateRcpw lt => Sys2Proof.Machine.execSlateRcpw lt s
  | .slateLut lt => Sys2Proof.Machine.execSlateLut lt s
  | .slateRq lt => Sys2Proof.Machine.execSlateRq lt s
  | .slateExps lt => Sys2Proof.Machine.execSlateExps lt s
  | .taskStart lt idx => Sys2Proof.Machine.execTaskStart lt idx s
  | .taskDeadline gc => Sys2Proof.Machine.execTaskDeadline gc s
  | .gcTbWindow lt cycle => Sys2Proof.Machine.execGcTbWindow lt cycle s
  | .waitcWake gc => Sys2Proof.Machine.execWaitcWake gc s
  | .chalkAdd gc => Sys2Proof.Machine.execChalkAdd gc s
  | .chalkSub gc => Sys2Proof.Machine.execChalkSub gc s
  | .chalkAnd gc => Sys2Proof.Machine.execChalkAnd gc s
  | .chalkOr gc => Sys2Proof.Machine.execChalkOr gc s
  | .chalkXor gc => Sys2Proof.Machine.execChalkXor gc s
  | .chalkSll gc => Sys2Proof.Machine.execChalkSll gc s
  | .chalkSrl gc => Sys2Proof.Machine.execChalkSrl gc s
  | .chalkSra gc => Sys2Proof.Machine.execChalkSra gc s
  | .chalkSlt gc => Sys2Proof.Machine.execChalkSlt gc s
  | .chalkSltu gc => Sys2Proof.Machine.execChalkSltu gc s
  | .chalkMul gc => Sys2Proof.Machine.execChalkMul gc s
  | .chalkMulh gc => Sys2Proof.Machine.execChalkMulh gc s
  | .chalkMulhu gc => Sys2Proof.Machine.execChalkMulhu gc s
  | .chalkMin gc => Sys2Proof.Machine.execChalkMin gc s
  | .chalkMax gc => Sys2Proof.Machine.execChalkMax gc s
  | .chalkClz gc => Sys2Proof.Machine.execChalkClz gc s
  | .chalkDiv gc => Sys2Proof.Machine.execChalkDiv gc s
  | .chalkDivu gc => Sys2Proof.Machine.execChalkDivu gc s
  | .chalkRem gc => Sys2Proof.Machine.execChalkRem gc s
  | .chalkRemu gc => Sys2Proof.Machine.execChalkRemu gc s
  | .chalkAddi gc => Sys2Proof.Machine.execChalkAddi gc s
  | .chalkAndi gc => Sys2Proof.Machine.execChalkAndi gc s
  | .chalkOri gc => Sys2Proof.Machine.execChalkOri gc s
  | .chalkXori gc => Sys2Proof.Machine.execChalkXori gc s
  | .chalkSlli gc => Sys2Proof.Machine.execChalkSlli gc s
  | .chalkSrli gc => Sys2Proof.Machine.execChalkSrli gc s
  | .chalkSrai gc => Sys2Proof.Machine.execChalkSrai gc s
  | .chalkSlti gc => Sys2Proof.Machine.execChalkSlti gc s
  | .chalkLui gc => Sys2Proof.Machine.execChalkLui gc s
  | .chalkLdw gc => Sys2Proof.Machine.execChalkLdw gc s
  | .chalkLdh gc => Sys2Proof.Machine.execChalkLdh gc s
  | .chalkLdhu gc => Sys2Proof.Machine.execChalkLdhu gc s
  | .chalkLdb gc => Sys2Proof.Machine.execChalkLdb gc s
  | .chalkLdbu gc => Sys2Proof.Machine.execChalkLdbu gc s
  | .chalkStw gc => Sys2Proof.Machine.execChalkStw gc s
  | .chalkSth gc => Sys2Proof.Machine.execChalkSth gc s
  | .chalkStb gc => Sys2Proof.Machine.execChalkStb gc s
  | .chalkBeq gc => Sys2Proof.Machine.execChalkBeq gc s
  | .chalkBne gc => Sys2Proof.Machine.execChalkBne gc s
  | .chalkBlt gc => Sys2Proof.Machine.execChalkBlt gc s
  | .chalkBge gc => Sys2Proof.Machine.execChalkBge gc s
  | .chalkBltu gc => Sys2Proof.Machine.execChalkBltu gc s
  | .chalkBgeu gc => Sys2Proof.Machine.execChalkBgeu gc s
  | .chalkJal gc => Sys2Proof.Machine.execChalkJal gc s
  | .chalkJalr gc => Sys2Proof.Machine.execChalkJalr gc s
  | .chalkEnd gc => Sys2Proof.Machine.execChalkEnd gc s
  | .chalkWaitc gc => Sys2Proof.Machine.execChalkWaitc gc s
  | .chalkRdcyc gc => Sys2Proof.Machine.execChalkRdcyc gc s
  | .chalkRdbell gc => Sys2Proof.Machine.execChalkRdbell gc s
  | .chalkRdid gc => Sys2Proof.Machine.execChalkRdid gc s
  | .chalkTrap gc => Sys2Proof.Machine.execChalkTrap gc s
  | .chalkRet gc => Sys2Proof.Machine.execChalkRet gc s
  | .moverCopy lt idx => Sys2Proof.Machine.execMoverCopy lt idx s
  | .moverIndirect lt idx => Sys2Proof.Machine.execMoverIndirect lt idx s
  | .builtDescriptor lt c => Sys2Proof.Machine.execBuiltDescriptor lt c s
  | .moverBeat lt c => Sys2Proof.Machine.execMoverBeat lt c s
  | .serviceTransfer lt c => Sys2Proof.Machine.execServiceTransfer lt c s
  | .lockerReadDeliver lt c => Sys2Proof.Machine.execLockerReadDeliver lt c s
  | .lockerWriteAck lt c => Sys2Proof.Machine.execLockerWriteAck lt c s
  | .lockerCommand locker w data wires => Sys2Proof.Machine.execLockerCommand locker w data wires s
  | .lockerNbuCommand locker w => Sys2Proof.Machine.execLockerNbuCommand locker w s
  | .serviceAccessBelow write a n off => Sys2Proof.Machine.execServiceAccessBelow write a n off s
  | .evacuationStep bad => Sys2Proof.Machine.execEvacuationStep bad s
  | .evacuationComplete => Sys2Proof.Machine.execEvacuationComplete s
  | .nbuSequenceStart l part idx => Sys2Proof.Machine.execNbuSequenceStart l part idx s
  | .nbuGatherReduce l part idx => Sys2Proof.Machine.execNbuGatherReduce l part idx s
  | .nbuMatvec l part idx => Sys2Proof.Machine.execNbuMatvec l part idx s
  | .nbuSignUpdate l part idx => Sys2Proof.Machine.execNbuSignUpdate l part idx s
  | .nbuSeqCopy l part idx => Sys2Proof.Machine.execNbuSeqCopy l part idx s
  | .nbuSeqFill l part idx => Sys2Proof.Machine.execNbuSeqFill l part idx s
  | .nbuTransfer l part idx => Sys2Proof.Machine.execNbuTransfer l part idx s
  | .nbuSequenceEnd l part idx => Sys2Proof.Machine.execNbuSequenceEnd l part idx s
  | .translationJobStart lt => Sys2Proof.Machine.execTranslationJobStart lt s
  | .translateEntry lt entry => Sys2Proof.Machine.execTranslateEntry lt entry s
  | .fallbackRecordWrite lt lesson iter record => Sys2Proof.Machine.execFallbackRecordWrite lt lesson iter record s
  | .meshInject lt cycle => Sys2Proof.Machine.execMeshInject lt cycle s
  | .meshBeatRoute id corrected bad hdrBad => Sys2Proof.Machine.execMeshBeatRoute id corrected bad hdrBad s
  | .meshEject id => Sys2Proof.Machine.execMeshEject id s
  | .serviceBeatAdvance id cycle corrected bad hdrBad => Sys2Proof.Machine.execServiceBeatAdvance id cycle corrected bad hdrBad s
  | .hallReq lt c dest n => Sys2Proof.Machine.execHallReq lt c dest n s
  | .hallGrant lt => Sys2Proof.Machine.execHallGrant lt s
  | .hallPassReturn lt c => Sys2Proof.Machine.execHallPassReturn lt c s
  | .cnetRegRead m corrected bad => Sys2Proof.Machine.execCnetRegRead m corrected bad s
  | .cnetRegWrite m x now => Sys2Proof.Machine.execCnetRegWrite m x now s
  | .cnetRegReply m corrected bad => Sys2Proof.Machine.execCnetRegReply m corrected bad s
  | .cnetEvent m corrected bad => Sys2Proof.Machine.execCnetEvent m corrected bad s
  | .cnetArm m corrected bad => Sys2Proof.Machine.execCnetArm m corrected bad s
  | .cnetServicePost m corrected bad => Sys2Proof.Machine.execCnetServicePost m corrected bad s
  | .portSend port idx entry => Sys2Proof.Machine.execPortSend port idx entry s
  | .portRecv port idx entry => Sys2Proof.Machine.execPortRecv port idx entry s
  | .portReduce port idx entry => Sys2Proof.Machine.execPortReduce port idx entry s
  | .portRelay port idx entry => Sys2Proof.Machine.execPortRelay port idx entry s
  | .portVoteSend port idx entry => Sys2Proof.Machine.execPortVoteSend port idx entry s
  | .portVoteAdd port idx entry => Sys2Proof.Machine.execPortVoteAdd port idx entry s
  | .portVoteSign port idx entry => Sys2Proof.Machine.execPortVoteSign port idx entry s
  | .frameReceive port f hdrBad badSpans => Sys2Proof.Machine.execFrameReceive port f hdrBad badSpans s
  | .svcWrite port => Sys2Proof.Machine.execSvcWrite port s
  | .svcRead port => Sys2Proof.Machine.execSvcRead port s
  | .svcReply port => Sys2Proof.Machine.execSvcReply port s
  | .remoteTimeout tag => Sys2Proof.Machine.execRemoteTimeout tag s
  | .symBell port y bad arrival resid => Sys2Proof.Machine.execSymBell port y bad arrival resid s
  | .symHalt port y bad => Sys2Proof.Machine.execSymHalt port y bad s
  | .symRecess port y bad => Sys2Proof.Machine.execSymRecess port y bad s
  | .symRecessReq port y bad => Sys2Proof.Machine.execSymRecessReq port y bad s
  | .symCredit port y bad => Sys2Proof.Machine.execSymCredit port y bad s
  | .symLaneSwap port y bad => Sys2Proof.Machine.execSymLaneSwap port y bad s
  | .symTrain port y bad => Sys2Proof.Machine.execSymTrain port y bad s
  | .symProbe port y bad t => Sys2Proof.Machine.execSymProbe port y bad t s
  | .symIdle port y bad => Sys2Proof.Machine.execSymIdle port y bad s
  | .portLaneFault port lane x => Sys2Proof.Machine.execPortLaneFault port lane x s
  | .portLaneTakeover port => Sys2Proof.Machine.execPortLaneTakeover port s
  | .portDetectLight port fibres => Sys2Proof.Machine.execPortDetectLight port fibres s
  | .portTrainStateDone port lanes fibres round depart => Sys2Proof.Machine.execPortTrainStateDone port lanes fibres round depart s
  | .portTrainTimeout port => Sys2Proof.Machine.execPortTrainTimeout port s
  | .portRetrain port => Sys2Proof.Machine.execPortRetrain port s
  | .portRetrainDone port lanes fibres round cycle => Sys2Proof.Machine.execPortRetrainDone port lanes fibres round cycle s
  | .mxlPrioCmd f corrected => Sys2Proof.Machine.execMxlPrioCmd f corrected s
  | .mxlDoorbell h payload x part => Sys2Proof.Machine.execMxlDoorbell h payload x part s
  | .mxlRegRead h payload x => Sys2Proof.Machine.execMxlRegRead h payload x s
  | .mxlRegWrite h payload x now => Sys2Proof.Machine.execMxlRegWrite h payload x now s
  | .mxlMemRead h payload x => Sys2Proof.Machine.execMxlMemRead h payload x s
  | .mxlMemWrite h payload crc corrected => Sys2Proof.Machine.execMxlMemWrite h payload crc corrected s
  | .mxlHostData h payload crc corrected => Sys2Proof.Machine.execMxlHostData h payload crc corrected s
  | .mxlIdleFlit x => Sys2Proof.Machine.execMxlIdleFlit x s
  | .mxlLaneSwapFlit h payload x => Sys2Proof.Machine.execMxlLaneSwapFlit h payload x s
  | .mxlFlitCheckFail f corrected uncorrectable => Sys2Proof.Machine.execMxlFlitCheckFail f corrected uncorrectable s
  | .mxlNak x => Sys2Proof.Machine.execMxlNak x s
  | .mxlReplayTimeout => Sys2Proof.Machine.execMxlReplayTimeout s
  | .hostReadTimeout tag => Sys2Proof.Machine.execHostReadTimeout tag s
  | .mxlLaneFault x => Sys2Proof.Machine.execMxlLaneFault x s
  | .mxlStateDone lanes cmd bulk => Sys2Proof.Machine.execMxlStateDone lanes cmd bulk s
  | .mxlStateTimeout => Sys2Proof.Machine.execMxlStateTimeout s
  | .mxlDownRecover => Sys2Proof.Machine.execMxlDownRecover s
  | .commandFetch r d => Sys2Proof.Machine.execCommandFetch r d s
  | .heldRecordFlush => Sys2Proof.Machine.execHeldRecordFlush s
  | .cmdNop ring tag => Sys2Proof.Machine.execCmdNop ring tag s
  | .cmdStop tag => Sys2Proof.Machine.execCmdStop tag s
  | .cmdAbort ring tag entry => Sys2Proof.Machine.execCmdAbort ring tag entry s
  | .cmdReset ring tag => Sys2Proof.Machine.execCmdReset ring tag s
  | .cmdPartitionSet ring tag => Sys2Proof.Machine.execCmdPartitionSet ring tag s
  | .cmdLinkmapLoad ring tag => Sys2Proof.Machine.execCmdLinkmapLoad ring tag s
  | .cmdBellJoin ring tag => Sys2Proof.Machine.execCmdBellJoin ring tag s
  | .cmdMemCopy ring tag => Sys2Proof.Machine.execCmdMemCopy ring tag s
  | .cmdMemFill ring tag => Sys2Proof.Machine.execCmdMemFill ring tag s
  | .cmdDmaIn ring tag => Sys2Proof.Machine.execCmdDmaIn ring tag s
  | .cmdDmaOut ring tag => Sys2Proof.Machine.execCmdDmaOut ring tag s
  | .cmdNbuFill ring tag => Sys2Proof.Machine.execCmdNbuFill ring tag s
  | .cmdNbuCopy ring tag => Sys2Proof.Machine.execCmdNbuCopy ring tag s
  | .cmdCourseLoad ring tag => Sys2Proof.Machine.execCmdCourseLoad ring tag s
  | .cmdCourseStart ring tag => Sys2Proof.Machine.execCmdCourseStart ring tag s
  | .cmdCourseEnd ring tag => Sys2Proof.Machine.execCmdCourseEnd ring tag s
  | .cmdCourseUnload ring tag => Sys2Proof.Machine.execCmdCourseUnload ring tag s
  | .cmdCourseResume ring tag => Sys2Proof.Machine.execCmdCourseResume ring tag s
  | .cmdRosterCommit ring tag => Sys2Proof.Machine.execCmdRosterCommit ring tag s
  | .cmdSeqOpen ring tag => Sys2Proof.Machine.execCmdSeqOpen ring tag s
  | .cmdSeqClose ring tag => Sys2Proof.Machine.execCmdSeqClose ring tag s
  | .cmdPageMap ring tag => Sys2Proof.Machine.execCmdPageMap ring tag s
  | .cmdPageUnmap ring tag => Sys2Proof.Machine.execCmdPageUnmap ring tag s
  | .cmdSeqFork ring tag => Sys2Proof.Machine.execCmdSeqFork ring tag s
  | .cmdPagePrivate ring tag => Sys2Proof.Machine.execCmdPagePrivate ring tag s
  | .pageCommandCommit ring tag => Sys2Proof.Machine.execPageCommandCommit ring tag s
  | .cmdGroupTable ring tag => Sys2Proof.Machine.execCmdGroupTable ring tag s
  | .cmdRecessRequest ring tag => Sys2Proof.Machine.execCmdRecessRequest ring tag s
  | .cmdPowerCap ring tag => Sys2Proof.Machine.execCmdPowerCap ring tag s
  | .cmdBudgetMove ring tag => Sys2Proof.Machine.execCmdBudgetMove ring tag s
  | .cmdImageStage ring tag => Sys2Proof.Machine.execCmdImageStage ring tag s
  | .cmdImageActivate ring tag => Sys2Proof.Machine.execCmdImageActivate ring tag s
  | .cmdSyllabusLoad ring tag => Sys2Proof.Machine.execCmdSyllabusLoad ring tag s
  | .cmdLicenceLoad ring tag => Sys2Proof.Machine.execCmdLicenceLoad ring tag s
  | .cmdAttest ring tag => Sys2Proof.Machine.execCmdAttest ring tag s
  | .cmdExam ring tag => Sys2Proof.Machine.execCmdExam ring tag s
  | .cmdEvacuate ring tag => Sys2Proof.Machine.execCmdEvacuate ring tag s
  | .cmdAreaRestore ring tag => Sys2Proof.Machine.execCmdAreaRestore ring tag s
  | .cmdRenumber ring tag => Sys2Proof.Machine.execCmdRenumber ring tag s
  | .cmdEnergySnapshot ring tag => Sys2Proof.Machine.execCmdEnergySnapshot ring tag s
  | .energySnapshotTake ring tag => Sys2Proof.Machine.execEnergySnapshotTake ring tag s
  | .cmdCountersClear ring tag => Sys2Proof.Machine.execCmdCountersClear ring tag s
  | .countersClearApply ring tag => Sys2Proof.Machine.execCountersClearApply ring tag s
  | .cmdTraceConfig ring tag => Sys2Proof.Machine.execCmdTraceConfig ring tag s
  | .sensorSample readings powers inlet outlet => Sys2Proof.Machine.execSensorSample readings powers inlet outlet s
  | .tripComparator pair a b => Sys2Proof.Machine.execTripComparator pair a b s
  | .thermalForecast => Sys2Proof.Machine.execThermalForecast s
  | .coolantEvaluate => Sys2Proof.Machine.execCoolantEvaluate s
  | .stageS1Boot duration loadFails => Sys2Proof.Machine.execStageS1Boot duration loadFails s
  | .stageS2Clocks duration seamFails trims => Sys2Proof.Machine.execStageS2Clocks duration seamFails trims s
  | .stageS3Memory duration fails badForms lost corrected columns deadSeats => Sys2Proof.Machine.execStageS3Memory duration fails badForms lost corrected columns deadSeats s
  | .stageS4Seating duration quiz covers gateFails rf => Sys2Proof.Machine.execStageS4Seating duration quiz covers gateFails rf s
  | .stageS5Licences duration stepping => Sys2Proof.Machine.execStageS5Licences duration stepping s
  | .stageS6Ports duration => Sys2Proof.Machine.execStageS6Ports duration s
  | .stageS8Ready duration total => Sys2Proof.Machine.execStageS8Ready duration total s
  | .autoExamStep result => Sys2Proof.Machine.execAutoExamStep result s
  | .examComplete failing => Sys2Proof.Machine.execExamComplete failing s
  | .heartbeatTimeout lt => Sys2Proof.Machine.execHeartbeatTimeout lt s
  | .errorsThreshold lt => Sys2Proof.Machine.execErrorsThreshold lt s
  | .substitutionComplete lt => Sys2Proof.Machine.execSubstitutionComplete lt s
  | .i3cEntdaa addr => Sys2Proof.Machine.execI3cEntdaa addr s
  | .i3cSetdasa addr => Sys2Proof.Machine.execI3cSetdasa addr s
  | .i3cRstdaa => Sys2Proof.Machine.execI3cRstdaa s
  | .i3cEnec mask => Sys2Proof.Machine.execI3cEnec mask s
  | .i3cDisec mask => Sys2Proof.Machine.execI3cDisec mask s
  | .i3cGetstatus => Sys2Proof.Machine.execI3cGetstatus s
  | .i3cSetIndex index => Sys2Proof.Machine.execI3cSetIndex index s
  | .i3cPrivateRead n => Sys2Proof.Machine.execI3cPrivateRead n s
  | .mgmtResetRequest => Sys2Proof.Machine.execMgmtResetRequest s
  | .mgmtLedgerClear => Sys2Proof.Machine.execMgmtLedgerClear s
  | .mgmtHoldNext => Sys2Proof.Machine.execMgmtHoldNext s
  | .mgmtAlertAck => Sys2Proof.Machine.execMgmtAlertAck s
  | .mgmtMalformed code complement => Sys2Proof.Machine.execMgmtMalformed code complement s
  | .jtagExtest cells pins => Sys2Proof.Machine.execJtagExtest cells pins s
  | .jtagSamplePreload cells pins => Sys2Proof.Machine.execJtagSamplePreload cells pins s
  | .jtagIdcode => Sys2Proof.Machine.execJtagIdcode s
  | .jtagClamp => Sys2Proof.Machine.execJtagClamp s
  | .jtagHighz => Sys2Proof.Machine.execJtagHighz s
  | .jtagExtestPulse cells pins => Sys2Proof.Machine.execJtagExtestPulse cells pins s
  | .jtagExtestTrain cells pins => Sys2Proof.Machine.execJtagExtestTrain cells pins s
  | .jtagBypass => Sys2Proof.Machine.execJtagBypass s
  | .instRead space addr => Sys2Proof.Machine.execInstRead space addr s
  | .instWrite space addr data => Sys2Proof.Machine.execInstWrite space addr data s
  | .instComplete => Sys2Proof.Machine.execInstComplete s
  | .bellClearPeak w => Sys2Proof.Machine.execBellClearPeak w s
  | .bellOverrunClear w => Sys2Proof.Machine.execBellOverrunClear w s
  | .ariClearAll w => Sys2Proof.Machine.execAriClearAll w s
  | .ariFlagClear port n x => Sys2Proof.Machine.execAriFlagClear port n x s
  | .memFaultClear l x => Sys2Proof.Machine.execMemFaultClear l x s
  | .nbuTokenLimitWrite w => Sys2Proof.Machine.execNbuTokenLimitWrite w s
  | .nbuTokensClearPeak w => Sys2Proof.Machine.execNbuTokensClearPeak w s
  | .trnAreaWrite w => Sys2Proof.Machine.execTrnAreaWrite w s
  | .trnPoolWrite w => Sys2Proof.Machine.execTrnPoolWrite w s
  | .trnFallbackWrite lt w => Sys2Proof.Machine.execTrnFallbackWrite lt w s
  | .updShadowWrite w => Sys2Proof.Machine.execUpdShadowWrite w s
  | .fabPartWrite w => Sys2Proof.Machine.execFabPartWrite w s
  | .ringCfgWrite a w => Sys2Proof.Machine.execRingCfgWrite a w s
  | .cplRingHeadWrite q w => Sys2Proof.Machine.execCplRingHeadWrite q w s
  | .evtRingHeadWrite e w => Sys2Proof.Machine.execEvtRingHeadWrite e w s
  | .throttleLimitWrite w => Sys2Proof.Machine.execThrottleLimitWrite w s
  | .coolantDeclineClear x => Sys2Proof.Machine.execCoolantDeclineClear x s
  | .crackSuspectClear form x => Sys2Proof.Machine.execCrackSuspectClear form x s
  | .evacPendingClear index x => Sys2Proof.Machine.execEvacPendingClear index x s
  | .regAccessArmClear x => Sys2Proof.Machine.execRegAccessArmClear x s
  | .serviceStopClear lt c x => Sys2Proof.Machine.execServiceStopClear lt c x s
  | .loRegisterRead req a => Sys2Proof.Machine.execLoRegisterRead req a s
  | .registerAccessError a width write => Sys2Proof.Machine.execRegisterAccessError a width write s
  | .registerWrite a width x => Sys2Proof.Machine.execRegisterWrite a width x s
  | .referenceRegained => Sys2Proof.Machine.execReferenceRegained s
  | .mxlLaneTakeover => Sys2Proof.Machine.execMxlLaneTakeover s
  | .securityCommandDone => Sys2Proof.Machine.execSecurityCommandDone s
  | .stopBoundElapsed tag => Sys2Proof.Machine.execStopBoundElapsed tag s
  | .trstNAssert => Sys2Proof.Machine.execTrstNAssert s

end Sys2Proof.Machine
end

