-- ==== Sys2Proof/Safety.lean ====
section
/-! DEFINITION. The canonical form of tables, registers and memories, so that equal contents are equal data, and the
invariant that every step keeps. -/

namespace Sys2Proof.Machine

/-- Keys rise strictly: no key is listed twice. -/
abbrev Rising {α : Type} (t : Tbl α) : Prop := t.Pairwise (fun x y => x.1 < y.1)

/-- A table in canonical form: keys rise, and no entry holds what an unlisted key reads as. -/
abbrev Canonical {α : Type} [DecidableEq α] (t : Tbl α) (d : α) : Prop := Rising t ∧ ∀ x ∈ t, x.2 ≠ d

/-- Every memory and every table of check codes is in canonical form. -/
abbrev Memory.canonical (m : MemSt) : Prop :=
  Canonical m.bytes 0 ∧ Canonical m.tbChk 0 ∧ Canonical m.slotPoison 0 ∧ Canonical m.slotEmpty 0 ∧ Canonical m.lkChk 0 ∧
  Canonical m.lmPoison 0 ∧ Rising m.lmErr ∧ Canonical m.rbPoison 0 ∧ Rising m.undef ∧ Canonical m.leftBytes 0 ∧
  Canonical m.leftChk 0 ∧ Rising m.leftUndef ∧ Canonical m.cc 0

/-- The same as a truth value. -/
def Memory.wf (m : MemSt) : Bool := decide (Memory.canonical m)

/-- A register file lists only registers whose word differs from the reset value, each once. -/
def RegsCanonical (t : Tbl Word) : Prop := Rising t ∧ ∀ x ∈ t, x.2 ≠ regReset x.1

/-- What every step keeps: registers and memories in canonical form. -/
def State.Inv (s : State) : Prop := RegsCanonical s.regs ∧ Memory.wf s.mem = true

/-! The terms in which statements are made. -/

/-- The command c answers a next state on s, of which P holds. -/
def Gives (c : Instr) (s : State) (P : State → Prop) : Prop := ∃ t, exec c s = .next t ∧ P t

/-- The module has power and has accepted command c, of an opcode, from a ring under a tag; c has not gone on to its work, and no switch of
images keeps it waiting. -/
abbrev Accepted (s : State) (ring tag opcode : Nat) (c : Cmd) : Prop :=
  s.powered = true ∧ s.findCmd ring tag opcode = some c ∧ c.phase = .accepted ∧ s.switchWait c = false

/-- The module has power and holds command c, of an opcode, from a ring under a tag, in a phase. -/
abbrev Held (s : State) (ring tag opcode : Nat) (c : Cmd) (ph : CmdPhase) : Prop :=
  s.powered = true ∧ s.findCmd ring tag opcode = some c ∧ c.phase = ph

/-- Registers that the raising of an event may load (15 R396-R403, 22 R523, R529). -/
def eventReg (a : Nat) : Bool :=
  a == EVT_SEQ || a == EVT_UNROUTED || a == TRC_STATUS || a == MGMT_STATUS ||
  (List.range 8).any (fun e => a == EVT_RING_TAIL e || a == EVT_RING_LOST e)

/-- Registers that the completion of a command may load besides (14 R375, R378, 15 R407). -/
def cplReg (a : Nat) : Bool :=
  eventReg a || a == MXL_PRIO || (List.range 64).any (fun q => a == CPL_RING_TAIL q) ||
  (List.range 4).any (fun p => a == PERF_LO p 7 || a == PERF_HI p 7)

/-- No engine of a tile has work under way, and neither a service access nor a request of the host waits. -/
abbrev Quiet (s : State) : Prop := (∀ x ∈ s.tiles, x.2.dues = []) ∧ s.svcWait = [] ∧ s.mxl.heldReqs = []

/-- t is u but for what raising events changes: event rings and their registers, the Milbex Link, in-band interrupts, the
trace, and the count of free values. -/
def Reports (u t : State) : Prop :=
  t = { u with regs := t.regs, freeCtr := t.freeCtr, mxl := t.mxl, evRings := t.evRings, mgmt := t.mgmt, out := t.out } ∧
  ∀ a, eventReg a = false → t.reg a = u.reg a

/-- Registers that an engine of tile lt may load while it reads, computes and writes (03 R112-R115, 04 R141, 05 R171, 07 R206,
R211, 15 R407). -/
def tileReg (lt a : Nat) : Bool :=
  eventReg a || a == ARI_SUMMARY || a == ARI_FIRST ||
  [TB_ERRORS_LT lt, TB_FAULT_LT lt, TB_READS_LT lt, MXE_ERRORS_LT lt, MXE_STATUS_LT lt, MXE_PROGRESS_LT lt, VE_ERRORS_LT lt,
   VE_STATUS_LT lt, VE_PROGRESS_LT lt, ARI_FLAGS_LT lt].contains a ||
  (List.range 4).any (fun p => (List.range 8).any (fun k => a == PERF_LO p k || a == PERF_HI p k))

/-- t is s but for the engines of tile lt, what their accesses count, and what reports it. -/
def WithinTile (lt : Nat) (s t : State) : Prop :=
  t = { s with regs := t.regs, tiles := t.tiles, chans := t.chans, mem := t.mem, cyc := t.cyc, freeCtr := t.freeCtr
               mesh := { s.mesh with beats := t.mesh.beats, nextId := t.mesh.nextId }
               ariAt := t.ariAt, mxl := t.mxl, evRings := t.evRings, mgmt := t.mgmt, out := t.out } ∧
  (∀ n, n ≠ lt → t.tile n = s.tile n) ∧ (∀ c, c / 8 ≠ lt → t.chan c = s.chan c) ∧
  t.mesh.beats.filter (fun b => b.srcLt != lt) = s.mesh.beats.filter (fun b => b.srcLt != lt) ∧
  ∀ a, tileReg lt a = false → t.reg a = s.reg a

/-- Tile lt carries out descriptor idx of its vector program, d, of an opcode, and no other is under way
when it starts (05 R160). -/
abbrev VeReady (s : State) (lt idx opcode d : Nat) : Prop :=
  s.powered = true ∧ idx < tpVeCount (armedProgram (s.tile lt)) ∧
  d = descAt (armedProgram (s.tile lt)) (tpVeOffset (armedProgram (s.tile lt))) idx ∧ dBits d 0 0 4 = opcode ∧
  s.tileWorks lt (dStartBell d) = true ∧ ((s.engines lt (dStartCycle d)).ve lt).run = none ∧
  ((s.engines lt (dStartCycle d)).ve lt).job = none

/-- Tile lt's RUN r issues instruction i of its slate next, at cycle x counted from its start (05 R158). -/
abbrev SlateReady (s : State) (lt : Nat) (r : VeRun) (i : Slate) (x : Nat) : Prop :=
  s.powered = true ∧ (s.ve lt).run = some r ∧ i = slateOf (r.slate.getD r.instr 0) ∧
  x = r.base + r.iter * r.slate.length + r.instr

/-- Core g issues the operation k of the word w at CTRL cycle t, and u is the module at that issue: the cycle stands in cyc, and
a fetch that was corrected is counted (06 R174-R177, R189). -/
abbrev CoreReady (s u : State) (g k w t : Nat) : Prop :=
  s.powered = true ∧ s.coreRuns g = true ∧ s.pastDeadline g = false ∧ (s.core g).pc < 0x8000 ∧
  tgetD s.mem.lmErr (lmAddr g (s.core g).pc / 4) 0 ≠ 2 ∧ w = s.fetchWord g ∧ chalkOf w = some k ∧ t = (s.core g).issueAt k w ∧
  u = { (if tgetD s.mem.lmErr (lmAddr g (s.core g).pc / 4) 0 = 1 then s.incF (GC_ERRORS g) GC_ERRORS_lm_corrected 1 else s) with
        cyc := 2 * t % 4096 }

/-- The command's completion ring and partition exist. -/
abbrev Cmd.placed (c : Cmd) : Prop := c.cplRing < 64 ∧ c.part < 4

/-- t is u but for what completing a command changes besides: the accepted commands and those kept as done. -/
def Completes (u t : State) : Prop :=
  t = { u with regs := t.regs, freeCtr := t.freeCtr, mxl := t.mxl, evRings := t.evRings, mgmt := t.mgmt, out := t.out,
               cmds := t.cmds, done := t.done } ∧
  ∀ a, cplReg a = false → t.reg a = u.reg a

end Sys2Proof.Machine
end

