-- ==== Sys2Proof/Certificates/Slice0/Obligations.lean ====
section
/-! DEFINITION. The statements about the model, for the provers; OBLIGATIONS.json lists them. Each docstring names the rules of
spec/ that its statement follows, as the number of the file and that of the rule. -/

open Sys2Proof Sys2Proof.Machine

/-- 00 R11: an aligned access of 4 bytes reaches one register, one of 8 bytes two consecutive registers; any other access writes
nothing, reads 0, and is counted as a register access error, the first since the arming reported by one event (15 R415). -/
def Obligations.AccessWidths : Prop :=
  ∀ (s : State) (req a width v now : Nat) (write : Bool), s.powered = true →
    (a % 4 = 0 → exec (.registerWrite a 4 ⟨v, now⟩) s = .next (s.regWrite a (BitVec.ofNat 32 v) (BitVec.ofNat 32 now)) ∧
      (tfind s.shadows (shadowKey req a) = none → (s.accessRead req a 4).1 = (s.regRead a).toNat)) ∧
    (a % 8 = 0 →
      exec (.registerWrite a 8 ⟨v, now⟩) s =
        .next ((s.regWrite a (BitVec.ofNat 32 v) (BitVec.ofNat 32 now)).regWrite (a + 4) (BitVec.ofNat 32 (v / 2 ^ 32))
          (BitVec.ofNat 32 (now / 2 ^ 32))) ∧
      (s.accessRead req a 8).1 = (s.regRead a).toNat + 2 ^ 32 * (s.regRead (a + 4)).toNat ∧ (s.accessRead req a 8).2 = s) ∧
    (¬(width = 4 ∧ a % 4 = 0) → ¬(width = 8 ∧ a % 8 = 0) →
      (s.accessRead req a width).1 = 0 ∧ exec (.registerWrite a width ⟨v, now⟩) s = .next s ∧
      exec (.registerAccessError a width false) s = .next (s.accessRead req a width).2 ∧
      exec (.registerAccessError a width true) s = .next (s.accessWrite a width v now) ∧
      (s.flag REG_ACCESS_ERR REG_ACCESS_ERR_event_armed = true →
        exec (.registerAccessError a width write) s = .next (s.incF REG_ACCESS_ERR REG_ACCESS_ERR_count 1)) ∧
      (s.flag REG_ACCESS_ERR REG_ACCESS_ERR_event_armed = false →
        Gives (.registerAccessError a width write) s (fun t => t.flag REG_ACCESS_ERR REG_ACCESS_ERR_event_armed = true ∧
          t.getF REG_ACCESS_ERR REG_ACCESS_ERR_count = min 65535 (s.getF REG_ACCESS_ERR REG_ACCESS_ERR_count + 1) ∧
          t.reg EVT_SEQ = s.reg EVT_SEQ + 1 ∧
          Reports ((s.incF REG_ACCESS_ERR REG_ACCESS_ERR_count 1).setB REG_ACCESS_ERR REG_ACCESS_ERR_event_armed true) t)))

/-- 10 R288: while any directory holds an open sequence a write of TRN_AREA or TRN_POOL changes nothing; otherwise it loads the
register, but for one of TRN_AREA whose area would end beyond 4 MiB. -/
def Obligations.PageAreaWrites : Prop :=
  ∀ (s : State) (w : Word), s.powered = true →
    (s.anySeqOpen = true → exec (.trnAreaWrite w) s = .next s ∧ exec (.trnPoolWrite w) s = .next s) ∧
    (2 ^ 22 < fldGet w TRN_AREA_base * 0x1000 + 0xC000 + 0x4000 * (fldGet w TRN_AREA_leaf_blocks + 1) →
      exec (.trnAreaWrite w) s = .next s) ∧
    (s.anySeqOpen = false →
      (fldGet w TRN_AREA_base * 0x1000 + 0xC000 + 0x4000 * (fldGet w TRN_AREA_leaf_blocks + 1) ≤ 2 ^ 22 →
        Gives (.trnAreaWrite w) s (fun t => t.reg TRN_AREA = (s.reg TRN_AREA &&& ~~~0x80003FFF) ||| (w &&& 0x80003FFF) ∧
          t = { s with regs := t.regs } ∧ ∀ a, a ≠ TRN_AREA → (∀ n < 256, a ≠ TRN_FREE_LT n) → t.reg a = s.reg a)) ∧
      Gives (.trnPoolWrite w) s (fun t => t.reg TRN_POOL = (s.reg TRN_POOL &&& ~~~0x7FF07FF) ||| (w &&& 0x7FF07FF) ∧
        t = { s with regs := t.regs } ∧ ∀ a, a ≠ TRN_POOL → (∀ n < 256, a ≠ TRN_FREE_LT n) → t.reg a = s.reg a))

/-- 22 R525: EXTEST, CLAMP and HIGHZ are selected while no course is loaded and the Milbex Link is not UP; otherwise bypass is,
and the refusal is shown. -/
def Obligations.ExtestRefused : Prop :=
  ∀ (s : State) (cells pins : List Bool), s.powered = true →
    ∀ row ∈ [(Instr.jtagExtest cells pins, 0x00), (Instr.jtagClamp, 0x03), (Instr.jtagHighz, 0x04)],
      (s.anyLoaded = false → s.mxlUp = false →
        Gives row.1 s (fun t => t.mgmt.ir = row.2 ∧ t = { s with mgmt := t.mgmt })) ∧
      (s.anyLoaded = true ∨ s.mxlUp = true →
        Gives row.1 s (fun t => t.mgmt.ir = 0xFF ∧ t.flag MGMT_STATUS MGMT_STATUS_extest_refused = true ∧
          t.mgmt.boundary = s.mgmt.boundary ∧ t = { s with regs := t.regs, mgmt := t.mgmt } ∧
          ∀ a, a ≠ MGMT_STATUS → t.reg a = s.reg a))

/-- 15 R402: a record is written at once where nothing waits and the ring is not full, the Milbex Link is UP and no write is
outstanding (and, 21 R511, the control cores are not switching images); otherwise it is held, up to 256 records and below severity 2 while fewer than 224 are held; else it is lost to that
ring and counted. -/
def Obligations.EventPlaces : Prop :=
  ∀ (s : State) (e n : Nat) (r : EvRec), e < 8 →
    (s.evFree e n = true ↔ s.mxlUp = true ∧ s.sec.switch = none ∧ ringUsed (s.reg (EVT_RING_HEAD e)).toNat (s.reg (EVT_RING_TAIL e)).toNat < 2 ^ n ∧
      ∀ q, (s.evRing e).outstanding = some q → ∀ t ∈ s.mxl.cmdQ ++ s.mxl.replay, t.msg ≠ q) ∧
    (evWaiting (s.evRing e) = [] → s.evFree e n = true → s.evOffer e n r = s.evWrite e n r) ∧
    (evWaiting (s.evRing e) ≠ [] ∨ s.evFree e n = false →
      (2 ≤ evSeverity r.code ∧ (s.evRing e).held.length < 256 ∨ evSeverity r.code < 2 ∧ (s.evRing e).held.length < 224 →
        ((s.evOffer e n r).evRing e).held = (s.evRing e).held ++ [r] ∧
        s.evOffer e n r = { s with evRings := (s.evOffer e n r).evRings } ∧
        ∀ x, x ≠ e → (s.evOffer e n r).evRing x = s.evRing x) ∧
      (2 ≤ evSeverity r.code ∧ 256 ≤ (s.evRing e).held.length ∨ evSeverity r.code < 2 ∧ 224 ≤ (s.evRing e).held.length →
        ((s.evOffer e n r).evRing e).held = (s.evRing e).held ∧
        (s.evOffer e n r).getF (EVT_RING_LOST e) EVT_RING_LOST_lost =
          min 65535 (s.getF (EVT_RING_LOST e) EVT_RING_LOST_lost + 1) ∧
        s.evOffer e n r = { s with regs := (s.evOffer e n r).regs, evRings := (s.evOffer e n r).evRings } ∧
        (∀ a, a ≠ EVT_RING_LOST e → (s.evOffer e n r).reg a = s.reg a) ∧
        ∀ x, x ≠ e → (s.evOffer e n r).evRing x = s.evRing x)) ∧
    ((s.evRing e).held.length ≤ 256 → ((s.evOffer e n r).evRing e).held.length ≤ 256)

/-- 03 R104: nearest-even is nearest, and even where two integers are as near; stochastic rounding is the floor of (x + u) / 2^r with
u the top r bits of the draw, or the draw moved up; INX tells of the low r bits of x alone; a value within M × 2^r stays
within M. -/
def Obligations.RoundingModes : Prop :=
  ∀ (x : Int) (r : Nat), 1 ≤ r →
    2 * (2 ^ r * (divRound x r none).1 - x).natAbs ≤ 2 ^ r ∧
    (2 * (2 ^ r * (divRound x r none).1 - x).natAbs = 2 ^ r → (divRound x r none).1 % 2 = 0) ∧
    (∀ d, d < 2 ^ 24 → r ≤ 24 → (divRound x r (some d)).1 = (x + (d / 2 ^ (24 - r) : Nat)) / 2 ^ r) ∧
    (∀ d, d < 2 ^ 24 → 24 < r → (divRound x r (some d)).1 = (x + (d * 2 ^ (r - 24) : Nat)) / 2 ^ r) ∧
    (∀ d, (divRound x r d).2 = true ↔ ¬(2 ^ r : Int) ∣ x) ∧
    (∀ (m : Int) d, 0 ≤ m → (∀ k, d = some k → k < 2 ^ 24) → -(m * 2 ^ r) ≤ x → x ≤ m * 2 ^ r →
      -m ≤ (divRound x r d).1 ∧ (divRound x r d).1 ≤ m)

/-- 03 R106: the draw of a seed and a key, with all arithmetic modulo 2^64; R107: the key of element i of output block b. -/
def Obligations.DrawsAndKeys : Prop :=
  (∀ seed key : BitVec 64,
    let mix := fun z : BitVec 64 =>
      let z := z + 0x9E3779B97F4A7C15#64
      let z := (z ^^^ (z >>> 30)) * 0xBF58476D1CE4E5B9#64
      let z := (z ^^^ (z >>> 27)) * 0x94D049BB133111EB#64
      z ^^^ (z >>> 31)
    drawOf seed.toNat key.toNat = ((mix (mix (seed ^^^ key))).extractLsb 63 40).toNat) ∧
  ∀ (hi base : BitVec 32) (b i : Nat), i < 32 →
    drawKey hi.toNat base.toNat b i = (hi ++ (base + BitVec.ofNat 32 (32 * b + i))).toNat

/-- 03 R95: a term is S × 2^d, or the quotient truncated toward zero, with INX for a bit of |S| that is lost; R96: a term outside the
range of the accumulator is added modulo 2^48 and sets OVF, 0 never does. With them R97: a sum is the same in every order. -/
def Obligations.TermsAndSums : Prop :=
  (∀ v d : Int,
    (0 ≤ d → termOf v d 48 = (v * 2 ^ d.toNat, ⟨false, decide (v * 2 ^ d.toNat < -2 ^ 47 ∨ 2 ^ 47 ≤ v * 2 ^ d.toNat), false⟩)) ∧
    (d < 0 → (termOf v d 48).1 = v.tdiv (2 ^ (-d).toNat) ∧
      ((termOf v d 48).2.inx = true ↔ ∃ i, i < (-d).toNat ∧ v.natAbs.testBit i = true)) ∧
    ((termOf v d 48).2.ovf = true ↔ (termOf v d 48).1 < -2 ^ 47 ∨ 2 ^ 47 ≤ (termOf v d 48).1) ∧
    ((termOf v d 48).1 = 0 → (termOf v d 48).2.ovf = false) ∧
    ∀ a : Int, ∃ k : Int, addWrap a (termOf v d 48).1 48 = a + (termOf v d 48).1 + k * 2 ^ 48 ∧
      -2 ^ 47 ≤ addWrap a (termOf v d 48).1 48 ∧ addWrap a (termOf v d 48).1 48 < 2 ^ 47) ∧
  ∀ (len : Nat) (l l' : List Int) (a : Int), 1 ≤ len → l.Perm l' →
    l.foldl (fun s x => addWrap s x len) a = l'.foldl (fun s x => addWrap s x len) a

/-- 01 R26: field, form and seat index of a router; R27: form, field, row and column of a logical tile, each place of the 16 × 16
grid held by one tile. -/
def Obligations.GridNumbering : Prop :=
  (∀ row col, row < 16 → col < 18 →
    seatAt row col = 18 * (4 * (2 * (row / 8) + col / 9) + row % 8 / 2) + (9 * (row % 2) + col % 9) ∧
    seatAt row col / 18 = 4 * (2 * (row / 8) + col / 9) + row % 8 / 2 ∧ seatAt row col % 18 = 9 * (row % 2) + col % 9 ∧
    seatRow (seatAt row col) = row ∧ seatCol (seatAt row col) = col) ∧
  (∀ form k, form < 16 → k < 16 →
    ltForm (16 * form + k) = form ∧ ltRow (16 * form + k) = 8 * (form / 4 / 2) + 2 * (form % 4) + k / 8 ∧
    ltCol (16 * form + k) = 8 * (form / 4 % 2) + k % 8) ∧
  (∀ row col, row < 16 → col < 16 → ∃ lt, (lt < 256 ∧ ltRow lt = row ∧ ltCol lt = col) ∧
    ∀ n, n < 256 → ltRow n = row → ltCol n = col → n = lt)

/-- 00 R4, 01 R37: bytes stored from an address on lie at rising addresses and are read back, whatever the undefined data beneath; every other byte reads
as before. The canonical form is the model's own (Safety). -/
def Obligations.MemoryReadsBack : Prop :=
  ∀ (m : MemSt) (a b : Nat) (l : List Byte),
    memGet (memWrite m a l) b = (if a ≤ b ∧ b < a + l.length then l.getD (b - a) 0 else memGet m b) ∧
    memRead (memWrite m a l) a l.length = l ∧ (Memory.wf m = true → Memory.wf (memWrite m a l) = true) ∧
    memWrite m a l = { m with bytes := (memWrite m a l).bytes }

/-- A step is exec of the front command on the state with the queue's rest. With no command waiting the block idles, which is the
model's choice (log entry 1). -/
def Obligations.StepRunsTheFrontCommand : Prop :=
  (∀ (c : Instr) (s : State), step { s with pending := c :: s.pending } = exec c s) ∧
  ∀ s : State, s.pending = [] → step s = .next s

/-- No command faults or is refused: exec of any command on any state answers a next state. It leaves the queue and the variant as
they are, and a module without power is changed by the commands of the power sequence and the end of a reset alone (log entry 3). -/
def Obligations.EveryCommandAnswers : Prop :=
  ∀ (c : Instr) (s : State), ∃ t, exec c s = .next t ∧ t.pending = s.pending ∧ t.variant = s.variant ∧
    (s.powered = false → (∀ v, c ≠ .inputValid v) → (∀ v d, c ≠ .powerGood v d) → (∀ v d, c ≠ .inputLowShutdown v d) →
      c ≠ .stackResetRelease → t = s)

/-- 00 R15: after reset every register reads the value of its Reset column; no command waits, and registers and memories are in
canonical form. What a byte of memory that nothing has written reads as is the model's choice (log entry 6). -/
def Obligations.ResetState : Prop :=
  State.reset.pending = [] ∧ State.reset.Inv ∧ (∀ a, State.reset.reg a = regReset a) ∧ (∀ a, memGet State.reset.mem a = 0) ∧
  (∀ p, p < 4 → State.reset.reg (BELL_CRS_STATE p) = 8) ∧ (∀ p, p < 6 → State.reset.reg (PORT_STATE p) = 0x40) ∧
  (∀ r, r < 64 → State.reset.reg (CMD_RING_CFG r) = 0x10000) ∧ (∀ n, n < 256 → State.reset.reg (STK_SEAT_LT n) = 31) ∧
  State.reset.getF NBU_TOKEN_LIMIT NBU_TOKEN_LIMIT_limit = 0x2000 ∧ State.reset.reg FAB_TREE = 0x3F ∧
  State.reset.reg CMD_PART = 1 ∧ State.reset.getF THM_THROTTLE_LIMIT THM_THROTTLE_LIMIT_cd = 95 ∧
  State.reset.getF THM_THROTTLE_LIMIT THM_THROTTLE_LIMIT_ml = 90 ∧ State.reset.getF THM_THROTTLE_LIMIT THM_THROTTLE_LIMIT_bd = 95

/-- From any state in which every register and every memory is in canonical form (no key twice, no entry equal to what an unlisted key
reads as), a step, whatever command it carries out, answers a state that is so again, and never turns one variant into the
other; the queue loses its front command and nothing else. -/
def Obligations.StepKeepsInv : Prop :=
  ∀ s t : State, s.Inv → step s = .next t → t.Inv ∧ t.variant = s.variant ∧ t.pending = s.pending.tail

/-- 18 R437, R438, R442, 19 R461: a valid input begins the power sequence; each shutdown stops the clocks, removes the
domains, releases PGOOD_N and stores its cause; a module that a trip has latched may start again once its input has been low
for 100 ms. -/
def Obligations.PowerSequence : Prop :=
  ∀ (s : State) (v ms : Nat),
    (s.power.phase = .off → 4000 ≤ v →
      exec (.inputValid v) s = .next (({ s with power := { s.power with phase := .rising } }).setF PWR_INPUT PWR_INPUT_volts v)) ∧
    (s.power.phase = .latched → 100 ≤ ms →
      exec (.inputLowShutdown v ms) s = .next { s with power := { s.power with phase := .off } }) ∧
    (s.powered = true →
      exec (.inputLowShutdown v ms) s =
        .next { s with power := { s.power with phase := .off, pgoodLow := false }, stored := some ⟨1, 0, v⟩ } ∧
      exec (.inputHighShutdown v) s =
        .next { s with power := { s.power with phase := .off, pgoodLow := false }, stored := some ⟨2, 0, v⟩ } ∧
      exec (.vcmpOvercurrentShutdown v) s =
        .next { s with power := { s.power with phase := .off, pgoodLow := false }, stored := some ⟨3, 0, v⟩ } ∧
      exec (.domainSagShutdown v) s =
        .next { s with power := { s.power with phase := .off, pgoodLow := false }, stored := some ⟨4, 0, v⟩ })

/-- 18 R439-R446: a failed phase leaves its domain, and a form of VCMP, one phase poorer, the ceiling follows, and PHASE_LOSS
names it; an open isolation switch isolates the form, halts its partition's course and raises ISOLATION_OPEN; after a warn
report the setpoint rises 5 mV, and after 4,096 bells without one it falls 5 mV to no less than its fuse; every ceiling follows; a
comparison within the threshold ends a row of excesses, and a sixteenth excess in a row marks the form as crack suspect. -/
def Obligations.FormsAndPhases : Prop :=
  ∀ s : State, s.powered = true →
    (∀ ph, ph < 288 → s.phaseFailed ph = false →
      ∃ u : State, exec (.phaseFault ph) s =
          .next (u.raise evPhaseLoss 255 9 ph (ph / 18) (u.getF (PWR_FORM (ph / 18)) PWR_FORM_ceiling_w) 0 0) ∧
        u.phaseFailed ph = true ∧ ph ∈ u.bring.carry.phases ∧
        u.getF (PWR_FORM (ph / 18)) PWR_FORM_ceiling_w =
          12 * u.getF (PWR_FORM (ph / 18)) PWR_FORM_phases_good * s.setpoint / 1000 % 256 ∧
        u = { s with regs := u.regs, bring := u.bring } ∧
        ∀ a, a ≠ PWR_PHASE_FAIL (ph / 32) → a ≠ PWR_DOMAIN 0 → a ≠ PWR_FORM (ph / 18) → u.reg a = s.reg a) ∧
    (∀ ph d, 288 ≤ ph → ph < 376 → d = phaseDomain ph → s.phaseFailed ph = false →
      ∃ u : State, exec (.phaseFault ph) s =
          .next (u.raise evPhaseLoss 255 9 ph (16 + d) (domainCeiling d (u.getF (PWR_DOMAIN d) PWR_DOMAIN_phases_good)) 0 0) ∧
        u.phaseFailed ph = true ∧ ph ∈ u.bring.carry.phases ∧
        u.getF (PWR_DOMAIN d) PWR_DOMAIN_phases_good = s.getF (PWR_DOMAIN d) PWR_DOMAIN_phases_good - 1 ∧
        u = { s with regs := u.regs, bring := u.bring } ∧
        ∀ a, a ≠ PWR_PHASE_FAIL (ph / 32) → a ≠ PWR_DOMAIN d → u.reg a = s.reg a) ∧
    (∀ ph, s.phaseFailed ph = true → exec (.phaseFault ph) s = .next s) ∧
    (∀ f amps, s.isolated f = true → exec (.isolationSwitchOpen f amps) s = .next s) ∧
    (∀ f amps w u, f < 16 → s.isolated f = false →
      w = (s.setB (STK_FORM_STATUS f) STK_FORM_STATUS_isolated true).setB (PWR_FORM f) PWR_FORM_isolated true →
      u = w.declareHalt (w.partOfForm f) hcIsolation →
      exec (.isolationSwitchOpen f amps) s = .next (u.raise evIsolationOpen (u.partOfForm f) 5 f amps 0 0 0)) ∧
    (s.power.warnSeen = true →
      exec .vcmpSetpointStep s = .next (forEach (List.range 16)
        (({ s with power := { s.power with warnSeen := false, quiet := 0 } }).setF PWR_VCMP PWR_VCMP_setpoint_mv
          (min 800 (s.setpoint + 5))) State.showCeiling)) ∧
    (s.power.warnSeen = false → s.power.quiet < 4095 →
      exec .vcmpSetpointStep s = .next { s with power := { s.power with quiet := s.power.quiet + 1 } }) ∧
    (s.power.warnSeen = false → 4095 ≤ s.power.quiet →
      exec .vcmpSetpointStep s = .next (forEach (List.range 16)
        (({ s with power := { s.power with quiet := 0 } }).setF PWR_VCMP PWR_VCMP_setpoint_mv
          (max (s.getF PWR_VCMP PWR_VCMP_fused_mv) (s.setpoint - 5))) State.showCeiling)) ∧
    (∀ f mv amps, f < 16 →
      1000 * s.setpoint ≤ 1000 * (mv + s.getF PWR_CRACK_CTRL PWR_CRACK_CTRL_threshold) + tgetD s.bring.carry.rf f 0 * amps →
      exec (.crackCompare f mv amps) s =
        .next (({ s with power := { s.power with excess := tput s.power.excess f 0 } }).setF (PWR_FORM f) PWR_FORM_sensed_mv mv)) ∧
    (∀ f mv amps, f < 16 →
      1000 * (mv + s.getF PWR_CRACK_CTRL PWR_CRACK_CTRL_threshold) + tgetD s.bring.carry.rf f 0 * amps < 1000 * s.setpoint →
      (tgetD s.power.excess f 0 < 15 ∨ s.flag (PWR_FORM f) PWR_FORM_crack_suspect = true) →
      exec (.crackCompare f mv amps) s = .next (({ s with power := { s.power with
        excess := tput s.power.excess f (min 16 (tgetD s.power.excess f 0 + 1)) } }).setF (PWR_FORM f) PWR_FORM_sensed_mv mv)) ∧
    (∀ f mv amps, f < 16 → s.flag (PWR_FORM f) PWR_FORM_crack_suspect = false → 15 ≤ tgetD s.power.excess f 0 →
      1000 * (mv + s.getF PWR_CRACK_CTRL PWR_CRACK_CTRL_threshold) + tgetD s.bring.carry.rf f 0 * amps < 1000 * s.setpoint →
      ∃ u : State, exec (.crackCompare f mv amps) s = .next (u.raise evCrackSuspect (s.partOfForm f) 5 f mv
          ((1000 * s.setpoint - tgetD s.bring.carry.rf f 0 * amps) / 1000) 0 0) ∧
        u.flag (PWR_FORM f) PWR_FORM_crack_suspect = true ∧ tgetD u.power.excess f 0 = 16 ∧
        u = { s with regs := u.regs, power := u.power } ∧ ∀ a, a ≠ PWR_FORM f → u.reg a = s.reg a)

/-- 15 R405, R406, R409, R412, 18 R447, R448, R450, R451: the energy accounts of a bell, ENERGY_SNAPSHOT and COUNTERS_CLEAR from
acceptance to their records (each bell's energy is added once, and a snapshot is taken after it), the cap and the budgets, and the
recess for power; the steps of gating. -/
def Obligations.EnergyAndBudgets : Prop :=
  ∀ s : State, s.powered = true →
    (∀ e, s.energy.counted = true → exec (.energyAccumulate e) s = .next s) ∧
    (∀ e, s.energy.counted = false → Gives (.energyAccumulate e) s (fun t =>
      t.energy.module = (s.energy.module + e.module) % 2 ^ 64 ∧ t.energy.counted = true ∧
      (s.energy.past.recess = false → t.power.idle = s.power.idle) ∧
      t = { s with regs := t.regs, energy := t.energy, power := t.power })) ∧
    (∀ ring tag c, Accepted s ring tag opENERGY_SNAPSHOT c →
      exec (.cmdEnergySnapshot ring tag) s = .next (s.putCmd c { c with phase := .active })) ∧
    (∀ ring tag c, Held s ring tag opENERGY_SNAPSHOT c .active → c.bell < s.bellCount → s.energy.counted = true →
      ∃ u : State, exec (.energySnapshotTake ring tag) s = .next (u.ok c (((s.reg ENERGY_SNAP_SEQ).toNat + 1) % 2 ^ 32)) ∧
        u = { s with regs := u.regs } ∧
        u.reg ENERGY_SNAP_SEQ = BitVec.ofNat 32 ((s.reg ENERGY_SNAP_SEQ).toNat + 1)) ∧
    (∀ ring tag c, Accepted s ring tag opCOUNTERS_CLEAR c →
      exec (.cmdCountersClear ring tag) s = .next (s.putCmd c { c with phase := .committed })) ∧
    (∀ ring tag c, Held s ring tag opCOUNTERS_CLEAR c .committed → c.bell < s.bellCount →
      ∃ u : State, exec (.countersClearApply ring tag) s = .next (u.ok c 0) ∧ u = { s with regs := u.regs, cyc := 3968 } ∧
        (bitSet c.pkt.p0 1 = true → bitSet c.pkt.p0 2 = false →
          u.reg BELL_RECESS_TAKEN_LO = 0 ∧ u.reg BELL_RECESS_TAKEN_HI = 0) ∧
        (bitSet c.pkt.p0 2 = true → u.reg THR_LOG_COUNT = 0)) ∧
    (∀ ring tag c, Accepted s ring tag opPOWER_CAP c → 900 ≤ c.pkt.p0 → c.pkt.p0 ≤ designPower s.variant →
      exec (.cmdPowerCap ring tag) s =
        .next (((({ s with power := { s.power with budgets := some (scaleBudgets s.budgets c.pkt.p0) } } : State)).setF
          PWR_CAP PWR_CAP_cap_w c.pkt.p0).ok c 0)) ∧
    (∀ ring tag c, Accepted s ring tag opPOWER_CAP c → c.pkt.p0 < 900 ∨ designPower s.variant < c.pkt.p0 →
      exec (.cmdPowerCap ring tag) s = .next (s.failAt c stPOWER_RANGE 0 0)) ∧
    (∀ ring tag c a b w, Accepted s ring tag opBUDGET_MOVE c → a = bitsAt c.pkt.p0 0 2 → b = bitsAt c.pkt.p0 2 2 →
      w = bitsAt c.pkt.p0 16 16 → a ≠ b → a < s.partCount → b < s.partCount → w ≠ 0 →
      w + 225 * s.fieldCount a ≤ s.budgets.getD a 0 →
      exec (.cmdBudgetMove ring tag) s = .next (({ s with power := { s.power with
        budgets := some ((s.budgets.set a (s.budgets.getD a 0 - w)).set b
          (s.budgets.getD b 0 + w)) } } : State).ok c 0)) ∧
    (∀ l, s.power.budgets = some l →
      exec .budgetTakeEffect s = .next (forEach (List.range 4) ({ s with power := { s.power with budgets := none } } : State)
        (fun u p => u.setF (PWR_PART p) PWR_PART_budget_w (l.getD p 0)))) ∧
    ((List.range 4).any s.atRecessPoint = false → (List.range 4).filterMap s.powerNeed = [] →
      exec .powerRecessEvaluate s = .next s) ∧
    (∀ r k w, (List.range 4).any s.atRecessPoint = true → (List.range 4).filterMap s.markPoint.powerNeed = [(r, k, w)] →
      exec .powerRecessEvaluate s = .next (s.markPoint.requestRecess k 1 r 4 (min 65535 w))) ∧
    (∀ p k, k < 8 →
      exec (.formUngateStep p k) s = .next (forEach ((s.formsOf p).filter (bitSet (({ s with cyc := 3968 + 8 * k } : State).nextForms p)))
        { s with cyc := 3968 + 8 * k } (fun u f => u.ungateForm k f))) ∧
    (∀ p k, k < 8 → s.working p = true → lsBells (s.crsOf p).image (s.crsOf p).lesson ≤ (s.crsOf p).lessonBell + 1 →
      lsLast (s.crsOf p).image (s.crsOf p).lesson ≤ 3647 →
      exec (.formGateStep p k) s = .next (forEach (s.formsOf p)
        { s with cyc := lsLast (s.crsOf p).image (s.crsOf p).lesson + 1 + 8 * k } (fun u f => u.gateForm k f)))

/-- 17 R419, R420, 02 R59: losing the reference begins holdover, counted; the loop relocks to the reference of its table;
holdover of 10 ms puts the device out of step. 17 R431-R434, 02 R53: an assertion stands until it ends, the first of a stretch
is counted, and with the last one the suppressed pulses and the tail are charged to the bell, to its guard or to its service slot, and
shorten at once the window of the two that runs. -/
def Obligations.ReferenceAndDroop : Prop :=
  ∀ s : State, s.powered = true →
    (s.flag CLK_REF CLK_REF_holdover = false → s.flag CLK_REF CLK_REF_ref_sel = true →
      exec .referenceLoss s = .next ((((s.setHoldover true).setB CLK_REF CLK_REF_locked false)).incF CLK_REF CLK_REF_lock_losses 1)) ∧
    (exec .referenceSwitch s = .next ((((s.setHoldover false).setB CLK_REF CLK_REF_locked true).setB CLK_REF CLK_REF_ref_sel
      (s.referencePort != 7)).setF CLK_REF CLK_REF_upstream_port s.referencePort)) ∧
    (s.flag CLK_REF CLK_REF_holdover = true →
      exec .holdoverTimeout s =
        .next (({ s with bell := { s.bell with silent := s.bell.silent || s.originates } } : State).outOfStep 3) ∧
      (((s.setHoldover false).setB CLK_REF CLK_REF_locked true).flag CLK_REF CLK_REF_ref_sel = true →
        exec .referenceRegained s = .next ((s.setHoldover false).setB CLK_REF CLK_REF_locked true))) ∧
    (∀ die site, die < 6 → (die, site) ∉ s.clock.masked → s.clock.asserting = [] →
      Gives (.droopAssert die site) s (fun t => t.clock = { s.clock with asserting := [(die, site)] } ∧
        t = { s with regs := t.regs, clock := t.clock } ∧ ∀ a, a ≠ CLK_DROOP_COUNT → t.reg a = s.reg a)) ∧
    (∀ die site n b m, s.clock.asserting = [(die, site)] → m = s.suppressed n + s.tailPulses →
      b = { s.bell with carried := if 0 < s.bell.carried then s.bell.carried + m else 0 } →
      (s.cyc < 3776 → exec (.droopDeassert die site n) s = .next { s with
        clock := { s.clock with asserting := [] }
        bell := { b with chargeGuard := s.bell.chargeGuard + m } }) ∧
      (3776 ≤ s.cyc → s.cyc < 3840 → exec (.droopDeassert die site n) s = .next ({ s with
        clock := { s.clock with asserting := [] }
        bell := { b with chargeGuard := s.bell.chargeGuard + m } } : State).payBack) ∧
      (3840 ≤ s.cyc → exec (.droopDeassert die site n) s = .next ({ s with
        clock := { s.clock with asserting := [] }
        bell := { b with chargeSlots := s.bell.chargeSlots + m } } : State).payBack)) ∧
    (∀ die site n, s.clock.asserting.contains (die, site) = true → 1024 ≤ n →
      Gives (.droopDetectorMask die site n) s (fun t =>
        t.clock = { s.clock with asserting := s.clock.asserting.filter (fun x => x != (die, site)),
                                 masked := s.clock.masked ++ [(die, site)] } ∧
        t = { s with regs := t.regs, clock := t.clock, bell := t.bell } ∧ ∀ a, a ≠ CLK_DROOP_COUNT → t.reg a = s.reg a)) ∧
    (∀ g site m, s.canaryCounts g site = true → m ≤ s.getF (canaryReg g) CLK_CANARY_CD_act →
      exec (.canaryAct g site m) s = .next (((s.noteMargin g m).incF (canaryReg g) CLK_CANARY_CD_acts
        1).droopAssert (canaryDie g) (site + 512))) ∧
    (∀ g site m, s.canaryCounts g site = true → m ≤ s.getF (canaryReg g) CLK_CANARY_CD_warn →
      exec (.canaryWarn g site m) s = .next { s.noteMargin g m with power := { s.power with warnSeen := true } }) ∧
    (∀ g m, s.noteMargin g m = { s with clock := { s.clock with
      margins := tput s.clock.margins g (min m (tgetD s.clock.margins g m)) } }) ∧
    (∀ m n u, m < 4 → inWindow (s.seamMode m) n = false → tfind s.clock.seamBack m = none →
      u = ({ s with clock := { s.clock with seamBack := tput s.clock.seamBack m 0 } } : State) →
      exec (.seamExcursion m n) s = .next (forEach (List.range 4) ((u.setSeamPhase m n).incF (CLK_SEAM m) CLK_SEAM_excursions 1)
        (fun v p => v.declareHalt p hcSeam)))

/-- 18 R438, 20 R471, R479, 17 R429, R430: power-good leaves a module as after reset but for its flash, ledger, store and
lockers; the watchdog of a running stage requests a reset; 14 R392: one that RESET asked for waits until its record has left; a
requested reset halts the running courses, closes the gate, and
after the release registers keep their preserved bits alone and the cause and a count are shown. -/
def Obligations.StackReset : Prop :=
  ∀ s : State,
    (∀ volts us, s.power.phase = .rising →
      Gives (.powerGood volts us) s (fun t => t.powered = true ∧ t.getF PWR_INPUT PWR_INPUT_volts = volts % 2 ^ 14 ∧
        t.pending = s.pending ∧ t.variant = s.variant ∧ t.bring.carry = s.bring.carry ∧ t.sec.slots = s.sec.slots ∧
        t.sec.licences = s.sec.licences ∧ t.tiles = [] ∧ t.cmds = [] ∧ t.stored = s.stored)) ∧
    (s.powered = true → s.getF BRG_STAGE BRG_STAGE_state = 0 → s.getF BRG_STAGE BRG_STAGE_stage ≠ 0 →
      s.clock.resetPending = none →
      ∃ u, u = s.setUnready (min 15 (s.getF BRG_STAGE BRG_STAGE_unready + 1)) ∧
        u.getF BRG_STAGE BRG_STAGE_unready = min 15 (s.getF BRG_STAGE BRG_STAGE_unready + 1) ∧
        u = { s with regs := u.regs, mgmt := u.mgmt, out := u.out } ∧ (∀ a, a ≠ BRG_STAGE → u.reg a = s.reg a) ∧
        exec (.watchdogExpiry none) s = .next { u with clock := { s.clock with resetPending := some 2 } }) ∧
    (∀ n t, s.powered = true → s.clock.resetMsg = some n → t ∈ s.mxl.prioQ ++ s.mxl.cmdQ → t.msg = n →
      exec .stackReset s = .next s) ∧
    (s.powered = true → s.resetDue = true → s.chans = [] →
      (List.range 4).filter s.courseRunning = [] → (List.range 4).filter s.layerTrained = [] →
      exec .stackReset s = .next { s with clock := { s.clock with resetBegun := true } }) ∧
    (s.powered = true → s.resetDue = true →
      Gives .stackReset s (fun t => t.clock = { s.clock with resetBegun := true } ∧ t.cmds = s.cmds ∧ t.tiles = s.tiles)) ∧
    (s.powered = true → s.clock.resetBegun = true →
      Gives .stackResetGateClose s (fun t => t.clock.gateClosed = true ∧ t.powered = false ∧
        t.getF CMD_RESET_INFO CMD_RESET_INFO_lost = min 2047 s.unfinished % 2 ^ 11 ∧
        t = { s with regs := t.regs, clock := t.clock, mgmt := t.mgmt } ∧
        ∀ a, a ≠ CMD_RESET_INFO → a ≠ MGMT_STATUS → t.reg a = s.reg a)) ∧
    (s.power.phase = .on → s.clock.gateClosed = true →
      Gives .stackResetRelease s (fun t => t.powered = true ∧ t.clock = ClockSt.reset ∧
        t.getF CLK_RESET_CAUSE CLK_RESET_CAUSE_cause = s.clock.resetPending.getD 0 % 2 ^ 4 ∧
        t.mem = resetMem s.mem ∧ t.energy = s.energy ∧ t.cmds = [] ∧ t.tiles = [] ∧ t.cores = [] ∧ t.crs = [] ∧
        t.bring.carry = s.bring.carry ∧ t.sec.slots = s.sec.slots ∧ t.pending = s.pending))

/-- 02 R46, R63, 12 R346: a0 of a bell begins at cycle 0 with the next bell number; 02 R54: the guard delivers 64 less a
quarter of the charge, rounded up, and then holds the clocks; 02 R55: a charge above 256 is an overrun; 02 R62, 12 R347: after four bells without BELL the
backup follows itself; 02 R68: 16 bells within tolerance put a device back in step. -/
def Obligations.BellBegins : Prop :=
  ∀ s : State, s.powered = true →
    (∀ depart u b x v r, u = s.enginesAll.showStretch.showMargins.newBell → b = u.bellCount + 1 → x = u.setPair BELL_COUNT_LO b →
      (r, v) = ((forEach ((List.range 4).filter x.courseLive) x State.endBell).endRecess.takeAnnounced b).recessBell b →
      exec (.bellStart depart) s = .next (
        let w := forEach (List.range 4) (forEach (List.range 4) v (fun y p => y.groupSwitch p b)) (fun y p => y.courseBell p b r)
        (if w.originates then forEach w.downPorts w (fun y p => y.sendSym p (mkSym 2 0 y.deviceId b depart)) else w).svcDrainAll)) ∧
    (∀ depart, (∀ p, p < 4 → s.courseState p = csNone) → s.bell.announced = [] → s.bell.recess = none →
      (∀ p, p < 4 → (s.group p).scheduled = none) → s.originates = false → Quiet s →
      Gives (.bellStart depart) s (fun t => t.cyc = 0 ∧ t.bellCount = (s.bellCount + 1) % 2 ^ 64 ∧
        t.mem = s.mem ∧ t.cmds = s.cmds ∧ t.cores = s.cores.map (fun x => (x.1, x.2.newBell)) ∧ t.chans = s.chans)) ∧
    (exec .guardStart s = .next s.enginesAll.guardStart.svcDrainAll) ∧
    (Quiet s → Gives .guardStart s (fun t => t.cyc = 3776 ∧ t.bell.guardCycles = 64 - ceilDiv s.bell.chargeGuard 4 ∧
      t.bell.guardHold = 4 * ceilDiv s.bell.chargeGuard 4 - s.bell.chargeGuard ∧
      t = { s with regs := t.regs, cyc := t.cyc, bell := t.bell, layers := t.layers })) ∧
    (256 < s.bellCharge → s.bell.overrun = false → (List.range 4).any (fun p => ((s.raise evOverrun 255 0 0 s.bellCharge 0 0
        0).incF BELL_OVERRUN_COUNT BELL_OVERRUN_COUNT_count 1).nextBellWorks p) = false →
      Gives .bellOverrun s (fun t => t.bell = { s.bell with overrun := true, carried := s.bellCharge - 256 } ∧
        Reports ({ s.incF BELL_OVERRUN_COUNT BELL_OVERRUN_COUNT_count 1 with bell := t.bell }) t)) ∧
    (s.flag BELL_SYNC BELL_SYNC_joined = true → 4 ≤ s.bell.missing → s.flag BELL_SYNC BELL_SYNC_backup = true →
      exec .bellSymbolMissing s = .next (((s.setB FAB_TREE FAB_TREE_following_backup true).setF CLK_REF CLK_REF_ref_sel 0).setF
        CLK_REF CLK_REF_upstream_port 7)) ∧
    (s.flag BELL_SYNC BELL_SYNC_out_of_step = true → 16 ≤ s.bell.inTol →
      exec .rejoinComplete s = .next (({ s with bell := { s.bell with inTol := 0, warned := false } } : State).setB BELL_SYNC
        BELL_SYNC_out_of_step false)) ∧
    (∀ p h, p < 4 → (s.crsOf p).haltBell = some h → s.courseState p = csHalting → h ≤ s.bellCount →
      exec (.haltBellReached p) s = .next (
        let v := ((s.endBell p).setCourseState p csHalted).setB (BELL_CRS_STATE p) BELL_CRS_STATE_open true
        let w := (v.modCrs p (fun c => { c with haltBell := none, stopFrom := none, ran := false })).dropRosters p (fun _ => true)
        let u := ((w.gateOutside p 0).setF (PWR_ALLOT p) PWR_ALLOT_allotment 0).sendCnet (cnetMsg 8 0 0x180 p true true)
        u.raiseWith (u.flag (BELL_CRS_STATE p) BELL_CRS_STATE_halt_late) evCourseHalted p 0 0 h (s.crsOf p).haltReason
          (s.crsOf p).haltDeclarer 0))

/-- 12 R331: a symbol that does not check good is dropped and counted; one on a port that is not UP is lost (12 R337). 02 R64: a HALT is forwarded on the other UP ports of its
partition and names the halt bell. 12 R348: RECESS is scheduled and forwarded down the tree, RECESS_REQ goes up it or enters
the table; 02 R71: the timekeeper announces the best request. 12 R345: a BELL from the tree is heard. -/
def Obligations.BellTree : Prop :=
  ∀ s : State, s.powered = true →
    (∀ port y bad arrival resid, s.portUp port = false →
      exec (.symBell port y bad arrival resid) s = .next s ∧ exec (.symHalt port y bad) s = .next s ∧
      exec (.symRecess port y bad) s = .next s ∧ exec (.symRecessReq port y bad) s = .next s) ∧
    (∀ port y bad arrival resid, s.portUp port = true →
      symGood 2 y bad = false → symGood 3 y bad = false → symGood 4 y bad = false → symGood 5 y bad = false →
      exec (.symBell port y bad arrival resid) s = .next (s.incF (PORT_ERRORS port) PORT_ERRORS_symbols_dropped 1) ∧
      exec (.symHalt port y bad) s = .next (s.incF (PORT_ERRORS port) PORT_ERRORS_symbols_dropped 1) ∧
      exec (.symRecess port y bad) s = .next (s.incF (PORT_ERRORS port) PORT_ERRORS_symbols_dropped 1) ∧
      exec (.symRecessReq port y bad) s = .next (s.incF (PORT_ERRORS port) PORT_ERRORS_symbols_dropped 1)) ∧
    (∀ port y arrival resid e, symGood 2 y false = true → s.portUp port = true → s.originates = false →
      s.flag FAB_TREE FAB_TREE_following_backup = true → port = s.getF FAB_TREE FAB_TREE_up_backup → y.origin = s.map.backup →
      s.flag BELL_SYNC BELL_SYNC_joined = true →
      e = -(arrival - (s.getF (PORT_SYMDELAY port) PORT_SYMDELAY_delay : Int) - (y.b32 : Int)) →
      exec (.symBell port y false arrival resid) s = .next (
        let u := ({ s with bell := { s.bell with heard := true, missing := 0 } } : State).joinedBell y.bell e
        forEach u.downPorts u (fun x p => x.sendSym p (mkSym 2 (y.a8 + 1) y.origin y.bell
          (y.b32 + s.getF (PORT_SYMDELAY port) PORT_SYMDELAY_delay + resid))))) ∧
    (∀ port y p u, s.portUp port = true → symGood 3 y false = true → (∀ q, q < 6 → (s.port q).seen = []) → port < 6 → p = s.partOfPort port →
      s.courseRunning p = true → s.bellCount < s.fullBell y.bell →
      u = (s.modPort port (fun t => { t with seen := t.seen ++ [(3, y.origin, y.bell)] })) →
      Gives (.symHalt port y false) s (fun t =>
        t = (u.sendSym3All ((u.upPorts (u.partOfPort port)).filter (· != port)) y).nameHalt p (s.fullBell y.bell) y.b32 y.origin
          false)) ∧
    (∀ port y, s.portUp port = true → symGood 4 y false = true → port = s.upPort → (s.port port).seen.contains (4, y.origin, y.bell) = false →
      exec (.symRecess port y false) s = .next (
        let u := s.modPort port (fun t => { t with seen := t.seen ++ [(4, y.origin, y.bell)] })
        let w := u.sendSym3All u.downPorts y
        w.scheduleRecess { bell := w.fullBell y.bell, k := y.a8, origin := y.origin })) ∧
    (∀ port y, s.portUp port = true → symGood 5 y false = true → (s.port port).seen.contains (5, y.origin, y.bell) = false → s.originates = true →
      exec (.symRecessReq port y false) s = .next (
        let u := s.modPort port (fun t => { t with seen := t.seen ++ [(5, y.origin, y.bell)] })
        { u with bell := { s.bell with requests := s.bell.requests ++
          [{ k := y.a8, s := y.b32, bell := s.fullBell y.bell, reason := 0, value := 0, origin := y.origin }] } })) ∧
    (∀ port y, s.portUp port = true → symGood 5 y false = true → (s.port port).seen.contains (5, y.origin, y.bell) = false → s.originates = false →
      s.upPort < 6 →
      exec (.symRecessReq port y false) s = .next
        ((s.modPort port (fun t => { t with seen := t.seen ++ [(5, y.origin, y.bell)] })).sendSym3 s.upPort y)) ∧
    (∀ q b, b = s.bellCount + s.map.horizon → bestRequest (covering s.bell.requests b) = some q → s.originates = true →
      s.domainPoint b = true →
      Gives .recessAnnounce s (fun t =>
        t.bell.announced = insertRecess { bell := b, k := q.k, origin := s.deviceId } s.bell.announced ∧
        t.bell.requests = spendPoint s.bell.requests b ∧
        t = { s with regs := t.regs, bell := t.bell, out := t.out }))

/-- 08 R237, R240, R242: a good WR of the mover's endpoint stores the word that waits for it, where the row rule and the bank
allow it, and each endpoint drives a locker in its own windows alone (R238); a command with a parity error is counted, recorded and
performs nothing; 08 R239: a read beat whose words are all there is
written to the tile buffer 60 cycles after its issue, and the stored words of a channel are acknowledged 40 cycles after the
last; 08 R253: an access from below reads or writes memory unless its address refuses it. -/
def Obligations.LockerWords : Prop :=
  ∀ s : State, s.powered = true →
    (∀ locker w data wires, s.present (locker / 64) = true → lcParity w = true → lcSide w = 0 → lcCmd w = 2 →
      s.topOpen (s.partOfLt (locker / 64)) = true →
      exec (.lockerCommand locker w data wires) s = .next (forEach ((List.range 4).filter (bitSet (lcMask w))) s (fun u i =>
        match (u.chan (locker / 8)).ops.find? (waits true (lcAddr locker w + 8 * i)) with
        | some o => u.performOp (locker / 8) o (wires.getD i 0)
        | none => u))) ∧
    (∀ locker w data wires, s.present (locker / 64) = true → lcParity w = true → lcSide w = 1 → lcCmd w = 2 →
      s.belowOpen (s.partOfLt (locker / 64)) = true →
      exec (.lockerCommand locker w data wires) s = .next (forEach ((List.range 4).filter (bitSet (lcMask w))) s (fun u i =>
        u.wordArrives (lcAddr locker w + 8 * i) (data.getD i 0 % 2 ^ 64) false (wires.getD i 0)))) ∧
    (∀ locker w data wires, s.present (locker / 64) = true → lcParity w = false → lcSide w = 1 → lcCmd w = 1 →
      exec (.lockerCommand locker w data wires) s =
        .next ((s.incF (MEM_CHAN (lcLayer w)) MEM_CHAN_cmd_parity 1).memFaultAt (lcLayer w) (locker * 0x1000000) 2)) ∧
    (∀ locker w data wires, s.present (locker / 64) = true → lcParity w = true → lcCmd w = 1 ∨ lcCmd w = 2 →
      (lcSide w = 1 ∧ s.belowOpen (s.partOfLt (locker / 64)) = false ∨
        lcSide w ≠ 1 ∧ s.topOpen (s.partOfLt (locker / 64)) = false) →
      exec (.lockerCommand locker w data wires) s = .next s) ∧
    (∀ lt c o, lt < 256 → c < 8 → (s.chan (8 * lt + c)).ops.find? (fun x => !x.write) = some o →
      ((s.chan (8 * lt + c)).ops.filter (fun x => !x.write && x.beat == o.beat)).all (·.done) = true →
      ((s.chan (8 * lt + c)).copy.isSome = true) →
      exec (.lockerReadDeliver lt c) s = .next (
        let beat := (s.chan (8 * lt + c)).ops.filter (fun x => !x.write && x.beat == o.beat)
        let u := ({ s with cyc := (o.cycle + 60) % 4096 } : State).portWrite lt (o.cycle + 60) 1 (7 + c) o.off
          (beat.flatMap (fun y => leBytes 8 y.data)) (beat.flatMap (fun y => List.replicate 8 y.poison)) o.tag
        let v := u.modChan (8 * lt + c) (fun v => { v with ops := v.ops.filter (fun y => y.write || y.beat != o.beat) })
        if (v.chan (8 * lt + c)).ops = [] && (v.chan (8 * lt + c)).copy.isNone && (v.chan (8 * lt + c)).ind.isNone then
          v.setB (MOV_STATUS_LT lt c) MOV_STATUS_LT_busy false else v)) ∧
    (∀ lt c, lt < 256 → c < 8 → (s.chan (8 * lt + c)).ops.any (fun o => o.write) = true →
      (s.chan (8 * lt + c)).ops.all (fun o => o.write && o.done) = true → (s.chan (8 * lt + c)).copy = none →
      (s.chan (8 * lt + c)).ind = none →
      exec (.lockerWriteAck lt c) s = .next ((({ s with cyc := ((s.chan (8 * lt + c)).ops.foldl (fun m o => max m o.cycle) 0 + 40)
        % 4096 } : State).modChan (8 * lt + c) (fun v => { v with ops := [] })).setB (MOV_STATUS_LT lt c) MOV_STATUS_LT_busy false)) ∧
    (∀ a n off, s.svcRefuse a n true = none → s.rangeOpen a n = true →
      exec (.serviceAccessBelow true a n off) s = .next (s.svcWrite a (ccRead s off n)).2) ∧
    (∀ a n off, s.svcRefuse a n false = none → s.rangeOpen a n = true →
      exec (.serviceAccessBelow false a n off) s = .next ((s.svcRead a n).2.ccWrite off (s.svcRead a n).1.1))

/-- 08 R248, 17 R424: refresh slot A advances every trained layer's row and trims the field roots; 08 R249, R251: slot B
refreshes or scrubs; 02 R50: the service slot prefetches, scrubs and writes trace records, and arming switches a partition's
programs; 20 R491: the base die completes lockers of an evacuation one by one. -/
def Obligations.LayersAndService : Prop :=
  ∀ s : State, s.powered = true →
    (∀ phases failed, (List.range 4).filter (({ s with cyc := 3840 } : State).fieldTrim phases).layerTrained = [] →
      exec (.refreshSlotA phases failed) s = .next (({ s with cyc := 3840 } : State).fieldTrim phases)) ∧
    (∀ phases failed, exec (.refreshSlotA phases failed) s = .next (
      let u := ({ s with cyc := 3840 } : State).fieldTrim phases
      forEach ((List.range 4).filter u.layerTrained) u (fun x l =>
        forEach (List.range 64) (x.setF (MEM_LAYER l) MEM_LAYER_refresh_row (x.getF (MEM_LAYER l) MEM_LAYER_refresh_row + 1))
          (fun y k => y.canaryRow l (k / 4) (k % 4) (failed.getD (64 * l + k) 0))))) ∧
    (exec .refreshSlotB s = .next (forEach (List.range 4) { s with cyc := 3904 } (fun u l =>
      if !u.layerTrained l then u
      else if u.flag (MEM_LAYER l) MEM_LAYER_slot_b_refresh then u.refreshRow l
      else if u.flag MEM_SCRUB_CTRL MEM_SCRUB_CTRL_enable then u.scrubHalfRow l else u))) ∧
    (∀ hot cut, exec (.serviceSlot ⟨hot, cut⟩) s = .next (
      let u := ((forEach (List.range 4) { s.enginesAll with cyc := 3968 } (fun x p =>
        (x.prefetch p).shadowNext p)).svcDrainAll.scrubTiles cut).traceFlush
      forEach ((List.range 4).filter (fun l => hot.contains l && u.hotScrubs l)) u State.scrubHalfRow)) ∧
    (∀ p, p < 4 → s.armsNext p = true → s.tilesOf p = [] →
      Gives (.lessonArm p) s (fun t => t.cyc = 4095 ∧ t = { s with cyc := 4095, layers := t.layers, ports := t.ports } ∧
        ∀ l, l < 4 → tgetD (t.layer l).prog p [] = tgetD (s.layer l).progNext p [])) ∧
    (∀ p lt, p < 4 → s.armsNext p = true → s.tilesOf p = [lt] → (s.tile lt).armAck = true → (s.tile lt).nextPatches = [] →
      Gives (.lessonArm p) s (fun t => (t.tile lt).armed = true ∧ (t.tile lt).armedBank = 1 - (s.tile lt).armedBank)) ∧
    (∀ e bad, s.bring.evac = some e → e.done < 64 → s.belowOpen (s.partOfLt e.lt) = true →
      Gives (.evacuationStep bad) s (fun t => t.getF MEM_EVAC MEM_EVAC_lockers_done = (e.done + 1) % 2 ^ 7 ∧
        t = { s with regs := t.regs, bring := t.bring } ∧ t.bring.evac.map (·.done) = some (e.done + 1))) ∧
    (∀ e, s.bring.evac = some e → 64 ≤ e.done → e.bad = [] → markedWords (fetchLockers s.mem e.lt) e.lt = [] →
      s.findTag e.ring e.tag = none →
      ∃ u : State, exec .evacuationComplete s = .next ((u.raise evEvacuationDone (u.partOfLt e.lt) 1 e.lt 0 0 0 0).setEvacPending
          e.lt false) ∧
        u = { s with mem := fetchLockers s.mem e.lt, bring := { s.bring with evac := none }, regs := u.regs } ∧
        u.flag MEM_EVAC MEM_EVAC_active = false)

/-- 02 R81-R83, 14 R385, R388: COURSE_START of a loaded or finished course and COURSE_RESUME of a halted one that has a
checkpoint wait for their commit point; it is a0 of the bell before theirs, where the course is STARTING with its counters set
and the command completes OK; a start that is not staged completes START_TOO_LATE; COURSE_END names the last iteration, and
COURSE_UNLOAD leaves no course; each refusal names its status. -/
def Obligations.CourseStartAndEnd : Prop :=
  ∀ (s : State) (ring tag p : Nat) (c : Cmd),
    (Accepted s ring tag opCOURSE_START c → s.courseState c.part = csLoaded → s.startFails c.part c.pkt.p0 = none →
      exec (.cmdCourseStart ring tag) s = .next ((s.modCrs c.part (fun k => { k with
        startBell := c.pkt.p0, startRing := c.ring, startTag := c.pkt.tag, resuming := false, startCommitted := false,
        staged := (s.crsOf c.part).staged })).putCmd c { c with phase := .active })) ∧
    (Accepted s ring tag opCOURSE_START c → s.courseState c.part = csNone →
      exec (.cmdCourseStart ring tag) s = .next (s.fail c stNO_COURSE)) ∧
    (Accepted s ring tag opCOURSE_RESUME c → s.courseState c.part = csHalted → (s.crsOf c.part).resumeAt ≠ none →
      s.lacksTile c.part = false → s.startFails c.part c.pkt.p0 = none →
      exec (.cmdCourseResume ring tag) s = .next ((s.modCrs c.part (fun k => { k with
        startBell := c.pkt.p0, startRing := c.ring, startTag := c.pkt.tag, resuming := true, startCommitted := false,
        staged := false })).putCmd c { c with phase := .active })) ∧
    (Accepted s ring tag opCOURSE_RESUME c → s.courseState c.part = csHalted → (s.crsOf c.part).resumeAt = none →
      exec (.cmdCourseResume ring tag) s = .next (s.fail c stNO_CHECKPOINT)) ∧
    (s.powered = true → p < 4 → (s.pendingStart p).isSome = true → (s.crsOf p).staged = false →
      exec (.courseRestageDone p) s = .next ((s.stageLesson p (s.crsOf p).startPos.1).modCrs p (fun c => { c with staged := true }))) ∧
    (s.powered = true → s.pendingStart p = some c → c.pkt.opcode = opCOURSE_START → (s.crsOf p).resuming = false →
      s.bellCount + 1 = (s.crsOf p).startBell → s.inStep = true → (s.crsOf p).staged = true → (s.crsOf p).rosters = [] → p < 4 →
      ∃ u : State, exec (.courseStartCommit p) s = .next (u.ok c (s.crsOf p).startBell) ∧
        u = { s with regs := u.regs, tiles := u.tiles, cores := u.cores, layers := u.layers, ports := u.ports, crs := u.crs,
                     mem := u.mem } ∧
        u.courseState p = csStarting ∧ u.pair (BELL_CRS_BELLS_LO p) = 0 ∧ u.pair (BELL_CRS_CKPT_LO p) = 0 ∧
        (u.crsOf p).lesson = 0 ∧ (u.crsOf p).iter = 0 ∧ (u.crsOf p).startCommitted = true ∧ (u.crsOf p).haltBell = none) ∧
    (s.powered = true → s.pendingStart p = some c → c.pkt.opcode = opCOURSE_RESUME → (s.crsOf p).resuming = true →
      s.bellCount + 1 = (s.crsOf p).startBell → s.inStep = true → (s.crsOf p).staged = true → (s.crsOf p).rosters = [] → p < 4 →
      ∀ l i, (s.crsOf p).resumeAt = some (l, i) → firstBell (s.crsOf p) l i < 2 ^ 64 →
      ∃ u : State, exec (.courseResumeCommit p) s = .next (u.ok c (s.crsOf p).startBell) ∧
        u = { s with regs := u.regs, tiles := u.tiles, cores := u.cores, layers := u.layers, ports := u.ports, crs := u.crs,
                     mem := u.mem } ∧
        u.courseState p = csStarting ∧ u.pair (BELL_CRS_BELLS_LO p) = firstBell (s.crsOf p) l i ∧
        (u.crsOf p).lesson = l ∧ (u.crsOf p).iter = i ∧ (u.crsOf p).startCommitted = true) ∧
    (s.powered = true → s.pendingStart p = some c → c.pkt.opcode = opCOURSE_START →
      (s.crsOf p).startBell ≤ s.bellCount + 1 → s.inStep = true → (s.crsOf p).staged = false →
      exec (.courseStartCommit p) s = .next (s.fail c stSTART_TOO_LATE)) ∧
    (Accepted s ring tag opCOURSE_END c → s.courseState c.part = csRunning →
      (hdLoopCount (s.crsOf c.part).image = 0 ∨ c.pkt.p0 % 2 ^ 32 < hdLoopCount (s.crsOf c.part).image) →
      s.bellsBegun c.part ≤ firstBell (s.crsOf c.part) (hdLoopLast (s.crsOf c.part).image) (c.pkt.p0 % 2 ^ 32) →
      (s.crsOf c.part).rosters = [] →
      ∃ u : State, exec (.cmdCourseEnd ring tag) s = .next (u.ok c 0) ∧ u = { s with crs := u.crs } ∧
        u.crsOf c.part = { s.crsOf c.part with endIter := some (c.pkt.p0 % 2 ^ 32) }) ∧
    (Accepted s ring tag opCOURSE_END c → s.courseState c.part = csRunning →
      hdLoopCount (s.crsOf c.part).image = 0 →
      firstBell (s.crsOf c.part) (hdLoopLast (s.crsOf c.part).image) (c.pkt.p0 % 2 ^ 32) < s.bellsBegun c.part →
      exec (.cmdCourseEnd ring tag) s = .next (s.fail c stEND_TOO_LATE)) ∧
    (Accepted s ring tag opCOURSE_UNLOAD c → s.courseState c.part = csLoaded → s.pendingStart c.part = none →
      exec (.cmdCourseUnload ring tag) s = .next ((({ s.dropRosters c.part (fun _ => true) with
        crs := tdel (s.dropRosters c.part (fun _ => true)).crs c.part }).setCourseState c.part csNone).returnSeats c.part
        |>.ok c 0)) ∧
    (Accepted s ring tag opCOURSE_UNLOAD c → s.courseState c.part = csRunning →
      exec (.cmdCourseUnload ring tag) s = .next (s.fail c stCOURSE_STATE))

/-- 02 R73, R74: a roster is read once, at acceptance; a good one waits for its copy, which is its commit point; a deadline that has
passed completes ROSTER_LATE;
06 R187: the roster of the next lesson is written into the tile buffer; 14 R389-R391: STOP halts the named partitions' courses,
its record follows the bound, reports are counted, after a timeout too, which names the units still awaited; 04 R140, 06 R202, 09 R277,
12 R349: the notice of a halt quiesces a tile, a layer and a port. -/
def Obligations.RostersAndStop : Prop :=
  ∀ (s : State) (ring tag : Nat) (c : Cmd),
    (∀ h e st s1 s2, s.readObject c.pkt.p0 32 = ((h, 0), s1) →
      s1.readObject (c.pkt.p0 + 32) (16 * min 4096 (leAt h 0x10 4)) = ((e, st), s2) →
      s.readRoster c = s2.putCmd c { c with data := st :: (h ++ e).map (·.toNat) }) ∧
    (∀ d l i, Accepted s ring tag opROSTER_COMMIT c → c.object = (d, 0) → s.courseState c.part ≠ csNone →
      rosterLesson (s.crsOf c.part) c.pkt.p1 = some (l, i) → leAt d 8 8 = c.pkt.p1 → s.rosterLate c.part l i = false →
      rosterGood (s.crsOf c.part).image d l = true →
      exec (.cmdRosterCommit ring tag) s = .next ((s.modCrs c.part (fun k => { k with rosters := k.rosters ++
        [{ lesson := l, iter := i, courseBell := c.pkt.p1, data := d, committed := false, ring := c.ring, tag := c.pkt.tag }] })).putCmd
        c { c with phase := .active })) ∧
    (∀ d l i, Accepted s ring tag opROSTER_COMMIT c → c.object = (d, 0) → s.courseState c.part ≠ csNone →
      rosterLesson (s.crsOf c.part) c.pkt.p1 = some (l, i) → leAt d 8 8 = c.pkt.p1 → s.rosterLate c.part l i = true →
      exec (.cmdRosterCommit ring tag) s = .next (s.failLate c)) ∧
    (∀ d st, Accepted s ring tag opROSTER_COMMIT c → c.object = (d, st) → st ≠ 0 →
      exec (.cmdRosterCommit ring tag) s = .next (s.fail c st)) ∧
    (∀ r, Held s ring tag opROSTER_COMMIT c .active → s.rosterOf c = some r → s.rosterLate c.part r.lesson r.iter = false →
      (s.crsOf c.part).rosters.any (fun x => x.lesson == r.lesson && x.iter == r.iter && x.committed) = false →
      exec (.rosterCopyComplete ring tag) s = .next ((s.modCrs c.part (fun k => { k with
        rosters := (k.rosters.filter (fun x => !(x.lesson == r.lesson && x.iter == r.iter && x.committed))).map
          (fun x => if x = r then { r with committed := true } else x) })).ok c 0)) ∧
    (∀ r, Held s ring tag opROSTER_COMMIT c .active → s.rosterOf c = some r → s.rosterLate c.part r.lesson r.iter = true →
      exec (.rosterDeadline ring tag) s = .next (s.dropRosters c.part (fun x => x == r))) ∧
    (∀ lt l i, s.powered = true → s.present lt = true → s.working (s.partOfLt lt) = true →
      (s.crsOf (s.partOfLt lt)).lessonBell = 0 → tpRosterValid (armedProgram (s.tile lt)) = true →
      nextPos (s.crsOf (s.partOfLt lt)) (s.crsOf (s.partOfLt lt)).lesson (s.crsOf (s.partOfLt lt)).iter = some (l, i) →
      exec (.rosterTileWrite lt) s = .next { s with
        cyc := tpRosterCycle (armedProgram (s.tile lt))
        mem := forEach (sliceSpans (tpRosterAddr (armedProgram (s.tile lt))) (rosterImage (s.crsOf (s.partOfLt lt)) l i).length) s.mem
          (fun m x => s.tbOutside lt (tpRosterAddr (armedProgram (s.tile lt)) + x.1)
            (((rosterImage (s.crsOf (s.partOfLt lt)) l i).drop x.1).take x.2) [] 1 m) }) ∧
    (∀ p, Accepted s 255 tag opSTOP c → c.pkt.p0 = 2 ^ p → p < s.partCount → p < 4 → s.courseRunning p = true →
      s.startsWaiting p = [] →
      ∃ u : State, exec (.cmdStop tag) s = .next (u.putCmd c { c with phase := .committed, data := [u.pair (BELL_CRS_HALT_LO p)] }) ∧
        u.courseState p = csHalting ∧ u.stop = some { awaited := (s.reportNodes p).eraseDups, named := false } ∧
        u.getF CMD_STOP_STATUS CMD_STOP_STATUS_reported = 0 ∧ u.mem = s.mem ∧ u.tiles = s.tiles) ∧
    (Held s 255 tag opSTOP c .committed → exec (.stopBoundElapsed tag) s = .next (s.ok c (c.data.headD 0))) ∧
    (∀ n t u, s.powered = true → u = (if n < 256 ∧ (s.tile n).halted = true then s.engines n 4096 else s) → u.stop = some t →
      n ∈ t.awaited →
      exec (.quiesceReport n) s = .next (
        let rest := t.awaited.filter (fun m => m != n)
        { u.incF CMD_STOP_STATUS CMD_STOP_STATUS_reported 1 with
          stop := if rest = [] then none else some { t with awaited := rest } })) ∧
    (∀ t, s.powered = true → s.stop = some t → t.named = false →
      exec .stopReportTimeout s = .next ((({ s with stop := some { t with named := true } }).setB CMD_STOP_STATUS
        CMD_STOP_STATUS_incomplete true).raise evStopIncomplete 255 0 0 t.awaited.length (t.awaited.headD 0) 0 0)) ∧
    (∀ t, s.powered = true → s.stop = some t → t.named = true → exec .stopReportTimeout s = .next s) ∧
    (∀ lt, s.powered = true → s.present lt = true → s.haltingPart (s.partOfLt lt) = true → (s.ve lt).run = none →
      (s.tile lt).dues = [] → (s.tile lt).mxe.merge = none →
      Gives (.haltNoticeTile lt) s (fun t => (t.tile lt).halted = true ∧ t.flag (MXE_STATUS_LT lt) MXE_STATUS_LT_halted = true ∧
        t.flag (VE_STATUS_LT lt) VE_STATUS_LT_halted = true ∧
        (∀ k, k < 64 → t.flag (GC_STATUS (64 * lt + k)) GC_STATUS_halted = true) ∧
        (∀ k, k < 8 → (t.chan (8 * lt + k)).copy = none ∧ (t.chan (8 * lt + k)).ind = none) ∧
        t = { s with regs := t.regs, tiles := t.tiles, cores := t.cores, chans := t.chans })) ∧
    (∀ lt, s.powered = true → s.present lt = true → s.haltingPart (s.partOfLt lt) = true →
      exec (.haltNoticeTile lt) s = .next ((forEach (List.range 8) (forEach (List.range 64) (s.stopEngines lt)
        (fun u k => u.haltCore (64 * lt + k))) (fun u k => u.haltChan lt k)).setB (TRN_STATUS_LT lt) TRN_STATUS_LT_busy false)) ∧
    (∀ l, s.powered = true → l < 4 → exec (.haltNoticeLayer l) s =
      .next (forEach ((List.range 4).filter s.haltingPart) s (fun s p => s.haltLayer l p))) ∧
    (∀ q, s.powered = true → q < 6 → s.haltingPart (s.partOfPort q) = true →
      exec (.haltNoticePort q) s = .next (s.modPort q (fun t => { t with quiesced := true })))

/-- 14 R385, R386, 15 R408, R411: MEM_COPY and MEM_FILL within the device move every byte and complete OK with the bytes moved
as their result; DMA_OUT of one message reads the stack and writes the host; DMA_IN asks the host for its first part; a source
the checks refuse completes with their status, and with the word of its address in the detail (R378); ranges that overlap are
BAD_PARAM. That an address of another partition is refused with WRONG_PARTITION is the model's choice (log entry 42). -/
def Obligations.MemoryCommands : Prop :=
  ∀ (s : State) (ring tag : Nat) (c c1 c2 : Cmd) (n : Nat), s.clock.resetBegun = false →
    (∀ d s2 s3, Accepted s ring tag opMEM_COPY c → n = c.pkt.p2 + 1 → c1 = { c with data := [0], phase := .active } →
      c2 = { c with data := [n], phase := .committed } → s.gaLocal c.pkt.p0 = true → s.gaLocal c.pkt.p1 = true →
      sidesOverlap (.here (gaAddr c.pkt.p0)) (.here (gaAddr c.pkt.p1)) n = false →
      s.sideRefuse c.part (.here (gaAddr c.pkt.p0)) n false = none → s.sideRefuse c.part (.here (gaAddr c.pkt.p1)) n true = none →
      (s.putCmd c c1).rangeOpen (gaAddr c.pkt.p0) n = true →
      (s.putCmd c c1).localRead 0 (gaAddr c.pkt.p0) n = ((0, d), s2) → d.length = n →
      s2.rangeOpen (gaAddr c.pkt.p1) n = true → s2.localWrite (gaAddr c.pkt.p1) d = ((0, n), s3) →
      exec (.cmdMemCopy ring tag) s = .next (((s3.putCmd c1 c2).countMoved c2 n).ok c2 n)) ∧
    (∀ s3, Accepted s ring tag opMEM_FILL c → n = c.pkt.p1 + 1 → c1 = { c with data := [0], phase := .active } →
      c2 = { c with data := [n], phase := .committed } → s.gaLocal c.pkt.p0 = true →
      s.sideRefuse c.part (.here (gaAddr c.pkt.p0)) n true = none → (s.putCmd c c1).rangeOpen (gaAddr c.pkt.p0) n = true →
      (s.putCmd c c1).localWrite (gaAddr c.pkt.p0) (fillBytes c.pkt.p2 0 n) = ((0, n), s3) →
      exec (.cmdMemFill ring tag) s = .next (((s3.putCmd c1 c2).countMoved c2 n).ok c2 n)) ∧
    (∀ d s2, Accepted s ring tag opDMA_OUT c → n = c.pkt.p2 + 1 → n ≤ 4096 → c1 = { c with data := [0], phase := .active } →
      c2 = { c with data := [n], phase := .committed } → s.gaLocal c.pkt.p0 = true →
      s.sideRefuse c.part (.here (gaAddr c.pkt.p0)) n false = none → (s.putCmd c c1).rangeOpen (gaAddr c.pkt.p0) n = true →
      (s.putCmd c c1).localRead 0 (gaAddr c.pkt.p0) n = ((0, d), s2) → d.length = n →
      exec (.cmdDmaOut ring tag) s =
        .next ((((s2.mxlSend (.hostWrite true (some (c.ring, c.pkt.tag)) c.pkt.p1 d)).putCmd c1 c2).countMoved c2 n).ok c2 n)) ∧
    (Accepted s ring tag opDMA_IN c → n = c.pkt.p2 + 1 → c1 = { c with data := [0], phase := .active } →
      s.gaLocal c.pkt.p1 = true → s.sideRefuse c.part (.here (gaAddr c.pkt.p1)) n true = none →
      exec (.cmdDmaIn ring tag) s = .next (
        let u := s.putCmd c c1
        let t := u.mxl.nextTag
        ({ u with mxl := { u.mxl with
            nextTag := (t + 1) % 65536
            hostReads := u.mxl.hostReads ++
              [{ bulk := true, tag := t, ring := c.ring, cmdTag := c.pkt.tag, addr := c.pkt.p0, len := min 4096 n }] } } : State).mxlSend
          (.hostRead true t c.pkt.p0 (min 4096 n)))) ∧
    (∀ e, Accepted s ring tag opMEM_COPY c → n = c.pkt.p2 + 1 → s.gaLocal c.pkt.p0 = true → s.gaLocal c.pkt.p1 = true →
      sidesOverlap (.here (gaAddr c.pkt.p0)) (.here (gaAddr c.pkt.p1)) n = false →
      s.svcRefuse (gaAddr c.pkt.p0) n false = some e → exec (.cmdMemCopy ring tag) s = .next (s.failAt c e 0 0)) ∧
    (Accepted s ring tag opMEM_COPY c → s.gaLocal c.pkt.p0 = true → s.gaLocal c.pkt.p1 = true →
      sidesOverlap (.here (gaAddr c.pkt.p0)) (.here (gaAddr c.pkt.p1)) (c.pkt.p2 + 1) = true →
      exec (.cmdMemCopy ring tag) s = .next (s.badParam c 0 0))

/-- 14 R385, R392, 19 R464, 11 R309-R312, 20 R473: NOP changes nothing; RESET completes and requests a stack reset;
PARTITION_SET sets the count and even budgets while nothing is loaded; RECESS_REQUEST asks for the earliest recess at two
horizons; GROUP_TABLE keeps its table, which its copies bring into the staging bank in a window for service work, and at its commit
point it is scheduled or late; the shadows of a partition take its active and its staged table; BELL_JOIN waits and commits at the timekeeper at once, at another device after 16 good bells,
and fails after 65,536 bells. -/
def Obligations.DeviceCommands : Prop :=
  ∀ (s : State) (ring tag p : Nat) (c : Cmd),
    (Accepted s ring tag opNOP c → exec (.cmdNop ring tag) s = .next (s.ok c 0)) ∧
    (Accepted s ring tag opRESET c → exec (.cmdReset ring tag) s =
      .next { s.ok c 0 with clock := { s.clock with resetPending := some 1, resetMsg := some s.mxl.nextMsg } }) ∧
    (Accepted s ring tag opPARTITION_SET c → s.anyLoaded = false → s.anySeqOpen = false →
      exec (.cmdPartitionSet ring tag) s = .next (
        let u := s.setF CMD_PART CMD_PART_count c.pkt.p0
        ({ u with power := { u.power with budgets := some u.evenBudgets } } : State).ok c 0)) ∧
    (Accepted s ring tag opPARTITION_SET c → s.anyLoaded = true →
      exec (.cmdPartitionSet ring tag) s = .next (s.fail c stDEVICE_STATE)) ∧
    (Accepted s ring tag opRECESS_REQUEST c → s.inStep = true →
      exec (.cmdRecessRequest ring tag) s = .next ((s.requestRecess (c.pkt.p0 % 256) (c.pkt.p0 / 256 % 65536)
        (s.bellCount + 2 * s.map.horizon) 5 (c.pkt.p0 % 256)).ok c 0)) ∧
    (Accepted s ring tag opRECESS_REQUEST c → s.inStep = false →
      exec (.cmdRecessRequest ring tag) s = .next (s.fail c stDEVICE_STATE)) ∧
    (∀ m s2, Accepted s ring tag opGROUP_TABLE c → s.readObject c.pkt.p0 16384 = ((m, 0), s2) → tableGood (tableOf m) = true →
      (s2.group c.part).cmd = none →
      exec (.cmdGroupTable ring tag) s = .next (((((s2.modGroup c.part (fun g => { g with
        image := tableOf m, cmd := some (c.ring, c.pkt.tag), bell := c.pkt.p2, generation := c.pkt.p1, copied := false })).setB
        (UPD_STATE c.part) UPD_STATE_pending true).showCopying c.part).setReg
        (UPD_GEN_PENDING c.part) (BitVec.ofNat 32 c.pkt.p1)).putCmd c { c with phase := .active })) ∧
    (∀ q, (s.showCopying p).flag (UPD_STATE q) UPD_STATE_copying = if q = p then
        ((s.group p).cmd.isSome && !(s.group p).copied) || (s.group p).shadowing else s.flag (UPD_STATE q) UPD_STATE_copying) ∧
    (s.powered = true → p < 4 → (s.group p).cmd.isSome = true → (s.group p).copied = false → s.shadowOn = false →
      (s.group p).scheduled = none → s.serviceOpen p = true →
      exec (.groupTableCopyDone p) s =
        .next (((s.setStaging p (s.group p).image).modGroup p (fun g => { g with copied := true })).showCopying p)) ∧
    (s.powered = true → p < 4 → ((s.group p).cmd = none ∨ (s.group p).scheduled.isSome = true ∨ s.serviceOpen p = false) →
      exec (.groupTableCopyDone p) s = .next s) ∧
    (Held s ring tag opGROUP_TABLE c .active → (s.group c.part).copied = true → (s.group c.part).bell = s.bellCount + 1 →
      c.bell < s.bellCount → c.part < 4 →
      exec (.groupTableCommit ring tag) s = .next (((s.setB (UPD_STATE c.part) UPD_STATE_pending false).modGroup c.part
        (fun g => { g with cmd := none, copied := false, scheduled := some (g.bell, g.generation) })).ok c 0)) ∧
    (Held s ring tag opGROUP_TABLE c .active → (s.group c.part).copied = false → (s.group c.part).bell ≤ s.bellCount + 1 →
      s.courseRunning c.part = false → c.part < 4 →
      exec (.groupTableCommit ring tag) s = .next (((((s.setB (UPD_STATE c.part) UPD_STATE_pending false).modGroup c.part
        (fun g => { g with cmd := none, copied := false })).showCopying c.part).incF (UPD_STATE c.part) UPD_STATE_late 1).fail c
        stGROUP_LATE)) ∧
    (s.powered = true → s.partCount = 1 → (s.group 0).shadowing = true → s.serviceOpen 0 = true →
      exec .shadowEnableDone s = .next (
        let a := s.activeBank 0
        let u := s.shadowBank 0 a (s.activeTable 0)
        let w := u.shadowBank 0 (1 - a) (if (u.group 0).staged then u.stagingTable 0 else u.activeTable 0)
        let v := w.shadowHead 0 a (w.reg (UPD_GEN_ACTIVE 0)).toNat (w.pair (UPD_ACTIVE_AT_LO 0)) 48
        (v.modGroup 0 (fun g => { g with shadowing := false })).showCopying 0)) ∧
    (s.powered = true → s.partCount = 1 → ((s.group 0).shadowing = false ∨ s.serviceOpen 0 = false) →
      exec .shadowEnableDone s = .next s) ∧
    (Accepted s ring tag opBELL_JOIN c → s.map.loaded = true → s.flag BELL_SYNC BELL_SYNC_joined = false → s.bell.join = none →
      exec (.cmdBellJoin ring tag) s = .next (({ s with bell := { s.bell with
        join := some ⟨c.ring, c.pkt.tag, s.bellCount, false, 0, 0, 0⟩ } } : State).putCmd c { c with phase := .active })) ∧
    (∀ j, Held s ring tag opBELL_JOIN c .active → s.bell.join = some j → s.isTimekeeper = false → 16 ≤ j.good →
      ∃ u : State, exec (.bellJoinCommit ring tag) s = .next (u.ok c 0) ∧ u.flag BELL_SYNC BELL_SYNC_joined = true ∧
        u.pair BELL_COUNT_LO = s.fullBell (j.sysBell + 1) % 2 ^ 64 ∧ u.bell = { s.bell with join := none, missing := 0 } ∧
        u.getF BRG_STAGE BRG_STAGE_stage = 8 ∧ u.getF BRG_STAGE BRG_STAGE_state = 0 ∧
        u = { s with regs := u.regs, bell := u.bell, bring := u.bring, mgmt := u.mgmt, out := u.out }) ∧
    (∀ j, Held s ring tag opBELL_JOIN c .active → s.bell.join = some j → j.start + 65536 ≤ s.bellCount →
      exec (.bellJoinTimeout ring tag) s =
        .next (({ s with bell := { s.bell with join := none } } : State).fail c stNOT_IN_STEP))

/-- 21 R499, R504-R513, R516, R517: a command of the block runs, or waits behind the one that does; an object that is not a
signed object of its kind is refused with its reason in SEC_LAST_REJECT; a well formed image empties its slot of the staging
set, is verified, and is refused or written; the end of the write is the commit point; an activation takes its turn at a course
boundary, switches and is reported, and 2^20 bells later its set is known good. -/
def Obligations.SecurityBlock : Prop :=
  ∀ (s : State) (ring tag : Nat) (c : Cmd),
    (∀ op cmd, (op, cmd) ∈ [(opIMAGE_STAGE, Instr.cmdImageStage ring tag), (opSYLLABUS_LOAD, Instr.cmdSyllabusLoad ring tag),
        (opLICENCE_LOAD, Instr.cmdLicenceLoad ring tag), (opATTEST, Instr.cmdAttest ring tag)] →
      Accepted s ring tag op c → s.sec.job.isSome = true →
      exec cmd s = .next (({ s with sec := { s.sec with waiting := s.sec.waiting ++ [⟨c.ring, c.pkt.tag, []⟩] } } : State).putCmd c
        { c with phase := .active })) ∧
    (∀ op cmd st, (op, cmd, st) ∈ [(opIMAGE_STAGE, Instr.cmdImageStage ring tag, stIMAGE_FORMAT),
        (opSYLLABUS_LOAD, Instr.cmdSyllabusLoad ring tag, stSIG_INVALID), (opLICENCE_LOAD, Instr.cmdLicenceLoad ring tag, stSIG_INVALID)] →
      Accepted s ring tag op c → s.sec.job = none → ∀ b u, (s.readObject c.pkt.p0 c.pkt.p1).1 = (b, 0) →
      u = (s.readObject c.pkt.p0 c.pkt.p1).2 → leAt b 0 4 ≠ 0x53474E57 →
      exec cmd s = .next ((u.setReg SEC_LAST_REJECT (BitVec.ofNat 32 (op + 2 ^ 16 + 2 ^ 31))).fail c st)) ∧
    (∀ b u, Accepted s ring tag opIMAGE_STAGE c → s.sec.job = none → s.readObject c.pkt.p0 c.pkt.p1 = ((b, 0), u) →
      exec (.cmdImageStage ring tag) s = .next (
        let v := (u.putSlot (u.getF SEC_SET SEC_SET_staging) (imComponent b) []).showSets
        if soPrefix 1 b = false ∨ imBody b = false then u.secReject c stIMAGE_FORMAT (failsFor rjFORMAT)
        else if imEpoch b < u.floor then v.secReject c stIMAGE_FORMAT (failsFor rjROLLBACK)
        else if (v.verifyImage b).reason ≠ 0 then v.secReject c stSIG_INVALID (v.verifyImage b)
        else ({ v with sec := { v.sec with job := some ⟨c.ring, c.pkt.tag, b⟩ } } : State).putCmd c { c with phase := .active })) ∧
    (∀ b u, Accepted s ring tag opSYLLABUS_LOAD c → s.sec.job = none → s.readObject c.pkt.p0 c.pkt.p1 = ((b, 0), u) →
      exec (.cmdSyllabusLoad ring tag) s = .next (
        if (u.verifySyllabus b).reason ≠ 0 then u.secReject c stSIG_INVALID (u.verifySyllabus b)
        else if syGeneration b ≤ (u.reg SEC_SYLLABUS).toNat ∨ syFloor b < u.floor ∨ bitSet (syRevoke b) (soSlot b) = true then
          u.secReject c stIMAGE_FORMAT (failsFor rjFORMAT)
        else ({ u with sec := { u.sec with job := some ⟨c.ring, c.pkt.tag, b⟩ } } : State).putCmd c { c with phase := .active })) ∧
    (∀ b u, Accepted s ring tag opLICENCE_LOAD c → s.sec.job = none → s.readObject c.pkt.p0 c.pkt.p1 = ((b, 0), u) →
      exec (.cmdLicenceLoad ring tag) s = .next (
        if (u.verifyLicence b).reason ≠ 0 then u.secReject c stSIG_INVALID (u.verifyLicence b)
        else if leAt b 0x10 8 ≠ u.serial then u.secReject c stLICENCE_BINDING (failsFor rjBINDING)
        else if u.licencePlace (liId b) = none then u.secReject c stDEVICE_STATE (failsFor rjSTOREFULL)
        else ({ u with sec := { u.sec with job := some ⟨c.ring, c.pkt.tag, b⟩ } } : State).putCmd c { c with phase := .active })) ∧
    (∀ b, Accepted s ring tag opATTEST c → s.sec.job = none → s.readObject c.pkt.p0 32 = ((b, 0), s) →
      s.svcRefuse c.pkt.p1 35088 true = none →
      exec (.cmdAttest ring tag) s =
        .next (({ s with sec := { s.sec with job := some ⟨c.ring, c.pkt.tag, s.report b⟩ } } : State).putCmd c { c with phase := .active })) ∧
    (∀ b, Held s ring tag opIMAGE_STAGE c .active → s.sec.job = some ⟨ring, tag, b⟩ → s.sec.waiting = [] → s.findTag ring tag = some c →
      exec .securityCommandDone s = .next (
        let g := s.getF SEC_SET SEC_SET_staging
        (((((s.putSlot g (imComponent b) b).clearFailed g).showSets).ok c 0).secEnd))) ∧
    (∀ b, Held s ring tag opSYLLABUS_LOAD c .active → s.sec.job = some ⟨ring, tag, b⟩ → s.findTag ring tag = some c →
      exec .securityCommandDone s = .next ((((({ s with sec := { s.sec with syllabus := b, syllabusOld := s.sec.syllabus } } : State).setReg
        SEC_SYLLABUS (BitVec.ofNat 32 (syGeneration b))).ok c 0).secEnd))) ∧
    (∀ b i, Held s ring tag opLICENCE_LOAD c .active → s.sec.job = some ⟨ring, tag, b⟩ → s.findTag ring tag = some c →
      s.licencePlace (liId b) = some i →
      exec .securityCommandDone s = .next (
        let u : State := { s with sec := { s.sec with licences := tput s.sec.licences i b } }
        ((u.setF SEC_LICENCE SEC_LICENCE_stored u.sec.licences.length).ok c 0).secEnd)) ∧
    (∀ b, Held s ring tag opATTEST c .active → s.sec.job = some ⟨ring, tag, b⟩ → s.findTag ring tag = some c →
      s.rangeOpen c.pkt.p1 35088 = true → exec .securityCommandDone s = .next (((s.svcWrite c.pkt.p1 b).2.ok c 0).secEnd)) ∧
    (Accepted s ring tag opIMAGE_ACTIVATE c → s.listed c.pkt.p0 = false →
      exec (.cmdImageActivate ring tag) s =
        .next ((s.setReg SEC_LAST_REJECT (BitVec.ofNat 32 (c.pkt.opcode + 2 ^ 16 * rjNOTLISTED + 2 ^ 31))).fail c stNOT_IN_SYLLABUS)) ∧
    (Accepted s ring tag opIMAGE_ACTIVATE c → s.listed c.pkt.p0 = true → s.sec.job = none →
      exec (.cmdImageActivate ring tag) s = .next (
        let u := s.setB SEC_SET SEC_SET_pending true
        ({ u with sec := { u.sec with job := some ⟨c.ring, c.pkt.tag, []⟩ } } : State).putCmd c { c with phase := .active })) ∧
    (Held s ring tag opIMAGE_ACTIVATE c .active → s.sec.job = some ⟨ring, tag, []⟩ → s.findTag ring tag = some c →
      s.atCourseBoundary = true → c.pkt.p0 ≠ s.runningSet → s.setFailed c.pkt.p0 = false →
      exec .imageActivateCommit s = .next (
        let u := s.setF SEC_SET SEC_SET_boot c.pkt.p0
        ({ u with sec := { u.sec with switch := some ⟨c.pkt.p0, s.runningSet, ring, tag⟩ } } : State).putCmd c
          { c with phase := .committed })) ∧
    (∀ w, Held s ring tag opIMAGE_ACTIVATE c .committed → s.sec.switch = some w → w.ring = ring → w.tag = tag →
      s.findTag ring tag = some c →
      exec (.imageSwitchDone false) s = .next (
        let u := (((({ s with sec := { s.sec with switch := none } } : State).setF SEC_SET SEC_SET_running w.set).loadSet w.set).showSets)
        (({ u with sec := { u.sec with activated := some (w.set, s.bellCount) } } : State).raise evImageActivated 255 0 0 w.set 0 0 0).activateEnd
          c)) ∧
    (∀ w, Held s ring tag opIMAGE_ACTIVATE c .committed → s.sec.switch = some w → w.ring = ring → w.tag = tag →
      s.findTag ring tag = some c →
      exec (.imageSwitchDone true) s = .next (((({ s with sec := { s.sec with switch := none } } : State).setReg SEC_LAST_REJECT
        (BitVec.ofNat 32 (opIMAGE_ACTIVATE + 2 ^ 16 * rjLOADFAIL + 2 ^ 31))).raise evImageFallback 255 0 0 w.from_ rjLOADFAIL 0 0).activateEnd
          c)) ∧
    (∀ k b, s.powered = true → s.sec.activated = some (k, b) → b + 2 ^ 20 ≤ s.bellCount →
      exec .knownGoodUpdate s =
        .next ({ s.setF SEC_SET SEC_SET_known_good k with sec := { s.sec with activated := none } } : State).showSets)

/-- 06 R192: a PASS descriptor takes its accumulation exponent 8 cycles before its start, and a descriptor starts at its start cycle
alone; 04 R119, R120, R127: a LOAD reads its
columns one by one into the shadow plane, leaves the active plane, and with its last column gives the plane its format; one that a
halt stops leaves the columns it has read (R140); 04 R129, R138: a SEND offers every row as six beats of 128 bytes, and clears it
where its descriptor says so; 04 R139: a row of a MERGE adds what its six beats brought. What the engines of the tile have done up to
the first cycle of a descriptor comes before it. -/
def Obligations.MatrixLoadAndSend : Prop :=
  ∀ (s : State) (lt idx d : Nat), s.powered = true →
    (∀ b x, idx < tpMxeCount (armedProgram (s.tile lt)) →
      d = descAt (armedProgram (s.tile lt)) (tpMxeOffset (armedProgram (s.tile lt))) idx → fetchPoint d = some (b, x) →
      s.tileWorks lt b = true →
      exec (.descriptorFetch lt idx) s = .next (({ s with cyc := x } : State).modTile lt (fun t => { t with mxe := { t.mxe with
        taken := tput t.mxe.taken idx (fetchedExp t.curPatches idx d) } }))) ∧
    (∀ u, s.mxeDesc lt idx moLOAD = some d → u = { s.engines lt (dStartCycle d) with cyc := dStartCycle d } →
      exec (.mxeLoad lt idx (dStartCycle d)) s = .next ((u.modMxe lt (fun m => { m with load := some ⟨d, 0⟩ })).showMxe lt)) ∧
    (∀ x op, x ≠ dStartCycle d → s.mxeDesc lt idx op = some d → (op = moLOAD → exec (.mxeLoad lt idx x) s = .next s) ∧
      (op = moPASS → exec (.mxePass lt idx x) s = .next s) ∧ (op = moSEND → exec (.mxeSend lt idx x) s = .next s)) ∧
    (∀ k c t, (s.tile lt).mxe.load = some k → c = (s.loadColumn lt k.desc k.next).1 → t = s.loadStep lt → lt < 256 →
      WithinTile lt s t ∧ ((s.tile lt).uses = [] → t.mem.bytes = s.mem.bytes) ∧
      (k.next + 1 < ldColumns k.desc → (t.tile lt).mxe = { (s.tile lt).mxe with
        shadow := (s.tile lt).mxe.shadow.putColumn k.desc k.next c, load := some { k with next := k.next + 1 } }) ∧
      (ldColumns k.desc ≤ k.next + 1 → (t.tile lt).mxe = { (s.tile lt).mxe with
        shadow := ((s.tile lt).mxe.shadow.putColumn k.desc k.next c).filledBy k.desc, load := none })) ∧
    (∀ m x, MxeSt.stop m x = { m with pass := (MxeSt.stop m x).pass, load := none, send := (MxeSt.stop m x).send }) ∧
    (∀ u, s.mxeDesc lt idx moSEND = some d → u = { s.engines lt (dStartCycle d) with cyc := dStartCycle d } →
      exec (.mxeSend lt idx (dStartCycle d)) s = .next ((u.modMxe lt (fun m => { m with send := some ⟨d, sdRows d, 0⟩ })).showMxe lt)) ∧
    (∀ k, (s.tile lt).mxe.send = some k → s.sendStep lt =
      (({ s with cyc := dStartCycle k.desc + 6 * k.next } : State).sendRow lt k.desc k.next).modMxe lt (fun m => { m with
        send := if k.next + 1 < k.rows then some { k with next := k.next + 1 } else none })) ∧
    (∀ r t, t = s.sendRow lt d r →
      t = { s with regs := t.regs, tiles := t.tiles, mesh := t.mesh } ∧ (∀ n, n ≠ lt → t.tile n = s.tile n) ∧
      (∀ a, a ≠ MXE_ERRORS_LT lt → t.reg a = s.reg a) ∧ t.mesh.nextId = s.mesh.nextId + 6 ∧
      (t.mesh.beats.drop s.mesh.beats.length).map (fun b => (b.srcLt, b.destLt, b.kind, b.first, b.last, b.data)) =
        (List.range 6).map (fun j => (lt, sdDest d, 1, j == 0, j == 5,
          bytesFrom (rowBytes (s.accRead lt (sdRow0 d + r)).1) (128 * j) 128)) ∧
      (sdClear d = 1 → ∀ n, n < 128 → tgetD (t.tile lt).mxe.acc ((sdRow0 d + r) * 128 + n) accEntry0 = ⟨0, false, 0⟩) ∧
      (sdClear d = 0 → (t.tile lt).mxe = (s.tile lt).mxe)) ∧
    (∀ r, lt < 256 → idx < tpMxeCount (armedProgram (s.tile lt)) →
      d = descAt (armedProgram (s.tile lt)) (tpMxeOffset (armedProgram (s.tile lt))) idx → mdOp d = moMERGE →
      s.alive lt = true → s.working (s.partOfLt lt) = true → (s.crsOf (s.partOfLt lt)).lessonBell = dStartBell d →
      exec (.mxeMerge lt idx r) s = .next (s.mergeRow lt idx d r)) ∧
    (∀ r l t, r < sdRows d → (s.tile lt).halted = false → (s.tile lt).dues = [] → l = mergeBeats (s.tile lt).mxe idx r →
      (l.headD none).map (·.tag) = some (tgetD (s.tile lt).mxe.tags (sdRow0 d + r) 0) → t = s.mergeRow lt idx d r → lt < 256 →
      WithinTile lt s t ∧ t.mem = s.mem ∧ t.cyc = (dStartCycle d + 6 * r + 7) % 4096 ∧
      (t.tile lt).mxe.merge = (if r + 1 < sdRows d then some idx else none) ∧
      (∀ n, n < 128 → (tgetD (t.tile lt).mxe.acc ((sdRow0 d + r) * 128 + n) accEntry0).value =
        addWrap (tgetD (s.tile lt).mxe.acc ((sdRow0 d + r) * 128 + n) accEntry0).value
          ((mergeEntries l).getD n (0, true)).1 48) ∧
      (∀ k, k / 128 ≠ sdRow0 d + r → tgetD (t.tile lt).mxe.acc k accEntry0 = tgetD (s.tile lt).mxe.acc k accEntry0))

/-- 04 R117, R128, R135, R140: a PASS swaps the planes where its descriptor says so and issues its rows one by one (all, or to the end
of the group of 128 a halt comes in), each written D cycles after its issue (R131); a transposed read of a plane whose squares differ
is noted; 04 R123, R125: a row that opens an accumulation stores its sums and its exponent as the row's tag, a row that continues one
adds modulo 2^48 at the tag that is there; no other row and no plane changes; 04 R124: what is written in a cycle is not yet there for
a read in that cycle. -/
def Obligations.MatrixPass : Prop :=
  (∀ (s u v : State) (lt idx d : Nat) (m : MxeSt), s.powered = true → s.mxeDesc lt idx moPASS = some d →
    u = { s.engines lt (dStartCycle d) with cyc := dStartCycle d } → v = (if psSwap d = 1 then u.swapPlanes lt else u) →
    m = (v.tile lt).mxe →
    exec (.mxePass lt idx (dStartCycle d)) s = .next (
      let k : PassRun :=
        { desc := d, exp := (tfind m.taken idx).getD (fetchedExp (v.tile lt).curPatches idx d)
          p := passP (if m.active.filled then m.active.wfmt else 2) (psFmt d), rows := psRows d, next := 0 }
      let w := (v.modMxe lt (fun x => { x with pass := some k })).setF (MXE_PROGRESS_LT lt) MXE_PROGRESS_LT_rows_done 0
      (if psAxis d = 1 ∧ m.active.filled = true ∧ m.active.squareOk ≠ 0xFFFF
       then w.setB (MXE_STATUS_LT lt) MXE_STATUS_LT_square_mismatch true else w).showMxe lt)) ∧
  (∀ (s t : State) (lt x row : Nat) (k : PassRun) (y : InputRow) (out : List TermSum) (m : MxeSt) (e : Int),
    m = (s.tile lt).mxe → m.pass = some k → x = dStartCycle k.desc + k.next * k.p → row = psRow0 k.desc + k.next →
    y = (({ s with cyc := x } : State).passInput lt k.desc k.next x (passK m.active (psAxis k.desc))).1 →
    e = (if psAcc k.desc = 0 then k.exp else m.tagDue row) → out = rowOut m.active y e (psAxis k.desc) → t = s.passStep lt → lt < 256 →
    WithinTile lt s t ∧ ((s.tile lt).uses = [] → t.mem.bytes = s.mem.bytes) ∧
    (t.tile lt).mxe = { m with
      updates := (t.tile lt).mxe.updates
      pass := if k.next + 1 < k.rows then some { k with next := k.next + 1 } else none } ∧
    ∃ z ∈ (t.tile lt).mxe.updates, z.at_ = x + passDepth k.p ∧ z.row = row ∧ z.tag = (if psAcc k.desc = 0 then some e else none) ∧
      z.vals = out.map (fun n => (n.value, n.poison))) ∧
  (∀ (s t : State) (lt : Nat) (z : AccUpdate) (m : MxeSt), m = (s.tile lt).mxe → t = s.accUpdate lt z → lt < 256 →
    z.vals.length ≤ 128 →
    WithinTile lt s t ∧ t.mem = s.mem ∧ (t.tile lt).mxe.active = m.active ∧ (t.tile lt).mxe.shadow = m.shadow ∧
    (∀ k, k / 128 ≠ z.row → tgetD (t.tile lt).mxe.acc k accEntry0 = tgetD m.acc k accEntry0) ∧
    (∀ e, z.tag = some e → tgetD (t.tile lt).mxe.tags z.row 0 = e ∧
      ∀ n, n < z.vals.length → tgetD (t.tile lt).mxe.acc (z.row * 128 + n) accEntry0 =
        ⟨(z.vals.getD n (0, true)).1, (z.vals.getD n (0, true)).2, 0⟩) ∧
    (z.tag = none → (t.tile lt).mxe.tags = m.tags ∧
      ∀ n, n < z.vals.length → tgetD (t.tile lt).mxe.acc (z.row * 128 + n) accEntry0 =
        ⟨addWrap (tgetD m.acc (z.row * 128 + n) accEntry0).value (z.vals.getD n (0, true)).1 48,
         ((tgetD m.acc (z.row * 128 + n) accEntry0).poison || (tgetD m.acc (z.row * 128 + n) accEntry0).err == 2 ||
           tgetD m.tagErr z.row 0 == 2) || (z.vals.getD n (0, true)).2, 0⟩)) ∧
  (∀ (s : State) (lt x : Nat), (∀ e ∈ (s.tile lt).dues, 2 * x < e.1) → (s.engines lt x).tile lt = s.tile lt) ∧
  (∀ rows p c, 0 < p → passRows rows p c = min rows (128 * (c / 128 + 1) / p))

/-- 05 R158, R160, R549: a RUN reads its slate and run block, and where both are good its first instruction is the next to issue;
where one is not, slate_bad is set and the course of the partition halts; 05 R167: a TABLE unloads its slot, reads its image in three
cycles, and loads the slot or sets table_bad; 05 R149: a CACHE moves one line a cycle between the cache and the tile buffer; 05 R172:
a halt ends a TABLE or CACHE where it stands and a RUN after its iteration. What the engines of the tile have done up to the first
cycle of a descriptor comes before it, and VE_STATUS follows. -/
def Obligations.VectorDescriptors : Prop :=
  ∀ (s g w : State) (lt idx d : Nat), g = s.engines lt (dStartCycle d) → w = { g with cyc := dStartCycle d } →
    (∀ sb sp bb bp u v, VeReady s lt idx voRUN d → w.tbPortRead lt (dStartCycle d) 0 3 (runSlate d) (8 * runN d) = ((sb, sp), u) →
      u.tbPortRead lt (dStartCycle d + 1) 0 3 (runBlock d) 128 = ((bb, bp), v) → sp.any id = false → bp.any id = false →
      slateGood (armedProgram (v.tile lt)) (dStartBell d) (dStartCycle d + 4) (runIters d) (words64 sb (runN d)) bb = true →
      exec (.veRun lt idx) s = .next (((v.setF (VE_PROGRESS_LT lt) VE_PROGRESS_LT_iters_done 0).modVe lt (fun e => { e with
        run := some ⟨idx, dStartCycle d + 4, words64 sb (runN d), bb, runIters d, 0, 0, []⟩ })).showVe lt)) ∧
    (∀ sb sp bb bp u v x, VeReady s lt idx voRUN d → w.tbPortRead lt (dStartCycle d) 0 3 (runSlate d) (8 * runN d) = ((sb, sp), u) →
      u.tbPortRead lt (dStartCycle d + 1) 0 3 (runBlock d) 128 = ((bb, bp), v) →
      (sp.any id = true ∨ bp.any id = true ∨
        slateGood (armedProgram (v.tile lt)) (dStartBell d) (dStartCycle d + 4) (runIters d) (words64 sb (runN d)) bb = false) →
      x = v.setF (VE_PROGRESS_LT lt) VE_PROGRESS_LT_iters_done 0 →
      exec (.veRun lt idx) s =
        .next (((x.setB (VE_STATUS_LT lt) VE_STATUS_LT_slate_bad true).declareHalt (x.partOfLt lt) hcSlate).showVe lt)) ∧
    (VeReady s lt idx voTABLE d → exec (.veTable lt idx (dStartCycle d)) s =
      .next (((((w.modVe lt (fun e => { e with slots := tdel e.slots (dBits d 0 32 3) })).showTables lt).modVe lt (fun e =>
        { e with job := some ⟨d, 3, 0, [], []⟩ }))).showVe lt)) ∧
    (d = descAt (armedProgram (s.tile lt)) (tpVeOffset (armedProgram (s.tile lt))) idx → s.powered = true → ∀ x, x ≠ dStartCycle d →
      exec (.veTable lt idx x) s = .next s ∧ exec (.veCache lt idx x) s = .next s) ∧
    (VeReady s lt idx voCACHE d → exec (.veCache lt idx (dStartCycle d)) s =
      .next ((w.modVe lt (fun e => { e with job := some ⟨d, dBits d 0 42 9 + 1, 0, [], []⟩ })).showVe lt)) ∧
    (∀ k b p v j, (s.ve lt).job = some k → dBits k.desc 0 0 4 = voTABLE →
      ({ s with cyc := dStartCycle k.desc + k.next } : State).tbPortRead lt (dStartCycle k.desc + k.next) 0 3
        (dBits k.desc 1 0 22 + 512 * k.next) (if k.next < 2 then 512 else 16) = ((b, p), v) →
      j = { k with next := k.next + 1, data := k.data ++ b, poison := k.poison ++ p } →
      (j.next < k.steps → s.jobStep lt = v.modVe lt (fun e => { e with job := some j })) ∧
      (∀ t, k.steps ≤ j.next → lookupOf j.data j.poison = some t → s.jobStep lt = (v.modVe lt (fun e => { e with
        job := none, slots := tput e.slots (dBits k.desc 0 32 3) t })).showTables lt) ∧
      (k.steps ≤ j.next → lookupOf j.data j.poison = none → s.jobStep lt =
        ((v.modVe lt (fun e => { e with job := none })).setB (VE_STATUS_LT lt) VE_STATUS_LT_table_bad true).showTables lt)) ∧
    (∀ k, (s.ve lt).job = some k → dBits k.desc 0 0 4 = voCACHE → s.jobStep lt =
      (({ s with cyc := dStartCycle k.desc + k.next } : State).cacheLine lt k.desc k.next).modVe lt (fun e => { e with
        job := if k.steps ≤ k.next + 1 then none else some { k with next := k.next + 1 } })) ∧
    (∀ i b p e ep u v, dBits d 0 32 1 = 0 → lt < 256 →
      s.tbPortRead lt (dStartCycle d + i) 0 3 (dBits d 1 0 22 + 512 * i) 512 = ((b, p), u) →
      u.tbPortRead lt (dStartCycle d + i) 2 3 (dBits d 1 22 22 + 32 * i) 32 = ((e, ep), v) →
      (s.cacheLine lt d i).tiles = (v.modVe lt (fun x => { x with cache := tput x.cache (dBits d 0 33 9 + i) (CacheLine.mk
        ⟨b, (List.range 16).map (fun j => signedOf (leAt e (2 * j) 2 % 1024) 10),
          (List.range 16).map (fun j => bitSet (leAt e (2 * j) 2) 15 || ((p.drop (32 * j)).take 32).any id ||
            ((ep.drop (2 * j)).take 2).any id)⟩ []) })).tiles ∧
      WithinTile lt s (s.cacheLine lt d i) ∧ ((s.tile lt).uses = [] → (s.cacheLine lt d i).mem.bytes = s.mem.bytes)) ∧
    (∀ e : VeSt, e.stop = { e with job := none, run := e.stop.run } ∧
      ∀ r, e.run = some r → e.stop.run = if r.instr = 0 then none else some { r with iters := r.iter + 1 })

/-- 05 R151, R155-R159: each of the 33 instructions that have a result reads its operands, enters that result with its
destination and its cycle behind the results on their way, counts one vector instruction, and goes on to the next instruction,
iteration or the end; NOP issues alone; an instruction that is not the next of the slate does nothing. Only the engine of the
tile, its counts and what reports them change. -/
def Obligations.SlateIssue : Prop :=
  ∀ (s : State) (lt : Nat) (r : VeRun) (i : Slate) (x : Nat), SlateReady s lt r i x →
    (∀ row ∈ ([(.slateMov lt, 0x01, slMov), (.slateAdd lt, 0x02, slAdd), (.slateSub lt, 0x03, slSub), (.slateMul lt, 0x04, slMul),
        (.slateMac lt, 0x05, slMac), (.slateNeg lt, 0x06, slNeg), (.slateAbs lt, 0x07, slAbs), (.slateMin lt, 0x08, slMin),
        (.slateMax lt, 0x09, slMax), (.slateShl lt, 0x10, slShl), (.slateShr lt, 0x11, slShr), (.slateShrl lt, 0x12, slShrl),
        (.slateAnd lt, 0x18, fun y => bitwise y Nat.land), (.slateOr lt, 0x19, fun y => bitwise y Nat.lor),
        (.slateXor lt, 0x1A, fun y => bitwise y Nat.xor), (.slateNot lt, 0x1B, slNot), (.slateCmpeq lt, 0x20, slCmpeq),
        (.slateCmplt lt, 0x21, slCmplt), (.slateCmple lt, 0x22, slCmple), (.slateSel lt, 0x23, slSel), (.slateAlign lt, 0x28, slAlign),
        (.slateGete lt, 0x29, slGete), (.slateSete lt, 0x2A, slSete), (.slateGetf lt, 0x2B, slGetf), (.slateClrf lt, 0x2C, slClrf),
        (.slateCvt lt, 0x2D, slCvt), (.slateRsum lt, 0x30, slRsum), (.slateRmax lt, 0x31, fun y => maxOf y id),
        (.slateRmaxabs lt, 0x32, slRmaxabs), (.slateRcpw lt, 0x34, slRcpw), (.slateLut lt, 0x38, slLut), (.slateRq lt, 0x3C, slRq),
        (.slateExps lt, 0x3D, slExps)] : List (Instr × Nat × (SlateIn → VeFlight))),
      (i.op = row.2.1 →
        exec row.1 s = .next (
          let u := ({ s.engines lt x with cyc := x % 4096 } : State).slateIn lt r i x
          let g := { row.2.2 u.1.1 with at_ := landAt x row.2.1 u.1.2.1, dst := u.1.2.1 }
          let v := u.2.modVe lt (fun e => { e with flight := insertFlight g e.flight })
          ((v.perfAdd (v.partOfLt lt) 2 1).issued lt u.1.2.2).showVe lt)) ∧
      (i.op = row.2.1 → lt < 256 → Gives row.1 s (WithinTile lt s)) ∧
      (i.op ≠ row.2.1 → exec row.1 s = .next s)) ∧
    (i.op = 0 → exec (.slateNop lt) s = .next ((({ s.engines lt x with cyc := x % 4096 } : State).issued lt r).showVe lt)) ∧
    (i.op ≠ 0 → exec (.slateNop lt) s = .next s)

/-- 05 R152-R157, R164-R170: the lane values of every instruction of a slate, with b aligned to the block tags of a where the
instruction says so; the tags and the poison of its result; the row sum, the reciprocal, the table lookup and the exponents. -/
def Obligations.SlateResults : Prop :=
  ∀ (y : SlateIn) (e : Nat) (a b c : Int) (al bl : Lane), e < laneCount y.w →
    a = (y.a.lanes y.w).getD e 0 → b = (y.b.lanes y.w).getD e 0 → c = (y.c.lanes y.w).getD e 0 →
    bl = (y.b.aligned y.w y.a.tag).getD e (lane 0) → al = (y.a.aligned y.w (fun _ => signedOf (y.i.imm % 1024) 10)).getD e (lane 0) →
    (slMov y).vals.getD e 0 = a ∧
    (slAdd y).vals.getD e 0 = (fitLane y.i.sat { bl with v := a + bl.v } y.bits).v ∧
    (slSub y).vals.getD e 0 = (fitLane y.i.sat { bl with v := a - bl.v } y.bits).v ∧
    (slMul y).vals.getD e 0 = (fitLane y.i.sat (tagLane (lane (roundRne (a * b) (y.i.ext % 64)))
      (y.a.tag (e / 32) + y.b.tag (e / 32) + (y.i.ext % 64 : Nat)) y.bits) y.bits).v ∧
    (slMac y).tags = (slMul y).tags ∧
    (slNeg y).vals.getD e 0 = (fitLane y.i.sat (lane (-a)) y.bits).v ∧
    (slAbs y).vals.getD e 0 = (fitLane y.i.sat (lane (a.natAbs : Int)) y.bits).v ∧
    (slMin y).vals.getD e 0 = min a bl.v ∧ (slMax y).vals.getD e 0 = max a bl.v ∧
    (slShl y).vals.getD e 0 = wrapInt (a * 2 ^ (y.i.imm % 32)) y.bits ∧
    (slShr y).vals.getD e 0 = (if y.i.mod then roundRne a (y.i.imm % 32) else a / 2 ^ (y.i.imm % 32)) ∧
    (slShrl y).vals.getD e 0 = signedOf (codeOf a y.bits / 2 ^ (y.i.imm % 32)) y.bits ∧
    (bitwise y Nat.land).vals.getD e 0 = signedOf (Nat.land (codeOf a y.bits) (codeOf b y.bits)) y.bits ∧
    (bitwise y Nat.lor).vals.getD e 0 = signedOf (Nat.lor (codeOf a y.bits) (codeOf b y.bits)) y.bits ∧
    (bitwise y Nat.xor).vals.getD e 0 = signedOf (Nat.xor (codeOf a y.bits) (codeOf b y.bits)) y.bits ∧
    (slNot y).vals.getD e 0 = -a - 1 ∧
    (slCmpeq y).vals.getD e 0 = (if a = bl.v then -1 else 0) ∧ (slCmplt y).vals.getD e 0 = (if a < bl.v then -1 else 0) ∧
    (slCmple y).vals.getD e 0 = (if a ≤ bl.v then -1 else 0) ∧ (slSel y).vals.getD e 0 = (if c ≠ 0 then a else bl.v) ∧
    (slAlign y).vals.getD e 0 = al.v ∧ (slAlign y).tags = List.replicate y.nb (signedOf (y.i.imm % 1024) 10) ∧
    (slGete y).vals.getD e 0 = fitFree y.w (y.a.tag (e / 32)) ∧
    (slSete y).vals.getD e 0 = a ∧
    (slSete y).tags = (List.range y.nb).map (fun j => clampTag ((y.b.lanes y.w).getD (32 * j) 0)) ∧
    (slGetf y).vals.getD e 0 = (tgetD y.flags e 0 : Nat) ∧ (slClrf y).clear = true ∧
    (laneBits (y.i.ext % 4) < y.bits → (slCvt y).vals.getD e 0 = (clampLane (lane a) (laneBits (y.i.ext % 4))).v ∧
      (slCvt y).lo = bitsAt y.i.ext 2 2 * laneCount y.w) ∧
    (slRsum y).w.value = wrapInt ((y.a.aligned y.w (fun _ => (if y.i.mod then y.a.tag 0 else y.wd.tag))).foldl
      (fun (v : Int) (l : Lane) => v + l.v) (if y.i.mod then 0 else y.wd.value)) 64 ∧
    (y.ws.value ≤ 0 → (slRcpw y).rcpBad = true ∧ (slRcpw y).vals = List.replicate 128 0x3FFFFFFF) ∧
    (y.slot = none → (slLut y).tableBad = true ∧ (slLut y).poison = List.replicate y.nb true) ∧
    (slExps y).tags = (List.range y.nb).map (fun j =>
      autoExp ((y.a.lanes y.w).getD (32 * j) 0).natAbs (y.a.tag j) (y.i.ext % 8) (bitsAt y.i.ext 6 2)) ∧
    (slAdd y).tags = y.tagsOf y.a ∧ (slAdd y).poison = orBools (y.badOf y.a) (y.badOf y.b) ∧ (slMov y).poison = y.badOf y.a

/-- 06 R174-R177, R179, R180: each of the 20 register operations, of the 8 immediate operations, LUI, RDCYC, RDBELL and RDID writes
its result into rd, which is available after its latency, and lets the core go on at pc + 4 after its issue cycles; register 0
discards it; no other instruction issues in its place. -/
def Obligations.CoreArithmetic : Prop :=
  ∀ (s u : State) (g k w t : Nat), CoreReady s u g k w t →
    (∀ row ∈ ([(.chalkAdd g, 0, fun a b => a + b, 1, 1), (.chalkSub g, 1, fun a b => a - b, 1, 1),
        (.chalkAnd g, 2, fun a b => a &&& b, 1, 1), (.chalkOr g, 3, fun a b => a ||| b, 1, 1), (.chalkXor g, 4, fun a b => a ^^^ b, 1, 1),
        (.chalkSll g, 5, fun a b => a <<< (b.toNat % 32), 1, 1), (.chalkSrl g, 6, fun a b => a >>> (b.toNat % 32), 1, 1),
        (.chalkSra g, 7, fun a b => a.sshiftRight (b.toNat % 32), 1, 1),
        (.chalkSlt g, 8, fun a b => if a.toInt < b.toInt then 1 else 0, 1, 1),
        (.chalkSltu g, 9, fun a b => if a.toNat < b.toNat then 1 else 0, 1, 1), (.chalkMul g, 10, fun a b => a * b, 3, 1),
        (.chalkMulh g, 11, fun a b => BitVec.ofInt 32 (a.toInt * b.toInt / 2 ^ 32), 3, 1),
        (.chalkMulhu g, 12, fun a b => BitVec.ofNat 32 (a.toNat * b.toNat / 2 ^ 32), 3, 1),
        (.chalkMin g, 13, fun a b => if b.toInt < a.toInt then b else a, 1, 1),
        (.chalkMax g, 14, fun a b => if a.toInt < b.toInt then b else a, 1, 1), (.chalkClz g, 15, fun a _ => clzWord a, 1, 1),
        (.chalkDiv g, 16, fun a b => if b = 0 then 0xFFFFFFFF else BitVec.ofInt 32 (a.toInt.tdiv b.toInt), 18, 18),
        (.chalkDivu g, 17, fun a b => if b = 0 then 0xFFFFFFFF else BitVec.ofNat 32 (a.toNat / b.toNat), 18, 18),
        (.chalkRem g, 18, fun a b => if b = 0 then a else BitVec.ofInt 32 (a.toInt.tmod b.toInt), 18, 18),
        (.chalkRemu g, 19, fun a b => if b = 0 then a else BitVec.ofNat 32 (a.toNat % b.toNat), 18, 18)] :
          List (Instr × Nat × (Word → Word → Word) × Nat × Nat)),
      (k = 0x100 + row.2.1 → exec row.1 s = .next (u.result ⟨g, w, t⟩ (ckRd w)
        (row.2.2.1 ((s.core g).get (ckRa w)) ((s.core g).get (ckRb w))) row.2.2.2.1 row.2.2.2.2)) ∧
      (k ≠ 0x100 + row.2.1 → exec row.1 s = .next s)) ∧
    (∀ row ∈ ([(.chalkAddi g, 0x02, fun a i => a + BitVec.ofInt 32 (signedOf i 14)), (.chalkAndi g, 0x03, fun a i => a &&& BitVec.ofNat 32 i),
        (.chalkOri g, 0x04, fun a i => a ||| BitVec.ofNat 32 i), (.chalkXori g, 0x05, fun a i => a ^^^ BitVec.ofNat 32 i),
        (.chalkSlli g, 0x06, fun a i => a <<< (i % 32)), (.chalkSrli g, 0x07, fun a i => a >>> (i % 32)),
        (.chalkSrai g, 0x08, fun a i => a.sshiftRight (i % 32)),
        (.chalkSlti g, 0x09, fun a i => if a.toInt < signedOf i 14 then 1 else 0)] : List (Instr × Nat × (Word → Nat → Word))),
      (k = row.2.1 → exec row.1 s = .next (u.result ⟨g, w, t⟩ (ckRd w) (row.2.2 ((s.core g).get (ckRa w)) (bitsAt w 18 14)) 1 1)) ∧
      (k ≠ row.2.1 → exec row.1 s = .next s)) ∧
    (k = 0x0A → exec (.chalkLui g) s = .next (u.result ⟨g, w, t⟩ (ckRd w) (BitVec.ofNat 32 (bitsAt w 13 19 * 2 ^ 13)) 1 1)) ∧
    (k = 0x202 → exec (.chalkRdcyc g) s = .next (u.result ⟨g, w, t⟩ (ckRd w) (BitVec.ofNat 32 (2 * t % 4096)) 1 1)) ∧
    (k = 0x203 → exec (.chalkRdbell g) s = .next (u.result ⟨g, w, t⟩ (ckRd w) (s.reg BELL_COUNT_LO) 1 1)) ∧
    (k = 0x204 → exec (.chalkRdid g) s = .next (u.result ⟨g, w, t⟩ (ckRd w) (BitVec.ofNat 32 g) 1 1)) ∧
    (∀ r v a n, (u.result ⟨g, w, t⟩ r v a n) = { u with cores := (u.result ⟨g, w, t⟩ r v a n).cores } ∧
      ((u.result ⟨g, w, t⟩ r v a n).core g).pc = ((s.core g).pc + 4) % 2 ^ 32 ∧
      ((u.result ⟨g, w, t⟩ r v a n).core g).issue = t + n ∧
      ((u.result ⟨g, w, t⟩ r v a n).core g).get r = (if r = 0 then 0 else v) ∧
      (r ≠ 0 → ((u.result ⟨g, w, t⟩ r v a n).core g).readyAt r = t + a) ∧
      (∀ q, q ≠ r → ((u.result ⟨g, w, t⟩ r v a n).core g).get q = (s.core g).get q) ∧
      ∀ h, h ≠ g → (u.result ⟨g, w, t⟩ r v a n).core h = s.core h)

/-- 06 R175, R176, R178, R181, R192, R193: a load from local memory extends its bytes; one from the tile buffer waits for the core's
window, where its bytes become the result; a patch window reads 0; a store to local memory stores its bytes there and nowhere
else, below 0x1000 it traps outside the runtime; a store to the tile buffer waits for its window and writes there; a patch of the
next lesson is queued, under taint dropped; a misaligned or unmapped address traps. -/
def Obligations.CoreMemory : Prop :=
  ∀ (s u : State) (g k w t a : Nat), CoreReady s u g k w t → a = u.coreAddr ⟨g, w, t⟩ →
    (∀ row ∈ ([(.chalkLdw g, 0x10, 4, false), (.chalkLdh g, 0x11, 2, true), (.chalkLdhu g, 0x12, 2, false), (.chalkLdb g, 0x13, 1, true),
        (.chalkLdbu g, 0x14, 1, false)] : List (Instr × Nat × Nat × Bool)), k = row.2.1 →
      (a % row.2.2.1 = 0 → a < 0x8000 → lmPoisoned s.mem (lmAddr g a) = false → tgetD s.mem.lmErr (lmAddr g a / 4) 0 = 0 →
        exec row.1 s = .next (u.result ⟨g, w, t⟩ (ckRd w)
          (extend row.2.2.1 (leVal (memRead s.mem (lmAddr g a) row.2.2.1)) row.2.2.2) 2 1)) ∧
      (a % row.2.2.1 = 0 → 0x400000 ≤ a → a < 0x800000 →
        exec row.1 s = .next (u.modCore g (fun c => { c with
          tb := some ⟨false, a - 0x400000, row.2.2.1, row.2.2.2, ckRd w, 0, windowAt g t⟩ }))) ∧
      (a % row.2.2.1 = 0 → (0x1000000 ≤ a ∧ a < 0x1004000 ∨ 0x1010000 ≤ a ∧ a < 0x1014000) →
        exec row.1 s = .next (u.result ⟨g, w, t⟩ (ckRd w) 0 2 1)) ∧
      (a % row.2.2.1 = 0 → 0x8000 ≤ a → a < 0x400000 → exec row.1 s = .next (u.trap g t trUNMAPPED (some a))) ∧
      (a % row.2.2.1 ≠ 0 → exec row.1 s = .next (u.trap g t trMISALIGNED (some a)))) ∧
    (∀ row ∈ ([(.chalkStw g, 0x18, 4), (.chalkSth g, 0x19, 2), (.chalkStb g, 0x1A, 1)] : List (Instr × Nat × Nat)), k = row.2.1 →
      (a % row.2.2 = 0 → 0x1000 ≤ a → a < 0x8000 →
        exec row.1 s = .next ((u.lmStoreAt (lmAddr g a) (leBytes row.2.2 (((s.core g).get (ckRd w)).toNat % 2 ^ (8 * row.2.2)))
          (u.tainted g)).nextInstr ⟨g, w, t⟩ (if row.2.2 = 4 then 1 else 2))) ∧
      (a % row.2.2 = 0 → a < 0x1000 → u.flag (GC_STATUS g) GC_STATUS_runtime = false →
        exec row.1 s = .next (u.trap g t trPROTECTED (some a))) ∧
      (a % row.2.2 = 0 → 0x400000 ≤ a → a < 0x800000 →
        (List.range row.2.2).any (fun i => u.areaOffset (a - 0x400000 + i) || u.shadowOffset (a - 0x400000 + i)) = false →
        exec row.1 s = .next (u.modCore g (fun c => { c with
          tb := some ⟨true, a - 0x400000, row.2.2, false, 0, ((s.core g).get (ckRd w)).toNat % 2 ^ (8 * row.2.2), windowAt g t⟩ }))) ∧
      (a % row.2.2 ≠ 0 → exec row.1 s = .next (u.trap g t trMISALIGNED (some a)))) ∧
    (∀ b data p v, v = u.lmStoreAt b data p →
      v.mem = lmStoreBytes u.mem b data p ∧ v = { u with mem := v.mem, regs := v.regs } ∧
      ((data.length = 4 ∨ tgetD u.mem.lmErr (b / 4) 0 = 0) → v.regs = u.regs) ∧
      (data.length ≠ 4 → tgetD u.mem.lmErr (b / 4) 0 = 1 →
        v.regs = (u.incF (GC_ERRORS ((b - lmBase) / 0x8000)) GC_ERRORS_lm_corrected 1).regs)) ∧
    (k = 0x18 → a % 4 = 0 → 0x1010000 ≤ a → a < 0x1014000 → u.tainted g = false → (u.tile (g / 64)).nextPatches.length < 64 →
      exec (.chalkStw g) s = .next (
        let v := u.modTile (g / 64) (fun x => { x with
          nextPatches := x.nextPatches ++ [⟨(a - 0x1010000) / 4, ((s.core g).get (ckRd w)).toNat % 2 ^ 32, 0, 0⟩] })
        (v.setF (GC_PATCH_LT (g / 64)) GC_PATCH_LT_pending (v.tile (g / 64)).nextPatches.length).nextInstr ⟨g, w, t⟩ 1)) ∧
    (k = 0x18 → a % 4 = 0 → 0x1000000 ≤ a → a < 0x1004000 → u.tainted g = false →
      isOverwritePass (armedProgram (u.tile (g / 64))) ((a - 0x1000000) / 4) = true →
      exec (.chalkStw g) s = .next ((u.modTile (g / 64) (fun x => { x with
        curPatches := x.curPatches ++ [⟨(a - 0x1000000) / 4, ((s.core g).get (ckRd w)).toNat % 2 ^ 32,
          (u.crsOf (u.partOfLt (g / 64))).lessonBell, 2 * (t + 2)⟩] })).nextInstr ⟨g, w, t⟩ 1)) ∧
    (∀ lt x q e v, lt < 256 → s.alive lt = true → q / 64 = lt → e = s.engines lt (2 * x) → v = { e with cyc := 2 * x % 4096 } →
      (List.range 64).filter (fun c => (s.windowAccess (64 * lt + c) x).isSome && !s.windowLate (64 * lt + c) x) = [q % 64] →
      (∀ acc m y, s.windowAccess q x = some acc → acc.isStore = false → m = tbBefore (v.tile lt) v.mem (2 * x) →
        y = tbPeek m lt acc.off acc.bytes true →
        exec (.gcTbWindow lt x) s = .next (
          let r := v.tbCount m lt acc.off acc.bytes
          let r := if y.2.any id then r.setB (GC_STATUS q) GC_STATUS_tainted true else r
          (r.modCore q (fun c => { c with tb := none })).result ⟨q, 0, x⟩ acc.rd (extend acc.bytes (leVal y.1) acc.signed) 4 1)) ∧
      (∀ acc m, s.windowAccess q x = some acc → acc.isStore = true →
        m = tbWrite v.mem lt acc.off (leBytes acc.bytes acc.value) (List.replicate acc.bytes (v.tainted q)) 0 →
        Gives (.gcTbWindow lt x) s (fun z => z.mem = m ∧
          z.cores = ((v.modCore q (fun c => { c with tb := none })).nextInstr ⟨q, 0, x⟩ 1).cores ∧ z.regs = v.regs ∧
          ∀ n, n ≠ lt → z.tile n = v.tile n)))

/-- 06 R176, R177, R180-R183, R189, R190: a branch taken goes on at pc + 4 times its immediate in two cycles, else at pc + 4 in one;
JAL and JALR link and jump; END stops a running task; WAITC parks the core until its cycle; TRAP and an instruction that encodes
nothing enter the runtime with their cause; RET leaves it; a task starts with its argument, lesson and iteration, and traps at
its deadline. -/
def Obligations.CoreControl : Prop :=
  ∀ (s u : State) (g k w t : Nat), CoreReady s u g k w t →
    (∀ row ∈ ([(.chalkBeq g, 0x20, fun a b => decide (a = b)), (.chalkBne g, 0x21, fun a b => decide (a ≠ b)),
        (.chalkBlt g, 0x22, fun a b => decide (a.toInt < b.toInt)), (.chalkBge g, 0x23, fun a b => decide (b.toInt ≤ a.toInt)),
        (.chalkBltu g, 0x24, fun a b => decide (a.toNat < b.toNat)), (.chalkBgeu g, 0x25, fun a b => decide (b.toNat ≤ a.toNat))] :
          List (Instr × Nat × (Word → Word → Bool))), k = row.2.1 →
      exec row.1 s = .next (u.modCore g (fun c =>
        if row.2.2 ((s.core g).get (ckRd w)) ((s.core g).get (ckRa w)) then
          { c with issue := t + 2, pc := (BitVec.ofNat 32 c.pc + 4 * ckSImm14 w : Word).toNat % 2 ^ 32 }
        else { c with issue := t + 1, pc := (c.pc + 4) % 2 ^ 32 }))) ∧
    (k = 0x28 → Gives (.chalkJal g) s (fun v => v = { u with cores := v.cores } ∧
      (v.core g).pc = (BitVec.ofNat 32 (s.core g).pc + 4 * ckSImm19 w : Word).toNat ∧ (v.core g).issue = t + 2 ∧
      (v.core g).get (ckRd w) = (if ckRd w = 0 then 0 else BitVec.ofNat 32 ((s.core g).pc + 4)))) ∧
    (k = 0x29 → Gives (.chalkJalr g) s (fun v => v = { u with cores := v.cores } ∧
      (v.core g).pc = (((s.core g).get (ckRa w) + ckSImm14 w) &&& 0xFFFFFFFC).toNat ∧ (v.core g).issue = t + 2 ∧
      (v.core g).get (ckRd w) = (if ckRd w = 0 then 0 else BitVec.ofNat 32 ((s.core g).pc + 4)))) ∧
    (k = 0x200 → s.flag (GC_STATUS g) GC_STATUS_running = true →
      Gives (.chalkEnd g) s (fun v => v = (u.nextInstr ⟨g, w, t⟩ 1).setB (GC_STATUS g) GC_STATUS_running false)) ∧
    (k = 0x201 → 2 * t < ((s.core g).get (ckRa w)).toNat → ((s.core g).get (ckRa w)).toNat ≤ 3775 →
      exec (.chalkWaitc g) s = .next ((u.nextInstr ⟨g, w, t⟩ 1).modCore g (fun c => { c with
        waitc := some ((s.core g).get (ckRa w)).toNat }))) ∧
    (k = 0x201 → ((s.core g).get (ckRa w)).toNat ≤ 2 * t → exec (.chalkWaitc g) s = .next (u.nextInstr ⟨g, w, t⟩ 1)) ∧
    (∀ v h, s.powered = true → s.coreBusy h = true → (s.core h).waitc = some v → v ≤ (s.core h).deadline →
      exec (.waitcWake h) s = .next (({ s with cyc := v } : State).modCore h (fun c => { c with
        waitc := none, issue := max c.issue ((v + 1) / 2) }))) ∧
    (k = 0x205 → 0x40 ≤ ((s.core g).get (ckRa w)).toNat → ((s.core g).get (ckRa w)).toNat ≤ 0x1FFFFF →
      exec (.chalkTrap g) s = .next (u.trap g t trSOFTWARE (some ((s.core g).get (ckRa w)).toNat))) ∧
    (k = 0x206 → u.flag (GC_STATUS g) GC_STATUS_runtime = true →
      exec (.chalkRet g) s = .next ((u.nextInstr ⟨g, w, t⟩ 1).setB (GC_STATUS g) GC_STATUS_runtime false)) ∧
    (k = 0x206 → u.flag (GC_STATUS g) GC_STATUS_runtime = false → exec (.chalkRet g) s = .next (u.trap g t trILLEGAL none)) ∧
    (∀ cause a, g < 16384 → s.courseRunning (s.partOfLt (g / 64)) = false → s.courseState (s.partOfLt (g / 64)) ≠ csStarting →
      ∃ v : State, s.trap g t cause (some a) = v.raise evGcTrap (v.partOfLt (g / 64)) 1 (g / 64) (g % 64) cause (s.core g).pc a ∧
        v = { s with cyc := 2 * t % 4096, regs := v.regs, cores := v.cores } ∧
        v.getF (GC_STATUS g) GC_STATUS_trap_cause = cause % 2 ^ 8 ∧ v.flag (GC_STATUS g) GC_STATUS_runtime = true ∧
        v.flag (GC_STATUS g) GC_STATUS_running = false ∧ (v.core g).pc = 0 ∧ (v.core g).issue = t + 1 ∧
        (v.core g).g = (s.core g).g) ∧
    (∀ lt i p c, s.powered = true → p = armedProgram (s.tile lt) → c = 64 * lt + tkAt p i 0 1 % 64 → i < tpTaskCount p →
      s.tileWorks lt (tkAt p i 2 2) = true → s.coreIdle c = true →
      Gives (.taskStart lt i) s (fun v => v = { s with cyc := tkAt p i 4 2, regs := v.regs, cores := v.cores } ∧
        v.flag (GC_STATUS c) GC_STATUS_running = true ∧ v.flag (GC_STATUS c) GC_STATUS_tainted = false ∧
        (v.core c).pc = tkAt p i 8 4 ∧ (v.core c).deadline = tkAt p i 6 2 ∧ (v.core c).get 1 = BitVec.ofNat 32 (tkAt p i 12 4) ∧
        (v.core c).get 2 = BitVec.ofNat 32 (s.crsOf (s.partOfLt lt)).lesson ∧
        (v.core c).get 3 = BitVec.ofNat 32 (s.crsOf (s.partOfLt lt)).iter ∧ (∀ a, a ≠ GC_STATUS c → v.reg a = s.reg a) ∧
        ∀ h, h ≠ c → v.core h = s.core h)) ∧
    (∀ h, s.powered = true → s.coreBusy h = true → s.flag (GC_STATUS h) GC_STATUS_running = true → s.deadlineDue h = true →
      exec (.taskDeadline h) s = .next (s.trap h ((s.core h).deadline / 2) trDEADLINE none))

/-- 06 R194-R200, R203: a COPY entry takes its channel or halts it with a status and an address; an INDIRECT takes the channel with
its list; a descriptor it reads is run, is NULL, or halts the channel; a beat within the tile moves its bytes and no others, counts,
and ends the COPY at its last; a posted transfer within the tile moves whole where its time allows, and leaves the channel. What
the engines of the tile have done up to a beat's cycle comes before its accesses. -/
def Obligations.MoverChannels : Prop :=
  ∀ (s u : State) (lt idx c d : Nat), s.powered = true →
    (∀ op, s.movEntry lt idx op = some d → c = mvChannel d →
      u = (((({ s with cyc := dStartCycle d } : State).setF (MOV_STATUS_LT lt c) MOV_STATUS_LT_status 0).setB (MOV_STATUS_LT lt c)
        MOV_STATUS_LT_busy true).setF (MOV_PROGRESS_LT lt c) MOV_PROGRESS_LT_rows_done 0).setF (MOV_PROGRESS_LT lt c)
        MOV_PROGRESS_LT_desc_done 0 →
      (op = 1 → u.copyRefused lt c (copyOf d (dStartCycle d)) = none →
        exec (.moverCopy lt idx) s = .next (u.modChan (8 * lt + c) (fun ch => { ch with copy := some (copyOf d (dStartCycle d)) }))) ∧
      (∀ st a, op = 1 → u.copyRefused lt c (copyOf d (dStartCycle d)) = some (st, a) →
        exec (.moverCopy lt idx) s = .next (u.movHalt lt c st a)) ∧
      (op = 2 → exec (.moverIndirect lt idx) s = .next (u.modChan (8 * lt + c) (fun ch => { ch with
        ind := some ⟨inList d, inCount d, 0, dStartCycle d, inCycles d, dStartCycle d⟩ })))) ∧
    (∀ i b p, lt < 256 → c < 8 → s.alive lt = true → (s.chan (8 * lt + c)).ind = some i → (s.chan (8 * lt + c)).copy = none →
      i.next < i.count → i.cycle + 1 ≤ i.firstCycle + i.window →
      ({ s with cyc := i.cycle } : State).portRead lt i.cycle 0 (7 + c) ((i.listAddr + 32 * i.next) % 0x400000) 32 = ((b, p), u) →
      d = leVal b →
      (p.any id = true → exec (.builtDescriptor lt c) s = .next (u.movHalt lt c mvPOISONED (tbAddr lt (i.listAddr + 32 * i.next)))) ∧
      (p.any id = false → d = 0 → exec (.builtDescriptor lt c) s = .next ((u.modChan (8 * lt + c) (fun ch => { ch with
        ind := some { i with next := i.next + 1, cycle := i.cycle + 1 } })).builtDone lt c (i.cycle + 1))) ∧
      (∀ q, p.any id = false → d ≠ 0 → u.builtRefused lt c d (tbAddr lt (i.listAddr + 32 * i.next)) = none →
        pathOf lt c (copyOf d (i.cycle + 1)) = some q →
        i.cycle + 1 + copyBeats q (copyOf d (i.cycle + 1)) ≤ i.firstCycle + i.window →
        exec (.builtDescriptor lt c) s = .next (((u.modChan (8 * lt + c) (fun ch => { ch with
          ind := some { i with next := i.next + 1, cycle := i.cycle + 1 } })).setF (MOV_PROGRESS_LT lt c) MOV_PROGRESS_LT_rows_done 0).modChan
            (8 * lt + c) (fun ch => { ch with copy := some (copyOf d (i.cycle + 1)) })))) ∧
    (∀ k p, lt < 256 → c < 8 → s.alive lt = true → (s.chan (8 * lt + c)).copy = some k → pathOf lt c k = some p →
      (beatWrites p (k.dst + k.beat / beatsPerRow p k * k.dstStride) (k.beat % beatsPerRow p k * p.rate)
        (min p.rate (k.rowBytes - k.beat % beatsPerRow p k * p.rate))).find? (fun x => s.protectedRange x.1 x.2) = none →
      exec (.moverBeat lt c) s = .next (
        let v := ({ s with cyc := k.startCycle + k.beat } : State)
        let v := (v.perfAdd (v.partOfLt lt) 3 1).moveBeat lt c k p (k.src + k.beat / beatsPerRow p k * k.srcStride)
          (k.dst + k.beat / beatsPerRow p k * k.dstStride) (k.beat % beatsPerRow p k * p.rate)
          (min p.rate (k.rowBytes - k.beat % beatsPerRow p k * p.rate)) (k.startCycle + k.beat)
        let v := if k.beat % beatsPerRow p k + 1 = beatsPerRow p k then v.incF (MOV_PROGRESS_LT lt c) MOV_PROGRESS_LT_rows_done 1 else v
        if k.beat + 1 == k.rows * beatsPerRow p k then v.copyDone lt c (k.startCycle + k.beat)
        else v.modChan (8 * lt + c) (fun ch => { ch with copy := some { k with beat := k.beat + 1 } }))) ∧
    (∀ k src dst j n cycle v a, v = s.moveBeat lt c k .own src dst j n cycle → lt < 256 → (s.tile lt).uses = [] → (s.tile lt).dues = [] →
      (a < tbAddr lt (unitOffset dst + j) ∨ tbAddr lt (unitOffset dst + j) + n ≤ a) →
      WithinTile lt s v ∧ v.chans = s.chans ∧ memGet v.mem a = memGet s.mem a) ∧
    (∀ x l r w p, lt < 256 → c < 8 → s.alive lt = true → (s.chan (8 * lt + c)).posts = x :: l →
      s.flag (MOV_STATUS_LT lt c) MOV_STATUS_LT_service_stop = false → s.copyRefused lt c (postCopy x) = none →
      s.protectedRange x.dst x.bytes = false → pathOf lt c (postCopy x) = some p → s.serviceTime lt p = true → p ≠ .mesh →
      s.svcRead x.src x.bytes = ((r, true), u) → (u.svcWrite x.dst r).1.2 = true → w = (u.svcWrite x.dst r).2 →
      exec (.serviceTransfer lt c) s = .next (((w.perfAdd (w.partOfLt lt) 3 (ceilDiv x.bytes p.rate)).dropPost lt c).setB (MOV_STATUS_LT lt c) MOV_STATUS_LT_busy false)) ∧
    (s.dropPost lt c = { s with tiles := (s.dropPost lt c).tiles, chans := (s.dropPost lt c).chans } ∧
      ((s.dropPost lt c).chan (8 * lt + c)).posts = ((s.chan (8 * lt + c)).posts).drop 1 ∧
      ((s.dropPost lt c).chan (8 * lt + c)).passes = 0 ∧ ∀ n, n ≠ 8 * lt + c → (s.dropPost lt c).chan n = s.chan n)

/-- 09 R263, R268-R275: a sequence starts with its tokens where the limits leave room; a transfer of a due sequence runs on every
locker and counts, one that would not close in time waits for the next bell; the five operations work through the bell's
transfers; a copied row takes the words of its source, a filled row its pattern, a result row the accumulators; the last transfer
ends a sequence and frees its tokens; R278, 14 R385: a command from below starts a sequence of one locker; NBU_FILL and
NBU_COPY complete with the first failure of their checks, or start a sequence for every locker while tokens last, and with every
one ended complete with the bytes of all rows. -/
def Obligations.NearBankSequences : Prop :=
  ∀ (s : State) (l p idx : Nat) (q : SeqRun), s.powered = true →
    (∀ e, l < 4 → p < 4 → e = seqAt (tgetD (s.layer l).prog p []) idx → idx < lpCount (tgetD (s.layer l).prog p []) →
      s.working p = true → (s.crsOf p).lessonBell = dStartBell e → p ∉ (s.layer l).halted → s.findSeq l p idx = none →
      s.tokensFree l e = true →
      Gives (.nbuSequenceStart l p idx) s (fun t => t = { s with cyc := dStartCycle e, regs := t.regs, layers := t.layers } ∧
        (t.layer l).seqs = (s.layer l).seqs ++ [⟨p, idx, e, 0, dStartBell e, dStartCycle e / 4 + 8,
          tgetD (s.activeTable p) (sqGroup e) 0 % 2 ^ 15, bitsAt (tgetD (s.activeTable p) (sqGroup e) 0) 16 4, sqLockers e, [], none⟩] ∧
        (t.layer l).prog = (s.layer l).prog ∧ ∀ k, k ≠ l → t.layer k = s.layer k)) ∧
    (s.findSeq l p idx = some q → q.xfer < xferCount q.entry → q.t + xferCycles q.entry (xferAt q.entry q.xfer) + 4 ≤ 944 →
      s.seqDue q = true → (p < 4 ∨ s.bellCount ≤ q.bell) → exec (.nbuTransfer l p idx) s = .next (s.runXfer l q)) ∧
    (s.findSeq l p idx = some q → p = 255 → q.bell < s.bellCount →
      exec (.nbuTransfer l p idx) s = .next (s.xferNext l { q with bell := s.bellCount, t := 8 })) ∧
    (s.findSeq l p idx = some q → q.xfer < xferCount q.entry → (p < 4 ∨ s.bellCount ≤ q.bell) → 944 < q.t + xferCycles q.entry (xferAt q.entry q.xfer) + 4 →
      exec (.nbuTransfer l p idx) s = .next (s.modLayer l (fun y => { y with seqs := y.seqs.map (fun z =>
        if z.part = q.part && z.idx = q.idx then { q with bell := q.bell + 1, t := 8 } else z) }))) ∧
    (∀ row ∈ ([(.nbuGatherReduce l p idx, 1), (.nbuMatvec l p idx, 2), (.nbuSignUpdate l p idx, 3), (.nbuSeqCopy l p idx, 4),
        (.nbuSeqFill l p idx, 5)] : List (Instr × Nat)), s.findSeq l p idx = some q →
      (sqOp q.entry = row.2 → exec row.1 s = .next (seqRunBell 118 s l p idx)) ∧ (sqOp q.entry ≠ row.2 → exec row.1 s = .next s)) ∧
    (∀ k, s.findSeq l p idx = some q →
      (q.xfer < xferCount q.entry → s.seqDue q = true → seqRunBell (k + 1) s l p idx = seqRunBell k (s.xferNext l q) l p idx) ∧
      (xferCount q.entry ≤ q.xfer ∨ s.seqDue q = false → seqRunBell (k + 1) s l p idx = s)) ∧
    (∀ locker n i, xferAt q.entry q.xfer = .fill i → (s.nbuXfer l locker q n).2 = { s with
      mem := lkPutWords s.mem (rowAddr l locker (sqDstBank q.entry) (sqDstRow q.entry + i))
        (List.replicate 128 (sqPattern q.entry, sqPoison q.entry)) }) ∧
    (∀ locker n i, xferAt q.entry q.xfer = .result i → (s.nbuXfer l locker q n).2 = { s with
      mem := lkPutWords s.mem (rowAddr l locker (sqDstBank q.entry) (sqDstRow q.entry + i)) n.resultRow } ∧ (s.nbuXfer l locker q n).1.n.acc = []) ∧
    (∀ locker n i d b u, xferAt q.entry q.xfer = .pair i →
      s.nbuRow (rowAddr l locker (sqSrcBank q.entry) (sqSrcRow q.entry + i)) = ((d, b), u) →
      (s.nbuXfer l locker q n).2 = { u with
        mem := lkPutWords u.mem (rowAddr l locker (sqDstBank q.entry) (sqDstRow q.entry + i))
          ((List.range 128).map (fun k => (leAt d (8 * k) 8, b.getD k false))) }) ∧
    (∀ m sign : Int, ∀ sh step : Nat, -32768 ≤ m → m ≤ 32767 → sh ≠ 0 →
      (signUpdate step sh m sign).1 = max (-32767) (min 32767 (m - step * sign - m / 2 ^ sh)) ∧
      (signUpdate step 0 m sign).1 = max (-32767) (min 32767 (m - step * sign))) ∧
    (s.findSeq l p idx = some q → xferCount q.entry ≤ q.xfer → q.owner = none → s.nfWaiting = [] →
      Gives (.nbuSequenceEnd l p idx) s (fun t => t = { s with regs := t.regs, layers := t.layers } ∧
        (t.layer l).seqs = (s.layer l).seqs.filter (fun z => !(z.part == p && z.idx == idx)) ∧ ∀ k, k ≠ l → t.layer k = s.layer k)) ∧
    (∀ o c, s.findSeq l p idx = some q → xferCount q.entry ≤ q.xfer → q.owner = some o → s.findTag o.1 o.2 = some c →
      exec (.nbuSequenceEnd l p idx) s = .next (
        let v := (s.dropSeqs l (fun z => z.part == p && z.idx == idx)).putCmd c { c with data := [nfStarted c, nfEnded c + 1] }
        forEach v.nfWaiting v State.nfGo)) ∧
    (∀ locker w, s.present (locker / 64) = true → lcCmd w = 8 → lcParity w = true → lcSide w ≠ 0 → (nlSub w = 4 ∨ nlSub w = 5) →
      bitsAt w 40 7 = 0 → entryRowsGood (belowEntry locker w) = true → s.openBell (s.partOfLt (locker / 64)) = true →
      s.tokensFree (lcLayer w) (belowEntry locker w) = true → exec (.lockerNbuCommand locker w) s =
        .next (s.seqBegin (lcLayer w) 255 locker (belowEntry locker w) s.bellCount (ceilDiv s.cyc 4 + 8) none)) ∧
    (∀ ring tag c d, Accepted s ring tag opNBU_FILL c → s.nfCheck c (nfBank c.pkt) none = none →
      d = { c with phase := .active, data := [0, 0] } → exec (.cmdNbuFill ring tag) s = .next ((s.putCmd c d).nfGo d)) ∧
    (∀ ring tag c d, Accepted s ring tag opNBU_COPY c → nfOverlap c.pkt = false →
      s.nfCheck c (bitsAt c.pkt.p1 38 1) (some (nfBank c.pkt, bitsAt c.pkt.p1 27 11)) = none →
      d = { c with phase := .active, data := [0, 0] } → exec (.cmdNbuCopy ring tag) s = .next ((s.putCmd c d).nfGo d)) ∧
    (∀ c n, n = 1024 * nfRows c.pkt * (nfLockers c.pkt).length → (nfLockers c.pkt).length ≤ nfEnded c →
      s.nfGo c = (s.countMoved c n).ok c n) ∧
    (∀ c r, nfEnded c < (nfLockers c.pkt).length → s.openBell c.part = true → r = nfStart c s ((nfLockers c.pkt).drop (nfStarted c)) 0 →
      s.nfGo c = r.2.putCmd c { c with data := [nfStarted c + r.1, nfEnded c] }) ∧
    (∀ c x k n, (s.tokensFree (nfLayer c.pkt) (nfEntry c.pkt x) = true → nfStart c s (x :: k) n = nfStart c
        (s.seqBegin (nfLayer c.pkt) 255 x (nfEntry c.pkt x) s.bellCount (ceilDiv s.cyc 4 + 8) (some (c.ring, c.pkt.tag))) k (n + 1)) ∧
      (s.tokensFree (nfLayer c.pkt) (nfEntry c.pkt x) = false → nfStart c s (x :: k) n = (n, s))) ∧
    (∀ ring tag c e, Accepted s ring tag opNBU_FILL c → s.nfCheck c (nfBank c.pkt) none = some e →
      exec (.cmdNbuFill ring tag) s = .next (s.fail c e)) ∧
    (∀ ring tag c, Accepted s ring tag opNBU_COPY c → nfOverlap c.pkt = true →
      exec (.cmdNbuCopy ring tag) s = .next (s.badParam c 1 27))

/-- 10 R289-R292: each of the six page commands that its checks let pass waits for its commit point, and one they do not completes
with the status of the first that fails and changes no table; the commit, in a service slot or open bell, carries the command out on every present tile of the
partition and completes OK with the frames it took. In the tables: SEQ_OPEN leaves an open entry without leaves and SEQ_CLOSE a
closed one; a page that is mapped takes the lowest free row of its group with count 1; a released page clears its word and lowers
its frame's count; a forked page repeats the word and raises the count. The place of the checks at the commit is the model's
choice (log entry 23). -/
def Obligations.PageCommands : Prop :=
  ∀ (s : State) (ring tag : Nat) (c : Cmd) (e : Nat),
    (∀ row ∈ ([(.cmdSeqOpen ring tag, opSEQ_OPEN), (.cmdSeqClose ring tag, opSEQ_CLOSE), (.cmdPageMap ring tag, opPAGE_MAP),
        (.cmdPageUnmap ring tag, opPAGE_UNMAP), (.cmdSeqFork ring tag, opSEQ_FORK),
        (.cmdPagePrivate ring tag, opPAGE_PRIVATE)] : List (Instr × Nat)), Accepted s ring tag row.2 c →
      (s.pageFails c.part c.pkt = none → exec row.1 s = .next (s.putCmd c { c with phase := .active })) ∧
      (s.pageFails c.part c.pkt = some e → exec row.1 s = .next (s.fail c e))) ∧
    (s.powered = true → s.findTag ring tag = some c → isPageOp c.pkt.opcode = true → c.phase = .active →
      (s.serviceOpen c.part = false → exec (.pageCommandCommit ring tag) s = .next s) ∧
      (s.serviceOpen c.part = true → s.pageFails c.part c.pkt = none → exec (.pageCommandCommit ring tag) s = .next (
        (forEach (s.tilesOf c.part) s (fun u lt => (u.pageTile c.pkt lt).showFree lt)).ok c
          (((s.tilesOf c.part).map (fun lt => (s.framesWanted c.pkt lt).length)).sum))) ∧
      (s.serviceOpen c.part = true → s.pageFails c.part c.pkt = some e → exec (.pageCommandCommit ring tag) s = .next (s.fail c e))) ∧
    (s.areaOn = false → s.pageFails c.part c.pkt = some stAREA_OFF) ∧
    (∀ lt, s.areaOn = true → lt ∈ s.tilesOf c.part → s.flag (TRN_STATUS_LT lt) TRN_STATUS_LT_area_lost = true →
      s.pageFails c.part c.pkt = some stAREA_LOST) ∧
    (∀ lt, s.areaOn = true → (∀ n ∈ s.tilesOf c.part, s.flag (TRN_STATUS_LT n) TRN_STATUS_LT_area_lost = false) →
      lt ∈ s.tilesOf c.part → s.seqStateFails c.pkt lt = true → s.pageFails c.part c.pkt = some stSEQ_STATE) ∧
    (∀ lt, Memory.wf s.mem = true → c.pkt.opcode = opSEQ_OPEN → (s.pageTile c.pkt lt).dirEntry lt c.pkt.p0 = 2 ^ 31 ∧
      s.pageTile c.pkt lt = { s with mem := (s.pageTile c.pkt lt).mem }) ∧
    (∀ lt, Memory.wf s.mem = true → c.pkt.opcode = opSEQ_CLOSE → (s.pageTile c.pkt lt).seqOpen lt c.pkt.p0 = false ∧
      s.pageTile c.pkt lt = { s with mem := (s.pageTile c.pkt lt).mem }) ∧
    (∀ lt q vp o r, Memory.wf s.mem = true → lt < 256 → q < 4096 → wordOff (s.dirEntry lt q) vp = some o →
      wordValid (s.pageWord lt q vp) = false → (s.freeRows lt (vp % 8)).head? = some r →
      (s.mapPage lt q vp).pageWord lt q vp = 16384 * lt + 2048 * (vp % 8) + r + 2 ^ 31 ∧
      (s.mapPage lt q vp).frameCount lt (2048 * (vp % 8) + r) = 1 ∧ s.mapPage lt q vp = { s with mem := (s.mapPage lt q vp).mem }) ∧
    (∀ lt q vp, wordValid (s.pageWord lt q vp) = true → s.mapPage lt q vp = s) ∧
    (∀ lt q vp w, Memory.wf s.mem = true → q < 4096 → s.pageWord lt q vp = w → wordValid w = true →
      (s.releasePage lt q vp).pageWord lt q vp = 0 ∧
      (s.releasePage lt q vp).frameCount lt (wordFrame w % 16384) = s.frameCount lt (wordFrame w % 16384) - 1) ∧
    (∀ lt src dst vp w o, Memory.wf s.mem = true → src < 4096 → dst < 4096 → s.pageWord lt src vp = w → wordValid w = true →
      wordOff (s.dirEntry lt dst) vp = some o → s.frameCount lt (wordFrame w % 16384) < 65535 →
      (s.forkPage lt src dst vp).pageWord lt dst vp = w ∧
      (s.forkPage lt src dst vp).frameCount lt (wordFrame w % 16384) = s.frameCount lt (wordFrame w % 16384) + 1)

/-- 10 R295-R297, R300: the job of a lesson begins at its cycle where the roster is valid and the fall-back is off; each entry is
read, judged and recorded at its cycle, in order, and the last ends the job; in the fall-back the control cores write the same
records, in a service slot within 2 KiB. A record whose plan gives it no place is judged and not stored. The
status is the first case that applies; a record shows the status, the sequence, the course bell and, when the status is OK, the
pages with the private bit of those whose count is 1; a status of 0x10 or above counts as refused, and the first of a lesson raises
TRN_REFUSED. -/
def Obligations.Translation : Prop :=
  ∀ (s : State) (lt i p cap l it : Nat), s.powered = true → p = s.partOfLt lt →
    (s.jobRoster p = some (cap, l, it) → s.alive lt = true → s.working p = true →
      tpRosterValid (armedProgram (s.tile lt)) = true → (s.tile lt).halted = false →
      (s.crsOf p).lessonBell = jobStart (tpRosterCycle (armedProgram (s.tile lt))) cap / 3776 →
      (s.flag (TRN_STATUS_LT lt) TRN_STATUS_LT_fallback = false → exec (.translationJobStart lt) s =
        .next ((({ s with cyc := jobStart (tpRosterCycle (armedProgram (s.tile lt))) cap % 3776 }).setB (TRN_STATUS_LT lt)
          TRN_STATUS_LT_busy (cap != 0)).modTile lt (fun y => { y with trnNext := 0 }))) ∧
      (s.flag (TRN_STATUS_LT lt) TRN_STATUS_LT_fallback = true → exec (.translationJobStart lt) s = .next s)) ∧
    (∀ a n x, s.jobRoster p = some (cap, l, it) → a = tpRosterAddr (armedProgram (s.tile lt)) →
      n = leAt (tbPeek s.mem lt (a - 64) 64 true).1 8 2 →
      x = jobStart (tpRosterCycle (armedProgram (s.tile lt))) cap + i * entryCycles n → s.alive lt = true → s.working p = true →
      s.flag (TRN_STATUS_LT lt) TRN_STATUS_LT_busy = true → (s.crsOf p).lessonBell = x / 3776 →
      (i = (s.tile lt).trnNext → i + 1 < cap → exec (.translateEntry lt i) s =
        .next ((({ s with cyc := x % 3776 } : State).translate lt i x cap a (firstBell (s.crsOf p) l it)).modTile lt (fun y =>
          { y with trnNext := i + 1 }))) ∧
      (i = (s.tile lt).trnNext → i + 1 = cap → exec (.translateEntry lt i) s =
        .next (((({ s with cyc := x % 3776 } : State).translate lt i x cap a (firstBell (s.crsOf p) l it)).modTile lt (fun y =>
          { y with trnNext := i + 1 })).setB (TRN_STATUS_LT lt) TRN_STATUS_LT_busy false)) ∧
      (cap ≤ i ∨ i ≠ (s.tile lt).trnNext → exec (.translateEntry lt i) s = .next s)) ∧
    (∀ x a pd pp u hd hp v ed ep w dd z st, s.trnRead lt x (a - 64) 64 = ((pd, pp), u) → u.trnRead lt (x + 1) a 32 = ((hd, hp), v) →
      v.trnRead lt (x + 2) (a + 32 + 16 * i) 16 = ((ed, ep), w) →
      w.trnRead lt (x + 3) (w.areaBase + 4 * ((entryOf ed).seq % 4096)) 4 = (dd, z) →
      (leAt hd 0x10 4 ≤ i ∧ st = 1 ∨ i < leAt hd 0x10 4 ∧ w.planBad (planOf pd) a cap = true ∧ st = 0x16 ∨
        i < leAt hd 0x10 4 ∧ w.planBad (planOf pd) a cap = false ∧ w.flag (TRN_STATUS_LT lt) TRN_STATUS_LT_area_lost = true ∧
          st = 0x17) →
      s.translate lt i x cap a it = (if noPlace (planOf pd) (i + 1) = true then z
        else z.trnWrite lt (x + 4 + 2 * (planOf pd).words) ((planOf pd).map + i * recordSize (planOf pd).words)
          (recordBytes (planOf pd) (entryOf ed) st (ceilDiv ((entryOf ed).position + (entryOf ed).newTokens) (planOf pd).tpp) it [])
        ).recordDone lt (entryOf ed) st) ∧
    (∀ y e st need bell pages, pages.length ≤ y.words → 0 < y.words →
      (recordBytes y e st need bell pages).length = 16 + 4 * y.words ∧ 16 + 4 * y.words ≤ recordSize y.words ∧
      leAt (recordBytes y e st need bell pages) 0 4 = e.seq % 2 ^ 32 ∧ leAt (recordBytes y e st need bell pages) 6 1 = st % 256 ∧
      leAt (recordBytes y e st need bell pages) 8 4 = bell % 2 ^ 32 ∧
      ∀ k, k < y.words → leAt (recordBytes y e st need bell pages) (16 + 4 * k) 4 =
        (if st = 0 then (pages.map recordWord).getD k 0 else 0) % 2 ^ 32) ∧
    (∀ r prev b pp t u v y e dd dp need pages o d, (s.crsOf p).rosters.find? (fun r => r.committed && r.lesson == l && r.iter == it) = some r →
      prevPos (s.crsOf p) l it = some prev → t = programOf (s.crsOf p).image prev.1 lt → cap = lsCapacity (s.crsOf p).image l →
      s.alive lt = true → tpRosterValid t = true → i < cap → s.flag (TRN_STATUS_LT lt) TRN_STATUS_LT_fallback = true →
      tbPeek s.mem lt (tpRosterAddr t - 64) 64 false = (b, pp) → y = planOf b → e = entryOf (bytesFrom r.data (32 + 16 * i) 16) →
      tbPeek s.mem lt (s.areaBase + 4 * (e.seq % 4096)) 4 false = (dd, dp) → need = ceilDiv (e.position + e.newTokens) y.tpp →
      i < leAt r.data 0x10 4 → s.planBad y (tpRosterAddr t) cap = false → s.flag (TRN_STATUS_LT lt) TRN_STATUS_LT_area_lost = false →
      e.seq < 4096 → dirOpen (leVal dd) = true → s.areaOn = true → need ≤ y.words → y.vpBase + need ≤ 4096 →
      pages = s.svcPages lt y (leVal dd) need → s.fallRoom lt (recordSize y.words) = true → o = y.map + i * recordSize y.words →
      d = recordBytes y e (readStatus lt y e true ((pp ++ dp).any id) need pages) need (firstBell (s.crsOf p) l it) pages →
      u = ({ s with mem := forEach (sliceSpans o d.length) s.mem (fun m x => s.tbOutside lt (o + x.1) ((d.drop x.1).take x.2) [] 1 m) } :
        State).modTile lt (fun t => { t with fallBytes := t.fallBytes + if s.cyc < 3968 then 0 else recordSize y.words }) →
      v = (if recordLate (s.crsOf p) l it prev (jobStart (tpRosterCycle t) cap + cap * entryCycles y.words + 16) = true then
        u.incF (TRN_COUNT_LT lt) TRN_COUNT_LT_fallback_late 1 else u) →
      exec (.fallbackRecordWrite lt l it i) s = .next (v.recordDone lt e (readStatus lt y e true ((pp ++ dp).any id) need pages))) ∧
    (∀ y e opened poison need pages, (readStatus lt y e opened poison need pages = 0 ↔
      (poison = false ∧ (∀ r ∈ pages, r.poison = false) ∧ opened = true ∧ need ≤ y.words ∧ y.vpBase + need - 1 ≤ 4095 ∧
        (∀ r ∈ pages, wordValid r.word = true) ∧
        (∀ r ∈ pages.zip (List.range need), wordFrame r.1.word / 2048 = 8 * lt + (y.vpBase + r.2) % 8) ∧
        (bitSet e.flags 0 = true → ∀ r ∈ pages.zip (List.range need), e.position / y.tpp ≤ r.2 →
          r.2 ≤ (e.position + e.newTokens - 1) / y.tpp → r.1.count ≤ 1)))) ∧
    (∀ e st, lt < 256 → (0x10 ≤ st → st < 256 → st ≠ 0x15 → (s.tile lt).trnRefusedSent = true →
        (s.recordDone lt e st).getF (TRN_STATUS_LT lt) TRN_STATUS_LT_last_status = st ∧
        (s.recordDone lt e st).getF (TRN_COUNT_LT lt) TRN_COUNT_LT_refused = min 1023 (s.getF (TRN_COUNT_LT lt) TRN_COUNT_LT_refused + 1) ∧
        s.recordDone lt e st = { s with regs := (s.recordDone lt e st).regs }) ∧
      (st < 0x10 → (s.recordDone lt e st).getF (TRN_STATUS_LT lt) TRN_STATUS_LT_last_status = st ∧
        (∀ a, a ≠ TRN_STATUS_LT lt → (s.recordDone lt e st).reg a = s.reg a)))

/-- 07 R219: a beat goes along its row, then along its column, one router nearer at each hop, and past a dead seat over its bypass;
R222: it divides where the routes to its tiles do; R221, R222: a copy is delivered L(a, b) cycles after its injection, L being 22 within
a form and at most 72, and not before an earlier beat of its transfer; R224: of two beats that need one port the lower input passes,
and the other is discarded wherever it is by then, recorded and halts the course; R218: a link corrects and counts, poisons a span, or
discards the beat with MESH_DROP; R225: an ejection port discards a beat of another partition. Which beat holds an ejection port that
one beat has already passed is the model's choice (log entry 18). -/
def Obligations.MeshBeats : Prop :=
  ∀ (s g : State) (lt cycle id corrected : Nat) (bad : List Nat) (b x : Beat), s.powered = true → g = s.engines lt cycle →
    (g.offers lt cycle = [b] → exec (.meshInject lt cycle) s = .next (({ g with cyc := cycle % 4096 } : State).launch b)) ∧
    (∀ v, b.unit < x.unit → b.id ≠ x.id → (g.offers lt cycle = [b, x] ∨ g.offers lt cycle = [x, b]) →
      v = ({ g with cyc := cycle % 4096 } : State).launch b →
      exec (.meshInject lt cycle) s = .next ((v.dropBeat x.id).collide lt (v.seatOf lt) cycle 0)) ∧
    (g.offers lt cycle = [] → exec (.meshInject lt cycle) s = .next g) ∧
    (∀ l, l = s.meshTargets b.srcLt b.destLt b.mc → (l = [] → s.launch b = s.dropBeat b.id) ∧
      (l ≠ [] → s.launch b = s.putBeat { b with
        injected := true, row := seatRow (s.seatOf b.srcLt), col := seatCol (s.seatOf b.srcLt), side := 4
        arrive := b.injCycle + 2, targets := l }) ∧
      (b.mc = 0 → l = if s.present b.destLt = true then [b.destLt] else [])) ∧
    (∀ c d, s.mesh.beats.find? (fun y => y.id == id && y.injected && y.kind != 2) = some b →
      c = { b with targets := b.targets.filter s.present } →
      (c.targets = [] → exec (.meshBeatRoute id corrected bad d) s = .next (s.dropBeat id)) ∧
      (c.targets ≠ [] → s.nextHops c = none → exec (.meshBeatRoute id corrected bad d) s = .next s) ∧
      (∀ h l u, c.targets ≠ [] → s.nextHops c = some (h, l) → u = { s with cyc := b.arrive % 4096 } →
        (u.outputLost c h.out = true →
          exec (.meshBeatRoute id corrected bad d) s = .next ((u.without c l).collide b.srcLt b.seat b.arrive 0)) ∧
        (∀ v, u.outputLost c h.out = false → v = u.oust c h.out → exec (.meshBeatRoute id corrected bad d) s = .next (({ v with
          mesh := { v.mesh with uses := v.mesh.uses ++ [⟨b.seat, h.out, b.arrive, b.side, b.root, true⟩] } } : State).advance c h l
            b.arrive corrected bad d)))) ∧
    (∀ out, (∀ u ∈ s.mesh.uses, u.timed = true → u.seat = b.seat → u.out = out → u.cycle = b.arrive → u.beat ≠ b.root →
        u.side < b.side → s.outputLost b out = true) ∧
      (∀ y ∈ s.mesh.beats, y.injected = true → y.kind ≠ 2 → y.root ≠ b.root → y.seat = b.seat → y.arrive = b.arrive →
        s.needs y out = true → y.side < b.side → s.outputLost b out = true) ∧
      (s.mesh.uses = [] → s.contenders b.seat out b.arrive b.root = [] → s.outputLost b out = false ∧ s.oust b out = s) ∧
      (∀ u, s.mesh.uses = [u] → u.timed = true → u.seat = b.seat → u.out = out → u.cycle = b.arrive → u.beat ≠ b.root →
        s.mesh.beats.filter (fun y => y.root == u.beat && y.path.contains (b.seat, out)) = [x] →
        s.oust b out = ({ s with mesh := { s.mesh with beats := s.mesh.beats.filter (fun y => y != x), uses := [] } } : State).collide
          x.srcLt b.seat b.arrive 0)) ∧
    (∀ t u, s.mesh.beats.find? (fun y => y.id == id && y.injected && y.kind != 2) = some b →
      b.targets.find? (fun t => s.present t && s.seatOf t == b.seat) = some t → x = { b with destLt := t } →
      (s.ejectEarly x = true → exec (.meshEject id) s = .next s) ∧
      (s.ejectEarly x = false → u = { s.without b [t] with cyc := deliverCycle x % 4096 } →
        (u.partOfLt b.srcLt ≠ u.partOfLt t →
          exec (.meshEject id) s = .next (u.meshRecord (u.seatOf t) (deliverCycle x) 2)) ∧
        (u.partOfLt b.srcLt = u.partOfLt t → u.ejectLoses x = true →
          exec (.meshEject id) s = .next (u.collide b.srcLt (u.seatOf t) (deliverCycle x) 1)) ∧
        (∀ v, u.partOfLt b.srcLt = u.partOfLt t → u.ejectLoses x = false →
          v = { u with mesh := { u.mesh with uses := u.mesh.uses ++ [⟨u.seatOf t, 4, deliverCycle x, b.side, b.root, true⟩] } } →
          (v.alive t = true → b.kind = 1 → exec (.meshEject id) s = .next (v.mergeBeat x)) ∧
          (v.alive t = true → b.kind ≠ 1 → exec (.meshEject id) s =
            .next (v.portWrite t (deliverCycle x) 1 6 b.dstOff b.data (beatPoison b) b.dstTag)) ∧
          (v.alive t = false → exec (.meshEject id) s = .next v)))) ∧
    (∀ k n, s.mergeFor b.destLt b.srcLt (deliverCycle b) = some (k, n) →
      s.mergeBeat b = s.modTile b.destLt (fun t => { t with
        mxe := { t.mxe with
          merges := tput t.mxe.merges (2 ^ 14 * k + n) ⟨b.data, b.poison, signedOf b.dstOff 10⟩ } })) ∧
    (s.mergeFor b.destLt b.srcLt (deliverCycle b) = none →
      s.mergeBeat b = s.setB (MXE_STATUS_LT b.destLt) MXE_STATUS_LT_merge_dropped true) ∧
    (∀ seat k, s.flag MESH_CONFLICT MESH_CONFLICT_valid = true → s.meshRecord seat k 0 = s) ∧
    (∀ seat k n t, s.flag MESH_CONFLICT MESH_CONFLICT_valid = false → s.ltAtSeat seat = some t → t < 256 → n < 4 →
      (s.meshRecord seat k n).getF MESH_CONFLICT MESH_CONFLICT_lt = t ∧
      (s.meshRecord seat k n).flag MESH_CONFLICT MESH_CONFLICT_valid = true ∧
      ∀ a, a ≠ MESH_CONFLICT → (s.meshRecord seat k n).reg a = s.reg a) ∧
    (b.seat < 288 → s.linkErrors b corrected [] false = ((s.incF (MESH_ERRORS_SEAT b.seat) MESH_ERRORS_SEAT_link_corrected
      corrected).incF (MESH_ERRORS_SEAT b.seat) MESH_ERRORS_SEAT_link_uncorrected 0).putBeat b) ∧
    (∀ w k, w < 16 → k < 2 → bitSet (([w].foldl (fun v n => withBit v (n % 16 / 8)) b.poison)) k =
      (bitSet b.poison k || decide (k = w / 8))) ∧
    (∀ r c k h, (s.bypassed (seatAt h.row h.col) = false → s.overDead r c (k + 1) h = h) ∧
      ∀ n, s.bypassed (seatAt h.row h.col) = true → hopOf h.row h.col r c = some n →
        s.overDead r c (k + 1) h = s.overDead r c k { n with out := h.out, cycles := h.cycles + n.cycles }) ∧
    (∀ r c dr dc, (hopOf r c dr dc = none ↔ r = dr ∧ c = dc) ∧
      ∀ h, hopOf r c dr dc = some h → h.cycles = 2 + 2 * seamsBetween r c h.row h.col ∧ absDiff h.row dr + absDiff h.col dc + 1 = absDiff r dr + absDiff c dc ∧
        (c ≠ dc → h.row = r) ∧ (c = dc → h.col = c)) ∧
    (∀ m n, m < 256 → n < 256 → (ltForm m = ltForm n → routeL m n = 22) ∧ routeL m n ≤ 72 ∧ routeL m n = routeL n m ∧
      ∀ i j, i < 18 → j < 18 → seatLatency (18 * ltForm m + i) (18 * ltForm n + j) ≤ routeL m n) ∧
    deliverCycle b = b.injCycle + routeL b.srcLt b.destLt

/-- 07 R226: a service beat waits while another beat uses or a timed beat needs its link or the next input is full, advances otherwise,
and is written at its destination in a cycle no timed access takes there, where its pass returns; one of another partition is discarded
and recorded (R225); R227: a request joins the queue of its tile where it asks for no more than 16 in all and of one tile, a grant gives
the passes that are free and no more, an ended transfer returns the rest; R229-R231: a message with a bad word or an invalid type is
counted and has no effect, the first good copy of a priority message acts and the second does not, and one of each type reaches its
node, or every tile of its partition, with its own. The payloads of the messages are the model's choice (log entry 19). -/
def Obligations.ServiceAndControl : Prop :=
  ∀ (s : State) (id cycle corrected lt c dest n : Nat) (bad : List Nat) (d : Bool) (b : Beat) (m : CnetMsg), s.powered = true →
    (s.mesh.beats.find? (fun x => x.id == id && x.injected && x.kind == 2) = some b →
      (s.present b.destLt = false →
        exec (.serviceBeatAdvance id cycle corrected bad d) s = .next ((s.dropBeat id).passBack b.destLt 1)) ∧
      (s.present b.destLt = true → b.injBell = s.bellCount → cycle < b.arrive →
        exec (.serviceBeatAdvance id cycle corrected bad d) s = .next s) ∧
      (s.present b.destLt = true → (b.injBell = s.bellCount → b.arrive ≤ cycle) →
        (s.hop b b.destLt = none → exec (.serviceBeatAdvance id cycle corrected bad d) s = .next (s.writeService b cycle)) ∧
        (∀ h, s.hop b b.destLt = some h →
          (s.linkBusy b.seat h.out cycle = true ∨ 4 ≤ s.atInput (seatAt h.row h.col) h.side) →
          exec (.serviceBeatAdvance id cycle corrected bad d) s = .next s) ∧
        (∀ (h : Hop) (u v : State), s.hop b b.destLt = some h → s.linkBusy b.seat h.out cycle = false → s.atInput (seatAt h.row h.col) h.side < 4 →
          u = { s with mesh := { s.mesh with uses := s.mesh.uses ++ [⟨b.seat, h.out, cycle, b.side, b.root, false⟩] } } →
          v = u.advance { b with injBell := s.bellCount } h b.targets cycle corrected bad d →
          (d = false → exec (.serviceBeatAdvance id cycle corrected bad d) s = .next v) ∧
          (d = true → exec (.serviceBeatAdvance id cycle corrected bad d) s = .next (v.passBack b.destLt 1))))) ∧
    (∀ v, v = s.engines b.destLt cycle →
      (v.partOfLt b.srcLt ≠ v.partOfLt b.destLt →
        s.writeService b cycle = ((v.dropBeat b.id).meshRecord b.seat cycle 2).passBack b.destLt 1) ∧
      (v.partOfLt b.srcLt = v.partOfLt b.destLt →
        ((∃ u ∈ (v.tile b.destLt).uses, u.cycle = cycle ∧ u.port = 1 ∧ u.slice ∈ slicesOf b.dstOff b.data.length) →
          s.writeService b cycle = v) ∧
        ((∀ u ∈ (v.tile b.destLt).uses, u.cycle = cycle → u.port = 1 → u.slice ∉ slicesOf b.dstOff b.data.length) →
          v.alive b.destLt = true → s.writeService b cycle = (({ v with
            mesh := { v.mesh with beats := v.mesh.beats.filter (fun x => x.id != b.id) }
            mem := tbWrite v.mem b.destLt b.dstOff b.data (beatPoison b) 1 } : State).passBack b.destLt 1)))) ∧
    (lt < 256 → c < 8 → s.present dest = true → (s.chan (8 * lt + c)).posts ≠ [] → 1 ≤ n →
      (s.chan (8 * lt + c)).passes + s.hallAsked (8 * lt + c) + n ≤ 16 → s.hallOnly (8 * lt + c) dest = true →
      ((s.chan (8 * lt + c)).passes = 0 ∨ (s.chan (8 * lt + c)).passTile = dest) →
      exec (.hallReq lt c dest n) s = .next (s.modTile dest (fun t => { t with
        hallQueue := t.hallQueue ++ [(8 * lt + c, n)] }))) ∧
    ((16 < (s.chan (8 * lt + c)).passes + s.hallAsked (8 * lt + c) + n ∨ n = 0 ∨ s.hallOnly (8 * lt + c) dest = false) → exec (.hallReq lt c dest n) s = .next s) ∧
    (∀ g k rest f, lt < 256 → (s.tile lt).hallQueue = (g, k) :: rest → f = s.getF (TB_HALL_LT lt) TB_HALL_LT_free → 0 < k → 0 < f →
      exec (.hallGrant lt) s = .next (((s.setF (TB_HALL_LT lt) TB_HALL_LT_free (f - min k f)).modTile lt (fun t => { t with
        hallQueue := if f < k then (g, k - f) :: rest else rest })).modChan g (fun v => { v with
          passes := v.passes + min k f, passTile := lt }))) ∧
    (lt < 256 → s.getF (TB_HALL_LT lt) TB_HALL_LT_free = 0 → exec (.hallGrant lt) s = .next s) ∧
    (∀ k, lt < 256 → c < 8 → (s.chan (8 * lt + c)).owed = [(k, n)] → exec (.hallPassReturn lt c) s =
      .next ((s.passBack k n).modChan (8 * lt + c) (fun v => { v with owed := [] }))) ∧
    ((s.dropPost lt c).chan (8 * lt + c) = { s.chan (8 * lt + c) with
      posts := (s.chan (8 * lt + c)).posts.drop 1, passes := 0
      owed := if (s.chan (8 * lt + c)).passes = 0 then (s.chan (8 * lt + c)).owed
        else (s.chan (8 * lt + c)).owed ++ [((s.chan (8 * lt + c)).passTile, (s.chan (8 * lt + c)).passes)] }) ∧
    (lt < 256 → (s.passBack lt n).getF (TB_HALL_LT lt) TB_HALL_LT_free = min 16 (s.getF (TB_HALL_LT lt) TB_HALL_LT_free + n) ∧
      s.passBack lt n = { s with regs := (s.passBack lt n).regs } ∧
      ∀ a, a ≠ TB_HALL_LT lt → (s.passBack lt n).reg a = s.reg a) ∧
    (∀ row ∈ ([(fun e => .cnetRegRead m corrected e, 0, State.cnetRead), (fun e => .cnetRegWrite m ⟨corrected, e⟩ n, 1, State.cnetWrite n),
        (fun e => .cnetRegReply m corrected e, 2, State.cnetReply), (fun e => .cnetEvent m corrected e, 5, State.cnetEvent),
        (fun e => .cnetArm m corrected e, 6, State.cnetArm), (fun e => .cnetServicePost m corrected e, 7, State.cnetPost)] :
          List ((Bool → Instr) × Nat × (State → CnetMsg → State))),
      ∀ k u l, l = s.mesh.msgs.erase m →
      u = ((({ s with mesh := { s.mesh with msgs := k } } : State).trace 0 none none none).incF CNET_ERRORS
        CNET_ERRORS_word_corrected corrected) →
      (cnetVoid m = false → m.typ = row.2.1 →
        (m.prio = false ∧ m.second = false ∧ k = l ∨ m.prio = true ∧ m.second = false ∧ k = l.erase { m with second := true } ∨
          m.second = true ∧ m ∈ s.mesh.msgs ∧ k = l) →
        exec (row.1 false) s = .next (forEach (u.cnetNodes m) u (fun v x => row.2.2 v { m with dest := x }))) ∧
      (cnetVoid m = false → m.second = true → m ∉ s.mesh.msgs → k = l → exec (row.1 false) s = .next u) ∧
      ((cnetVoid m = true ∨ d = true) →
        ((m.prio = false ∨ m.second = true) ∧ k = l ∨ m.prio = true ∧ m.second = false ∧
          k = if { m with second := true } ∈ l then l else { m with second := true } :: l) →
        exec (row.1 d) s = .next (u.incF CNET_ERRORS CNET_ERRORS_word_dropped (1 + m.words.length)))) ∧
    ((10 < m.typ ∨ ((m.typ = 8 ∨ m.typ = 9) ∧ m.prio = false) ∨ 3 < m.words.length ∨
      (m.bcast = false ∧ m.dest < 256 ∧ m.seat = none)) → cnetVoid m = true) ∧
    ((m.bcast = true → s.cnetNodes m = s.tilesOf (m.payload % 4)) ∧
      (m.bcast = false → m.dest < 256 → s.cnetNodes m = if m.seat = some (s.seatOf m.dest) then [m.dest] else []) ∧
      (m.bcast = false → 256 ≤ m.dest → s.cnetNodes m = [m.dest])) ∧
    ((nodeOfReg (cnetReg m) = m.dest → s.cnetWrite n m = s.accessWrite (cnetReg m) 4 (m.words.headD 0 % 2 ^ 32) n) ∧
      (nodeOfReg (cnetReg m) ≠ m.dest → s.cnetWrite n m = s)) ∧
    (s.alive m.dest = true → s.cnetArm m = s.modTile m.dest (fun t => { t with armAck := true })) ∧
    (s.alive m.dest = true → s.clock.resetBegun = false → ∃ x : ServicePost,
      s.cnetPost m = s.modChan (8 * m.dest + m.payload % 8) (fun v => { v with posts := v.posts ++ [x] }) ∧
      x.src = m.words.getD 0 0 % 2 ^ 48 ∧ x.dst = m.words.getD 1 0 % 2 ^ 48 ∧ x.bytes = m.payload % 2 ^ 32 / 8 + 1)

/-- 12 R340: each op of a port program does its own work at its frame's cycle, and a frame of another op, of a quiesced port or of
another bell does nothing; R328, R337: a frame is sent on a port that is UP and within the rate of its width; R329: the receive
outcomes in order; a frame of an earlier bell is not the one expected; an absent frame is consumed with every span poisoned and counted;
R342: SEND, RECV and RELAY carry a payload whole; R343: a reduced element is the incoming one plus the term modulo 2^32, poisoned
where either is; R344: a plane of VOTE_ADD is the bit-serial sum, and VOTE_SIGN gives the majority, with the tie plane's bit at a
tie. -/
def Obligations.PortPrograms : Prop :=
  ∀ (s : State) (port idx i : Nat) (f : Frame) (w : PortWork), s.powered = true →
    (∀ row ∈ ([(.portSend port idx i, poSEND, State.doSend), (.portRecv port idx i, poRECV, State.doRecv),
        (.portReduce port idx i, poREDUCE, State.doReduce), (.portRelay port idx i, poRELAY, State.doRelay),
        (.portVoteSend port idx i, poVSEND, State.doVoteSend), (.portVoteAdd port idx i, poVADD, State.doVoteAdd),
        (.portVoteSign port idx i, poVSIGN, State.doVoteSign)] : List (Instr × Nat × (State → PortWork → State))),
      (s.portWork port idx i row.2.1 = some w → exec row.1 s = .next (row.2.2 { s with cyc := w.t } w)) ∧
      (s.portWork port idx i row.2.1 = none → exec row.1 s = .next s)) ∧
    (∀ op, s.portWork port idx i op = some w → w.port = port ∧ w.i = i ∧ i < peFrames w.desc ∧
      w.t = dStartCycle w.desc + i * peGap w.desc ∧ (s.port port).quiesced = false ∧ s.working (s.partOfPort port) = true ∧
      dStartBell w.desc = (s.crsOf (s.partOfPort port)).lessonBell) ∧
    (∀ spans, port < 6 → s.portUp port = true → f.kind = fkTIMED → s.frameHeader f = true →
      exec (.frameReceive port f false spans) s = .next (s.modPort port (fun t => { t with
        rx := t.rx ++ [{ f with
          poison := if spans ≠ 0 then Nat.lor f.poison (spans % 2 ^ 60) else if f.crc ≠ crc32 (frameBytes f) then 2 ^ 60 - 1
            else f.poison }] }))) ∧
    (∀ spans, port < 6 → s.portUp port = true → f.kind = fkTIMED → exec (.frameReceive port f true spans) s = .next s) ∧
    (∀ spans, s.portUp port = false → exec (.frameReceive port f false spans) s = .next s) ∧
    (∀ spans, port < 6 → s.portUp port = true → f.kind ≠ fkTIMED → exec (.frameReceive port f true spans) s =
      .next (s.incF (PORT_ERRORS port) PORT_ERRORS_frames_absent 1)) ∧
    (port < 6 → s.portUp port = true → f.kind ≠ fkTIMED → s.frameHeader f = true → f.crc = crc32 (frameBytes f) → f.poison = 0 →
      (s.port port).svcQueue.length < 16 → exec (.frameReceive port f false 0) s =
        .next (s.modPort port (fun t => { t with svcQueue := t.svcQueue ++ [f] }))) ∧
    (∀ spans, port < 6 → s.portUp port = true → f.kind ≠ fkTIMED → f.kind ≠ fkREPLY → s.frameHeader f = true → spans ≠ 0 →
      exec (.frameReceive port f false spans) s = .next ((s.returnCredit port).svcAnswer f stUNCORRECTABLE [])) ∧
    (∀ stream seq cycle, (s.port port).rx.find? (s.expected port stream seq cycle) = some f →
      (s.consume port stream seq cycle).1 = (f.payload, f.poison, some f.tieId) ∧
      ((s.consume port stream seq cycle).2.port port).rx = dropThrough stream f (s.port port).rx ∧
      ((s.consume port stream seq cycle).2.port port).lastTaken = some (f.bell * 4096 + f.sendCycle)) ∧
    (∀ stream seq cycle, (s.port port).rx.find? (s.expected port stream seq cycle) = none →
      (s.consume port stream seq cycle).1.2 = (2 ^ 60 - 1, none) ∧
      (s.consume port stream seq cycle).2 = (s.drawn 3840).incF (PORT_ERRORS port) PORT_ERRORS_frames_absent 1) ∧
    (∀ stream seq cycle due, due = f.bell * 4096 + f.sendCycle + s.getF (PORT_LATENCY port) PORT_LATENCY_d_rec + 80 →
      s.expected port stream seq cycle f = true → f.src = s.getF (PORT_STATE port) PORT_STATE_neighbour ∧ f.stream = stream ∧
        f.seq = seq ∧ due ≤ s.bellCount * 4096 + cycle ∧ s.bellCount * 4096 + cycle < due + 4096) ∧
    (∀ cycle stream seq last b p t, (port < 6 → s.portUp port = false) → s.portSend port cycle stream seq last b p t = s) ∧
    (∀ cycle stream seq last b p t, s.flag (PORT_STATE port) PORT_STATE_half_width = true →
      (∃ k, (s.port port).lastSent = some k ∧ s.bellCount * 4096 + cycle < k + 14) → s.portSend port cycle stream seq last b p t = s) ∧
    (∀ cycle stream seq last b p t, port < 6 → s.portUp port = true →
      (s.flag (PORT_STATE port) PORT_STATE_half_width = true → (s.port port).lastSent = none) →
      s.portSend port cycle stream seq last b p t = ((s.modPort port (fun z => { z with
        lastSent := some (s.bellCount * 4096 + cycle) })).send (.frame port (sealFrame { f with
          kind := fkTIMED, flags := boolNat last, src := s.deviceId, dst := s.getF (PORT_STATE port) PORT_STATE_neighbour
          stream := stream, bell := s.bellCount, seq := seq, sendCycle := cycle, tieId := t, poison := p, gaddr := 0
          bytes := 3839, status := 0, payload := bytesFrom b 0 3840, crc := 0, rsvHdr := 0, rsvTail := 0 }))).perfAdd
            (s.partOfPort port) 5 1) ∧
    (∀ b p u, s.portSource w 3840 = ((b, p), u) → s.doSend w = u.portSend w.port w.t (peStream w.desc) w.i w.last b (spansOf p) 0 ∧
      s.doVoteSend w = u.portSend w.port w.t (peStream w.desc) w.i w.last b (spansOf p) u.deviceId) ∧
    (∀ b p t u k v, s.consume w.port (peStream w.desc) w.i w.t = ((b, p, t), u) → u.tieOf t = (k, v) →
      s.doRecv w = v.portDest w b (spanBytes p 3840) [] k ∧ (∀ x, t = some x → k = x ∧ v = u) ∧
      s.doRelay w = u.portSend (peOutPort w.desc) (w.t + 8) (peOutStream w.desc) w.i w.last b p (t.getD 0)) ∧
    (∀ b p t u tm v r, s.consume w.port (peStream w.desc) w.i w.t = ((b, p, t), u) → u.reduceLocal w = (tm, v) →
      peOutPort w.desc = 7 → peDst w.desc = 2 → peDstFmt w.desc = fINT32 → r = s.doReduce w →
      r = (v.portDest w ((List.range 960).flatMap (fun e =>
          leBytes 4 (codeOf (addWrap (elemAt fINT32 b e) (tm.terms.getD e (0, false)).1 32) 32)))
        ((List.range 960).flatMap (fun e => List.replicate 4 (bitSet p (e / 16) || (tm.terms.getD e (0, false)).2))) [] 0).portFlags
          w.port tm.flags) ∧
    (∀ a b k, addWrap a b 32 = k → (k - (a + b)) % 2 ^ 32 = 0 ∧ -(2 ^ 31) ≤ k ∧ k < 2 ^ 31) ∧
    (∀ planes n e c, c = (((planes.drop 1).zip (List.range planes.length)).map (fun x => bitAt x.1 e * 2 ^ x.2)).sum →
      (n < 2 * c → signBit planes n e = 1) ∧ (2 * c < n → signBit planes n e = 0) ∧
      (2 * c = n → signBit planes n e = bitAt (planes.headD 0) e))

/-- 12 R330: the oldest service frame of a port is carried out and answered where it is for this device, and goes on where it is
not; its buffer is returned either way; a reply ends an access or sends its next part, and one without reply within 10 ms ends
REMOTE_TIMEOUT; an access whose window is closed waits for it; R331: a good symbol of a type has that type's effect, and a bad one is
discarded and counted; R333, R337: TRAIN and PROBE are heard while the port trains, any other symbol while it is UP, and none else;
R334: the PROBEs of a measurement complete their round trips in order. The places of serial
number, port and width within b32 of TRAIN are the model's choice (log entry 17). -/
def Obligations.ServiceFramesAndSymbols : Prop :=
  ∀ (s : State) (port arrival far depart : Nat) (f : Frame) (l : List Frame) (y : Sym) (bad : Bool) (r : Remote), s.powered = true →
    (∀ row ∈ ([(.svcWrite port, fkWRITE, State.doSvcWrite, id), (.svcRead port, fkREAD, State.doSvcRead, id),
        (.svcReply port, fkREPLY, State.doSvcReply, State.release)] :
          List (Instr × Nat × (State → Frame → State) × (State → State))),
      (port < 6 → (s.port port).svcQueue = f :: l → f.kind = row.2.1 → ∀ u,
        u = (s.modPort port (fun t => { t with svcQueue := l })).sendSym port (mkSym 6 1 s.deviceId 0 0) →
        (f.dst = s.deviceId → exec row.1 s = .next (row.2.2.2 (row.2.2.1 u f))) ∧
        (f.dst ≠ s.deviceId → exec row.1 s = .next (row.2.2.2 (u.svcRoute f)))) ∧
      ((s.port port).svcQueue = [] → exec row.1 s = .next (row.2.2.2 s)) ∧
      ((s.port port).svcQueue = f :: l → f.kind ≠ row.2.1 → exec row.1 s = .next (row.2.2.2 s))) ∧
    (∀ d st n u, d = f.payload.take (f.bytes + 1) →
      (s.rangeOpen (gaAddr f.gaddr) d.length = true → s.localWrite (gaAddr f.gaddr) d = ((st, n), u) →
        s.doSvcWrite f = u.svcAnswer f st []) ∧
      (s.rangeOpen (gaAddr f.gaddr) d.length = false →
        s.doSvcWrite f = s.svcHold (.peer f) true (gaAddr f.gaddr) d.length d)) ∧
    (∀ st d u, s.rangeOpen (gaAddr f.gaddr) (f.bytes + 1) = true →
      s.localRead (2 ^ 16 + f.src) (gaAddr f.gaddr) (f.bytes + 1) = ((st, d), u) → s.doSvcRead f = u.svcAnswer f st d) ∧
    (s.rangeOpen (gaAddr f.gaddr) (f.bytes + 1) = false →
      s.doSvcRead f = s.svcHold (.peer f) false (gaAddr f.gaddr) (f.bytes + 1) []) ∧
    (∀ x, s.rangeOpen x.addr x.len = false → s.svcServe x = { s with svcWait := s.svcWait ++ [x] }) ∧
    (∀ x st d u, s.rangeOpen x.addr x.len = true → x.write = false → s.localRead x.requester x.addr x.len = ((st, d), u) →
      s.svcServe x = u.svcGot x st d) ∧
    (∀ x st n u, s.rangeOpen x.addr x.len = true → x.write = true → s.localWrite x.addr x.data = ((st, n), u) →
      s.svcServe x = u.svcPut x st n) ∧
    (s.remotes.find? (fun x => x.tag == f.stream) = some r → r.write = true → f.status = 0 → r.done + 3840 < r.bytes →
      s.doSvcReply f = ({ s with remotes := s.remotes.erase r } : State).remoteGo { r with done := r.done + 3840 }) ∧
    (s.remotes.find? (fun x => x.tag == f.stream) = some r → r.write = false → f.status = 0 → r.bytes ≤ r.done + 3840 →
      s.doSvcReply f = ({ s with remotes := s.remotes.erase r } : State).remoteDone
        { r with done := r.bytes, data := r.data ++ f.payload.take (f.bytes + 1) } 0) ∧
    (s.remotes.find? (fun x => x.tag == f.stream) = some r → r.write = true → f.status ≠ 0 →
      s.doSvcReply f = ({ s with remotes := s.remotes.erase r } : State).remoteDone r f.status) ∧
    (s.remotes.find? (fun x => x.tag == r.tag) = some r → exec (.remoteTimeout r.tag) s =
      .next (({ s with remotes := s.remotes.erase r } : State).remoteDone { r with data := [] } stREMOTE_TIMEOUT).release) ∧
    (∀ t st, r.owner = .mem t →
      s.remoteDone r st = s.memReply t (if r.write then .memAck t st r.gaddr else .memData t st r.gaddr r.data)) ∧
    (∀ t st, r.owner = .memCut t → s.remoteDone r st = s.memReply t (.memAck t (if st = 0 then stUNCORRECTABLE else st) r.gaddr)) ∧
    (port < 6 → ∀ row ∈ ([(.symCredit port y bad, 6, fun u => u.symCredit port y),
        (.symLaneSwap port y bad, 7, fun u => u.modPort port (fun t => { t with txSwaps := t.txSwaps ++ [(y.a8, y.b32)] })),
        (.symTrain port y bad, 8, fun u => u.symTrain port y),
        (.symProbe port y bad ⟨arrival, far, depart⟩, 9, fun u => u.symProbe port y arrival far depart),
        (.symIdle port y bad, 1, id)] : List (Instr × Nat × (State → State))),
      (s.symHeard port row.2.1 = true → y.typ = row.2.1 → y.crc = crc16 (symBytes y) → bad = false →
        exec row.1 s = .next (row.2.2 s)) ∧
      (s.symHeard port row.2.1 = true → (y.typ ≠ row.2.1 ∨ y.crc ≠ crc16 (symBytes y) ∨ bad = true) →
        exec row.1 s = .next (s.incF (PORT_ERRORS port) PORT_ERRORS_symbols_dropped 1)) ∧
      (s.symHeard port row.2.1 = false → exec row.1 s = .next s)) ∧
    (∀ k, (k = 8 ∨ k = 9 → (s.symHeard port k = true ↔ s.portSt port = 4 ∨ s.portSt port = 5 ∨ s.portSt port = 8)) ∧
      (k ≠ 8 → k ≠ 9 → (s.symHeard port k = true ↔ s.portSt port = 7))) ∧
    ((s.port port).svcOut = [] → ((s.symCredit port y).port port).credits = min 16 ((s.port port).credits + y.a8)) ∧
    ((s.portSt port = 4 ∨ s.portSt port = 8 ∧ (s.port port).again = 1) → s.symTrain port y = s.modPort port (fun t => { t with
      learnt := some (y.bell + 2 ^ 48 * (y.b32 % 2 ^ 16), y.b32 / 2 ^ 24 % 256, y.b32 / 2 ^ 16 % 256 == 1) })) ∧
    ((s.portSt port = 5 ∨ s.portSt port = 8 ∧ (s.port port).again = 2) → (s.port port).probes < 1024 →
      (y.a8 = (s.port port).probes % 256 → ∀ u, u = s.modPort port (fun t => { t with
          probes := t.probes + 1, trips := t.trips + ((arrival : Int) - y.b32 + far) }) →
        ((s.port port).probes < 1023 → s.symProbe port y arrival far depart =
          u.sendSym port (mkSym 9 (((s.port port).probes + 1) % 256) u.deviceId 0 (depart % 2 ^ 32))) ∧
        ((s.port port).probes = 1023 → s.symProbe port y arrival far depart = u)) ∧
      (y.a8 ≠ (s.port port).probes % 256 → s.symProbe port y arrival far depart = s)) ∧
    ((s.port port).probes = 1024 → s.symProbe port y arrival far depart = s)

/-- 12 R326: a lane that is lost, or whose corrected symbols exceed the threshold, is named with the boundary 256 codewords on while a
spare is left, and at it the spare takes over; with none left the port retrains; R333: DETECT, LANES,
ALIGN, IDENT and MEASURE follow one another, a state past its duration leads to DOWN, and LANES without a good half to DOWN with
reason LANES; IDENT sends TRAIN, MEASURE makes 1,024 round trips; R337: an UP port retrains through the same steps, and returns to UP
where the new latency leaves the elastic buffer room, and otherwise goes DOWN with LINK_SLOW; R335, R336: a link map that passes is applied, and one that does not changes nothing but to complete. -/
def Obligations.LinkTraining : Prop :=
  ∀ (s : State) (port lane codeword corrected fibres lanes round depart ring tag : Nat) (lost : Bool) (c : Cmd), s.powered = true →
      port < 6 →
    (∀ u, s.portUp port = true → (lost = true ∨ s.getF (PORT_LANES port) PORT_LANES_swap_threshold < corrected) →
      u = s.carryLane port lane →
      ((u.port port).rxSwaps.length < u.getF (PORT_LANES port) PORT_LANES_spares_left →
        exec (.portLaneFault port lane ⟨codeword, corrected, lost⟩) s =
          .next ((u.sendSym port (mkSym 7 lane u.deviceId 0 ((codeword + 256) % 2 ^ 32))).modPort port (fun t => { t with
            rxSwaps := t.rxSwaps ++ [(lane, (codeword + 256) % 2 ^ 32)] }))) ∧
      (u.getF (PORT_LANES port) PORT_LANES_spares_left ≤ (u.port port).rxSwaps.length →
        exec (.portLaneFault port lane ⟨codeword, corrected, lost⟩) s = .next (u.retrain port))) ∧
    (corrected ≤ s.getF (PORT_LANES port) PORT_LANES_swap_threshold →
      exec (.portLaneFault port lane ⟨codeword, corrected, false⟩) s = .next s) ∧
    (s.portUp port = false → exec (.portLaneFault port lane ⟨codeword, corrected, lost⟩) s = .next s) ∧
    (∀ w x l n, (s.port port).rxSwaps = (w, x) :: l → s.getF (PORT_LANES port) PORT_LANES_spares_left = n + 1 →
      exec (.portLaneTakeover port) s = .next ((((s.modPort port (fun t => { t with rxSwaps := l })).incF (PORT_LANES port)
        PORT_LANES_swaps 1).setF (PORT_LANES port) PORT_LANES_spares_left n).raise evLaneSwap 255 3 port w n 0 0)) ∧
    (∀ w x l n, (s.port port).rxSwaps = [] → (s.port port).txSwaps = (w, x) :: l → s.getF (PORT_LANES port) PORT_LANES_spares_left = n →
      exec (.portLaneTakeover port) s = .next ((((s.modPort port (fun t => { t with txSwaps := l })).incF (PORT_LANES port)
        PORT_LANES_swaps 1).setF (PORT_LANES port) PORT_LANES_spares_left n).raise evLaneSwap 255 3 port w n 0 0)) ∧
    ((s.port port).rxSwaps = [] → (s.port port).txSwaps = [] → exec (.portLaneTakeover port) s = .next s) ∧
    (s.portSt port = 1 → 16 ≤ fibres → exec (.portDetectLight port fibres) s = .next (s.portTo port 2 0)) ∧
    (fibres < 16 → exec (.portDetectLight port fibres) s = .next s) ∧
    (s.portSt port = 2 → 32 ≤ lanes → lanes < 64 → fibres = 2 ^ 32 - 1 →
      exec (.portTrainStateDone port lanes fibres round depart) s = .next (
        (((s.setF (PORT_LANES port) PORT_LANES_lanes_good lanes).setF (PORT_LANES port) PORT_LANES_spares_left
          (min 2 (lanes - 32))).setB (PORT_STATE port) PORT_STATE_half_width false).portTo port 3 0)) ∧
    (s.portSt port = 2 → widthOf lanes fibres = some true →
      exec (.portTrainStateDone port lanes fibres round depart) s = .next (
        (((s.setF (PORT_LANES port) PORT_LANES_lanes_good lanes).setF (PORT_LANES port) PORT_LANES_spares_left 0).setB
          (PORT_STATE port) PORT_STATE_half_width true).portTo port 3 0)) ∧
    (s.portSt port = 2 → widthOf lanes fibres = none →
      exec (.portTrainStateDone port lanes fibres round depart) s = .next (s.portTo port 9 1)) ∧
    (∀ u, s.portSt port = 3 → u = s.portTo port 4 0 → exec (.portTrainStateDone port lanes fibres round depart) s =
      .next ((u.modPort port (fun t => { t with learnt := none })).sendSym port (mkSym 8 0 u.deviceId u.serial
        (trainWord port (u.flag (PORT_STATE port) PORT_STATE_half_width) u.serial)))) ∧
    (∀ u, s.portSt port = 4 → (s.port port).learnt.isSome = true →
      u = (s.portTo port 5 0).modPort port (fun t => { t with probes := 0, trips := 0 }) →
      exec (.portTrainStateDone port lanes fibres round depart) s =
        .next (u.sendSym port (mkSym 9 0 u.deviceId 0 (depart % 2 ^ 32)))) ∧
    (s.portSt port = 5 → (s.port port).probes = 1024 → exec (.portTrainStateDone port lanes fibres round depart) s =
      .next (((s.setF (PORT_LATENCY port) PORT_LATENCY_d_meas (ceilDiv round 8)).setF (PORT_SYMDELAY port) PORT_SYMDELAY_delay
        ((s.port port).trips.toNat / 2048)).portTo port 6 0)) ∧
    (s.portSt port = 8 → (s.port port).again = 0 → exec (.portTrainStateDone port lanes fibres round depart) s =
      .next ((s.modPort port (fun t => { t with again := 1 })).identBegins port)) ∧
    (s.portSt port = 8 → (s.port port).again = 1 → (s.port port).learnt.isSome = true →
      exec (.portTrainStateDone port lanes fibres round depart) s =
        .next ((s.modPort port (fun t => { t with again := 2 })).measureBegins port depart)) ∧
    (s.portSt port ∈ [2, 3, 4, 5, 8] → exec (.portTrainTimeout port) s = .next (s.portTo port 9 2)) ∧
    (s.portSt port ∈ [0, 1, 6, 7, 9] → exec (.portTrainTimeout port) s = .next s) ∧
    (s.portUp port = true → s.flag CLK_REF CLK_REF_ref_sel = false → exec (.portRetrain port) s =
      .next ((s.modPort port (fun t => { t with again := 0, probes := 0, trips := 0, rxSwaps := [], txSwaps := [] })).portTo port 8 0)) ∧
    (s.portUp port = true → s.flag CLK_REF CLK_REF_ref_sel = true → s.getF CLK_REF CLK_REF_upstream_port = port →
      Gives (.portRetrain port) s (fun t => t.portSt port = 8 ∧ t.flag CLK_REF CLK_REF_holdover = true ∧ t.crs = s.crs ∧
        t.mem = s.mem)) ∧
    (s.portSt port = 8 → (s.port port).again = 2 → (s.port port).probes = 1024 → 32 ≤ lanes → lanes < 64 → fibres = 2 ^ 32 - 1 → ∀ u,
      u = (((((s.setF (PORT_LANES port) PORT_LANES_lanes_good lanes).setF (PORT_LANES port) PORT_LANES_spares_left
          (min 2 (lanes - 32))).setB (PORT_STATE port) PORT_STATE_half_width false).setF (PORT_LATENCY port) PORT_LATENCY_d_meas
          (ceilDiv round 8)).setF (PORT_SYMDELAY port) PORT_SYMDELAY_delay ((s.port port).trips.toNat / 2048)) →
      (ceilDiv round 8 + 32 ≤ u.getF (PORT_LATENCY port) PORT_LATENCY_d_rec →
        exec (.portRetrainDone port lanes fibres round 0) s =
          .next (svcDrain port (u.portTo port 7 0) ((u.portTo port 7 0).port port).svcOut)) ∧
      (u.getF (PORT_LATENCY port) PORT_LATENCY_d_rec < ceilDiv round 8 + 32 →
        exec (.portRetrainDone port lanes fibres round 0) s = .next (u.portTo port 9 4))) ∧
    (∀ cycle, (cycle ≠ 0 ∨ s.portSt port ≠ 8 ∨ (s.port port).again ≠ 2 ∨ (s.port port).probes ≠ 1024) →
      exec (.portRetrainDone port lanes fibres round cycle) s = .next s) ∧
    (∀ m u, Accepted s ring tag opLINKMAP_LOAD c → s.readObject c.pkt.p0 128 = ((m, 0), u) → u.linkmapFails m = none →
      exec (.cmdLinkmapLoad ring tag) s = .next ((u.linkApply m).ok c 0)) ∧
    (∀ m u e, Accepted s ring tag opLINKMAP_LOAD c → s.readObject c.pkt.p0 128 = ((m, 0), u) → u.linkmapFails m = some e →
      exec (.cmdLinkmapLoad ring tag) s = .next (u.fail c e)) ∧
    (s.flag BELL_SYNC BELL_SYNC_joined = true → ∀ m, s.linkmapFails m = some stDEVICE_STATE) ∧
    (s.flag BELL_SYNC BELL_SYNC_joined = false → ∀ m, lmFormat m = false → s.linkmapFails m = some stLINKMAP_FORMAT) ∧
    (∀ m, leAt m 6 2 < 65536 ∧ ((s.linkApply m).map =
      { loaded := true, device := leAt m 6 2, nx := lmDim m 0, ny := lmDim m 1, nz := lmDim m 2, timekeeper := leAt m 0x0C 2,
        backup := leAt m 0x0E 2, horizon := leAt m 0x70 2 }) ∧
      (∀ p, p < 6 → ((s.linkApply m).port p).enabled = (lmEnabled m p && decide (lmDim m (p / 2) ≠ 1))) ∧ (s.linkApply m).crs = s.crs ∧ (s.linkApply m).mem = s.mem) ∧
    (∀ st n, st < 16 → n < 16 → st ≠ s.portSt port → (s.portTo port st n).portSt port = st ∧
      (s.portTo port st n).getF (PORT_STATE port) PORT_STATE_down_reason = n)

/-- 13 R356, R357, R360: a flit acts on a link that is UP, where its CRC is good and its class and type match a row; of COMMAND and
BULK one that comes in sequence, for which a buffer was granted, is acknowledged, and its message is carried out with its last flit;
any other changes nothing behind its header. R361: an acknowledgement covers every flit up to it. R363: a DOORBELL or REG_WRITE
waits for every MEM_WRITE before it. R364: a doorbell loads the tail of an enabled ring of its partition that has room, and is
counted otherwise. R365: register and memory accesses on this device are answered, those for other devices go out over the fabric,
poisoned data end a write before their flit, and the data of a HOST_READ reach the command that waits. When a flit's buffers are
returned, and what a reply's header repeats, are log entry 45. -/
def Obligations.HostFlits : Prop :=
  ∀ (s : State) (x : RxFlit) (part ring tail g width v now n tag : Nat) (d : List Byte) (bad : Bool), s.powered = true →
    (∀ row ∈ ([(.mxlDoorbell x.flit.toFlitHead x.flit.payload x.check part, ftDOORBELL, fun u l => u.issue (.doorbell part (leAt (msgBytes l) 0 1) (leAt (msgBytes l) 4 4))),
        (.mxlRegRead x.flit.toFlitHead x.flit.payload x.check, ftREG_READ, fun u l => u.issue (.regRead (reqTag l) (reqAddr l) (reqLen l))),
        (.mxlRegWrite x.flit.toFlitHead x.flit.payload x.check now, ftREG_WRITE, fun u l => u.issue (.regWrite (reqTag l) (reqAddr l) (reqLen l) (leVal (cleanData l)) now)),
        (.mxlMemRead x.flit.toFlitHead x.flit.payload x.check, ftMEM_READ, fun u l => u.issue (.memRead (reqTag l) (reqAddr l) (min 4096 (reqLen l)))),
        (.mxlMemWrite x.flit.toFlitHead x.flit.payload x.flit.crc x.corrected, ftMEM_WRITE, fun u l => u.issue (.memWrite (reqTag l) (reqAddr l) (cleanData l) (hasPoison l))),
        (.mxlHostData x.flit.toFlitHead x.flit.payload x.flit.crc x.corrected, ftHOST_DATA, fun u l => u.takeHostData l)] : List (Instr × Nat × (State → List Flit → State))),
      (s.mxlUp = false → exec row.1 s = .next s) ∧
      (s.mxlUp = true → x.flit.crc ≠ crc32 (flitBytes x.flit) → exec row.1 s = .next (s.flitFails x.flit)) ∧
      (∀ u, s.mxlUp = true → x.flit.crc = crc32 (flitBytes x.flit) → u = s.takeHeader x → u.mxlUp = false →
        exec row.1 s = .next u) ∧
      (∀ u, s.mxlUp = true → x.flit.crc = crc32 (flitBytes x.flit) → u = s.takeHeader x → u.mxlUp = true →
        (u.flitKnown x.flit = false → exec row.1 s = .next (u.flitUnknown x.flit)) ∧
        (u.flitKnown x.flit = true →
          (x.flit.typ ≠ row.2.1 ∨ x.flit.seq ≠ (u.mxl.rxSeq + 1) % 4096 ∨ (x.flit.cls ≠ fcBULK ∧ u.mxl.cmdGrant = 0) ∨
            (x.flit.cls = fcBULK ∧ u.mxl.bulkGrant = 0) → exec row.1 s = .next u) ∧
          (x.flit.typ = row.2.1 → x.flit.seq = (u.mxl.rxSeq + 1) % 4096 →
            (∀ l, x.flit.cls ≠ fcBULK → u.mxl.cmdGrant ≠ 0 → l = (if bitSet x.flit.flags 0 then [] else u.mxl.rxCmd) ++ [x.flit] →
              (bitSet x.flit.flags 1 = false → exec row.1 s = .next (({ u with mxl := { u.mxl with
                rxSeq := x.flit.seq, discarding := false, rxCmd := l, cmdGrant := u.mxl.cmdGrant - 1 } } : State).sendIdle false 0 0)) ∧
              (bitSet x.flit.flags 1 = true → exec row.1 s = .next (row.2.2 (({ u with mxl := { u.mxl with
                rxSeq := x.flit.seq, discarding := false, rxCmd := [], cmdGrant := u.mxl.cmdGrant - 1 } } : State).sendIdle false
                l.length 0) l))) ∧
            (∀ l, x.flit.cls = fcBULK → u.mxl.bulkGrant ≠ 0 → l = (if bitSet x.flit.flags 0 then [] else u.mxl.rxBulk) ++ [x.flit] →
              (bitSet x.flit.flags 1 = false → exec row.1 s = .next (({ u with mxl := { u.mxl with
                rxSeq := x.flit.seq, discarding := false, rxBulk := l, bulkGrant := u.mxl.bulkGrant - 1 } } : State).sendIdle false 0 0)) ∧
              (bitSet x.flit.flags 1 = true → exec row.1 s = .next (row.2.2 (({ u with mxl := { u.mxl with
                rxSeq := x.flit.seq, discarding := false, rxBulk := [], bulkGrant := u.mxl.bulkGrant - 1 } } : State).sendIdle false
                0 l.length) l))))))) ∧
    (∀ left, left = ackedList x.flit.ack s.mxl.replay → x.flit.nak = false → x.corrected = false →
      s.takeHeader x = ({ s with
        mxl := { s.mxl with
          replay := left, acked := x.flit.ack, cmdCredits := s.mxl.cmdCredits + x.flit.cmdCredits
          bulkCredits := s.mxl.bulkCredits + x.flit.bulkCredits
          sameReplays := if left.length < s.mxl.replay.length then 0 else s.mxl.sameReplays } } : State).mxlFlush) ∧
    (∀ (t : TxFlit) a b, (∀ y ∈ a, y.flit.seq ≠ t.flit.seq) → ackedList t.flit.seq (a ++ t :: b) = b) ∧
    (∀ k a, (∀ y ∈ a, y.flit.seq ≠ k) → ackedList k a = a) ∧
    (∀ q u, (q, u) ∈ ([(.doorbell part ring tail, s.doorbell part ring tail), (.regRead tag g width, s.mxlRegRead tag g width),
        (.regWrite tag g width v now, s.mxlRegWrite tag g width v now), (.memRead tag g n, s.mxlMemRead tag g n),
        (.memWrite tag g d bad, s.mxlMemWrite tag g d bad)] : List (HostReq × State)) →
      (s.waitsOf q = [] → s.mxl.heldReqs = [] → s.issue q = u) ∧
      (s.waitsOf q ≠ [] → s.issue q = { s with
        mxl := { s.mxl with heldReqs := s.mxl.heldReqs ++ [{ req := reqHeld q, waits := s.waitsOf q }] } })) ∧
    (∀ o ∈ s.bulkOpen, o.write = true →
      o.tag ∈ s.waitsOf (.doorbell part ring tail) ∧ o.tag ∈ s.waitsOf (.regWrite tag g width v now)) ∧
    (s.ringOn ring = true → s.ringPart ring = part → ringUsed (s.reg (CMD_RING_HEAD ring)).toNat (tail % 2 ^ 32) ≤ 2 ^ s.ringSize ring →
      s.doorbell part ring tail = s.setReg (CMD_RING_TAIL ring) (BitVec.ofNat 32 tail)) ∧
    ((s.ringOn ring = false ∨ s.ringPart ring ≠ part ∨
        2 ^ s.ringSize ring < ringUsed (s.reg (CMD_RING_HEAD ring)).toNat (tail % 2 ^ 32)) →
      s.doorbell part ring tail = s.incF MXL_ERRORS MXL_ERRORS_db_dropped 1) ∧
    (s.gaLocal g = true → isRegister (gaAddr g) = true → ∀ y u, s.accessRead 0 (gaAddr g) width = (y, u) →
      s.mxlRegRead tag g width = u.mxlSend (.regData tag 0 g (leBytes width y)) ∧
      s.mxlRegWrite tag g width v now = s.accessWrite (gaAddr g) width v now) ∧
    (s.gaLocal g = true → isRegister (gaAddr g) = false →
      s.mxlRegRead tag g width = s.mxlSend (.regData tag stADDR_UNMAPPED g (leBytes width 0)) ∧
      s.mxlRegWrite tag g width v now = s) ∧
    (∀ e, s.gaLocal g = false → s.remoteRefuse g = some e →
      s.mxlRegRead tag g width = s.mxlSend (.regData tag e g (leBytes width 0)) ∧ s.mxlRegWrite tag g width v now = s ∧
      s.mxlMemRead tag g n = s.memReply tag (.memData tag e g []) ∧ s.mxlMemWrite tag g d bad = s.memReply tag (.memAck tag e g)) ∧
    (s.gaLocal g = false → s.remoteRefuse g = none →
      s.mxlRegRead tag g width = s.remoteGo ⟨0, .reg tag, false, g, width, 0, []⟩ ∧
      s.mxlRegWrite tag g width v now = s.remoteGo ⟨0, .reg tag, true, g, width, 0, leBytes width v⟩ ∧
      s.mxlMemRead tag g n = s.remoteGo ⟨0, .mem tag, false, g, n, 0, []⟩ ∧
      (d ≠ [] → s.mxlMemWrite tag g d false = s.remoteGo ⟨0, .mem tag, true, g, d.length, 0, d⟩ ∧
        s.mxlMemWrite tag g d true = s.remoteGo ⟨0, .memCut tag, true, g, d.length, 0, d⟩)) ∧
    (∀ st y u, s.gaLocal g = true → s.rangeOpen (gaAddr g) n = true → s.localRead 0 (gaAddr g) n = ((st, y), u) →
      s.mxlMemRead tag g n = u.memReply tag (.memData tag st g y)) ∧
    (∀ st y u, s.gaLocal g = true → s.rangeOpen (gaAddr g) d.length = true → d ≠ [] → s.localWrite (gaAddr g) d = ((st, y), u) →
      s.mxlMemWrite tag g d false = u.memReply tag (.memAck tag st g) ∧
      (st = 0 → s.mxlMemWrite tag g d true = u.memReply tag (.memAck tag stUNCORRECTABLE g))) ∧
    (s.gaLocal g = true → s.mxlMemWrite tag g [] true = s.memReply tag (.memAck tag stUNCORRECTABLE g)) ∧
    (s.gaLocal g = true → s.rangeOpen (gaAddr g) n = false → s.mxlMemRead tag g n = s.svcHold (.mem tag g) false (gaAddr g) n []) ∧
    (∀ r l, s.readOf (l.headD (blankFlit 0 0 0 0 [])) = some r →
      (hasPoison l = false → s.takeHostData l = s.hostReadDone r 0 (cleanData l)) ∧
      (hasPoison l = true →
        s.takeHostData l = (s.stopTransfers r.ring r.cmdTag).hostReadDone r stUNCORRECTABLE (cleanData l))) ∧
    (∀ r c, s.findTag r.ring r.cmdTag = some c →
      s.hostReadDone r 0 d =
        ({ s with mxl := { s.mxl with hostReads := s.mxl.hostReads.erase r } } : State).xferArrive c 0 (bytesFrom d 0 r.len)) ∧
    (∀ r c, s.mxl.hostReads.find? (fun y => y.tag == tag) = some r → s.findTag r.ring r.cmdTag = some c →
      exec (.hostReadTimeout tag) s =
        .next (({ s with mxl := { s.mxl with hostReads := s.mxl.hostReads.erase r } } : State).xferArrive c stHOST_TIMEOUT [])) ∧
    (s.mxl.hostReads.find? (fun y => y.tag == tag) = none → exec (.hostReadTimeout tag) s = .next s)

/-- 13 R359: the first good copy of a PRIORITY packet is held, the second is ignored after it, a 17th is answered PRIO_BUSY and
counted; R360: a failed flit is counted and sends nak, a PRIORITY flit lost in both copies is counted alone; R361: nak and a
timeout replay every unacknowledged flit in order; R353, R354: a lane past its threshold or without lock is replaced by the spare,
and retrains the link at half width where no spare covers it; the states follow one another, a state past its duration leads to
DOWN, DOWN ends after 100 ms; 15 R402, R404: held records go out. That a STOP goes ahead of the other held packets is read from
R359 (log entry 23); the lanes of half width are log entry 46. -/
def Obligations.MilbexLink : Prop :=
  ∀ (s : State) (x : RxFlit) (k : Packet) (lane corrected cmd bulk : Nat) (lanes : List Nat) (lost : Bool), s.powered = true →
    (∀ u, s.mxlUp = true → x.flit.crc = crc32 (flitBytes x.flit) → u = s.takeHeader x → u.mxlUp = true → u.flitKnown x.flit = true →
      exec (.mxlIdleFlit x) s = .next u ∧ exec (.mxlNak x) s = .next u ∧ exec (.mxlFlitCheckFail x.flit x.corrected false) s = .next u ∧
      (x.flit.typ = ftLANE_SWAP → exec (.mxlLaneSwapFlit x.flit.toFlitHead x.flit.payload x.check) s =
        .next { u with mxl := { u.mxl with txSwap := some (leAt x.flit.payload 0 1, x.flit.tag) } }) ∧
      (x.flit.typ = ftPRIO_CMD → bitSet x.flit.flags 3 = false → exec (.mxlPrioCmd x.flit x.corrected) s =
        .next (({ u with mxl := { u.mxl with pair := .good } } : State).prioCmd (packetOf ((msgBytes [x.flit]).drop 16)))) ∧
      (x.flit.typ = ftPRIO_CMD → bitSet x.flit.flags 3 = true → u.mxl.pair ≠ .good → exec (.mxlPrioCmd x.flit x.corrected) s =
        .next (({ u with mxl := { u.mxl with pair := .idle } } : State).prioCmd (packetOf ((msgBytes [x.flit]).drop 16)))) ∧
      (x.flit.typ = ftPRIO_CMD → bitSet x.flit.flags 3 = true → u.mxl.pair = .good → exec (.mxlPrioCmd x.flit x.corrected) s =
        .next { u with mxl := { u.mxl with pair := .idle } })) ∧
    (s.prioHeld < 16 → ∃ u : State, u = ((s.setF MXL_PRIO MXL_PRIO_last_tag k.tag).accept
        ⟨255, 0, 0, k, .accepted, s.bellCount, []⟩ false) ∧
      s.prioCmd k = ({ u with cmds := prioOrder u.cmds } : State).showPrio) ∧
    (16 ≤ s.prioHeld → s.prioCmd k = (s.incF MXL_PRIO MXL_PRIO_overflow 1).sendRecord
      ⟨255, 0, 0, k, .accepted, s.bellCount, []⟩ stPRIO_BUSY false 0 0) ∧
    (∀ l y z, prioOrder l = y ++ z → y = l.filter (fun c => c.ring == 255 && c.pkt.opcode == opSTOP) →
      (∀ c ∈ z, c.ring ≠ 255 ∨ c.pkt.opcode ≠ opSTOP) ∧ (prioOrder l).Perm l) ∧
    (s.mxlUp = false → exec (.mxlPrioCmd x.flit x.corrected) s = .next s ∧ exec (.mxlIdleFlit x) s = .next s ∧ exec (.mxlNak x) s = .next s ∧
      exec (.mxlLaneSwapFlit x.flit.toFlitHead x.flit.payload x.check) s = .next s ∧ exec (.mxlFlitCheckFail x.flit x.corrected lost) s = .next s ∧
      exec .mxlReplayTimeout s = .next s ∧ exec (.mxlLaneFault ⟨lane, corrected, lost⟩) s = .next s) ∧
    (s.mxlUp = true → exec (.mxlFlitCheckFail x.flit x.corrected true) s = .next (s.flitFails x.flit)) ∧
    (∀ u, u = s.incF MXL_ERRORS MXL_ERRORS_flits_failed 1 →
      (x.flit.cls ≠ fcPRIORITY →
        s.flitFails x.flit = ({ u with mxl := { u.mxl with discarding := true } } : State).sendIdle true 0 0) ∧
      (x.flit.cls = fcPRIORITY → s.flitFails x.flit =
        if u.mxl.pair = .failed then ({ u with mxl := { u.mxl with pair := .idle } } : State).incF MXL_PRIO MXL_PRIO_prio_bad 1
        else { u with mxl := { u.mxl with pair := if u.mxl.pair = .good then .idle else .failed } })) ∧
    (∀ u, u = s.incF MXL_ERRORS MXL_ERRORS_bad_type 1 →
      (x.flit.cls ∈ [fcCOMMAND, fcBULK] →
        s.flitUnknown x.flit = ({ u with mxl := { u.mxl with discarding := true } } : State).sendIdle true 0 0) ∧
      (x.flit.cls ∉ [fcCOMMAND, fcBULK] → s.flitUnknown x.flit = u)) ∧
    (∀ left, left = ackedList x.flit.ack s.mxl.replay → x.flit.nak = true → x.corrected = false →
      s.takeHeader x = (({ s with
        mxl := { s.mxl with
          replay := left, acked := x.flit.ack, cmdCredits := s.mxl.cmdCredits + x.flit.cmdCredits
          bulkCredits := s.mxl.bulkCredits + x.flit.bulkCredits
          sameReplays := if left.length < s.mxl.replay.length then 0 else s.mxl.sameReplays } } : State).mxlReplay).mxlFlush) ∧
    (s.mxlUp = true → s.mxl.replay ≠ [] → exec .mxlReplayTimeout s = .next ((s.incF MXL_RETRY MXL_RETRY_timeouts 1).mxlReplay)) ∧
    (s.mxl.replay = [] → exec .mxlReplayTimeout s = .next s) ∧
    (∀ t l, s.mxl.replay = t :: l → (s.mxl.lastReplay ≠ t.flit.seq ∨ s.mxl.sameReplays < 7) →
      (s.mxl.sinceIdle + (t :: l).length ≤ 4095 → s.mxlReplay.out =
        s.out ++ (t :: l).map (fun y => Out.flit (sealFlit { y.flit with ack := s.mxl.rxSeq }))) ∧
      s.mxlReplay.getF MXL_RETRY MXL_RETRY_replays =
        min (2 ^ MXL_RETRY_replays.len - 1) (s.getF MXL_RETRY MXL_RETRY_replays + 1) ∧
      s.mxlReplay.mxl.replay = t :: l ∧ s.mxlReplay.mxl.lastReplay = t.flit.seq ∧
      s.mxlReplay.mxl.sameReplays = if s.mxl.lastReplay = t.flit.seq then s.mxl.sameReplays + 1 else 1) ∧
    (s.mxlUp = true → corrected ≤ s.getF MXL_LANES MXL_LANES_swap_threshold →
      exec (.mxlLaneFault ⟨lane, corrected, false⟩) s = .next s) ∧
    (∀ u, lane < 9 → s.mxlUp = true → lost = true ∨ s.getF MXL_LANES MXL_LANES_swap_threshold < corrected →
      u = (s.setF MXL_LANES MXL_LANES_good (withoutBit (s.getF MXL_LANES MXL_LANES_good) lane)).carryLane 6 lane →
      (lane ∉ u.mxl.logical → exec (.mxlLaneFault ⟨lane, corrected, lost⟩) s =
        .next { u with mxl := { u.mxl with spare := u.mxl.spare.filter (· != lane) } }) ∧
      (lane ∈ u.mxl.logical → u.mxl.swap = none → u.mxl.spare ≠ none → exec (.mxlLaneFault ⟨lane, corrected, lost⟩) s =
        .next (({ u with mxl := { u.mxl with swap := some (lane, 64) } } : State).sendLaneSwap lane 64)) ∧
      (lane ∈ u.mxl.logical → u.mxl.swap ≠ none ∨ u.mxl.spare = none → exec (.mxlLaneFault ⟨lane, corrected, lost⟩) s =
        .next ((({ u with mxl := { u.mxl with swap := none, halfNext := true } } : State).incF MXL_STATE
          MXL_STATE_retrains 1).mxlTo 6 0))) ∧
    (∀ a b, s.mxl.swap = some (a, b) → exec .mxlLaneTakeover s =
      .next ((({ s with
        mxl := { s.mxl with
          swap := none, spare := none
          logical := s.mxl.logical.map (fun q => if q = a then s.mxl.spare.getD q else q) } } : State).setB MXL_STATE
        MXL_STATE_spare_used true).raise evLaneSwap 255 8 0 a 0 0 0)) ∧
    (∀ a b, s.mxl.swap = none → s.mxl.txSwap = some (a, b) → exec .mxlLaneTakeover s =
      .next ((({ s with mxl := { s.mxl with txSwap := none } } : State).setB MXL_STATE MXL_STATE_spare_used true).raise evLaneSwap
        255 8 0 a 0 0 0)) ∧
    (s.mxl.swap = none → s.mxl.txSwap = none → exec .mxlLaneTakeover s = .next s) ∧
    (s.mxlSt = 1 → 4 ≤ lanes.length → exec (.mxlStateDone lanes cmd bulk) s = .next (s.mxlTo 2 0)) ∧
    (s.mxlSt = 1 → lanes.length < 4 → exec (.mxlStateDone lanes cmd bulk) s = .next s) ∧
    (∀ st ∈ [(2, 3), (6, 5)], s.mxlSt = st.1 → 4 ≤ lanes.length →
      (∀ half, half = (decide (lanes.length < 8) || s.heldHalf || s.mxl.halfNext) →
        exec (.mxlStateDone lanes cmd bulk) s = .next ((((({ s with
          mxl := { s.mxl with
            logical := lanes.take (if half then 4 else 8), spare := if half then none else lanes[8]?
            swap := none, txSwap := none, halfNext := false } } : State).setF MXL_LANES MXL_LANES_good (maskOf lanes)).setB MXL_STATE
          MXL_STATE_half_width half).setB MXL_STATE MXL_STATE_spare_used false).mxlTo st.2 0))) ∧
    (s.mxlSt ∈ [2, 6] → lanes.length < 4 → exec (.mxlStateDone lanes cmd bulk) s = .next (s.mxlTo 7 1)) ∧
    (s.mxlSt = 3 → exec (.mxlStateDone lanes cmd bulk) s = .next (s.mxlTo 4 0)) ∧
    (s.mxlSt = 4 → exec (.mxlStateDone lanes cmd bulk) s = .next (({ s with
      mxl := { s.mxl with
        txSeq := 0, rxSeq := 4095, acked := 4095, cmdCredits := cmd, bulkCredits := bulk, replay := []
        discarding := false, cmdGrant := 64, bulkGrant := 1024 } } : State).mxlTo 5 0)) ∧
    (s.mxlSt ∈ [0, 5, 7] → exec (.mxlStateDone lanes cmd bulk) s = .next s) ∧
    (s.mxlSt ∈ [2, 3, 4, 6] → exec .mxlStateTimeout s = .next (s.mxlTo 7 2)) ∧
    (s.mxlSt ∈ [0, 1, 5, 7] → exec .mxlStateTimeout s = .next s) ∧
    (s.mxlSt = 7 → exec .mxlDownRecover s = .next (s.mxlTo 1 0)) ∧
    (s.mxlSt ≠ 7 → exec .mxlDownRecover s = .next s) ∧
    (exec .heldRecordFlush s = .next (forEach (List.range 8) s.mxlFlush (fun u e =>
      match u.evSize e with | some m => evDrain (evWaiting (u.evRing e)).length e m u | none => u))) ∧
    (∀ st ∈ [1, 2, 3, 4, 6, 7], ∀ r, r < 16 → s.mxlSt ≠ st → (s.mxlTo st r).mxlSt = st ∧
      (s.mxlTo st r).getF MXL_STATE MXL_STATE_down_reason = r ∧ (st = 7 → (s.mxlTo st r).mxl.replay = []))

/-- 14 R373, R374, R376: the entry at the head of the ring whose turn it is, read at its slot of the ring, becomes an accepted
command, and the head advances by one; a ring that cannot fetch or whose turn it is not keeps its head; one with its fence flag
set waits for the earlier commands of its ring (R377); R381: the first check that fails completes the command; R383: a target
before its commit point completes ABORTED and the ABORT OK, one at or after it, or among those done, makes the ABORT
ABORT_TOO_LATE, an ABORT of STOP, RESET or ABORT is BAD_PARAM, and one without a target ABORT_NO_TARGET. A write under way to
another device counts as the commit point, a pending target's entry is an operand (log entries 2 and 23), and the order of the
round robin is log entry 43. -/
def Obligations.CommandFetchAndAbort : Prop :=
  ∀ (s : State) (r ring tag i h : Nat) (b : List Byte) (k : Packet) (c t : Cmd), s.powered = true → k = packetOf b →
    h = (s.reg (CMD_RING_HEAD r)).toNat →
    (∀ e u v, (s.ringOn r && s.skips.contains (r, h)) = false → s.nextRing = some r → (k.flags % 2 = 1 → s.ringOpen r = 0) →
      u = s.readEntry r h → v = u.setReg (CMD_RING_HEAD r) (BitVec.ofNat 32 (h + 1)) →
      e = (⟨r, s.getF (CMD_RING_CFG r) CMD_RING_CFG_cpl_ring, s.ringPart r, k, .accepted, s.bellCount, []⟩ : Cmd) →
      exec (.commandFetch r b) s = .next (({ v with
        lastRing := r
        lastRun := if s.lastRing = r then s.lastRun + 1 else 1
        fences := s.fences.filter (fun q => q != r) } : State).acceptRing e (s.flag (CMD_RING_CFG r) CMD_RING_CFG_device))) ∧
    (∀ u, (s.ringOn r && s.skips.contains (r, h)) = false → s.nextRing = some r → k.flags % 2 = 1 → s.ringOpen r ≠ 0 →
      u = s.readEntry r h →
      exec (.commandFetch r b) s = .next { u with fences := s.fences.filter (fun q => q != r) ++ [r] }) ∧
    (∀ u, (s.ringOn r && s.skips.contains (r, h)) = true → u = s.setReg (CMD_RING_HEAD r) (BitVec.ofNat 32 (h + 1)) →
      exec (.commandFetch r b) s = .next { u with skips := s.skips.erase (r, h) }) ∧
    ((s.ringOn r && s.skips.contains (r, h)) = false → s.nextRing ≠ some r → exec (.commandFetch r b) s = .next s) ∧
    (∀ m, m = s.mxl → s.readEntry r i = ({ s with mxl := { m with nextTag := (m.nextTag + 1) % 65536 } } : State).mxlSend
      (.hostRead false m.nextTag (s.ringBase (CMD_RING_BASE_LO r) + 64 * (i % 2 ^ s.ringSize r)) 64)) ∧
    (s.canFetch r = true → s.ringOn r = true ∧ 0 < s.ringPending r ∧ s.ringOpen r < 64 ∧ s.cmds.length < 1024 ∧
      s.cplFree (s.getF (CMD_RING_CFG r) CMD_RING_CFG_cpl_ring) = true ∧ (s.fences.contains r = true → s.ringOpen r = 0)) ∧
    (∀ q, s.nextRing = some q → s.canFetch q = true) ∧
    (s.canFetch s.lastRing = true → s.lastRun < s.ringWeight s.lastRing → s.nextRing = some s.lastRing) ∧
    (∀ q j, j < 64 → q = (s.lastRing + 1 + j) % 64 → s.ringWeight s.lastRing ≤ s.lastRun → s.canFetch q = true →
      (∀ l, l < j → s.canFetch ((s.lastRing + 1 + l) % 64) = false) → s.nextRing = some q) ∧
    (∀ d, (c.pkt.opcode ≠ opROSTER_COMMIT ∨ c ∉ (s.accept c d).cmds) → s.acceptRing c d = s.accept c d) ∧
    (∀ d, c.pkt.opcode = opROSTER_COMMIT → c ∈ (s.accept c d).cmds → s.acceptRing c d = (s.accept c d).readRoster c) ∧
    (∀ d, s.acceptFails c.pkt (c.ring == 255) d = none → s.accept c d = ({ s with cmds := s.cmds ++ [c] } : State).trace 1 none
      (some c.ring) none) ∧
    (∀ d e, s.acceptFails c.pkt (c.ring == 255) d = some e → c ∉ s.cmds → c.ring < 64 → c.placed →
      ∃ u, u = s.accept c d ∧ u.cmds = s.cmds ∧ u.crs = s.crs ∧ u.tiles = s.tiles ∧ u.cores = s.cores ∧ u.mem = s.mem ∧
        u.bring = s.bring ∧ u.sec = s.sec) ∧
    (opRow k.opcode = none → s.acceptFails k false false = some (stBAD_OPCODE, 0)) ∧
    (∀ p d row, opRow k.opcode = some row → (if p then row.prio else row.ring) = false → s.acceptFails k p d = some (stBAD_OPCODE, 0)) ∧
    (∀ row, opRow k.opcode = some row → row.ring = true → s.stageFails row = false → row.device = true →
      s.acceptFails k false false = some (stWRONG_PARTITION, 0)) ∧
    (∀ row w b d, opRow k.opcode = some row → row.ring = true → s.stageFails row = false → (row.device = false ∨ d = true) →
      k.flags / 2 = 0 → strayParam row k false = some (w, b) → s.acceptFails k false d = some (stBAD_PARAM, w + 256 * b)) ∧
    (∀ e, Accepted s ring tag opABORT c → s.findTag c.pkt.p0 c.pkt.p1 = some t →
      (notAborted t.pkt.opcode = false → s.pastCommit t = false →
        exec (.cmdAbort ring tag e) s = .next (s.abortTarget c t)) ∧
      (notAborted t.pkt.opcode = false → s.pastCommit t = true →
        exec (.cmdAbort ring tag e) s = .next (s.fail c stABORT_TOO_LATE)) ∧
      (notAborted t.pkt.opcode = true → exec (.cmdAbort ring tag e) s = .next (s.badParam c 1 0))) ∧
    (Accepted s ring tag opABORT c → s.findTag c.pkt.p0 c.pkt.p1 = none →
      (k.tag = c.pkt.p1 → s.isPending c.pkt.p0 i = true →
        exec (.cmdAbort ring tag (some (i, b))) s = .next ((s.readEntry c.pkt.p0 i).abortPending c c.pkt.p0 i k)) ∧
      (∀ d, s.done.reverse.find? (fun d => d.ring == c.pkt.p0 && d.tag == c.pkt.p1) = some d →
        (notAborted d.opcode = false → exec (.cmdAbort ring tag none) s = .next (s.fail c stABORT_TOO_LATE)) ∧
        (notAborted d.opcode = true → exec (.cmdAbort ring tag none) s = .next (s.badParam c 1 0))) ∧
      (s.done.any (fun d => d.ring == c.pkt.p0 && d.tag == c.pkt.p1) = false →
        exec (.cmdAbort ring tag none) s = .next (s.fail c stABORT_NO_TARGET))) ∧
    (t.phase = .accepted → s.abortTarget c t = (s.fail t stABORTED).ok c 0) ∧
    (t.phase = .active → s.abortTarget c t = ((s.fail t stABORTED).undo t).ok c 0)

/-- 02 R79: COURSE_LOAD reads the image, completes with the first check that fails, and otherwise loads the course and completes OK
with its identity; R81, 06 R188: a loaded course has its image, lesson 0 staged, the LOADED state and the local images in place.
What the checks are in detail is the model's reading (log entry 22). -/
def Obligations.CourseLoading : Prop :=
  ∀ (s : State) (ring tag : Nat) (c : Cmd) (m : List Byte) (u : State) (p size a : Nat),
    (Accepted s ring tag opCOURSE_LOAD c → s.readObject c.pkt.p0 (c.pkt.p1 % 2 ^ 32) = ((m, 0), u) →
      (u.loadFails m c.part (c.pkt.p1 % 2 ^ 32) = none → exec (.cmdCourseLoad ring tag) s =
        .next ((u.loadCourse c.part c.pkt.p0 m).ok c (leAt m 8 8))) ∧
      (∀ e, u.loadFails m c.part (c.pkt.p1 % 2 ^ 32) = some e → exec (.cmdCourseLoad ring tag) s = .next (u.fail c e))) ∧
    (∀ st, Accepted s ring tag opCOURSE_LOAD c → s.readObject c.pkt.p0 (c.pkt.p1 % 2 ^ 32) = ((m, st), u) → st ≠ 0 →
      exec (.cmdCourseLoad ring tag) s = .next (u.fail c st)) ∧
    (s.formatFails m p size = true → s.loadFails m p size = some stTT_FORMAT) ∧
    (s.formatFails m p size = false → s.deviceFails m p = true → s.loadFails m p size = some stTT_DEVICE) ∧
    (s.formatFails m p size = false → s.deviceFails m p = false → s.seatingFails m p = true →
      s.loadFails m p size = some stSEATING_MISMATCH) ∧
    (s.formatFails m p size = false → s.deviceFails m p = false → s.seatingFails m p = false → s.licenceRefuses m = true →
      s.loadFails m p size = some stLICENCE) ∧
    (s.formatFails m p size = false → s.deviceFails m p = false → s.seatingFails m p = false → s.licenceRefuses m = false →
      s.limitFails m = true → s.loadFails m p size = some stTT_LIMIT) ∧
    (s.formatFails m p size = false → s.deviceFails m p = false → s.seatingFails m p = false → s.licenceRefuses m = false →
      s.limitFails m = false → s.loadFails m p size = if s.courseLoaded p then some stCOURSE_BUSY else none) ∧
    (p < 4 → (s.loadCourse p a m).courseState p = csLoaded ∧ ((s.loadCourse p a m).crsOf p).image = m ∧
      ((s.loadCourse p a m).crsOf p).imgAddr = a ∧ ((s.loadCourse p a m).crsOf p).lesson = 0 ∧
      ((s.loadCourse p a m).crsOf p).iter = 0 ∧ ((s.loadCourse p a m).crsOf p).staged = true ∧
      ((s.loadCourse p a m).crsOf p).rosters = [] ∧ (∀ q, q ≠ p → (s.loadCourse p a m).crsOf q = s.crsOf q) ∧
      (∀ x, x < lmBase → tgetD (s.loadCourse p a m).mem.bytes x 0 = tgetD s.mem.bytes x 0) ∧ (s.loadCourse p a m).cmds = s.cmds)

/-- 20 R483: an automatic exam takes the next substitute seat and ends with its result; R484: EXAM waits for its seats, skipping
factory-dead ones and, unless asked, those in use, and its end raises EXAM_DONE before the record; R491: EVACUATE moves the lockers
of a tile whose evacuation is pending, or substitutes the tile first; R493: AREA_RESTORE rewrites a lost area and clears area_lost;
R495: RENUMBER makes a new plan unless a partition would lose every form. That a form or a tile of another partition makes the
commands WRONG_PARTITION is read from 14 R384 (log entry 23). -/
def Obligations.ExamsAndRepairs : Prop :=
  ∀ (s : State) (ring tag f p lt m t : Nat) (c : Cmd), s.powered = true →
    (Accepted s ring tag opEXAM c → f = bitsAt c.pkt.p1 0 4 →
      (s.partOfForm f = c.part → bitSet c.pkt.p1 8 = false → s.bring.exam = none →
        exec (.cmdExam ring tag) s = .next ((({ s with
          bring := { s.bring with exam := some ⟨c.ring, c.pkt.tag, f, s.examSeats f c.pkt.p0 false⟩ } } : State).setB
            BRG_EXAM_STATUS BRG_EXAM_STATUS_active true).putCmd c { c with phase := .committed })) ∧
      (s.partOfForm f ≠ c.part → exec (.cmdExam ring tag) s = .next (s.failAt c stWRONG_PARTITION 1 0)) ∧
      (s.partOfForm f = c.part → bitSet c.pkt.p1 8 = true → s.courseLoaded c.part = true →
        exec (.cmdExam ring tag) s = .next (s.fail c stCOURSE_BUSY)) ∧
      (s.partOfForm f = c.part → bitSet c.pkt.p1 8 = true → s.courseLoaded c.part = false → s.seqOpenIn c.part = true →
        exec (.cmdExam ring tag) s = .next (s.fail c stDEVICE_STATE))) ∧
    (∀ mask a k, k ∈ s.examSeats f mask a ↔ k < 18 ∧ bitSet mask k = true ∧ s.seatStatus (18 * f + k) ≠ 1 ∧
      (a = true ∨ s.seatUsed (18 * f + k) = false)) ∧
    (s.stageIs 8 2 = true → s.flag BRG_EXAM_CTRL BRG_EXAM_CTRL_auto = true → s.serviceOpen (s.partOfForm (m / 18)) = true →
      (s.bring.autoSeat = none → s.nextAuto = some m → exec (.autoExamStep none) s =
        .next ((({ s with bring := { s.bring with autoSeat := some m } } : State).setF BRG_EXAM_STATUS BRG_EXAM_STATUS_seat m).setB
          BRG_EXAM_STATUS BRG_EXAM_STATUS_active true)) ∧
      (s.bring.autoSeat = some m → exec (.autoExamStep none) s = .next s ∧ exec (.autoExamStep (some 0)) s = .next s.autoEnds ∧
        exec (.autoExamStep (some (t + 1))) s =
          .next ((((s.seatFails m (t + 1)).examCount 1).afterExam (m / 18) (s.spares (m / 18))).autoEnds))) ∧
    (∀ failing e u w, s.bring.exam = some e → s.findTag e.ring e.tag = some c → e.form = f → e.left = [] →
      u = ({ s with bring := { s.bring with exam := none } } : State).afterExam f (s.spares f) →
      w = (((u.setB BRG_EXAM_STATUS BRG_EXAM_STATUS_active u.bring.autoSeat.isSome).logAppend logEXAM 0xFF 0 f [0, 0, 0, 0]).raise
        evExamDone (s.partOfForm f) 5 f 0 0 0 0) → w.findTag e.ring e.tag = some c →
      (((u.setB BRG_EXAM_STATUS BRG_EXAM_STATUS_active u.bring.autoSeat.isSome).logAppend logEXAM 0xFF 0 f [0, 0, 0, 0]).partOfForm f)
        = s.partOfForm f → exec (.examComplete failing) s = .next (w.ok c 0)) ∧
    (∀ failing, s.bring.exam = none → exec (.examComplete failing) s = .next s) ∧
    (Accepted s ring tag opEVACUATE c → lt = c.pkt.p0 →
      (s.partOfLt lt ≠ c.part → exec (.cmdEvacuate ring tag) s = .next (s.fail c stWRONG_PARTITION)) ∧
      (s.partOfLt lt = c.part → s.evacPending lt = true → s.bring.evac = none → exec (.cmdEvacuate ring tag) s =
        .next ((({ s with
          bring := { s.bring with evac := some ⟨c.ring, c.pkt.tag, lt, 0, []⟩ } } : State).setReg MEM_EVAC
            (BitVec.ofNat 32 (lt + 2 ^ 15))).putCmd c { c with phase := .committed })) ∧
      (s.partOfLt lt = c.part → s.evacPending lt = true → s.bring.evac.isSome = true →
        exec (.cmdEvacuate ring tag) s = .next (s.fail c stLOCKER_MOVING)) ∧
      (s.partOfLt lt = c.part → s.evacPending lt = false → s.courseRunning c.part = true →
        exec (.cmdEvacuate ring tag) s = .next (s.fail c stDEVICE_STATE)) ∧
      (s.partOfLt lt = c.part → s.evacPending lt = false → s.courseRunning c.part = false → s.nextSubstitute (ltForm lt) = none →
        exec (.cmdEvacuate ring tag) s = .next (s.fail c stNO_SPARE)) ∧
      (∀ k, s.partOfLt lt = c.part → s.evacPending lt = false → s.courseRunning c.part = false → s.present lt = true →
        s.nextSubstitute (ltForm lt) = some k → s.bring.evac = none →
        exec (.cmdEvacuate ring tag) s = .next ((s.substitute lt 0).evacStart c lt))) ∧
    (Accepted s ring tag opAREA_RESTORE c → lt = c.pkt.p0 →
      (s.partOfLt lt ≠ c.part → exec (.cmdAreaRestore ring tag) s = .next (s.fail c stWRONG_PARTITION)) ∧
      (s.partOfLt lt = c.part → s.courseRunning c.part = true → exec (.cmdAreaRestore ring tag) s = .next (s.fail c stCOURSE_BUSY)) ∧
      (s.partOfLt lt = c.part → s.courseRunning c.part = false → s.flag (TRN_STATUS_LT lt) TRN_STATUS_LT_area_lost = false →
        exec (.cmdAreaRestore ring tag) s = .next (s.fail c stDEVICE_STATE)) ∧
      (s.partOfLt lt = c.part → s.courseRunning c.part = false → s.flag (TRN_STATUS_LT lt) TRN_STATUS_LT_area_lost = true →
        c.pkt.p1 = 0 → exec (.cmdAreaRestore ring tag) s = .next (s.areaRestored c lt (s.bareArea lt))) ∧
      (∀ b u, s.partOfLt lt = c.part → s.courseRunning c.part = false → s.flag (TRN_STATUS_LT lt) TRN_STATUS_LT_area_lost = true →
        c.pkt.p1 ≠ 0 → s.readObject c.pkt.p1 s.areaBytes = ((b, 0), u) →
        exec (.cmdAreaRestore ring tag) s = .next (if u.copyFits lt b then u.areaRestored c lt b else u.badParam c 1 0))) ∧
    (∀ b, s.areaRestored c lt b =
      (((s.fillArea lt b).setB (TRN_STATUS_LT lt) TRN_STATUS_LT_area_lost false).showFree lt).ok c 0) ∧
    (∀ b q, Memory.wf s.mem = true → q < 4096 → b.length = 0xC000 + 64 * s.leafTotal → s.leafTotal ≤ 4096 →
      (s.fillArea lt b).dirEntry lt q = leAt b (4 * q) 4) ∧
    (Accepted s ring tag opRENUMBER c →
      (s.anyLoaded = true → exec (.cmdRenumber ring tag) s = .next (s.fail c stCOURSE_BUSY)) ∧
      (s.anyLoaded = false → (s.anySeqOpen || s.anyEvacPending) = true →
        exec (.cmdRenumber ring tag) s = .next (s.fail c stDEVICE_STATE)) ∧
      (s.anyLoaded = false → (s.anySeqOpen || s.anyEvacPending) = false → p < s.partCount →
        (∀ n, n < 16 → s.partOfForm n = p → s.willExclude n = true) →
        exec (.cmdRenumber ring tag) s = .next (s.fail c stNO_SPARE)) ∧
      (s.anyLoaded = false → (s.anySeqOpen || s.anyEvacPending) = false →
        (∀ q, q < s.partCount → ∃ n, n < 16 ∧ s.partOfForm n = q ∧ s.willExclude n = false) →
        exec (.cmdRenumber ring tag) s = .next (((forEach (List.range 16) s State.renumberForm).writeCarry).ok c
          (maskOf ((List.range 16).filter s.willExclude) +
            2 ^ 16 * maskOf ((List.range 16).filter (fun n => s.excluded n && !s.willExclude n)))))) ∧
    (s.willExclude f = false → s.excluded f = false → s.renumberForm f = s)

/-- 22 R519: ENTDAA and SETDASA give a target without an address one, RSTDAA takes it away, ENEC and DISEC set and clear enabled
events, and interrupts that waited go out in order; R520, R521: a private read latches the telemetry map and answers its bytes from
the index on; R522: a command is malformed, busy while a reset is pending, refused, or done, and its code, complement and result
stand in the control area and in MGMT_STATUS. Without power, or without an address, nothing happens. The layout of the provisional
ID is log entry 34, the value of GETSTATUS is free. -/
def Obligations.I3cManagement : Prop :=
  ∀ (s : State) (addr mask index n code cpl : Nat), s.powered = true →
    (s.i3cAddr = 0 →
      exec (.i3cEntdaa addr) s =
        .next ((s.send (.i3cData s.provisionalId)).setF MGMT_STATUS MGMT_STATUS_i3c_addr addr) ∧
      exec (.i3cSetdasa addr) s = .next (s.setF MGMT_STATUS MGMT_STATUS_i3c_addr addr) ∧
      exec (.i3cEnec mask) s = .next s ∧ exec (.i3cDisec mask) s = .next s ∧ exec .i3cGetstatus s = .next s ∧
      exec (.i3cSetIndex index) s = .next s ∧ exec (.i3cPrivateRead n) s = .next s ∧ exec .mgmtResetRequest s = .next s ∧
      exec (.mgmtMalformed code cpl) s = .next s) ∧
    exec .i3cRstdaa s = .next (s.setF MGMT_STATUS MGMT_STATUS_i3c_addr 0) ∧
    (addr < 128 → (s.setF MGMT_STATUS MGMT_STATUS_i3c_addr addr).i3cAddr = addr) ∧
    (s.i3cAddr ≠ 0 →
      exec (.i3cEntdaa addr) s = .next s ∧ exec (.i3cSetdasa addr) s = .next s ∧
      (bitSet (Nat.lor s.mgmt.events (mask % 256)) 0 = true → exec (.i3cEnec mask) s = .next { s with
        mgmt := { s.mgmt with events := Nat.lor s.mgmt.events (mask % 256), pendingIbi := [] }
        out := s.out ++ s.mgmt.pendingIbi.map Out.ibi }) ∧
      (bitSet (Nat.lor s.mgmt.events (mask % 256)) 0 = false → exec (.i3cEnec mask) s = .next { s with
        mgmt := { s.mgmt with events := Nat.lor s.mgmt.events (mask % 256) } }) ∧
      exec (.i3cDisec mask) s = .next { s with
        mgmt := { s.mgmt with events := s.mgmt.events - Nat.land s.mgmt.events (mask % 256) } } ∧
      (∃ v, exec .i3cGetstatus s = .next ({ s with out := s.out ++ [.i3cStatus v], freeCtr := s.freeCtr + 1 } : State)) ∧
      exec (.i3cSetIndex index) s = .next { s with mgmt := { s.mgmt with index := index % 65536 } } ∧
      exec (.i3cPrivateRead 0) s = .next s ∧
      (0 < n → ∀ u, u = ({ s with mgmt := { s.mgmt with latched := s.mgmt.telemetry } } : State) →
        exec (.i3cPrivateRead n) s = .next { u with
          mgmt := { u.mgmt with index := (s.mgmt.index + n) % 65536 }
          out := s.out ++ [.i3cData ((List.range n).map (fun k => u.mapByte ((s.mgmt.index + k) % 65536)))] })) ∧
    (s.mapByte index = if index < 0x100 then s.mgmt.latched.getD index 0
      else if index < 0x103 then BitVec.ofNat 8 (s.mgmt.control.getD (index - 0x100) 0) else 0) ∧
    (∀ row ∈ ([(.mgmtResetRequest, 1, true, fun u => u.requestReset 3),
        (.mgmtLedgerClear, 2, (s.getF BRG_STAGE BRG_STAGE_state == 3 || s.getF BRG_STAGE BRG_STAGE_state == 4), State.ledgerClear),
        (.mgmtHoldNext, 3, true, fun u => { u with bring := { u.bring with holdNext := true } }),
        (.mgmtAlertAck, 4, true, fun u => u.setB MGMT_STATUS MGMT_STATUS_alert false)] : List (Instr × Nat × Bool × (State → State))),
      s.i3cAddr ≠ 0 →
      (s.clock.resetPending = none → row.2.2.1 = true →
        exec row.1 s = .next ((row.2.2.2 s).mgmtResult row.2.1 (255 - row.2.1) 0)) ∧
      (s.clock.resetPending = none → row.2.2.1 = false → exec row.1 s = .next (s.mgmtResult row.2.1 (255 - row.2.1) 1)) ∧
      (s.clock.resetPending.isSome = true → exec row.1 s = .next (s.mgmtResult row.2.1 (255 - row.2.1) 2))) ∧
    (s.i3cAddr ≠ 0 → code % 256 + cpl % 256 ≠ 255 →
      exec (.mgmtMalformed code cpl) s = .next (s.mgmtResult (code % 256) (cpl % 256) 3)) ∧
    (s.i3cAddr ≠ 0 → code % 256 + cpl % 256 = 255 → exec (.mgmtMalformed code cpl) s = .next s) ∧
    (∀ r, code < 256 → r < 16 → (s.mgmtResult code cpl r).mgmt = { s.mgmt with index := 0x100, control := [code, cpl, r] } ∧
      (s.mgmtResult code cpl r).getF MGMT_STATUS MGMT_STATUS_last_cmd = code ∧
      (s.mgmtResult code cpl r).getF MGMT_STATUS MGMT_STATUS_last_result = r ∧
      ∀ a, a ≠ MGMT_STATUS → (s.mgmtResult code cpl r).reg a = s.reg a) ∧
    (s.powered = true → s.ledgerClear.bring.carry.alts = [] ∧ s.ledgerClear.getF BRG_STAGE BRG_STAGE_unready = 0)

/-- 22 R524, R525: each instruction of the port loads its data register and the cells and sets how the contacts are driven; EXTEST,
CLAMP and HIGHZ are refused, and bypass selected, while a course is loaded or the MXL is UP; TRST_N selects IDCODE; R526: an
instrument operation starts unless one is under way and ends with its status and data; engines are readable only in an open bell of
a partition that runs no course; R528: TRACE_CONFIG starts a trace with a good setup while none runs, and a setup of no sources
stops it. -/
def Obligations.TestPortAndTrace : Prop :=
  ∀ (s : State) (cells pins : List Bool) (space addr data ring tag : Nat) (c : Cmd), s.powered = true →
    (∀ row ∈ ([(.jtagExtest cells pins, fun u => (u.setCells cells).tap 0x00 (cellsVal pins) 1),
        (.jtagClamp, fun u => u.tap 0x03 0 2), (.jtagHighz, fun u => u.tap 0x04 0 3)] : List (Instr × (State → State))),
      (s.anyLoaded = false → s.mxlUp = false → exec row.1 s = .next (row.2 s)) ∧
      ((s.anyLoaded = true ∨ s.mxlUp = true) →
        exec row.1 s = .next ((s.tap 0xFF 0 0).setB MGMT_STATUS MGMT_STATUS_extest_refused true))) ∧
    exec (.jtagSamplePreload cells pins) s = .next ((s.setCells cells).tap 0x01 (cellsVal pins) 0) ∧
    exec (.jtagExtestPulse cells pins) s = .next ((s.setCells cells).tap 0x08 (cellsVal pins) 1) ∧
    exec (.jtagExtestTrain cells pins) s = .next ((s.setCells cells).tap 0x09 (cellsVal pins) 1) ∧
    exec .jtagIdcode s = .next (s.tap 0x02 s.idcode 0) ∧ exec .trstNAssert s = .next (s.tap 0x02 s.idcode 0) ∧
    exec .jtagBypass s = .next (s.tap 0xFF 0 0) ∧
    s.idcode % 2 = 1 ∧ s.idcode / 2 ^ 12 % 2 ^ 16 = 0xA4A4 ∧
    (∀ ir dr drive, s.tap ir dr drive = { s with mgmt := { s.mgmt with ir := ir, dr := dr, drive := drive } }) ∧
    s.setCells cells = { s with mgmt := { s.mgmt with boundary := (List.range 27).map (fun i => cells.getD i false) } } ∧
    (∀ k, k < 27 → bitSet (cellsVal pins) k = pins.getD k false) ∧
    (s.mgmt.instOp = none →
      exec (.instRead space addr) s = .next { s with
        mgmt := { s.mgmt with
          ir := 0x10, drive := 0, instOp := some (1, space % 16, addr % 2 ^ 48, 0), instStatus := 3 } } ∧
      exec (.instWrite space addr data) s = .next { s with
        mgmt := { s.mgmt with
          ir := 0x10, drive := 0, instOp := some (2, space % 16, addr % 2 ^ 48, data % 2 ^ 32), instStatus := 3 } } ∧
      exec .instComplete s = .next s) ∧
    (s.mgmt.instOp.isSome = true →
      exec (.instRead space addr) s = .next { s with mgmt := { s.mgmt with ir := 0x10, drive := 0 } } ∧
      exec (.instWrite space addr data) s = .next { s with mgmt := { s.mgmt with ir := 0x10, drive := 0 } }) ∧
    (∀ op, s.mgmt.instOp = some (op, 0, addr, data) → addr % 4 = 0 → s.rangeOpen addr 4 = false → exec .instComplete s = .next s) ∧
    (∀ st d u, s.mgmt.instOp = some (1, 0, addr, data) → addr % 4 = 0 → s.rangeOpen addr 4 = true → s.localRead 2 addr 4 = ((st, d), u) →
      exec .instComplete s = .next { u with
        mgmt := { u.mgmt with instOp := none, instStatus := if st = 0 then 0 else 2, instData := leAt d 0 4 } }) ∧
    (∀ st d u, s.mgmt.instOp = some (2, 0, addr, data) → addr % 4 = 0 → s.rangeOpen addr 4 = true → s.localWrite addr (leBytes 4 data) = ((st, d), u) →
      exec .instComplete s = .next { u with
        mgmt := { u.mgmt with instOp := none, instStatus := if st = 0 then 0 else 2, instData := u.mgmt.instData } }) ∧
    (s.mgmt.instOp = some (1, 3, addr, data) → addr % 4 = 0 → exec .instComplete s = .next { s with
      mgmt := { s.mgmt with instOp := none, instStatus := 0, instData := leVal (ccRead s (addr % 2 ^ 23) 4) } }) ∧
    (∀ v, s.mgmt.instOp = some (1, 1, addr, data) → s.present (addr % 256) = true → s.courseRunning (s.partOfLt (addr % 256)) = false →
      s.openBell (s.partOfLt (addr % 256)) = true →
      v = accHalf (tgetD (s.tile (addr % 256)).mxe.acc (bitsAt addr 8 11 * 128 + bitsAt addr 19 7) accEntry0) (bitAt addr 26) →
      exec .instComplete s = .next { s with mgmt := { s.mgmt with instOp := none, instStatus := 0, instData := v } }) ∧
    (∀ x, (x = 1 ∨ x = 2) → s.mgmt.instOp = some (1, x, addr, data) → s.present (addr % 256) = true →
      (s.courseRunning (s.partOfLt (addr % 256)) = true ∨ s.openBell (s.partOfLt (addr % 256)) = false) →
      exec .instComplete s = .next { s with mgmt := { s.mgmt with instOp := none, instStatus := 1, instData := 0 } }) ∧
    (∀ b u, Accepted s ring tag opTRACE_CONFIG c → s.readObject c.pkt.p0 32 = ((b, 0), u) →
      (leAt b 0x0C 4 = 0 → exec (.cmdTraceConfig ring tag) s = .next (u.traceStop.ok c 0)) ∧
      (leAt b 0x0C 4 ≠ 0 → u.flag TRC_STATUS TRC_STATUS_running = true →
        exec (.cmdTraceConfig ring tag) s = .next (u.fail c stDEVICE_STATE)) ∧
      (leAt b 0x0C 4 ≠ 0 → u.flag TRC_STATUS TRC_STATUS_running = false → setupGood b = false →
        exec (.cmdTraceConfig ring tag) s = .next (u.badParam c 0 0)) ∧
      (leAt b 0x0C 4 ≠ 0 → u.flag TRC_STATUS TRC_STATUS_running = false → setupGood b = true →
        exec (.cmdTraceConfig ring tag) s = .next ((u.traceStart b).ok c 0))) ∧
    (∀ b, (s.traceStart b).mgmt = { s.mgmt with traceSetup := b, traceQueue := [], tracePos := 0 } ∧
      (s.traceStart b).flag TRC_STATUS TRC_STATUS_running = true) ∧
    (s.traceStop.flag TRC_STATUS TRC_STATUS_running = false ∧ s.traceStop.mgmt.traceQueue = s.mgmt.traceQueue)

/-- 19 R453-R462, R466: a sample takes coolant, model, sensors, pairs and regions in turn, shows each layer's temperature and then its
effects; a pair's value is the higher reading, a single sensor's + 3 K or the model's + 5 K; a sensor far from the model for 16
samples is suspect, and one near it for 4,096 no longer; a memory region adopts its canary estimate where both it and the model
exceed the sensor value by more than 3 K; an adopted estimate at its trip limit, and a pair whose two readings reach it, trip the
module, which is then without power until its input has been cycled. -/
def Obligations.SamplesAndTrip : Prop :=
  ∀ (s : State) (v powers : List Nat) (inlet outlet q r n a b x can : Nat), s.powered = true →
    (∀ u l, adoptAll v (List.range 88) (s.sampleReadings v powers inlet outlet) = (l, u) →
      exec (.sensorSample v powers inlet outlet) s =
        .next ((forEach (List.range 4) u (fun w k => w.setF (MEM_LAYER k) MEM_LAYER_temp (w.layerTemp k))).sampleEffects l)) ∧
    (∀ r l w u, w = s.adopt r v → adoptAll v l w.2 = u → adoptAll v (r :: l) s = (w.1 :: u.1, u.2)) ∧
    (s.distrusts (2 * q) = false → s.distrusts (2 * q + 1) = false → s.pairValue q a b = (max a b, 0)) ∧
    (s.distrusts (2 * q) = true → s.distrusts (2 * q + 1) = false → s.pairValue q a b = (b + 48, 1)) ∧
    (s.distrusts (2 * q) = false → s.distrusts (2 * q + 1) = true → s.pairValue q a b = (a + 48, 1)) ∧
    (s.distrusts (2 * q) = true → s.distrusts (2 * q + 1) = true →
      s.pairValue q a b = (s.modelAt (sensorRegion (2 * q)) + 80, 2)) ∧
    (∀ p ∈ regionPairs r, (s.pairValue p (v.getD (2 * p) 0) (v.getD (2 * p + 1) 0)).1 ≤ (s.sensorValue r v).1) ∧
    (r < 88 → x = (s.sensorValue r v).1 → can = 4 * tgetD s.therm.canary r 0 →
      (regionDie r = 1 → s.therm.modelValid = true → x + 48 < can → x + 48 < s.modelAt r → (s.adopt r v).1 = can ∧
        (s.adopt r v).2.getF (THM_REGION r) THM_REGION_source = 3) ∧
      ((regionDie r ≠ 1 ∨ can ≤ x + 48 ∨ s.modelAt r ≤ x + 48) → (s.adopt r v).1 = x) ∧
      (s.adopt r v).2.adopted r = min 1023 ((s.adopt r v).1 / 4) ∧
      ∀ k, k < 88 → k ≠ r → (s.adopt r v).2.reg (THM_REGION k) = s.reg (THM_REGION k)) ∧
    (n < 864 → s.therm.modelValid = true → s.suspect n = false → 128 < absDiff a (s.modelAt (sensorRegion n)) →
      (tgetD s.therm.far n 0 = 15 → (s.sensorReading n a).suspect n = true ∧
        (s.sensorReading n a).getF (THM_SENSOR n) THM_SENSOR_reading = min 1023 (a / 4)) ∧
      (tgetD s.therm.far n 0 < 15 → (s.sensorReading n a).suspect n = false ∧
        tgetD (s.sensorReading n a).therm.far n 0 = tgetD s.therm.far n 0 + 1)) ∧
    (n < 864 → s.therm.modelValid = true → s.suspect n = true → absDiff a (s.modelAt (sensorRegion n)) ≤ 64 →
      tgetD s.therm.near n 0 = 4095 → (s.sensorReading n a).suspect n = false) ∧
    (q < 432 → s.distrusts (2 * q) = false → s.distrusts (2 * q + 1) = false → 48 < absDiff a b →
      tgetD s.therm.apart q 0 = 15 → s.flag (THM_SENSOR (2 * q)) THM_SENSOR_disagree = false →
      (s.pairDisagree q a b).flag (THM_SENSOR (2 * q)) THM_SENSOR_disagree = true ∧
      (s.pairDisagree q a b).flag (THM_SENSOR (2 * q + 1)) THM_SENSOR_disagree = true) ∧
    (q < 432 → 16 * s.tripLimit (sensorRegion (2 * q)) ≤ a → 16 * s.tripLimit (sensorRegion (2 * q)) ≤ b →
      exec (.tripComparator q a b) s = .next { s with
        power := { s.power with phase := .latched, pgoodLow := false }
        stored := some { cause := 5, region := sensorRegion (2 * q), value := max a b / 4 } }) ∧
    (min a b < 16 * s.tripLimit (sensorRegion (2 * q)) → exec (.tripComparator q a b) s = .next s) ∧
    (∀ l, (∃ k, k < 88 ∧ 16 * (s.hotSample l).limitSample.tripLimit k ≤ l.getD k 0) → (s.sampleEffects l).powered = false) ∧
    (∀ c, (s.trip c r a).powered = false ∧ (s.trip c r a).regs = s.regs ∧ (s.trip c r a).mem = s.mem ∧ (s.trip c r a).out = s.out)

/-- 19 R463: at a recess point of a running course the forecast's largest peak and its region are shown, and a peak that reaches its
throttle limit - 1 K asks for recess with the smallest k that keeps every peak below it, or 255; R462: a limit reached asks for k =
255; R465: after 1,024 samples the excess of the measured rise is shown, and above the threshold for the 16th time in a row sets
decline and raises COOLANT_DECLINE. The forecast itself is a free value (log entry 12). -/
def Obligations.ForecastAndCoolant : Prop :=
  ∀ (s : State), s.powered = true →
    ((∀ p, p < 4 → s.atRecessPoint p = false) → exec .thermalForecast s = .next s) ∧
    (∀ u g a peaks ps, ps = (List.range 4).filter s.atRecessPoint → ps ≠ [] →
      peaks = (List.range 88).map (fun g => (g, Config.forecastPeak s.markPoint.freeCtr g 0 0 0)) → largestOf peaks = some (g, a) →
      u = (((s.markPoint.drawn 1).setF THM_FORECAST THM_FORECAST_peak (min 1023 a)).setF THM_FORECAST THM_FORECAST_region g) →
      (u.nextPoint ps = none → exec .thermalForecast s = .next u) ∧
      (∀ r, u.nextPoint ps = some r → exec .thermalForecast s = .next (u.thermalRequest s.markPoint.freeCtr r peaks))) ∧
    (∀ l g a, largestOf l = some (g, a) → (g, a) ∈ l ∧ ∀ x ∈ l, x.2 ≤ a) ∧
    (∀ ctr r peaks, s.therm.limitReached = false → (∀ x ∈ peaks, x.2 + 4 < 4 * s.throttleLimit x.1) →
      s.thermalRequest ctr r peaks = s) ∧
    (∀ ctr r peaks g a n k, s.therm.limitReached = false →
      largestOf (peaks.filter (fun x => decide (4 * s.throttleLimit x.1 ≤ x.2 + 4))) = some (g, a) →
      n = s.pointsUntil r (s.bellCount + min 34180 (Config.forecastBell ctr g)) → k = s.recessLength ctr n r →
      s.thermalRequest ctr r peaks = (s.setF THM_FORECAST THM_FORECAST_k_last k).requestRecess k n r (s.thermalReason g a).1
        (s.thermalReason g a).2) ∧
    (∀ ctr r peaks g a, s.therm.limitReached = true → largestOf (((List.range 88).map (fun g => (g, s.adopted g))).filter
        (fun x => decide (4 * s.throttleLimit x.1 ≤ x.2 + 4))) = some (g, a) →
      s.thermalRequest ctr r peaks = (s.setF THM_FORECAST THM_FORECAST_k_last 255).requestRecess 255 1 r (s.thermalReason g a).1
        (s.thermalReason g a).2) ∧
    (∀ ctr n r, 1 ≤ s.recessLength ctr n r ∧ s.recessLength ctr n r ≤ 255 ∧
      (∀ k, 1 ≤ k → k < s.recessLength ctr n r → ∃ g, g < 88 ∧ 4 * s.throttleLimit g ≤ Config.forecastPeak ctr g k n r + 4) ∧
      (s.recessLength ctr n r < 255 → ∀ g, g < 88 → Config.forecastPeak ctr g (s.recessLength ctr n r) n r + 4 < 4 * s.throttleLimit g)) ∧
    (s.thermalReason 0 9 = if s.flag THM_COOLANT THM_COOLANT_decline then (3, s.getF THM_COOLANT THM_COOLANT_excess) else (1, 9)) ∧
    ((s.variant ≠ .ahn4W ∨ s.therm.samples < 1024) → exec .coolantEvaluate s = .next s) ∧
    (∀ num den n x u, s.variant = .ahn4W → 1024 ≤ s.therm.samples →
      num = s.therm.riseSum * (697 * s.flow) - 400 * s.therm.powerSum → den = 697 * s.flow * s.therm.samples →
      n = (if (s.getF THM_COOLANT_CTRL THM_COOLANT_CTRL_threshold : Int) * den < num then min 16 (s.therm.declineCount + 1) else 0) →
      x = min 1023 (num / den).toNat →
      u = { s.setF THM_COOLANT THM_COOLANT_excess x with
        therm := { s.therm with samples := 0, riseSum := 0, powerSum := 0, declineCount := n } } →
      ((n < 16 ∨ s.flag THM_COOLANT THM_COOLANT_decline = true) → exec .coolantEvaluate s = .next u) ∧
      (n = 16 → s.flag THM_COOLANT THM_COOLANT_decline = false →
        exec .coolantEvaluate s = .next ((u.setB THM_COOLANT THM_COOLANT_decline true).raise evCoolantDecline 255 0 0 x 0 0 0)))

/-- 20 R486: a missed heartbeat and errors that reach the threshold within 1,024 bells declare a failure, which halts the partition's
course and makes a substitution due, once, from the next bell on where a course ran; R487, R489, R494: a due substitution completes for the lowest tile of its form: the old
seat is field-dead, the tile takes the first good substitute, its buffer, engines and local memory are set afresh, its lockers are
lost until evacuated, and SUBSTITUTION is raised; without a substitute left the tile is unseated. -/
def Obligations.Substitution : Prop :=
  ∀ (s : State) (lt test : Nat), s.powered = true →
    (s.present lt = true → s.bring.substs.any (fun x => x.lt == lt) = false →
      exec (.heartbeatTimeout lt) s = .next { s.declareHalt (s.partOfLt lt) hcTile with
        bring := { (s.declareHalt (s.partOfLt lt) hcTile).bring with
          substs := (s.declareHalt (s.partOfLt lt) hcTile).bring.substs ++
            [{ lt := lt, test := 0, bell := s.bellCount + boolNat (s.courseGoes (s.partOfLt lt)) }] } }) ∧
    (s.bring.substs.any (fun x => x.lt == lt) = true → exec (.heartbeatTimeout lt) s = .next s) ∧
    (s.present lt = false → exec (.heartbeatTimeout lt) s = .next s ∧ exec (.errorsThreshold lt) s = .next s) ∧
    (∀ th, th = s.getF BRG_SUB_CTRL BRG_SUB_CTRL_threshold → s.present lt = true → th ≠ 0 →
      (s.tile lt).errBase + th ≤ s.tileErrors lt → s.bellCount < (s.tile lt).errBell + 1024 →
      exec (.errorsThreshold lt) s = .next (s.tileFailure lt 0)) ∧
    (s.present lt = true → (s.tile lt).errBell + 1024 ≤ s.bellCount →
      exec (.errorsThreshold lt) s = .next (s.modTile lt (fun t => { t with
        errBase := s.tileErrors lt, errBell := s.bellCount }))) ∧
    (s.present lt = true → s.getF BRG_SUB_CTRL BRG_SUB_CTRL_threshold = 0 → s.bellCount < (s.tile lt).errBell + 1024 →
      (s.tile lt).errBase ≤ s.tileErrors lt → exec (.errorsThreshold lt) s = .next s) ∧
    (∀ x, s.bring.substs.find? (fun y => y.lt == lt) = some x → (∀ y ∈ s.bring.substs, y.lt / 16 = lt / 16 → lt ≤ y.lt) →
      (∀ y ∈ s.bring.substs, y.lt = lt → y.bell ≤ s.bellCount) → exec (.substitutionComplete lt) s =
        .next (({ s with bring := { s.bring with substs := s.bring.substs.filter (fun y => y.lt != lt) } } : State).substitute lt
          x.test)) ∧
    ((∃ y ∈ s.bring.substs, y.lt / 16 = lt / 16 ∧ y.lt < lt) → exec (.substitutionComplete lt) s = .next s) ∧
    ((∃ y ∈ s.bring.substs, y.lt = lt ∧ s.bellCount < y.bell) → exec (.substitutionComplete lt) s = .next s) ∧
    (s.bring.substs.find? (fun y => y.lt == lt) = none → exec (.substitutionComplete lt) s = .next s) ∧
    (∀ k t, s.present lt = true → test < 64 → (s.setSeat (s.seatOf lt) 2 test 0).nextSubstitute (ltForm lt) = some k → t = s.substitute lt test →
      t.seatStatus (s.seatOf lt) = 2 ∧ t.seatIdx lt = k ∧ t.evacPending lt = true ∧
      (s.flag TRN_AREA TRN_AREA_enable = true → t.flag (TRN_STATUS_LT lt) TRN_STATUS_LT_area_lost = true) ∧
      (∀ n, n < 256 → n ≠ lt → t.seatIdx n = s.seatIdx n) ∧ t.crs = s.crs) ∧
    (∀ t, s.present lt = true → test < 64 → (s.setSeat (s.seatOf lt) 2 test 0).nextSubstitute (ltForm lt) = none → t = s.substitute lt test →
      t.seatStatus (s.seatOf lt) = 2 ∧ t.present lt = false ∧ (∀ n, n < 256 → n ≠ lt → t.seatIdx n = s.seatIdx n) ∧ t.mem = s.mem ∧
      t.crs = s.crs)

/-- 20 R470, R474, R477, R479, 21 R507, 17 R419, R424, R425, 08 R250: each stage runs at its turn alone; S1 takes the next start number, the fuses, and
the first set that passes, or ends FAILED; S2 locks the reference, calibrates the seams, trains the Milbex Link and ends with it
UP, or holds; S3 trains every layer or ends FAILED. -/
def Obligations.StagesToMemory : Prop :=
  ∀ (s : State) (d : Nat), s.powered = true →
    (∀ lf, s.stageIs 1 0 = true →
      Gives (.stageS1Boot d lf) s (fun t =>
        t.reg BRG_START_COUNT = BitVec.ofNat 32 (s.lastStart + 1) ∧ t.reg SEC_STEPPING = BitVec.ofNat 32 (Config.fuseStepping % 2 ^ 24) ∧
        t.getF PWR_CAP PWR_CAP_cap_w = designPower s.variant ∧ t.stored = none ∧
        t.reg (BRG_CARD 1 2) = BitVec.ofNat 32 (s.lastStart + 1) ∧
        (match (chooseSet lf (candidates (s.getF SEC_SET SEC_SET_boot)) (s.loadFuses.readLedger.setReg SEC_SYLLABUS
            (BitVec.ofNat 32 (syGeneration s.sec.syllabus)))).1 with
          | some k => t.getF SEC_SET SEC_SET_running = k ∧ t.getF SEC_SET SEC_SET_boot = k ∧ t.reg (BRG_CARD 1 4) = BitVec.ofNat 32 k ∧
            t.stageIs 2 0 = true
          | none => t.stageIs 1 (if s.bring.hold then 4 else 3) = true ∧ bitsAt (t.reg (BRG_CARD 1 0)).toNat 8 8 = cardFAIL) ∧
        t = { s with regs := t.regs, mem := t.mem, bring := t.bring, sec := t.sec, mgmt := t.mgmt, out := t.out, stored := t.stored })) ∧
    (∀ (l : List Nat) u, (∀ k ∈ l, u.setFailed k = true) → (chooseSet [] l u).1 = none) ∧
    (∀ f trims, s.stageIs 2 0 = true → (∀ i, i < 8 → s.altInForce i = false) →
      Gives (.stageS2Clocks d [] trims) s (fun t => t.stageIs 2 1 = true ∧ t.flag CLK_REF CLK_REF_locked = true ∧
        t.flag CLK_REF CLK_REF_ref_sel = false ∧
        (∀ m, m < 4 → t.flag (CLK_SEAM m) CLK_SEAM_calibrated = true ∧
          t.getF (CLK_SEAM m) CLK_SEAM_active_mode = s.getF (CLK_SEAM m) CLK_SEAM_mode) ∧
        (f < 4 → tgetD t.clock.trims f 0 = trims.getD f 0) ∧
        (s.flag MXL_STATE MXL_STATE_enable = true → s.mxlSt = 0 → t.mxlSt = 1) ∧ t.tiles = s.tiles ∧ t.mem = s.mem ∧ t.sec = s.sec)) ∧
    (∀ fails trims, s.stageIs 2 0 = true → fails.contains (0, 0) = true → fails.contains (0, 1) = true →
      Gives (.stageS2Clocks d fails trims) s (fun t => t.stageIs 2 (if s.bring.hold then 4 else 3) = true ∧
        bitsAt (t.reg (BRG_CARD 2 0)).toNat 8 8 = cardFAIL ∧ t.reg (BRG_CARD 2 3) = 0x2000 ∧ t.tiles = s.tiles ∧ t.mem = s.mem)) ∧
    (∀ fails trims, s.stageIs 2 1 = true → s.mxlUp = true →
      Gives (.stageS2Clocks d fails trims) s (fun t =>
        t.stageIs (if s.bring.hold then 2 else 3) (if s.bring.hold then 4 else 0) = true ∧
        t.altInForce 7 = s.flag MXL_STATE MXL_STATE_half_width ∧
        t.reg (BRG_CARD 2 4) = BitVec.ofNat 32 s.seamModes ∧ t.reg (BRG_CARD 2 1) = BitVec.ofNat 32 (min d (2 ^ 32 - 1)) ∧
        t = { s with regs := t.regs, bring := t.bring, sec := t.sec, mgmt := t.mgmt, out := t.out, mxl := t.mxl, evRings := t.evRings,
                     freeCtr := t.freeCtr } ∧
        ∀ a, eventReg a = false → a ≠ BRG_STAGE → (∀ k < 9, ∀ i < 8, a ≠ BRG_CARD k i) → t.reg a = s.reg a)) ∧
    (∀ fails bad corrected columns, s.stageIs 3 0 = true →
      Gives (.stageS3Memory d fails bad [] corrected columns []) s (fun t => t.stageIs 4 0 = true ∧
        (∀ l, l < 4 → t.layerTrained l = true ∧ (t.layer l).selfRefresh = false) ∧ t.reg (BRG_CARD 3 4) = 15 ∧
        t.reg (BRG_CARD 3 5) = BitVec.ofNat 32 corrected ∧ t.reg (BRG_CARD 3 6) = BitVec.ofNat 32 columns ∧
        t.mem = s.mem ∧ t.tiles = s.tiles ∧ t.sec = s.sec ∧ t.clock = s.clock)) ∧
    (∀ fails bad l corrected columns dead, s.stageIs 3 0 = true → l < 4 →
      Gives (.stageS3Memory d fails bad [l] corrected columns dead) s (fun t =>
        t.stageIs 3 (if s.bring.hold then 4 else 3) = true ∧ bitsAt (t.reg (BRG_CARD 3 0)).toNat 8 8 = cardFAIL ∧
        t.reg (BRG_CARD 3 3) = BitVec.ofNat 32 (0x3000 + l) ∧ t.layerTrained l = s.layerTrained l)) ∧
    (∀ (lf : List Nat) fails trims x bad lost dead, (s.stageIs 1 0 = false → exec (.stageS1Boot d lf) s = .next s) ∧
      (s.stageIs 2 0 = false → s.stageIs 2 1 = false → exec (.stageS2Clocks d fails trims) s = .next s) ∧
      (s.stageIs 3 0 = false → exec (.stageS3Memory d lf bad lost x x dead) s = .next s))

/-- 01 R29, 20 R470, R477, R479, R481, 21 R506, R508, R514, 12 R333: S4 tests the seats, seats the forms and excludes one that cannot be ungated; S5
ends FAILED where the dies do not match and forms the rights otherwise; S6 trains the licensed ports but those of a dimension of size 1 (12 R322), and with the link map
loaded holds DARK those that went DOWN; S8 raises the fused floor, and the running set is known good. -/
def Obligations.StagesToReady : Prop :=
  ∀ (s : State) (d : Nat), s.powered = true →
    (∀ quiz covers gate rf, s.stageIs 4 0 = true →
      Gives (.stageS4Seating d quiz covers gate rf) s (fun t => t.stageIs 5 0 = true ∧ t.therm.modelValid = true ∧
        (∀ f, f < 16 → tgetD t.bring.carry.rf f 0 = rf.getD f 0) ∧ (∀ f, f < 16 → gate.contains f = true → t.excluded f = true) ∧
        t.power = s.power ∧ t.clock = s.clock ∧ t.sec = s.sec)) ∧
    (∀ m test, s.stageIs 4 0 = true → m < 288 → s.seatStatus m ≠ 1 → 0 < test → test < 64 →
      Gives (.stageS4Seating d [(m, test)] [] [] []) s (fun t => t.seatGood m = false)) ∧
    (∀ stepping, s.stageIs 5 0 = true → BitVec.ofNat 32 stepping ≠ s.reg SEC_STEPPING →
      Gives (.stageS5Licences d stepping) s (fun t => t.stageIs 5 (if s.bring.hold then 4 else 3) = true ∧
        t.getF SEC_LAST_REJECT SEC_LAST_REJECT_reason = 13 ∧ t.reg (BRG_CARD 5 3) = BitVec.ofNat 32 (13 * 2 ^ 16) ∧
        t = { s with regs := t.regs, bring := t.bring, mgmt := t.mgmt, out := t.out })) ∧
    (∀ stepping, s.stageIs 5 0 = true → BitVec.ofNat 32 stepping = s.reg SEC_STEPPING → s.sec.licences = [] →
      Gives (.stageS5Licences d stepping) s (fun t => t.stageIs 6 0 = true ∧ t.reg SEC_LICENCE = 0 ∧
        t.getF SEC_LICENCE_SIZE SEC_LICENCE_SIZE_max_size = 1 ∧ (∀ p, p < 6 → t.flag (PORT_STATE p) PORT_STATE_licensed = false) ∧
        t = { s with regs := t.regs, bring := t.bring, sec := t.sec, mgmt := t.mgmt, out := t.out })) ∧
    (s.stageIs 6 0 = true →
      Gives (.stageS6Ports d) s (fun t => t.stageIs 6 1 = true ∧
        (∀ p, p < 6 → s.portAlone p = true → t.portSt p = s.portSt p) ∧
        ∀ p, p < 6 → s.flag (PORT_STATE p) PORT_STATE_licensed = true → s.flag (PORT_STATE p) PORT_STATE_enable = true →
          s.altInForce (316 + p) = false → s.portAlone p = false → t.portSt p = 1)) ∧
    (s.stageIs 6 1 = true → s.map.loaded = true →
      Gives (.stageS6Ports d) s (fun t => t.stageIs 7 1 = true ∧
        ∀ p, p < 6 → s.flag (PORT_STATE p) PORT_STATE_licensed = true → s.flag (PORT_STATE p) PORT_STATE_enable = true →
          s.altInForce (316 + p) = false → s.portAlone p = false → s.portSt p = 9 →
          t.portSt p = 0 ∧ (t.port p).heldDark = true ∧ t.altInForce (316 + p) = true)) ∧
    (∀ total, s.stageIs 8 0 = true →
      Gives (.stageS8Ready d total) s (fun t => t.stageIs 8 2 = true ∧
        t.getF SEC_SET SEC_SET_known_good = s.getF SEC_SET SEC_SET_running ∧ t.getF BRG_STAGE BRG_STAGE_unready = 0 ∧
        t.sec.fuseFloor = max s.sec.fuseFloor (syFloor s.sec.syllabus) ∧ t.reg (BRG_CARD 8 4) = BitVec.ofNat 32 total ∧
        t = { s with regs := t.regs, bring := t.bring, sec := t.sec, mgmt := t.mgmt, out := t.out } ∧
        ∀ a, a ≠ BRG_STAGE → a ≠ SEC_SET → a ≠ SEC_KEYS → (∀ i < 8, a ≠ BRG_CARD 8 i) → t.reg a = s.reg a)) ∧
    (∀ quiz covers gate rf x total, (s.stageIs 4 0 = false → exec (.stageS4Seating d quiz covers gate rf) s = .next s) ∧
      (s.stageIs 5 0 = false → exec (.stageS5Licences d x) s = .next s) ∧
      (s.stageIs 6 0 = false → s.stageIs 6 1 = false → exec (.stageS6Ports d) s = .next s) ∧
      (s.stageIs 8 0 = false → exec (.stageS8Ready d total) s = .next s))

/-- 02 R85, 09 R280, 03 R113, R115: a bit of clear_peak, clear or clear_all clears what it names; 00 R12: a 1 clears a
write-1-to-clear bit, a 0 leaves it, and a read-only bit stays; R13: a bit that stands and that the hardware sets in the cycle of the
write (now) stays; the summary of the flags is the OR of what is left. -/
def Obligations.RegisterClears : Prop :=
  ∀ (s : State) (w now : Word), s.powered = true →
    (fldGet w BELL_STRETCH_clear_peak = 1 →
      exec (.bellClearPeak w) s = .next (s.setF BELL_STRETCH BELL_STRETCH_peak_charge 0)) ∧
    (fldGet w BELL_OVERRUN_COUNT_clear = 1 →
      exec (.bellOverrunClear w) s = .next (s.setF BELL_OVERRUN_COUNT BELL_OVERRUN_COUNT_count 0)) ∧
    (fldGet w NBU_TOKENS_clear_peak = 1 →
      exec (.nbuTokensClearPeak w) s = .next (s.setF NBU_TOKENS NBU_TOKENS_peak 0)) ∧
    (fldGet w ARI_SUMMARY_clear_all = 1 →
      Gives (.ariClearAll w) s (fun t => (∀ n < 256, t.reg (ARI_FLAGS_LT n) = 0) ∧ (∀ p < 6, t.reg (ARI_FLAGS_PORT p) = 0) ∧
        t.reg ARI_SUMMARY = 0 ∧ t.reg ARI_FIRST = 0 ∧ t = { s with regs := t.regs } ∧
        ∀ a, a ≠ ARI_SUMMARY → a ≠ ARI_FIRST → (∀ n < 256, a ≠ ARI_FLAGS_LT n) → (∀ p < 6, a ≠ ARI_FLAGS_PORT p) →
          t.reg a = s.reg a)) ∧
    (∀ n, n < 256 → s.excluded (ltForm n) = false →
      Gives (.ariFlagClear false n ⟨w, now⟩) s (fun t => t.reg (ARI_FLAGS_LT n) = s.reg (ARI_FLAGS_LT n) &&& ~~~(w &&& 0x707 &&& ~~~now) ∧
        t.reg ARI_SUMMARY = BitVec.ofNat 32 t.ariAny ∧ t = { s with regs := t.regs } ∧
        ∀ a, a ≠ ARI_SUMMARY → a ≠ ARI_FLAGS_LT n → t.reg a = s.reg a)) ∧
    (∀ p, p < 6 →
      Gives (.ariFlagClear true p ⟨w, now⟩) s (fun t => t.reg (ARI_FLAGS_PORT p) = s.reg (ARI_FLAGS_PORT p) &&& ~~~(w &&& 7 &&& ~~~now) ∧
        t.reg ARI_SUMMARY = BitVec.ofNat 32 t.ariAny ∧ t = { s with regs := t.regs } ∧
        ∀ a, a ≠ ARI_SUMMARY → a ≠ ARI_FLAGS_PORT p → t.reg a = s.reg a)) ∧
    (∀ l, l < 4 → exec (.memFaultClear l ⟨w, now⟩) s =
      .next (s.setReg (MEM_FAULT_HI l) (s.reg (MEM_FAULT_HI l) &&& ~~~(w &&& 0x80000000 &&& ~~~now)))) ∧
    (∀ f, f < 16 → exec (.crackSuspectClear f ⟨w, now⟩) s = .next (s.setReg (PWR_FORM f) (s.reg (PWR_FORM f) &&& ~~~(w &&& 0x20 &&& ~~~now)))) ∧
    (∀ i, i < 8 → exec (.evacPendingClear i ⟨w, now⟩) s =
      .next (s.setReg (BRG_EVAC_PENDING i) (s.reg (BRG_EVAC_PENDING i) &&& ~~~(w &&& ~~~now)))) ∧
    (exec (.regAccessArmClear ⟨w, now⟩) s = .next (s.setReg REG_ACCESS_ERR (s.reg REG_ACCESS_ERR &&& ~~~(w &&& 0x80000000 &&& ~~~now)))) ∧
    (exec (.coolantDeclineClear ⟨w, now⟩) s = .next (s.setReg THM_COOLANT (s.reg THM_COOLANT &&& ~~~(w &&& 0x40000000 &&& ~~~now)))) ∧
    (∀ lt c, lt < 256 → c < 8 → s.excluded (ltForm lt) = false → exec (.serviceStopClear lt c ⟨w, now⟩) s =
      .next (s.setReg (MOV_STATUS_LT lt c) (s.reg (MOV_STATUS_LT lt c) &&& ~~~(w &&& 0x600 &&& ~~~now))))

/-- 09 R264, 10 R300, 11 R312, 12 R350: registers of the course take no write while a course is loaded; 14 R395, 15 R396, R415: an enabled ring takes only its enable bit, and a head never moves
past the tail; 19 R460, R469: the throttle limits stay between 60 and
their defaults. -/
def Obligations.RegisterRules : Prop :=
  ∀ (s : State) (w : Word), s.powered = true →
    (s.anyLoaded = true →
      exec (.nbuTokenLimitWrite w) s = .next s ∧ exec (.updShadowWrite w) s = .next s ∧ exec (.fabPartWrite w) s = .next s ∧
      ∀ lt, exec (.trnFallbackWrite lt w) s = .next s) ∧
    (s.anyLoaded = false →
      exec (.nbuTokenLimitWrite w) s = .next (s.setF NBU_TOKEN_LIMIT NBU_TOKEN_LIMIT_limit
        (min (fldGet w NBU_TOKEN_LIMIT_limit) (s.getF NBU_TOKEN_LIMIT NBU_TOKEN_LIMIT_max))) ∧
      exec (.fabPartWrite w) s = .next (s.setReg FAB_PART ((s.reg FAB_PART &&& ~~~0xFFF) ||| (w &&& 0xFFF))) ∧
      (∀ lt, lt < 256 → s.excluded (ltForm lt) = false → exec (.trnFallbackWrite lt w) s =
        .next (s.setReg (TRN_STATUS_LT lt) ((s.reg (TRN_STATUS_LT lt) &&& ~~~2) ||| (w &&& 2)))) ∧
      (∀ e, fldGet w UPD_SHADOW_base ≤ 0x3F7 → fldGet w UPD_SHADOW_enable = e →
        Gives (.updShadowWrite w) s (fun t => t.reg UPD_SHADOW = (s.reg UPD_SHADOW &&& ~~~0x800003FF) ||| (w &&& 0x800003FF) ∧
          (∀ p g, p < s.partCount → g = s.group p → t.group p = { g with shadowing := decide (e = 1) } ∧
            t.flag (UPD_STATE p) UPD_STATE_copying = ((g.cmd.isSome && !g.copied) || decide (e = 1))) ∧
          (∀ p, s.partCount ≤ p → t.group p = s.group p) ∧ t = { s with regs := t.regs, groups := t.groups } ∧
          ∀ a, a ≠ UPD_SHADOW → (∀ p < s.partCount, a ≠ UPD_STATE p) → t.reg a = s.reg a)) ∧
      (0x3F7 < fldGet w UPD_SHADOW_base → exec (.updShadowWrite w) s = .next s)) ∧
    (∀ r, r < 64 →
      (s.flag (CMD_RING_CFG r) CMD_RING_CFG_enable = true →
        exec (.ringCfgWrite (CMD_RING_CFG r) w) s =
          .next (s.setF (CMD_RING_CFG r) CMD_RING_CFG_enable (fldGet w CMD_RING_CFG_enable)) ∧
        exec (.ringCfgWrite (CMD_RING_BASE_LO r) w) s = .next s) ∧
      (s.flag (CMD_RING_CFG r) CMD_RING_CFG_enable = false →
        exec (.ringCfgWrite (CMD_RING_CFG r) w) s =
          .next (s.setReg (CMD_RING_CFG r) ((s.reg (CMD_RING_CFG r) &&& ~~~0xF3FFF) ||| (w &&& 0xF3FFF))) ∧
        exec (.ringCfgWrite (CMD_RING_BASE_LO r) w) s =
          .next (s.setReg (CMD_RING_BASE_LO r) ((s.reg (CMD_RING_BASE_LO r) &&& ~~~0xFFFFF000) ||| (w &&& 0xFFFFF000)))) ∧
      (s.flag (CPL_RING_CFG r) CPL_RING_CFG_enable = true →
        exec (.ringCfgWrite (CPL_RING_CFG r) w) s =
          .next (s.setF (CPL_RING_CFG r) CPL_RING_CFG_enable (fldGet w CPL_RING_CFG_enable)) ∧
        exec (.ringCfgWrite (CPL_RING_BASE_LO r) w) s = .next s) ∧
      (ringUsed (s.reg (CPL_RING_HEAD r)).toNat w.toNat ≤
          ringUsed (s.reg (CPL_RING_HEAD r)).toNat (s.reg (CPL_RING_TAIL r)).toNat →
        exec (.cplRingHeadWrite r w) s = .next (s.setReg (CPL_RING_HEAD r) w)) ∧
      (ringUsed (s.reg (CPL_RING_HEAD r)).toNat (s.reg (CPL_RING_TAIL r)).toNat <
          ringUsed (s.reg (CPL_RING_HEAD r)).toNat w.toNat →
        exec (.cplRingHeadWrite r w) s = .next s)) ∧
    (∀ e, e < 8 →
      (s.flag (EVT_RING_CFG e) EVT_RING_CFG_enable = true →
        exec (.ringCfgWrite (EVT_RING_CFG e) w) s =
          .next (s.setF (EVT_RING_CFG e) EVT_RING_CFG_enable (fldGet w EVT_RING_CFG_enable))) ∧
      (s.flag (EVT_RING_CFG e) EVT_RING_CFG_enable = false →
        exec (.ringCfgWrite (EVT_RING_CFG e) w) s =
          .next (s.setReg (EVT_RING_CFG e) ((s.reg (EVT_RING_CFG e) &&& ~~~0x1FF03FF) ||| (w &&& 0x1FF03FF)))) ∧
      (ringUsed (s.reg (EVT_RING_HEAD e)).toNat w.toNat ≤
          ringUsed (s.reg (EVT_RING_HEAD e)).toNat (s.reg (EVT_RING_TAIL e)).toNat →
        exec (.evtRingHeadWrite e w) s = .next (s.setReg (EVT_RING_HEAD e) w)) ∧
      (ringUsed (s.reg (EVT_RING_HEAD e)).toNat (s.reg (EVT_RING_TAIL e)).toNat <
          ringUsed (s.reg (EVT_RING_HEAD e)).toNat w.toNat →
        exec (.evtRingHeadWrite e w) s = .next s)) ∧
    Gives (.throttleLimitWrite w) s (fun t =>
      t.getF THM_THROTTLE_LIMIT THM_THROTTLE_LIMIT_cd = max 60 (min 95 (fldGet w THM_THROTTLE_LIMIT_cd)) ∧
      t.getF THM_THROTTLE_LIMIT THM_THROTTLE_LIMIT_ml = max 60 (min 90 (fldGet w THM_THROTTLE_LIMIT_ml)) ∧
      t.getF THM_THROTTLE_LIMIT THM_THROTTLE_LIMIT_bd = max 60 (min 95 (fldGet w THM_THROTTLE_LIMIT_bd)) ∧
      t = { s with regs := t.regs } ∧ ∀ a, a ≠ THM_THROTTLE_LIMIT → t.reg a = s.reg a)

/-- 02 R85: a 32-bit read of a LO register keeps the HI register for its requester, whose next 32-bit read of it returns and drops
what was kept. 00 R12: a write reaches the fields that take one; the enables of a port and of the Milbex Link hold them down. -/
def Obligations.RegisterAccesses : Prop :=
  ∀ (s : State), s.powered = true →
    (∀ req a, a ∈ loPairs → tfind s.shadows (shadowKey req a) = none →
      exec (.loRegisterRead req a) s = .next { s with shadows := tput s.shadows (shadowKey req (a + 4)) (s.regRead (a + 4)) } ∧
      ∀ t : State, t.powered = true → t.shadows = tput s.shadows (shadowKey req (a + 4)) (s.regRead (a + 4)) →
        (t.accessRead req (a + 4) 4).1 = (s.regRead (a + 4)).toNat ∧
        exec (.loRegisterRead req (a + 4)) t = .next { t with shadows := tdel t.shadows (shadowKey req (a + 4)) }) ∧
    (∀ v now, exec (.registerWrite BRG_EXAM_CTRL 4 ⟨v, now⟩) s =
      .next (s.setReg BRG_EXAM_CTRL ((s.reg BRG_EXAM_CTRL &&& ~~~1) ||| (BitVec.ofNat 32 v &&& 1)))) ∧
    (∀ v now, Gives (.registerWrite BELL_COUNT_LO 4 ⟨v, now⟩) s (fun t => t = { s with regs := t.regs } ∧ ∀ a, t.reg a = s.reg a)) ∧
    (∀ p v now, p < 6 → fldGet (BitVec.ofNat 32 v) PORT_STATE_enable = 0 →
      Gives (.registerWrite (PORT_STATE p) 4 ⟨v, now⟩) s (fun t => t.portSt p = 0 ∧
        t.flag (PORT_STATE p) PORT_STATE_enable = false ∧
        t = { s with regs := t.regs, freeCtr := t.freeCtr, mxl := t.mxl, evRings := t.evRings, mgmt := t.mgmt, out := t.out } ∧
        ∀ a, eventReg a = false → a ≠ PORT_STATE p → t.reg a = s.reg a)) ∧
    (∀ v now, fldGet (BitVec.ofNat 32 v) MXL_STATE_enable = 0 →
      Gives (.registerWrite MXL_STATE 4 ⟨v, now⟩) s (fun t => t.mxlSt = 0 ∧ t.flag MXL_STATE MXL_STATE_enable = false ∧
        t = { s with regs := t.regs, freeCtr := t.freeCtr, mxl := t.mxl, evRings := t.evRings, mgmt := t.mgmt, out := t.out } ∧
        ∀ a, eventReg a = false → a ≠ MXL_STATE → t.reg a = s.reg a))

/-- Each command runs: on a module with power, under the conditions that its rules set on the state and the operands (a command of a
ring accepted, an engine whose descriptor, instruction or entry is next, a flit, symbol or message that is good and expected), it
answers the next state that its operation gives. What each operation leaves in the state is stated family by family by the other
statements; under other conditions, too, a command answers a next state (EveryCommandAnswers). -/
def Obligations.EveryCommandCompletes : Prop :=
  ∀ s : State,
    (∀ volts, exec (.inputValid volts) s = .next (s.inputValid volts)) ∧
    (∀ volts duration, s.power.phase = .rising → exec (.powerGood volts duration) s = .next (s.powerGood volts duration)) ∧
    (∀ value ms, s.power.phase = .latched → 100 ≤ ms → exec (.inputLowShutdown value ms) s = .next
      { s with power := { s.power with phase := .off } }) ∧
    (s.power.phase = .on → s.clock.gateClosed = true → exec .stackResetRelease s = .next s.released) ∧
    (s.powered = true →
      ((∀ value ms, exec (.inputLowShutdown value ms) s = .next (s.shutdown 1 0 value)) ∧
      (∀ value, exec (.inputHighShutdown value) s = .next (s.shutdown 2 0 value)) ∧
      (∀ value, exec (.vcmpOvercurrentShutdown value) s = .next (s.shutdown 3 0 value)) ∧
      (∀ value, exec (.domainSagShutdown value) s = .next (s.shutdown 4 0 value)) ∧
      (∀ phase, exec (.phaseFault phase) s = .next (s.phaseFault phase)) ∧
      (∀ form amps, exec (.isolationSwitchOpen form amps) s = .next (s.isolate form amps)) ∧
      exec .vcmpSetpointStep s = .next s.setpointStep ∧
      (∀ form mv amps, exec (.crackCompare form mv amps) s = .next (s.crackCompare form mv amps)) ∧
      (∀ (e : BellEnergy), s.energy.counted = false → exec (.energyAccumulate e) s = .next (s.addBell e)) ∧
      exec .powerRecessEvaluate s = .next s.powerRecess ∧
      exec .budgetTakeEffect s = .next s.budgetTake) ∧
      (exec .referenceLoss s = .next s.referenceLoss ∧
      exec .referenceSwitch s = .next s.referenceSwitch ∧
      (s.flag CLK_REF CLK_REF_holdover → exec .holdoverTimeout s = .next s.holdoverEnds) ∧
      (∀ die site, exec (.droopAssert die site) s = .next (s.droopAssert die site)) ∧
      (∀ die site periods, exec (.droopDeassert die site periods) s = .next (s.droopEnd die site periods)) ∧
      (∀ die site periods, 1024 ≤ periods → exec (.droopDetectorMask die site periods) s = .next (s.droopMask die site periods)) ∧
      (∀ group site margin, exec (.canaryAct group site margin) s = .next (s.canaryAct group site margin)) ∧
      (∀ group site margin, exec (.canaryWarn group site margin) s = .next (s.canaryWarn group site margin)) ∧
      (∀ (seam : Nat) (phase : Int), exec (.seamExcursion seam phase) s = .next (s.seamExcursion seam phase))) ∧
      ((s.resetDue = true → exec .stackReset s = .next s.resetStarts) ∧
      (s.clock.resetBegun → exec .stackResetGateClose s = .next s.gateCloses) ∧
      (∀ (step : Option Nat), exec (.watchdogExpiry step) s = .next (s.watchdog step)) ∧
      (∀ depart, exec (.bellStart depart) s = .next ((s.enginesAll.bellStart depart).svcDrainAll)) ∧
      exec .guardStart s = .next s.enginesAll.guardStart.svcDrainAll ∧
      (∀ (phases : List Int) (failed : List Nat), exec (.refreshSlotA phases failed) s = .next (s.refreshA phases failed)) ∧
      exec .refreshSlotB s = .next (forEach (List.range 4) { s with cyc := 3904 } State.slotB) ∧
      (∀ (hot : List Nat) (cut : List (Nat × Nat)), exec (.serviceSlot ⟨hot, cut⟩) s = .next (s.serviceSlot hot cut))) ∧
      ((∀ p k, exec (.formUngateStep p k) s = .next (s.ungateStep p k)) ∧
      (∀ p k, exec (.formGateStep p k) s = .next (s.gateStep p k)) ∧
      (∀ p, p < 4 → exec (.lessonArm p) s = .next (s.lessonArm p)) ∧
      exec .bellOverrun s = .next s.bellOverrun ∧
      exec .bellSymbolMissing s = .next s.bellMissing ∧
      exec .rejoinComplete s = .next s.rejoin ∧
      (∀ p, p < 4 → exec (.haltBellReached p) s = .next (s.haltReached p))) ∧
      ((∀ lt, (s.present lt && s.haltingPart (s.partOfLt lt)) → exec (.haltNoticeTile lt) s = .next (s.haltTile lt)) ∧
      (∀ l, l < 4 → exec (.haltNoticeLayer l) s = .next (forEach ((List.range 4).filter s.haltingPart) s (fun s p => s.haltLayer l p))) ∧
      (∀ port, (port < 6 && s.haltingPart (s.partOfPort port)) → exec (.haltNoticePort port) s = .next (s.modPort port (fun t =>
        { t with quiesced := true }))) ∧
      (∀ node, exec (.quiesceReport node) s = .next (s.quiesce node)) ∧
      exec .stopReportTimeout s = .next s.stopTimeout) ∧
      (exec .recessAnnounce s = .next s.recessAnnounce ∧
      (∀ (ring tag : Nat) (c : Cmd), s.findCmd ring tag opROSTER_COMMIT = some c →
        exec (.rosterDeadline ring tag) s = .next (s.rosterDeadline c)) ∧
      (∀ (ring tag : Nat) (c : Cmd), s.findCmd ring tag opROSTER_COMMIT = some c →
        exec (.rosterCopyComplete ring tag) s = .next (s.rosterDone c)) ∧
      (∀ lt, exec (.rosterTileWrite lt) s = .next (s.rosterWrite lt)) ∧
      (∀ p c, s.pendingStart p = some c → c.pkt.opcode = opCOURSE_START → exec (.courseStartCommit p) s = .next (s.startCommit p c)) ∧
      (∀ p c, s.pendingStart p = some c → c.pkt.opcode = opCOURSE_RESUME → exec (.courseResumeCommit p) s = .next (s.startCommit p c)) ∧
      (∀ p, p < 4 → exec (.courseRestageDone p) s = .next (s.restage p))) ∧
      ((∀ p, p < 4 → exec (.groupTableCopyDone p) s = .next (s.groupCopied p)) ∧
      (∀ (ring tag : Nat) (c : Cmd), s.findCmd ring tag opGROUP_TABLE = some c → c.phase = .active →
        exec (.groupTableCommit ring tag) s = .next (s.groupCommit c)) ∧
      exec .shadowEnableDone s = .next s.shadowDone ∧
      (∀ j c, s.sec.job = some j → s.findTag j.ring j.tag = some c → c.pkt.opcode = opIMAGE_ACTIVATE → c.phase = .active →
        s.atCourseBoundary = true → exec .imageActivateCommit s = .next (s.activateCommit c)) ∧
      (∀ (rejected : Bool), exec (.imageSwitchDone rejected) s = .next (s.switchDone rejected)) ∧
      exec .knownGoodUpdate s = .next s.knownGood) ∧
      ((∀ (ring tag : Nat) (c : Cmd), s.findCmd ring tag opBELL_JOIN = some c → c.phase = .active →
        exec (.bellJoinCommit ring tag) s = .next (s.joinCommit c)) ∧
      (∀ (ring tag : Nat) (c : Cmd), s.findCmd ring tag opBELL_JOIN = some c → c.phase = .active →
        exec (.bellJoinTimeout ring tag) s = .next (s.joinTimeout c)) ∧
      (∀ lt idx d u, s.mxeDesc lt idx moLOAD = some d → u = s.engines lt (dStartCycle d) →
        exec (.mxeLoad lt idx (dStartCycle d)) s = .next ((({ u with cyc := dStartCycle d } : State).startLoad lt d).showMxe lt)) ∧
      (∀ lt idx d u, s.mxeDesc lt idx moPASS = some d → u = s.engines lt (dStartCycle d) →
        exec (.mxePass lt idx (dStartCycle d)) s = .next ((({ u with cyc := dStartCycle d } : State).startPass lt idx d).showMxe lt)) ∧
      (∀ lt idx d u, s.mxeDesc lt idx moSEND = some d → u = s.engines lt (dStartCycle d) →
        exec (.mxeSend lt idx (dStartCycle d)) s = .next ((({ u with cyc := dStartCycle d } : State).startSend lt d).showMxe lt)) ∧
      (∀ lt idx row, exec (.mxeMerge lt idx row) s = .next (s.doMerge lt idx row)) ∧
      (∀ lt idx, exec (.descriptorFetch lt idx) s = .next (s.takeFields lt idx))) ∧
      ((∀ lt idx d u, VeReady s lt idx voRUN d → u = s.engines lt (dStartCycle d) →
        exec (.veRun lt idx) s = .next ((({ u with cyc := dStartCycle d } : State).veRun lt idx d).showVe lt)) ∧
      (∀ lt idx d u, VeReady s lt idx voTABLE d → u = s.engines lt (dStartCycle d) →
        exec (.veTable lt idx (dStartCycle d)) s = .next ((({ u with cyc := dStartCycle d } : State).veTable lt d).showVe lt)) ∧
      (∀ lt idx d u, VeReady s lt idx voCACHE d → u = s.engines lt (dStartCycle d) →
        exec (.veCache lt idx (dStartCycle d)) s = .next ((({ u with cyc := dStartCycle d } : State).veJob lt d (dBits d 0 42 9 + 1)).showVe lt)) ∧
      (∀ lt r i x, SlateReady s lt r i x → i.op = 0 → exec (.slateNop lt) s = .next ((({ s.engines lt x with cyc := x % 4096 } :
        State).issued lt r).showVe lt)) ∧
      (∀ lt r i x, SlateReady s lt r i x → ∀ row ∈ ([(.slateMov lt, 0x01, slMov), (.slateAdd lt, 0x02, slAdd),
        (.slateSub lt, 0x03, slSub), (.slateMul lt, 0x04, slMul), (.slateMac lt, 0x05, slMac), (.slateNeg lt, 0x06, slNeg),
        (.slateAbs lt, 0x07, slAbs), (.slateMin lt, 0x08, slMin), (.slateMax lt, 0x09, slMax), (.slateShl lt, 0x10, slShl),
        (.slateShr lt, 0x11, slShr), (.slateShrl lt, 0x12, slShrl), (.slateAnd lt, 0x18, fun y => bitwise y Nat.land),
        (.slateOr lt, 0x19, fun y => bitwise y Nat.lor), (.slateXor lt, 0x1A, fun y => bitwise y Nat.xor), (.slateNot lt, 0x1B, slNot),
        (.slateCmpeq lt, 0x20, slCmpeq), (.slateCmplt lt, 0x21, slCmplt), (.slateCmple lt, 0x22, slCmple), (.slateSel lt, 0x23, slSel),
        (.slateAlign lt, 0x28, slAlign), (.slateGete lt, 0x29, slGete), (.slateSete lt, 0x2A, slSete), (.slateGetf lt, 0x2B, slGetf),
        (.slateClrf lt, 0x2C, slClrf), (.slateCvt lt, 0x2D, slCvt), (.slateRsum lt, 0x30, slRsum),
        (.slateRmax lt, 0x31, fun y => maxOf y id), (.slateRmaxabs lt, 0x32, slRmaxabs), (.slateRcpw lt, 0x34, slRcpw),
        (.slateLut lt, 0x38, slLut), (.slateRq lt, 0x3C, slRq), (.slateExps lt, 0x3D, slExps)] : List (Instr × Nat × (SlateIn →
        VeFlight))), i.op = row.2.1 → ∀ y d z u v, ({ s.engines lt x with cyc := x % 4096 } : State).slateIn lt r i x = ((y, d, z), u) →
        v = u.modVe lt (fun e => { e with flight := insertFlight { row.2.2 y with at_ := landAt x row.2.1 d, dst := d } e.flight }) →
        exec row.1 s = .next (((v.perfAdd (v.partOfLt lt) 2 1).issued lt z).showVe lt))) ∧
      ((∀ lt idx, exec (.taskStart lt idx) s = .next (s.taskStart lt idx)) ∧
      (∀ gc, s.coreBusy gc = true → s.flag (GC_STATUS gc) GC_STATUS_running = true → s.deadlineDue gc = true →
        exec (.taskDeadline gc) s = .next (s.trap gc ((s.core gc).deadline / 2) trDEADLINE none)) ∧
      (∀ lt cycle, (lt < 256 && s.alive lt) → exec (.gcTbWindow lt cycle) s = .next (s.tbWindow lt cycle)) ∧
      (∀ gc v, (s.core gc).waitc = some v → s.coreBusy gc = true → v ≤ (s.core gc).deadline →
        exec (.waitcWake gc) s = .next (({ s with cyc := v } : State).modCore gc (fun c =>
        { c with waitc := none, issue := max c.issue ((v + 1) / 2) }))) ∧
      (∀ g k w t u, CoreReady s u g k w t → ∀ row ∈ ([(.chalkAdd g, 0, fun a b => a + b, 1, 1), (.chalkSub g, 1, fun a b => a - b, 1, 1),
        (.chalkAnd g, 2, fun a b => a &&& b, 1, 1), (.chalkOr g, 3, fun a b => a ||| b, 1, 1),
        (.chalkXor g, 4, fun a b => a ^^^ b, 1, 1), (.chalkSll g, 5, fun a b => a <<< (b.toNat % 32), 1, 1),
        (.chalkSrl g, 6, fun a b => a >>> (b.toNat % 32), 1, 1), (.chalkSra g, 7, fun a b => a.sshiftRight (b.toNat % 32), 1, 1),
        (.chalkSlt g, 8, fun a b => wBool (a.slt b), 1, 1), (.chalkSltu g, 9, fun a b => wBool (a.ult b), 1, 1),
        (.chalkMul g, 10, fun a b => a * b, 3, 1), (.chalkMulh g, 11, mulHigh, 3, 1), (.chalkMulhu g, 12, mulHighU, 3, 1),
        (.chalkMin g, 13, fun a b => if b.slt a then b else a, 1, 1), (.chalkMax g, 14, fun a b => if a.slt b then b else a, 1, 1),
        (.chalkClz g, 15, fun a _ => clzWord a, 1, 1), (.chalkDiv g, 16, divWord, 18, 18), (.chalkDivu g, 17, divWordU, 18, 18),
        (.chalkRem g, 18, remWord, 18, 18), (.chalkRemu g, 19, remWordU, 18, 18)] : List (Instr × Nat × (Word → Word →
        Word) × Nat × Nat)), k = 0x100 + row.2.1 → exec row.1 s = .next (u.result ⟨g, w, t⟩ (ckRd w) (row.2.2.1 ((u.core g).get (ckRa w))
        ((u.core g).get (ckRb w))) row.2.2.2.1 row.2.2.2.2)) ∧
      (∀ g k w t u, CoreReady s u g k w t → ∀ row ∈ ([(.chalkAddi g, 0x02, fun a i => a + immS i),
        (.chalkAndi g, 0x03, fun a i => a &&& immZ i), (.chalkOri g, 0x04, fun a i => a ||| immZ i),
        (.chalkXori g, 0x05, fun a i => a ^^^ immZ i), (.chalkSlli g, 0x06, fun a i => a <<< (i % 32)),
        (.chalkSrli g, 0x07, fun a i => a >>> (i % 32)), (.chalkSrai g, 0x08, fun a i => a.sshiftRight (i % 32)),
        (.chalkSlti g, 0x09, fun a i => wBool (a.slt (immS i)))] : List (Instr × Nat × (Word → Nat → Word))), k = row.2.1 →
        exec row.1 s = .next (u.result ⟨g, w, t⟩ (ckRd w) (row.2.2 ((u.core g).get (ckRa w)) (ckImm14 w)) 1 1)) ∧
      (∀ g k w t u, CoreReady s u g k w t → k = 0x0A → exec (.chalkLui g) s = .next (u.result ⟨g, w, t⟩ (ckRd w) (BitVec.ofNat 32
        (ckImm19 w * 2 ^ 13)) 1 1)) ∧
      (∀ g k w t u off, CoreReady s u g k w t → k = 0x10 → u.coreAddr ⟨g, w, t⟩ % 4 = 0 →
        coreArea (u.coreAddr ⟨g, w, t⟩) = .localMem off → exec (.chalkLdw g) s = .next (u.localLoad ⟨g, w, t⟩ off 4 false)) ∧
      (∀ g k w t u off, CoreReady s u g k w t → k = 0x11 → u.coreAddr ⟨g, w, t⟩ % 2 = 0 →
        coreArea (u.coreAddr ⟨g, w, t⟩) = .localMem off → exec (.chalkLdh g) s = .next (u.localLoad ⟨g, w, t⟩ off 2 true)) ∧
      (∀ g k w t u off, CoreReady s u g k w t → k = 0x12 → u.coreAddr ⟨g, w, t⟩ % 2 = 0 →
        coreArea (u.coreAddr ⟨g, w, t⟩) = .localMem off → exec (.chalkLdhu g) s = .next (u.localLoad ⟨g, w, t⟩ off 2 false)) ∧
      (∀ g k w t u off, CoreReady s u g k w t → k = 0x13 → u.coreAddr ⟨g, w, t⟩ % 1 = 0 →
        coreArea (u.coreAddr ⟨g, w, t⟩) = .localMem off → exec (.chalkLdb g) s = .next (u.localLoad ⟨g, w, t⟩ off 1 true)) ∧
      (∀ g k w t u off, CoreReady s u g k w t → k = 0x14 → u.coreAddr ⟨g, w, t⟩ % 1 = 0 →
        coreArea (u.coreAddr ⟨g, w, t⟩) = .localMem off → exec (.chalkLdbu g) s = .next (u.localLoad ⟨g, w, t⟩ off 1 false)) ∧
      (∀ g k w t u off, CoreReady s u g k w t → k = 0x18 → u.coreAddr ⟨g, w, t⟩ % 4 = 0 →
        coreArea (u.coreAddr ⟨g, w, t⟩) = .localMem off → exec (.chalkStw g) s = .next (u.localStore ⟨g, w, t⟩ off 4 (((u.core g).get
        (ckRd w)).toNat % 2 ^ 32))) ∧
      (∀ g k w t u off, CoreReady s u g k w t → k = 0x19 → u.coreAddr ⟨g, w, t⟩ % 2 = 0 →
        coreArea (u.coreAddr ⟨g, w, t⟩) = .localMem off → exec (.chalkSth g) s = .next (u.localStore ⟨g, w, t⟩ off 2 (((u.core g).get
        (ckRd w)).toNat % 2 ^ 16))) ∧
      (∀ g k w t u off, CoreReady s u g k w t → k = 0x1A → u.coreAddr ⟨g, w, t⟩ % 1 = 0 →
        coreArea (u.coreAddr ⟨g, w, t⟩) = .localMem off → exec (.chalkStb g) s = .next (u.localStore ⟨g, w, t⟩ off 1 (((u.core g).get
        (ckRd w)).toNat % 2 ^ 8))) ∧
      (∀ g k w t u, CoreReady s u g k w t → k = 0x20 → exec (.chalkBeq g) s = .next (if ((u.core g).get (ckRd w)) == ((u.core g).get
        (ckRa w)) then u.goOn ⟨g, w, t⟩ 2 (BitVec.ofNat 32 (u.core g).pc + 4 * ckSImm14 w : Word).toNat else u.goOn ⟨g, w, t⟩ 1 ((u.core
        g).pc + 4))) ∧
      (∀ g k w t u, CoreReady s u g k w t → k = 0x21 → exec (.chalkBne g) s = .next (if ((u.core g).get (ckRd w)) != ((u.core g).get
        (ckRa w)) then u.goOn ⟨g, w, t⟩ 2 (BitVec.ofNat 32 (u.core g).pc + 4 * ckSImm14 w : Word).toNat else u.goOn ⟨g, w, t⟩ 1 ((u.core
        g).pc + 4))) ∧
      (∀ g k w t u, CoreReady s u g k w t → k = 0x22 → exec (.chalkBlt g) s = .next (if ((u.core g).get (ckRd w)).slt ((u.core g).get
        (ckRa w)) then u.goOn ⟨g, w, t⟩ 2 (BitVec.ofNat 32 (u.core g).pc + 4 * ckSImm14 w : Word).toNat else u.goOn ⟨g, w, t⟩ 1 ((u.core
        g).pc + 4))) ∧
      (∀ g k w t u, CoreReady s u g k w t → k = 0x23 → exec (.chalkBge g) s = .next (if !((u.core g).get (ckRd w)).slt ((u.core g).get
        (ckRa w)) then u.goOn ⟨g, w, t⟩ 2 (BitVec.ofNat 32 (u.core g).pc + 4 * ckSImm14 w : Word).toNat else u.goOn ⟨g, w, t⟩ 1 ((u.core
        g).pc + 4))) ∧
      (∀ g k w t u, CoreReady s u g k w t → k = 0x24 → exec (.chalkBltu g) s = .next (if ((u.core g).get (ckRd w)).ult ((u.core g).get
        (ckRa w)) then u.goOn ⟨g, w, t⟩ 2 (BitVec.ofNat 32 (u.core g).pc + 4 * ckSImm14 w : Word).toNat else u.goOn ⟨g, w, t⟩ 1 ((u.core
        g).pc + 4))) ∧
      (∀ g k w t u, CoreReady s u g k w t → k = 0x25 → exec (.chalkBgeu g) s = .next (if !((u.core g).get (ckRd w)).ult ((u.core g).get
        (ckRa w)) then u.goOn ⟨g, w, t⟩ 2 (BitVec.ofNat 32 (u.core g).pc + 4 * ckSImm14 w : Word).toNat else u.goOn ⟨g, w, t⟩ 1 ((u.core
        g).pc + 4))) ∧
      (∀ g k w t u, CoreReady s u g k w t → k = 0x28 → exec (.chalkJal g) s = .next (u.jump ⟨g, w, t⟩ (BitVec.ofNat 32 (u.core g).pc + 4
        * ckSImm19 w))) ∧
      (∀ g k w t u, CoreReady s u g k w t → k = 0x29 → exec (.chalkJalr g) s = .next (u.jump ⟨g, w, t⟩ (((u.core g).get (ckRa w) +
        ckSImm14 w) &&& 0xFFFFFFFC))) ∧
      (∀ g k w t u, CoreReady s u g k w t → k = ckSys 0 → u.flag (GC_STATUS g) GC_STATUS_running = true →
        exec (.chalkEnd g) s = .next ((u.nextInstr ⟨g, w, t⟩ 1).setB (GC_STATUS g) GC_STATUS_running false)) ∧
      (∀ g k w t u v z, CoreReady s u g k w t → k = ckSys 1 → v = ((u.core g).get (ckRa w)).toNat → z = u.nextInstr ⟨g, w, t⟩ 1 →
        exec (.chalkWaitc g) s = .next (if 2 * t < v && v ≤ 3775 then z.modCore g (fun c => { c with waitc := some v }) else z)) ∧
      (∀ g k w t u, CoreReady s u g k w t → k = ckSys 2 → exec (.chalkRdcyc g) s = .next (u.result ⟨g, w, t⟩ (ckRd w) (BitVec.ofNat 32 (2
        * t % 4096)) 1 1)) ∧
      (∀ g k w t u, CoreReady s u g k w t → k = ckSys 3 → exec (.chalkRdbell g) s = .next (u.result ⟨g, w, t⟩ (ckRd w) (u.reg
        BELL_COUNT_LO) 1 1)) ∧
      (∀ g k w t u, CoreReady s u g k w t → k = ckSys 4 → exec (.chalkRdid g) s = .next (u.result ⟨g, w, t⟩ (ckRd w) (BitVec.ofNat 32 g)
        1 1)) ∧
      (∀ g k w t u v, CoreReady s u g k w t → k = ckSys 5 → v = ((u.core g).get (ckRa w)).toNat → 0x40 ≤ v → v ≤ 0x1FFFFF →
        exec (.chalkTrap g) s = .next (u.trap g t trSOFTWARE (some v))) ∧
      (∀ g k w t u, CoreReady s u g k w t → k = ckSys 6 → u.flag (GC_STATUS g) GC_STATUS_runtime = true →
        exec (.chalkRet g) s = .next ((u.nextInstr ⟨g, w, t⟩ 1).setB (GC_STATUS g) GC_STATUS_runtime false))) ∧
      ((∀ lt idx d, s.movEntry lt idx 1 = some d → exec (.moverCopy lt idx) s = .next ((({ s with cyc := dStartCycle d } : State).movBegin
        lt (mvChannel d)).beginCopy lt (mvChannel d) (copyOf d (dStartCycle d)))) ∧
      (∀ lt idx d, s.movEntry lt idx 2 = some d → exec (.moverIndirect lt idx) s = .next ((({ s with cyc := dStartCycle d } :
        State).movBegin lt (mvChannel d)).modChan (8 * lt + mvChannel d) (fun ch =>
        { ch with ind := some ⟨inList d, inCount d, 0, dStartCycle d, inCycles d, dStartCycle d⟩ }))) ∧
      (∀ lt c, (lt < 256 && c < 8 && s.alive lt) → exec (.builtDescriptor lt c) s = .next (s.builtNext lt c)) ∧
      (∀ lt c, (lt < 256 && c < 8 && s.alive lt) → exec (.moverBeat lt c) s = .next (s.moverBeat lt c)) ∧
      (∀ lt c, (lt < 256 && c < 8 && s.alive lt) → exec (.serviceTransfer lt c) s = .next (s.serviceTransfer lt c))) ∧
      ((∀ lt c, (lt < 256 && c < 8) → exec (.lockerReadDeliver lt c) s = .next (s.lockerDeliver lt c)) ∧
      (∀ lt c, (lt < 256 && c < 8) → exec (.lockerWriteAck lt c) s = .next (s.lockerAck lt c)) ∧
      (∀ (locker w : Nat) (data wires : List Nat), exec (.lockerCommand locker w data wires) s = .next (s.lockerCommand locker w data
        wires)) ∧
      (∀ locker w, exec (.lockerNbuCommand locker w) s = .next (s.nbuCommand locker w))) ∧
      ((∀ (write : Bool) (a n off : Nat), exec (.serviceAccessBelow write a n off) s = .next (s.accessBelow write a n off)) ∧
      (∀ (bad : List Nat), exec (.evacuationStep bad) s = .next (s.evacStep bad)) ∧
      exec .evacuationComplete s = .next s.evacDone ∧
      (∀ l part idx, (l < 4 && part < 4) → exec (.nbuSequenceStart l part idx) s = .next (s.seqStart l part idx)) ∧
      (∀ l part idx q, s.findSeq l part idx = some q → sqOp q.entry = 1 →
        exec (.nbuGatherReduce l part idx) s = .next (seqRunBell 118 s l part idx)) ∧
      (∀ l part idx q, s.findSeq l part idx = some q → sqOp q.entry = 2 →
        exec (.nbuMatvec l part idx) s = .next (seqRunBell 118 s l part idx)) ∧
      (∀ l part idx q, s.findSeq l part idx = some q → sqOp q.entry = 3 →
        exec (.nbuSignUpdate l part idx) s = .next (seqRunBell 118 s l part idx)) ∧
      (∀ l part idx q, s.findSeq l part idx = some q → sqOp q.entry = 4 →
        exec (.nbuSeqCopy l part idx) s = .next (seqRunBell 118 s l part idx)) ∧
      (∀ l part idx q, s.findSeq l part idx = some q → sqOp q.entry = 5 →
        exec (.nbuSeqFill l part idx) s = .next (seqRunBell 118 s l part idx)) ∧
      (∀ l part idx q, s.findSeq l part idx = some q → exec (.nbuTransfer l part idx) s = .next (s.xferNext l q)) ∧
      (∀ l part idx, exec (.nbuSequenceEnd l part idx) s = .next (s.seqEnd l part idx))) ∧
      ((∀ lt, exec (.translationJobStart lt) s = .next (s.jobBegin lt)) ∧
      (∀ lt i, exec (.translateEntry lt i) s = .next (s.translateEntry lt i)) ∧
      (∀ lt lesson iter i, exec (.fallbackRecordWrite lt lesson iter i) s = .next (s.fallbackRecord lt lesson iter i)) ∧
      (∀ lt cycle, exec (.meshInject lt cycle) s = .next (s.inject lt cycle)) ∧
      (∀ (id corrected : Nat) (bad : List Nat) (hdrBad : Bool), exec (.meshBeatRoute id corrected bad hdrBad) s = .next (s.meshRoute id
        corrected bad hdrBad)) ∧
      (∀ id, exec (.meshEject id) s = .next (s.meshEject id)) ∧
      (∀ (id cycle corrected : Nat) (bad : List Nat) (hdrBad : Bool),
        exec (.serviceBeatAdvance id cycle corrected bad hdrBad) s = .next (s.serviceAdvance id cycle corrected bad hdrBad)) ∧
      (∀ lt c dest n, exec (.hallReq lt c dest n) s = .next (s.hallReq lt c dest n)) ∧
      (∀ lt, lt < 256 → exec (.hallGrant lt) s = .next (s.hallGrant lt)) ∧
      (∀ lt c, (lt < 256 && c < 8) → exec (.hallPassReturn lt c) s = .next (s.hallReturn lt c)) ∧
      (∀ (m : CnetMsg) (corrected : Nat) (u : State), cnetVoid m = false → m.typ = 0 → m.prio = false → m.second = false →
        u = ((({ s with mesh := { s.mesh with msgs := s.mesh.msgs.erase m } } : State).trace 0 none none none).incF CNET_ERRORS
        CNET_ERRORS_word_corrected corrected) → exec (.cnetRegRead m corrected false) s = .next (forEach (u.cnetNodes m) u (fun v k =>
        State.cnetRead v { m with dest := k }))) ∧
      (∀ (m : CnetMsg) (corrected now : Nat) (u : State), cnetVoid m = false → m.typ = 1 → m.prio = false → m.second = false →
        u = ((({ s with mesh := { s.mesh with msgs := s.mesh.msgs.erase m } } : State).trace 0 none none none).incF CNET_ERRORS
        CNET_ERRORS_word_corrected corrected) → exec (.cnetRegWrite m ⟨corrected, false⟩ now) s = .next (forEach (u.cnetNodes m) u (fun v k
        => (State.cnetWrite now) v { m with dest := k }))) ∧
      (∀ (m : CnetMsg) (corrected : Nat) (u : State), cnetVoid m = false → m.typ = 2 → m.prio = false → m.second = false →
        u = ((({ s with mesh := { s.mesh with msgs := s.mesh.msgs.erase m } } : State).trace 0 none none none).incF CNET_ERRORS
        CNET_ERRORS_word_corrected corrected) → exec (.cnetRegReply m corrected false) s = .next (forEach (u.cnetNodes m) u (fun v k =>
        State.cnetReply v { m with dest := k }))) ∧
      (∀ (m : CnetMsg) (corrected : Nat) (u : State), cnetVoid m = false → m.typ = 5 → m.prio = false → m.second = false →
        u = ((({ s with mesh := { s.mesh with msgs := s.mesh.msgs.erase m } } : State).trace 0 none none none).incF CNET_ERRORS
        CNET_ERRORS_word_corrected corrected) → exec (.cnetEvent m corrected false) s = .next (forEach (u.cnetNodes m) u (fun v k =>
        State.cnetEvent v { m with dest := k }))) ∧
      (∀ (m : CnetMsg) (corrected : Nat) (u : State), cnetVoid m = false → m.typ = 6 → m.prio = false → m.second = false →
        u = ((({ s with mesh := { s.mesh with msgs := s.mesh.msgs.erase m } } : State).trace 0 none none none).incF CNET_ERRORS
        CNET_ERRORS_word_corrected corrected) → exec (.cnetArm m corrected false) s = .next (forEach (u.cnetNodes m) u (fun v k =>
        State.cnetArm v { m with dest := k }))) ∧
      (∀ (m : CnetMsg) (corrected : Nat) (u : State), cnetVoid m = false → m.typ = 7 → m.prio = false → m.second = false →
        u = ((({ s with mesh := { s.mesh with msgs := s.mesh.msgs.erase m } } : State).trace 0 none none none).incF CNET_ERRORS
        CNET_ERRORS_word_corrected corrected) → exec (.cnetServicePost m corrected false) s = .next (forEach (u.cnetNodes m) u (fun v k
        => State.cnetPost v { m with dest := k })))) ∧
      ((∀ port idx i w, s.portWork port idx i poSEND = some w → exec (.portSend port idx i) s = .next (({ s with cyc := w.t } :
        State).doSend w)) ∧
      (∀ port idx i w, s.portWork port idx i poRECV = some w → exec (.portRecv port idx i) s = .next (({ s with cyc := w.t } :
        State).doRecv w)) ∧
      (∀ port idx i w, s.portWork port idx i poREDUCE = some w → exec (.portReduce port idx i) s = .next (({ s with cyc := w.t } :
        State).doReduce w)) ∧
      (∀ port idx i w, s.portWork port idx i poRELAY = some w → exec (.portRelay port idx i) s = .next (({ s with cyc := w.t } :
        State).doRelay w)) ∧
      (∀ port idx i w, s.portWork port idx i poVSEND = some w → exec (.portVoteSend port idx i) s = .next (({ s with cyc := w.t } :
        State).doVoteSend w)) ∧
      (∀ port idx i w, s.portWork port idx i poVADD = some w → exec (.portVoteAdd port idx i) s = .next (({ s with cyc := w.t } :
        State).doVoteAdd w)) ∧
      (∀ port idx i w, s.portWork port idx i poVSIGN = some w → exec (.portVoteSign port idx i) s = .next (({ s with cyc := w.t } :
        State).doVoteSign w)) ∧
      (∀ (port : Nat) (f : Frame) (hdrBad : Bool) (badSpans : Nat), port < 6 →
        exec (.frameReceive port f hdrBad badSpans) s = .next (s.frameReceive port f hdrBad badSpans)) ∧
      (∀ (port : Nat) (x : Frame) (l : List Frame) (u : State), port < 6 → (s.port port).svcQueue = x :: l → x.kind = fkWRITE →
        u = (s.modPort port (fun t => { t with svcQueue := l })).returnCredit port → x.dst = u.deviceId →
        exec (.svcWrite port) s = .next (u.doSvcWrite x)) ∧
      (∀ (port : Nat) (x : Frame) (l : List Frame) (u : State), port < 6 → (s.port port).svcQueue = x :: l → x.kind = fkREAD →
        u = (s.modPort port (fun t => { t with svcQueue := l })).returnCredit port → x.dst = u.deviceId →
        exec (.svcRead port) s = .next (u.doSvcRead x)) ∧
      (∀ (port : Nat) (x : Frame) (l : List Frame) (u : State), port < 6 → (s.port port).svcQueue = x :: l → x.kind = fkREPLY →
        u = (s.modPort port (fun t => { t with svcQueue := l })).returnCredit port → x.dst = u.deviceId →
        exec (.svcReply port) s = .next (u.doSvcReply x).release) ∧
      (∀ tag, exec (.remoteTimeout tag) s = .next (s.remoteTimeout tag).release)) ∧
      ((∀ (port : Nat) (y : Sym) (bad : Bool) (arrival : Int) (resid : Nat),
        exec (.symBell port y bad arrival resid) s = .next (s.symBell port y bad arrival resid)) ∧
      (∀ (port : Nat) (y : Sym) (bad : Bool), exec (.symHalt port y bad) s = .next (s.symHalt port y bad)) ∧
      (∀ (port : Nat) (y : Sym) (bad : Bool), exec (.symRecess port y bad) s = .next (s.symRecess port y bad)) ∧
      (∀ (port : Nat) (y : Sym) (bad : Bool), exec (.symRecessReq port y bad) s = .next (s.symRecessReq port y bad))) ∧
      ((∀ (port : Nat) (y : Sym) (bad : Bool), port < 6 → s.symHeard port 6 = true → symGood 6 y bad = true →
        exec (.symCredit port y bad) s = .next (s.symCredit port y)) ∧
      (∀ (port : Nat) (y : Sym) (bad : Bool), port < 6 → s.symHeard port 7 = true → symGood 7 y bad = true →
        exec (.symLaneSwap port y bad) s = .next (s.modPort port (fun t => { t with txSwaps := t.txSwaps ++ [(y.a8, y.b32)] }))) ∧
      (∀ (port : Nat) (y : Sym) (bad : Bool), port < 6 → s.symHeard port 8 = true → symGood 8 y bad = true →
        exec (.symTrain port y bad) s = .next (s.symTrain port y)) ∧
      (∀ (port : Nat) (y : Sym) (bad : Bool) (arrival far depart : Nat), port < 6 → s.symHeard port 9 = true → symGood 9 y bad = true →
        exec (.symProbe port y bad ⟨arrival, far, depart⟩) s = .next (s.symProbe port y arrival far depart)) ∧
      (∀ (port : Nat) (y : Sym) (bad : Bool), port < 6 → s.symHeard port 1 = true → symGood 1 y bad = true →
        exec (.symIdle port y bad) s = .next s) ∧
      (∀ (port lane codeword corrected : Nat) (lost : Bool), (port < 6 && s.portUp port) →
        exec (.portLaneFault port lane ⟨codeword, corrected, lost⟩) s = .next (s.laneFault port lane codeword corrected lost)) ∧
      (∀ (port : Nat), port < 6 → exec (.portLaneTakeover port) s = .next (s.laneTakeover port (s.port port).rxSwaps.isEmpty)) ∧
      (∀ port fibres, (port < 6 && s.portSt port = 1 && 16 ≤ fibres) → exec (.portDetectLight port fibres) s = .next (s.portTo port 2 0)) ∧
      (∀ port lanes fibres round depart, port < 6 → exec (.portTrainStateDone port lanes fibres round depart) s = .next (s.trainDone port
        lanes fibres round depart)) ∧
      (∀ port, (port < 6 && [2, 3, 4, 5, 8].contains (s.portSt port)) → exec (.portTrainTimeout port) s = .next (s.portTo port 9 2)) ∧
      (∀ port, port < 6 → exec (.portRetrain port) s = .next (s.retrain port)) ∧
      (∀ port lanes fibres round, port < 6 → exec (.portRetrainDone port lanes fibres round 0) s = .next (s.retrainDone port lanes fibres
        round 0))) ∧
      ((∀ (x : RxFlit) (u : State), s.mxlUp = true → x.flit.crc = crc32 (flitBytes x.flit) → u = s.takeHeader x → u.mxlUp = true → u.flitKnown x.flit = true →
        exec (.mxlPrioCmd x.flit x.corrected) s = .next (u.takePrio x.flit)) ∧
      (∀ (x : RxFlit) (part : Nat) (u : State), s.mxlUp = true → x.flit.crc = crc32 (flitBytes x.flit) → u = s.takeHeader x →
        u.mxlUp = true → u.flitKnown x.flit = true → x.flit.typ = ftDOORBELL → x.flit.seq = (u.mxl.rxSeq + 1) % 4096 →
        x.flit.cls ≠ fcBULK → u.mxl.cmdGrant ≠ 0 → bitSet x.flit.flags 0 = true → bitSet x.flit.flags 1 = true →
        exec (.mxlDoorbell x.flit.toFlitHead x.flit.payload x.check part) s = .next
        ((({ u with mxl := { u.mxl with rxSeq := x.flit.seq, discarding := false, rxCmd := [], cmdGrant := u.mxl.cmdGrant - 1 } } :
        State).sendIdle false 1 0).takeDoorbell part [x.flit])) ∧
      (∀ (x : RxFlit) (u : State), s.mxlUp = true → x.flit.crc = crc32 (flitBytes x.flit) → u = s.takeHeader x → u.mxlUp = true →
        u.flitKnown x.flit = true → x.flit.typ = ftREG_READ → x.flit.seq = (u.mxl.rxSeq + 1) % 4096 → x.flit.cls ≠ fcBULK →
        u.mxl.cmdGrant ≠ 0 → bitSet x.flit.flags 0 = true → bitSet x.flit.flags 1 = true →
        exec (.mxlRegRead x.flit.toFlitHead x.flit.payload x.check) s = .next
        ((({ u with mxl := { u.mxl with rxSeq := x.flit.seq, discarding := false, rxCmd := [], cmdGrant := u.mxl.cmdGrant - 1 } } :
        State).sendIdle false 1 0).issue (.regRead (reqTag [x.flit]) (reqAddr [x.flit]) (reqLen [x.flit])))) ∧
      (∀ (x : RxFlit) (now : Nat) (u : State), s.mxlUp = true → x.flit.crc = crc32 (flitBytes x.flit) → u = s.takeHeader x →
        u.mxlUp = true → u.flitKnown x.flit = true → x.flit.typ = ftREG_WRITE → x.flit.seq = (u.mxl.rxSeq + 1) % 4096 →
        x.flit.cls ≠ fcBULK → u.mxl.cmdGrant ≠ 0 → bitSet x.flit.flags 0 = true → bitSet x.flit.flags 1 = true →
        exec (.mxlRegWrite x.flit.toFlitHead x.flit.payload x.check now) s = .next
        ((({ u with mxl := { u.mxl with rxSeq := x.flit.seq, discarding := false, rxCmd := [], cmdGrant := u.mxl.cmdGrant - 1 } } :
        State).sendIdle false 1 0).issue (.regWrite (reqTag [x.flit]) (reqAddr [x.flit]) (reqLen [x.flit]) (leVal (cleanData [x.flit]))
        now))) ∧
      (∀ (x : RxFlit) (u : State), s.mxlUp = true → x.flit.crc = crc32 (flitBytes x.flit) → u = s.takeHeader x → u.mxlUp = true →
        u.flitKnown x.flit = true → x.flit.typ = ftMEM_READ → x.flit.seq = (u.mxl.rxSeq + 1) % 4096 → x.flit.cls = fcBULK →
        u.mxl.bulkGrant ≠ 0 → bitSet x.flit.flags 0 = true → bitSet x.flit.flags 1 = true →
        exec (.mxlMemRead x.flit.toFlitHead x.flit.payload x.check) s = .next
        ((({ u with mxl := { u.mxl with rxSeq := x.flit.seq, discarding := false, rxBulk := [], bulkGrant := u.mxl.bulkGrant - 1 } } :
        State).sendIdle false 0 1).issue (.memRead (reqTag [x.flit]) (reqAddr [x.flit]) (min 4096 (reqLen [x.flit]))))) ∧
      (∀ (x : RxFlit) (u : State), s.mxlUp = true → x.flit.crc = crc32 (flitBytes x.flit) → u = s.takeHeader x → u.mxlUp = true →
        u.flitKnown x.flit = true → x.flit.typ = ftMEM_WRITE → x.flit.seq = (u.mxl.rxSeq + 1) % 4096 → x.flit.cls = fcBULK →
        u.mxl.bulkGrant ≠ 0 → bitSet x.flit.flags 0 = true → bitSet x.flit.flags 1 = true →
        exec (.mxlMemWrite x.flit.toFlitHead x.flit.payload x.flit.crc x.corrected) s = .next
        ((({ u with mxl := { u.mxl with rxSeq := x.flit.seq, discarding := false, rxBulk := [], bulkGrant := u.mxl.bulkGrant - 1 } } :
        State).sendIdle false 0 1).issue (.memWrite (reqTag [x.flit]) (reqAddr [x.flit]) (cleanData [x.flit]) (hasPoison [x.flit])))) ∧
      (∀ (x : RxFlit) (u : State), s.mxlUp = true → x.flit.crc = crc32 (flitBytes x.flit) → u = s.takeHeader x → u.mxlUp = true →
        u.flitKnown x.flit = true → x.flit.typ = ftHOST_DATA → x.flit.seq = (u.mxl.rxSeq + 1) % 4096 → x.flit.cls = fcBULK →
        u.mxl.bulkGrant ≠ 0 → bitSet x.flit.flags 0 = true → bitSet x.flit.flags 1 = true →
        exec (.mxlHostData x.flit.toFlitHead x.flit.payload x.flit.crc x.corrected) s = .next
        ((({ u with mxl := { u.mxl with rxSeq := x.flit.seq, discarding := false, rxBulk := [], bulkGrant := u.mxl.bulkGrant - 1 } } :
        State).sendIdle false 0 1).takeHostData [x.flit])) ∧
      (∀ (x : RxFlit) (u : State), s.mxlUp = true → x.flit.crc = crc32 (flitBytes x.flit) → u = s.takeHeader x → u.mxlUp = true → u.flitKnown x.flit = true →
        exec (.mxlIdleFlit x) s = .next u) ∧
      (∀ (x : RxFlit) (u : State), s.mxlUp = true → x.flit.crc = crc32 (flitBytes x.flit) → u = s.takeHeader x → u.mxlUp = true → u.flitKnown x.flit = true →
        exec (.mxlLaneSwapFlit x.flit.toFlitHead x.flit.payload x.check) s = .next (u.takeLaneSwap x.flit)) ∧
      (∀ (x : RxFlit), s.mxlUp = true → exec (.mxlFlitCheckFail x.flit x.corrected true) s = .next (s.flitFails x.flit)) ∧
      (∀ (x : RxFlit) (u : State), s.mxlUp = true → x.flit.crc = crc32 (flitBytes x.flit) → u = s.takeHeader x → u.mxlUp = true → u.flitKnown x.flit = true →
        exec (.mxlNak x) s = .next u) ∧
      ((s.mxlUp && s.mxl.replay ≠ []) → exec .mxlReplayTimeout s = .next ((s.incF MXL_RETRY MXL_RETRY_timeouts 1).mxlReplay)) ∧
      (∀ tag, exec (.hostReadTimeout tag) s = .next (s.hostReadTimeout tag)) ∧
      (∀ (lane corrected : Nat) (lost : Bool), (s.mxlUp && lane < 9) →
        exec (.mxlLaneFault ⟨lane, corrected, lost⟩) s = .next (s.mxlLaneFault lane corrected lost)) ∧
      (∀ (lanes : List Nat) (cmd bulk : Nat), exec (.mxlStateDone lanes cmd bulk) s = .next (s.mxlStateDone lanes cmd bulk)) ∧
      ([2, 3, 4, 6].contains s.mxlSt → exec .mxlStateTimeout s = .next (s.mxlTo 7 2)) ∧
      (s.mxlSt = 7 → exec .mxlDownRecover s = .next (s.mxlTo 1 0))) ∧
      ((∀ (r : Nat) (d : List Byte), exec (.commandFetch r d) s = .next (s.fetch r d)) ∧
      exec .heldRecordFlush s = .next s.flushHeld ∧
      (∀ ring tag c, ∀ row ∈ ([(.cmdNop ring tag, opNOP, s.ok c 0), (.cmdReset ring tag, opRESET, s.resetCmd c),
        (.cmdPartitionSet ring tag, opPARTITION_SET, s.partitionSet c), (.cmdLinkmapLoad ring tag, opLINKMAP_LOAD, s.linkmapLoad c),
        (.cmdBellJoin ring tag, opBELL_JOIN, s.bellJoin c), (.cmdMemCopy ring tag, opMEM_COPY, s.xferStart c),
        (.cmdMemFill ring tag, opMEM_FILL, s.xferStart c), (.cmdDmaIn ring tag, opDMA_IN, s.xferStart c),
        (.cmdDmaOut ring tag, opDMA_OUT, s.xferStart c), (.cmdCourseLoad ring tag, opCOURSE_LOAD, s.courseLoad c),
        (.cmdCourseStart ring tag, opCOURSE_START, s.courseStart c), (.cmdCourseEnd ring tag, opCOURSE_END, s.courseEnd c),
        (.cmdCourseUnload ring tag, opCOURSE_UNLOAD, s.courseUnload c), (.cmdCourseResume ring tag, opCOURSE_RESUME, s.courseResume c),
        (.cmdRosterCommit ring tag, opROSTER_COMMIT, s.rosterCommit c), (.cmdSeqOpen ring tag, opSEQ_OPEN, s.pageAccept c),
        (.cmdSeqClose ring tag, opSEQ_CLOSE, s.pageAccept c), (.cmdPageMap ring tag, opPAGE_MAP, s.pageAccept c),
        (.cmdPageUnmap ring tag, opPAGE_UNMAP, s.pageAccept c), (.cmdSeqFork ring tag, opSEQ_FORK, s.pageAccept c),
        (.cmdPagePrivate ring tag, opPAGE_PRIVATE, s.pageAccept c), (.cmdGroupTable ring tag, opGROUP_TABLE, s.groupTable c),
        (.cmdRecessRequest ring tag, opRECESS_REQUEST, s.recessRequest c), (.cmdPowerCap ring tag, opPOWER_CAP, s.powerCap c),
        (.cmdBudgetMove ring tag, opBUDGET_MOVE, s.budgetMove c), (.cmdImageStage ring tag, opIMAGE_STAGE, s.secAccept c),
        (.cmdImageActivate ring tag, opIMAGE_ACTIVATE, s.activate c), (.cmdSyllabusLoad ring tag, opSYLLABUS_LOAD, s.secAccept c),
        (.cmdLicenceLoad ring tag, opLICENCE_LOAD, s.secAccept c), (.cmdAttest ring tag, opATTEST, s.secAccept c),
        (.cmdExam ring tag, opEXAM, s.examStart c), (.cmdEvacuate ring tag, opEVACUATE, s.evacuate c),
        (.cmdAreaRestore ring tag, opAREA_RESTORE, s.areaRestore c), (.cmdRenumber ring tag, opRENUMBER, s.renumber c),
        (.cmdEnergySnapshot ring tag, opENERGY_SNAPSHOT, s.putCmd c { c with phase := .active }),
        (.cmdCountersClear ring tag, opCOUNTERS_CLEAR, s.putCmd c { c with phase := .committed }),
        (.cmdTraceConfig ring tag, opTRACE_CONFIG, s.traceConfig c)] : List (Instr × Nat × State)), Accepted s ring tag row.2.1 c →
        exec row.1 s = .next row.2.2) ∧
      (∀ (tag : Nat) (c : Cmd), Accepted s 255 tag opSTOP c → exec (.cmdStop tag) s = .next (s.stopCmd c))) ∧
      ((∀ (ring tag : Nat) (entry : Option (Nat × List Byte)) (c : Cmd), Accepted s ring tag opABORT c →
        exec (.cmdAbort ring tag entry) s = .next (s.abort c entry)) ∧
      (∀ (ring tag : Nat) (c : Cmd), s.findCmd ring tag opNBU_FILL = some c → exec (.cmdNbuFill ring tag) s = .next (s.nbuFill c)) ∧
      (∀ (ring tag : Nat) (c : Cmd), s.findCmd ring tag opNBU_COPY = some c → exec (.cmdNbuCopy ring tag) s = .next (s.nbuCopy c)) ∧
      (∀ ring tag c, s.findTag ring tag = some c → isPageOp c.pkt.opcode = true → c.phase = .active →
        exec (.pageCommandCommit ring tag) s = .next (s.pageCommit c))) ∧
      ((∀ (ring tag : Nat) (c : Cmd), s.findCmd ring tag opENERGY_SNAPSHOT = some c → c.phase = .active →
        exec (.energySnapshotTake ring tag) s = .next (s.snapshot c)) ∧
      (∀ (ring tag : Nat) (c : Cmd), s.findCmd ring tag opCOUNTERS_CLEAR = some c → c.phase = .committed →
        exec (.countersClearApply ring tag) s = .next (s.countersClear c)) ∧
      (∀ (readings powers : List Nat) (inlet outlet : Nat), exec (.sensorSample readings powers inlet outlet) s = .next (s.sample
        readings powers inlet outlet)) ∧
      (∀ pair a b, exec (.tripComparator pair a b) s = .next (s.comparator pair a b)) ∧
      exec .thermalForecast s = .next s.forecast ∧
      exec .coolantEvaluate s = .next s.coolantEvaluate) ∧
      ((∀ (duration : Nat) (loadFails : List Nat), s.stageIs 1 0 →
        exec (.stageS1Boot duration loadFails) s = .next (s.stageS1 duration loadFails)) ∧
      (∀ (duration : Nat) (seamFails : List (Nat × Nat)) (trims : List Int),
        exec (.stageS2Clocks duration seamFails trims) s = .next (s.stageS2 duration seamFails trims)) ∧
      (∀ (duration : Nat) (fails : List Nat) (badForms : List (Nat × Nat)) (lost : List Nat) (corrected columns : Nat) (deadSeats : List
        Nat), s.stageIs 3 0 → exec (.stageS3Memory duration fails badForms lost corrected columns deadSeats) s = .next (s.stageS3
        duration fails badForms lost corrected columns deadSeats)) ∧
      (∀ (duration : Nat) (quiz : List (Nat × Nat)) (covers : List (Nat × Bool × Nat × Nat)) (gateFails rf : List Nat), s.stageIs 4 0 →
        exec (.stageS4Seating duration quiz covers gateFails rf) s = .next (s.stageS4 duration quiz covers gateFails rf)) ∧
      (∀ duration stepping, s.stageIs 5 0 → exec (.stageS5Licences duration stepping) s = .next (s.stageS5 duration stepping)) ∧
      (∀ duration, exec (.stageS6Ports duration) s = .next (s.stageS6 duration)) ∧
      (∀ duration total, s.stageIs 8 0 → exec (.stageS8Ready duration total) s = .next (s.stageS8 duration total))) ∧
      ((∀ (result : Option Nat), s.stageIs 8 2 → s.examOpen = true → exec (.autoExamStep result) s = .next (s.autoStep result)) ∧
      (∀ (failing : List (Nat × Nat)), exec (.examComplete failing) s = .next (s.examDone failing)) ∧
      (∀ lt, s.present lt → exec (.heartbeatTimeout lt) s = .next (s.tileFailure lt 0)) ∧
      (∀ lt, exec (.errorsThreshold lt) s = .next (s.errorsThreshold lt)) ∧
      (∀ lt, s.firstDue lt → exec (.substitutionComplete lt) s = .next (s.substitutionDone lt))) ∧
      ((∀ addr, s.i3cAddr = 0 → exec (.i3cEntdaa addr) s = .next ((s.send (.i3cData s.provisionalId)).setAddr addr)) ∧
      (∀ addr, s.i3cAddr = 0 → exec (.i3cSetdasa addr) s = .next (s.setAddr addr)) ∧
      exec .i3cRstdaa s = .next (s.setAddr 0) ∧
      (∀ mask, s.i3cAddr ≠ 0 → exec (.i3cEnec mask) s = .next (s.enable mask)) ∧
      (∀ mask, s.i3cAddr ≠ 0 → exec (.i3cDisec mask) s = .next (s.disable mask)) ∧
      (s.i3cAddr ≠ 0 → exec .i3cGetstatus s = .next ((s.send (.i3cStatus s.freeNat)).drawn 1)) ∧
      (∀ index, s.i3cAddr ≠ 0 → exec (.i3cSetIndex index) s = .next (s.setIndex index)) ∧
      (∀ n, s.i3cAddr ≠ 0 → exec (.i3cPrivateRead n) s = .next (s.privateRead n)) ∧
      (s.i3cAddr ≠ 0 → s.clock.resetPending = none → exec .mgmtResetRequest s = .next ((s.requestReset 3).mgmtResult 1 (255 - 1) mrDONE)) ∧
      (s.i3cAddr ≠ 0 → s.clock.resetPending = none → s.getF BRG_STAGE BRG_STAGE_state = 3 ∨ s.getF BRG_STAGE BRG_STAGE_state = 4 →
        exec .mgmtLedgerClear s = .next (s.ledgerClear.mgmtResult 2 (255 - 2) mrDONE)) ∧
      (s.i3cAddr ≠ 0 → s.clock.resetPending = none → exec .mgmtHoldNext s = .next (({ s with bring := { s.bring with holdNext := true } }
        : State).mgmtResult 3 (255 - 3) mrDONE)) ∧
      (s.i3cAddr ≠ 0 → s.clock.resetPending = none → exec .mgmtAlertAck s = .next ((s.setB MGMT_STATUS MGMT_STATUS_alert
        false).mgmtResult 4 (255 - 4) mrDONE)) ∧
      (∀ code complement, s.i3cAddr ≠ 0 → code % 256 + complement % 256 ≠ 255 →
        exec (.mgmtMalformed code complement) s = .next (s.mgmtResult (code % 256) (complement % 256) mrMALFORMED)) ∧
      (∀ (cells pins : List Bool), s.extestOk = true → exec (.jtagExtest cells pins) s = .next ((s.setCells cells).tap 0x00 (cellsVal
        pins) 1)) ∧
      (∀ (cells pins : List Bool), exec (.jtagSamplePreload cells pins) s = .next ((s.setCells cells).tap 0x01 (cellsVal pins) 0)) ∧
      exec .jtagIdcode s = .next (s.tap 0x02 s.idcode 0) ∧
      (s.extestOk = true → exec .jtagClamp s = .next (s.tap 0x03 0 2)) ∧
      (s.extestOk = true → exec .jtagHighz s = .next (s.tap 0x04 0 3)) ∧
      (∀ (cells pins : List Bool), exec (.jtagExtestPulse cells pins) s = .next ((s.setCells cells).tap 0x08 (cellsVal pins) 1)) ∧
      (∀ (cells pins : List Bool), exec (.jtagExtestTrain cells pins) s = .next ((s.setCells cells).tap 0x09 (cellsVal pins) 1)) ∧
      exec .jtagBypass s = .next (s.tap 0xFF 0 0) ∧
      (∀ space addr, exec (.instRead space addr) s = .next (s.instStart 1 space addr 0)) ∧
      (∀ space addr data, exec (.instWrite space addr data) s = .next (s.instStart 2 space addr data)) ∧
      exec .instComplete s = .next s.instDone) ∧
      ((∀ (w : Word), exec (.bellClearPeak w) s = .next (s.writeStretch w)) ∧
      (∀ (w : Word), exec (.bellOverrunClear w) s = .next (s.writeOverrunCount w)) ∧
      (∀ (w : Word), exec (.ariClearAll w) s = .next (s.writeAriSummary w)) ∧
      (∀ n (w now : Word), n < 6 → exec (.ariFlagClear true n ⟨w, now⟩) s = .next (s.writeAriFlags (ARI_FLAGS_PORT n) w now)) ∧
      (∀ n (w now : Word), n < 256 → s.excluded (ltForm n) = false →
        exec (.ariFlagClear false n ⟨w, now⟩) s = .next (s.writeAriFlags (ARI_FLAGS_LT n) w now)) ∧
      (∀ (l : Nat) (w now : Word), l < 4 → exec (.memFaultClear l ⟨w, now⟩) s = .next (s.plainWrite (MEM_FAULT_HI l) w now)) ∧
      (∀ (w : Word), exec (.nbuTokenLimitWrite w) s = .next (s.writeTokenLimit w)) ∧
      (∀ (w : Word), exec (.nbuTokensClearPeak w) s = .next (s.writeTokens w)) ∧
      (∀ (w : Word), exec (.trnAreaWrite w) s = .next (s.writeArea w)) ∧
      (∀ (w : Word), exec (.trnPoolWrite w) s = .next (s.writePool w)) ∧
      (∀ (lt : Nat) (w : Word), (lt < 256 && !s.excluded (ltForm lt)) → exec (.trnFallbackWrite lt w) s = .next (s.writeFallback lt w)) ∧
      (∀ (w : Word), exec (.updShadowWrite w) s = .next (s.writeShadow w)) ∧
      (∀ (w : Word), exec (.fabPartWrite w) s = .next (s.writeFabPart w)) ∧
      (∀ (a : Nat) (w : Word), ((CMD_RING_BASE_LO 0 ≤ a && a < CMD_RING_BASE_LO 0 + 0x1800) || (EVT_RING_BASE_LO 0 ≤ a && a <
        EVT_RING_BASE_LO 0 + 0x100)) → exec (.ringCfgWrite a w) s = .next (s.writeRings a w 0)) ∧
      (∀ (q : Nat) (w : Word), q < 64 → exec (.cplRingHeadWrite q w) s = .next (s.writeHead (CPL_RING_HEAD q) (CPL_RING_TAIL q) w)) ∧
      (∀ (e : Nat) (w : Word), e < 8 → exec (.evtRingHeadWrite e w) s = .next (s.writeHead (EVT_RING_HEAD e) (EVT_RING_TAIL e) w)) ∧
      (∀ (w : Word), exec (.throttleLimitWrite w) s = .next (s.writeThrottle w)) ∧
      (∀ (w now : Word), exec (.coolantDeclineClear ⟨w, now⟩) s = .next (s.plainWrite THM_COOLANT w now)) ∧
      (∀ (form : Nat) (w now : Word), form < 16 → exec (.crackSuspectClear form ⟨w, now⟩) s = .next (s.plainWrite (PWR_FORM form) w now)) ∧
      (∀ (i : Nat) (w now : Word), i < 8 → exec (.evacPendingClear i ⟨w, now⟩) s = .next (s.plainWrite (BRG_EVAC_PENDING i) w now)) ∧
      (∀ (w now : Word), exec (.regAccessArmClear ⟨w, now⟩) s = .next (s.plainWrite REG_ACCESS_ERR w now)) ∧
      (∀ (lt c : Nat) (w now : Word), (lt < 256 && c < 8 && !s.excluded (ltForm lt)) →
        exec (.serviceStopClear lt c ⟨w, now⟩) s = .next (s.plainWrite (MOV_STATUS_LT lt c) w now)) ∧
      (∀ req a, exec (.loRegisterRead req a) s = .next ((s.accessRead req a 4).2)) ∧
      (∀ (a width : Nat) (write : Bool), accessGood a width = false →
        exec (.registerAccessError a width write) s = .next (s.accessError a width write)) ∧
      (∀ a width v now, accessGood a width → exec (.registerWrite a width ⟨v, now⟩) s = .next (s.accessWrite a width v now))) ∧
      (exec .referenceRegained s = .next s.referenceRegained ∧
      exec .mxlLaneTakeover s = .next (s.mxlTakeover s.mxl.swap.isNone) ∧
      exec .securityCommandDone s = .next s.secDone ∧
      (∀ (tag : Nat) (c : Cmd), s.findCmd 255 tag opSTOP = some c → c.phase = .committed →
        exec (.stopBoundElapsed tag) s = .next (s.ok c (c.data.headD 0)))) ∧
      (exec .trstNAssert s = .next (s.tap 0x02 s.idcode 0)))
end

