-- ==== Sys2Proof/Laws/Tables.lean ====
section
/-! SUPPORT. Laws of tables: reading after writing, and the canonical form of tables, registers and memories. -/

namespace Sys2Proof.Machine

variable {α : Type}

theorem tfind_tput (t : Tbl α) (k j : Nat) (v : α) : tfind (tput t k v) j = if j = k then some v else tfind t j := by
  induction t with
  | nil => simp [tput, tfind]
  | cons x t ih =>
    obtain ⟨a, b⟩ := x
    simp only [tput]
    split
    · simp only [tfind]
    · split
      · subst_vars; simp only [tfind]; split <;> simp_all
      · simp only [tfind, ih]; grind

theorem tfind_tdel (t : Tbl α) (k j : Nat) : tfind (tdel t k) j = if j = k then none else tfind t j := by
  induction t with
  | nil => simp [tdel, tfind]
  | cons x t ih =>
    obtain ⟨a, b⟩ := x
    simp only [tdel]
    split
    · subst_vars; simp only [tfind, ih]; split <;> simp_all
    · simp only [tfind, ih]; grind

theorem tgetD_tput (t : Tbl α) (k j : Nat) (v d : α) : tgetD (tput t k v) j d = if j = k then v else tgetD t j d := by
  simp only [tgetD, tfind_tput]; split <;> rfl

theorem tgetD_tdel (t : Tbl α) (k j : Nat) (d : α) : tgetD (tdel t k) j d = if j = k then d else tgetD t j d := by
  simp only [tgetD, tfind_tdel]; split <;> rfl

theorem tgetD_tset [DecidableEq α] (t : Tbl α) (k j : Nat) (v d : α) :
    tgetD (tset t k v d) j d = if j = k then v else tgetD t j d := by
  simp only [tset]; split
  · subst_vars; exact tgetD_tdel t k j _
  · exact tgetD_tput t k j v d

theorem mem_tdel {t : Tbl α} {k : Nat} {x : Nat × α} (h : x ∈ tdel t k) : x ∈ t := by
  induction t with
  | nil => simp [tdel] at h
  | cons y t ih =>
    obtain ⟨a, b⟩ := y
    simp only [tdel] at h
    split at h
    · exact List.mem_cons_of_mem _ (ih h)
    · rcases List.mem_cons.mp h with h | h
      · simp [h]
      · exact List.mem_cons_of_mem _ (ih h)

theorem mem_tput {t : Tbl α} {k : Nat} {v : α} {x : Nat × α} (h : x ∈ tput t k v) : x = (k, v) ∨ x ∈ t := by
  induction t with
  | nil => simp [tput] at h; exact .inl h
  | cons y t ih =>
    obtain ⟨a, b⟩ := y
    simp only [tput] at h
    split at h
    · rcases List.mem_cons.mp h with h | h
      · exact .inl h
      · exact .inr h
    · split at h
      · rcases List.mem_cons.mp h with h | h
        · exact .inl h
        · exact .inr (List.mem_cons_of_mem _ h)
      · rcases List.mem_cons.mp h with h | h
        · exact .inr (by simp [h])
        · rcases ih h with h | h
          · exact .inl h
          · exact .inr (List.mem_cons_of_mem _ h)

theorem rising_tdel {t : Tbl α} (h : Rising t) (k : Nat) : Rising (tdel t k) := by
  induction t with
  | nil => simp [tdel]
  | cons y t ih =>
    obtain ⟨a, b⟩ := y
    have h' := List.pairwise_cons.mp h
    simp only [tdel]; split
    · exact ih h'.2
    · exact List.pairwise_cons.mpr ⟨fun x hx => h'.1 x (mem_tdel hx), ih h'.2⟩

theorem rising_tput {t : Tbl α} (h : Rising t) (k : Nat) (v : α) : Rising (tput t k v) := by
  induction t with
  | nil => simp [tput]
  | cons y t ih =>
    obtain ⟨a, b⟩ := y
    have h' := List.pairwise_cons.mp h
    simp only [tput]; split
    · rename_i hk
      refine List.pairwise_cons.mpr ⟨fun x hx => ?_, h⟩
      rcases List.mem_cons.mp hx with hx | hx
      · subst hx; exact hk
      · exact Nat.lt_trans hk (h'.1 x hx)
    · split
      · subst_vars; exact List.pairwise_cons.mpr ⟨h'.1, h'.2⟩
      · refine List.pairwise_cons.mpr ⟨fun x hx => ?_, ih h'.2⟩
        rcases mem_tput hx with hx | hx
        · subst hx; simp only; omega
        · exact h'.1 x hx

theorem rising_filter {t : Tbl α} (h : Rising t) (p : Nat × α → Bool) : Rising (t.filter p) :=
  List.Pairwise.filter _ h

theorem rising_map {β : Type} {t : Tbl α} (h : Rising t) (f : Nat × α → β) : Rising (t.map (fun x => (x.1, f x))) := by
  exact List.pairwise_map.mpr h

theorem rising_range_map (n : Nat) (f : Nat → α) : Rising ((List.range n).map (fun i => (i, f i))) :=
  List.pairwise_map.mpr List.pairwise_lt_range

theorem canonical_tdel [DecidableEq α] {t : Tbl α} {d : α} (h : Canonical t d) (k : Nat) : Canonical (tdel t k) d :=
  ⟨rising_tdel h.1 k, fun x hx => h.2 x (mem_tdel hx)⟩

theorem canonical_tput [DecidableEq α] {t : Tbl α} {d : α} (h : Canonical t d) (k : Nat) {v : α} (hv : v ≠ d) :
    Canonical (tput t k v) d :=
  ⟨rising_tput h.1 k v, fun x hx => by rcases mem_tput hx with hx | hx; · simp [hx, hv]
                                       · exact h.2 x hx⟩

theorem canonical_tset [DecidableEq α] {t : Tbl α} {d : α} (h : Canonical t d) (k : Nat) (v : α) :
    Canonical (tset t k v d) d := by
  simp only [tset]; split
  · exact canonical_tdel h k
  · rename_i hv; exact canonical_tput h k hv

theorem canonical_filter [DecidableEq α] {t : Tbl α} {d : α} (h : Canonical t d) (p : Nat × α → Bool) :
    Canonical (t.filter p) d := ⟨rising_filter h.1 p, fun x hx => h.2 x (List.mem_filter.mp hx).1⟩

theorem canonical_foldl_tset [DecidableEq α] {β : Type} {d : α} (l : List β) (k : β → Nat) (v : β → α) {t : Tbl α}
    (h : Canonical t d) : Canonical (l.foldl (fun t x => tset t (k x) (v x) d) t) d := by
  induction l generalizing t with
  | nil => exact h
  | cons b l ih => exact ih (canonical_tset h _ _)

theorem canonical_foldl_tput [DecidableEq α] {d : α} (l : Tbl α) {t : Tbl α} (h : Canonical t d) (hl : ∀ x ∈ l, x.2 ≠ d) :
    Canonical (l.foldl (fun t x => tput t x.1 x.2) t) d := by
  induction l generalizing t with
  | nil => exact h
  | cons b l ih =>
    exact ih (canonical_tput h _ (hl b (List.mem_cons_self))) (fun x hx => hl x (List.mem_cons_of_mem _ hx))

theorem Memory.wf_iff (m : MemSt) : Memory.wf m = true ↔ Memory.canonical m := by unfold Memory.wf; exact decide_eq_true_iff

/-! Memories. -/

theorem canonical_memPut {m : MemSt} (h : Memory.canonical m) (a : Nat) (b : Byte) : Memory.canonical (memPut m a b) := by
  obtain ⟨h1, h⟩ := h
  exact ⟨canonical_tset h1 _ _, h⟩

theorem canonical_memWrite {m : MemSt} (h : Memory.canonical m) (a : Nat) (l : List Byte) :
    Memory.canonical (memWrite m a l) := by
  induction l generalizing m a with
  | nil => exact h
  | cons b l ih => exact ih (canonical_memPut h a b) _

theorem canonical_setSlotPoison {m : MemSt} (h : Memory.canonical m) (k : Nat) (b : Bool) :
    Memory.canonical (setSlotPoison m k b) := by
  obtain ⟨h1, h2, h3, h⟩ := h
  exact ⟨h1, h2, canonical_tset h3 _ _, h⟩

theorem canonical_setSlotEmpty {m : MemSt} (h : Memory.canonical m) (k : Nat) (b : Bool) :
    Memory.canonical (setSlotEmpty m k b) := by
  obtain ⟨h1, h2, h3, h4, h⟩ := h
  exact ⟨h1, h2, h3, canonical_tset h4 _ _, h⟩

theorem canonical_tbStoreBytes {m : MemSt} (h : Memory.canonical m) (a : Nat) (l : List Byte) :
    Memory.canonical (tbStoreBytes m a l) := by
  induction l generalizing m a with
  | nil => exact h
  | cons b l ih =>
    refine ih ?_ _
    obtain ⟨h1, h2, h⟩ := h
    exact ⟨canonical_tset h1 _ _, canonical_tdel h2 _, h⟩

theorem foldl_keeps {β σ : Type} {P : σ → Prop} {f : σ → β → σ} (l : List β) (hf : ∀ s x, P s → P (f s x)) {s : σ} (h : P s) :
    P (l.foldl f s) := by
  induction l generalizing s with
  | nil => exact h
  | cons b l ih => exact ih (hf _ _ h)

theorem canonical_tbWrite {m : MemSt} (h : Memory.canonical m) (lt off : Nat) (d : List Byte) (p : List Bool) (tag : Nat) :
    Memory.canonical (tbWrite m lt off d p tag) := by
  simp only [tbWrite, forEach]
  refine foldl_keeps _ (fun m k hm => ?_) (canonical_tbStoreBytes h _ _)
  split
  · exact canonical_setSlotEmpty (canonical_setSlotPoison hm _ _) _ _
  · split
    · exact canonical_setSlotEmpty (canonical_setSlotPoison hm _ _) _ _
    · exact canonical_setSlotPoison hm _ _

theorem canonical_spoilByte {m : MemSt} (h : Memory.canonical m) (a free : Nat) : Memory.canonical (spoilByte m a free) := by
  have h' := canonical_memPut h a (Config.freeByte free)
  simp only [spoilByte]
  split
  · obtain ⟨h1, h2, h⟩ := canonical_setSlotPoison h' (a / 64) true
    exact ⟨h1, canonical_tdel h2 _, h⟩
  · obtain ⟨h1, h2, h3, h4, h5, h6, h⟩ := h'
    exact ⟨h1, h2, h3, h4, h5, canonical_tset h6 (a / 4) 1, h⟩

theorem canonical_spoilUse {m : MemSt} (h : Memory.canonical m) (u : SliceUse) (free : Nat) :
    Memory.canonical (spoilUse m u free) := by
  simp only [spoilUse, forEach]
  split
  · exact foldl_keeps (P := Memory.canonical) _ (fun m i hm => canonical_spoilByte hm _ _) h
  · exact h

theorem canonical_tbUndo {m : MemSt} (h : Memory.canonical m) (u : SliceUse) : Memory.canonical (tbUndo m u) := by
  simp only [tbUndo, forEach]
  refine foldl_keeps _ (fun m x hm => ?_) (foldl_keeps _ (fun m x hm => ?_) h)
  · obtain ⟨h1, h2, h3, h4, h⟩ := hm
    exact ⟨h1, h2, canonical_tset h3 _ _, canonical_tset h4 _ _, h⟩
  · obtain ⟨h1, h2, h⟩ := canonical_memPut hm x.1 x.2.1
    exact ⟨h1, canonical_tset h2 _ _, h⟩

theorem canonical_tbClear {m : MemSt} (h : Memory.canonical m) (lt : Nat) : Memory.canonical (tbClear m lt) := by
  obtain ⟨h1, h2, h3, h4, h⟩ := h
  exact ⟨canonical_filter h1 _, canonical_filter h2 _, canonical_filter h3 _, canonical_filter h4 _, h⟩

theorem canonical_lkStore {m : MemSt} (h : Memory.canonical m) (a w : Nat) (p : Bool) : Memory.canonical (lkStore m a w p) := by
  have h' := canonical_memWrite h a (leBytes 8 w)
  simp only [lkStore]
  obtain ⟨h1, h2, h3, h4, h5, h⟩ := h'
  exact ⟨h1, h2, h3, h4, canonical_tset h5 _ _, h⟩

theorem canonical_lmStore {m : MemSt} (h : Memory.canonical m) (a w : Nat) (p : Bool) : Memory.canonical (lmStore m a w p) := by
  have h' := canonical_memWrite h a (leBytes 4 w)
  simp only [lmStore]
  obtain ⟨h1, h2, h3, h4, h5, h6, h7, h⟩ := h'
  exact ⟨h1, h2, h3, h4, h5, canonical_tset h6 _ _, rising_tdel h7 _, h⟩

theorem canonical_lmStoreBytes {m : MemSt} (h : Memory.canonical m) (a : Nat) (d : List Byte) (p : Bool) :
    Memory.canonical (lmStoreBytes m a d p) := by
  simp only [lmStoreBytes]
  split
  · obtain ⟨h1, h2, h3, h4, h5, h6, h7, h⟩ := canonical_lmStore h (a / 4 * 4) _ _
    exact ⟨h1, h2, h3, h4, h5, h6, rising_tput h7 _ _, h⟩
  · exact canonical_lmStore h _ _ _

theorem canonical_lmClear {m : MemSt} (h : Memory.canonical m) (core lo hi : Nat) : Memory.canonical (lmClear m core lo hi) := by
  obtain ⟨h1, h2, h3, h4, h5, h6, h7, h⟩ := h
  exact ⟨canonical_filter h1 _, h2, h3, h4, h5, canonical_filter h6 _, rising_filter h7 _, h⟩

theorem canonical_loseLockers {m : MemSt} (h : Memory.canonical m) (lt k : Nat) (keep : Bool) :
    Memory.canonical (loseLockers m lt k keep) := by
  obtain ⟨h1, h2, h3, h4, h5, h6, h7, h8, h9, h10, h11, h12, h13⟩ := h
  refine ⟨canonical_filter h1 _, h2, h3, h4, canonical_filter h5 _, h6, h7, h8, rising_tput h9 _ _, ?_, ?_, ?_, h13⟩
  · refine canonical_foldl_tput _ (canonical_filter h10 _) (fun x hx => ?_)
    split at hx
    · exact h1.2 x (List.mem_filter.mp hx).1
    · simp at hx
  · refine canonical_foldl_tput _ (canonical_filter h11 _) (fun x hx => ?_)
    split at hx
    · exact h5.2 x (List.mem_filter.mp hx).1
    · simp at hx
  · simp only [loseLockers]; split
    · split
      · exact rising_tput h12 _ _
      · exact rising_tdel h12 _
    · exact rising_tdel h12 _

theorem canonical_fetchLockers {m : MemSt} (h : Memory.canonical m) (lt : Nat) : Memory.canonical (fetchLockers m lt) := by
  obtain ⟨h1, h2, h3, h4, h5, h6, h7, h8, h9, h10, h11, h12, h13⟩ := h
  refine ⟨?_, h2, h3, h4, ?_, h6, h7, h8, ?_, canonical_filter h10 _, canonical_filter h11 _, rising_tdel h12 _, h13⟩
  · exact canonical_foldl_tput _ (canonical_filter h1 _) (fun x hx => h10.2 x (List.mem_filter.mp hx).1)
  · exact canonical_foldl_tput _ (canonical_filter h5 _) (fun x hx => h11.2 x (List.mem_filter.mp hx).1)
  · simp only [fetchLockers]; split
    · exact rising_tput h9 _ _
    · exact rising_tdel h9 _

theorem canonical_resetMem {m : MemSt} (h : Memory.canonical m) : Memory.canonical (resetMem m) := by
  unfold resetMem
  generalize List.range 256 = l
  induction l generalizing m with
  | nil => exact h
  | cons b l ih => exact ih (canonical_tbClear h b)

theorem canonical_reset : Memory.canonical MemSt.reset := by decide

/-! Registers. -/

theorem regsCanonical_tset {t : Tbl Word} (h : RegsCanonical t) (a : Nat) (w : Word) :
    RegsCanonical (tset t a w (regReset a)) := by
  simp only [tset]; split
  · exact ⟨rising_tdel h.1 a, fun x hx => h.2 x (mem_tdel hx)⟩
  · rename_i hw
    refine ⟨rising_tput h.1 a w, fun x hx => ?_⟩
    rcases mem_tput hx with hx | hx
    · subst hx; exact hw
    · exact h.2 x hx

theorem regsCanonical_resetRegs {t : Tbl Word} (h : RegsCanonical t) : RegsCanonical (resetRegs t) := by
  refine ⟨rising_filter (rising_map h.1 (fun x => resetWord x.1 x.2)) _, fun x hx => ?_⟩
  have := (List.mem_filter.mp hx).2
  simpa using this

end Sys2Proof.Machine
end

