-- ==== Sys2Proof/Laws/State.lean ====
section
/-! SUPPORT. Reading a field of the state after each basic update, and registers after they are loaded. -/

namespace Sys2Proof.Machine

@[simp] theorem State.setReg_shadows (s : State) (a : Nat) (w : Word) : (s.setReg a w).shadows = s.shadows := rfl
@[simp] theorem State.setReg_mem (s : State) (a : Nat) (w : Word) : (s.setReg a w).mem = s.mem := rfl
@[simp] theorem State.setReg_freeCtr (s : State) (a : Nat) (w : Word) : (s.setReg a w).freeCtr = s.freeCtr := rfl
@[simp] theorem State.setReg_variant (s : State) (a : Nat) (w : Word) : (s.setReg a w).variant = s.variant := rfl
@[simp] theorem State.setReg_cyc (s : State) (a : Nat) (w : Word) : (s.setReg a w).cyc = s.cyc := rfl
@[simp] theorem State.setReg_bell (s : State) (a : Nat) (w : Word) : (s.setReg a w).bell = s.bell := rfl
@[simp] theorem State.setReg_map (s : State) (a : Nat) (w : Word) : (s.setReg a w).map = s.map := rfl
@[simp] theorem State.setReg_crs (s : State) (a : Nat) (w : Word) : (s.setReg a w).crs = s.crs := rfl
@[simp] theorem State.setReg_groups (s : State) (a : Nat) (w : Word) : (s.setReg a w).groups = s.groups := rfl
@[simp] theorem State.setReg_tiles (s : State) (a : Nat) (w : Word) : (s.setReg a w).tiles = s.tiles := rfl
@[simp] theorem State.setReg_cores (s : State) (a : Nat) (w : Word) : (s.setReg a w).cores = s.cores := rfl
@[simp] theorem State.setReg_chans (s : State) (a : Nat) (w : Word) : (s.setReg a w).chans = s.chans := rfl
@[simp] theorem State.setReg_layers (s : State) (a : Nat) (w : Word) : (s.setReg a w).layers = s.layers := rfl
@[simp] theorem State.setReg_mesh (s : State) (a : Nat) (w : Word) : (s.setReg a w).mesh = s.mesh := rfl
@[simp] theorem State.setReg_ports (s : State) (a : Nat) (w : Word) : (s.setReg a w).ports = s.ports := rfl
@[simp] theorem State.setReg_remotes (s : State) (a : Nat) (w : Word) : (s.setReg a w).remotes = s.remotes := rfl
@[simp] theorem State.setReg_svcWait (s : State) (a : Nat) (w : Word) : (s.setReg a w).svcWait = s.svcWait := rfl
@[simp] theorem State.setReg_nextSvcTag (s : State) (a : Nat) (w : Word) : (s.setReg a w).nextSvcTag = s.nextSvcTag := rfl
@[simp] theorem State.setReg_mxl (s : State) (a : Nat) (w : Word) : (s.setReg a w).mxl = s.mxl := rfl
@[simp] theorem State.setReg_cmds (s : State) (a : Nat) (w : Word) : (s.setReg a w).cmds = s.cmds := rfl
@[simp] theorem State.setReg_done (s : State) (a : Nat) (w : Word) : (s.setReg a w).done = s.done := rfl
@[simp] theorem State.setReg_skips (s : State) (a : Nat) (w : Word) : (s.setReg a w).skips = s.skips := rfl
@[simp] theorem State.setReg_lastRing (s : State) (a : Nat) (w : Word) : (s.setReg a w).lastRing = s.lastRing := rfl
@[simp] theorem State.setReg_lastRun (s : State) (a : Nat) (w : Word) : (s.setReg a w).lastRun = s.lastRun := rfl
@[simp] theorem State.setReg_fences (s : State) (a : Nat) (w : Word) : (s.setReg a w).fences = s.fences := rfl
@[simp] theorem State.setReg_evRings (s : State) (a : Nat) (w : Word) : (s.setReg a w).evRings = s.evRings := rfl
@[simp] theorem State.setReg_stop (s : State) (a : Nat) (w : Word) : (s.setReg a w).stop = s.stop := rfl
@[simp] theorem State.setReg_energy (s : State) (a : Nat) (w : Word) : (s.setReg a w).energy = s.energy := rfl
@[simp] theorem State.setReg_clock (s : State) (a : Nat) (w : Word) : (s.setReg a w).clock = s.clock := rfl
@[simp] theorem State.setReg_power (s : State) (a : Nat) (w : Word) : (s.setReg a w).power = s.power := rfl
@[simp] theorem State.setReg_stored (s : State) (a : Nat) (w : Word) : (s.setReg a w).stored = s.stored := rfl
@[simp] theorem State.setReg_ariAt (s : State) (a : Nat) (w : Word) : (s.setReg a w).ariAt = s.ariAt := rfl
@[simp] theorem State.setReg_therm (s : State) (a : Nat) (w : Word) : (s.setReg a w).therm = s.therm := rfl
@[simp] theorem State.setReg_bring (s : State) (a : Nat) (w : Word) : (s.setReg a w).bring = s.bring := rfl
@[simp] theorem State.setReg_sec (s : State) (a : Nat) (w : Word) : (s.setReg a w).sec = s.sec := rfl
@[simp] theorem State.setReg_mgmt (s : State) (a : Nat) (w : Word) : (s.setReg a w).mgmt = s.mgmt := rfl
@[simp] theorem State.setReg_out (s : State) (a : Nat) (w : Word) : (s.setReg a w).out = s.out := rfl
@[simp] theorem State.setReg_pending (s : State) (a : Nat) (w : Word) : (s.setReg a w).pending = s.pending := rfl

@[simp] theorem State.setF_shadows (s : State) (a : Nat) (f : Fld) (n : Nat) : (s.setF a f n).shadows = s.shadows := rfl
@[simp] theorem State.setF_mem (s : State) (a : Nat) (f : Fld) (n : Nat) : (s.setF a f n).mem = s.mem := rfl
@[simp] theorem State.setF_freeCtr (s : State) (a : Nat) (f : Fld) (n : Nat) : (s.setF a f n).freeCtr = s.freeCtr := rfl
@[simp] theorem State.setF_variant (s : State) (a : Nat) (f : Fld) (n : Nat) : (s.setF a f n).variant = s.variant := rfl
@[simp] theorem State.setF_cyc (s : State) (a : Nat) (f : Fld) (n : Nat) : (s.setF a f n).cyc = s.cyc := rfl
@[simp] theorem State.setF_bell (s : State) (a : Nat) (f : Fld) (n : Nat) : (s.setF a f n).bell = s.bell := rfl
@[simp] theorem State.setF_map (s : State) (a : Nat) (f : Fld) (n : Nat) : (s.setF a f n).map = s.map := rfl
@[simp] theorem State.setF_crs (s : State) (a : Nat) (f : Fld) (n : Nat) : (s.setF a f n).crs = s.crs := rfl
@[simp] theorem State.setF_groups (s : State) (a : Nat) (f : Fld) (n : Nat) : (s.setF a f n).groups = s.groups := rfl
@[simp] theorem State.setF_tiles (s : State) (a : Nat) (f : Fld) (n : Nat) : (s.setF a f n).tiles = s.tiles := rfl
@[simp] theorem State.setF_cores (s : State) (a : Nat) (f : Fld) (n : Nat) : (s.setF a f n).cores = s.cores := rfl
@[simp] theorem State.setF_chans (s : State) (a : Nat) (f : Fld) (n : Nat) : (s.setF a f n).chans = s.chans := rfl
@[simp] theorem State.setF_layers (s : State) (a : Nat) (f : Fld) (n : Nat) : (s.setF a f n).layers = s.layers := rfl
@[simp] theorem State.setF_mesh (s : State) (a : Nat) (f : Fld) (n : Nat) : (s.setF a f n).mesh = s.mesh := rfl
@[simp] theorem State.setF_ports (s : State) (a : Nat) (f : Fld) (n : Nat) : (s.setF a f n).ports = s.ports := rfl
@[simp] theorem State.setF_remotes (s : State) (a : Nat) (f : Fld) (n : Nat) : (s.setF a f n).remotes = s.remotes := rfl
@[simp] theorem State.setF_svcWait (s : State) (a : Nat) (f : Fld) (n : Nat) : (s.setF a f n).svcWait = s.svcWait := rfl
@[simp] theorem State.setF_nextSvcTag (s : State) (a : Nat) (f : Fld) (n : Nat) : (s.setF a f n).nextSvcTag = s.nextSvcTag := rfl
@[simp] theorem State.setF_mxl (s : State) (a : Nat) (f : Fld) (n : Nat) : (s.setF a f n).mxl = s.mxl := rfl
@[simp] theorem State.setF_cmds (s : State) (a : Nat) (f : Fld) (n : Nat) : (s.setF a f n).cmds = s.cmds := rfl
@[simp] theorem State.setF_done (s : State) (a : Nat) (f : Fld) (n : Nat) : (s.setF a f n).done = s.done := rfl
@[simp] theorem State.setF_skips (s : State) (a : Nat) (f : Fld) (n : Nat) : (s.setF a f n).skips = s.skips := rfl
@[simp] theorem State.setF_lastRing (s : State) (a : Nat) (f : Fld) (n : Nat) : (s.setF a f n).lastRing = s.lastRing := rfl
@[simp] theorem State.setF_lastRun (s : State) (a : Nat) (f : Fld) (n : Nat) : (s.setF a f n).lastRun = s.lastRun := rfl
@[simp] theorem State.setF_fences (s : State) (a : Nat) (f : Fld) (n : Nat) : (s.setF a f n).fences = s.fences := rfl
@[simp] theorem State.setF_evRings (s : State) (a : Nat) (f : Fld) (n : Nat) : (s.setF a f n).evRings = s.evRings := rfl
@[simp] theorem State.setF_stop (s : State) (a : Nat) (f : Fld) (n : Nat) : (s.setF a f n).stop = s.stop := rfl
@[simp] theorem State.setF_energy (s : State) (a : Nat) (f : Fld) (n : Nat) : (s.setF a f n).energy = s.energy := rfl
@[simp] theorem State.setF_clock (s : State) (a : Nat) (f : Fld) (n : Nat) : (s.setF a f n).clock = s.clock := rfl
@[simp] theorem State.setF_power (s : State) (a : Nat) (f : Fld) (n : Nat) : (s.setF a f n).power = s.power := rfl
@[simp] theorem State.setF_stored (s : State) (a : Nat) (f : Fld) (n : Nat) : (s.setF a f n).stored = s.stored := rfl
@[simp] theorem State.setF_ariAt (s : State) (a : Nat) (f : Fld) (n : Nat) : (s.setF a f n).ariAt = s.ariAt := rfl
@[simp] theorem State.setF_therm (s : State) (a : Nat) (f : Fld) (n : Nat) : (s.setF a f n).therm = s.therm := rfl
@[simp] theorem State.setF_bring (s : State) (a : Nat) (f : Fld) (n : Nat) : (s.setF a f n).bring = s.bring := rfl
@[simp] theorem State.setF_sec (s : State) (a : Nat) (f : Fld) (n : Nat) : (s.setF a f n).sec = s.sec := rfl
@[simp] theorem State.setF_mgmt (s : State) (a : Nat) (f : Fld) (n : Nat) : (s.setF a f n).mgmt = s.mgmt := rfl
@[simp] theorem State.setF_out (s : State) (a : Nat) (f : Fld) (n : Nat) : (s.setF a f n).out = s.out := rfl
@[simp] theorem State.setF_pending (s : State) (a : Nat) (f : Fld) (n : Nat) : (s.setF a f n).pending = s.pending := rfl

@[simp] theorem State.setB_shadows (s : State) (a : Nat) (f : Fld) (b : Bool) : (s.setB a f b).shadows = s.shadows := rfl
@[simp] theorem State.setB_mem (s : State) (a : Nat) (f : Fld) (b : Bool) : (s.setB a f b).mem = s.mem := rfl
@[simp] theorem State.setB_freeCtr (s : State) (a : Nat) (f : Fld) (b : Bool) : (s.setB a f b).freeCtr = s.freeCtr := rfl
@[simp] theorem State.setB_variant (s : State) (a : Nat) (f : Fld) (b : Bool) : (s.setB a f b).variant = s.variant := rfl
@[simp] theorem State.setB_cyc (s : State) (a : Nat) (f : Fld) (b : Bool) : (s.setB a f b).cyc = s.cyc := rfl
@[simp] theorem State.setB_bell (s : State) (a : Nat) (f : Fld) (b : Bool) : (s.setB a f b).bell = s.bell := rfl
@[simp] theorem State.setB_map (s : State) (a : Nat) (f : Fld) (b : Bool) : (s.setB a f b).map = s.map := rfl
@[simp] theorem State.setB_crs (s : State) (a : Nat) (f : Fld) (b : Bool) : (s.setB a f b).crs = s.crs := rfl
@[simp] theorem State.setB_groups (s : State) (a : Nat) (f : Fld) (b : Bool) : (s.setB a f b).groups = s.groups := rfl
@[simp] theorem State.setB_tiles (s : State) (a : Nat) (f : Fld) (b : Bool) : (s.setB a f b).tiles = s.tiles := rfl
@[simp] theorem State.setB_cores (s : State) (a : Nat) (f : Fld) (b : Bool) : (s.setB a f b).cores = s.cores := rfl
@[simp] theorem State.setB_chans (s : State) (a : Nat) (f : Fld) (b : Bool) : (s.setB a f b).chans = s.chans := rfl
@[simp] theorem State.setB_layers (s : State) (a : Nat) (f : Fld) (b : Bool) : (s.setB a f b).layers = s.layers := rfl
@[simp] theorem State.setB_mesh (s : State) (a : Nat) (f : Fld) (b : Bool) : (s.setB a f b).mesh = s.mesh := rfl
@[simp] theorem State.setB_ports (s : State) (a : Nat) (f : Fld) (b : Bool) : (s.setB a f b).ports = s.ports := rfl
@[simp] theorem State.setB_remotes (s : State) (a : Nat) (f : Fld) (b : Bool) : (s.setB a f b).remotes = s.remotes := rfl
@[simp] theorem State.setB_svcWait (s : State) (a : Nat) (f : Fld) (b : Bool) : (s.setB a f b).svcWait = s.svcWait := rfl
@[simp] theorem State.setB_nextSvcTag (s : State) (a : Nat) (f : Fld) (b : Bool) : (s.setB a f b).nextSvcTag = s.nextSvcTag := rfl
@[simp] theorem State.setB_mxl (s : State) (a : Nat) (f : Fld) (b : Bool) : (s.setB a f b).mxl = s.mxl := rfl
@[simp] theorem State.setB_cmds (s : State) (a : Nat) (f : Fld) (b : Bool) : (s.setB a f b).cmds = s.cmds := rfl
@[simp] theorem State.setB_done (s : State) (a : Nat) (f : Fld) (b : Bool) : (s.setB a f b).done = s.done := rfl
@[simp] theorem State.setB_skips (s : State) (a : Nat) (f : Fld) (b : Bool) : (s.setB a f b).skips = s.skips := rfl
@[simp] theorem State.setB_lastRing (s : State) (a : Nat) (f : Fld) (b : Bool) : (s.setB a f b).lastRing = s.lastRing := rfl
@[simp] theorem State.setB_lastRun (s : State) (a : Nat) (f : Fld) (b : Bool) : (s.setB a f b).lastRun = s.lastRun := rfl
@[simp] theorem State.setB_fences (s : State) (a : Nat) (f : Fld) (b : Bool) : (s.setB a f b).fences = s.fences := rfl
@[simp] theorem State.setB_evRings (s : State) (a : Nat) (f : Fld) (b : Bool) : (s.setB a f b).evRings = s.evRings := rfl
@[simp] theorem State.setB_stop (s : State) (a : Nat) (f : Fld) (b : Bool) : (s.setB a f b).stop = s.stop := rfl
@[simp] theorem State.setB_energy (s : State) (a : Nat) (f : Fld) (b : Bool) : (s.setB a f b).energy = s.energy := rfl
@[simp] theorem State.setB_clock (s : State) (a : Nat) (f : Fld) (b : Bool) : (s.setB a f b).clock = s.clock := rfl
@[simp] theorem State.setB_power (s : State) (a : Nat) (f : Fld) (b : Bool) : (s.setB a f b).power = s.power := rfl
@[simp] theorem State.setB_stored (s : State) (a : Nat) (f : Fld) (b : Bool) : (s.setB a f b).stored = s.stored := rfl
@[simp] theorem State.setB_ariAt (s : State) (a : Nat) (f : Fld) (b : Bool) : (s.setB a f b).ariAt = s.ariAt := rfl
@[simp] theorem State.setB_therm (s : State) (a : Nat) (f : Fld) (b : Bool) : (s.setB a f b).therm = s.therm := rfl
@[simp] theorem State.setB_bring (s : State) (a : Nat) (f : Fld) (b : Bool) : (s.setB a f b).bring = s.bring := rfl
@[simp] theorem State.setB_sec (s : State) (a : Nat) (f : Fld) (b : Bool) : (s.setB a f b).sec = s.sec := rfl
@[simp] theorem State.setB_mgmt (s : State) (a : Nat) (f : Fld) (b : Bool) : (s.setB a f b).mgmt = s.mgmt := rfl
@[simp] theorem State.setB_out (s : State) (a : Nat) (f : Fld) (b : Bool) : (s.setB a f b).out = s.out := rfl
@[simp] theorem State.setB_pending (s : State) (a : Nat) (f : Fld) (b : Bool) : (s.setB a f b).pending = s.pending := rfl

@[simp] theorem State.incF_shadows (s : State) (a : Nat) (f : Fld) (n : Nat) : (s.incF a f n).shadows = s.shadows := rfl
@[simp] theorem State.incF_mem (s : State) (a : Nat) (f : Fld) (n : Nat) : (s.incF a f n).mem = s.mem := rfl
@[simp] theorem State.incF_freeCtr (s : State) (a : Nat) (f : Fld) (n : Nat) : (s.incF a f n).freeCtr = s.freeCtr := rfl
@[simp] theorem State.incF_variant (s : State) (a : Nat) (f : Fld) (n : Nat) : (s.incF a f n).variant = s.variant := rfl
@[simp] theorem State.incF_cyc (s : State) (a : Nat) (f : Fld) (n : Nat) : (s.incF a f n).cyc = s.cyc := rfl
@[simp] theorem State.incF_bell (s : State) (a : Nat) (f : Fld) (n : Nat) : (s.incF a f n).bell = s.bell := rfl
@[simp] theorem State.incF_map (s : State) (a : Nat) (f : Fld) (n : Nat) : (s.incF a f n).map = s.map := rfl
@[simp] theorem State.incF_crs (s : State) (a : Nat) (f : Fld) (n : Nat) : (s.incF a f n).crs = s.crs := rfl
@[simp] theorem State.incF_groups (s : State) (a : Nat) (f : Fld) (n : Nat) : (s.incF a f n).groups = s.groups := rfl
@[simp] theorem State.incF_tiles (s : State) (a : Nat) (f : Fld) (n : Nat) : (s.incF a f n).tiles = s.tiles := rfl
@[simp] theorem State.incF_cores (s : State) (a : Nat) (f : Fld) (n : Nat) : (s.incF a f n).cores = s.cores := rfl
@[simp] theorem State.incF_chans (s : State) (a : Nat) (f : Fld) (n : Nat) : (s.incF a f n).chans = s.chans := rfl
@[simp] theorem State.incF_layers (s : State) (a : Nat) (f : Fld) (n : Nat) : (s.incF a f n).layers = s.layers := rfl
@[simp] theorem State.incF_mesh (s : State) (a : Nat) (f : Fld) (n : Nat) : (s.incF a f n).mesh = s.mesh := rfl
@[simp] theorem State.incF_ports (s : State) (a : Nat) (f : Fld) (n : Nat) : (s.incF a f n).ports = s.ports := rfl
@[simp] theorem State.incF_remotes (s : State) (a : Nat) (f : Fld) (n : Nat) : (s.incF a f n).remotes = s.remotes := rfl
@[simp] theorem State.incF_svcWait (s : State) (a : Nat) (f : Fld) (n : Nat) : (s.incF a f n).svcWait = s.svcWait := rfl
@[simp] theorem State.incF_nextSvcTag (s : State) (a : Nat) (f : Fld) (n : Nat) : (s.incF a f n).nextSvcTag = s.nextSvcTag := rfl
@[simp] theorem State.incF_mxl (s : State) (a : Nat) (f : Fld) (n : Nat) : (s.incF a f n).mxl = s.mxl := rfl
@[simp] theorem State.incF_cmds (s : State) (a : Nat) (f : Fld) (n : Nat) : (s.incF a f n).cmds = s.cmds := rfl
@[simp] theorem State.incF_done (s : State) (a : Nat) (f : Fld) (n : Nat) : (s.incF a f n).done = s.done := rfl
@[simp] theorem State.incF_skips (s : State) (a : Nat) (f : Fld) (n : Nat) : (s.incF a f n).skips = s.skips := rfl
@[simp] theorem State.incF_lastRing (s : State) (a : Nat) (f : Fld) (n : Nat) : (s.incF a f n).lastRing = s.lastRing := rfl
@[simp] theorem State.incF_lastRun (s : State) (a : Nat) (f : Fld) (n : Nat) : (s.incF a f n).lastRun = s.lastRun := rfl
@[simp] theorem State.incF_fences (s : State) (a : Nat) (f : Fld) (n : Nat) : (s.incF a f n).fences = s.fences := rfl
@[simp] theorem State.incF_evRings (s : State) (a : Nat) (f : Fld) (n : Nat) : (s.incF a f n).evRings = s.evRings := rfl
@[simp] theorem State.incF_stop (s : State) (a : Nat) (f : Fld) (n : Nat) : (s.incF a f n).stop = s.stop := rfl
@[simp] theorem State.incF_energy (s : State) (a : Nat) (f : Fld) (n : Nat) : (s.incF a f n).energy = s.energy := rfl
@[simp] theorem State.incF_clock (s : State) (a : Nat) (f : Fld) (n : Nat) : (s.incF a f n).clock = s.clock := rfl
@[simp] theorem State.incF_power (s : State) (a : Nat) (f : Fld) (n : Nat) : (s.incF a f n).power = s.power := rfl
@[simp] theorem State.incF_stored (s : State) (a : Nat) (f : Fld) (n : Nat) : (s.incF a f n).stored = s.stored := rfl
@[simp] theorem State.incF_ariAt (s : State) (a : Nat) (f : Fld) (n : Nat) : (s.incF a f n).ariAt = s.ariAt := rfl
@[simp] theorem State.incF_therm (s : State) (a : Nat) (f : Fld) (n : Nat) : (s.incF a f n).therm = s.therm := rfl
@[simp] theorem State.incF_bring (s : State) (a : Nat) (f : Fld) (n : Nat) : (s.incF a f n).bring = s.bring := rfl
@[simp] theorem State.incF_sec (s : State) (a : Nat) (f : Fld) (n : Nat) : (s.incF a f n).sec = s.sec := rfl
@[simp] theorem State.incF_mgmt (s : State) (a : Nat) (f : Fld) (n : Nat) : (s.incF a f n).mgmt = s.mgmt := rfl
@[simp] theorem State.incF_out (s : State) (a : Nat) (f : Fld) (n : Nat) : (s.incF a f n).out = s.out := rfl
@[simp] theorem State.incF_pending (s : State) (a : Nat) (f : Fld) (n : Nat) : (s.incF a f n).pending = s.pending := rfl

@[simp] theorem State.setPair_shadows (s : State) (a n : Nat) : (s.setPair a n).shadows = s.shadows := rfl
@[simp] theorem State.setPair_mem (s : State) (a n : Nat) : (s.setPair a n).mem = s.mem := rfl
@[simp] theorem State.setPair_freeCtr (s : State) (a n : Nat) : (s.setPair a n).freeCtr = s.freeCtr := rfl
@[simp] theorem State.setPair_variant (s : State) (a n : Nat) : (s.setPair a n).variant = s.variant := rfl
@[simp] theorem State.setPair_cyc (s : State) (a n : Nat) : (s.setPair a n).cyc = s.cyc := rfl
@[simp] theorem State.setPair_bell (s : State) (a n : Nat) : (s.setPair a n).bell = s.bell := rfl
@[simp] theorem State.setPair_map (s : State) (a n : Nat) : (s.setPair a n).map = s.map := rfl
@[simp] theorem State.setPair_crs (s : State) (a n : Nat) : (s.setPair a n).crs = s.crs := rfl
@[simp] theorem State.setPair_groups (s : State) (a n : Nat) : (s.setPair a n).groups = s.groups := rfl
@[simp] theorem State.setPair_tiles (s : State) (a n : Nat) : (s.setPair a n).tiles = s.tiles := rfl
@[simp] theorem State.setPair_cores (s : State) (a n : Nat) : (s.setPair a n).cores = s.cores := rfl
@[simp] theorem State.setPair_chans (s : State) (a n : Nat) : (s.setPair a n).chans = s.chans := rfl
@[simp] theorem State.setPair_layers (s : State) (a n : Nat) : (s.setPair a n).layers = s.layers := rfl
@[simp] theorem State.setPair_mesh (s : State) (a n : Nat) : (s.setPair a n).mesh = s.mesh := rfl
@[simp] theorem State.setPair_ports (s : State) (a n : Nat) : (s.setPair a n).ports = s.ports := rfl
@[simp] theorem State.setPair_remotes (s : State) (a n : Nat) : (s.setPair a n).remotes = s.remotes := rfl
@[simp] theorem State.setPair_svcWait (s : State) (a n : Nat) : (s.setPair a n).svcWait = s.svcWait := rfl
@[simp] theorem State.setPair_nextSvcTag (s : State) (a n : Nat) : (s.setPair a n).nextSvcTag = s.nextSvcTag := rfl
@[simp] theorem State.setPair_mxl (s : State) (a n : Nat) : (s.setPair a n).mxl = s.mxl := rfl
@[simp] theorem State.setPair_cmds (s : State) (a n : Nat) : (s.setPair a n).cmds = s.cmds := rfl
@[simp] theorem State.setPair_done (s : State) (a n : Nat) : (s.setPair a n).done = s.done := rfl
@[simp] theorem State.setPair_skips (s : State) (a n : Nat) : (s.setPair a n).skips = s.skips := rfl
@[simp] theorem State.setPair_lastRing (s : State) (a n : Nat) : (s.setPair a n).lastRing = s.lastRing := rfl
@[simp] theorem State.setPair_lastRun (s : State) (a n : Nat) : (s.setPair a n).lastRun = s.lastRun := rfl
@[simp] theorem State.setPair_fences (s : State) (a n : Nat) : (s.setPair a n).fences = s.fences := rfl
@[simp] theorem State.setPair_evRings (s : State) (a n : Nat) : (s.setPair a n).evRings = s.evRings := rfl
@[simp] theorem State.setPair_stop (s : State) (a n : Nat) : (s.setPair a n).stop = s.stop := rfl
@[simp] theorem State.setPair_energy (s : State) (a n : Nat) : (s.setPair a n).energy = s.energy := rfl
@[simp] theorem State.setPair_clock (s : State) (a n : Nat) : (s.setPair a n).clock = s.clock := rfl
@[simp] theorem State.setPair_power (s : State) (a n : Nat) : (s.setPair a n).power = s.power := rfl
@[simp] theorem State.setPair_stored (s : State) (a n : Nat) : (s.setPair a n).stored = s.stored := rfl
@[simp] theorem State.setPair_ariAt (s : State) (a n : Nat) : (s.setPair a n).ariAt = s.ariAt := rfl
@[simp] theorem State.setPair_therm (s : State) (a n : Nat) : (s.setPair a n).therm = s.therm := rfl
@[simp] theorem State.setPair_bring (s : State) (a n : Nat) : (s.setPair a n).bring = s.bring := rfl
@[simp] theorem State.setPair_sec (s : State) (a n : Nat) : (s.setPair a n).sec = s.sec := rfl
@[simp] theorem State.setPair_mgmt (s : State) (a n : Nat) : (s.setPair a n).mgmt = s.mgmt := rfl
@[simp] theorem State.setPair_out (s : State) (a n : Nat) : (s.setPair a n).out = s.out := rfl
@[simp] theorem State.setPair_pending (s : State) (a n : Nat) : (s.setPair a n).pending = s.pending := rfl

@[simp] theorem State.drawn_regs (s : State) (n : Nat) : (s.drawn n).regs = s.regs := rfl
@[simp] theorem State.drawn_shadows (s : State) (n : Nat) : (s.drawn n).shadows = s.shadows := rfl
@[simp] theorem State.drawn_mem (s : State) (n : Nat) : (s.drawn n).mem = s.mem := rfl
@[simp] theorem State.drawn_variant (s : State) (n : Nat) : (s.drawn n).variant = s.variant := rfl
@[simp] theorem State.drawn_cyc (s : State) (n : Nat) : (s.drawn n).cyc = s.cyc := rfl
@[simp] theorem State.drawn_bell (s : State) (n : Nat) : (s.drawn n).bell = s.bell := rfl
@[simp] theorem State.drawn_map (s : State) (n : Nat) : (s.drawn n).map = s.map := rfl
@[simp] theorem State.drawn_crs (s : State) (n : Nat) : (s.drawn n).crs = s.crs := rfl
@[simp] theorem State.drawn_groups (s : State) (n : Nat) : (s.drawn n).groups = s.groups := rfl
@[simp] theorem State.drawn_tiles (s : State) (n : Nat) : (s.drawn n).tiles = s.tiles := rfl
@[simp] theorem State.drawn_cores (s : State) (n : Nat) : (s.drawn n).cores = s.cores := rfl
@[simp] theorem State.drawn_chans (s : State) (n : Nat) : (s.drawn n).chans = s.chans := rfl
@[simp] theorem State.drawn_layers (s : State) (n : Nat) : (s.drawn n).layers = s.layers := rfl
@[simp] theorem State.drawn_mesh (s : State) (n : Nat) : (s.drawn n).mesh = s.mesh := rfl
@[simp] theorem State.drawn_ports (s : State) (n : Nat) : (s.drawn n).ports = s.ports := rfl
@[simp] theorem State.drawn_remotes (s : State) (n : Nat) : (s.drawn n).remotes = s.remotes := rfl
@[simp] theorem State.drawn_svcWait (s : State) (n : Nat) : (s.drawn n).svcWait = s.svcWait := rfl
@[simp] theorem State.drawn_nextSvcTag (s : State) (n : Nat) : (s.drawn n).nextSvcTag = s.nextSvcTag := rfl
@[simp] theorem State.drawn_mxl (s : State) (n : Nat) : (s.drawn n).mxl = s.mxl := rfl
@[simp] theorem State.drawn_cmds (s : State) (n : Nat) : (s.drawn n).cmds = s.cmds := rfl
@[simp] theorem State.drawn_done (s : State) (n : Nat) : (s.drawn n).done = s.done := rfl
@[simp] theorem State.drawn_skips (s : State) (n : Nat) : (s.drawn n).skips = s.skips := rfl
@[simp] theorem State.drawn_lastRing (s : State) (n : Nat) : (s.drawn n).lastRing = s.lastRing := rfl
@[simp] theorem State.drawn_lastRun (s : State) (n : Nat) : (s.drawn n).lastRun = s.lastRun := rfl
@[simp] theorem State.drawn_fences (s : State) (n : Nat) : (s.drawn n).fences = s.fences := rfl
@[simp] theorem State.drawn_evRings (s : State) (n : Nat) : (s.drawn n).evRings = s.evRings := rfl
@[simp] theorem State.drawn_stop (s : State) (n : Nat) : (s.drawn n).stop = s.stop := rfl
@[simp] theorem State.drawn_energy (s : State) (n : Nat) : (s.drawn n).energy = s.energy := rfl
@[simp] theorem State.drawn_clock (s : State) (n : Nat) : (s.drawn n).clock = s.clock := rfl
@[simp] theorem State.drawn_power (s : State) (n : Nat) : (s.drawn n).power = s.power := rfl
@[simp] theorem State.drawn_stored (s : State) (n : Nat) : (s.drawn n).stored = s.stored := rfl
@[simp] theorem State.drawn_ariAt (s : State) (n : Nat) : (s.drawn n).ariAt = s.ariAt := rfl
@[simp] theorem State.drawn_therm (s : State) (n : Nat) : (s.drawn n).therm = s.therm := rfl
@[simp] theorem State.drawn_bring (s : State) (n : Nat) : (s.drawn n).bring = s.bring := rfl
@[simp] theorem State.drawn_sec (s : State) (n : Nat) : (s.drawn n).sec = s.sec := rfl
@[simp] theorem State.drawn_mgmt (s : State) (n : Nat) : (s.drawn n).mgmt = s.mgmt := rfl
@[simp] theorem State.drawn_out (s : State) (n : Nat) : (s.drawn n).out = s.out := rfl
@[simp] theorem State.drawn_pending (s : State) (n : Nat) : (s.drawn n).pending = s.pending := rfl

@[simp] theorem State.send_regs (s : State) (o : Out) : (s.send o).regs = s.regs := rfl
@[simp] theorem State.send_shadows (s : State) (o : Out) : (s.send o).shadows = s.shadows := rfl
@[simp] theorem State.send_mem (s : State) (o : Out) : (s.send o).mem = s.mem := rfl
@[simp] theorem State.send_freeCtr (s : State) (o : Out) : (s.send o).freeCtr = s.freeCtr := rfl
@[simp] theorem State.send_variant (s : State) (o : Out) : (s.send o).variant = s.variant := rfl
@[simp] theorem State.send_cyc (s : State) (o : Out) : (s.send o).cyc = s.cyc := rfl
@[simp] theorem State.send_bell (s : State) (o : Out) : (s.send o).bell = s.bell := rfl
@[simp] theorem State.send_map (s : State) (o : Out) : (s.send o).map = s.map := rfl
@[simp] theorem State.send_crs (s : State) (o : Out) : (s.send o).crs = s.crs := rfl
@[simp] theorem State.send_groups (s : State) (o : Out) : (s.send o).groups = s.groups := rfl
@[simp] theorem State.send_tiles (s : State) (o : Out) : (s.send o).tiles = s.tiles := rfl
@[simp] theorem State.send_cores (s : State) (o : Out) : (s.send o).cores = s.cores := rfl
@[simp] theorem State.send_chans (s : State) (o : Out) : (s.send o).chans = s.chans := rfl
@[simp] theorem State.send_layers (s : State) (o : Out) : (s.send o).layers = s.layers := rfl
@[simp] theorem State.send_mesh (s : State) (o : Out) : (s.send o).mesh = s.mesh := rfl
@[simp] theorem State.send_ports (s : State) (o : Out) : (s.send o).ports = s.ports := rfl
@[simp] theorem State.send_remotes (s : State) (o : Out) : (s.send o).remotes = s.remotes := rfl
@[simp] theorem State.send_svcWait (s : State) (o : Out) : (s.send o).svcWait = s.svcWait := rfl
@[simp] theorem State.send_nextSvcTag (s : State) (o : Out) : (s.send o).nextSvcTag = s.nextSvcTag := rfl
@[simp] theorem State.send_mxl (s : State) (o : Out) : (s.send o).mxl = s.mxl := rfl
@[simp] theorem State.send_cmds (s : State) (o : Out) : (s.send o).cmds = s.cmds := rfl
@[simp] theorem State.send_done (s : State) (o : Out) : (s.send o).done = s.done := rfl
@[simp] theorem State.send_skips (s : State) (o : Out) : (s.send o).skips = s.skips := rfl
@[simp] theorem State.send_lastRing (s : State) (o : Out) : (s.send o).lastRing = s.lastRing := rfl
@[simp] theorem State.send_lastRun (s : State) (o : Out) : (s.send o).lastRun = s.lastRun := rfl
@[simp] theorem State.send_fences (s : State) (o : Out) : (s.send o).fences = s.fences := rfl
@[simp] theorem State.send_evRings (s : State) (o : Out) : (s.send o).evRings = s.evRings := rfl
@[simp] theorem State.send_stop (s : State) (o : Out) : (s.send o).stop = s.stop := rfl
@[simp] theorem State.send_energy (s : State) (o : Out) : (s.send o).energy = s.energy := rfl
@[simp] theorem State.send_clock (s : State) (o : Out) : (s.send o).clock = s.clock := rfl
@[simp] theorem State.send_power (s : State) (o : Out) : (s.send o).power = s.power := rfl
@[simp] theorem State.send_stored (s : State) (o : Out) : (s.send o).stored = s.stored := rfl
@[simp] theorem State.send_ariAt (s : State) (o : Out) : (s.send o).ariAt = s.ariAt := rfl
@[simp] theorem State.send_therm (s : State) (o : Out) : (s.send o).therm = s.therm := rfl
@[simp] theorem State.send_bring (s : State) (o : Out) : (s.send o).bring = s.bring := rfl
@[simp] theorem State.send_sec (s : State) (o : Out) : (s.send o).sec = s.sec := rfl
@[simp] theorem State.send_mgmt (s : State) (o : Out) : (s.send o).mgmt = s.mgmt := rfl
@[simp] theorem State.send_pending (s : State) (o : Out) : (s.send o).pending = s.pending := rfl

@[simp] theorem State.modCrs_regs (s : State) (n : Nat) (f : Course → Course) : (s.modCrs n f).regs = s.regs := rfl
@[simp] theorem State.modCrs_shadows (s : State) (n : Nat) (f : Course → Course) : (s.modCrs n f).shadows = s.shadows := rfl
@[simp] theorem State.modCrs_mem (s : State) (n : Nat) (f : Course → Course) : (s.modCrs n f).mem = s.mem := rfl
@[simp] theorem State.modCrs_freeCtr (s : State) (n : Nat) (f : Course → Course) : (s.modCrs n f).freeCtr = s.freeCtr := rfl
@[simp] theorem State.modCrs_variant (s : State) (n : Nat) (f : Course → Course) : (s.modCrs n f).variant = s.variant := rfl
@[simp] theorem State.modCrs_cyc (s : State) (n : Nat) (f : Course → Course) : (s.modCrs n f).cyc = s.cyc := rfl
@[simp] theorem State.modCrs_bell (s : State) (n : Nat) (f : Course → Course) : (s.modCrs n f).bell = s.bell := rfl
@[simp] theorem State.modCrs_map (s : State) (n : Nat) (f : Course → Course) : (s.modCrs n f).map = s.map := rfl
@[simp] theorem State.modCrs_groups (s : State) (n : Nat) (f : Course → Course) : (s.modCrs n f).groups = s.groups := rfl
@[simp] theorem State.modCrs_tiles (s : State) (n : Nat) (f : Course → Course) : (s.modCrs n f).tiles = s.tiles := rfl
@[simp] theorem State.modCrs_cores (s : State) (n : Nat) (f : Course → Course) : (s.modCrs n f).cores = s.cores := rfl
@[simp] theorem State.modCrs_chans (s : State) (n : Nat) (f : Course → Course) : (s.modCrs n f).chans = s.chans := rfl
@[simp] theorem State.modCrs_layers (s : State) (n : Nat) (f : Course → Course) : (s.modCrs n f).layers = s.layers := rfl
@[simp] theorem State.modCrs_mesh (s : State) (n : Nat) (f : Course → Course) : (s.modCrs n f).mesh = s.mesh := rfl
@[simp] theorem State.modCrs_ports (s : State) (n : Nat) (f : Course → Course) : (s.modCrs n f).ports = s.ports := rfl
@[simp] theorem State.modCrs_remotes (s : State) (n : Nat) (f : Course → Course) : (s.modCrs n f).remotes = s.remotes := rfl
@[simp] theorem State.modCrs_svcWait (s : State) (n : Nat) (f : Course → Course) : (s.modCrs n f).svcWait = s.svcWait := rfl
@[simp] theorem State.modCrs_nextSvcTag (s : State) (n : Nat) (f : Course → Course) : (s.modCrs n f).nextSvcTag = s.nextSvcTag := rfl
@[simp] theorem State.modCrs_mxl (s : State) (n : Nat) (f : Course → Course) : (s.modCrs n f).mxl = s.mxl := rfl
@[simp] theorem State.modCrs_cmds (s : State) (n : Nat) (f : Course → Course) : (s.modCrs n f).cmds = s.cmds := rfl
@[simp] theorem State.modCrs_done (s : State) (n : Nat) (f : Course → Course) : (s.modCrs n f).done = s.done := rfl
@[simp] theorem State.modCrs_skips (s : State) (n : Nat) (f : Course → Course) : (s.modCrs n f).skips = s.skips := rfl
@[simp] theorem State.modCrs_lastRing (s : State) (n : Nat) (f : Course → Course) : (s.modCrs n f).lastRing = s.lastRing := rfl
@[simp] theorem State.modCrs_lastRun (s : State) (n : Nat) (f : Course → Course) : (s.modCrs n f).lastRun = s.lastRun := rfl
@[simp] theorem State.modCrs_fences (s : State) (n : Nat) (f : Course → Course) : (s.modCrs n f).fences = s.fences := rfl
@[simp] theorem State.modCrs_evRings (s : State) (n : Nat) (f : Course → Course) : (s.modCrs n f).evRings = s.evRings := rfl
@[simp] theorem State.modCrs_stop (s : State) (n : Nat) (f : Course → Course) : (s.modCrs n f).stop = s.stop := rfl
@[simp] theorem State.modCrs_energy (s : State) (n : Nat) (f : Course → Course) : (s.modCrs n f).energy = s.energy := rfl
@[simp] theorem State.modCrs_clock (s : State) (n : Nat) (f : Course → Course) : (s.modCrs n f).clock = s.clock := rfl
@[simp] theorem State.modCrs_power (s : State) (n : Nat) (f : Course → Course) : (s.modCrs n f).power = s.power := rfl
@[simp] theorem State.modCrs_stored (s : State) (n : Nat) (f : Course → Course) : (s.modCrs n f).stored = s.stored := rfl
@[simp] theorem State.modCrs_ariAt (s : State) (n : Nat) (f : Course → Course) : (s.modCrs n f).ariAt = s.ariAt := rfl
@[simp] theorem State.modCrs_therm (s : State) (n : Nat) (f : Course → Course) : (s.modCrs n f).therm = s.therm := rfl
@[simp] theorem State.modCrs_bring (s : State) (n : Nat) (f : Course → Course) : (s.modCrs n f).bring = s.bring := rfl
@[simp] theorem State.modCrs_sec (s : State) (n : Nat) (f : Course → Course) : (s.modCrs n f).sec = s.sec := rfl
@[simp] theorem State.modCrs_mgmt (s : State) (n : Nat) (f : Course → Course) : (s.modCrs n f).mgmt = s.mgmt := rfl
@[simp] theorem State.modCrs_out (s : State) (n : Nat) (f : Course → Course) : (s.modCrs n f).out = s.out := rfl
@[simp] theorem State.modCrs_pending (s : State) (n : Nat) (f : Course → Course) : (s.modCrs n f).pending = s.pending := rfl

@[simp] theorem State.modTile_regs (s : State) (n : Nat) (f : TileSt → TileSt) : (s.modTile n f).regs = s.regs := rfl
@[simp] theorem State.modTile_shadows (s : State) (n : Nat) (f : TileSt → TileSt) : (s.modTile n f).shadows = s.shadows := rfl
@[simp] theorem State.modTile_mem (s : State) (n : Nat) (f : TileSt → TileSt) : (s.modTile n f).mem = s.mem := rfl
@[simp] theorem State.modTile_freeCtr (s : State) (n : Nat) (f : TileSt → TileSt) : (s.modTile n f).freeCtr = s.freeCtr := rfl
@[simp] theorem State.modTile_variant (s : State) (n : Nat) (f : TileSt → TileSt) : (s.modTile n f).variant = s.variant := rfl
@[simp] theorem State.modTile_cyc (s : State) (n : Nat) (f : TileSt → TileSt) : (s.modTile n f).cyc = s.cyc := rfl
@[simp] theorem State.modTile_bell (s : State) (n : Nat) (f : TileSt → TileSt) : (s.modTile n f).bell = s.bell := rfl
@[simp] theorem State.modTile_map (s : State) (n : Nat) (f : TileSt → TileSt) : (s.modTile n f).map = s.map := rfl
@[simp] theorem State.modTile_crs (s : State) (n : Nat) (f : TileSt → TileSt) : (s.modTile n f).crs = s.crs := rfl
@[simp] theorem State.modTile_groups (s : State) (n : Nat) (f : TileSt → TileSt) : (s.modTile n f).groups = s.groups := rfl
@[simp] theorem State.modTile_cores (s : State) (n : Nat) (f : TileSt → TileSt) : (s.modTile n f).cores = s.cores := rfl
@[simp] theorem State.modTile_chans (s : State) (n : Nat) (f : TileSt → TileSt) : (s.modTile n f).chans = s.chans := rfl
@[simp] theorem State.modTile_layers (s : State) (n : Nat) (f : TileSt → TileSt) : (s.modTile n f).layers = s.layers := rfl
@[simp] theorem State.modTile_mesh (s : State) (n : Nat) (f : TileSt → TileSt) : (s.modTile n f).mesh = s.mesh := rfl
@[simp] theorem State.modTile_ports (s : State) (n : Nat) (f : TileSt → TileSt) : (s.modTile n f).ports = s.ports := rfl
@[simp] theorem State.modTile_remotes (s : State) (n : Nat) (f : TileSt → TileSt) : (s.modTile n f).remotes = s.remotes := rfl
@[simp] theorem State.modTile_svcWait (s : State) (n : Nat) (f : TileSt → TileSt) : (s.modTile n f).svcWait = s.svcWait := rfl
@[simp] theorem State.modTile_nextSvcTag (s : State) (n : Nat) (f : TileSt → TileSt) : (s.modTile n f).nextSvcTag = s.nextSvcTag := rfl
@[simp] theorem State.modTile_mxl (s : State) (n : Nat) (f : TileSt → TileSt) : (s.modTile n f).mxl = s.mxl := rfl
@[simp] theorem State.modTile_cmds (s : State) (n : Nat) (f : TileSt → TileSt) : (s.modTile n f).cmds = s.cmds := rfl
@[simp] theorem State.modTile_done (s : State) (n : Nat) (f : TileSt → TileSt) : (s.modTile n f).done = s.done := rfl
@[simp] theorem State.modTile_skips (s : State) (n : Nat) (f : TileSt → TileSt) : (s.modTile n f).skips = s.skips := rfl
@[simp] theorem State.modTile_lastRing (s : State) (n : Nat) (f : TileSt → TileSt) : (s.modTile n f).lastRing = s.lastRing := rfl
@[simp] theorem State.modTile_lastRun (s : State) (n : Nat) (f : TileSt → TileSt) : (s.modTile n f).lastRun = s.lastRun := rfl
@[simp] theorem State.modTile_fences (s : State) (n : Nat) (f : TileSt → TileSt) : (s.modTile n f).fences = s.fences := rfl
@[simp] theorem State.modTile_evRings (s : State) (n : Nat) (f : TileSt → TileSt) : (s.modTile n f).evRings = s.evRings := rfl
@[simp] theorem State.modTile_stop (s : State) (n : Nat) (f : TileSt → TileSt) : (s.modTile n f).stop = s.stop := rfl
@[simp] theorem State.modTile_energy (s : State) (n : Nat) (f : TileSt → TileSt) : (s.modTile n f).energy = s.energy := rfl
@[simp] theorem State.modTile_clock (s : State) (n : Nat) (f : TileSt → TileSt) : (s.modTile n f).clock = s.clock := rfl
@[simp] theorem State.modTile_power (s : State) (n : Nat) (f : TileSt → TileSt) : (s.modTile n f).power = s.power := rfl
@[simp] theorem State.modTile_stored (s : State) (n : Nat) (f : TileSt → TileSt) : (s.modTile n f).stored = s.stored := rfl
@[simp] theorem State.modTile_ariAt (s : State) (n : Nat) (f : TileSt → TileSt) : (s.modTile n f).ariAt = s.ariAt := rfl
@[simp] theorem State.modTile_therm (s : State) (n : Nat) (f : TileSt → TileSt) : (s.modTile n f).therm = s.therm := rfl
@[simp] theorem State.modTile_bring (s : State) (n : Nat) (f : TileSt → TileSt) : (s.modTile n f).bring = s.bring := rfl
@[simp] theorem State.modTile_sec (s : State) (n : Nat) (f : TileSt → TileSt) : (s.modTile n f).sec = s.sec := rfl
@[simp] theorem State.modTile_mgmt (s : State) (n : Nat) (f : TileSt → TileSt) : (s.modTile n f).mgmt = s.mgmt := rfl
@[simp] theorem State.modTile_out (s : State) (n : Nat) (f : TileSt → TileSt) : (s.modTile n f).out = s.out := rfl
@[simp] theorem State.modTile_pending (s : State) (n : Nat) (f : TileSt → TileSt) : (s.modTile n f).pending = s.pending := rfl

@[simp] theorem State.modCore_regs (s : State) (n : Nat) (f : CoreSt → CoreSt) : (s.modCore n f).regs = s.regs := rfl
@[simp] theorem State.modCore_shadows (s : State) (n : Nat) (f : CoreSt → CoreSt) : (s.modCore n f).shadows = s.shadows := rfl
@[simp] theorem State.modCore_mem (s : State) (n : Nat) (f : CoreSt → CoreSt) : (s.modCore n f).mem = s.mem := rfl
@[simp] theorem State.modCore_freeCtr (s : State) (n : Nat) (f : CoreSt → CoreSt) : (s.modCore n f).freeCtr = s.freeCtr := rfl
@[simp] theorem State.modCore_variant (s : State) (n : Nat) (f : CoreSt → CoreSt) : (s.modCore n f).variant = s.variant := rfl
@[simp] theorem State.modCore_cyc (s : State) (n : Nat) (f : CoreSt → CoreSt) : (s.modCore n f).cyc = s.cyc := rfl
@[simp] theorem State.modCore_bell (s : State) (n : Nat) (f : CoreSt → CoreSt) : (s.modCore n f).bell = s.bell := rfl
@[simp] theorem State.modCore_map (s : State) (n : Nat) (f : CoreSt → CoreSt) : (s.modCore n f).map = s.map := rfl
@[simp] theorem State.modCore_crs (s : State) (n : Nat) (f : CoreSt → CoreSt) : (s.modCore n f).crs = s.crs := rfl
@[simp] theorem State.modCore_groups (s : State) (n : Nat) (f : CoreSt → CoreSt) : (s.modCore n f).groups = s.groups := rfl
@[simp] theorem State.modCore_tiles (s : State) (n : Nat) (f : CoreSt → CoreSt) : (s.modCore n f).tiles = s.tiles := rfl
@[simp] theorem State.modCore_chans (s : State) (n : Nat) (f : CoreSt → CoreSt) : (s.modCore n f).chans = s.chans := rfl
@[simp] theorem State.modCore_layers (s : State) (n : Nat) (f : CoreSt → CoreSt) : (s.modCore n f).layers = s.layers := rfl
@[simp] theorem State.modCore_mesh (s : State) (n : Nat) (f : CoreSt → CoreSt) : (s.modCore n f).mesh = s.mesh := rfl
@[simp] theorem State.modCore_ports (s : State) (n : Nat) (f : CoreSt → CoreSt) : (s.modCore n f).ports = s.ports := rfl
@[simp] theorem State.modCore_remotes (s : State) (n : Nat) (f : CoreSt → CoreSt) : (s.modCore n f).remotes = s.remotes := rfl
@[simp] theorem State.modCore_svcWait (s : State) (n : Nat) (f : CoreSt → CoreSt) : (s.modCore n f).svcWait = s.svcWait := rfl
@[simp] theorem State.modCore_nextSvcTag (s : State) (n : Nat) (f : CoreSt → CoreSt) : (s.modCore n f).nextSvcTag = s.nextSvcTag := rfl
@[simp] theorem State.modCore_mxl (s : State) (n : Nat) (f : CoreSt → CoreSt) : (s.modCore n f).mxl = s.mxl := rfl
@[simp] theorem State.modCore_cmds (s : State) (n : Nat) (f : CoreSt → CoreSt) : (s.modCore n f).cmds = s.cmds := rfl
@[simp] theorem State.modCore_done (s : State) (n : Nat) (f : CoreSt → CoreSt) : (s.modCore n f).done = s.done := rfl
@[simp] theorem State.modCore_skips (s : State) (n : Nat) (f : CoreSt → CoreSt) : (s.modCore n f).skips = s.skips := rfl
@[simp] theorem State.modCore_lastRing (s : State) (n : Nat) (f : CoreSt → CoreSt) : (s.modCore n f).lastRing = s.lastRing := rfl
@[simp] theorem State.modCore_lastRun (s : State) (n : Nat) (f : CoreSt → CoreSt) : (s.modCore n f).lastRun = s.lastRun := rfl
@[simp] theorem State.modCore_fences (s : State) (n : Nat) (f : CoreSt → CoreSt) : (s.modCore n f).fences = s.fences := rfl
@[simp] theorem State.modCore_evRings (s : State) (n : Nat) (f : CoreSt → CoreSt) : (s.modCore n f).evRings = s.evRings := rfl
@[simp] theorem State.modCore_stop (s : State) (n : Nat) (f : CoreSt → CoreSt) : (s.modCore n f).stop = s.stop := rfl
@[simp] theorem State.modCore_energy (s : State) (n : Nat) (f : CoreSt → CoreSt) : (s.modCore n f).energy = s.energy := rfl
@[simp] theorem State.modCore_clock (s : State) (n : Nat) (f : CoreSt → CoreSt) : (s.modCore n f).clock = s.clock := rfl
@[simp] theorem State.modCore_power (s : State) (n : Nat) (f : CoreSt → CoreSt) : (s.modCore n f).power = s.power := rfl
@[simp] theorem State.modCore_stored (s : State) (n : Nat) (f : CoreSt → CoreSt) : (s.modCore n f).stored = s.stored := rfl
@[simp] theorem State.modCore_ariAt (s : State) (n : Nat) (f : CoreSt → CoreSt) : (s.modCore n f).ariAt = s.ariAt := rfl
@[simp] theorem State.modCore_therm (s : State) (n : Nat) (f : CoreSt → CoreSt) : (s.modCore n f).therm = s.therm := rfl
@[simp] theorem State.modCore_bring (s : State) (n : Nat) (f : CoreSt → CoreSt) : (s.modCore n f).bring = s.bring := rfl
@[simp] theorem State.modCore_sec (s : State) (n : Nat) (f : CoreSt → CoreSt) : (s.modCore n f).sec = s.sec := rfl
@[simp] theorem State.modCore_mgmt (s : State) (n : Nat) (f : CoreSt → CoreSt) : (s.modCore n f).mgmt = s.mgmt := rfl
@[simp] theorem State.modCore_out (s : State) (n : Nat) (f : CoreSt → CoreSt) : (s.modCore n f).out = s.out := rfl
@[simp] theorem State.modCore_pending (s : State) (n : Nat) (f : CoreSt → CoreSt) : (s.modCore n f).pending = s.pending := rfl

@[simp] theorem State.modChan_regs (s : State) (n : Nat) (f : ChanSt → ChanSt) : (s.modChan n f).regs = s.regs := rfl
@[simp] theorem State.modChan_shadows (s : State) (n : Nat) (f : ChanSt → ChanSt) : (s.modChan n f).shadows = s.shadows := rfl
@[simp] theorem State.modChan_mem (s : State) (n : Nat) (f : ChanSt → ChanSt) : (s.modChan n f).mem = s.mem := rfl
@[simp] theorem State.modChan_freeCtr (s : State) (n : Nat) (f : ChanSt → ChanSt) : (s.modChan n f).freeCtr = s.freeCtr := rfl
@[simp] theorem State.modChan_variant (s : State) (n : Nat) (f : ChanSt → ChanSt) : (s.modChan n f).variant = s.variant := rfl
@[simp] theorem State.modChan_cyc (s : State) (n : Nat) (f : ChanSt → ChanSt) : (s.modChan n f).cyc = s.cyc := rfl
@[simp] theorem State.modChan_bell (s : State) (n : Nat) (f : ChanSt → ChanSt) : (s.modChan n f).bell = s.bell := rfl
@[simp] theorem State.modChan_map (s : State) (n : Nat) (f : ChanSt → ChanSt) : (s.modChan n f).map = s.map := rfl
@[simp] theorem State.modChan_crs (s : State) (n : Nat) (f : ChanSt → ChanSt) : (s.modChan n f).crs = s.crs := rfl
@[simp] theorem State.modChan_groups (s : State) (n : Nat) (f : ChanSt → ChanSt) : (s.modChan n f).groups = s.groups := rfl
@[simp] theorem State.modChan_tiles (s : State) (n : Nat) (f : ChanSt → ChanSt) : (s.modChan n f).tiles = s.tiles := rfl
@[simp] theorem State.modChan_cores (s : State) (n : Nat) (f : ChanSt → ChanSt) : (s.modChan n f).cores = s.cores := rfl
@[simp] theorem State.modChan_layers (s : State) (n : Nat) (f : ChanSt → ChanSt) : (s.modChan n f).layers = s.layers := rfl
@[simp] theorem State.modChan_mesh (s : State) (n : Nat) (f : ChanSt → ChanSt) : (s.modChan n f).mesh = s.mesh := rfl
@[simp] theorem State.modChan_ports (s : State) (n : Nat) (f : ChanSt → ChanSt) : (s.modChan n f).ports = s.ports := rfl
@[simp] theorem State.modChan_remotes (s : State) (n : Nat) (f : ChanSt → ChanSt) : (s.modChan n f).remotes = s.remotes := rfl
@[simp] theorem State.modChan_svcWait (s : State) (n : Nat) (f : ChanSt → ChanSt) : (s.modChan n f).svcWait = s.svcWait := rfl
@[simp] theorem State.modChan_nextSvcTag (s : State) (n : Nat) (f : ChanSt → ChanSt) : (s.modChan n f).nextSvcTag = s.nextSvcTag := rfl
@[simp] theorem State.modChan_mxl (s : State) (n : Nat) (f : ChanSt → ChanSt) : (s.modChan n f).mxl = s.mxl := rfl
@[simp] theorem State.modChan_cmds (s : State) (n : Nat) (f : ChanSt → ChanSt) : (s.modChan n f).cmds = s.cmds := rfl
@[simp] theorem State.modChan_done (s : State) (n : Nat) (f : ChanSt → ChanSt) : (s.modChan n f).done = s.done := rfl
@[simp] theorem State.modChan_skips (s : State) (n : Nat) (f : ChanSt → ChanSt) : (s.modChan n f).skips = s.skips := rfl
@[simp] theorem State.modChan_lastRing (s : State) (n : Nat) (f : ChanSt → ChanSt) : (s.modChan n f).lastRing = s.lastRing := rfl
@[simp] theorem State.modChan_lastRun (s : State) (n : Nat) (f : ChanSt → ChanSt) : (s.modChan n f).lastRun = s.lastRun := rfl
@[simp] theorem State.modChan_fences (s : State) (n : Nat) (f : ChanSt → ChanSt) : (s.modChan n f).fences = s.fences := rfl
@[simp] theorem State.modChan_evRings (s : State) (n : Nat) (f : ChanSt → ChanSt) : (s.modChan n f).evRings = s.evRings := rfl
@[simp] theorem State.modChan_stop (s : State) (n : Nat) (f : ChanSt → ChanSt) : (s.modChan n f).stop = s.stop := rfl
@[simp] theorem State.modChan_energy (s : State) (n : Nat) (f : ChanSt → ChanSt) : (s.modChan n f).energy = s.energy := rfl
@[simp] theorem State.modChan_clock (s : State) (n : Nat) (f : ChanSt → ChanSt) : (s.modChan n f).clock = s.clock := rfl
@[simp] theorem State.modChan_power (s : State) (n : Nat) (f : ChanSt → ChanSt) : (s.modChan n f).power = s.power := rfl
@[simp] theorem State.modChan_stored (s : State) (n : Nat) (f : ChanSt → ChanSt) : (s.modChan n f).stored = s.stored := rfl
@[simp] theorem State.modChan_ariAt (s : State) (n : Nat) (f : ChanSt → ChanSt) : (s.modChan n f).ariAt = s.ariAt := rfl
@[simp] theorem State.modChan_therm (s : State) (n : Nat) (f : ChanSt → ChanSt) : (s.modChan n f).therm = s.therm := rfl
@[simp] theorem State.modChan_bring (s : State) (n : Nat) (f : ChanSt → ChanSt) : (s.modChan n f).bring = s.bring := rfl
@[simp] theorem State.modChan_sec (s : State) (n : Nat) (f : ChanSt → ChanSt) : (s.modChan n f).sec = s.sec := rfl
@[simp] theorem State.modChan_mgmt (s : State) (n : Nat) (f : ChanSt → ChanSt) : (s.modChan n f).mgmt = s.mgmt := rfl
@[simp] theorem State.modChan_out (s : State) (n : Nat) (f : ChanSt → ChanSt) : (s.modChan n f).out = s.out := rfl
@[simp] theorem State.modChan_pending (s : State) (n : Nat) (f : ChanSt → ChanSt) : (s.modChan n f).pending = s.pending := rfl

@[simp] theorem State.modLayer_regs (s : State) (n : Nat) (f : LayerSt → LayerSt) : (s.modLayer n f).regs = s.regs := rfl
@[simp] theorem State.modLayer_shadows (s : State) (n : Nat) (f : LayerSt → LayerSt) : (s.modLayer n f).shadows = s.shadows := rfl
@[simp] theorem State.modLayer_mem (s : State) (n : Nat) (f : LayerSt → LayerSt) : (s.modLayer n f).mem = s.mem := rfl
@[simp] theorem State.modLayer_freeCtr (s : State) (n : Nat) (f : LayerSt → LayerSt) : (s.modLayer n f).freeCtr = s.freeCtr := rfl
@[simp] theorem State.modLayer_variant (s : State) (n : Nat) (f : LayerSt → LayerSt) : (s.modLayer n f).variant = s.variant := rfl
@[simp] theorem State.modLayer_cyc (s : State) (n : Nat) (f : LayerSt → LayerSt) : (s.modLayer n f).cyc = s.cyc := rfl
@[simp] theorem State.modLayer_bell (s : State) (n : Nat) (f : LayerSt → LayerSt) : (s.modLayer n f).bell = s.bell := rfl
@[simp] theorem State.modLayer_map (s : State) (n : Nat) (f : LayerSt → LayerSt) : (s.modLayer n f).map = s.map := rfl
@[simp] theorem State.modLayer_crs (s : State) (n : Nat) (f : LayerSt → LayerSt) : (s.modLayer n f).crs = s.crs := rfl
@[simp] theorem State.modLayer_groups (s : State) (n : Nat) (f : LayerSt → LayerSt) : (s.modLayer n f).groups = s.groups := rfl
@[simp] theorem State.modLayer_tiles (s : State) (n : Nat) (f : LayerSt → LayerSt) : (s.modLayer n f).tiles = s.tiles := rfl
@[simp] theorem State.modLayer_cores (s : State) (n : Nat) (f : LayerSt → LayerSt) : (s.modLayer n f).cores = s.cores := rfl
@[simp] theorem State.modLayer_chans (s : State) (n : Nat) (f : LayerSt → LayerSt) : (s.modLayer n f).chans = s.chans := rfl
@[simp] theorem State.modLayer_mesh (s : State) (n : Nat) (f : LayerSt → LayerSt) : (s.modLayer n f).mesh = s.mesh := rfl
@[simp] theorem State.modLayer_ports (s : State) (n : Nat) (f : LayerSt → LayerSt) : (s.modLayer n f).ports = s.ports := rfl
@[simp] theorem State.modLayer_remotes (s : State) (n : Nat) (f : LayerSt → LayerSt) : (s.modLayer n f).remotes = s.remotes := rfl
@[simp] theorem State.modLayer_svcWait (s : State) (n : Nat) (f : LayerSt → LayerSt) : (s.modLayer n f).svcWait = s.svcWait := rfl
@[simp] theorem State.modLayer_nextSvcTag (s : State) (n : Nat) (f : LayerSt → LayerSt) : (s.modLayer n f).nextSvcTag = s.nextSvcTag := rfl
@[simp] theorem State.modLayer_mxl (s : State) (n : Nat) (f : LayerSt → LayerSt) : (s.modLayer n f).mxl = s.mxl := rfl
@[simp] theorem State.modLayer_cmds (s : State) (n : Nat) (f : LayerSt → LayerSt) : (s.modLayer n f).cmds = s.cmds := rfl
@[simp] theorem State.modLayer_done (s : State) (n : Nat) (f : LayerSt → LayerSt) : (s.modLayer n f).done = s.done := rfl
@[simp] theorem State.modLayer_skips (s : State) (n : Nat) (f : LayerSt → LayerSt) : (s.modLayer n f).skips = s.skips := rfl
@[simp] theorem State.modLayer_lastRing (s : State) (n : Nat) (f : LayerSt → LayerSt) : (s.modLayer n f).lastRing = s.lastRing := rfl
@[simp] theorem State.modLayer_lastRun (s : State) (n : Nat) (f : LayerSt → LayerSt) : (s.modLayer n f).lastRun = s.lastRun := rfl
@[simp] theorem State.modLayer_fences (s : State) (n : Nat) (f : LayerSt → LayerSt) : (s.modLayer n f).fences = s.fences := rfl
@[simp] theorem State.modLayer_evRings (s : State) (n : Nat) (f : LayerSt → LayerSt) : (s.modLayer n f).evRings = s.evRings := rfl
@[simp] theorem State.modLayer_stop (s : State) (n : Nat) (f : LayerSt → LayerSt) : (s.modLayer n f).stop = s.stop := rfl
@[simp] theorem State.modLayer_energy (s : State) (n : Nat) (f : LayerSt → LayerSt) : (s.modLayer n f).energy = s.energy := rfl
@[simp] theorem State.modLayer_clock (s : State) (n : Nat) (f : LayerSt → LayerSt) : (s.modLayer n f).clock = s.clock := rfl
@[simp] theorem State.modLayer_power (s : State) (n : Nat) (f : LayerSt → LayerSt) : (s.modLayer n f).power = s.power := rfl
@[simp] theorem State.modLayer_stored (s : State) (n : Nat) (f : LayerSt → LayerSt) : (s.modLayer n f).stored = s.stored := rfl
@[simp] theorem State.modLayer_ariAt (s : State) (n : Nat) (f : LayerSt → LayerSt) : (s.modLayer n f).ariAt = s.ariAt := rfl
@[simp] theorem State.modLayer_therm (s : State) (n : Nat) (f : LayerSt → LayerSt) : (s.modLayer n f).therm = s.therm := rfl
@[simp] theorem State.modLayer_bring (s : State) (n : Nat) (f : LayerSt → LayerSt) : (s.modLayer n f).bring = s.bring := rfl
@[simp] theorem State.modLayer_sec (s : State) (n : Nat) (f : LayerSt → LayerSt) : (s.modLayer n f).sec = s.sec := rfl
@[simp] theorem State.modLayer_mgmt (s : State) (n : Nat) (f : LayerSt → LayerSt) : (s.modLayer n f).mgmt = s.mgmt := rfl
@[simp] theorem State.modLayer_out (s : State) (n : Nat) (f : LayerSt → LayerSt) : (s.modLayer n f).out = s.out := rfl
@[simp] theorem State.modLayer_pending (s : State) (n : Nat) (f : LayerSt → LayerSt) : (s.modLayer n f).pending = s.pending := rfl

@[simp] theorem State.modGroup_regs (s : State) (n : Nat) (f : GroupSt → GroupSt) : (s.modGroup n f).regs = s.regs := rfl
@[simp] theorem State.modGroup_shadows (s : State) (n : Nat) (f : GroupSt → GroupSt) : (s.modGroup n f).shadows = s.shadows := rfl
@[simp] theorem State.modGroup_mem (s : State) (n : Nat) (f : GroupSt → GroupSt) : (s.modGroup n f).mem = s.mem := rfl
@[simp] theorem State.modGroup_freeCtr (s : State) (n : Nat) (f : GroupSt → GroupSt) : (s.modGroup n f).freeCtr = s.freeCtr := rfl
@[simp] theorem State.modGroup_variant (s : State) (n : Nat) (f : GroupSt → GroupSt) : (s.modGroup n f).variant = s.variant := rfl
@[simp] theorem State.modGroup_cyc (s : State) (n : Nat) (f : GroupSt → GroupSt) : (s.modGroup n f).cyc = s.cyc := rfl
@[simp] theorem State.modGroup_bell (s : State) (n : Nat) (f : GroupSt → GroupSt) : (s.modGroup n f).bell = s.bell := rfl
@[simp] theorem State.modGroup_map (s : State) (n : Nat) (f : GroupSt → GroupSt) : (s.modGroup n f).map = s.map := rfl
@[simp] theorem State.modGroup_crs (s : State) (n : Nat) (f : GroupSt → GroupSt) : (s.modGroup n f).crs = s.crs := rfl
@[simp] theorem State.modGroup_tiles (s : State) (n : Nat) (f : GroupSt → GroupSt) : (s.modGroup n f).tiles = s.tiles := rfl
@[simp] theorem State.modGroup_cores (s : State) (n : Nat) (f : GroupSt → GroupSt) : (s.modGroup n f).cores = s.cores := rfl
@[simp] theorem State.modGroup_chans (s : State) (n : Nat) (f : GroupSt → GroupSt) : (s.modGroup n f).chans = s.chans := rfl
@[simp] theorem State.modGroup_layers (s : State) (n : Nat) (f : GroupSt → GroupSt) : (s.modGroup n f).layers = s.layers := rfl
@[simp] theorem State.modGroup_mesh (s : State) (n : Nat) (f : GroupSt → GroupSt) : (s.modGroup n f).mesh = s.mesh := rfl
@[simp] theorem State.modGroup_ports (s : State) (n : Nat) (f : GroupSt → GroupSt) : (s.modGroup n f).ports = s.ports := rfl
@[simp] theorem State.modGroup_remotes (s : State) (n : Nat) (f : GroupSt → GroupSt) : (s.modGroup n f).remotes = s.remotes := rfl
@[simp] theorem State.modGroup_svcWait (s : State) (n : Nat) (f : GroupSt → GroupSt) : (s.modGroup n f).svcWait = s.svcWait := rfl
@[simp] theorem State.modGroup_nextSvcTag (s : State) (n : Nat) (f : GroupSt → GroupSt) : (s.modGroup n f).nextSvcTag = s.nextSvcTag := rfl
@[simp] theorem State.modGroup_mxl (s : State) (n : Nat) (f : GroupSt → GroupSt) : (s.modGroup n f).mxl = s.mxl := rfl
@[simp] theorem State.modGroup_cmds (s : State) (n : Nat) (f : GroupSt → GroupSt) : (s.modGroup n f).cmds = s.cmds := rfl
@[simp] theorem State.modGroup_done (s : State) (n : Nat) (f : GroupSt → GroupSt) : (s.modGroup n f).done = s.done := rfl
@[simp] theorem State.modGroup_skips (s : State) (n : Nat) (f : GroupSt → GroupSt) : (s.modGroup n f).skips = s.skips := rfl
@[simp] theorem State.modGroup_lastRing (s : State) (n : Nat) (f : GroupSt → GroupSt) : (s.modGroup n f).lastRing = s.lastRing := rfl
@[simp] theorem State.modGroup_lastRun (s : State) (n : Nat) (f : GroupSt → GroupSt) : (s.modGroup n f).lastRun = s.lastRun := rfl
@[simp] theorem State.modGroup_fences (s : State) (n : Nat) (f : GroupSt → GroupSt) : (s.modGroup n f).fences = s.fences := rfl
@[simp] theorem State.modGroup_evRings (s : State) (n : Nat) (f : GroupSt → GroupSt) : (s.modGroup n f).evRings = s.evRings := rfl
@[simp] theorem State.modGroup_stop (s : State) (n : Nat) (f : GroupSt → GroupSt) : (s.modGroup n f).stop = s.stop := rfl
@[simp] theorem State.modGroup_energy (s : State) (n : Nat) (f : GroupSt → GroupSt) : (s.modGroup n f).energy = s.energy := rfl
@[simp] theorem State.modGroup_clock (s : State) (n : Nat) (f : GroupSt → GroupSt) : (s.modGroup n f).clock = s.clock := rfl
@[simp] theorem State.modGroup_power (s : State) (n : Nat) (f : GroupSt → GroupSt) : (s.modGroup n f).power = s.power := rfl
@[simp] theorem State.modGroup_stored (s : State) (n : Nat) (f : GroupSt → GroupSt) : (s.modGroup n f).stored = s.stored := rfl
@[simp] theorem State.modGroup_ariAt (s : State) (n : Nat) (f : GroupSt → GroupSt) : (s.modGroup n f).ariAt = s.ariAt := rfl
@[simp] theorem State.modGroup_therm (s : State) (n : Nat) (f : GroupSt → GroupSt) : (s.modGroup n f).therm = s.therm := rfl
@[simp] theorem State.modGroup_bring (s : State) (n : Nat) (f : GroupSt → GroupSt) : (s.modGroup n f).bring = s.bring := rfl
@[simp] theorem State.modGroup_sec (s : State) (n : Nat) (f : GroupSt → GroupSt) : (s.modGroup n f).sec = s.sec := rfl
@[simp] theorem State.modGroup_mgmt (s : State) (n : Nat) (f : GroupSt → GroupSt) : (s.modGroup n f).mgmt = s.mgmt := rfl
@[simp] theorem State.modGroup_out (s : State) (n : Nat) (f : GroupSt → GroupSt) : (s.modGroup n f).out = s.out := rfl
@[simp] theorem State.modGroup_pending (s : State) (n : Nat) (f : GroupSt → GroupSt) : (s.modGroup n f).pending = s.pending := rfl

@[simp] theorem State.modPort_regs (s : State) (n : Nat) (f : PortSt → PortSt) : (s.modPort n f).regs = s.regs := rfl
@[simp] theorem State.modPort_shadows (s : State) (n : Nat) (f : PortSt → PortSt) : (s.modPort n f).shadows = s.shadows := rfl
@[simp] theorem State.modPort_mem (s : State) (n : Nat) (f : PortSt → PortSt) : (s.modPort n f).mem = s.mem := rfl
@[simp] theorem State.modPort_freeCtr (s : State) (n : Nat) (f : PortSt → PortSt) : (s.modPort n f).freeCtr = s.freeCtr := rfl
@[simp] theorem State.modPort_variant (s : State) (n : Nat) (f : PortSt → PortSt) : (s.modPort n f).variant = s.variant := rfl
@[simp] theorem State.modPort_cyc (s : State) (n : Nat) (f : PortSt → PortSt) : (s.modPort n f).cyc = s.cyc := rfl
@[simp] theorem State.modPort_bell (s : State) (n : Nat) (f : PortSt → PortSt) : (s.modPort n f).bell = s.bell := rfl
@[simp] theorem State.modPort_map (s : State) (n : Nat) (f : PortSt → PortSt) : (s.modPort n f).map = s.map := rfl
@[simp] theorem State.modPort_crs (s : State) (n : Nat) (f : PortSt → PortSt) : (s.modPort n f).crs = s.crs := rfl
@[simp] theorem State.modPort_groups (s : State) (n : Nat) (f : PortSt → PortSt) : (s.modPort n f).groups = s.groups := rfl
@[simp] theorem State.modPort_tiles (s : State) (n : Nat) (f : PortSt → PortSt) : (s.modPort n f).tiles = s.tiles := rfl
@[simp] theorem State.modPort_cores (s : State) (n : Nat) (f : PortSt → PortSt) : (s.modPort n f).cores = s.cores := rfl
@[simp] theorem State.modPort_chans (s : State) (n : Nat) (f : PortSt → PortSt) : (s.modPort n f).chans = s.chans := rfl
@[simp] theorem State.modPort_layers (s : State) (n : Nat) (f : PortSt → PortSt) : (s.modPort n f).layers = s.layers := rfl
@[simp] theorem State.modPort_mesh (s : State) (n : Nat) (f : PortSt → PortSt) : (s.modPort n f).mesh = s.mesh := rfl
@[simp] theorem State.modPort_remotes (s : State) (n : Nat) (f : PortSt → PortSt) : (s.modPort n f).remotes = s.remotes := rfl
@[simp] theorem State.modPort_svcWait (s : State) (n : Nat) (f : PortSt → PortSt) : (s.modPort n f).svcWait = s.svcWait := rfl
@[simp] theorem State.modPort_nextSvcTag (s : State) (n : Nat) (f : PortSt → PortSt) : (s.modPort n f).nextSvcTag = s.nextSvcTag := rfl
@[simp] theorem State.modPort_mxl (s : State) (n : Nat) (f : PortSt → PortSt) : (s.modPort n f).mxl = s.mxl := rfl
@[simp] theorem State.modPort_cmds (s : State) (n : Nat) (f : PortSt → PortSt) : (s.modPort n f).cmds = s.cmds := rfl
@[simp] theorem State.modPort_done (s : State) (n : Nat) (f : PortSt → PortSt) : (s.modPort n f).done = s.done := rfl
@[simp] theorem State.modPort_skips (s : State) (n : Nat) (f : PortSt → PortSt) : (s.modPort n f).skips = s.skips := rfl
@[simp] theorem State.modPort_lastRing (s : State) (n : Nat) (f : PortSt → PortSt) : (s.modPort n f).lastRing = s.lastRing := rfl
@[simp] theorem State.modPort_lastRun (s : State) (n : Nat) (f : PortSt → PortSt) : (s.modPort n f).lastRun = s.lastRun := rfl
@[simp] theorem State.modPort_fences (s : State) (n : Nat) (f : PortSt → PortSt) : (s.modPort n f).fences = s.fences := rfl
@[simp] theorem State.modPort_evRings (s : State) (n : Nat) (f : PortSt → PortSt) : (s.modPort n f).evRings = s.evRings := rfl
@[simp] theorem State.modPort_stop (s : State) (n : Nat) (f : PortSt → PortSt) : (s.modPort n f).stop = s.stop := rfl
@[simp] theorem State.modPort_energy (s : State) (n : Nat) (f : PortSt → PortSt) : (s.modPort n f).energy = s.energy := rfl
@[simp] theorem State.modPort_clock (s : State) (n : Nat) (f : PortSt → PortSt) : (s.modPort n f).clock = s.clock := rfl
@[simp] theorem State.modPort_power (s : State) (n : Nat) (f : PortSt → PortSt) : (s.modPort n f).power = s.power := rfl
@[simp] theorem State.modPort_stored (s : State) (n : Nat) (f : PortSt → PortSt) : (s.modPort n f).stored = s.stored := rfl
@[simp] theorem State.modPort_ariAt (s : State) (n : Nat) (f : PortSt → PortSt) : (s.modPort n f).ariAt = s.ariAt := rfl
@[simp] theorem State.modPort_therm (s : State) (n : Nat) (f : PortSt → PortSt) : (s.modPort n f).therm = s.therm := rfl
@[simp] theorem State.modPort_bring (s : State) (n : Nat) (f : PortSt → PortSt) : (s.modPort n f).bring = s.bring := rfl
@[simp] theorem State.modPort_sec (s : State) (n : Nat) (f : PortSt → PortSt) : (s.modPort n f).sec = s.sec := rfl
@[simp] theorem State.modPort_mgmt (s : State) (n : Nat) (f : PortSt → PortSt) : (s.modPort n f).mgmt = s.mgmt := rfl
@[simp] theorem State.modPort_out (s : State) (n : Nat) (f : PortSt → PortSt) : (s.modPort n f).out = s.out := rfl
@[simp] theorem State.modPort_pending (s : State) (n : Nat) (f : PortSt → PortSt) : (s.modPort n f).pending = s.pending := rfl

@[simp] theorem State.modEvRing_regs (s : State) (n : Nat) (f : EvRing → EvRing) : (s.modEvRing n f).regs = s.regs := rfl
@[simp] theorem State.modEvRing_shadows (s : State) (n : Nat) (f : EvRing → EvRing) : (s.modEvRing n f).shadows = s.shadows := rfl
@[simp] theorem State.modEvRing_mem (s : State) (n : Nat) (f : EvRing → EvRing) : (s.modEvRing n f).mem = s.mem := rfl
@[simp] theorem State.modEvRing_freeCtr (s : State) (n : Nat) (f : EvRing → EvRing) : (s.modEvRing n f).freeCtr = s.freeCtr := rfl
@[simp] theorem State.modEvRing_variant (s : State) (n : Nat) (f : EvRing → EvRing) : (s.modEvRing n f).variant = s.variant := rfl
@[simp] theorem State.modEvRing_cyc (s : State) (n : Nat) (f : EvRing → EvRing) : (s.modEvRing n f).cyc = s.cyc := rfl
@[simp] theorem State.modEvRing_bell (s : State) (n : Nat) (f : EvRing → EvRing) : (s.modEvRing n f).bell = s.bell := rfl
@[simp] theorem State.modEvRing_map (s : State) (n : Nat) (f : EvRing → EvRing) : (s.modEvRing n f).map = s.map := rfl
@[simp] theorem State.modEvRing_crs (s : State) (n : Nat) (f : EvRing → EvRing) : (s.modEvRing n f).crs = s.crs := rfl
@[simp] theorem State.modEvRing_groups (s : State) (n : Nat) (f : EvRing → EvRing) : (s.modEvRing n f).groups = s.groups := rfl
@[simp] theorem State.modEvRing_tiles (s : State) (n : Nat) (f : EvRing → EvRing) : (s.modEvRing n f).tiles = s.tiles := rfl
@[simp] theorem State.modEvRing_cores (s : State) (n : Nat) (f : EvRing → EvRing) : (s.modEvRing n f).cores = s.cores := rfl
@[simp] theorem State.modEvRing_chans (s : State) (n : Nat) (f : EvRing → EvRing) : (s.modEvRing n f).chans = s.chans := rfl
@[simp] theorem State.modEvRing_layers (s : State) (n : Nat) (f : EvRing → EvRing) : (s.modEvRing n f).layers = s.layers := rfl
@[simp] theorem State.modEvRing_mesh (s : State) (n : Nat) (f : EvRing → EvRing) : (s.modEvRing n f).mesh = s.mesh := rfl
@[simp] theorem State.modEvRing_ports (s : State) (n : Nat) (f : EvRing → EvRing) : (s.modEvRing n f).ports = s.ports := rfl
@[simp] theorem State.modEvRing_remotes (s : State) (n : Nat) (f : EvRing → EvRing) : (s.modEvRing n f).remotes = s.remotes := rfl
@[simp] theorem State.modEvRing_svcWait (s : State) (n : Nat) (f : EvRing → EvRing) : (s.modEvRing n f).svcWait = s.svcWait := rfl
@[simp] theorem State.modEvRing_nextSvcTag (s : State) (n : Nat) (f : EvRing → EvRing) : (s.modEvRing n f).nextSvcTag = s.nextSvcTag := rfl
@[simp] theorem State.modEvRing_mxl (s : State) (n : Nat) (f : EvRing → EvRing) : (s.modEvRing n f).mxl = s.mxl := rfl
@[simp] theorem State.modEvRing_cmds (s : State) (n : Nat) (f : EvRing → EvRing) : (s.modEvRing n f).cmds = s.cmds := rfl
@[simp] theorem State.modEvRing_done (s : State) (n : Nat) (f : EvRing → EvRing) : (s.modEvRing n f).done = s.done := rfl
@[simp] theorem State.modEvRing_skips (s : State) (n : Nat) (f : EvRing → EvRing) : (s.modEvRing n f).skips = s.skips := rfl
@[simp] theorem State.modEvRing_lastRing (s : State) (n : Nat) (f : EvRing → EvRing) : (s.modEvRing n f).lastRing = s.lastRing := rfl
@[simp] theorem State.modEvRing_lastRun (s : State) (n : Nat) (f : EvRing → EvRing) : (s.modEvRing n f).lastRun = s.lastRun := rfl
@[simp] theorem State.modEvRing_fences (s : State) (n : Nat) (f : EvRing → EvRing) : (s.modEvRing n f).fences = s.fences := rfl
@[simp] theorem State.modEvRing_stop (s : State) (n : Nat) (f : EvRing → EvRing) : (s.modEvRing n f).stop = s.stop := rfl
@[simp] theorem State.modEvRing_energy (s : State) (n : Nat) (f : EvRing → EvRing) : (s.modEvRing n f).energy = s.energy := rfl
@[simp] theorem State.modEvRing_clock (s : State) (n : Nat) (f : EvRing → EvRing) : (s.modEvRing n f).clock = s.clock := rfl
@[simp] theorem State.modEvRing_power (s : State) (n : Nat) (f : EvRing → EvRing) : (s.modEvRing n f).power = s.power := rfl
@[simp] theorem State.modEvRing_stored (s : State) (n : Nat) (f : EvRing → EvRing) : (s.modEvRing n f).stored = s.stored := rfl
@[simp] theorem State.modEvRing_ariAt (s : State) (n : Nat) (f : EvRing → EvRing) : (s.modEvRing n f).ariAt = s.ariAt := rfl
@[simp] theorem State.modEvRing_therm (s : State) (n : Nat) (f : EvRing → EvRing) : (s.modEvRing n f).therm = s.therm := rfl
@[simp] theorem State.modEvRing_bring (s : State) (n : Nat) (f : EvRing → EvRing) : (s.modEvRing n f).bring = s.bring := rfl
@[simp] theorem State.modEvRing_sec (s : State) (n : Nat) (f : EvRing → EvRing) : (s.modEvRing n f).sec = s.sec := rfl
@[simp] theorem State.modEvRing_mgmt (s : State) (n : Nat) (f : EvRing → EvRing) : (s.modEvRing n f).mgmt = s.mgmt := rfl
@[simp] theorem State.modEvRing_out (s : State) (n : Nat) (f : EvRing → EvRing) : (s.modEvRing n f).out = s.out := rfl
@[simp] theorem State.modEvRing_pending (s : State) (n : Nat) (f : EvRing → EvRing) : (s.modEvRing n f).pending = s.pending := rfl

/-! Registers. -/

@[simp] theorem reg_setReg (s : State) (a : Nat) (w : Word) (b : Nat) : (s.setReg a w).reg b = if b = a then w else s.reg b := by
  show tgetD (tset s.regs a w (regReset a)) b (regReset b) = _
  by_cases h : b = a
  · subst h; rw [tgetD_tset, if_pos rfl]; simp
  · rw [if_neg h]
    show (tfind (tset s.regs a w (regReset a)) b).getD _ = (tfind s.regs b).getD _
    unfold tset
    split
    · rw [tfind_tdel, if_neg h]
    · rw [tfind_tput, if_neg h]

theorem reg_congr {s t : State} (h : t.regs = s.regs) (a : Nat) : t.reg a = s.reg a := by
  show tgetD t.regs a _ = tgetD s.regs a _
  rw [h]

theorem fldPut_bit (w : Word) (f : Fld) (n i : Nat) (h : f.lo + f.len ≤ 32) :
    (fldPut w f n).toNat.testBit i =
      if f.lo ≤ i ∧ i < f.lo + f.len then (n.testBit (i - f.lo)) else w.toNat.testBit i := by
  obtain ⟨lo, len⟩ := f
  simp only [fldPut, fldMask, BitVec.testBit_toNat, BitVec.getLsbD_or, BitVec.getLsbD_and,
    BitVec.getLsbD_not, BitVec.getLsbD_ofNat, Nat.testBit_mul_two_pow, Nat.testBit_two_pow_sub_one, Nat.testBit_mod_two_pow]
  by_cases h32 : i < 32
  · by_cases h1 : lo ≤ i
    · by_cases h2 : i < lo + len
      · have h3 : i - lo < len := by omega
        simp [h32, h1, h2, h3]
      · have h3 : ¬ i - lo < len := by omega
        simp [h32, h1, h2, h3]
    · simp [h32, h1]
  · have h2 : ¬ (lo ≤ i ∧ i < lo + len) := by dsimp only at h; omega
    have h3 : w.getLsbD i = false := BitVec.getLsbD_of_ge w i (by omega)
    simp [h32, h2, h3]

theorem fldGet_bit (w : Word) (f : Fld) (i : Nat) :
    (fldGet w f).testBit i = (decide (i < f.len) && w.toNat.testBit (f.lo + i)) := by
  simp only [fldGet, Nat.testBit_mod_two_pow, Nat.testBit_div_two_pow, Nat.add_comm]

/-- A field read back from a register in which it has just been loaded. -/
theorem fldGet_fldPut (w : Word) (f : Fld) (n : Nat) (h : f.lo + f.len ≤ 32) : fldGet (fldPut w f n) f = n % 2 ^ f.len := by
  apply Nat.eq_of_testBit_eq
  intro i
  rw [fldGet_bit, fldPut_bit w f n _ h, Nat.testBit_mod_two_pow]
  by_cases h1 : i < f.len
  · simp [h1]
  · simp [h1]

/-- A field beside the one that has been loaded. -/
theorem fldGet_fldPut_other (w : Word) (f g : Fld) (n : Nat) (h : f.lo + f.len ≤ 32)
    (hd : f.lo + f.len ≤ g.lo ∨ g.lo + g.len ≤ f.lo) : fldGet (fldPut w f n) g = fldGet w g := by
  apply Nat.eq_of_testBit_eq
  intro i
  rw [fldGet_bit, fldGet_bit, fldPut_bit w f n _ h]
  by_cases h1 : i < g.len
  · have : ¬ (f.lo ≤ g.lo + i ∧ g.lo + i < f.lo + f.len) := by omega
    simp [this]
  · simp [h1]

theorem reg_setF (s : State) (a : Nat) (f : Fld) (n b : Nat) :
    (s.setF a f n).reg b = if b = a then fldPut (s.reg a) f n else s.reg b := reg_setReg s a _ b

@[simp] theorem getF_setF (s : State) (a : Nat) (f : Fld) (n : Nat) (h : f.lo + f.len ≤ 32) :
    (s.setF a f n).getF a f = n % 2 ^ f.len := by
  unfold State.getF
  rw [reg_setF, if_pos rfl, fldGet_fldPut _ _ _ h]

theorem getF_setF_other (s : State) (a b : Nat) (f g : Fld) (n : Nat) (h : f.lo + f.len ≤ 32)
    (hd : b ≠ a ∨ f.lo + f.len ≤ g.lo ∨ g.lo + g.len ≤ f.lo) : (s.setF a f n).getF b g = s.getF b g := by
  unfold State.getF
  rw [reg_setF]
  by_cases hb : b = a
  · subst hb
    rw [if_pos rfl, fldGet_fldPut_other _ _ _ _ h (hd.resolve_left (fun h => h rfl))]
  · rw [if_neg hb]

@[simp] theorem getF_setReg_other (s : State) (a b : Nat) (w : Word) (g : Fld) (h : b ≠ a) : (s.setReg a w).getF b g = s.getF b g := by
  unfold State.getF
  rw [reg_setReg, if_neg h]

end Sys2Proof.Machine
end

