-- ==== Sys2Proof/Laws/Reports.lean ====
section
/-! SUPPORT. What raising an event and completing a command leave unchanged. -/

namespace Sys2Proof.Machine

theorem Reports.refl (s : State) : Reports s s := ⟨rfl, fun _ _ => rfl⟩

theorem Reports.trans {s t u : State} (h : Reports s t) (h' : Reports t u) : Reports s u := by
  refine ⟨?_, fun a ha => (h'.2 a ha).trans (h.2 a ha)⟩
  obtain ⟨e, -⟩ := h
  obtain ⟨e', -⟩ := h'
  rw [e', e]

theorem reports_setReg {s t : State} {a : Nat} {w : Word} (ha : eventReg a = true) (h : Reports s t) : Reports s (t.setReg a w) :=
  h.trans ⟨rfl, fun b hb => by
    rw [reg_setReg, if_neg]
    intro e; rw [e, ha] at hb; cases hb⟩

theorem reports_forEach {α : Type} {s t : State} {l : List α} {f : State → α → State}
    (hf : ∀ u x, Reports s u → Reports s (f u x)) (h : Reports s t) : Reports s (forEach l t f) := foldl_keeps l hf h

theorem reports_mem {s t : State} {f : MxlSt} {o : List Out} {v : Tbl EvRing} {m : MgmtSt} {n : Nat} (h : Reports s t) :
    Reports s { t with mxl := f, out := o, evRings := v, mgmt := m, freeCtr := n } := h.trans ⟨rfl, fun _ _ => rfl⟩

theorem reports_putFlit {s t : State} (f : Flit) (h : Reports s t) : Reports s (t.putFlit f) := h.trans ⟨rfl, fun _ _ => rfl⟩

theorem reports_emitFlit {s t : State} (f : Flit) (h : Reports s t) : Reports s (t.emitFlit f) := by
  unfold State.emitFlit
  split
  · exact h.trans ⟨rfl, fun _ _ => rfl⟩
  · exact reports_putFlit f h

theorem reports_sendNext {s t : State} (x : TxFlit) (h : Reports s t) : Reports s (t.sendNext x) := by
  unfold State.sendNext
  dsimp only
  split
  · exact reports_emitFlit _ (reports_emitFlit _ (h.trans ⟨rfl, fun _ _ => rfl⟩))
  · exact reports_emitFlit _ (h.trans ⟨rfl, fun _ _ => rfl⟩)

theorem reports_flitPump {s : State} (k : Nat) : ∀ t, Reports s t → Reports s (flitPump k t) := by
  induction k with
  | zero => intro t h; exact h
  | succ k ih =>
    intro t h
    unfold flitPump
    split
    · exact ih _ (reports_sendNext _ h)
    · exact h

theorem reports_mxlFlush {s t : State} (h : Reports s t) : Reports s t.mxlFlush := by
  unfold State.mxlFlush
  split
  · exact reports_flitPump _ _ h
  · exact h

theorem reports_mxlSend {s t : State} (x : Msg) (h : Reports s t) : Reports s (t.mxlSend x) :=
  reports_mxlFlush (h.trans ⟨rfl, fun _ _ => rfl⟩)

theorem reports_modEvRing {s t : State} (e : Nat) (f : EvRing → EvRing) (h : Reports s t) : Reports s (t.modEvRing e f) :=
  h.trans ⟨rfl, fun _ _ => rfl⟩

theorem reports_raiseIbi {s t : State} (b : Nat) (h : Reports s t) : Reports s (t.raiseIbi b) := by
  unfold State.raiseIbi
  split
  · exact h.trans ⟨rfl, fun _ _ => rfl⟩
  · exact h.trans ⟨rfl, fun _ _ => rfl⟩

theorem reports_alertIbi {s t : State} (h : Reports s t) : Reports s t.alertIbi := by
  unfold State.alertIbi
  split
  · exact h
  · exact reports_setReg (by decide) (reports_raiseIbi 2 h)

theorem reports_trace {s t : State} (src : Nat) (code node data : Option Nat) (h : Reports s t) :
    Reports s (t.trace src code node data) := by
  unfold State.trace
  split
  · exact h
  · split
    · exact reports_setReg (by decide) h
    · exact h.trans ⟨rfl, fun _ _ => rfl⟩

theorem eventReg_tail {e : Nat} (he : e < 8) : eventReg (EVT_RING_TAIL e) = true := by
  have : ∀ e ∈ List.range 8, eventReg (EVT_RING_TAIL e) = true := by decide
  exact this e (List.mem_range.mpr he)

theorem eventReg_lost {e : Nat} (he : e < 8) : eventReg (EVT_RING_LOST e) = true := by
  have : ∀ e ∈ List.range 8, eventReg (EVT_RING_LOST e) = true := by decide
  exact this e (List.mem_range.mpr he)

theorem reports_evWrite {s t : State} {e : Nat} (n : Nat) (r : EvRec) (he : e < 8) (h : Reports s t) :
    Reports s (t.evWrite e n r) :=
  reports_modEvRing _ _ (reports_setReg (eventReg_tail he) (reports_mxlSend _ h))

theorem reports_evOffer {s t : State} {e : Nat} (n : Nat) (r : EvRec) (he : e < 8) (h : Reports s t) :
    Reports s (t.evOffer e n r) := by
  unfold State.evOffer
  split
  · exact reports_evWrite n r he h
  · split
    · exact reports_modEvRing _ _ h
    · exact reports_modEvRing _ _ (reports_setReg (eventReg_lost he) h)

theorem foldl_keeps_mem {β σ : Type} {P : σ → Prop} {f : σ → β → σ} (l : List β) (hf : ∀ s x, x ∈ l → P s → P (f s x)) {s : σ}
    (h : P s) : P (l.foldl f s) := by
  induction l generalizing s with
  | nil => exact h
  | cons b l ih => exact ih (fun s x hx hs => hf s x (List.mem_cons_of_mem _ hx) hs) (hf _ _ List.mem_cons_self h)

theorem reports_evRoute {s t : State} (r : EvRec) (h : Reports s t) : Reports s (t.evRoute r) := by
  unfold State.evRoute
  dsimp only
  split
  · exact reports_setReg (by decide) h
  · refine foldl_keeps_mem _ (fun u e he hu => ?_) h
    exact reports_evOffer _ r (List.mem_range.mp (List.mem_filter.mp he).1) hu

/-- Raising an event changes nothing but what reports it. -/
theorem reports_raiseWith {s t : State} (late : Bool) (code part kind unit d0 d1 d2 d3 : Nat) (h : Reports s t) :
    Reports s (t.raiseWith late code part kind unit d0 d1 d2 d3) := by
  unfold State.raiseWith
  dsimp only
  split
  · exact reports_alertIbi (reports_trace _ _ _ _ (reports_evRoute _ (reports_setReg (by decide) h)))
  · exact reports_trace _ _ _ _ (reports_evRoute _ (reports_setReg (by decide) h))

theorem reports_raise {s t : State} (code part kind unit d0 d1 d2 d3 : Nat) (h : Reports s t) :
    Reports s (t.raise code part kind unit d0 d1 d2 d3) := reports_raiseWith _ _ _ _ _ _ _ _ _ h

/-! Completion. -/

theorem Completes.refl (s : State) : Completes s s := ⟨rfl, fun _ _ => rfl⟩

theorem Completes.trans {s t u : State} (h : Completes s t) (h' : Completes t u) : Completes s u := by
  refine ⟨?_, fun a ha => (h'.2 a ha).trans (h.2 a ha)⟩
  obtain ⟨e, -⟩ := h
  obtain ⟨e', -⟩ := h'
  rw [e', e]

theorem Reports.completes {s t : State} (h : Reports s t) : Completes s t := by
  obtain ⟨e, h⟩ := h
  refine ⟨?_, fun a ha => h a ?_⟩
  · rw [e]
  · cases he : eventReg a
    · rfl
    · unfold cplReg at ha
      rw [he] at ha
      simp at ha

theorem completes_setReg {s t : State} {a : Nat} {w : Word} (ha : cplReg a = true) (h : Completes s t) :
    Completes s (t.setReg a w) :=
  h.trans ⟨rfl, fun b hb => by
    rw [reg_setReg, if_neg]
    intro e; rw [e, ha] at hb; cases hb⟩

theorem cplReg_tail {q : Nat} (hq : q < 64) : cplReg (CPL_RING_TAIL q) = true := by
  have h : (List.range 64).any (fun x => CPL_RING_TAIL q == CPL_RING_TAIL x) = true :=
    List.any_eq_true.mpr ⟨q, List.mem_range.mpr hq, beq_self_eq_true _⟩
  unfold cplReg
  rw [h]
  simp

theorem cplReg_perf {p : Nat} (hp : p < 4) : cplReg (PERF_LO p 7) = true ∧ cplReg (PERF_HI p 7) = true := by
  have : ∀ p ∈ List.range 4, cplReg (PERF_LO p 7) = true ∧ cplReg (PERF_HI p 7) = true := by decide
  exact this p (List.mem_range.mpr hp)

theorem completes_perfAdd {s t : State} {p : Nat} (n : Nat) (hp : p < 4) (h : Completes s t) : Completes s (t.perfAdd p 7 n) := by
  obtain ⟨hl, hh⟩ := cplReg_perf hp
  unfold State.perfAdd
  dsimp only
  split
  · exact h
  · split
    · exact completes_setReg hh (completes_setReg hl h)
    · exact (completes_setReg hh (completes_setReg hh (completes_setReg hl h))).trans
        (reports_raise _ _ _ _ _ _ _ _ (Reports.refl _)).completes

theorem completes_sendRecord {s t : State} {c : Cmd} (status : Nat) (changed : Bool) (detail result : Nat) (hc : c.placed)
    (h : Completes s t) : Completes s (t.sendRecord c status changed detail result) := by
  unfold State.sendRecord
  dsimp only
  split
  · exact completes_setReg (cplReg_tail hc.1) (h.trans (reports_mxlSend _ (Reports.refl _)).completes)
  · exact h.trans (reports_mxlSend _ (Reports.refl _)).completes

/-- Completing a command changes nothing but what its completion needs. -/
theorem completes_finish {s t : State} {c : Cmd} (status : Nat) (changed : Bool) (detail result : Nat) (hc : c.placed)
    (h : Completes s t) : Completes s (t.finish c status changed detail result) := by
  have h0 : Completes s (t.tracePhases c changed) :=
    h.trans (reports_forEach (fun u _ hu => reports_trace 1 none (some c.ring) none hu) (Reports.refl _)).completes
  have h1 : Completes s { t.tracePhases c changed with
      cmds := (t.tracePhases c changed).cmds.erase c
      done := keepDone (t.tracePhases c changed).done { ring := c.ring, tag := c.pkt.tag, opcode := c.pkt.opcode, status := status } } :=
    h0.trans ⟨rfl, fun _ _ => rfl⟩
  have h2 := (completes_sendRecord status changed detail result hc h1).trans
    (reports_trace 1 none (some c.ring) none (Reports.refl _)).completes
  unfold State.finish
  dsimp only
  split
  · exact completes_perfAdd 1 hc.2 h2
  · exact completes_setReg (by decide) h2

end Sys2Proof.Machine
end

