-- ==== Sys2Proof/Laws/Exec.lean ====
section
/-! SUPPORT. The dispatch, arm by arm. -/

namespace Sys2Proof.Machine

@[simp] theorem exec_inputValid (volts : Nat) (s : State) : exec (.inputValid volts) s = execInputValid volts s := rfl
@[simp] theorem exec_powerGood (volts duration : Nat) (s : State) : exec (.powerGood volts duration) s = execPowerGood volts duration s := rfl
@[simp] theorem exec_inputLowShutdown (value ms : Nat) (s : State) : exec (.inputLowShutdown value ms) s = execInputLowShutdown value ms s := rfl
@[simp] theorem exec_inputHighShutdown (value : Nat) (s : State) : exec (.inputHighShutdown value) s = execInputHighShutdown value s := rfl
@[simp] theorem exec_vcmpOvercurrentShutdown (value : Nat) (s : State) : exec (.vcmpOvercurrentShutdown value) s = execVcmpOvercurrentShutdown value s := rfl
@[simp] theorem exec_domainSagShutdown (value : Nat) (s : State) : exec (.domainSagShutdown value) s = execDomainSagShutdown value s := rfl
@[simp] theorem exec_phaseFault (phase : Nat) (s : State) : exec (.phaseFault phase) s = execPhaseFault phase s := rfl
@[simp] theorem exec_isolationSwitchOpen (form amps : Nat) (s : State) : exec (.isolationSwitchOpen form amps) s = execIsolationSwitchOpen form amps s := rfl
@[simp] theorem exec_vcmpSetpointStep (s : State) : exec (.vcmpSetpointStep) s = execVcmpSetpointStep s := rfl
@[simp] theorem exec_crackCompare (form mv amps : Nat) (s : State) : exec (.crackCompare form mv amps) s = execCrackCompare form mv amps s := rfl
@[simp] theorem exec_energyAccumulate (e : BellEnergy) (s : State) : exec (.energyAccumulate e) s = execEnergyAccumulate e s := rfl
@[simp] theorem exec_powerRecessEvaluate (s : State) : exec (.powerRecessEvaluate) s = execPowerRecessEvaluate s := rfl
@[simp] theorem exec_budgetTakeEffect (s : State) : exec (.budgetTakeEffect) s = execBudgetTakeEffect s := rfl
@[simp] theorem exec_referenceLoss (s : State) : exec (.referenceLoss) s = execReferenceLoss s := rfl
@[simp] theorem exec_referenceSwitch (s : State) : exec (.referenceSwitch) s = execReferenceSwitch s := rfl
@[simp] theorem exec_holdoverTimeout (s : State) : exec (.holdoverTimeout) s = execHoldoverTimeout s := rfl
@[simp] theorem exec_droopAssert (die site : Nat) (s : State) : exec (.droopAssert die site) s = execDroopAssert die site s := rfl
@[simp] theorem exec_droopDeassert (die site periods : Nat) (s : State) : exec (.droopDeassert die site periods) s = execDroopDeassert die site periods s := rfl
@[simp] theorem exec_droopDetectorMask (die site periods : Nat) (s : State) : exec (.droopDetectorMask die site periods) s = execDroopDetectorMask die site periods s := rfl
@[simp] theorem exec_canaryAct (group site margin : Nat) (s : State) : exec (.canaryAct group site margin) s = execCanaryAct group site margin s := rfl
@[simp] theorem exec_canaryWarn (group site margin : Nat) (s : State) : exec (.canaryWarn group site margin) s = execCanaryWarn group site margin s := rfl
@[simp] theorem exec_seamExcursion (seam : Nat) (phase : Int) (s : State) : exec (.seamExcursion seam phase) s = execSeamExcursion seam phase s := rfl
@[simp] theorem exec_stackReset (s : State) : exec (.stackReset) s = execStackReset s := rfl
@[simp] theorem exec_stackResetGateClose (s : State) : exec (.stackResetGateClose) s = execStackResetGateClose s := rfl
@[simp] theorem exec_stackResetRelease (s : State) : exec (.stackResetRelease) s = execStackResetRelease s := rfl
@[simp] theorem exec_watchdogExpiry (step : Option Nat) (s : State) : exec (.watchdogExpiry step) s = execWatchdogExpiry step s := rfl
@[simp] theorem exec_bellStart (depart : Nat) (s : State) : exec (.bellStart depart) s = execBellStart depart s := rfl
@[simp] theorem exec_guardStart (s : State) : exec (.guardStart) s = execGuardStart s := rfl
@[simp] theorem exec_refreshSlotA (phases : List Int) (failed : List Nat) (s : State) : exec (.refreshSlotA phases failed) s = execRefreshSlotA phases failed s := rfl
@[simp] theorem exec_refreshSlotB (s : State) : exec (.refreshSlotB) s = execRefreshSlotB s := rfl
@[simp] theorem exec_serviceSlot (x : SlotLoad) (s : State) : exec (.serviceSlot x) s = execServiceSlot x s := rfl
@[simp] theorem exec_formUngateStep (p k : Nat) (s : State) : exec (.formUngateStep p k) s = execFormUngateStep p k s := rfl
@[simp] theorem exec_formGateStep (p k : Nat) (s : State) : exec (.formGateStep p k) s = execFormGateStep p k s := rfl
@[simp] theorem exec_lessonArm (p : Nat) (s : State) : exec (.lessonArm p) s = execLessonArm p s := rfl
@[simp] theorem exec_bellOverrun (s : State) : exec (.bellOverrun) s = execBellOverrun s := rfl
@[simp] theorem exec_bellSymbolMissing (s : State) : exec (.bellSymbolMissing) s = execBellSymbolMissing s := rfl
@[simp] theorem exec_rejoinComplete (s : State) : exec (.rejoinComplete) s = execRejoinComplete s := rfl
@[simp] theorem exec_haltBellReached (p : Nat) (s : State) : exec (.haltBellReached p) s = execHaltBellReached p s := rfl
@[simp] theorem exec_haltNoticeTile (lt : Nat) (s : State) : exec (.haltNoticeTile lt) s = execHaltNoticeTile lt s := rfl
@[simp] theorem exec_haltNoticeLayer (l : Nat) (s : State) : exec (.haltNoticeLayer l) s = execHaltNoticeLayer l s := rfl
@[simp] theorem exec_haltNoticePort (port : Nat) (s : State) : exec (.haltNoticePort port) s = execHaltNoticePort port s := rfl
@[simp] theorem exec_quiesceReport (node : Nat) (s : State) : exec (.quiesceReport node) s = execQuiesceReport node s := rfl
@[simp] theorem exec_stopReportTimeout (s : State) : exec (.stopReportTimeout) s = execStopReportTimeout s := rfl
@[simp] theorem exec_recessAnnounce (s : State) : exec (.recessAnnounce) s = execRecessAnnounce s := rfl
@[simp] theorem exec_rosterDeadline (ring tag : Nat) (s : State) : exec (.rosterDeadline ring tag) s = execRosterDeadline ring tag s := rfl
@[simp] theorem exec_rosterCopyComplete (ring tag : Nat) (s : State) : exec (.rosterCopyComplete ring tag) s = execRosterCopyComplete ring tag s := rfl
@[simp] theorem exec_rosterTileWrite (lt : Nat) (s : State) : exec (.rosterTileWrite lt) s = execRosterTileWrite lt s := rfl
@[simp] theorem exec_courseStartCommit (p : Nat) (s : State) : exec (.courseStartCommit p) s = execCourseStartCommit p s := rfl
@[simp] theorem exec_courseResumeCommit (p : Nat) (s : State) : exec (.courseResumeCommit p) s = execCourseResumeCommit p s := rfl
@[simp] theorem exec_courseRestageDone (p : Nat) (s : State) : exec (.courseRestageDone p) s = execCourseRestageDone p s := rfl
@[simp] theorem exec_groupTableCopyDone (p : Nat) (s : State) : exec (.groupTableCopyDone p) s = execGroupTableCopyDone p s := rfl
@[simp] theorem exec_groupTableCommit (ring tag : Nat) (s : State) : exec (.groupTableCommit ring tag) s = execGroupTableCommit ring tag s := rfl
@[simp] theorem exec_shadowEnableDone (s : State) : exec (.shadowEnableDone) s = execShadowEnableDone s := rfl
@[simp] theorem exec_imageActivateCommit (s : State) : exec (.imageActivateCommit) s = execImageActivateCommit s := rfl
@[simp] theorem exec_imageSwitchDone (rejected : Bool) (s : State) : exec (.imageSwitchDone rejected) s = execImageSwitchDone rejected s := rfl
@[simp] theorem exec_knownGoodUpdate (s : State) : exec (.knownGoodUpdate) s = execKnownGoodUpdate s := rfl
@[simp] theorem exec_bellJoinCommit (ring tag : Nat) (s : State) : exec (.bellJoinCommit ring tag) s = execBellJoinCommit ring tag s := rfl
@[simp] theorem exec_bellJoinTimeout (ring tag : Nat) (s : State) : exec (.bellJoinTimeout ring tag) s = execBellJoinTimeout ring tag s := rfl
@[simp] theorem exec_mxeLoad (lt idx cycle : Nat) (s : State) : exec (.mxeLoad lt idx cycle) s = execMxeLoad lt idx cycle s := rfl
@[simp] theorem exec_mxePass (lt idx cycle : Nat) (s : State) : exec (.mxePass lt idx cycle) s = execMxePass lt idx cycle s := rfl
@[simp] theorem exec_mxeSend (lt idx cycle : Nat) (s : State) : exec (.mxeSend lt idx cycle) s = execMxeSend lt idx cycle s := rfl
@[simp] theorem exec_mxeMerge (lt idx row : Nat) (s : State) : exec (.mxeMerge lt idx row) s = execMxeMerge lt idx row s := rfl
@[simp] theorem exec_descriptorFetch (lt idx : Nat) (s : State) : exec (.descriptorFetch lt idx) s = execDescriptorFetch lt idx s := rfl
@[simp] theorem exec_veRun (lt idx : Nat) (s : State) : exec (.veRun lt idx) s = execVeRun lt idx s := rfl
@[simp] theorem exec_veTable (lt idx cycle : Nat) (s : State) : exec (.veTable lt idx cycle) s = execVeTable lt idx cycle s := rfl
@[simp] theorem exec_veCache (lt idx cycle : Nat) (s : State) : exec (.veCache lt idx cycle) s = execVeCache lt idx cycle s := rfl
@[simp] theorem exec_slateNop (lt : Nat) (s : State) : exec (.slateNop lt) s = execSlateNop lt s := rfl
@[simp] theorem exec_slateMov (lt : Nat) (s : State) : exec (.slateMov lt) s = execSlateMov lt s := rfl
@[simp] theorem exec_slateAdd (lt : Nat) (s : State) : exec (.slateAdd lt) s = execSlateAdd lt s := rfl
@[simp] theorem exec_slateSub (lt : Nat) (s : State) : exec (.slateSub lt) s = execSlateSub lt s := rfl
@[simp] theorem exec_slateMul (lt : Nat) (s : State) : exec (.slateMul lt) s = execSlateMul lt s := rfl
@[simp] theorem exec_slateMac (lt : Nat) (s : State) : exec (.slateMac lt) s = execSlateMac lt s := rfl
@[simp] theorem exec_slateNeg (lt : Nat) (s : State) : exec (.slateNeg lt) s = execSlateNeg lt s := rfl
@[simp] theorem exec_slateAbs (lt : Nat) (s : State) : exec (.slateAbs lt) s = execSlateAbs lt s := rfl
@[simp] theorem exec_slateMin (lt : Nat) (s : State) : exec (.slateMin lt) s = execSlateMin lt s := rfl
@[simp] theorem exec_slateMax (lt : Nat) (s : State) : exec (.slateMax lt) s = execSlateMax lt s := rfl
@[simp] theorem exec_slateShl (lt : Nat) (s : State) : exec (.slateShl lt) s = execSlateShl lt s := rfl
@[simp] theorem exec_slateShr (lt : Nat) (s : State) : exec (.slateShr lt) s = execSlateShr lt s := rfl
@[simp] theorem exec_slateShrl (lt : Nat) (s : State) : exec (.slateShrl lt) s = execSlateShrl lt s := rfl
@[simp] theorem exec_slateAnd (lt : Nat) (s : State) : exec (.slateAnd lt) s = execSlateAnd lt s := rfl
@[simp] theorem exec_slateOr (lt : Nat) (s : State) : exec (.slateOr lt) s = execSlateOr lt s := rfl
@[simp] theorem exec_slateXor (lt : Nat) (s : State) : exec (.slateXor lt) s = execSlateXor lt s := rfl
@[simp] theorem exec_slateNot (lt : Nat) (s : State) : exec (.slateNot lt) s = execSlateNot lt s := rfl
@[simp] theorem exec_slateCmpeq (lt : Nat) (s : State) : exec (.slateCmpeq lt) s = execSlateCmpeq lt s := rfl
@[simp] theorem exec_slateCmplt (lt : Nat) (s : State) : exec (.slateCmplt lt) s = execSlateCmplt lt s := rfl
@[simp] theorem exec_slateCmple (lt : Nat) (s : State) : exec (.slateCmple lt) s = execSlateCmple lt s := rfl
@[simp] theorem exec_slateSel (lt : Nat) (s : State) : exec (.slateSel lt) s = execSlateSel lt s := rfl
@[simp] theorem exec_slateAlign (lt : Nat) (s : State) : exec (.slateAlign lt) s = execSlateAlign lt s := rfl
@[simp] theorem exec_slateGete (lt : Nat) (s : State) : exec (.slateGete lt) s = execSlateGete lt s := rfl
@[simp] theorem exec_slateSete (lt : Nat) (s : State) : exec (.slateSete lt) s = execSlateSete lt s := rfl
@[simp] theorem exec_slateGetf (lt : Nat) (s : State) : exec (.slateGetf lt) s = execSlateGetf lt s := rfl
@[simp] theorem exec_slateClrf (lt : Nat) (s : State) : exec (.slateClrf lt) s = execSlateClrf lt s := rfl
@[simp] theorem exec_slateCvt (lt : Nat) (s : State) : exec (.slateCvt lt) s = execSlateCvt lt s := rfl
@[simp] theorem exec_slateRsum (lt : Nat) (s : State) : exec (.slateRsum lt) s = execSlateRsum lt s := rfl
@[simp] theorem exec_slateRmax (lt : Nat) (s : State) : exec (.slateRmax lt) s = execSlateRmax lt s := rfl
@[simp] theorem exec_slateRmaxabs (lt : Nat) (s : State) : exec (.slateRmaxabs lt) s = execSlateRmaxabs lt s := rfl
@[simp] theorem exec_slateRcpw (lt : Nat) (s : State) : exec (.slateRcpw lt) s = execSlateRcpw lt s := rfl
@[simp] theorem exec_slateLut (lt : Nat) (s : State) : exec (.slateLut lt) s = execSlateLut lt s := rfl
@[simp] theorem exec_slateRq (lt : Nat) (s : State) : exec (.slateRq lt) s = execSlateRq lt s := rfl
@[simp] theorem exec_slateExps (lt : Nat) (s : State) : exec (.slateExps lt) s = execSlateExps lt s := rfl
@[simp] theorem exec_taskStart (lt idx : Nat) (s : State) : exec (.taskStart lt idx) s = execTaskStart lt idx s := rfl
@[simp] theorem exec_taskDeadline (gc : Nat) (s : State) : exec (.taskDeadline gc) s = execTaskDeadline gc s := rfl
@[simp] theorem exec_gcTbWindow (lt cycle : Nat) (s : State) : exec (.gcTbWindow lt cycle) s = execGcTbWindow lt cycle s := rfl
@[simp] theorem exec_waitcWake (gc : Nat) (s : State) : exec (.waitcWake gc) s = execWaitcWake gc s := rfl
@[simp] theorem exec_chalkAdd (gc : Nat) (s : State) : exec (.chalkAdd gc) s = execChalkAdd gc s := rfl
@[simp] theorem exec_chalkSub (gc : Nat) (s : State) : exec (.chalkSub gc) s = execChalkSub gc s := rfl
@[simp] theorem exec_chalkAnd (gc : Nat) (s : State) : exec (.chalkAnd gc) s = execChalkAnd gc s := rfl
@[simp] theorem exec_chalkOr (gc : Nat) (s : State) : exec (.chalkOr gc) s = execChalkOr gc s := rfl
@[simp] theorem exec_chalkXor (gc : Nat) (s : State) : exec (.chalkXor gc) s = execChalkXor gc s := rfl
@[simp] theorem exec_chalkSll (gc : Nat) (s : State) : exec (.chalkSll gc) s = execChalkSll gc s := rfl
@[simp] theorem exec_chalkSrl (gc : Nat) (s : State) : exec (.chalkSrl gc) s = execChalkSrl gc s := rfl
@[simp] theorem exec_chalkSra (gc : Nat) (s : State) : exec (.chalkSra gc) s = execChalkSra gc s := rfl
@[simp] theorem exec_chalkSlt (gc : Nat) (s : State) : exec (.chalkSlt gc) s = execChalkSlt gc s := rfl
@[simp] theorem exec_chalkSltu (gc : Nat) (s : State) : exec (.chalkSltu gc) s = execChalkSltu gc s := rfl
@[simp] theorem exec_chalkMul (gc : Nat) (s : State) : exec (.chalkMul gc) s = execChalkMul gc s := rfl
@[simp] theorem exec_chalkMulh (gc : Nat) (s : State) : exec (.chalkMulh gc) s = execChalkMulh gc s := rfl
@[simp] theorem exec_chalkMulhu (gc : Nat) (s : State) : exec (.chalkMulhu gc) s = execChalkMulhu gc s := rfl
@[simp] theorem exec_chalkMin (gc : Nat) (s : State) : exec (.chalkMin gc) s = execChalkMin gc s := rfl
@[simp] theorem exec_chalkMax (gc : Nat) (s : State) : exec (.chalkMax gc) s = execChalkMax gc s := rfl
@[simp] theorem exec_chalkClz (gc : Nat) (s : State) : exec (.chalkClz gc) s = execChalkClz gc s := rfl
@[simp] theorem exec_chalkDiv (gc : Nat) (s : State) : exec (.chalkDiv gc) s = execChalkDiv gc s := rfl
@[simp] theorem exec_chalkDivu (gc : Nat) (s : State) : exec (.chalkDivu gc) s = execChalkDivu gc s := rfl
@[simp] theorem exec_chalkRem (gc : Nat) (s : State) : exec (.chalkRem gc) s = execChalkRem gc s := rfl
@[simp] theorem exec_chalkRemu (gc : Nat) (s : State) : exec (.chalkRemu gc) s = execChalkRemu gc s := rfl
@[simp] theorem exec_chalkAddi (gc : Nat) (s : State) : exec (.chalkAddi gc) s = execChalkAddi gc s := rfl
@[simp] theorem exec_chalkAndi (gc : Nat) (s : State) : exec (.chalkAndi gc) s = execChalkAndi gc s := rfl
@[simp] theorem exec_chalkOri (gc : Nat) (s : State) : exec (.chalkOri gc) s = execChalkOri gc s := rfl
@[simp] theorem exec_chalkXori (gc : Nat) (s : State) : exec (.chalkXori gc) s = execChalkXori gc s := rfl
@[simp] theorem exec_chalkSlli (gc : Nat) (s : State) : exec (.chalkSlli gc) s = execChalkSlli gc s := rfl
@[simp] theorem exec_chalkSrli (gc : Nat) (s : State) : exec (.chalkSrli gc) s = execChalkSrli gc s := rfl
@[simp] theorem exec_chalkSrai (gc : Nat) (s : State) : exec (.chalkSrai gc) s = execChalkSrai gc s := rfl
@[simp] theorem exec_chalkSlti (gc : Nat) (s : State) : exec (.chalkSlti gc) s = execChalkSlti gc s := rfl
@[simp] theorem exec_chalkLui (gc : Nat) (s : State) : exec (.chalkLui gc) s = execChalkLui gc s := rfl
@[simp] theorem exec_chalkLdw (gc : Nat) (s : State) : exec (.chalkLdw gc) s = execChalkLdw gc s := rfl
@[simp] theorem exec_chalkLdh (gc : Nat) (s : State) : exec (.chalkLdh gc) s = execChalkLdh gc s := rfl
@[simp] theorem exec_chalkLdhu (gc : Nat) (s : State) : exec (.chalkLdhu gc) s = execChalkLdhu gc s := rfl
@[simp] theorem exec_chalkLdb (gc : Nat) (s : State) : exec (.chalkLdb gc) s = execChalkLdb gc s := rfl
@[simp] theorem exec_chalkLdbu (gc : Nat) (s : State) : exec (.chalkLdbu gc) s = execChalkLdbu gc s := rfl
@[simp] theorem exec_chalkStw (gc : Nat) (s : State) : exec (.chalkStw gc) s = execChalkStw gc s := rfl
@[simp] theorem exec_chalkSth (gc : Nat) (s : State) : exec (.chalkSth gc) s = execChalkSth gc s := rfl
@[simp] theorem exec_chalkStb (gc : Nat) (s : State) : exec (.chalkStb gc) s = execChalkStb gc s := rfl
@[simp] theorem exec_chalkBeq (gc : Nat) (s : State) : exec (.chalkBeq gc) s = execChalkBeq gc s := rfl
@[simp] theorem exec_chalkBne (gc : Nat) (s : State) : exec (.chalkBne gc) s = execChalkBne gc s := rfl
@[simp] theorem exec_chalkBlt (gc : Nat) (s : State) : exec (.chalkBlt gc) s = execChalkBlt gc s := rfl
@[simp] theorem exec_chalkBge (gc : Nat) (s : State) : exec (.chalkBge gc) s = execChalkBge gc s := rfl
@[simp] theorem exec_chalkBltu (gc : Nat) (s : State) : exec (.chalkBltu gc) s = execChalkBltu gc s := rfl
@[simp] theorem exec_chalkBgeu (gc : Nat) (s : State) : exec (.chalkBgeu gc) s = execChalkBgeu gc s := rfl
@[simp] theorem exec_chalkJal (gc : Nat) (s : State) : exec (.chalkJal gc) s = execChalkJal gc s := rfl
@[simp] theorem exec_chalkJalr (gc : Nat) (s : State) : exec (.chalkJalr gc) s = execChalkJalr gc s := rfl
@[simp] theorem exec_chalkEnd (gc : Nat) (s : State) : exec (.chalkEnd gc) s = execChalkEnd gc s := rfl
@[simp] theorem exec_chalkWaitc (gc : Nat) (s : State) : exec (.chalkWaitc gc) s = execChalkWaitc gc s := rfl
@[simp] theorem exec_chalkRdcyc (gc : Nat) (s : State) : exec (.chalkRdcyc gc) s = execChalkRdcyc gc s := rfl
@[simp] theorem exec_chalkRdbell (gc : Nat) (s : State) : exec (.chalkRdbell gc) s = execChalkRdbell gc s := rfl
@[simp] theorem exec_chalkRdid (gc : Nat) (s : State) : exec (.chalkRdid gc) s = execChalkRdid gc s := rfl
@[simp] theorem exec_chalkTrap (gc : Nat) (s : State) : exec (.chalkTrap gc) s = execChalkTrap gc s := rfl
@[simp] theorem exec_chalkRet (gc : Nat) (s : State) : exec (.chalkRet gc) s = execChalkRet gc s := rfl
@[simp] theorem exec_moverCopy (lt idx : Nat) (s : State) : exec (.moverCopy lt idx) s = execMoverCopy lt idx s := rfl
@[simp] theorem exec_moverIndirect (lt idx : Nat) (s : State) : exec (.moverIndirect lt idx) s = execMoverIndirect lt idx s := rfl
@[simp] theorem exec_builtDescriptor (lt c : Nat) (s : State) : exec (.builtDescriptor lt c) s = execBuiltDescriptor lt c s := rfl
@[simp] theorem exec_moverBeat (lt c : Nat) (s : State) : exec (.moverBeat lt c) s = execMoverBeat lt c s := rfl
@[simp] theorem exec_serviceTransfer (lt c : Nat) (s : State) : exec (.serviceTransfer lt c) s = execServiceTransfer lt c s := rfl
@[simp] theorem exec_lockerReadDeliver (lt c : Nat) (s : State) : exec (.lockerReadDeliver lt c) s = execLockerReadDeliver lt c s := rfl
@[simp] theorem exec_lockerWriteAck (lt c : Nat) (s : State) : exec (.lockerWriteAck lt c) s = execLockerWriteAck lt c s := rfl
@[simp] theorem exec_lockerCommand (locker w : Nat) (data wires : List Nat) (s : State) : exec (.lockerCommand locker w data wires) s = execLockerCommand locker w data wires s := rfl
@[simp] theorem exec_lockerNbuCommand (locker w : Nat) (s : State) : exec (.lockerNbuCommand locker w) s = execLockerNbuCommand locker w s := rfl
@[simp] theorem exec_serviceAccessBelow (write : Bool) (a n off : Nat) (s : State) : exec (.serviceAccessBelow write a n off) s = execServiceAccessBelow write a n off s := rfl
@[simp] theorem exec_evacuationStep (bad : List Nat) (s : State) : exec (.evacuationStep bad) s = execEvacuationStep bad s := rfl
@[simp] theorem exec_evacuationComplete (s : State) : exec (.evacuationComplete) s = execEvacuationComplete s := rfl
@[simp] theorem exec_nbuSequenceStart (l part idx : Nat) (s : State) : exec (.nbuSequenceStart l part idx) s = execNbuSequenceStart l part idx s := rfl
@[simp] theorem exec_nbuGatherReduce (l part idx : Nat) (s : State) : exec (.nbuGatherReduce l part idx) s = execNbuGatherReduce l part idx s := rfl
@[simp] theorem exec_nbuMatvec (l part idx : Nat) (s : State) : exec (.nbuMatvec l part idx) s = execNbuMatvec l part idx s := rfl
@[simp] theorem exec_nbuSignUpdate (l part idx : Nat) (s : State) : exec (.nbuSignUpdate l part idx) s = execNbuSignUpdate l part idx s := rfl
@[simp] theorem exec_nbuSeqCopy (l part idx : Nat) (s : State) : exec (.nbuSeqCopy l part idx) s = execNbuSeqCopy l part idx s := rfl
@[simp] theorem exec_nbuSeqFill (l part idx : Nat) (s : State) : exec (.nbuSeqFill l part idx) s = execNbuSeqFill l part idx s := rfl
@[simp] theorem exec_nbuTransfer (l part idx : Nat) (s : State) : exec (.nbuTransfer l part idx) s = execNbuTransfer l part idx s := rfl
@[simp] theorem exec_nbuSequenceEnd (l part idx : Nat) (s : State) : exec (.nbuSequenceEnd l part idx) s = execNbuSequenceEnd l part idx s := rfl
@[simp] theorem exec_translationJobStart (lt : Nat) (s : State) : exec (.translationJobStart lt) s = execTranslationJobStart lt s := rfl
@[simp] theorem exec_translateEntry (lt entry : Nat) (s : State) : exec (.translateEntry lt entry) s = execTranslateEntry lt entry s := rfl
@[simp] theorem exec_fallbackRecordWrite (lt lesson iter record : Nat) (s : State) : exec (.fallbackRecordWrite lt lesson iter record) s = execFallbackRecordWrite lt lesson iter record s := rfl
@[simp] theorem exec_meshInject (lt cycle : Nat) (s : State) : exec (.meshInject lt cycle) s = execMeshInject lt cycle s := rfl
@[simp] theorem exec_meshBeatRoute (id corrected : Nat) (bad : List Nat) (hdrBad : Bool) (s : State) : exec (.meshBeatRoute id corrected bad hdrBad) s = execMeshBeatRoute id corrected bad hdrBad s := rfl
@[simp] theorem exec_meshEject (id : Nat) (s : State) : exec (.meshEject id) s = execMeshEject id s := rfl
@[simp] theorem exec_serviceBeatAdvance (id cycle corrected : Nat) (bad : List Nat) (hdrBad : Bool) (s : State) : exec (.serviceBeatAdvance id cycle corrected bad hdrBad) s = execServiceBeatAdvance id cycle corrected bad hdrBad s := rfl
@[simp] theorem exec_hallReq (lt c dest n : Nat) (s : State) : exec (.hallReq lt c dest n) s = execHallReq lt c dest n s := rfl
@[simp] theorem exec_hallGrant (lt : Nat) (s : State) : exec (.hallGrant lt) s = execHallGrant lt s := rfl
@[simp] theorem exec_hallPassReturn (lt c : Nat) (s : State) : exec (.hallPassReturn lt c) s = execHallPassReturn lt c s := rfl
@[simp] theorem exec_cnetRegRead (m : CnetMsg) (corrected : Nat) (bad : Bool) (s : State) : exec (.cnetRegRead m corrected bad) s = execCnetRegRead m corrected bad s := rfl
@[simp] theorem exec_cnetRegWrite (m : CnetMsg) (x : CnetCheck) (now : Nat) (s : State) : exec (.cnetRegWrite m x now) s = execCnetRegWrite m x now s := rfl
@[simp] theorem exec_cnetRegReply (m : CnetMsg) (corrected : Nat) (bad : Bool) (s : State) : exec (.cnetRegReply m corrected bad) s = execCnetRegReply m corrected bad s := rfl
@[simp] theorem exec_cnetEvent (m : CnetMsg) (corrected : Nat) (bad : Bool) (s : State) : exec (.cnetEvent m corrected bad) s = execCnetEvent m corrected bad s := rfl
@[simp] theorem exec_cnetArm (m : CnetMsg) (corrected : Nat) (bad : Bool) (s : State) : exec (.cnetArm m corrected bad) s = execCnetArm m corrected bad s := rfl
@[simp] theorem exec_cnetServicePost (m : CnetMsg) (corrected : Nat) (bad : Bool) (s : State) : exec (.cnetServicePost m corrected bad) s = execCnetServicePost m corrected bad s := rfl
@[simp] theorem exec_portSend (port idx i : Nat) (s : State) : exec (.portSend port idx i) s = execPortSend port idx i s := rfl
@[simp] theorem exec_portRecv (port idx i : Nat) (s : State) : exec (.portRecv port idx i) s = execPortRecv port idx i s := rfl
@[simp] theorem exec_portReduce (port idx i : Nat) (s : State) : exec (.portReduce port idx i) s = execPortReduce port idx i s := rfl
@[simp] theorem exec_portRelay (port idx i : Nat) (s : State) : exec (.portRelay port idx i) s = execPortRelay port idx i s := rfl
@[simp] theorem exec_portVoteSend (port idx i : Nat) (s : State) : exec (.portVoteSend port idx i) s = execPortVoteSend port idx i s := rfl
@[simp] theorem exec_portVoteAdd (port idx i : Nat) (s : State) : exec (.portVoteAdd port idx i) s = execPortVoteAdd port idx i s := rfl
@[simp] theorem exec_portVoteSign (port idx i : Nat) (s : State) : exec (.portVoteSign port idx i) s = execPortVoteSign port idx i s := rfl
@[simp] theorem exec_frameReceive (port : Nat) (f : Frame) (hdrBad : Bool) (badSpans : Nat) (s : State) : exec (.frameReceive port f hdrBad badSpans) s = execFrameReceive port f hdrBad badSpans s := rfl
@[simp] theorem exec_svcWrite (port : Nat) (s : State) : exec (.svcWrite port) s = execSvcWrite port s := rfl
@[simp] theorem exec_svcRead (port : Nat) (s : State) : exec (.svcRead port) s = execSvcRead port s := rfl
@[simp] theorem exec_svcReply (port : Nat) (s : State) : exec (.svcReply port) s = execSvcReply port s := rfl
@[simp] theorem exec_remoteTimeout (tag : Nat) (s : State) : exec (.remoteTimeout tag) s = execRemoteTimeout tag s := rfl
@[simp] theorem exec_symBell (port : Nat) (y : Sym) (bad : Bool) (arrival : Int) (resid : Nat) (s : State) : exec (.symBell port y bad arrival resid) s = execSymBell port y bad arrival resid s := rfl
@[simp] theorem exec_symHalt (port : Nat) (y : Sym) (bad : Bool) (s : State) : exec (.symHalt port y bad) s = execSymHalt port y bad s := rfl
@[simp] theorem exec_symRecess (port : Nat) (y : Sym) (bad : Bool) (s : State) : exec (.symRecess port y bad) s = execSymRecess port y bad s := rfl
@[simp] theorem exec_symRecessReq (port : Nat) (y : Sym) (bad : Bool) (s : State) : exec (.symRecessReq port y bad) s = execSymRecessReq port y bad s := rfl
@[simp] theorem exec_symCredit (port : Nat) (y : Sym) (bad : Bool) (s : State) : exec (.symCredit port y bad) s = execSymCredit port y bad s := rfl
@[simp] theorem exec_symLaneSwap (port : Nat) (y : Sym) (bad : Bool) (s : State) : exec (.symLaneSwap port y bad) s = execSymLaneSwap port y bad s := rfl
@[simp] theorem exec_symTrain (port : Nat) (y : Sym) (bad : Bool) (s : State) : exec (.symTrain port y bad) s = execSymTrain port y bad s := rfl
@[simp] theorem exec_symProbe (port : Nat) (y : Sym) (bad : Bool) (t : ProbeTimes) (s : State) : exec (.symProbe port y bad t) s = execSymProbe port y bad t s := rfl
@[simp] theorem exec_symIdle (port : Nat) (y : Sym) (bad : Bool) (s : State) : exec (.symIdle port y bad) s = execSymIdle port y bad s := rfl
@[simp] theorem exec_portLaneFault (port lane : Nat) (x : LaneCheck) (s : State) : exec (.portLaneFault port lane x) s = execPortLaneFault port lane x s := rfl
@[simp] theorem exec_portLaneTakeover (port : Nat) (s : State) : exec (.portLaneTakeover port) s = execPortLaneTakeover port s := rfl
@[simp] theorem exec_portDetectLight (port fibres : Nat) (s : State) : exec (.portDetectLight port fibres) s = execPortDetectLight port fibres s := rfl
@[simp] theorem exec_portTrainStateDone (port lanes fibres round depart : Nat) (s : State) : exec (.portTrainStateDone port lanes fibres round depart) s = execPortTrainStateDone port lanes fibres round depart s := rfl
@[simp] theorem exec_portTrainTimeout (port : Nat) (s : State) : exec (.portTrainTimeout port) s = execPortTrainTimeout port s := rfl
@[simp] theorem exec_portRetrain (port : Nat) (s : State) : exec (.portRetrain port) s = execPortRetrain port s := rfl
@[simp] theorem exec_portRetrainDone (port lanes fibres round cycle : Nat) (s : State) : exec (.portRetrainDone port lanes fibres round cycle) s = execPortRetrainDone port lanes fibres round cycle s := rfl
@[simp] theorem exec_mxlPrioCmd (f : Flit) (corrected : Bool) (s : State) : exec (.mxlPrioCmd f corrected) s = execMxlPrioCmd f corrected s := rfl
@[simp] theorem exec_mxlDoorbell (h : FlitHead) (payload : List Byte) (x : FlitCheck) (part : Nat) (s : State) : exec (.mxlDoorbell h payload x part) s = execMxlDoorbell h payload x part s := rfl
@[simp] theorem exec_mxlRegRead (h : FlitHead) (payload : List Byte) (x : FlitCheck) (s : State) : exec (.mxlRegRead h payload x) s = execMxlRegRead h payload x s := rfl
@[simp] theorem exec_mxlRegWrite (h : FlitHead) (payload : List Byte) (x : FlitCheck) (now : Nat) (s : State) : exec (.mxlRegWrite h payload x now) s = execMxlRegWrite h payload x now s := rfl
@[simp] theorem exec_mxlMemRead (h : FlitHead) (payload : List Byte) (x : FlitCheck) (s : State) : exec (.mxlMemRead h payload x) s = execMxlMemRead h payload x s := rfl
@[simp] theorem exec_mxlMemWrite (h : FlitHead) (payload : List Byte) (crc : Nat) (corrected : Bool) (s : State) : exec (.mxlMemWrite h payload crc corrected) s = execMxlMemWrite h payload crc corrected s := rfl
@[simp] theorem exec_mxlHostData (h : FlitHead) (payload : List Byte) (crc : Nat) (corrected : Bool) (s : State) : exec (.mxlHostData h payload crc corrected) s = execMxlHostData h payload crc corrected s := rfl
@[simp] theorem exec_mxlIdleFlit (x : RxFlit) (s : State) : exec (.mxlIdleFlit x) s = execMxlIdleFlit x s := rfl
@[simp] theorem exec_mxlLaneSwapFlit (h : FlitHead) (payload : List Byte) (x : FlitCheck) (s : State) : exec (.mxlLaneSwapFlit h payload x) s = execMxlLaneSwapFlit h payload x s := rfl
@[simp] theorem exec_mxlFlitCheckFail (f : Flit) (corrected uncorrectable : Bool) (s : State) : exec (.mxlFlitCheckFail f corrected uncorrectable) s = execMxlFlitCheckFail f corrected uncorrectable s := rfl
@[simp] theorem exec_mxlNak (x : RxFlit) (s : State) : exec (.mxlNak x) s = execMxlNak x s := rfl
@[simp] theorem exec_mxlReplayTimeout (s : State) : exec (.mxlReplayTimeout) s = execMxlReplayTimeout s := rfl
@[simp] theorem exec_hostReadTimeout (tag : Nat) (s : State) : exec (.hostReadTimeout tag) s = execHostReadTimeout tag s := rfl
@[simp] theorem exec_mxlLaneFault (x : MxlLaneCheck) (s : State) : exec (.mxlLaneFault x) s = execMxlLaneFault x s := rfl
@[simp] theorem exec_mxlStateDone (lanes : List Nat) (cmd bulk : Nat) (s : State) : exec (.mxlStateDone lanes cmd bulk) s = execMxlStateDone lanes cmd bulk s := rfl
@[simp] theorem exec_mxlStateTimeout (s : State) : exec (.mxlStateTimeout) s = execMxlStateTimeout s := rfl
@[simp] theorem exec_mxlDownRecover (s : State) : exec (.mxlDownRecover) s = execMxlDownRecover s := rfl
@[simp] theorem exec_commandFetch (r : Nat) (d : List Byte) (s : State) : exec (.commandFetch r d) s = execCommandFetch r d s := rfl
@[simp] theorem exec_heldRecordFlush (s : State) : exec (.heldRecordFlush) s = execHeldRecordFlush s := rfl
@[simp] theorem exec_cmdNop (ring tag : Nat) (s : State) : exec (.cmdNop ring tag) s = execCmdNop ring tag s := rfl
@[simp] theorem exec_cmdStop (tag : Nat) (s : State) : exec (.cmdStop tag) s = execCmdStop tag s := rfl
@[simp] theorem exec_cmdAbort (ring tag : Nat) (entry : Option (Nat × List Byte)) (s : State) : exec (.cmdAbort ring tag entry) s = execCmdAbort ring tag entry s := rfl
@[simp] theorem exec_cmdReset (ring tag : Nat) (s : State) : exec (.cmdReset ring tag) s = execCmdReset ring tag s := rfl
@[simp] theorem exec_cmdPartitionSet (ring tag : Nat) (s : State) : exec (.cmdPartitionSet ring tag) s = execCmdPartitionSet ring tag s := rfl
@[simp] theorem exec_cmdLinkmapLoad (ring tag : Nat) (s : State) : exec (.cmdLinkmapLoad ring tag) s = execCmdLinkmapLoad ring tag s := rfl
@[simp] theorem exec_cmdBellJoin (ring tag : Nat) (s : State) : exec (.cmdBellJoin ring tag) s = execCmdBellJoin ring tag s := rfl
@[simp] theorem exec_cmdMemCopy (ring tag : Nat) (s : State) : exec (.cmdMemCopy ring tag) s = execCmdMemCopy ring tag s := rfl
@[simp] theorem exec_cmdMemFill (ring tag : Nat) (s : State) : exec (.cmdMemFill ring tag) s = execCmdMemFill ring tag s := rfl
@[simp] theorem exec_cmdDmaIn (ring tag : Nat) (s : State) : exec (.cmdDmaIn ring tag) s = execCmdDmaIn ring tag s := rfl
@[simp] theorem exec_cmdDmaOut (ring tag : Nat) (s : State) : exec (.cmdDmaOut ring tag) s = execCmdDmaOut ring tag s := rfl
@[simp] theorem exec_cmdNbuFill (ring tag : Nat) (s : State) : exec (.cmdNbuFill ring tag) s = execCmdNbuFill ring tag s := rfl
@[simp] theorem exec_cmdNbuCopy (ring tag : Nat) (s : State) : exec (.cmdNbuCopy ring tag) s = execCmdNbuCopy ring tag s := rfl
@[simp] theorem exec_cmdCourseLoad (ring tag : Nat) (s : State) : exec (.cmdCourseLoad ring tag) s = execCmdCourseLoad ring tag s := rfl
@[simp] theorem exec_cmdCourseStart (ring tag : Nat) (s : State) : exec (.cmdCourseStart ring tag) s = execCmdCourseStart ring tag s := rfl
@[simp] theorem exec_cmdCourseEnd (ring tag : Nat) (s : State) : exec (.cmdCourseEnd ring tag) s = execCmdCourseEnd ring tag s := rfl
@[simp] theorem exec_cmdCourseUnload (ring tag : Nat) (s : State) : exec (.cmdCourseUnload ring tag) s = execCmdCourseUnload ring tag s := rfl
@[simp] theorem exec_cmdCourseResume (ring tag : Nat) (s : State) : exec (.cmdCourseResume ring tag) s = execCmdCourseResume ring tag s := rfl
@[simp] theorem exec_cmdRosterCommit (ring tag : Nat) (s : State) : exec (.cmdRosterCommit ring tag) s = execCmdRosterCommit ring tag s := rfl
@[simp] theorem exec_cmdSeqOpen (ring tag : Nat) (s : State) : exec (.cmdSeqOpen ring tag) s = execCmdSeqOpen ring tag s := rfl
@[simp] theorem exec_cmdSeqClose (ring tag : Nat) (s : State) : exec (.cmdSeqClose ring tag) s = execCmdSeqClose ring tag s := rfl
@[simp] theorem exec_cmdPageMap (ring tag : Nat) (s : State) : exec (.cmdPageMap ring tag) s = execCmdPageMap ring tag s := rfl
@[simp] theorem exec_cmdPageUnmap (ring tag : Nat) (s : State) : exec (.cmdPageUnmap ring tag) s = execCmdPageUnmap ring tag s := rfl
@[simp] theorem exec_cmdSeqFork (ring tag : Nat) (s : State) : exec (.cmdSeqFork ring tag) s = execCmdSeqFork ring tag s := rfl
@[simp] theorem exec_cmdPagePrivate (ring tag : Nat) (s : State) : exec (.cmdPagePrivate ring tag) s = execCmdPagePrivate ring tag s := rfl
@[simp] theorem exec_pageCommandCommit (ring tag : Nat) (s : State) : exec (.pageCommandCommit ring tag) s = execPageCommandCommit ring tag s := rfl
@[simp] theorem exec_cmdGroupTable (ring tag : Nat) (s : State) : exec (.cmdGroupTable ring tag) s = execCmdGroupTable ring tag s := rfl
@[simp] theorem exec_cmdRecessRequest (ring tag : Nat) (s : State) : exec (.cmdRecessRequest ring tag) s = execCmdRecessRequest ring tag s := rfl
@[simp] theorem exec_cmdPowerCap (ring tag : Nat) (s : State) : exec (.cmdPowerCap ring tag) s = execCmdPowerCap ring tag s := rfl
@[simp] theorem exec_cmdBudgetMove (ring tag : Nat) (s : State) : exec (.cmdBudgetMove ring tag) s = execCmdBudgetMove ring tag s := rfl
@[simp] theorem exec_cmdImageStage (ring tag : Nat) (s : State) : exec (.cmdImageStage ring tag) s = execCmdImageStage ring tag s := rfl
@[simp] theorem exec_cmdImageActivate (ring tag : Nat) (s : State) : exec (.cmdImageActivate ring tag) s = execCmdImageActivate ring tag s := rfl
@[simp] theorem exec_cmdSyllabusLoad (ring tag : Nat) (s : State) : exec (.cmdSyllabusLoad ring tag) s = execCmdSyllabusLoad ring tag s := rfl
@[simp] theorem exec_cmdLicenceLoad (ring tag : Nat) (s : State) : exec (.cmdLicenceLoad ring tag) s = execCmdLicenceLoad ring tag s := rfl
@[simp] theorem exec_cmdAttest (ring tag : Nat) (s : State) : exec (.cmdAttest ring tag) s = execCmdAttest ring tag s := rfl
@[simp] theorem exec_cmdExam (ring tag : Nat) (s : State) : exec (.cmdExam ring tag) s = execCmdExam ring tag s := rfl
@[simp] theorem exec_cmdEvacuate (ring tag : Nat) (s : State) : exec (.cmdEvacuate ring tag) s = execCmdEvacuate ring tag s := rfl
@[simp] theorem exec_cmdAreaRestore (ring tag : Nat) (s : State) : exec (.cmdAreaRestore ring tag) s = execCmdAreaRestore ring tag s := rfl
@[simp] theorem exec_cmdRenumber (ring tag : Nat) (s : State) : exec (.cmdRenumber ring tag) s = execCmdRenumber ring tag s := rfl
@[simp] theorem exec_cmdEnergySnapshot (ring tag : Nat) (s : State) : exec (.cmdEnergySnapshot ring tag) s = execCmdEnergySnapshot ring tag s := rfl
@[simp] theorem exec_energySnapshotTake (ring tag : Nat) (s : State) : exec (.energySnapshotTake ring tag) s = execEnergySnapshotTake ring tag s := rfl
@[simp] theorem exec_cmdCountersClear (ring tag : Nat) (s : State) : exec (.cmdCountersClear ring tag) s = execCmdCountersClear ring tag s := rfl
@[simp] theorem exec_countersClearApply (ring tag : Nat) (s : State) : exec (.countersClearApply ring tag) s = execCountersClearApply ring tag s := rfl
@[simp] theorem exec_cmdTraceConfig (ring tag : Nat) (s : State) : exec (.cmdTraceConfig ring tag) s = execCmdTraceConfig ring tag s := rfl
@[simp] theorem exec_sensorSample (readings powers : List Nat) (inlet outlet : Nat) (s : State) : exec (.sensorSample readings powers inlet outlet) s = execSensorSample readings powers inlet outlet s := rfl
@[simp] theorem exec_tripComparator (pair a b : Nat) (s : State) : exec (.tripComparator pair a b) s = execTripComparator pair a b s := rfl
@[simp] theorem exec_thermalForecast (s : State) : exec (.thermalForecast) s = execThermalForecast s := rfl
@[simp] theorem exec_coolantEvaluate (s : State) : exec (.coolantEvaluate) s = execCoolantEvaluate s := rfl
@[simp] theorem exec_stageS1Boot (duration : Nat) (loadFails : List Nat) (s : State) : exec (.stageS1Boot duration loadFails) s = execStageS1Boot duration loadFails s := rfl
@[simp] theorem exec_stageS2Clocks (duration : Nat) (seamFails : List (Nat × Nat)) (trims : List Int) (s : State) : exec (.stageS2Clocks duration seamFails trims) s = execStageS2Clocks duration seamFails trims s := rfl
@[simp] theorem exec_stageS3Memory (duration : Nat) (fails : List Nat) (badForms : List (Nat × Nat)) (lost : List Nat) (corrected columns : Nat) (deadSeats : List Nat) (s : State) : exec (.stageS3Memory duration fails badForms lost corrected columns deadSeats) s = execStageS3Memory duration fails badForms lost corrected columns deadSeats s := rfl
@[simp] theorem exec_stageS4Seating (duration : Nat) (quiz : List (Nat × Nat)) (covers : List (Nat × Bool × Nat × Nat)) (gateFails rf : List Nat) (s : State) : exec (.stageS4Seating duration quiz covers gateFails rf) s = execStageS4Seating duration quiz covers gateFails rf s := rfl
@[simp] theorem exec_stageS5Licences (duration stepping : Nat) (s : State) : exec (.stageS5Licences duration stepping) s = execStageS5Licences duration stepping s := rfl
@[simp] theorem exec_stageS6Ports (duration : Nat) (s : State) : exec (.stageS6Ports duration) s = execStageS6Ports duration s := rfl
@[simp] theorem exec_stageS8Ready (duration total : Nat) (s : State) : exec (.stageS8Ready duration total) s = execStageS8Ready duration total s := rfl
@[simp] theorem exec_autoExamStep (result : Option Nat) (s : State) : exec (.autoExamStep result) s = execAutoExamStep result s := rfl
@[simp] theorem exec_examComplete (failing : List (Nat × Nat)) (s : State) : exec (.examComplete failing) s = execExamComplete failing s := rfl
@[simp] theorem exec_heartbeatTimeout (lt : Nat) (s : State) : exec (.heartbeatTimeout lt) s = execHeartbeatTimeout lt s := rfl
@[simp] theorem exec_errorsThreshold (lt : Nat) (s : State) : exec (.errorsThreshold lt) s = execErrorsThreshold lt s := rfl
@[simp] theorem exec_substitutionComplete (lt : Nat) (s : State) : exec (.substitutionComplete lt) s = execSubstitutionComplete lt s := rfl
@[simp] theorem exec_i3cEntdaa (addr : Nat) (s : State) : exec (.i3cEntdaa addr) s = execI3cEntdaa addr s := rfl
@[simp] theorem exec_i3cSetdasa (addr : Nat) (s : State) : exec (.i3cSetdasa addr) s = execI3cSetdasa addr s := rfl
@[simp] theorem exec_i3cRstdaa (s : State) : exec (.i3cRstdaa) s = execI3cRstdaa s := rfl
@[simp] theorem exec_i3cEnec (mask : Nat) (s : State) : exec (.i3cEnec mask) s = execI3cEnec mask s := rfl
@[simp] theorem exec_i3cDisec (mask : Nat) (s : State) : exec (.i3cDisec mask) s = execI3cDisec mask s := rfl
@[simp] theorem exec_i3cGetstatus (s : State) : exec (.i3cGetstatus) s = execI3cGetstatus s := rfl
@[simp] theorem exec_i3cSetIndex (index : Nat) (s : State) : exec (.i3cSetIndex index) s = execI3cSetIndex index s := rfl
@[simp] theorem exec_i3cPrivateRead (n : Nat) (s : State) : exec (.i3cPrivateRead n) s = execI3cPrivateRead n s := rfl
@[simp] theorem exec_mgmtResetRequest (s : State) : exec (.mgmtResetRequest) s = execMgmtResetRequest s := rfl
@[simp] theorem exec_mgmtLedgerClear (s : State) : exec (.mgmtLedgerClear) s = execMgmtLedgerClear s := rfl
@[simp] theorem exec_mgmtHoldNext (s : State) : exec (.mgmtHoldNext) s = execMgmtHoldNext s := rfl
@[simp] theorem exec_mgmtAlertAck (s : State) : exec (.mgmtAlertAck) s = execMgmtAlertAck s := rfl
@[simp] theorem exec_mgmtMalformed (code complement : Nat) (s : State) : exec (.mgmtMalformed code complement) s = execMgmtMalformed code complement s := rfl
@[simp] theorem exec_jtagExtest (cells pins : List Bool) (s : State) : exec (.jtagExtest cells pins) s = execJtagExtest cells pins s := rfl
@[simp] theorem exec_jtagSamplePreload (cells pins : List Bool) (s : State) : exec (.jtagSamplePreload cells pins) s = execJtagSamplePreload cells pins s := rfl
@[simp] theorem exec_jtagIdcode (s : State) : exec (.jtagIdcode) s = execJtagIdcode s := rfl
@[simp] theorem exec_jtagClamp (s : State) : exec (.jtagClamp) s = execJtagClamp s := rfl
@[simp] theorem exec_jtagHighz (s : State) : exec (.jtagHighz) s = execJtagHighz s := rfl
@[simp] theorem exec_jtagExtestPulse (cells pins : List Bool) (s : State) : exec (.jtagExtestPulse cells pins) s = execJtagExtestPulse cells pins s := rfl
@[simp] theorem exec_jtagExtestTrain (cells pins : List Bool) (s : State) : exec (.jtagExtestTrain cells pins) s = execJtagExtestTrain cells pins s := rfl
@[simp] theorem exec_jtagBypass (s : State) : exec (.jtagBypass) s = execJtagBypass s := rfl
@[simp] theorem exec_instRead (space addr : Nat) (s : State) : exec (.instRead space addr) s = execInstRead space addr s := rfl
@[simp] theorem exec_instWrite (space addr data : Nat) (s : State) : exec (.instWrite space addr data) s = execInstWrite space addr data s := rfl
@[simp] theorem exec_instComplete (s : State) : exec (.instComplete) s = execInstComplete s := rfl
@[simp] theorem exec_bellClearPeak (w : Word) (s : State) : exec (.bellClearPeak w) s = execBellClearPeak w s := rfl
@[simp] theorem exec_bellOverrunClear (w : Word) (s : State) : exec (.bellOverrunClear w) s = execBellOverrunClear w s := rfl
@[simp] theorem exec_ariClearAll (w : Word) (s : State) : exec (.ariClearAll w) s = execAriClearAll w s := rfl
@[simp] theorem exec_ariFlagClear (port : Bool) (n : Nat) (x : ClearWrite) (s : State) : exec (.ariFlagClear port n x) s = execAriFlagClear port n x s := rfl
@[simp] theorem exec_memFaultClear (l : Nat) (x : ClearWrite) (s : State) : exec (.memFaultClear l x) s = execMemFaultClear l x s := rfl
@[simp] theorem exec_nbuTokenLimitWrite (w : Word) (s : State) : exec (.nbuTokenLimitWrite w) s = execNbuTokenLimitWrite w s := rfl
@[simp] theorem exec_nbuTokensClearPeak (w : Word) (s : State) : exec (.nbuTokensClearPeak w) s = execNbuTokensClearPeak w s := rfl
@[simp] theorem exec_trnAreaWrite (w : Word) (s : State) : exec (.trnAreaWrite w) s = execTrnAreaWrite w s := rfl
@[simp] theorem exec_trnPoolWrite (w : Word) (s : State) : exec (.trnPoolWrite w) s = execTrnPoolWrite w s := rfl
@[simp] theorem exec_trnFallbackWrite (lt : Nat) (w : Word) (s : State) : exec (.trnFallbackWrite lt w) s = execTrnFallbackWrite lt w s := rfl
@[simp] theorem exec_updShadowWrite (w : Word) (s : State) : exec (.updShadowWrite w) s = execUpdShadowWrite w s := rfl
@[simp] theorem exec_fabPartWrite (w : Word) (s : State) : exec (.fabPartWrite w) s = execFabPartWrite w s := rfl
@[simp] theorem exec_ringCfgWrite (a : Nat) (w : Word) (s : State) : exec (.ringCfgWrite a w) s = execRingCfgWrite a w s := rfl
@[simp] theorem exec_cplRingHeadWrite (q : Nat) (w : Word) (s : State) : exec (.cplRingHeadWrite q w) s = execCplRingHeadWrite q w s := rfl
@[simp] theorem exec_evtRingHeadWrite (e : Nat) (w : Word) (s : State) : exec (.evtRingHeadWrite e w) s = execEvtRingHeadWrite e w s := rfl
@[simp] theorem exec_throttleLimitWrite (w : Word) (s : State) : exec (.throttleLimitWrite w) s = execThrottleLimitWrite w s := rfl
@[simp] theorem exec_coolantDeclineClear (x : ClearWrite) (s : State) : exec (.coolantDeclineClear x) s = execCoolantDeclineClear x s := rfl
@[simp] theorem exec_crackSuspectClear (form : Nat) (x : ClearWrite) (s : State) : exec (.crackSuspectClear form x) s = execCrackSuspectClear form x s := rfl
@[simp] theorem exec_evacPendingClear (i : Nat) (x : ClearWrite) (s : State) : exec (.evacPendingClear i x) s = execEvacPendingClear i x s := rfl
@[simp] theorem exec_regAccessArmClear (x : ClearWrite) (s : State) : exec (.regAccessArmClear x) s = execRegAccessArmClear x s := rfl
@[simp] theorem exec_serviceStopClear (lt c : Nat) (x : ClearWrite) (s : State) : exec (.serviceStopClear lt c x) s = execServiceStopClear lt c x s := rfl
@[simp] theorem exec_loRegisterRead (req a : Nat) (s : State) : exec (.loRegisterRead req a) s = execLoRegisterRead req a s := rfl
@[simp] theorem exec_registerAccessError (a width : Nat) (write : Bool) (s : State) : exec (.registerAccessError a width write) s = execRegisterAccessError a width write s := rfl
@[simp] theorem exec_registerWrite (a width : Nat) (x : DataWrite) (s : State) : exec (.registerWrite a width x) s = execRegisterWrite a width x s := rfl
@[simp] theorem exec_referenceRegained (s : State) : exec (.referenceRegained) s = execReferenceRegained s := rfl
@[simp] theorem exec_mxlLaneTakeover (s : State) : exec (.mxlLaneTakeover) s = execMxlLaneTakeover s := rfl
@[simp] theorem exec_securityCommandDone (s : State) : exec (.securityCommandDone) s = execSecurityCommandDone s := rfl
@[simp] theorem exec_stopBoundElapsed (tag : Nat) (s : State) : exec (.stopBoundElapsed tag) s = execStopBoundElapsed tag s := rfl
@[simp] theorem exec_trstNAssert (s : State) : exec (.trstNAssert) s = execTrstNAssert s := rfl

/-! A flit and its parts. -/

@[simp] theorem rxFlit_of_parts (x : RxFlit) : RxFlit.of x.flit.toFlitHead x.flit.payload x.check = x := rfl
@[simp] theorem rxFlit_of_fields (x : RxFlit) : RxFlit.of x.flit.toFlitHead x.flit.payload ⟨x.flit.crc, x.corrected⟩ = x := rfl
@[simp] theorem rxFlit_eta (x : RxFlit) : RxFlit.mk x.flit x.corrected = x := rfl

/-! The answer of a module that has power. -/

theorem live_on {s t : State} (h : s.powered = true) : live s t = .next t := by unfold live; rw [if_pos h]

theorem live_off {s t : State} (h : s.powered = false) : live s t = .next s := by unfold live; rw [h]; rfl

theorem onCmd_accepted {s : State} {ring tag op : Nat} {c : Cmd} {f : State → Cmd → State} (h : Accepted s ring tag op c) :
    live s (s.onCmd ring tag op f) = .next (f s c) := by
  rw [live_on h.1]; unfold State.onCmd; rw [h.2.1]; dsimp only; rw [if_pos (by simp [h.2.2.1, h.2.2.2])]

theorem onActive_held {s : State} {ring tag op : Nat} {c : Cmd} {ph : CmdPhase} {f : State → Cmd → State}
    (h : Held s ring tag op c ph) : live s (s.onActive ring tag op f) = .next (f s c) := by
  rw [live_on h.1]; unfold State.onActive; rw [h.2.1]

end Sys2Proof.Machine
end

