-- ==== Sys2Proof/Laws/Kept.lean ====
section
/-! SUPPORT. What every meaning keeps: the queue, the variant, and registers and memories in canonical form. The laws of the
basic operations; the files KeptX hold one law for each definition of Machine/X. -/

namespace Sys2Proof.Machine

/-- The canonical form of the memories, as one fact. -/
def MemOk (m : MemSt) : Prop := Memory.canonical m

/-- The queue is q, the variant v, registers and memories are canonical. -/
structure Kept (q : List Instr) (v : Variant) (s : State) : Prop where
  pending : s.pending = q
  variant : s.variant = v
  regs : RegsCanonical s.regs
  mem : MemOk s.mem

/-- An outcome keeps these where it is a next state. -/
structure OutKept (q : List Instr) (v : Variant) (o : Host.Outcome State Fault Refusal) : Prop where
  keeps : ∀ t, o = .next t → Kept q v t

variable {q : List Instr} {v : Variant}

/-- An update of fields that the predicate does not speak of. -/
theorem Kept.upd_iff {e : State} (shadows : Tbl Word) (freeCtr : Nat) (cyc : Nat) (bell : BellSt) (map : LinkMap) (crs : Tbl Course) (groups : Tbl GroupSt) (tiles : Tbl TileSt) (cores : Tbl CoreSt) (chans : Tbl ChanSt) (layers : Tbl LayerSt) (mesh : MeshSt) (ports : Tbl PortSt) (remotes : List Remote) (svcWait : List SvcAcc) (nextSvcTag : Nat) (mxl : MxlSt) (cmds : List Cmd) (done : List DoneCmd) (skips : List (Nat × Nat)) (lastRing : Nat) (lastRun : Nat) (fences : List Nat) (evRings : Tbl EvRing) (stop : Option StopSt) (energy : EnergySt) (clock : ClockSt) (power : PowerSt) (stored : Option StoredCause) (ariAt : Nat × Nat) (therm : ThermalSt) (bring : BringSt) (sec : SecSt) (mgmt : MgmtSt) (out : List Out) :
    Kept q v { regs := e.regs, shadows := shadows, mem := e.mem, freeCtr := freeCtr, variant := e.variant, cyc := cyc, bell := bell, map := map, crs := crs, groups := groups, tiles := tiles, cores := cores, chans := chans, layers := layers, mesh := mesh, ports := ports, remotes := remotes, svcWait := svcWait, nextSvcTag := nextSvcTag, mxl := mxl, cmds := cmds, done := done, skips := skips, lastRing := lastRing, lastRun := lastRun, fences := fences, evRings := evRings, stop := stop, energy := energy, clock := clock, power := power, stored := stored, ariAt := ariAt, therm := therm, bring := bring, sec := sec, mgmt := mgmt, out := out, pending := e.pending } ↔ Kept q v e :=
  ⟨fun h => ⟨h.pending, h.variant, h.regs, h.mem⟩, fun h => ⟨h.pending, h.variant, h.regs, h.mem⟩⟩

/-- The same with another memory. -/
theorem Kept.updMem_iff {e : State} {m : MemSt} (shadows : Tbl Word) (freeCtr : Nat) (cyc : Nat) (bell : BellSt) (map : LinkMap) (crs : Tbl Course) (groups : Tbl GroupSt) (tiles : Tbl TileSt) (cores : Tbl CoreSt) (chans : Tbl ChanSt) (layers : Tbl LayerSt) (mesh : MeshSt) (ports : Tbl PortSt) (remotes : List Remote) (svcWait : List SvcAcc) (nextSvcTag : Nat) (mxl : MxlSt) (cmds : List Cmd) (done : List DoneCmd) (skips : List (Nat × Nat)) (lastRing : Nat) (lastRun : Nat) (fences : List Nat) (evRings : Tbl EvRing) (stop : Option StopSt) (energy : EnergySt) (clock : ClockSt) (power : PowerSt) (stored : Option StoredCause) (ariAt : Nat × Nat) (therm : ThermalSt) (bring : BringSt) (sec : SecSt) (mgmt : MgmtSt) (out : List Out) :
    Kept q v { regs := e.regs, shadows := shadows, mem := m, freeCtr := freeCtr, variant := e.variant, cyc := cyc, bell := bell, map := map, crs := crs, groups := groups, tiles := tiles, cores := cores, chans := chans, layers := layers, mesh := mesh, ports := ports, remotes := remotes, svcWait := svcWait, nextSvcTag := nextSvcTag, mxl := mxl, cmds := cmds, done := done, skips := skips, lastRing := lastRing, lastRun := lastRun, fences := fences, evRings := evRings, stop := stop, energy := energy, clock := clock, power := power, stored := stored, ariAt := ariAt, therm := therm, bring := bring, sec := sec, mgmt := mgmt, out := out, pending := e.pending } ↔ e.pending = q ∧ e.variant = v ∧ RegsCanonical e.regs ∧ MemOk m :=
  ⟨fun h => ⟨h.pending, h.variant, h.regs, h.mem⟩, fun h => ⟨h.1, h.2.1, h.2.2.1, h.2.2.2⟩⟩

theorem keptM {e : State} {m : MemSt} (h : Kept q v e) (hm : MemOk m) :
    e.pending = q ∧ e.variant = v ∧ RegsCanonical e.regs ∧ MemOk m := ⟨h.pending, h.variant, h.regs, hm⟩

theorem kept_snd {α : Type} {a : α} {t : State} {p : α × State} (e : p = (a, t)) (h : Kept q v p.2) : Kept q v t := by
  subst e; exact h

/-- The same of an answer that may be none. -/
structure OptKept (q : List Instr) (v : Variant) (o : Option State) : Prop where
  keeps : ∀ t, o = some t → Kept q v t

theorem optKept_some {t : State} (h : Kept q v t) : OptKept q v (some t) := ⟨by intro u e; cases e; exact h⟩

theorem optKept_none : OptKept q v none := ⟨by intro u e; cases e⟩

theorem regsCanonical_reset : RegsCanonical State.reset.regs := ⟨List.Pairwise.nil, fun _ h => nomatch h⟩

theorem memory_canonical_undef (n : Nat) :
    MemOk { MemSt.reset with undef := (List.range 256).map (fun lt => (lt, n + lt * 2 ^ 30)) } :=
  have h := canonical_reset
  ⟨h.1, h.2.1, h.2.2.1, h.2.2.2.1, h.2.2.2.2.1, h.2.2.2.2.2.1, h.2.2.2.2.2.2.1, h.2.2.2.2.2.2.2.1, rising_range_map 256 (fun lt => n + lt * 2 ^ 30),
    h.2.2.2.2.2.2.2.2.2.1, h.2.2.2.2.2.2.2.2.2.2.1, h.2.2.2.2.2.2.2.2.2.2.2.1, h.2.2.2.2.2.2.2.2.2.2.2.2⟩

theorem memOk_memPut {m : MemSt} (h : MemOk m) (a : Nat) (b : Byte) : MemOk (memPut m a b) :=
  canonical_memPut h a b

theorem memOk_memWrite {m : MemSt} (h : MemOk m) (a : Nat) (l : List Byte) : MemOk (memWrite m a l) :=
  canonical_memWrite h a l

theorem memOk_setSlotPoison {m : MemSt} (h : MemOk m) (k : Nat) (b : Bool) : MemOk (setSlotPoison m k b) :=
  canonical_setSlotPoison h k b

theorem memOk_setSlotEmpty {m : MemSt} (h : MemOk m) (k : Nat) (b : Bool) : MemOk (setSlotEmpty m k b) :=
  canonical_setSlotEmpty h k b

theorem memOk_tbStoreBytes {m : MemSt} (h : MemOk m) (a : Nat) (l : List Byte) : MemOk (tbStoreBytes m a l) :=
  canonical_tbStoreBytes h a l

theorem memOk_tbWrite {m : MemSt} (h : MemOk m) (lt off : Nat) (d : List Byte) (p : List Bool) (tag : Nat) : MemOk (tbWrite m lt off d p tag) :=
  canonical_tbWrite h lt off d p tag

theorem memOk_spoilUse {m : MemSt} (h : MemOk m) (u : SliceUse) (free : Nat) : MemOk (spoilUse m u free) :=
  canonical_spoilUse h u free

theorem memOk_tbUndo {m : MemSt} (h : MemOk m) (u : SliceUse) : MemOk (tbUndo m u) := canonical_tbUndo h u

theorem memOk_tbClear {m : MemSt} (h : MemOk m) (lt : Nat) : MemOk (tbClear m lt) :=
  canonical_tbClear h lt

theorem memOk_lkStore {m : MemSt} (h : MemOk m) (a w : Nat) (p : Bool) : MemOk (lkStore m a w p) :=
  canonical_lkStore h a w p

theorem memOk_lmStore {m : MemSt} (h : MemOk m) (a w : Nat) (p : Bool) : MemOk (lmStore m a w p) :=
  canonical_lmStore h a w p

theorem memOk_lmStoreBytes {m : MemSt} (h : MemOk m) (a : Nat) (d : List Byte) (p : Bool) : MemOk (lmStoreBytes m a d p) :=
  canonical_lmStoreBytes h a d p

theorem memOk_lmClear {m : MemSt} (h : MemOk m) (core lo hi : Nat) : MemOk (lmClear m core lo hi) :=
  canonical_lmClear h core lo hi

theorem memOk_loseLockers {m : MemSt} (h : MemOk m) (lt k : Nat) (keep : Bool) : MemOk (loseLockers m lt k keep) :=
  canonical_loseLockers h lt k keep

theorem memOk_fetchLockers {m : MemSt} (h : MemOk m) (lt : Nat) : MemOk (fetchLockers m lt) :=
  canonical_fetchLockers h lt

theorem memOk_resetMem {m : MemSt} (h : MemOk m) : MemOk (resetMem m) :=
  canonical_resetMem h

theorem canonical_withRb {m : MemSt} {t : Tbl Nat} (h : MemOk m) (ht : Canonical t 0) :
    MemOk { m with rbPoison := t } :=
  ⟨h.1, h.2.1, h.2.2.1, h.2.2.2.1, h.2.2.2.2.1, h.2.2.2.2.2.1, h.2.2.2.2.2.2.1, ht, h.2.2.2.2.2.2.2.2.1,
    h.2.2.2.2.2.2.2.2.2.1, h.2.2.2.2.2.2.2.2.2.2.1, h.2.2.2.2.2.2.2.2.2.2.2.1, h.2.2.2.2.2.2.2.2.2.2.2.2⟩

theorem canonical_withCc {m : MemSt} {t : Tbl Byte} (h : MemOk m) (ht : Canonical t 0) :
    MemOk { m with cc := t } :=
  ⟨h.1, h.2.1, h.2.2.1, h.2.2.2.1, h.2.2.2.2.1, h.2.2.2.2.2.1, h.2.2.2.2.2.2.1, h.2.2.2.2.2.2.2.1, h.2.2.2.2.2.2.2.2.1,
    h.2.2.2.2.2.2.2.2.2.1, h.2.2.2.2.2.2.2.2.2.2.1, h.2.2.2.2.2.2.2.2.2.2.2.1, ht⟩

theorem canonical_rb {m : MemSt} (h : MemOk m) : Canonical m.rbPoison 0 := h.2.2.2.2.2.2.2.1

theorem canonical_cc {m : MemSt} (h : MemOk m) : Canonical m.cc 0 := h.2.2.2.2.2.2.2.2.2.2.2.2

theorem id_kept {s : State} (h : Kept q v s) : Kept q v (id s) := h

theorem ite_kept {c : Prop} [Decidable c] {a b : State} (ha : Kept q v a) (hb : Kept q v b) :
    Kept q v (if c then a else b) := by
  split
  · exact ha
  · exact hb

theorem ite_snd_kept {α : Type} {c : Prop} [Decidable c] {a b : α × State} (ha : Kept q v a.2) (hb : Kept q v b.2) :
    Kept q v (if c then a else b).2 := by
  split
  · exact ha
  · exact hb

theorem ite_memOk {c : Prop} [Decidable c] {a b : MemSt} (ha : MemOk a) (hb : MemOk b) : MemOk (if c then a else b) := by
  split
  · exact ha
  · exact hb

theorem forEach_kept {α : Type} {l : List α} {s : State} {f : State → α → State}
    (hf : ∀ s x, Kept q v s → Kept q v (f s x)) (h : Kept q v s) : Kept q v (forEach l s f) :=
  foldl_keeps l hf h

theorem foldl_kept {α : Type} {l : List α} {s : State} {f : State → α → State}
    (hf : ∀ s x, Kept q v s → Kept q v (f s x)) (h : Kept q v s) : Kept q v (l.foldl f s) :=
  foldl_keeps l hf h

theorem foldl_snd_kept {α β : Type} {l : List α} {p : β × State} {f : β × State → α → β × State}
    (hf : ∀ (p : β × State) x, Kept q v p.2 → Kept q v (f p x).2) (h : Kept q v p.2) : Kept q v (l.foldl f p).2 :=
  foldl_keeps (P := fun (p : β × State) => Kept q v p.2) l hf h

theorem forEach_canonical {α : Type} {l : List α} {m : MemSt} {f : MemSt → α → MemSt}
    (hf : ∀ m x, MemOk m → MemOk (f m x)) (h : MemOk m) :
    MemOk (forEach l m f) := foldl_keeps l hf h

theorem foldl_canonical {α : Type} {l : List α} {m : MemSt} {f : MemSt → α → MemSt}
    (hf : ∀ m x, MemOk m → MemOk (f m x)) (h : MemOk m) :
    MemOk (l.foldl f m) := foldl_keeps l hf h

theorem live_kept {s t : State} (h : Kept q v s) (h' : Kept q v t) : OutKept q v (live s t) := by
  refine ⟨?_⟩; intro u e; unfold live at e; split at e <;> cases e
  · exact h'
  · exact h

theorem next_kept {t : State} (h : Kept q v t) : OutKept q v (.next t) := ⟨by intro u e; cases e; exact h⟩

theorem State.setReg_kept {s : State} {a : Nat} {w : Word} (h : Kept q v s) : Kept q v (s.setReg a w) :=
  ⟨h.pending, h.variant, regsCanonical_tset h.regs a w, h.mem⟩

end Sys2Proof.Machine
end

