-- ==== Sys2Proof/Laws/KeptOps.lean ====
section
/-! SUPPORT. Every definition of Machine/Ops keeps the queue, the variant and the canonical forms. -/

namespace Sys2Proof.Machine

set_option linter.all false

variable {q : List Instr} {v : Variant}

theorem State.setF_kept {q_ : List Instr} {v_ : Variant} (s : State) (a : Nat) (f : Fld) (v : Nat)  (h0 : Kept q_ v_ s) : Kept q_ v_ (State.setF s a f v) := by
  unfold State.setF
  repeat' (first | (with_reducible assumption) | (with_reducible apply State.setReg_kept) | intro _ | (with_reducible apply forEach_kept) | (with_reducible apply foldl_kept) | (with_reducible apply foldl_snd_kept) | (with_reducible apply forEach_canonical) | (with_reducible apply foldl_canonical) | (with_reducible refine Kept.mem (q := q_) (v := v_) ?_) | (with_reducible refine kept_snd (by assumption) ?_) | (with_reducible apply ite_kept) | (with_reducible apply id_kept) | (with_reducible apply ite_snd_kept) | (with_reducible apply ite_memOk) | (unfold x; clear x) | (simp -zeta only [Kept.upd_iff]) | (extract_lets +onlyGivenNames x; have hx : Kept q_ v_ x := ?_; try clear_value x) | (extract_lets +onlyGivenNames x; have hx : Kept q_ v_ x.2 := ?_; try clear_value x) | (with_reducible apply hf) | (extract_lets +onlyGivenNames x; have hf : ∀ s, Kept q_ v_ s → Kept q_ v_ (x s) := ?_; try clear_value x) | (extract_lets +onlyGivenNames x; have hf : ∀ s a, Kept q_ v_ s → Kept q_ v_ (x s a) := ?_; try clear_value x) | (extract_lets +onlyGivenNames x; have hx : MemOk x := ?_; try clear_value x) | (extract_lets +onlyGivenNames x; try clear_value x) | split | (with_reducible apply optKept_some) | (with_reducible apply next_kept) | (with_reducible exact optKept_none) | (simp -zeta only [Kept.updMem_iff]) | (with_reducible apply keptM) | (with_reducible apply canonical_withRb) | (with_reducible apply canonical_withCc) | (with_reducible apply canonical_foldl_tset) | (with_reducible apply canonical_tdel) | (with_reducible refine canonical_rb (Kept.mem (q := q_) (v := v_) ?_)) | (with_reducible apply canonical_rb) | (with_reducible refine canonical_cc (Kept.mem (q := q_) (v := v_) ?_)))

theorem State.setB_kept (s : State) (a : Nat) (f : Fld) (b : Bool)  (h0 : Kept q v s) : Kept q v (State.setB s a f b) := by
  unfold State.setB
  repeat' (first | (with_reducible assumption) | (with_reducible apply State.setF_kept) | intro _ | (with_reducible apply forEach_kept) | (with_reducible apply foldl_kept) | (with_reducible apply foldl_snd_kept) | (with_reducible apply forEach_canonical) | (with_reducible apply foldl_canonical) | (with_reducible refine Kept.mem (q := q) (v := v) ?_) | (with_reducible refine kept_snd (by assumption) ?_) | (with_reducible apply ite_kept) | (with_reducible apply id_kept) | (with_reducible apply ite_snd_kept) | (with_reducible apply ite_memOk) | (unfold x; clear x) | (simp -zeta only [Kept.upd_iff]) | (extract_lets +onlyGivenNames x; have hx : Kept q v x := ?_; try clear_value x) | (extract_lets +onlyGivenNames x; have hx : Kept q v x.2 := ?_; try clear_value x) | (with_reducible apply hf) | (extract_lets +onlyGivenNames x; have hf : ∀ s, Kept q v s → Kept q v (x s) := ?_; try clear_value x) | (extract_lets +onlyGivenNames x; have hf : ∀ s a, Kept q v s → Kept q v (x s a) := ?_; try clear_value x) | (extract_lets +onlyGivenNames x; have hx : MemOk x := ?_; try clear_value x) | (extract_lets +onlyGivenNames x; try clear_value x) | split | (with_reducible apply optKept_some) | (with_reducible apply next_kept) | (with_reducible exact optKept_none) | (simp -zeta only [Kept.updMem_iff]) | (with_reducible apply keptM) | (with_reducible apply canonical_withRb) | (with_reducible apply canonical_withCc) | (with_reducible apply canonical_foldl_tset) | (with_reducible apply canonical_tdel) | (with_reducible refine canonical_rb (Kept.mem (q := q) (v := v) ?_)) | (with_reducible apply canonical_rb) | (with_reducible refine canonical_cc (Kept.mem (q := q) (v := v) ?_)))

theorem State.incF_kept (s : State) (a : Nat) (f : Fld) (n : Nat)  (h0 : Kept q v s) : Kept q v (State.incF s a f n) := by
  unfold State.incF
  repeat' (first | (with_reducible assumption) | (with_reducible apply State.setF_kept) | intro _ | (with_reducible apply forEach_kept) | (with_reducible apply foldl_kept) | (with_reducible apply foldl_snd_kept) | (with_reducible apply forEach_canonical) | (with_reducible apply foldl_canonical) | (with_reducible refine Kept.mem (q := q) (v := v) ?_) | (with_reducible refine kept_snd (by assumption) ?_) | (with_reducible apply ite_kept) | (with_reducible apply id_kept) | (with_reducible apply ite_snd_kept) | (with_reducible apply ite_memOk) | (unfold x; clear x) | (simp -zeta only [Kept.upd_iff]) | (extract_lets +onlyGivenNames x; have hx : Kept q v x := ?_; try clear_value x) | (extract_lets +onlyGivenNames x; have hx : Kept q v x.2 := ?_; try clear_value x) | (with_reducible apply hf) | (extract_lets +onlyGivenNames x; have hf : ∀ s, Kept q v s → Kept q v (x s) := ?_; try clear_value x) | (extract_lets +onlyGivenNames x; have hf : ∀ s a, Kept q v s → Kept q v (x s a) := ?_; try clear_value x) | (extract_lets +onlyGivenNames x; have hx : MemOk x := ?_; try clear_value x) | (extract_lets +onlyGivenNames x; try clear_value x) | split | (with_reducible apply optKept_some) | (with_reducible apply next_kept) | (with_reducible exact optKept_none) | (simp -zeta only [Kept.updMem_iff]) | (with_reducible apply keptM) | (with_reducible apply canonical_withRb) | (with_reducible apply canonical_withCc) | (with_reducible apply canonical_foldl_tset) | (with_reducible apply canonical_tdel) | (with_reducible refine canonical_rb (Kept.mem (q := q) (v := v) ?_)) | (with_reducible apply canonical_rb) | (with_reducible refine canonical_cc (Kept.mem (q := q) (v := v) ?_)))

theorem State.setPair_kept {q_ : List Instr} {v_ : Variant} (s : State) (lo : Nat) (v : Nat)  (h0 : Kept q_ v_ s) : Kept q_ v_ (State.setPair s lo v) := by
  unfold State.setPair
  repeat' (first | (with_reducible assumption) | (with_reducible apply State.setReg_kept) | intro _ | (with_reducible apply forEach_kept) | (with_reducible apply foldl_kept) | (with_reducible apply foldl_snd_kept) | (with_reducible apply forEach_canonical) | (with_reducible apply foldl_canonical) | (with_reducible refine Kept.mem (q := q_) (v := v_) ?_) | (with_reducible refine kept_snd (by assumption) ?_) | (with_reducible apply ite_kept) | (with_reducible apply id_kept) | (with_reducible apply ite_snd_kept) | (with_reducible apply ite_memOk) | (unfold x; clear x) | (simp -zeta only [Kept.upd_iff]) | (extract_lets +onlyGivenNames x; have hx : Kept q_ v_ x := ?_; try clear_value x) | (extract_lets +onlyGivenNames x; have hx : Kept q_ v_ x.2 := ?_; try clear_value x) | (with_reducible apply hf) | (extract_lets +onlyGivenNames x; have hf : ∀ s, Kept q_ v_ s → Kept q_ v_ (x s) := ?_; try clear_value x) | (extract_lets +onlyGivenNames x; have hf : ∀ s a, Kept q_ v_ s → Kept q_ v_ (x s a) := ?_; try clear_value x) | (extract_lets +onlyGivenNames x; have hx : MemOk x := ?_; try clear_value x) | (extract_lets +onlyGivenNames x; try clear_value x) | split | (with_reducible apply optKept_some) | (with_reducible apply next_kept) | (with_reducible exact optKept_none) | (simp -zeta only [Kept.updMem_iff]) | (with_reducible apply keptM) | (with_reducible apply canonical_withRb) | (with_reducible apply canonical_withCc) | (with_reducible apply canonical_foldl_tset) | (with_reducible apply canonical_tdel) | (with_reducible refine canonical_rb (Kept.mem (q := q_) (v := v_) ?_)) | (with_reducible apply canonical_rb) | (with_reducible refine canonical_cc (Kept.mem (q := q_) (v := v_) ?_)))

theorem State.drawn_kept (s : State) (n : Nat)  (h0 : Kept q v s) : Kept q v (State.drawn s n) := by
  unfold State.drawn
  repeat' (first | (with_reducible assumption) | intro _ | (with_reducible apply forEach_kept) | (with_reducible apply foldl_kept) | (with_reducible apply foldl_snd_kept) | (with_reducible apply forEach_canonical) | (with_reducible apply foldl_canonical) | (with_reducible refine Kept.mem (q := q) (v := v) ?_) | (with_reducible refine kept_snd (by assumption) ?_) | (with_reducible apply ite_kept) | (with_reducible apply id_kept) | (with_reducible apply ite_snd_kept) | (with_reducible apply ite_memOk) | (unfold x; clear x) | (simp -zeta only [Kept.upd_iff]) | (extract_lets +onlyGivenNames x; have hx : Kept q v x := ?_; try clear_value x) | (extract_lets +onlyGivenNames x; have hx : Kept q v x.2 := ?_; try clear_value x) | (with_reducible apply hf) | (extract_lets +onlyGivenNames x; have hf : ∀ s, Kept q v s → Kept q v (x s) := ?_; try clear_value x) | (extract_lets +onlyGivenNames x; have hf : ∀ s a, Kept q v s → Kept q v (x s a) := ?_; try clear_value x) | (extract_lets +onlyGivenNames x; have hx : MemOk x := ?_; try clear_value x) | (extract_lets +onlyGivenNames x; try clear_value x) | split | (with_reducible apply optKept_some) | (with_reducible apply next_kept) | (with_reducible exact optKept_none) | (simp -zeta only [Kept.updMem_iff]) | (with_reducible apply keptM) | (with_reducible apply canonical_withRb) | (with_reducible apply canonical_withCc) | (with_reducible apply canonical_foldl_tset) | (with_reducible apply canonical_tdel) | (with_reducible refine canonical_rb (Kept.mem (q := q) (v := v) ?_)) | (with_reducible apply canonical_rb) | (with_reducible refine canonical_cc (Kept.mem (q := q) (v := v) ?_)))

theorem State.setCourseState_kept {q_ : List Instr} {v_ : Variant} (s : State) (p : Nat) (v : Nat)  (h0 : Kept q_ v_ s) : Kept q_ v_ (State.setCourseState s p v) := by
  unfold State.setCourseState
  repeat' (first | (with_reducible assumption) | (with_reducible apply State.setF_kept) | (with_reducible apply State.setB_kept) | intro _ | (with_reducible apply forEach_kept) | (with_reducible apply foldl_kept) | (with_reducible apply foldl_snd_kept) | (with_reducible apply forEach_canonical) | (with_reducible apply foldl_canonical) | (with_reducible refine Kept.mem (q := q_) (v := v_) ?_) | (with_reducible refine kept_snd (by assumption) ?_) | (with_reducible apply ite_kept) | (with_reducible apply id_kept) | (with_reducible apply ite_snd_kept) | (with_reducible apply ite_memOk) | (unfold x; clear x) | (simp -zeta only [Kept.upd_iff]) | (extract_lets +onlyGivenNames x; have hx : Kept q_ v_ x := ?_; try clear_value x) | (extract_lets +onlyGivenNames x; have hx : Kept q_ v_ x.2 := ?_; try clear_value x) | (with_reducible apply hf) | (extract_lets +onlyGivenNames x; have hf : ∀ s, Kept q_ v_ s → Kept q_ v_ (x s) := ?_; try clear_value x) | (extract_lets +onlyGivenNames x; have hf : ∀ s a, Kept q_ v_ s → Kept q_ v_ (x s a) := ?_; try clear_value x) | (extract_lets +onlyGivenNames x; have hx : MemOk x := ?_; try clear_value x) | (extract_lets +onlyGivenNames x; try clear_value x) | split | (with_reducible apply optKept_some) | (with_reducible apply next_kept) | (with_reducible exact optKept_none) | (simp -zeta only [Kept.updMem_iff]) | (with_reducible apply keptM) | (with_reducible apply canonical_withRb) | (with_reducible apply canonical_withCc) | (with_reducible apply canonical_foldl_tset) | (with_reducible apply canonical_tdel) | (with_reducible refine canonical_rb (Kept.mem (q := q_) (v := v_) ?_)) | (with_reducible apply canonical_rb) | (with_reducible refine canonical_cc (Kept.mem (q := q_) (v := v_) ?_)))

theorem State.modCrs_kept (s : State) (p : Nat) (f : Course → Course)  (h0 : Kept q v s) : Kept q v (State.modCrs s p f) := by
  unfold State.modCrs
  repeat' (first | (with_reducible assumption) | intro _ | (with_reducible apply forEach_kept) | (with_reducible apply foldl_kept) | (with_reducible apply foldl_snd_kept) | (with_reducible apply forEach_canonical) | (with_reducible apply foldl_canonical) | (with_reducible refine Kept.mem (q := q) (v := v) ?_) | (with_reducible refine kept_snd (by assumption) ?_) | (with_reducible apply ite_kept) | (with_reducible apply id_kept) | (with_reducible apply ite_snd_kept) | (with_reducible apply ite_memOk) | (unfold x; clear x) | (simp -zeta only [Kept.upd_iff]) | (extract_lets +onlyGivenNames x; have hx : Kept q v x := ?_; try clear_value x) | (extract_lets +onlyGivenNames x; have hx : Kept q v x.2 := ?_; try clear_value x) | (with_reducible apply hf) | (extract_lets +onlyGivenNames x; have hf : ∀ s, Kept q v s → Kept q v (x s) := ?_; try clear_value x) | (extract_lets +onlyGivenNames x; have hf : ∀ s a, Kept q v s → Kept q v (x s a) := ?_; try clear_value x) | (extract_lets +onlyGivenNames x; have hx : MemOk x := ?_; try clear_value x) | (extract_lets +onlyGivenNames x; try clear_value x) | split | (with_reducible apply optKept_some) | (with_reducible apply next_kept) | (with_reducible exact optKept_none) | (simp -zeta only [Kept.updMem_iff]) | (with_reducible apply keptM) | (with_reducible apply canonical_withRb) | (with_reducible apply canonical_withCc) | (with_reducible apply canonical_foldl_tset) | (with_reducible apply canonical_tdel) | (with_reducible refine canonical_rb (Kept.mem (q := q) (v := v) ?_)) | (with_reducible apply canonical_rb) | (with_reducible refine canonical_cc (Kept.mem (q := q) (v := v) ?_)))

theorem State.modTile_kept (s : State) (n : Nat) (f : TileSt → TileSt)  (h0 : Kept q v s) : Kept q v (State.modTile s n f) := by
  unfold State.modTile
  repeat' (first | (with_reducible assumption) | intro _ | (with_reducible apply forEach_kept) | (with_reducible apply foldl_kept) | (with_reducible apply foldl_snd_kept) | (with_reducible apply forEach_canonical) | (with_reducible apply foldl_canonical) | (with_reducible refine Kept.mem (q := q) (v := v) ?_) | (with_reducible refine kept_snd (by assumption) ?_) | (with_reducible apply ite_kept) | (with_reducible apply id_kept) | (with_reducible apply ite_snd_kept) | (with_reducible apply ite_memOk) | (unfold x; clear x) | (simp -zeta only [Kept.upd_iff]) | (extract_lets +onlyGivenNames x; have hx : Kept q v x := ?_; try clear_value x) | (extract_lets +onlyGivenNames x; have hx : Kept q v x.2 := ?_; try clear_value x) | (with_reducible apply hf) | (extract_lets +onlyGivenNames x; have hf : ∀ s, Kept q v s → Kept q v (x s) := ?_; try clear_value x) | (extract_lets +onlyGivenNames x; have hf : ∀ s a, Kept q v s → Kept q v (x s a) := ?_; try clear_value x) | (extract_lets +onlyGivenNames x; have hx : MemOk x := ?_; try clear_value x) | (extract_lets +onlyGivenNames x; try clear_value x) | split | (with_reducible apply optKept_some) | (with_reducible apply next_kept) | (with_reducible exact optKept_none) | (simp -zeta only [Kept.updMem_iff]) | (with_reducible apply keptM) | (with_reducible apply canonical_withRb) | (with_reducible apply canonical_withCc) | (with_reducible apply canonical_foldl_tset) | (with_reducible apply canonical_tdel) | (with_reducible refine canonical_rb (Kept.mem (q := q) (v := v) ?_)) | (with_reducible apply canonical_rb) | (with_reducible refine canonical_cc (Kept.mem (q := q) (v := v) ?_)))

theorem State.modCore_kept (s : State) (n : Nat) (f : CoreSt → CoreSt)  (h0 : Kept q v s) : Kept q v (State.modCore s n f) := by
  unfold State.modCore
  repeat' (first | (with_reducible assumption) | intro _ | (with_reducible apply forEach_kept) | (with_reducible apply foldl_kept) | (with_reducible apply foldl_snd_kept) | (with_reducible apply forEach_canonical) | (with_reducible apply foldl_canonical) | (with_reducible refine Kept.mem (q := q) (v := v) ?_) | (with_reducible refine kept_snd (by assumption) ?_) | (with_reducible apply ite_kept) | (with_reducible apply id_kept) | (with_reducible apply ite_snd_kept) | (with_reducible apply ite_memOk) | (unfold x; clear x) | (simp -zeta only [Kept.upd_iff]) | (extract_lets +onlyGivenNames x; have hx : Kept q v x := ?_; try clear_value x) | (extract_lets +onlyGivenNames x; have hx : Kept q v x.2 := ?_; try clear_value x) | (with_reducible apply hf) | (extract_lets +onlyGivenNames x; have hf : ∀ s, Kept q v s → Kept q v (x s) := ?_; try clear_value x) | (extract_lets +onlyGivenNames x; have hf : ∀ s a, Kept q v s → Kept q v (x s a) := ?_; try clear_value x) | (extract_lets +onlyGivenNames x; have hx : MemOk x := ?_; try clear_value x) | (extract_lets +onlyGivenNames x; try clear_value x) | split | (with_reducible apply optKept_some) | (with_reducible apply next_kept) | (with_reducible exact optKept_none) | (simp -zeta only [Kept.updMem_iff]) | (with_reducible apply keptM) | (with_reducible apply canonical_withRb) | (with_reducible apply canonical_withCc) | (with_reducible apply canonical_foldl_tset) | (with_reducible apply canonical_tdel) | (with_reducible refine canonical_rb (Kept.mem (q := q) (v := v) ?_)) | (with_reducible apply canonical_rb) | (with_reducible refine canonical_cc (Kept.mem (q := q) (v := v) ?_)))

theorem State.modChan_kept (s : State) (n : Nat) (f : ChanSt → ChanSt)  (h0 : Kept q v s) : Kept q v (State.modChan s n f) := by
  unfold State.modChan
  repeat' (first | (with_reducible assumption) | intro _ | (with_reducible apply forEach_kept) | (with_reducible apply foldl_kept) | (with_reducible apply foldl_snd_kept) | (with_reducible apply forEach_canonical) | (with_reducible apply foldl_canonical) | (with_reducible refine Kept.mem (q := q) (v := v) ?_) | (with_reducible refine kept_snd (by assumption) ?_) | (with_reducible apply ite_kept) | (with_reducible apply id_kept) | (with_reducible apply ite_snd_kept) | (with_reducible apply ite_memOk) | (unfold x; clear x) | (simp -zeta only [Kept.upd_iff]) | (extract_lets +onlyGivenNames x; have hx : Kept q v x := ?_; try clear_value x) | (extract_lets +onlyGivenNames x; have hx : Kept q v x.2 := ?_; try clear_value x) | (with_reducible apply hf) | (extract_lets +onlyGivenNames x; have hf : ∀ s, Kept q v s → Kept q v (x s) := ?_; try clear_value x) | (extract_lets +onlyGivenNames x; have hf : ∀ s a, Kept q v s → Kept q v (x s a) := ?_; try clear_value x) | (extract_lets +onlyGivenNames x; have hx : MemOk x := ?_; try clear_value x) | (extract_lets +onlyGivenNames x; try clear_value x) | split | (with_reducible apply optKept_some) | (with_reducible apply next_kept) | (with_reducible exact optKept_none) | (simp -zeta only [Kept.updMem_iff]) | (with_reducible apply keptM) | (with_reducible apply canonical_withRb) | (with_reducible apply canonical_withCc) | (with_reducible apply canonical_foldl_tset) | (with_reducible apply canonical_tdel) | (with_reducible refine canonical_rb (Kept.mem (q := q) (v := v) ?_)) | (with_reducible apply canonical_rb) | (with_reducible refine canonical_cc (Kept.mem (q := q) (v := v) ?_)))

theorem State.modLayer_kept (s : State) (l : Nat) (f : LayerSt → LayerSt)  (h0 : Kept q v s) : Kept q v (State.modLayer s l f) := by
  unfold State.modLayer
  repeat' (first | (with_reducible assumption) | intro _ | (with_reducible apply forEach_kept) | (with_reducible apply foldl_kept) | (with_reducible apply foldl_snd_kept) | (with_reducible apply forEach_canonical) | (with_reducible apply foldl_canonical) | (with_reducible refine Kept.mem (q := q) (v := v) ?_) | (with_reducible refine kept_snd (by assumption) ?_) | (with_reducible apply ite_kept) | (with_reducible apply id_kept) | (with_reducible apply ite_snd_kept) | (with_reducible apply ite_memOk) | (unfold x; clear x) | (simp -zeta only [Kept.upd_iff]) | (extract_lets +onlyGivenNames x; have hx : Kept q v x := ?_; try clear_value x) | (extract_lets +onlyGivenNames x; have hx : Kept q v x.2 := ?_; try clear_value x) | (with_reducible apply hf) | (extract_lets +onlyGivenNames x; have hf : ∀ s, Kept q v s → Kept q v (x s) := ?_; try clear_value x) | (extract_lets +onlyGivenNames x; have hf : ∀ s a, Kept q v s → Kept q v (x s a) := ?_; try clear_value x) | (extract_lets +onlyGivenNames x; have hx : MemOk x := ?_; try clear_value x) | (extract_lets +onlyGivenNames x; try clear_value x) | split | (with_reducible apply optKept_some) | (with_reducible apply next_kept) | (with_reducible exact optKept_none) | (simp -zeta only [Kept.updMem_iff]) | (with_reducible apply keptM) | (with_reducible apply canonical_withRb) | (with_reducible apply canonical_withCc) | (with_reducible apply canonical_foldl_tset) | (with_reducible apply canonical_tdel) | (with_reducible refine canonical_rb (Kept.mem (q := q) (v := v) ?_)) | (with_reducible apply canonical_rb) | (with_reducible refine canonical_cc (Kept.mem (q := q) (v := v) ?_)))

theorem State.modGroup_kept (s : State) (p : Nat) (f : GroupSt → GroupSt)  (h0 : Kept q v s) : Kept q v (State.modGroup s p f) := by
  unfold State.modGroup
  repeat' (first | (with_reducible assumption) | intro _ | (with_reducible apply forEach_kept) | (with_reducible apply foldl_kept) | (with_reducible apply foldl_snd_kept) | (with_reducible apply forEach_canonical) | (with_reducible apply foldl_canonical) | (with_reducible refine Kept.mem (q := q) (v := v) ?_) | (with_reducible refine kept_snd (by assumption) ?_) | (with_reducible apply ite_kept) | (with_reducible apply id_kept) | (with_reducible apply ite_snd_kept) | (with_reducible apply ite_memOk) | (unfold x; clear x) | (simp -zeta only [Kept.upd_iff]) | (extract_lets +onlyGivenNames x; have hx : Kept q v x := ?_; try clear_value x) | (extract_lets +onlyGivenNames x; have hx : Kept q v x.2 := ?_; try clear_value x) | (with_reducible apply hf) | (extract_lets +onlyGivenNames x; have hf : ∀ s, Kept q v s → Kept q v (x s) := ?_; try clear_value x) | (extract_lets +onlyGivenNames x; have hf : ∀ s a, Kept q v s → Kept q v (x s a) := ?_; try clear_value x) | (extract_lets +onlyGivenNames x; have hx : MemOk x := ?_; try clear_value x) | (extract_lets +onlyGivenNames x; try clear_value x) | split | (with_reducible apply optKept_some) | (with_reducible apply next_kept) | (with_reducible exact optKept_none) | (simp -zeta only [Kept.updMem_iff]) | (with_reducible apply keptM) | (with_reducible apply canonical_withRb) | (with_reducible apply canonical_withCc) | (with_reducible apply canonical_foldl_tset) | (with_reducible apply canonical_tdel) | (with_reducible refine canonical_rb (Kept.mem (q := q) (v := v) ?_)) | (with_reducible apply canonical_rb) | (with_reducible refine canonical_cc (Kept.mem (q := q) (v := v) ?_)))

theorem State.modPort_kept (s : State) (p : Nat) (f : PortSt → PortSt)  (h0 : Kept q v s) : Kept q v (State.modPort s p f) := by
  unfold State.modPort
  repeat' (first | (with_reducible assumption) | intro _ | (with_reducible apply forEach_kept) | (with_reducible apply foldl_kept) | (with_reducible apply foldl_snd_kept) | (with_reducible apply forEach_canonical) | (with_reducible apply foldl_canonical) | (with_reducible refine Kept.mem (q := q) (v := v) ?_) | (with_reducible refine kept_snd (by assumption) ?_) | (with_reducible apply ite_kept) | (with_reducible apply id_kept) | (with_reducible apply ite_snd_kept) | (with_reducible apply ite_memOk) | (unfold x; clear x) | (simp -zeta only [Kept.upd_iff]) | (extract_lets +onlyGivenNames x; have hx : Kept q v x := ?_; try clear_value x) | (extract_lets +onlyGivenNames x; have hx : Kept q v x.2 := ?_; try clear_value x) | (with_reducible apply hf) | (extract_lets +onlyGivenNames x; have hf : ∀ s, Kept q v s → Kept q v (x s) := ?_; try clear_value x) | (extract_lets +onlyGivenNames x; have hf : ∀ s a, Kept q v s → Kept q v (x s a) := ?_; try clear_value x) | (extract_lets +onlyGivenNames x; have hx : MemOk x := ?_; try clear_value x) | (extract_lets +onlyGivenNames x; try clear_value x) | split | (with_reducible apply optKept_some) | (with_reducible apply next_kept) | (with_reducible exact optKept_none) | (simp -zeta only [Kept.updMem_iff]) | (with_reducible apply keptM) | (with_reducible apply canonical_withRb) | (with_reducible apply canonical_withCc) | (with_reducible apply canonical_foldl_tset) | (with_reducible apply canonical_tdel) | (with_reducible refine canonical_rb (Kept.mem (q := q) (v := v) ?_)) | (with_reducible apply canonical_rb) | (with_reducible refine canonical_cc (Kept.mem (q := q) (v := v) ?_)))

theorem State.modEvRing_kept (s : State) (e : Nat) (f : EvRing → EvRing)  (h0 : Kept q v s) : Kept q v (State.modEvRing s e f) := by
  unfold State.modEvRing
  repeat' (first | (with_reducible assumption) | intro _ | (with_reducible apply forEach_kept) | (with_reducible apply foldl_kept) | (with_reducible apply foldl_snd_kept) | (with_reducible apply forEach_canonical) | (with_reducible apply foldl_canonical) | (with_reducible refine Kept.mem (q := q) (v := v) ?_) | (with_reducible refine kept_snd (by assumption) ?_) | (with_reducible apply ite_kept) | (with_reducible apply id_kept) | (with_reducible apply ite_snd_kept) | (with_reducible apply ite_memOk) | (unfold x; clear x) | (simp -zeta only [Kept.upd_iff]) | (extract_lets +onlyGivenNames x; have hx : Kept q v x := ?_; try clear_value x) | (extract_lets +onlyGivenNames x; have hx : Kept q v x.2 := ?_; try clear_value x) | (with_reducible apply hf) | (extract_lets +onlyGivenNames x; have hf : ∀ s, Kept q v s → Kept q v (x s) := ?_; try clear_value x) | (extract_lets +onlyGivenNames x; have hf : ∀ s a, Kept q v s → Kept q v (x s a) := ?_; try clear_value x) | (extract_lets +onlyGivenNames x; have hx : MemOk x := ?_; try clear_value x) | (extract_lets +onlyGivenNames x; try clear_value x) | split | (with_reducible apply optKept_some) | (with_reducible apply next_kept) | (with_reducible exact optKept_none) | (simp -zeta only [Kept.updMem_iff]) | (with_reducible apply keptM) | (with_reducible apply canonical_withRb) | (with_reducible apply canonical_withCc) | (with_reducible apply canonical_foldl_tset) | (with_reducible apply canonical_tdel) | (with_reducible refine canonical_rb (Kept.mem (q := q) (v := v) ?_)) | (with_reducible apply canonical_rb) | (with_reducible refine canonical_cc (Kept.mem (q := q) (v := v) ?_)))

theorem State.showCopying_kept (s : State) (p : Nat)  (h0 : Kept q v s) : Kept q v (State.showCopying s p) := by
  unfold State.showCopying
  repeat' (first | (with_reducible assumption) | (with_reducible apply State.setB_kept) | intro _ | (with_reducible apply forEach_kept) | (with_reducible apply foldl_kept) | (with_reducible apply foldl_snd_kept) | (with_reducible apply forEach_canonical) | (with_reducible apply foldl_canonical) | (with_reducible refine Kept.mem (q := q) (v := v) ?_) | (with_reducible refine kept_snd (by assumption) ?_) | (with_reducible apply ite_kept) | (with_reducible apply id_kept) | (with_reducible apply ite_snd_kept) | (with_reducible apply ite_memOk) | (unfold x; clear x) | (simp -zeta only [Kept.upd_iff]) | (extract_lets +onlyGivenNames x; have hx : Kept q v x := ?_; try clear_value x) | (extract_lets +onlyGivenNames x; have hx : Kept q v x.2 := ?_; try clear_value x) | (with_reducible apply hf) | (extract_lets +onlyGivenNames x; have hf : ∀ s, Kept q v s → Kept q v (x s) := ?_; try clear_value x) | (extract_lets +onlyGivenNames x; have hf : ∀ s a, Kept q v s → Kept q v (x s a) := ?_; try clear_value x) | (extract_lets +onlyGivenNames x; have hx : MemOk x := ?_; try clear_value x) | (extract_lets +onlyGivenNames x; try clear_value x) | split | (with_reducible apply optKept_some) | (with_reducible apply next_kept) | (with_reducible exact optKept_none) | (simp -zeta only [Kept.updMem_iff]) | (with_reducible apply keptM) | (with_reducible apply canonical_withRb) | (with_reducible apply canonical_withCc) | (with_reducible apply canonical_foldl_tset) | (with_reducible apply canonical_tdel) | (with_reducible refine canonical_rb (Kept.mem (q := q) (v := v) ?_)) | (with_reducible apply canonical_rb) | (with_reducible refine canonical_cc (Kept.mem (q := q) (v := v) ?_)))

theorem State.send_kept (s : State) (o : Out)  (h0 : Kept q v s) : Kept q v (State.send s o) := by
  unfold State.send
  repeat' (first | (with_reducible assumption) | intro _ | (with_reducible apply forEach_kept) | (with_reducible apply foldl_kept) | (with_reducible apply foldl_snd_kept) | (with_reducible apply forEach_canonical) | (with_reducible apply foldl_canonical) | (with_reducible refine Kept.mem (q := q) (v := v) ?_) | (with_reducible refine kept_snd (by assumption) ?_) | (with_reducible apply ite_kept) | (with_reducible apply id_kept) | (with_reducible apply ite_snd_kept) | (with_reducible apply ite_memOk) | (unfold x; clear x) | (simp -zeta only [Kept.upd_iff]) | (extract_lets +onlyGivenNames x; have hx : Kept q v x := ?_; try clear_value x) | (extract_lets +onlyGivenNames x; have hx : Kept q v x.2 := ?_; try clear_value x) | (with_reducible apply hf) | (extract_lets +onlyGivenNames x; have hf : ∀ s, Kept q v s → Kept q v (x s) := ?_; try clear_value x) | (extract_lets +onlyGivenNames x; have hf : ∀ s a, Kept q v s → Kept q v (x s a) := ?_; try clear_value x) | (extract_lets +onlyGivenNames x; have hx : MemOk x := ?_; try clear_value x) | (extract_lets +onlyGivenNames x; try clear_value x) | split | (with_reducible apply optKept_some) | (with_reducible apply next_kept) | (with_reducible exact optKept_none) | (simp -zeta only [Kept.updMem_iff]) | (with_reducible apply keptM) | (with_reducible apply canonical_withRb) | (with_reducible apply canonical_withCc) | (with_reducible apply canonical_foldl_tset) | (with_reducible apply canonical_tdel) | (with_reducible refine canonical_rb (Kept.mem (q := q) (v := v) ?_)) | (with_reducible apply canonical_rb) | (with_reducible refine canonical_cc (Kept.mem (q := q) (v := v) ?_)))

end Sys2Proof.Machine
end

