-- ==== Sys2Proof/Laws/KeptEvents.lean ====
section
/-! SUPPORT. Every definition of Machine/Events keeps the queue, the variant and the canonical forms. -/

namespace Sys2Proof.Machine

set_option linter.all false

variable {q : List Instr} {v : Variant}

theorem State.putFlit_kept (s : State) (f : Flit)  (h0 : Kept q v s) : Kept q v (State.putFlit s f) := by
  unfold State.putFlit
  repeat' (first | (with_reducible assumption) | intro _ | (with_reducible apply forEach_kept) | (with_reducible apply foldl_kept) | (with_reducible apply foldl_snd_kept) | (with_reducible apply forEach_canonical) | (with_reducible apply foldl_canonical) | (with_reducible refine Kept.mem (q := q) (v := v) ?_) | (with_reducible refine kept_snd (by assumption) ?_) | (with_reducible apply ite_kept) | (with_reducible apply id_kept) | (with_reducible apply ite_snd_kept) | (with_reducible apply ite_memOk) | (unfold x; clear x) | (simp -zeta only [Kept.upd_iff]) | (extract_lets +onlyGivenNames x; have hx : Kept q v x := ?_; try clear_value x) | (extract_lets +onlyGivenNames x; have hx : Kept q v x.2 := ?_; try clear_value x) | (with_reducible apply hf) | (extract_lets +onlyGivenNames x; have hf : ∀ s, Kept q v s → Kept q v (x s) := ?_; try clear_value x) | (extract_lets +onlyGivenNames x; have hf : ∀ s a, Kept q v s → Kept q v (x s a) := ?_; try clear_value x) | (extract_lets +onlyGivenNames x; have hx : MemOk x := ?_; try clear_value x) | (extract_lets +onlyGivenNames x; try clear_value x) | split | (with_reducible apply optKept_some) | (with_reducible apply next_kept) | (with_reducible exact optKept_none) | (simp -zeta only [Kept.updMem_iff]) | (with_reducible apply keptM) | (with_reducible apply canonical_withRb) | (with_reducible apply canonical_withCc) | (with_reducible apply canonical_foldl_tset) | (with_reducible apply canonical_tdel) | (with_reducible refine canonical_rb (Kept.mem (q := q) (v := v) ?_)) | (with_reducible apply canonical_rb) | (with_reducible refine canonical_cc (Kept.mem (q := q) (v := v) ?_)))

theorem State.sendIdle_kept (s : State) (nak : Bool) (cmd : Nat) (bulk : Nat)  (h0 : Kept q v s) : Kept q v (State.sendIdle s nak cmd bulk) := by
  unfold State.sendIdle
  repeat' (first | (with_reducible assumption) | (with_reducible apply State.putFlit_kept) | intro _ | (with_reducible apply forEach_kept) | (with_reducible apply foldl_kept) | (with_reducible apply foldl_snd_kept) | (with_reducible apply forEach_canonical) | (with_reducible apply foldl_canonical) | (with_reducible refine Kept.mem (q := q) (v := v) ?_) | (with_reducible refine kept_snd (by assumption) ?_) | (with_reducible apply ite_kept) | (with_reducible apply id_kept) | (with_reducible apply ite_snd_kept) | (with_reducible apply ite_memOk) | (unfold x; clear x) | (simp -zeta only [Kept.upd_iff]) | (extract_lets +onlyGivenNames x; have hx : Kept q v x := ?_; try clear_value x) | (extract_lets +onlyGivenNames x; have hx : Kept q v x.2 := ?_; try clear_value x) | (with_reducible apply hf) | (extract_lets +onlyGivenNames x; have hf : ∀ s, Kept q v s → Kept q v (x s) := ?_; try clear_value x) | (extract_lets +onlyGivenNames x; have hf : ∀ s a, Kept q v s → Kept q v (x s a) := ?_; try clear_value x) | (extract_lets +onlyGivenNames x; have hx : MemOk x := ?_; try clear_value x) | (extract_lets +onlyGivenNames x; try clear_value x) | split | (with_reducible apply optKept_some) | (with_reducible apply next_kept) | (with_reducible exact optKept_none) | (simp -zeta only [Kept.updMem_iff]) | (with_reducible apply keptM) | (with_reducible apply canonical_withRb) | (with_reducible apply canonical_withCc) | (with_reducible apply canonical_foldl_tset) | (with_reducible apply canonical_tdel) | (with_reducible refine canonical_rb (Kept.mem (q := q) (v := v) ?_)) | (with_reducible apply canonical_rb) | (with_reducible refine canonical_cc (Kept.mem (q := q) (v := v) ?_)))

theorem State.emitFlit_kept (s : State) (f : Flit)  (h0 : Kept q v s) : Kept q v (State.emitFlit s f) := by
  unfold State.emitFlit
  repeat' (first | (with_reducible assumption) | (with_reducible apply State.sendIdle_kept) | (with_reducible apply State.putFlit_kept) | intro _ | (with_reducible apply forEach_kept) | (with_reducible apply foldl_kept) | (with_reducible apply foldl_snd_kept) | (with_reducible apply forEach_canonical) | (with_reducible apply foldl_canonical) | (with_reducible refine Kept.mem (q := q) (v := v) ?_) | (with_reducible refine kept_snd (by assumption) ?_) | (with_reducible apply ite_kept) | (with_reducible apply id_kept) | (with_reducible apply ite_snd_kept) | (with_reducible apply ite_memOk) | (unfold x; clear x) | (simp -zeta only [Kept.upd_iff]) | (extract_lets +onlyGivenNames x; have hx : Kept q v x := ?_; try clear_value x) | (extract_lets +onlyGivenNames x; have hx : Kept q v x.2 := ?_; try clear_value x) | (with_reducible apply hf) | (extract_lets +onlyGivenNames x; have hf : ∀ s, Kept q v s → Kept q v (x s) := ?_; try clear_value x) | (extract_lets +onlyGivenNames x; have hf : ∀ s a, Kept q v s → Kept q v (x s a) := ?_; try clear_value x) | (extract_lets +onlyGivenNames x; have hx : MemOk x := ?_; try clear_value x) | (extract_lets +onlyGivenNames x; try clear_value x) | split | (with_reducible apply optKept_some) | (with_reducible apply next_kept) | (with_reducible exact optKept_none) | (simp -zeta only [Kept.updMem_iff]) | (with_reducible apply keptM) | (with_reducible apply canonical_withRb) | (with_reducible apply canonical_withCc) | (with_reducible apply canonical_foldl_tset) | (with_reducible apply canonical_tdel) | (with_reducible refine canonical_rb (Kept.mem (q := q) (v := v) ?_)) | (with_reducible apply canonical_rb) | (with_reducible refine canonical_cc (Kept.mem (q := q) (v := v) ?_)))

theorem State.sendLaneSwap_kept (s : State) (lane : Nat) (flits : Nat)  (h0 : Kept q v s) : Kept q v (State.sendLaneSwap s lane flits) := by
  unfold State.sendLaneSwap
  repeat' (first | (with_reducible assumption) | (with_reducible apply State.emitFlit_kept) | intro _ | (with_reducible apply forEach_kept) | (with_reducible apply foldl_kept) | (with_reducible apply foldl_snd_kept) | (with_reducible apply forEach_canonical) | (with_reducible apply foldl_canonical) | (with_reducible refine Kept.mem (q := q) (v := v) ?_) | (with_reducible refine kept_snd (by assumption) ?_) | (with_reducible apply ite_kept) | (with_reducible apply id_kept) | (with_reducible apply ite_snd_kept) | (with_reducible apply ite_memOk) | (unfold x; clear x) | (simp -zeta only [Kept.upd_iff]) | (extract_lets +onlyGivenNames x; have hx : Kept q v x := ?_; try clear_value x) | (extract_lets +onlyGivenNames x; have hx : Kept q v x.2 := ?_; try clear_value x) | (with_reducible apply hf) | (extract_lets +onlyGivenNames x; have hf : ∀ s, Kept q v s → Kept q v (x s) := ?_; try clear_value x) | (extract_lets +onlyGivenNames x; have hf : ∀ s a, Kept q v s → Kept q v (x s a) := ?_; try clear_value x) | (extract_lets +onlyGivenNames x; have hx : MemOk x := ?_; try clear_value x) | (extract_lets +onlyGivenNames x; try clear_value x) | split | (with_reducible apply optKept_some) | (with_reducible apply next_kept) | (with_reducible exact optKept_none) | (simp -zeta only [Kept.updMem_iff]) | (with_reducible apply keptM) | (with_reducible apply canonical_withRb) | (with_reducible apply canonical_withCc) | (with_reducible apply canonical_foldl_tset) | (with_reducible apply canonical_tdel) | (with_reducible refine canonical_rb (Kept.mem (q := q) (v := v) ?_)) | (with_reducible apply canonical_rb) | (with_reducible refine canonical_cc (Kept.mem (q := q) (v := v) ?_)))

theorem State.sendNext_kept (s : State) (t : TxFlit)  (h0 : Kept q v s) : Kept q v (State.sendNext s t) := by
  unfold State.sendNext
  repeat' (first | (with_reducible assumption) | (with_reducible apply State.emitFlit_kept) | intro _ | (with_reducible apply forEach_kept) | (with_reducible apply foldl_kept) | (with_reducible apply foldl_snd_kept) | (with_reducible apply forEach_canonical) | (with_reducible apply foldl_canonical) | (with_reducible refine Kept.mem (q := q) (v := v) ?_) | (with_reducible refine kept_snd (by assumption) ?_) | (with_reducible apply ite_kept) | (with_reducible apply id_kept) | (with_reducible apply ite_snd_kept) | (with_reducible apply ite_memOk) | (unfold x; clear x) | (simp -zeta only [Kept.upd_iff]) | (extract_lets +onlyGivenNames x; have hx : Kept q v x := ?_; try clear_value x) | (extract_lets +onlyGivenNames x; have hx : Kept q v x.2 := ?_; try clear_value x) | (with_reducible apply hf) | (extract_lets +onlyGivenNames x; have hf : ∀ s, Kept q v s → Kept q v (x s) := ?_; try clear_value x) | (extract_lets +onlyGivenNames x; have hf : ∀ s a, Kept q v s → Kept q v (x s a) := ?_; try clear_value x) | (extract_lets +onlyGivenNames x; have hx : MemOk x := ?_; try clear_value x) | (extract_lets +onlyGivenNames x; try clear_value x) | split | (with_reducible apply optKept_some) | (with_reducible apply next_kept) | (with_reducible exact optKept_none) | (simp -zeta only [Kept.updMem_iff]) | (with_reducible apply keptM) | (with_reducible apply canonical_withRb) | (with_reducible apply canonical_withCc) | (with_reducible apply canonical_foldl_tset) | (with_reducible apply canonical_tdel) | (with_reducible refine canonical_rb (Kept.mem (q := q) (v := v) ?_)) | (with_reducible apply canonical_rb) | (with_reducible refine canonical_cc (Kept.mem (q := q) (v := v) ?_)))

theorem flitPump_kept (k : Nat) : ∀ s : State, Kept q v s → Kept q v (flitPump k s) := by
  induction k with
  | zero => intro s h; exact h
  | succ k ih => intro s h; unfold flitPump; (repeat' (first | (with_reducible assumption) | (with_reducible apply ih) | (with_reducible apply State.sendNext_kept) | intro _ | (with_reducible apply forEach_kept) | (with_reducible apply foldl_kept) | (with_reducible apply foldl_snd_kept) | (with_reducible apply forEach_canonical) | (with_reducible apply foldl_canonical) | (with_reducible refine Kept.mem (q := q) (v := v) ?_) | (with_reducible refine kept_snd (by assumption) ?_) | (with_reducible apply ite_kept) | (with_reducible apply id_kept) | (with_reducible apply ite_snd_kept) | (with_reducible apply ite_memOk) | (unfold x; clear x) | (simp -zeta only [Kept.upd_iff]) | (extract_lets +onlyGivenNames x; have hx : Kept q v x := ?_; try clear_value x) | (extract_lets +onlyGivenNames x; have hx : Kept q v x.2 := ?_; try clear_value x) | (with_reducible apply hf) | (extract_lets +onlyGivenNames x; have hf : ∀ s, Kept q v s → Kept q v (x s) := ?_; try clear_value x) | (extract_lets +onlyGivenNames x; have hf : ∀ s a, Kept q v s → Kept q v (x s a) := ?_; try clear_value x) | (extract_lets +onlyGivenNames x; have hx : MemOk x := ?_; try clear_value x) | (extract_lets +onlyGivenNames x; try clear_value x) | split | (with_reducible apply optKept_some) | (with_reducible apply next_kept) | (with_reducible exact optKept_none) | (simp -zeta only [Kept.updMem_iff]) | (with_reducible apply keptM) | (with_reducible apply canonical_withRb) | (with_reducible apply canonical_withCc) | (with_reducible apply canonical_foldl_tset) | (with_reducible apply canonical_tdel) | (with_reducible refine canonical_rb (Kept.mem (q := q) (v := v) ?_)) | (with_reducible apply canonical_rb) | (with_reducible refine canonical_cc (Kept.mem (q := q) (v := v) ?_))))

theorem State.mxlFlush_kept (s : State)  (h0 : Kept q v s) : Kept q v (State.mxlFlush s) := by
  unfold State.mxlFlush
  repeat' (first | (with_reducible assumption) | (with_reducible apply flitPump_kept) | intro _ | (with_reducible apply forEach_kept) | (with_reducible apply foldl_kept) | (with_reducible apply foldl_snd_kept) | (with_reducible apply forEach_canonical) | (with_reducible apply foldl_canonical) | (with_reducible refine Kept.mem (q := q) (v := v) ?_) | (with_reducible refine kept_snd (by assumption) ?_) | (with_reducible apply ite_kept) | (with_reducible apply id_kept) | (with_reducible apply ite_snd_kept) | (with_reducible apply ite_memOk) | (unfold x; clear x) | (simp -zeta only [Kept.upd_iff]) | (extract_lets +onlyGivenNames x; have hx : Kept q v x := ?_; try clear_value x) | (extract_lets +onlyGivenNames x; have hx : Kept q v x.2 := ?_; try clear_value x) | (with_reducible apply hf) | (extract_lets +onlyGivenNames x; have hf : ∀ s, Kept q v s → Kept q v (x s) := ?_; try clear_value x) | (extract_lets +onlyGivenNames x; have hf : ∀ s a, Kept q v s → Kept q v (x s a) := ?_; try clear_value x) | (extract_lets +onlyGivenNames x; have hx : MemOk x := ?_; try clear_value x) | (extract_lets +onlyGivenNames x; try clear_value x) | split | (with_reducible apply optKept_some) | (with_reducible apply next_kept) | (with_reducible exact optKept_none) | (simp -zeta only [Kept.updMem_iff]) | (with_reducible apply keptM) | (with_reducible apply canonical_withRb) | (with_reducible apply canonical_withCc) | (with_reducible apply canonical_foldl_tset) | (with_reducible apply canonical_tdel) | (with_reducible refine canonical_rb (Kept.mem (q := q) (v := v) ?_)) | (with_reducible apply canonical_rb) | (with_reducible refine canonical_cc (Kept.mem (q := q) (v := v) ?_)))

theorem State.mxlSend_kept (s : State) (x : Msg)  (h0 : Kept q v s) : Kept q v (State.mxlSend s x) := by
  unfold State.mxlSend
  repeat' (first | (with_reducible assumption) | (with_reducible apply State.mxlFlush_kept) | intro _ | (with_reducible apply forEach_kept) | (with_reducible apply foldl_kept) | (with_reducible apply foldl_snd_kept) | (with_reducible apply forEach_canonical) | (with_reducible apply foldl_canonical) | (with_reducible refine Kept.mem (q := q) (v := v) ?_) | (with_reducible refine kept_snd (by assumption) ?_) | (with_reducible apply ite_kept) | (with_reducible apply id_kept) | (with_reducible apply ite_snd_kept) | (with_reducible apply ite_memOk) | (unfold x; clear x) | (simp -zeta only [Kept.upd_iff]) | (extract_lets +onlyGivenNames x; have hx : Kept q v x := ?_; try clear_value x) | (extract_lets +onlyGivenNames x; have hx : Kept q v x.2 := ?_; try clear_value x) | (with_reducible apply hf) | (extract_lets +onlyGivenNames x; have hf : ∀ s, Kept q v s → Kept q v (x s) := ?_; try clear_value x) | (extract_lets +onlyGivenNames x; have hf : ∀ s a, Kept q v s → Kept q v (x s a) := ?_; try clear_value x) | (extract_lets +onlyGivenNames x; have hx : MemOk x := ?_; try clear_value x) | (extract_lets +onlyGivenNames x; try clear_value x) | split | (with_reducible apply optKept_some) | (with_reducible apply next_kept) | (with_reducible exact optKept_none) | (simp -zeta only [Kept.updMem_iff]) | (with_reducible apply keptM) | (with_reducible apply canonical_withRb) | (with_reducible apply canonical_withCc) | (with_reducible apply canonical_foldl_tset) | (with_reducible apply canonical_tdel) | (with_reducible refine canonical_rb (Kept.mem (q := q) (v := v) ?_)) | (with_reducible apply canonical_rb) | (with_reducible refine canonical_cc (Kept.mem (q := q) (v := v) ?_)))

theorem State.raiseIbi_kept (s : State) (b : Nat)  (h0 : Kept q v s) : Kept q v (State.raiseIbi s b) := by
  unfold State.raiseIbi
  repeat' (first | (with_reducible assumption) | (with_reducible apply State.send_kept) | intro _ | (with_reducible apply forEach_kept) | (with_reducible apply foldl_kept) | (with_reducible apply foldl_snd_kept) | (with_reducible apply forEach_canonical) | (with_reducible apply foldl_canonical) | (with_reducible refine Kept.mem (q := q) (v := v) ?_) | (with_reducible refine kept_snd (by assumption) ?_) | (with_reducible apply ite_kept) | (with_reducible apply id_kept) | (with_reducible apply ite_snd_kept) | (with_reducible apply ite_memOk) | (unfold x; clear x) | (simp -zeta only [Kept.upd_iff]) | (extract_lets +onlyGivenNames x; have hx : Kept q v x := ?_; try clear_value x) | (extract_lets +onlyGivenNames x; have hx : Kept q v x.2 := ?_; try clear_value x) | (with_reducible apply hf) | (extract_lets +onlyGivenNames x; have hf : ∀ s, Kept q v s → Kept q v (x s) := ?_; try clear_value x) | (extract_lets +onlyGivenNames x; have hf : ∀ s a, Kept q v s → Kept q v (x s a) := ?_; try clear_value x) | (extract_lets +onlyGivenNames x; have hx : MemOk x := ?_; try clear_value x) | (extract_lets +onlyGivenNames x; try clear_value x) | split | (with_reducible apply optKept_some) | (with_reducible apply next_kept) | (with_reducible exact optKept_none) | (simp -zeta only [Kept.updMem_iff]) | (with_reducible apply keptM) | (with_reducible apply canonical_withRb) | (with_reducible apply canonical_withCc) | (with_reducible apply canonical_foldl_tset) | (with_reducible apply canonical_tdel) | (with_reducible refine canonical_rb (Kept.mem (q := q) (v := v) ?_)) | (with_reducible apply canonical_rb) | (with_reducible refine canonical_cc (Kept.mem (q := q) (v := v) ?_)))

theorem State.alertIbi_kept (s : State)  (h0 : Kept q v s) : Kept q v (State.alertIbi s) := by
  unfold State.alertIbi
  repeat' (first | (with_reducible assumption) | (with_reducible apply State.raiseIbi_kept) | (with_reducible apply State.setB_kept) | intro _ | (with_reducible apply forEach_kept) | (with_reducible apply foldl_kept) | (with_reducible apply foldl_snd_kept) | (with_reducible apply forEach_canonical) | (with_reducible apply foldl_canonical) | (with_reducible refine Kept.mem (q := q) (v := v) ?_) | (with_reducible refine kept_snd (by assumption) ?_) | (with_reducible apply ite_kept) | (with_reducible apply id_kept) | (with_reducible apply ite_snd_kept) | (with_reducible apply ite_memOk) | (unfold x; clear x) | (simp -zeta only [Kept.upd_iff]) | (extract_lets +onlyGivenNames x; have hx : Kept q v x := ?_; try clear_value x) | (extract_lets +onlyGivenNames x; have hx : Kept q v x.2 := ?_; try clear_value x) | (with_reducible apply hf) | (extract_lets +onlyGivenNames x; have hf : ∀ s, Kept q v s → Kept q v (x s) := ?_; try clear_value x) | (extract_lets +onlyGivenNames x; have hf : ∀ s a, Kept q v s → Kept q v (x s a) := ?_; try clear_value x) | (extract_lets +onlyGivenNames x; have hx : MemOk x := ?_; try clear_value x) | (extract_lets +onlyGivenNames x; try clear_value x) | split | (with_reducible apply optKept_some) | (with_reducible apply next_kept) | (with_reducible exact optKept_none) | (simp -zeta only [Kept.updMem_iff]) | (with_reducible apply keptM) | (with_reducible apply canonical_withRb) | (with_reducible apply canonical_withCc) | (with_reducible apply canonical_foldl_tset) | (with_reducible apply canonical_tdel) | (with_reducible refine canonical_rb (Kept.mem (q := q) (v := v) ?_)) | (with_reducible apply canonical_rb) | (with_reducible refine canonical_cc (Kept.mem (q := q) (v := v) ?_)))

theorem State.trace_kept (s : State) (src : Nat) (code : Option Nat) (node : Option Nat) (data : Option Nat)  (h0 : Kept q v s) : Kept q v (State.trace s src code node data) := by
  unfold State.trace
  repeat' (first | (with_reducible assumption) | (with_reducible apply State.incF_kept) | (with_reducible apply State.drawn_kept) | intro _ | (with_reducible apply forEach_kept) | (with_reducible apply foldl_kept) | (with_reducible apply foldl_snd_kept) | (with_reducible apply forEach_canonical) | (with_reducible apply foldl_canonical) | (with_reducible refine Kept.mem (q := q) (v := v) ?_) | (with_reducible refine kept_snd (by assumption) ?_) | (with_reducible apply ite_kept) | (with_reducible apply id_kept) | (with_reducible apply ite_snd_kept) | (with_reducible apply ite_memOk) | (unfold x; clear x) | (simp -zeta only [Kept.upd_iff]) | (extract_lets +onlyGivenNames x; have hx : Kept q v x := ?_; try clear_value x) | (extract_lets +onlyGivenNames x; have hx : Kept q v x.2 := ?_; try clear_value x) | (with_reducible apply hf) | (extract_lets +onlyGivenNames x; have hf : ∀ s, Kept q v s → Kept q v (x s) := ?_; try clear_value x) | (extract_lets +onlyGivenNames x; have hf : ∀ s a, Kept q v s → Kept q v (x s a) := ?_; try clear_value x) | (extract_lets +onlyGivenNames x; have hx : MemOk x := ?_; try clear_value x) | (extract_lets +onlyGivenNames x; try clear_value x) | split | (with_reducible apply optKept_some) | (with_reducible apply next_kept) | (with_reducible exact optKept_none) | (simp -zeta only [Kept.updMem_iff]) | (with_reducible apply keptM) | (with_reducible apply canonical_withRb) | (with_reducible apply canonical_withCc) | (with_reducible apply canonical_foldl_tset) | (with_reducible apply canonical_tdel) | (with_reducible refine canonical_rb (Kept.mem (q := q) (v := v) ?_)) | (with_reducible apply canonical_rb) | (with_reducible refine canonical_cc (Kept.mem (q := q) (v := v) ?_)))

theorem State.setStage_kept (s : State) (stage : Nat) (state : Nat)  (h0 : Kept q v s) : Kept q v (State.setStage s stage state) := by
  unfold State.setStage
  repeat' (first | (with_reducible assumption) | (with_reducible apply State.setF_kept) | (with_reducible apply State.raiseIbi_kept) | intro _ | (with_reducible apply forEach_kept) | (with_reducible apply foldl_kept) | (with_reducible apply foldl_snd_kept) | (with_reducible apply forEach_canonical) | (with_reducible apply foldl_canonical) | (with_reducible refine Kept.mem (q := q) (v := v) ?_) | (with_reducible refine kept_snd (by assumption) ?_) | (with_reducible apply ite_kept) | (with_reducible apply id_kept) | (with_reducible apply ite_snd_kept) | (with_reducible apply ite_memOk) | (unfold x; clear x) | (simp -zeta only [Kept.upd_iff]) | (extract_lets +onlyGivenNames x; have hx : Kept q v x := ?_; try clear_value x) | (extract_lets +onlyGivenNames x; have hx : Kept q v x.2 := ?_; try clear_value x) | (with_reducible apply hf) | (extract_lets +onlyGivenNames x; have hf : ∀ s, Kept q v s → Kept q v (x s) := ?_; try clear_value x) | (extract_lets +onlyGivenNames x; have hf : ∀ s a, Kept q v s → Kept q v (x s a) := ?_; try clear_value x) | (extract_lets +onlyGivenNames x; have hx : MemOk x := ?_; try clear_value x) | (extract_lets +onlyGivenNames x; try clear_value x) | split | (with_reducible apply optKept_some) | (with_reducible apply next_kept) | (with_reducible exact optKept_none) | (simp -zeta only [Kept.updMem_iff]) | (with_reducible apply keptM) | (with_reducible apply canonical_withRb) | (with_reducible apply canonical_withCc) | (with_reducible apply canonical_foldl_tset) | (with_reducible apply canonical_tdel) | (with_reducible refine canonical_rb (Kept.mem (q := q) (v := v) ?_)) | (with_reducible apply canonical_rb) | (with_reducible refine canonical_cc (Kept.mem (q := q) (v := v) ?_)))

theorem State.setUnready_kept (s : State) (n : Nat)  (h0 : Kept q v s) : Kept q v (State.setUnready s n) := by
  unfold State.setUnready
  repeat' (first | (with_reducible assumption) | (with_reducible apply State.setF_kept) | (with_reducible apply State.raiseIbi_kept) | intro _ | (with_reducible apply forEach_kept) | (with_reducible apply foldl_kept) | (with_reducible apply foldl_snd_kept) | (with_reducible apply forEach_canonical) | (with_reducible apply foldl_canonical) | (with_reducible refine Kept.mem (q := q) (v := v) ?_) | (with_reducible refine kept_snd (by assumption) ?_) | (with_reducible apply ite_kept) | (with_reducible apply id_kept) | (with_reducible apply ite_snd_kept) | (with_reducible apply ite_memOk) | (unfold x; clear x) | (simp -zeta only [Kept.upd_iff]) | (extract_lets +onlyGivenNames x; have hx : Kept q v x := ?_; try clear_value x) | (extract_lets +onlyGivenNames x; have hx : Kept q v x.2 := ?_; try clear_value x) | (with_reducible apply hf) | (extract_lets +onlyGivenNames x; have hf : ∀ s, Kept q v s → Kept q v (x s) := ?_; try clear_value x) | (extract_lets +onlyGivenNames x; have hf : ∀ s a, Kept q v s → Kept q v (x s a) := ?_; try clear_value x) | (extract_lets +onlyGivenNames x; have hx : MemOk x := ?_; try clear_value x) | (extract_lets +onlyGivenNames x; try clear_value x) | split | (with_reducible apply optKept_some) | (with_reducible apply next_kept) | (with_reducible exact optKept_none) | (simp -zeta only [Kept.updMem_iff]) | (with_reducible apply keptM) | (with_reducible apply canonical_withRb) | (with_reducible apply canonical_withCc) | (with_reducible apply canonical_foldl_tset) | (with_reducible apply canonical_tdel) | (with_reducible refine canonical_rb (Kept.mem (q := q) (v := v) ?_)) | (with_reducible apply canonical_rb) | (with_reducible refine canonical_cc (Kept.mem (q := q) (v := v) ?_)))

theorem State.evWrite_kept (s : State) (e : Nat) (n : Nat) (r : EvRec)  (h0 : Kept q v s) : Kept q v (State.evWrite s e n r) := by
  unfold State.evWrite
  repeat' (first | (with_reducible assumption) | (with_reducible apply State.mxlSend_kept) | (with_reducible apply State.setReg_kept) | (with_reducible apply State.modEvRing_kept) | intro _ | (with_reducible apply forEach_kept) | (with_reducible apply foldl_kept) | (with_reducible apply foldl_snd_kept) | (with_reducible apply forEach_canonical) | (with_reducible apply foldl_canonical) | (with_reducible refine Kept.mem (q := q) (v := v) ?_) | (with_reducible refine kept_snd (by assumption) ?_) | (with_reducible apply ite_kept) | (with_reducible apply id_kept) | (with_reducible apply ite_snd_kept) | (with_reducible apply ite_memOk) | (unfold x; clear x) | (simp -zeta only [Kept.upd_iff]) | (extract_lets +onlyGivenNames x; have hx : Kept q v x := ?_; try clear_value x) | (extract_lets +onlyGivenNames x; have hx : Kept q v x.2 := ?_; try clear_value x) | (with_reducible apply hf) | (extract_lets +onlyGivenNames x; have hf : ∀ s, Kept q v s → Kept q v (x s) := ?_; try clear_value x) | (extract_lets +onlyGivenNames x; have hf : ∀ s a, Kept q v s → Kept q v (x s a) := ?_; try clear_value x) | (extract_lets +onlyGivenNames x; have hx : MemOk x := ?_; try clear_value x) | (extract_lets +onlyGivenNames x; try clear_value x) | split | (with_reducible apply optKept_some) | (with_reducible apply next_kept) | (with_reducible exact optKept_none) | (simp -zeta only [Kept.updMem_iff]) | (with_reducible apply keptM) | (with_reducible apply canonical_withRb) | (with_reducible apply canonical_withCc) | (with_reducible apply canonical_foldl_tset) | (with_reducible apply canonical_tdel) | (with_reducible refine canonical_rb (Kept.mem (q := q) (v := v) ?_)) | (with_reducible apply canonical_rb) | (with_reducible refine canonical_cc (Kept.mem (q := q) (v := v) ?_)))

theorem evDrain_kept (k : Nat) : ∀ (e n : Nat) (s : State), Kept q v s → Kept q v (evDrain k e n s) := by
  induction k with
  | zero => intro e n s h; exact h
  | succ k ih => intro e n s h; unfold evDrain; (repeat' (first | (with_reducible assumption) | (with_reducible apply ih) | (with_reducible apply State.evWrite_kept) | (with_reducible apply State.modEvRing_kept) | intro _ | (with_reducible apply forEach_kept) | (with_reducible apply foldl_kept) | (with_reducible apply foldl_snd_kept) | (with_reducible apply forEach_canonical) | (with_reducible apply foldl_canonical) | (with_reducible refine Kept.mem (q := q) (v := v) ?_) | (with_reducible refine kept_snd (by assumption) ?_) | (with_reducible apply ite_kept) | (with_reducible apply id_kept) | (with_reducible apply ite_snd_kept) | (with_reducible apply ite_memOk) | (unfold x; clear x) | (simp -zeta only [Kept.upd_iff]) | (extract_lets +onlyGivenNames x; have hx : Kept q v x := ?_; try clear_value x) | (extract_lets +onlyGivenNames x; have hx : Kept q v x.2 := ?_; try clear_value x) | (with_reducible apply hf) | (extract_lets +onlyGivenNames x; have hf : ∀ s, Kept q v s → Kept q v (x s) := ?_; try clear_value x) | (extract_lets +onlyGivenNames x; have hf : ∀ s a, Kept q v s → Kept q v (x s a) := ?_; try clear_value x) | (extract_lets +onlyGivenNames x; have hx : MemOk x := ?_; try clear_value x) | (extract_lets +onlyGivenNames x; try clear_value x) | split | (with_reducible apply optKept_some) | (with_reducible apply next_kept) | (with_reducible exact optKept_none) | (simp -zeta only [Kept.updMem_iff]) | (with_reducible apply keptM) | (with_reducible apply canonical_withRb) | (with_reducible apply canonical_withCc) | (with_reducible apply canonical_foldl_tset) | (with_reducible apply canonical_tdel) | (with_reducible refine canonical_rb (Kept.mem (q := q) (v := v) ?_)) | (with_reducible apply canonical_rb) | (with_reducible refine canonical_cc (Kept.mem (q := q) (v := v) ?_))))

theorem State.evOffer_kept (s : State) (e : Nat) (n : Nat) (r : EvRec)  (h0 : Kept q v s) : Kept q v (State.evOffer s e n r) := by
  unfold State.evOffer
  repeat' (first | (with_reducible assumption) | (with_reducible apply State.evWrite_kept) | (with_reducible apply State.modEvRing_kept) | (with_reducible apply State.incF_kept) | intro _ | (with_reducible apply forEach_kept) | (with_reducible apply foldl_kept) | (with_reducible apply foldl_snd_kept) | (with_reducible apply forEach_canonical) | (with_reducible apply foldl_canonical) | (with_reducible refine Kept.mem (q := q) (v := v) ?_) | (with_reducible refine kept_snd (by assumption) ?_) | (with_reducible apply ite_kept) | (with_reducible apply id_kept) | (with_reducible apply ite_snd_kept) | (with_reducible apply ite_memOk) | (unfold x; clear x) | (simp -zeta only [Kept.upd_iff]) | (extract_lets +onlyGivenNames x; have hx : Kept q v x := ?_; try clear_value x) | (extract_lets +onlyGivenNames x; have hx : Kept q v x.2 := ?_; try clear_value x) | (with_reducible apply hf) | (extract_lets +onlyGivenNames x; have hf : ∀ s, Kept q v s → Kept q v (x s) := ?_; try clear_value x) | (extract_lets +onlyGivenNames x; have hf : ∀ s a, Kept q v s → Kept q v (x s a) := ?_; try clear_value x) | (extract_lets +onlyGivenNames x; have hx : MemOk x := ?_; try clear_value x) | (extract_lets +onlyGivenNames x; try clear_value x) | split | (with_reducible apply optKept_some) | (with_reducible apply next_kept) | (with_reducible exact optKept_none) | (simp -zeta only [Kept.updMem_iff]) | (with_reducible apply keptM) | (with_reducible apply canonical_withRb) | (with_reducible apply canonical_withCc) | (with_reducible apply canonical_foldl_tset) | (with_reducible apply canonical_tdel) | (with_reducible refine canonical_rb (Kept.mem (q := q) (v := v) ?_)) | (with_reducible apply canonical_rb) | (with_reducible refine canonical_cc (Kept.mem (q := q) (v := v) ?_)))

theorem State.evRoute_kept (s : State) (r : EvRec)  (h0 : Kept q v s) : Kept q v (State.evRoute s r) := by
  unfold State.evRoute
  repeat' (first | (with_reducible assumption) | (with_reducible apply State.incF_kept) | (with_reducible apply forEach_kept) | (with_reducible apply State.evOffer_kept) | intro _ | (with_reducible apply forEach_kept) | (with_reducible apply foldl_kept) | (with_reducible apply foldl_snd_kept) | (with_reducible apply forEach_canonical) | (with_reducible apply foldl_canonical) | (with_reducible refine Kept.mem (q := q) (v := v) ?_) | (with_reducible refine kept_snd (by assumption) ?_) | (with_reducible apply ite_kept) | (with_reducible apply id_kept) | (with_reducible apply ite_snd_kept) | (with_reducible apply ite_memOk) | (unfold x; clear x) | (simp -zeta only [Kept.upd_iff]) | (extract_lets +onlyGivenNames x; have hx : Kept q v x := ?_; try clear_value x) | (extract_lets +onlyGivenNames x; have hx : Kept q v x.2 := ?_; try clear_value x) | (with_reducible apply hf) | (extract_lets +onlyGivenNames x; have hf : ∀ s, Kept q v s → Kept q v (x s) := ?_; try clear_value x) | (extract_lets +onlyGivenNames x; have hf : ∀ s a, Kept q v s → Kept q v (x s a) := ?_; try clear_value x) | (extract_lets +onlyGivenNames x; have hx : MemOk x := ?_; try clear_value x) | (extract_lets +onlyGivenNames x; try clear_value x) | split | (with_reducible apply optKept_some) | (with_reducible apply next_kept) | (with_reducible exact optKept_none) | (simp -zeta only [Kept.updMem_iff]) | (with_reducible apply keptM) | (with_reducible apply canonical_withRb) | (with_reducible apply canonical_withCc) | (with_reducible apply canonical_foldl_tset) | (with_reducible apply canonical_tdel) | (with_reducible refine canonical_rb (Kept.mem (q := q) (v := v) ?_)) | (with_reducible apply canonical_rb) | (with_reducible refine canonical_cc (Kept.mem (q := q) (v := v) ?_)))

theorem State.raiseWith_kept (s : State) (late : Bool) (code : Nat) (part : Nat) (kind : Nat) (unit : Nat) (d0 : Nat) (d1 : Nat) (d2 : Nat) (d3 : Nat)  (h0 : Kept q v s) : Kept q v (State.raiseWith s late code part kind unit d0 d1 d2 d3) := by
  unfold State.raiseWith
  repeat' (first | (with_reducible assumption) | (with_reducible apply State.setReg_kept) | (with_reducible apply State.evRoute_kept) | (with_reducible apply State.trace_kept) | (with_reducible apply State.alertIbi_kept) | intro _ | (with_reducible apply forEach_kept) | (with_reducible apply foldl_kept) | (with_reducible apply foldl_snd_kept) | (with_reducible apply forEach_canonical) | (with_reducible apply foldl_canonical) | (with_reducible refine Kept.mem (q := q) (v := v) ?_) | (with_reducible refine kept_snd (by assumption) ?_) | (with_reducible apply ite_kept) | (with_reducible apply id_kept) | (with_reducible apply ite_snd_kept) | (with_reducible apply ite_memOk) | (unfold x; clear x) | (simp -zeta only [Kept.upd_iff]) | (extract_lets +onlyGivenNames x; have hx : Kept q v x := ?_; try clear_value x) | (extract_lets +onlyGivenNames x; have hx : Kept q v x.2 := ?_; try clear_value x) | (with_reducible apply hf) | (extract_lets +onlyGivenNames x; have hf : ∀ s, Kept q v s → Kept q v (x s) := ?_; try clear_value x) | (extract_lets +onlyGivenNames x; have hf : ∀ s a, Kept q v s → Kept q v (x s a) := ?_; try clear_value x) | (extract_lets +onlyGivenNames x; have hx : MemOk x := ?_; try clear_value x) | (extract_lets +onlyGivenNames x; try clear_value x) | split | (with_reducible apply optKept_some) | (with_reducible apply next_kept) | (with_reducible exact optKept_none) | (simp -zeta only [Kept.updMem_iff]) | (with_reducible apply keptM) | (with_reducible apply canonical_withRb) | (with_reducible apply canonical_withCc) | (with_reducible apply canonical_foldl_tset) | (with_reducible apply canonical_tdel) | (with_reducible refine canonical_rb (Kept.mem (q := q) (v := v) ?_)) | (with_reducible apply canonical_rb) | (with_reducible refine canonical_cc (Kept.mem (q := q) (v := v) ?_)))

theorem State.raise_kept (s : State) (code : Nat) (part : Nat) (kind : Nat) (unit : Nat) (d0 : Nat) (d1 : Nat) (d2 : Nat) (d3 : Nat)  (h0 : Kept q v s) : Kept q v (State.raise s code part kind unit d0 d1 d2 d3) := by
  unfold State.raise
  repeat' (first | (with_reducible assumption) | (with_reducible apply State.raiseWith_kept) | intro _ | (with_reducible apply forEach_kept) | (with_reducible apply foldl_kept) | (with_reducible apply foldl_snd_kept) | (with_reducible apply forEach_canonical) | (with_reducible apply foldl_canonical) | (with_reducible refine Kept.mem (q := q) (v := v) ?_) | (with_reducible refine kept_snd (by assumption) ?_) | (with_reducible apply ite_kept) | (with_reducible apply id_kept) | (with_reducible apply ite_snd_kept) | (with_reducible apply ite_memOk) | (unfold x; clear x) | (simp -zeta only [Kept.upd_iff]) | (extract_lets +onlyGivenNames x; have hx : Kept q v x := ?_; try clear_value x) | (extract_lets +onlyGivenNames x; have hx : Kept q v x.2 := ?_; try clear_value x) | (with_reducible apply hf) | (extract_lets +onlyGivenNames x; have hf : ∀ s, Kept q v s → Kept q v (x s) := ?_; try clear_value x) | (extract_lets +onlyGivenNames x; have hf : ∀ s a, Kept q v s → Kept q v (x s a) := ?_; try clear_value x) | (extract_lets +onlyGivenNames x; have hx : MemOk x := ?_; try clear_value x) | (extract_lets +onlyGivenNames x; try clear_value x) | split | (with_reducible apply optKept_some) | (with_reducible apply next_kept) | (with_reducible exact optKept_none) | (simp -zeta only [Kept.updMem_iff]) | (with_reducible apply keptM) | (with_reducible apply canonical_withRb) | (with_reducible apply canonical_withCc) | (with_reducible apply canonical_foldl_tset) | (with_reducible apply canonical_tdel) | (with_reducible refine canonical_rb (Kept.mem (q := q) (v := v) ?_)) | (with_reducible apply canonical_rb) | (with_reducible refine canonical_cc (Kept.mem (q := q) (v := v) ?_)))

theorem State.perfAdd_kept (s : State) (p : Nat) (k : Nat) (n : Nat)  (h0 : Kept q v s) : Kept q v (State.perfAdd s p k n) := by
  unfold State.perfAdd
  repeat' (first | (with_reducible assumption) | (with_reducible apply State.setReg_kept) | (with_reducible apply State.setF_kept) | (with_reducible apply State.setB_kept) | (with_reducible apply State.raise_kept) | intro _ | (with_reducible apply forEach_kept) | (with_reducible apply foldl_kept) | (with_reducible apply foldl_snd_kept) | (with_reducible apply forEach_canonical) | (with_reducible apply foldl_canonical) | (with_reducible refine Kept.mem (q := q) (v := v) ?_) | (with_reducible refine kept_snd (by assumption) ?_) | (with_reducible apply ite_kept) | (with_reducible apply id_kept) | (with_reducible apply ite_snd_kept) | (with_reducible apply ite_memOk) | (unfold x; clear x) | (simp -zeta only [Kept.upd_iff]) | (extract_lets +onlyGivenNames x; have hx : Kept q v x := ?_; try clear_value x) | (extract_lets +onlyGivenNames x; have hx : Kept q v x.2 := ?_; try clear_value x) | (with_reducible apply hf) | (extract_lets +onlyGivenNames x; have hf : ∀ s, Kept q v s → Kept q v (x s) := ?_; try clear_value x) | (extract_lets +onlyGivenNames x; have hf : ∀ s a, Kept q v s → Kept q v (x s a) := ?_; try clear_value x) | (extract_lets +onlyGivenNames x; have hx : MemOk x := ?_; try clear_value x) | (extract_lets +onlyGivenNames x; try clear_value x) | split | (with_reducible apply optKept_some) | (with_reducible apply next_kept) | (with_reducible exact optKept_none) | (simp -zeta only [Kept.updMem_iff]) | (with_reducible apply keptM) | (with_reducible apply canonical_withRb) | (with_reducible apply canonical_withCc) | (with_reducible apply canonical_foldl_tset) | (with_reducible apply canonical_tdel) | (with_reducible refine canonical_rb (Kept.mem (q := q) (v := v) ?_)) | (with_reducible apply canonical_rb) | (with_reducible refine canonical_cc (Kept.mem (q := q) (v := v) ?_)))

theorem State.recessTaken_kept (s : State)  (h0 : Kept q v s) : Kept q v (State.recessTaken s) := by
  unfold State.recessTaken
  repeat' (first | (with_reducible assumption) | (with_reducible apply State.setReg_kept) | (with_reducible apply State.setF_kept) | (with_reducible apply State.setB_kept) | intro _ | (with_reducible apply forEach_kept) | (with_reducible apply foldl_kept) | (with_reducible apply foldl_snd_kept) | (with_reducible apply forEach_canonical) | (with_reducible apply foldl_canonical) | (with_reducible refine Kept.mem (q := q) (v := v) ?_) | (with_reducible refine kept_snd (by assumption) ?_) | (with_reducible apply ite_kept) | (with_reducible apply id_kept) | (with_reducible apply ite_snd_kept) | (with_reducible apply ite_memOk) | (unfold x; clear x) | (simp -zeta only [Kept.upd_iff]) | (extract_lets +onlyGivenNames x; have hx : Kept q v x := ?_; try clear_value x) | (extract_lets +onlyGivenNames x; have hx : Kept q v x.2 := ?_; try clear_value x) | (with_reducible apply hf) | (extract_lets +onlyGivenNames x; have hf : ∀ s, Kept q v s → Kept q v (x s) := ?_; try clear_value x) | (extract_lets +onlyGivenNames x; have hf : ∀ s a, Kept q v s → Kept q v (x s a) := ?_; try clear_value x) | (extract_lets +onlyGivenNames x; have hx : MemOk x := ?_; try clear_value x) | (extract_lets +onlyGivenNames x; try clear_value x) | split | (with_reducible apply optKept_some) | (with_reducible apply next_kept) | (with_reducible exact optKept_none) | (simp -zeta only [Kept.updMem_iff]) | (with_reducible apply keptM) | (with_reducible apply canonical_withRb) | (with_reducible apply canonical_withCc) | (with_reducible apply canonical_foldl_tset) | (with_reducible apply canonical_tdel) | (with_reducible refine canonical_rb (Kept.mem (q := q) (v := v) ?_)) | (with_reducible apply canonical_rb) | (with_reducible refine canonical_cc (Kept.mem (q := q) (v := v) ?_)))

theorem State.sendSym_kept (s : State) (p : Nat) (y : Sym)  (h0 : Kept q v s) : Kept q v (State.sendSym s p y) := by
  unfold State.sendSym
  repeat' (first | (with_reducible assumption) | (with_reducible apply State.send_kept) | intro _ | (with_reducible apply forEach_kept) | (with_reducible apply foldl_kept) | (with_reducible apply foldl_snd_kept) | (with_reducible apply forEach_canonical) | (with_reducible apply foldl_canonical) | (with_reducible refine Kept.mem (q := q) (v := v) ?_) | (with_reducible refine kept_snd (by assumption) ?_) | (with_reducible apply ite_kept) | (with_reducible apply id_kept) | (with_reducible apply ite_snd_kept) | (with_reducible apply ite_memOk) | (unfold x; clear x) | (simp -zeta only [Kept.upd_iff]) | (extract_lets +onlyGivenNames x; have hx : Kept q v x := ?_; try clear_value x) | (extract_lets +onlyGivenNames x; have hx : Kept q v x.2 := ?_; try clear_value x) | (with_reducible apply hf) | (extract_lets +onlyGivenNames x; have hf : ∀ s, Kept q v s → Kept q v (x s) := ?_; try clear_value x) | (extract_lets +onlyGivenNames x; have hf : ∀ s a, Kept q v s → Kept q v (x s a) := ?_; try clear_value x) | (extract_lets +onlyGivenNames x; have hx : MemOk x := ?_; try clear_value x) | (extract_lets +onlyGivenNames x; try clear_value x) | split | (with_reducible apply optKept_some) | (with_reducible apply next_kept) | (with_reducible exact optKept_none) | (simp -zeta only [Kept.updMem_iff]) | (with_reducible apply keptM) | (with_reducible apply canonical_withRb) | (with_reducible apply canonical_withCc) | (with_reducible apply canonical_foldl_tset) | (with_reducible apply canonical_tdel) | (with_reducible refine canonical_rb (Kept.mem (q := q) (v := v) ?_)) | (with_reducible apply canonical_rb) | (with_reducible refine canonical_cc (Kept.mem (q := q) (v := v) ?_)))

theorem State.sendSym3_kept (s : State) (p : Nat) (y : Sym)  (h0 : Kept q v s) : Kept q v (State.sendSym3 s p y) := by
  unfold State.sendSym3
  repeat' (first | (with_reducible assumption) | (with_reducible apply State.sendSym_kept) | intro _ | (with_reducible apply forEach_kept) | (with_reducible apply foldl_kept) | (with_reducible apply foldl_snd_kept) | (with_reducible apply forEach_canonical) | (with_reducible apply foldl_canonical) | (with_reducible refine Kept.mem (q := q) (v := v) ?_) | (with_reducible refine kept_snd (by assumption) ?_) | (with_reducible apply ite_kept) | (with_reducible apply id_kept) | (with_reducible apply ite_snd_kept) | (with_reducible apply ite_memOk) | (unfold x; clear x) | (simp -zeta only [Kept.upd_iff]) | (extract_lets +onlyGivenNames x; have hx : Kept q v x := ?_; try clear_value x) | (extract_lets +onlyGivenNames x; have hx : Kept q v x.2 := ?_; try clear_value x) | (with_reducible apply hf) | (extract_lets +onlyGivenNames x; have hf : ∀ s, Kept q v s → Kept q v (x s) := ?_; try clear_value x) | (extract_lets +onlyGivenNames x; have hf : ∀ s a, Kept q v s → Kept q v (x s a) := ?_; try clear_value x) | (extract_lets +onlyGivenNames x; have hx : MemOk x := ?_; try clear_value x) | (extract_lets +onlyGivenNames x; try clear_value x) | split | (with_reducible apply optKept_some) | (with_reducible apply next_kept) | (with_reducible exact optKept_none) | (simp -zeta only [Kept.updMem_iff]) | (with_reducible apply keptM) | (with_reducible apply canonical_withRb) | (with_reducible apply canonical_withCc) | (with_reducible apply canonical_foldl_tset) | (with_reducible apply canonical_tdel) | (with_reducible refine canonical_rb (Kept.mem (q := q) (v := v) ?_)) | (with_reducible apply canonical_rb) | (with_reducible refine canonical_cc (Kept.mem (q := q) (v := v) ?_)))

theorem State.sendSym3All_kept (s : State) (ps : List Nat) (y : Sym)  (h0 : Kept q v s) : Kept q v (State.sendSym3All s ps y) := by
  unfold State.sendSym3All
  repeat' (first | (with_reducible assumption) | (with_reducible apply forEach_kept) | (with_reducible apply State.sendSym3_kept) | intro _ | (with_reducible apply forEach_kept) | (with_reducible apply foldl_kept) | (with_reducible apply foldl_snd_kept) | (with_reducible apply forEach_canonical) | (with_reducible apply foldl_canonical) | (with_reducible refine Kept.mem (q := q) (v := v) ?_) | (with_reducible refine kept_snd (by assumption) ?_) | (with_reducible apply ite_kept) | (with_reducible apply id_kept) | (with_reducible apply ite_snd_kept) | (with_reducible apply ite_memOk) | (unfold x; clear x) | (simp -zeta only [Kept.upd_iff]) | (extract_lets +onlyGivenNames x; have hx : Kept q v x := ?_; try clear_value x) | (extract_lets +onlyGivenNames x; have hx : Kept q v x.2 := ?_; try clear_value x) | (with_reducible apply hf) | (extract_lets +onlyGivenNames x; have hf : ∀ s, Kept q v s → Kept q v (x s) := ?_; try clear_value x) | (extract_lets +onlyGivenNames x; have hf : ∀ s a, Kept q v s → Kept q v (x s a) := ?_; try clear_value x) | (extract_lets +onlyGivenNames x; have hx : MemOk x := ?_; try clear_value x) | (extract_lets +onlyGivenNames x; try clear_value x) | split | (with_reducible apply optKept_some) | (with_reducible apply next_kept) | (with_reducible exact optKept_none) | (simp -zeta only [Kept.updMem_iff]) | (with_reducible apply keptM) | (with_reducible apply canonical_withRb) | (with_reducible apply canonical_withCc) | (with_reducible apply canonical_foldl_tset) | (with_reducible apply canonical_tdel) | (with_reducible refine canonical_rb (Kept.mem (q := q) (v := v) ?_)) | (with_reducible apply canonical_rb) | (with_reducible refine canonical_cc (Kept.mem (q := q) (v := v) ?_)))

theorem State.sendCnet_kept (s : State) (m : CnetMsg)  (h0 : Kept q v s) : Kept q v (State.sendCnet s m) := by
  unfold State.sendCnet
  repeat' (first | (with_reducible assumption) | (with_reducible apply State.trace_kept) | intro _ | (with_reducible apply forEach_kept) | (with_reducible apply foldl_kept) | (with_reducible apply foldl_snd_kept) | (with_reducible apply forEach_canonical) | (with_reducible apply foldl_canonical) | (with_reducible refine Kept.mem (q := q) (v := v) ?_) | (with_reducible refine kept_snd (by assumption) ?_) | (with_reducible apply ite_kept) | (with_reducible apply id_kept) | (with_reducible apply ite_snd_kept) | (with_reducible apply ite_memOk) | (unfold x; clear x) | (simp -zeta only [Kept.upd_iff]) | (extract_lets +onlyGivenNames x; have hx : Kept q v x := ?_; try clear_value x) | (extract_lets +onlyGivenNames x; have hx : Kept q v x.2 := ?_; try clear_value x) | (with_reducible apply hf) | (extract_lets +onlyGivenNames x; have hf : ∀ s, Kept q v s → Kept q v (x s) := ?_; try clear_value x) | (extract_lets +onlyGivenNames x; have hf : ∀ s a, Kept q v s → Kept q v (x s a) := ?_; try clear_value x) | (extract_lets +onlyGivenNames x; have hx : MemOk x := ?_; try clear_value x) | (extract_lets +onlyGivenNames x; try clear_value x) | split | (with_reducible apply optKept_some) | (with_reducible apply next_kept) | (with_reducible exact optKept_none) | (simp -zeta only [Kept.updMem_iff]) | (with_reducible apply keptM) | (with_reducible apply canonical_withRb) | (with_reducible apply canonical_withCc) | (with_reducible apply canonical_foldl_tset) | (with_reducible apply canonical_tdel) | (with_reducible refine canonical_rb (Kept.mem (q := q) (v := v) ?_)) | (with_reducible apply canonical_rb) | (with_reducible refine canonical_cc (Kept.mem (q := q) (v := v) ?_)))

theorem State.nameHalt_kept (s : State) (p : Nat) (bell : Nat) (reason : Nat) (declarer : Nat) (late : Bool)  (h0 : Kept q v s) : Kept q v (State.nameHalt s p bell reason declarer late) := by
  unfold State.nameHalt
  repeat' (first | (with_reducible assumption) | (with_reducible apply State.modCrs_kept) | (with_reducible apply State.setPair_kept) | (with_reducible apply State.setB_kept) | (with_reducible apply State.setCourseState_kept) | intro _ | (with_reducible apply forEach_kept) | (with_reducible apply foldl_kept) | (with_reducible apply foldl_snd_kept) | (with_reducible apply forEach_canonical) | (with_reducible apply foldl_canonical) | (with_reducible refine Kept.mem (q := q) (v := v) ?_) | (with_reducible refine kept_snd (by assumption) ?_) | (with_reducible apply ite_kept) | (with_reducible apply id_kept) | (with_reducible apply ite_snd_kept) | (with_reducible apply ite_memOk) | (unfold x; clear x) | (simp -zeta only [Kept.upd_iff]) | (extract_lets +onlyGivenNames x; have hx : Kept q v x := ?_; try clear_value x) | (extract_lets +onlyGivenNames x; have hx : Kept q v x.2 := ?_; try clear_value x) | (with_reducible apply hf) | (extract_lets +onlyGivenNames x; have hf : ∀ s, Kept q v s → Kept q v (x s) := ?_; try clear_value x) | (extract_lets +onlyGivenNames x; have hf : ∀ s a, Kept q v s → Kept q v (x s a) := ?_; try clear_value x) | (extract_lets +onlyGivenNames x; have hx : MemOk x := ?_; try clear_value x) | (extract_lets +onlyGivenNames x; try clear_value x) | split | (with_reducible apply optKept_some) | (with_reducible apply next_kept) | (with_reducible exact optKept_none) | (simp -zeta only [Kept.updMem_iff]) | (with_reducible apply keptM) | (with_reducible apply canonical_withRb) | (with_reducible apply canonical_withCc) | (with_reducible apply canonical_foldl_tset) | (with_reducible apply canonical_tdel) | (with_reducible refine canonical_rb (Kept.mem (q := q) (v := v) ?_)) | (with_reducible apply canonical_rb) | (with_reducible refine canonical_cc (Kept.mem (q := q) (v := v) ?_)))

theorem State.declareHalt_kept (s : State) (p : Nat) (cause : Nat)  (h0 : Kept q v s) : Kept q v (State.declareHalt s p cause) := by
  unfold State.declareHalt
  repeat' (first | (with_reducible assumption) | (with_reducible apply State.nameHalt_kept) | (with_reducible apply State.modCrs_kept) | (with_reducible apply State.sendSym3All_kept) | intro _ | (with_reducible apply forEach_kept) | (with_reducible apply foldl_kept) | (with_reducible apply foldl_snd_kept) | (with_reducible apply forEach_canonical) | (with_reducible apply foldl_canonical) | (with_reducible refine Kept.mem (q := q) (v := v) ?_) | (with_reducible refine kept_snd (by assumption) ?_) | (with_reducible apply ite_kept) | (with_reducible apply id_kept) | (with_reducible apply ite_snd_kept) | (with_reducible apply ite_memOk) | (unfold x; clear x) | (simp -zeta only [Kept.upd_iff]) | (extract_lets +onlyGivenNames x; have hx : Kept q v x := ?_; try clear_value x) | (extract_lets +onlyGivenNames x; have hx : Kept q v x.2 := ?_; try clear_value x) | (with_reducible apply hf) | (extract_lets +onlyGivenNames x; have hf : ∀ s, Kept q v s → Kept q v (x s) := ?_; try clear_value x) | (extract_lets +onlyGivenNames x; have hf : ∀ s a, Kept q v s → Kept q v (x s a) := ?_; try clear_value x) | (extract_lets +onlyGivenNames x; have hx : MemOk x := ?_; try clear_value x) | (extract_lets +onlyGivenNames x; try clear_value x) | split | (with_reducible apply optKept_some) | (with_reducible apply next_kept) | (with_reducible exact optKept_none) | (simp -zeta only [Kept.updMem_iff]) | (with_reducible apply keptM) | (with_reducible apply canonical_withRb) | (with_reducible apply canonical_withCc) | (with_reducible apply canonical_foldl_tset) | (with_reducible apply canonical_tdel) | (with_reducible refine canonical_rb (Kept.mem (q := q) (v := v) ?_)) | (with_reducible apply canonical_rb) | (with_reducible refine canonical_cc (Kept.mem (q := q) (v := v) ?_)))

theorem State.outOfStep_kept (s : State) (cause : Nat)  (h0 : Kept q v s) : Kept q v (State.outOfStep s cause) := by
  unfold State.outOfStep
  repeat' (first | (with_reducible assumption) | (with_reducible apply State.setB_kept) | (with_reducible apply State.raise_kept) | (with_reducible apply forEach_kept) | (with_reducible apply State.declareHalt_kept) | intro _ | (with_reducible apply forEach_kept) | (with_reducible apply foldl_kept) | (with_reducible apply foldl_snd_kept) | (with_reducible apply forEach_canonical) | (with_reducible apply foldl_canonical) | (with_reducible refine Kept.mem (q := q) (v := v) ?_) | (with_reducible refine kept_snd (by assumption) ?_) | (with_reducible apply ite_kept) | (with_reducible apply id_kept) | (with_reducible apply ite_snd_kept) | (with_reducible apply ite_memOk) | (unfold x; clear x) | (simp -zeta only [Kept.upd_iff]) | (extract_lets +onlyGivenNames x; have hx : Kept q v x := ?_; try clear_value x) | (extract_lets +onlyGivenNames x; have hx : Kept q v x.2 := ?_; try clear_value x) | (with_reducible apply hf) | (extract_lets +onlyGivenNames x; have hf : ∀ s, Kept q v s → Kept q v (x s) := ?_; try clear_value x) | (extract_lets +onlyGivenNames x; have hf : ∀ s a, Kept q v s → Kept q v (x s a) := ?_; try clear_value x) | (extract_lets +onlyGivenNames x; have hx : MemOk x := ?_; try clear_value x) | (extract_lets +onlyGivenNames x; try clear_value x) | split | (with_reducible apply optKept_some) | (with_reducible apply next_kept) | (with_reducible exact optKept_none) | (simp -zeta only [Kept.updMem_iff]) | (with_reducible apply keptM) | (with_reducible apply canonical_withRb) | (with_reducible apply canonical_withCc) | (with_reducible apply canonical_foldl_tset) | (with_reducible apply canonical_tdel) | (with_reducible refine canonical_rb (Kept.mem (q := q) (v := v) ?_)) | (with_reducible apply canonical_rb) | (with_reducible refine canonical_cc (Kept.mem (q := q) (v := v) ?_)))

end Sys2Proof.Machine
end

