-- ==== Sys2Proof/Laws/KeptCodes.lean ====
section
/-! SUPPORT. Every definition of Machine/Codes keeps the queue, the variant and the canonical forms. -/

namespace Sys2Proof.Machine

set_option linter.all false

variable {q : List Instr} {v : Variant}

theorem State.tbFault_kept (s : State) (lt : Nat) (off : Nat) (kind : Nat)  (h0 : Kept q v s) : Kept q v (State.tbFault s lt off kind) := by
  unfold State.tbFault
  repeat' (first | (with_reducible assumption) | (with_reducible apply State.setF_kept) | (with_reducible apply State.setB_kept) | intro _ | (with_reducible apply forEach_kept) | (with_reducible apply foldl_kept) | (with_reducible apply foldl_snd_kept) | (with_reducible apply forEach_canonical) | (with_reducible apply foldl_canonical) | (with_reducible refine Kept.mem (q := q) (v := v) ?_) | (with_reducible refine kept_snd (by assumption) ?_) | (with_reducible apply ite_kept) | (with_reducible apply id_kept) | (with_reducible apply ite_snd_kept) | (with_reducible apply ite_memOk) | (unfold x; clear x) | (simp -zeta only [Kept.upd_iff]) | (extract_lets +onlyGivenNames x; have hx : Kept q v x := ?_; try clear_value x) | (extract_lets +onlyGivenNames x; have hx : Kept q v x.2 := ?_; try clear_value x) | (with_reducible apply hf) | (extract_lets +onlyGivenNames x; have hf : ∀ s, Kept q v s → Kept q v (x s) := ?_; try clear_value x) | (extract_lets +onlyGivenNames x; have hf : ∀ s a, Kept q v s → Kept q v (x s a) := ?_; try clear_value x) | (extract_lets +onlyGivenNames x; have hx : MemOk x := ?_; try clear_value x) | (extract_lets +onlyGivenNames x; try clear_value x) | split | (with_reducible apply optKept_some) | (with_reducible apply next_kept) | (with_reducible exact optKept_none) | (simp -zeta only [Kept.updMem_iff]) | (with_reducible apply keptM) | (with_reducible apply canonical_withRb) | (with_reducible apply canonical_withCc) | (with_reducible apply canonical_foldl_tset) | (with_reducible apply canonical_tdel) | (with_reducible refine canonical_rb (Kept.mem (q := q) (v := v) ?_)) | (with_reducible apply canonical_rb) | (with_reducible refine canonical_cc (Kept.mem (q := q) (v := v) ?_)))

theorem State.tbCount_kept (s : State) (m : MemSt) (lt : Nat) (off : Nat) (n : Nat)  (h0 : Kept q v s) : Kept q v (State.tbCount s m lt off n) := by
  unfold State.tbCount
  repeat' (first | (with_reducible assumption) | (with_reducible apply forEach_kept) | (with_reducible apply State.incF_kept) | (with_reducible apply State.tbFault_kept) | intro _ | (with_reducible apply forEach_kept) | (with_reducible apply foldl_kept) | (with_reducible apply foldl_snd_kept) | (with_reducible apply forEach_canonical) | (with_reducible apply foldl_canonical) | (with_reducible refine Kept.mem (q := q) (v := v) ?_) | (with_reducible refine kept_snd (by assumption) ?_) | (with_reducible apply ite_kept) | (with_reducible apply id_kept) | (with_reducible apply ite_snd_kept) | (with_reducible apply ite_memOk) | (unfold x; clear x) | (simp -zeta only [Kept.upd_iff]) | (extract_lets +onlyGivenNames x; have hx : Kept q v x := ?_; try clear_value x) | (extract_lets +onlyGivenNames x; have hx : Kept q v x.2 := ?_; try clear_value x) | (with_reducible apply hf) | (extract_lets +onlyGivenNames x; have hf : ∀ s, Kept q v s → Kept q v (x s) := ?_; try clear_value x) | (extract_lets +onlyGivenNames x; have hf : ∀ s a, Kept q v s → Kept q v (x s a) := ?_; try clear_value x) | (extract_lets +onlyGivenNames x; have hx : MemOk x := ?_; try clear_value x) | (extract_lets +onlyGivenNames x; try clear_value x) | split | (with_reducible apply optKept_some) | (with_reducible apply next_kept) | (with_reducible exact optKept_none) | (simp -zeta only [Kept.updMem_iff]) | (with_reducible apply keptM) | (with_reducible apply canonical_withRb) | (with_reducible apply canonical_withCc) | (with_reducible apply canonical_foldl_tset) | (with_reducible apply canonical_tdel) | (with_reducible refine canonical_rb (Kept.mem (q := q) (v := v) ?_)) | (with_reducible apply canonical_rb) | (with_reducible refine canonical_cc (Kept.mem (q := q) (v := v) ?_)))

theorem State.tbRead_kept (s : State) (m : MemSt) (lt : Nat) (off : Nat) (n : Nat) (timed : Bool)  (h0 : Kept q v s) : Kept q v (State.tbRead s m lt off n timed).2 := by
  unfold State.tbRead
  repeat' (first | (with_reducible assumption) | (with_reducible apply State.tbCount_kept) | (with_reducible apply State.incF_kept) | intro _ | (with_reducible apply forEach_kept) | (with_reducible apply foldl_kept) | (with_reducible apply foldl_snd_kept) | (with_reducible apply forEach_canonical) | (with_reducible apply foldl_canonical) | (with_reducible refine Kept.mem (q := q) (v := v) ?_) | (with_reducible refine kept_snd (by assumption) ?_) | (with_reducible apply ite_kept) | (with_reducible apply id_kept) | (with_reducible apply ite_snd_kept) | (with_reducible apply ite_memOk) | (unfold x; clear x) | (simp -zeta only [Kept.upd_iff]) | (extract_lets +onlyGivenNames x; have hx : Kept q v x := ?_; try clear_value x) | (extract_lets +onlyGivenNames x; have hx : Kept q v x.2 := ?_; try clear_value x) | (with_reducible apply hf) | (extract_lets +onlyGivenNames x; have hf : ∀ s, Kept q v s → Kept q v (x s) := ?_; try clear_value x) | (extract_lets +onlyGivenNames x; have hf : ∀ s a, Kept q v s → Kept q v (x s a) := ?_; try clear_value x) | (extract_lets +onlyGivenNames x; have hx : MemOk x := ?_; try clear_value x) | (extract_lets +onlyGivenNames x; try clear_value x) | split | (with_reducible apply optKept_some) | (with_reducible apply next_kept) | (with_reducible exact optKept_none) | (simp -zeta only [Kept.updMem_iff]) | (with_reducible apply keptM) | (with_reducible apply canonical_withRb) | (with_reducible apply canonical_withCc) | (with_reducible apply canonical_foldl_tset) | (with_reducible apply canonical_tdel) | (with_reducible refine canonical_rb (Kept.mem (q := q) (v := v) ?_)) | (with_reducible apply canonical_rb) | (with_reducible refine canonical_cc (Kept.mem (q := q) (v := v) ?_)))

theorem State.tbConflict_kept (s : State) (lt : Nat) (off : Nat) (n : Nat)  (h0 : Kept q v s) : Kept q v (State.tbConflict s lt off n) := by
  unfold State.tbConflict
  repeat' (first | (with_reducible assumption) | (with_reducible apply State.incF_kept) | (with_reducible apply State.tbFault_kept) | (with_reducible apply State.modTile_kept) | (with_reducible apply State.raise_kept) | intro _ | (with_reducible apply forEach_kept) | (with_reducible apply foldl_kept) | (with_reducible apply foldl_snd_kept) | (with_reducible apply forEach_canonical) | (with_reducible apply foldl_canonical) | (with_reducible refine Kept.mem (q := q) (v := v) ?_) | (with_reducible refine kept_snd (by assumption) ?_) | (with_reducible apply ite_kept) | (with_reducible apply id_kept) | (with_reducible apply ite_snd_kept) | (with_reducible apply ite_memOk) | (unfold x; clear x) | (simp -zeta only [Kept.upd_iff]) | (extract_lets +onlyGivenNames x; have hx : Kept q v x := ?_; try clear_value x) | (extract_lets +onlyGivenNames x; have hx : Kept q v x.2 := ?_; try clear_value x) | (with_reducible apply hf) | (extract_lets +onlyGivenNames x; have hf : ∀ s, Kept q v s → Kept q v (x s) := ?_; try clear_value x) | (extract_lets +onlyGivenNames x; have hf : ∀ s a, Kept q v s → Kept q v (x s a) := ?_; try clear_value x) | (extract_lets +onlyGivenNames x; have hx : MemOk x := ?_; try clear_value x) | (extract_lets +onlyGivenNames x; try clear_value x) | split | (with_reducible apply optKept_some) | (with_reducible apply next_kept) | (with_reducible exact optKept_none) | (simp -zeta only [Kept.updMem_iff]) | (with_reducible apply keptM) | (with_reducible apply canonical_withRb) | (with_reducible apply canonical_withCc) | (with_reducible apply canonical_foldl_tset) | (with_reducible apply canonical_tdel) | (with_reducible refine canonical_rb (Kept.mem (q := q) (v := v) ?_)) | (with_reducible apply canonical_rb) | (with_reducible refine canonical_cc (Kept.mem (q := q) (v := v) ?_)))

theorem State.withdraw_kept (s : State) (lt : Nat) (u : SliceUse)  (h0 : Kept q v s) : Kept q v (State.withdraw s lt u) := by
  unfold State.withdraw
  repeat' (first | (with_reducible assumption) | (with_reducible apply memOk_spoilUse) | (with_reducible apply State.modChan_kept) | (with_reducible apply State.drawn_kept) | intro _ | (with_reducible apply forEach_kept) | (with_reducible apply foldl_kept) | (with_reducible apply foldl_snd_kept) | (with_reducible apply forEach_canonical) | (with_reducible apply foldl_canonical) | (with_reducible refine Kept.mem (q := q) (v := v) ?_) | (with_reducible refine kept_snd (by assumption) ?_) | (with_reducible apply ite_kept) | (with_reducible apply id_kept) | (with_reducible apply ite_snd_kept) | (with_reducible apply ite_memOk) | (unfold x; clear x) | (simp -zeta only [Kept.upd_iff]) | (extract_lets +onlyGivenNames x; have hx : Kept q v x := ?_; try clear_value x) | (extract_lets +onlyGivenNames x; have hx : Kept q v x.2 := ?_; try clear_value x) | (with_reducible apply hf) | (extract_lets +onlyGivenNames x; have hf : ∀ s, Kept q v s → Kept q v (x s) := ?_; try clear_value x) | (extract_lets +onlyGivenNames x; have hf : ∀ s a, Kept q v s → Kept q v (x s a) := ?_; try clear_value x) | (extract_lets +onlyGivenNames x; have hx : MemOk x := ?_; try clear_value x) | (extract_lets +onlyGivenNames x; try clear_value x) | split | (with_reducible apply optKept_some) | (with_reducible apply next_kept) | (with_reducible exact optKept_none) | (simp -zeta only [Kept.updMem_iff]) | (with_reducible apply keptM) | (with_reducible apply canonical_withRb) | (with_reducible apply canonical_withCc) | (with_reducible apply canonical_foldl_tset) | (with_reducible apply canonical_tdel) | (with_reducible refine canonical_rb (Kept.mem (q := q) (v := v) ?_)) | (with_reducible apply canonical_rb) | (with_reducible refine canonical_cc (Kept.mem (q := q) (v := v) ?_)))

theorem State.giveWay_kept (s : State) (lt : Nat) (u : SliceUse)  (h0 : Kept q v s) : Kept q v (State.giveWay s lt u) := by
  unfold State.giveWay
  repeat' (first | (with_reducible assumption) | (with_reducible apply forEach_kept) | (with_reducible apply memOk_tbUndo) | (with_reducible apply memOk_setSlotPoison) | (with_reducible apply State.withdraw_kept) | intro _ | (with_reducible apply forEach_kept) | (with_reducible apply foldl_kept) | (with_reducible apply foldl_snd_kept) | (with_reducible apply forEach_canonical) | (with_reducible apply foldl_canonical) | (with_reducible refine Kept.mem (q := q) (v := v) ?_) | (with_reducible refine kept_snd (by assumption) ?_) | (with_reducible apply ite_kept) | (with_reducible apply id_kept) | (with_reducible apply ite_snd_kept) | (with_reducible apply ite_memOk) | (unfold x; clear x) | (simp -zeta only [Kept.upd_iff]) | (extract_lets +onlyGivenNames x; have hx : Kept q v x := ?_; try clear_value x) | (extract_lets +onlyGivenNames x; have hx : Kept q v x.2 := ?_; try clear_value x) | (with_reducible apply hf) | (extract_lets +onlyGivenNames x; have hf : ∀ s, Kept q v s → Kept q v (x s) := ?_; try clear_value x) | (extract_lets +onlyGivenNames x; have hf : ∀ s a, Kept q v s → Kept q v (x s a) := ?_; try clear_value x) | (extract_lets +onlyGivenNames x; have hx : MemOk x := ?_; try clear_value x) | (extract_lets +onlyGivenNames x; try clear_value x) | split | (with_reducible apply optKept_some) | (with_reducible apply next_kept) | (with_reducible exact optKept_none) | (simp -zeta only [Kept.updMem_iff]) | (with_reducible apply keptM) | (with_reducible apply canonical_withRb) | (with_reducible apply canonical_withCc) | (with_reducible apply canonical_foldl_tset) | (with_reducible apply canonical_tdel) | (with_reducible refine canonical_rb (Kept.mem (q := q) (v := v) ?_)) | (with_reducible apply canonical_rb) | (with_reducible refine canonical_cc (Kept.mem (q := q) (v := v) ?_)))

theorem State.useSlices_kept (s : State) (lt : Nat) (cycle : Nat) (port : Nat) (prio : Nat) (off : Nat) (n : Nat) (sink : Option Nat)  (h0 : Kept q v s) : Kept q v (State.useSlices s lt cycle port prio off n sink).2 := by
  unfold State.useSlices
  repeat' (first | (with_reducible assumption) | (with_reducible apply forEach_kept) | (with_reducible apply State.giveWay_kept) | (with_reducible apply State.modTile_kept) | (with_reducible apply State.tbConflict_kept) | intro _ | (with_reducible apply forEach_kept) | (with_reducible apply foldl_kept) | (with_reducible apply foldl_snd_kept) | (with_reducible apply forEach_canonical) | (with_reducible apply foldl_canonical) | (with_reducible refine Kept.mem (q := q) (v := v) ?_) | (with_reducible refine kept_snd (by assumption) ?_) | (with_reducible apply ite_kept) | (with_reducible apply id_kept) | (with_reducible apply ite_snd_kept) | (with_reducible apply ite_memOk) | (unfold x; clear x) | (simp -zeta only [Kept.upd_iff]) | (extract_lets +onlyGivenNames x; have hx : Kept q v x := ?_; try clear_value x) | (extract_lets +onlyGivenNames x; have hx : Kept q v x.2 := ?_; try clear_value x) | (with_reducible apply hf) | (extract_lets +onlyGivenNames x; have hf : ∀ s, Kept q v s → Kept q v (x s) := ?_; try clear_value x) | (extract_lets +onlyGivenNames x; have hf : ∀ s a, Kept q v s → Kept q v (x s a) := ?_; try clear_value x) | (extract_lets +onlyGivenNames x; have hx : MemOk x := ?_; try clear_value x) | (extract_lets +onlyGivenNames x; try clear_value x) | split | (with_reducible apply optKept_some) | (with_reducible apply next_kept) | (with_reducible exact optKept_none) | (simp -zeta only [Kept.updMem_iff]) | (with_reducible apply keptM) | (with_reducible apply canonical_withRb) | (with_reducible apply canonical_withCc) | (with_reducible apply canonical_foldl_tset) | (with_reducible apply canonical_tdel) | (with_reducible refine canonical_rb (Kept.mem (q := q) (v := v) ?_)) | (with_reducible apply canonical_rb) | (with_reducible refine canonical_cc (Kept.mem (q := q) (v := v) ?_)))

theorem State.tbPortRead_kept (s : State) (lt : Nat) (cycle : Nat) (port : Nat) (prio : Nat) (off : Nat) (n : Nat) (sink : Option Nat := none)  (h0 : Kept q v s) : Kept q v (State.tbPortRead s lt cycle port prio off n sink).2 := by
  unfold State.tbPortRead
  repeat' (first | (with_reducible assumption) | (with_reducible apply State.useSlices_kept) | (with_reducible apply State.tbRead_kept) | (with_reducible apply State.drawn_kept) | intro _ | (with_reducible apply forEach_kept) | (with_reducible apply foldl_kept) | (with_reducible apply foldl_snd_kept) | (with_reducible apply forEach_canonical) | (with_reducible apply foldl_canonical) | (with_reducible refine Kept.mem (q := q) (v := v) ?_) | (with_reducible refine kept_snd (by assumption) ?_) | (with_reducible apply ite_kept) | (with_reducible apply id_kept) | (with_reducible apply ite_snd_kept) | (with_reducible apply ite_memOk) | (unfold x; clear x) | (simp -zeta only [Kept.upd_iff]) | (extract_lets +onlyGivenNames x; have hx : Kept q v x := ?_; try clear_value x) | (extract_lets +onlyGivenNames x; have hx : Kept q v x.2 := ?_; try clear_value x) | (with_reducible apply hf) | (extract_lets +onlyGivenNames x; have hf : ∀ s, Kept q v s → Kept q v (x s) := ?_; try clear_value x) | (extract_lets +onlyGivenNames x; have hf : ∀ s a, Kept q v s → Kept q v (x s a) := ?_; try clear_value x) | (extract_lets +onlyGivenNames x; have hx : MemOk x := ?_; try clear_value x) | (extract_lets +onlyGivenNames x; try clear_value x) | split | (with_reducible apply optKept_some) | (with_reducible apply next_kept) | (with_reducible exact optKept_none) | (simp -zeta only [Kept.updMem_iff]) | (with_reducible apply keptM) | (with_reducible apply canonical_withRb) | (with_reducible apply canonical_withCc) | (with_reducible apply canonical_foldl_tset) | (with_reducible apply canonical_tdel) | (with_reducible refine canonical_rb (Kept.mem (q := q) (v := v) ?_)) | (with_reducible apply canonical_rb) | (with_reducible refine canonical_cc (Kept.mem (q := q) (v := v) ?_)))

theorem memOk_tbOutside {m : MemSt} (s : State) (lt off : Nat) (d : List Byte) (p : List Bool) (tag : Nat) (h : MemOk m) :
    MemOk (s.tbOutside lt off d p tag m) := by
  unfold State.tbOutside
  exact ite_memOk h (memOk_tbWrite h _ _ _ _ _)

theorem State.tbPortWrite_kept (s : State) (lt : Nat) (cycle : Nat) (port : Nat) (prio : Nat) (off : Nat) (data : List Byte) (poison : List Bool) (tag : Nat)  (h0 : Kept q v s) : Kept q v (State.tbPortWrite s lt cycle port prio off data poison tag) := by
  unfold State.tbPortWrite
  repeat' (first | (with_reducible assumption) | (with_reducible apply State.useSlices_kept) | (with_reducible apply forEach_kept) | (with_reducible apply memOk_setSlotPoison) | (with_reducible apply memOk_tbOutside) | intro _ | (with_reducible apply forEach_kept) | (with_reducible apply foldl_kept) | (with_reducible apply foldl_snd_kept) | (with_reducible apply forEach_canonical) | (with_reducible apply foldl_canonical) | (with_reducible refine Kept.mem (q := q) (v := v) ?_) | (with_reducible refine kept_snd (by assumption) ?_) | (with_reducible apply ite_kept) | (with_reducible apply id_kept) | (with_reducible apply ite_snd_kept) | (with_reducible apply ite_memOk) | (unfold x; clear x) | (simp -zeta only [Kept.upd_iff]) | (extract_lets +onlyGivenNames x; have hx : Kept q v x := ?_; try clear_value x) | (extract_lets +onlyGivenNames x; have hx : Kept q v x.2 := ?_; try clear_value x) | (with_reducible apply hf) | (extract_lets +onlyGivenNames x; have hf : ∀ s, Kept q v s → Kept q v (x s) := ?_; try clear_value x) | (extract_lets +onlyGivenNames x; have hf : ∀ s a, Kept q v s → Kept q v (x s a) := ?_; try clear_value x) | (extract_lets +onlyGivenNames x; have hx : MemOk x := ?_; try clear_value x) | (extract_lets +onlyGivenNames x; try clear_value x) | split | (with_reducible apply optKept_some) | (with_reducible apply next_kept) | (with_reducible exact optKept_none) | (simp -zeta only [Kept.updMem_iff]) | (with_reducible apply keptM) | (with_reducible apply canonical_withRb) | (with_reducible apply canonical_withCc) | (with_reducible apply canonical_foldl_tset) | (with_reducible apply canonical_tdel) | (with_reducible refine canonical_rb (Kept.mem (q := q) (v := v) ?_)) | (with_reducible apply canonical_rb) | (with_reducible refine canonical_cc (Kept.mem (q := q) (v := v) ?_)))

theorem State.memFaultAt_kept (s : State) (l : Nat) (a : Nat) (kind : Nat)  (h0 : Kept q v s) : Kept q v (State.memFaultAt s l a kind) := by
  unfold State.memFaultAt
  repeat' (first | (with_reducible assumption) | (with_reducible apply State.setF_kept) | (with_reducible apply State.setB_kept) | (with_reducible apply State.raise_kept) | intro _ | (with_reducible apply forEach_kept) | (with_reducible apply foldl_kept) | (with_reducible apply foldl_snd_kept) | (with_reducible apply forEach_canonical) | (with_reducible apply foldl_canonical) | (with_reducible refine Kept.mem (q := q) (v := v) ?_) | (with_reducible refine kept_snd (by assumption) ?_) | (with_reducible apply ite_kept) | (with_reducible apply id_kept) | (with_reducible apply ite_snd_kept) | (with_reducible apply ite_memOk) | (unfold x; clear x) | (simp -zeta only [Kept.upd_iff]) | (extract_lets +onlyGivenNames x; have hx : Kept q v x := ?_; try clear_value x) | (extract_lets +onlyGivenNames x; have hx : Kept q v x.2 := ?_; try clear_value x) | (with_reducible apply hf) | (extract_lets +onlyGivenNames x; have hf : ∀ s, Kept q v s → Kept q v (x s) := ?_; try clear_value x) | (extract_lets +onlyGivenNames x; have hf : ∀ s a, Kept q v s → Kept q v (x s a) := ?_; try clear_value x) | (extract_lets +onlyGivenNames x; have hx : MemOk x := ?_; try clear_value x) | (extract_lets +onlyGivenNames x; try clear_value x) | split | (with_reducible apply optKept_some) | (with_reducible apply next_kept) | (with_reducible exact optKept_none) | (simp -zeta only [Kept.updMem_iff]) | (with_reducible apply keptM) | (with_reducible apply canonical_withRb) | (with_reducible apply canonical_withCc) | (with_reducible apply canonical_foldl_tset) | (with_reducible apply canonical_tdel) | (with_reducible refine canonical_rb (Kept.mem (q := q) (v := v) ?_)) | (with_reducible apply canonical_rb) | (with_reducible refine canonical_cc (Kept.mem (q := q) (v := v) ?_)))

theorem State.memFault_kept (s : State) (a : Nat) (kind : Nat)  (h0 : Kept q v s) : Kept q v (State.memFault s a kind) := by
  unfold State.memFault
  repeat' (first | (with_reducible assumption) | (with_reducible apply State.memFaultAt_kept) | intro _ | (with_reducible apply forEach_kept) | (with_reducible apply foldl_kept) | (with_reducible apply foldl_snd_kept) | (with_reducible apply forEach_canonical) | (with_reducible apply foldl_canonical) | (with_reducible refine Kept.mem (q := q) (v := v) ?_) | (with_reducible refine kept_snd (by assumption) ?_) | (with_reducible apply ite_kept) | (with_reducible apply id_kept) | (with_reducible apply ite_snd_kept) | (with_reducible apply ite_memOk) | (unfold x; clear x) | (simp -zeta only [Kept.upd_iff]) | (extract_lets +onlyGivenNames x; have hx : Kept q v x := ?_; try clear_value x) | (extract_lets +onlyGivenNames x; have hx : Kept q v x.2 := ?_; try clear_value x) | (with_reducible apply hf) | (extract_lets +onlyGivenNames x; have hf : ∀ s, Kept q v s → Kept q v (x s) := ?_; try clear_value x) | (extract_lets +onlyGivenNames x; have hf : ∀ s a, Kept q v s → Kept q v (x s a) := ?_; try clear_value x) | (extract_lets +onlyGivenNames x; have hx : MemOk x := ?_; try clear_value x) | (extract_lets +onlyGivenNames x; try clear_value x) | split | (with_reducible apply optKept_some) | (with_reducible apply next_kept) | (with_reducible exact optKept_none) | (simp -zeta only [Kept.updMem_iff]) | (with_reducible apply keptM) | (with_reducible apply canonical_withRb) | (with_reducible apply canonical_withCc) | (with_reducible apply canonical_foldl_tset) | (with_reducible apply canonical_tdel) | (with_reducible refine canonical_rb (Kept.mem (q := q) (v := v) ?_)) | (with_reducible apply canonical_rb) | (with_reducible refine canonical_cc (Kept.mem (q := q) (v := v) ?_)))

theorem State.lkCount_kept (s : State) (a : Nat) (k : WordCheck)  (h0 : Kept q v s) : Kept q v (State.lkCount s a k) := by
  unfold State.lkCount
  repeat' (first | (with_reducible assumption) | (with_reducible apply State.incF_kept) | (with_reducible apply State.memFault_kept) | intro _ | (with_reducible apply forEach_kept) | (with_reducible apply foldl_kept) | (with_reducible apply foldl_snd_kept) | (with_reducible apply forEach_canonical) | (with_reducible apply foldl_canonical) | (with_reducible refine Kept.mem (q := q) (v := v) ?_) | (with_reducible refine kept_snd (by assumption) ?_) | (with_reducible apply ite_kept) | (with_reducible apply id_kept) | (with_reducible apply ite_snd_kept) | (with_reducible apply ite_memOk) | (unfold x; clear x) | (simp -zeta only [Kept.upd_iff]) | (extract_lets +onlyGivenNames x; have hx : Kept q v x := ?_; try clear_value x) | (extract_lets +onlyGivenNames x; have hx : Kept q v x.2 := ?_; try clear_value x) | (with_reducible apply hf) | (extract_lets +onlyGivenNames x; have hf : ∀ s, Kept q v s → Kept q v (x s) := ?_; try clear_value x) | (extract_lets +onlyGivenNames x; have hf : ∀ s a, Kept q v s → Kept q v (x s a) := ?_; try clear_value x) | (extract_lets +onlyGivenNames x; have hx : MemOk x := ?_; try clear_value x) | (extract_lets +onlyGivenNames x; try clear_value x) | split | (with_reducible apply optKept_some) | (with_reducible apply next_kept) | (with_reducible exact optKept_none) | (simp -zeta only [Kept.updMem_iff]) | (with_reducible apply keptM) | (with_reducible apply canonical_withRb) | (with_reducible apply canonical_withCc) | (with_reducible apply canonical_foldl_tset) | (with_reducible apply canonical_tdel) | (with_reducible refine canonical_rb (Kept.mem (q := q) (v := v) ?_)) | (with_reducible apply canonical_rb) | (with_reducible refine canonical_cc (Kept.mem (q := q) (v := v) ?_)))

theorem State.lkLoad_kept (s : State) (a : Nat)  (h0 : Kept q v s) : Kept q v (State.lkLoad s a).2 := by
  unfold State.lkLoad
  repeat' (first | (with_reducible assumption) | (with_reducible apply State.lkCount_kept) | intro _ | (with_reducible apply forEach_kept) | (with_reducible apply foldl_kept) | (with_reducible apply foldl_snd_kept) | (with_reducible apply forEach_canonical) | (with_reducible apply foldl_canonical) | (with_reducible refine Kept.mem (q := q) (v := v) ?_) | (with_reducible refine kept_snd (by assumption) ?_) | (with_reducible apply ite_kept) | (with_reducible apply id_kept) | (with_reducible apply ite_snd_kept) | (with_reducible apply ite_memOk) | (unfold x; clear x) | (simp -zeta only [Kept.upd_iff]) | (extract_lets +onlyGivenNames x; have hx : Kept q v x := ?_; try clear_value x) | (extract_lets +onlyGivenNames x; have hx : Kept q v x.2 := ?_; try clear_value x) | (with_reducible apply hf) | (extract_lets +onlyGivenNames x; have hf : ∀ s, Kept q v s → Kept q v (x s) := ?_; try clear_value x) | (extract_lets +onlyGivenNames x; have hf : ∀ s a, Kept q v s → Kept q v (x s a) := ?_; try clear_value x) | (extract_lets +onlyGivenNames x; have hx : MemOk x := ?_; try clear_value x) | (extract_lets +onlyGivenNames x; try clear_value x) | split | (with_reducible apply optKept_some) | (with_reducible apply next_kept) | (with_reducible exact optKept_none) | (simp -zeta only [Kept.updMem_iff]) | (with_reducible apply keptM) | (with_reducible apply canonical_withRb) | (with_reducible apply canonical_withCc) | (with_reducible apply canonical_foldl_tset) | (with_reducible apply canonical_tdel) | (with_reducible refine canonical_rb (Kept.mem (q := q) (v := v) ?_)) | (with_reducible apply canonical_rb) | (with_reducible refine canonical_cc (Kept.mem (q := q) (v := v) ?_)))

theorem State.lmStoreAt_kept (s : State) (a : Nat) (data : List Byte) (poison : Bool)  (h0 : Kept q v s) : Kept q v (State.lmStoreAt s a data poison) := by
  unfold State.lmStoreAt
  repeat' (first | (with_reducible assumption) | (with_reducible apply memOk_lmStoreBytes) | (with_reducible apply State.incF_kept) | intro _ | (with_reducible apply forEach_kept) | (with_reducible apply foldl_kept) | (with_reducible apply foldl_snd_kept) | (with_reducible apply forEach_canonical) | (with_reducible apply foldl_canonical) | (with_reducible refine Kept.mem (q := q) (v := v) ?_) | (with_reducible refine kept_snd (by assumption) ?_) | (with_reducible apply ite_kept) | (with_reducible apply id_kept) | (with_reducible apply ite_snd_kept) | (with_reducible apply ite_memOk) | (unfold x; clear x) | (simp -zeta only [Kept.upd_iff]) | (extract_lets +onlyGivenNames x; have hx : Kept q v x := ?_; try clear_value x) | (extract_lets +onlyGivenNames x; have hx : Kept q v x.2 := ?_; try clear_value x) | (with_reducible apply hf) | (extract_lets +onlyGivenNames x; have hf : ∀ s, Kept q v s → Kept q v (x s) := ?_; try clear_value x) | (extract_lets +onlyGivenNames x; have hf : ∀ s a, Kept q v s → Kept q v (x s a) := ?_; try clear_value x) | (extract_lets +onlyGivenNames x; have hx : MemOk x := ?_; try clear_value x) | (extract_lets +onlyGivenNames x; try clear_value x) | split | (with_reducible apply optKept_some) | (with_reducible apply next_kept) | (with_reducible exact optKept_none) | (simp -zeta only [Kept.updMem_iff]) | (with_reducible apply keptM) | (with_reducible apply canonical_withRb) | (with_reducible apply canonical_withCc) | (with_reducible apply canonical_foldl_tset) | (with_reducible apply canonical_tdel) | (with_reducible refine canonical_rb (Kept.mem (q := q) (v := v) ?_)) | (with_reducible apply canonical_rb) | (with_reducible refine canonical_cc (Kept.mem (q := q) (v := v) ?_)))

theorem State.svcReadPiece_kept (s : State) (a : Nat) (n : Nat)  (h0 : Kept q v s) : Kept q v (State.svcReadPiece s a n).2 := by
  unfold State.svcReadPiece
  repeat' (first | (with_reducible assumption) | (with_reducible apply State.lkLoad_kept) | (with_reducible apply State.tbRead_kept) | (with_reducible apply State.incF_kept) | intro _ | (with_reducible apply forEach_kept) | (with_reducible apply foldl_kept) | (with_reducible apply foldl_snd_kept) | (with_reducible apply forEach_canonical) | (with_reducible apply foldl_canonical) | (with_reducible refine Kept.mem (q := q) (v := v) ?_) | (with_reducible refine kept_snd (by assumption) ?_) | (with_reducible apply ite_kept) | (with_reducible apply id_kept) | (with_reducible apply ite_snd_kept) | (with_reducible apply ite_memOk) | (unfold x; clear x) | (simp -zeta only [Kept.upd_iff]) | (extract_lets +onlyGivenNames x; have hx : Kept q v x := ?_; try clear_value x) | (extract_lets +onlyGivenNames x; have hx : Kept q v x.2 := ?_; try clear_value x) | (with_reducible apply hf) | (extract_lets +onlyGivenNames x; have hf : ∀ s, Kept q v s → Kept q v (x s) := ?_; try clear_value x) | (extract_lets +onlyGivenNames x; have hf : ∀ s a, Kept q v s → Kept q v (x s a) := ?_; try clear_value x) | (extract_lets +onlyGivenNames x; have hx : MemOk x := ?_; try clear_value x) | (extract_lets +onlyGivenNames x; try clear_value x) | split | (with_reducible apply optKept_some) | (with_reducible apply next_kept) | (with_reducible exact optKept_none) | (simp -zeta only [Kept.updMem_iff]) | (with_reducible apply keptM) | (with_reducible apply canonical_withRb) | (with_reducible apply canonical_withCc) | (with_reducible apply canonical_foldl_tset) | (with_reducible apply canonical_tdel) | (with_reducible refine canonical_rb (Kept.mem (q := q) (v := v) ?_)) | (with_reducible apply canonical_rb) | (with_reducible refine canonical_cc (Kept.mem (q := q) (v := v) ?_)))

theorem svcReadPieces_kept (l : List (Nat × Nat)) : ∀ (s : State) (d : List Byte), Kept q v s → Kept q v (svcReadPieces s l d).2 := by
  induction l with
  | nil => intro s d h; exact h
  | cons x l ih => intro s d h; obtain ⟨a, n⟩ := x; unfold svcReadPieces; (repeat' (first | (with_reducible assumption) | (with_reducible apply ih) | (with_reducible apply State.svcReadPiece_kept) | intro _ | (with_reducible apply forEach_kept) | (with_reducible apply foldl_kept) | (with_reducible apply foldl_snd_kept) | (with_reducible apply forEach_canonical) | (with_reducible apply foldl_canonical) | (with_reducible refine Kept.mem (q := q) (v := v) ?_) | (with_reducible refine kept_snd (by assumption) ?_) | (with_reducible apply ite_kept) | (with_reducible apply id_kept) | (with_reducible apply ite_snd_kept) | (with_reducible apply ite_memOk) | (unfold x; clear x) | (simp -zeta only [Kept.upd_iff]) | (extract_lets +onlyGivenNames x; have hx : Kept q v x := ?_; try clear_value x) | (extract_lets +onlyGivenNames x; have hx : Kept q v x.2 := ?_; try clear_value x) | (with_reducible apply hf) | (extract_lets +onlyGivenNames x; have hf : ∀ s, Kept q v s → Kept q v (x s) := ?_; try clear_value x) | (extract_lets +onlyGivenNames x; have hf : ∀ s a, Kept q v s → Kept q v (x s a) := ?_; try clear_value x) | (extract_lets +onlyGivenNames x; have hx : MemOk x := ?_; try clear_value x) | (extract_lets +onlyGivenNames x; try clear_value x) | split | (with_reducible apply optKept_some) | (with_reducible apply next_kept) | (with_reducible exact optKept_none) | (simp -zeta only [Kept.updMem_iff]) | (with_reducible apply keptM) | (with_reducible apply canonical_withRb) | (with_reducible apply canonical_withCc) | (with_reducible apply canonical_foldl_tset) | (with_reducible apply canonical_tdel) | (with_reducible refine canonical_rb (Kept.mem (q := q) (v := v) ?_)) | (with_reducible apply canonical_rb) | (with_reducible refine canonical_cc (Kept.mem (q := q) (v := v) ?_))))

theorem State.svcRead_kept (s : State) (a : Nat) (n : Nat)  (h0 : Kept q v s) : Kept q v (State.svcRead s a n).2 := by
  unfold State.svcRead
  repeat' (first | (with_reducible assumption) | (with_reducible apply svcReadPieces_kept) | intro _ | (with_reducible apply forEach_kept) | (with_reducible apply foldl_kept) | (with_reducible apply foldl_snd_kept) | (with_reducible apply forEach_canonical) | (with_reducible apply foldl_canonical) | (with_reducible refine Kept.mem (q := q) (v := v) ?_) | (with_reducible refine kept_snd (by assumption) ?_) | (with_reducible apply ite_kept) | (with_reducible apply id_kept) | (with_reducible apply ite_snd_kept) | (with_reducible apply ite_memOk) | (unfold x; clear x) | (simp -zeta only [Kept.upd_iff]) | (extract_lets +onlyGivenNames x; have hx : Kept q v x := ?_; try clear_value x) | (extract_lets +onlyGivenNames x; have hx : Kept q v x.2 := ?_; try clear_value x) | (with_reducible apply hf) | (extract_lets +onlyGivenNames x; have hf : ∀ s, Kept q v s → Kept q v (x s) := ?_; try clear_value x) | (extract_lets +onlyGivenNames x; have hf : ∀ s a, Kept q v s → Kept q v (x s a) := ?_; try clear_value x) | (extract_lets +onlyGivenNames x; have hx : MemOk x := ?_; try clear_value x) | (extract_lets +onlyGivenNames x; try clear_value x) | split | (with_reducible apply optKept_some) | (with_reducible apply next_kept) | (with_reducible exact optKept_none) | (simp -zeta only [Kept.updMem_iff]) | (with_reducible apply keptM) | (with_reducible apply canonical_withRb) | (with_reducible apply canonical_withCc) | (with_reducible apply canonical_foldl_tset) | (with_reducible apply canonical_tdel) | (with_reducible refine canonical_rb (Kept.mem (q := q) (v := v) ?_)) | (with_reducible apply canonical_rb) | (with_reducible refine canonical_cc (Kept.mem (q := q) (v := v) ?_)))

theorem State.svcWritePiece_kept (s : State) (a : Nat) (d : List Byte)  (h0 : Kept q v s) : Kept q v (State.svcWritePiece s a d).2 := by
  unfold State.svcWritePiece
  repeat' (first | (with_reducible assumption) | (with_reducible apply memOk_lkStore) | (with_reducible apply State.lkLoad_kept) | (with_reducible apply memOk_tbWrite) | (with_reducible apply State.lmStoreAt_kept) | (with_reducible apply memOk_memWrite) | intro _ | (with_reducible apply forEach_kept) | (with_reducible apply foldl_kept) | (with_reducible apply foldl_snd_kept) | (with_reducible apply forEach_canonical) | (with_reducible apply foldl_canonical) | (with_reducible refine Kept.mem (q := q) (v := v) ?_) | (with_reducible refine kept_snd (by assumption) ?_) | (with_reducible apply ite_kept) | (with_reducible apply id_kept) | (with_reducible apply ite_snd_kept) | (with_reducible apply ite_memOk) | (unfold x; clear x) | (simp -zeta only [Kept.upd_iff]) | (extract_lets +onlyGivenNames x; have hx : Kept q v x := ?_; try clear_value x) | (extract_lets +onlyGivenNames x; have hx : Kept q v x.2 := ?_; try clear_value x) | (with_reducible apply hf) | (extract_lets +onlyGivenNames x; have hf : ∀ s, Kept q v s → Kept q v (x s) := ?_; try clear_value x) | (extract_lets +onlyGivenNames x; have hf : ∀ s a, Kept q v s → Kept q v (x s a) := ?_; try clear_value x) | (extract_lets +onlyGivenNames x; have hx : MemOk x := ?_; try clear_value x) | (extract_lets +onlyGivenNames x; try clear_value x) | split | (with_reducible apply optKept_some) | (with_reducible apply next_kept) | (with_reducible exact optKept_none) | (simp -zeta only [Kept.updMem_iff]) | (with_reducible apply keptM) | (with_reducible apply canonical_withRb) | (with_reducible apply canonical_withCc) | (with_reducible apply canonical_foldl_tset) | (with_reducible apply canonical_tdel) | (with_reducible refine canonical_rb (Kept.mem (q := q) (v := v) ?_)) | (with_reducible apply canonical_rb) | (with_reducible refine canonical_cc (Kept.mem (q := q) (v := v) ?_)))

theorem svcWritePieces_kept (l : List (Nat × Nat)) : ∀ (s : State) (d : List Byte) (k : Nat), Kept q v s → Kept q v (svcWritePieces s l d k).2 := by
  induction l with
  | nil => intro s d k h; exact h
  | cons x l ih => intro s d k h; obtain ⟨a, n⟩ := x; unfold svcWritePieces; (repeat' (first | (with_reducible assumption) | (with_reducible apply ih) | (with_reducible apply State.svcWritePiece_kept) | intro _ | (with_reducible apply forEach_kept) | (with_reducible apply foldl_kept) | (with_reducible apply foldl_snd_kept) | (with_reducible apply forEach_canonical) | (with_reducible apply foldl_canonical) | (with_reducible refine Kept.mem (q := q) (v := v) ?_) | (with_reducible refine kept_snd (by assumption) ?_) | (with_reducible apply ite_kept) | (with_reducible apply id_kept) | (with_reducible apply ite_snd_kept) | (with_reducible apply ite_memOk) | (unfold x; clear x) | (simp -zeta only [Kept.upd_iff]) | (extract_lets +onlyGivenNames x; have hx : Kept q v x := ?_; try clear_value x) | (extract_lets +onlyGivenNames x; have hx : Kept q v x.2 := ?_; try clear_value x) | (with_reducible apply hf) | (extract_lets +onlyGivenNames x; have hf : ∀ s, Kept q v s → Kept q v (x s) := ?_; try clear_value x) | (extract_lets +onlyGivenNames x; have hf : ∀ s a, Kept q v s → Kept q v (x s a) := ?_; try clear_value x) | (extract_lets +onlyGivenNames x; have hx : MemOk x := ?_; try clear_value x) | (extract_lets +onlyGivenNames x; try clear_value x) | split | (with_reducible apply optKept_some) | (with_reducible apply next_kept) | (with_reducible exact optKept_none) | (simp -zeta only [Kept.updMem_iff]) | (with_reducible apply keptM) | (with_reducible apply canonical_withRb) | (with_reducible apply canonical_withCc) | (with_reducible apply canonical_foldl_tset) | (with_reducible apply canonical_tdel) | (with_reducible refine canonical_rb (Kept.mem (q := q) (v := v) ?_)) | (with_reducible apply canonical_rb) | (with_reducible refine canonical_cc (Kept.mem (q := q) (v := v) ?_))))

theorem State.svcWrite_kept (s : State) (a : Nat) (d : List Byte)  (h0 : Kept q v s) : Kept q v (State.svcWrite s a d).2 := by
  unfold State.svcWrite
  repeat' (first | (with_reducible assumption) | (with_reducible apply svcWritePieces_kept) | intro _ | (with_reducible apply forEach_kept) | (with_reducible apply foldl_kept) | (with_reducible apply foldl_snd_kept) | (with_reducible apply forEach_canonical) | (with_reducible apply foldl_canonical) | (with_reducible refine Kept.mem (q := q) (v := v) ?_) | (with_reducible refine kept_snd (by assumption) ?_) | (with_reducible apply ite_kept) | (with_reducible apply id_kept) | (with_reducible apply ite_snd_kept) | (with_reducible apply ite_memOk) | (unfold x; clear x) | (simp -zeta only [Kept.upd_iff]) | (extract_lets +onlyGivenNames x; have hx : Kept q v x := ?_; try clear_value x) | (extract_lets +onlyGivenNames x; have hx : Kept q v x.2 := ?_; try clear_value x) | (with_reducible apply hf) | (extract_lets +onlyGivenNames x; have hf : ∀ s, Kept q v s → Kept q v (x s) := ?_; try clear_value x) | (extract_lets +onlyGivenNames x; have hf : ∀ s a, Kept q v s → Kept q v (x s a) := ?_; try clear_value x) | (extract_lets +onlyGivenNames x; have hx : MemOk x := ?_; try clear_value x) | (extract_lets +onlyGivenNames x; try clear_value x) | split | (with_reducible apply optKept_some) | (with_reducible apply next_kept) | (with_reducible exact optKept_none) | (simp -zeta only [Kept.updMem_iff]) | (with_reducible apply keptM) | (with_reducible apply canonical_withRb) | (with_reducible apply canonical_withCc) | (with_reducible apply canonical_foldl_tset) | (with_reducible apply canonical_tdel) | (with_reducible refine canonical_rb (Kept.mem (q := q) (v := v) ?_)) | (with_reducible apply canonical_rb) | (with_reducible refine canonical_cc (Kept.mem (q := q) (v := v) ?_)))

theorem State.readObject_kept (s : State) (a : Nat) (n : Nat)  (h0 : Kept q v s) : Kept q v (State.readObject s a n).2 := by
  unfold State.readObject
  repeat' (first | (with_reducible assumption) | (with_reducible apply State.svcRead_kept) | intro _ | (with_reducible apply forEach_kept) | (with_reducible apply foldl_kept) | (with_reducible apply foldl_snd_kept) | (with_reducible apply forEach_canonical) | (with_reducible apply foldl_canonical) | (with_reducible refine Kept.mem (q := q) (v := v) ?_) | (with_reducible refine kept_snd (by assumption) ?_) | (with_reducible apply ite_kept) | (with_reducible apply id_kept) | (with_reducible apply ite_snd_kept) | (with_reducible apply ite_memOk) | (unfold x; clear x) | (simp -zeta only [Kept.upd_iff]) | (extract_lets +onlyGivenNames x; have hx : Kept q v x := ?_; try clear_value x) | (extract_lets +onlyGivenNames x; have hx : Kept q v x.2 := ?_; try clear_value x) | (with_reducible apply hf) | (extract_lets +onlyGivenNames x; have hf : ∀ s, Kept q v s → Kept q v (x s) := ?_; try clear_value x) | (extract_lets +onlyGivenNames x; have hf : ∀ s a, Kept q v s → Kept q v (x s a) := ?_; try clear_value x) | (extract_lets +onlyGivenNames x; have hx : MemOk x := ?_; try clear_value x) | (extract_lets +onlyGivenNames x; try clear_value x) | split | (with_reducible apply optKept_some) | (with_reducible apply next_kept) | (with_reducible exact optKept_none) | (simp -zeta only [Kept.updMem_iff]) | (with_reducible apply keptM) | (with_reducible apply canonical_withRb) | (with_reducible apply canonical_withCc) | (with_reducible apply canonical_foldl_tset) | (with_reducible apply canonical_tdel) | (with_reducible refine canonical_rb (Kept.mem (q := q) (v := v) ?_)) | (with_reducible apply canonical_rb) | (with_reducible refine canonical_cc (Kept.mem (q := q) (v := v) ?_)))

end Sys2Proof.Machine
end

