-- ==== Sys2Proof/Laws/KeptCmds.lean ====
section
/-! SUPPORT. Every definition of Machine/Cmds keeps the queue, the variant and the canonical forms. -/

namespace Sys2Proof.Machine

set_option linter.all false

variable {q : List Instr} {v : Variant}

theorem State.sendRecord_kept (s : State) (c : Cmd) (status : Nat) (changed : Bool) (detail : Nat) (result : Nat)  (h0 : Kept q v s) : Kept q v (State.sendRecord s c status changed detail result) := by
  unfold State.sendRecord
  repeat' (first | (with_reducible assumption) | (with_reducible apply State.mxlSend_kept) | (with_reducible apply State.setReg_kept) | intro _ | (with_reducible apply forEach_kept) | (with_reducible apply foldl_kept) | (with_reducible apply foldl_snd_kept) | (with_reducible apply forEach_canonical) | (with_reducible apply foldl_canonical) | (with_reducible refine Kept.mem (q := q) (v := v) ?_) | (with_reducible refine kept_snd (by assumption) ?_) | (with_reducible apply ite_kept) | (with_reducible apply id_kept) | (with_reducible apply ite_snd_kept) | (with_reducible apply ite_memOk) | (unfold x; clear x) | (simp -zeta only [Kept.upd_iff]) | (extract_lets +onlyGivenNames x; have hx : Kept q v x := ?_; try clear_value x) | (extract_lets +onlyGivenNames x; have hx : Kept q v x.2 := ?_; try clear_value x) | (with_reducible apply hf) | (extract_lets +onlyGivenNames x; have hf : ∀ s, Kept q v s → Kept q v (x s) := ?_; try clear_value x) | (extract_lets +onlyGivenNames x; have hf : ∀ s a, Kept q v s → Kept q v (x s a) := ?_; try clear_value x) | (extract_lets +onlyGivenNames x; have hx : MemOk x := ?_; try clear_value x) | (extract_lets +onlyGivenNames x; try clear_value x) | split | (with_reducible apply optKept_some) | (with_reducible apply next_kept) | (with_reducible exact optKept_none) | (simp -zeta only [Kept.updMem_iff]) | (with_reducible apply keptM) | (with_reducible apply canonical_withRb) | (with_reducible apply canonical_withCc) | (with_reducible apply canonical_foldl_tset) | (with_reducible apply canonical_tdel) | (with_reducible refine canonical_rb (Kept.mem (q := q) (v := v) ?_)) | (with_reducible apply canonical_rb) | (with_reducible refine canonical_cc (Kept.mem (q := q) (v := v) ?_)))

theorem State.showPrio_kept (s : State)  (h0 : Kept q v s) : Kept q v (State.showPrio s) := by
  unfold State.showPrio
  repeat' (first | (with_reducible assumption) | (with_reducible apply State.setF_kept) | intro _ | (with_reducible apply forEach_kept) | (with_reducible apply foldl_kept) | (with_reducible apply foldl_snd_kept) | (with_reducible apply forEach_canonical) | (with_reducible apply foldl_canonical) | (with_reducible refine Kept.mem (q := q) (v := v) ?_) | (with_reducible refine kept_snd (by assumption) ?_) | (with_reducible apply ite_kept) | (with_reducible apply id_kept) | (with_reducible apply ite_snd_kept) | (with_reducible apply ite_memOk) | (unfold x; clear x) | (simp -zeta only [Kept.upd_iff]) | (extract_lets +onlyGivenNames x; have hx : Kept q v x := ?_; try clear_value x) | (extract_lets +onlyGivenNames x; have hx : Kept q v x.2 := ?_; try clear_value x) | (with_reducible apply hf) | (extract_lets +onlyGivenNames x; have hf : ∀ s, Kept q v s → Kept q v (x s) := ?_; try clear_value x) | (extract_lets +onlyGivenNames x; have hf : ∀ s a, Kept q v s → Kept q v (x s a) := ?_; try clear_value x) | (extract_lets +onlyGivenNames x; have hx : MemOk x := ?_; try clear_value x) | (extract_lets +onlyGivenNames x; try clear_value x) | split | (with_reducible apply optKept_some) | (with_reducible apply next_kept) | (with_reducible exact optKept_none) | (simp -zeta only [Kept.updMem_iff]) | (with_reducible apply keptM) | (with_reducible apply canonical_withRb) | (with_reducible apply canonical_withCc) | (with_reducible apply canonical_foldl_tset) | (with_reducible apply canonical_tdel) | (with_reducible refine canonical_rb (Kept.mem (q := q) (v := v) ?_)) | (with_reducible apply canonical_rb) | (with_reducible refine canonical_cc (Kept.mem (q := q) (v := v) ?_)))

theorem State.tracePhases_kept (s : State) (c : Cmd) (changed : Bool)  (h0 : Kept q v s) : Kept q v (State.tracePhases s c changed) := by
  unfold State.tracePhases
  repeat' (first | (with_reducible assumption) | (with_reducible apply forEach_kept) | (with_reducible apply State.trace_kept) | intro _ | (with_reducible apply forEach_kept) | (with_reducible apply foldl_kept) | (with_reducible apply foldl_snd_kept) | (with_reducible apply forEach_canonical) | (with_reducible apply foldl_canonical) | (with_reducible refine Kept.mem (q := q) (v := v) ?_) | (with_reducible refine kept_snd (by assumption) ?_) | (with_reducible apply ite_kept) | (with_reducible apply id_kept) | (with_reducible apply ite_snd_kept) | (with_reducible apply ite_memOk) | (unfold x; clear x) | (simp -zeta only [Kept.upd_iff]) | (extract_lets +onlyGivenNames x; have hx : Kept q v x := ?_; try clear_value x) | (extract_lets +onlyGivenNames x; have hx : Kept q v x.2 := ?_; try clear_value x) | (with_reducible apply hf) | (extract_lets +onlyGivenNames x; have hf : ∀ s, Kept q v s → Kept q v (x s) := ?_; try clear_value x) | (extract_lets +onlyGivenNames x; have hf : ∀ s a, Kept q v s → Kept q v (x s a) := ?_; try clear_value x) | (extract_lets +onlyGivenNames x; have hx : MemOk x := ?_; try clear_value x) | (extract_lets +onlyGivenNames x; try clear_value x) | split | (with_reducible apply optKept_some) | (with_reducible apply next_kept) | (with_reducible exact optKept_none) | (simp -zeta only [Kept.updMem_iff]) | (with_reducible apply keptM) | (with_reducible apply canonical_withRb) | (with_reducible apply canonical_withCc) | (with_reducible apply canonical_foldl_tset) | (with_reducible apply canonical_tdel) | (with_reducible refine canonical_rb (Kept.mem (q := q) (v := v) ?_)) | (with_reducible apply canonical_rb) | (with_reducible refine canonical_cc (Kept.mem (q := q) (v := v) ?_)))

theorem State.finish_kept (s : State) (c : Cmd) (status : Nat) (changed : Bool) (detail : Nat) (result : Nat)  (h0 : Kept q v s) : Kept q v (State.finish s c status changed detail result) := by
  unfold State.finish
  repeat' (first | (with_reducible assumption) | (with_reducible apply State.tracePhases_kept) | (with_reducible apply State.sendRecord_kept) | (with_reducible apply State.trace_kept) | (with_reducible apply State.perfAdd_kept) | (with_reducible apply State.showPrio_kept) | intro _ | (with_reducible apply forEach_kept) | (with_reducible apply foldl_kept) | (with_reducible apply foldl_snd_kept) | (with_reducible apply forEach_canonical) | (with_reducible apply foldl_canonical) | (with_reducible refine Kept.mem (q := q) (v := v) ?_) | (with_reducible refine kept_snd (by assumption) ?_) | (with_reducible apply ite_kept) | (with_reducible apply id_kept) | (with_reducible apply ite_snd_kept) | (with_reducible apply ite_memOk) | (unfold x; clear x) | (simp -zeta only [Kept.upd_iff]) | (extract_lets +onlyGivenNames x; have hx : Kept q v x := ?_; try clear_value x) | (extract_lets +onlyGivenNames x; have hx : Kept q v x.2 := ?_; try clear_value x) | (with_reducible apply hf) | (extract_lets +onlyGivenNames x; have hf : ∀ s, Kept q v s → Kept q v (x s) := ?_; try clear_value x) | (extract_lets +onlyGivenNames x; have hf : ∀ s a, Kept q v s → Kept q v (x s a) := ?_; try clear_value x) | (extract_lets +onlyGivenNames x; have hx : MemOk x := ?_; try clear_value x) | (extract_lets +onlyGivenNames x; try clear_value x) | split | (with_reducible apply optKept_some) | (with_reducible apply next_kept) | (with_reducible exact optKept_none) | (simp -zeta only [Kept.updMem_iff]) | (with_reducible apply keptM) | (with_reducible apply canonical_withRb) | (with_reducible apply canonical_withCc) | (with_reducible apply canonical_foldl_tset) | (with_reducible apply canonical_tdel) | (with_reducible refine canonical_rb (Kept.mem (q := q) (v := v) ?_)) | (with_reducible apply canonical_rb) | (with_reducible refine canonical_cc (Kept.mem (q := q) (v := v) ?_)))

theorem State.fail_kept (s : State) (c : Cmd) (status : Nat)  (h0 : Kept q v s) : Kept q v (State.fail s c status) := by
  unfold State.fail
  repeat' (first | (with_reducible assumption) | (with_reducible apply State.finish_kept) | intro _ | (with_reducible apply forEach_kept) | (with_reducible apply foldl_kept) | (with_reducible apply foldl_snd_kept) | (with_reducible apply forEach_canonical) | (with_reducible apply foldl_canonical) | (with_reducible refine Kept.mem (q := q) (v := v) ?_) | (with_reducible refine kept_snd (by assumption) ?_) | (with_reducible apply ite_kept) | (with_reducible apply id_kept) | (with_reducible apply ite_snd_kept) | (with_reducible apply ite_memOk) | (unfold x; clear x) | (simp -zeta only [Kept.upd_iff]) | (extract_lets +onlyGivenNames x; have hx : Kept q v x := ?_; try clear_value x) | (extract_lets +onlyGivenNames x; have hx : Kept q v x.2 := ?_; try clear_value x) | (with_reducible apply hf) | (extract_lets +onlyGivenNames x; have hf : ∀ s, Kept q v s → Kept q v (x s) := ?_; try clear_value x) | (extract_lets +onlyGivenNames x; have hf : ∀ s a, Kept q v s → Kept q v (x s a) := ?_; try clear_value x) | (extract_lets +onlyGivenNames x; have hx : MemOk x := ?_; try clear_value x) | (extract_lets +onlyGivenNames x; try clear_value x) | split | (with_reducible apply optKept_some) | (with_reducible apply next_kept) | (with_reducible exact optKept_none) | (simp -zeta only [Kept.updMem_iff]) | (with_reducible apply keptM) | (with_reducible apply canonical_withRb) | (with_reducible apply canonical_withCc) | (with_reducible apply canonical_foldl_tset) | (with_reducible apply canonical_tdel) | (with_reducible refine canonical_rb (Kept.mem (q := q) (v := v) ?_)) | (with_reducible apply canonical_rb) | (with_reducible refine canonical_cc (Kept.mem (q := q) (v := v) ?_)))

theorem State.failAt_kept (s : State) (c : Cmd) (status : Nat) (word : Nat) (bit : Nat)  (h0 : Kept q v s) : Kept q v (State.failAt s c status word bit) := by
  unfold State.failAt
  repeat' (first | (with_reducible assumption) | (with_reducible apply State.finish_kept) | intro _ | (with_reducible apply forEach_kept) | (with_reducible apply foldl_kept) | (with_reducible apply foldl_snd_kept) | (with_reducible apply forEach_canonical) | (with_reducible apply foldl_canonical) | (with_reducible refine Kept.mem (q := q) (v := v) ?_) | (with_reducible refine kept_snd (by assumption) ?_) | (with_reducible apply ite_kept) | (with_reducible apply id_kept) | (with_reducible apply ite_snd_kept) | (with_reducible apply ite_memOk) | (unfold x; clear x) | (simp -zeta only [Kept.upd_iff]) | (extract_lets +onlyGivenNames x; have hx : Kept q v x := ?_; try clear_value x) | (extract_lets +onlyGivenNames x; have hx : Kept q v x.2 := ?_; try clear_value x) | (with_reducible apply hf) | (extract_lets +onlyGivenNames x; have hf : ∀ s, Kept q v s → Kept q v (x s) := ?_; try clear_value x) | (extract_lets +onlyGivenNames x; have hf : ∀ s a, Kept q v s → Kept q v (x s a) := ?_; try clear_value x) | (extract_lets +onlyGivenNames x; have hx : MemOk x := ?_; try clear_value x) | (extract_lets +onlyGivenNames x; try clear_value x) | split | (with_reducible apply optKept_some) | (with_reducible apply next_kept) | (with_reducible exact optKept_none) | (simp -zeta only [Kept.updMem_iff]) | (with_reducible apply keptM) | (with_reducible apply canonical_withRb) | (with_reducible apply canonical_withCc) | (with_reducible apply canonical_foldl_tset) | (with_reducible apply canonical_tdel) | (with_reducible refine canonical_rb (Kept.mem (q := q) (v := v) ?_)) | (with_reducible apply canonical_rb) | (with_reducible refine canonical_cc (Kept.mem (q := q) (v := v) ?_)))

theorem State.ok_kept (s : State) (c : Cmd) (result : Nat)  (h0 : Kept q v s) : Kept q v (State.ok s c result) := by
  unfold State.ok
  repeat' (first | (with_reducible assumption) | (with_reducible apply State.finish_kept) | intro _ | (with_reducible apply forEach_kept) | (with_reducible apply foldl_kept) | (with_reducible apply foldl_snd_kept) | (with_reducible apply forEach_canonical) | (with_reducible apply foldl_canonical) | (with_reducible refine Kept.mem (q := q) (v := v) ?_) | (with_reducible refine kept_snd (by assumption) ?_) | (with_reducible apply ite_kept) | (with_reducible apply id_kept) | (with_reducible apply ite_snd_kept) | (with_reducible apply ite_memOk) | (unfold x; clear x) | (simp -zeta only [Kept.upd_iff]) | (extract_lets +onlyGivenNames x; have hx : Kept q v x := ?_; try clear_value x) | (extract_lets +onlyGivenNames x; have hx : Kept q v x.2 := ?_; try clear_value x) | (with_reducible apply hf) | (extract_lets +onlyGivenNames x; have hf : ∀ s, Kept q v s → Kept q v (x s) := ?_; try clear_value x) | (extract_lets +onlyGivenNames x; have hf : ∀ s a, Kept q v s → Kept q v (x s a) := ?_; try clear_value x) | (extract_lets +onlyGivenNames x; have hx : MemOk x := ?_; try clear_value x) | (extract_lets +onlyGivenNames x; try clear_value x) | split | (with_reducible apply optKept_some) | (with_reducible apply next_kept) | (with_reducible exact optKept_none) | (simp -zeta only [Kept.updMem_iff]) | (with_reducible apply keptM) | (with_reducible apply canonical_withRb) | (with_reducible apply canonical_withCc) | (with_reducible apply canonical_foldl_tset) | (with_reducible apply canonical_tdel) | (with_reducible refine canonical_rb (Kept.mem (q := q) (v := v) ?_)) | (with_reducible apply canonical_rb) | (with_reducible refine canonical_cc (Kept.mem (q := q) (v := v) ?_)))

theorem State.badParam_kept (s : State) (c : Cmd) (word : Nat) (bit : Nat)  (h0 : Kept q v s) : Kept q v (State.badParam s c word bit) := by
  unfold State.badParam
  repeat' (first | (with_reducible assumption) | (with_reducible apply State.failAt_kept) | intro _ | (with_reducible apply forEach_kept) | (with_reducible apply foldl_kept) | (with_reducible apply foldl_snd_kept) | (with_reducible apply forEach_canonical) | (with_reducible apply foldl_canonical) | (with_reducible refine Kept.mem (q := q) (v := v) ?_) | (with_reducible refine kept_snd (by assumption) ?_) | (with_reducible apply ite_kept) | (with_reducible apply id_kept) | (with_reducible apply ite_snd_kept) | (with_reducible apply ite_memOk) | (unfold x; clear x) | (simp -zeta only [Kept.upd_iff]) | (extract_lets +onlyGivenNames x; have hx : Kept q v x := ?_; try clear_value x) | (extract_lets +onlyGivenNames x; have hx : Kept q v x.2 := ?_; try clear_value x) | (with_reducible apply hf) | (extract_lets +onlyGivenNames x; have hf : ∀ s, Kept q v s → Kept q v (x s) := ?_; try clear_value x) | (extract_lets +onlyGivenNames x; have hf : ∀ s a, Kept q v s → Kept q v (x s a) := ?_; try clear_value x) | (extract_lets +onlyGivenNames x; have hx : MemOk x := ?_; try clear_value x) | (extract_lets +onlyGivenNames x; try clear_value x) | split | (with_reducible apply optKept_some) | (with_reducible apply next_kept) | (with_reducible exact optKept_none) | (simp -zeta only [Kept.updMem_iff]) | (with_reducible apply keptM) | (with_reducible apply canonical_withRb) | (with_reducible apply canonical_withCc) | (with_reducible apply canonical_foldl_tset) | (with_reducible apply canonical_tdel) | (with_reducible refine canonical_rb (Kept.mem (q := q) (v := v) ?_)) | (with_reducible apply canonical_rb) | (with_reducible refine canonical_cc (Kept.mem (q := q) (v := v) ?_)))

theorem State.putCmd_kept (s : State) (c : Cmd) (c' : Cmd)  (h0 : Kept q v s) : Kept q v (State.putCmd s c c') := by
  unfold State.putCmd
  repeat' (first | (with_reducible assumption) | (with_reducible apply State.trace_kept) | intro _ | (with_reducible apply forEach_kept) | (with_reducible apply foldl_kept) | (with_reducible apply foldl_snd_kept) | (with_reducible apply forEach_canonical) | (with_reducible apply foldl_canonical) | (with_reducible refine Kept.mem (q := q) (v := v) ?_) | (with_reducible refine kept_snd (by assumption) ?_) | (with_reducible apply ite_kept) | (with_reducible apply id_kept) | (with_reducible apply ite_snd_kept) | (with_reducible apply ite_memOk) | (unfold x; clear x) | (simp -zeta only [Kept.upd_iff]) | (extract_lets +onlyGivenNames x; have hx : Kept q v x := ?_; try clear_value x) | (extract_lets +onlyGivenNames x; have hx : Kept q v x.2 := ?_; try clear_value x) | (with_reducible apply hf) | (extract_lets +onlyGivenNames x; have hf : ∀ s, Kept q v s → Kept q v (x s) := ?_; try clear_value x) | (extract_lets +onlyGivenNames x; have hf : ∀ s a, Kept q v s → Kept q v (x s a) := ?_; try clear_value x) | (extract_lets +onlyGivenNames x; have hx : MemOk x := ?_; try clear_value x) | (extract_lets +onlyGivenNames x; try clear_value x) | split | (with_reducible apply optKept_some) | (with_reducible apply next_kept) | (with_reducible exact optKept_none) | (simp -zeta only [Kept.updMem_iff]) | (with_reducible apply keptM) | (with_reducible apply canonical_withRb) | (with_reducible apply canonical_withCc) | (with_reducible apply canonical_foldl_tset) | (with_reducible apply canonical_tdel) | (with_reducible refine canonical_rb (Kept.mem (q := q) (v := v) ?_)) | (with_reducible apply canonical_rb) | (with_reducible refine canonical_cc (Kept.mem (q := q) (v := v) ?_)))

theorem State.onCmd_kept (s : State) (ring : Nat) (tag : Nat) (opcode : Nat) (f : State → Cmd → State) (hf : ∀ (s : State) (x0 : Cmd), Kept q v s → Kept q v (f s x0)) (h0 : Kept q v s) : Kept q v (State.onCmd s ring tag opcode f) := by
  unfold State.onCmd
  repeat' (first | (with_reducible assumption) | (with_reducible apply hf) | intro _ | (with_reducible apply forEach_kept) | (with_reducible apply foldl_kept) | (with_reducible apply foldl_snd_kept) | (with_reducible apply forEach_canonical) | (with_reducible apply foldl_canonical) | (with_reducible refine Kept.mem (q := q) (v := v) ?_) | (with_reducible refine kept_snd (by assumption) ?_) | (with_reducible apply ite_kept) | (with_reducible apply id_kept) | (with_reducible apply ite_snd_kept) | (with_reducible apply ite_memOk) | (unfold x; clear x) | (simp -zeta only [Kept.upd_iff]) | (extract_lets +onlyGivenNames x; have hx : Kept q v x := ?_; try clear_value x) | (extract_lets +onlyGivenNames x; have hx : Kept q v x.2 := ?_; try clear_value x) | (with_reducible apply hf) | (extract_lets +onlyGivenNames x; have hf : ∀ s, Kept q v s → Kept q v (x s) := ?_; try clear_value x) | (extract_lets +onlyGivenNames x; have hf : ∀ s a, Kept q v s → Kept q v (x s a) := ?_; try clear_value x) | (extract_lets +onlyGivenNames x; have hx : MemOk x := ?_; try clear_value x) | (extract_lets +onlyGivenNames x; try clear_value x) | split | (with_reducible apply optKept_some) | (with_reducible apply next_kept) | (with_reducible exact optKept_none) | (simp -zeta only [Kept.updMem_iff]) | (with_reducible apply keptM) | (with_reducible apply canonical_withRb) | (with_reducible apply canonical_withCc) | (with_reducible apply canonical_foldl_tset) | (with_reducible apply canonical_tdel) | (with_reducible refine canonical_rb (Kept.mem (q := q) (v := v) ?_)) | (with_reducible apply canonical_rb) | (with_reducible refine canonical_cc (Kept.mem (q := q) (v := v) ?_)))

theorem State.onActive_kept (s : State) (ring : Nat) (tag : Nat) (opcode : Nat) (f : State → Cmd → State) (hf : ∀ (s : State) (x0 : Cmd), Kept q v s → Kept q v (f s x0)) (h0 : Kept q v s) : Kept q v (State.onActive s ring tag opcode f) := by
  unfold State.onActive
  repeat' (first | (with_reducible assumption) | (with_reducible apply hf) | intro _ | (with_reducible apply forEach_kept) | (with_reducible apply foldl_kept) | (with_reducible apply foldl_snd_kept) | (with_reducible apply forEach_canonical) | (with_reducible apply foldl_canonical) | (with_reducible refine Kept.mem (q := q) (v := v) ?_) | (with_reducible refine kept_snd (by assumption) ?_) | (with_reducible apply ite_kept) | (with_reducible apply id_kept) | (with_reducible apply ite_snd_kept) | (with_reducible apply ite_memOk) | (unfold x; clear x) | (simp -zeta only [Kept.upd_iff]) | (extract_lets +onlyGivenNames x; have hx : Kept q v x := ?_; try clear_value x) | (extract_lets +onlyGivenNames x; have hx : Kept q v x.2 := ?_; try clear_value x) | (with_reducible apply hf) | (extract_lets +onlyGivenNames x; have hf : ∀ s, Kept q v s → Kept q v (x s) := ?_; try clear_value x) | (extract_lets +onlyGivenNames x; have hf : ∀ s a, Kept q v s → Kept q v (x s a) := ?_; try clear_value x) | (extract_lets +onlyGivenNames x; have hx : MemOk x := ?_; try clear_value x) | (extract_lets +onlyGivenNames x; try clear_value x) | split | (with_reducible apply optKept_some) | (with_reducible apply next_kept) | (with_reducible exact optKept_none) | (simp -zeta only [Kept.updMem_iff]) | (with_reducible apply keptM) | (with_reducible apply canonical_withRb) | (with_reducible apply canonical_withCc) | (with_reducible apply canonical_foldl_tset) | (with_reducible apply canonical_tdel) | (with_reducible refine canonical_rb (Kept.mem (q := q) (v := v) ?_)) | (with_reducible apply canonical_rb) | (with_reducible refine canonical_cc (Kept.mem (q := q) (v := v) ?_)))

theorem State.accept_kept (s : State) (c : Cmd) (device : Bool)  (h0 : Kept q v s) : Kept q v (State.accept s c device) := by
  unfold State.accept
  repeat' (first | (with_reducible assumption) | (with_reducible apply State.trace_kept) | (with_reducible apply State.finish_kept) | intro _ | (with_reducible apply forEach_kept) | (with_reducible apply foldl_kept) | (with_reducible apply foldl_snd_kept) | (with_reducible apply forEach_canonical) | (with_reducible apply foldl_canonical) | (with_reducible refine Kept.mem (q := q) (v := v) ?_) | (with_reducible refine kept_snd (by assumption) ?_) | (with_reducible apply ite_kept) | (with_reducible apply id_kept) | (with_reducible apply ite_snd_kept) | (with_reducible apply ite_memOk) | (unfold x; clear x) | (simp -zeta only [Kept.upd_iff]) | (extract_lets +onlyGivenNames x; have hx : Kept q v x := ?_; try clear_value x) | (extract_lets +onlyGivenNames x; have hx : Kept q v x.2 := ?_; try clear_value x) | (with_reducible apply hf) | (extract_lets +onlyGivenNames x; have hf : ∀ s, Kept q v s → Kept q v (x s) := ?_; try clear_value x) | (extract_lets +onlyGivenNames x; have hf : ∀ s a, Kept q v s → Kept q v (x s a) := ?_; try clear_value x) | (extract_lets +onlyGivenNames x; have hx : MemOk x := ?_; try clear_value x) | (extract_lets +onlyGivenNames x; try clear_value x) | split | (with_reducible apply optKept_some) | (with_reducible apply next_kept) | (with_reducible exact optKept_none) | (simp -zeta only [Kept.updMem_iff]) | (with_reducible apply keptM) | (with_reducible apply canonical_withRb) | (with_reducible apply canonical_withCc) | (with_reducible apply canonical_foldl_tset) | (with_reducible apply canonical_tdel) | (with_reducible refine canonical_rb (Kept.mem (q := q) (v := v) ?_)) | (with_reducible apply canonical_rb) | (with_reducible refine canonical_cc (Kept.mem (q := q) (v := v) ?_)))

theorem State.readEntry_kept (s : State) (r : Nat) (i : Nat)  (h0 : Kept q v s) : Kept q v (State.readEntry s r i) := by
  unfold State.readEntry
  repeat' (first | (with_reducible assumption) | (with_reducible apply State.mxlSend_kept) | intro _ | (with_reducible apply forEach_kept) | (with_reducible apply foldl_kept) | (with_reducible apply foldl_snd_kept) | (with_reducible apply forEach_canonical) | (with_reducible apply foldl_canonical) | (with_reducible refine Kept.mem (q := q) (v := v) ?_) | (with_reducible refine kept_snd (by assumption) ?_) | (with_reducible apply ite_kept) | (with_reducible apply id_kept) | (with_reducible apply ite_snd_kept) | (with_reducible apply ite_memOk) | (unfold x; clear x) | (simp -zeta only [Kept.upd_iff]) | (extract_lets +onlyGivenNames x; have hx : Kept q v x := ?_; try clear_value x) | (extract_lets +onlyGivenNames x; have hx : Kept q v x.2 := ?_; try clear_value x) | (with_reducible apply hf) | (extract_lets +onlyGivenNames x; have hf : ∀ s, Kept q v s → Kept q v (x s) := ?_; try clear_value x) | (extract_lets +onlyGivenNames x; have hf : ∀ s a, Kept q v s → Kept q v (x s a) := ?_; try clear_value x) | (extract_lets +onlyGivenNames x; have hx : MemOk x := ?_; try clear_value x) | (extract_lets +onlyGivenNames x; try clear_value x) | split | (with_reducible apply optKept_some) | (with_reducible apply next_kept) | (with_reducible exact optKept_none) | (simp -zeta only [Kept.updMem_iff]) | (with_reducible apply keptM) | (with_reducible apply canonical_withRb) | (with_reducible apply canonical_withCc) | (with_reducible apply canonical_foldl_tset) | (with_reducible apply canonical_tdel) | (with_reducible refine canonical_rb (Kept.mem (q := q) (v := v) ?_)) | (with_reducible apply canonical_rb) | (with_reducible refine canonical_cc (Kept.mem (q := q) (v := v) ?_)))

end Sys2Proof.Machine
end

