-- ==== Sys2Proof/Laws/KeptImage.lean ====
section
/-! SUPPORT. Every definition of Machine/Image keeps the queue, the variant and the canonical forms. -/

namespace Sys2Proof.Machine

set_option linter.all false

variable {q : List Instr} {v : Variant}

theorem State.readRoster_kept (s : State) (c : Cmd)  (h0 : Kept q v s) : Kept q v (State.readRoster s c) := by
  unfold State.readRoster
  repeat' (first | (with_reducible assumption) | (with_reducible apply State.readObject_kept) | (with_reducible apply State.putCmd_kept) | intro _ | (with_reducible apply forEach_kept) | (with_reducible apply foldl_kept) | (with_reducible apply foldl_snd_kept) | (with_reducible apply forEach_canonical) | (with_reducible apply foldl_canonical) | (with_reducible refine Kept.mem (q := q) (v := v) ?_) | (with_reducible refine kept_snd (by assumption) ?_) | (with_reducible apply ite_kept) | (with_reducible apply id_kept) | (with_reducible apply ite_snd_kept) | (with_reducible apply ite_memOk) | (unfold x; clear x) | (simp -zeta only [Kept.upd_iff]) | (extract_lets +onlyGivenNames x; have hx : Kept q v x := ?_; try clear_value x) | (extract_lets +onlyGivenNames x; have hx : Kept q v x.2 := ?_; try clear_value x) | (with_reducible apply hf) | (extract_lets +onlyGivenNames x; have hf : ∀ s, Kept q v s → Kept q v (x s) := ?_; try clear_value x) | (extract_lets +onlyGivenNames x; have hf : ∀ s a, Kept q v s → Kept q v (x s a) := ?_; try clear_value x) | (extract_lets +onlyGivenNames x; have hx : MemOk x := ?_; try clear_value x) | (extract_lets +onlyGivenNames x; try clear_value x) | split | (with_reducible apply optKept_some) | (with_reducible apply next_kept) | (with_reducible exact optKept_none) | (simp -zeta only [Kept.updMem_iff]) | (with_reducible apply keptM) | (with_reducible apply canonical_withRb) | (with_reducible apply canonical_withCc) | (with_reducible apply canonical_foldl_tset) | (with_reducible apply canonical_tdel) | (with_reducible refine canonical_rb (Kept.mem (q := q) (v := v) ?_)) | (with_reducible apply canonical_rb) | (with_reducible refine canonical_cc (Kept.mem (q := q) (v := v) ?_)))

theorem State.acceptRing_kept (s : State) (c : Cmd) (device : Bool)  (h0 : Kept q v s) : Kept q v (State.acceptRing s c device) := by
  unfold State.acceptRing
  repeat' (first | (with_reducible assumption) | (with_reducible apply State.accept_kept) | (with_reducible apply State.readRoster_kept) | intro _ | (with_reducible apply forEach_kept) | (with_reducible apply foldl_kept) | (with_reducible apply foldl_snd_kept) | (with_reducible apply forEach_canonical) | (with_reducible apply foldl_canonical) | (with_reducible refine Kept.mem (q := q) (v := v) ?_) | (with_reducible refine kept_snd (by assumption) ?_) | (with_reducible apply ite_kept) | (with_reducible apply id_kept) | (with_reducible apply ite_snd_kept) | (with_reducible apply ite_memOk) | (unfold x; clear x) | (simp -zeta only [Kept.upd_iff]) | (extract_lets +onlyGivenNames x; have hx : Kept q v x := ?_; try clear_value x) | (extract_lets +onlyGivenNames x; have hx : Kept q v x.2 := ?_; try clear_value x) | (with_reducible apply hf) | (extract_lets +onlyGivenNames x; have hf : ∀ s, Kept q v s → Kept q v (x s) := ?_; try clear_value x) | (extract_lets +onlyGivenNames x; have hf : ∀ s a, Kept q v s → Kept q v (x s a) := ?_; try clear_value x) | (extract_lets +onlyGivenNames x; have hx : MemOk x := ?_; try clear_value x) | (extract_lets +onlyGivenNames x; try clear_value x) | split | (with_reducible apply optKept_some) | (with_reducible apply next_kept) | (with_reducible exact optKept_none) | (simp -zeta only [Kept.updMem_iff]) | (with_reducible apply keptM) | (with_reducible apply canonical_withRb) | (with_reducible apply canonical_withCc) | (with_reducible apply canonical_foldl_tset) | (with_reducible apply canonical_tdel) | (with_reducible refine canonical_rb (Kept.mem (q := q) (v := v) ?_)) | (with_reducible apply canonical_rb) | (with_reducible refine canonical_cc (Kept.mem (q := q) (v := v) ?_)))

theorem State.fetch_kept (s : State) (r : Nat) (d : List Byte)  (h0 : Kept q v s) : Kept q v (State.fetch s r d) := by
  unfold State.fetch
  repeat' (first | (with_reducible assumption) | (with_reducible apply State.setReg_kept) | (with_reducible apply State.readEntry_kept) | (with_reducible apply State.acceptRing_kept) | intro _ | (with_reducible apply forEach_kept) | (with_reducible apply foldl_kept) | (with_reducible apply foldl_snd_kept) | (with_reducible apply forEach_canonical) | (with_reducible apply foldl_canonical) | (with_reducible refine Kept.mem (q := q) (v := v) ?_) | (with_reducible refine kept_snd (by assumption) ?_) | (with_reducible apply ite_kept) | (with_reducible apply id_kept) | (with_reducible apply ite_snd_kept) | (with_reducible apply ite_memOk) | (unfold x; clear x) | (simp -zeta only [Kept.upd_iff]) | (extract_lets +onlyGivenNames x; have hx : Kept q v x := ?_; try clear_value x) | (extract_lets +onlyGivenNames x; have hx : Kept q v x.2 := ?_; try clear_value x) | (with_reducible apply hf) | (extract_lets +onlyGivenNames x; have hf : ∀ s, Kept q v s → Kept q v (x s) := ?_; try clear_value x) | (extract_lets +onlyGivenNames x; have hf : ∀ s a, Kept q v s → Kept q v (x s a) := ?_; try clear_value x) | (extract_lets +onlyGivenNames x; have hx : MemOk x := ?_; try clear_value x) | (extract_lets +onlyGivenNames x; try clear_value x) | split | (with_reducible apply optKept_some) | (with_reducible apply next_kept) | (with_reducible exact optKept_none) | (simp -zeta only [Kept.updMem_iff]) | (with_reducible apply keptM) | (with_reducible apply canonical_withRb) | (with_reducible apply canonical_withCc) | (with_reducible apply canonical_foldl_tset) | (with_reducible apply canonical_tdel) | (with_reducible refine canonical_rb (Kept.mem (q := q) (v := v) ?_)) | (with_reducible apply canonical_rb) | (with_reducible refine canonical_cc (Kept.mem (q := q) (v := v) ?_)))

theorem execCommandFetch_kept (r : Nat) (d : List Byte) (s : State)  (h0 : Kept q v s) : OutKept q v (execCommandFetch r d s) := by
  unfold execCommandFetch
  repeat' (first | (with_reducible assumption) | (with_reducible apply live_kept) | (with_reducible apply State.fetch_kept) | intro _ | (with_reducible apply forEach_kept) | (with_reducible apply foldl_kept) | (with_reducible apply foldl_snd_kept) | (with_reducible apply forEach_canonical) | (with_reducible apply foldl_canonical) | (with_reducible refine Kept.mem (q := q) (v := v) ?_) | (with_reducible refine kept_snd (by assumption) ?_) | (with_reducible apply ite_kept) | (with_reducible apply id_kept) | (with_reducible apply ite_snd_kept) | (with_reducible apply ite_memOk) | (unfold x; clear x) | (simp -zeta only [Kept.upd_iff]) | (extract_lets +onlyGivenNames x; have hx : Kept q v x := ?_; try clear_value x) | (extract_lets +onlyGivenNames x; have hx : Kept q v x.2 := ?_; try clear_value x) | (with_reducible apply hf) | (extract_lets +onlyGivenNames x; have hf : ∀ s, Kept q v s → Kept q v (x s) := ?_; try clear_value x) | (extract_lets +onlyGivenNames x; have hf : ∀ s a, Kept q v s → Kept q v (x s a) := ?_; try clear_value x) | (extract_lets +onlyGivenNames x; have hx : MemOk x := ?_; try clear_value x) | (extract_lets +onlyGivenNames x; try clear_value x) | split | (with_reducible apply optKept_some) | (with_reducible apply next_kept) | (with_reducible exact optKept_none) | (simp -zeta only [Kept.updMem_iff]) | (with_reducible apply keptM) | (with_reducible apply canonical_withRb) | (with_reducible apply canonical_withCc) | (with_reducible apply canonical_foldl_tset) | (with_reducible apply canonical_tdel) | (with_reducible refine canonical_rb (Kept.mem (q := q) (v := v) ?_)) | (with_reducible apply canonical_rb) | (with_reducible refine canonical_cc (Kept.mem (q := q) (v := v) ?_)))

end Sys2Proof.Machine
end

