-- ==== Sys2Proof/WellFormed.lean ====
section
/-! DEFINITION. Which commands are well formed: every operand names a unit that exists and fits the field that carries it
(01 R35, 07 R229, 12 R328, R331, 13 R356, 14 R377, 23 R539). A command that is not well formed is none that the outside can
send. -/

namespace Sys2Proof

/-- Logical tile 0-255. -/
def okTile (n : Nat) : Bool := decide (n < 256)

/-- General core 0-16,383: 64 of each tile. -/
def okCore (n : Nat) : Bool := decide (n < 16384)

/-- Partition, memory layer: 0-3. -/
def okPart (n : Nat) : Bool := decide (n < 4)

def okLayer (n : Nat) : Bool := decide (n < 4)

/-- Mover channel of a tile. -/
def okChannel (n : Nat) : Bool := decide (n < 8)

def okForm (n : Nat) : Bool := decide (n < 16)

/-- Fabric port. -/
def okPort (n : Nat) : Bool := decide (n < 6)

/-- Command ring 0-63, or 255 for a PRIORITY packet. -/
def okRing (n : Nat) : Bool := decide (n < 64) || n == 255

/-- Tags of 32 bits. -/
def okTag (n : Nat) : Bool := decide (n < 2 ^ 32)

/-- ARITH cycle of a bell. -/
def okCycle (n : Nat) : Bool := decide (n < 4096)

/-- Stack address. -/
def okAddr (n : Nat) : Bool := decide (n < 2 ^ 48)

def okPacket (k : Packet) : Bool :=
  decide (k.opcode < 2 ^ 16) && decide (k.flags < 2 ^ 16) && okTag k.tag &&
  [k.p0, k.p1, k.p2, k.p3, k.p4, k.p5, k.p6].all (fun w => decide (w < 2 ^ 64))

def okSym (y : Sym) : Bool :=
  decide (y.typ < 256) && decide (y.a8 < 256) && decide (y.origin < 2 ^ 16) && decide (y.bell < 2 ^ 48) &&
  decide (y.b32 < 2 ^ 32) && decide (y.crc < 2 ^ 16)

def okFrame (f : Frame) : Bool :=
  decide (f.kind < 256) && decide (f.flags < 256) &&
  [f.src, f.dst, f.stream, f.seq, f.sendCycle, f.tieId, f.bytes, f.status].all (fun w => decide (w < 2 ^ 16)) &&
  [f.bell, f.poison, f.gaddr].all (fun w => decide (w < 2 ^ 64)) && decide (f.crc < 2 ^ 32) && f.payload.length == 3840 &&
  decide (f.rsvHdr < 2 ^ 48) && decide (f.rsvTail < 2 ^ 96)

def okMsg (m : CnetMsg) : Bool :=
  decide (m.typ < 16) && decide (m.dest < 1024) && decide (m.src < 1024) && decide (m.payload < 2 ^ 32) &&
  decide (m.words.length < 4) && m.words.all (fun w => decide (w < 2 ^ 64)) && m.seat.all (fun k => decide (k < 288))

def okFlit (f : Flit) : Bool :=
  decide (f.cls < 4) && decide (f.typ < 64) && decide (f.flags < 256) && decide (f.seq < 4096) && decide (f.ack < 4096) &&
  decide (f.cmdCredits < 256) && decide (f.bulkCredits < 256) && decide (f.len < 240) && decide (f.tag < 2 ^ 16) &&
  f.payload.length == 240 && decide (f.crc < 2 ^ 32)

def okEnergy (e : BellEnergy) : Bool :=
  e.forms.length == 16 && e.vmem.length == 4 && e.ports.length == 6 && e.service.length == 4 && e.amps.length == 6

def okCells (l : List Bool) : Bool := l.length == 27

/-- Well-formed commands. -/
def Instr.wf (i : Instr) : Bool :=
  match i with
  | .inputValid _ => true
  | .powerGood _ _ => true
  | .inputLowShutdown _ _ => true
  | .inputHighShutdown _ => true
  | .vcmpOvercurrentShutdown _ => true
  | .domainSagShutdown _ => true
  | .phaseFault _ => true
  | .isolationSwitchOpen form _ => okForm form
  | .vcmpSetpointStep => true
  | .crackCompare form _ _ => okForm form
  | .energyAccumulate e => okEnergy e
  | .powerRecessEvaluate => true
  | .budgetTakeEffect => true
  | .referenceLoss => true
  | .referenceSwitch => true
  | .holdoverTimeout => true
  | .droopAssert _ _ => true
  | .droopDeassert _ _ _ => true
  | .droopDetectorMask _ _ _ => true
  | .canaryAct _ _ _ => true
  | .canaryWarn _ _ _ => true
  | .seamExcursion _ _ => true
  | .stackReset => true
  | .stackResetGateClose => true
  | .stackResetRelease => true
  | .watchdogExpiry _ => true
  | .bellStart _ => true
  | .guardStart => true
  | .refreshSlotA _ _ => true
  | .refreshSlotB => true
  | .serviceSlot x => x.cut.all (fun y => okTile y.1)
  | .formUngateStep p _ => okPart p
  | .formGateStep p _ => okPart p
  | .lessonArm p => okPart p
  | .bellOverrun => true
  | .bellSymbolMissing => true
  | .rejoinComplete => true
  | .haltBellReached p => okPart p
  | .haltNoticeTile lt => okTile lt
  | .haltNoticeLayer l => okLayer l
  | .haltNoticePort port => okPort port
  | .quiesceReport _ => true
  | .stopReportTimeout => true
  | .recessAnnounce => true
  | .rosterDeadline ring tag => okRing ring && okTag tag
  | .rosterCopyComplete ring tag => okRing ring && okTag tag
  | .rosterTileWrite lt => okTile lt
  | .courseStartCommit p => okPart p
  | .courseResumeCommit p => okPart p
  | .courseRestageDone p => okPart p
  | .groupTableCopyDone p => okPart p
  | .groupTableCommit ring tag => okRing ring && okTag tag
  | .shadowEnableDone => true
  | .imageActivateCommit => true
  | .imageSwitchDone _ => true
  | .knownGoodUpdate => true
  | .bellJoinCommit ring tag => okRing ring && okTag tag
  | .bellJoinTimeout ring tag => okRing ring && okTag tag
  | .mxeLoad lt _ _ => okTile lt
  | .mxePass lt _ _ => okTile lt
  | .mxeSend lt _ _ => okTile lt
  | .mxeMerge lt _ _ => okTile lt
  | .descriptorFetch lt _ => okTile lt
  | .veRun lt _ => okTile lt
  | .veTable lt _ _ => okTile lt
  | .veCache lt _ _ => okTile lt
  | .slateNop lt => okTile lt
  | .slateMov lt => okTile lt
  | .slateAdd lt => okTile lt
  | .slateSub lt => okTile lt
  | .slateMul lt => okTile lt
  | .slateMac lt => okTile lt
  | .slateNeg lt => okTile lt
  | .slateAbs lt => okTile lt
  | .slateMin lt => okTile lt
  | .slateMax lt => okTile lt
  | .slateShl lt => okTile lt
  | .slateShr lt => okTile lt
  | .slateShrl lt => okTile lt
  | .slateAnd lt => okTile lt
  | .slateOr lt => okTile lt
  | .slateXor lt => okTile lt
  | .slateNot lt => okTile lt
  | .slateCmpeq lt => okTile lt
  | .slateCmplt lt => okTile lt
  | .slateCmple lt => okTile lt
  | .slateSel lt => okTile lt
  | .slateAlign lt => okTile lt
  | .slateGete lt => okTile lt
  | .slateSete lt => okTile lt
  | .slateGetf lt => okTile lt
  | .slateClrf lt => okTile lt
  | .slateCvt lt => okTile lt
  | .slateRsum lt => okTile lt
  | .slateRmax lt => okTile lt
  | .slateRmaxabs lt => okTile lt
  | .slateRcpw lt => okTile lt
  | .slateLut lt => okTile lt
  | .slateRq lt => okTile lt
  | .slateExps lt => okTile lt
  | .taskStart lt _ => okTile lt
  | .taskDeadline gc => okCore gc
  | .gcTbWindow lt cycle => okTile lt && okCycle cycle
  | .waitcWake gc => okCore gc
  | .chalkAdd gc => okCore gc
  | .chalkSub gc => okCore gc
  | .chalkAnd gc => okCore gc
  | .chalkOr gc => okCore gc
  | .chalkXor gc => okCore gc
  | .chalkSll gc => okCore gc
  | .chalkSrl gc => okCore gc
  | .chalkSra gc => okCore gc
  | .chalkSlt gc => okCore gc
  | .chalkSltu gc => okCore gc
  | .chalkMul gc => okCore gc
  | .chalkMulh gc => okCore gc
  | .chalkMulhu gc => okCore gc
  | .chalkMin gc => okCore gc
  | .chalkMax gc => okCore gc
  | .chalkClz gc => okCore gc
  | .chalkDiv gc => okCore gc
  | .chalkDivu gc => okCore gc
  | .chalkRem gc => okCore gc
  | .chalkRemu gc => okCore gc
  | .chalkAddi gc => okCore gc
  | .chalkAndi gc => okCore gc
  | .chalkOri gc => okCore gc
  | .chalkXori gc => okCore gc
  | .chalkSlli gc => okCore gc
  | .chalkSrli gc => okCore gc
  | .chalkSrai gc => okCore gc
  | .chalkSlti gc => okCore gc
  | .chalkLui gc => okCore gc
  | .chalkLdw gc => okCore gc
  | .chalkLdh gc => okCore gc
  | .chalkLdhu gc => okCore gc
  | .chalkLdb gc => okCore gc
  | .chalkLdbu gc => okCore gc
  | .chalkStw gc => okCore gc
  | .chalkSth gc => okCore gc
  | .chalkStb gc => okCore gc
  | .chalkBeq gc => okCore gc
  | .chalkBne gc => okCore gc
  | .chalkBlt gc => okCore gc
  | .chalkBge gc => okCore gc
  | .chalkBltu gc => okCore gc
  | .chalkBgeu gc => okCore gc
  | .chalkJal gc => okCore gc
  | .chalkJalr gc => okCore gc
  | .chalkEnd gc => okCore gc
  | .chalkWaitc gc => okCore gc
  | .chalkRdcyc gc => okCore gc
  | .chalkRdbell gc => okCore gc
  | .chalkRdid gc => okCore gc
  | .chalkTrap gc => okCore gc
  | .chalkRet gc => okCore gc
  | .moverCopy lt _ => okTile lt
  | .moverIndirect lt _ => okTile lt
  | .builtDescriptor lt c => okTile lt && okChannel c
  | .moverBeat lt c => okTile lt && okChannel c
  | .serviceTransfer lt c => okTile lt && okChannel c
  | .lockerReadDeliver lt c => okTile lt && okChannel c
  | .lockerWriteAck lt c => okTile lt && okChannel c
  | .lockerCommand _ _ _ _ => true
  | .lockerNbuCommand _ _ => true
  | .serviceAccessBelow _ a _ _ => okAddr a
  | .evacuationStep _ => true
  | .evacuationComplete => true
  | .nbuSequenceStart l part _ => okLayer l && okPart part
  | .nbuGatherReduce l part _ => okLayer l && okPart part
  | .nbuMatvec l part _ => okLayer l && okPart part
  | .nbuSignUpdate l part _ => okLayer l && okPart part
  | .nbuSeqCopy l part _ => okLayer l && okPart part
  | .nbuSeqFill l part _ => okLayer l && okPart part
  | .nbuTransfer l part _ => okLayer l && okPart part
  | .nbuSequenceEnd l part _ => okLayer l && okPart part
  | .translationJobStart lt => okTile lt
  | .translateEntry lt _ => okTile lt
  | .fallbackRecordWrite lt _ _ _ => okTile lt
  | .meshInject lt cycle => okTile lt && okCycle cycle
  | .meshBeatRoute _ _ _ _ => true
  | .meshEject _ => true
  | .serviceBeatAdvance _ cycle _ _ _ => okCycle cycle
  | .hallReq lt c _ _ => okTile lt && okChannel c
  | .hallGrant lt => okTile lt
  | .hallPassReturn lt c => okTile lt && okChannel c
  | .cnetRegRead m _ _ => okMsg m
  | .cnetRegWrite m _ _ => okMsg m
  | .cnetRegReply m _ _ => okMsg m
  | .cnetEvent m _ _ => okMsg m
  | .cnetArm m _ _ => okMsg m
  | .cnetServicePost m _ _ => okMsg m
  | .portSend port _ _ => okPort port
  | .portRecv port _ _ => okPort port
  | .portReduce port _ _ => okPort port
  | .portRelay port _ _ => okPort port
  | .portVoteSend port _ _ => okPort port
  | .portVoteAdd port _ _ => okPort port
  | .portVoteSign port _ _ => okPort port
  | .frameReceive port f _ _ => okPort port && okFrame f
  | .svcWrite port => okPort port
  | .svcRead port => okPort port
  | .svcReply port => okPort port
  | .remoteTimeout tag => okTag tag
  | .symBell port y _ _ _ => okPort port && okSym y
  | .symHalt port y _ => okPort port && okSym y
  | .symRecess port y _ => okPort port && okSym y
  | .symRecessReq port y _ => okPort port && okSym y
  | .symCredit port y _ => okPort port && okSym y
  | .symLaneSwap port y _ => okPort port && okSym y
  | .symTrain port y _ => okPort port && okSym y
  | .symProbe port y _ _ => okPort port && okSym y
  | .symIdle port y _ => okPort port && okSym y
  | .portLaneFault port _ _ => okPort port
  | .portLaneTakeover port => okPort port
  | .portDetectLight port _ => okPort port
  | .portTrainStateDone port _ _ _ _ => okPort port
  | .portTrainTimeout port => okPort port
  | .portRetrain port => okPort port
  | .portRetrainDone port _ _ _ _ => okPort port
  | .mxlPrioCmd f _ => okFlit f
  | .mxlDoorbell h p x part => okFlit (RxFlit.of h p x).flit && okPart part
  | .mxlRegRead h p x => okFlit (RxFlit.of h p x).flit
  | .mxlRegWrite h p x _ => okFlit (RxFlit.of h p x).flit
  | .mxlMemRead h p x => okFlit (RxFlit.of h p x).flit
  | .mxlMemWrite h p c _ => okFlit ⟨h, p, c⟩
  | .mxlHostData h p c _ => okFlit ⟨h, p, c⟩
  | .mxlIdleFlit x => okFlit x.flit
  | .mxlLaneSwapFlit h p x => okFlit (RxFlit.of h p x).flit
  | .mxlFlitCheckFail f _ _ => okFlit f
  | .mxlNak x => okFlit x.flit
  | .mxlReplayTimeout => true
  | .hostReadTimeout tag => okTag tag
  | .mxlLaneFault x => decide (x.lane < 9)
  | .mxlStateDone lanes _ _ => lanes.all (fun n => decide (n < 9)) && decide lanes.Nodup
  | .mxlStateTimeout => true
  | .mxlDownRecover => true
  | .commandFetch r d => okRing r && d.length == 64
  | .heldRecordFlush => true
  | .cmdNop ring tag => okRing ring && okTag tag
  | .cmdStop tag => okTag tag
  | .cmdAbort ring tag entry => okRing ring && okTag tag && entry.all (fun x => x.2.length == 64)
  | .cmdReset ring tag => okRing ring && okTag tag
  | .cmdPartitionSet ring tag => okRing ring && okTag tag
  | .cmdLinkmapLoad ring tag => okRing ring && okTag tag
  | .cmdBellJoin ring tag => okRing ring && okTag tag
  | .cmdMemCopy ring tag => okRing ring && okTag tag
  | .cmdMemFill ring tag => okRing ring && okTag tag
  | .cmdDmaIn ring tag => okRing ring && okTag tag
  | .cmdDmaOut ring tag => okRing ring && okTag tag
  | .cmdNbuFill ring tag => okRing ring && okTag tag
  | .cmdNbuCopy ring tag => okRing ring && okTag tag
  | .cmdCourseLoad ring tag => okRing ring && okTag tag
  | .cmdCourseStart ring tag => okRing ring && okTag tag
  | .cmdCourseEnd ring tag => okRing ring && okTag tag
  | .cmdCourseUnload ring tag => okRing ring && okTag tag
  | .cmdCourseResume ring tag => okRing ring && okTag tag
  | .cmdRosterCommit ring tag => okRing ring && okTag tag
  | .cmdSeqOpen ring tag => okRing ring && okTag tag
  | .cmdSeqClose ring tag => okRing ring && okTag tag
  | .cmdPageMap ring tag => okRing ring && okTag tag
  | .cmdPageUnmap ring tag => okRing ring && okTag tag
  | .cmdSeqFork ring tag => okRing ring && okTag tag
  | .cmdPagePrivate ring tag => okRing ring && okTag tag
  | .pageCommandCommit ring tag => okRing ring && okTag tag
  | .cmdGroupTable ring tag => okRing ring && okTag tag
  | .cmdRecessRequest ring tag => okRing ring && okTag tag
  | .cmdPowerCap ring tag => okRing ring && okTag tag
  | .cmdBudgetMove ring tag => okRing ring && okTag tag
  | .cmdImageStage ring tag => okRing ring && okTag tag
  | .cmdImageActivate ring tag => okRing ring && okTag tag
  | .cmdSyllabusLoad ring tag => okRing ring && okTag tag
  | .cmdLicenceLoad ring tag => okRing ring && okTag tag
  | .cmdAttest ring tag => okRing ring && okTag tag
  | .cmdExam ring tag => okRing ring && okTag tag
  | .cmdEvacuate ring tag => okRing ring && okTag tag
  | .cmdAreaRestore ring tag => okRing ring && okTag tag
  | .cmdRenumber ring tag => okRing ring && okTag tag
  | .cmdEnergySnapshot ring tag => okRing ring && okTag tag
  | .energySnapshotTake ring tag => okRing ring && okTag tag
  | .cmdCountersClear ring tag => okRing ring && okTag tag
  | .countersClearApply ring tag => okRing ring && okTag tag
  | .cmdTraceConfig ring tag => okRing ring && okTag tag
  | .sensorSample _ _ _ _ => true
  | .tripComparator _ _ _ => true
  | .thermalForecast => true
  | .coolantEvaluate => true
  | .stageS1Boot _ _ => true
  | .stageS2Clocks _ _ _ => true
  | .stageS3Memory _ _ _ _ _ _ _ => true
  | .stageS4Seating _ _ _ _ _ => true
  | .stageS5Licences _ _ => true
  | .stageS6Ports _ => true
  | .stageS8Ready _ _ => true
  | .autoExamStep _ => true
  | .examComplete _ => true
  | .heartbeatTimeout lt => okTile lt
  | .errorsThreshold lt => okTile lt
  | .substitutionComplete lt => okTile lt
  | .i3cEntdaa _ => true
  | .i3cSetdasa _ => true
  | .i3cRstdaa => true
  | .i3cEnec _ => true
  | .i3cDisec _ => true
  | .i3cGetstatus => true
  | .i3cSetIndex _ => true
  | .i3cPrivateRead _ => true
  | .mgmtResetRequest => true
  | .mgmtLedgerClear => true
  | .mgmtHoldNext => true
  | .mgmtAlertAck => true
  | .mgmtMalformed _ _ => true
  | .jtagExtest cells pins => okCells cells && okCells pins
  | .jtagSamplePreload cells pins => okCells cells && okCells pins
  | .jtagIdcode => true
  | .jtagClamp => true
  | .jtagHighz => true
  | .jtagExtestPulse cells pins => okCells cells && okCells pins
  | .jtagExtestTrain cells pins => okCells cells && okCells pins
  | .jtagBypass => true
  | .instRead _ _ => true
  | .instWrite _ _ _ => true
  | .instComplete => true
  | .bellClearPeak _ => true
  | .bellOverrunClear _ => true
  | .ariClearAll _ => true
  | .ariFlagClear _ _ _ => true
  | .memFaultClear l _ => okLayer l
  | .nbuTokenLimitWrite _ => true
  | .nbuTokensClearPeak _ => true
  | .trnAreaWrite _ => true
  | .trnPoolWrite _ => true
  | .trnFallbackWrite lt _ => okTile lt
  | .updShadowWrite _ => true
  | .fabPartWrite _ => true
  | .ringCfgWrite a _ => okAddr a
  | .cplRingHeadWrite _ _ => true
  | .evtRingHeadWrite _ _ => true
  | .throttleLimitWrite _ => true
  | .coolantDeclineClear _ => true
  | .crackSuspectClear form _ => okForm form
  | .evacPendingClear _ _ => true
  | .regAccessArmClear _ => true
  | .serviceStopClear lt c _ => okTile lt && okChannel c
  | .loRegisterRead _ a => okAddr a
  | .registerAccessError a _ _ => okAddr a
  | .registerWrite a _ _ => okAddr a
  | .referenceRegained => true
  | .mxlLaneTakeover => true
  | .securityCommandDone => true
  | .stopBoundElapsed tag => okTag tag
  | .trstNAssert => true

end Sys2Proof
end

