-- ==== Sys2Proof/Tests/Slice0.lean ====
section
/-! SUPPORT. Tests: ill-formed commands, worked examples of the spec, and for each statement states and operands that meet its
hypotheses. -/

set_option maxRecDepth 100000

namespace Sys2Proof.Machine.Tests

/-! States. -/

/-- A module whose power is removed, one that a trip has latched, and one with a warn report. -/
def off : State := { State.reset with power := { PowerSt.reset with phase := .off } }
def latched : State := { State.reset with power := { PowerSt.reset with phase := .latched } }
def warned : State := { State.reset with power := { PowerSt.reset with warnSeen := true } }

/-- A packet of an opcode with tag 7 and a first parameter word. -/
def pktOf (op p0 : Nat) : Packet :=
  { opcode := op, flags := 0, tag := 7, p0 := p0, p1 := 0, p2 := 0, p3 := 0, p4 := 0, p5 := 0, p6 := 0 }
/-- A command of ring 0, accepted in bell 0. -/
def cmdOf (op p0 : Nat) (ph : CmdPhase) : Cmd :=
  { ring := 0, cplRing := 0, part := 0, pkt := pktOf op p0, phase := ph, bell := 0, data := [] }
/-- The module in bell 5 with one accepted command. -/
def given (c : Cmd) : State := { State.reset.setPair BELL_COUNT_LO 5 with cmds := [c] }
/-- Two partitions with a budget of 500 W each, and a BUDGET_MOVE of 50 W. -/
def budgeted : State :=
  let s := (given (cmdOf opBUDGET_MOVE (4 + 65536 * 50) .accepted)).setF CMD_PART CMD_PART_count 2
  { s with power := { s.power with budgets := some [500, 500, 0, 0] } }
/-- A timetable image of one lesson of one bell that repeats, with a recess point and an allotment of 1. -/
def img : List Byte :=
  putBytes (putBytes (putBytes (zeros 0x6A) 0x14 [1]) 0x30 [0x60]) 0x60 [1, 0, 0, 3, 1, 0, 0, 0, 1, 0]
/-- Partition 0 runs that course, in its second pass. -/
def running : State :=
  (((State.reset.setPair BELL_COUNT_LO 5).setCourseState 0 csRunning).setF (PWR_PART 0) PWR_PART_budget_w 0).modCrs 0
    (fun c => { c with image := img, iter := 1 })
/-- The same with its bell under way. -/
def working : State := running.modCrs 0 (fun c => { c with ran := true })
/-- In holdover from an upstream port; with one detector asserting. -/
def held : State := (State.reset.setB CLK_REF CLK_REF_ref_sel true).setHoldover true
def drooping : State := { State.reset with clock := { ClockSt.reset with asserting := [(5, 511)] } }
/-- The domains are coming up; a reset requested, begun, and past its gate. -/
def rising : State := { State.reset with power := { PowerSt.reset with phase := .rising } }
def resetting : State := { State.reset with clock := { ClockSt.reset with resetPending := some 1 } }
def gating : State := { State.reset with clock := { ClockSt.reset with resetPending := some 1, resetBegun := true } }
def gated : State := { State.reset with clock := { ClockSt.reset with resetPending := some 1, gateClosed := true } }
/-- A bell with a charge of 300; a backup that has missed four bells; a device out of step with 16 bells in tolerance. -/
def overrunning : State := { State.reset with bell := { State.reset.bell with chargeGuard := 300 } }
def backingUp : State :=
  { (State.reset.setB BELL_SYNC BELL_SYNC_joined true).setB BELL_SYNC BELL_SYNC_backup true with
    bell := { State.reset.bell with missing := 4 } }
def outside : State :=
  { State.reset.setB BELL_SYNC BELL_SYNC_out_of_step true with bell := { State.reset.bell with inTol := 16 } }
/-- Partition 0 has reached its halt bell 5. -/
def halting : State := (running.setCourseState 0 csHalting).modCrs 0 (fun c => { c with haltBell := some 5 })
/-- A joined device that follows the backup, device 4, on port 1; a timekeeper with one request. -/
def follower : State :=
  let s := ((State.reset.setB BELL_SYNC BELL_SYNC_joined true).setB FAB_TREE FAB_TREE_following_backup true).setF FAB_TREE
    FAB_TREE_up_backup 1
  { s.setF (PORT_STATE 1) PORT_STATE_state 7 with map := { s.map with backup := 4 } }
def keeper : State :=
  let s := (State.reset.setB BELL_SYNC BELL_SYNC_joined true).setB BELL_SYNC BELL_SYNC_timekeeper true
  { s with bell := { s.bell with requests := [⟨3, 1, 0, 0, 0, 2⟩] } }
/-- Tile 0 is seated; a read beat and a written word of channel 7, done; a course with tile 0 about to arm; an evacuation. -/
def seated : State := State.reset.setF (STK_SEAT_LT 0) STK_SEAT_LT_seat 0
def readOp : LkOp :=
  { write := false, addr := 0x1000000, beat := 0, cycle := 100, off := 0x40, tag := 1, data := 5, poison := false, done := true }
def copyRun0 : CopyRun :=
  { mc := 0, srcLk8 := true, dstLk8 := false, dstTag := 1, src := 0x1000000, dst := 0x40, rowBytes := 8, rows := 1, srcStride := 8,
    dstStride := 8, startCycle := 100, beat := 1 }
def reading : State := State.reset.modChan (8 * 255 + 7) (fun c => { c with ops := [readOp], copy := some copyRun0 })
def writing : State := State.reset.modChan 7 (fun c => { c with ops := [{ readOp with write := true }] })
def armable : State := (working.setF (STK_SEAT_LT 0) STK_SEAT_LT_seat 0).modTile 0 (fun t => { t with armAck := true })
def evacuating (n : Nat) : State :=
  { State.reset with bring := { State.reset.bring with evac := some { ring := 0, tag := 7, lt := 3, done := n, bad := [] } } }
/-- A loaded course; a start that waits for its commit point at bell 6; a halted course with a checkpoint. -/
def loaded (c : Cmd) : State :=
  (((given c).setCourseState 0 csLoaded).setB BELL_SYNC BELL_SYNC_joined true).modCrs 0 (fun k => { k with image := img, staged := true })
def starting (op : Nat) : State :=
  (loaded (cmdOf op 6 .active)).modCrs 0 (fun k => { k with
    startBell := 6, startTag := 7, resuming := (op == opCOURSE_RESUME), resumeAt := some (0, 2) })
def halted (c : Cmd) : State := ((loaded c).setCourseState 0 csHalted).modCrs 0 (fun k => { k with resumeAt := some (0, 2) })
/-- The running course with a command; a roster for bell 1 of it, in the store, and one that a ROSTER_COMMIT has brought. -/
def inCourse (c : Cmd) : State := { running with cmds := [c] }
def rosterBytes (b : Nat) : List Byte := zeros 8 ++ leBytes 8 b ++ zeros 16
def rosterRec (l i : Nat) : Roster :=
  { lesson := l, iter := i, courseBell := i, data := rosterBytes i, committed := false, ring := 0, tag := 7 }
def rostered (i : Nat) : State :=
  (inCourse (cmdOf opROSTER_COMMIT 0x40 .active)).modCrs 0 (fun k => { k with rosters := [rosterRec 0 i] })
/-- A STOP from the priority path, and one whose reports are awaited. -/
def stopOf (ph : CmdPhase) : Cmd := { cmdOf opSTOP 1 ph with ring := 255, data := [300] }
def stopping : State := { inCourse (stopOf .committed) with stop := some { awaited := [3, 0x100], named := false } }
/-- A command of three parameter words; tile 0 seated; a table pending, and one whose staging copies are complete. -/
def cmdOf3 (op p0 p1 p2 : Nat) (ph : CmdPhase) : Cmd :=
  { cmdOf op p0 ph with pkt := { pktOf op p0 with p1 := p1, p2 := p2 } }
def seatedWith (c : Cmd) : State := (given c).setF (STK_SEAT_LT 0) STK_SEAT_LT_seat 0
def tabled (b : Nat) (copied : Bool) : State :=
  { given (cmdOf3 opGROUP_TABLE 0 9 b .active) with
    cmds := [{ cmdOf3 opGROUP_TABLE 0 9 b .active with bell := 1 }]
    groups := [(0, { bank0 := [], bank1 := [(3, 17)], image := [], cmd := some (0, 7), bell := b, generation := 9, copied := copied
                     scheduled := none, shadowing := false })] }
def tabledCmd (b : Nat) : Cmd := { cmdOf3 opGROUP_TABLE 0 9 b .active with bell := 1 }
/-- A join under way after 16 good bells, and one that has waited 65,536 bells. -/
def joining (start good : Nat) : State :=
  let s := State.reset.setPair BELL_COUNT_LO 70000
  { s with bell := { s.bell with join := some { ring := 0, tag := 7, start := start, aligned := true, good := good, hops := 2, sysBell := 99 } }
           cmds := [cmdOf opBELL_JOIN 0 .active] }
/-- The security block with a job under way; a job whose write has ended; an activation, waiting and switching. -/
def secBusy (c : Cmd) : State := { given c with sec := { State.reset.sec with job := some { ring := 1, tag := 2, data := [] } } }
def secWriting (op : Nat) (b : List Byte) : State :=
  { given (cmdOf op 0 .active) with sec := { State.reset.sec with job := some { ring := 0, tag := 7, data := b }, licences := [] } }
def switching : State :=
  { given (cmdOf opIMAGE_ACTIVATE 1 .committed) with
    sec := { State.reset.sec with job := some ⟨0, 7, []⟩, switch := some ⟨1, 0, 0, 7⟩ } }
/-- A syllabus of one entry that lists set 1, whose five slots hold the magic word and zeros. -/
def listing : State :=
  { given (cmdOf opIMAGE_ACTIVATE 1 .accepted) with
    sec := { State.reset.sec with
      syllabus := putBytes (putBytes (zeros 0x160) 0x16 [1]) 0x40 ([1, 1, 1] ++ zeros 4)
      slots := (List.range 5).map (fun k => (9 + k, leBytes 4 0x53474E57 ++ zeros 0x80)) } }
/-- Tile 0 works for partition 0 in bell 0 of its lesson and runs a tile program; a matrix program of one descriptor whose first
byte is op, at cycle 8. -/
def tileRuns (prog : List Byte) : State :=
  (working.setF (STK_SEAT_LT 0) STK_SEAT_LT_seat 0).modTile 0 (fun t => { t with armed := true, bank0 := prog })
def mxeProg (op : Byte) : List Byte := putBytes (putBytes (zeros 0x60) 0x08 [0x40, 0, 0, 0, 1]) 0x40 [op]
def merging : State := (tileRuns (mxeProg 0x84)).modTile 0 (fun t => { t with mxe := { t.mxe with
  merges := (List.range 6).map (fun j => (j, { tag := 0, poison := 0, data := zeros 128 })) } })
/-- A vector program of one descriptor; a RUN of a slate of one instruction, first of two iterations. -/
def veProg (op : Byte) : List Byte := putBytes (putBytes (zeros 0x60) 0x0E [1, 0, 0x40]) 0x40 [op]
def slateRun (w iters : Nat) : VeRun :=
  { idx := 0, base := 12, slate := [w], block := zeros 128, iters := iters, iter := 0, instr := 0, q := [] }
def issuing (w : Nat) : State := (tileRuns (veProg 0x81)).modVe 0 (fun e => { e with run := some (slateRun w 2) })
/-- The operands of an instruction of width 0, all of its lanes zero. -/
def slateZero (op : Nat) : SlateIn :=
  { i := slateOf op, a := { vreg0 with poison := List.replicate 16 false }, b := vreg0, c := vreg0, old := vreg0,
    acc := { entries := [], tag := 0 }, ws := wreg0, wd := wreg0, flags := [], slot := none, seed := 0, block := zeros 128,
    iter := 0 }
/-- Core 0 runs a task whose next instruction, at 0x1000, is the word w; g1 = a, g2 = b. -/
def coreAt (w a b : Nat) : State :=
  let s := (working.setF (STK_SEAT_LT 0) STK_SEAT_LT_seat 0).setB (GC_STATUS 0) GC_STATUS_running true
  { s with
    mem := lmStore MemSt.reset (lmAddr 0 0x1000) w false
    cores := [(0, { core0 with pc := 0x1000, deadline := 4000, g := [(1, BitVec.ofNat 32 a), (2, BitVec.ofNat 32 b)] })] }
/-- A word of formats A and B: rd = g3, ra = g1, rb = g2. -/
def word3 (op fn : Nat) : Nat := op + 3 * 2 ^ 8 + 2 ^ 13 + 2 * 2 ^ 18 + fn * 2 ^ 23
def taskProg : List Byte := putBytes (putBytes (zeros 0x60) 0x1A [1, 0, 0x40]) 0x40 [0, 0, 0, 0, 8, 0, 0xFF, 0, 0, 0x10]
/-- A mover program of one entry: a COPY of 128 bytes within tile 0, or an INDIRECT of one descriptor. -/
def movProg (op : Byte) : List Byte :=
  putBytes (putBytes (zeros 0x60) 0x14 [0x40, 0, 0, 0, 1]) 0x40
    ([op] ++ zeros 7 ++ leBytes 8 tbBase ++ leBytes 6 (tbBase + 0x80) ++ [127, 0] ++ zeros 8)
def ownCopy : CopyRun :=
  { mc := 0, srcLk8 := false, dstLk8 := false, dstTag := 0, src := tbBase, dst := tbBase + 0x80, rowBytes := 128, rows := 1,
    srcStride := 0, dstStride := 0, startCycle := 8, beat := 0 }
def copying : State := (tileRuns []).modChan 0 (fun ch => { ch with copy := some ownCopy })
def listRun : IndirectRun := { listAddr := 0, count := 1, next := 0, firstCycle := 8, window := 100, cycle := 8 }
def listing1 : State := (tileRuns []).modChan 0 (fun ch => { ch with ind := some listRun })
def posted : State :=
  ((seated.setB (BELL_CRS_STATE 0) ⟨3, 1⟩ true).modChan 0 (fun ch => { ch with
    posts := [{ ring := 0, tag := 7, src := tbBase, dst := tbBase + 0x80, bytes := 128, moved := 0 }] }))
/-- A layer program of one sequence entry (one locker, one row), and a sequence of that entry under way. -/
def seqProg (op : Nat) : List Byte := putBytes (putBytes (zeros 0x60) 6 [1, 0, 0x40]) 0x40 [BitVec.ofNat 8 op]
def seqRun (op : Nat) : SeqRun :=
  { part := 0, idx := 0, entry := op, xfer := 0, bell := 0, t := 8, step := 1, shift := 0, tokens := 1, nbus := [], owner := none }
def layered (op : Nat) : State := working.modLayer 0 (fun y => { y with prog := [(0, seqProg op)] })
def sequencing (op x : Nat) : State := working.modLayer 0 (fun y => { y with seqs := [{ seqRun op with xfer := x }] })
/-- NBU_FILL under way with its working values, and the sequence that serves it, its one row filled. -/
def nbuCmd (data : List Nat) : Cmd := { cmdOf opNBU_FILL 0 .active with data := data }
def servingRun : SeqRun := { seqRun 5 with part := 255, xfer := 1, owner := some (0, 7) }
def nbuServing (data : List Nat) : State := (seatedWith (nbuCmd data)).modLayer 0 (fun y => { y with seqs := [servingRun] })
/-- Page tables in use from offset 0 on, frames from row 3 only: sequences 0 and 1 are open with one leaf each, and page 0 of
sequence 0 is mapped to frame 3. -/
def packet3 (op p0 p1 p2 : Nat) : Packet := (cmdOf3 op p0 p1 p2 .accepted).pkt
def paged (c : Cmd) : State :=
  let s := (((seatedWith c).setF TRN_AREA TRN_AREA_enable 1).setF TRN_POOL TRN_POOL_row_first 3).setF TRN_POOL TRN_POOL_row_last 3
  ((((s.putArea 0 0 4 0x80001000).putArea 0 4 4 0x80001001).putArea 0 0xC000 4 0x80000003).putArea 0 0x4006 2 1)
/-- Tile 0 works in bell 0 of a lesson whose program receives a roster of capacity 2 at offset 64, with a plan of one page word for
records at 0x1000; the next pass's roster is committed. -/
def trnImg : List Byte :=
  putBytes (putBytes (putBytes (putBytes (putBytes (zeros 0x100) 0x14 [1]) 0x30 [0x60]) 0x60
    [1, 0, 0, 3, 1, 0, 0, 0, 1, 0, 0, 0, 2, 0, 0, 0, 0x80]) 0x80 [0xA0, 0, 0, 0, 0x60]) 0xC8 [0x40, 0, 0, 0x80]
def nextRoster : Roster := { rosterRec 0 2 with committed := true, data := zeros 16 ++ [1] ++ zeros 31 }
def translating (fallback : Bool) : State :=
  let s := (tileRuns (bytesFrom trnImg 0xA0 0x60)).modCrs 0 (fun c => { c with image := trnImg, rosters := [nextRoster] })
  let s := ((s.setF TRN_AREA TRN_AREA_enable 1).setF TRN_AREA TRN_AREA_base 0x100).setB (TRN_STATUS_LT 0) TRN_STATUS_LT_fallback fallback
  let s := (s.setB (TRN_STATUS_LT 0) TRN_STATUS_LT_busy true).putArea 0 0 4 0x80001000
  { s with mem := tbWrite s.mem 0 0 [0, 0x10, 0, 0, 0, 0, 1, 0, 1] [] 1 }
/-- Tiles 0 and 1 at their seats; a timed beat of tile 0 for tile 1, at cycle 100. -/
def meshed (l : List Beat) (u : List RouteUse) : State :=
  let s := seated.setF (STK_SEAT_LT 1) STK_SEAT_LT_seat 1
  { s with mesh := { s.mesh with beats := l, uses := u, nextId := 5 } }
def beat1 : Beat :=
  { id := 0, destLt := 1, srcLt := 0, mc := 0, kind := 0, first := true, last := true, dstTag := 1, dstOff := 0, poison := 0,
    data := zeros 128, injBell := 0, injCycle := 100, row := 0, col := 0, side := 4, arrive := 102, unit := 1, injected := false
    root := 0, targets := [1], path := [] }
def beat2 : Beat := { beat1 with id := 2, unit := 3 }
def moving : Beat := { beat1 with injected := true }
def gone1 : Beat := { moving with id := 3, root := 7, path := [(moving.seat, 0)] }
/-- Port 0 is UP and runs a program of one entry; a frame from device 0 on stream 0. -/
def porting (op : Nat) : State :=
  (working.setF (PORT_STATE 0) PORT_STATE_state 7).modPort 0 (fun t => { t with
    prog := putBytes (putBytes (zeros 0x40) 6 [1, 0, 0x20]) 0x20 [BitVec.ofNat 8 op] })
def frameOf (k : Nat) : Frame :=
  { kind := k, flags := 0, src := 0, dst := 0, stream := 0, bell := 0, seq := 0, sendCycle := 0, tieId := 0, poison := 0, gaddr := 0,
    bytes := 3839, status := 0, payload := zeros 3840, crc := 0, rsvHdr := 0, rsvTail := 0 }
/-- The Milbex Link is UP, expects sequence number 0 and has granted its buffers; a flit that checks good; ring 0 of 16 entries is enabled; a torus of two devices. -/
def linkUp : State :=
  { State.reset.setF MXL_STATE MXL_STATE_state 5 with
    mxl := { State.reset.mxl with rxSeq := 4095, cmdGrant := 64, bulkGrant := 1024 } }
def rxOf (cls typ flags : Nat) (d : List Byte) : RxFlit :=
  { flit := sealFlit { blankFlit cls typ flags 9 d with ack := 4095 }, corrected := false }
def ringed : State := (State.reset.setB (CMD_RING_CFG 0) CMD_RING_CFG_enable true).setF (CMD_RING_CFG 0) CMD_RING_CFG_size_log2 4
def torus : State := { State.reset.setB STK_ID STK_ID_id_valid true with map := { State.reset.map with loaded := true, nx := 2, ny := 1, nz := 1 } }
def waitingRead : HostRead := { bulk := true, tag := 9, ring := 0, cmdTag := 7, addr := 0, len := 4 }
def hostReading : State :=
  let s := given (cmdOf opMEM_COPY 0 .active)
  { s with mxl := { s.mxl with hostReads := [waitingRead] } }
def sentFlit (q : Nat) : TxFlit := { flit := { blankFlit fcCOMMAND ftREG_DATA 3 0 [] with seq := q }, msg := q, owner := none }
def replaying : State :=
  { linkUp with mxl := { linkUp.mxl with replay := [sentFlit 4, sentFlit 5], swap := some (3, 64) } }
/-- Ring 0 has one pending entry and a completion ring with room; the entry fetched out of turn; an ABORT of tag 7. -/
def fetchable : State :=
  ((ringed.setReg (CMD_RING_TAIL 0) 1).setB (CPL_RING_CFG 0) CPL_RING_CFG_enable true).setF (CPL_RING_CFG 0) CPL_RING_CFG_size_log2 4
def skipping : State := { fetchable with skips := [(0, 0)] }
def abortCmd : Cmd := { cmdOf opABORT 0 .accepted with pkt := { pktOf opABORT 0 with tag := 8, p1 := 7 } }
def aborting : State := { given (cmdOf opNOP 0 .accepted) with cmds := [cmdOf opNOP 0 .accepted, abortCmd] }
/-- An EXAM whose last seat is done. -/
def examining : State :=
  { given (cmdOf3 opEXAM 1 0 0 .committed) with bring := { State.reset.bring with exam := some { ring := 0, tag := 7, form := 0, left := [] } } }
def autoExam : State :=
  ((State.reset.setF BRG_STAGE BRG_STAGE_stage 8).setF BRG_STAGE BRG_STAGE_state 2).setB BRG_EXAM_CTRL BRG_EXAM_CTRL_auto true
/-- An I3C target with address 0x4A and one interrupt that waits; an instrument operation in an open bell. -/
def managed : State :=
  let s := State.reset.setF MGMT_STATUS MGMT_STATUS_i3c_addr 0x4A
  { s with mgmt := { s.mgmt with pendingIbi := [3] } }
def instrument (op space addr : Nat) : State :=
  let s := seated.setB (BELL_CRS_STATE 0) BELL_CRS_STATE_open true
  { s with mgmt := { s.mgmt with instOp := some (op, space, addr, 9) } }
/-- The model is in use and distrusts sensors 0 and 1; counts one short of their limits; region 57's model and canary estimates. -/
def distrusting : State :=
  let s := (State.reset.setB (THM_SENSOR 0) THM_SENSOR_suspect true).setB (THM_SENSOR 1) THM_SENSOR_suspect true
  { s with therm := { s.therm with
    modelValid := true, far := [(4, 15)], near := [(0, 4095)], apart := [(9, 15)], model := [(57, 1400)], canary := [(57, 352)] } }
/-- A course at a recess point; a coolant that declines for the 16th time. -/
def atPoint : State := working
def declining : State :=
  { State.reset with therm := { State.reset.therm with samples := 1024, riseSum := 1024 * 400, powerSum := 0, declineCount := 15 } }
/-- The failure of tile 0 has been declared. -/
def failing : State := { seated with bring := { seated.bring with substs := [{ lt := 0, test := 5, bell := 0 }] } }
/-- In a stage of a start, in a state of it; with the Milbex Link UP; with the link map loaded. -/
def atStage (k st : Nat) : State :=
  let s := (State.reset.setF BRG_STAGE BRG_STAGE_stage k).setF BRG_STAGE BRG_STAGE_state st
  { s with sec := { s.sec with licences := [] } }
def atS2 : State := (atStage 2 1).setF MXL_STATE MXL_STATE_state 5
def atS6 : State :=
  let s := (atStage 6 1).setF (PORT_STATE 5) PORT_STATE_state 9
  { s.setB (PORT_STATE 5) PORT_STATE_licensed true with map := { s.map with loaded := true, nz := 2 } }

/-! Ill-formed commands: for each check of Instr.wf, terms that it refuses. -/

theorem test_ill_formed_units :
    ([.haltNoticeTile 256, .lessonArm 4, .haltNoticeLayer 4, .crackCompare 16 0 0, .haltNoticePort 6, .moverBeat 0 8, .cmdNop 64 0,
      .cmdNop 254 0, .cmdNop 0 (2 ^ 32), .gcTbWindow 0 4096, .ringCfgWrite (2 ^ 48) 0] : List Instr).all (fun i => !i.wf) = true := by
  decide

theorem test_ill_formed_core : (Instr.chalkAdd 16384).wf = false := by decide

theorem test_ill_formed_packet : (Instr.commandFetch 0 (zeros 64)).wf = true ∧ (Instr.commandFetch 0 (zeros 63)).wf = false ∧
    (Instr.commandFetch 64 (zeros 64)).wf = false := by decide

theorem test_ill_formed_symbol :
    let y : Sym := { typ := 0, a8 := 0, origin := 0, bell := 0, b32 := 0, crc := 0 }
    ([{ y with typ := 256 }, { y with a8 := 256 }, { y with origin := 2 ^ 16 }, { y with bell := 2 ^ 48 }, { y with b32 := 2 ^ 32 },
      { y with crc := 2 ^ 16 }] : List Sym).all (fun y => !(Instr.symIdle 0 y true).wf) = true := by decide

/-- A frame whose payload has the length n. -/
def shortFrame (n : Nat) : Frame := { frameOf 0 with payload := List.replicate n 0 }

theorem test_ill_formed_frame :
    let f := shortFrame 0
    okFrame f = false ∧ ([{ f with kind := 256 }, { f with flags := 256 }, { f with src := 2 ^ 16 }, { f with dst := 2 ^ 16 },
      { f with stream := 2 ^ 16 }, { f with seq := 2 ^ 16 }, { f with sendCycle := 2 ^ 16 }, { f with tieId := 2 ^ 16 },
      { f with bytes := 2 ^ 16 }, { f with status := 2 ^ 16 }, { f with bell := 2 ^ 64 }, { f with poison := 2 ^ 64 },
      { f with gaddr := 2 ^ 64 }, { f with crc := 2 ^ 32 }] : List Frame).all (fun f => !okFrame f) = true := by decide

theorem test_ill_formed_message :
    let m : CnetMsg := { typ := 0, prio := false, bcast := false, dest := 0, src := 0, payload := 0, words := []
                         seat := none, second := false }
    ([{ m with typ := 16 }, { m with dest := 1024 }, { m with src := 1024 }, { m with payload := 2 ^ 32 },
      { m with words := [0, 0, 0, 0] }, { m with words := [2 ^ 64] }, { m with seat := some 288 }] : List CnetMsg).all (fun m => !okMsg m) = true := by decide

theorem test_ill_formed_flit :
    let f := blankFlit fcIDLE ftIDLE 3 9 []
    okFlit f = true ∧ ([{ f with cls := 4 }, { f with typ := 64 }, { f with flags := 256 }, { f with seq := 4096 },
      { f with ack := 4096 }, { f with cmdCredits := 256 }, { f with bulkCredits := 256 }, { f with len := 240 },
      { f with tag := 2 ^ 16 }, { f with payload := [] }, { f with crc := 2 ^ 32 }] : List Flit).all (fun f => !okFlit f) = true := by
  decide

/-- Energies of a bell, all zero. -/
def energy0 : BellEnergy := ⟨0, List.replicate 16 0, List.replicate 4 0, List.replicate 6 0, List.replicate 4 0, 0, List.replicate 6 0⟩

theorem test_ill_formed_energy :
    let e := energy0
    (Instr.energyAccumulate e).wf = true ∧ ([{ e with forms := [] }, { e with vmem := [] }, { e with ports := [] },
      { e with service := [] }, { e with amps := [] }] : List BellEnergy).all (fun e => !(Instr.energyAccumulate e).wf) = true := by
  decide

theorem test_ill_formed_cells : (Instr.jtagExtest [] (List.replicate 27 false)).wf = false ∧
    (Instr.jtagExtest (List.replicate 27 false) []).wf = false := by decide

/-! Worked examples of the spec. -/

/-- 01 R29 and the example under R40: general core 5 of LT 37, byte 0x40 of row 100 in bank 1 on ML2. -/
theorem test_stack_address : 64 * 37 + 5 = 0x945 ∧ regionOf 0x000945A19040 = .locker ∧ addrTile 0x000945A19040 = 37 ∧
    lmAddr 0x945 0 = 0x020004A28000 := by decide

/-- The example under 03 R100: block pair 0 at Eacc = -9, and both at -11. -/
theorem test_terms : termOf 4634 (-2) 48 = (1158, ⟨true, false, false⟩) ∧ termOf (-766) 4 48 = (-12256, noFlags) ∧
    addWrap 4634 (-12256) 48 = -7622 := by decide

/-- The example under 03 R105: r = 6 and Eout = -5. -/
theorem test_requantise :
    let q := requantAuto ([-7622, 4634, 1120, 1184] ++ List.replicate 28 0) (-11) fSBI8 0 none
    q.exp = -5 ∧ q.elems.take 4 = [-119, 72, 18, 18] ∧ q.flags = ⟨true, false, false⟩ := by decide

/-- The lesson of 02 R85: a charge of 9 leaves a guard of 61 cycles. -/
theorem test_guard : 64 - ceilDiv 9 4 = 61 := by decide

/-- 14 R375: the phase bit of records 0, 15, 16 and 32 of a ring of 16 entries. -/
theorem test_phase : [0, 15, 16, 32].map (fun j => phaseOf j 4) = [1, 1, 0, 1] := by decide

/-- 08 R243: the check byte of a word with one bit is that bit's column; a flipped bit is put right. -/
theorem test_locker_code : lkCode 1 = 7 ∧ lkCheck 0 (lkCode 1) = (1, .corrected) ∧ lkCheck 5 0x7F = (5, .poison) := by decide

/-! What meets the hypotheses of the statements. -/

theorem witness_AccessWidths : State.reset.powered = true ∧ BELL_COUNT_LO % 4 = 0 ∧
    tfind State.reset.shadows (shadowKey 1 BELL_COUNT_LO) = none ∧ BELL_COUNT_LO % 8 = 0 ∧
    ¬(2 = 4 ∧ BELL_COUNT_LO % 4 = 0) ∧ ¬(2 = 8 ∧ BELL_COUNT_LO % 8 = 0) ∧ ¬(8 = 4 ∧ (BELL_COUNT_LO + 4) % 4 = 0) ∧
    ¬(8 = 8 ∧ (BELL_COUNT_LO + 4) % 8 = 0) ∧
    (State.reset.setB REG_ACCESS_ERR REG_ACCESS_ERR_event_armed true).flag REG_ACCESS_ERR REG_ACCESS_ERR_event_armed = true ∧
    State.reset.flag REG_ACCESS_ERR REG_ACCESS_ERR_event_armed = false := by decide

theorem witness_PageAreaWrites : State.reset.powered = true ∧ State.reset.anySeqOpen = false ∧
    (paged (cmdOf 0 0 .accepted)).powered = true ∧ (paged (cmdOf 0 0 .accepted)).anySeqOpen = true ∧
    2 ^ 22 < fldGet 0x3F1 TRN_AREA_base * 0x1000 + 0xC000 + 0x4000 * (fldGet 0x3F1 TRN_AREA_leaf_blocks + 1) ∧
    fldGet 0x3F0 TRN_AREA_base * 0x1000 + 0xC000 + 0x4000 * (fldGet 0x3F0 TRN_AREA_leaf_blocks + 1) ≤ 2 ^ 22 := by decide

theorem witness_ExtestRefused : State.reset.powered = true ∧ State.reset.anyLoaded = false ∧ State.reset.mxlUp = false ∧
    running.powered = true ∧ running.anyLoaded = true ∧ linkUp.powered = true ∧ linkUp.mxlUp = true ∧
    (Instr.jtagHighz, 0x04) ∈ [(Instr.jtagExtest [] [], 0x00), (Instr.jtagClamp, 0x03), (Instr.jtagHighz, 0x04)] := by decide

def manyHeld (n : Nat) : State := State.reset.modEvRing 7 (fun v => { v with
  held := List.replicate n { evLostRec none ⟨0, false, 0, 0, 0, 0, 0, 0, 0, 0, 0, 0, 0⟩ with code := 4 } })
def rec4 (c : Nat) : EvRec := ⟨c, false, 0, 0, 0, 0, 0, 0, 0, 0, 0, 0, 0⟩
theorem witness_EventPlaces : 7 < 8 ∧ evWaiting (linkUp.evRing 7) = [] ∧ linkUp.evFree 7 4 = true ∧ State.reset.evFree 7 4 = false ∧
    2 ≤ evSeverity (rec4 4).code ∧ ((manyHeld 255).evRing 7).held.length < 256 ∧ evSeverity (rec4 2).code < 2 ∧
    ((manyHeld 223).evRing 7).held.length < 224 ∧ 256 ≤ ((manyHeld 256).evRing 7).held.length ∧
    224 ≤ ((manyHeld 224).evRing 7).held.length ∧ evWaiting ((manyHeld 224).evRing 7) ≠ [] ∧
    ((manyHeld 256).evRing 7).held.length ≤ 256 := by decide

theorem witness_RoundingModes : 1 ≤ 1 ∧ 2 * (2 ^ 1 * (divRound 3 1 none).1 - 3).natAbs = 2 ^ 1 ∧ (divRound 3 1 none).1 = 2 ∧
    (divRound (-7622) 6 none).1 = -119 ∧ (divRound 1120 6 none).1 = 18 ∧ (divRound (-7622) 6 (some 0x0B2F41)).1 = -120 ∧
    0x0B2F41 < 2 ^ 24 ∧ 24 ≤ 24 ∧ 24 < 25 ∧ (0 : Int) ≤ 127 ∧ -(127 * 2 ^ 6) ≤ (8128 : Int) ∧ (8128 : Int) ≤ 127 * 2 ^ 6 := by decide

theorem witness_DrawsAndKeys : 31 < 32 ∧ drawKey 5 0xFFFFFFFF 1 31 = 5 * 2 ^ 32 + 62 := by decide

theorem witness_TermsAndSums : (0 : Int) ≤ 4 ∧ (-2 : Int) < 0 ∧ termOf 4634 (-2) 48 = (1158, ⟨true, false, false⟩) ∧
    termOf (-766) 4 48 = (-12256, noFlags) ∧ (termOf 0 200 48).1 = 0 ∧ 1 ≤ 48 ∧ [4634, -12256].Perm [-12256, (4634 : Int)] := by decide

theorem witness_GridNumbering : 15 < 16 ∧ 17 < 18 ∧ seatAt 15 17 = 287 ∧ ltRow 255 = 15 ∧ ltCol 255 = 15 ∧ ltRow 37 = 4 ∧ ltCol 37 = 5 := by decide

theorem witness_MemoryReadsBack : Memory.wf MemSt.reset = true ∧ memGet (memWrite MemSt.reset 0x40 [1, 2]) 0x41 = 2 := by decide

theorem witness_StepRunsTheFrontCommand : State.reset.pending = [] := by decide

theorem witness_EveryCommandAnswers : off.powered = false ∧ (∀ v, Instr.referenceLoss ≠ .inputValid v) ∧
    (∀ v d, Instr.referenceLoss ≠ .powerGood v d) ∧ (∀ v d, Instr.referenceLoss ≠ .inputLowShutdown v d) ∧
    Instr.referenceLoss ≠ .stackResetRelease :=
  ⟨by decide, fun _ h => Instr.noConfusion h, fun _ _ h => Instr.noConfusion h, fun _ _ h => Instr.noConfusion h,
    fun h => Instr.noConfusion h⟩

theorem witness_ResetState : 3 < 4 ∧ 5 < 6 ∧ 63 < 64 ∧ 255 < 256 := by decide

theorem witness_StepKeepsInv : ∃ s t, State.Inv s ∧ step s = .next t :=
  ⟨{ State.reset with pending := [.referenceLoss] }, _, ⟨⟨List.Pairwise.nil, fun _ h => nomatch h⟩, by decide⟩, rfl⟩

theorem witness_PowerSequence : off.power.phase = .off ∧ 4000 ≤ 4000 ∧ latched.power.phase = .latched ∧ 100 ≤ 100 ∧
    State.reset.powered = true := by decide

theorem witness_FormsAndPhases : State.reset.powered = true ∧ 287 < 288 ∧ State.reset.phaseFailed 287 = false ∧ 15 < 16 ∧ State.reset.isolated 15 = false ∧
    warned.power.warnSeen = true ∧ State.reset.power.quiet < 4095 ∧ 375 < 376 ∧ State.reset.phaseFailed 375 = false ∧
    (State.reset.setB (PWR_PHASE_FAIL 0) ⟨3, 1⟩ true).phaseFailed 3 = true ∧
    (State.reset.setB (STK_FORM_STATUS 5) STK_FORM_STATUS_isolated true).isolated 5 = true ∧
    4095 ≤ ({ State.reset with power := { PowerSt.reset with quiet := 4095 } } : State).power.quiet := by decide
theorem witness_Crack : 1000 * State.reset.setpoint ≤ 1000 * (720 + State.reset.getF PWR_CRACK_CTRL PWR_CRACK_CTRL_threshold) ∧
    1000 * (0 + State.reset.getF PWR_CRACK_CTRL PWR_CRACK_CTRL_threshold) + tgetD State.reset.bring.carry.rf 15 0 * 0 <
      1000 * State.reset.setpoint ∧ tgetD State.reset.power.excess 15 0 < 15 ∧
    (State.reset.setB (PWR_FORM 5) PWR_FORM_crack_suspect true).flag (PWR_FORM 5) PWR_FORM_crack_suspect = true := by decide

theorem witness_EnergyAndBudgets : State.reset.powered = true ∧ State.reset.energy.counted = true ∧
    ({ State.reset with energy := { EnergySt.reset with counted := false } } : State).energy.counted = false ∧
    0 < (given (cmdOf opENERGY_SNAPSHOT 0 .active)).bellCount ∧ (given (cmdOf opENERGY_SNAPSHOT 0 .active)).energy.counted = true ∧
    Accepted (given (cmdOf opENERGY_SNAPSHOT 0 .accepted)) 0 7 opENERGY_SNAPSHOT (cmdOf opENERGY_SNAPSHOT 0 .accepted) ∧
    Held (given (cmdOf opENERGY_SNAPSHOT 0 .active)) 0 7 opENERGY_SNAPSHOT (cmdOf opENERGY_SNAPSHOT 0 .active) .active ∧
    Accepted (given (cmdOf opCOUNTERS_CLEAR 7 .accepted)) 0 7 opCOUNTERS_CLEAR (cmdOf opCOUNTERS_CLEAR 7 .accepted) ∧
    Held (given (cmdOf opCOUNTERS_CLEAR 7 .committed)) 0 7 opCOUNTERS_CLEAR (cmdOf opCOUNTERS_CLEAR 7 .committed) .committed ∧
    0 < (given (cmdOf opCOUNTERS_CLEAR 7 .committed)).bellCount ∧
    Accepted (given (cmdOf opPOWER_CAP 2800 .accepted)) 0 7 opPOWER_CAP (cmdOf opPOWER_CAP 2800 .accepted) ∧
    2800 ≤ designPower State.reset.variant ∧ 899 < 900 := by decide
theorem witness_BudgetMove : Accepted budgeted 0 7 opBUDGET_MOVE (cmdOf opBUDGET_MOVE (4 + 65536 * 50) .accepted) ∧
    0 = bitsAt (4 + 65536 * 50) 0 2 ∧ 1 = bitsAt (4 + 65536 * 50) 2 2 ∧ 50 = bitsAt (4 + 65536 * 50) 16 16 ∧
    0 < budgeted.partCount ∧ 1 < budgeted.partCount ∧
    50 + 225 * budgeted.fieldCount 0 ≤ budgeted.budgets.getD 0 0 ∧ budgeted.power.budgets = some [500, 500, 0, 0] := by decide
theorem witness_PowerRecess : (List.range 4).any State.reset.atRecessPoint = false ∧
    (List.range 4).filterMap State.reset.powerNeed = [] ∧
    running.powered = true ∧ (List.range 4).any running.atRecessPoint = true ∧
    (List.range 4).filterMap running.markPoint.powerNeed = [(7, 255, 0)] := by decide
theorem witness_Gating : running.powered = true ∧ 7 < 8 ∧ working.working 0 = true ∧
    lsBells (working.crsOf 0).image (working.crsOf 0).lesson ≤ (working.crsOf 0).lessonBell + 1 ∧
    lsLast (working.crsOf 0).image (working.crsOf 0).lesson ≤ 3647 := by decide

theorem witness_ReferenceAndDroop : State.reset.powered = true ∧ State.reset.flag CLK_REF CLK_REF_holdover = false ∧
    (State.reset.setB CLK_REF CLK_REF_ref_sel true).flag CLK_REF CLK_REF_ref_sel = true ∧
    held.flag CLK_REF CLK_REF_holdover = true ∧
    ((held.setHoldover false).setB CLK_REF CLK_REF_locked true).flag CLK_REF CLK_REF_ref_sel = true ∧
    5 < 6 ∧ (5, 511) ∉ State.reset.clock.masked ∧ State.reset.clock.asserting = [] ∧
    drooping.clock.asserting = [(5, 511)] ∧ drooping.cyc < 3776 ∧ 3776 ≤ ({ drooping with cyc := 3776 } : State).cyc ∧ 3840 ≤ ({ drooping with cyc := 3840 } : State).cyc ∧
    State.reset.canaryCounts 8 0 = true ∧ 0 ≤ State.reset.getF (canaryReg 8) CLK_CANARY_CD_act ∧ 3 < 4 ∧
    inWindow (State.reset.seamMode 3) 127 = false ∧ tfind State.reset.clock.seamBack 3 = none := by decide

theorem witness_StackReset : rising.power.phase = .rising ∧ State.reset.powered = true ∧
    State.reset.getF BRG_STAGE BRG_STAGE_state = 0 ∧
    (State.reset.setF BRG_STAGE BRG_STAGE_stage 1).getF BRG_STAGE BRG_STAGE_stage ≠ 0 ∧ State.reset.clock.resetPending = none ∧
    resetting.powered = true ∧ resetting.resetDue = true ∧
    ({ State.reset with
      clock := { ClockSt.reset with resetMsg := some 3 }
      mxl := { MxlSt.reset with cmdQ := [⟨blankFlit 2 13 3 0 [], 3, none⟩] } } : State).clock.resetMsg = some 3 ∧
    resetting.chans = [] ∧ (List.range 4).filter resetting.courseRunning = [] ∧
    (List.range 4).filter resetting.layerTrained = [] ∧
    gating.powered = true ∧ gating.clock.resetBegun = true ∧ gated.power.phase = .on ∧ gated.clock.gateClosed = true := by decide

theorem witness_BellBegins : State.reset.powered = true ∧ (∀ p ∈ List.range 4, State.reset.courseState p = csNone) ∧
    State.reset.bell.announced = [] ∧ State.reset.bell.recess = none ∧
    (∀ p ∈ List.range 4, (State.reset.group p).scheduled = none) ∧ Quiet State.reset ∧ State.reset.originates = false ∧
    256 < overrunning.bellCharge ∧ overrunning.bell.overrun = false ∧
    backingUp.flag BELL_SYNC BELL_SYNC_joined = true ∧ 4 ≤ backingUp.bell.missing ∧
    backingUp.flag BELL_SYNC BELL_SYNC_backup = true ∧
    outside.flag BELL_SYNC BELL_SYNC_out_of_step = true ∧ 16 ≤ outside.bell.inTol ∧ 0 < 4 ∧
    (halting.crsOf 0).haltBell = some 5 ∧ halting.courseState 0 = csHalting ∧ 5 ≤ halting.bellCount := by decide
theorem witness_BellOverrun : (List.range 4).any (fun p => ((overrunning.raise evOverrun 255 0 0 overrunning.bellCharge 0 0
    0).incF BELL_OVERRUN_COUNT BELL_OVERRUN_COUNT_count 1).nextBellWorks p) = false := by decide

set_option maxRecDepth 100000 in
theorem witness_BellTree : State.reset.powered = true ∧
    (∃ y, symGood 2 y true = false ∧ symGood 3 y true = false ∧ symGood 4 y true = false ∧ symGood 5 y true = false) ∧
    symGood 2 (mkSym 2 0 4 6 0) false = true ∧ follower.portUp 1 = true ∧ State.reset.portUp 5 = false ∧ (running.setF (PORT_STATE 5) PORT_STATE_state 7).portUp 5 = true ∧
    (keeper.setF (PORT_STATE 0) PORT_STATE_state 7).portUp 0 = true ∧ (keeper.setF (PORT_STATE 0) PORT_STATE_state 7).originates = true ∧ follower.originates = false ∧
    follower.flag FAB_TREE FAB_TREE_following_backup = true ∧ 1 = follower.getF FAB_TREE FAB_TREE_up_backup ∧
    (mkSym 2 0 4 6 0).origin = follower.map.backup ∧ follower.flag BELL_SYNC BELL_SYNC_joined = true ∧
    symGood 3 (mkSym 3 0 4 9 0) false = true ∧ (∀ q ∈ List.range 6, (running.port q).seen = []) ∧
    running.courseRunning (running.partOfPort 5) = true ∧ running.bellCount < running.fullBell (mkSym 3 0 4 9 0).bell ∧
    symGood 4 (mkSym 4 2 4 9 0) false = true ∧ 1 = follower.upPort ∧
    (follower.port 1).seen.contains (4, 4, 9) = false ∧ symGood 5 (mkSym 5 2 4 9 1) false = true ∧
    (State.reset.port 0).seen.contains (5, 4, 9) = false ∧ keeper.originates = true ∧ follower.upPort < 6 ∧
    bestRequest (covering keeper.bell.requests (keeper.bellCount + keeper.map.horizon)) = some ⟨3, 1, 0, 0, 0, 2⟩ ∧
    keeper.domainPoint (keeper.bellCount + keeper.map.horizon) = true := by
  refine ⟨by decide, ⟨mkSym 0 0 0 0 0, by decide⟩, ?_⟩
  decide

theorem witness_LockerWords : seated.powered = true ∧ seated.present (0 / 64) = true ∧
    lcParity 0x9800002 = true ∧ lcSide 0x9800002 = 1 ∧ lcCmd 0x9800002 = 2 ∧
    lcParity 0x800002 = true ∧ lcSide 0x800002 = 0 ∧ lcCmd 0x800002 = 2 ∧
    lcParity 0x8800001 = false ∧ lcSide 0x8800001 = 1 ∧ lcCmd 0x8800001 = 1 ∧
    (reading.chan (8 * 255 + 7)).ops.find? (fun x => !x.write) = some readOp ∧
    ((reading.chan (8 * 255 + 7)).ops.filter (fun x => !x.write && x.beat == readOp.beat)).all (·.done) = true ∧
    (reading.chan (8 * 255 + 7)).copy.isSome = true ∧
    (writing.chan 7).ops.any (fun o => o.write) = true ∧ (writing.chan 7).ops.all (fun o => o.write && o.done) = true ∧
    (writing.chan 7).copy = none ∧ (writing.chan 7).ind = none ∧ seated.svcRefuse 0x40 8 true = none ∧
    seated.svcRefuse 0x40 8 false = none ∧
    seated.topOpen (seated.partOfLt 0) = true ∧ seated.belowOpen (seated.partOfLt 0) = false ∧
    ({ seated with cyc := 3968 } : State).belowOpen (seated.partOfLt 0) = true ∧
    ({ seated with cyc := 3968 } : State).topOpen (seated.partOfLt 0) = false ∧
    ({ seated with cyc := 3968 } : State).rangeOpen 0x40 8 = true ∧ ({ seated with cyc := 3968 } : State).svcRefuse 0x40 8 true = none ∧
    ({ seated with cyc := 3968 } : State).svcRefuse 0x40 8 false = none := by decide

set_option maxRecDepth 100000 in
theorem witness_LayersAndService : State.reset.powered = true ∧
    (List.range 4).filter (({ State.reset with cyc := 3840 } : State).fieldTrim []).layerTrained = [] ∧ 0 < 4 ∧
    working.armsNext 0 = true ∧ working.tilesOf 0 = [] ∧ (armable.armsNext 0 = true ∧ armable.tilesOf 0 = [0] ∧
    (armable.tile 0).armAck = true ∧ (armable.tile 0).nextPatches = []) ∧
    (evacuating 63).bring.evac = some ⟨0, 7, 3, 63, []⟩ ∧ 63 < 64 ∧
    ({ evacuating 63 with cyc := 3968 } : State).belowOpen ((evacuating 63).partOfLt 3) = true ∧ (evacuating 64).bring.evac = some ⟨0, 7, 3, 64, []⟩ ∧
    markedWords (fetchLockers (evacuating 64).mem 3) 3 = [] ∧ (evacuating 64).findTag 0 7 = none := by
  and_intros <;> decide

theorem quiet_evac {s : State} (p : Nat) (h : (List.range 8).all (fun k => s.reg (BRG_EVAC_PENDING k) == 0) = true)
    (h' : s.bring.evac = none) : s.evacBusy p = false := by
  simp only [State.evacBusy, h', Bool.or_false]
  rw [List.any_eq_false]
  intro lt hl
  have e : s.reg (BRG_EVAC_PENDING (lt / 32)) = 0 := by
    have := List.all_eq_true.mp h (lt / 32) (List.mem_range.mpr (by have := List.mem_range.mp hl; omega))
    simpa using this
  simp [State.evacPending, State.flag, State.getF, e, fldGet]
theorem witness_startFails (s : State) (h : s = loaded (cmdOf opCOURSE_START 7 .accepted) ∨ s = halted (cmdOf opCOURSE_RESUME 7 .accepted)) :
    s.startFails 0 7 = none := by
  have e : s.evacBusy 0 = false := by
    obtain rfl | rfl := h
    · exact quiet_evac 0 (by decide) rfl
    · exact quiet_evac 0 (by decide) rfl
  unfold State.startFails
  rw [e]
  obtain rfl | rfl := h
  · decide
  · decide
theorem witness_CourseStart : Accepted (loaded (cmdOf opCOURSE_START 7 .accepted)) 0 7 opCOURSE_START (cmdOf opCOURSE_START 7 .accepted) ∧
    (loaded (cmdOf opCOURSE_START 7 .accepted)).courseState 0 = csLoaded ∧
    (given (cmdOf opCOURSE_START 7 .accepted)).courseState 0 = csNone := by decide
theorem witness_CourseResume : Accepted (halted (cmdOf opCOURSE_RESUME 7 .accepted)) 0 7 opCOURSE_RESUME (cmdOf opCOURSE_RESUME 7 .accepted) ∧
    (halted (cmdOf opCOURSE_RESUME 7 .accepted)).courseState 0 = csHalted ∧
    ((halted (cmdOf opCOURSE_RESUME 7 .accepted)).crsOf 0).resumeAt ≠ none ∧
    (halted (cmdOf opCOURSE_RESUME 7 .accepted)).lacksTile 0 = false ∧
    ((loaded (cmdOf opCOURSE_RESUME 7 .accepted)).crsOf 0).resumeAt = none := by decide
theorem witness_StartCommit : (starting opCOURSE_START).powered = true ∧
    (starting opCOURSE_START).pendingStart 0 = some (cmdOf opCOURSE_START 6 .active) ∧
    ((starting opCOURSE_START).crsOf 0).resuming = false ∧ (starting opCOURSE_START).bellCount + 1 = ((starting opCOURSE_START).crsOf 0).startBell ∧
    (starting opCOURSE_START).inStep = true ∧ ((starting opCOURSE_START).crsOf 0).staged = true ∧
    ((starting opCOURSE_START).crsOf 0).rosters = [] := by decide
theorem witness_ResumeCommit : (starting opCOURSE_RESUME).pendingStart 0 = some (cmdOf opCOURSE_RESUME 6 .active) ∧
    ((starting opCOURSE_RESUME).crsOf 0).resuming = true ∧ (starting opCOURSE_RESUME).bellCount + 1 = ((starting opCOURSE_RESUME).crsOf 0).startBell ∧
    (starting opCOURSE_RESUME).inStep = true ∧ ((starting opCOURSE_RESUME).crsOf 0).staged = true ∧
    ((starting opCOURSE_RESUME).crsOf 0).resumeAt = some (0, 2) ∧ firstBell ((starting opCOURSE_RESUME).crsOf 0) 0 2 < 2 ^ 64 := by decide
theorem witness_StartTooLate :
    let s := (starting opCOURSE_START).modCrs 0 (fun k => { k with staged := false })
    s.pendingStart 0 = some (cmdOf opCOURSE_START 6 .active) ∧ (s.crsOf 0).startBell ≤ s.bellCount + 1 ∧ s.inStep = true ∧
    (s.crsOf 0).staged = false ∧ (s.pendingStart 0).isSome = true := by decide
theorem witness_CourseEnd : Accepted (inCourse (cmdOf opCOURSE_END 9 .accepted)) 0 7 opCOURSE_END (cmdOf opCOURSE_END 9 .accepted) ∧
    (inCourse (cmdOf opCOURSE_END 9 .accepted)).courseState 0 = csRunning ∧
    hdLoopCount ((inCourse (cmdOf opCOURSE_END 9 .accepted)).crsOf 0).image = 0 ∧
    (inCourse (cmdOf opCOURSE_END 9 .accepted)).bellsBegun 0 ≤ firstBell ((inCourse (cmdOf opCOURSE_END 9 .accepted)).crsOf 0)
      (hdLoopLast ((inCourse (cmdOf opCOURSE_END 9 .accepted)).crsOf 0).image) (9 % 2 ^ 32) ∧
    firstBell (working.crsOf 0) (hdLoopLast (working.crsOf 0).image) (0 % 2 ^ 32) < working.bellsBegun 0 := by decide
theorem witness_CourseUnload :
    Accepted (loaded (cmdOf opCOURSE_UNLOAD 0 .accepted)) 0 7 opCOURSE_UNLOAD (cmdOf opCOURSE_UNLOAD 0 .accepted) ∧
    (loaded (cmdOf opCOURSE_UNLOAD 0 .accepted)).courseState 0 = csLoaded ∧
    (loaded (cmdOf opCOURSE_UNLOAD 0 .accepted)).pendingStart 0 = none ∧
    (inCourse (cmdOf opCOURSE_UNLOAD 0 .accepted)).courseState 0 = csRunning := by decide

theorem witness_Roster : Held (rostered 2) 0 7 opROSTER_COMMIT (cmdOf opROSTER_COMMIT 0x40 .active) .active ∧
    (rostered 2).rosterOf (cmdOf opROSTER_COMMIT 0x40 .active) = some (rosterRec 0 2) ∧
    (rostered 2).rosterLate 0 0 2 = false ∧ ((rostered 2).crsOf 0).rosters.any (fun x => x.lesson == 0 && x.iter == 2 && x.committed) = false ∧
    (rostered 0).rosterOf (cmdOf opROSTER_COMMIT 0x40 .active) = some (rosterRec 0 0) ∧ (rostered 0).rosterLate 0 0 0 = true := by decide
theorem witness_RosterCommit :
    let s := { seated with mem := lkStore MemSt.reset 0x48 2 false }
    (s.readObject 0x40 32).1 = (rosterBytes 2, 0) ∧
    ((s.readObject 0x40 32).2.readObject (0x40 + 32) (16 * min 4096 (leAt (rosterBytes 2) 0x10 4))).1 = ([], 0) := by decide
theorem witness_RosterCommitted :
    let c := fun b st => { cmdOf opROSTER_COMMIT 0x40 .accepted with
      pkt := { pktOf opROSTER_COMMIT 0x40 with p1 := b }, data := st :: (rosterBytes b).map (·.toNat) }
    let s := fun b st => inCourse (c b st)
    Accepted (s 2 0) 0 7 opROSTER_COMMIT (c 2 0) ∧ (c 2 0).object = (rosterBytes 2, 0) ∧ (s 2 0).courseState 0 ≠ csNone ∧
    rosterLesson ((s 2 0).crsOf 0) 2 = some (0, 2) ∧ leAt (rosterBytes 2) 8 8 = 2 ∧ (s 2 0).rosterLate 0 0 2 = false ∧
    rosterGood ((s 2 0).crsOf 0).image (rosterBytes 2) 0 = true ∧ rosterLesson ((s 0 0).crsOf 0) 0 = some (0, 0) ∧
    leAt (rosterBytes 0) 8 8 = 0 ∧ (s 0 0).rosterLate 0 0 0 = true ∧ (c 0 9).object = (rosterBytes 0, 9) := by decide
theorem witness_Stop : Accepted (inCourse (stopOf .accepted)) 255 7 opSTOP (stopOf .accepted) ∧ (stopOf .accepted).pkt.p0 = 2 ^ 0 ∧
    0 < (inCourse (stopOf .accepted)).partCount ∧ (inCourse (stopOf .accepted)).courseRunning 0 = true ∧
    (inCourse (stopOf .accepted)).startsWaiting 0 = [] ∧ Held stopping 255 7 opSTOP (stopOf .committed) .committed ∧
    stopping.stop = some ⟨[3, 0x100], false⟩ ∧ (stopping.tile 3).halted = false ∧ 3 ∈ [3, 0x100] := by decide
theorem witness_HaltNotices : (halting.setF (STK_SEAT_LT 0) STK_SEAT_LT_seat 0).powered = true ∧
    (halting.setF (STK_SEAT_LT 0) STK_SEAT_LT_seat 0).present 0 = true ∧
    (halting.setF (STK_SEAT_LT 0) STK_SEAT_LT_seat 0).haltingPart 0 = true ∧
    (halting.setF (STK_SEAT_LT 0) STK_SEAT_LT_seat 0).partOfLt 0 = 0 ∧ halting.partOfPort 5 = 0 ∧
    ((halting.setF (STK_SEAT_LT 0) STK_SEAT_LT_seat 0).ve 0).run = none ∧
    ((halting.setF (STK_SEAT_LT 0) STK_SEAT_LT_seat 0).tile 0).dues = [] ∧
    ((halting.setF (STK_SEAT_LT 0) STK_SEAT_LT_seat 0).tile 0).mxe.merge = none := by decide
theorem witness_RosterWrite :
    let s := armable.modTile 0 (fun t => { t with bank0 := putBytes (zeros 96) 0 [0] })
    s.present 0 = true ∧ s.working 0 = true ∧ (s.crsOf 0).lessonBell = 0 ∧
    nextPos (s.crsOf 0) (s.crsOf 0).lesson (s.crsOf 0).iter = some (0, 2) := by decide

theorem witness_MemCopy :
    let c := cmdOf3 opMEM_COPY 0x40 0x80 7 .accepted
    let s := { seatedWith c with cyc := 3968 }
    let c1 := { c with data := [0], phase := .active }
    s.clock.resetBegun = false ∧ Accepted s 0 7 opMEM_COPY c ∧ s.gaLocal 0x40 = true ∧ s.gaLocal 0x80 = true ∧
    sidesOverlap (.here 0x40) (.here 0x80) 8 = false ∧ s.sideRefuse 0 (.here 0x40) 8 false = none ∧
    s.sideRefuse 0 (.here 0x80) 8 true = none ∧ (s.putCmd c c1).rangeOpen 0x40 8 = true ∧
    ((s.putCmd c c1).localRead 0 0x40 8).1 = (0, zeros 8) ∧ ((s.putCmd c c1).localRead 0 0x40 8).2.rangeOpen 0x80 8 = true ∧
    (((s.putCmd c c1).localRead 0 0x40 8).2.localWrite 0x80 (zeros 8)).1 = (0, 8) ∧
    sidesOverlap (.here 0x40) (.here 0x40) 8 = true ∧ s.svcRefuse (2 ^ 30) 8 false = some stADDR_UNMAPPED := by decide
theorem witness_MemFill :
    let c := cmdOf3 opMEM_FILL 0x40 7 5 .accepted
    let s := { seatedWith c with cyc := 3968 }
    let c1 := { c with data := [0], phase := .active }
    Accepted s 0 7 opMEM_FILL c ∧ s.gaLocal 0x40 = true ∧ s.sideRefuse 0 (.here 0x40) 8 true = none ∧
    (s.putCmd c c1).rangeOpen 0x40 8 = true ∧ ((s.putCmd c c1).localWrite 0x40 (fillBytes 5 0 8)).1 = (0, 8) := by decide
theorem witness_Dma :
    let c := cmdOf3 opDMA_OUT 0x40 0x1000 7 .accepted
    let s := { seatedWith c with cyc := 3968 }
    let c1 := { c with data := [0], phase := .active }
    let b := cmdOf3 opDMA_IN 0x1000 0x40 7 .accepted
    Accepted s 0 7 opDMA_OUT c ∧ s.gaLocal 0x40 = true ∧ s.sideRefuse 0 (.here 0x40) 8 false = none ∧
    (s.putCmd c c1).rangeOpen 0x40 8 = true ∧ ((s.putCmd c c1).localRead 0 0x40 8).1 = (0, zeros 8) ∧
    Accepted (seatedWith b) 0 7 opDMA_IN b ∧ (seatedWith b).gaLocal 0x40 = true ∧
    (seatedWith b).sideRefuse 0 (.here 0x40) 8 true = none := by decide

theorem witness_DeviceCommands : Accepted (given (cmdOf opNOP 0 .accepted)) 0 7 opNOP (cmdOf opNOP 0 .accepted) ∧
    Accepted (given (cmdOf opRESET 1 .accepted)) 0 7 opRESET (cmdOf opRESET 1 .accepted) ∧
    Accepted (given (cmdOf opPARTITION_SET 2 .accepted)) 0 7 opPARTITION_SET (cmdOf opPARTITION_SET 2 .accepted) ∧
    (given (cmdOf opPARTITION_SET 2 .accepted)).anyLoaded = false ∧ (given (cmdOf opPARTITION_SET 2 .accepted)).anySeqOpen = false ∧
    (inCourse (cmdOf opPARTITION_SET 2 .accepted)).anyLoaded = true ∧
    Accepted (loaded (cmdOf opRECESS_REQUEST 0x10FF .accepted)) 0 7 opRECESS_REQUEST (cmdOf opRECESS_REQUEST 0x10FF .accepted) ∧
    (loaded (cmdOf opRECESS_REQUEST 0x10FF .accepted)).inStep = true ∧ (given (cmdOf opRECESS_REQUEST 0x10FF .accepted)).inStep = false ∧
    Accepted (given (cmdOf3 opGROUP_TABLE 0 9 6 .accepted)) 0 7 opGROUP_TABLE (cmdOf3 opGROUP_TABLE 0 9 6 .accepted) := by decide
theorem witness_GroupCommands : Held (tabled 6 true) 0 7 opGROUP_TABLE (tabledCmd 6) .active ∧ ((tabled 6 true).group 0).copied = true ∧
    ((tabled 6 true).group 0).bell = (tabled 6 true).bellCount + 1 ∧ (tabledCmd 6).bell < (tabled 6 true).bellCount ∧
    Held (tabled 6 false) 0 7 opGROUP_TABLE (tabledCmd 6) .active ∧ ((tabled 6 false).group 0).copied = false ∧
    (tabled 6 false).courseRunning 0 = false ∧ ((tabled 6 false).group 0).cmd.isSome = true ∧ (tabled 6 false).shadowOn = false ∧
    tableGood [(3, 17)] = true ∧
    ((tabled 6 false).group 0).scheduled = none ∧ ({ tabled 6 false with cyc := 3968 } : State).serviceOpen 0 = true ∧
    ({ tabled 6 false with cyc := 3840 } : State).serviceOpen 0 = false ∧
    (let s := ({ State.reset with cyc := 3968 } : State).modGroup 0 (fun g => { g with shadowing := true })
     s.partCount = 1 ∧ (s.group 0).shadowing = true ∧ s.serviceOpen 0 = true) := by decide
theorem witness_BellJoin : Accepted (given (cmdOf opBELL_JOIN 0 .accepted)) 0 7 opBELL_JOIN (cmdOf opBELL_JOIN 0 .accepted) ∧
    ({ given (cmdOf opBELL_JOIN 0 .accepted) with map := { State.reset.map with loaded := true } } : State).map.loaded = true ∧
    (given (cmdOf opBELL_JOIN 0 .accepted)).flag BELL_SYNC BELL_SYNC_joined = false ∧ (given (cmdOf opBELL_JOIN 0 .accepted)).bell.join = none ∧
    Held (joining 69000 16) 0 7 opBELL_JOIN (cmdOf opBELL_JOIN 0 .active) .active ∧ (joining 69000 16).isTimekeeper = false ∧
    (joining 69000 16).bell.join = some ⟨0, 7, 69000, true, 16, 2, 99⟩ ∧ 16 ≤ 16 ∧
    (joining 4464 3).bell.join = some ⟨0, 7, 4464, true, 3, 2, 99⟩ ∧ 4464 + 65536 ≤ (joining 4464 3).bellCount := by decide

theorem witness_SecurityWait : Accepted (secBusy (cmdOf opIMAGE_STAGE 0x40 .accepted)) 0 7 opIMAGE_STAGE (cmdOf opIMAGE_STAGE 0x40 .accepted) ∧
    Accepted (secBusy (cmdOf opSYLLABUS_LOAD 0x40 .accepted)) 0 7 opSYLLABUS_LOAD (cmdOf opSYLLABUS_LOAD 0x40 .accepted) ∧
    Accepted (secBusy (cmdOf opLICENCE_LOAD 0x40 .accepted)) 0 7 opLICENCE_LOAD (cmdOf opLICENCE_LOAD 0x40 .accepted) ∧
    Accepted (secBusy (cmdOf opATTEST 0x40 .accepted)) 0 7 opATTEST (cmdOf opATTEST 0x40 .accepted) ∧
    (secBusy (cmdOf opIMAGE_STAGE 0x40 .accepted)).sec.job.isSome = true := by decide
theorem witness_SecurityFormat :
    let c := cmdOf3 opIMAGE_STAGE 0x40 32 0 .accepted
    Accepted (seatedWith c) 0 7 opIMAGE_STAGE c ∧ (seatedWith c).sec.job = none ∧
    ((seatedWith c).readObject 0x40 32).1 = (zeros 32, 0) ∧ leAt (zeros 32) 0 4 ≠ 0x53474E57 := by decide
theorem witness_SecurityTurns :
    let y := cmdOf3 opSYLLABUS_LOAD 0x40 32 0 .accepted
    let l := cmdOf3 opLICENCE_LOAD 0x40 32 0 .accepted
    Accepted (seatedWith y) 0 7 opSYLLABUS_LOAD y ∧ (seatedWith y).sec.job = none ∧
    ((seatedWith y).readObject 0x40 32).1 = (zeros 32, 0) ∧ Accepted (seatedWith l) 0 7 opLICENCE_LOAD l ∧
    (seatedWith l).sec.job = none ∧ ((seatedWith l).readObject 0x40 32).1 = (zeros 32, 0) := by decide
theorem witness_SecurityWrites :
    Held (secWriting opIMAGE_STAGE []) 0 7 opIMAGE_STAGE (cmdOf opIMAGE_STAGE 0 .active) .active ∧
    Held (secWriting opSYLLABUS_LOAD []) 0 7 opSYLLABUS_LOAD (cmdOf opSYLLABUS_LOAD 0 .active) .active ∧
    Held (secWriting opLICENCE_LOAD []) 0 7 opLICENCE_LOAD (cmdOf opLICENCE_LOAD 0 .active) .active ∧
    Held (secWriting opATTEST []) 0 7 opATTEST (cmdOf opATTEST 0 .active) .active ∧
    (secWriting opATTEST []).sec.job = some ⟨0, 7, []⟩ ∧ (secWriting opATTEST []).findTag 0 7 = some (cmdOf opATTEST 0 .active) ∧
    (secWriting opLICENCE_LOAD []).licencePlace (liId []) = some 0 := by decide
theorem witness_AttestWindow : ({ secWriting opATTEST [] with cyc := 4000 } : State).rangeOpen 0 35088 = true ∧
    Held { secWriting opATTEST [] with cyc := 4000 } 0 7 opATTEST (cmdOf opATTEST 0 .active) .active ∧
    ({ secWriting opATTEST [] with cyc := 4000 } : State).sec.job = some ⟨0, 7, []⟩ := by
  refine ⟨?_, by decide, by decide⟩
  simp only [State.rangeOpen, List.all_eq_true, List.mem_range]
  intro i hi
  have hc : canonAddr (0 + i) = i := by
    unfold canonAddr; rw [if_neg (by simp [aliasBase]; omega)]; omega
  have hr : regionOf i = .locker := by unfold regionOf; rw [if_pos (by omega)]
  unfold State.byteOpen
  simp only [hc, hr]
  unfold State.belowOpen
  rw [show ({ secWriting opATTEST [] with cyc := 4000 } : State).delivered = true from by decide]
  simp
theorem witness_Activation :
    Held (secWriting opIMAGE_ACTIVATE []) 0 7 opIMAGE_ACTIVATE (cmdOf opIMAGE_ACTIVATE 0 .active) .active ∧
    (secWriting opIMAGE_ACTIVATE []).findTag 0 7 = some (cmdOf opIMAGE_ACTIVATE 0 .active) ∧
    (secWriting opIMAGE_ACTIVATE []).atCourseBoundary = true ∧
    0 ≠ ((secWriting opIMAGE_ACTIVATE []).setF SEC_SET SEC_SET_running 1).runningSet ∧ (secWriting opIMAGE_ACTIVATE []).setFailed 0 = false ∧
    Held switching 0 7 opIMAGE_ACTIVATE (cmdOf opIMAGE_ACTIVATE 1 .committed) .committed ∧
    listing.listed 1 = true ∧ listing.sec.job = none ∧ switching.findTag 0 7 = some (cmdOf opIMAGE_ACTIVATE 1 .committed) ∧
    switching.sec.switch = some ⟨1, 0, 0, 7⟩ ∧
    ({ State.reset.setPair BELL_COUNT_LO 0x100005 with sec := { State.reset.sec with activated := some (1, 5) } } : State).sec.activated =
      some (1, 5) ∧ 5 + 2 ^ 20 ≤ (State.reset.setPair BELL_COUNT_LO 0x100005).bellCount := by decide

theorem witness_MatrixLoad : (tileRuns (mxeProg 0x81)).powered = true ∧ ((tileRuns (mxeProg 0x81)).mxeDesc 0 0 moLOAD).isSome = true ∧
    ((tileRuns (mxeProg 0x83)).mxeDesc 0 0 moSEND).isSome = true ∧ 0 < tpMxeCount (armedProgram ((tileRuns (mxeProg 0x82)).tile 0)) ∧
    fetchPoint (descAt (armedProgram ((tileRuns (mxeProg 0x82)).tile 0)) (tpMxeOffset (armedProgram ((tileRuns (mxeProg 0x82)).tile 0))) 0) =
      some (0, 0) ∧ (tileRuns (mxeProg 0x82)).tileWorks 0 0 = true ∧
    sdClear 0x83 = 0 ∧ sdClear (0x83 + 2 ^ 40) = 1 ∧ 30 + 1 < ldColumns 0x81 ∧ ldColumns 0x81 ≤ 127 + 1 := by decide
theorem witness_MatrixSteps :
    ((State.reset.modMxe 0 (fun m => { m with load := some ⟨0x81, 3⟩ })).tile 0).mxe.load = some ⟨0x81, 3⟩ ∧
    ((State.reset.modMxe 0 (fun m => { m with load := some ⟨0x81, 3⟩ })).tile 0).uses = [] ∧
    ((State.reset.modMxe 0 (fun m => { m with send := some ⟨0x83, 2, 1⟩ })).tile 0).mxe.send = some ⟨0x83, 2, 1⟩ := by decide
theorem witness_MatrixMerge :
    let d := descAt (armedProgram (merging.tile 0)) (tpMxeOffset (armedProgram (merging.tile 0))) 0
    merging.powered = true ∧ 0 < tpMxeCount (armedProgram (merging.tile 0)) ∧ mdOp d = moMERGE ∧ merging.alive 0 = true ∧
    merging.working (merging.partOfLt 0) = true ∧ (merging.crsOf (merging.partOfLt 0)).lessonBell = dStartBell d ∧ 0 < sdRows d ∧
    (merging.tile 0).halted = false ∧ (merging.tile 0).dues = [] ∧ ((mergeBeats (merging.tile 0).mxe 0 0).headD none).map (·.tag) =
      some (tgetD (merging.tile 0).mxe.tags (sdRow0 d + 0) 0) := by decide

theorem witness_MatrixPass : (tileRuns (mxeProg 0x82)).powered = true ∧ ((tileRuns (mxeProg 0x82)).mxeDesc 0 0 moPASS).isSome = true ∧
    psAxis 0x82 = 0 ∧ psSwap 0x82 = 0 ∧ psAcc 0x82 = 0 ∧ psAcc (0x82 + 2 ^ 36) = 1 ∧ psSwap (0x82 + 2 ^ 37) = 1 ∧
    (((tileRuns (mxeProg 0x82)).modMxe 0 (fun m => { m with pass := some ⟨0x82, 0, 1, 3, 1⟩ })).tile 0).mxe.pass = some ⟨0x82, 0, 1, 3, 1⟩ ∧
    (((tileRuns (mxeProg 0x82)).modMxe 0 (fun m => { m with pass := some ⟨0x82, 0, 1, 3, 1⟩ })).tile 0).uses = [] ∧
    (∀ e ∈ (((tileRuns (mxeProg 0x82)).modMxe 0 (fun m => { m with pass := some ⟨0x82, 0, 1, 3, 1⟩ })).tile 0).dues, 2 * 0 < e.1) ∧
    ([(5, false)] : List (Int × Bool)).length ≤ 128 := by decide

theorem witness_VectorDescriptors :
    VeReady (tileRuns (veProg 0x81)) 0 0 voRUN 0x81 ∧ VeReady (tileRuns (veProg 0x82)) 0 0 voTABLE 0x82 ∧
    VeReady (tileRuns (veProg 0x83)) 0 0 voCACHE 0x83 ∧ dBits 0x83 0 32 1 = 0 ∧ (State.reset.tile 0).uses = [] := by decide
theorem witness_VectorJobs :
    ((State.reset.modVe 0 (fun e => { e with job := some ⟨0x82, 3, 2, zeros 1024, List.replicate 1024 false⟩ })).ve 0).job =
      some ⟨0x82, 3, 2, zeros 1024, List.replicate 1024 false⟩ ∧ dBits 0x82 0 0 4 = voTABLE ∧ dBits 0x83 0 0 4 = voCACHE ∧
    (lookupOf (zeros 1040) (List.replicate 1040 false)).isSome = true ∧ lookupOf (zeros 1040) (List.replicate 1040 true) = none := by
  decide
theorem witness_SlateGood :
    slateGood (armedProgram ((tileRuns (veProg 0x81)).tile 0)) 0 12 1 [0] (zeros 128) = true ∧
    slateGood (armedProgram ((tileRuns (veProg 0x81)).tile 0)) 0 12 1 [3 * 2 ^ 30] (zeros 128) = false := by decide

theorem witness_SlateIssue : SlateReady (issuing 0x02) 0 (slateRun 0x02 2) (slateOf 0x02) 12 ∧ (slateOf 0x02).op = 0x02 ∧
    SlateReady (issuing 0x00) 0 (slateRun 0x00 2) (slateOf 0x00) 12 ∧ (slateOf 0x00).op = 0 := by decide

theorem witness_SlateResults : 0 < laneCount (slateZero 0x02).w ∧ 511 < laneCount (slateZero 0x82).w ∧
    (slateZero 0x34).ws.value ≤ 0 ∧ (slateZero 0x38).slot = none ∧ laneBits ((slateZero (0x2D + 2 ^ 48)).i.ext % 4) < (slateZero (0x2D + 2 ^ 48)).bits := by decide

theorem witness_CoreArithmetic :
    CoreReady (coreAt (word3 0x01 0) 5 7) { coreAt (word3 0x01 0) 5 7 with cyc := 0 } 0 0x100 (word3 0x01 0) 0 ∧
    CoreReady (coreAt (word3 0x01 16) 5 0) { coreAt (word3 0x01 16) 5 0 with cyc := 0 } 0 0x110 (word3 0x01 16) 0 ∧
    CoreReady (coreAt (word3 0x02 0) 5 7) { coreAt (word3 0x02 0) 5 7 with cyc := 0 } 0 0x02 (word3 0x02 0) 0 ∧
    CoreReady (coreAt 0x30A 5 7) { coreAt 0x30A 5 7 with cyc := 0 } 0 0x0A 0x30A 0 ∧
    CoreReady (coreAt (0x33F + 2 * 2 ^ 23) 0 0) { coreAt (0x33F + 2 * 2 ^ 23) 0 0 with cyc := 0 } 0 0x202 (0x33F + 2 * 2 ^ 23) 0 ∧
    CoreReady (coreAt (0x33F + 3 * 2 ^ 23) 0 0) { coreAt (0x33F + 3 * 2 ^ 23) 0 0 with cyc := 0 } 0 0x203 (0x33F + 3 * 2 ^ 23) 0 ∧
    CoreReady (coreAt (0x33F + 4 * 2 ^ 23) 0 0) { coreAt (0x33F + 4 * 2 ^ 23) 0 0 with cyc := 0 } 0 0x204 (0x33F + 4 * 2 ^ 23) 0 := by
  and_intros <;> first | decide | rfl

theorem witness_CoreLoad :
    let u (x : Nat) : State := { coreAt (word3 0x10 0) x 0 with cyc := 0 }
    CoreReady (coreAt (word3 0x10 0) 0x2000 0) (u 0x2000) 0 0x10 (word3 0x10 0) 0 ∧ (u 0x2000).coreAddr ⟨0, word3 0x10 0, 0⟩ = 0x2002 ∧
    CoreReady (coreAt (0x310 + 2 ^ 13) 0x2000 0) { coreAt (0x310 + 2 ^ 13) 0x2000 0 with cyc := 0 } 0 0x10 (0x310 + 2 ^ 13) 0 ∧
    ({ coreAt (0x310 + 2 ^ 13) 0x2000 0 with cyc := 0 } : State).coreAddr ⟨0, 0x310 + 2 ^ 13, 0⟩ = 0x2000 ∧
    lmPoisoned (coreAt (0x310 + 2 ^ 13) 0x2000 0).mem (lmAddr 0 0x2000) = false ∧
    tgetD (coreAt (0x310 + 2 ^ 13) 0x2000 0).mem.lmErr (lmAddr 0 0x2000 / 4) 0 = 0 ∧
    CoreReady (coreAt (0x310 + 2 ^ 13) 0x400000 0) { coreAt (0x310 + 2 ^ 13) 0x400000 0 with cyc := 0 } 0 0x10 (0x310 + 2 ^ 13) 0 ∧
    ({ coreAt (0x310 + 2 ^ 13) 0x400000 0 with cyc := 0 } : State).coreAddr ⟨0, 0x310 + 2 ^ 13, 0⟩ = 0x400000 ∧
    ({ coreAt (0x310 + 2 ^ 13) 0x1013FFC 0 with cyc := 0 } : State).coreAddr ⟨0, 0x310 + 2 ^ 13, 0⟩ = 0x1013FFC ∧
    ({ coreAt (0x310 + 2 ^ 13) 0x8000 0 with cyc := 0 } : State).coreAddr ⟨0, 0x310 + 2 ^ 13, 0⟩ = 0x8000 := by
  and_intros <;> first | decide | rfl
theorem witness_CoreStore :
    CoreReady (coreAt (0x218 + 2 ^ 13) 0x7FFC 9) { coreAt (0x218 + 2 ^ 13) 0x7FFC 9 with cyc := 0 } 0 0x18 (0x218 + 2 ^ 13) 0 ∧
    ({ coreAt (0x218 + 2 ^ 13) 0x7FFC 9 with cyc := 0 } : State).coreAddr ⟨0, 0x218 + 2 ^ 13, 0⟩ = 0x7FFC ∧
    (coreAt (0x218 + 2 ^ 13) 0xFFC 9).flag (GC_STATUS 0) GC_STATUS_runtime = false ∧
    (List.range 4).any (fun i => (coreAt (0x218 + 2 ^ 13) 0x7FFFFC 9).areaOffset (0x3FFFFC + i) ||
      (coreAt (0x218 + 2 ^ 13) 0x7FFFFC 9).shadowOffset (0x3FFFFC + i)) = false ∧
    (coreAt (0x218 + 2 ^ 13) 0x1010000 9).tainted 0 = false ∧ ((coreAt (0x218 + 2 ^ 13) 0x1010000 9).tile 0).nextPatches.length < 64 ∧
    isOverwritePass (mxeProg 0x82) 0 = true := by
  and_intros <;> first | decide | rfl
theorem witness_CoreWindow :
    let s := (coreAt 0 0 0).modCore 0 (fun c => { c with tb := some ⟨true, 0, 4, false, 0, 9, 8⟩ })
    s.alive 0 = true ∧ (List.range 64).filter (fun c => (s.windowAccess (64 * 0 + c) 8).isSome && !s.windowLate (64 * 0 + c) 8) = [0 % 64] ∧
    s.windowAccess 0 8 = some ⟨true, 0, 4, false, 0, 9, 8⟩ := by decide

theorem witness_CoreControl :
    CoreReady (coreAt (word3 0x20 0) 5 7) { coreAt (word3 0x20 0) 5 7 with cyc := 0 } 0 0x20 (word3 0x20 0) 0 ∧
    CoreReady (coreAt 0x328 0 0) { coreAt 0x328 0 0 with cyc := 0 } 0 0x28 0x328 0 ∧
    CoreReady (coreAt 0x329 0 0) { coreAt 0x329 0 0 with cyc := 0 } 0 0x29 0x329 0 ∧
    CoreReady (coreAt 0x3F 0 0) { coreAt 0x3F 0 0 with cyc := 0 } 0 0x200 0x3F 0 ∧
    (coreAt 0x3F 0 0).flag (GC_STATUS 0) GC_STATUS_running = true ∧
    CoreReady (coreAt (0x3F + 2 ^ 13 + 2 ^ 23) 3775 0) { coreAt (0x3F + 2 ^ 13 + 2 ^ 23) 3775 0 with cyc := 0 } 0 0x201 (0x3F + 2 ^ 13 + 2 ^ 23) 0 ∧
    ((coreAt (0x3F + 2 ^ 13 + 2 ^ 23) 3775 0).core 0).get (ckRa (0x3F + 2 ^ 13 + 2 ^ 23)) = 3775 ∧
    CoreReady (coreAt (0x3F + 2 ^ 13 + 5 * 2 ^ 23) 0x40 0) { coreAt (0x3F + 2 ^ 13 + 5 * 2 ^ 23) 0x40 0 with cyc := 0 } 0 0x205
      (0x3F + 2 ^ 13 + 5 * 2 ^ 23) 0 ∧
    CoreReady (coreAt (0x3F + 6 * 2 ^ 23) 0 0) { coreAt (0x3F + 6 * 2 ^ 23) 0 0 with cyc := 0 } 0 0x206 (0x3F + 6 * 2 ^ 23) 0 ∧
    (coreAt (0x3F + 6 * 2 ^ 23) 0 0).flag (GC_STATUS 0) GC_STATUS_runtime = false := by
  and_intros <;> first | decide | rfl
theorem witness_Runtime :
    let s := ((coreAt (0x3F + 6 * 2 ^ 23) 0 0).setB (GC_STATUS 0) GC_STATUS_running false).setB (GC_STATUS 0) GC_STATUS_runtime true
    CoreReady s { s with cyc := 0 } 0 0x206 (0x3F + 6 * 2 ^ 23) 0 ∧ s.flag (GC_STATUS 0) GC_STATUS_runtime = true := by
  and_intros <;> first | decide | rfl
theorem witness_Tasks :
    let s := (coreAt 0 0 0).modCore 0 (fun c => { c with waitc := some 90 })
    s.powered = true ∧ s.coreBusy 0 = true ∧ (s.core 0).waitc = some 90 ∧ 90 ≤ (s.core 0).deadline ∧
    (tileRuns taskProg).powered = true ∧ 0 < tpTaskCount (armedProgram ((tileRuns taskProg).tile 0)) ∧
    (tileRuns taskProg).tileWorks 0 (tkAt (armedProgram ((tileRuns taskProg).tile 0)) 0 2 2) = true ∧
    (tileRuns taskProg).coreIdle 0 = true ∧
    State.reset.courseRunning (State.reset.partOfLt 0) = false ∧ State.reset.courseState (State.reset.partOfLt 0) ≠ csStarting ∧
    (let d := (coreAt 0 0 0).modCore 0 (fun c => { c with waitc := some 4001 })
     d.coreBusy 0 = true ∧ d.flag (GC_STATUS 0) GC_STATUS_running = true ∧ d.deadlineDue 0 = true) := by decide

theorem witness_MoverChannels :
    let s := tileRuns (movProg 0x81)
    s.powered = true ∧ (s.movEntry 0 0 1).isSome = true ∧
    s.copyRefused 0 0 (copyOf ((s.movEntry 0 0 1).getD 0) 8) = none ∧ ((tileRuns (movProg 0x82)).movEntry 0 0 2).isSome = true ∧
    mvChannel ((s.movEntry 0 0 1).getD 0) = 0 := by decide
theorem witness_MoverBeat : copying.powered = true ∧ copying.alive 0 = true ∧ (copying.chan (8 * 0 + 0)).copy = some ownCopy ∧
    pathOf 0 0 ownCopy = some .own ∧ beatsPerRow .own ownCopy = 1 ∧
    (beatWrites .own (tbBase + 0x80) 0 128).find? (fun x => copying.protectedRange x.1 x.2) = none ∧ (copying.tile 0).uses = [] ∧ (copying.tile 0).dues = [] := by decide
theorem witness_Built : (listing1.chan (8 * 0 + 0)).ind = some listRun ∧ (listing1.chan (8 * 0 + 0)).copy = none ∧
    listRun.next < listRun.count ∧ listRun.cycle + 1 ≤ listRun.firstCycle + listRun.window ∧
    (({ listing1 with cyc := 8 } : State).portRead 0 8 0 7 0 32).1 = (zeros 32, List.replicate 32 false) ∧
    leVal (zeros 32) = 0 := by decide
theorem witness_Service : posted.powered = true ∧ posted.alive 0 = true ∧ posted.serviceTime 0 .own = true ∧
    posted.flag (MOV_STATUS_LT 0 0) MOV_STATUS_LT_service_stop = false ∧
    posted.copyRefused 0 0 (postCopy ⟨tbBase, tbBase + 0x80, 128, 0, 7, 0⟩) = none ∧
    posted.protectedRange (tbBase + 0x80) 128 = false ∧ pathOf 0 0 (postCopy ⟨tbBase, tbBase + 0x80, 128, 0, 7, 0⟩) = some .own ∧
    (posted.svcRead tbBase 128).1 = (zeros 128, true) ∧ ((posted.svcRead tbBase 128).2.svcWrite (tbBase + 0x80) (zeros 128)).1.2 = true := by
  decide

theorem witness_NbuStart : (layered 5).powered = true ∧ (layered 5).working 0 = true ∧ seqAt (tgetD ((layered 5).layer 0).prog 0 []) 0 = 5 ∧
    0 < lpCount (tgetD ((layered 5).layer 0).prog 0 []) ∧ ((layered 5).crsOf 0).lessonBell = dStartBell 5 ∧
    0 ∉ ((layered 5).layer 0).halted ∧ (layered 5).findSeq 0 0 0 = none ∧ (layered 5).tokensFree 0 5 = true := by decide
theorem witness_NbuTransfer : (sequencing 5 0).powered = true ∧ (sequencing 5 0).findSeq 0 0 0 = some (seqRun 5) ∧
    (seqRun 5).xfer < xferCount (seqRun 5).entry ∧ (seqRun 5).t + xferCycles 5 (xferAt 5 0) + 4 ≤ 944 ∧
    (sequencing 5 0).seqDue (seqRun 5) = true ∧ 944 < 909 + xferCycles 4 (xferAt 4 0) + 4 ∧
    (sequencing 5 1).findSeq 0 0 0 = some { seqRun 5 with xfer := 1 } ∧ xferCount 5 ≤ 1 ∧
    (sequencing 1 0).findSeq 0 0 0 = some (seqRun 1) ∧ sqOp 1 = 1 ∧ sqOp 2 = 2 ∧ sqOp 3 = 3 ∧ sqOp 4 = 4 ∧ sqOp 5 = 5 ∧
    (seqRun 5).owner = none ∧ (sequencing 5 1).nfWaiting = [] ∧ xferAt 5 0 = .fill 0 ∧ xferAt 4 0 = .pair 0 ∧ xferAt 1 2 = .result 0 := by decide
theorem open_locker {s : State} (a n : Nat) (w : Bool) (h : a + n ≤ 0x1000000) (hp : s.present 0 = true)
    (hc : (List.range 4).all (fun p => !s.courseLoaded p) = true) (hm : s.flag MEM_EVAC MEM_EVAC_active = false) :
    s.svcRefuse a n w = none := by
  have can : ∀ i, i ∈ List.range n → canonAddr (a + i) = a + i ∧ a + i < 0x1000000 := by
    intro i hi
    have := List.mem_range.mp hi
    refine ⟨?_, by omega⟩
    unfold canonAddr aliasBase
    rw [if_neg]
    simp only [Bool.and_eq_true, decide_eq_true_eq]
    omega
  have reg : ∀ b, b < 0x1000000 → regionOf b = .locker := by
    intro b hb
    unfold regionOf
    rw [if_pos (by omega)]
  have img : ∀ b, s.imageByte b = false := by
    intro b
    unfold State.imageByte
    rw [List.any_eq_false]
    intro p hq
    have := List.all_eq_true.mp hc p hq
    simp only [Bool.not_eq_true'] at this
    simp [this]
  have h1 : s.mappedRange a n = true := by
    unfold State.mappedRange
    rw [List.all_eq_true]
    intro i hi
    have e := can i hi
    simp only [State.mapped, e.1, reg _ e.2, addrTile]
    have : (a + i) / 0x1000000 / 64 = 0 := by omega
    simp [this, hp]
  have h2 : s.protectedRange a n = false := by
    unfold State.protectedRange
    rw [List.any_eq_false]
    intro i hi
    have e := can i hi
    simp [State.protectedByte, e.1, img, reg _ e.2]
  have h3 : s.movingRange a n = false := by
    unfold State.movingRange
    rw [List.any_eq_false]
    intro i hi
    simp [State.lockerMoving, hm]
  simp [State.svcRefuse, h1, h2, h3]
theorem witness_NbuCommands :
    let w := 8 + 5 * 2 ^ 7 + 2 ^ 27
    let c := cmdOf opNBU_FILL 64 .accepted
    let d := cmdOf opNBU_COPY 0 .accepted
    seated.present (0 / 64) = true ∧ lcCmd w = 8 ∧ lcParity w = true ∧ lcSide w ≠ 0 ∧ nlSub w = 5 ∧ bitsAt w 40 7 = 0 ∧ entryRowsGood (belowEntry 0 w) = true ∧
    seated.openBell (seated.partOfLt 0) = true ∧ seated.tokensFree (lcLayer w) (belowEntry 0 w) = true ∧
    Accepted (seatedWith c) 0 7 opNBU_FILL c ∧ (seatedWith c).nfCheck c (nfBank c.pkt) none = some stADDR_UNMAPPED ∧
    Accepted (seatedWith d) 0 7 opNBU_COPY d ∧ nfOverlap d.pkt = true := by decide
theorem open_row {s : State} (bank row n : Nat) (w : Bool) (hb : bank < 2) (hr : row < 2048) (hn : n ≤ 1024)
    (hp : s.present 0 = true) (hc : (List.range 4).all (fun p => !s.courseLoaded p) = true)
    (hm : s.flag MEM_EVAC MEM_EVAC_active = false) : s.svcRefuse (rowAddr 0 0 bank row) n w = none :=
  open_locker _ _ _ (by unfold rowAddr; omega) hp hc hm
theorem open_rows {s : State} {k : Packet} (bank row : Nat) (w : Bool) (h1 : nfLockers k = [0]) (h2 : nfLayer k = 0)
    (h3 : nfRows k ≤ 1) (hb : bank < 2) (hr : row < 2048) (hp : s.present 0 = true)
    (hc : (List.range 4).all (fun p => !s.courseLoaded p) = true) (hm : s.flag MEM_EVAC MEM_EVAC_active = false) :
    s.nfRefuse k bank row w = none := by
  have hn : 1024 * nfRows k ≤ 1024 := by omega
  unfold State.nfRefuse
  generalize 1024 * nfRows k = n at hn ⊢
  rw [h1, h2, List.findSome?_cons, open_row bank row n w hb hr hn hp hc hm]
  simp only [List.findSome?_nil]
theorem open_fill {s : State} {c : Cmd} {bank : Nat} {src : Option (Nat × Nat)}
    (ha : (nfLockers c.pkt).any (fun x => s.partOfLt (x / 64) != c.part) = false) (ho : s.openBell c.part = true)
    (hs : src.bind (fun x => s.nfRefuse c.pkt x.1 x.2 false) = none)
    (hd : s.nfRefuse c.pkt bank (nfRow c.pkt) true = none) : s.nfCheck c bank src = none := by
  unfold State.nfCheck
  rw [ha, ho, hs, hd]
  rfl
theorem witness_NbuRun :
    let c := cmdOf opNBU_FILL 0 .accepted
    let d := cmdOf3 opNBU_COPY 0 (2 ^ 27) 0 .accepted
    Accepted (seatedWith c) 0 7 opNBU_FILL c ∧ (seatedWith c).nfCheck c (nfBank c.pkt) none = none ∧
    Accepted (seatedWith d) 0 7 opNBU_COPY d ∧ nfOverlap d.pkt = false ∧
    (seatedWith d).nfCheck d (bitsAt d.pkt.p1 38 1) (some (nfBank d.pkt, bitsAt d.pkt.p1 27 11)) = none := by
  refine ⟨by decide, ?_, by decide, by decide, ?_⟩
  · exact open_fill (by decide) (by decide) rfl
      (open_rows _ _ _ (by decide) (by decide) (by decide) (by decide) (by decide) (by decide) (by decide) (by decide))
  · exact open_fill (by decide) (by decide)
      (open_rows _ _ _ (by decide) (by decide) (by decide) (by decide) (by decide) (by decide) (by decide) (by decide))
      (open_rows _ _ _ (by decide) (by decide) (by decide) (by decide) (by decide) (by decide) (by decide) (by decide))
theorem witness_NbuOwner :
    (nbuServing [1, 0]).findSeq 0 255 0 = some servingRun ∧ xferCount servingRun.entry ≤ servingRun.xfer ∧
    servingRun.owner = some (0, 7) ∧ (nbuServing [1, 0]).findTag 0 7 = some (nbuCmd [1, 0]) ∧
    nfEnded (nbuCmd [1, 0]) < (nfLockers (nbuCmd [1, 0]).pkt).length ∧ (nfLockers (nbuCmd [1, 1]).pkt).length ≤ nfEnded (nbuCmd [1, 1]) ∧
    (nbuServing [1, 0]).openBell 0 = true ∧ (nbuServing [1, 0]).tokensFree 0 (nfEntry (nbuCmd []).pkt 1) = true ∧
    (nbuServing [1, 0]).tokensFree 0 (nfEntry (nbuCmd []).pkt 0) = false ∧
    servingRun.bell < ((nbuServing []).setF BELL_COUNT_LO BELL_COUNT_LO_value 1).bellCount := by
  and_intros <;> first | decide | rfl

theorem witness_PageAccept : ∀ op ∈ [opSEQ_CLOSE, opPAGE_MAP, opPAGE_UNMAP, opSEQ_FORK, opPAGE_PRIVATE],
    Accepted (paged (cmdOf3 op 0 1 1 .accepted)) 0 7 op (cmdOf3 op 0 1 1 .accepted) ∧
    (paged (cmdOf3 op 0 1 1 .accepted)).pageFails 0 (packet3 op 0 1 1) = none := by decide
theorem witness_PageOpen : Accepted (paged (cmdOf3 opSEQ_OPEN 2 1 1 .accepted)) 0 7 opSEQ_OPEN (cmdOf3 opSEQ_OPEN 2 1 1 .accepted) ∧
    (paged (cmdOf3 opSEQ_OPEN 2 1 1 .accepted)).pageFails 0 (packet3 opSEQ_OPEN 2 1 1) = none ∧
    (paged (cmdOf3 opSEQ_OPEN 1 1 1 .accepted)).pageFails 0 (packet3 opSEQ_OPEN 1 1 1) = some stSEQ_STATE ∧
    (paged (cmdOf3 opSEQ_OPEN 2 1 1 .active)).findTag 0 7 = some (cmdOf3 opSEQ_OPEN 2 1 1 .active) ∧ isPageOp opSEQ_OPEN = true ∧
    (paged (cmdOf3 opSEQ_OPEN 2 1 1 .active)).serviceOpen 0 = true ∧
    ((paged (cmdOf3 opSEQ_OPEN 2 1 1 .active)).setB (BELL_CRS_STATE 0) ⟨3, 1⟩ false).serviceOpen 0 = false ∧
    0 ∈ (paged (cmdOf3 opSEQ_OPEN 1 1 1 .accepted)).tilesOf 0 ∧ ((paged (cmdOf3 opSEQ_OPEN 2 1 1 .active)).setB (TRN_STATUS_LT 0)
      TRN_STATUS_LT_area_lost true).flag (TRN_STATUS_LT 0) TRN_STATUS_LT_area_lost = true := by decide
theorem witness_Pages : let s := paged (cmdOf3 opPAGE_MAP 0 1 1 .active)
    Memory.wf s.mem = true ∧ s.areaOn = true ∧ wordOff (s.dirEntry 0 0) 1 = some 0xC004 ∧ wordValid (s.pageWord 0 0 1) = false ∧
    (s.freeRows 0 1).head? = some 3 ∧ s.pageWord 0 0 0 = 2 ^ 31 + 3 ∧ wordValid (s.pageWord 0 0 0) = true ∧ s.frameCount 0 3 = 1 ∧
    wordOff (s.dirEntry 0 1) 0 = some 0xC040 ∧ wordFrame (2 ^ 31 + 3) % 16384 = 3 := by decide

theorem witness_JobStart : let s := translating false
    s.powered = true ∧ s.partOfLt 0 = 0 ∧ s.jobRoster 0 = some (2, 0, 2) ∧ s.alive 0 = true ∧ s.working 0 = true ∧
    tpRosterValid (armedProgram (s.tile 0)) = true ∧ (s.tile 0).halted = false ∧
    (s.crsOf 0).lessonBell = jobStart (tpRosterCycle (armedProgram (s.tile 0))) 2 / 3776 ∧
    s.flag (TRN_STATUS_LT 0) TRN_STATUS_LT_fallback = false ∧
    (translating true).flag (TRN_STATUS_LT 0) TRN_STATUS_LT_fallback = true := by decide
theorem witness_TranslateEntry : let s := translating false
    tpRosterAddr (armedProgram (s.tile 0)) = 64 ∧ leAt (tbPeek s.mem 0 0 64 true).1 8 2 = 1 ∧
    (s.crsOf 0).lessonBell = (jobStart 0 2 + 1 * entryCycles 1) / 3776 ∧ s.flag (TRN_STATUS_LT 0) TRN_STATUS_LT_busy = true ∧
    (s.tile 0).trnNext = 0 ∧ 1 = ((s.modTile 0 (fun y => { y with trnNext := 1 })).tile 0).trnNext := by decide
theorem witness_TranslateRead : let s := translating false
    let a := s.trnRead 0 65 0 64
    let b := a.2.trnRead 0 66 64 32
    noPlace (planOf a.1.1) 2 = false ∧ s.planBad (planOf a.1.1) 64 2 = false ∧ leAt b.1.1 0x10 4 = 0 ∧
    s.planBad ⟨1024, 0, 0, 1, 0⟩ 64 2 = true ∧ noPlace ⟨1024, 0, 0, 1, 0⟩ 2 = false ∧ noPlace ⟨1, 0, 1, 1, 0⟩ 2 = true := by decide
theorem witness_Fallback : let s := translating true
    let t := programOf (s.crsOf 0).image 0 0
    let b := tbPeek s.mem 0 (tpRosterAddr t - 64) 64 false
    let y := planOf b.1
    (s.crsOf 0).rosters.find? (fun r => r.committed && r.lesson == 0 && r.iter == 2) = some nextRoster ∧
    prevPos (s.crsOf 0) 0 2 = some (0, 1) ∧ lsCapacity (s.crsOf 0).image 0 = 2 ∧ tpRosterValid t = true ∧
    (entryOf (bytesFrom nextRoster.data 32 16)).seq = 0 ∧ 0 < leAt nextRoster.data 0x10 4 ∧ s.planBad y (tpRosterAddr t) 2 = false ∧
    s.flag (TRN_STATUS_LT 0) TRN_STATUS_LT_area_lost = false ∧
    dirOpen (leVal (tbPeek s.mem 0 s.areaBase 4 false).1) = true ∧ s.areaOn = true ∧ 0 ≤ y.words ∧ y.vpBase + 0 ≤ 4096 ∧
    s.fallRoom 0 (recordSize y.words) = true := by decide

theorem witness_MeshInject : (meshed [beat1] []).powered = true ∧ ((meshed [beat1] []).engines 0 100).offers 0 100 = [beat1] ∧
    ((meshed [beat1, beat2] []).engines 0 100).offers 0 100 = [beat1, beat2] ∧ beat1.unit < beat2.unit ∧ beat1.id ≠ beat2.id ∧
    ((meshed [beat1] []).engines 1 100).offers 1 100 = [] ∧ (meshed [beat1] []).meshTargets 0 1 0 = [1] ∧
    (meshed [beat1] []).meshTargets 0 9 0 = [] := by decide
theorem witness_MeshRoute : let s := meshed [moving] []
    s.mesh.beats.find? (fun y => y.id == 0 && y.injected && y.kind != 2) = some moving ∧ moving.targets.filter s.present = [1] ∧
    s.nextHops moving = some (⟨0, 0, 1, 1, 2⟩, [1]) ∧ s.outputLost moving 0 = false ∧
    (meshed [moving] [⟨moving.seat, 0, 102, 1, 7, true⟩]).outputLost moving 0 = true ∧
    (meshed [{ moving with targets := [9] }] []).present 9 = false ∧ s.nextHops { moving with col := 1 } = none ∧
    s.needs moving 0 = true ∧ s.contenders moving.seat 0 102 0 = [] ∧
    (meshed [gone1] []).mesh.beats.filter (fun y => y.root == 7 && y.path.contains (moving.seat, 0)) = [gone1] ∧
    s.bypassed (seatAt 0 1) = false ∧ (s.setB (MESH_ERRORS_SEAT 1) MESH_ERRORS_SEAT_bypassed true).bypassed (seatAt 0 1) = true ∧
    hopOf 0 1 0 2 = some (hopTo 0 1 0 1 0 2) := by decide
theorem witness_MeshEject : let b := { moving with col := 1 }
    let s := meshed [b] []
    s.mesh.beats.find? (fun y => y.id == 0 && y.injected && y.kind != 2) = some b ∧
    b.targets.find? (fun t => s.present t && s.seatOf t == b.seat) = some 1 ∧ s.ejectEarly { b with destLt := 1 } = false ∧
    (meshed [b, { b with id := 1, root := 1, injCycle := 90 }] []).ejectEarly { b with destLt := 1 } = true ∧
    s.partOfLt b.srcLt = s.partOfLt 1 ∧ s.ejectLoses b = false ∧ s.alive 1 = true ∧ s.alive 9 = false ∧
    (meshed [b] [⟨s.seatOf 1, 4, deliverCycle b, 0, 9, true⟩]).ejectLoses b = true ∧
    s.mergeFor b.destLt b.srcLt (deliverCycle b) = none ∧ s.flag MESH_CONFLICT MESH_CONFLICT_valid = false ∧
    s.ltAtSeat b.seat = some 1 ∧ b.seat < 288 ∧
    (s.setF CMD_PART CMD_PART_count 4).partOfLt 0 ≠ (s.setF CMD_PART CMD_PART_count 4).partOfLt 64 := by decide
theorem witness_Merge : let s := tileRuns (mxeProg 0x84)
    s.mergeFor 0 0 8 = some (0, 0) := by decide

theorem witness_ServiceBeat : let b := { moving with kind := 2 }
    let s := meshed [b] []
    s.powered = true ∧ s.mesh.beats.find? (fun x => x.id == 0 && x.injected && x.kind == 2) = some b ∧ s.present b.destLt = true ∧
    b.injBell = s.bellCount ∧ b.arrive ≤ 102 ∧
    s.hop b b.destLt = some ⟨0, 0, 1, 1, 2⟩ ∧ s.linkBusy b.seat 0 102 = false ∧ s.atInput (seatAt 0 1) 1 < 4 ∧
    s.hop { b with col := 1 } b.destLt = none ∧ s.alive b.destLt = true ∧ s.partOfLt 0 = s.partOfLt 1 ∧
    ((s.engines 1 102).tile b.destLt).uses = [] ∧ (meshed [b] [⟨b.seat, 0, 102, 1, 7, true⟩]).linkBusy b.seat 0 102 = true ∧
    s.present 9 = false := by decide
theorem witness_HallPasses : let s := posted
    (s.chan 0).posts ≠ [] ∧ (s.chan 0).passes = 0 ∧ s.present 0 = true ∧ s.hallAsked 0 = 0 ∧ s.hallOnly 0 0 = true ∧
    ((s.modChan 1 (fun v => { v with owed := [(0, 3)] })).chan 1).owed = [(0, 3)] ∧
    ((s.modTile 0 (fun t => { t with hallQueue := [(0, 3)] })).tile 0).hallQueue = [(0, 3)] ∧
    (s.modTile 0 (fun t => { t with hallQueue := [(0, 3)] })).hallOnly 0 1 = false ∧
    s.getF (TB_HALL_LT 0) TB_HALL_LT_free = 16 ∧ (s.setF (TB_HALL_LT 0) TB_HALL_LT_free 0).getF (TB_HALL_LT 0) TB_HALL_LT_free = 0 := by decide
theorem witness_Cnet : cnetVoid (cnetMsg 0 0x188 0x180 0 false false) = false ∧ cnetVoid (cnetMsg 8 0x188 0x180 0 true false) = true ∧
    cnetVoid (cnetMsg 0 0 0x180 0 false false) = true ∧ cnetVoid { cnetMsg 6 0 0x180 0 false false with seat := some 0 } = false ∧
    (cnetMsg 6 0 0x180 0 false true).second = false ∧ { cnetMsg 0 0x188 0x180 0 false true with second := true } ∉ State.reset.mesh.msgs ∧
    nodeOfReg (cnetReg (cnetMsg 1 0x180 0 0x20000 false false)) = 0x180 ∧ seated.alive 0 = true ∧ seated.clock.resetBegun = false := by decide

theorem witness_PortWork : ∀ op ∈ [poSEND, poRECV, poREDUCE, poRELAY, poVSEND, poVADD, poVSIGN],
    (porting op).powered = true ∧ (porting op).portWork 0 0 0 op = some ⟨0, 0, op, 0, 0⟩ ∧ (porting op).portWork 0 0 0 (op + 1) = none ∧
    (porting op).portUp 0 = true ∧ (porting op).portUp 1 = false := by decide
theorem witness_Frames : (porting 1).frameHeader (frameOf fkTIMED) = true ∧ (porting 1).frameHeader (frameOf fkWRITE) = true ∧
    fkWRITE ≠ fkTIMED ∧ fkWRITE ≠ fkREPLY ∧ ((porting 1).port 0).svcQueue.length < 16 ∧ (frameOf fkTIMED).poison = 0 := by decide
theorem sealed_crc (f : Frame) : (sealFrame f).kind = f.kind ∧ (sealFrame f).crc = crc32 (frameBytes (sealFrame f)) := ⟨rfl, rfl⟩
theorem witness_Crc : (sealFrame (frameOf fkWRITE)).kind = fkWRITE ∧
    (sealFrame (frameOf fkWRITE)).crc = crc32 (frameBytes (sealFrame (frameOf fkWRITE))) := sealed_crc (frameOf fkWRITE)
theorem witness_Consume : let s := (porting 2).modPort 0 (fun t => { t with rx := [{ frameOf fkTIMED with bell := 5 }] })
    (s.port 0).rx.find? (s.expected 0 0 0 80) ≠ none ∧ s.expected 0 0 0 80 { frameOf fkTIMED with bell := 5 } = true ∧ ((porting 2).port 0).rx.find? ((porting 2).expected 0 0 0 100) = none := by
  refine ⟨?_, by decide, by decide⟩
  intro h
  have := List.find?_eq_none.mp h { frameOf fkTIMED with bell := 5 } (List.mem_cons_self ..)
  exact this (by decide)
theorem witness_Rates : let s := ((porting 1).setB (PORT_STATE 0) PORT_STATE_half_width true).modPort 0 (fun t => { t with lastSent := some 20480 })
    s.flag (PORT_STATE 0) PORT_STATE_half_width = true ∧ (s.port 0).lastSent = some 20480 ∧ s.bellCount * 4096 + 13 < 20480 + 14 ∧
    ((porting 1).port 0).lastSent = none ∧ (State.reset.tieOf (some 5)).1 = 5 := by decide
theorem witness_Reduce : let d := 3 + 2 ^ 56 * 7 + 2 ^ (64 * 3) * (2 * 2 ^ 24 + fINT32 * 2 ^ 26)
    peOutPort d = 7 ∧ peDst d = 2 ∧ peDstFmt d = fINT32 ∧ peSrc d = 0 := by decide

theorem witness_SvcFrames : let s := (porting 1).modPort 0 (fun t => { t with svcQueue := [frameOf fkWRITE] })
    s.powered = true ∧ (s.port 0).svcQueue = [frameOf fkWRITE] ∧ (frameOf fkWRITE).dst = s.deviceId ∧ (frameOf fkREAD).kind = fkREAD ∧
    { frameOf fkWRITE with dst := 5 }.dst ≠ s.deviceId ∧ ((porting 1).port 0).svcQueue = [] ∧ fkWRITE ≠ fkREAD ∧ fkWRITE ≠ fkREPLY := by decide
theorem witness_Remotes : let r : Remote := { tag := 0, owner := .mem 3, write := true, gaddr := 0, bytes := 8000, done := 0, data := zeros 8 }
    ({ State.reset with remotes := [r] } : State).remotes.find? (fun x => x.tag == (frameOf fkREPLY).stream) = some r ∧
    r.done + 3840 < r.bytes ∧ (frameOf fkREPLY).status = 0 ∧ r.owner = .mem 3 ∧
    ({ State.reset with remotes := [{ r with write := false, bytes := 8 }] } : State).remotes.find? (fun x => x.tag == r.tag) =
      some { r with write := false, bytes := 8 } := by decide
theorem witness_SvcWindows : working.rangeOpen tbBase 8 = true ∧ working.rangeOpen 0 8 = false := by decide
theorem witness_Syms : (∀ t ∈ [6, 7, 8, 9, 1], symGood t (mkSym t 1 0 0 0) false = true) ∧ (0 : Nat) < 6 ∧
    (∀ t ∈ [6, 7, 1], (porting 1).symHeard 0 t = true) ∧ (porting 1).symHeard 0 8 = false ∧
    (∀ t ∈ [8, 9], (State.reset.setF (PORT_STATE 0) PORT_STATE_state 4).symHeard 0 t = true) ∧ State.reset.symHeard 0 6 = false ∧
    (State.reset.modPort 0 (fun t => { t with again := 1 })).port 0 ≠ State.reset.port 0 ∧
    ((State.reset.setF (PORT_STATE 0) PORT_STATE_state 4).portSt 0 = 4) ∧ ((State.reset.setF (PORT_STATE 0) PORT_STATE_state 5).portSt 0 = 5) ∧
    (State.reset.port 0).probes < 1024 ∧ (State.reset.port 0).svcOut = [] ∧
    ((State.reset.modPort 0 (fun t => { t with probes := 1024 })).port 0).probes = 1024 := by decide

theorem witness_Lanes : let s := (porting 1).setF (PORT_LANES 0) PORT_LANES_spares_left 2
    s.powered = true ∧ s.portUp 0 = true ∧ s.getF (PORT_LANES 0) PORT_LANES_spares_left = 1 + 1 ∧
    (s.port 0).rxSwaps = [] ∧ (s.port 0).txSwaps = [] ∧ ((s.carryLane 0 3).port 0).rxSwaps.length < (s.carryLane 0 3).getF (PORT_LANES 0) PORT_LANES_spares_left ∧
    ((s.modPort 0 (fun t => { t with rxSwaps := [(3, 300)] })).port 0).rxSwaps = [(3, 300)] ∧
    ((s.modPort 0 (fun t => { t with txSwaps := [(3, 300)] })).port 0).txSwaps = [(3, 300)] ∧
    (s.setF (PORT_LANES 0) PORT_LANES_spares_left 0).getF (PORT_LANES 0) PORT_LANES_spares_left = 0 ∧ s.portUp 1 = false ∧
    s.flag CLK_REF CLK_REF_ref_sel = false ∧ (s.setB CLK_REF CLK_REF_ref_sel true).flag CLK_REF CLK_REF_ref_sel = true ∧
    (s.setF CLK_REF CLK_REF_upstream_port 0).getF CLK_REF CLK_REF_upstream_port = 0 := by decide
theorem witness_Training : ∀ st ∈ [0, 1, 2, 3, 4, 5, 6, 7, 8, 9], (State.reset.setF (PORT_STATE 0) PORT_STATE_state st).portSt 0 = st := by decide
theorem witness_Widths : widthOf 33 (2 ^ 32 - 1) = some false ∧ widthOf 20 (2 ^ 16 - 1) = some true ∧ widthOf 20 0 = none ∧
    (State.reset.modPort 0 (fun t => { t with learnt := some (1, 2, false) })).port 0 ≠ State.reset.port 0 := by decide
theorem witness_Retrain : let s := (((State.reset.setF (PORT_STATE 0) PORT_STATE_state 8).setF (PORT_LATENCY 0) PORT_LATENCY_d_rec 1850).setF
      (PORT_LATENCY 0) PORT_LATENCY_d_meas 312)
    s.portSt 0 = 8 ∧ ((s.modPort 0 (fun t => { t with again := 2, probes := 1024 })).port 0).probes = 1024 ∧ (s.port 0).again = 0 ∧
    ceilDiv 2496 8 + 32 ≤ s.getF (PORT_LATENCY 0) PORT_LATENCY_d_rec ∧ s.getF (PORT_LATENCY 0) PORT_LATENCY_d_rec < 1900 + 32 := by decide
theorem witness_Linkmap : Accepted (given (cmdOf opLINKMAP_LOAD (2 ^ 58) .accepted)) 0 7 opLINKMAP_LOAD (cmdOf opLINKMAP_LOAD (2 ^ 58) .accepted) ∧
    lmFormat (zeros 128) = false ∧ (State.reset.setB BELL_SYNC BELL_SYNC_joined true).flag BELL_SYNC BELL_SYNC_joined = true ∧
    State.reset.flag BELL_SYNC BELL_SYNC_joined = false := by decide

theorem seal_good (f : Flit) : (sealFlit f).crc = crc32 (flitBytes (sealFlit f)) := rfl
/-- A REG_READ in one flit, a MEM_WRITE whose first flit has come: from one state each clause of a good flit is met. -/
theorem witness_HostFlits : let s := linkUp
    s.powered = true ∧ s.mxlUp = true ∧ State.reset.mxlUp = false ∧
    (∀ x ∈ [rxOf fcCOMMAND ftREG_READ 3 [], rxOf fcBULK ftMEM_WRITE 1 [], rxOf fcBULK ftMEM_WRITE 3 [], rxOf fcCOMMAND ftDOORBELL 1 []],
      (s.takeHeader x).mxlUp = true ∧ x.flit.seq = ((s.takeHeader x).mxl.rxSeq + 1) % 4096 ∧
      (s.takeHeader x).flitKnown x.flit = true ∧ (s.takeHeader x).mxl.cmdGrant ≠ 0 ∧ (s.takeHeader x).mxl.bulkGrant ≠ 0 ∧
      x.flit.nak = false ∧ x.corrected = false) ∧
    (rxOf fcCOMMAND ftREG_READ 3 []).flit.typ = ftREG_READ ∧ bitSet (rxOf fcCOMMAND ftREG_READ 3 []).flit.flags 1 = true ∧
    bitSet (rxOf fcCOMMAND ftDOORBELL 1 []).flit.flags 1 = false ∧ bitSet (rxOf fcBULK ftMEM_WRITE 1 []).flit.flags 1 = false ∧
    (linkUp.takeHeader (rxOf fcCOMMAND ftMEM_READ 3 [])).flitKnown (rxOf fcCOMMAND ftMEM_READ 3 []).flit = false := by decide
theorem witness_FlitGood : (rxOf fcCOMMAND ftREG_READ 3 []).flit.crc = crc32 (flitBytes (rxOf fcCOMMAND ftREG_READ 3 []).flit) := rfl
theorem witness_FlitBad : (blankFlit fcCOMMAND ftREG_READ 3 9 []).crc ≠ crc32 (flitBytes (blankFlit fcCOMMAND ftREG_READ 3 9 [])) := by
  decide
/-- A link that the eighth nak for the same flit sends into RETRAIN. -/
theorem witness_HeaderDown : let s : State := { replaying with mxl := { replaying.mxl with lastReplay := 4, sameReplays := 7 } }
    s.mxlUp = true ∧ (s.takeHeader { flit := sealFlit { blankFlit fcIDLE ftIDLE 3 0 [] with ack := 3, nak := true }, corrected := false }).mxlUp
      = false := by decide
theorem witness_Acked : (∀ y ∈ [sentFlit 4], y.flit.seq ≠ (sentFlit 5).flit.seq) ∧ (∀ y ∈ [sentFlit 4], y.flit.seq ≠ 9) := by decide
theorem witness_Waits : let s : State := { linkUp with remotes := [⟨0, .mem 9, true, 0, 8, 0, zeros 8⟩] }
    s.waitsOf (.doorbell 0 0 1) ≠ [] ∧ (∃ o ∈ s.bulkOpen, o.write = true) ∧ linkUp.waitsOf (.doorbell 0 0 1) = [] ∧
    linkUp.mxl.heldReqs = [] := by decide
theorem witness_Doorbell : let s := ringed
    s.ringOn 0 = true ∧ s.ringPart 0 = 0 ∧ ringUsed (s.reg (CMD_RING_HEAD 0)).toNat (1 % 2 ^ 32) ≤ 2 ^ s.ringSize 0 ∧
    State.reset.ringOn 0 = false ∧ 2 ^ s.ringSize 0 < ringUsed (s.reg (CMD_RING_HEAD 0)).toNat (70000 % 2 ^ 32) := by decide
theorem witness_Accesses : State.reset.gaLocal STK_ID = true ∧ isRegister (gaAddr STK_ID) = true ∧ isRegister (gaAddr 0) = false ∧
    State.reset.gaLocal (5 * 2 ^ 48) = false ∧ (State.reset.remoteRefuse (5 * 2 ^ 48)).isSome = true ∧
    torus.gaLocal (1 * 2 ^ 48) = false ∧ torus.remoteRefuse (1 * 2 ^ 48) = none ∧ seated.gaLocal tbBase = true ∧ seated.rangeOpen (gaAddr tbBase) 4 = true ∧
    (seated.localWrite (gaAddr tbBase) (zeros 4)).1.1 = 0 ∧ seated.gaLocal 0 = true ∧ seated.rangeOpen (gaAddr 0) 4 = false := by decide
theorem witness_HostRead : let l := [{ blankFlit fcBULK ftHOST_DATA 3 9 [] with seq := 0 }]
    hostReading.mxl.hostReads.find? (fun y => y.tag == 9) = some waitingRead ∧
    hostReading.readOf (l.headD (blankFlit 0 0 0 0 [])) = some waitingRead ∧ hasPoison l = false ∧
    hasPoison [blankFlit fcBULK ftHOST_DATA 7 9 []] = true ∧
    hostReading.findTag 0 7 = some (cmdOf opMEM_COPY 0 .active) ∧ State.reset.mxl.hostReads.find? (fun y => y.tag == 9) = none := by decide

theorem witness_Prio :
    (∀ y ∈ [rxOf fcIDLE ftIDLE 3 [], rxOf fcIDLE ftLANE_SWAP 3 [2], rxOf fcPRIORITY ftPRIO_CMD 3 (zeros 80),
        rxOf fcPRIORITY ftPRIO_CMD 11 (zeros 80)],
      (linkUp.takeHeader y).mxlUp = true ∧ (linkUp.takeHeader y).flitKnown y.flit = true ∧ (linkUp.takeHeader y).mxl.pair ≠ .good) ∧
    bitSet 11 3 = true ∧ bitSet 3 3 = false ∧ linkUp.prioHeld < 16 ∧
    16 ≤ ({ linkUp with cmds := List.replicate 16 { cmdOf opSTOP 1 .accepted with ring := 255 } } : State).prioHeld ∧
    (let s : State := { linkUp with mxl := { linkUp.mxl with pair := .good } };
      (s.takeHeader (rxOf fcPRIORITY ftPRIO_CMD 11 (zeros 80))).mxl.pair = .good) := by decide
theorem witness_PrioGood : (rxOf fcPRIORITY ftPRIO_CMD 11 (zeros 80)).flit.crc =
    crc32 (flitBytes (rxOf fcPRIORITY ftPRIO_CMD 11 (zeros 80)).flit) := rfl
theorem witness_MxlLanes : let s : State := { linkUp with mxl := { linkUp.mxl with logical := [0, 1, 2, 3, 4, 5, 6, 7], spare := some 8 } }
    let u := (s.setF MXL_LANES MXL_LANES_good 5).carryLane 6 3
    let v : State := { s with mxl := { s.mxl with spare := none } }
    linkUp.mxl.replay = [] ∧ linkUp.mxl.swap = none ∧ linkUp.mxl.txSwap = none ∧ s.mxlUp = true ∧
    3 ∈ u.mxl.logical ∧ u.mxl.swap = none ∧ u.mxl.spare ≠ none ∧ 8 ∉ u.mxl.logical ∧
    ((v.setF MXL_LANES MXL_LANES_good 5).carryLane 6 3).mxl.spare = none ∧ 0 ≤ s.getF MXL_LANES MXL_LANES_swap_threshold ∧
    s.getF MXL_LANES MXL_LANES_swap_threshold < 70000 := by decide
theorem witness_MxlStates : ∀ st ∈ [0, 1, 2, 3, 4, 5, 6, 7], (State.reset.setF MXL_STATE MXL_STATE_state st).mxlSt = st := by decide
theorem witness_Replay : replaying.mxl.replay = [sentFlit 4, sentFlit 5] ∧ replaying.mxl.sameReplays < 7 ∧
    replaying.mxl.sinceIdle + 2 ≤ 4095 ∧ replaying.mxl.swap = some (3, 64) ∧ replaying.mxlUp = true ∧
    ({ replaying with mxl := { replaying.mxl with txSwap := some (3, 64) } } : State).mxl.txSwap = some (3, 64) := by decide

theorem witness_Fetch : fetchable.powered = true ∧ (fetchable.ringOn 0 && fetchable.skips.contains (0, (fetchable.reg (CMD_RING_HEAD 0)).toNat)) = false ∧
    fetchable.canFetch 0 = true ∧ fetchable.nextRing = some 0 ∧ fetchable.ringOpen 0 = 0 ∧ State.reset.nextRing = none ∧
    fetchable.lastRun < fetchable.ringWeight fetchable.lastRing ∧ (packetOf (zeros 64)).flags % 2 = 0 ∧
    (packetOf (putBytes (zeros 64) 2 [1])).flags % 2 = 1 ∧
    ({ fetchable with cmds := [cmdOf opNOP 0 .accepted] } : State).nextRing = some 0 ∧
    ({ fetchable with cmds := [cmdOf opNOP 0 .accepted] } : State).ringOpen 0 ≠ 0 ∧
    ({ fetchable with lastRing := 63, lastRun := 9 } : State).ringWeight 63 ≤ 9 ∧
    (skipping.ringOn 0 && skipping.skips.contains (0, (skipping.reg (CMD_RING_HEAD 0)).toNat)) = true := by decide
theorem witness_FetchRoster : let c := cmdOf opROSTER_COMMIT 0 .accepted
    c ∈ ((atStage 8 2).accept c false).cmds ∧ opNOP ≠ opROSTER_COMMIT := by decide
theorem witness_Accept : let s := State.reset.setF BRG_STAGE BRG_STAGE_stage 8
    opRow 0xFFFF = none ∧ s.acceptFails (pktOf opNOP 0) false false = none ∧
    (opRow opNOP).map (fun r => (r.ring, r.prio)) = some (true, true) := by decide
theorem witness_AcceptDevice : (opRow opRENUMBER).map (fun r => (r.ring, r.prio, r.device)) = some (true, false, true) ∧
    (opRow opEVACUATE).map (fun r => (r.ring, r.device, strayParam r (pktOf opEVACUATE 0x100) false)) = some (true, false, some (0, 8)) ∧
    (∀ r ∈ opRows, r.stage ≤ 8) ∧ (pktOf opEVACUATE 0x100).flags / 2 = 0 ∧
    (State.reset.setF BRG_STAGE BRG_STAGE_stage 8).stageFails ⟨opEVACUATE, true, false, false, 4, [0xFF]⟩ = false := by decide
theorem witness_Abort : Accepted aborting 0 8 opABORT abortCmd ∧ aborting.findTag 0 7 = some (cmdOf opNOP 0 .accepted) ∧
    notAborted opNOP = false ∧ aborting.pastCommit (cmdOf opNOP 0 .accepted) = false ∧ aborting.pastCommit (cmdOf opNOP 0 .committed) = true ∧
    notAborted opSTOP = true := by decide
theorem witness_AbortNone : let s : State := { fetchable with cmds := [abortCmd] }
    Accepted s 0 8 opABORT abortCmd ∧ s.findTag 0 7 = none ∧ s.isPending 0 0 = true ∧ s.done.any (fun d => d.ring == 0 && d.tag == 7) = false ∧
    (packetOf (putBytes (zeros 64) 4 [7])).tag = 7 ∧ notAborted opRESET = true ∧ notAborted opNOP = false ∧
    (∀ o ∈ [opNOP, opRESET], ({ s with done := [{ ring := 0, tag := 7, opcode := o, status := 0 }] } : State).done.reverse.find?
      (fun d => d.ring == 0 && d.tag == 7) = some ⟨0, 7, o, 0⟩) := by decide

theorem witness_CourseLoad : let c := cmdOf opCOURSE_LOAD 0 .accepted
    Accepted (given c) 0 7 opCOURSE_LOAD c ∧ ((given c).readObject 0 0).1 = ([], 0) ∧ (given c).formatFails [] 0 0 = true ∧
    ((given c).readObject (2 ^ 58) 4).1.2 ≠ 0 := by decide

theorem witness_Exam : let c := cmdOf3 opEXAM 1 0 0 .accepted
    let d := cmdOf3 opEXAM 1 0x100 0 .accepted
    Accepted (given c) 0 7 opEXAM c ∧ (given c).partOfForm 0 = 0 ∧ bitSet 0x100 8 = true ∧ bitSet 0 8 = false ∧
    (given c).bring.exam = none ∧ Accepted (loaded d) 0 7 opEXAM d ∧ (loaded d).courseLoaded 0 = true ∧ (paged d).courseLoaded 0 = false ∧
    (paged d).seqOpenIn 0 = true ∧ ((given c).setF CMD_PART CMD_PART_count 4).partOfForm 4 ≠ 0 := by decide
theorem witness_AutoExam : autoExam.serviceOpen (autoExam.partOfForm (0 / 18)) = true ∧ autoExam.stageIs 8 2 = true ∧ autoExam.flag BRG_EXAM_CTRL BRG_EXAM_CTRL_auto = true ∧
    autoExam.bring.autoSeat = none ∧ autoExam.nextAuto.isSome = true := by decide
theorem witness_ExamDone : examining.bring.exam = some ⟨0, 7, 0, []⟩ ∧ examining.findTag 0 7 = some (cmdOf3 opEXAM 1 0 0 .committed) ∧
    (({ examining with bring := { examining.bring with exam := none } } : State).afterExam 0 (examining.spares 0)).findTag 0 7 =
      some (cmdOf3 opEXAM 1 0 0 .committed) := by decide
theorem witness_Evacuate : let c := cmdOf opEVACUATE 0 .accepted
    Accepted (seatedWith c) 0 7 opEVACUATE c ∧ (seatedWith c).partOfLt 0 = 0 ∧ (seatedWith c).evacPending 0 = false ∧
    ((seatedWith c).setEvacPending 0 true).evacPending 0 = true ∧ (seatedWith c).bring.evac = none ∧ (seatedWith c).courseRunning 0 = false ∧
    (inCourse c).courseRunning 0 = true ∧ (seatedWith c).present 0 = true ∧ ((seatedWith c).nextSubstitute 0).isSome = true ∧
    ((seatedWith c).setF CMD_PART CMD_PART_count 4).partOfLt 255 ≠ 0 := by decide
theorem witness_NoSpare : (forEach (List.range 18) (seatedWith (cmdOf opEVACUATE 0 .accepted)) (fun s k => s.setSeat k 2 1 0)).nextSubstitute
    (ltForm 0) = none := by decide
theorem witness_AreaRestore : let c := cmdOf opAREA_RESTORE 0 .accepted
    let s := (seatedWith c).setB (TRN_STATUS_LT 0) TRN_STATUS_LT_area_lost true
    Accepted s 0 7 opAREA_RESTORE c ∧ s.courseRunning 0 = false ∧ s.flag (TRN_STATUS_LT 0) TRN_STATUS_LT_area_lost = true ∧ c.pkt.p1 = 0 ∧
    (seatedWith c).flag (TRN_STATUS_LT 0) TRN_STATUS_LT_area_lost = false ∧ s.leafTotal ≤ 4096 ∧ s.areaBytes < 2 ^ 19 := by decide
theorem witness_Renumber : let c := cmdOf opRENUMBER 0 .accepted
    Accepted (given c) 0 7 opRENUMBER c ∧ (given c).anyLoaded = false ∧ (loaded c).anyLoaded = true ∧ (paged c).anySeqOpen = true ∧
    (given c).anySeqOpen = false ∧ (given c).partCount = 1 ∧ (given c).goodOf 0 = 18 ∧ (given c).partOfForm 0 = 0 ∧
    (given c).excluded 15 = false ∧ (given c).willExclude 15 = true := by decide

theorem witness_I3c : managed.powered = true ∧ managed.i3cAddr = 0x4A ∧ State.reset.i3cAddr = 0 ∧
    bitSet (Nat.lor managed.mgmt.events (1 % 256)) 0 = true ∧ bitSet (Nat.lor 0 (2 % 256)) 0 = false ∧
    managed.clock.resetPending = none ∧ { resetting with regs := managed.regs }.i3cAddr = 0x4A ∧ resetting.clock.resetPending.isSome = true ∧
    1 % 256 + 254 % 256 = 255 ∧ 1 % 256 + 1 % 256 ≠ 255 ∧
    ((managed.setF BRG_STAGE BRG_STAGE_state 3).getF BRG_STAGE BRG_STAGE_state == 3) = true ∧
    (State.reset.getF BRG_STAGE BRG_STAGE_state == 3 || State.reset.getF BRG_STAGE BRG_STAGE_state == 4) = false := by decide

theorem witness_Tap : State.reset.anyLoaded = false ∧ State.reset.mxlUp = false ∧ linkUp.mxlUp = true ∧
    (loaded (cmdOf opNOP 0 .accepted)).anyLoaded = true ∧ State.reset.mgmt.instOp = none ∧
    (instrument 1 0 0x40).mgmt.instOp.isSome = true ∧ (0x40 : Nat) % 4 = 0 := by decide
theorem witness_Instrument : (instrument 1 0 0x40).mgmt.instOp = some (1, 0, 0x40, 9) ∧ (instrument 2 0 0x40).mgmt.instOp = some (2, 0, 0x40, 9) ∧
    (instrument 1 3 0x40).mgmt.instOp = some (1, 3, 0x40, 9) ∧ (instrument 1 1 0).mgmt.instOp = some (1, 1, 0, 9) ∧
    (instrument 1 1 0).present 0 = true ∧ (instrument 1 1 0).courseRunning ((instrument 1 1 0).partOfLt 0) = false ∧
    (instrument 1 1 0).openBell ((instrument 1 1 0).partOfLt 0) = true ∧
    ((instrument 1 1 0).setB (BELL_CRS_STATE 0) BELL_CRS_STATE_open false).openBell 0 = false := by decide
theorem witness_Trace : let c := cmdOf opTRACE_CONFIG 0 .accepted
    let b := leBytes 8 aliasBase ++ leBytes 4 4096 ++ [1] ++ zeros 19
    Accepted (given c) 0 7 opTRACE_CONFIG c ∧ leAt b 0x0C 4 ≠ 0 ∧ setupGood b = true ∧ setupGood (zeros 32) = false ∧
    leAt (zeros 32) 0x0C 4 = 0 ∧ (given c).flag TRC_STATUS TRC_STATUS_running = false ∧
    ((given c).setB TRC_STATUS TRC_STATUS_running true).flag TRC_STATUS TRC_STATUS_running = true := by decide

theorem witness_Pairs : State.reset.powered = true ∧ State.reset.distrusts 0 = false ∧ State.reset.distrusts 1 = false ∧
    distrusting.distrusts 0 = true ∧ distrusting.distrusts 1 = true ∧ distrusting.distrusts 2 = false ∧
    (distrusting.setB (THM_SENSOR 1) THM_SENSOR_suspect false).distrusts 1 = false ∧
    (distrusting.setB (THM_SENSOR 0) THM_SENSOR_suspect false).distrusts 0 = false := by decide
theorem witness_Canary : regionDie 57 = 1 ∧ distrusting.therm.modelValid = true ∧
    ((distrusting.sensorValue 57 (List.replicate 741 1290)).1 + 48 < 4 * 352) ∧ regionDie 3 ≠ 1 ∧ absDiff 1290 0 = 1290 ∧
    tgetD distrusting.therm.far 4 0 = 15 ∧ distrusting.suspect 4 = false ∧ tgetD distrusting.therm.near 0 0 = 4095 ∧
    distrusting.suspect 0 = true ∧ tgetD distrusting.therm.apart 9 0 = 15 ∧ distrusting.modelAt 57 = 1400 ∧
    tgetD distrusting.therm.canary 57 0 = 352 := by decide
theorem witness_Trip : 16 * State.reset.tripLimit (sensorRegion 0) ≤ 4096 ∧ 0 < 16 * State.reset.tripLimit (sensorRegion 0) := by decide

theorem witness_Forecast : atPoint.powered = true ∧ (List.range 4).filter atPoint.atRecessPoint ≠ [] ∧ State.reset.atRecessPoint 0 = false ∧
    State.reset.therm.limitReached = false ∧ largestOf [(3, 7), (5, 9), (6, 9)] = some (5, 9) ∧ 0 < 4 * State.reset.throttleLimit 0 := by decide
theorem witness_Limit : let s := State.reset.setF (THM_REGION 2) THM_REGION_adopted 400
    largestOf (((List.range 88).map (fun g => (g, s.adopted g))).filter (fun x => decide (4 * s.throttleLimit x.1 ≤ x.2 + 4))) =
      some (2, 400) := by decide
theorem witness_Coolant : State.reset.variant = .ahn4W ∧ State.reset.therm.samples < 1024 ∧ declining.variant = .ahn4W ∧
    1024 ≤ declining.therm.samples ∧ declining.flag THM_COOLANT THM_COOLANT_decline = false ∧
    (declining.getF THM_COOLANT_CTRL THM_COOLANT_CTRL_threshold : Int) * (697 * declining.flow * declining.therm.samples : Nat) <
      declining.therm.riseSum * (697 * declining.flow : Nat) - 400 * declining.therm.powerSum ∧
    min 16 (declining.therm.declineCount + 1) = 16 := by decide

theorem witness_TileFails : seated.powered = true ∧ seated.present 0 = true ∧ seated.bring.substs.any (fun x => x.lt == 0) = false ∧
    failing.bring.substs.any (fun x => x.lt == 0) = true ∧ seated.present 1 = false ∧
    failing.bring.substs.find? (fun y => y.lt == 0) = some { lt := 0, test := 5, bell := 0 } ∧ (∃ y ∈ failing.bring.substs, y.lt / 16 = 3 / 16 ∧ y.lt < 3) ∧
    ((seated.setSeat (seated.seatOf 0) 2 5 0).nextSubstitute (ltForm 0)).isSome = true ∧
    (forEach (List.range 18) seated (fun s k => s.setSeat k 2 1 0)).present 0 = true := by decide
theorem witness_Threshold : (seated.setF BRG_SUB_CTRL BRG_SUB_CTRL_threshold 0).getF BRG_SUB_CTRL BRG_SUB_CTRL_threshold = 0 ∧
    seated.bellCount < (seated.tile 0).errBell + 1024 ∧ (seated.tile 0).errBase ≤ seated.tileErrors 0 ∧
    (let s := ((seated.setF BRG_SUB_CTRL BRG_SUB_CTRL_threshold 3).setF (MXE_ERRORS_LT 0) MXE_ERRORS_LT_acc_uncorrected 3)
     s.getF BRG_SUB_CTRL BRG_SUB_CTRL_threshold = 3 ∧ (s.tile 0).errBase + 3 ≤ s.tileErrors 0) ∧
    (seated.tile 0).errBell + 1024 ≤ (seated.setPair BELL_COUNT_LO 2000).bellCount := by decide

theorem witness_StagesToMemory : (atStage 1 0).powered = true ∧ (atStage 1 0).stageIs 1 0 = true ∧
    (∀ k ∈ [0, 1, 2], ({ State.reset with bring := { State.reset.bring with carry :=
      { State.reset.bring.carry with alts := [0, 1, 2] } } } : State).setFailed k = true) ∧
    (atStage 2 0).powered = true ∧ (atStage 2 0).stageIs 2 0 = true ∧ (∀ i, i < 8 → (atStage 2 0).altInForce i = false) ∧ 3 < 4 ∧
    (atStage 2 0).flag MXL_STATE MXL_STATE_enable = true ∧ (atStage 2 0).mxlSt = 0 ∧
    [(0, 0), (0, 1)].contains (0, 0) = true ∧ [(0, 0), (0, 1)].contains (0, 1) = true ∧ atS2.powered = true ∧
    atS2.stageIs 2 1 = true ∧ atS2.mxlUp = true ∧ (atStage 3 0).powered = true ∧ (atStage 3 0).stageIs 3 0 = true ∧
    (atStage 8 2).powered = true ∧ (atStage 8 2).stageIs 1 0 = false ∧ (atStage 8 2).stageIs 2 0 = false ∧
    (atStage 8 2).stageIs 2 1 = false ∧ (atStage 8 2).stageIs 3 0 = false := by decide

theorem witness_StagesToReady : (atStage 4 0).powered = true ∧ (atStage 4 0).stageIs 4 0 = true ∧ 15 < 16 ∧ [15].contains 15 = true ∧
    287 < 288 ∧ (atStage 4 0).seatStatus 287 ≠ 1 ∧ 0 < 63 ∧ 63 < 64 ∧ (atStage 5 0).powered = true ∧
    (atStage 5 0).stageIs 5 0 = true ∧ BitVec.ofNat 32 1 ≠ (atStage 5 0).reg SEC_STEPPING ∧
    BitVec.ofNat 32 0 = (atStage 5 0).reg SEC_STEPPING ∧ (atStage 5 0).sec.licences = [] ∧ (atStage 6 0).powered = true ∧
    (atStage 6 0).stageIs 6 0 = true ∧ ((atStage 6 0).setB (PORT_STATE 5) PORT_STATE_licensed true).flag (PORT_STATE 5) PORT_STATE_licensed = true ∧
    (atStage 6 0).flag (PORT_STATE 5) PORT_STATE_enable = true ∧ (atStage 6 0).altInForce 321 = false ∧ (atStage 6 0).portAlone 5 = false ∧ atS6.portAlone 5 = false ∧
    ({ atStage 6 0 with map := { State.reset.map with loaded := true, nz := 1 } } : State).portAlone 5 = true ∧ atS6.powered = true ∧
    atS6.stageIs 6 1 = true ∧ atS6.map.loaded = true ∧ atS6.flag (PORT_STATE 5) PORT_STATE_licensed = true ∧
    atS6.flag (PORT_STATE 5) PORT_STATE_enable = true ∧ atS6.altInForce 321 = false ∧ atS6.portSt 5 = 9 ∧
    (atStage 8 0).powered = true ∧ (atStage 8 0).stageIs 8 0 = true ∧ (atStage 8 2).powered = true ∧ (atStage 8 2).stageIs 4 0 = false ∧
    (atStage 8 2).stageIs 5 0 = false ∧ (atStage 8 2).stageIs 6 0 = false ∧ (atStage 8 2).stageIs 6 1 = false ∧
    (atStage 8 2).stageIs 8 0 = false := by decide

theorem witness_RegisterClears : State.reset.powered = true ∧ fldGet 0x80000000 BELL_STRETCH_clear_peak = 1 ∧
    fldGet 0x80000000 BELL_OVERRUN_COUNT_clear = 1 ∧ fldGet 0x80000000 NBU_TOKENS_clear_peak = 1 ∧
    fldGet 0x80000000 ARI_SUMMARY_clear_all = 1 ∧ 255 < 256 ∧ State.reset.excluded (ltForm 255) = false ∧ 5 < 6 ∧ 3 < 4 ∧
    15 < 16 ∧ 7 < 8 := by decide

theorem witness_RegisterRules : State.reset.powered = true ∧ State.reset.anyLoaded = false ∧ running.powered = true ∧
    running.anyLoaded = true ∧ 255 < 256 ∧ State.reset.excluded (ltForm 255) = false ∧ fldGet 0x3F7 UPD_SHADOW_base ≤ 0x3F7 ∧
    fldGet 0x3F7 UPD_SHADOW_enable = 0 ∧ fldGet 0x800003F7 UPD_SHADOW_base ≤ 0x3F7 ∧ fldGet 0x800003F7 UPD_SHADOW_enable = 1 ∧
    0x3F7 < fldGet 0x3F8 UPD_SHADOW_base ∧ 63 < 64 ∧ ringed.flag (CMD_RING_CFG 0) CMD_RING_CFG_enable = true ∧
    ringed.flag (CMD_RING_CFG 63) CMD_RING_CFG_enable = false ∧ fetchable.flag (CPL_RING_CFG 0) CPL_RING_CFG_enable = true ∧
    ringUsed (State.reset.reg (CPL_RING_HEAD 63)).toNat (0 : Word).toNat ≤
      ringUsed (State.reset.reg (CPL_RING_HEAD 63)).toNat (State.reset.reg (CPL_RING_TAIL 63)).toNat ∧
    ringUsed (State.reset.reg (CPL_RING_HEAD 63)).toNat (State.reset.reg (CPL_RING_TAIL 63)).toNat <
      ringUsed (State.reset.reg (CPL_RING_HEAD 63)).toNat (1 : Word).toNat ∧ 7 < 8 ∧
    (State.reset.setB (EVT_RING_CFG 7) EVT_RING_CFG_enable true).flag (EVT_RING_CFG 7) EVT_RING_CFG_enable = true ∧
    State.reset.flag (EVT_RING_CFG 7) EVT_RING_CFG_enable = false ∧
    ringUsed (State.reset.reg (EVT_RING_HEAD 7)).toNat (0 : Word).toNat ≤
      ringUsed (State.reset.reg (EVT_RING_HEAD 7)).toNat (State.reset.reg (EVT_RING_TAIL 7)).toNat ∧
    ringUsed (State.reset.reg (EVT_RING_HEAD 7)).toNat (State.reset.reg (EVT_RING_TAIL 7)).toNat <
      ringUsed (State.reset.reg (EVT_RING_HEAD 7)).toNat (1 : Word).toNat := by decide

theorem witness_RegisterAccesses : State.reset.powered = true ∧ BELL_COUNT_LO ∈ loPairs ∧
    tfind State.reset.shadows (shadowKey 1 BELL_COUNT_LO) = none ∧
    ({ State.reset with shadows := tput State.reset.shadows (shadowKey 1 (BELL_COUNT_LO + 4)) (State.reset.regRead (BELL_COUNT_LO + 4)) } :
      State).powered = true ∧
    5 < 6 ∧
    fldGet (BitVec.ofNat 32 0xFFFFFFBF) PORT_STATE_enable = 0 ∧ fldGet (BitVec.ofNat 32 0xFFFFFFBF) MXL_STATE_enable = 0 := by decide

theorem witness_CompletesPower : State.reset.powered = true ∧ rising.power.phase = .rising ∧ latched.power.phase = .latched ∧
    gated.power.phase = .on ∧ gated.clock.gateClosed = true ∧ held.powered = true ∧ held.flag CLK_REF CLK_REF_holdover = true ∧
    1024 ≤ 1024 ∧ resetting.resetDue = true ∧
    ({ State.reset with energy := { EnergySt.reset with counted := false } } : State).energy.counted = false ∧ gating.clock.resetBegun = true ∧
    gating.powered = true ∧ 3 < 4 := by decide
theorem witness_CompletesCommands : (∀ op ∈ opRows.map (·.code), op ≠ opSTOP →
      Accepted (given (cmdOf op 0 .accepted)) 0 7 op (cmdOf op 0 .accepted) ∧
      (given (cmdOf op 0 .active)).findCmd 0 7 op = some (cmdOf op 0 .active)) ∧
    Accepted { State.reset with cmds := [stopOf .accepted] } 255 7 opSTOP (stopOf .accepted) ∧
    ({ State.reset with cmds := [stopOf .committed] } : State).findCmd 255 7 opSTOP = some (stopOf .committed) ∧
    (given (cmdOf opCOUNTERS_CLEAR 0 .committed)).findCmd 0 7 opCOUNTERS_CLEAR = some (cmdOf opCOUNTERS_CLEAR 0 .committed) ∧
    (starting opCOURSE_START).pendingStart 0 = some (cmdOf opCOURSE_START 6 .active) ∧
    (starting opCOURSE_RESUME).pendingStart 0 = some (cmdOf opCOURSE_RESUME 6 .active) ∧
    (secWriting opIMAGE_ACTIVATE []).sec.job.isSome = true ∧ (secWriting opIMAGE_ACTIVATE []).atCourseBoundary = true ∧
    (secWriting opIMAGE_ACTIVATE []).findTag 0 7 = some (cmdOf opIMAGE_ACTIVATE 0 .active) ∧
    (paged (cmdOf3 opSEQ_OPEN 2 1 1 .active)).findTag 0 7 = some (cmdOf3 opSEQ_OPEN 2 1 1 .active) ∧ isPageOp opSEQ_OPEN = true := by
  decide
theorem witness_CompletesEngines : ((tileRuns (mxeProg 0x81)).mxeDesc 0 0 moLOAD).isSome = true ∧
    ((tileRuns (mxeProg 0x82)).mxeDesc 0 0 moPASS).isSome = true ∧ ((tileRuns (mxeProg 0x83)).mxeDesc 0 0 moSEND).isSome = true ∧
    VeReady (tileRuns (veProg 0x81)) 0 0 voRUN 0x81 ∧ VeReady (tileRuns (veProg 0x82)) 0 0 voTABLE 0x82 ∧
    VeReady (tileRuns (veProg 0x83)) 0 0 voCACHE 0x83 ∧ SlateReady (issuing 0x02) 0 (slateRun 0x02 2) (slateOf 0x02) 12 ∧
    SlateReady (issuing 0x00) 0 (slateRun 0x00 2) (slateOf 0x00) 12 ∧ (slateOf 0x02).op = 0x02 ∧ (slateOf 0x00).op = 0 ∧
    ((tileRuns (movProg 0x81)).movEntry 0 0 1).isSome = true ∧ ((tileRuns (movProg 0x82)).movEntry 0 0 2).isSome = true ∧
    seated.alive 0 = true ∧ (sequencing 1 0).findSeq 0 0 0 = some (seqRun 1) ∧ (∀ k ∈ [1, 2, 3, 4, 5], sqOp k = k) := by decide
theorem witness_CompletesCores :
    CoreReady (coreAt (word3 0x01 0) 5 7) { coreAt (word3 0x01 0) 5 7 with cyc := 0 } 0 0x100 (word3 0x01 0) 0 ∧
    CoreReady (coreAt (0x310 + 2 ^ 13) 0x2000 0) { coreAt (0x310 + 2 ^ 13) 0x2000 0 with cyc := 0 } 0 0x10 (0x310 + 2 ^ 13) 0 ∧
    ({ coreAt (0x310 + 2 ^ 13) 0x2000 0 with cyc := 0 } : State).coreAddr ⟨0, 0x310 + 2 ^ 13, 0⟩ = 0x2000 ∧
    coreArea 0x2000 = .localMem 0x2000 := by
  and_intros <;> first | decide | rfl
theorem witness_CompletesLinks : (∀ op ∈ [poSEND, poRECV, poREDUCE, poRELAY, poVSEND, poVADD, poVSIGN],
      (porting op).portWork 0 0 0 op = some ⟨0, 0, op, 0, 0⟩) ∧
    (∀ t ∈ [6, 7, 1], symGood t (mkSym t 1 0 0 0) false = true ∧ (porting 1).symHeard 0 t = true) ∧
    (∀ t ∈ [8, 9], symGood t (mkSym t 1 0 0 0) false = true ∧ (State.reset.setF (PORT_STATE 0) PORT_STATE_state 4).symHeard 0 t = true) ∧
    (porting 1).portUp 0 = true ∧ (State.reset.setF (PORT_STATE 0) PORT_STATE_state 1).portSt 0 = 1 ∧
    (let s := (porting 1).modPort 0 (fun t => { t with svcQueue := [frameOf fkWRITE] });
      (s.port 0).svcQueue = [frameOf fkWRITE] ∧ (frameOf fkWRITE).kind = fkWRITE ∧
      (frameOf fkWRITE).dst = ((s.modPort 0 (fun t => { t with svcQueue := [] })).returnCredit 0).deviceId) ∧
    (let m : CnetMsg := { dest := 0x100, src := 0, bcast := false, typ := 5, prio := false, seat := none, second := false, payload := 0
                          words := [] };
      cnetVoid m = false) := by decide
theorem witness_CompletesFlits :
    (∀ x ∈ [rxOf fcCOMMAND ftDOORBELL 3 [], rxOf fcCOMMAND ftREG_READ 3 [], rxOf fcCOMMAND ftREG_WRITE 3 [], rxOf fcBULK ftMEM_READ 3 [],
        rxOf fcBULK ftMEM_WRITE 3 [], rxOf fcBULK ftHOST_DATA 3 [], rxOf fcPRIORITY ftPRIO_CMD 3 [], rxOf fcIDLE ftIDLE 3 []],
      linkUp.mxlUp = true ∧ (linkUp.takeHeader x).mxlUp = true ∧ (linkUp.takeHeader x).flitKnown x.flit = true ∧
      x.flit.seq = ((linkUp.takeHeader x).mxl.rxSeq + 1) % 4096 ∧ (linkUp.takeHeader x).mxl.cmdGrant ≠ 0 ∧
      (linkUp.takeHeader x).mxl.bulkGrant ≠ 0 ∧ bitSet x.flit.flags 0 = true ∧ bitSet x.flit.flags 1 = true) ∧
    replaying.mxl.replay ≠ [] ∧ (State.reset.setF MXL_STATE MXL_STATE_state 7).mxlSt = 7 := by decide
theorem witness_CompletesRest : (∀ k ∈ [1, 3, 4, 5, 8], (atStage k 0).stageIs k 0 = true) ∧ autoExam.stageIs 8 2 = true ∧ autoExam.examOpen = true ∧
    seated.present 0 = true ∧ failing.firstDue 0 = true ∧ State.reset.i3cAddr = 0 ∧ managed.i3cAddr ≠ 0 ∧
    managed.clock.resetPending = none ∧ State.reset.extestOk = true ∧ State.reset.excluded (ltForm 255) = false ∧
    accessGood BELL_COUNT_LO 4 = true ∧ accessGood BELL_COUNT_LO 2 = false := by decide

end Sys2Proof.Machine.Tests
end

section
/-! The sequence number of events (15 R397, R398): a raised event takes it and counts it up, and nothing else that the raising does
loads EVT_SEQ. -/

namespace Sys2Proof.Machine

theorem emitFlit_regs (s : State) (f : Flit) : (s.emitFlit f).regs = s.regs := by
  unfold State.emitFlit
  split <;> rfl

theorem sendNext_regs (s : State) (t : TxFlit) : (s.sendNext t).regs = s.regs := by
  unfold State.sendNext
  dsimp only
  split <;> simp only [emitFlit_regs]

theorem flitPump_regs (k : Nat) (s : State) : (flitPump k s).regs = s.regs := by
  induction k generalizing s with
  | zero => rfl
  | succ k ih =>
    unfold flitPump
    split
    · rw [ih, sendNext_regs]
    · rfl

theorem mxlFlush_regs (s : State) : s.mxlFlush.regs = s.regs := by
  unfold State.mxlFlush
  split
  · exact flitPump_regs _ s
  · rfl

/-- A message to the host loads no register. -/
@[simp] theorem mxlSend_regs (s : State) (x : Msg) : (s.mxlSend x).regs = s.regs := mxlFlush_regs _

theorem raiseIbi_regs (s : State) (b : Nat) : (s.raiseIbi b).regs = s.regs := by
  unfold State.raiseIbi
  split <;> rfl

theorem evtSeq_ne_tail (e : Nat) : EVT_SEQ ≠ EVT_RING_TAIL e := by unfold EVT_SEQ EVT_RING_TAIL; omega

theorem evtSeq_ne_lost (e : Nat) : EVT_SEQ ≠ EVT_RING_LOST e := by unfold EVT_SEQ EVT_RING_LOST; omega

theorem evWrite_reg (s : State) (e n : Nat) (r : EvRec) {a : Nat} (ha : a ≠ EVT_RING_TAIL e) :
    (s.evWrite e n r).reg a = s.reg a := by
  show (State.setReg _ _ _).reg a = _
  rw [reg_setReg, if_neg ha]
  exact reg_congr (mxlSend_regs _ _) a

/-- Handing a record to ring e loads at most the tail and the count of losses of that ring. -/
theorem evOffer_reg (s : State) (e n : Nat) (r : EvRec) {a : Nat} (ht : a ≠ EVT_RING_TAIL e) (hl : a ≠ EVT_RING_LOST e) :
    (s.evOffer e n r).reg a = s.reg a := by
  unfold State.evOffer
  split
  · exact evWrite_reg s e n r ht
  · split
    · rfl
    · exact (reg_setF s _ _ _ a).trans (if_neg hl)

theorem evRoute_evtSeq (s : State) (r : EvRec) : (s.evRoute r).reg EVT_SEQ = s.reg EVT_SEQ := by
  unfold State.evRoute
  dsimp only
  split
  · exact (reg_setF s _ _ _ _).trans (if_neg (by decide))
  · exact foldl_keeps (P := fun u => u.reg EVT_SEQ = s.reg EVT_SEQ) _
      (fun u e hu => (evOffer_reg u e _ r (evtSeq_ne_tail e) (evtSeq_ne_lost e)).trans hu) rfl

theorem trace_evtSeq (s : State) (src : Nat) (code node data : Option Nat) :
    (s.trace src code node data).reg EVT_SEQ = s.reg EVT_SEQ := by
  unfold State.trace
  split
  · rfl
  · split
    · exact (reg_setF s _ _ _ _).trans (if_neg (by decide))
    · rfl

theorem alertIbi_evtSeq (s : State) : s.alertIbi.reg EVT_SEQ = s.reg EVT_SEQ := by
  unfold State.alertIbi
  split
  · rfl
  · calc
      _ = (s.raiseIbi 2).reg EVT_SEQ := (reg_setF _ _ _ _ _).trans (if_neg (by decide))
      _ = s.reg EVT_SEQ := reg_congr (raiseIbi_regs s 2) _

/-- An event takes the sequence number, and the next one is one higher, modulo 2^32. -/
theorem raiseWith_evtSeq (s : State) (late : Bool) (code part kind unit d0 d1 d2 d3 : Nat) :
    (s.raiseWith late code part kind unit d0 d1 d2 d3).reg EVT_SEQ = s.reg EVT_SEQ + 1 := by
  have hnext : BitVec.ofNat 32 ((s.reg EVT_SEQ).toNat + 1) = s.reg EVT_SEQ + 1 := by
    rw [BitVec.ofNat_add, BitVec.ofNat_toNat, BitVec.setWidth_eq]
    rfl
  unfold State.raiseWith
  dsimp only
  split <;> simp only [alertIbi_evtSeq, trace_evtSeq, evRoute_evtSeq, reg_setReg, if_true, hnext]

theorem raise_evtSeq (s : State) (code part kind unit d0 d1 d2 d3 : Nat) :
    (s.raise code part kind unit d0 d1 d2 d3).reg EVT_SEQ = s.reg EVT_SEQ + 1 := raiseWith_evtSeq ..

/-- A field of a register that the raising of events does not load. -/
theorem Reports.getF {u t : State} (h : Reports u t) {a : Nat} (ha : eventReg a = false) (f : Fld) : t.getF a f = u.getF a f := by
  unfold State.getF
  rw [h.2 a ha]

theorem Reports.flag {u t : State} (h : Reports u t) {a : Nat} (ha : eventReg a = false) (f : Fld) : t.flag a f = u.flag a f := by
  unfold State.flag
  rw [h.getF ha]

end Sys2Proof.Machine
end

section
/-! Register accesses (00 R11, 15 R415). -/

namespace Sys2Proof.Machine

theorem accessGood_iff {a width : Nat} : accessGood a width = true ↔ width = 4 ∧ a % 4 = 0 ∨ width = 8 ∧ a % 8 = 0 := by
  simp [accessGood]

theorem accessGood_eq_false {a width : Nat} (h4 : ¬(width = 4 ∧ a % 4 = 0)) (h8 : ¬(width = 8 ∧ a % 8 = 0)) :
    accessGood a width = false := by
  rw [← Bool.not_eq_true, accessGood_iff]
  exact not_or.mpr ⟨h4, h8⟩

theorem accessWrite_bad {a width : Nat} (hbad : accessGood a width = false) (s : State) (v now : Nat) :
    s.accessWrite a width v now = s.accessError a width true := by simp [State.accessWrite, hbad]

theorem accessWrite_4 {a : Nat} (h : a % 4 = 0) (s : State) (v now : Nat) :
    s.accessWrite a 4 v now = s.regWrite a (BitVec.ofNat 32 v) (BitVec.ofNat 32 now) := by
  simp [State.accessWrite, accessGood_iff.mpr (.inl ⟨rfl, h⟩)]

theorem accessWrite_8 {a : Nat} (h : a % 8 = 0) (s : State) (v now : Nat) :
    s.accessWrite a 8 v now = (s.regWrite a (BitVec.ofNat 32 v) (BitVec.ofNat 32 now)).regWrite (a + 4)
      (BitVec.ofNat 32 (v / 2 ^ 32)) (BitVec.ofNat 32 (now / 2 ^ 32)) := by
  simp [State.accessWrite, accessGood_iff.mpr (.inr ⟨rfl, h⟩)]

theorem accessRead_bad {a width : Nat} (hbad : accessGood a width = false) (s : State) (req : Nat) :
    s.accessRead req a width = (0, s.accessError a width false) := by simp [State.accessRead, hbad]

/-- A 4-byte read with no shadow in force returns the register, whether or not it leaves a shadow of the HI register. -/
theorem accessRead_4 {s : State} {req a : Nat} (h : a % 4 = 0) (hshadow : tfind s.shadows (shadowKey req a) = none) :
    (s.accessRead req a 4).1 = (s.regRead a).toNat := by
  simp only [State.accessRead, accessGood_iff.mpr (.inl ⟨rfl, h⟩), hshadow]
  simp [apply_ite Prod.fst]

theorem accessRead_8 {a : Nat} (h : a % 8 = 0) (s : State) (req : Nat) :
    s.accessRead req a 8 = ((s.regRead a).toNat + 2 ^ 32 * (s.regRead (a + 4)).toNat, s) := by
  simp [State.accessRead, accessGood_iff.mpr (.inr ⟨rfl, h⟩)]

theorem exec_registerWrite_good {s : State} (hon : s.powered = true) {a width : Nat} (hgood : accessGood a width = true) (x : DataWrite) :
    exec (.registerWrite a width x) s = .next (s.accessWrite a width x.v x.now) := by
  rw [exec_registerWrite, execRegisterWrite, live_on hon, if_pos hgood]

theorem exec_registerWrite_bad {s : State} (hon : s.powered = true) {a width : Nat} (hbad : accessGood a width = false) (x : DataWrite) :
    exec (.registerWrite a width x) s = .next s := by
  simp [execRegisterWrite, live_on hon, hbad]

theorem exec_registerAccessError_bad {s : State} (hon : s.powered = true) {a width : Nat} (hbad : accessGood a width = false)
    (write : Bool) : exec (.registerAccessError a width write) s = .next (s.accessError a width write) := by
  simp [execRegisterAccessError, live_on hon, hbad]

/-- Counting an access error leaves the arming bit of its register. -/
theorem flag_incF_accessErr (s : State) : (s.incF REG_ACCESS_ERR REG_ACCESS_ERR_count 1).flag REG_ACCESS_ERR REG_ACCESS_ERR_event_armed =
    s.flag REG_ACCESS_ERR REG_ACCESS_ERR_event_armed := by
  unfold State.flag State.incF
  rw [getF_setF_other _ _ _ _ _ _ (by decide) (.inr (by decide))]

theorem accessError_armed {s : State} (harmed : s.flag REG_ACCESS_ERR REG_ACCESS_ERR_event_armed = true) (a width : Nat) (write : Bool) :
    s.accessError a width write = s.incF REG_ACCESS_ERR REG_ACCESS_ERR_count 1 := by
  simp [State.accessError, flag_incF_accessErr, harmed]

/-- The state in which the first access error since the arming is reported: counted, and the arming taken. -/
def State.accessErrorNoted (s : State) : State :=
  (s.incF REG_ACCESS_ERR REG_ACCESS_ERR_count 1).setB REG_ACCESS_ERR REG_ACCESS_ERR_event_armed true

theorem accessErrorNoted_flag (s : State) : s.accessErrorNoted.flag REG_ACCESS_ERR REG_ACCESS_ERR_event_armed = true := by
  unfold State.flag State.accessErrorNoted State.setB
  rw [getF_setF _ _ _ _ (by decide)]
  rfl

theorem accessErrorNoted_count (s : State) : s.accessErrorNoted.getF REG_ACCESS_ERR REG_ACCESS_ERR_count =
    min 65535 (s.getF REG_ACCESS_ERR REG_ACCESS_ERR_count + 1) := by
  unfold State.accessErrorNoted State.setB State.incF
  rw [getF_setF_other _ _ _ _ _ _ (by decide) (.inr (by decide)), getF_setF _ _ _ _ (by decide)]
  simp only [REG_ACCESS_ERR_count]
  omega

theorem accessErrorNoted_evtSeq (s : State) : s.accessErrorNoted.reg EVT_SEQ = s.reg EVT_SEQ := by
  unfold State.accessErrorNoted State.setB State.incF
  rw [reg_setF, if_neg (by decide), reg_setF, if_neg (by decide)]

theorem accessError_unarmed {s : State} (harmed : s.flag REG_ACCESS_ERR REG_ACCESS_ERR_event_armed = false) (a width : Nat)
    (write : Bool) : s.accessError a width write = s.accessErrorNoted.raise evRegAccess 255 0 0 a width (boolNat write) 0 := by
  simp [State.accessError, State.accessErrorNoted, flag_incF_accessErr, harmed]

/-- Settles O1: an access of a served width and alignment reaches its registers by the equations of accessRead and accessWrite; any
other one is an access error, whose count and arming the reporting event leaves alone. -/
theorem accessWidths : Obligations.AccessWidths := by
  unfold Obligations.AccessWidths
  intro s req a width v now write hon
  refine ⟨fun h4 => ⟨?_, accessRead_4 h4⟩, fun h8 => ⟨?_, ?_, ?_⟩, fun h4 h8 => ?_⟩
  · rw [exec_registerWrite_good hon (accessGood_iff.mpr (.inl ⟨rfl, h4⟩)), accessWrite_4 h4]
  · rw [exec_registerWrite_good hon (accessGood_iff.mpr (.inr ⟨rfl, h8⟩)), accessWrite_8 h8]
  · rw [accessRead_8 h8]
  · rw [accessRead_8 h8]
  · have hbad := accessGood_eq_false h4 h8
    have herr := exec_registerAccessError_bad hon hbad
    refine ⟨?_, exec_registerWrite_bad hon hbad _, ?_, ?_, fun harmed => ?_, fun harmed => ?_⟩
    · rw [accessRead_bad hbad]
    · rw [herr, accessRead_bad hbad]
    · rw [herr, accessWrite_bad hbad]
    · rw [herr, accessError_armed harmed]
    · have hrep := reports_raise evRegAccess 255 0 0 a width (boolNat write) 0 (Reports.refl s.accessErrorNoted)
      have hreg : eventReg REG_ACCESS_ERR = false := by decide
      refine ⟨_, herr write, ?_⟩
      rw [accessError_unarmed harmed]
      exact ⟨(hrep.flag hreg _).trans (accessErrorNoted_flag s), (hrep.getF hreg _).trans (accessErrorNoted_count s),
        by rw [raise_evtSeq, accessErrorNoted_evtSeq], hrep⟩

end Sys2Proof.Machine
end

section
/-! The grid (01 R26, R27): seats and logical tiles are numbered by form and by place in the form, and rows and columns are recovered
from these numbers; each place of the logical grid has one tile, `ltAt`. -/

namespace Sys2Proof.Machine

/-- Form of the router at a row and column of the physical grid (01 R26). -/
def formAt (row col : Nat) : Nat := 4 * (2 * (row / 8) + col / 9) + row % 8 / 2

/-- Seat index of the router at a row and column of the physical grid (01 R26). -/
def seatIdxAt (row col : Nat) : Nat := 9 * (row % 2) + col % 9

theorem seatIdxAt_lt (row col : Nat) : seatIdxAt row col < 18 := by unfold seatIdxAt; omega

theorem seatAt_eq (row col : Nat) : seatAt row col = 18 * formAt row col + seatIdxAt row col := Nat.add_assoc _ _ _

theorem seatAt_div (row col : Nat) : seatAt row col / 18 = formAt row col := by
  rw [seatAt_eq, Nat.mul_add_div (by decide), Nat.div_eq_of_lt (seatIdxAt_lt row col), Nat.add_zero]

theorem seatAt_mod (row col : Nat) : seatAt row col % 18 = seatIdxAt row col := by
  rw [seatAt_eq, Nat.mul_add_mod, Nat.mod_eq_of_lt (seatIdxAt_lt row col)]

/-- The field of the form gives the half of the rows and the half of the columns. -/
theorem formAt_field {col : Nat} (row : Nat) (hc : col < 18) :
    formAt row col / 4 / 2 = row / 8 ∧ formAt row col / 4 % 2 = col / 9 := by
  unfold formAt; omega

theorem formAt_mod (row col : Nat) : formAt row col % 4 = row % 8 / 2 := by unfold formAt; omega

theorem seatRow_seatAt {col : Nat} (row : Nat) (hc : col < 18) : seatRow (seatAt row col) = row := by
  obtain ⟨hfield, -⟩ := formAt_field row hc
  rw [seatRow, seatAt_div, seatAt_mod, hfield, formAt_mod]
  unfold seatIdxAt
  omega

theorem seatCol_seatAt {col : Nat} (row : Nat) (hc : col < 18) : seatCol (seatAt row col) = col := by
  obtain ⟨-, hfield⟩ := formAt_field row hc
  rw [seatCol, seatAt_div, seatAt_mod, hfield]
  unfold seatIdxAt
  omega

theorem ltForm_ofForm (form : Nat) {k : Nat} (hk : k < 16) : ltForm (16 * form + k) = form := by unfold ltForm; omega

theorem ltRow_ofForm (form : Nat) {k : Nat} (hk : k < 16) :
    ltRow (16 * form + k) = 8 * (form / 4 / 2) + 2 * (form % 4) + k / 8 := by unfold ltRow; omega

theorem ltCol_ofForm (form : Nat) {k : Nat} (hk : k < 16) : ltCol (16 * form + k) = 8 * (form / 4 % 2) + k % 8 := by
  unfold ltCol; omega

/-- The logical tile at a row and column of the logical grid: R27 read backwards. -/
def ltAt (row col : Nat) : Nat := 16 * (4 * (2 * (row / 8) + col / 8) + row % 8 / 2) + (8 * (row % 2) + col % 8)

theorem ltAt_lt {row col : Nat} (hr : row < 16) (hc : col < 16) : ltAt row col < 256 := by unfold ltAt; omega

theorem ltRow_ltAt {col : Nat} (row : Nat) (hc : col < 16) : ltRow (ltAt row col) = row := by
  rw [ltAt, ltRow_ofForm _ (by omega)]
  omega

theorem ltCol_ltAt {col : Nat} (row : Nat) (hc : col < 16) : ltCol (ltAt row col) = col := by
  rw [ltAt, ltCol_ofForm _ (by omega)]
  omega

theorem ltAt_ltRow_ltCol (n : Nat) : ltAt (ltRow n) (ltCol n) = n := by
  unfold ltAt ltRow ltCol
  omega

/-- Settles O8: the seat number splits into form and seat index, from which row and column come back; a tile's place is read off its
form and position, and `ltAt` is the inverse of that reading. -/
theorem gridNumbering : Obligations.GridNumbering := by
  unfold Obligations.GridNumbering
  refine ⟨fun row col _ hc => ?_, fun form k _ hk => ?_, fun row col hr hc => ?_⟩
  · exact ⟨seatAt_eq row col, seatAt_div row col, seatAt_mod row col, seatRow_seatAt row hc, seatCol_seatAt row hc⟩
  · exact ⟨ltForm_ofForm form hk, ltRow_ofForm form hk, ltCol_ofForm form hk⟩
  · refine ⟨ltAt row col, ⟨ltAt_lt hr hc, ltRow_ltAt row hc, ltCol_ltAt row hc⟩, fun n _ hrow hcol => ?_⟩
    rw [← hrow, ← hcol, ltAt_ltRow_ltCol]

end Sys2Proof.Machine
end

section
/-! The two rounding modes of requantisation (03 R104). Either mode answers a multiple of 2^r less than one step of 2^r away from x;
that alone keeps a value within M × 2^r within M. -/

namespace Sys2Proof.Machine

theorem divRound_none (x : Int) {r : Nat} (hr : 1 ≤ r) : divRound x r none = (roundRne x r, x % 2 ^ r != 0) := by
  have hpos : ¬((r : Int) ≤ 0) := by omega
  rw [divRound, if_neg hpos, Int.toNat_natCast]

theorem divRound_some (x : Int) {r : Nat} (hr : 1 ≤ r) (d : Nat) :
    divRound x r (some d) = (roundSr x r d, x % 2 ^ r != 0) := by
  have hpos : ¬((r : Int) ≤ 0) := by omega
  rw [divRound, if_neg hpos, Int.toNat_natCast]

theorem divRound_inx (x : Int) {r : Nat} (hr : 1 ≤ r) (draw : Option Nat) :
    (divRound x r draw).2 = true ↔ ¬(2 ^ r : Int) ∣ x := by
  have hflag : (divRound x r draw).2 = (x % 2 ^ r != 0) := by
    cases draw with
    | none => rw [divRound_none x hr]
    | some d => rw [divRound_some x hr]
  rw [hflag, bne_iff_ne, ne_eq, Int.dvd_iff_emod_eq_zero]

/-- Nearest-even rounds down below half a step and at a tie of an even quotient, and up otherwise. -/
theorem roundRne_cases (x : Int) (r : Nat) :
    roundRne x r = x / 2 ^ r ∧ (2 * (x % 2 ^ r) < 2 ^ r ∨ 2 * (x % 2 ^ r) = 2 ^ r ∧ x / 2 ^ r % 2 = 0) ∨
    roundRne x r = x / 2 ^ r + 1 ∧ (2 ^ r < 2 * (x % 2 ^ r) ∨ 2 * (x % 2 ^ r) = 2 ^ r ∧ x / 2 ^ r % 2 = 1) := by
  unfold roundRne
  dsimp only
  split_ifs with hlow htie heven
  · exact .inl ⟨rfl, .inl hlow⟩
  · exact .inl ⟨rfl, .inr ⟨htie, heven⟩⟩
  · exact .inr ⟨rfl, .inr ⟨htie, by omega⟩⟩
  · exact .inr ⟨rfl, .inl (by omega)⟩

/-- The error of nearest-even: at most half a step, and half a step only towards an even result. -/
theorem roundRne_error (x : Int) (r : Nat) :
    2 * (2 ^ r * roundRne x r - x).natAbs ≤ 2 ^ r ∧
    (2 * (2 ^ r * roundRne x r - x).natAbs = 2 ^ r → roundRne x r % 2 = 0) := by
  have hcast : ((2 ^ r : Nat) : Int) = 2 ^ r := Int.natCast_pow 2 r
  have hstep : (0 : Int) < 2 ^ r := by positivity
  have hdiv := Int.mul_ediv_add_emod x (2 ^ r)
  have hrem := Int.emod_nonneg x hstep.ne'
  have hlt := Int.emod_lt_of_pos x hstep
  obtain ⟨hround, hcase⟩ | ⟨hround, hcase⟩ := roundRne_cases x r
  · have herr : 2 ^ r * roundRne x r - x = -(x % 2 ^ r) := by rw [hround]; omega
    rw [herr, hround]
    omega
  · have herr : 2 ^ r * roundRne x r - x = 2 ^ r - x % 2 ^ r := by rw [hround, mul_add]; omega
    rw [herr, hround]
    omega

theorem roundRne_error_lt (x : Int) (r : Nat) : |2 ^ r * roundRne x r - x| < 2 ^ r := by
  obtain ⟨hhalf, -⟩ := roundRne_error x r
  have hcast : ((2 ^ r : Nat) : Int) = 2 ^ r := Int.natCast_pow 2 r
  have hstep : (0 : Int) < 2 ^ r := by positivity
  rw [Int.abs_eq_natAbs]
  omega

/-- The addend u that stochastic rounding takes from a draw. -/
def srAddend (r draw : Nat) : Nat := if r ≤ 24 then draw / 2 ^ (24 - r) else draw * 2 ^ (r - 24)

theorem roundSr_eq (x : Int) (r draw : Nat) : roundSr x r draw = (x + (srAddend r draw : Nat)) / 2 ^ r := rfl

theorem srAddend_of_le {r : Nat} (hr : r ≤ 24) (draw : Nat) : srAddend r draw = draw / 2 ^ (24 - r) := if_pos hr

theorem srAddend_of_gt {r : Nat} (hr : 24 < r) (draw : Nat) : srAddend r draw = draw * 2 ^ (r - 24) := if_neg (by omega)

theorem srAddend_lt (r : Nat) {draw : Nat} (hd : draw < 2 ^ 24) : srAddend r draw < 2 ^ r := by
  by_cases hr : r ≤ 24
  · rw [srAddend_of_le hr]
    apply Nat.div_lt_of_lt_mul
    rwa [← pow_add, Nat.sub_add_cancel hr]
  · have hgt : 24 < r := by omega
    rw [srAddend_of_gt hgt]
    calc draw * 2 ^ (r - 24) < 2 ^ 24 * 2 ^ (r - 24) := Nat.mul_lt_mul_of_pos_right hd (by positivity)
      _ = 2 ^ r := by rw [← pow_add, Nat.add_sub_cancel' hgt.le]

theorem roundSr_error_lt (x : Int) (r : Nat) {draw : Nat} (hd : draw < 2 ^ 24) : |2 ^ r * roundSr x r draw - x| < 2 ^ r := by
  have hstep : (0 : Int) < 2 ^ r := by positivity
  have hadd : (srAddend r draw : Int) < 2 ^ r := by exact_mod_cast srAddend_lt r hd
  have hdiv := Int.mul_ediv_add_emod (x + srAddend r draw) (2 ^ r)
  have hrem := Int.emod_nonneg (x + srAddend r draw) hstep.ne'
  have hlt := Int.emod_lt_of_pos (x + srAddend r draw) hstep
  rw [roundSr_eq, abs_lt]
  omega

/-- In either mode the result, times 2^r, is less than one step away from x. -/
theorem divRound_error_lt (x : Int) {r : Nat} (hr : 1 ≤ r) {draw : Option Nat} (hd : ∀ k, draw = some k → k < 2 ^ 24) :
    |2 ^ r * (divRound x r draw).1 - x| < 2 ^ r := by
  cases draw with
  | none =>
    rw [divRound_none x hr]
    exact roundRne_error_lt x r
  | some d =>
    rw [divRound_some x hr]
    exact roundSr_error_lt x r (hd d rfl)

/-- What lies less than one step away from a value within m steps lies within m. -/
theorem within_of_error_lt {step x y m : Int} (herr : |step * y - x| < step) (hlo : -(m * step) ≤ x) (hhi : x ≤ m * step) :
    -m ≤ y ∧ y ≤ m := by
  have hstep : 0 < step := (abs_nonneg _).trans_lt herr
  obtain ⟨hbelow, habove⟩ := abs_lt.mp herr
  have hupper : step * y < step * (m + 1) := by linarith
  have hlower : step * (-m - 1) < step * y := by linarith
  have hy := lt_of_mul_lt_mul_left hupper hstep.le
  have hy' := lt_of_mul_lt_mul_left hlower hstep.le
  omega

/-- Settles O5: nearest-even by its error of at most half a step, stochastic rounding by its addend, and the bound M for both from the
error of less than one step. -/
theorem roundingModes : Obligations.RoundingModes := by
  unfold Obligations.RoundingModes
  intro x r hr
  obtain ⟨hnear, heven⟩ := roundRne_error x r
  rw [divRound_none x hr]
  refine ⟨hnear, heven, fun d _ hle => ?_, fun d _ hgt => ?_, divRound_inx x hr, fun m d _ hd hlo hhi => ?_⟩
  · rw [divRound_some x hr, roundSr_eq, srAddend_of_le hle]
  · rw [divRound_some x hr, roundSr_eq, srAddend_of_gt hgt]
  · exact within_of_error_lt (divRound_error_lt x hr hd) hlo hhi

end Sys2Proof.Machine
end

section
/-! Rounding draws and their keys on machine words (03 R106, R107): the model's arithmetic on natural numbers is that of words of 64
and of 32 bits. -/

namespace Sys2Proof.Machine

/-- One round of the draw's mixing function on 64-bit words (03 R106). -/
def drawMix (z : BitVec 64) : BitVec 64 :=
  let z := z + 0x9E3779B97F4A7C15#64
  let z := (z ^^^ (z >>> 30)) * 0xBF58476D1CE4E5B9#64
  let z := (z ^^^ (z >>> 27)) * 0x94D049BB133111EB#64
  z ^^^ (z >>> 31)

theorem toNat_xor_ushiftRight (z : BitVec 64) (k : Nat) : (z ^^^ (z >>> k)).toNat = Nat.xor z.toNat (z.toNat / 2 ^ k) := by
  rw [BitVec.toNat_xor, BitVec.toNat_ushiftRight, Nat.shiftRight_eq_div_pow]
  rfl

theorem toNat_add_ofNat (z : BitVec 64) (c : Nat) : (z + BitVec.ofNat 64 c).toNat = (z.toNat + c) % mask64 := by
  rw [BitVec.toNat_add, BitVec.toNat_ofNat, Nat.add_mod_mod, mask64]

theorem toNat_mul_ofNat (z : BitVec 64) (c : Nat) : (z * BitVec.ofNat 64 c).toNat = z.toNat * c % mask64 := by
  rw [BitVec.toNat_mul, BitVec.toNat_ofNat, Nat.mul_mod_mod, mask64]

theorem drawRound_toNat (z : BitVec 64) : drawRound z.toNat = (drawMix z).toNat := by
  simp only [drawMix, drawRound, toNat_xor_ushiftRight, toNat_mul_ofNat, toNat_add_ofNat]

theorem drawOf_toNat (seed key : BitVec 64) :
    drawOf seed.toNat key.toNat = ((drawMix (drawMix (seed ^^^ key))).extractLsb 63 40).toNat := by
  have hxor : Nat.xor seed.toNat key.toNat = (seed ^^^ key).toNat := rfl
  have hlt : (drawMix (drawMix (seed ^^^ key))).toNat / 2 ^ 40 < 2 ^ 24 := by omega
  rw [drawOf, hxor, drawRound_toNat, drawRound_toNat, BitVec.extractLsb_toNat, Nat.shiftRight_eq_div_pow,
    Nat.mod_eq_of_lt hlt]

theorem toNat_append_word (hi lo : BitVec 32) : (hi ++ lo).toNat = 2 ^ 32 * hi.toNat + lo.toNat := by
  rw [BitVec.toNat_append, ← Nat.shiftLeft_add_eq_or_of_lt lo.isLt, Nat.shiftLeft_eq, Nat.mul_comm]

theorem drawKey_toNat (hi base : BitVec 32) (b i : Nat) :
    drawKey hi.toNat base.toNat b i = (hi ++ (base + BitVec.ofNat 32 (32 * b + i))).toNat := by
  rw [toNat_append_word, BitVec.toNat_add, BitVec.toNat_ofNat, Nat.add_mod_mod, ← Nat.add_assoc, drawKey,
    Nat.mod_eq_of_lt hi.isLt]

/-- Settles O6: the draw and the key of numbers below 2^64 and 2^32 are the words that R106 and R107 write. -/
theorem drawsAndKeys : Obligations.DrawsAndKeys := by
  unfold Obligations.DrawsAndKeys
  exact ⟨drawOf_toNat, fun hi base b i _ => drawKey_toNat hi base b i⟩

end Sys2Proof.Machine
end

section
/-! Terms and the sums that take them (03 R95-R97): a term is truncated toward zero and flagged outside the signed range of its adder,
and addition at a width is the balanced remainder of the sum, so that no order of the terms changes it. -/

namespace Sys2Proof.Machine

theorem bitSet_eq_testBit (v i : Nat) : bitSet v i = v.testBit i := by
  rw [bitSet, bitAt, Nat.testBit_eq_decide_div_mod_eq]
  rfl

/-- The two's complement reading of a word's bits is its signed value. -/
theorem signedOf_toNat {len : Nat} (w : BitVec len) : signedOf w.toNat len = w.toInt := by
  rw [signedOf, bitSet_eq_testBit, Nat.mod_eq_of_lt w.isLt, BitVec.toInt_eq_msb_cond, BitVec.msb_eq_getLsbD_last]
  rfl

theorem codeOf_eq_toNat (v : Int) (len : Nat) : codeOf v len = (BitVec.ofInt len v).toNat := (BitVec.toNat_ofInt v).symm

theorem wrapInt_eq_bmod (v : Int) (len : Nat) : wrapInt v len = v.bmod (2 ^ len) := by
  rw [wrapInt, codeOf_eq_toNat, signedOf_toNat, BitVec.toInt_ofInt]

theorem addWrap_eq_bmod (a b : Int) (len : Nat) : addWrap a b len = (a + b).bmod (2 ^ len) := wrapInt_eq_bmod _ _

/-- The sum differs from the exact one by a multiple of 2^48 and lies in the signed range of 48 bits. -/
theorem addWrap_48 (a t : Int) :
    ∃ k : Int, addWrap a t 48 = a + t + k * 2 ^ 48 ∧ -2 ^ 47 ≤ addWrap a t 48 ∧ addWrap a t 48 < 2 ^ 47 := by
  rw [addWrap_eq_bmod]
  refine ⟨-(a + t).bdiv (2 ^ 48), ?_, Int.le_bmod (by decide), Int.bmod_lt (by decide)⟩
  have hdiv := Int.bmod_add_bdiv (a + t) (2 ^ 48)
  push_cast at hdiv ⊢
  linarith

theorem addWrap_addWrap_comm (s x y : Int) (len : Nat) :
    addWrap (addWrap s x len) y len = addWrap (addWrap s y len) x len := by
  simp only [addWrap_eq_bmod, Int.bmod_add_bmod]
  rw [add_right_comm]

theorem foldl_addWrap_perm {l l' : List Int} (hp : l.Perm l') (a : Int) (len : Nat) :
    l.foldl (fun s x => addWrap s x len) a = l'.foldl (fun s x => addWrap s x len) a :=
  hp.foldl_eq' (fun x _ y _ s => addWrap_addWrap_comm s x y len) a

theorem shrTrunc_eq_tdiv (v : Int) (n : Nat) : shrTrunc v n = v.tdiv (2 ^ n) := by
  have hcast : ((2 ^ n : Nat) : Int) = 2 ^ n := Int.natCast_pow 2 n
  unfold shrTrunc
  split_ifs with hneg
  · have habs : v = -(v.natAbs : Int) := by omega
    conv_rhs => rw [habs]
    rw [Int.neg_tdiv, Int.ofNat_tdiv, hcast]
  · have habs : v = (v.natAbs : Int) := by omega
    conv_rhs => rw [habs]
    rw [Int.ofNat_tdiv, hcast]

theorem loseBits_iff (v : Int) (n : Nat) : loseBits v n = true ↔ ∃ i, i < n ∧ v.natAbs.testBit i = true := by
  have hbit (i : Nat) : (v.natAbs % 2 ^ n).testBit i = true ↔ i < n ∧ v.natAbs.testBit i = true := by
    rw [Nat.testBit_mod_two_pow, Bool.and_eq_true, decide_eq_true_iff]
  simp only [loseBits, bne_iff_ne, ← hbit]
  refine ⟨Nat.exists_testBit_of_ne_zero, fun ⟨i, hi⟩ hzero => ?_⟩
  rw [hzero, Nat.zero_testBit] at hi
  exact Bool.false_ne_true hi

theorem not_fits_48 (t : Int) : (!fits t 48) = decide (t < -2 ^ 47 ∨ 2 ^ 47 ≤ t) := by
  rw [fits, ← decide_not, decide_eq_decide]
  omega

theorem termOf_left (v : Int) {d : Int} (hd : 0 ≤ d) (len : Nat) :
    termOf v d len = (v * 2 ^ d.toNat, ⟨false, !fits (v * 2 ^ d.toNat) len, false⟩) := by
  rw [termOf, alignShift, if_pos hd]

theorem termOf_right (v : Int) {d : Int} (hd : d < 0) (len : Nat) :
    termOf v d len = (shrTrunc v (-d).toNat, ⟨loseBits v (-d).toNat, !fits (shrTrunc v (-d).toNat) len, false⟩) := by
  rw [termOf, alignShift, if_neg hd.not_ge]

theorem termOf_ovf (v d : Int) (len : Nat) : (termOf v d len).2.ovf = !fits (termOf v d len).1 len := rfl

theorem termOf_48_ovf_iff (v d : Int) :
    (termOf v d 48).2.ovf = true ↔ (termOf v d 48).1 < -2 ^ 47 ∨ 2 ^ 47 ≤ (termOf v d 48).1 := by
  rw [termOf_ovf, not_fits_48, decide_eq_true_iff]

/-- Settles O7: a term by the direction of its shift, its overflow by the signed range of 48 bits, and sums by the balanced remainder
modulo the width. -/
theorem termsAndSums : Obligations.TermsAndSums := by
  unfold Obligations.TermsAndSums
  refine ⟨fun v d => ⟨fun hd => ?_, fun hd => ?_, termOf_48_ovf_iff v d, fun hzero => ?_, fun a => addWrap_48 a _⟩,
    fun len l l' a _ hp => foldl_addWrap_perm hp a len⟩
  · rw [termOf_left v hd, not_fits_48]
  · rw [termOf_right v hd]
    exact ⟨shrTrunc_eq_tdiv v _, loseBits_iff v _⟩
  · rw [termOf_ovf, hzero]
    rfl

end Sys2Proof.Machine
end

section
/-! Writes of TRN_AREA and TRN_POOL (10 R288): a write that is accepted loads its register, and the counts of free frames and leaves
that the new area and pool show are the only other registers it touches. -/

namespace Sys2Proof.Machine

/-- t is s but for the registers TRN_FREE_LT of the logical tiles. -/
def FreeCountsOnly (s t : State) : Prop :=
  t = { s with regs := t.regs } ∧ ∀ a, (∀ n < 256, a ≠ TRN_FREE_LT n) → t.reg a = s.reg a

theorem FreeCountsOnly.refl (s : State) : FreeCountsOnly s s := ⟨rfl, fun _ _ => rfl⟩

theorem FreeCountsOnly.setReg {s t : State} (h : FreeCountsOnly s t) {lt : Nat} (hlt : lt < 256) (w : Word) :
    FreeCountsOnly s (t.setReg (TRN_FREE_LT lt) w) := by
  obtain ⟨heq, hreg⟩ := h
  refine ⟨congrArg (fun u : State => u.setReg (TRN_FREE_LT lt) w) heq, fun a ha => ?_⟩
  rw [reg_setReg, if_neg (ha lt hlt), hreg a ha]

theorem FreeCountsOnly.showFree {s t : State} (h : FreeCountsOnly s t) {lt : Nat} (hlt : lt < 256) :
    FreeCountsOnly s (t.showFree lt) := by
  unfold State.showFree
  dsimp only
  split
  · exact h.setReg hlt _
  · exact (h.setReg hlt _).setReg hlt _

theorem showFreeAll_freeCountsOnly (s : State) : FreeCountsOnly s s.showFreeAll :=
  foldl_keeps_mem _ (fun _ _ hlt h => h.showFree (List.mem_range.mp (List.mem_filter.mp hlt).1)) (.refl s)

theorem trnArea_ne_trnFree (n : Nat) : TRN_AREA ≠ TRN_FREE_LT n := by unfold TRN_AREA TRN_FREE_LT; omega

theorem trnPool_ne_trnFree (n : Nat) : TRN_POOL ≠ TRN_FREE_LT n := by unfold TRN_POOL TRN_FREE_LT; omega

/-- Where no bit is cleared by a 1, a write loads the RW bits and leaves the others. -/
theorem regWritten_of_w1c_zero {k : RegKind} (hk : k.w1c = 0) (old w now : Word) :
    regWritten k old w now = (old &&& ~~~BitVec.ofNat 32 k.rw) ||| (w &&& BitVec.ofNat 32 k.rw) := by
  rw [regWritten, hk, BitVec.and_zero, BitVec.zero_and, BitVec.not_zero, BitVec.and_allOnes]

theorem plainWrite_of_regKind {a : Nat} {k : RegKind} (h : regKind a = some k) (s : State) (w now : Word) :
    s.plainWrite a w now = s.setReg a (regWritten k (s.reg a) w now) := by
  simp [State.plainWrite, h]

/-- A plain write, after which the free counts are shown again, loads its register as the kind of the register says, and
no register but it and the free counts. -/
theorem plainWrite_showFreeAll {a : Nat} {k : RegKind} (hkind : regKind a = some k) (hw1c : k.w1c = 0)
    (hfree : ∀ n, a ≠ TRN_FREE_LT n) (s : State) (w now : Word) :
    let t := (s.plainWrite a w now).showFreeAll
    t.reg a = (s.reg a &&& ~~~BitVec.ofNat 32 k.rw) ||| (w &&& BitVec.ofNat 32 k.rw) ∧
      t = { s with regs := t.regs } ∧ ∀ b, b ≠ a → (∀ n < 256, b ≠ TRN_FREE_LT n) → t.reg b = s.reg b := by
  obtain ⟨heq, hreg⟩ := showFreeAll_freeCountsOnly (s.plainWrite a w now)
  rw [plainWrite_of_regKind hkind] at heq hreg ⊢
  refine ⟨?_, heq, fun b hb hbfree => ?_⟩
  · rw [hreg a fun n _ => hfree n, reg_setReg, if_pos rfl, regWritten_of_w1c_zero hw1c]
  · rw [hreg b hbfree, reg_setReg, if_neg hb]

/-- The first tile-buffer byte past the area that a word written to TRN_AREA places (R288). -/
def areaTop (w : Word) : Nat := fldGet w TRN_AREA_base * 0x1000 + 0xC000 + 0x4000 * (fldGet w TRN_AREA_leaf_blocks + 1)

theorem writeArea_discarded {s : State} {w : Word} (h : s.anySeqOpen = true ∨ 2 ^ 22 < areaTop w) : s.writeArea w = s :=
  if_pos (by simpa [areaTop] using h)

theorem writeArea_accepted {s : State} {w : Word} (hopen : s.anySeqOpen = false) (htop : areaTop w ≤ 2 ^ 22) :
    s.writeArea w = (s.plainWrite TRN_AREA w 0).showFreeAll :=
  if_neg (by simpa [areaTop, hopen] using htop)

theorem writePool_discarded {s : State} (h : s.anySeqOpen = true) (w : Word) : s.writePool w = s := if_pos h

theorem writePool_accepted {s : State} (hopen : s.anySeqOpen = false) (w : Word) :
    s.writePool w = (s.plainWrite TRN_POOL w 0).showFreeAll :=
  if_neg (ne_true_of_eq_false hopen)

theorem exec_trnAreaWrite_on {s : State} (hon : s.powered = true) (w : Word) :
    exec (.trnAreaWrite w) s = .next (s.writeArea w) := live_on hon

theorem exec_trnPoolWrite_on {s : State} (hon : s.powered = true) (w : Word) :
    exec (.trnPoolWrite w) s = .next (s.writePool w) := live_on hon

theorem regKind_trnArea : regKind TRN_AREA =
    some ⟨TRN_AREA, 1, 0x4, 1, 0x4, 0x0, 0x80003FFF, 0x0, 0x0, 0x0⟩ := by decide

theorem regKind_trnPool : regKind TRN_POOL =
    some ⟨TRN_POOL, 1, 0x4, 1, 0x4, 0x0, 0x7FF07FF, 0x0, 0x0, 0x0⟩ := by decide

/-- Settles O2: an open sequence or an area beyond 4 MiB discards the write, and any other is a plain write after which only the free
counts are shown again. -/
theorem pageAreaWrites : Obligations.PageAreaWrites := by
  unfold Obligations.PageAreaWrites Gives
  intro s w hon
  rw [exec_trnAreaWrite_on hon, exec_trnPoolWrite_on hon]
  refine ⟨fun hopen => ?_, fun hbeyond => ?_, fun hclosed => ⟨fun htop => ⟨_, rfl, ?_⟩, ⟨_, rfl, ?_⟩⟩⟩
  · rw [writeArea_discarded (.inl hopen), writePool_discarded hopen]
    exact ⟨rfl, rfl⟩
  · rw [writeArea_discarded (.inr hbeyond)]
  · rw [writeArea_accepted hclosed htop]
    exact plainWrite_showFreeAll regKind_trnArea rfl trnArea_ne_trnFree s w 0
  · rw [writePool_accepted hclosed]
    exact plainWrite_showFreeAll regKind_trnPool rfl trnPool_ne_trnFree s w 0

end Sys2Proof.Machine
end

section
/-! The places of an event ring (15 R402): a record offered to a ring is written, held or lost. Sending on the Milbex Link and
counting a loss leave the records that a ring holds, so only holding one makes them more. -/

namespace Sys2Proof.Machine

/-- t is s but for the Milbex Link and what has left the device. -/
def LinkOnly (s t : State) : Prop := t = { s with mxl := t.mxl, out := t.out }

theorem LinkOnly.refl (s : State) : LinkOnly s s := rfl

theorem LinkOnly.trans {s t u : State} (h : LinkOnly s t) (h' : LinkOnly t u) : LinkOnly s u := by
  unfold LinkOnly at *
  rw [h', h]

theorem LinkOnly.of_mxl {s t : State} {m : MxlSt} (h : LinkOnly { s with mxl := m } t) : LinkOnly s t :=
  .trans (t := { s with mxl := m }) rfl h

theorem emitFlit_linkOnly (s : State) (f : Flit) : LinkOnly s (s.emitFlit f) := by
  unfold State.emitFlit
  split <;> rfl

theorem sendNext_linkOnly (s : State) (t : TxFlit) : LinkOnly s (s.sendNext t) := by
  unfold State.sendNext
  dsimp only
  split
  · exact .of_mxl ((emitFlit_linkOnly _ _).trans (emitFlit_linkOnly _ _))
  · exact .of_mxl (emitFlit_linkOnly _ _)

theorem flitPump_linkOnly (k : Nat) (s : State) : LinkOnly s (flitPump k s) := by
  induction k generalizing s with
  | zero => exact .refl s
  | succ k ih =>
    unfold flitPump
    split
    · exact (sendNext_linkOnly s _).trans (ih _)
    · exact .refl s

theorem mxlFlush_linkOnly (s : State) : LinkOnly s s.mxlFlush := by
  unfold State.mxlFlush
  split
  · exact flitPump_linkOnly _ s
  · exact .refl s

/-- A message to the host leaves everything but the link that takes it. -/
theorem mxlSend_linkOnly (s : State) (x : Msg) : LinkOnly s (s.mxlSend x) := .of_mxl (mxlFlush_linkOnly _)

@[simp] theorem mxlSend_evRings (s : State) (x : Msg) : (s.mxlSend x).evRings = s.evRings := by
  rw [mxlSend_linkOnly s x]

theorem evRing_congr {s t : State} (h : t.evRings = s.evRings) (x : Nat) : t.evRing x = s.evRing x := by
  rw [State.evRing, h, State.evRing]

theorem evRing_modEvRing (s : State) (e : Nat) (f : EvRing → EvRing) (x : Nat) :
    (s.modEvRing e f).evRing x = if x = e then f (s.evRing e) else s.evRing x :=
  tgetD_tput s.evRings e x (f (s.evRing e)) evRing0

@[simp] theorem evRing_incF (s : State) (a : Nat) (f : Fld) (n x : Nat) : (s.incF a f n).evRing x = s.evRing x := rfl

/-- A counter stops at all ones (15 R405). -/
theorem getF_incF (s : State) (a : Nat) {f : Fld} (n : Nat) (hf : f.lo + f.len ≤ 32) :
    (s.incF a f n).getF a f = min (2 ^ f.len - 1) (s.getF a f + n) := by
  have hpos : 0 < 2 ^ f.len := Nat.two_pow_pos _
  rw [State.incF, getF_setF _ _ _ _ hf]
  exact Nat.mod_eq_of_lt (by omega)

theorem reg_incF_other (s : State) {a b : Nat} (f : Fld) (n : Nat) (h : b ≠ a) : (s.incF a f n).reg b = s.reg b :=
  (reg_setF s a f _ b).trans (if_neg h)

theorem msgOut_eq_false_iff {s : State} {q : Nat} :
    s.msgOut q = false ↔ ∀ t ∈ s.mxl.cmdQ ++ s.mxl.replay, t.msg ≠ q := by
  simp only [State.msgOut, List.any_eq_false, beq_iff_eq, ne_eq]

theorem evFree_iff {s : State} {e n : Nat} : s.evFree e n = true ↔
    s.mxlUp = true ∧ s.sec.switch = none ∧
      ringUsed (s.reg (EVT_RING_HEAD e)).toNat (s.reg (EVT_RING_TAIL e)).toNat < 2 ^ n ∧
      ∀ q, (s.evRing e).outstanding = some q → ∀ t ∈ s.mxl.cmdQ ++ s.mxl.replay, t.msg ≠ q := by
  unfold State.evFree
  cases (s.evRing e).outstanding with
  | none => simp [and_assoc]
  | some q => simp [and_assoc, msgOut_eq_false_iff]

theorem evPlaces_le (sev : Nat) : evPlaces sev ≤ 256 := by
  unfold evPlaces
  split <;> omega

theorem lt_evPlaces_iff {sev k : Nat} : k < evPlaces sev ↔ 2 ≤ sev ∧ k < 256 ∨ sev < 2 ∧ k < 224 := by
  unfold evPlaces
  split <;> omega

theorem evPlaces_le_iff {sev k : Nat} : evPlaces sev ≤ k ↔ 2 ≤ sev ∧ 256 ≤ k ∨ sev < 2 ∧ 224 ≤ k := by
  unfold evPlaces
  split <;> omega

theorem evOffer_written {s : State} {e n : Nat} (hwait : evWaiting (s.evRing e) = []) (hfree : s.evFree e n = true) (r : EvRec) :
    s.evOffer e n r = s.evWrite e n r := if_pos (by simp [hwait, hfree])

section
variable {s : State} {e n : Nat} (hblocked : evWaiting (s.evRing e) ≠ [] ∨ s.evFree e n = false) (r : EvRec)
include hblocked

theorem evOffer_blocked : s.evOffer e n r =
    if (s.evRing e).held.length < evPlaces (evSeverity r.code) then
      s.modEvRing e (fun v => { v with held := v.held ++ [r] })
    else (s.incF (EVT_RING_LOST e) EVT_RING_LOST_lost 1).modEvRing e
      (fun v => { v with lost := some (evLostRec v.lost r) }) :=
  if_neg (by simpa [imp_iff_not_or] using hblocked)

theorem evOffer_held (hroom : (s.evRing e).held.length < evPlaces (evSeverity r.code)) :
    s.evOffer e n r = s.modEvRing e (fun v => { v with held := v.held ++ [r] }) := by
  rw [evOffer_blocked hblocked, if_pos hroom]

theorem evOffer_lost (hfull : evPlaces (evSeverity r.code) ≤ (s.evRing e).held.length) :
    s.evOffer e n r = (s.incF (EVT_RING_LOST e) EVT_RING_LOST_lost 1).modEvRing e
      (fun v => { v with lost := some (evLostRec v.lost r) }) := by
  rw [evOffer_blocked hblocked, if_neg (Nat.not_lt.mpr hfull)]

end

/-- Writing a record to the ring leaves the records that it holds. -/
theorem evWrite_held (s : State) (e n : Nat) (r : EvRec) : ((s.evWrite e n r).evRing e).held = (s.evRing e).held := by
  unfold State.evWrite
  dsimp only
  rw [evRing_modEvRing, if_pos rfl, evRing_congr (s := s) (by simp)]

/-- What a ring holds after an offer: one record more only where one of its severity has a place left. -/
theorem evOffer_held_cases (s : State) (e n : Nat) (r : EvRec) :
    ((s.evOffer e n r).evRing e).held = (s.evRing e).held ∨
      (s.evRing e).held.length < evPlaces (evSeverity r.code) ∧
        ((s.evOffer e n r).evRing e).held = (s.evRing e).held ++ [r] := by
  by_cases hblocked : evWaiting (s.evRing e) ≠ [] ∨ s.evFree e n = false
  · rcases Nat.lt_or_ge (s.evRing e).held.length (evPlaces (evSeverity r.code)) with hroom | hfull
    · right
      rw [evOffer_held hblocked r hroom, evRing_modEvRing, if_pos rfl]
      exact ⟨hroom, rfl⟩
    · left
      rw [evOffer_lost hblocked r hfull, evRing_modEvRing, if_pos rfl, evRing_incF]
  · left
    obtain ⟨hwait, hfree⟩ := not_or.mp hblocked
    rw [evOffer_written (not_not.mp hwait) (eq_true_of_ne_false hfree), evWrite_held]

theorem evOffer_held_le {s : State} {e : Nat} (h : (s.evRing e).held.length ≤ 256) (n : Nat) (r : EvRec) :
    ((s.evOffer e n r).evRing e).held.length ≤ 256 := by
  have hplaces := evPlaces_le (evSeverity r.code)
  rcases evOffer_held_cases s e n r with hsame | ⟨hroom, hmore⟩
  · rwa [hsame]
  · rw [hmore, List.length_append, List.length_singleton]
    omega

/-- Settles O4: an offer to a ring that cannot take the record at once is decided by the places of its severity. -/
theorem eventPlaces : Obligations.EventPlaces := by
  unfold Obligations.EventPlaces
  intro s e n r _
  refine ⟨evFree_iff, fun hwait hfree => evOffer_written hwait hfree r, fun hblocked => ⟨fun hroom => ?_, fun hfull => ?_⟩,
    fun h => evOffer_held_le h n r⟩
  · rw [evOffer_held hblocked r (lt_evPlaces_iff.mpr hroom)]
    refine ⟨?_, rfl, fun x hx => ?_⟩
    · rw [evRing_modEvRing, if_pos rfl]
    · rw [evRing_modEvRing, if_neg hx]
  · rw [evOffer_lost hblocked r (evPlaces_le_iff.mpr hfull)]
    refine ⟨?_, getF_incF s _ 1 (by decide), rfl, fun a ha => reg_incF_other s _ 1 ha, fun x hx => ?_⟩
    · rw [evRing_modEvRing, if_pos rfl, evRing_incF]
    · rw [evRing_modEvRing, if_neg hx, evRing_incF]

end Sys2Proof.Machine
end

section
/-! The instructions that take over the contacts (22 R525): EXTEST, CLAMP and HIGHZ share one condition and one refusal, and each
selects itself or is refused by that condition alone. -/

namespace Sys2Proof.Machine

theorem extestOk_iff {s : State} : s.extestOk = true ↔ s.anyLoaded = false ∧ s.mxlUp = false := by
  simp [State.extestOk]

theorem extestOk_eq_false_iff {s : State} : s.extestOk = false ↔ s.anyLoaded = true ∨ s.mxlUp = true := by
  simp [State.extestOk, or_iff_not_imp_left]

theorem exec_jtagExtest_on {s : State} (hon : s.powered = true) (cells pins : List Bool) :
    exec (.jtagExtest cells pins) s =
      .next (if s.extestOk then (s.setCells cells).tap 0x00 (cellsVal pins) 1 else s.extestRefused) := live_on hon

theorem exec_jtagClamp_on {s : State} (hon : s.powered = true) :
    exec .jtagClamp s = .next (if s.extestOk then s.tap 0x03 0 2 else s.extestRefused) := live_on hon

theorem exec_jtagHighz_on {s : State} (hon : s.powered = true) :
    exec .jtagHighz s = .next (if s.extestOk then s.tap 0x04 0 3 else s.extestRefused) := live_on hon

theorem flag_setB_true (s : State) (a : Nat) {f : Fld} (hf : f.lo + f.len ≤ 32) (hlen : 0 < f.len) :
    (s.setB a f true).flag a f = true := by
  have hone : (1 : Nat) % 2 ^ f.len = 1 := Nat.mod_eq_of_lt (Nat.one_lt_two_pow hlen.ne')
  rw [State.flag, State.setB, getF_setF _ _ _ _ hf, boolNat]
  simp [hone]

theorem reg_setB_other (s : State) {a b : Nat} (f : Fld) (v : Bool) (h : b ≠ a) : (s.setB a f v).reg b = s.reg b :=
  (reg_setF s a f _ b).trans (if_neg h)

theorem extestRefused_shown (s : State) : s.extestRefused.flag MGMT_STATUS MGMT_STATUS_extest_refused = true :=
  flag_setB_true _ _ (by decide) (by decide)

theorem extestRefused_reg (s : State) {a : Nat} (ha : a ≠ MGMT_STATUS) : s.extestRefused.reg a = s.reg a :=
  reg_setB_other (s.tap 0xFF 0 0) _ _ ha

/-- What R525 says of an instruction with code ir that takes over the contacts. -/
def SelectedOrRefused (c : Instr) (ir : Nat) (s : State) : Prop :=
  (s.anyLoaded = false → s.mxlUp = false →
    Gives c s (fun t => t.mgmt.ir = ir ∧ t = { s with mgmt := t.mgmt })) ∧
  (s.anyLoaded = true ∨ s.mxlUp = true →
    Gives c s (fun t => t.mgmt.ir = 0xFF ∧ t.flag MGMT_STATUS MGMT_STATUS_extest_refused = true ∧
      t.mgmt.boundary = s.mgmt.boundary ∧ t = { s with regs := t.regs, mgmt := t.mgmt } ∧
      ∀ a, a ≠ MGMT_STATUS → t.reg a = s.reg a))

theorem selectedOrRefused_of_exec {c : Instr} {ir : Nat} {s t : State}
    (hexec : exec c s = .next (if s.extestOk then t else s.extestRefused))
    (hir : t.mgmt.ir = ir) (hframe : t = { s with mgmt := t.mgmt }) : SelectedOrRefused c ir s := by
  refine ⟨fun hloaded hup => ⟨t, ?_, hir, hframe⟩, fun hbusy => ⟨s.extestRefused, ?_, rfl, extestRefused_shown s, rfl, rfl,
    fun a ha => extestRefused_reg s ha⟩⟩
  · rw [hexec, if_pos (extestOk_iff.mpr ⟨hloaded, hup⟩)]
  · rw [hexec, if_neg (ne_true_of_eq_false (extestOk_eq_false_iff.mpr hbusy))]

/-- Settles O3: each of the three instructions selects itself under the shared condition, loading the management state alone, and
otherwise takes the shared refusal. -/
theorem extestRefused : Obligations.ExtestRefused := by
  unfold Obligations.ExtestRefused
  intro s cells pins hon
  have hextest : SelectedOrRefused (.jtagExtest cells pins) 0x00 s :=
    selectedOrRefused_of_exec (exec_jtagExtest_on hon cells pins) rfl rfl
  have hclamp : SelectedOrRefused .jtagClamp 0x03 s := selectedOrRefused_of_exec (exec_jtagClamp_on hon) rfl rfl
  have hhighz : SelectedOrRefused .jtagHighz 0x04 s := selectedOrRefused_of_exec (exec_jtagHighz_on hon) rfl rfl
  simp only [List.forall_mem_cons]
  exact ⟨hextest, hclamp, hhighz, List.forall_mem_nil _⟩

end Sys2Proof.Machine
end

section
/-! What every command keeps: the queue, the variant and the canonical forms of registers and memories. -/

namespace Sys2Proof.Machine

/-- The arms of the dispatch, each by the law of its meaning. -/
theorem exec_kept {q : List Instr} {v : Variant} (c : Instr) {s : State} (hs : Kept q v s) : OutKept q v (exec c s) :=
  match c with
  | .inputValid volts => execInputValid_kept volts s hs
  | .powerGood volts duration => execPowerGood_kept volts duration s hs
  | .inputLowShutdown value ms => execInputLowShutdown_kept value ms s hs
  | .inputHighShutdown value => execInputHighShutdown_kept value s hs
  | .vcmpOvercurrentShutdown value => execVcmpOvercurrentShutdown_kept value s hs
  | .domainSagShutdown value => execDomainSagShutdown_kept value s hs
  | .phaseFault phase => execPhaseFault_kept phase s hs
  | .isolationSwitchOpen form amps => execIsolationSwitchOpen_kept form amps s hs
  | .vcmpSetpointStep => execVcmpSetpointStep_kept s hs
  | .crackCompare form mv amps => execCrackCompare_kept form mv amps s hs
  | .energyAccumulate e => execEnergyAccumulate_kept e s hs
  | .powerRecessEvaluate => execPowerRecessEvaluate_kept s hs
  | .budgetTakeEffect => execBudgetTakeEffect_kept s hs
  | .referenceLoss => execReferenceLoss_kept s hs
  | .referenceSwitch => execReferenceSwitch_kept s hs
  | .holdoverTimeout => execHoldoverTimeout_kept s hs
  | .droopAssert die site => execDroopAssert_kept die site s hs
  | .droopDeassert die site periods => execDroopDeassert_kept die site periods s hs
  | .droopDetectorMask die site periods => execDroopDetectorMask_kept die site periods s hs
  | .canaryAct group site margin => execCanaryAct_kept group site margin s hs
  | .canaryWarn group site margin => execCanaryWarn_kept group site margin s hs
  | .seamExcursion seam phase => execSeamExcursion_kept seam phase s hs
  | .stackReset => execStackReset_kept s hs
  | .stackResetGateClose => execStackResetGateClose_kept s hs
  | .stackResetRelease => execStackResetRelease_kept s hs
  | .watchdogExpiry step => execWatchdogExpiry_kept step s hs
  | .bellStart depart => execBellStart_kept depart s hs
  | .guardStart => execGuardStart_kept s hs
  | .refreshSlotA phases failed => execRefreshSlotA_kept phases failed s hs
  | .refreshSlotB => execRefreshSlotB_kept s hs
  | .serviceSlot x => execServiceSlot_kept x s hs
  | .formUngateStep p k => execFormUngateStep_kept p k s hs
  | .formGateStep p k => execFormGateStep_kept p k s hs
  | .lessonArm p => execLessonArm_kept p s hs
  | .bellOverrun => execBellOverrun_kept s hs
  | .bellSymbolMissing => execBellSymbolMissing_kept s hs
  | .rejoinComplete => execRejoinComplete_kept s hs
  | .haltBellReached p => execHaltBellReached_kept p s hs
  | .haltNoticeTile lt => execHaltNoticeTile_kept lt s hs
  | .haltNoticeLayer l => execHaltNoticeLayer_kept l s hs
  | .haltNoticePort port => execHaltNoticePort_kept port s hs
  | .quiesceReport node => execQuiesceReport_kept node s hs
  | .stopReportTimeout => execStopReportTimeout_kept s hs
  | .recessAnnounce => execRecessAnnounce_kept s hs
  | .rosterDeadline ring tag => execRosterDeadline_kept ring tag s hs
  | .rosterCopyComplete ring tag => execRosterCopyComplete_kept ring tag s hs
  | .rosterTileWrite lt => execRosterTileWrite_kept lt s hs
  | .courseStartCommit p => execCourseStartCommit_kept p s hs
  | .courseResumeCommit p => execCourseResumeCommit_kept p s hs
  | .courseRestageDone p => execCourseRestageDone_kept p s hs
  | .groupTableCopyDone p => execGroupTableCopyDone_kept p s hs
  | .groupTableCommit ring tag => execGroupTableCommit_kept ring tag s hs
  | .shadowEnableDone => execShadowEnableDone_kept s hs
  | .imageActivateCommit => execImageActivateCommit_kept s hs
  | .imageSwitchDone rejected => execImageSwitchDone_kept rejected s hs
  | .knownGoodUpdate => execKnownGoodUpdate_kept s hs
  | .bellJoinCommit ring tag => execBellJoinCommit_kept ring tag s hs
  | .bellJoinTimeout ring tag => execBellJoinTimeout_kept ring tag s hs
  | .mxeLoad lt idx cycle => execMxeLoad_kept lt idx cycle s hs
  | .mxePass lt idx cycle => execMxePass_kept lt idx cycle s hs
  | .mxeSend lt idx cycle => execMxeSend_kept lt idx cycle s hs
  | .mxeMerge lt idx row => execMxeMerge_kept lt idx row s hs
  | .descriptorFetch lt idx => execDescriptorFetch_kept lt idx s hs
  | .veRun lt idx => execVeRun_kept lt idx s hs
  | .veTable lt idx cycle => execVeTable_kept lt idx cycle s hs
  | .veCache lt idx cycle => execVeCache_kept lt idx cycle s hs
  | .slateNop lt => execSlateNop_kept lt s hs
  | .slateMov lt => execSlateMov_kept lt s hs
  | .slateAdd lt => execSlateAdd_kept lt s hs
  | .slateSub lt => execSlateSub_kept lt s hs
  | .slateMul lt => execSlateMul_kept lt s hs
  | .slateMac lt => execSlateMac_kept lt s hs
  | .slateNeg lt => execSlateNeg_kept lt s hs
  | .slateAbs lt => execSlateAbs_kept lt s hs
  | .slateMin lt => execSlateMin_kept lt s hs
  | .slateMax lt => execSlateMax_kept lt s hs
  | .slateShl lt => execSlateShl_kept lt s hs
  | .slateShr lt => execSlateShr_kept lt s hs
  | .slateShrl lt => execSlateShrl_kept lt s hs
  | .slateAnd lt => execSlateAnd_kept lt s hs
  | .slateOr lt => execSlateOr_kept lt s hs
  | .slateXor lt => execSlateXor_kept lt s hs
  | .slateNot lt => execSlateNot_kept lt s hs
  | .slateCmpeq lt => execSlateCmpeq_kept lt s hs
  | .slateCmplt lt => execSlateCmplt_kept lt s hs
  | .slateCmple lt => execSlateCmple_kept lt s hs
  | .slateSel lt => execSlateSel_kept lt s hs
  | .slateAlign lt => execSlateAlign_kept lt s hs
  | .slateGete lt => execSlateGete_kept lt s hs
  | .slateSete lt => execSlateSete_kept lt s hs
  | .slateGetf lt => execSlateGetf_kept lt s hs
  | .slateClrf lt => execSlateClrf_kept lt s hs
  | .slateCvt lt => execSlateCvt_kept lt s hs
  | .slateRsum lt => execSlateRsum_kept lt s hs
  | .slateRmax lt => execSlateRmax_kept lt s hs
  | .slateRmaxabs lt => execSlateRmaxabs_kept lt s hs
  | .slateRcpw lt => execSlateRcpw_kept lt s hs
  | .slateLut lt => execSlateLut_kept lt s hs
  | .slateRq lt => execSlateRq_kept lt s hs
  | .slateExps lt => execSlateExps_kept lt s hs
  | .taskStart lt idx => execTaskStart_kept lt idx s hs
  | .taskDeadline gc => execTaskDeadline_kept gc s hs
  | .gcTbWindow lt cycle => execGcTbWindow_kept lt cycle s hs
  | .waitcWake gc => execWaitcWake_kept gc s hs
  | .chalkAdd gc => execChalkAdd_kept gc s hs
  | .chalkSub gc => execChalkSub_kept gc s hs
  | .chalkAnd gc => execChalkAnd_kept gc s hs
  | .chalkOr gc => execChalkOr_kept gc s hs
  | .chalkXor gc => execChalkXor_kept gc s hs
  | .chalkSll gc => execChalkSll_kept gc s hs
  | .chalkSrl gc => execChalkSrl_kept gc s hs
  | .chalkSra gc => execChalkSra_kept gc s hs
  | .chalkSlt gc => execChalkSlt_kept gc s hs
  | .chalkSltu gc => execChalkSltu_kept gc s hs
  | .chalkMul gc => execChalkMul_kept gc s hs
  | .chalkMulh gc => execChalkMulh_kept gc s hs
  | .chalkMulhu gc => execChalkMulhu_kept gc s hs
  | .chalkMin gc => execChalkMin_kept gc s hs
  | .chalkMax gc => execChalkMax_kept gc s hs
  | .chalkClz gc => execChalkClz_kept gc s hs
  | .chalkDiv gc => execChalkDiv_kept gc s hs
  | .chalkDivu gc => execChalkDivu_kept gc s hs
  | .chalkRem gc => execChalkRem_kept gc s hs
  | .chalkRemu gc => execChalkRemu_kept gc s hs
  | .chalkAddi gc => execChalkAddi_kept gc s hs
  | .chalkAndi gc => execChalkAndi_kept gc s hs
  | .chalkOri gc => execChalkOri_kept gc s hs
  | .chalkXori gc => execChalkXori_kept gc s hs
  | .chalkSlli gc => execChalkSlli_kept gc s hs
  | .chalkSrli gc => execChalkSrli_kept gc s hs
  | .chalkSrai gc => execChalkSrai_kept gc s hs
  | .chalkSlti gc => execChalkSlti_kept gc s hs
  | .chalkLui gc => execChalkLui_kept gc s hs
  | .chalkLdw gc => execChalkLdw_kept gc s hs
  | .chalkLdh gc => execChalkLdh_kept gc s hs
  | .chalkLdhu gc => execChalkLdhu_kept gc s hs
  | .chalkLdb gc => execChalkLdb_kept gc s hs
  | .chalkLdbu gc => execChalkLdbu_kept gc s hs
  | .chalkStw gc => execChalkStw_kept gc s hs
  | .chalkSth gc => execChalkSth_kept gc s hs
  | .chalkStb gc => execChalkStb_kept gc s hs
  | .chalkBeq gc => execChalkBeq_kept gc s hs
  | .chalkBne gc => execChalkBne_kept gc s hs
  | .chalkBlt gc => execChalkBlt_kept gc s hs
  | .chalkBge gc => execChalkBge_kept gc s hs
  | .chalkBltu gc => execChalkBltu_kept gc s hs
  | .chalkBgeu gc => execChalkBgeu_kept gc s hs
  | .chalkJal gc => execChalkJal_kept gc s hs
  | .chalkJalr gc => execChalkJalr_kept gc s hs
  | .chalkEnd gc => execChalkEnd_kept gc s hs
  | .chalkWaitc gc => execChalkWaitc_kept gc s hs
  | .chalkRdcyc gc => execChalkRdcyc_kept gc s hs
  | .chalkRdbell gc => execChalkRdbell_kept gc s hs
  | .chalkRdid gc => execChalkRdid_kept gc s hs
  | .chalkTrap gc => execChalkTrap_kept gc s hs
  | .chalkRet gc => execChalkRet_kept gc s hs
  | .moverCopy lt idx => execMoverCopy_kept lt idx s hs
  | .moverIndirect lt idx => execMoverIndirect_kept lt idx s hs
  | .builtDescriptor lt c => execBuiltDescriptor_kept lt c s hs
  | .moverBeat lt c => execMoverBeat_kept lt c s hs
  | .serviceTransfer lt c => execServiceTransfer_kept lt c s hs
  | .lockerReadDeliver lt c => execLockerReadDeliver_kept lt c s hs
  | .lockerWriteAck lt c => execLockerWriteAck_kept lt c s hs
  | .lockerCommand locker w data wires => execLockerCommand_kept locker w data wires s hs
  | .lockerNbuCommand locker w => execLockerNbuCommand_kept locker w s hs
  | .serviceAccessBelow write a n off => execServiceAccessBelow_kept write a n off s hs
  | .evacuationStep bad => execEvacuationStep_kept bad s hs
  | .evacuationComplete => execEvacuationComplete_kept s hs
  | .nbuSequenceStart l part idx => execNbuSequenceStart_kept l part idx s hs
  | .nbuGatherReduce l part idx => execNbuGatherReduce_kept l part idx s hs
  | .nbuMatvec l part idx => execNbuMatvec_kept l part idx s hs
  | .nbuSignUpdate l part idx => execNbuSignUpdate_kept l part idx s hs
  | .nbuSeqCopy l part idx => execNbuSeqCopy_kept l part idx s hs
  | .nbuSeqFill l part idx => execNbuSeqFill_kept l part idx s hs
  | .nbuTransfer l part idx => execNbuTransfer_kept l part idx s hs
  | .nbuSequenceEnd l part idx => execNbuSequenceEnd_kept l part idx s hs
  | .translationJobStart lt => execTranslationJobStart_kept lt s hs
  | .translateEntry lt entry => execTranslateEntry_kept lt entry s hs
  | .fallbackRecordWrite lt lesson iter record => execFallbackRecordWrite_kept lt lesson iter record s hs
  | .meshInject lt cycle => execMeshInject_kept lt cycle s hs
  | .meshBeatRoute id corrected bad hdrBad => execMeshBeatRoute_kept id corrected bad hdrBad s hs
  | .meshEject id => execMeshEject_kept id s hs
  | .serviceBeatAdvance id cycle corrected bad hdrBad => execServiceBeatAdvance_kept id cycle corrected bad hdrBad s hs
  | .hallReq lt c dest n => execHallReq_kept lt c dest n s hs
  | .hallGrant lt => execHallGrant_kept lt s hs
  | .hallPassReturn lt c => execHallPassReturn_kept lt c s hs
  | .cnetRegRead m corrected bad => execCnetRegRead_kept m corrected bad s hs
  | .cnetRegWrite m x now => execCnetRegWrite_kept m x now s hs
  | .cnetRegReply m corrected bad => execCnetRegReply_kept m corrected bad s hs
  | .cnetEvent m corrected bad => execCnetEvent_kept m corrected bad s hs
  | .cnetArm m corrected bad => execCnetArm_kept m corrected bad s hs
  | .cnetServicePost m corrected bad => execCnetServicePost_kept m corrected bad s hs
  | .portSend port idx entry => execPortSend_kept port idx entry s hs
  | .portRecv port idx entry => execPortRecv_kept port idx entry s hs
  | .portReduce port idx entry => execPortReduce_kept port idx entry s hs
  | .portRelay port idx entry => execPortRelay_kept port idx entry s hs
  | .portVoteSend port idx entry => execPortVoteSend_kept port idx entry s hs
  | .portVoteAdd port idx entry => execPortVoteAdd_kept port idx entry s hs
  | .portVoteSign port idx entry => execPortVoteSign_kept port idx entry s hs
  | .frameReceive port f hdrBad badSpans => execFrameReceive_kept port f hdrBad badSpans s hs
  | .svcWrite port => execSvcWrite_kept port s hs
  | .svcRead port => execSvcRead_kept port s hs
  | .svcReply port => execSvcReply_kept port s hs
  | .remoteTimeout tag => execRemoteTimeout_kept tag s hs
  | .symBell port y bad arrival resid => execSymBell_kept port y bad arrival resid s hs
  | .symHalt port y bad => execSymHalt_kept port y bad s hs
  | .symRecess port y bad => execSymRecess_kept port y bad s hs
  | .symRecessReq port y bad => execSymRecessReq_kept port y bad s hs
  | .symCredit port y bad => execSymCredit_kept port y bad s hs
  | .symLaneSwap port y bad => execSymLaneSwap_kept port y bad s hs
  | .symTrain port y bad => execSymTrain_kept port y bad s hs
  | .symProbe port y bad t => execSymProbe_kept port y bad t s hs
  | .symIdle port y bad => execSymIdle_kept port y bad s hs
  | .portLaneFault port lane x => execPortLaneFault_kept port lane x s hs
  | .portLaneTakeover port => execPortLaneTakeover_kept port s hs
  | .portDetectLight port fibres => execPortDetectLight_kept port fibres s hs
  | .portTrainStateDone port lanes fibres round depart => execPortTrainStateDone_kept port lanes fibres round depart s hs
  | .portTrainTimeout port => execPortTrainTimeout_kept port s hs
  | .portRetrain port => execPortRetrain_kept port s hs
  | .portRetrainDone port lanes fibres round cycle => execPortRetrainDone_kept port lanes fibres round cycle s hs
  | .mxlPrioCmd f corrected => execMxlPrioCmd_kept f corrected s hs
  | .mxlDoorbell h payload x part => execMxlDoorbell_kept h payload x part s hs
  | .mxlRegRead h payload x => execMxlRegRead_kept h payload x s hs
  | .mxlRegWrite h payload x now => execMxlRegWrite_kept h payload x now s hs
  | .mxlMemRead h payload x => execMxlMemRead_kept h payload x s hs
  | .mxlMemWrite h payload crc corrected => execMxlMemWrite_kept h payload crc corrected s hs
  | .mxlHostData h payload crc corrected => execMxlHostData_kept h payload crc corrected s hs
  | .mxlIdleFlit x => execMxlIdleFlit_kept x s hs
  | .mxlLaneSwapFlit h payload x => execMxlLaneSwapFlit_kept h payload x s hs
  | .mxlFlitCheckFail f corrected uncorrectable => execMxlFlitCheckFail_kept f corrected uncorrectable s hs
  | .mxlNak x => execMxlNak_kept x s hs
  | .mxlReplayTimeout => execMxlReplayTimeout_kept s hs
  | .hostReadTimeout tag => execHostReadTimeout_kept tag s hs
  | .mxlLaneFault x => execMxlLaneFault_kept x s hs
  | .mxlStateDone lanes cmd bulk => execMxlStateDone_kept lanes cmd bulk s hs
  | .mxlStateTimeout => execMxlStateTimeout_kept s hs
  | .mxlDownRecover => execMxlDownRecover_kept s hs
  | .commandFetch r d => execCommandFetch_kept r d s hs
  | .heldRecordFlush => execHeldRecordFlush_kept s hs
  | .cmdNop ring tag => execCmdNop_kept ring tag s hs
  | .cmdStop tag => execCmdStop_kept tag s hs
  | .cmdAbort ring tag entry => execCmdAbort_kept ring tag entry s hs
  | .cmdReset ring tag => execCmdReset_kept ring tag s hs
  | .cmdPartitionSet ring tag => execCmdPartitionSet_kept ring tag s hs
  | .cmdLinkmapLoad ring tag => execCmdLinkmapLoad_kept ring tag s hs
  | .cmdBellJoin ring tag => execCmdBellJoin_kept ring tag s hs
  | .cmdMemCopy ring tag => execCmdMemCopy_kept ring tag s hs
  | .cmdMemFill ring tag => execCmdMemFill_kept ring tag s hs
  | .cmdDmaIn ring tag => execCmdDmaIn_kept ring tag s hs
  | .cmdDmaOut ring tag => execCmdDmaOut_kept ring tag s hs
  | .cmdNbuFill ring tag => execCmdNbuFill_kept ring tag s hs
  | .cmdNbuCopy ring tag => execCmdNbuCopy_kept ring tag s hs
  | .cmdCourseLoad ring tag => execCmdCourseLoad_kept ring tag s hs
  | .cmdCourseStart ring tag => execCmdCourseStart_kept ring tag s hs
  | .cmdCourseEnd ring tag => execCmdCourseEnd_kept ring tag s hs
  | .cmdCourseUnload ring tag => execCmdCourseUnload_kept ring tag s hs
  | .cmdCourseResume ring tag => execCmdCourseResume_kept ring tag s hs
  | .cmdRosterCommit ring tag => execCmdRosterCommit_kept ring tag s hs
  | .cmdSeqOpen ring tag => execCmdSeqOpen_kept ring tag s hs
  | .cmdSeqClose ring tag => execCmdSeqClose_kept ring tag s hs
  | .cmdPageMap ring tag => execCmdPageMap_kept ring tag s hs
  | .cmdPageUnmap ring tag => execCmdPageUnmap_kept ring tag s hs
  | .cmdSeqFork ring tag => execCmdSeqFork_kept ring tag s hs
  | .cmdPagePrivate ring tag => execCmdPagePrivate_kept ring tag s hs
  | .pageCommandCommit ring tag => execPageCommandCommit_kept ring tag s hs
  | .cmdGroupTable ring tag => execCmdGroupTable_kept ring tag s hs
  | .cmdRecessRequest ring tag => execCmdRecessRequest_kept ring tag s hs
  | .cmdPowerCap ring tag => execCmdPowerCap_kept ring tag s hs
  | .cmdBudgetMove ring tag => execCmdBudgetMove_kept ring tag s hs
  | .cmdImageStage ring tag => execCmdImageStage_kept ring tag s hs
  | .cmdImageActivate ring tag => execCmdImageActivate_kept ring tag s hs
  | .cmdSyllabusLoad ring tag => execCmdSyllabusLoad_kept ring tag s hs
  | .cmdLicenceLoad ring tag => execCmdLicenceLoad_kept ring tag s hs
  | .cmdAttest ring tag => execCmdAttest_kept ring tag s hs
  | .cmdExam ring tag => execCmdExam_kept ring tag s hs
  | .cmdEvacuate ring tag => execCmdEvacuate_kept ring tag s hs
  | .cmdAreaRestore ring tag => execCmdAreaRestore_kept ring tag s hs
  | .cmdRenumber ring tag => execCmdRenumber_kept ring tag s hs
  | .cmdEnergySnapshot ring tag => execCmdEnergySnapshot_kept ring tag s hs
  | .energySnapshotTake ring tag => execEnergySnapshotTake_kept ring tag s hs
  | .cmdCountersClear ring tag => execCmdCountersClear_kept ring tag s hs
  | .countersClearApply ring tag => execCountersClearApply_kept ring tag s hs
  | .cmdTraceConfig ring tag => execCmdTraceConfig_kept ring tag s hs
  | .sensorSample readings powers inlet outlet => execSensorSample_kept readings powers inlet outlet s hs
  | .tripComparator pair a b => execTripComparator_kept pair a b s hs
  | .thermalForecast => execThermalForecast_kept s hs
  | .coolantEvaluate => execCoolantEvaluate_kept s hs
  | .stageS1Boot duration loadFails => execStageS1Boot_kept duration loadFails s hs
  | .stageS2Clocks duration seamFails trims => execStageS2Clocks_kept duration seamFails trims s hs
  | .stageS3Memory duration fails badForms lost corrected columns deadSeats => execStageS3Memory_kept duration fails badForms lost corrected columns deadSeats s hs
  | .stageS4Seating duration quiz covers gateFails rf => execStageS4Seating_kept duration quiz covers gateFails rf s hs
  | .stageS5Licences duration stepping => execStageS5Licences_kept duration stepping s hs
  | .stageS6Ports duration => execStageS6Ports_kept duration s hs
  | .stageS8Ready duration total => execStageS8Ready_kept duration total s hs
  | .autoExamStep result => execAutoExamStep_kept result s hs
  | .examComplete failing => execExamComplete_kept failing s hs
  | .heartbeatTimeout lt => execHeartbeatTimeout_kept lt s hs
  | .errorsThreshold lt => execErrorsThreshold_kept lt s hs
  | .substitutionComplete lt => execSubstitutionComplete_kept lt s hs
  | .i3cEntdaa addr => execI3cEntdaa_kept addr s hs
  | .i3cSetdasa addr => execI3cSetdasa_kept addr s hs
  | .i3cRstdaa => execI3cRstdaa_kept s hs
  | .i3cEnec mask => execI3cEnec_kept mask s hs
  | .i3cDisec mask => execI3cDisec_kept mask s hs
  | .i3cGetstatus => execI3cGetstatus_kept s hs
  | .i3cSetIndex index => execI3cSetIndex_kept index s hs
  | .i3cPrivateRead n => execI3cPrivateRead_kept n s hs
  | .mgmtResetRequest => execMgmtResetRequest_kept s hs
  | .mgmtLedgerClear => execMgmtLedgerClear_kept s hs
  | .mgmtHoldNext => execMgmtHoldNext_kept s hs
  | .mgmtAlertAck => execMgmtAlertAck_kept s hs
  | .mgmtMalformed code complement => execMgmtMalformed_kept code complement s hs
  | .jtagExtest cells pins => execJtagExtest_kept cells pins s hs
  | .jtagSamplePreload cells pins => execJtagSamplePreload_kept cells pins s hs
  | .jtagIdcode => execJtagIdcode_kept s hs
  | .jtagClamp => execJtagClamp_kept s hs
  | .jtagHighz => execJtagHighz_kept s hs
  | .jtagExtestPulse cells pins => execJtagExtestPulse_kept cells pins s hs
  | .jtagExtestTrain cells pins => execJtagExtestTrain_kept cells pins s hs
  | .jtagBypass => execJtagBypass_kept s hs
  | .instRead space addr => execInstRead_kept space addr s hs
  | .instWrite space addr data => execInstWrite_kept space addr data s hs
  | .instComplete => execInstComplete_kept s hs
  | .bellClearPeak w => execBellClearPeak_kept w s hs
  | .bellOverrunClear w => execBellOverrunClear_kept w s hs
  | .ariClearAll w => execAriClearAll_kept w s hs
  | .ariFlagClear port n x => execAriFlagClear_kept port n x s hs
  | .memFaultClear l x => execMemFaultClear_kept l x s hs
  | .nbuTokenLimitWrite w => execNbuTokenLimitWrite_kept w s hs
  | .nbuTokensClearPeak w => execNbuTokensClearPeak_kept w s hs
  | .trnAreaWrite w => execTrnAreaWrite_kept w s hs
  | .trnPoolWrite w => execTrnPoolWrite_kept w s hs
  | .trnFallbackWrite lt w => execTrnFallbackWrite_kept lt w s hs
  | .updShadowWrite w => execUpdShadowWrite_kept w s hs
  | .fabPartWrite w => execFabPartWrite_kept w s hs
  | .ringCfgWrite a w => execRingCfgWrite_kept a w s hs
  | .cplRingHeadWrite q w => execCplRingHeadWrite_kept q w s hs
  | .evtRingHeadWrite e w => execEvtRingHeadWrite_kept e w s hs
  | .throttleLimitWrite w => execThrottleLimitWrite_kept w s hs
  | .coolantDeclineClear x => execCoolantDeclineClear_kept x s hs
  | .crackSuspectClear form x => execCrackSuspectClear_kept form x s hs
  | .evacPendingClear index x => execEvacPendingClear_kept index x s hs
  | .regAccessArmClear x => execRegAccessArmClear_kept x s hs
  | .serviceStopClear lt c x => execServiceStopClear_kept lt c x s hs
  | .loRegisterRead req a => execLoRegisterRead_kept req a s hs
  | .registerAccessError a width write => execRegisterAccessError_kept a width write s hs
  | .registerWrite a width x => execRegisterWrite_kept a width x s hs
  | .referenceRegained => execReferenceRegained_kept s hs
  | .mxlLaneTakeover => execMxlLaneTakeover_kept s hs
  | .securityCommandDone => execSecurityCommandDone_kept s hs
  | .stopBoundElapsed tag => execStopBoundElapsed_kept tag s hs
  | .trstNAssert => execTrstNAssert_kept s hs

theorem State.Inv.kept {s : State} (h : s.Inv) : Kept s.pending s.variant s :=
  ⟨rfl, rfl, h.1, (Memory.wf_iff s.mem).mp h.2⟩

theorem Kept.inv {q : List Instr} {v : Variant} {s : State} (h : Kept q v s) : s.Inv :=
  ⟨h.regs, (Memory.wf_iff s.mem).mpr h.mem⟩

theorem step_of_pending {s : State} {c : Instr} {rest : List Instr} (h : s.pending = c :: rest) :
    step s = exec c { s with pending := rest } := by
  unfold step
  rw [h]

theorem step_of_idle {s : State} (h : s.pending = []) : step s = .next s := by
  unfold step
  rw [h]

theorem Kept.of_pending {s : State} {q rest : List Instr} {v : Variant} (h : Kept q v s) :
    Kept rest v { s with pending := rest } :=
  ⟨rfl, h.variant, h.regs, h.mem⟩

theorem step_kept {s : State} (h : s.Inv) : OutKept s.pending.tail s.variant (step s) := by
  cases hq : s.pending with
  | nil =>
    rw [step_of_idle hq, List.tail_nil, ← hq]
    exact next_kept h.kept
  | cons c rest =>
    rw [step_of_pending hq, List.tail_cons]
    exact exec_kept c h.kept.of_pending

/-- Settles O13: the invariant makes the state canonical, and every command keeps what is canonical. -/
theorem stepKeepsInv : Obligations.StepKeepsInv := by
  unfold Obligations.StepKeepsInv
  intro s t hinv hstep
  have ht := (step_kept hinv).keeps t hstep
  exact ⟨ht.inv, ht.variant, ht.pending⟩

/-- Settles O10: the two cases of a step. -/
theorem stepRunsTheFrontCommand : Obligations.StepRunsTheFrontCommand := by
  unfold Obligations.StepRunsTheFrontCommand
  exact ⟨fun c s => step_of_pending rfl, fun s hq => step_of_idle hq⟩

end Sys2Proof.Machine
end

section
/-! The bytes of the stack: reading after storing, and what a store leaves unchanged. -/

namespace Sys2Proof.Machine

theorem memBase_memPut (m : MemSt) (a : Nat) (b : Byte) (c : Nat) : memBase (memPut m a b) c = memBase m c := rfl

theorem memGet_memPut (m : MemSt) (a : Nat) (b : Byte) (c : Nat) :
    memGet (memPut m a b) c = if c = a then b else memGet m c := by
  unfold memGet
  rw [memBase_memPut]
  by_cases h : c = a
  · rw [if_pos h, memPut, tgetD_tset, if_pos h, h, BitVec.xor_assoc, BitVec.xor_self, BitVec.xor_zero]
  · rw [if_neg h, memPut, tgetD_tset, if_neg h]

theorem memGet_memWrite (l : List Byte) : ∀ (m : MemSt) (a b : Nat),
    memGet (memWrite m a l) b = if a ≤ b ∧ b < a + l.length then l.getD (b - a) 0 else memGet m b := by
  induction l with
  | nil =>
    intro m a b
    rw [if_neg (by simp), memWrite]
  | cons x l ih =>
    intro m a b
    rw [memWrite, ih, memGet_memPut, List.length_cons]
    rcases Nat.lt_trichotomy b a with hlt | rfl | hgt
    · rw [if_neg (by omega), if_neg (by omega), if_neg (by omega)]
    · rw [if_neg (by omega), if_pos rfl, if_pos (by omega), Nat.sub_self, List.getD_cons_zero]
    · have hsub : b - a = (b - (a + 1)) + 1 := by omega
      by_cases hin : b < a + (l.length + 1)
      · rw [if_pos (by omega), if_pos (by omega), hsub, List.getD_cons_succ]
      · rw [if_neg (by omega), if_neg (by omega), if_neg (by omega)]

theorem memRead_memWrite (m : MemSt) (a : Nat) (l : List Byte) : memRead (memWrite m a l) a l.length = l := by
  refine List.ext_getElem (by simp [memRead]) fun i hi _ => ?_
  have hlt : i < l.length := by simpa [memRead] using hi
  simp [memRead, memGet_memWrite, hlt]

theorem memWrite_frame (l : List Byte) : ∀ (m : MemSt) (a : Nat), memWrite m a l = { m with bytes := (memWrite m a l).bytes } := by
  induction l with
  | nil => exact fun m a => rfl
  | cons b l ih => exact fun m a => ih (memPut m a b) (a + 1)

/-- Settles O9: by induction on the bytes stored. -/
theorem memoryReadsBack : Obligations.MemoryReadsBack := by
  unfold Obligations.MemoryReadsBack
  intro m a b l
  refine ⟨memGet_memWrite l m a b, memRead_memWrite m a l, fun hwf => ?_, memWrite_frame l m a⟩
  rw [Memory.wf_iff] at hwf ⊢
  exact canonical_memWrite hwf a l

/-! The reset state: nothing is listed, so every register holds its reset value and every byte reads 0. -/

theorem reg_reset (a : Nat) : State.reset.reg a = regReset a := rfl

theorem memGet_reset (a : Nat) : memGet State.reset.mem a = 0 := by
  have hbase : memBase State.reset.mem a = 0 := ite_self 0
  rw [memGet, hbase]
  exact BitVec.xor_zero

theorem reset_inv : State.reset.Inv := ⟨regsCanonical_reset, by decide⟩

/-- The reset values that R15's table gives index by index, for the registers of courses, ports, rings and seats. -/
theorem reset_courses : ∀ p ∈ List.range 4, regReset (BELL_CRS_STATE p) = 8 := by decide

theorem reset_ports : ∀ p ∈ List.range 6, regReset (PORT_STATE p) = 0x40 := by decide

theorem reset_rings : ∀ r ∈ List.range 64, regReset (CMD_RING_CFG r) = 0x10000 := by decide

set_option maxRecDepth 4096 in
theorem reset_seats : ∀ n ∈ List.range 256, regReset (STK_SEAT_LT n) = 31 := by decide

/-- Settles O12: the indexed registers by the register table, the rest by evaluation. -/
theorem resetState : Obligations.ResetState := by
  unfold Obligations.ResetState
  refine ⟨rfl, reset_inv, reg_reset, memGet_reset, fun p hp => ?_, fun p hp => ?_, fun r hr => ?_, fun n hn => ?_, by decide⟩
  · exact reset_courses p (List.mem_range.mpr hp)
  · exact reset_ports p (List.mem_range.mpr hp)
  · exact reset_rings r (List.mem_range.mpr hr)
  · exact reset_seats n (List.mem_range.mpr hn)

end Sys2Proof.Machine
end

section
/-! Updates that load registers alone: how they compose, and what the other registers hold after them. -/

namespace Sys2Proof.Machine

/-- t is s but for registers that satisfy A. -/
def LoadsOnly (A : Nat → Prop) (s t : State) : Prop := t = { s with regs := t.regs } ∧ ∀ a, ¬ A a → t.reg a = s.reg a

theorem LoadsOnly.refl (A : Nat → Prop) (s : State) : LoadsOnly A s s := ⟨rfl, fun _ _ => rfl⟩

theorem LoadsOnly.trans {A : Nat → Prop} {s t u : State} (h : LoadsOnly A s t) (h' : LoadsOnly A t u) : LoadsOnly A s u := by
  obtain ⟨hst, hreg⟩ := h
  obtain ⟨htu, hreg'⟩ := h'
  refine ⟨?_, fun a ha => (hreg' a ha).trans (hreg a ha)⟩
  rw [htu, hst]

theorem LoadsOnly.mono {A B : Nat → Prop} {s t : State} (h : LoadsOnly A s t) (hAB : ∀ a, A a → B a) : LoadsOnly B s t :=
  ⟨h.1, fun a ha => h.2 a (fun hA => ha (hAB a hA))⟩

theorem LoadsOnly.setReg {A : Nat → Prop} {s t : State} (h : LoadsOnly A s t) {a : Nat} (ha : A a) (w : Word) :
    LoadsOnly A s (t.setReg a w) :=
  h.trans ⟨rfl, fun b hb => (reg_setReg t a w b).trans (if_neg fun hba => hb (by rwa [hba]))⟩

theorem LoadsOnly.setF {A : Nat → Prop} {s t : State} (h : LoadsOnly A s t) {a : Nat} (ha : A a) (f : Fld) (n : Nat) :
    LoadsOnly A s (t.setF a f n) := h.setReg ha _

theorem LoadsOnly.setB {A : Nat → Prop} {s t : State} (h : LoadsOnly A s t) {a : Nat} (ha : A a) (f : Fld) (b : Bool) :
    LoadsOnly A s (t.setB a f b) := h.setReg ha _

theorem LoadsOnly.incF {A : Nat → Prop} {s t : State} (h : LoadsOnly A s t) {a : Nat} (ha : A a) (f : Fld) (n : Nat) :
    LoadsOnly A s (t.incF a f n) := h.setReg ha _

theorem LoadsOnly.setPair {A : Nat → Prop} {s t : State} (h : LoadsOnly A s t) {a : Nat} (ha : A a) (ha' : A (a + 4)) (n : Nat) :
    LoadsOnly A s (t.setPair a n) := (h.setReg ha _).setReg ha' _

theorem LoadsOnly.forEach {α : Type} {A : Nat → Prop} {s t : State} (h : LoadsOnly A s t) {l : List α} {f : State → α → State}
    (hf : ∀ u, ∀ x ∈ l, LoadsOnly A u (f u x)) : LoadsOnly A s (forEach l t f) :=
  foldl_keeps_mem l (fun u x hx hu => hu.trans (hf u x hx)) h

theorem LoadsOnly.ite {A : Nat → Prop} {s t u : State} {c : Prop} [Decidable c] (ht : LoadsOnly A s t) (hu : LoadsOnly A s u) :
    LoadsOnly A s (if c then t else u) := by
  split
  · exact ht
  · exact hu

theorem LoadsOnly.getF {A : Nat → Prop} {s t : State} (h : LoadsOnly A s t) {a : Nat} (ha : ¬ A a) (f : Fld) :
    t.getF a f = s.getF a f := congrArg (fldGet · f) (h.2 a ha)

theorem LoadsOnly.flag {A : Nat → Prop} {s t : State} (h : LoadsOnly A s t) {a : Nat} (ha : ¬ A a) (f : Fld) :
    t.flag a f = s.flag a f := congrArg (· != 0) (h.getF ha f)

/-! One field after another has been loaded. -/

theorem getF_setF_lt (s : State) (a : Nat) {f : Fld} {n : Nat} (hf : f.lo + f.len ≤ 32) (hn : n < 2 ^ f.len) :
    (s.setF a f n).getF a f = n := by
  rw [getF_setF _ _ _ _ hf, Nat.mod_eq_of_lt hn]

theorem getF_setF_reg (s : State) {a b : Nat} (f g : Fld) (n : Nat) (h : b ≠ a) : (s.setF a f n).getF b g = s.getF b g :=
  getF_setReg_other s a b _ g h

theorem getF_setF_fld (s : State) (a : Nat) {f g : Fld} (n : Nat) (hf : f.lo + f.len ≤ 32)
    (hd : f.lo + f.len ≤ g.lo ∨ g.lo + g.len ≤ f.lo) : (s.setF a f n).getF a g = s.getF a g :=
  getF_setF_other s a a f g n hf (.inr hd)

theorem flag_setF_reg (s : State) {a b : Nat} (f g : Fld) (n : Nat) (h : b ≠ a) : (s.setF a f n).flag b g = s.flag b g :=
  congrArg (· != 0) (getF_setF_reg s f g n h)

theorem flag_setB_reg (s : State) {a b : Nat} (f g : Fld) (v : Bool) (h : b ≠ a) : (s.setB a f v).flag b g = s.flag b g :=
  flag_setF_reg s f g _ h

theorem flag_setF_fld (s : State) (a : Nat) {f g : Fld} (n : Nat) (hf : f.lo + f.len ≤ 32)
    (hd : f.lo + f.len ≤ g.lo ∨ g.lo + g.len ≤ f.lo) : (s.setF a f n).flag a g = s.flag a g :=
  congrArg (· != 0) (getF_setF_fld s a n hf hd)

theorem getF_lt (s : State) (a : Nat) (f : Fld) : s.getF a f < 2 ^ f.len := Nat.mod_lt _ (Nat.two_pow_pos _)

theorem live_next {s : State} (hon : s.powered = true) {t u : State} (h : t = u) : live s t = .next u := by
  rw [live_on hon, h]

theorem gives_of_live {c : Instr} {s t : State} {P : State → Prop} (hon : s.powered = true) (hexec : exec c s = live s t)
    (ht : P t) : Gives c s P := ⟨t, hexec.trans (live_on hon), ht⟩

end Sys2Proof.Machine
end

section
/-! Power delivery (18 R437-R446, 19 R461): the power sequence, phases, isolation, the setpoint and the crack comparison. -/

namespace Sys2Proof.Machine

/-! The power sequence. -/

theorem exec_shutdown_on {s : State} (hon : s.powered = true) (v ms : Nat) :
    exec (.inputLowShutdown v ms) s = .next (s.shutdown 1 0 v) ∧ exec (.inputHighShutdown v) s = .next (s.shutdown 2 0 v) ∧
    exec (.vcmpOvercurrentShutdown v) s = .next (s.shutdown 3 0 v) ∧
    exec (.domainSagShutdown v) s = .next (s.shutdown 4 0 v) := by
  have hphase : s.power.phase = .on := by
    have h := hon
    simp only [State.powered, Bool.and_eq_true, beq_iff_eq] at h
    exact h.1
  refine ⟨?_, live_on hon, live_on hon, live_on hon⟩
  rw [exec_inputLowShutdown, execInputLowShutdown, hphase]
  exact live_on hon

/-- Settles O14: each command by the phase of the power sequence it finds. -/
theorem powerSequence : Obligations.PowerSequence := by
  unfold Obligations.PowerSequence
  intro s v ms
  refine ⟨fun hoff hv => ?_, fun hlatched hms => ?_, fun hon => exec_shutdown_on hon v ms⟩
  · simp [execInputValid, State.inputValid, hoff, hv]
  · simp [execInputLowShutdown, hlatched, hms]

/-! Phases. -/

/-- The state in which a phase has left domain d, with the carry block written. -/
def State.phaseLeft (s : State) (ph d : Nat) : State :=
  let s := s.setB (PWR_PHASE_FAIL (ph / 32)) ⟨ph % 32, 1⟩ true
  let s := s.setF (PWR_DOMAIN d) PWR_DOMAIN_phases_good (s.getF (PWR_DOMAIN d) PWR_DOMAIN_phases_good - 1)
  ({ s with bring := { s.bring with carry := { s.bring.carry with phases := s.bring.carry.phases ++ [ph] } } }).writeCarry

/-- The same with form f one phase poorer, its ceiling following. -/
def State.formPoorer (s : State) (f : Nat) : State :=
  (s.setF (PWR_FORM f) PWR_FORM_phases_good (s.getF (PWR_FORM f) PWR_FORM_phases_good - 1)).showCeiling f

theorem phaseFault_form {s : State} {ph : Nat} (hph : ph < 288) (hgood : s.phaseFailed ph = false) :
    s.phaseFault ph = ((s.phaseLeft ph 0).formPoorer (ph / 18)).raise evPhaseLoss 255 9 ph (ph / 18)
      (((s.phaseLeft ph 0).formPoorer (ph / 18)).getF (PWR_FORM (ph / 18)) PWR_FORM_ceiling_w) 0 0 := by
  have hd : phaseDomain ph = 0 := if_pos hph
  have hlt : ¬ 376 ≤ ph := by omega
  simp only [State.phaseFault, hgood, hlt, hd, decide_false, Bool.or_self, Bool.false_eq_true, if_false, if_true]
  rfl

theorem phaseFault_domain {s : State} {ph : Nat} (hlo : 288 ≤ ph) (hph : ph < 376) (hgood : s.phaseFailed ph = false) :
    s.phaseFault ph = (s.phaseLeft ph (phaseDomain ph)).raise evPhaseLoss 255 9 ph (16 + phaseDomain ph)
      (domainCeiling (phaseDomain ph) ((s.phaseLeft ph (phaseDomain ph)).getF (PWR_DOMAIN (phaseDomain ph))
        PWR_DOMAIN_phases_good)) 0 0 := by
  have hd : phaseDomain ph ≠ 0 := by
    unfold phaseDomain
    split_ifs
    all_goals omega
  have hlt : ¬ 376 ≤ ph := by omega
  simp only [State.phaseFault, hgood, hlt, hd, decide_false, Bool.or_self, Bool.false_eq_true, if_false]
  rfl

theorem phaseFault_again {s : State} {ph : Nat} (hfailed : s.phaseFailed ph = true) : s.phaseFault ph = s := by
  simp [State.phaseFault, hfailed]

theorem phaseLeft_carries (s : State) (ph d : Nat) : ph ∈ (s.phaseLeft ph d).bring.carry.phases :=
  List.mem_append_right _ List.mem_cons_self

theorem phaseLeft_reg (s : State) (ph : Nat) {d a : Nat} (hfail : a ≠ PWR_PHASE_FAIL (ph / 32)) (hdomain : a ≠ PWR_DOMAIN d) :
    (s.phaseLeft ph d).reg a = s.reg a :=
  (reg_setF _ _ _ _ a).trans ((if_neg hdomain).trans (reg_setB_other s _ true hfail))

theorem phaseDomain_lt (ph : Nat) : phaseDomain ph < 6 := by
  unfold phaseDomain
  split_ifs
  all_goals omega

theorem phaseFail_ne_domain (i : Nat) {d : Nat} (hd : d < 6) : PWR_PHASE_FAIL i ≠ PWR_DOMAIN d := by
  unfold PWR_PHASE_FAIL PWR_DOMAIN
  omega

theorem phaseFail_ne_form (i : Nat) {f : Nat} (hf : f < 16) : PWR_PHASE_FAIL i ≠ PWR_FORM f := by
  unfold PWR_PHASE_FAIL PWR_FORM
  omega

theorem phaseLeft_failed (s : State) (ph : Nat) {d : Nat} (hd : d < 6) : (s.phaseLeft ph d).phaseFailed ph = true :=
  (flag_setF_reg _ _ _ _ (phaseFail_ne_domain _ hd)).trans
    (flag_setB_true s _ (f := ⟨ph % 32, 1⟩) (by simp only; omega) Nat.one_pos)

theorem phaseLeft_good (s : State) (ph : Nat) {d : Nat} (hd : d < 6) :
    (s.phaseLeft ph d).getF (PWR_DOMAIN d) PWR_DOMAIN_phases_good = s.getF (PWR_DOMAIN d) PWR_DOMAIN_phases_good - 1 := by
  have hsame : (s.setB (PWR_PHASE_FAIL (ph / 32)) ⟨ph % 32, 1⟩ true).getF (PWR_DOMAIN d) PWR_DOMAIN_phases_good =
      s.getF (PWR_DOMAIN d) PWR_DOMAIN_phases_good := getF_setF_reg s _ _ _ (phaseFail_ne_domain _ hd).symm
  have hlt := getF_lt s (PWR_DOMAIN d) PWR_DOMAIN_phases_good
  refine (getF_setF_lt _ _ (by decide) ?_).trans (congrArg (· - 1) hsame)
  rw [hsame]
  omega

theorem vcmp_ne_form (f : Nat) : PWR_VCMP ≠ PWR_FORM f := by
  unfold PWR_VCMP PWR_FORM
  omega

theorem formPoorer_loadsOnly (s : State) (f : Nat) : LoadsOnly (· = PWR_FORM f) s (s.formPoorer f) :=
  ((LoadsOnly.refl (· = PWR_FORM f) s).setF rfl _ _).setF rfl _ _

theorem formPoorer_ceiling (s : State) (f : Nat) : (s.formPoorer f).getF (PWR_FORM f) PWR_FORM_ceiling_w =
    12 * (s.formPoorer f).getF (PWR_FORM f) PWR_FORM_phases_good * s.setpoint / 1000 % 256 := by
  have hgood := getF_setF_fld (s.setF (PWR_FORM f) PWR_FORM_phases_good (s.getF (PWR_FORM f) PWR_FORM_phases_good - 1))
    (PWR_FORM f) (f := PWR_FORM_ceiling_w) (g := PWR_FORM_phases_good) (formCeiling
      ((s.setF (PWR_FORM f) PWR_FORM_phases_good (s.getF (PWR_FORM f) PWR_FORM_phases_good - 1)).getF (PWR_FORM f)
        PWR_FORM_phases_good) s.setpoint) (by decide) (by decide)
  have hmv : (s.setF (PWR_FORM f) PWR_FORM_phases_good (s.getF (PWR_FORM f) PWR_FORM_phases_good - 1)).setpoint = s.setpoint :=
    getF_setF_reg s _ _ _ (vcmp_ne_form f)
  rw [State.formPoorer, State.showCeiling, hmv, hgood]
  exact getF_setF _ _ _ _ (by decide)

/-! Isolation and the setpoint. -/

theorem isolate_again {s : State} {f : Nat} (hiso : s.isolated f = true) (amps : Nat) : s.isolate f amps = s := by
  simp [State.isolate, hiso]

theorem isolate_first {s : State} {f : Nat} (hf : f < 16) (hiso : s.isolated f = false) (amps : Nat) :
    s.isolate f amps =
      let w := (s.setB (STK_FORM_STATUS f) STK_FORM_STATUS_isolated true).setB (PWR_FORM f) PWR_FORM_isolated true
      let u := w.declareHalt (w.partOfForm f) hcIsolation
      u.raise evIsolationOpen (u.partOfForm f) 5 f amps 0 0 0 := by
  simp only [State.isolate, hiso, Nat.not_le.mpr hf, decide_false, Bool.or_self, Bool.false_eq_true, if_false]

theorem setpointStep_warned {s : State} (hwarn : s.power.warnSeen = true) :
    s.setpointStep = ({ s with power := { s.power with warnSeen := false, quiet := 0 } }).setSetpoint (min 800 (s.setpoint + 5)) :=
  if_pos hwarn

theorem setpointStep_quiet {s : State} (hwarn : s.power.warnSeen = false) (hquiet : s.power.quiet < 4095) :
    s.setpointStep = { s with power := { s.power with quiet := s.power.quiet + 1 } } := by
  have hq : ¬ 4096 ≤ s.power.quiet + 1 := by omega
  simp only [State.setpointStep, hwarn, hq, Bool.false_eq_true, if_false]

theorem setpointStep_lowered {s : State} (hwarn : s.power.warnSeen = false) (hquiet : 4095 ≤ s.power.quiet) :
    s.setpointStep = ({ s with power := { s.power with quiet := 0 } }).setSetpoint
      (max (s.getF PWR_VCMP PWR_VCMP_fused_mv) (s.setpoint - 5)) := by
  have hq : 4096 ≤ s.power.quiet + 1 := by omega
  simp only [State.setpointStep, hwarn, hq, Bool.false_eq_true, if_false, if_true]

/-! The crack comparison. -/

/-- A comparison of form f exceeds its threshold. -/
abbrev State.cracksAbove (s : State) (f mv amps : Nat) : Prop :=
  1000 * (mv + s.getF PWR_CRACK_CTRL PWR_CRACK_CTRL_threshold) + tgetD s.bring.carry.rf f 0 * amps < 1000 * s.setpoint

/-- The comparison is shown, and n excesses in a row are counted. -/
def State.compared (s : State) (f mv n : Nat) : State :=
  ({ s with power := { s.power with excess := tput s.power.excess f n } }).setF (PWR_FORM f) PWR_FORM_sensed_mv mv

theorem compared_suspect (s : State) (f mv n : Nat) :
    (s.compared f mv n).flag (PWR_FORM f) PWR_FORM_crack_suspect = s.flag (PWR_FORM f) PWR_FORM_crack_suspect :=
  flag_setF_fld _ _ _ (by decide) (by decide)

theorem compared_setpoint (s : State) (f mv n : Nat) : (s.compared f mv n).setpoint = s.setpoint :=
  getF_setF_reg _ _ _ _ (vcmp_ne_form f)

theorem compared_excess (s : State) (f mv n : Nat) : tgetD (s.compared f mv n).power.excess f 0 = n :=
  (tgetD_tput _ _ _ _ _).trans (if_pos rfl)

theorem partOfForm_congr {s t : State} (h : t.reg CMD_PART = s.reg CMD_PART) (f : Nat) : t.partOfForm f = s.partOfForm f := by
  have hcount : t.partCount = s.partCount := congrArg (fldGet · CMD_PART_count) h
  rw [State.partOfForm, State.partOfForm, State.partOfField, State.partOfField, hcount]

theorem cmdPart_ne_form (f : Nat) : CMD_PART ≠ PWR_FORM f := by
  unfold CMD_PART PWR_FORM
  omega

theorem compared_partOfForm (s : State) (f mv n g : Nat) : (s.compared f mv n).partOfForm g = s.partOfForm g :=
  partOfForm_congr ((reg_setF _ _ _ _ _).trans (if_neg (cmdPart_ne_form f))) g

/-- The sixteenth excess in a row marks the form. -/
def State.cracked (s : State) (f mv drop : Nat) : State :=
  (s.setB (PWR_FORM f) PWR_FORM_crack_suspect true).raise evCrackSuspect (s.partOfForm f) 5 f mv
    ((1000 * s.setpoint - drop) / 1000) 0 0

theorem crackCompare_eq {s : State} {f : Nat} (hf : f < 16) (mv amps : Nat) {n : Nat}
    (hn : n = if s.cracksAbove f mv amps then min 16 (tgetD s.power.excess f 0 + 1) else 0) :
    s.crackCompare f mv amps =
      if n = 16 ∧ s.flag (PWR_FORM f) PWR_FORM_crack_suspect = false then
        (s.compared f mv n).cracked f mv (tgetD s.bring.carry.rf f 0 * amps)
      else s.compared f mv n := by
  rw [← compared_suspect s f mv n, hn, State.crackCompare, if_neg (Nat.not_le.mpr hf)]
  simp only [decide_eq_true_eq, Bool.and_eq_true, Bool.not_eq_true']
  rfl

theorem cracked_eq (s : State) (f mv n drop : Nat) : (s.compared f mv n).cracked f mv drop =
    ((s.compared f mv n).setB (PWR_FORM f) PWR_FORM_crack_suspect true).raise evCrackSuspect (s.partOfForm f) 5 f mv
      ((1000 * s.setpoint - drop) / 1000) 0 0 := by
  rw [State.cracked, compared_partOfForm, compared_setpoint]

/-- Settles O15: a phase by its domain, the setpoint by the warn reports, a comparison by the excesses in a row before it. -/
theorem formsAndPhases : Obligations.FormsAndPhases := by
  unfold Obligations.FormsAndPhases
  intro s hon
  refine ⟨fun ph hph hgood => ?_, fun ph d hlo hph hd hgood => ?_, fun ph hfailed => ?_, fun f amps hiso => ?_,
    fun f amps w u hf hiso hw hu => ?_, fun hwarn => ?_, fun hwarn hquiet => ?_, fun hwarn hquiet => ?_,
    fun f mv amps hf hwithin => ?_, fun f mv amps hf habove hfew => ?_, fun f mv amps hf hnew hmany habove => ?_⟩
  · have hpoor := formPoorer_loadsOnly (s.phaseLeft ph 0) (ph / 18)
    have hform : ph / 18 < 16 := by omega
    refine ⟨(s.phaseLeft ph 0).formPoorer (ph / 18), live_next hon (phaseFault_form hph hgood),
      (hpoor.flag (phaseFail_ne_form _ hform) _).trans (phaseLeft_failed s ph (by decide)), phaseLeft_carries s ph 0, ?_, rfl,
      fun a hfail hdomain hne => (hpoor.2 a hne).trans (phaseLeft_reg s ph hfail hdomain)⟩
    have hmv : (s.phaseLeft ph 0).setpoint = s.setpoint := congrArg (fldGet · PWR_VCMP_setpoint_mv)
      (phaseLeft_reg s ph (by unfold PWR_VCMP PWR_PHASE_FAIL; omega) (by decide))
    rw [formPoorer_ceiling, hmv]
  · subst hd
    exact ⟨s.phaseLeft ph (phaseDomain ph), live_next hon (phaseFault_domain hlo hph hgood),
      phaseLeft_failed s ph (phaseDomain_lt ph), phaseLeft_carries s ph _, phaseLeft_good s ph (phaseDomain_lt ph), rfl,
      fun a hfail hdomain => phaseLeft_reg s ph hfail hdomain⟩
  · exact live_next hon (phaseFault_again hfailed)
  · exact live_next hon (isolate_again hiso amps)
  · subst hu hw
    exact live_next hon (isolate_first hf hiso amps)
  · exact live_next hon (setpointStep_warned hwarn)
  · exact live_next hon (setpointStep_quiet hwarn hquiet)
  · exact live_next hon (setpointStep_lowered hwarn hquiet)
  · refine live_next hon ((crackCompare_eq hf mv amps (if_neg (Nat.not_lt.mpr hwithin)).symm).trans (if_neg ?_))
    exact fun h => absurd h.1 (by decide)
  · refine live_next hon ((crackCompare_eq hf mv amps (if_pos habove).symm).trans (if_neg ?_))
    rintro ⟨hn, hsuspect⟩
    rcases hfew with hlt | hset
    · omega
    · rw [hset] at hsuspect
      cases hsuspect
  · have hn : 16 = min 16 (tgetD s.power.excess f 0 + 1) := by omega
    refine ⟨(s.compared f mv 16).setB (PWR_FORM f) PWR_FORM_crack_suspect true,
      live_next hon (((crackCompare_eq hf mv amps (hn.trans (if_pos habove).symm)).trans (if_pos ⟨rfl, hnew⟩)).trans
        (cracked_eq s f mv 16 _)),
      flag_setB_true _ _ (by decide) (by decide), compared_excess s f mv 16, rfl, fun a ha => ?_⟩
    exact (reg_setB_other _ _ _ ha).trans ((reg_setF _ _ _ _ a).trans (if_neg ha))

end Sys2Proof.Machine
end

section
/-! Energy accounts, snapshots and clears (15 R405-R412), the cap, the budgets and the recess for power (18 R447-R451). -/

namespace Sys2Proof.Machine

/-! The account of a bell. -/

/-- What the account of one partition leaves: the module's energy, the bell it is of, and all but registers, the partition's own
accounts and its history. -/
def AccountsOnly (s t : State) : Prop :=
  t = { s with
    regs := t.regs
    energy := { s.energy with parts := t.energy.parts, carry := t.energy.carry, rings := t.energy.rings }
    power := { s.power with hist := t.power.hist } }

theorem AccountsOnly.trans {s t u : State} (h : AccountsOnly s t) (h' : AccountsOnly t u) : AccountsOnly s u := by
  unfold AccountsOnly at *
  rw [h', h]

theorem LoadsOnly.accountsOnly {A : Nat → Prop} {s t : State} (h : LoadsOnly A s t) : AccountsOnly s t := by
  unfold AccountsOnly
  rw [h.1]

theorem partEnergy_accountsOnly (s : State) (e : BellEnergy) (p : Nat) : AccountsOnly s (s.partEnergy e p) := rfl

theorem forEach_accountsOnly {α : Type} (l : List α) (s : State) {f : State → α → State}
    (hf : ∀ u x, AccountsOnly u (f u x)) : AccountsOnly s (forEach l s f) :=
  foldl_keeps (P := AccountsOnly s) l (fun u x hu => hu.trans (hf u x)) rfl

/-- The bell's energy is in the module's account, and its partitions have theirs. -/
def State.accounted (s : State) (e : BellEnergy) : State :=
  let u := { s with energy := { s.energy with module := (s.energy.module + e.module) % 2 ^ 64, counted := true } }
  let v := forEach ((List.range 4).filter (fun p => u.energy.past.fieldCount p != 0)) u (fun s p => s.partEnergy e p)
  let v := (v.setF PWR_INPUT PWR_INPUT_volts e.volts).setF PWR_INPUT PWR_INPUT_power_w (min 65535 (wattsOf e.module 1))
  let v := v.setF PWR_VCMP PWR_VCMP_current_a (e.amps.getD 0 0)
  forEach (List.range 6) v (fun s d => s.setF (PWR_DOMAIN d) PWR_DOMAIN_current_a (e.amps.getD d 0))

theorem accounted_frame (s : State) (e : BellEnergy) :
    AccountsOnly { s with energy := { s.energy with module := (s.energy.module + e.module) % 2 ^ 64, counted := true } }
      (s.accounted e) := by
  have hparts := forEach_accountsOnly ((List.range 4).filter (fun p => s.energy.past.fieldCount p != 0))
    { s with energy := { s.energy with module := (s.energy.module + e.module) % 2 ^ 64, counted := true } }
    (f := fun s p => s.partEnergy e p) (fun u p => partEnergy_accountsOnly u e p)
  refine hparts.trans (LoadsOnly.accountsOnly (A := fun _ => True) ?_)
  exact ((((LoadsOnly.refl _ _).setF trivial _ _).setF trivial _ _).setF trivial _ _).forEach
    fun u _ _ => (LoadsOnly.refl _ u).setF trivial _ _

/-- A bell of recess enters the idle power. -/
def State.idled (s : State) (e : BellEnergy) : State :=
  let l := (e.module :: s.power.idle).take 64
  ({ s with power := { s.power with idle := l } }).setF PWR_CAP PWR_CAP_idle_w (min 65535 (wattsOf (sumList l) l.length))

theorem addBell_eq (s : State) (e : BellEnergy) :
    s.addBell e = if s.energy.past.recess then (s.accounted e).idled e else s.accounted e := by
  have hpast : (s.accounted e).energy.past = s.energy.past := by rw [accounted_frame s e]
  rw [← hpast]
  rfl

theorem addBell_accounts (s : State) (e : BellEnergy) :
    (s.addBell e).energy.module = (s.energy.module + e.module) % 2 ^ 64 ∧ (s.addBell e).energy.counted = true ∧
    (s.energy.past.recess = false → (s.addBell e).power.idle = s.power.idle) ∧
    s.addBell e = { s with regs := (s.addBell e).regs, energy := (s.addBell e).energy, power := (s.addBell e).power } := by
  have hframe := accounted_frame s e
  unfold AccountsOnly at hframe
  rw [addBell_eq]
  split
  case isTrue hrecess =>
    refine ⟨?_, ?_, fun hno => absurd hrecess (ne_true_of_eq_false hno), ?_⟩
    all_goals
      rw [State.idled, hframe]
      rfl
  case isFalse =>
    refine ⟨?_, ?_, fun _ => ?_, ?_⟩
    all_goals rw [hframe]

/-! Snapshots and clears. -/

/-- The snapshot registers loaded together. -/
def State.snapped (s : State) : State :=
  let t := (s.setReg ENERGY_SNAP_SEQ (BitVec.ofNat 32 (((s.reg ENERGY_SNAP_SEQ).toNat + 1) % 2 ^ 32)))
  let u := (t.setPair ENERGY_SNAP_BELL_LO s.bellCount).setPair ENERGY_MODULE_LO s.energy.module
  let v := forEach (List.range 4) u (fun s p => s.setPair (ENERGY_PART_LO p) (tgetD s.energy.parts p 0))
  forEach (List.range 64) v (fun s r => s.setPair (ENERGY_RING_LO r) (tgetD s.energy.rings r 0))

theorem snapshot_taken {s : State} {c : Cmd} (hbell : c.bell < s.bellCount) (hcounted : s.energy.counted = true) :
    s.snapshot c = s.snapped.ok c (((s.reg ENERGY_SNAP_SEQ).toNat + 1) % 2 ^ 32) := by
  simp only [State.snapshot, Nat.not_le.mpr hbell, hcounted, decide_false, Bool.not_true, Bool.or_self, Bool.false_eq_true, if_false]
  rfl

/-- The snapshot registers beside the sequence number. -/
theorem snapRegs_ne_seq {i : Nat} : ENERGY_PART_LO i ≠ ENERGY_SNAP_SEQ ∧ ENERGY_PART_LO i + 4 ≠ ENERGY_SNAP_SEQ ∧
    ENERGY_RING_LO i ≠ ENERGY_SNAP_SEQ ∧ ENERGY_RING_LO i + 4 ≠ ENERGY_SNAP_SEQ := by
  unfold ENERGY_PART_LO ENERGY_RING_LO ENERGY_SNAP_SEQ
  omega

theorem snapped_loads (s : State) : LoadsOnly (· ≠ ENERGY_SNAP_SEQ)
    (s.setReg ENERGY_SNAP_SEQ (BitVec.ofNat 32 (((s.reg ENERGY_SNAP_SEQ).toNat + 1) % 2 ^ 32))) s.snapped := by
  unfold State.snapped
  dsimp only
  refine LoadsOnly.forEach (LoadsOnly.forEach ?_ fun u _ _ => ?_) fun u _ _ => ?_
  · exact ((LoadsOnly.refl _ _).setPair (by decide) (by decide) _).setPair (by decide) (by decide) _
  · exact (LoadsOnly.refl (· ≠ ENERGY_SNAP_SEQ) u).setPair snapRegs_ne_seq.1 snapRegs_ne_seq.2.1 _
  · exact (LoadsOnly.refl (· ≠ ENERGY_SNAP_SEQ) u).setPair snapRegs_ne_seq.2.2.1 snapRegs_ne_seq.2.2.2 _

theorem snapped_seq (s : State) : s.snapped.reg ENERGY_SNAP_SEQ = BitVec.ofNat 32 ((s.reg ENERGY_SNAP_SEQ).toNat + 1) := by
  rw [(snapped_loads s).2 _ (fun h => h rfl), reg_setReg, if_pos rfl]
  exact BitVec.eq_of_toNat_eq (by simp)

/-- The named classes of counters cleared together. -/
def State.cleared (s : State) (w : Nat) : State :=
  let s := { s with cyc := 3968 }
  let s := if bitSet w 0 then s.clearErrors else s
  let s := if bitSet w 1 then s.clearPerf else s
  if bitSet w 2 then s.clearThrottle else s

theorem countersClear_due {s : State} {c : Cmd} (hbell : c.bell < s.bellCount) :
    s.countersClear c = (s.cleared c.pkt.p0).ok c 0 := by
  rw [State.countersClear, if_neg (Nat.not_le.mpr hbell)]
  rfl

theorem clearErrors_loads (s : State) : LoadsOnly (fun _ => True) s s.clearErrors :=
  (LoadsOnly.refl _ s).forEach fun u _ _ => (LoadsOnly.refl _ u).setReg trivial _

theorem clearPerf_loads (s : State) : LoadsOnly (fun _ => True) s s.clearPerf :=
  (((LoadsOnly.refl _ s).forEach fun u _ _ => (LoadsOnly.refl _ u).forEach fun v _ _ =>
    ((LoadsOnly.refl _ v).setReg trivial _).setReg trivial _).setReg trivial _).setReg trivial _

theorem clearThrottle_loads (s : State) : LoadsOnly (fun _ => True) s s.clearThrottle :=
  ((LoadsOnly.refl _ s).forEach fun u _ _ => (LoadsOnly.refl _ u).forEach fun v _ _ =>
    (LoadsOnly.refl _ v).setReg trivial _).setReg trivial _

theorem cleared_loads (s : State) (w : Nat) : LoadsOnly (fun _ => True) { s with cyc := 3968 } (s.cleared w) := by
  have hif : ∀ (c : Bool) (u v : State), LoadsOnly (fun _ => True) u v → LoadsOnly (fun _ => True) u (if c then v else u) :=
    fun _ u _ h => h.ite (LoadsOnly.refl _ u)
  exact ((hif _ _ _ (clearErrors_loads _)).trans (hif _ _ _ (clearPerf_loads _))).trans (hif _ _ _ (clearThrottle_loads _))

theorem cleared_recess {s : State} {w : Nat} (hperf : bitSet w 1 = true) (hlog : bitSet w 2 = false) :
    (s.cleared w).reg BELL_RECESS_TAKEN_LO = 0 ∧ (s.cleared w).reg BELL_RECESS_TAKEN_HI = 0 := by
  simp only [State.cleared, hperf, hlog, if_true, Bool.false_eq_true, if_false]
  constructor
  · rw [State.clearPerf, reg_setReg, if_neg (by decide), reg_setReg, if_pos rfl]
  · rw [State.clearPerf, reg_setReg, if_pos rfl]

theorem cleared_log {s : State} {w : Nat} (hlog : bitSet w 2 = true) : (s.cleared w).reg THR_LOG_COUNT = 0 := by
  simp only [State.cleared, hlog, if_true]
  rw [State.clearThrottle, reg_setReg, if_pos rfl]

/-! The cap and the budgets. -/

theorem powerCap_within {s : State} {c : Cmd} (hlo : 900 ≤ c.pkt.p0) (hhi : c.pkt.p0 ≤ designPower s.variant) :
    s.powerCap c = ((({ s with power := { s.power with budgets := some (scaleBudgets s.budgets c.pkt.p0) } } : State)).setF
      PWR_CAP PWR_CAP_cap_w c.pkt.p0).ok c 0 := by
  have hin : ¬ (c.pkt.p0 < 900 ∨ designPower s.variant < c.pkt.p0) := by omega
  simp only [State.powerCap, Bool.or_eq_true, decide_eq_true_eq, hin, if_false]

theorem powerCap_outside {s : State} {c : Cmd} (h : c.pkt.p0 < 900 ∨ designPower s.variant < c.pkt.p0) :
    s.powerCap c = s.failAt c stPOWER_RANGE 0 0 := by
  simp only [State.powerCap, Bool.or_eq_true, decide_eq_true_eq, h, if_true]

theorem budgetMove_within {s : State} {c : Cmd} {a b w : Nat} (ha : a = bitsAt c.pkt.p0 0 2) (hb : b = bitsAt c.pkt.p0 2 2)
    (hw : w = bitsAt c.pkt.p0 16 16) (hne : a ≠ b) (hacount : a < s.partCount) (hbcount : b < s.partCount) (hpos : w ≠ 0)
    (hleft : w + 225 * s.fieldCount a ≤ s.budgets.getD a 0) :
    s.budgetMove c = ({ s with power := { s.power with
      budgets := some ((s.budgets.set a (s.budgets.getD a 0 - w)).set b (s.budgets.getD b 0 + w)) } } : State).ok c 0 := by
  have hsecond : ¬ (a = b ∨ s.partCount ≤ b) := by omega
  have hthird : ¬ (w = 0 ∨ s.budgets.getD a 0 < w + 225 * s.fieldCount a) := by omega
  simp only [State.budgetMove, ← ha, ← hb, ← hw, Nat.not_le.mpr hacount, Bool.or_eq_true, decide_eq_true_eq, hsecond, hthird,
    if_false]

theorem budgetTake_some {s : State} {l : List Nat} (h : s.power.budgets = some l) :
    s.budgetTake = forEach (List.range 4) ({ s with power := { s.power with budgets := none } } : State)
      (fun u p => u.setF (PWR_PART p) PWR_PART_budget_w (l.getD p 0)) := by
  simp only [State.budgetTake, h]

/-! The recess for power, and the steps of gating. -/

theorem powerRecess_none {s : State} (hpoint : (List.range 4).any s.atRecessPoint = false)
    (hneed : (List.range 4).filterMap s.powerNeed = []) : s.powerRecess = s := by
  simp only [State.powerRecess, hpoint, Bool.false_eq_true, if_false, hneed, List.foldl_nil]

theorem powerRecess_one {s : State} {r k w : Nat} (hpoint : (List.range 4).any s.atRecessPoint = true)
    (hneed : (List.range 4).filterMap s.markPoint.powerNeed = [(r, k, w)]) :
    s.powerRecess = s.markPoint.requestRecess k 1 r 4 (min 65535 w) := by
  simp only [State.powerRecess, hpoint, if_true, hneed, List.foldl_cons, List.foldl_nil]

theorem gateStep_slack {s : State} {p k : Nat} (hk : k < 8) (hworks : s.working p = true)
    (hbell : lsBells (s.crsOf p).image (s.crsOf p).lesson ≤ (s.crsOf p).lessonBell + 1)
    (hslack : lsLast (s.crsOf p).image (s.crsOf p).lesson ≤ 3647) :
    s.gateStep p k = forEach (s.formsOf p)
      { s with cyc := lsLast (s.crsOf p).image (s.crsOf p).lesson + 1 + 8 * k } (fun u f => u.gateForm k f) := by
  have h128 : 128 ≤ 3775 - lsLast (s.crsOf p).image (s.crsOf p).lesson := by omega
  simp only [State.gateStep, hk, hworks, hbell, h128, decide_true, Bool.and_self, if_true]

/-- Settles O16: each command by the branch its conditions choose. -/
theorem energyAndBudgets : Obligations.EnergyAndBudgets := by
  unfold Obligations.EnergyAndBudgets
  intro s hon
  refine ⟨fun e hcounted => ?_, fun e hfresh => ?_, fun ring tag c hc => onCmd_accepted hc, fun ring tag c hc hbell hcounted => ?_,
    fun ring tag c hc => onCmd_accepted hc, fun ring tag c hc hbell => ?_, fun ring tag c hc hlo hhi => ?_,
    fun ring tag c hc hout => ?_, fun ring tag c a b w hc ha hb hw hne hacount hbcount hpos hleft => ?_, fun l hl => ?_,
    fun hpoint hneed => ?_, fun r k w hpoint hneed => ?_, fun p k hk => ?_, fun p k hk hworks hbell hslack => ?_⟩
  · exact live_next hon (if_pos hcounted)
  · refine gives_of_live hon (exec_energyAccumulate e s) ?_
    rw [State.energyAccumulate, if_neg (ne_true_of_eq_false hfresh)]
    exact addBell_accounts s e
  · refine ⟨s.snapped, (onActive_held hc).trans ?_, (snapped_loads s).1, snapped_seq s⟩
    rw [if_pos hc.2.2, snapshot_taken hbell hcounted]
  · refine ⟨s.cleared c.pkt.p0, (onActive_held hc).trans ?_, (cleared_loads s c.pkt.p0).1, cleared_recess, cleared_log⟩
    rw [if_pos hc.2.2, countersClear_due hbell]
  · exact (onCmd_accepted hc).trans (congrArg _ (powerCap_within hlo hhi))
  · exact (onCmd_accepted hc).trans (congrArg _ (powerCap_outside hout))
  · exact (onCmd_accepted hc).trans (congrArg _ (budgetMove_within ha hb hw hne hacount hbcount hpos hleft))
  · exact live_next hon (budgetTake_some hl)
  · exact live_next hon (powerRecess_none hpoint hneed)
  · exact live_next hon (powerRecess_one hpoint hneed)
  · exact live_next hon (if_pos hk)
  · exact live_next hon (gateStep_slack hk hworks hbell hslack)

end Sys2Proof.Machine
end

section
/-! The reference of the root PLL, droop, canaries and seams (17 R419-R435, 02 R53, R59). -/

namespace Sys2Proof.Machine

/-! The reference. -/

theorem clkRef_other (s : State) {f g : Fld} (b : Bool) (hf : f.lo + f.len ≤ 32) (hd : f.lo + f.len ≤ g.lo ∨ g.lo + g.len ≤ f.lo) :
    (s.setB CLK_REF f b).flag CLK_REF g = s.flag CLK_REF g := flag_setF_fld s CLK_REF _ hf hd

/-- Neither holdover nor the lock is the choice of the reference. -/
theorem setHoldover_refSel (s : State) (b locked : Bool) :
    ((s.setHoldover b).setB CLK_REF CLK_REF_locked locked).flag CLK_REF CLK_REF_ref_sel = s.flag CLK_REF CLK_REF_ref_sel := by
  rw [clkRef_other _ _ (by decide) (by decide), State.setHoldover, flag_setB_reg _ _ _ _ (by decide),
    clkRef_other _ _ (by decide) (by decide)]

theorem referenceLoss_port {s : State} (hlocked : s.flag CLK_REF CLK_REF_holdover = false)
    (hport : s.flag CLK_REF CLK_REF_ref_sel = true) :
    s.referenceLoss = (((s.setHoldover true).setB CLK_REF CLK_REF_locked false)).incF CLK_REF CLK_REF_lock_losses 1 := by
  simp only [State.referenceLoss, hlocked, Bool.false_eq_true, if_false, setHoldover_refSel, hport, if_true]

theorem referenceRegained_port {s : State} (hhold : s.flag CLK_REF CLK_REF_holdover = true)
    (hport : ((s.setHoldover false).setB CLK_REF CLK_REF_locked true).flag CLK_REF CLK_REF_ref_sel = true) :
    s.referenceRegained = (s.setHoldover false).setB CLK_REF CLK_REF_locked true := by
  simp only [State.referenceRegained, hhold, hport, if_true]

/-! Droop. -/

/-- An assertion shows its detector. -/
def State.droopShown (s : State) (die site : Nat) : State :=
  (s.setF CLK_DROOP_COUNT CLK_DROOP_COUNT_last_die die).setF CLK_DROOP_COUNT CLK_DROOP_COUNT_last_site (site % 512)

theorem droopAssert_first {s : State} {die site : Nat} (hdie : die < 6) (hmask : (die, site) ∉ s.clock.masked)
    (hnone : s.clock.asserting = []) :
    s.droopAssert die site = ({ s with clock := { s.clock with asserting := [(die, site)] } }.droopShown die site).incF
      CLK_DROOP_COUNT CLK_DROOP_COUNT_events 1 := by
  have hnot : ¬ (6 ≤ die || s.clock.masked.contains (die, site) || s.clock.asserting.contains (die, site)) = true := by
    simp [hnone, hmask, hdie]
  rw [State.droopAssert, if_neg hnot]
  simp only [hnone, List.nil_append, if_true]
  rfl

theorem droopShown_counted_loads (s : State) (die site : Nat) :
    LoadsOnly (· = CLK_DROOP_COUNT) s ((s.droopShown die site).incF CLK_DROOP_COUNT CLK_DROOP_COUNT_events 1) :=
  (((LoadsOnly.refl (· = CLK_DROOP_COUNT) s).setF rfl _ _).setF rfl _ _).incF rfl _ _

theorem charge_guard {s : State} (h : s.cyc < 3776) (n : Nat) :
    s.charge n = { s with bell := { s.bell with carried := if 0 < s.bell.carried then s.bell.carried + n else 0,
                                                chargeGuard := s.bell.chargeGuard + n } } := if_pos h

theorem charge_guardRuns {s : State} (h : 3776 ≤ s.cyc) (h' : s.cyc < 3840) (n : Nat) :
    s.charge n = ({ s with bell := { s.bell with carried := if 0 < s.bell.carried then s.bell.carried + n else 0,
                                                 chargeGuard := s.bell.chargeGuard + n } } : State).payBack :=
  (if_neg (Nat.not_lt.mpr h)).trans (if_pos h')

theorem charge_slots {s : State} (h : 3840 ≤ s.cyc) (n : Nat) :
    s.charge n = ({ s with bell := { s.bell with carried := if 0 < s.bell.carried then s.bell.carried + n else 0,
                                                 chargeSlots := s.bell.chargeSlots + n } } : State).payBack :=
  (if_neg (by omega)).trans (if_neg (by omega))

/-- A charge goes to the bell alone. -/
theorem charge_frame (s : State) (n : Nat) : s.charge n = { s with bell := (s.charge n).bell } := by
  unfold State.charge
  dsimp only
  split_ifs
  all_goals rfl

/-- Nothing is asserted any more. -/
def State.undrooped (s : State) : State := { s with clock := { s.clock with asserting := [] } }

theorem droopEnd_last {s : State} {die site : Nat} (h : s.clock.asserting = [(die, site)]) (n : Nat) :
    s.droopEnd die site n = s.undrooped.charge (s.suppressed n + s.tailPulses) := by
  have hrest : ([(die, site)] : List (Nat × Nat)).filter (fun x => x != (die, site)) = [] := by simp
  have hhere : ([(die, site)] : List (Nat × Nat)).contains (die, site) = true := by simp
  simp only [State.droopEnd, h, hhere, hrest, if_true]
  rfl

theorem droopEnd_frame {s : State} {die site : Nat} (h : s.clock.asserting.contains (die, site) = true) (n : Nat) :
    s.droopEnd die site n = { s with
      clock := { s.clock with asserting := s.clock.asserting.filter (fun x => x != (die, site)) }
      bell := (s.droopEnd die site n).bell } := by
  rw [State.droopEnd, if_pos h]
  dsimp only
  split
  · exact charge_frame _ _
  · rfl

/-- A masked detector leaves the stretch and is counted. -/
theorem droopMask_frame {s : State} {die site : Nat} (h : s.clock.asserting.contains (die, site) = true) (n : Nat) :
    LoadsOnly (· = CLK_DROOP_COUNT)
      { s with
        clock := { s.clock with asserting := s.clock.asserting.filter (fun x => x != (die, site)),
                                masked := s.clock.masked ++ [(die, site)] }
        bell := (s.droopEnd die site n).bell }
      (s.droopMask die site n) := by
  rw [State.droopMask, if_pos h, droopEnd_frame h]
  exact (LoadsOnly.refl (· = CLK_DROOP_COUNT) _).incF rfl _ _

/-! Canaries and seams. -/

theorem canaryAct_counted {s : State} {g site m : Nat} (hg : s.canaryCounts g site = true)
    (hm : m ≤ s.getF (canaryReg g) CLK_CANARY_CD_act) :
    s.canaryAct g site m = ((s.noteMargin g m).incF (canaryReg g) CLK_CANARY_CD_acts 1).droopAssert (canaryDie g) (site + 512) := by
  simp only [State.canaryAct, hg, hm, decide_true, Bool.and_self, if_true]
  rfl

theorem canaryWarn_noted {s : State} {g site m : Nat} (hg : s.canaryCounts g site = true)
    (hm : m ≤ s.getF (canaryReg g) CLK_CANARY_CD_warn) :
    s.canaryWarn g site m = { s.noteMargin g m with power := { s.power with warnSeen := true } } := by
  simp only [State.canaryWarn, hg, hm, decide_true, Bool.and_self, if_true]

theorem setSeamPhase_mode (s : State) (m : Nat) (n : Int) : (s.setSeamPhase m n).seamMode m = s.seamMode m :=
  getF_setF_fld s _ _ (by decide) (by decide)

theorem seamExcursion_first {s : State} {m : Nat} {n : Int} (hm : m < 4) (hout : inWindow (s.seamMode m) n = false)
    (hnew : tfind s.clock.seamBack m = none) :
    s.seamExcursion m n = forEach (List.range 4)
      ((({ s with clock := { s.clock with seamBack := tput s.clock.seamBack m 0 } } : State).setSeamPhase m n).incF (CLK_SEAM m)
        CLK_SEAM_excursions 1) (fun v p => v.declareHalt p hcSeam) := by
  have hback : tfind (s.setSeamPhase m n).clock.seamBack m = none := hnew
  have hreport : ¬ (inWindow ((s.setSeamPhase m n).seamMode m) n || (tfind (s.setSeamPhase m n).clock.seamBack m).isSome) = true := by
    simp [setSeamPhase_mode, hout, hback]
  rw [State.seamExcursion, if_neg (Nat.not_le.mpr hm)]
  dsimp only
  rw [if_neg hreport]
  rfl

/-- Settles O17: the reference by its flags, an assertion by what is asserted before it, its end by the window it comes in. -/
theorem referenceAndDroop : Obligations.ReferenceAndDroop := by
  unfold Obligations.ReferenceAndDroop
  intro s hon
  refine ⟨fun hlocked hport => live_next hon (referenceLoss_port hlocked hport), live_on hon,
    fun hhold => ⟨live_next hon (if_pos hhold), fun hport => live_next hon (referenceRegained_port hhold hport)⟩,
    fun die site hdie hmask hnone => ?_, fun die site n b m hlast hm hb => ⟨fun hcyc => ?_, fun hcyc hcyc' => ?_, fun hcyc => ?_⟩,
    fun die site n hstands hn => ?_, fun g site m hg hm => live_next hon (canaryAct_counted hg hm),
    fun g site m hg hm => live_next hon (canaryWarn_noted hg hm), fun g m => rfl, fun m n u hm hout hnew hu => ?_⟩
  · have hloads := droopShown_counted_loads { s with clock := { s.clock with asserting := [(die, site)] } } die site
    refine gives_of_live hon (exec_droopAssert die site s) ?_
    rw [droopAssert_first hdie hmask hnone]
    exact ⟨rfl, rfl, hloads.2⟩
  · subst hb hm
    exact live_next hon ((droopEnd_last hlast n).trans (charge_guard (s := s.undrooped) hcyc _))
  · subst hb hm
    exact live_next hon ((droopEnd_last hlast n).trans (charge_guardRuns (s := s.undrooped) hcyc hcyc' _))
  · subst hb hm
    exact live_next hon ((droopEnd_last hlast n).trans (charge_slots (s := s.undrooped) hcyc _))
  · obtain ⟨hframe, hregs⟩ := droopMask_frame hstands n
    refine gives_of_live hon (exec_droopDetectorMask die site n s) ?_
    rw [if_pos hn]
    refine ⟨?_, ?_, hregs⟩
    all_goals rw [hframe]
  · subst hu
    exact live_next hon (seamExcursion_first hm hout hnew)

end Sys2Proof.Machine
end

section
/-! Engines that have nothing due, and a module where no access waits (02 R50, log entry 41). -/

namespace Sys2Proof.Machine

theorem mem_of_tfind {α : Type} {t : Tbl α} {k : Nat} {v : α} (h : tfind t k = some v) : (k, v) ∈ t := by
  induction t with
  | nil => cases h
  | cons x t ih =>
    obtain ⟨j, w⟩ := x
    rw [tfind] at h
    split at h
    next hk =>
      cases h
      rw [hk]
      exact List.mem_cons_self
    next => exact List.mem_cons_of_mem _ (ih h)

/-- A table reads as its default or as one of its entries. -/
theorem tgetD_cases {α : Type} (t : Tbl α) (k : Nat) (d : α) : tgetD t k d = d ∨ (k, tgetD t k d) ∈ t := by
  cases h : tfind t k with
  | none => exact .inl (by rw [tgetD, h, Option.getD_none])
  | some v => exact .inr (by rw [tgetD, h, Option.getD_some]; exact mem_of_tfind h)

theorem tile_dues_nil {s : State} (h : ∀ x ∈ s.tiles, x.2.dues = []) (lt : Nat) : (s.tile lt).dues = [] := by
  rcases tgetD_cases s.tiles lt tile0 with hdef | hmem
  · rw [State.tile, hdef]
    rfl
  · exact h _ hmem

theorem engines_idle {s : State} {lt : Nat} (h : (s.tile lt).dues = []) (x : Nat) : s.engines lt x = s := if_pos h

theorem forEach_fixed {α σ : Type} {l : List α} {s : σ} {f : σ → α → σ} (hf : ∀ x ∈ l, f s x = s) : forEach l s f = s :=
  foldl_keeps_mem (P := (· = s)) l (fun _ x hx h => h ▸ hf x hx) rfl

theorem enginesAll_idle {s : State} (h : ∀ x ∈ s.tiles, x.2.dues = []) : s.enginesAll = s :=
  forEach_fixed fun lt _ => engines_idle (tile_dues_nil h lt) 4096

theorem svcDrainAll_idle {s : State} (hwait : s.svcWait = []) (hheld : s.mxl.heldReqs = []) : s.svcDrainAll = s := by
  have hsame : ({ s with svcWait := [] } : State) = s := by rw [← hwait]
  rw [State.svcDrainAll, hwait, hsame]
  show releaseReqs s.mxl.heldReqs.length s = s
  rw [hheld]
  rfl

/-- A trace record is what the management unit holds, and the free values it draws. -/
theorem trace_frame (s : State) (src : Nat) (code node data : Option Nat) :
    s.trace src code node data = { s with regs := (s.trace src code node data).regs
                                          freeCtr := (s.trace src code node data).freeCtr
                                          mgmt := (s.trace src code node data).mgmt } := by
  unfold State.trace
  split
  · rfl
  · split
    · rfl
    · rfl

theorem trace_reg (s : State) (src : Nat) (code node data : Option Nat) {a : Nat} (ha : eventReg a = false) :
    (s.trace src code node data).reg a = s.reg a :=
  (reports_trace src code node data (Reports.refl s)).2 a ha

end Sys2Proof.Machine
end

section
/-! The start of a bell, its guard, an overrun, bells missed, and the halt bell (02 R46-R68, 12 R346, R347). -/

namespace Sys2Proof.Machine

/-! A bell starts. -/

theorem forEach_filter_none {α σ : Type} {l : List α} {s : σ} {p : α → Bool} {f : σ → α → σ} (h : ∀ x ∈ l, p x = false) :
    forEach (l.filter p) s f = s := by
  rw [List.filter_eq_nil_iff.mpr fun x hx => ne_true_of_eq_false (h x hx)]
  rfl

theorem canaryReg_ge (g : Nat) : 0xf00000150020 ≤ canaryReg g := by
  unfold canaryReg CLK_CANARY_CD CLK_CANARY_ML CLK_CANARY_BD
  split_ifs
  all_goals omega

/-- Registers that BELL_STRETCH, the canary margins and the trace of a bell's end do not touch. -/
def bellKeepsReg (a : Nat) : Prop := eventReg a = false ∧ a ≠ BELL_STRETCH ∧ a < 0xf00000150020

theorem showStretch_eq (s : State) : LoadsOnly (· = BELL_STRETCH) (s.trace 3 none none (some s.bellCharge)) s.showStretch := by
  have hload := (LoadsOnly.refl (· = BELL_STRETCH) (s.trace 3 none none (some s.bellCharge))).setF rfl BELL_STRETCH_last_charge
    (min 4095 s.bellCharge)
  exact (hload.setF rfl _ _).ite hload

theorem showMargins_loads (s : State) : LoadsOnly (0xf00000150020 ≤ ·) { s with clock := { s.clock with margins := [] } }
    s.showMargins :=
  (LoadsOnly.refl _ _).forEach fun u x _ => (LoadsOnly.refl (0xf00000150020 ≤ ·) u).setF (canaryReg_ge x.1) _ _

/-- The state that a bell's end leaves to the next bell. -/
theorem bellEnd_frame (s : State) : s.showStretch.showMargins = { s with
    regs := s.showStretch.showMargins.regs
    freeCtr := s.showStretch.showMargins.freeCtr
    mgmt := s.showStretch.showMargins.mgmt
    clock := { s.clock with margins := [] } } := by
  rw [(showMargins_loads _).1, (showStretch_eq s).1, trace_frame]

theorem bellEnd_reg (s : State) {a : Nat} (ha : bellKeepsReg a) : s.showStretch.showMargins.reg a = s.reg a := by
  obtain ⟨hevent, hstretch, hlow⟩ := ha
  have hmargins : s.showStretch.showMargins.reg a = s.showStretch.reg a := (showMargins_loads _).2 a (Nat.not_le.mpr hlow)
  rw [hmargins, (showStretch_eq s).2 a hstretch, trace_reg _ _ _ _ _ hevent]

/-- The next bell with its number, before its courses are looked at. -/
def State.bellNumbered (s : State) : State :=
  let u := s.showStretch.showMargins.newBell
  u.setPair BELL_COUNT_LO (u.bellCount + 1)

theorem bellNumbered_reg (s : State) {a : Nat} (ha : bellKeepsReg a) (hlo : a ≠ BELL_COUNT_LO) (hhi : a ≠ BELL_COUNT_LO + 4) :
    s.bellNumbered.reg a = s.reg a := by
  rw [State.bellNumbered, State.setPair, reg_setReg, if_neg hhi, reg_setReg, if_neg hlo]
  exact bellEnd_reg s ha

theorem crsState_kept {p : Nat} (hp : p < 4) : bellKeepsReg (BELL_CRS_STATE p) := by
  have h : ∀ p ∈ List.range 4, eventReg (BELL_CRS_STATE p) = false ∧ BELL_CRS_STATE p ≠ BELL_STRETCH ∧
      BELL_CRS_STATE p < 0xf00000150020 := by decide
  exact h p (List.mem_range.mpr hp)

theorem bellNumbered_courseState (s : State) {p : Nat} (hp : p < 4) : s.bellNumbered.courseState p = s.courseState p :=
  congrArg (fldGet · BELL_CRS_STATE_state) (bellNumbered_reg s (crsState_kept hp)
    (by unfold BELL_CRS_STATE BELL_COUNT_LO; omega) (by unfold BELL_CRS_STATE BELL_COUNT_LO; omega))

theorem pair_setPair (s : State) (lo v : Nat) : (s.setPair lo v).pair lo = v % 2 ^ 64 := by
  have hlo : (s.setPair lo v).reg lo = BitVec.ofNat 32 v := by
    rw [State.setPair, reg_setReg, if_neg (by omega), reg_setReg, if_pos rfl]
  have hhi : (s.setPair lo v).reg (lo + 4) = BitVec.ofNat 32 (v / 2 ^ 32) := by rw [State.setPair, reg_setReg, if_pos rfl]
  rw [State.pair, hlo, hhi, BitVec.toNat_ofNat, BitVec.toNat_ofNat]
  omega

theorem pair_congr {s t : State} {lo : Nat} (hlo : t.reg lo = s.reg lo) (hhi : t.reg (lo + 4) = s.reg (lo + 4)) :
    t.pair lo = s.pair lo := by rw [State.pair, State.pair, hlo, hhi]

theorem bellNumbered_count (s : State) : s.bellNumbered.bellCount = (s.bellCount + 1) % 2 ^ 64 := by
  have hcount : s.showStretch.showMargins.newBell.bellCount = s.bellCount :=
    pair_congr (bellEnd_reg s ⟨by decide, by decide, by decide⟩) (bellEnd_reg s ⟨by decide, by decide, by decide⟩)
  rw [← hcount]
  exact pair_setPair _ _ _

theorem originates_congr {s t : State} (hbell : t.bell.silent = s.bell.silent)
    (hsync : ∀ f ∈ [BELL_SYNC_joined, BELL_SYNC_timekeeper, BELL_SYNC_backup], t.flag BELL_SYNC f = s.flag BELL_SYNC f)
    (htree : t.flag FAB_TREE FAB_TREE_following_backup = s.flag FAB_TREE FAB_TREE_following_backup) :
    t.originates = s.originates := by
  rw [State.originates, State.originates, State.isTimekeeper, State.isTimekeeper, hbell, htree, hsync _ (by decide),
    hsync _ (by decide), hsync _ (by decide)]

theorem bellNumbered_bell (s : State) : s.bellNumbered.bell.announced = s.bell.announced ∧
    s.bellNumbered.bell.recess = s.bell.recess ∧ s.bellNumbered.bell.silent = s.bell.silent ∧ s.bellNumbered.groups = s.groups := by
  have hframe := bellEnd_frame s
  refine ⟨?_, ?_, ?_, ?_⟩
  · exact congrArg (·.bell.announced) hframe
  · exact congrArg (·.bell.recess) hframe
  · exact congrArg (·.bell.silent) hframe
  · exact congrArg (·.groups) hframe

theorem group_congr {s t : State} (h : t.groups = s.groups) (p : Nat) : t.group p = s.group p := by
  rw [State.group, State.group, h]

/-- The next bell where no recess is under way. -/
def State.bellOpened (s : State) : State := s.bellNumbered.setB BELL_SYNC BELL_SYNC_recess false

theorem bellOpened_groups (s : State) : s.bellOpened.groups = s.groups :=
  (State.setB_groups _ _ _ _).trans (bellNumbered_bell s).2.2.2

theorem bellOpened_sync (s : State) {f : Fld} (hf : BELL_SYNC_recess.lo + BELL_SYNC_recess.len ≤ f.lo ∨
    f.lo + f.len ≤ BELL_SYNC_recess.lo) : s.bellOpened.flag BELL_SYNC f = s.flag BELL_SYNC f :=
  (flag_setF_fld _ _ _ (by decide) hf).trans (congrArg (fun w => fldGet w f != 0)
    (bellNumbered_reg s ⟨by decide, by decide, by decide⟩ (by decide) (by decide)))

theorem bellOpened_originates (s : State) : s.bellOpened.originates = s.originates := by
  refine originates_congr (bellNumbered_bell s).2.2.1 ?_ ?_
  · simp only [List.forall_mem_cons]
    exact ⟨bellOpened_sync s (by decide), bellOpened_sync s (by decide), bellOpened_sync s (by decide), List.forall_mem_nil _⟩
  · exact (flag_setB_reg _ _ _ _ (by decide)).trans (congrArg (fun w => fldGet w FAB_TREE_following_backup != 0)
      (bellNumbered_reg s ⟨by decide, by decide, by decide⟩ (by decide) (by decide)))

theorem courseLive_of_none {s : State} {p : Nat} (h : s.courseState p = csNone) : s.courseLive p = false := by
  rw [State.courseLive, h]
  rfl

theorem courseBell_of_none {s : State} {p : Nat} (h : s.courseState p = csNone) (b : Nat) (r : Bool) : s.courseBell p b r = s := by
  rw [State.courseBell, courseLive_of_none h]
  rfl

theorem groupSwitch_of_none {s : State} {p : Nat} (h : (s.group p).scheduled = none) (b : Nat) : s.groupSwitch p b = s := by
  rw [State.groupSwitch, h]

theorem endRecess_of_none {s : State} (h : s.bell.recess = none) : s.endRecess = s := by
  rw [State.endRecess, h]

theorem takeAnnounced_of_nil {s : State} (h : s.bell.announced = []) (b : Nat) : s.takeAnnounced b = s := by
  rw [State.takeAnnounced, h]

theorem recessBell_of_none {s : State} (h : s.bell.recess = none) (b : Nat) :
    s.recessBell b = (false, s.setB BELL_SYNC BELL_SYNC_recess false) := by
  rw [State.recessBell, h]

/-- A bell in which no course, recess or group table goes on. -/
theorem bellStart_idle {s : State} (hnone : ∀ p, p < 4 → s.courseState p = csNone) (hann : s.bell.announced = [])
    (hrecess : s.bell.recess = none) (hgroup : ∀ p, p < 4 → (s.group p).scheduled = none) (horig : s.originates = false)
    (depart : Nat) : s.bellStart depart = s.bellOpened := by
  obtain ⟨hann', hrecess', -, -⟩ := bellNumbered_bell s
  have hstate : ∀ p ∈ List.range 4, s.bellNumbered.courseState p = csNone := fun p hp => by
    rw [bellNumbered_courseState s (List.mem_range.mp hp), hnone p (List.mem_range.mp hp)]
  have hstate' : ∀ p ∈ List.range 4, s.bellOpened.courseState p = csNone := fun p hp =>
    (getF_setF_reg _ _ _ _ (by unfold BELL_CRS_STATE BELL_SYNC; omega)).trans (hstate p hp)
  have hsched : ∀ p ∈ List.range 4, (s.bellOpened.group p).scheduled = none := fun p hp => by
    rw [group_congr (bellOpened_groups s), hgroup p (List.mem_range.mp hp)]
  have hends : forEach ((List.range 4).filter s.bellNumbered.courseLive) s.bellNumbered State.endBell = s.bellNumbered :=
    forEach_filter_none fun p hp => courseLive_of_none (hstate p hp)
  have htake : ∀ b, (s.bellNumbered.endRecess.takeAnnounced b).recessBell b = (false, s.bellOpened) := fun b => by
    rw [endRecess_of_none (hrecess'.trans hrecess), takeAnnounced_of_nil (hann'.trans hann),
      recessBell_of_none (hrecess'.trans hrecess)]
    rfl
  have hgroups' : ∀ b, forEach (List.range 4) s.bellOpened (fun y p => y.groupSwitch p b) = s.bellOpened := fun b =>
    forEach_fixed fun p hp => groupSwitch_of_none (hsched p hp) b
  have hcourses : ∀ b, forEach (List.range 4) s.bellOpened (fun y p => y.courseBell p b false) = s.bellOpened := fun b =>
    forEach_fixed fun p hp => courseBell_of_none (hstate' p hp) b false
  rw [State.bellNumbered] at hends htake
  simp only [State.bellStart, hends, htake, hgroups', hcourses, bellOpened_originates, horig, Bool.false_eq_true, if_false]

theorem bellOpened_count (s : State) : s.bellOpened.bellCount = (s.bellCount + 1) % 2 ^ 64 :=
  (pair_congr (reg_setB_other _ _ _ (by decide)) (reg_setB_other _ _ _ (by decide))).trans (bellNumbered_count s)

/-- What the next bell keeps where nothing goes on. -/
theorem bellOpened_frame (s : State) : s.bellOpened.cyc = 0 ∧ s.bellOpened.mem = s.mem ∧ s.bellOpened.cmds = s.cmds ∧
    s.bellOpened.cores = s.cores.map (fun x => (x.1, x.2.newBell)) ∧ s.bellOpened.chans = s.chans ∧
    s.bellOpened.svcWait = s.svcWait ∧ s.bellOpened.mxl = s.mxl := by
  have hframe := bellEnd_frame s
  refine ⟨rfl, ?_, ?_, ?_, ?_, ?_, ?_⟩
  · exact (State.setB_mem _ _ _ _).trans ((State.setPair_mem _ _ _).trans (congrArg (·.mem) hframe))
  · exact (State.setB_cmds _ _ _ _).trans ((State.setPair_cmds _ _ _).trans (congrArg (·.cmds) hframe))
  · exact (State.setB_cores _ _ _ _).trans ((State.setPair_cores _ _ _).trans
      (congrArg (·.cores.map (fun x => (x.1, x.2.newBell))) hframe))
  · exact (State.setB_chans _ _ _ _).trans ((State.setPair_chans _ _ _).trans (congrArg (·.chans) hframe))
  · exact (State.setB_svcWait _ _ _ _).trans ((State.setPair_svcWait _ _ _).trans (congrArg (·.svcWait) hframe))
  · exact (State.setB_mxl _ _ _ _).trans ((State.setPair_mxl _ _ _).trans (congrArg (·.mxl) hframe))

/-! The guard. -/

/-- t is s but for registers and layers. -/
def LayersOnly (s t : State) : Prop := t = { s with regs := t.regs, layers := t.layers }

theorem LayersOnly.trans {s t u : State} (h : LayersOnly s t) (h' : LayersOnly t u) : LayersOnly s u := by
  unfold LayersOnly at *
  rw [h', h]

theorem forEach_layersOnly {α : Type} (l : List α) (s : State) {f : State → α → State} (hf : ∀ u x, LayersOnly u (f u x)) :
    LayersOnly s (forEach l s f) := foldl_keeps (P := LayersOnly s) l (fun u x hu => hu.trans (hf u x)) rfl

/-- The state in which the guard begins, before the layers decide their slot B. -/
def State.guardBegun (s : State) : State :=
  ({ s with cyc := 3776, layers := s.layers.map (fun x => (x.1, { x.2 with banks := [] })) } : State).payBack

theorem guardStart_layersOnly (s : State) : LayersOnly s.guardBegun s.guardStart :=
  forEach_layersOnly (List.range 4) s.guardBegun fun _ _ => rfl

/-! Overrun. -/

theorem Reports.setReg {u t : State} (h : Reports u t) {a : Nat} (ha : eventReg a = false) {f : Word → Word} :
    Reports (u.setReg a (f (u.reg a))) (t.setReg a (f (t.reg a))) := by
  obtain ⟨hframe, hreg⟩ := h
  refine ⟨?_, fun b hb => ?_⟩
  · conv_lhs => rw [hframe]
    rfl
  · rw [reg_setReg, reg_setReg, hreg a ha]
    split
    · rfl
    · exact hreg b hb

theorem Reports.incF {u t : State} (h : Reports u t) {a : Nat} (ha : eventReg a = false) (f : Fld) (n : Nat) :
    Reports (u.incF a f n) (t.incF a f n) :=
  h.setReg ha (f := fun w => fldPut w f (min (2 ^ f.len - 1) (fldGet w f + n)))

theorem Reports.withBell {u t : State} (h : Reports u t) (b : BellSt) : Reports { u with bell := b } { t with bell := b } := by
  obtain ⟨hframe, hreg⟩ := h
  refine ⟨?_, hreg⟩
  rw [hframe]

/-- Whether the next bell works does not hang on the overrun that is noted. -/
theorem nextBellWorks_noted (u : State) :
    State.nextBellWorks { u with bell := { u.bell with overrun := true } } = u.nextBellWorks := rfl

theorem bellOverrun_within {s u : State} (hcharge : 256 < s.bellCharge) (hnew : s.bell.overrun = false)
    (hu : u = (s.raise evOverrun 255 0 0 s.bellCharge 0 0 0).incF BELL_OVERRUN_COUNT BELL_OVERRUN_COUNT_count 1)
    (hidle : (List.range 4).any u.nextBellWorks = false) :
    s.bellOverrun = { u with bell := { u.bell with overrun := true, carried := s.bellCharge - 256 } } := by
  have hover : (decide (256 < s.bellCharge) && !s.bell.overrun) = true := by simp [hcharge, hnew]
  rw [State.bellOverrun, if_pos hover, ← hu]
  dsimp only
  rw [nextBellWorks_noted, if_neg (ne_true_of_eq_false hidle)]

/-! Bells missed, the way back, the halt bell. -/

theorem bellMissing_backup {s : State} (hjoined : s.flag BELL_SYNC BELL_SYNC_joined = true) (hmissing : 4 ≤ s.bell.missing)
    (hbackup : s.flag BELL_SYNC BELL_SYNC_backup = true) :
    s.bellMissing = ((s.setB FAB_TREE FAB_TREE_following_backup true).setF CLK_REF CLK_REF_ref_sel 0).setF
      CLK_REF CLK_REF_upstream_port 7 := by
  simp only [State.bellMissing, hjoined, hmissing, decide_true, Bool.and_self, if_true, hbackup]

theorem rejoin_in_tolerance {s : State} (hout : s.flag BELL_SYNC BELL_SYNC_out_of_step = true) (htol : 16 ≤ s.bell.inTol) :
    s.rejoin = ({ s with bell := { s.bell with inTol := 0, warned := false } } : State).setB BELL_SYNC
      BELL_SYNC_out_of_step false := by
  simp only [State.rejoin, hout, htol, decide_true, Bool.and_self, if_true]

/-- Settles O19: the pieces of a bell's start, and the branch that each other command takes. -/
theorem bellBegins : Obligations.BellBegins := by
  unfold Obligations.BellBegins
  intro s hon
  refine ⟨fun depart u b x v r hu hb hx hrecess => ?_, fun depart hnone hann hrecess hgroup horig hquiet => ?_, live_on hon,
    fun hquiet => ?_, fun hcharge hnew hidle => ?_,
    fun hjoined hmissing hbackup => live_next hon (bellMissing_backup hjoined hmissing hbackup),
    fun hout htol => live_next hon (rejoin_in_tolerance hout htol), fun p h hp hhalt hstate hdue => ?_⟩
  · subst hu hb hx
    refine live_next hon ?_
    dsimp only
    rw [State.bellStart, ← hrecess]
  · obtain ⟨hdues, hwait, hheld⟩ := hquiet
    obtain ⟨hcyc, hmem, hcmds, hcores, hchans, hwait', hmxl⟩ := bellOpened_frame s
    refine gives_of_live hon (exec_bellStart depart s) ?_
    rw [enginesAll_idle hdues, bellStart_idle hnone hann hrecess hgroup horig,
      svcDrainAll_idle (hwait'.trans hwait) (by rw [hmxl, hheld])]
    exact ⟨hcyc, bellOpened_count s, hmem, hcmds, hcores, hchans⟩
  · obtain ⟨hdues, hwait, hheld⟩ := hquiet
    have hframe := guardStart_layersOnly s
    unfold LayersOnly at hframe
    refine gives_of_live hon (exec_guardStart s) ?_
    rw [enginesAll_idle hdues, svcDrainAll_idle (by rw [hframe]; exact hwait) (by rw [hframe]; exact hheld), hframe]
    exact ⟨rfl, rfl, rfl, rfl⟩
  · refine gives_of_live hon (exec_bellOverrun s) ?_
    have hreports := reports_raise evOverrun 255 0 0 s.bellCharge 0 0 0 (Reports.refl s)
    have hbell : (s.raise evOverrun 255 0 0 s.bellCharge 0 0 0).bell = s.bell := congrArg (·.bell) hreports.1
    rw [bellOverrun_within hcharge hnew rfl hidle, State.incF_bell, hbell]
    exact ⟨rfl, (hreports.incF (by decide) _ _).withBell _⟩
  · refine live_next hon ?_
    have hgo : (s.courseState p = csHalting && decide (h ≤ s.bellCount)) = true := by simp [hstate, hdue]
    rw [if_pos hp, State.haltReached, hhalt]
    exact if_pos hgo

end Sys2Proof.Machine
end

section
/-! The symbols of the bell tree: BELL, HALT, RECESS and RECESS_REQ (12 R331, R345-R348, 02 R64, R71). -/

namespace Sys2Proof.Machine

/-! Symbols that are lost or dropped. -/

theorem treeSymbols_lost {s : State} {port : Nat} (h : s.portUp port = false) (y : Sym) (bad : Bool) (arrival : Int) (resid : Nat) :
    s.symBell port y bad arrival resid = s ∧ s.symHalt port y bad = s ∧ s.symRecess port y bad = s ∧ s.symRecessReq port y bad = s := by
  have hdown : (!s.portUp port) = true := by rw [h]; rfl
  exact ⟨if_pos hdown, if_pos hdown, if_pos hdown, if_pos hdown⟩

section
variable {s : State} {port : Nat} {y : Sym} {bad : Bool}

theorem symBell_dropped (hup : s.portUp port = true) (h : symGood 2 y bad = false) (arrival : Int) (resid : Nat) :
    s.symBell port y bad arrival resid = s.dropSym port := by simp [State.symBell, hup, h]

theorem symHalt_dropped (hup : s.portUp port = true) (h : symGood 3 y bad = false) : s.symHalt port y bad = s.dropSym port := by
  simp [State.symHalt, hup, h]

theorem symRecess_dropped (hup : s.portUp port = true) (h : symGood 4 y bad = false) :
    s.symRecess port y bad = s.dropSym port := by simp [State.symRecess, hup, h]

theorem symRecessReq_dropped (hup : s.portUp port = true) (h : symGood 5 y bad = false) :
    s.symRecessReq port y bad = s.dropSym port := by simp [State.symRecessReq, hup, h]

end

/-! Symbols that are taken. -/

/-- A BELL from the backup, on a joined device that follows it. -/
theorem symBell_backup {s : State} {port : Nat} {y : Sym} (hgood : symGood 2 y false = true) (hup : s.portUp port = true)
    (horig : s.originates = false) (hfollows : s.flag FAB_TREE FAB_TREE_following_backup = true)
    (hport : port = s.getF FAB_TREE FAB_TREE_up_backup) (hfrom : y.origin = s.map.backup)
    (hjoined : s.flag BELL_SYNC BELL_SYNC_joined = true) (arrival : Int) (resid : Nat) :
    s.symBell port y false arrival resid =
      let e := -(arrival - (s.getF (PORT_SYMDELAY port) PORT_SYMDELAY_delay : Int) - (y.b32 : Int))
      let u := ({ s with bell := { s.bell with heard := true, missing := 0 } } : State).joinedBell y.bell e
      forEach u.downPorts u (fun x p => x.sendSym p (mkSym 2 (y.a8 + 1) y.origin y.bell
        (y.b32 + s.getF (PORT_SYMDELAY port) PORT_SYMDELAY_delay + resid))) := by
  have htakes : s.takesBell port y.origin = true := by
    simp only [State.takesBell, hfollows, if_true, hport, hfrom, beq_self_eq_true, Bool.and_self]
  have hjoined' : State.flag { s with bell := { s.bell with heard := true, missing := 0 } } BELL_SYNC BELL_SYNC_joined = true :=
    hjoined
  simp only [State.symBell, hup, hgood, horig, htakes, hfollows, Bool.not_true, Bool.false_and, Bool.or_self, Bool.false_eq_true,
    if_false, hjoined', if_true]

/-- A symbol is noted where it arrived, so that a copy of it is known. -/
def State.symNoted (s : State) (port typ : Nat) (y : Sym) : State :=
  s.modPort port (fun t => { t with seen := t.seen ++ [(typ, y.origin, y.bell)] })

theorem sendSym3All_frame (s : State) (l : List Nat) (y : Sym) :
    s.sendSym3All l y = { s with out := (s.sendSym3All l y).out } :=
  foldl_keeps (P := fun t : State => t = { s with out := t.out }) l
    (fun t p h => by rw [show t.sendSym3 p y = { t with out := (t.sendSym3 p y).out } from rfl, h]) rfl

theorem symHalt_named {s : State} {port : Nat} {y : Sym} (hup : s.portUp port = true) (hgood : symGood 3 y false = true)
    (hnew : ∀ q, q < 6 → (s.port q).seen = []) (hport : port < 6) (hruns : s.courseRunning (s.partOfPort port) = true)
    (hlater : s.bellCount < s.fullBell y.bell) :
    s.symHalt port y false = ((s.symNoted port 3 y).sendSym3All
      (((s.symNoted port 3 y).upPorts (s.partOfPort port)).filter (· != port)) y).nameHalt (s.partOfPort port) (s.fullBell y.bell)
        y.b32 y.origin false := by
  have hfresh : ¬ ((s.port port).seen.contains (3, y.origin, y.bell) || (List.range 6).any (fun q =>
      s.partOfPort q == s.partOfPort port && (s.port q).seen.contains (3, y.origin, y.bell))) = true := by
    simp only [hnew port hport, Bool.or_eq_true, List.any_eq_true, List.mem_range, Bool.and_eq_true, not_or, not_exists, not_and]
    refine ⟨by simp, fun q hq _ => ?_⟩
    simp [hnew q hq]
  generalize hv : (s.symNoted port 3 y).sendSym3All (((s.symNoted port 3 y).upPorts (s.partOfPort port)).filter (· != port)) y = v
  have hregs : v.regs = s.regs := by
    rw [← hv, sendSym3All_frame]
    rfl
  have hruns' : (v.courseRunning (s.partOfPort port) || decide (v.courseState (s.partOfPort port) = csStarting)) = true := by
    have h : v.courseRunning (s.partOfPort port) = s.courseRunning (s.partOfPort port) := by
      simp only [State.courseRunning, State.courseState, State.getF, reg_congr hregs]
    rw [h, hruns, Bool.true_or]
  have hcount : v.bellCount = s.bellCount := pair_congr (reg_congr hregs _) (reg_congr hregs _)
  have hbell : v.fullBell y.bell = s.fullBell y.bell := by rw [State.fullBell, State.fullBell, hcount]
  rw [State.symHalt, hup, hgood]
  simp only [Bool.not_true, Bool.false_eq_true, if_false]
  rw [if_neg hfresh]
  rw [State.symNoted] at hv
  rw [hv, if_pos hruns', hbell, hcount, if_neg (Nat.not_le.mpr hlater)]

theorem symRecess_taken {s : State} {port : Nat} {y : Sym} (hup : s.portUp port = true) (hgood : symGood 4 y false = true)
    (hport : port = s.upPort) (hnew : (s.port port).seen.contains (4, y.origin, y.bell) = false) :
    s.symRecess port y false =
      let w := (s.symNoted port 4 y).sendSym3All (s.symNoted port 4 y).downPorts y
      w.scheduleRecess { bell := w.fullBell y.bell, k := y.a8, origin := y.origin } := by
  rw [State.symRecess, hup, hgood]
  simp only [Bool.not_true, Bool.false_eq_true, if_false]
  rw [if_neg (not_not.mpr hport), if_neg (ne_true_of_eq_false hnew)]
  rfl

section
variable {s : State} {port : Nat} {y : Sym}

theorem symRecessReq_taken (hup : s.portUp port = true) (hgood : symGood 5 y false = true)
    (hnew : (s.port port).seen.contains (5, y.origin, y.bell) = false) :
    s.symRecessReq port y false =
      let u := s.symNoted port 5 y
      if u.originates then
        { u with bell := { u.bell with requests := u.bell.requests ++
          [{ k := y.a8, s := y.b32, bell := u.fullBell y.bell, reason := 0, value := 0, origin := y.origin }] } }
      else if u.upPort < 6 then u.sendSym3 u.upPort y else u := by
  rw [State.symRecessReq, hup, hgood]
  simp only [Bool.not_true, Bool.false_eq_true, if_false]
  rw [if_neg (ne_true_of_eq_false hnew)]
  rfl

end

/-! The timekeeper announces a recess. -/

theorem showRecess_loads (s : State) : LoadsOnly (fun _ => True) s s.showRecess := by
  unfold State.showRecess
  split
  all_goals exact ((LoadsOnly.refl _ s).setPair trivial trivial _).setF trivial _ _

theorem scheduleRecess_frame (s : State) (r : Recess) :
    s.scheduleRecess r = { s with regs := (s.scheduleRecess r).regs
                                  bell := { s.bell with announced := insertRecess r s.bell.announced } } :=
  (showRecess_loads _).1

theorem recessAnnounce_best {s : State} {q : RecessReq} {b : Nat} (hb : b = s.bellCount + s.map.horizon)
    (hbest : bestRequest (covering s.bell.requests b) = some q) (horig : s.originates = true) (hpoint : s.domainPoint b = true) :
    ∃ v : State, v = { s with bell := { s.bell with requests := spendPoint s.bell.requests b }, out := v.out } ∧
      s.recessAnnounce = v.scheduleRecess { bell := b, k := q.k, origin := v.deviceId } := by
  refine ⟨_, sendSym3All_frame { s with bell := { s.bell with requests := spendPoint s.bell.requests b } }
    (State.downPorts { s with bell := { s.bell with requests := spendPoint s.bell.requests b } })
    (mkSym 4 q.k s.deviceId b ((covering s.bell.requests b).foldl (fun m r => max m (r.s - 1)) 0)), ?_⟩
  subst hb
  simp only [State.recessAnnounce, hbest, horig, hpoint, Bool.and_self, if_true]
  rfl

/-- Settles O20: a symbol by what its port, its check and the copies before it make of it. -/
theorem bellTree : Obligations.BellTree := by
  unfold Obligations.BellTree
  intro s hon
  refine ⟨fun port y bad arrival resid hdown => ?_, fun port y bad arrival resid hup h2 h3 h4 h5 => ?_,
    fun port y arrival resid e hgood hup horig hfollows hport hfrom hjoined he => ?_,
    fun port y p u hup hgood hnew hport hp hruns hlater hu => ?_, fun port y hup hgood hport hnew => ?_,
    fun port y hup hgood hnew horig => ?_, fun port y hup hgood hnew horig htree => ?_, fun q b hb hbest horig hpoint => ?_⟩
  · obtain ⟨hbell, hhalt, hrecess, hreq⟩ := treeSymbols_lost hdown y bad arrival resid
    exact ⟨live_next hon hbell, live_next hon hhalt, live_next hon hrecess, live_next hon hreq⟩
  · exact ⟨live_next hon (symBell_dropped hup h2 arrival resid), live_next hon (symHalt_dropped hup h3),
      live_next hon (symRecess_dropped hup h4), live_next hon (symRecessReq_dropped hup h5)⟩
  · subst he
    exact live_next hon (symBell_backup hgood hup horig hfollows hport hfrom hjoined arrival resid)
  · subst hp hu
    exact gives_of_live hon (exec_symHalt port y false s) (symHalt_named hup hgood hnew hport hruns hlater)
  · exact live_next hon (symRecess_taken hup hgood hport hnew)
  · exact live_next hon ((symRecessReq_taken hup hgood hnew).trans (if_pos horig))
  · exact live_next hon ((symRecessReq_taken hup hgood hnew).trans
      ((if_neg (ne_true_of_eq_false horig)).trans (if_pos htree)))
  · obtain ⟨v, hv, hannounce⟩ := recessAnnounce_best hb hbest horig hpoint
    have hid : v.deviceId = s.deviceId := by
      rw [hv]
      rfl
    refine gives_of_live hon (exec_recessAnnounce s) ?_
    rw [hannounce, scheduleRecess_frame, hid, hv]
    exact ⟨rfl, rfl, rfl⟩

end Sys2Proof.Machine
end

section
/-! Locker commands, the delivery and the acknowledgement of words, and accesses from below (08 R237-R253). -/

namespace Sys2Proof.Machine

/-! Locker commands. -/

section
variable {s : State} {locker w : Nat}

theorem lockerCommand_good (hhere : s.present (locker / 64) = true) (hpar : lcParity w = true) (hcmd : lcCmd w = 1 ∨ lcCmd w = 2)
    (data wires : List Nat) :
    s.lockerCommand locker w data wires =
      if lcSide w = 1 then (if s.belowOpen (s.partOfLt (locker / 64)) then s.baseCommand locker w data wires else s)
      else if s.topOpen (s.partOfLt (locker / 64)) then s.topCommand locker w wires else s := by
  have hmeans : ¬ (!(decide (lcCmd w = 1) || decide (lcCmd w = 2))) = true := by
    rcases hcmd with h | h
    all_goals simp [h]
  simp only [State.lockerCommand, hhere, hpar, Bool.not_true, Bool.false_eq_true, if_false]
  rw [if_neg hmeans]

/-- An endpoint outside its windows drives nothing. -/
theorem lockerCommand_closed (hhere : s.present (locker / 64) = true) (hpar : lcParity w = true) (hcmd : lcCmd w = 1 ∨ lcCmd w = 2)
    (hclosed : lcSide w = 1 ∧ s.belowOpen (s.partOfLt (locker / 64)) = false ∨
      lcSide w ≠ 1 ∧ s.topOpen (s.partOfLt (locker / 64)) = false) (data wires : List Nat) :
    s.lockerCommand locker w data wires = s := by
  rw [lockerCommand_good hhere hpar hcmd]
  rcases hclosed with ⟨hbase, hshut⟩ | ⟨htop, hshut⟩
  · rw [if_pos hbase, hshut]
    rfl
  · rw [if_neg htop, hshut]
    rfl

theorem baseCommand_write (hcmd : lcCmd w = 2) (data wires : List Nat) :
    s.baseCommand locker w data wires = forEach ((List.range 4).filter (bitSet (lcMask w))) s (fun u i =>
      u.wordArrives (lcAddr locker w + 8 * i) (data.getD i 0 % 2 ^ 64) false (wires.getD i 0)) := by
  simp only [State.baseCommand, hcmd, if_true]
  rfl

theorem topCommand_write (hcmd : lcCmd w = 2) (wires : List Nat) :
    s.topCommand locker w wires = forEach ((List.range 4).filter (bitSet (lcMask w))) s (fun u i =>
      match (u.chan (locker / 8)).ops.find? (waits true (lcAddr locker w + 8 * i)) with
      | some o => u.performOp (locker / 8) o (wires.getD i 0)
      | none => u) := by
  rw [State.topCommand, hcmd]
  rfl

/-- A read of the base die with a parity error. -/
theorem lockerCommand_parity (hhere : s.present (locker / 64) = true) (hpar : lcParity w = false) (hside : lcSide w = 1)
    (hcmd : lcCmd w = 1) (data wires : List Nat) :
    s.lockerCommand locker w data wires =
      (s.incF (MEM_CHAN (lcLayer w)) MEM_CHAN_cmd_parity 1).memFaultAt (lcLayer w) (locker * 0x1000000) 2 := by
  have hread : (lcCmd w == 2) = false := by rw [hcmd]; rfl
  simp only [State.lockerCommand, hhere, hpar, Bool.not_true, Bool.not_false, Bool.false_eq_true, if_false, if_true,
    State.badCommand, hside, hread, decide_true, Bool.true_or]

end

/-! Delivery and acknowledgement. -/

section
variable {s : State} {lt c : Nat}

theorem lockerDeliver_ready {o : LkOp} (hread : (s.chan (8 * lt + c)).ops.find? (fun x => !x.write) = some o)
    (hdone : ((s.chan (8 * lt + c)).ops.filter (fun x => !x.write && x.beat == o.beat)).all (·.done) = true) :
    s.lockerDeliver lt c =
      let beat := (s.chan (8 * lt + c)).ops.filter (fun x => !x.write && x.beat == o.beat)
      let u := ({ s with cyc := (o.cycle + 60) % 4096 } : State).portWrite lt (o.cycle + 60) 1 (7 + c) o.off
        (beat.flatMap (fun y => leBytes 8 y.data)) (beat.flatMap (fun y => List.replicate 8 y.poison)) o.tag
      let v := u.modChan (8 * lt + c) (fun v => { v with ops := v.ops.filter (fun y => y.write || y.beat != o.beat) })
      if (v.chan (8 * lt + c)).ops = [] && (v.chan (8 * lt + c)).copy.isNone && (v.chan (8 * lt + c)).ind.isNone then
        v.setB (MOV_STATUS_LT lt c) MOV_STATUS_LT_busy false else v := by
  simp only [State.lockerDeliver, hread, hdone, if_true]

theorem lockerAck_ready (hwrite : (s.chan (8 * lt + c)).ops.any (fun o => o.write) = true)
    (hall : (s.chan (8 * lt + c)).ops.all (fun o => o.write && o.done) = true) (hcopy : (s.chan (8 * lt + c)).copy = none)
    (hind : (s.chan (8 * lt + c)).ind = none) :
    s.lockerAck lt c = (({ s with cyc := ((s.chan (8 * lt + c)).ops.foldl (fun m o => max m o.cycle) 0 + 40) % 4096 } :
      State).modChan (8 * lt + c) (fun v => { v with ops := [] })).setB (MOV_STATUS_LT lt c) MOV_STATUS_LT_busy false := by
  simp only [State.lockerAck, hwrite, hall, hcopy, hind, Option.isNone_none, Bool.and_self, if_true]

end

/-! Accesses from below. -/

theorem accessBelow_open {s : State} {write : Bool} {a n : Nat} (hok : s.svcRefuse a n write = none) (hopen : s.rangeOpen a n = true)
    (off : Nat) :
    s.accessBelow write a n off = if write then (s.svcWrite a (ccRead s off n)).2
      else (s.svcRead a n).2.ccWrite off (s.svcRead a n).1.1 := by
  simp only [State.accessBelow, hok, hopen, Option.isSome_none, Bool.not_true, Bool.or_self, Bool.false_eq_true, if_false]

theorem tileChannel_here {lt c : Nat} (hlt : lt < 256) (hc : c < 8) : (decide (lt < 256) && decide (c < 8)) = true := by
  simp [hlt, hc]

/-- Settles O21: a locker command by its endpoint and that endpoint's window, the rest by what the channel holds. -/
theorem lockerWords : Obligations.LockerWords := by
  unfold Obligations.LockerWords
  intro s hon
  refine ⟨fun locker w data wires hhere hpar hside hcmd hopen => ?_, fun locker w data wires hhere hpar hside hcmd hopen => ?_,
    fun locker w data wires hhere hpar hside hcmd => live_next hon (lockerCommand_parity hhere hpar hside hcmd data wires),
    fun locker w data wires hhere hpar hcmd hclosed => live_next hon (lockerCommand_closed hhere hpar hcmd hclosed data wires),
    fun lt c o hlt hc hread hdone _ => live_next hon ((if_pos (tileChannel_here hlt hc)).trans (lockerDeliver_ready hread hdone)),
    fun lt c hlt hc hwrite hall hcopy hind =>
      live_next hon ((if_pos (tileChannel_here hlt hc)).trans (lockerAck_ready hwrite hall hcopy hind)),
    fun a n off hok hopen => live_next hon (accessBelow_open hok hopen off),
    fun a n off hok hopen => live_next hon (accessBelow_open hok hopen off)⟩
  · have htop : ¬ lcSide w = 1 := by omega
    exact live_next hon ((lockerCommand_good hhere hpar (.inr hcmd) data wires).trans
      ((if_neg htop).trans ((if_pos hopen).trans (topCommand_write hcmd wires))))
  · exact live_next hon ((lockerCommand_good hhere hpar (.inr hcmd) data wires).trans
      ((if_pos hside).trans ((if_pos hopen).trans (baseCommand_write hcmd data wires))))

end Sys2Proof.Machine
end

section
/-! The units of the module, read after one of them has been changed; a one-bit field read back. -/

namespace Sys2Proof.Machine

theorem tgetD_tmod {α : Type} (t : Tbl α) (k j : Nat) (d : α) (f : α → α) :
    tgetD (tmod t k d f) j d = if j = k then f (tgetD t k d) else tgetD t j d := tgetD_tput t k j _ d

theorem crsOf_modCrs (s : State) (n k : Nat) (f : Course → Course) :
    (s.modCrs n f).crsOf k = if k = n then f (s.crsOf n) else s.crsOf k := tgetD_tmod s.crs n k course0 f

theorem tile_modTile (s : State) (n k : Nat) (f : TileSt → TileSt) :
    (s.modTile n f).tile k = if k = n then f (s.tile n) else s.tile k := tgetD_tmod s.tiles n k tile0 f

theorem core_modCore (s : State) (n k : Nat) (f : CoreSt → CoreSt) :
    (s.modCore n f).core k = if k = n then f (s.core n) else s.core k := tgetD_tmod s.cores n k core0 f

theorem chan_modChan (s : State) (n k : Nat) (f : ChanSt → ChanSt) :
    (s.modChan n f).chan k = if k = n then f (s.chan n) else s.chan k := tgetD_tmod s.chans n k chan0 f

theorem layer_modLayer (s : State) (n k : Nat) (f : LayerSt → LayerSt) :
    (s.modLayer n f).layer k = if k = n then f (s.layer n) else s.layer k := tgetD_tmod s.layers n k layer0 f

theorem group_modGroup (s : State) (n k : Nat) (f : GroupSt → GroupSt) :
    (s.modGroup n f).group k = if k = n then f (s.group n) else s.group k := tgetD_tmod s.groups n k group0 f

theorem port_modPort (s : State) (n k : Nat) (f : PortSt → PortSt) :
    (s.modPort n f).port k = if k = n then f (s.port n) else s.port k := tgetD_tmod s.ports n k port0 f

theorem crsOf_congr {s t : State} (h : t.crs = s.crs) (k : Nat) : t.crsOf k = s.crsOf k := by
  rw [State.crsOf, State.crsOf, h]

theorem tile_congr {s t : State} (h : t.tiles = s.tiles) (k : Nat) : t.tile k = s.tile k := by
  rw [State.tile, State.tile, h]

theorem core_congr {s t : State} (h : t.cores = s.cores) (k : Nat) : t.core k = s.core k := by
  rw [State.core, State.core, h]

theorem chan_congr {s t : State} (h : t.chans = s.chans) (k : Nat) : t.chan k = s.chan k := by
  rw [State.chan, State.chan, h]

theorem layer_congr {s t : State} (h : t.layers = s.layers) (k : Nat) : t.layer k = s.layer k := by
  rw [State.layer, State.layer, h]

theorem port_congr {s t : State} (h : t.ports = s.ports) (k : Nat) : t.port k = s.port k := by
  rw [State.port, State.port, h]

theorem forEach_nil {α σ : Type} (s : σ) (f : σ → α → σ) : forEach [] s f = s := rfl

theorem forEach_range_succ {σ : Type} (n : Nat) (s : σ) (f : σ → Nat → σ) :
    forEach (List.range (n + 1)) s f = f (forEach (List.range n) s f) n := by
  rw [forEach, List.range_succ, List.foldl_append]
  rfl

/-- Each of the first n layers changed in the same way. -/
theorem layer_forEach_modLayer (s : State) (f : LayerSt → LayerSt) (k n : Nat) :
    (forEach (List.range n) s (fun u l => u.modLayer l f)).layer k = if k < n then f (s.layer k) else s.layer k := by
  induction n with
  | zero => rfl
  | succ n ih =>
    rw [forEach_range_succ, layer_modLayer]
    by_cases hk : k = n
    · subst hk
      rw [if_pos rfl, if_pos (Nat.lt_succ_self k), ih, if_neg (Nat.lt_irrefl k)]
    · rw [if_neg hk, ih]
      by_cases hlt : k < n
      · rw [if_pos hlt, if_pos (Nat.lt_succ_of_lt hlt)]
      · rw [if_neg hlt, if_neg (by omega)]

theorem flag_setB (s : State) (a : Nat) {f : Fld} (b : Bool) (hf : f.lo + f.len ≤ 32) (hlen : 0 < f.len) :
    (s.setB a f b).flag a f = b := by
  cases b with
  | false =>
    have hzero : (s.setB a f false).getF a f = 0 := (getF_setF s a f _ hf).trans (Nat.zero_mod _)
    rw [State.flag, hzero]
    rfl
  | true => exact flag_setB_true s a hf hlen

theorem findTag_congr {s t : State} (h : t.cmds = s.cmds) (ring tag : Nat) : t.findTag ring tag = s.findTag ring tag := by
  rw [State.findTag, State.findTag, h]

end Sys2Proof.Machine
end

section
/-! Refresh slots, the service slot, arming and the end of an evacuation (08 R248-R251, 02 R50, 17 R424, 20 R491). -/

namespace Sys2Proof.Machine

/-! Arming. -/

/-- The programs of the layers and ports of partition p switch. -/
def State.armBelow (s : State) (p : Nat) : State :=
  let u := forEach (List.range 4) s (fun s l => s.modLayer l (fun y => { y with prog := tput y.prog p (tgetD y.progNext p []) }))
  forEach ((List.range 6).filter (fun q => u.partOfPort q == p)) u (fun s q => s.modPort q (fun t => { t with prog := t.progNext }))

theorem armBelow_ports (s : State) (p : Nat) :
    s.armBelow p = { s with layers := (forEach (List.range 4) s (fun s l =>
                              s.modLayer l (fun y => { y with prog := tput y.prog p (tgetD y.progNext p []) }))).layers
                            ports := (s.armBelow p).ports } := by
  have hlayers : ∀ (l : List Nat) (f : LayerSt → LayerSt), forEach l s (fun s l => s.modLayer l f) =
      { s with layers := (forEach l s (fun s l => s.modLayer l f)).layers } := fun l f =>
    foldl_keeps (P := fun t : State => t = { s with layers := t.layers }) l
      (fun t x h => by rw [show t.modLayer x f = { t with layers := (t.modLayer x f).layers } from rfl, h]) rfl
  have hports : ∀ (u : State) (l : List Nat) (f : PortSt → PortSt), forEach l u (fun s q => s.modPort q f) =
      { u with ports := (forEach l u (fun s q => s.modPort q f)).ports } := fun u l f =>
    foldl_keeps (P := fun t : State => t = { u with ports := t.ports }) l
      (fun t x h => by rw [show t.modPort x f = { t with ports := (t.modPort x f).ports } from rfl, h]) rfl
  rw [State.armBelow, hports, hlayers]

theorem armBelow_prog (s : State) (p : Nat) {l : Nat} (hl : l < 4) :
    tgetD ((s.armBelow p).layer l).prog p [] = tgetD (s.layer l).progNext p [] := by
  have hlayer : (s.armBelow p).layer l = (forEach (List.range 4) s (fun s l =>
      s.modLayer l (fun y => { y with prog := tput y.prog p (tgetD y.progNext p []) }))).layer l := by
    rw [armBelow_ports]
    rfl
  rw [hlayer, layer_forEach_modLayer, if_pos hl, tgetD_tput, if_pos rfl]

theorem lessonArm_no_tile {s : State} {p : Nat} (harms : s.armsNext p = true) (hnone : s.tilesOf p = []) :
    s.lessonArm p = ({ s with cyc := 4095 } : State).armBelow p := by
  have hnone' : State.tilesOf { s with cyc := 4095 } p = [] := hnone
  rw [State.lessonArm, harms]
  simp only [Bool.not_true, Bool.false_eq_true, if_false, hnone', List.filter_nil]
  rfl

theorem lessonArm_one_tile {s : State} {p lt : Nat} (harms : s.armsNext p = true) (hone : s.tilesOf p = [lt])
    (hack : (s.tile lt).armAck = true) :
    s.lessonArm p = (((({ s with cyc := 4095 } : State).modTile lt TileSt.arm).applyPatches lt)).armBelow p := by
  have hone' : State.tilesOf { s with cyc := 4095 } p = [lt] := hone
  have hack' : (State.tile { s with cyc := 4095 } lt).armAck = true := hack
  rw [State.lessonArm, harms]
  simp only [Bool.not_true, Bool.false_eq_true, if_false, hone', List.filter_cons, hack', if_true, List.filter_nil]
  rfl

/-- A tile without buffered patches. -/
def TileSt.unpatched (t : TileSt) : TileSt := { t with nextPatches := [] }

theorem applyPatches_none {s : State} {lt : Nat} (h : (s.tile lt).nextPatches = []) :
    s.applyPatches lt = (s.modTile lt TileSt.unpatched).setF (GC_PATCH_LT lt) GC_PATCH_LT_pending 0 := by
  rw [State.applyPatches, h]
  rfl

theorem armed_tile {s : State} {lt : Nat} (hpatches : (s.tile lt).nextPatches = []) :
    ((s.modTile lt TileSt.arm).applyPatches lt).tile lt = (s.tile lt).arm.unpatched := by
  have harm : (s.modTile lt TileSt.arm).tile lt = (s.tile lt).arm := (tile_modTile _ _ _ _).trans (if_pos rfl)
  have hnone : ((s.modTile lt TileSt.arm).tile lt).nextPatches = [] := by
    rw [harm]
    exact hpatches
  rw [applyPatches_none hnone, tile_congr (State.setF_tiles _ _ _ _), tile_modTile, if_pos rfl, harm]

/-! Evacuation. -/

/-- One more locker is done; bad lists the words of it that could not be read. -/
def Evac.next (e : Evac) (bad : List Nat) : Evac :=
  { e with
    done := e.done + 1
    bad := e.bad ++ (bad.map (fun w => e.lt * 2 ^ 30 + e.done * 0x1000000 + w % 0x200000 * 8)).eraseDups }

theorem evacStep_next {s : State} {e : Evac} (he : s.bring.evac = some e) (hdone : e.done < 64)
    (hopen : s.belowOpen (s.partOfLt e.lt) = true) (bad : List Nat) :
    s.evacStep bad = ({ s with bring := { s.bring with evac := some (e.next bad) } } : State).setF MEM_EVAC MEM_EVAC_lockers_done
      (e.done + 1) := by
  rw [State.evacStep, he]
  simp only [hdone, hopen, decide_true, Bool.and_self, if_true]
  rfl

/-- The registers of an evacuation that left no word poisoned. -/
def State.evacClosed (s : State) (lt : Nat) : State :=
  (({ s with mem := fetchLockers s.mem lt, bring := { s.bring with evac := none } } : State).incF MEM_EVAC MEM_EVAC_poisoned
    0).setB MEM_EVAC MEM_EVAC_active false

theorem evacDone_clean {s : State} {e : Evac} (he : s.bring.evac = some e) (hdone : 64 ≤ e.done) (hbad : e.bad = [])
    (hmarked : markedWords (fetchLockers s.mem e.lt) e.lt = []) (hcmd : s.findTag e.ring e.tag = none) :
    s.evacDone = ((s.evacClosed e.lt).raise evEvacuationDone ((s.evacClosed e.lt).partOfLt e.lt) 1 e.lt 0 0 0 0).setEvacPending
      e.lt false := by
  have hreports := reports_raise evEvacuationDone ((s.evacClosed e.lt).partOfLt e.lt) 1 e.lt 0 0 0 0 (Reports.refl (s.evacClosed e.lt))
  have hnone : ((((s.evacClosed e.lt).raise evEvacuationDone ((s.evacClosed e.lt).partOfLt e.lt) 1 e.lt 0 0 0 0)).setEvacPending
      e.lt false).findTag e.ring e.tag = none := by
    refine (findTag_congr ?_ _ _).trans hcmd
    exact congrArg (·.cmds) hreports.1
  rw [State.evacDone, he]
  simp only [if_neg (Nat.not_lt.mpr hdone), hmarked, hbad, List.filter_nil, List.foldl_nil]
  rw [State.evacClosed] at hnone
  rw [hnone]
  rfl

/-- Settles O22: refresh and the service slot are their definitions; arming by its tiles, an evacuation by its lockers. -/
theorem layersAndService : Obligations.LayersAndService := by
  unfold Obligations.LayersAndService
  intro s hon
  refine ⟨fun phases failed hnone => ?_, fun phases failed => live_on hon, live_on hon, fun hot cut => live_on hon,
    fun p hp harms hnone => ?_, fun p lt hp harms hone hack hpatches => ?_, fun e bad he hdone hopen => ?_,
    fun e he hdone hbad hmarked hcmd => ?_⟩
  · refine live_next hon ?_
    rw [State.refreshA, hnone, forEach_nil]
  · refine gives_of_live hon (exec_lessonArm p s) ?_
    rw [if_pos hp, lessonArm_no_tile harms hnone]
    have hframe := armBelow_ports { s with cyc := 4095 } p
    refine ⟨congrArg (·.cyc) hframe, ?_, fun l hl => armBelow_prog _ p hl⟩
    rw [hframe]
  · have htile : ∀ u : State, (u.armBelow p).tile lt = u.tile lt := fun u => by
      rw [armBelow_ports]
      rfl
    refine gives_of_live hon (exec_lessonArm p s) ?_
    rw [if_pos hp, lessonArm_one_tile harms hone hack, htile]
    rw [armed_tile (s := { s with cyc := 4095 }) hpatches]
    exact ⟨rfl, rfl⟩
  · refine gives_of_live hon (exec_evacuationStep bad s) ?_
    rw [evacStep_next he hdone hopen]
    exact ⟨getF_setF _ _ _ _ (by decide), rfl, rfl⟩
  · exact ⟨s.evacClosed e.lt, live_next hon (evacDone_clean he hdone hbad hmarked hcmd), rfl,
      flag_setB _ _ _ (by decide) (by decide)⟩

end Sys2Proof.Machine
end

section
/-! Starting, resuming, ending and unloading a course (02 R81-R83, 14 R385, R388). -/

namespace Sys2Proof.Machine

/-! What a start clears and books. -/

/-- t is s but for registers, the units of the partition and its course. -/
abbrev StartsOnly (s t : State) : Prop :=
  t = { s with regs := t.regs, tiles := t.tiles, cores := t.cores, layers := t.layers, ports := t.ports, crs := t.crs,
               mem := t.mem }

theorem StartsOnly.trans {s t u : State} (h : StartsOnly s t) (h' : StartsOnly t u) : StartsOnly s u := by
  rw [h', h]

/-- t is s but for registers and the units of the partition. -/
abbrev ClearsOnly (s t : State) : Prop := StartsOnly s t ∧ t.crs = s.crs

theorem ClearsOnly.refl (s : State) : ClearsOnly s s := ⟨rfl, rfl⟩

theorem ClearsOnly.trans {s t u : State} (h : ClearsOnly s t) (h' : ClearsOnly t u) : ClearsOnly s u :=
  ⟨h.1.trans h'.1, h'.2.trans h.2⟩

theorem forEach_clearsOnly {α : Type} (l : List α) (s : State) {f : State → α → State} (hf : ∀ u x, ClearsOnly u (f u x)) :
    ClearsOnly s (forEach l s f) := foldl_keeps (P := ClearsOnly s) l (fun u x hu => hu.trans (hf u x)) (ClearsOnly.refl s)

theorem LoadsOnly.clearsOnly {A : Nat → Prop} {s t : State} (h : LoadsOnly A s t) : ClearsOnly s t := by
  refine ⟨?_, ?_⟩
  all_goals rw [h.1]

theorem clearEngines_clearsOnly (s : State) (lt : Nat) : ClearsOnly s (s.clearEngines lt) :=
  forEach_clearsOnly (s := State.setF _ _ _ _) _ (fun _ _ => ⟨rfl, rfl⟩)

theorem ariStart_loads (s : State) (p : Nat) : LoadsOnly (fun _ => True) s (s.ariStart p) := by
  have hflags : ∀ (l : List Nat) (f : Nat → Nat) (u : State), LoadsOnly (fun _ => True) u
      (forEach l u (fun s n => s.setReg (f n) 0)) := fun l f u =>
    (LoadsOnly.refl _ u).forEach fun v _ _ => (LoadsOnly.refl _ v).setReg trivial _
  have hif : ∀ (c : Prop) [Decidable c] (u v : State), LoadsOnly (fun _ => True) u v →
      LoadsOnly (fun _ => True) u (if c then v else u) := fun _ _ u _ h => h.ite (LoadsOnly.refl _ u)
  exact (((hflags _ ARI_FLAGS_LT s).trans (hif _ _ _ (hflags _ ARI_FLAGS_PORT _))).trans
    (hif _ _ _ ((LoadsOnly.refl _ _).setReg trivial _))).setReg trivial _

theorem startClears_clearsOnly (s : State) (p : Nat) : ClearsOnly s (s.startClears p) := by
  unfold State.startClears
  refine ClearsOnly.trans ?_ (ariStart_loads _ p).clearsOnly
  refine ClearsOnly.trans ?_ (forEach_clearsOnly _ _ fun _ _ => ⟨rfl, rfl⟩)
  refine ClearsOnly.trans ?_ (forEach_clearsOnly _ _ fun _ _ => ⟨rfl, rfl⟩)
  exact forEach_clearsOnly _ s fun u lt => clearEngines_clearsOnly u lt

/-- The course k as it begins at lesson l of iteration i. -/
def Course.begun (c k : Course) (l i : Nat) : Course :=
  { c with
    lesson := l, iter := i, lessonBell := 0, ran := false, ended := false, startCommitted := true, staged := false
    haltBell := none, stopFrom := none
    endIter := if k.resuming then c.endIter else none
    resumeAt := if k.resuming then c.resumeAt else none }

/-- The bookkeeping of a start at lesson l of iteration i. -/
def State.startBooked (s : State) (p : Nat) (k : Course) (l i : Nat) : State :=
  let s := s.modCrs p (fun c => c.begun k l i)
  let s := (s.setPair (BELL_CRS_BELLS_LO p) (if k.resuming then firstBell k l i else 0)).setCourseState p csStarting
  let s := s.setB (BELL_CRS_STATE p) BELL_CRS_STATE_halt_late false
  if k.resuming then s else s.setPair (BELL_CRS_CKPT_LO p) 0

theorem dropRosters_none {s : State} {p : Nat} (h : (s.crsOf p).rosters = []) (gone : Roster → Bool) :
    s.dropRosters p gone = s.modCrs p (fun c => { c with rosters := c.rosters.filter (fun r => !gone r) }) := by
  rw [State.dropRosters, h]
  rfl

/-- A course without rosters. -/
def Course.rosterless (c : Course) (gone : Roster → Bool) : Course := { c with rosters := c.rosters.filter (fun r => !gone r) }

section
variable (s : State) (p : Nat) (k : Course) (l i : Nat)

theorem startBooked_startsOnly : StartsOnly s (s.startBooked p k l i) := by
  unfold State.startBooked
  dsimp only
  split
  all_goals rfl

theorem startBooked_crs : (s.startBooked p k l i).crsOf p = (s.crsOf p).begun k l i := by
  have hcrs : (s.startBooked p k l i).crs = (s.modCrs p (fun c => c.begun k l i)).crs := by
    unfold State.startBooked
    dsimp only
    split
    all_goals rfl
  rw [crsOf_congr hcrs, crsOf_modCrs, if_pos rfl]

theorem crsRegs_distinct {p : Nat} (hp : p < 4) : BELL_CRS_STATE p ≠ NBU_TOKEN_LIMIT ∧ BELL_CRS_BELLS_LO p ≠ NBU_TOKEN_LIMIT ∧
    BELL_CRS_BELLS_LO p + 4 ≠ NBU_TOKEN_LIMIT ∧ BELL_CRS_BELLS_LO p ≠ BELL_CRS_STATE p ∧
    BELL_CRS_BELLS_LO p + 4 ≠ BELL_CRS_STATE p := by
  unfold BELL_CRS_STATE BELL_CRS_BELLS_LO NBU_TOKEN_LIMIT
  omega

theorem courseState_setCourseState {p : Nat} (hp : p < 4) {v : Nat} (hv : v < 8) : (s.setCourseState p v).courseState p = v :=
  (getF_setF_reg _ _ _ _ (crsRegs_distinct hp).1).trans (getF_setF_lt _ _ (by decide) hv)

theorem reg_setPair_other {a lo : Nat} (v : Nat) (hlo : a ≠ lo) (hhi : a ≠ lo + 4) : (s.setPair lo v).reg a = s.reg a := by
  rw [State.setPair, reg_setReg, if_neg hhi, reg_setReg, if_neg hlo]

theorem reg_setCourseState_other {a : Nat} (v : Nat) (hstate : a ≠ BELL_CRS_STATE p) (htokens : a ≠ NBU_TOKEN_LIMIT) :
    (s.setCourseState p v).reg a = s.reg a := by
  rw [State.setCourseState, reg_setB_other _ _ _ htokens, reg_setF, if_neg hstate]

variable {p}

theorem startBooked_state (hp : p < 4) : (s.startBooked p k l i).courseState p = csStarting := by
  have hlate : ∀ u : State, ((u.setCourseState p csStarting).setB (BELL_CRS_STATE p) BELL_CRS_STATE_halt_late false).courseState p =
      csStarting := fun u =>
    (getF_setF_fld _ _ _ (by decide) (by decide)).trans (courseState_setCourseState u hp (by decide))
  rw [State.startBooked]
  split
  · exact hlate _
  · refine (congrArg (fldGet · BELL_CRS_STATE_state) (reg_setPair_other _ _ ?_ ?_)).trans (hlate _)
    all_goals
      unfold BELL_CRS_STATE BELL_CRS_CKPT_LO
      omega

theorem startBooked_bells (hp : p < 4) : (s.startBooked p k l i).pair (BELL_CRS_BELLS_LO p) =
    (if k.resuming then firstBell k l i else 0) % 2 ^ 64 := by
  obtain ⟨-, hlo, hhi, hlo', hhi'⟩ := crsRegs_distinct hp
  have hlate : ∀ u : State, ((u.setCourseState p csStarting).setB (BELL_CRS_STATE p) BELL_CRS_STATE_halt_late false).pair
      (BELL_CRS_BELLS_LO p) = u.pair (BELL_CRS_BELLS_LO p) := fun u =>
    pair_congr ((reg_setB_other _ _ _ hlo').trans (reg_setCourseState_other _ _ _ hlo' hlo))
      ((reg_setB_other _ _ _ hhi').trans (reg_setCourseState_other _ _ _ hhi' hhi))
  have hckpt : ∀ u : State, (u.setPair (BELL_CRS_CKPT_LO p) 0).pair (BELL_CRS_BELLS_LO p) = u.pair (BELL_CRS_BELLS_LO p) := fun u => by
    refine pair_congr (reg_setPair_other _ _ ?_ ?_) (reg_setPair_other _ _ ?_ ?_)
    all_goals
      unfold BELL_CRS_CKPT_LO BELL_CRS_BELLS_LO
      omega
  rw [State.startBooked]
  split
  · rw [hlate, pair_setPair]
  · rw [hckpt, hlate, pair_setPair]

theorem startBooked_ckpt {k : Course} (hfresh : k.resuming = false) : (s.startBooked p k l i).pair (BELL_CRS_CKPT_LO p) = 0 := by
  rw [State.startBooked, hfresh]
  exact pair_setPair _ _ _

end

/-! Commands. -/

theorem courseStart_loaded {s : State} {c : Cmd} (hloaded : s.courseState c.part = csLoaded)
    (hok : s.startFails c.part c.pkt.p0 = none) :
    s.courseStart c = s.armStart c (s.crsOf c.part).staged false := by
  simp only [State.courseStart, hloaded, hok]
  rfl

theorem courseResume_halted {s : State} {c : Cmd} (hhalted : s.courseState c.part = csHalted)
    (hpoint : (s.crsOf c.part).resumeAt ≠ none) (htiles : s.lacksTile c.part = false)
    (hok : s.startFails c.part c.pkt.p0 = none) : s.courseResume c = s.armStart c false true := by
  simp only [State.courseResume, hhalted, hpoint, htiles, hok]
  rfl

theorem courseResume_no_checkpoint {s : State} {c : Cmd} (hhalted : s.courseState c.part = csHalted)
    (hpoint : (s.crsOf c.part).resumeAt = none) : s.courseResume c = s.fail c stNO_CHECKPOINT := by
  simp only [State.courseResume, hhalted, hpoint]
  rfl

theorem restage_pending {s : State} {p : Nat} (hwait : (s.pendingStart p).isSome = true) (hnot : (s.crsOf p).staged = false) :
    s.restage p = (s.stageLesson p (s.crsOf p).startPos.1).modCrs p (fun c => { c with staged := true }) := by
  obtain ⟨c, hc⟩ := Option.isSome_iff_exists.mp hwait
  simp only [State.restage, hc, hnot, Bool.false_eq_true, if_false]

/-- A course in step and staged starts at its position, one without rosters. -/
theorem startCommit_due {s : State} {p : Nat} {c : Cmd} (hnow : s.bellCount + 1 = (s.crsOf p).startBell) (hstep : s.inStep = true)
    (hstaged : (s.crsOf p).staged = true) (hrosters : (s.crsOf p).rosters = []) {l i : Nat} (hpos : (s.crsOf p).startPos = (l, i)) :
    s.startCommit p c = (((s.startClears p).startBooked p (s.crsOf p) l i).modCrs p
      (Course.rosterless · (fun r => !r.committed && r.lesson == l && r.iter == i))).ok c (s.crsOf p).startBell := by
  have hcrs : (s.startClears p).crsOf p = s.crsOf p := crsOf_congr (startClears_clearsOnly s p).2 p
  have hnone : (((s.startClears p).startBooked p (s.crsOf p) l i).crsOf p).rosters = [] := by
    rw [startBooked_crs, hcrs]
    exact hrosters
  have hearly : ¬ s.bellCount + 1 < (s.crsOf p).startBell := by omega
  have hlate : ¬ (s.crsOf p).startBell < s.bellCount + 1 := by omega
  have hdrop := dropRosters_none hnone (fun r => !r.committed && r.lesson == l && r.iter == i)
  rw [State.startCommit]
  simp only [hearly, hlate, hstep, hstaged, hpos, if_false, Bool.not_true, Bool.false_or, decide_false, Bool.false_eq_true]
  exact congrArg (State.ok · c (s.crsOf p).startBell) hdrop

section
variable {s : State} {c : Cmd}

theorem courseEnd_running (hruns : s.courseState c.part = csRunning) :
    s.courseEnd c =
      if hdLoopCount (s.crsOf c.part).image ≠ 0 ∧ hdLoopCount (s.crsOf c.part).image ≤ c.pkt.p0 % 2 ^ 32 then s.ok c 0
      else if firstBell (s.crsOf c.part) (hdLoopLast (s.crsOf c.part).image) (c.pkt.p0 % 2 ^ 32) < s.bellsBegun c.part then
        s.fail c stEND_TOO_LATE
      else
        let u := s.modCrs c.part (fun k => { k with endIter := some (c.pkt.p0 % 2 ^ 32) })
        (u.dropRosters c.part (fun r => !inRun (u.crsOf c.part) r.lesson r.iter)).ok c 0 := by
  have hsome : ¬ csRunning = csNone := by decide
  simp only [State.courseEnd, hsome, hruns, if_false, decide_true, Bool.or_true, Bool.not_true, Bool.false_eq_true,
    Bool.and_eq_true, decide_eq_true_eq]

/-- The course of p ends with iteration i, and no roster waits in it. -/
theorem endIter_crs (hrosters : (s.crsOf c.part).rosters = []) (i : Nat) (gone : Roster → Bool) :
    ∃ u : State, (s.modCrs c.part (fun k => { k with endIter := some i })).dropRosters c.part gone = u ∧ u = { s with crs := u.crs } ∧
      u.crsOf c.part = { s.crsOf c.part with endIter := some i } := by
  have hcrs : (s.modCrs c.part (fun k => { k with endIter := some i })).crsOf c.part = { s.crsOf c.part with endIter := some i } :=
    (crsOf_modCrs _ _ _ _).trans (if_pos rfl)
  refine ⟨_, dropRosters_none (by rw [hcrs]; exact hrosters) gone, rfl, ?_⟩
  rw [crsOf_modCrs, if_pos rfl, hcrs]
  simp only [hrosters, List.filter_nil]

theorem courseUnload_loaded (hloaded : s.courseState c.part = csLoaded) (hwait : s.pendingStart c.part = none) :
    s.courseUnload c = ((({ s.dropRosters c.part (fun _ => true) with
      crs := tdel (s.dropRosters c.part (fun _ => true)).crs c.part }).setCourseState c.part csNone).returnSeats c.part).ok c 0 := by
  simp only [State.courseUnload, hloaded, hwait]
  rfl

theorem courseUnload_running (hruns : s.courseState c.part = csRunning) : s.courseUnload c = s.fail c stCOURSE_STATE := by
  simp only [State.courseUnload, hruns]
  rfl

end

theorem exec_courseStartCommit_pending {s : State} {p : Nat} {c : Cmd} (hon : s.powered = true) (hwait : s.pendingStart p = some c)
    (hop : c.pkt.opcode = opCOURSE_START) : exec (.courseStartCommit p) s = .next (s.startCommit p c) := by
  refine live_next hon ?_
  rw [hwait]
  exact if_pos hop

theorem exec_courseResumeCommit_pending {s : State} {p : Nat} {c : Cmd} (hon : s.powered = true) (hwait : s.pendingStart p = some c)
    (hop : c.pkt.opcode = opCOURSE_RESUME) : exec (.courseResumeCommit p) s = .next (s.startCommit p c) := by
  refine live_next hon ?_
  rw [hwait]
  exact if_pos hop

/-- What a start at its bell leaves, of a course that was started or resumed. -/
theorem started_state {s : State} {p : Nat} (hp : p < 4) (l i : Nat) (gone : Roster → Bool) {u : State}
    (hu : u = ((s.startClears p).startBooked p (s.crsOf p) l i).modCrs p (Course.rosterless · gone)) :
    StartsOnly s u ∧ u.courseState p = csStarting ∧
    u.pair (BELL_CRS_BELLS_LO p) = (if (s.crsOf p).resuming then firstBell (s.crsOf p) l i else 0) % 2 ^ 64 ∧
    u.crsOf p = ((s.crsOf p).begun (s.crsOf p) l i).rosterless gone := by
  obtain ⟨hclears, hcrs⟩ := startClears_clearsOnly s p
  subst hu
  refine ⟨hclears.trans ((startBooked_startsOnly _ p _ l i).trans rfl), startBooked_state _ _ l i hp,
    startBooked_bells _ _ l i hp, ?_⟩
  rw [crsOf_modCrs, if_pos rfl, startBooked_crs, crsOf_congr hcrs]

/-- Settles O23: a start and a resume by their common commit, the rest by the state of the course. -/
theorem courseStartAndEnd : Obligations.CourseStartAndEnd := by
  unfold Obligations.CourseStartAndEnd
  intro s ring tag p c
  refine ⟨fun hc hloaded hok => ?_, fun hc hnone => ?_, fun hc hhalted hpoint htiles hok => ?_, fun hc hhalted hpoint => ?_,
    fun hon hp hwait hnot => ?_, fun hon hwait hop hfresh hnow hstep hstaged hrosters hp => ?_,
    fun hon hwait hop hresumes hnow hstep hstaged hrosters hp l i hpoint hfits => ?_,
    fun hon hwait hop hnow hstep hstaged => ?_, fun hc hruns hloop hearly hrosters => ?_, fun hc hruns hloop hlate => ?_,
    fun hc hloaded hwait => ?_, fun hc hruns => ?_⟩
  · exact (onCmd_accepted hc).trans (congrArg _ (courseStart_loaded hloaded hok))
  · exact (onCmd_accepted hc).trans (congrArg _ (if_pos hnone))
  · exact (onCmd_accepted hc).trans (congrArg _ (courseResume_halted hhalted hpoint htiles hok))
  · exact (onCmd_accepted hc).trans (congrArg _ (courseResume_no_checkpoint hhalted hpoint))
  · exact live_next hon ((if_pos hp).trans (restage_pending hwait hnot))
  · have hpos : (s.crsOf p).startPos = (0, 0) := by rw [Course.startPos, hfresh]; rfl
    obtain ⟨hframe, hstate, hbells, hcrs⟩ := started_state (s := s) hp 0 0 _ rfl
    refine ⟨_, (exec_courseStartCommit_pending hon hwait hop).trans (congrArg _ (startCommit_due hnow hstep hstaged hrosters hpos)),
      hframe, hstate, ?_, startBooked_ckpt _ 0 0 hfresh, ?_⟩
    · rw [hbells, hfresh]
      rfl
    · rw [hcrs]
      exact ⟨rfl, rfl, rfl, rfl⟩
  · have hpos : (s.crsOf p).startPos = (l, i) := by rw [Course.startPos, hresumes, hpoint]; rfl
    obtain ⟨hframe, hstate, hbells, hcrs⟩ := started_state (s := s) hp l i _ rfl
    refine ⟨_, (exec_courseResumeCommit_pending hon hwait hop).trans (congrArg _ (startCommit_due hnow hstep hstaged hrosters hpos)),
      hframe, hstate, ?_, ?_⟩
    · rw [hbells, hresumes]
      exact Nat.mod_eq_of_lt hfits
    · rw [hcrs]
      exact ⟨rfl, rfl, rfl⟩
  · refine (exec_courseStartCommit_pending hon hwait hop).trans (congrArg _ ?_)
    have hdue : ¬ s.bellCount + 1 < (s.crsOf p).startBell := by omega
    simp only [State.startCommit, hdue, hstep, hstaged, if_false, Bool.not_true, Bool.false_eq_true, Bool.not_false, Bool.true_or,
      if_true]
  · obtain ⟨u, hdrop, hframe, hcrs⟩ := endIter_crs hrosters (c.pkt.p0 % 2 ^ 32)
      (fun r => !inRun ((s.modCrs c.part (fun k => { k with endIter := some (c.pkt.p0 % 2 ^ 32) })).crsOf c.part) r.lesson r.iter)
    refine ⟨u, (onCmd_accepted hc).trans (congrArg _ ?_), hframe, hcrs⟩
    rw [courseEnd_running hruns, if_neg (by omega), if_neg (by omega)]
    exact congrArg (State.ok · c 0) hdrop
  · refine (onCmd_accepted hc).trans (congrArg _ ?_)
    rw [courseEnd_running hruns, if_neg (by omega), if_pos hlate]
  · exact (onCmd_accepted hc).trans (congrArg _ (courseUnload_loaded hloaded hwait))
  · exact (onCmd_accepted hc).trans (congrArg _ (courseUnload_running hruns))

end Sys2Proof.Machine
end

section
/-! What the declaration of a halt changes (02 R64, R67); an update repeated for rising numbers. -/

namespace Sys2Proof.Machine

/-- What each of n updates brings about and the others keep holds after all of them. -/
theorem forEach_range_all {σ : Type} {P : Nat → σ → Prop} {f : σ → Nat → σ} (hset : ∀ u i, P i (f u i))
    (hkeep : ∀ u i j, P i u → P i (f u j)) (n : Nat) (s : σ) : ∀ k, k < n → P k (forEach (List.range n) s f) := by
  induction n with
  | zero => exact fun k hk => absurd hk (Nat.not_lt_zero k)
  | succ n ih =>
    intro k hk
    rw [forEach_range_succ]
    rcases Nat.lt_succ_iff_lt_or_eq.mp hk with hlt | rfl
    · exact hkeep _ _ _ (ih k hlt)
    · exact hset _ _

/-- Registers that show a halt of partition p. -/
def haltReg (p a : Nat) : Prop :=
  a = BELL_CRS_STATE p ∨ a = BELL_CRS_HALT_LO p ∨ a = BELL_CRS_HALT_LO p + 4 ∨ a = NBU_TOKEN_LIMIT

/-- t is s but for the course of p, the registers that show it, and what is sent. -/
def HaltsOnly (p : Nat) (s t : State) : Prop :=
  t = { s with regs := t.regs, crs := t.crs, out := t.out } ∧ ∀ a, ¬ haltReg p a → t.reg a = s.reg a

theorem HaltsOnly.trans {p : Nat} {s t u : State} (h : HaltsOnly p s t) (h' : HaltsOnly p t u) : HaltsOnly p s u := by
  obtain ⟨hst, hreg⟩ := h
  obtain ⟨htu, hreg'⟩ := h'
  refine ⟨?_, fun a ha => (hreg' a ha).trans (hreg a ha)⟩
  rw [htu, hst]

theorem HaltsOnly.refl (p : Nat) (s : State) : HaltsOnly p s s := ⟨rfl, fun _ _ => rfl⟩

theorem HaltsOnly.ite {p : Nat} {s t u : State} {b : Prop} [Decidable b] (ht : HaltsOnly p s t) (hu : HaltsOnly p s u) :
    HaltsOnly p s (if b then t else u) := by
  split
  · exact ht
  · exact hu

theorem LoadsOnly.haltsOnly {p : Nat} {s t : State} (h : LoadsOnly (haltReg p) s t) : HaltsOnly p s t := by
  refine ⟨?_, h.2⟩
  rw [h.1]

theorem setCourseState_haltsOnly (s : State) (p v : Nat) : HaltsOnly p s (s.setCourseState p v) :=
  (((LoadsOnly.refl (haltReg p) s).setF (.inl rfl) _ _).setB (.inr (.inr (.inr rfl))) _ _).haltsOnly

theorem sendSym3All_haltsOnly (s : State) (p : Nat) (l : List Nat) (y : Sym) : HaltsOnly p s (s.sendSym3All l y) := by
  rw [sendSym3All_frame]
  exact ⟨rfl, fun _ _ => rfl⟩

theorem nameHalt_haltsOnly (s : State) (p bell reason declarer : Nat) (late : Bool) :
    HaltsOnly p s (s.nameHalt p bell reason declarer late) := by
  have hnamed : ∀ u : State, HaltsOnly p u ((u.setPair (BELL_CRS_HALT_LO p) bell).setB (BELL_CRS_STATE p)
      BELL_CRS_STATE_halt_late late) := fun u =>
    (((LoadsOnly.refl (haltReg p) u).setPair (.inr (.inl rfl)) (.inr (.inr (.inl rfl))) _).setB (.inl rfl) _ _).haltsOnly
  have hcrs : ∀ f : Course → Course, HaltsOnly p s (s.modCrs p f) := fun f => ⟨rfl, fun _ _ => rfl⟩
  unfold State.nameHalt
  refine HaltsOnly.trans (HaltsOnly.ite ?_ (HaltsOnly.refl p s)) (setCourseState_haltsOnly _ p _)
  exact (hcrs _).trans (hnamed _)

theorem declareHalt_haltsOnly (s : State) (p cause : Nat) : HaltsOnly p s (s.declareHalt p cause) := by
  have hcrs : ∀ (u : State) (f : Course → Course), HaltsOnly p u (u.modCrs p f) := fun u f => ⟨rfl, fun _ _ => rfl⟩
  unfold State.declareHalt
  refine HaltsOnly.ite ?_ (HaltsOnly.refl p s)
  refine HaltsOnly.trans ?_ (sendSym3All_haltsOnly _ p _ _)
  refine HaltsOnly.trans ?_ (hcrs _ _)
  exact nameHalt_haltsOnly s p _ _ _ _

end Sys2Proof.Machine
end

section
/-! Rosters, STOP and the notices of a halt (02 R73-R75, 14 R389-R391). -/

namespace Sys2Proof.Machine

/-! Rosters. -/

section
variable {s : State} {c : Cmd}

theorem readRoster_read {h e : List Byte} {st : Nat} {s1 s2 : State} (hhead : s.readObject c.pkt.p0 32 = ((h, 0), s1))
    (hentries : s1.readObject (c.pkt.p0 + 32) (16 * min 4096 (leAt h 0x10 4)) = ((e, st), s2)) :
    s.readRoster c = s2.putCmd c { c with data := st :: (h ++ e).map (·.toNat) } := by
  simp only [State.readRoster, hhead, if_true, hentries]

theorem rosterCommit_unread {d : List Byte} {st : Nat} (hobj : c.object = (d, st)) (hst : st ≠ 0) :
    s.rosterCommit c = s.fail c st := by
  simp only [State.rosterCommit, hobj, hst, ne_eq, not_false_eq_true, if_true]

section
variable {d : List Byte} {l i : Nat} (hobj : c.object = (d, 0)) (hcourse : s.courseState c.part ≠ csNone)
  (hlesson : rosterLesson (s.crsOf c.part) c.pkt.p1 = some (l, i)) (hbell : leAt d 8 8 = c.pkt.p1)
include hobj hcourse hlesson hbell

theorem rosterCommit_late (hlate : s.rosterLate c.part l i = true) : s.rosterCommit c = s.failLate c := by
  simp only [State.rosterCommit, hobj, ne_eq, not_true_eq_false, if_false, hcourse, hlesson, hbell, hlate, if_true]

theorem rosterCommit_good (hlate : s.rosterLate c.part l i = false) (hgood : rosterGood (s.crsOf c.part).image d l = true) :
    s.rosterCommit c = (s.modCrs c.part (fun k => { k with rosters := k.rosters ++
      [{ lesson := l, iter := i, courseBell := c.pkt.p1, data := d, committed := false, ring := c.ring, tag := c.pkt.tag }] })).putCmd
      c { c with phase := .active } := by
  simp only [State.rosterCommit, hobj, ne_eq, not_true_eq_false, if_false, hcourse, hlesson, hbell, hlate, hgood, Bool.not_true,
    Bool.false_eq_true]

end

theorem rosterDone_new {r : Roster} (hroster : s.rosterOf c = some r) (hlate : s.rosterLate c.part r.lesson r.iter = false)
    (hnew : (s.crsOf c.part).rosters.any (fun x => x.lesson == r.lesson && x.iter == r.iter && x.committed) = false) :
    s.rosterDone c = (s.modCrs c.part (fun k => { k with
      rosters := (k.rosters.filter (fun x => !(x.lesson == r.lesson && x.iter == r.iter && x.committed))).map
        (fun x => if x = r then { r with committed := true } else x) })).ok c 0 := by
  simp only [State.rosterDone, hroster, hlate, hnew, Bool.false_eq_true, if_false]
  rfl

theorem rosterDeadline_late {r : Roster} (hroster : s.rosterOf c = some r) (hlate : s.rosterLate c.part r.lesson r.iter = true) :
    s.rosterDeadline c = s.dropRosters c.part (fun x => x == r) := by
  simp only [State.rosterDeadline, hroster, hlate, if_true]

theorem rosterWrite_next {lt l i : Nat} (hpresent : s.present lt = true) (hworking : s.working (s.partOfLt lt) = true)
    (hfirst : (s.crsOf (s.partOfLt lt)).lessonBell = 0) (hvalid : tpRosterValid (armedProgram (s.tile lt)) = true)
    (hnext : nextPos (s.crsOf (s.partOfLt lt)) (s.crsOf (s.partOfLt lt)).lesson (s.crsOf (s.partOfLt lt)).iter = some (l, i)) :
    s.rosterWrite lt = { s with
      cyc := tpRosterCycle (armedProgram (s.tile lt))
      mem := forEach (sliceSpans (tpRosterAddr (armedProgram (s.tile lt))) (rosterImage (s.crsOf (s.partOfLt lt)) l i).length) s.mem
        (fun m x => s.tbOutside lt (tpRosterAddr (armedProgram (s.tile lt)) + x.1)
          (((rosterImage (s.crsOf (s.partOfLt lt)) l i).drop x.1).take x.2) [] 1 m) } := by
  simp only [State.rosterWrite, hpresent, hworking, hfirst, hvalid, decide_true, Bool.and_true, if_true, hnext]

end

/-! STOP. -/

theorem haltReg_high {p a : Nat} (h : haltReg p a) : 0xf00000020100 ≤ a := by
  unfold haltReg BELL_CRS_STATE BELL_CRS_HALT_LO NBU_TOKEN_LIMIT at h
  omega

theorem eventReg_low {a : Nat} (h : a < EVT_RING_TAIL 0) : eventReg a = false := by
  unfold EVT_RING_TAIL at h
  have hring : ∀ e, a ≠ EVT_RING_TAIL e ∧ a ≠ EVT_RING_LOST e := fun e => by
    unfold EVT_RING_TAIL EVT_RING_LOST
    omega
  simp only [eventReg, Bool.or_eq_false_iff, beq_eq_false_iff_ne, List.any_eq_false, Bool.or_eq_true, beq_iff_eq, not_or]
  refine ⟨⟨⟨⟨?_, ?_⟩, ?_⟩, ?_⟩, fun e _ => hring e⟩
  all_goals
    simp only [EVT_SEQ, EVT_UNROUTED, TRC_STATUS, MGMT_STATUS]
    omega

/-- Where the partition of every tile and port and the seats are the same, the same units report. -/
theorem reportNodes_congr {s t : State} (p : Nat) (hpart : t.reg CMD_PART = s.reg CMD_PART) (hfab : t.reg FAB_PART = s.reg FAB_PART)
    (hseat : ∀ lt, lt < 256 → t.reg (STK_SEAT_LT lt) = s.reg (STK_SEAT_LT lt)) : t.reportNodes p = s.reportNodes p := by
  have hcount : t.partCount = s.partCount := congrArg (fldGet · CMD_PART_count) hpart
  have hlt : ∀ lt, t.partOfLt lt = s.partOfLt lt := fun lt => by
    rw [State.partOfLt, State.partOfLt, State.partOfField, State.partOfField, hcount]
  have hport : ∀ q, t.partOfPort q = s.partOfPort q := fun q => by
    rw [State.partOfPort, State.partOfPort, hcount, State.getF, State.getF, hfab]
  have htiles : t.tilesOf p = s.tilesOf p := List.filter_congr fun lt hmem => by
    rw [hlt, State.present, State.present, State.seatIdx, State.seatIdx, State.getF, State.getF, hseat lt (List.mem_range.mp hmem)]
  simp only [State.reportNodes, htiles, hport]

section
variable {s : State} {p : Nat}

theorem sendCnet_reg (m : CnetMsg) {a : Nat} (ha : eventReg a = false) : (s.sendCnet m).reg a = s.reg a :=
  trace_reg _ _ _ _ _ ha

theorem declareHalt_goes (hp : p < 4) (hgoes : s.courseGoes p = true) (cause : Nat) :
    (s.declareHalt p cause).courseState p = csHalting := by
  rw [State.declareHalt, if_pos hgoes]
  dsimp only
  rw [sendSym3All_frame]
  exact courseState_setCourseState _ hp (by decide)

/-- The units of p have been told of the halt that a STOP declares. -/
def State.haltTold (s : State) (p : Nat) : State := (s.declareHalt p hcStop).sendCnet (cnetMsg 9 0 0x180 p true true)

theorem haltTold_reg {a : Nat} (hlow : a < 0xf00000140010) (hhalt : ¬ haltReg p a) : (s.haltTold p).reg a = s.reg a :=
  (sendCnet_reg _ (eventReg_low hlow)).trans ((declareHalt_haltsOnly s p hcStop).2 a hhalt)

theorem haltTold_frame : (s.haltTold p).mem = s.mem ∧ (s.haltTold p).tiles = s.tiles := by
  have hdecl := (declareHalt_haltsOnly s p hcStop).1
  rw [State.haltTold, State.sendCnet, trace_frame, hdecl]
  exact ⟨rfl, rfl⟩

theorem haltTold_reportNodes (hp4 : p < 4) : (s.haltTold p).reportNodes p = s.reportNodes p := by
  refine reportNodes_congr p (haltTold_reg (by decide) ?_) (haltTold_reg (by decide) ?_) fun lt hlt => haltTold_reg ?_ ?_
  case refine_3 =>
    unfold STK_SEAT_LT
    omega
  case refine_4 =>
    intro h
    have := haltReg_high h
    unfold STK_SEAT_LT at this
    omega
  all_goals
    simp only [haltReg, BELL_CRS_STATE, BELL_CRS_HALT_LO, NBU_TOKEN_LIMIT, CMD_PART, FAB_PART]
    omega

/-- The state of a STOP of p alone, before its command is kept. -/
def State.stopBegun (s : State) (p : Nat) : State :=
  (({ s.haltTold p with stop := some { awaited := (s.reportNodes p).eraseDups, named := false } } : State).setF CMD_STOP_STATUS
    CMD_STOP_STATUS_reported 0).setF CMD_STOP_STATUS CMD_STOP_STATUS_expected (s.reportNodes p).eraseDups.length

theorem parts_of_twoPow {n : Nat} (hp : p < n) : (List.range n).filter (bitSet (2 ^ p)) = [p] := by
  have hbit : ∀ i, bitSet (2 ^ p) i = (i == p) := fun i => by
    rw [bitSet_eq_testBit, Nat.testBit_two_pow, Bool.beq_comm]
    rfl
  rw [List.filter_congr fun i _ => hbit i, List.filter_beq, List.count_eq_one_of_mem List.nodup_range (List.mem_range.mpr hp)]
  rfl

theorem reportNodes_ne_nil : (s.reportNodes p).eraseDups ≠ [] := by
  intro h
  have hmem : 0x100 ∈ s.reportNodes p := List.mem_append_left _ (List.mem_append_right _ (List.mem_map.mpr ⟨0, by decide, rfl⟩))
  rw [← List.mem_eraseDups, h] at hmem
  cases hmem

theorem stopCmd_one {c : Cmd} (hmask : c.pkt.p0 = 2 ^ p) (hp : p < s.partCount) (hp4 : p < 4) (hrun : s.courseRunning p = true)
    (hnone : s.startsWaiting p = []) :
    s.stopCmd c = (s.stopBegun p).putCmd c { c with phase := .committed, data := [(s.haltTold p).pair (BELL_CRS_HALT_LO p)] } := by
  have hpow : (2 : Nat) ^ p ≠ 0 := (Nat.two_pow_pos p).ne'
  have hstop : s.stopPart p = s.declareHalt p hcStop := by
    rw [State.stopPart, hnone]
    rfl
  have htold : (s.declareHalt p hcStop).sendCnet (cnetMsg 9 0 0x180 p true true) = s.haltTold p := rfl
  have hlive : [p].filter (fun q => s.courseRunning q || s.courseState q == csStarting) = [p] := by
    rw [List.filter_singleton, hrun]
    rfl
  simp only [State.stopCmd, hmask, if_neg hpow, parts_of_twoPow hp, hlive, forEach, List.foldl_cons, List.foldl_nil, hstop, htold,
    List.flatMap_cons, List.flatMap_nil, List.append_nil, haltTold_reportNodes hp4, if_neg reportNodes_ne_nil, List.map_cons,
    List.map_nil, Nat.zero_max]
  rfl

theorem stopBegun_haltBell (hp4 : p < 4) : (s.stopBegun p).pair (BELL_CRS_HALT_LO p) = (s.haltTold p).pair (BELL_CRS_HALT_LO p) := by
  have hload : LoadsOnly (· = CMD_STOP_STATUS) { s.haltTold p with stop := some { awaited := (s.reportNodes p).eraseDups, named := false } }
      (s.stopBegun p) := ((LoadsOnly.refl (· = CMD_STOP_STATUS) _).setF rfl _ _).setF rfl _ _
  refine pair_congr (hload.2 _ ?_) (hload.2 _ ?_)
  all_goals
    unfold BELL_CRS_HALT_LO CMD_STOP_STATUS
    omega

theorem stopBegun_courseState (hp4 : p < 4) (hrun : s.courseRunning p = true) : (s.stopBegun p).courseState p = csHalting := by
  have hne : BELL_CRS_STATE p ≠ CMD_STOP_STATUS := by
    unfold BELL_CRS_STATE CMD_STOP_STATUS
    omega
  have hlow : BELL_CRS_STATE p < EVT_RING_TAIL 0 := by
    unfold BELL_CRS_STATE EVT_RING_TAIL
    omega
  have hgoes : s.courseGoes p = true := by rw [State.courseGoes, hrun, Bool.true_or]
  calc (s.stopBegun p).courseState p
    _ = (s.haltTold p).courseState p := (getF_setF_reg _ _ _ _ hne).trans (getF_setF_reg _ _ _ _ hne)
    _ = (s.declareHalt p hcStop).courseState p := congrArg (fldGet · BELL_CRS_STATE_state) (sendCnet_reg _ (eventReg_low hlow))
    _ = csHalting := declareHalt_goes hp4 hgoes _

theorem stopBegun_reported : (s.stopBegun p).getF CMD_STOP_STATUS CMD_STOP_STATUS_reported = 0 :=
  (getF_setF_fld _ _ _ (by decide) (by decide)).trans (getF_setF_lt _ _ (by decide) (by decide))

end

section
variable {s : State}

theorem quiesce_awaited {n : Nat} {t : StopSt} {u : State}
    (hu : u = if n < 256 ∧ (s.tile n).halted = true then s.engines n 4096 else s) (hstop : u.stop = some t) (hmem : n ∈ t.awaited) :
    s.quiesce n = (u.incF CMD_STOP_STATUS CMD_STOP_STATUS_reported 1).setAwaited t (t.awaited.filter (fun m => m != n)) := by
  have hif : (if (decide (n < 256) && (s.tile n).halted) = true then s.engines n 4096 else s) = u := by
    rw [hu]
    simp only [Bool.and_eq_true, decide_eq_true_eq]
  have hcontains : t.awaited.contains n = true := List.contains_iff_mem.mpr hmem
  simp only [State.quiesce, hif, hstop, hcontains, if_true]

theorem stopTimeout_unnamed {t : StopSt} (hstop : s.stop = some t) (hnamed : t.named = false) :
    s.stopTimeout = (({ s with stop := some { t with named := true } }).setB CMD_STOP_STATUS CMD_STOP_STATUS_incomplete true).raise
      evStopIncomplete 255 0 0 t.awaited.length (t.awaited.headD 0) 0 0 := by
  simp only [State.stopTimeout, hstop, hnamed, Bool.false_eq_true, if_false]

theorem stopTimeout_named {t : StopSt} (hstop : s.stop = some t) (hnamed : t.named = true) : s.stopTimeout = s := by
  simp only [State.stopTimeout, hstop, hnamed, if_true]

end

/-! The notice of a halt at a tile. -/

/-- t is s but for cores, channels and registers from those of the cores on. -/
def QuietsOnly (s t : State) : Prop :=
  t = { s with regs := t.regs, cores := t.cores, chans := t.chans } ∧ ∀ a, a < GC_STATUS 0 → t.reg a = s.reg a

theorem QuietsOnly.refl (s : State) : QuietsOnly s s := ⟨rfl, fun _ _ => rfl⟩

theorem QuietsOnly.trans {s t u : State} (h : QuietsOnly s t) (h' : QuietsOnly t u) : QuietsOnly s u := by
  obtain ⟨hst, hreg⟩ := h
  obtain ⟨htu, hreg'⟩ := h'
  refine ⟨?_, fun a ha => (hreg' a ha).trans (hreg a ha)⟩
  rw [htu, hst]

theorem QuietsOnly.forEach {α : Type} (l : List α) (s : State) {f : State → α → State} (hf : ∀ u x, QuietsOnly u (f u x)) :
    QuietsOnly s (forEach l s f) := foldl_keeps (P := QuietsOnly s) l (fun u x hu => hu.trans (hf u x)) (QuietsOnly.refl s)

theorem LoadsOnly.quietsOnly {s t : State} (h : LoadsOnly (GC_STATUS 0 ≤ ·) s t) : QuietsOnly s t := by
  refine ⟨?_, fun a ha => h.2 a (Nat.not_le.mpr ha)⟩
  rw [h.1]

theorem haltCore_quiets (s : State) (g : Nat) : QuietsOnly s (s.haltCore g) := by
  have hreg : GC_STATUS 0 ≤ GC_STATUS g := Nat.le_add_right _ _
  refine QuietsOnly.trans ?_ ((LoadsOnly.refl (GC_STATUS 0 ≤ ·) _).setB hreg _ _).quietsOnly
  exact ⟨rfl, fun _ _ => rfl⟩

theorem gcStatus_lt_movStatus {lt k : Nat} (hlt : lt < 256) (hk : k < 64) (i c : Nat) : GC_STATUS (64 * lt + k) < MOV_STATUS_LT i c := by
  unfold GC_STATUS MOV_STATUS_LT
  omega

theorem haltChan_quiets (s : State) (lt c : Nat) : QuietsOnly s (s.haltChan lt c) := by
  have hreg : GC_STATUS 0 ≤ MOV_STATUS_LT lt c := (gcStatus_lt_movStatus (lt := 0) (k := 0) (by decide) (by decide) lt c).le
  unfold State.haltChan
  dsimp only
  split
  · exact QuietsOnly.trans ⟨rfl, fun _ _ => rfl⟩
      (((LoadsOnly.refl (GC_STATUS 0 ≤ ·) _).setF hreg _ _).setB hreg _ _).quietsOnly
  · exact QuietsOnly.refl s

theorem haltChan_reg (s : State) (lt c : Nat) {a : Nat} (ha : a ≠ MOV_STATUS_LT lt c) : (s.haltChan lt c).reg a = s.reg a := by
  unfold State.haltChan
  dsimp only
  split
  · rw [reg_setB_other _ _ _ ha, reg_setF, if_neg ha]
    rfl
  · rfl

theorem haltChan_idle (s : State) (lt c k : Nat) : ((s.haltChan lt c).chan (8 * lt + k)).copy =
      (if k = c then none else (s.chan (8 * lt + k)).copy) ∧
    ((s.haltChan lt c).chan (8 * lt + k)).ind = (if k = c then none else (s.chan (8 * lt + k)).ind) := by
  have hkc : 8 * lt + k = 8 * lt + c ↔ k = c := by omega
  have hregs : ∀ (u : State) (a : Nat) (f g : Fld) (n : Nat) (b : Bool) (j : Nat), ((u.setF a f n).setB a g b).chan j = u.chan j :=
    fun _ _ _ _ _ _ _ => rfl
  unfold State.haltChan
  dsimp only
  split
  · rw [hregs, chan_modChan]
    by_cases h : k = c
    · simp only [h, if_true, and_self]
    · simp only [hkc, h, if_false, and_self]
  next hidle =>
    simp only [Bool.or_eq_true, Option.isSome_iff_ne_none, not_or, not_not, ne_eq] at hidle
    obtain ⟨hind, hcopy⟩ := hidle
    by_cases h : k = c
    · simp only [h, if_true, hind, hcopy, and_self]
    · simp only [h, if_false, and_self]

/-- Cores and channels of a tile after a halt, from its stopped engines. -/
def State.quieted (s : State) (lt : Nat) : State :=
  (forEach (List.range 8) (forEach (List.range 64) s (fun u k => u.haltCore (64 * lt + k))) (fun u k => u.haltChan lt k)).setB
    (TRN_STATUS_LT lt) TRN_STATUS_LT_busy false

theorem haltTile_eq (s : State) (lt : Nat) : s.haltTile lt = (s.stopEngines lt).quieted lt := rfl

section
variable (s : State) (lt : Nat)

theorem quieted_quiets : QuietsOnly s (s.quieted lt) := by
  have hreg : GC_STATUS 0 ≤ TRN_STATUS_LT lt := by
    unfold GC_STATUS TRN_STATUS_LT
    omega
  refine QuietsOnly.trans ?_ ((LoadsOnly.refl (GC_STATUS 0 ≤ ·) _).setB hreg _ _).quietsOnly
  exact (QuietsOnly.forEach _ s fun u _ => haltCore_quiets u _).trans (QuietsOnly.forEach _ _ fun u c => haltChan_quiets u lt c)

theorem haltCore_halted (g : Nat) : (s.haltCore g).flag (GC_STATUS g) GC_STATUS_halted = true :=
  flag_setB_true _ _ (by decide) (by decide)

theorem haltCore_keeps_halted {a : Nat} (h : s.flag a GC_STATUS_halted = true) (g : Nat) :
    (s.haltCore g).flag a GC_STATUS_halted = true := by
  by_cases ha : a = GC_STATUS g
  · rw [ha]
    exact haltCore_halted s g
  · exact (flag_setB_reg _ _ _ _ ha).trans h

theorem quieted_cores {lt : Nat} (hlt : lt < 256) : ∀ k, k < 64 → (s.quieted lt).flag (GC_STATUS (64 * lt + k)) GC_STATUS_halted = true := by
  intro k hk
  have htrn : GC_STATUS (64 * lt + k) ≠ TRN_STATUS_LT lt := by
    unfold GC_STATUS TRN_STATUS_LT
    omega
  have hcores := forEach_range_all (P := fun k u => State.flag u (GC_STATUS (64 * lt + k)) GC_STATUS_halted = true)
    (f := fun u k => u.haltCore (64 * lt + k)) (fun u k => haltCore_halted u _) (fun u _ j h => haltCore_keeps_halted u h _) 64 s k hk
  refine (flag_setB_reg _ _ _ _ htrn).trans ?_
  exact foldl_keeps (P := fun u : State => u.flag (GC_STATUS (64 * lt + k)) GC_STATUS_halted = true) _
    (fun u c hu => (congrArg (fun w => fldGet w GC_STATUS_halted != 0)
      (haltChan_reg u lt c (gcStatus_lt_movStatus hlt hk lt c).ne)).trans hu) hcores

theorem haltChans_idle : ∀ k, k < 8 → ((forEach (List.range 8) s (fun u c => u.haltChan lt c)).chan (8 * lt + k)).copy = none ∧
    ((forEach (List.range 8) s (fun u c => u.haltChan lt c)).chan (8 * lt + k)).ind = none := by
  refine forEach_range_all (P := fun k (u : State) => (u.chan (8 * lt + k)).copy = none ∧ (u.chan (8 * lt + k)).ind = none)
    (fun u c => ?_) (fun u k c h => ?_) 8 s
  · rw [(haltChan_idle u lt c c).1, (haltChan_idle u lt c c).2, if_pos rfl, if_pos rfl]
    exact ⟨rfl, rfl⟩
  · rw [(haltChan_idle u lt c k).1, (haltChan_idle u lt c k).2, h.1, h.2, ite_self, ite_self]
    exact ⟨rfl, rfl⟩

theorem quieted_chans : ∀ k, k < 8 → ((s.quieted lt).chan (8 * lt + k)).copy = none ∧ ((s.quieted lt).chan (8 * lt + k)).ind = none := by
  intro k hk
  rw [State.quieted, chan_congr (State.setB_chans _ _ _ _)]
  exact haltChans_idle _ lt k hk

end

/-- A tile with nothing due has no descriptor under way but a MERGE or a RUN. -/
theorem nothing_due {t : TileSt} (h : t.dues = []) : t.mxe.pass = none ∧ t.mxe.load = none ∧ t.mxe.send = none ∧ t.ve.job = none ∧
    t.ve.flight = [] ∧ t.mxe.updates = [] := by
  simp only [TileSt.dues, List.append_eq_nil_iff, List.map_eq_nil_iff, Option.toList_eq_nil_iff, List.take_eq_nil_iff,
    Nat.one_ne_zero, false_or] at h
  obtain ⟨⟨⟨⟨⟨hpass, hload⟩, hsend⟩, hjob⟩, hflight⟩, hupdates⟩ := h
  exact ⟨hpass, hload, hsend, hjob, hflight, hupdates⟩

/-- A tile whose engines take up nothing more. -/
def TileSt.stopped (t : TileSt) (x : Nat) : TileSt := { t with halted := true, mxe := t.mxe.stop x, ve := t.ve.stop }

section
variable {s : State} {lt : Nat}

theorem stopEngines_idle (hdue : (s.tile lt).dues = []) :
    s.stopEngines lt = (s.modTile lt (fun t => t.stopped s.cyc)).showEngines lt := by
  rw [State.stopEngines, engines_idle hdue]
  rfl

theorem tile_setB3 (v : State) (a b a' : Nat) (f g f' : Fld) (x y z : Bool) (lt : Nat) :
    (((v.setB a f x).setB b g y).setB a' f' z).tile lt = v.tile lt := by
  rw [tile_congr (State.setB_tiles _ _ _ _), tile_congr (State.setB_tiles _ _ _ _), tile_congr (State.setB_tiles _ _ _ _)]

theorem showMxe_idle {u : State} (hhalt : (u.tile lt).halted = true) (hpass : (u.tile lt).mxe.pass = none)
    (hload : (u.tile lt).mxe.load = none) (hsend : (u.tile lt).mxe.send = none) (hmerge : (u.tile lt).mxe.merge = none)
    (hupdates : (u.tile lt).mxe.updates = []) :
    u.showMxe lt = ((u.setB (MXE_STATUS_LT lt) MXE_STATUS_LT_busy false).setB (MXE_PROGRESS_LT lt) MXE_PROGRESS_LT_pass_active
      false).setB (MXE_STATUS_LT lt) MXE_STATUS_LT_halted true := by
  have htile : ∀ (v : State) (a b : Nat) (f g : Fld) (x y : Bool), ((v.setB a f x).setB b g y).tile lt = v.tile lt :=
    fun _ _ _ _ _ _ _ => rfl
  simp only [State.showMxe, htile, hhalt, hpass, hload, hsend, hmerge, hupdates, Option.isSome_none, List.isEmpty_nil, Bool.not_true,
    Bool.or_false, Bool.not_false, Bool.and_self, if_true]

theorem showVe_idle {u : State} (hhalt : (u.tile lt).halted = true) (hrun : (u.ve lt).run = none) (hjob : (u.ve lt).job = none)
    (hflight : (u.ve lt).flight = []) :
    u.showVe lt = ((u.setB (VE_STATUS_LT lt) VE_STATUS_LT_busy false).setB (VE_PROGRESS_LT lt) VE_PROGRESS_LT_run_active
      false).setB (VE_STATUS_LT lt) VE_STATUS_LT_halted true := by
  have htile : ∀ (v : State) (a b : Nat) (f g : Fld) (x y : Bool), ((v.setB a f x).setB b g y).tile lt = v.tile lt :=
    fun _ _ _ _ _ _ _ => rfl
  simp only [State.showVe, htile, hhalt, hrun, hjob, hflight, Option.isSome_none, List.isEmpty_nil, Bool.not_true,
    Bool.or_false, Bool.not_false, Bool.and_self, if_true]

theorem engineRegs_distinct {lt : Nat} (hlt : lt < 256) : MXE_STATUS_LT lt ≠ VE_STATUS_LT lt ∧ MXE_STATUS_LT lt ≠ VE_PROGRESS_LT lt ∧
    MXE_STATUS_LT lt < GC_STATUS 0 ∧ VE_STATUS_LT lt < GC_STATUS 0 := by
  unfold MXE_STATUS_LT VE_STATUS_LT VE_PROGRESS_LT GC_STATUS
  omega

/-- What a tile with nothing due shows once its engines have stopped. -/
structure EnginesQuiet (lt : Nat) (s t : State) : Prop where
  halted : (t.tile lt).halted = true
  mxe : t.flag (MXE_STATUS_LT lt) MXE_STATUS_LT_halted = true
  ve : t.flag (VE_STATUS_LT lt) VE_STATUS_LT_halted = true
  frame : t = { s with regs := t.regs, tiles := t.tiles, cores := t.cores, chans := t.chans }

theorem stopEngines_quiet (hlt : lt < 256) (hdue : (s.tile lt).dues = []) (hmerge : (s.tile lt).mxe.merge = none)
    (hrun : (s.ve lt).run = none) : EnginesQuiet lt s (s.stopEngines lt) := by
  obtain ⟨hpass, hload, hsend, hjob, hflight, hupdates⟩ := nothing_due hdue
  obtain ⟨hregs, hregs', -, -⟩ := engineRegs_distinct hlt
  have htile : (s.modTile lt (fun t => t.stopped s.cyc)).tile lt = (s.tile lt).stopped s.cyc := by
    rw [tile_modTile, if_pos rfl]
  have hmxe := showMxe_idle (u := s.modTile lt (fun t => t.stopped s.cyc)) (lt := lt) (by rw [htile]; rfl)
    (by rw [htile, TileSt.stopped, MxeSt.stop, hpass]; rfl) (by rw [htile]; rfl)
    (by rw [htile, TileSt.stopped, MxeSt.stop, hsend]; rfl) (by rw [htile]; exact hmerge) (by rw [htile]; exact hupdates)
  have htile' : ((s.modTile lt (fun t => t.stopped s.cyc)).showMxe lt).tile lt = (s.tile lt).stopped s.cyc := by
    rw [hmxe, tile_setB3, htile]
  have hve := showVe_idle (u := (s.modTile lt (fun t => t.stopped s.cyc)).showMxe lt) (lt := lt) (by rw [htile']; rfl)
    (by rw [State.ve, htile', TileSt.stopped, VeSt.stop, show (s.tile lt).ve.run = none from hrun]; rfl)
    (by rw [State.ve, htile']; rfl) (by rw [State.ve, htile']; exact hflight)
  rw [stopEngines_idle hdue, State.showEngines, hve]
  refine ⟨?_, ?_, flag_setB_true _ _ (by decide) (by decide), ?_⟩
  · rw [tile_setB3, htile']
    rfl
  · rw [flag_setB_reg _ _ _ _ hregs, flag_setB_reg _ _ _ _ hregs', flag_setB_reg _ _ _ _ hregs, hmxe]
    exact flag_setB_true _ _ (by decide) (by decide)
  · have hload := (((LoadsOnly.refl (fun _ => True) (s.modTile lt (fun t => t.stopped s.cyc))).setB (a := MXE_STATUS_LT lt) trivial
      MXE_STATUS_LT_busy false).setB (a := MXE_PROGRESS_LT lt) trivial MXE_PROGRESS_LT_pass_active false).setB
      (a := MXE_STATUS_LT lt) trivial MXE_STATUS_LT_halted true
    rw [← hmxe] at hload
    have hloads := ((hload.setB (a := VE_STATUS_LT lt) trivial VE_STATUS_LT_busy false).setB (a := VE_PROGRESS_LT lt) trivial
      VE_PROGRESS_LT_run_active false).setB (a := VE_STATUS_LT lt) trivial VE_STATUS_LT_halted true
    rw [hloads.1]
    rfl

theorem EnginesQuiet.quiets {t u : State} (hlt : lt < 256) (h : EnginesQuiet lt s t) (hq : QuietsOnly t u) : EnginesQuiet lt s u := by
  obtain ⟨hhalted, hmxe, hve, hframe⟩ := h
  obtain ⟨huframe, hureg⟩ := hq
  obtain ⟨-, -, hmxelow, hvelow⟩ := engineRegs_distinct hlt
  refine ⟨?_, ?_, ?_, ?_⟩
  · rw [huframe]
    exact hhalted
  · exact (congrArg (fun w => fldGet w MXE_STATUS_LT_halted != 0) (hureg _ hmxelow)).trans hmxe
  · exact (congrArg (fun w => fldGet w VE_STATUS_LT_halted != 0) (hureg _ hvelow)).trans hve
  · rw [huframe, hframe]

theorem present_lt (h : s.present lt = true) : lt < 256 := by
  rw [State.present, Bool.and_eq_true, decide_eq_true_eq] at h
  exact h.1

theorem haltNoticeTile_next (hon : s.powered = true) (hpresent : s.present lt = true)
    (hhalting : s.haltingPart (s.partOfLt lt) = true) : exec (.haltNoticeTile lt) s = .next ((s.stopEngines lt).quieted lt) := by
  have hif : (if (s.present lt && s.haltingPart (s.partOfLt lt)) = true then s.haltTile lt else s) =
      (s.stopEngines lt).quieted lt := by
    rw [hpresent, hhalting, if_pos (by rfl), haltTile_eq]
  exact live_next hon hif

end

/-- Settles O24, clause by clause from the lemmas on rosters, STOP and halt notices; a tile with nothing due quiesces at once. -/
theorem rostersAndStop : Obligations.RostersAndStop := by
  unfold Obligations.RostersAndStop
  intro s ring tag c
  refine ⟨fun _ _ _ _ _ hhead hentries => readRoster_read hhead hentries,
    fun _ _ _ hc hobj hcourse hlesson hbell hlate hgood =>
      (onCmd_accepted hc).trans (congrArg _ (rosterCommit_good hobj hcourse hlesson hbell hlate hgood)),
    fun _ _ _ hc hobj hcourse hlesson hbell hlate =>
      (onCmd_accepted hc).trans (congrArg _ (rosterCommit_late hobj hcourse hlesson hbell hlate)),
    fun _ _ hc hobj hst => (onCmd_accepted hc).trans (congrArg _ (rosterCommit_unread hobj hst)),
    fun _ hc hroster hlate hnew => (onActive_held hc).trans (congrArg _ (rosterDone_new hroster hlate hnew)),
    fun _ hc hroster hlate => (onActive_held hc).trans (congrArg _ (rosterDeadline_late hroster hlate)),
    fun _ _ _ hon hpresent hworking hfirst hvalid hnext =>
      live_next hon (rosterWrite_next hpresent hworking hfirst hvalid hnext),
    fun p hc hmask hp hp4 hrun hnone => ?_, fun hc => ?_,
    fun _ _ _ hon hu hstop hmem => live_next hon (quiesce_awaited hu hstop hmem),
    fun _ hon hstop hnamed => live_next hon (stopTimeout_unnamed hstop hnamed),
    fun _ hon hstop hnamed => live_next hon (stopTimeout_named hstop hnamed),
    fun lt hon hpresent hhalting hrun hdue hmerge => ?_,
    fun lt hon hpresent hhalting => haltNoticeTile_next hon hpresent hhalting,
    fun l hon hl => live_next hon (if_pos hl), fun q hon hq hhalting => ?_⟩
  case refine_1 =>
    refine ⟨s.stopBegun p, (onCmd_accepted hc).trans ?_, stopBegun_courseState hp4 hrun, rfl, stopBegun_reported, haltTold_frame.1,
      haltTold_frame.2⟩
    rw [stopCmd_one hmask hp hp4 hrun hnone, stopBegun_haltBell hp4]
  case refine_2 =>
    exact (onActive_held hc).trans (congrArg _ (if_pos hc.2.2))
  case refine_3 =>
    have hlt := present_lt hpresent
    obtain ⟨hhalted, hmxe, hve, hframe⟩ := (stopEngines_quiet hlt hdue hmerge hrun).quiets hlt (quieted_quiets _ lt)
    exact ⟨_, haltNoticeTile_next hon hpresent hhalting, hhalted, hmxe, hve, quieted_cores _ hlt, quieted_chans _ lt, hframe⟩
  case refine_4 =>
    exact live_next hon (if_pos (by rw [hhalting, decide_eq_true hq]; rfl))

end Sys2Proof.Machine
end

section
/-! The memory class on this device: one part moves every byte (14 R385, R386). -/

namespace Sys2Proof.Machine

theorem findCmd_opcode {s : State} {ring tag op : Nat} {c : Cmd} (h : s.findCmd ring tag op = some c) : c.pkt.opcode = op := by
  have hfound := List.find?_some h
  simp only [Bool.and_eq_true, beq_iff_eq] at hfound
  exact hfound.2

section
variable {s u u2 u3 : State} {c : Cmd} {src dst : Side} {total : Nat}

theorem xferStart_pumps (hreset : s.clock.resetBegun = false) (hof : s.xferOf c.pkt = (src, dst, total))
    (hover : sidesOverlap src dst total = false) (hsrc : s.sideRefuse c.part src total false = none)
    (hdst : s.sideRefuse c.part dst total true = none) :
    s.xferStart c = xferPump (xferFuel s c) (xferNoted c 0) (s.putCmd c (xferNoted c 0)) 0 := by
  simp only [State.xferStart, hof, hreset, hover, hsrc, hdst, Bool.false_eq_true, if_false]
  rfl

theorem xferPump_part {done moved : Nat} {d : List Byte} (k : Nat) (hof : u.xferOf c.pkt = (src, dst, total)) (hmore : done < total)
    (hget : u.xferGet src done (partLen src dst (total - done)) = some ((0, d), u2))
    (hput : u2.xferPut c dst done d = ((moved, none, false), u3)) :
    xferPump (k + 1) c u done = xferPump k (xferNoted c moved) (u3.putCmd c (xferNoted c moved)) moved := by
  simp only [xferPump, hof, Nat.not_le.mpr hmore, hget, hput, ne_eq, not_true_eq_false, decide_false, Bool.and_false,
    Bool.false_eq_true, if_false, if_true]

theorem xferPump_ask {done : Nat} (k : Nat) (hof : u.xferOf c.pkt = (src, dst, total)) (hmore : done < total)
    (hget : u.xferGet src done (partLen src dst (total - done)) = none) :
    xferPump (k + 1) c u done = u.xferAsk c src done (partLen src dst (total - done)) := by
  simp only [xferPump, hof, Nat.not_le.mpr hmore, hget, if_false]

theorem xferPump_ends (k : Nat) (htotal : (u.xferOf c.pkt).2.2 = total) :
    xferPump (k + 1) c u total = (u.countMoved c total).ok c total := by
  rw [xferPump]
  simp only [htotal, Nat.le_refl, if_true]

/-- The bytes that a command moves stand in its packet. -/
theorem xferOf_length (s t : State) (k : Packet) : (s.xferOf k).2.2 = (t.xferOf k).2.2 := by
  unfold State.xferOf
  split
  · rfl
  split
  · rfl
  split
  · rfl
  · rfl

/-- A transfer of one part: every byte moves, and the command completes OK with their number. -/
theorem xferStart_once {c1 c2 : Cmd} {d : List Byte} (hreset : s.clock.resetBegun = false) (hof : s.xferOf c.pkt = (src, dst, total))
    (hof' : (s.putCmd c c1).xferOf c.pkt = (src, dst, total))
    (hpos : 0 < total) (hover : sidesOverlap src dst total = false) (hsrc : s.sideRefuse c.part src total false = none)
    (hdst : s.sideRefuse c.part dst total true = none) (hc1 : c1 = { c with data := [0], phase := .active })
    (hc2 : c2 = { c with data := [total], phase := .committed })
    (hget : (s.putCmd c c1).xferGet src 0 (partLen src dst total) = some ((0, d), u2))
    (hput : u2.xferPut c1 dst 0 d = ((total, none, false), u3)) :
    s.xferStart c = ((u3.putCmd c1 c2).countMoved c2 total).ok c2 total := by
  have hfuel : xferFuel s c = total / 3840 + 1 + 1 + 1 := by
    rw [xferFuel, hof]
  have hnoted : xferNoted c 0 = c1 := hc1.symm
  have hnoted' : xferNoted c1 total = c2 := by
    rw [hc1, hc2]
    simp only [xferNoted, hpos, if_true]
  have htotal : ((u3.putCmd c1 c2).xferOf c2.pkt).2.2 = total := by
    rw [hc2]
    exact (xferOf_length _ s c.pkt).trans (congrArg (·.2.2) hof)
  have hpkt : (s.putCmd c c1).xferOf c1.pkt = (src, dst, total) := by
    rw [show c1.pkt = c.pkt by rw [hc1]]
    exact hof'
  rw [xferStart_pumps hreset hof hover hsrc hdst, hfuel, hnoted, xferPump_part _ hpkt hpos hget hput, hnoted',
    xferPump_ends _ htotal]

end

section
variable {s : State} {c : Cmd}

theorem putCmd_reg (c1 : Cmd) {a : Nat} (ha : eventReg a = false) : (s.putCmd c c1).reg a = s.reg a := by
  unfold State.putCmd
  dsimp only
  split
  · rfl
  · exact trace_reg _ _ _ _ _ ha

theorem gaLocal_putCmd {c1 : Cmd} {g : Nat} (h : s.gaLocal g = true) : (s.putCmd c c1).gaLocal g = true := by
  have hid : (s.putCmd c c1).ownId = s.ownId := by
    rw [State.ownId, State.flag, State.deviceId, State.getF, State.getF, putCmd_reg c1 (a := STK_ID) (by decide)]
    rfl
  rwa [State.gaLocal, hid]

theorem xferOf_copy (hop : c.pkt.opcode = opMEM_COPY) (hsrc : s.gaLocal c.pkt.p0 = true) (hdst : s.gaLocal c.pkt.p1 = true) :
    s.xferOf c.pkt = (.here (gaAddr c.pkt.p0), .here (gaAddr c.pkt.p1), c.pkt.p2 + 1) := by
  simp only [State.xferOf, hop, State.gaSide, hsrc, hdst, if_true]

theorem xferOf_fill (hop : c.pkt.opcode = opMEM_FILL) (hdst : s.gaLocal c.pkt.p0 = true) :
    s.xferOf c.pkt = (.fill c.pkt.p2, .here (gaAddr c.pkt.p0), c.pkt.p1 + 1) := by
  have hcopy : ¬ opMEM_FILL = opMEM_COPY := by decide
  simp only [State.xferOf, hop, hcopy, State.gaSide, hdst, if_true, if_false]

theorem xferOf_dmaIn (hop : c.pkt.opcode = opDMA_IN) (hdst : s.gaLocal c.pkt.p1 = true) :
    s.xferOf c.pkt = (.host c.pkt.p0, .here (gaAddr c.pkt.p1), c.pkt.p2 + 1) := by
  have hcopy : ¬ opDMA_IN = opMEM_COPY := by decide
  have hfill : ¬ opDMA_IN = opMEM_FILL := by decide
  simp only [State.xferOf, hop, hcopy, hfill, State.gaSide, hdst, if_true, if_false]

theorem xferOf_dmaOut (hop : c.pkt.opcode = opDMA_OUT) (hsrc : s.gaLocal c.pkt.p0 = true) :
    s.xferOf c.pkt = (.here (gaAddr c.pkt.p0), .host c.pkt.p1, c.pkt.p2 + 1) := by
  have hcopy : ¬ opDMA_OUT = opMEM_COPY := by decide
  have hfill : ¬ opDMA_OUT = opMEM_FILL := by decide
  have hin : ¬ opDMA_OUT = opDMA_IN := by decide
  simp only [State.xferOf, hop, hcopy, hfill, hin, State.gaSide, hsrc, if_true, if_false]

theorem xferGet_here {a n : Nat} {r : (Nat × List Byte) × State} (hopen : s.rangeOpen a n = true)
    (hread : s.localRead 0 a n = r) : s.xferGet (.here a) 0 n = some r := by
  simp only [State.xferGet, Nat.add_zero, hopen, if_true, hread]

theorem xferPut_here {t : State} {a n : Nat} {d : List Byte} (hopen : s.rangeOpen a d.length = true)
    (hwrite : s.localWrite a d = ((0, n), t)) : s.xferPut c (.here a) 0 d = ((n, none, false), t) := by
  simp only [State.xferPut, Nat.add_zero, hopen, if_true, hwrite, Nat.zero_add]

theorem fillBytes_length (v off n : Nat) : (fillBytes v off n).length = n := by
  rw [fillBytes, List.length_map, List.length_range]

theorem xferStart_overlap {src dst : Side} {n : Nat} (hreset : s.clock.resetBegun = false) (hof : s.xferOf c.pkt = (src, dst, n))
    (hover : sidesOverlap src dst n = true) : s.xferStart c = s.badParam c 0 0 := by
  simp only [State.xferStart, hof, hreset, hover, Bool.false_eq_true, if_false, if_true]

theorem xferStart_refused {src dst : Side} {n e : Nat} (hreset : s.clock.resetBegun = false) (hof : s.xferOf c.pkt = (src, dst, n))
    (hover : sidesOverlap src dst n = false) (hsrc : s.sideRefuse c.part src n false = some e) :
    s.xferStart c = s.failAt c e 0 0 := by
  simp only [State.xferStart, hof, hreset, hover, hsrc, Bool.false_eq_true, if_false, srcWord]

end

/-- Settles O25: every part of a transfer within the device is the whole transfer. -/
theorem memoryCommands : Obligations.MemoryCommands := by
  unfold Obligations.MemoryCommands
  intro s ring tag c c1 c2 n hreset
  refine ⟨fun d s2 s3 hc hn hc1 hc2 hsrc hdst hover hok hok' hopen hread hlen hopen' hwrite => ?_,
    fun s3 hc hn hc1 hc2 hdst hok hopen hwrite => ?_, fun d s2 hc hn hle hc1 hc2 hsrc hok hopen hread hlen => ?_,
    fun hc hn hc1 hdst hok => ?_, fun e hc hn hsrc hdst hover hrefuse => ?_, fun hc hsrc hdst hover => ?_⟩
  all_goals
    have hop := findCmd_opcode hc.2.1
    refine (onCmd_accepted hc).trans (congrArg _ ?_)
  · subst hn
    exact xferStart_once hreset (xferOf_copy hop hsrc hdst)
      (xferOf_copy hop (gaLocal_putCmd hsrc) (gaLocal_putCmd hdst)) (Nat.succ_pos _) hover hok hok' hc1 hc2
      (xferGet_here hopen hread) (xferPut_here (by rwa [hlen]) hwrite)
  · subst hn
    exact xferStart_once hreset (xferOf_fill hop hdst) (xferOf_fill hop (gaLocal_putCmd hdst)) (Nat.succ_pos _) rfl rfl hok hc1 hc2
      rfl (xferPut_here (by rwa [partLen, fillBytes_length]) hwrite)
  · subst hn
    have hpart : partLen (.here (gaAddr c.pkt.p0)) (.host c.pkt.p1) (c.pkt.p2 + 1) = c.pkt.p2 + 1 := Nat.min_eq_right hle
    have hput : s2.xferPut c1 (.host c.pkt.p1) 0 d = ((c.pkt.p2 + 1, none, false),
        s2.mxlSend (.hostWrite true (some (c.ring, c.pkt.tag)) c.pkt.p1 d)) := by
      rw [State.xferPut, hlen, Nat.zero_add, hc1]
      rfl
    exact xferStart_once hreset (xferOf_dmaOut hop hsrc) (xferOf_dmaOut hop (gaLocal_putCmd hsrc)) (Nat.succ_pos _) rfl hok rfl hc1 hc2
      (by rw [hpart]; exact xferGet_here hopen hread) hput
  · subst hn hc1
    have hfuel : xferFuel s c = ((c.pkt.p2 + 1) / 3840 + 2) + 1 := by
      rw [xferFuel, xferOf_dmaIn hop hdst]
    rw [xferStart_pumps hreset (xferOf_dmaIn hop hdst) rfl rfl hok, hfuel,
      xferPump_ask _ (xferOf_dmaIn (s := s.putCmd c (xferNoted c 0)) (c := xferNoted c 0) hop (gaLocal_putCmd hdst)) (Nat.succ_pos _) rfl]
    rfl
  · subst hn
    have hside : s.sideRefuse c.part (.here (gaAddr c.pkt.p0)) (c.pkt.p2 + 1) false = some e := by
      rw [State.sideRefuse, hrefuse]
    exact xferStart_refused hreset (xferOf_copy hop hsrc hdst) hover hside
  · exact xferStart_overlap hreset (xferOf_copy hop hsrc hdst) hover

end Sys2Proof.Machine
end

section
/-! The completion of a command, whatever its rings: what it leaves as it was (14 R378-R380). -/

namespace Sys2Proof.Machine

/-- t is s but for registers, what is reported and sent, and the commands held. -/
def EndsOnly (s t : State) : Prop :=
  t = { s with regs := t.regs, freeCtr := t.freeCtr, mxl := t.mxl, evRings := t.evRings, mgmt := t.mgmt, out := t.out,
               cmds := t.cmds, done := t.done }

theorem EndsOnly.refl (s : State) : EndsOnly s s := rfl

theorem EndsOnly.trans {s t u : State} (h : EndsOnly s t) (h' : EndsOnly t u) : EndsOnly s u := by
  unfold EndsOnly at h h' ⊢
  rw [h', h]

theorem Reports.endsOnly {s t : State} (h : Reports s t) : EndsOnly s t := by
  unfold EndsOnly
  rw [h.1]

theorem LoadsOnly.endsOnly {A : Nat → Prop} {s t : State} (h : LoadsOnly A s t) : EndsOnly s t := by
  unfold EndsOnly
  rw [h.1]

theorem setReg_endsOnly (s : State) (a : Nat) (w : Word) : EndsOnly s (s.setReg a w) :=
  ((LoadsOnly.refl (fun _ => True) s).setReg (a := a) trivial w).endsOnly

theorem EndsOnly.ite {s t u : State} {b : Prop} [Decidable b] (ht : EndsOnly s t) (hu : EndsOnly s u) :
    EndsOnly s (if b then t else u) := by
  split
  · exact ht
  · exact hu

theorem trace_endsOnly (s : State) (src : Nat) (code node data : Option Nat) : EndsOnly s (s.trace src code node data) :=
  (reports_trace src code node data (Reports.refl s)).endsOnly

theorem mxlSend_endsOnly (s : State) (x : Msg) : EndsOnly s (s.mxlSend x) := (reports_mxlSend x (Reports.refl s)).endsOnly

theorem raise_endsOnly (s : State) (code part kind unit d0 d1 d2 d3 : Nat) : EndsOnly s (s.raise code part kind unit d0 d1 d2 d3) :=
  (reports_raise code part kind unit d0 d1 d2 d3 (Reports.refl s)).endsOnly

theorem perfAdd_endsOnly (s : State) (p k n : Nat) : EndsOnly s (s.perfAdd p k n) := by
  have hload : ∀ (a b : Nat) (w : Word) (f : Fld) (v : Nat), EndsOnly s ((s.setReg a w).setF b f v) := fun a b w f v =>
    (setReg_endsOnly s a w).trans (setReg_endsOnly _ b _)
  exact (EndsOnly.refl s).ite ((hload _ _ _ _ _).ite
    (((hload _ _ _ _ _).trans (setReg_endsOnly _ _ _)).trans (raise_endsOnly _ _ _ _ _ _ _ _ _)))

theorem sendRecord_endsOnly (s : State) (c : Cmd) (status : Nat) (changed : Bool) (detail result : Nat) :
    EndsOnly s (s.sendRecord c status changed detail result) :=
  ((mxlSend_endsOnly s _).trans (setReg_endsOnly _ _ _)).ite (mxlSend_endsOnly s _)

theorem tracePhases_endsOnly (s : State) (c : Cmd) (changed : Bool) : EndsOnly s (s.tracePhases c changed) :=
  foldl_keeps (P := EndsOnly s) _ (fun u _ hu => hu.trans (trace_endsOnly u _ _ _ _)) (EndsOnly.refl s)

theorem finish_endsOnly (s : State) (c : Cmd) (status : Nat) (changed : Bool) (detail result : Nat) :
    EndsOnly s (s.finish c status changed detail result) := by
  have htake : ∀ u : State, EndsOnly u { u with
      cmds := u.cmds.erase c
      done := keepDone u.done { ring := c.ring, tag := c.pkt.tag, opcode := c.pkt.opcode, status := status } } := fun _ => rfl
  have hsent := (((tracePhases_endsOnly s c changed).trans (htake _)).trans (sendRecord_endsOnly _ c status changed detail result)).trans
    (trace_endsOnly _ 1 none (some c.ring) none)
  exact (hsent.trans (perfAdd_endsOnly _ _ _ _)).ite (hsent.trans (setReg_endsOnly _ _ _))

end Sys2Proof.Machine
end

section
/-! NOP, RESET, PARTITION_SET, RECESS_REQUEST, GROUP_TABLE and BELL_JOIN (14 R385, R392, 19 R464, 11 R309-R312, 20 R473). -/

namespace Sys2Proof.Machine

section
variable {s : State} {c : Cmd}

theorem resetCmd_eq : s.resetCmd c =
    { s.ok c 0 with clock := { s.clock with resetPending := some 1, resetMsg := some s.mxl.nextMsg } } := by
  have hclock : (s.ok c 0).clock = s.clock := congrArg (·.clock) (finish_endsOnly s c stOK true 0 0)
  rw [State.resetCmd, hclock]

theorem partitionSet_free (hloaded : s.anyLoaded = false) (hopen : s.anySeqOpen = false) :
    s.partitionSet c = ({ s.setF CMD_PART CMD_PART_count c.pkt.p0 with power :=
      { (s.setF CMD_PART CMD_PART_count c.pkt.p0).power with
        budgets := some (s.setF CMD_PART CMD_PART_count c.pkt.p0).evenBudgets } } : State).ok c 0 := by
  rw [State.partitionSet, hloaded, hopen, if_neg (by decide)]

theorem partitionSet_loaded (hloaded : s.anyLoaded = true) : s.partitionSet c = s.fail c stDEVICE_STATE := by
  rw [State.partitionSet, hloaded, if_pos (by rfl)]

theorem recessRequest_inStep (hstep : s.inStep = true) : s.recessRequest c =
    (s.requestRecess (c.pkt.p0 % 256) (c.pkt.p0 / 256 % 65536) (s.bellCount + 2 * s.map.horizon) 5 (c.pkt.p0 % 256)).ok c 0 := by
  have hout : (!s.flag BELL_SYNC BELL_SYNC_joined || s.flag BELL_SYNC BELL_SYNC_out_of_step) = !s.inStep := by
    rw [State.inStep, Bool.not_and, Bool.not_not]
  rw [State.recessRequest, hout, hstep, if_neg (by decide)]
  rfl

theorem recessRequest_out (hstep : s.inStep = false) : s.recessRequest c = s.fail c stDEVICE_STATE := by
  have hout : (!s.flag BELL_SYNC BELL_SYNC_joined || s.flag BELL_SYNC BELL_SYNC_out_of_step) = !s.inStep := by
    rw [State.inStep, Bool.not_and, Bool.not_not]
  rw [State.recessRequest, hout, hstep, if_pos (by rfl)]

/-! GROUP_TABLE. -/

theorem groupTable_good {m : List Byte} {u : State} (hread : s.readObject c.pkt.p0 16384 = ((m, 0), u))
    (hgood : tableGood (tableOf m) = true) (hfree : (u.group c.part).cmd = none) :
    s.groupTable c = ((((u.modGroup c.part (fun g => { g with
      image := tableOf m, cmd := some (c.ring, c.pkt.tag), bell := c.pkt.p2, generation := c.pkt.p1, copied := false })).setB
      (UPD_STATE c.part) UPD_STATE_pending true).showCopying c.part).setReg
      (UPD_GEN_PENDING c.part) (BitVec.ofNat 32 c.pkt.p1)).putCmd c { c with phase := .active } := by
  simp only [State.groupTable, hread, hgood, hfree, ne_eq, not_true_eq_false, if_false, Bool.not_true, Bool.false_eq_true,
    Option.isSome_none]

end

section
variable {s : State} {p : Nat}

theorem showCopying_copying (s : State) (p q : Nat) : (s.showCopying p).flag (UPD_STATE q) UPD_STATE_copying =
    if q = p then ((s.group p).cmd.isSome && !(s.group p).copied) || (s.group p).shadowing
    else s.flag (UPD_STATE q) UPD_STATE_copying := by
  rw [State.showCopying]
  by_cases hq : q = p
  · rw [if_pos hq, hq]
    exact flag_setB _ _ _ (by decide) (by decide)
  · rw [if_neg hq]
    refine flag_setB_reg _ _ _ _ fun h => hq ?_
    unfold UPD_STATE at h
    omega

theorem groupCopied_waits (h : (s.group p).cmd = none ∨ (s.group p).scheduled.isSome = true ∨ s.serviceOpen p = false) :
    s.groupCopied p = s := by
  refine if_pos ?_
  rcases h with h | h | h
  · rw [h]
    rfl
  · rw [h, Bool.or_true, Bool.true_or]
  · rw [h, Bool.not_false, Bool.or_true]

theorem groupCopied_copies (hp : p < 4) (hcmd : (s.group p).cmd.isSome = true) (hcopied : (s.group p).copied = false)
    (hshadow : s.shadowOn = false) (hsched : (s.group p).scheduled = none) (hopen : s.serviceOpen p = true) :
    s.groupCopied p = ((s.setStaging p (s.group p).image).modGroup p (fun g => { g with copied := true })).showCopying p := by
  have hregs : ∀ t : Tbl Nat, (s.setStaging p t).regs = s.regs := fun t => by
    rw [State.setStaging]
    split
    · rfl
    · rfl
  have hne : UPD_SHADOW ≠ UPD_STATE p := by
    unfold UPD_SHADOW UPD_STATE
    omega
  have hoff : (((s.setStaging p (s.group p).image).modGroup p (fun g => { g with copied := true })).showCopying p).shadowOn = false := by
    rw [← hshadow, State.showCopying, State.shadowOn, flag_setB_reg _ _ _ _ hne]
    exact congrArg (fun r => fldGet ((tgetD r UPD_SHADOW 0)) UPD_SHADOW_enable != 0) (hregs _)
  have hnone : (s.group p).cmd.isNone = false := by rw [← Option.not_isSome, hcmd]; rfl
  simp only [State.groupCopied, hnone, hcopied, hsched, hopen, Option.isSome_none, Bool.not_true, Bool.or_false, Bool.false_eq_true,
    if_false, hoff]

end

section
variable {s : State} {c : Cmd}

theorem groupCommit_scheduled (hcopied : (s.group c.part).copied = true) (hbell : (s.group c.part).bell = s.bellCount + 1)
    (hearly : c.bell < s.bellCount) :
    s.groupCommit c = ((s.setB (UPD_STATE c.part) UPD_STATE_pending false).modGroup c.part
      (fun g => { g with cmd := none, copied := false, scheduled := some (g.bell, g.generation) })).ok c 0 := by
  have hcount : (s.setB (UPD_STATE c.part) UPD_STATE_pending false).bellCount = s.bellCount := by
    refine pair_congr (reg_setB_other _ _ _ ?_) (reg_setB_other _ _ _ ?_)
    all_goals
      unfold UPD_STATE BELL_COUNT_LO
      omega
  simp only [State.groupCommit, hbell, Nat.lt_irrefl, if_false, hcopied, hcount, hearly, decide_true, Bool.and_self, if_true]

theorem groupCommit_late (hcopied : (s.group c.part).copied = false) (hbell : (s.group c.part).bell ≤ s.bellCount + 1)
    (hidle : s.courseRunning c.part = false) :
    s.groupCommit c = ((((s.setB (UPD_STATE c.part) UPD_STATE_pending false).modGroup c.part
      (fun g => { g with cmd := none, copied := false })).showCopying c.part).incF (UPD_STATE c.part) UPD_STATE_late 1).fail c
      stGROUP_LATE := by
  have hne : BELL_CRS_STATE c.part ≠ UPD_STATE c.part := by
    unfold BELL_CRS_STATE UPD_STATE
    omega
  have hrun : ((((s.setB (UPD_STATE c.part) UPD_STATE_pending false).modGroup c.part
      (fun g => { g with cmd := none, copied := false })).showCopying c.part).incF (UPD_STATE c.part) UPD_STATE_late 1).courseRunning
      c.part = false := by
    have hstate : ((((s.setB (UPD_STATE c.part) UPD_STATE_pending false).modGroup c.part
        (fun g => { g with cmd := none, copied := false })).showCopying c.part).incF (UPD_STATE c.part) UPD_STATE_late 1).courseState
        c.part = s.courseState c.part :=
      congrArg (fldGet · BELL_CRS_STATE_state) ((reg_incF_other _ _ _ hne).trans
        ((reg_setB_other _ _ _ hne).trans (reg_setB_other _ _ _ hne)))
    rw [State.courseRunning, hstate]
    exact hidle
  simp only [State.groupCommit, Nat.not_lt.mpr hbell, if_false, hcopied, Bool.false_and, Bool.false_eq_true, hrun]

theorem shadowDone_one (hone : s.partCount = 1) (hshadow : (s.group 0).shadowing = true) (hopen : s.serviceOpen 0 = true) :
    s.shadowDone = (
      let a := s.activeBank 0
      let u := s.shadowBank 0 a (s.activeTable 0)
      let w := u.shadowBank 0 (1 - a) (if (u.group 0).staged then u.stagingTable 0 else u.activeTable 0)
      let v := w.shadowHead 0 a (w.reg (UPD_GEN_ACTIVE 0)).toNat (w.pair (UPD_ACTIVE_AT_LO 0)) 48
      (v.modGroup 0 (fun g => { g with shadowing := false })).showCopying 0) := by
  rw [State.shadowDone, hone, forEach_range_succ]
  exact if_pos (by rw [show forEach (List.range 0) s _ = s from rfl, hshadow, hopen]; rfl)

theorem shadowDone_idle (hone : s.partCount = 1) (h : (s.group 0).shadowing = false ∨ s.serviceOpen 0 = false) : s.shadowDone = s := by
  rw [State.shadowDone, hone]
  refine forEach_fixed fun p hp => if_neg ?_
  rw [Nat.lt_one_iff.mp (List.mem_range.mp hp)]
  rcases h with h | h
  · simp only [h, Bool.false_and, Bool.false_eq_true, not_false_eq_true]
  · simp only [h, Bool.and_false, Bool.false_eq_true, not_false_eq_true]

/-! BELL_JOIN. -/

theorem bellJoin_waits (hmap : s.map.loaded = true) (hout : s.flag BELL_SYNC BELL_SYNC_joined = false) (hfree : s.bell.join = none) :
    s.bellJoin c = ({ s with bell := { s.bell with join := some ⟨c.ring, c.pkt.tag, s.bellCount, false, 0, 0, 0⟩ } } : State).putCmd
      c { c with phase := .active } := by
  simp only [State.bellJoin, hmap, hout, hfree, Bool.not_true, Bool.or_false, Option.isSome_none, Bool.false_eq_true, if_false]

theorem joinTimeout_late {j : Join} (hjoin : s.bell.join = some j) (hlate : j.start + 65536 ≤ s.bellCount) :
    s.joinTimeout c = ({ s with bell := { s.bell with join := none } } : State).fail c stNOT_IN_STEP := by
  simp only [State.joinTimeout, hjoin, hlate, if_true]

/-- No join is under way any more, and no bell is missing. -/
def State.joinEnded (s : State) : State := { s with bell := { s.bell with join := none, missing := 0 } }

theorem joinEnded_reg (s : State) (a : Nat) : s.joinEnded.reg a = s.reg a := rfl

/-- A device other than the timekeeper has taken its place in the bells. -/
def State.joinedAt (s : State) (j : Join) : State :=
  ((s.setPair BELL_COUNT_LO (s.fullBell (j.sysBell + 1))).setB BELL_SYNC BELL_SYNC_joined true).joinEnded

/-- What the commit point of a join that began with s does once the bells are numbered (t): the S7 card, and S8 begins. -/
def State.joinShown (s : State) (j : Join) (t : State) : State :=
  let u := (t.setB BELL_SYNC BELL_SYNC_joined true).joinEnded
  (u.writeCard 7 cardPASS ((s.bellCount - j.start) * 29257 / 10000) 0
    [u.bellCount % 2 ^ 32, s.bellCount - j.start, u.map.timekeeper, if u.isTimekeeper then 0 else j.hops]).setStage 8 0

theorem joinCommit_good {j : Join} (hjoin : s.bell.join = some j) (hgood : 16 ≤ j.good) :
    s.joinCommit c = (s.joinShown j (if s.isTimekeeper then s else s.setPair BELL_COUNT_LO (s.fullBell (j.sysBell + 1)))).ok c 0 := by
  rw [State.joinCommit, hjoin]
  exact if_pos (by rw [decide_eq_true hgood, Bool.or_true])

/-- The state that a join away from the timekeeper leaves to its completion. -/
def State.joined (s : State) (j : Join) : State := s.joinShown j (s.setPair BELL_COUNT_LO (s.fullBell (j.sysBell + 1)))

end

theorem writeCard_loads (s : State) (stage result duration firstFail : Nat) (c : List Nat) :
    ∃ t : State, LoadsOnly (BRG_CARD 0 0 ≤ ·) s t ∧
      s.writeCard stage result duration firstFail c = { t with bring := (s.writeCard stage result duration firstFail c).bring } :=
  ⟨_, (LoadsOnly.refl _ s).forEach fun u i _ => (LoadsOnly.refl (BRG_CARD 0 0 ≤ ·) u).setReg
    (by unfold BRG_CARD; omega) _, rfl⟩

/-- A card and a stage: registers from those of the bring-up on, its log, and an in-band interrupt. -/
def StagesOnly (s t : State) : Prop :=
  t = { s with regs := t.regs, bring := t.bring, mgmt := t.mgmt, out := t.out } ∧ ∀ a, a < BRG_STAGE → t.reg a = s.reg a

theorem StagesOnly.trans {s t u : State} (h : StagesOnly s t) (h' : StagesOnly t u) : StagesOnly s u := by
  obtain ⟨hst, hreg⟩ := h
  obtain ⟨htu, hreg'⟩ := h'
  refine ⟨?_, fun a ha => (hreg' a ha).trans (hreg a ha)⟩
  rw [htu, hst]

theorem LoadsOnly.stagesOnly {s t : State} (h : LoadsOnly (BRG_STAGE ≤ ·) s t) : StagesOnly s t := by
  refine ⟨?_, fun a ha => h.2 a (Nat.not_le.mpr ha)⟩
  rw [h.1]

theorem raiseIbi_stagesOnly (s : State) (b : Nat) : StagesOnly s (s.raiseIbi b) := by
  unfold State.raiseIbi
  split
  · exact ⟨rfl, fun _ _ => rfl⟩
  · exact ⟨rfl, fun _ _ => rfl⟩

theorem writeCard_stagesOnly (s : State) (stage result duration firstFail : Nat) (c : List Nat) :
    StagesOnly s (s.writeCard stage result duration firstFail c) := by
  obtain ⟨t, hloads, hcard⟩ := writeCard_loads s stage result duration firstFail c
  rw [hcard]
  exact (hloads.mono fun a ha => Nat.le_trans (by decide) ha).stagesOnly.trans ⟨rfl, fun _ _ => rfl⟩

theorem setStage_stagesOnly (s : State) (stage state : Nat) : StagesOnly s (s.setStage stage state) :=
  (((LoadsOnly.refl (BRG_STAGE ≤ ·) s).setF (Nat.le_refl _) _ _).setF (Nat.le_refl _) _ _).stagesOnly.trans
    (raiseIbi_stagesOnly _ 1)

theorem setStage_shows (s : State) {stage state : Nat} (hstage : stage < 16) (hstate : state < 8) :
    (s.setStage stage state).getF BRG_STAGE BRG_STAGE_stage = stage ∧
    (s.setStage stage state).getF BRG_STAGE BRG_STAGE_state = state := by
  have hregs : ∀ f, (s.setStage stage state).getF BRG_STAGE f =
      ((s.setF BRG_STAGE BRG_STAGE_stage stage).setF BRG_STAGE BRG_STAGE_state state).getF BRG_STAGE f := fun f => by
    rw [State.setStage, State.getF, State.reg, raiseIbi_regs]
    rfl
  rw [hregs, hregs]
  exact ⟨(getF_setF_fld _ _ _ (by decide) (by decide)).trans (getF_setF_lt _ _ (by decide) hstage),
    getF_setF_lt _ _ (by decide) hstate⟩

section
variable {s : State} {j : Join}

theorem joined_stagesOnly : StagesOnly (s.joinedAt j) (s.joined j) := (writeCard_stagesOnly _ _ _ _ _ _).trans (setStage_stagesOnly _ 8 0)

theorem joined_stage : (s.joined j).getF BRG_STAGE BRG_STAGE_stage = 8 ∧ (s.joined j).getF BRG_STAGE BRG_STAGE_state = 0 :=
  setStage_shows _ (by decide) (by decide)

theorem joinEnded_loads {t : State} (h : LoadsOnly (fun _ => True) s t) :
    t.joinEnded = { s with regs := t.joinEnded.regs, bell := { s.bell with join := none, missing := 0 } } := by
  rw [State.joinEnded, h.1]

theorem joinedAt_frame : s.joinedAt j = { s with
    regs := (s.joinedAt j).regs, bell := { s.bell with join := none, missing := 0 } } :=
  joinEnded_loads (((LoadsOnly.refl (fun _ => True) s).setPair trivial trivial _).setB trivial _ _)

theorem joinedAt_reg (a : Nat) : (s.joinedAt j).reg a =
    ((s.setPair BELL_COUNT_LO (s.fullBell (j.sysBell + 1))).setB BELL_SYNC BELL_SYNC_joined true).reg a := by
  rw [State.joinedAt, joinEnded_reg]

theorem joinedAt_joined : (s.joinedAt j).flag BELL_SYNC BELL_SYNC_joined = true :=
  (congrArg (fun w => fldGet w BELL_SYNC_joined != 0) (joinedAt_reg _)).trans (flag_setB_true _ _ (by decide) (by decide))

theorem joinedAt_bells : (s.joinedAt j).pair BELL_COUNT_LO = s.fullBell (j.sysBell + 1) % 2 ^ 64 := by
  refine (pair_congr (joinedAt_reg _) (joinedAt_reg _)).trans ?_
  exact (pair_congr (reg_setB_other _ _ _ (by decide)) (reg_setB_other _ _ _ (by decide))).trans (pair_setPair _ _ _)

end

/-- Settles O26, clause by clause from the lemmas on each command. -/
theorem deviceCommands : Obligations.DeviceCommands := by
  unfold Obligations.DeviceCommands
  intro s ring tag p c
  refine ⟨fun hc => onCmd_accepted hc, fun hc => (onCmd_accepted hc).trans (congrArg _ resetCmd_eq),
    fun hc hloaded hopen => (onCmd_accepted hc).trans (congrArg _ (partitionSet_free hloaded hopen)),
    fun hc hloaded => (onCmd_accepted hc).trans (congrArg _ (partitionSet_loaded hloaded)),
    fun hc hstep => (onCmd_accepted hc).trans (congrArg _ (recessRequest_inStep hstep)),
    fun hc hstep => (onCmd_accepted hc).trans (congrArg _ (recessRequest_out hstep)),
    fun _ _ hc hread hgood hfree => (onCmd_accepted hc).trans (congrArg _ (groupTable_good hread hgood hfree)),
    showCopying_copying s p,
    fun hon hp hcmd hcopied hshadow hsched hopen =>
      live_next hon ((if_pos hp).trans (groupCopied_copies hp hcmd hcopied hshadow hsched hopen)),
    fun hon hp h => live_next hon ((if_pos hp).trans (groupCopied_waits h)),
    fun hc hcopied hbell hearly hp => ?_, fun hc hcopied hbell hidle hp => ?_,
    fun hon hone hshadow hopen => live_next hon (shadowDone_one hone hshadow hopen),
    fun hon hone h => live_next hon (shadowDone_idle hone h),
    fun hc hmap hout hfree => (onCmd_accepted hc).trans (congrArg _ (bellJoin_waits hmap hout hfree)),
    fun j hc hjoin hother hgood => ?_, fun j hc hjoin hlate => ?_⟩
  · exact (onActive_held hc).trans (congrArg _ ((if_pos hc.2.2).trans (groupCommit_scheduled hcopied hbell hearly)))
  · exact (onActive_held hc).trans (congrArg _ ((if_pos hc.2.2).trans (groupCommit_late hcopied hbell hidle)))
  · obtain ⟨hframe, hreg⟩ := joined_stagesOnly (s := s) (j := j)
    have hnext : exec (.bellJoinCommit ring tag) s = .next ((s.joined j).ok c 0) := by
      refine (onActive_held hc).trans (congrArg _ ((if_pos hc.2.2).trans ((joinCommit_good hjoin hgood).trans ?_)))
      rw [hother, if_neg (by decide), State.joined]
    refine ⟨s.joined j, hnext, ?_, ?_, ?_, joined_stage.1, joined_stage.2, ?_⟩
    · exact (congrArg (fun w => fldGet w BELL_SYNC_joined != 0) (hreg BELL_SYNC (by decide))).trans joinedAt_joined
    · exact (pair_congr (hreg _ (by decide)) (hreg _ (by decide))).trans joinedAt_bells
    · exact (congrArg (·.bell) hframe).trans (congrArg (·.bell) joinedAt_frame)
    · rw [hframe, joinedAt_frame]
  · exact (onActive_held hc).trans (congrArg _ ((if_pos hc.2.2).trans (joinTimeout_late hjoin hlate)))

end Sys2Proof.Machine
end

section
/-! The commands of the security block (21 R499, R504-R517). -/

namespace Sys2Proof.Machine

theorem findCmd_names {s : State} {ring tag op : Nat} {c : Cmd} (h : s.findCmd ring tag op = some c) :
    c.ring = ring ∧ c.pkt.tag = tag := by
  have hfound := List.find?_some h
  simp only [Bool.and_eq_true, beq_iff_eq] at hfound
  exact hfound.1

section
variable {s : State} {c : Cmd}

/-! Acceptance. -/

theorem secAccept_waits (hbusy : s.sec.job.isSome = true) : s.secAccept c =
    ({ s with sec := { s.sec with waiting := s.sec.waiting ++ [⟨c.ring, c.pkt.tag, []⟩] } } : State).putCmd c
      { c with phase := .active } := if_pos hbusy

theorem secAccept_begins (hfree : s.sec.job = none) : s.secAccept c = s.secBegin c := by
  rw [State.secAccept, hfree]
  rfl

section
variable {b : List Byte} {u : State} (hfree : s.sec.job = none) (hread : s.readObject c.pkt.p0 c.pkt.p1 = ((b, 0), u))
include hfree hread

theorem secAccept_image (hop : c.pkt.opcode = opIMAGE_STAGE) : s.secAccept c = u.stageImage c b := by
  have hattest : ¬ opIMAGE_STAGE = opATTEST := by decide
  have hactivate : ¬ opIMAGE_STAGE = opIMAGE_ACTIVATE := by decide
  simp only [secAccept_begins hfree, State.secBegin, hop, hattest, hactivate, hread, ne_eq, not_true_eq_false, if_false, if_true]

theorem secAccept_syllabus (hop : c.pkt.opcode = opSYLLABUS_LOAD) : s.secAccept c = u.stageSyllabus c b := by
  have hattest : ¬ opSYLLABUS_LOAD = opATTEST := by decide
  have hactivate : ¬ opSYLLABUS_LOAD = opIMAGE_ACTIVATE := by decide
  have himage : ¬ opSYLLABUS_LOAD = opIMAGE_STAGE := by decide
  simp only [secAccept_begins hfree, State.secBegin, hop, hattest, hactivate, himage, hread, ne_eq, not_true_eq_false, if_false,
    if_true]

theorem secAccept_licence (hop : c.pkt.opcode = opLICENCE_LOAD) : s.secAccept c = u.stageLicence c b := by
  have hattest : ¬ opLICENCE_LOAD = opATTEST := by decide
  have hactivate : ¬ opLICENCE_LOAD = opIMAGE_ACTIVATE := by decide
  have himage : ¬ opLICENCE_LOAD = opIMAGE_STAGE := by decide
  have hsyllabus : ¬ opLICENCE_LOAD = opSYLLABUS_LOAD := by decide
  simp only [secAccept_begins hfree, State.secBegin, hop, hattest, hactivate, himage, hsyllabus, hread, ne_eq, not_true_eq_false,
    if_false]

end

theorem secAccept_attest {b : List Byte} (hfree : s.sec.job = none) (hop : c.pkt.opcode = opATTEST)
    (hread : s.readObject c.pkt.p0 32 = ((b, 0), s)) (htarget : s.svcRefuse c.pkt.p1 35088 true = none) :
    s.secAccept c = s.secRun c (s.report b) := by
  simp only [secAccept_begins hfree, State.secBegin, hop, State.stageReport, hread, htarget, ne_eq, not_true_eq_false, if_false,
    if_true]

/-! Signed objects. -/

/-- What does not begin with the magic is no signed object. -/
theorem soPrefix_unsigned {b : List Byte} (h : leAt b 0 4 ≠ 0x53474E57) (kind : Nat) : soPrefix kind b = false := by
  rw [soPrefix, beq_eq_false_iff_ne.mpr h]
  simp only [Bool.false_and]

theorem verify_unsigned {b : List Byte} (h : leAt b 0 4 ≠ 0x53474E57) (kind : Nat) (body digest : Bool) :
    s.verify kind b body digest = failsFor rjFORMAT := by
  rw [State.verify, soPrefix_unsigned h]
  rfl

theorem stageImage_unsigned {b : List Byte} (h : leAt b 0 4 ≠ 0x53474E57) :
    s.stageImage c b = s.secReject c stIMAGE_FORMAT (failsFor rjFORMAT) := by
  rw [State.stageImage, soPrefix_unsigned h]
  rfl

theorem stageSyllabus_unsigned {b : List Byte} (h : leAt b 0 4 ≠ 0x53474E57) :
    s.stageSyllabus c b = s.secReject c stSIG_INVALID (failsFor rjFORMAT) := by
  rw [State.stageSyllabus, State.verifySyllabus, verify_unsigned h]
  rfl

theorem stageLicence_unsigned {b : List Byte} (h : leAt b 0 4 ≠ 0x53474E57) :
    s.stageLicence c b = s.secReject c stSIG_INVALID (failsFor rjFORMAT) := by
  rw [State.stageLicence, State.verifyLicence, verify_unsigned h]
  rfl

theorem stageImage_eq (b : List Byte) : s.stageImage c b = (
    let v := (s.putSlot (s.getF SEC_SET SEC_SET_staging) (imComponent b) []).showSets
    if soPrefix 1 b = false ∨ imBody b = false then s.secReject c stIMAGE_FORMAT (failsFor rjFORMAT)
    else if imEpoch b < s.floor then v.secReject c stIMAGE_FORMAT (failsFor rjROLLBACK)
    else if (v.verifyImage b).reason ≠ 0 then v.secReject c stSIG_INVALID (v.verifyImage b)
    else ({ v with sec := { v.sec with job := some ⟨c.ring, c.pkt.tag, b⟩ } } : State).putCmd c { c with phase := .active }) := by
  have hill : ((!(soPrefix 1 b && imBody b)) = true) = (soPrefix 1 b = false ∨ imBody b = false) := by
    rw [Bool.not_eq_true', Bool.and_eq_false_iff]
  have hfloor : ((s.putSlot (s.getF SEC_SET SEC_SET_staging) (imComponent b) []).showSets).floor = s.floor :=
    (getF_setF_reg _ _ _ _ (by decide)).trans (getF_setF_reg _ _ _ _ (by decide))
  simp only [State.stageImage, hill, hfloor]
  rfl

theorem stageSyllabus_eq (b : List Byte) : s.stageSyllabus c b = (
    if (s.verifySyllabus b).reason ≠ 0 then s.secReject c stSIG_INVALID (s.verifySyllabus b)
    else if syGeneration b ≤ (s.reg SEC_SYLLABUS).toNat ∨ syFloor b < s.floor ∨ bitSet (syRevoke b) (soSlot b) = true then
      s.secReject c stIMAGE_FORMAT (failsFor rjFORMAT)
    else ({ s with sec := { s.sec with job := some ⟨c.ring, c.pkt.tag, b⟩ } } : State).putCmd c { c with phase := .active }) := by
  simp only [State.stageSyllabus, Bool.or_eq_true, decide_eq_true_eq, or_assoc]
  rfl

theorem stageLicence_eq (b : List Byte) : s.stageLicence c b = (
    if (s.verifyLicence b).reason ≠ 0 then s.secReject c stSIG_INVALID (s.verifyLicence b)
    else if leAt b 0x10 8 ≠ s.serial then s.secReject c stLICENCE_BINDING (failsFor rjBINDING)
    else if s.licencePlace (liId b) = none then s.secReject c stDEVICE_STATE (failsFor rjSTOREFULL)
    else ({ s with sec := { s.sec with job := some ⟨c.ring, c.pkt.tag, b⟩ } } : State).putCmd c { c with phase := .active }) := by
  simp only [State.stageLicence, Option.isNone_iff_eq_none]
  rfl

/-! The end of the write. -/

theorem secDone_commits {ring tag : Nat} {b : List Byte} (hjob : s.sec.job = some ⟨ring, tag, b⟩) (htag : s.findTag ring tag = some c)
    (hop : c.pkt.opcode ≠ opIMAGE_ACTIVATE) (hopen : c.pkt.opcode = opATTEST → s.rangeOpen c.pkt.p1 35088 = true) :
    s.secDone = (s.secCommit c b).secEnd := by
  have hready : ¬ (decide (c.pkt.opcode = opIMAGE_ACTIVATE) || (c.pkt.opcode == opATTEST && !s.rangeOpen c.pkt.p1 35088)) = true := by
    simp only [Bool.or_eq_true, decide_eq_true_eq, Bool.and_eq_true, beq_iff_eq, Bool.not_eq_true', not_or, not_and]
    exact ⟨hop, fun h => by rw [hopen h]; decide⟩
  simp only [State.secDone, hjob, htag, if_neg hready]

theorem secCommit_image (hop : c.pkt.opcode = opIMAGE_STAGE) (b : List Byte) : s.secCommit c b =
    (((s.putSlot (s.getF SEC_SET SEC_SET_staging) (imComponent b) b).clearFailed (s.getF SEC_SET SEC_SET_staging)).showSets).ok c 0 :=
  if_pos hop

theorem secCommit_syllabus (hop : c.pkt.opcode = opSYLLABUS_LOAD) (b : List Byte) : s.secCommit c b =
    (({ s with sec := { s.sec with syllabus := b, syllabusOld := s.sec.syllabus } } : State).setReg SEC_SYLLABUS
      (BitVec.ofNat 32 (syGeneration b))).ok c 0 := by
  rw [State.secCommit, hop, if_neg (by decide), if_pos rfl]

theorem secCommit_licence {b : List Byte} {i : Nat} (hop : c.pkt.opcode = opLICENCE_LOAD) (hplace : s.licencePlace (liId b) = some i) :
    s.secCommit c b = (
      let u : State := { s with sec := { s.sec with licences := tput s.sec.licences i b } }
      (u.setF SEC_LICENCE SEC_LICENCE_stored u.sec.licences.length).ok c 0) := by
  rw [State.secCommit, hop, if_neg (by decide), if_neg (by decide), if_pos rfl, hplace]

theorem secCommit_attest (hop : c.pkt.opcode = opATTEST) (b : List Byte) :
    s.secCommit c b = (s.svcWrite c.pkt.p1 b).2.ok c 0 := by
  rw [State.secCommit, hop, if_neg (by decide), if_neg (by decide), if_neg (by decide)]

/-! Activation. -/

theorem activate_unlisted (h : s.listed c.pkt.p0 = false) : s.activate c =
    (s.setReg SEC_LAST_REJECT (BitVec.ofNat 32 (c.pkt.opcode + 2 ^ 16 * rjNOTLISTED + 2 ^ 31))).fail c stNOT_IN_SYLLABUS := by
  rw [State.activate, h]
  rfl

theorem activate_runs (h : s.listed c.pkt.p0 = true) (hfree : s.sec.job = none) (hop : c.pkt.opcode = opIMAGE_ACTIVATE) :
    s.activate c = (s.setB SEC_SET SEC_SET_pending true).secRun c [] := by
  have hfree' : (s.setB SEC_SET SEC_SET_pending true).sec.job = none := hfree
  rw [State.activate, h, if_neg (by decide), secAccept_begins hfree', State.secBegin, hop, if_neg (by decide), if_pos rfl]

theorem activateCommit_switches (hother : c.pkt.p0 ≠ s.runningSet) (hgood : s.setFailed c.pkt.p0 = false) :
    s.activateCommit c = (
      let u := s.setF SEC_SET SEC_SET_boot c.pkt.p0
      ({ u with sec := { u.sec with switch := some ⟨c.pkt.p0, s.runningSet, c.ring, c.pkt.tag⟩ } } : State).putCmd c
        { c with phase := .committed }) := by
  have hfailed : (s.setF SEC_SET SEC_SET_boot c.pkt.p0).setFailed c.pkt.p0 = false :=
    (congrArg (fun b : BringSt => b.carry.alts.contains c.pkt.p0) (State.setF_bring _ _ _ _)).trans hgood
  have hclear : (s.setF SEC_SET SEC_SET_boot c.pkt.p0).clearFailed c.pkt.p0 = s.setF SEC_SET SEC_SET_boot c.pkt.p0 := by
    rw [State.clearFailed, hfailed, if_neg (by decide)]
  have hrunning : (s.setF SEC_SET SEC_SET_boot c.pkt.p0).runningSet = s.runningSet := getF_setF_fld _ _ _ (by decide) (by decide)
  simp only [State.activateCommit, hother, if_false, hclear, hrunning]

/-- The units stand at the set that a switch named. -/
def State.switchedTo (s : State) (set : Nat) : State :=
  ((({ s with sec := { s.sec with switch := none } } : State).setF SEC_SET SEC_SET_running set).loadSet set).showSets

/-- A switch has been reported, before its command completes. -/
def State.switchTold (s : State) (w : SetSwitch) (rejected : Bool) : State :=
  if rejected then
    (({ s with sec := { s.sec with switch := none } } : State).reject opIMAGE_ACTIVATE (failsFor rjLOADFAIL)).raise evImageFallback 255 0 0
      w.from_ rjLOADFAIL 0 0
  else ({ s.switchedTo w.set with sec := { (s.switchedTo w.set).sec with
      activated := some (w.set, (s.switchedTo w.set).bellCount) } } : State).raise evImageActivated 255 0 0 w.set 0 0 0

theorem raise_cmds (s : State) (code part kind unit d0 d1 d2 d3 : Nat) : (s.raise code part kind unit d0 d1 d2 d3).cmds = s.cmds :=
  congrArg (·.cmds) (reports_raise code part kind unit d0 d1 d2 d3 (Reports.refl s)).1

theorem loadSet_frame (s : State) (set : Nat) : ∃ m, s.loadSet set = { s with mem := m } := ⟨_, rfl⟩

theorem switchTold_cmds (w : SetSwitch) (rejected : Bool) : (s.switchTold w rejected).cmds = s.cmds := by
  have hset : (s.switchedTo w.set).cmds = s.cmds := by
    obtain ⟨m, hload⟩ := loadSet_frame (({ s with sec := { s.sec with switch := none } } : State).setF SEC_SET SEC_SET_running w.set) w.set
    rw [State.switchedTo, hload]
    rfl
  unfold State.switchTold
  split
  · exact (raise_cmds _ _ _ _ _ _ _ _ _).trans (State.setReg_cmds _ _ _)
  · exact (raise_cmds _ _ _ _ _ _ _ _ _).trans hset

theorem switchedTo_bells (set : Nat) : (s.switchedTo set).bellCount = s.bellCount := by
  have hreg : ∀ a, a ≠ SEC_SET → (s.switchedTo set).reg a = s.reg a := fun a ha => by
    obtain ⟨m, hload⟩ := loadSet_frame (({ s with sec := { s.sec with switch := none } } : State).setF SEC_SET SEC_SET_running set) set
    rw [State.switchedTo, State.showSets, reg_setF, if_neg ha, reg_setF, if_neg ha, hload]
    exact (reg_setF _ _ _ _ _).trans (if_neg ha)
  exact pair_congr (hreg _ (by decide)) (hreg _ (by decide))

theorem switchDone_told {w : SetSwitch} (hswitch : s.sec.switch = some w) (htag : s.findTag w.ring w.tag = some c) (rejected : Bool) :
    s.switchDone rejected = (s.switchTold w rejected).activateEnd c := by
  have hfound : (s.switchTold w rejected).findTag w.ring w.tag = some c := (findTag_congr (switchTold_cmds w rejected) _ _).trans htag
  rw [State.switchDone, hswitch]
  show (match (s.switchTold w rejected).findTag w.ring w.tag with
    | some c => (s.switchTold w rejected).activateEnd c
    | none => (s.switchTold w rejected).secEnd) = _
  rw [hfound]

theorem knownGood_due {k b : Nat} (hset : s.sec.activated = some (k, b)) (hdue : b + 2 ^ 20 ≤ s.bellCount) : s.knownGood =
    ({ s.setF SEC_SET SEC_SET_known_good k with sec := { s.sec with activated := none } } : State).showSets := by
  simp only [State.knownGood, hset, hdue, if_true]
  rfl

end

/-- Settles O27, clause by clause: acceptance, the objects, the end of the write, and activation. -/
theorem securityBlock : Obligations.SecurityBlock := by
  unfold Obligations.SecurityBlock
  intro s ring tag c
  refine ⟨fun op cmd hmem hc hbusy => ?_, fun op cmd st hmem hc hfree b u hread hu hplain => ?_,
    fun b u hc hfree hread => ?_, fun b u hc hfree hread => ?_, fun b u hc hfree hread => ?_,
    fun b hc hfree hread htarget => ?_, fun b hc hjob _ htag => ?_, fun b hc hjob htag => ?_, fun b i hc hjob htag hplace => ?_,
    fun b hc hjob htag hopen => ?_, fun hc hlisted => (onCmd_accepted hc).trans (congrArg _ (activate_unlisted hlisted)),
    fun hc hlisted hfree => ?_, fun hc hjob htag hbound hother hgood => ?_, fun w hc hswitch hring hwtag htag => ?_,
    fun w hc hswitch hring hwtag htag => ?_, fun k b hon hset hdue => live_next hon (knownGood_due hset hdue)⟩
  · simp only [List.mem_cons, Prod.mk.injEq, List.not_mem_nil, or_false] at hmem
    rcases hmem with ⟨rfl, rfl⟩ | ⟨rfl, rfl⟩ | ⟨rfl, rfl⟩ | ⟨rfl, rfl⟩
    all_goals exact (onCmd_accepted hc).trans (congrArg _ (secAccept_waits hbusy))
  · have hop := findCmd_opcode hc.2.1
    have hread' : s.readObject c.pkt.p0 c.pkt.p1 = ((b, 0), u) := Prod.ext hread hu.symm
    rw [← hop]
    simp only [List.mem_cons, Prod.mk.injEq, List.not_mem_nil, or_false] at hmem
    rcases hmem with ⟨rfl, rfl, rfl⟩ | ⟨rfl, rfl, rfl⟩ | ⟨rfl, rfl, rfl⟩
    · exact (onCmd_accepted hc).trans (congrArg _ ((secAccept_image hfree hread' hop).trans (stageImage_unsigned hplain)))
    · exact (onCmd_accepted hc).trans (congrArg _ ((secAccept_syllabus hfree hread' hop).trans (stageSyllabus_unsigned hplain)))
    · exact (onCmd_accepted hc).trans (congrArg _ ((secAccept_licence hfree hread' hop).trans (stageLicence_unsigned hplain)))
  · exact (onCmd_accepted hc).trans (congrArg _ ((secAccept_image hfree hread (findCmd_opcode hc.2.1)).trans (stageImage_eq b)))
  · exact (onCmd_accepted hc).trans (congrArg _ ((secAccept_syllabus hfree hread (findCmd_opcode hc.2.1)).trans (stageSyllabus_eq b)))
  · exact (onCmd_accepted hc).trans (congrArg _ ((secAccept_licence hfree hread (findCmd_opcode hc.2.1)).trans (stageLicence_eq b)))
  · exact (onCmd_accepted hc).trans (congrArg _ (secAccept_attest hfree (findCmd_opcode hc.2.1) hread htarget))
  · have hop := findCmd_opcode hc.2.1
    refine live_next hc.1 ((secDone_commits hjob htag (by rw [hop]; decide) (fun h => absurd (hop.symm.trans h) (by decide))).trans ?_)
    rw [secCommit_image hop]
  · have hop := findCmd_opcode hc.2.1
    refine live_next hc.1 ((secDone_commits hjob htag (by rw [hop]; decide) (fun h => absurd (hop.symm.trans h) (by decide))).trans ?_)
    rw [secCommit_syllabus hop]
  · have hop := findCmd_opcode hc.2.1
    refine live_next hc.1 ((secDone_commits hjob htag (by rw [hop]; decide) (fun h => absurd (hop.symm.trans h) (by decide))).trans ?_)
    rw [secCommit_licence hop hplace]
  · have hop := findCmd_opcode hc.2.1
    refine live_next hc.1 ((secDone_commits hjob htag (by rw [hop]; decide) (fun _ => hopen)).trans ?_)
    rw [secCommit_attest hop]
  · exact (onCmd_accepted hc).trans (congrArg _ (activate_runs hlisted hfree (findCmd_opcode hc.2.1)))
  · obtain ⟨hring, htag'⟩ := findCmd_names hc.2.1
    have hready : (decide (c.pkt.opcode = opIMAGE_ACTIVATE) && c.phase == .active && s.atCourseBoundary) = true := by
      rw [decide_eq_true (findCmd_opcode hc.2.1), hc.2.2, hbound]
      rfl
    subst hring htag'
    refine live_next hc.1 ?_
    simp only [hjob, htag, hready, if_true]
    exact activateCommit_switches hother hgood
  · subst hring hwtag
    refine live_next hc.1 ((switchDone_told hswitch htag false).trans ?_)
    rw [State.switchTold, if_neg (by decide), switchedTo_bells]
    rfl
  · subst hring hwtag
    exact live_next hc.1 (switchDone_told hswitch htag true)

end Sys2Proof.Machine
end

section
/-! What the engines of a tile change outside it: nothing but what their accesses count and report (07 R204-R214). -/

namespace Sys2Proof.Machine

theorem WithinTile.refl (lt : Nat) (s : State) : WithinTile lt s s :=
  ⟨rfl, fun _ _ => rfl, fun _ _ => rfl, rfl, fun _ _ => rfl⟩

theorem WithinTile.trans {lt : Nat} {s t u : State} (h : WithinTile lt s t) (h' : WithinTile lt t u) : WithinTile lt s u := by
  obtain ⟨hst, htiles, hchans, hbeats, hregs⟩ := h
  obtain ⟨htu, htiles', hchans', hbeats', hregs'⟩ := h'
  refine ⟨?_, fun n hn => (htiles' n hn).trans (htiles n hn), fun c hc => (hchans' c hc).trans (hchans c hc),
    hbeats'.trans hbeats, fun a ha => (hregs' a ha).trans (hregs a ha)⟩
  rw [htu, hst]

theorem WithinTile.ite {lt : Nat} {s t u : State} {c : Prop} [Decidable c] (ht : WithinTile lt s t) (hu : WithinTile lt s u) :
    WithinTile lt s (if c then t else u) := by
  split
  · exact ht
  · exact hu

theorem WithinTile.forEach {α : Type} {lt : Nat} {s t : State} (h : WithinTile lt s t) {l : List α} {f : State → α → State}
    (hf : ∀ u, ∀ x ∈ l, WithinTile lt u (f u x)) : WithinTile lt s (forEach l t f) :=
  foldl_keeps_mem l (fun u x hx hu => hu.trans (hf u x hx)) h

section
variable {lt : Nat} {s t : State}

theorem WithinTile.mem (h : WithinTile lt s t) (m : MemSt) : WithinTile lt s { t with mem := m } :=
  h.trans ⟨rfl, fun _ _ => rfl, fun _ _ => rfl, rfl, fun _ _ => rfl⟩

theorem WithinTile.cyc (h : WithinTile lt s t) (x : Nat) : WithinTile lt s { t with cyc := x } :=
  h.trans ⟨rfl, fun _ _ => rfl, fun _ _ => rfl, rfl, fun _ _ => rfl⟩

theorem WithinTile.ariAt (h : WithinTile lt s t) (x : Nat × Nat) : WithinTile lt s { t with ariAt := x } :=
  h.trans ⟨rfl, fun _ _ => rfl, fun _ _ => rfl, rfl, fun _ _ => rfl⟩

theorem WithinTile.drawn (h : WithinTile lt s t) (n : Nat) : WithinTile lt s (t.drawn n) :=
  h.trans ⟨rfl, fun _ _ => rfl, fun _ _ => rfl, rfl, fun _ _ => rfl⟩

theorem WithinTile.setReg (h : WithinTile lt s t) {a : Nat} (ha : tileReg lt a = true) (w : Word) : WithinTile lt s (t.setReg a w) :=
  h.trans ⟨rfl, fun _ _ => rfl, fun _ _ => rfl, rfl, fun b hb => by
    rw [reg_setReg, if_neg]
    rintro rfl
    rw [ha] at hb
    cases hb⟩

theorem WithinTile.setF (h : WithinTile lt s t) {a : Nat} (ha : tileReg lt a = true) (f : Fld) (n : Nat) :
    WithinTile lt s (t.setF a f n) := h.setReg ha _

theorem WithinTile.setB (h : WithinTile lt s t) {a : Nat} (ha : tileReg lt a = true) (f : Fld) (b : Bool) :
    WithinTile lt s (t.setB a f b) := h.setReg ha _

theorem WithinTile.incF (h : WithinTile lt s t) {a : Nat} (ha : tileReg lt a = true) (f : Fld) (n : Nat) :
    WithinTile lt s (t.incF a f n) := h.setReg ha _

theorem WithinTile.modTile (h : WithinTile lt s t) (f : TileSt → TileSt) : WithinTile lt s (t.modTile lt f) :=
  h.trans ⟨rfl, fun n hn => (tile_modTile t lt n f).trans (if_neg hn), fun _ _ => rfl, rfl, fun _ _ => rfl⟩

theorem WithinTile.modMxe (h : WithinTile lt s t) (f : MxeSt → MxeSt) : WithinTile lt s (t.modMxe lt f) := h.modTile _

theorem WithinTile.modVe (h : WithinTile lt s t) (f : VeSt → VeSt) : WithinTile lt s (t.modVe lt f) := h.modTile _

theorem WithinTile.modChan (h : WithinTile lt s t) {c : Nat} (hc : c / 8 = lt) (f : ChanSt → ChanSt) :
    WithinTile lt s (t.modChan c f) :=
  h.trans ⟨rfl, fun _ _ => rfl, fun k hk => (chan_modChan t c k f).trans (if_neg fun hkc => hk (by rw [hkc, hc])), rfl,
    fun _ _ => rfl⟩

theorem Reports.withinTile (h : Reports s t) (lt : Nat) : WithinTile lt s t := by
  obtain ⟨hframe, hregs⟩ := h
  refine ⟨?_, fun n _ => tile_congr (by rw [hframe]) n, fun c _ => chan_congr (by rw [hframe]) c, by rw [hframe],
    fun a ha => hregs a ?_⟩
  · rw [hframe]
  · unfold tileReg at ha
    simp only [Bool.or_eq_false_iff] at ha
    obtain ⟨⟨⟨⟨hevent, -⟩, -⟩, -⟩, -⟩ := ha
    exact hevent

theorem WithinTile.raise (h : WithinTile lt s t) (code part kind unit d0 d1 d2 d3 : Nat) :
    WithinTile lt s (t.raise code part kind unit d0 d1 d2 d3) :=
  h.trans ((reports_raise code part kind unit d0 d1 d2 d3 (Reports.refl t)).withinTile lt)

/-! Registers of the tile, the performance counters and the first arithmetic flag. -/

theorem tileReg_of_mem {a : Nat} (h : a ∈ [TB_ERRORS_LT lt, TB_FAULT_LT lt, TB_READS_LT lt, MXE_ERRORS_LT lt, MXE_STATUS_LT lt,
    MXE_PROGRESS_LT lt, VE_ERRORS_LT lt, VE_STATUS_LT lt, VE_PROGRESS_LT lt, ARI_FLAGS_LT lt]) : tileReg lt a = true := by
  unfold tileReg
  rw [List.contains_iff_mem.mpr h, Bool.or_true, Bool.true_or]

theorem tileReg_perf {p k : Nat} (hp : p < 4) (hk : k < 8) : tileReg lt (PERF_LO p k) = true ∧ tileReg lt (PERF_HI p k) = true := by
  have hany : ∀ a, a = PERF_LO p k ∨ a = PERF_HI p k → tileReg lt a = true := fun a ha => by
    have hk' : ((List.range 4).any fun p => (List.range 8).any fun k => a == PERF_LO p k || a == PERF_HI p k) = true := by
      simp only [List.any_eq_true, List.mem_range, Bool.or_eq_true, beq_iff_eq]
      exact ⟨p, hp, k, hk, ha⟩
    unfold tileReg
    rw [hk', Bool.or_true]
  exact ⟨hany _ (.inl rfl), hany _ (.inr rfl)⟩

theorem tileReg_ari : tileReg lt ARI_SUMMARY = true ∧ tileReg lt ARI_FIRST = true := by
  have hevent : eventReg ARI_SUMMARY = false ∧ eventReg ARI_FIRST = false := by decide
  unfold tileReg
  rw [hevent.1, hevent.2]
  constructor
  · rw [beq_self_eq_true]
    rfl
  · rw [beq_self_eq_true, Bool.or_true]
    rfl

theorem partOfLt_lt (s : State) (h : lt < 256) : s.partOfLt lt < 4 := by
  unfold State.partOfLt State.partOfField
  split
  · omega
  · split
    · omega
    · omega

theorem WithinTile.perfAdd (h : WithinTile lt s t) {p k : Nat} (hp : p < 4) (hk : k < 8) (n : Nat) :
    WithinTile lt s (t.perfAdd p k n) := by
  obtain ⟨hlo, hhi⟩ := tileReg_perf (lt := lt) hp hk
  exact h.ite (((h.setReg hlo _).setF hhi _ _).ite ((((h.setReg hlo _).setF hhi _ _).setB hhi _ _).raise _ _ _ _ _ _ _ _))

theorem WithinTile.tileFlags (h : WithinTile lt s t) (f : Flags) (src : Nat) : WithinTile lt s (t.tileFlags lt f src) := by
  have hfirst : ∀ u : State, WithinTile lt u (u.ariFirst f lt (t.partOfLt lt) false) := fun u =>
    (WithinTile.refl lt u).ite (((WithinTile.refl lt u).ariAt _).setReg tileReg_ari.2 _)
  have hsummary : ∀ u : State, WithinTile lt u (u.ariSummary f lt (t.partOfLt lt) 1) := fun u =>
    (WithinTile.refl lt u).forEach fun v x _ =>
      (((WithinTile.refl lt v).setB tileReg_ari.1 _ _).raise _ _ _ _ _ _ _ _).ite (WithinTile.refl lt v)
  unfold State.tileFlags
  refine h.ite (WithinTile.trans ?_ (hsummary _))
  exact (h.setReg (tileReg_of_mem (by simp)) _).trans (hfirst _)

end

end Sys2Proof.Machine
end

section
/-! Accesses through the slice ports of a tile: they count, and those of a lower priority give way (07 R204-R214). -/

namespace Sys2Proof.Machine

/-- t is s but for what accesses to tile lt change: what they count, and the entries of the accesses. -/
structure Accesses (lt : Nat) (s t : State) : Prop where
  within : WithinTile lt s t
  tile : t.tile lt = { s.tile lt with uses := (t.tile lt).uses, tbConflictSent := (t.tile lt).tbConflictSent }

section
variable {lt : Nat} {s t u : State}

theorem Accesses.refl (lt : Nat) (s : State) : Accesses lt s s := ⟨WithinTile.refl lt s, rfl⟩

theorem Accesses.trans (h : Accesses lt s t) (h' : Accesses lt t u) : Accesses lt s u := by
  obtain ⟨hst, htile⟩ := h
  obtain ⟨htu, htile'⟩ := h'
  refine ⟨hst.trans htu, ?_⟩
  rw [htile', htile]

theorem Accesses.ite {c : Prop} [Decidable c] (ht : Accesses lt s t) (hu : Accesses lt s u) : Accesses lt s (if c then t else u) := by
  split
  · exact ht
  · exact hu

theorem Accesses.forEach {α : Type} (h : Accesses lt s t) {l : List α} {f : State → α → State}
    (hf : ∀ u, ∀ x ∈ l, Accesses lt u (f u x)) : Accesses lt s (forEach l t f) :=
  foldl_keeps_mem l (fun u x hx hu => hu.trans (hf u x hx)) h

/-- A change outside the tile's engines. -/
theorem WithinTile.accesses (h : WithinTile lt s t) (htile : t.tiles = s.tiles) : Accesses lt s t :=
  ⟨h, by rw [tile_congr htile]⟩

theorem Accesses.setF (h : Accesses lt s t) {a : Nat} (ha : tileReg lt a = true) (f : Fld) (n : Nat) : Accesses lt s (t.setF a f n) :=
  h.trans (((WithinTile.refl lt t).setF ha f n).accesses rfl)

theorem Accesses.setB (h : Accesses lt s t) {a : Nat} (ha : tileReg lt a = true) (f : Fld) (b : Bool) : Accesses lt s (t.setB a f b) :=
  h.setF ha f _

theorem Accesses.incF (h : Accesses lt s t) {a : Nat} (ha : tileReg lt a = true) (f : Fld) (n : Nat) : Accesses lt s (t.incF a f n) :=
  h.trans (((WithinTile.refl lt t).incF ha f n).accesses rfl)

theorem Accesses.drawn (h : Accesses lt s t) (n : Nat) : Accesses lt s (t.drawn n) :=
  h.trans (((WithinTile.refl lt t).drawn n).accesses rfl)

theorem Accesses.mem (h : Accesses lt s t) (m : MemSt) : Accesses lt s { t with mem := m } :=
  h.trans (((WithinTile.refl lt t).mem m).accesses rfl)

theorem Accesses.cyc (h : Accesses lt s t) (x : Nat) : Accesses lt s { t with cyc := x } :=
  h.trans (((WithinTile.refl lt t).cyc x).accesses rfl)

theorem Accesses.raise (h : Accesses lt s t) (code part kind unit d0 d1 d2 d3 : Nat) :
    Accesses lt s (t.raise code part kind unit d0 d1 d2 d3) :=
  h.trans (((WithinTile.refl lt t).raise code part kind unit d0 d1 d2 d3).accesses
    (congrArg (·.tiles) (reports_raise code part kind unit d0 d1 d2 d3 (Reports.refl t)).1))

theorem Accesses.perfAdd (h : Accesses lt s t) {p k : Nat} (hp : p < 4) (hk : k < 8) (n : Nat) : Accesses lt s (t.perfAdd p k n) :=
  h.trans (((WithinTile.refl lt t).perfAdd hp hk n).accesses (congrArg (·.tiles) (perfAdd_endsOnly t p k n)))

theorem Accesses.mxe (h : Accesses lt s t) : (t.tile lt).mxe = (s.tile lt).mxe := by rw [h.tile]

/-! Faults, conflicts and accesses that give way. -/

theorem tbFault_accesses (s : State) (lt off kind : Nat) : Accesses lt s (s.tbFault lt off kind) := by
  have hreg : tileReg lt (TB_FAULT_LT lt) = true := tileReg_of_mem (by simp)
  exact (Accesses.refl lt s).ite ((((Accesses.refl lt s).setF hreg _ _).setF hreg _ _).setB hreg _ _)

theorem tbErrors_tileReg : tileReg lt (TB_ERRORS_LT lt) = true := tileReg_of_mem (by simp)

theorem tbConflict_accesses (s : State) (lt off n : Nat) : Accesses lt s (s.tbConflict lt off n) := by
  have hcount : Accesses lt s ((s.incF (TB_ERRORS_LT lt) TB_ERRORS_LT_conflicts n).tbFault lt off 1) :=
    ((Accesses.refl lt s).incF tbErrors_tileReg _ _).trans (tbFault_accesses _ lt off 1)
  have hsent : ∀ u : State, Accesses lt u (u.modTile lt (fun t => { t with tbConflictSent := true })) := fun u =>
    ⟨(WithinTile.refl lt u).modTile _, by rw [tile_modTile, if_pos rfl]⟩
  exact hcount.ite ((hcount.trans (hsent _)).raise _ _ _ _ _ _ _ _)

theorem spoilBeat_elsewhere (bell : Nat) (x : SliceUse) (free : Nat) {b : Beat} (hb : b.srcLt ≠ lt) :
    spoilBeat lt bell x free b = b := by
  have hcond : (b.kind = 0 && b.srcLt == lt && b.unit + 6 == x.prio && b.injBell == bell && b.injCycle == x.cycle) = false := by
    rw [beq_eq_false_iff_ne.mpr hb]
    simp only [Bool.and_false, Bool.false_and]
  unfold spoilBeat
  dsimp only
  rw [hcond]
  rfl

theorem spoilBeat_srcLt (bell : Nat) (x : SliceUse) (free : Nat) (b : Beat) : (spoilBeat lt bell x free b).srcLt = b.srcLt := by
  unfold spoilBeat
  dsimp only
  split
  · rfl
  · rfl

theorem spoilBeats_elsewhere (bell : Nat) (x : SliceUse) (free : Nat) (l : List Beat) :
    (l.map (spoilBeat lt bell x free)).filter (fun b => b.srcLt != lt) = l.filter (fun b => b.srcLt != lt) := by
  induction l with
  | nil => rfl
  | cons b l ih =>
    rw [List.map_cons, List.filter_cons, List.filter_cons, ih, spoilBeat_srcLt]
    split
    next h => rw [spoilBeat_elsewhere bell x free (bne_iff_ne.mp h)]
    next => rfl

theorem withdraw_accesses (s : State) (lt : Nat) (x : SliceUse) : Accesses lt s (s.withdraw lt x) := by
  have hspoil : ∀ m l, l.filter (fun b => b.srcLt != lt) = s.mesh.beats.filter (fun b => b.srcLt != lt) →
      Accesses lt s { s with mem := m, mesh := { s.mesh with beats := l } } := fun m l hl =>
    ⟨⟨rfl, fun _ _ => rfl, fun _ _ => rfl, hl, fun _ _ => rfl⟩, rfl⟩
  have hbeats := hspoil (spoilUse s.mem x s.freeCtr) _ (spoilBeats_elsewhere s.bellCount x s.freeCtr s.mesh.beats)
  unfold State.withdraw
  refine Accesses.drawn ?_ _
  dsimp only
  split
  next hprio =>
    simp only [Bool.and_eq_true, decide_eq_true_eq] at hprio
    refine hbeats.trans (((WithinTile.refl lt _).modChan ?_ _).accesses rfl)
    omega
  next => exact hbeats

theorem giveWay_accesses (s : State) (lt : Nat) (x : SliceUse) : Accesses lt s (s.giveWay lt x) :=
  ((Accesses.refl lt s).mem _).ite (withdraw_accesses s lt x)

/-! A use of slice ports, a read, a write. -/

theorem useSlices_accesses (s : State) (lt cycle port prio off n : Nat) (sink : Option Nat) :
    Accesses lt s (s.useSlices lt cycle port prio off n sink).2 := by
  have henter : ∀ (u : State) (l : List SliceUse → List SliceUse), Accesses lt u (u.modTile lt (fun t => { t with uses := l t.uses })) :=
    fun u l => ⟨(WithinTile.refl lt u).modTile _, by rw [tile_modTile, if_pos rfl]⟩
  have hway := fun l : List SliceUse => (Accesses.refl lt s).forEach (l := l) fun u x _ => giveWay_accesses u lt x
  unfold State.useSlices
  dsimp only
  exact ((hway _).trans (henter _ fun l => _)).ite (((hway _).trans (henter _ fun l => _)).trans (tbConflict_accesses _ _ _ _))

theorem tbRead_accesses (s : State) (m : MemSt) (lt off n : Nat) (timed : Bool) : Accesses lt s (s.tbRead m lt off n timed).2 := by
  have hcount : Accesses lt s (s.tbCount m lt off n) := (Accesses.refl lt s).forEach fun u i _ => by
    split
    · exact Accesses.refl lt u
    · exact (Accesses.refl lt u).incF tbErrors_tileReg _ _
    · exact ((Accesses.refl lt u).incF tbErrors_tileReg _ _).trans (tbFault_accesses _ _ _ _)
  exact hcount.incF (tileReg_of_mem (by simp)) _ _

theorem tbPortRead_accesses (s : State) (lt cycle port prio off n : Nat) (sink : Option Nat) :
    Accesses lt s (s.tbPortRead lt cycle port prio off n sink).2 := by
  have hread := (useSlices_accesses s lt cycle port prio off n sink).trans
    (tbRead_accesses _ (tbBefore ((s.useSlices lt cycle port prio off n sink).2.tile lt)
      (s.useSlices lt cycle port prio off n sink).2.mem cycle) lt off n true)
  unfold State.tbPortRead
  dsimp only
  split
  · exact hread
  · exact hread.drawn n

theorem tbPortWrite_accesses (s : State) (lt cycle port prio off : Nat) (data : List Byte) (poison : List Bool) (tag : Nat) :
    Accesses lt s (s.tbPortWrite lt cycle port prio off data poison tag) :=
  (useSlices_accesses s lt cycle port prio off data.length none).mem _

/-! Where every access so far came from one requester, none gives way. -/

/-- Every access entered at a tile has a priority. -/
def UsesAt (lt p : Nat) (s : State) : Prop := ∀ u ∈ (s.tile lt).uses, u.prio = p

/-- Accesses of priority p leave the memory as it is while every access at the tile is of that priority. -/
def ReadsAt (lt p : Nat) (s t : State) : Prop := UsesAt lt p s → t.mem = s.mem ∧ UsesAt lt p t

theorem ReadsAt.trans {p : Nat} (h : ReadsAt lt p s t) (h' : ReadsAt lt p t u) : ReadsAt lt p s u := fun hs =>
  ⟨(h' (h hs).2).1.trans (h hs).1, (h' (h hs).2).2⟩

/-- A change of neither the memory nor the accesses entered. -/
theorem readsAt_of_eq {p : Nat} (hmem : t.mem = s.mem) (huses : (t.tile lt).uses = (s.tile lt).uses) : ReadsAt lt p s t := fun hs =>
  ⟨hmem, fun x hx => hs x (huses ▸ hx)⟩

theorem usesAt_nil {p : Nat} (h : (s.tile lt).uses = []) : UsesAt lt p s := fun x hx => by
  rw [h] at hx
  cases hx

theorem rivals_none {p : Nat} (h : UsesAt lt p s) (cycle port off n : Nat) : rivals (s.tile lt) cycle port p off n = [] := by
  refine List.filter_eq_nil_iff.mpr fun x hx => ?_
  rw [h x hx]
  simp only [bne_self_eq_false, Bool.and_false, Bool.false_and, Bool.false_eq_true, not_false_eq_true]

theorem useEntries_prio (m : MemSt) (lt cycle port p off n : Nat) (sink : Option Nat) (lost : List Nat) :
    ∀ x ∈ useEntries m lt cycle port p off n sink lost, x.prio = p := by
  intro x hx
  obtain ⟨k, -, rfl⟩ := List.mem_map.mp hx
  rfl

theorem useSlices_reads (s : State) (lt cycle port p off n : Nat) (sink : Option Nat) :
    ReadsAt lt p s (s.useSlices lt cycle port p off n sink).2 := by
  intro h
  have hnone := rivals_none h cycle port off n
  unfold State.useSlices
  simp only [hnone, List.filter_nil, List.map_nil, List.eraseDups_nil, List.append_nil, if_true, forEach_nil]
  refine ⟨rfl, fun x hx => ?_⟩
  rw [tile_modTile, if_pos rfl] at hx
  simp only [List.contains_nil, Bool.false_eq_true, if_false, List.map_id', List.mem_append] at hx
  rcases hx with hx | hx
  · exact h x hx
  · exact useEntries_prio _ _ _ _ _ _ _ _ _ x hx

theorem tbFault_tiles (s : State) (lt off kind : Nat) : (s.tbFault lt off kind).tiles = s.tiles ∧ (s.tbFault lt off kind).mem = s.mem := by
  unfold State.tbFault
  dsimp only
  split
  · exact ⟨rfl, rfl⟩
  · exact ⟨rfl, rfl⟩

theorem tbRead_tiles (s : State) (m : MemSt) (lt off n : Nat) (timed : Bool) :
    (s.tbRead m lt off n timed).2.tiles = s.tiles ∧ (s.tbRead m lt off n timed).2.mem = s.mem := by
  refine foldl_keeps (P := fun u : State => u.tiles = s.tiles ∧ u.mem = s.mem) _ (fun u i hu => ?_) ⟨rfl, rfl⟩
  split
  · exact hu
  · exact hu
  · obtain ⟨htiles, hmem⟩ := tbFault_tiles (u.incF (TB_ERRORS_LT lt) TB_ERRORS_LT_byte_uncorrected 1) lt (off + i) 0
    exact ⟨htiles.trans hu.1, hmem.trans hu.2⟩

theorem tbPortRead_reads (s : State) (lt cycle port p off n : Nat) (sink : Option Nat) :
    ReadsAt lt p s (s.tbPortRead lt cycle port p off n sink).2 := by
  obtain ⟨htiles, hmem⟩ := tbRead_tiles (s.useSlices lt cycle port p off n sink).2
    (tbBefore ((s.useSlices lt cycle port p off n sink).2.tile lt) (s.useSlices lt cycle port p off n sink).2.mem cycle) lt off n true
  have hread : ReadsAt lt p (s.useSlices lt cycle port p off n sink).2
      ((s.useSlices lt cycle port p off n sink).2.tbRead
        (tbBefore ((s.useSlices lt cycle port p off n sink).2.tile lt) (s.useSlices lt cycle port p off n sink).2.mem cycle) lt off n
        true).2 := readsAt_of_eq hmem (by rw [tile_congr htiles])
  have hall := (useSlices_reads s lt cycle port p off n sink).trans hread
  unfold State.tbPortRead
  dsimp only
  split
  · exact hall
  · exact hall.trans (readsAt_of_eq rfl rfl)

end

end Sys2Proof.Machine
end

section
/-! Rows of the accumulator, read, added to and written (04 R123-R125). -/

namespace Sys2Proof.Machine

theorem zip_range_append {α : Type} (l : List α) (x : α) :
    (l ++ [x]).zip (List.range (l ++ [x]).length) = l.zip (List.range l.length) ++ [(x, l.length)] := by
  rw [List.length_append, List.length_singleton, List.range_succ, List.zip_append (by rw [List.length_range])]
  rfl

/-- What a row's write leaves at every entry of the accumulator. -/
theorem accWrite_get (m : MxeSt) (row : Nat) (l : List (Int × Bool)) (k : Nat) :
    tgetD (m.accWrite row l).acc k accEntry0 = if row * 128 ≤ k ∧ k < row * 128 + l.length then
      ⟨(l.getD (k - row * 128) (0, true)).1, (l.getD (k - row * 128) (0, true)).2, 0⟩ else tgetD m.acc k accEntry0 := by
  unfold MxeSt.accWrite
  dsimp only
  induction l using List.reverseRecOn with
  | nil => rw [if_neg (by simp only [List.length_nil]; omega)]; rfl
  | append_singleton l x ih =>
    rw [zip_range_append, List.foldl_append, List.foldl_cons, List.foldl_nil, tgetD_tput, ih, List.length_append,
      List.length_singleton]
    by_cases hk : k = row * 128 + l.length
    · subst hk
      have hlast : (l ++ [x]).getD l.length (0, true) = x := by
        rw [List.getD_append_right _ _ _ _ (Nat.le_refl _), Nat.sub_self]
        rfl
      rw [if_pos rfl, if_pos (by omega), Nat.add_sub_cancel_left, hlast]
    · rw [if_neg hk]
      by_cases hin : row * 128 ≤ k ∧ k < row * 128 + l.length
      · rw [if_pos hin, if_pos (by omega), List.getD_append _ _ _ _ (by omega)]
      · rw [if_neg hin, if_neg (by omega)]

theorem accWrite_entry (m : MxeSt) (row : Nat) (l : List (Int × Bool)) {n : Nat} (hn : n < l.length) :
    tgetD (m.accWrite row l).acc (row * 128 + n) accEntry0 = ⟨(l.getD n (0, true)).1, (l.getD n (0, true)).2, 0⟩ := by
  rw [accWrite_get, if_pos (by omega), Nat.add_sub_cancel_left]

theorem accWrite_other (m : MxeSt) (row : Nat) {l : List (Int × Bool)} (hl : l.length ≤ 128) {k : Nat} (hk : k / 128 ≠ row) :
    tgetD (m.accWrite row l).acc k accEntry0 = tgetD m.acc k accEntry0 := by
  rw [accWrite_get, if_neg (by omega)]

section
variable (s : State) (lt row : Nat)

theorem accRead_loads : LoadsOnly (· = MXE_ERRORS_LT lt) s (s.accRead lt row).2 :=
  ((LoadsOnly.refl (· = MXE_ERRORS_LT lt) s).incF rfl _ _).incF rfl _ _

theorem accRead_entry {n : Nat} (hn : n < 128) : (s.accRead lt row).1.entries.getD n (0, true) =
    ((tgetD (s.tile lt).mxe.acc (row * 128 + n) accEntry0).value,
      (tgetD (s.tile lt).mxe.acc (row * 128 + n) accEntry0).poison || (tgetD (s.tile lt).mxe.acc (row * 128 + n) accEntry0).err == 2 ||
        tgetD (s.tile lt).mxe.tagErr row 0 == 2) := by
  have hlen : n < (List.range 128).length := by rwa [List.length_range]
  simp only [State.accRead, List.map_map]
  rw [List.getD_eq_getElem _ _ (by rwa [List.length_map]), List.getElem_map, List.getElem_range]
  rfl

theorem accRead_length : (s.accRead lt row).1.entries.length = 128 := by
  simp only [State.accRead, List.length_map, List.length_range]

theorem plus_entry (a : AccRow) (l : List (Int × Bool)) {n : Nat} (hl : n < l.length) (ha : n < a.entries.length) :
    (a.plus l).getD n (0, true) = (addWrap (a.entries.getD n (0, true)).1 (l.getD n (0, true)).1 48,
      (a.entries.getD n (0, true)).2 || (l.getD n (0, true)).2) := by
  have hzip : n < (l.zip a.entries).length := by
    rw [List.length_zip]
    exact lt_min hl ha
  rw [AccRow.plus, List.getD_eq_getElem _ _ (by rwa [List.length_map]), List.getElem_map, List.getElem_zip,
    List.getD_eq_getElem _ _ hl, List.getD_eq_getElem _ _ ha]

theorem plus_length (a : AccRow) (l : List (Int × Bool)) : (a.plus l).length = min l.length a.entries.length := by
  rw [AccRow.plus, List.length_map, List.length_zip]

end

end Sys2Proof.Machine
end

section
/-! LOAD, SEND and MERGE of the matrix engine, and the fetch of a descriptor (04 R119-R140, 06 R192). -/

namespace Sys2Proof.Machine

section
variable {s : State} {lt idx d : Nat}

theorem takeFields_fetch {b x : Nat} (hidx : idx < tpMxeCount (armedProgram (s.tile lt)))
    (hd : d = descAt (armedProgram (s.tile lt)) (tpMxeOffset (armedProgram (s.tile lt))) idx) (hpoint : fetchPoint d = some (b, x))
    (hworks : s.tileWorks lt b = true) :
    s.takeFields lt idx = ({ s with cyc := x } : State).modTile lt (fun t => { t with mxe := { t.mxe with
      taken := tput t.mxe.taken idx (fetchedExp t.curPatches idx d) } }) := by
  subst hd
  simp only [State.takeFields, hpoint, hidx, hworks, decide_true, Bool.and_self, if_true]

/-! The start of a descriptor. -/

theorem onMxe_starts {op : Nat} (f : State → Nat → State) (hdesc : s.mxeDesc lt idx op = some d) :
    s.onMxe lt idx (dStartCycle d) op f = (f { s.engines lt (dStartCycle d) with cyc := dStartCycle d } d).showMxe lt := by
  rw [State.onMxe, hdesc]
  exact if_pos rfl

theorem onMxe_elsewhere {op x : Nat} (f : State → Nat → State) (hdesc : s.mxeDesc lt idx op = some d) (hx : x ≠ dStartCycle d) :
    s.onMxe lt idx x op f = s := by
  rw [State.onMxe, hdesc]
  exact if_neg hx

/-! Columns of a LOAD. -/

theorem loadColumn_accesses (s : State) (lt d j : Nat) : Accesses lt s (s.loadColumn lt d j).2 :=
  (tbPortRead_accesses s lt _ _ _ _ _ _).trans (tbPortRead_accesses _ lt _ _ _ _ _ _)

theorem loadColumn_reads (s : State) (lt d j : Nat) : ReadsAt lt 2 s (s.loadColumn lt d j).2 :=
  (tbPortRead_reads s lt _ _ _ _ _ _).trans (tbPortRead_reads _ lt _ _ _ _ _ _)

/-- What a LOAD leaves in the engine once it has read a column. -/
def MxeSt.columnRead (m : MxeSt) (k : LoadRun) (c : ColumnIn) : MxeSt :=
  let p := m.shadow.putColumn k.desc k.next c
  if k.next + 1 < ldColumns k.desc then { m with shadow := p, load := some { k with next := k.next + 1 } }
  else { m with shadow := p.filledBy k.desc, load := none }

theorem loadStep_column {k : LoadRun} (hload : (s.tile lt).mxe.load = some k) :
    s.loadStep lt = (s.loadColumn lt k.desc k.next).2.modMxe lt (fun m => m.columnRead k (s.loadColumn lt k.desc k.next).1) := by
  rw [State.loadStep, hload]
  rfl

theorem mxe_modMxe (s : State) (lt : Nat) (f : MxeSt → MxeSt) : ((s.modMxe lt f).tile lt).mxe = f (s.tile lt).mxe := by
  rw [State.modMxe, tile_modTile, if_pos rfl]

theorem loadStep_mxe {k : LoadRun} (hload : (s.tile lt).mxe.load = some k) :
    ((s.loadStep lt).tile lt).mxe = (s.tile lt).mxe.columnRead k (s.loadColumn lt k.desc k.next).1 := by
  rw [loadStep_column hload, mxe_modMxe, (loadColumn_accesses s lt k.desc k.next).mxe]

/-! Rows of a SEND. -/

section
variable {β : Type} (key : Beat → β) (k : Nat → β) (b : State → Nat → Beat)

/-- Beats offered one after another stand behind those offered before, under fresh identities. -/
theorem offerBeats (hkey : ∀ u j id, key { b u j with id := id, root := id } = k j) (s : State) (n : Nat) :
    ∃ l, forEach (List.range n) s (fun u j => u.offerBeat (b u j)) =
        { s with mesh := { s.mesh with beats := s.mesh.beats ++ l, nextId := s.mesh.nextId + n } } ∧
      l.map key = (List.range n).map k := by
  induction n with
  | zero => exact ⟨[], by rw [List.append_nil]; rfl, rfl⟩
  | succ n ih =>
    obtain ⟨l, hframe, hkeys⟩ := ih
    refine ⟨l ++ [{ b (forEach (List.range n) s (fun u j => u.offerBeat (b u j))) n with
      id := s.mesh.nextId + n, root := s.mesh.nextId + n }], ?_, ?_⟩
    · rw [forEach_range_succ]
      generalize b (forEach (List.range n) s (fun u j => u.offerBeat (b u j))) n = c
      rw [hframe, State.offerBeat, ← List.append_assoc]
      rfl
    · rw [List.map_append, hkeys, List.range_succ, List.map_append, List.map_singleton, List.map_singleton, hkey]

end

/-- The state in which a row of a SEND is offered: it has been read, and cleared where the descriptor says so. -/
def State.sendRead (s : State) (lt d r : Nat) : State :=
  let t := (s.accRead lt (sdRow0 d + r)).2
  if sdClear d = 1 then t.modMxe lt (fun m => m.accWrite (sdRow0 d + r) (List.replicate 128 (0, false))) else t

theorem sendRead_frame (s : State) (lt d r : Nat) : s.sendRead lt d r =
    { s with regs := (s.sendRead lt d r).regs, tiles := (s.sendRead lt d r).tiles } := by
  have hread := (accRead_loads s lt (sdRow0 d + r)).1
  unfold State.sendRead
  split
  · exact (congrArg (fun u : State => u.modMxe lt (fun m => m.accWrite (sdRow0 d + r) (List.replicate 128 (0, false)))) hread)
  · rw [hread]

theorem sendRead_reg (s : State) (lt d r : Nat) {a : Nat} (ha : a ≠ MXE_ERRORS_LT lt) : (s.sendRead lt d r).reg a = s.reg a := by
  have hread := (accRead_loads s lt (sdRow0 d + r)).2 a ha
  unfold State.sendRead
  split
  · exact hread
  · exact hread

theorem accRead_tile (s : State) (lt row n : Nat) : (s.accRead lt row).2.tile n = s.tile n := tile_congr rfl n

theorem sendRead_elsewhere (s : State) (d r : Nat) {lt n : Nat} (hn : n ≠ lt) : (s.sendRead lt d r).tile n = s.tile n := by
  unfold State.sendRead
  split
  · exact (tile_modTile _ _ _ _).trans ((if_neg hn).trans (accRead_tile _ _ _ _))
  · exact accRead_tile _ _ _ _

theorem sendRead_cleared (s : State) (lt r : Nat) {d : Nat} (hclear : sdClear d = 1) : ((s.sendRead lt d r).tile lt).mxe =
    (s.tile lt).mxe.accWrite (sdRow0 d + r) (List.replicate 128 (0, false)) := by
  rw [State.sendRead, hclear, if_pos rfl, mxe_modMxe, accRead_tile]

theorem sendRead_kept (s : State) (lt r : Nat) {d : Nat} (hclear : sdClear d = 0) :
    ((s.sendRead lt d r).tile lt).mxe = (s.tile lt).mxe := by
  rw [State.sendRead, hclear, if_neg (by decide), accRead_tile]

/-- What the beats of a row show of it. -/
def beatShown (b : Beat) : Nat × Nat × Nat × Bool × Bool × List Byte := (b.srcLt, b.destLt, b.kind, b.first, b.last, b.data)

theorem sendRow_beats (s : State) (lt d r : Nat) : ∃ l, s.sendRow lt d r =
      { s.sendRead lt d r with mesh := { s.mesh with beats := s.mesh.beats ++ l, nextId := s.mesh.nextId + 6 } } ∧
    l.map beatShown = (List.range 6).map (fun j => (lt, sdDest d, 1, j == 0, j == 5,
      bytesFrom (rowBytes (s.accRead lt (sdRow0 d + r)).1) (128 * j) 128)) := by
  have hmesh : (s.sendRead lt d r).mesh = s.mesh := congrArg (·.mesh) (sendRead_frame s lt d r)
  obtain ⟨l, hframe, hkeys⟩ := offerBeats beatShown (fun j => (lt, sdDest d, 1, j == 0, j == 5,
      bytesFrom (rowBytes (s.accRead lt (sdRow0 d + r)).1) (128 * j) 128)) (fun u j =>
    { id := 0, destLt := sdDest d, srcLt := lt, mc := 0, kind := 1, first := j == 0, last := j == 5, dstTag := 0,
      dstOff := if j = 0 then codeOf (s.accRead lt (sdRow0 d + r)).1.tag 10 else 0,
      poison := boolNat ((rowSpans (s.accRead lt (sdRow0 d + r)).1).getD (2 * j) false) +
        2 * boolNat ((rowSpans (s.accRead lt (sdRow0 d + r)).1).getD (2 * j + 1) false),
      data := bytesFrom (rowBytes (s.accRead lt (sdRow0 d + r)).1) (128 * j) 128, injBell := u.bellCount,
      injCycle := dStartCycle d + 6 * r + j, row := 0, col := 0, side := 4, arrive := 0, unit := 0, injected := false, root := 0,
      targets := [], path := [] }) (fun _ _ _ => rfl) (s.sendRead lt d r) 6
  refine ⟨l, ?_, hkeys⟩
  rw [hmesh] at hframe
  exact hframe

/-! Rows of a MERGE. -/

theorem doMerge_row {r : Nat} (hlt : lt < 256) (hidx : idx < tpMxeCount (armedProgram (s.tile lt)))
    (hd : d = descAt (armedProgram (s.tile lt)) (tpMxeOffset (armedProgram (s.tile lt))) idx) (hop : mdOp d = moMERGE)
    (halive : s.alive lt = true) (hworking : s.working (s.partOfLt lt) = true)
    (hbell : (s.crsOf (s.partOfLt lt)).lessonBell = dStartBell d) : s.doMerge lt idx r = s.mergeRow lt idx d r := by
  subst hd
  simp only [State.doMerge, hlt, hidx, hop, halive, hworking, hbell, decide_true, Bool.and_self, if_true]

/-- What a MERGE leaves in the engine once a row of it has been added. -/
def MxeSt.merged (m : MxeSt) (idx d r : Nat) (sums : List (Int × Bool)) : MxeSt :=
  { m.accWrite (sdRow0 d + r) sums with
    merge := if r + 1 < sdRows d then some idx else none
    merges := m.merges.filter (fun x => x.1 / 2 ^ 14 != idx || x.1 % 2 ^ 14 / 6 != r) }

theorem merged_acc (m : MxeSt) (idx d r : Nat) (sums : List (Int × Bool)) :
    (m.merged idx d r sums).acc = (m.accWrite (sdRow0 d + r) sums).acc := rfl

/-- The sums of a row of a MERGE whose tag agrees. -/
def State.mergeSums (s : State) (lt d r : Nat) (l : List (Option MergeBeat)) : List (Int × Bool) :=
  (s.accRead lt (sdRow0 d + r)).1.plus (mergeEntries l)

section
variable {r : Nat} {l : List (Option MergeBeat)} (hr : r < sdRows d) (hhalted : (s.tile lt).halted = false)
  (hdues : (s.tile lt).dues = []) (hl : l = mergeBeats (s.tile lt).mxe idx r)
  (htag : (l.headD none).map (·.tag) = some (tgetD (s.tile lt).mxe.tags (sdRow0 d + r) 0))
include hr hhalted hdues hl htag

theorem mergeRow_adds : s.mergeRow lt idx d r = ({ (s.accRead lt (sdRow0 d + r)).2.modMxe lt (fun m =>
      m.merged idx d r (s.mergeSums lt d r l)) with cyc := (dStartCycle d + 6 * r + 7) % 4096 } : State).showMxe lt := by
  have hright : ¬ (l.headD none).map (·.tag) ≠ some (s.accRead lt (sdRow0 d + r)).1.tag := not_not.mpr htag
  subst hl
  simp only [State.mergeRow, engines_idle hdues, Nat.not_le.mpr hr, hhalted, Bool.false_and, Bool.or_false, decide_false,
    Bool.false_eq_true, if_false, hright, Bool.false_and, Prod.mk.eta, List.map_id', MxeSt.merged, State.mergeSums]

end

theorem showMxe_accesses (s : State) (lt : Nat) : Accesses lt s (s.showMxe lt) := by
  have hstatus : tileReg lt (MXE_STATUS_LT lt) = true := tileReg_of_mem (by simp)
  have hprogress : tileReg lt (MXE_PROGRESS_LT lt) = true := tileReg_of_mem (by simp)
  have hbusy := fun b p => ((Accesses.refl lt s).setB hstatus MXE_STATUS_LT_busy b).setB hprogress MXE_PROGRESS_LT_pass_active p
  exact ((hbusy _ _).setB hstatus _ _).ite (hbusy _ _)

theorem showMxe_loads (s : State) (lt : Nat) : LoadsOnly (fun _ => True) s (s.showMxe lt) := by
  have hbusy := fun b p => ((LoadsOnly.refl (fun _ => True) s).setB (a := MXE_STATUS_LT lt) trivial MXE_STATUS_LT_busy b).setB
    (a := MXE_PROGRESS_LT lt) trivial MXE_PROGRESS_LT_pass_active p
  exact ((hbusy _ _).setB trivial _ _).ite (hbusy _ _)

theorem accRead_within (s : State) (lt row : Nat) : WithinTile lt s (s.accRead lt row).2 :=
  ((WithinTile.refl lt s).incF (tileReg_of_mem (by simp)) _ _).incF (tileReg_of_mem (by simp)) _ _

theorem mergeEntries_length (l : List (Option MergeBeat)) : (mergeEntries l).length = 128 := by
  rw [mergeEntries, List.length_map, List.length_range]

theorem mergeSums_length (l : List (Option MergeBeat)) (r : Nat) : (s.mergeSums lt d r l).length = 128 := by
  rw [State.mergeSums, plus_length, mergeEntries_length, accRead_length]
  rfl

theorem mergeSums_value (l : List (Option MergeBeat)) (r : Nat) {n : Nat} (hn : n < 128) :
    ((s.mergeSums lt d r l).getD n (0, true)).1 =
      addWrap (tgetD (s.tile lt).mxe.acc ((sdRow0 d + r) * 128 + n) accEntry0).value ((mergeEntries l).getD n (0, true)).1 48 := by
  rw [State.mergeSums, plus_entry _ _ (by rwa [mergeEntries_length]) (by rwa [accRead_length]), accRead_entry _ _ _ hn]

end

/-- Settles O28, clause by clause from the lemmas on fetches, columns, and rows sent and merged. -/
theorem matrixLoadAndSend : Obligations.MatrixLoadAndSend := by
  unfold Obligations.MatrixLoadAndSend
  intro s lt idx d hon
  refine ⟨fun _ _ hidx hd hpoint hworks => live_next hon (takeFields_fetch hidx hd hpoint hworks), fun u hdesc hu => ?_,
    fun x op hx hdesc => ⟨fun h => ?_, fun h => ?_, fun h => ?_⟩, fun k c t hload hc ht _ => ?_, fun _ _ => rfl, fun u hdesc hu => ?_,
    fun k hsend => ?_, fun r t ht => ?_,
    fun r hlt hidx hd hop halive hworking hbell => live_next hon (doMerge_row hlt hidx hd hop halive hworking hbell),
    fun r l t hr hhalted hdues hl htag ht _ => ?_⟩
  · subst hu
    exact live_next hon (onMxe_starts _ hdesc)
  case refine_6 =>
    subst hu
    exact live_next hon (onMxe_starts _ hdesc)
  case refine_2 =>
    subst h
    exact live_next hon (onMxe_elsewhere _ hdesc hx)
  case refine_3 =>
    subst h
    exact live_next hon (onMxe_elsewhere _ hdesc hx)
  case refine_4 =>
    subst h
    exact live_next hon (onMxe_elsewhere _ hdesc hx)
  case refine_5 =>
    subst hc ht
    have haccess := loadColumn_accesses s lt k.desc k.next
    refine ⟨?_, fun huses => ?_, fun hmore => ?_, fun hlast => ?_⟩
    · rw [loadStep_column hload]
      exact haccess.within.modMxe _
    · rw [loadStep_column hload]
      exact congrArg (·.bytes) (loadColumn_reads s lt k.desc k.next (usesAt_nil huses)).1
    · rw [loadStep_mxe hload, MxeSt.columnRead, if_pos hmore]
    · rw [loadStep_mxe hload, MxeSt.columnRead, if_neg (Nat.not_lt.mpr hlast)]
  case refine_7 => rw [State.sendStep, hsend]
  case refine_8 =>
    obtain ⟨l, hrow, hshown⟩ := sendRow_beats s lt d r
    have hframe := sendRead_frame s lt d r
    have hbeats : t.mesh.beats = s.mesh.beats ++ l := by rw [ht, hrow]
    rw [hrow] at ht
    subst ht
    refine ⟨?_, fun n hn => sendRead_elsewhere s d r hn, fun a ha => sendRead_reg s lt d r ha, rfl, ?_, fun hclear n hn => ?_,
      fun hclear => sendRead_kept s lt r hclear⟩
    · exact congrArg (fun u : State => { u with mesh := { s.mesh with beats := s.mesh.beats ++ l, nextId := s.mesh.nextId + 6 } }) hframe
    · rw [hbeats, List.drop_left]
      exact hshown
    · refine (congrArg (fun m : MxeSt => tgetD m.acc _ accEntry0) (sendRead_cleared s lt r hclear)).trans ?_
      rw [accWrite_entry _ _ _ (by rwa [List.length_replicate]), List.getD_replicate _ hn]
  case refine_9 =>
    have hlen := mergeSums_length (s := s) (lt := lt) (d := d) l r
    rw [mergeRow_adds hr hhalted hdues hl htag] at ht
    have hmxe : (t.tile lt).mxe = (s.tile lt).mxe.merged idx d r (s.mergeSums lt d r l) := by
      have htile : ∀ (u : State) (x : Nat), ({ u with cyc := x } : State).tile lt = u.tile lt := fun _ _ => rfl
      rw [ht, (showMxe_accesses _ lt).mxe, htile, mxe_modMxe, accRead_tile]
    have hshow := showMxe_loads ({ (s.accRead lt (sdRow0 d + r)).2.modMxe lt (fun m =>
      m.merged idx d r (s.mergeSums lt d r l)) with cyc := (dStartCycle d + 6 * r + 7) % 4096 } : State) lt
    rw [← ht] at hshow
    refine ⟨?_, ?_, ?_, ?_, fun n hn => ?_, fun k hk => ?_⟩
    · rw [ht]
      exact (((accRead_within s lt _).modMxe _).cyc _).trans (showMxe_accesses _ lt).within
    · exact congrArg (·.mem) hshow.1
    · exact congrArg (·.cyc) hshow.1
    · rw [hmxe]
      rfl
    · rw [hmxe, merged_acc, accWrite_entry _ _ _ (by rwa [hlen]), mergeSums_value l r hn]
    · rw [hmxe, merged_acc, accWrite_other _ _ hlen.le hk]

end Sys2Proof.Machine
end

section
/-! PASS of the matrix engine (04 R117, R123-R135). -/

namespace Sys2Proof.Machine

section
variable {s : State} {lt : Nat}

theorem startPass_eq (s : State) (lt idx d : Nat) {v : State} {m : MxeSt} (hv : v = if psSwap d = 1 then s.swapPlanes lt else s)
    (hm : m = (v.tile lt).mxe) : s.startPass lt idx d = (
      let k : PassRun :=
        { desc := d, exp := (tfind m.taken idx).getD (fetchedExp (v.tile lt).curPatches idx d)
          p := passP (if m.active.filled then m.active.wfmt else 2) (psFmt d), rows := psRows d, next := 0 }
      let w := (v.modMxe lt (fun x => { x with pass := some k })).setF (MXE_PROGRESS_LT lt) MXE_PROGRESS_LT_rows_done 0
      if psAxis d = 1 ∧ m.active.filled = true ∧ m.active.squareOk ≠ 0xFFFF
      then w.setB (MXE_STATUS_LT lt) MXE_STATUS_LT_square_mismatch true else w) := by
  subst hm hv
  simp only [State.startPass, Bool.and_eq_true, decide_eq_true_eq, and_assoc]

/-! A row issues. -/

theorem passInput_accesses (s : State) (lt d r x k : Nat) : Accesses lt s (s.passInput lt d r x k).2 :=
  (tbPortRead_accesses s lt _ _ _ _ _ _).trans (tbPortRead_accesses _ lt _ _ _ _ _ _)

theorem passInput_reads (s : State) (lt d r x k : Nat) : ReadsAt lt 1 s (s.passInput lt d r x k).2 :=
  (tbPortRead_reads s lt _ _ _ _ _ _).trans (tbPortRead_reads _ lt _ _ _ _ _ _)

theorem insertUpdate_mem (u : AccUpdate) (l : List AccUpdate) : u ∈ insertUpdate u l := by
  induction l with
  | nil => exact List.mem_singleton_self u
  | cons v l ih =>
    rw [insertUpdate]
    split
    · exact List.mem_cons_self
    · exact List.mem_cons_of_mem _ ih

/-- The tile as the row of a PASS that issues next finds it. -/
def State.passRead (s : State) (lt : Nat) (k : PassRun) : InputRow × State :=
  ({ s with cyc := dStartCycle k.desc + k.next * k.p } : State).passInput lt k.desc k.next (dStartCycle k.desc + k.next * k.p)
    (passK (s.tile lt).mxe.active (psAxis k.desc))

/-- The state once that row has been read and counted. -/
def State.passCounted (s : State) (lt : Nat) (k : PassRun) : State :=
  let t := (s.passRead lt k).2.incF (MXE_ERRORS_LT lt) MXE_ERRORS_LT_plane_parity (s.tile lt).mxe.active.badParity.length
  t.perfAdd (t.partOfLt lt) 1 1

theorem passCounted_accesses (s : State) (k : PassRun) (hlt : lt < 256) : Accesses lt s (s.passCounted lt k) := by
  have hread : Accesses lt s (s.passRead lt k).2 := ((Accesses.refl lt s).cyc _).trans (passInput_accesses _ lt _ _ _ _)
  exact (hread.incF (tileReg_of_mem (by simp)) _ _).perfAdd (partOfLt_lt _ hlt) (by decide) _

theorem perfAdd_mem (s : State) (p k n : Nat) : (s.perfAdd p k n).mem = s.mem := congrArg (·.mem) (perfAdd_endsOnly s p k n)

theorem passCounted_mem (s : State) (k : PassRun) (huses : (s.tile lt).uses = []) : (s.passCounted lt k).mem = s.mem := by
  have hstart : ReadsAt lt 1 s { s with cyc := dStartCycle k.desc + k.next * k.p } := readsAt_of_eq rfl rfl
  have hread : (s.passRead lt k).2.mem = s.mem := (hstart.trans (passInput_reads _ lt _ _ _ _) (usesAt_nil huses)).1
  rw [State.passCounted, perfAdd_mem, State.incF_mem, hread]

/-- The update that a row of a PASS sends to its accumulator row, from the active plane and the tag that the row is due. -/
def passUpdate (p : Plane) (due : Int) (k : PassRun) (y : InputRow) : AccUpdate :=
  let row := psRow0 k.desc + k.next
  let tag := if psAcc k.desc = 0 then k.exp else due
  let out := rowOut p y tag (psAxis k.desc)
  let f := out.foldl (fun f t => flagsOr f t.flags) noFlags
  { at_ := dStartCycle k.desc + k.next * k.p + passDepth k.p, row := row, tag := if psAcc k.desc = 0 then some tag else none,
    vals := out.map (fun t => (t.value, t.poison)), inx := f.inx, ovf := f.ovf, done := k.next + 1 }

/-- What the issue of a row leaves in the engine. -/
def MxeSt.passIssued (m : MxeSt) (k : PassRun) (u : AccUpdate) : MxeSt :=
  { m with
    updates := insertUpdate u m.updates
    pass := if k.next + 1 < k.rows then some { k with next := k.next + 1 } else none }

theorem passStep_issues {k : PassRun} (hpass : (s.tile lt).mxe.pass = some k) (hlt : lt < 256) :
    s.passStep lt = (s.passCounted lt k).modMxe lt (fun m => m.passIssued k (passUpdate (s.tile lt).mxe.active
      ((s.tile lt).mxe.tagDue (psRow0 k.desc + k.next)) k (s.passRead lt k).1)) := by
  have hstep : s.passStep lt = (s.passCounted lt k).modMxe lt (fun m => m.passIssued k (passUpdate (s.tile lt).mxe.active
      (((s.passCounted lt k).tile lt).mxe.tagDue (psRow0 k.desc + k.next)) k (s.passRead lt k).1)) := by
    rw [State.passStep, hpass]
    rfl
  rw [hstep, (passCounted_accesses s k hlt).mxe]

/-! The update of an accumulator row. -/

theorem ariSummary_reports (s : State) (f : Flags) (unit part kind : Nat) :
    (s.ariSummary f unit part kind).tiles = s.tiles ∧ (s.ariSummary f unit part kind).mem = s.mem := by
  refine foldl_keeps (P := fun u : State => u.tiles = s.tiles ∧ u.mem = s.mem) _ (fun u x hu => ?_) ⟨rfl, rfl⟩
  dsimp only
  split
  · have hraise := (reports_raise evArithFlag part kind unit x.1 0 0 0 (Reports.refl (u.setB ARI_SUMMARY ⟨x.1, 1⟩ true))).1
    exact ⟨(congrArg (·.tiles) hraise).trans hu.1, (congrArg (·.mem) hraise).trans hu.2⟩
  · exact hu

theorem tileFlags_tiles (s : State) (lt : Nat) (f : Flags) (src : Nat) :
    (s.tileFlags lt f src).tiles = s.tiles ∧ (s.tileFlags lt f src).mem = s.mem := by
  have hfirst : ∀ u : State, (u.ariFirst f lt (s.partOfLt lt) false).tiles = u.tiles ∧
      (u.ariFirst f lt (s.partOfLt lt) false).mem = u.mem := fun u => by
    unfold State.ariFirst
    split
    · exact ⟨rfl, rfl⟩
    · exact ⟨State.setReg_tiles _ _ _, State.setReg_mem _ _ _⟩
  unfold State.tileFlags
  split
  · exact ⟨rfl, rfl⟩
  · dsimp only
    rw [(ariSummary_reports _ _ _ _ _).1, (ariSummary_reports _ _ _ _ _).2, (hfirst _).1, (hfirst _).2]
    simp only [State.setReg_tiles, State.setReg_mem, and_self]

/-- The sums of an update and the tag that a row which opens an accumulation takes. -/
def MxeSt.updated (m : MxeSt) (a : AccRow) (z : AccUpdate) : MxeSt :=
  match z.tag with
  | some e => (m.accWrite z.row z.vals).setTag z.row e
  | none => m.accWrite z.row (a.plus z.vals)

/-- The state once an update has been written, before its flags. -/
def State.accWritten (s : State) (lt : Nat) (z : AccUpdate) : State :=
  let s := { s with cyc := z.at_ % 4096 }
  match z.tag with
  | some e => s.modMxe lt (fun m => (m.accWrite z.row z.vals).setTag z.row e)
  | none => (s.accRead lt z.row).2.modMxe lt (fun m => m.accWrite z.row ((s.accRead lt z.row).1.plus z.vals))

theorem accWritten_within (s : State) (lt : Nat) (z : AccUpdate) : WithinTile lt s (s.accWritten lt z) := by
  unfold State.accWritten
  dsimp only
  split
  · exact ((WithinTile.refl lt s).cyc _).modMxe _
  · exact (((WithinTile.refl lt s).cyc _).trans (accRead_within _ lt _)).modMxe _

theorem accWritten_mxe (s : State) (lt : Nat) (z : AccUpdate) :
    ((s.accWritten lt z).tile lt).mxe = (s.tile lt).mxe.updated (s.accRead lt z.row).1 z := by
  have hcyc : ({ s with cyc := z.at_ % 4096 } : State).tile lt = s.tile lt := rfl
  unfold State.accWritten MxeSt.updated
  dsimp only
  split
  · rw [mxe_modMxe, hcyc]
  · rw [mxe_modMxe, accRead_tile, hcyc]
    rfl

theorem accUpdate_eq (s : State) (lt : Nat) (z : AccUpdate) : s.accUpdate lt z =
    ((s.accWritten lt z).tileFlags lt { inx := z.inx, ovf := z.ovf, sat := false } 8).setF (MXE_PROGRESS_LT lt)
      MXE_PROGRESS_LT_rows_done z.done := rfl

theorem accUpdate_within (s : State) (lt : Nat) (z : AccUpdate) : WithinTile lt s (s.accUpdate lt z) := by
  rw [accUpdate_eq]
  exact ((accWritten_within s lt z).tileFlags _ _).setF (tileReg_of_mem (by simp)) _ _

theorem accUpdate_mxe (s : State) (lt : Nat) (z : AccUpdate) :
    ((s.accUpdate lt z).tile lt).mxe = (s.tile lt).mxe.updated (s.accRead lt z.row).1 z := by
  rw [accUpdate_eq, tile_congr (State.setF_tiles _ _ _ _), tile_congr (tileFlags_tiles _ _ _ _).1, accWritten_mxe]

theorem accUpdate_mem (s : State) (lt : Nat) (z : AccUpdate) : (s.accUpdate lt z).mem = s.mem := by
  have hmem : (s.accWritten lt z).mem = s.mem := by
    unfold State.accWritten
    dsimp only
    split
    · rfl
    · rfl
  rw [accUpdate_eq, State.setF_mem, (tileFlags_tiles _ _ _ _).2, hmem]

theorem updated_planes (m : MxeSt) (a : AccRow) (z : AccUpdate) : (m.updated a z).active = m.active ∧ (m.updated a z).shadow = m.shadow := by
  unfold MxeSt.updated
  split
  · exact ⟨rfl, rfl⟩
  · exact ⟨rfl, rfl⟩

theorem updated_elsewhere (m : MxeSt) (a : AccRow) {z : AccUpdate} (hlen : z.vals.length ≤ 128) {k : Nat} (hk : k / 128 ≠ z.row) :
    tgetD (m.updated a z).acc k accEntry0 = tgetD m.acc k accEntry0 := by
  unfold MxeSt.updated
  split
  · exact accWrite_other m _ hlen hk
  · refine accWrite_other m _ ?_ hk
    rw [plus_length]
    exact (Nat.min_le_left _ _).trans hlen

theorem updated_opens (m : MxeSt) (a : AccRow) {z : AccUpdate} {e : Int} (htag : z.tag = some e) :
    m.updated a z = (m.accWrite z.row z.vals).setTag z.row e := by
  rw [MxeSt.updated, htag]

theorem updated_continues (m : MxeSt) (a : AccRow) {z : AccUpdate} (htag : z.tag = none) :
    m.updated a z = m.accWrite z.row (a.plus z.vals) := by
  rw [MxeSt.updated, htag]

/-! Nothing is due as far as a cycle. -/

theorem firstDue_mem {l : List (Nat × TileDue)} {e : Nat × TileDue} (h : firstDue l = some e) : e ∈ l := by
  induction l with
  | nil => cases h
  | cons x l ih =>
    rw [firstDue] at h
    split at h
    next f hf =>
      split at h
      · cases h
        exact List.mem_cons_of_mem _ (ih hf)
      · cases h
        exact List.mem_cons_self
    next =>
      cases h
      exact List.mem_cons_self

theorem engineRun_waits {key : Nat} (h : ∀ e ∈ (s.tile lt).dues, key < e.1) (n : Nat) : engineRun lt key n s = s := by
  cases n with
  | zero => rfl
  | succ n =>
    rw [engineRun]
    split
    next k e hdue => rw [if_neg (Nat.not_le.mpr (h _ (firstDue_mem hdue)))]
    next => rfl

theorem showVe_loads (s : State) (lt : Nat) : LoadsOnly (fun _ => True) s (s.showVe lt) := by
  have hbusy := fun b p => ((LoadsOnly.refl (fun _ => True) s).setB (a := VE_STATUS_LT lt) trivial VE_STATUS_LT_busy b).setB
    (a := VE_PROGRESS_LT lt) trivial VE_PROGRESS_LT_run_active p
  exact ((hbusy _ _).setB trivial _ _).ite (hbusy _ _)

theorem showEngines_tile (s : State) (lt n : Nat) : (s.showEngines lt).tile n = s.tile n :=
  tile_congr (congrArg (·.tiles) ((showMxe_loads s lt).trans (showVe_loads _ lt)).1) n

theorem engines_waits {x : Nat} (h : ∀ e ∈ (s.tile lt).dues, 2 * x < e.1) : (s.engines lt x).tile lt = s.tile lt := by
  unfold State.engines
  split
  · rfl
  · rw [showEngines_tile, engineRun_waits h]

end

/-- Settles O29: the start of a PASS, the issue of a row, the row's update, and what waits for its cycle. -/
theorem matrixPass : Obligations.MatrixPass := by
  unfold Obligations.MatrixPass
  refine ⟨fun s u v lt idx d m hon hdesc hu hv hm => ?_, fun s t lt x row k y out m e hm hpass hx hrow hy he hout ht hlt => ?_,
    fun s t lt z m hm ht _ hlen => ?_, fun s lt x h => engines_waits h, fun _ _ _ _ => rfl⟩
  · subst hu
    refine live_next hon ((onMxe_starts _ hdesc).trans ?_)
    rw [startPass_eq _ lt idx d hv hm]
  · subst hm hx hrow
    rw [passStep_issues hpass hlt] at ht
    have haccess := passCounted_accesses s k hlt
    have hmxe : (t.tile lt).mxe = (s.tile lt).mxe.passIssued k (passUpdate (s.tile lt).mxe.active
        ((s.tile lt).mxe.tagDue (psRow0 k.desc + k.next)) k (s.passRead lt k).1) := by
      rw [ht, mxe_modMxe, haccess.mxe]
    refine ⟨?_, fun huses => ?_, ?_, ?_⟩
    · rw [ht]
      exact haccess.within.modMxe _
    · rw [ht]
      exact congrArg (·.bytes) (passCounted_mem s k huses)
    · rw [hmxe]
      rfl
    · rw [hmxe]
      refine ⟨_, insertUpdate_mem _ _, rfl, rfl, ?_, ?_⟩
      · rw [he]
        rfl
      · rw [hout, he, hy]
        rfl
  · subst hm ht
    have hmxe := accUpdate_mxe s lt z
    refine ⟨accUpdate_within s lt z, accUpdate_mem s lt z, ?_, ?_, fun k hk => ?_, fun e htag => ?_, fun htag => ?_⟩
    · rw [hmxe, (updated_planes _ _ _).1]
    · rw [hmxe, (updated_planes _ _ _).2]
    · rw [hmxe, updated_elsewhere _ _ hlen hk]
    · rw [hmxe, updated_opens _ _ htag]
      refine ⟨(tgetD_tput _ _ _ _ _).trans (if_pos rfl), fun n hn => accWrite_entry _ _ _ hn⟩
    · rw [hmxe, updated_continues _ _ htag]
      refine ⟨rfl, fun n hn => ?_⟩
      have hn' : n < 128 := lt_of_lt_of_le hn hlen
      rw [accWrite_entry _ _ _ (by rw [plus_length, accRead_length]; exact lt_min hn hn'),
        plus_entry _ _ hn (by rwa [accRead_length]), accRead_entry _ _ _ hn']

end Sys2Proof.Machine
end

section
/-! RUN, TABLE and CACHE of the vector engine (05 R149, R158-R160, R167, R172). -/

namespace Sys2Proof.Machine

section
variable {s g w : State} {lt idx d : Nat}

theorem onVe_starts {op : Nat} {starts : Nat → Bool} (f : State → Nat → State) (hready : VeReady s lt idx op d)
    (hstarts : starts (dStartCycle d) = true) :
    s.onVe lt idx op starts f = (f { s.engines lt (dStartCycle d) with cyc := dStartCycle d } d).showVe lt := by
  obtain ⟨-, hidx, hd, hop, hworks, hrun, hjob⟩ := hready
  subst hd
  simp only [State.onVe, hidx, hop, hworks, hstarts, hrun, hjob, decide_true, Bool.and_self, if_true, Option.isNone_none]

theorem onVe_elsewhere {op : Nat} {starts : Nat → Bool} (f : State → Nat → State)
    (hd : d = descAt (armedProgram (s.tile lt)) (tpVeOffset (armedProgram (s.tile lt))) idx)
    (hstarts : starts (dStartCycle d) = false) : s.onVe lt idx op starts f = s := by
  subst hd
  simp only [State.onVe, hstarts, Bool.and_false, Bool.false_eq_true, if_false]

/-! RUN. -/

section
variable {u v : State} {sb bb : List Byte} {sp bp : List Bool}
  (hslate : s.tbPortRead lt (dStartCycle d) 0 3 (runSlate d) (8 * runN d) = ((sb, sp), u))
  (hblock : u.tbPortRead lt (dStartCycle d + 1) 0 3 (runBlock d) 128 = ((bb, bp), v))
include hslate hblock

theorem veRun_good (hsp : sp.any id = false) (hbp : bp.any id = false)
    (hgood : slateGood (armedProgram (v.tile lt)) (dStartBell d) (dStartCycle d + 4) (runIters d) (words64 sb (runN d)) bb = true) :
    s.veRun lt idx d = (v.setF (VE_PROGRESS_LT lt) VE_PROGRESS_LT_iters_done 0).modVe lt (fun e => { e with
      run := some ⟨idx, dStartCycle d + 4, words64 sb (runN d), bb, runIters d, 0, 0, []⟩ }) := by
  have htile : (v.setF (VE_PROGRESS_LT lt) VE_PROGRESS_LT_iters_done 0).tile lt = v.tile lt := tile_congr rfl lt
  simp only [State.veRun, hslate, hblock, hsp, hbp, htile, hgood, Bool.not_true, Bool.or_false, Bool.false_eq_true, if_false]

theorem veRun_bad (hbad : sp.any id = true ∨ bp.any id = true ∨
      slateGood (armedProgram (v.tile lt)) (dStartBell d) (dStartCycle d + 4) (runIters d) (words64 sb (runN d)) bb = false)
    {x : State} (hx : x = v.setF (VE_PROGRESS_LT lt) VE_PROGRESS_LT_iters_done 0) :
    s.veRun lt idx d = (x.setB (VE_STATUS_LT lt) VE_STATUS_LT_slate_bad true).declareHalt (x.partOfLt lt) hcSlate := by
  subst hx
  have htile : (v.setF (VE_PROGRESS_LT lt) VE_PROGRESS_LT_iters_done 0).tile lt = v.tile lt := tile_congr rfl lt
  have hcond : (sp.any id || bp.any id || !slateGood (armedProgram (v.tile lt)) (dStartBell d) (dStartCycle d + 4) (runIters d)
      (words64 sb (runN d)) bb) = true := by
    simp only [Bool.or_eq_true, Bool.not_eq_true', or_assoc]
    exact hbad
  simp only [State.veRun, hslate, hblock, htile, hcond, if_true]

end

/-! TABLE and CACHE. -/

theorem tput_tput_same {α : Type} (t : Tbl α) (k : Nat) (a b : α) : tput (tput t k a) k b = tput t k b := by
  induction t with
  | nil => simp only [tput, Nat.lt_irrefl, if_false, if_true]
  | cons x t ih =>
    obtain ⟨j, v⟩ := x
    rcases Nat.lt_trichotomy k j with h | h | h
    · simp only [tput, h, if_true, Nat.lt_irrefl, if_false]
    · simp only [tput, h, if_true, Nat.lt_irrefl, if_false]
    · simp only [tput, Nat.lt_asymm h, Nat.ne_of_gt h, if_false, ih]

theorem modTile_modTile (s : State) (lt : Nat) (f f' : TileSt → TileSt) :
    (s.modTile lt f).modTile lt f' = s.modTile lt (fun t => f' (f t)) := by
  have htable : tmod (tmod s.tiles lt tile0 f) lt tile0 f' = tmod s.tiles lt tile0 (fun t => f' (f t)) := by
    rw [tmod, tgetD_tmod, if_pos rfl, tmod, tput_tput_same]
    rfl
  exact congrArg (fun t => { s with tiles := t }) htable

theorem modVe_modVe (s : State) (lt : Nat) (f f' : VeSt → VeSt) : (s.modVe lt f).modVe lt f' = s.modVe lt (fun e => f' (f e)) :=
  modTile_modTile s lt _ _

section
variable {k : VeJob} (hjob : (s.ve lt).job = some k)
include hjob

theorem jobStep_cache (hop : dBits k.desc 0 0 4 = voCACHE) : s.jobStep lt =
    (({ s with cyc := dStartCycle k.desc + k.next } : State).cacheLine lt k.desc k.next).modVe lt (fun e => { e with
      job := if k.steps ≤ k.next + 1 then none else some { k with next := k.next + 1 } }) := by
  simp only [State.jobStep, hjob, hop, if_true, decide_eq_true_eq]

variable (hop : dBits k.desc 0 0 4 = voTABLE) {b : List Byte} {p : List Bool} {v : State} {j : VeJob}
  (hread : ({ s with cyc := dStartCycle k.desc + k.next } : State).tbPortRead lt (dStartCycle k.desc + k.next) 0 3
    (dBits k.desc 1 0 22 + 512 * k.next) (if k.next < 2 then 512 else 16) = ((b, p), v))
  (hj : j = { k with next := k.next + 1, data := k.data ++ b, poison := k.poison ++ p })
include hop hread hj

theorem jobStep_table : s.jobStep lt = if j.steps ≤ j.next then
      match lookupOf j.data j.poison with
      | some t => ((v.modVe lt (fun e => { e with job := none })).modVe lt (fun e => { e with
          slots := tput e.slots (dBits k.desc 0 32 3) t })).showTables lt
      | none => ((v.modVe lt (fun e => { e with job := none })).setB (VE_STATUS_LT lt) VE_STATUS_LT_table_bad true).showTables lt
    else v.modVe lt (fun e => { e with job := some j }) := by
  have hcache : ¬ voTABLE = voCACHE := by decide
  subst hj
  rw [State.jobStep, hjob]
  simp only [hop, hcache, if_false, tablePart, hread, decide_eq_true_eq] <;> rfl

end

theorem cacheLine_loads {i : Nat} {b e : List Byte} {p ep : List Bool} {u v : State} (hload : dBits d 0 32 1 = 0)
    (hdata : s.tbPortRead lt (dStartCycle d + i) 0 3 (dBits d 1 0 22 + 512 * i) 512 = ((b, p), u))
    (htags : u.tbPortRead lt (dStartCycle d + i) 2 3 (dBits d 1 22 22 + 32 * i) 32 = ((e, ep), v)) :
    s.cacheLine lt d i = v.modVe lt (fun x => { x with cache := tput x.cache (dBits d 0 33 9 + i) (CacheLine.mk
      ⟨b, (List.range 16).map (fun j => signedOf (leAt e (2 * j) 2 % 1024) 10),
        (List.range 16).map (fun j => bitSet (leAt e (2 * j) 2) 15 || ((p.drop (32 * j)).take 32).any id ||
          ((ep.drop (2 * j)).take 2).any id)⟩ []) }) := by
  simp only [State.cacheLine, hload, if_true, hdata, htags]

end

theorem tbPortRead_accesses_eq {s t : State} {lt cycle port prio off n : Nat} {sink : Option Nat} {r : List Byte × List Bool}
    (h : s.tbPortRead lt cycle port prio off n sink = (r, t)) : Accesses lt s t := by
  have haccess := tbPortRead_accesses s lt cycle port prio off n sink
  rwa [h] at haccess

theorem tbPortRead_reads_eq {s t : State} {lt cycle port prio off n : Nat} {sink : Option Nat} {r : List Byte × List Bool}
    (h : s.tbPortRead lt cycle port prio off n sink = (r, t)) : ReadsAt lt prio s t := by
  have hreads := tbPortRead_reads s lt cycle port prio off n sink
  rwa [h] at hreads

/-- Settles O30, clause by clause from the lemmas on the start of a descriptor, RUN, TABLE and CACHE. -/
theorem vectorDescriptors : Obligations.VectorDescriptors := by
  unfold Obligations.VectorDescriptors
  intro s g w lt idx d hg hw
  subst hg
  subst hw
  refine ⟨fun sb sp bb bp u v hready hslate hblock hsp hbp hgood => ?_, fun sb sp bb bp u v x hready hslate hblock hbad hx => ?_,
    fun hready => live_next hready.1 (onVe_starts _ hready (beq_self_eq_true _)), fun hd hon x hx => ⟨?_, ?_⟩,
    fun hready => live_next hready.1 (onVe_starts _ hready (beq_self_eq_true _)),
    fun k b p v j hjob hop hread hj => ⟨fun hmore => ?_, fun t hlast hlook => ?_, fun hlast hlook => ?_⟩,
    fun k hjob hop => jobStep_cache hjob hop, fun i b p e ep u v hload hlt hdata htags => ⟨?_, ?_, fun huses => ?_⟩,
    fun e => ⟨rfl, fun r hr => ?_⟩⟩
  · refine live_next hready.1 ((onVe_starts _ hready rfl).trans ?_)
    rw [veRun_good hslate hblock hsp hbp hgood]
  · refine live_next hready.1 ((onVe_starts _ hready rfl).trans ?_)
    rw [veRun_bad hslate hblock hbad hx]
  · exact live_next hon (onVe_elsewhere _ hd (beq_eq_false_iff_ne.mpr hx))
  · exact live_next hon (onVe_elsewhere _ hd (beq_eq_false_iff_ne.mpr hx))
  · have hsteps : ¬ j.steps ≤ j.next := by
      rw [show j.steps = k.steps by rw [hj]]
      exact Nat.not_le.mpr hmore
    rw [jobStep_table hjob hop hread hj, if_neg hsteps]
  · have hsteps : j.steps ≤ j.next := by rwa [show j.steps = k.steps by rw [hj]]
    rw [jobStep_table hjob hop hread hj, if_pos hsteps, hlook]
    dsimp only
    rw [modVe_modVe]
  · have hsteps : j.steps ≤ j.next := by rwa [show j.steps = k.steps by rw [hj]]
    rw [jobStep_table hjob hop hread hj, if_pos hsteps, hlook]
  · rw [cacheLine_loads hload hdata htags]
  · rw [cacheLine_loads hload hdata htags]
    exact ((tbPortRead_accesses_eq hdata).trans (tbPortRead_accesses_eq htags)).within.modVe _
  · rw [cacheLine_loads hload hdata htags]
    exact congrArg (·.bytes) ((tbPortRead_reads_eq hdata).trans (tbPortRead_reads_eq htags) (usesAt_nil huses)).1
  · rw [VeSt.stop, hr]
    rfl

end Sys2Proof.Machine
end

section
/-! The engines of a tile at work stay within the tile; an instruction of a slate issues (05 R151, R155-R159). -/

namespace Sys2Proof.Machine

section
variable (s : State) (lt : Nat)

theorem veErrors_tileReg : tileReg lt (VE_ERRORS_LT lt) = true := tileReg_of_mem (by simp)

theorem veStatus_tileReg : tileReg lt (VE_STATUS_LT lt) = true := tileReg_of_mem (by simp)

theorem veProgress_tileReg : tileReg lt (VE_PROGRESS_LT lt) = true := tileReg_of_mem (by simp)

/-! Steps of the matrix engine. -/

theorem passStep_within (hlt : lt < 256) : WithinTile lt s (s.passStep lt) := by
  cases hpass : (s.tile lt).mxe.pass with
  | none =>
    rw [State.passStep, hpass]
    exact WithinTile.refl lt s
  | some k =>
    rw [passStep_issues hpass hlt]
    exact (passCounted_accesses s k hlt).within.modMxe _

theorem loadStep_within : WithinTile lt s (s.loadStep lt) := by
  cases hload : (s.tile lt).mxe.load with
  | none =>
    rw [State.loadStep, hload]
    exact WithinTile.refl lt s
  | some k =>
    rw [loadStep_column hload]
    exact (loadColumn_accesses s lt k.desc k.next).within.modMxe _

/-- A beat that the tile offers is its own. -/
theorem offerBeat_within {b : Beat} (hb : b.srcLt = lt) : WithinTile lt s (s.offerBeat b) := by
  refine ⟨rfl, fun _ _ => rfl, fun _ _ => rfl, ?_, fun _ _ => rfl⟩
  rw [State.offerBeat, List.filter_append, List.filter_singleton]
  have hown : (b.srcLt != lt) = false := by rw [hb, bne_self_eq_false]
  rw [hown]
  exact List.append_nil _

theorem sendRow_within (d r : Nat) : WithinTile lt s (s.sendRow lt d r) := by
  have hread : WithinTile lt s (s.sendRead lt d r) := ((accRead_within s lt _).modMxe _).ite (accRead_within s lt _)
  exact hread.forEach fun u j _ => offerBeat_within u lt rfl

theorem sendStep_within : WithinTile lt s (s.sendStep lt) := by
  unfold State.sendStep
  split
  · exact (((WithinTile.refl lt s).cyc _).trans (sendRow_within _ lt _ _)).modMxe _
  · exact WithinTile.refl lt s

theorem updateStep_within : WithinTile lt s (s.updateStep lt) := by
  unfold State.updateStep
  split
  · exact ((WithinTile.refl lt s).modMxe _).trans (accUpdate_within _ lt _)
  · exact WithinTile.refl lt s

/-! Steps of the vector engine. -/

theorem cacheRead_within (n w : Nat) : WithinTile lt s (s.cacheRead lt n w).2 :=
  ((WithinTile.refl lt s).incF (veErrors_tileReg lt) _ _).incF (veErrors_tileReg lt) _ _

theorem cacheLine_within (d i : Nat) : WithinTile lt s (s.cacheLine lt d i) := by
  unfold State.cacheLine
  dsimp only
  refine WithinTile.ite (WithinTile.modVe ?_ _) ?_
  · exact ((tbPortRead_accesses s lt _ _ _ _ _ _).trans (tbPortRead_accesses _ lt _ _ _ _ _ _)).within
  · exact (cacheRead_within s lt _ _).trans
      ((tbPortWrite_accesses _ lt _ _ _ _ _ _ _).trans (tbPortWrite_accesses _ lt _ _ _ _ _ _ _)).within

theorem showTables_within {t : State} (h : WithinTile lt s t) : WithinTile lt s (t.showTables lt) := h.setF (veStatus_tileReg lt) _ _

theorem jobStep_within : WithinTile lt s (s.jobStep lt) := by
  cases hjob : (s.ve lt).job with
  | none =>
    rw [State.jobStep, hjob]
    exact WithinTile.refl lt s
  | some k =>
    rw [State.jobStep, hjob]
    dsimp only
    have hstart := (WithinTile.refl lt s).cyc (dStartCycle k.desc + k.next)
    have hread := fun (cycle off n : Nat) => hstart.trans (tbPortRead_accesses _ lt cycle 0 3 off n none).within
    refine WithinTile.ite ?_ (WithinTile.ite ?_ ?_)
    · exact (hstart.trans (cacheLine_within _ lt _ _)).modVe _
    · split
      · exact showTables_within s lt (((hread _ _ _).modVe _).modVe _)
      · exact showTables_within s lt (((hread _ _ _).modVe _).setB (veStatus_tileReg lt) _ _)
    · exact (hread _ _ _).modVe _

theorem laneFlags_within (lo : Nat) (inx sat : List Bool) : WithinTile lt s (s.laneFlags lt lo inx sat) :=
  (WithinTile.refl lt s).ite (((WithinTile.refl lt s).modVe _).tileFlags _ _)

theorem outWrite_within (f : VeFlight) (addr scaleAddr fmt : Nat) (exp : Int) :
    WithinTile lt s (s.outWrite lt f addr scaleAddr fmt exp) := by
  have hdata := fun (inx sat : List Bool) (cycle off : Nat) (d : List Byte) (p : List Bool) =>
    (laneFlags_within s lt f.lo inx sat).trans (tbPortWrite_accesses _ lt cycle 1 5 off d p 0).within
  exact (hdata _ _ _ _ _ _).ite ((hdata _ _ _ _ _ _).trans (tbPortWrite_accesses _ lt _ _ _ _ _ _ _).within)

/-- What a result reports as it is written, before its destination. -/
def State.landNoted (s : State) (lt : Nat) (f : VeFlight) : State :=
  let s := if f.clear then s.modVe lt (fun e => { e with flags := [] }) else s
  let s := s.laneFlags lt f.lo f.inx f.sat
  let s := if f.rcpBad then s.setB (VE_STATUS_LT lt) VE_STATUS_LT_rcp_bad true else s
  let s := if f.tableBad then s.setB (VE_STATUS_LT lt) VE_STATUS_LT_table_bad true else s
  if f.parity then s.incF (VE_ERRORS_LT lt) VE_ERRORS_LT_table_parity 1 else s

theorem landNoted_within (f : VeFlight) : WithinTile lt s (s.landNoted lt f) := by
  have hstatus : ∀ (u : State) (c : Bool) (g : Fld), WithinTile lt u (if c then u.setB (VE_STATUS_LT lt) g true else u) := fun u c g =>
    ((WithinTile.refl lt u).setB (veStatus_tileReg lt) _ _).ite (WithinTile.refl lt u)
  have hflags : ∀ u : State, WithinTile lt u (u.laneFlags lt f.lo f.inx f.sat) := fun u => laneFlags_within u lt _ _ _
  have hclear : WithinTile lt s (if f.clear then s.modVe lt (fun e => { e with flags := [] }) else s) :=
    ((WithinTile.refl lt s).modVe _).ite (WithinTile.refl lt s)
  have hparity : ∀ u : State, WithinTile lt u (if f.parity then u.incF (VE_ERRORS_LT lt) VE_ERRORS_LT_table_parity 1 else u) := fun u =>
    ((WithinTile.refl lt u).incF (veErrors_tileReg lt) _ _).ite (WithinTile.refl lt u)
  exact (((hclear.trans (hflags _)).trans (hstatus _ _ _)).trans (hstatus _ _ _)).trans (hparity _)

theorem land_within (f : VeFlight) : WithinTile lt s (s.land lt f) := by
  have hnoted := landNoted_within s lt f
  have hland : s.land lt f = match f.dst with
      | .none => s.landNoted lt f
      | .v n => (s.landNoted lt f).modVe lt (fun e => { e with v := tput e.v n (overlay (e.vr n) f.width f.lo f.vals f.tags f.poison) })
      | .w n => (s.landNoted lt f).modVe lt (fun e => { e with w := tput e.w n f.w })
      | .line n =>
        let keep := fun (x : Nat × Nat) => !(f.lo * laneBits f.width / 8 ≤ 8 * x.1 && 8 * x.1 < f.hi * laneBits f.width / 8)
        let next := fun (c : CacheLine) => CacheLine.mk (overlay c.reg f.width f.lo f.vals f.tags f.poison) (c.errs.filter keep)
        (s.landNoted lt f).modVe lt (fun e => { e with cache := tput e.cache n (next (e.line n)) })
      | .out a sa fmt exp => (s.landNoted lt f).outWrite lt f a sa fmt exp := rfl
  rw [hland]
  split
  · exact hnoted
  · exact hnoted.modVe _
  · exact hnoted.modVe _
  · exact hnoted.modVe _
  · exact hnoted.trans (outWrite_within _ lt f _ _ _ _)

theorem landStep_within : WithinTile lt s (s.landStep lt) := by
  unfold State.landStep
  split
  · exact (((WithinTile.refl lt s).cyc _).modVe _).trans (land_within _ lt _)
  · exact WithinTile.refl lt s

/-! All of them. -/

theorem engineStep_within (hlt : lt < 256) (e : TileDue) : WithinTile lt s (s.engineStep lt e) := by
  cases e with
  | pass => exact passStep_within s lt hlt
  | load => exact loadStep_within s lt
  | send => exact sendStep_within s lt
  | job => exact jobStep_within s lt
  | land => exact landStep_within s lt
  | update => exact updateStep_within s lt

theorem engineRun_within (hlt : lt < 256) (key n : Nat) : ∀ s : State, WithinTile lt s (engineRun lt key n s) := by
  induction n with
  | zero => exact fun s => WithinTile.refl lt s
  | succ n ih =>
    intro s
    rw [engineRun]
    split
    · split
      · exact (engineStep_within s lt hlt _).trans (ih _)
      · exact WithinTile.refl lt s
    · exact WithinTile.refl lt s

theorem showVe_within : WithinTile lt s (s.showVe lt) := by
  have hbusy := fun b p => ((WithinTile.refl lt s).setB (veStatus_tileReg lt) VE_STATUS_LT_busy b).setB (veProgress_tileReg lt)
    VE_PROGRESS_LT_run_active p
  exact ((hbusy _ _).setB (veStatus_tileReg lt) _ _).ite (hbusy _ _)

theorem engines_within (hlt : lt < 256) (x : Nat) : WithinTile lt s (s.engines lt x) :=
  (WithinTile.refl lt s).ite ((((engineRun_within lt hlt (2 * x) _ s).cyc s.cyc).trans (showMxe_accesses _ lt).within).trans
    (showVe_within _ lt))

/-! The operands of an instruction. -/

theorem streamRead_within (r : VeRun) (k w q x : Nat) : WithinTile lt s (s.streamRead lt r k w q x).2 := by
  have hdata := fun cycle off n => (tbPortRead_accesses s lt cycle 0 (3 + k) off n none).within
  unfold State.streamRead
  dsimp only
  split
  · exact hdata _ _ _
  · exact (hdata _ _ _).trans (tbPortRead_accesses _ lt _ _ _ _ _ _).within

theorem sourceRead_within (r : VeRun) (i : Slate) (code x : Nat) (tags : List Int) :
    WithinTile lt s (s.sourceRead lt r i code x tags).2 := by
  unfold State.sourceRead
  dsimp only
  split
  · exact WithinTile.refl lt s
  split
  · exact streamRead_within s lt _ _ _ _ _
  split
  · exact cacheRead_within s lt _ i.width
  split
  · exact WithinTile.refl lt s
  split
  · exact WithinTile.refl lt s
  · exact WithinTile.refl lt s

theorem oldOf_within (w : Nat) (a : VReg) (d : VeDst) : WithinTile lt s (s.oldOf lt w a d).2 := by
  unfold State.oldOf
  split
  · exact WithinTile.refl lt s
  · exact cacheRead_within s lt _ _
  · exact WithinTile.refl lt s

theorem snd_ite_within {α : Type} {s : State} {lt : Nat} {c : Prop} [Decidable c] {x y : α × State} (hx : WithinTile lt s x.2)
    (hy : WithinTile lt s y.2) : WithinTile lt s (if c then x else y).2 := by
  split
  · exact hx
  · exact hy

theorem slateIn_within (r : VeRun) (i : Slate) (x : Nat) : WithinTile lt s (s.slateIn lt r i x).2 := by
  have hsource : ∀ (u : State) (c : Bool) (r : VeRun) (code : Nat) (tags : List Int),
      WithinTile lt u (if c then u.sourceRead lt r i code x tags else ((vreg0, r), u)).2 := fun u c r code tags =>
    snd_ite_within (sourceRead_within u lt r i code x tags) (WithinTile.refl lt u)
  have hacc : ∀ (u : State) (row : Nat),
      WithinTile lt u (if (decide (i.op = 0x3C) && decide (i.a = ocACC)) = true then u.accRead lt row else ({ entries := [], tag := 0 }, u)).2 := fun u row =>
    snd_ite_within (accRead_within u lt row) (WithinTile.refl lt u)
  have hold : ∀ (u : State) (a : VReg) (d : VeDst),
      WithinTile lt u (if i.takesOld then u.oldOf lt i.width a d else (vreg0, u)).2 := fun u a d =>
    snd_ite_within (oldOf_within u lt i.width a d) (WithinTile.refl lt u)
  exact ((((hsource s _ r i.a _).trans (hacc _ _)).trans (hsource _ _ _ i.b _)).trans (hsource _ _ _ i.c _)).trans (hold _ _ _)

/-! The issue. -/

theorem issued_within (r : VeRun) : WithinTile lt s (s.issued lt r) := by
  have hnext := fun (f : VeSt → VeSt) (n : Nat) => ((WithinTile.refl lt s).modVe f).setF (veProgress_tileReg lt)
    VE_PROGRESS_LT_iters_done n
  exact ((WithinTile.refl lt s).modVe _).ite (((hnext _ _).modVe _).ite (hnext _ _))

end

section
variable {s : State} {lt : Nat} {r : VeRun} {i : Slate} {x : Nat}

theorem slateStep_issues (hready : SlateReady s lt r i x) {op : Nat} (f : SlateIn → VeFlight) (hop : i.op = op) (hnop : op ≠ 0) :
    s.slateStep lt op f = (
      let u := ({ s.engines lt x with cyc := x % 4096 } : State).slateIn lt r i x
      let g := { f u.1.1 with at_ := landAt x op u.1.2.1, dst := u.1.2.1 }
      let v := u.2.modVe lt (fun e => { e with flight := insertFlight g e.flight })
      ((v.perfAdd (v.partOfLt lt) 2 1).issued lt u.1.2.2).showVe lt) := by
  obtain ⟨-, hrun, hi, hx⟩ := hready
  subst hi hx hop
  rw [State.slateStep, hrun]
  simp only [ne_eq, not_true_eq_false, if_false, hnop]

theorem slateStep_nop (hready : SlateReady s lt r i x) (f : SlateIn → VeFlight) (hop : i.op = 0) :
    s.slateStep lt 0 f = (({ s.engines lt x with cyc := x % 4096 } : State).issued lt r).showVe lt := by
  obtain ⟨-, hrun, hi, hx⟩ := hready
  subst hi hx
  rw [State.slateStep, hrun]
  simp only [ne_eq, hop, not_true_eq_false, if_false, if_true]

theorem slateStep_other (hready : SlateReady s lt r i x) {op : Nat} (f : SlateIn → VeFlight) (hop : i.op ≠ op) :
    s.slateStep lt op f = s := by
  obtain ⟨-, hrun, hi, -⟩ := hready
  subst hi
  rw [State.slateStep, hrun]
  exact if_pos hop

theorem slateStep_within (hready : SlateReady s lt r i x) {op : Nat} (f : SlateIn → VeFlight) (hop : i.op = op) (hnop : op ≠ 0)
    (hlt : lt < 256) : WithinTile lt s (s.slateStep lt op f) := by
  rw [slateStep_issues hready f hop hnop]
  have hstart := ((engines_within s lt hlt x).cyc (x % 4096)).trans (slateIn_within _ lt r i x)
  exact (((hstart.modVe _).perfAdd (partOfLt_lt _ hlt) (by decide) 1).trans (issued_within _ lt _)).trans (showVe_within _ lt)

end

/-- An instruction of a slate, its opcode and the result it computes. -/
abbrev SlateRow : Type := Instr × Nat × (SlateIn → VeFlight)

/-- Settles O31: every row of the table is a step of the slate under its opcode. -/
theorem slateIssue : Obligations.SlateIssue := by
  unfold Obligations.SlateIssue
  intro s lt r i x hready
  have hrow : ∀ row : SlateRow, exec row.1 s = live s (s.slateStep lt row.2.1 row.2.2) ∧ row.2.1 ≠ 0 →
      (i.op = row.2.1 → exec row.1 s = .next (
          let u := ({ s.engines lt x with cyc := x % 4096 } : State).slateIn lt r i x
          let g := { row.2.2 u.1.1 with at_ := landAt x row.2.1 u.1.2.1, dst := u.1.2.1 }
          let v := u.2.modVe lt (fun e => { e with flight := insertFlight g e.flight })
          ((v.perfAdd (v.partOfLt lt) 2 1).issued lt u.1.2.2).showVe lt)) ∧
      (i.op = row.2.1 → lt < 256 → Gives row.1 s (WithinTile lt s)) ∧ (i.op ≠ row.2.1 → exec row.1 s = .next s) := by
    rintro row ⟨hexec, hnop⟩
    exact ⟨fun hop => hexec.trans (live_next hready.1 (slateStep_issues hready _ hop hnop)),
      fun hop hlt => gives_of_live hready.1 hexec (slateStep_within hready _ hop hnop hlt),
      fun hop => hexec.trans (live_next hready.1 (slateStep_other hready _ hop))⟩
  refine ⟨fun row hmem => hrow row ?_, fun hop => live_next hready.1 (slateStep_nop hready _ hop),
    fun hop => live_next hready.1 (slateStep_other hready _ hop)⟩
  fin_cases hmem
  all_goals exact ⟨rfl, Nat.succ_ne_zero _⟩

end Sys2Proof.Machine
end

