-- ==== Sys2Proof/Proofs/SlateResults.lean ====
section
/-! What an instruction of a slate puts in each lane of its result (05 R152-R157, R164-R170): one rule for the results of one
operand, one for the results of two, and the block of a lane. -/

namespace Sys2Proof.Machine

/-! Lists read with a default. -/

theorem getD_map_lt {α β : Type} (l : List α) (f : α → β) (e : Nat) (d : β) (d' : α) (h : e < l.length) :
    (l.map f).getD e d = f (l.getD e d') := by
  simp [List.getD_eq_getElem?_getD, h]

theorem getD_zip_lt {α β : Type} (l : List α) (m : List β) (e : Nat) (d : α × β) (a : α) (b : β) (hl : e < l.length)
    (hm : e < m.length) : (l.zip m).getD e d = (l.getD e a, m.getD e b) := by
  simp [List.getD_eq_getElem?_getD, hl, hm]

theorem getD_range_lt (n e d : Nat) (h : e < n) : (List.range n).getD e d = e := by
  simp [List.getD_eq_getElem?_getD, h]

/-! Lanes and blocks. -/

@[simp] theorem lanes_length (v : VReg) (w : Nat) : (v.lanes w).length = laneCount w := by
  simp [VReg.lanes, elemsOf]

@[simp] theorem aligned_length (v : VReg) (w : Nat) (t : Nat → Int) : (v.aligned w t).length = laneCount w := by
  simp [VReg.aligned]

/-- The blocks of 32 lanes cover the lanes of a vector. -/
theorem block_lt {w e : Nat} (h : e < laneCount w) : e / 32 < laneBlocks w := by
  unfold laneBlocks laneCount at *
  split_ifs at * <;> omega

theorem result_vals (w : Nat) (ls : List Lane) (tags : List Int) (poison : List Bool) :
    (result w ls tags poison).vals = ls.map (·.v) := rfl

theorem result_lane {w e : Nat} (ls : List Lane) (tags : List Int) (poison : List Bool) (h : e < ls.length) :
    (result w ls tags poison).vals.getD e 0 = (ls.getD e (lane 0)).v :=
  getD_map_lt ls _ e 0 (lane 0) h

theorem productLanes_length (y : SlateIn) : (productLanes y).length = laneCount y.w := by
  simp [productLanes]

section
variable (y : SlateIn) {e : Nat} (he : e < laneCount y.w)
include he

/-- A result of one operand: lane e comes from lane e of a. -/
theorem unary_lane (f : Int → Nat → Lane) : (unary y f).vals.getD e 0 = (f ((y.a.lanes y.w).getD e 0) e).v := by
  have hlen : e < (y.a.lanes y.w).length := by rwa [lanes_length]
  have hidx : e < (List.range (y.a.lanes y.w).length).length := by rwa [List.length_range]
  have hzip : e < ((y.a.lanes y.w).zip (List.range (y.a.lanes y.w).length)).length := by
    rw [List.length_zip]; exact lt_min hlen hidx
  rw [unary, result_lane _ _ _ (by rwa [List.length_map]), getD_map_lt _ _ e _ (0, 0) hzip,
    getD_zip_lt _ _ e _ 0 0 hlen hidx, getD_range_lt _ e 0 hlen]

/-- A result of two operands: lane e comes from lane e of a and from the aligned lane e of b. -/
theorem binary_lane (tags : List Int) (f : Int → Int → Int) (sat : Bool → Lane → Nat → Lane) :
    (binary y tags f sat).vals.getD e 0 = (sat y.i.sat { (y.b.aligned y.w y.a.tag).getD e (lane 0) with
      v := f ((y.a.lanes y.w).getD e 0) ((y.b.aligned y.w y.a.tag).getD e (lane 0)).v } y.bits).v := by
  have hlen : e < (y.a.lanes y.w).length := by rwa [lanes_length]
  have hb : e < (y.b.aligned y.w y.a.tag).length := by rwa [aligned_length]
  have hzip : e < ((y.a.lanes y.w).zip (y.b.aligned y.w y.a.tag)).length := by
    rw [List.length_zip]; exact lt_min hlen hb
  rw [binary, result_lane _ _ _ (by rwa [List.length_map]), getD_map_lt _ _ e _ (0, lane 0) hzip,
    getD_zip_lt _ _ e _ 0 (lane 0) hlen hb]

/-- A bitwise result: lane e comes from the codes of lane e of a and of b. -/
theorem bitwise_lane (f : Nat → Nat → Nat) : (bitwise y f).vals.getD e 0 =
    signedOf (f (codeOf ((y.a.lanes y.w).getD e 0) y.bits) (codeOf ((y.b.lanes y.w).getD e 0) y.bits)) y.bits := by
  have ha : e < (y.a.lanes y.w).length := by rwa [lanes_length]
  have hb : e < (y.b.lanes y.w).length := by rwa [lanes_length]
  have hzip : e < ((y.a.lanes y.w).zip (y.b.lanes y.w)).length := by
    rw [List.length_zip]; exact lt_min ha hb
  rw [bitwise, result_lane _ _ _ (by rwa [List.length_map]), getD_map_lt _ _ e _ (0, 0) hzip, getD_zip_lt _ _ e _ 0 0 ha hb, lane]

theorem productTags_block : (productTags y).getD (e / 32) 0 =
    y.a.tag (e / 32) + y.b.tag (e / 32) + (y.i.ext % 64 : Nat) := by
  have hblock : e / 32 < y.nb := block_lt he
  rw [productTags, getD_map_lt _ _ _ _ 0 (by rwa [List.length_range]), getD_range_lt _ _ _ hblock]

theorem productLanes_lane : (productLanes y).getD e (lane 0) =
    tagLane (lane (roundRne ((y.a.lanes y.w).getD e 0 * (y.b.lanes y.w).getD e 0) (y.i.ext % 64)))
      (y.a.tag (e / 32) + y.b.tag (e / 32) + (y.i.ext % 64 : Nat)) y.bits := by
  have ha : e < (y.a.lanes y.w).length := by rwa [lanes_length]
  have hb : e < (y.b.lanes y.w).length := by rwa [lanes_length]
  have hzip : e < ((y.a.lanes y.w).zip (y.b.lanes y.w)).length := by
    rw [List.length_zip]; exact lt_min ha hb
  have hidx : e < (((y.a.lanes y.w).zip (y.b.lanes y.w)).zip
      (List.range ((y.a.lanes y.w).zip (y.b.lanes y.w)).length)).length := by
    rw [List.length_zip, List.length_range]; exact lt_min hzip hzip
  rw [productLanes, getD_map_lt _ _ e _ ((0, 0), 0) hidx, getD_zip_lt _ _ e _ (0, 0) 0 hzip (by rwa [List.length_range]),
    getD_range_lt _ e 0 hzip, getD_zip_lt _ _ e _ 0 0 ha hb, productTags_block y he]

theorem slMul_lane : (slMul y).vals.getD e 0 = (fitLane y.i.sat ((productLanes y).getD e (lane 0)) y.bits).v := by
  have hlen : e < (productLanes y).length := by rwa [productLanes_length]
  rw [slMul, result_lane _ _ _ (by rwa [List.length_map]), getD_map_lt _ _ e _ (lane 0) hlen]

theorem slSel_lane : (slSel y).vals.getD e 0 = (if (y.c.lanes y.w).getD e 0 ≠ 0 then (y.a.lanes y.w).getD e 0
    else ((y.b.aligned y.w y.a.tag).getD e (lane 0)).v) := by
  have ha : e < (y.a.lanes y.w).length := by rwa [lanes_length]
  have hb : e < (y.b.aligned y.w y.a.tag).length := by rwa [aligned_length]
  have hc : e < (y.c.lanes y.w).length := by rwa [lanes_length]
  have hab : e < ((y.a.lanes y.w).zip (y.b.aligned y.w y.a.tag)).length := by
    rw [List.length_zip]; exact lt_min ha hb
  have habc : e < (((y.a.lanes y.w).zip (y.b.aligned y.w y.a.tag)).zip (y.c.lanes y.w)).length := by
    rw [List.length_zip]; exact lt_min hab hc
  rw [slSel, result_lane _ _ _ (by rwa [List.length_map]), getD_map_lt _ _ e _ ((0, lane 0), 0) habc,
    getD_zip_lt _ _ e _ (0, lane 0) 0 hab hc, getD_zip_lt _ _ e _ 0 (lane 0) ha hb]

theorem slAlign_lane : (slAlign y).vals.getD e 0 =
    ((y.a.aligned y.w (fun _ => signedOf (y.i.imm % 1024) 10)).getD e (lane 0)).v :=
  result_lane _ _ _ (by rwa [aligned_length])

theorem slGetf_lane : (slGetf y).vals.getD e 0 = (tgetD y.flags e 0 : Nat) := by
  rw [slGetf, result_lane _ _ _ (by simpa using he), getD_map_lt _ _ e _ 0 (by rwa [List.length_range]),
    getD_range_lt _ e 0 he, lane]

theorem cvtNarrow_lane (d q : Nat) : (cvtNarrow y d q).vals.getD e 0 =
    (clampLane (lane ((y.a.lanes y.w).getD e 0)) (laneBits d)).v := by
  have ha : e < (y.a.lanes y.w).length := by rwa [lanes_length]
  show (((y.a.lanes y.w).map fun v => clampLane (lane v) (laneBits d)).map (·.v)).getD e 0 = _
  rw [getD_map_lt _ _ e _ (lane 0) (by rwa [List.length_map]), getD_map_lt _ _ e _ 0 ha]

end

theorem truth_of (p : Prop) [Decidable p] : truth (decide p) = if p then -1 else 0 := by
  by_cases h : p <;> simp [truth, h]

theorem slCvt_narrows (y : SlateIn) (h : laneBits (y.i.ext % 4) < y.bits) :
    slCvt y = cvtNarrow y (y.i.ext % 4) (bitsAt y.i.ext 2 2) := if_pos h

theorem slRcpw_bad (y : SlateIn) (h : y.ws.value ≤ 0) :
    (slRcpw y).rcpBad = true ∧ (slRcpw y).vals = List.replicate 128 0x3FFFFFFF := by
  rw [slRcpw, if_pos h]
  exact ⟨rfl, by rw [result_vals, List.map_replicate]⟩

theorem slLut_unloaded (y : SlateIn) (h : y.slot = none) :
    (slLut y).tableBad = true ∧ (slLut y).poison = List.replicate y.nb true := by
  rw [slLut, h]
  exact ⟨rfl, rfl⟩

/-- The row sum starts from 0 at the tag of block 0 where mod is set, and otherwise from the row sum that is there. -/
theorem slRsum_value (y : SlateIn) : (slRsum y).w.value =
    wrapInt ((y.a.aligned y.w (fun _ => (if y.i.mod then y.a.tag 0 else y.wd.tag))).foldl
      (fun (v : Int) (l : Lane) => v + l.v) (if y.i.mod then 0 else y.wd.value)) 64 := by
  cases hmod : y.i.mod <;> simp only [slRsum, hmod] <;> rfl

/-- Settles O32: the rule of the instruction's operands, read at lane e. -/
theorem slateResults : Obligations.SlateResults := by
  unfold Obligations.SlateResults
  rintro y e a b c al bl he rfl rfl rfl rfl rfl
  have hcmpeq := (binary_lane y he (zeroTags y) (fun a b => truth (a == b)) noFit).trans
    (truth_of ((y.a.lanes y.w).getD e 0 = ((y.b.aligned y.w y.a.tag).getD e (lane 0)).v))
  refine ⟨unary_lane y he _, binary_lane y he _ _ _, binary_lane y he _ _ _, ?mul, rfl, unary_lane y he _, unary_lane y he _,
    binary_lane y he _ _ _, binary_lane y he _ _ _, unary_lane y he _, unary_lane y he _, unary_lane y he _,
    bitwise_lane y he _, bitwise_lane y he _, bitwise_lane y he _, unary_lane y he _, hcmpeq,
    (binary_lane y he _ _ _).trans (truth_of _), (binary_lane y he _ _ _).trans (truth_of _), slSel_lane y he, slAlign_lane y he,
    rfl, unary_lane y he (fun _ e => lane (fitFree y.w (y.a.tag (e / 32)))), unary_lane y he (fun v _ => lane v), rfl, slGetf_lane y he, rfl, ?cvt, slRsum_value y, slRcpw_bad y, slLut_unloaded y,
    rfl, rfl, rfl, rfl⟩
  case mul => rw [slMul_lane y he, productLanes_lane y he]
  case cvt =>
    intro hnarrow
    rw [slCvt_narrows y hnarrow]
    exact ⟨cvtNarrow_lane y he _ _, rfl⟩

end Sys2Proof.Machine
end

