-- ==== Sys2Proof/Proofs/CoreRules.lean ====
section
/-! Rules of the general cores: the registers of a core after a write, the issue of an instruction that is ready, and what a
result leaves (06 R174-R177). -/

namespace Sys2Proof.Machine

/-! Registers of a core. -/

theorem get_put (c : CoreSt) (r q : Nat) (v : Word) :
    (c.put r v).get q = if q = r then (if r = 0 then 0 else v) else c.get q := by
  unfold CoreSt.put CoreSt.get
  by_cases hr : r = 0
  · rw [if_pos hr, if_pos hr]
    by_cases hq : q = r
    · rw [if_pos (hq.trans hr), if_pos hq]
    · rw [if_neg hq]
  · rw [if_neg hr, if_neg hr]
    by_cases hq : q = r
    · rw [if_neg (hq ▸ hr), if_pos hq, tgetD_tset, if_pos hq]
    · simp only [tgetD_tset, if_neg hq]

theorem modCore_congr {s : State} {g : Nat} {f f' : CoreSt → CoreSt} (h : f (s.core g) = f' (s.core g)) :
    s.modCore g f = s.modCore g f' := by
  have htab : tmod s.cores g core0 f = tmod s.cores g core0 f' := congrArg (tput s.cores g) h
  rw [State.modCore, State.modCore, htab]

theorem core_modCore_same (s : State) (g : Nat) (f : CoreSt → CoreSt) : (s.modCore g f).core g = f (s.core g) :=
  (core_modCore s g g f).trans (if_pos rfl)

theorem core_modCore_other (s : State) {g h : Nat} (f : CoreSt → CoreSt) (hne : h ≠ g) : (s.modCore g f).core h = s.core h :=
  (core_modCore s g h f).trans (if_neg hne)

/-! A result. -/

/-- The core of a result: the register, its cycle, the next issue and the next address. -/
theorem result_core (u : State) (x : Issued) (r : Nat) (v : Word) (a n : Nat) :
    (u.result x r v a n).core x.g = { (u.core x.g).put r v with
      ready := (if r = 0 then (u.core x.g).ready else tput (u.core x.g).ready r (x.t + a)), issue := x.t + n,
      pc := (((u.core x.g).put r v).pc + 4) % 2 ^ 32 } := by
  rw [State.result, State.goOn, core_modCore_same, core_modCore_same]

theorem put_pc (c : CoreSt) (r : Nat) (v : Word) : (c.put r v).pc = c.pc := by
  unfold CoreSt.put
  split_ifs <;> rfl

theorem result_pc (u : State) (x : Issued) (r : Nat) (v : Word) (a n : Nat) :
    ((u.result x r v a n).core x.g).pc = ((u.core x.g).pc + 4) % 2 ^ 32 := by
  rw [result_core, put_pc]

theorem result_issue (u : State) (x : Issued) (r : Nat) (v : Word) (a n : Nat) :
    ((u.result x r v a n).core x.g).issue = x.t + n := by
  rw [result_core]

theorem result_get (u : State) (x : Issued) (r q : Nat) (v : Word) (a n : Nat) :
    ((u.result x r v a n).core x.g).get q = if q = r then (if r = 0 then 0 else v) else (u.core x.g).get q := by
  rw [result_core, ← get_put]
  rfl

theorem result_readyAt (u : State) (x : Issued) {r : Nat} (v : Word) (a n : Nat) (hr : r ≠ 0) :
    ((u.result x r v a n).core x.g).readyAt r = x.t + a := by
  rw [result_core, CoreSt.readyAt, if_neg hr, if_neg hr, tgetD_tput, if_pos rfl]

theorem result_other (u : State) (x : Issued) (r : Nat) (v : Word) (a n : Nat) {h : Nat} (hne : h ≠ x.g) :
    (u.result x r v a n).core h = u.core h := by
  rw [State.result, State.goOn, core_modCore_other _ _ hne, core_modCore_other _ _ hne]

/-! Issue. -/

section
variable {s u : State} {g k w t : Nat} (hready : CoreReady s u g k w t)
include hready

/-- A core that is ready issues the instruction of its word, and no other. -/
theorem onCore_ready (op : Nat) (f : State → Issued → State) : s.onCore g op f = if k = op then f u ⟨g, w, t⟩ else s := by
  obtain ⟨-, hruns, hpast, hpc, herr, rfl, hop, rfl, rfl⟩ := hready
  have hgo : ¬ ((!s.coreRuns g || s.pastDeadline g) = true) := by rw [hruns, hpast]; decide
  rw [State.onCore, if_neg hgo]
  dsimp only
  rw [if_neg (Nat.not_le.2 hpc), hop]
  split
  · exact absurd ‹_› herr
  · rfl

theorem onCore_issues (op : Nat) (f : State → Issued → State) (hk : k = op) : s.onCore g op f = f u ⟨g, w, t⟩ :=
  (onCore_ready hready op f).trans (if_pos hk)

theorem onCore_other (op : Nat) (f : State → Issued → State) (hk : k ≠ op) : s.onCore g op f = s :=
  (onCore_ready hready op f).trans (if_neg hk)

/-- The issue of an instruction changes the cycle and the error counts of the core alone. -/
theorem ready_loads : ∃ v, LoadsOnly (· = GC_ERRORS g) s v ∧ u = { v with cyc := 2 * t % 4096 } := by
  obtain ⟨-, -, -, -, -, -, -, -, rfl⟩ := hready
  exact ⟨_, .ite (LoadsOnly.incF (A := (· = GC_ERRORS g)) (.refl _ s) rfl _ _) (.refl _ s), rfl⟩

theorem ready_core (h : Nat) : u.core h = s.core h := by
  obtain ⟨v, hloads, rfl⟩ := ready_loads hready
  exact core_congr (congrArg (·.cores) hloads.1) h

theorem ready_mem : u.mem = s.mem := by
  obtain ⟨v, hloads, rfl⟩ := ready_loads hready
  exact congrArg (·.mem) hloads.1

theorem ready_reg {a : Nat} (ha : a ≠ GC_ERRORS g) : u.reg a = s.reg a := by
  obtain ⟨v, hloads, rfl⟩ := ready_loads hready
  exact hloads.2 a ha

end

end Sys2Proof.Machine
end

