-- ==== Sys2Proof/Proofs/CoreArithmetic.lean ====
section
/-! The arithmetic instructions of a general core (06 R179, R180). -/

namespace Sys2Proof.Machine

/-! Comparisons by the values of the words. -/

theorem wBool_slt (a b : Word) : wBool (a.slt b) = if a.toInt < b.toInt then 1 else 0 := by
  simp [wBool, BitVec.slt]

theorem wBool_ult (a b : Word) : wBool (a.ult b) = if a.toNat < b.toNat then 1 else 0 := by
  simp [wBool, BitVec.ult]

theorem ite_slt (a b x y : Word) : (if a.slt b = true then x else y) = if a.toInt < b.toInt then x else y := by
  simp [BitVec.slt]

theorem signedOf_lt (v : Nat) : -(2 ^ 13) ≤ signedOf v 14 ∧ signedOf v 14 < 2 ^ 13 := by
  unfold signedOf bitSet bitAt
  split_ifs with h
  all_goals
    simp only [beq_iff_eq] at h
    omega

/-- A signed immediate keeps its value in a register. -/
theorem immS_toInt (i : Nat) : (immS i).toInt = signedOf i 14 := by
  have hrange := signedOf_lt i
  rw [immS, BitVec.toInt_ofInt, Int.bmod_eq_of_le] <;> omega

section
variable {s u : State} {g k w t : Nat} (hready : CoreReady s u g k w t)
include hready

/-- A register operation issues with its function of ra and rb. -/
theorem chalkA_row {c : Instr} {fn avail n : Nat} {h : Word → Word → Word} (hexec : exec c s = live s (s.chalkA g fn h avail n)) :
    (k = 0x100 + fn → exec c s = .next (u.result ⟨g, w, t⟩ (ckRd w)
      (h ((s.core g).get (ckRa w)) ((s.core g).get (ckRb w))) avail n)) ∧
    (k ≠ 0x100 + fn → exec c s = .next s) := by
  refine ⟨fun hk => hexec.trans (live_next hready.1 ?_), fun hk => hexec.trans (live_next hready.1 (onCore_other hready _ _ hk))⟩
  rw [State.chalkA, onCore_issues hready (ckAlu fn) _ hk]
  simp only [ready_core hready]

/-- An immediate operation issues with its function of ra and the immediate. -/
theorem chalkB_row {c : Instr} {op : Nat} {h : Word → Nat → Word} (hexec : exec c s = live s (s.chalkB g op h)) :
    (k = op → exec c s = .next (u.result ⟨g, w, t⟩ (ckRd w) (h ((s.core g).get (ckRa w)) (bitsAt w 18 14)) 1 1)) ∧
    (k ≠ op → exec c s = .next s) := by
  refine ⟨fun hk => hexec.trans (live_next hready.1 ?_), fun hk => hexec.trans (live_next hready.1 (onCore_other hready _ _ hk))⟩
  rw [State.chalkB, onCore_issues hready _ _ hk]
  simp only [ready_core hready]
  rfl

/-- What a result leaves in the registers and the timing of the cores. -/
theorem result_leaves (r : Nat) (v : Word) (a n : Nat) :
    (u.result ⟨g, w, t⟩ r v a n) = { u with cores := (u.result ⟨g, w, t⟩ r v a n).cores } ∧
      ((u.result ⟨g, w, t⟩ r v a n).core g).pc = ((s.core g).pc + 4) % 2 ^ 32 ∧
      ((u.result ⟨g, w, t⟩ r v a n).core g).issue = t + n ∧
      ((u.result ⟨g, w, t⟩ r v a n).core g).get r = (if r = 0 then 0 else v) ∧
      (r ≠ 0 → ((u.result ⟨g, w, t⟩ r v a n).core g).readyAt r = t + a) ∧
      (∀ q, q ≠ r → ((u.result ⟨g, w, t⟩ r v a n).core g).get q = (s.core g).get q) ∧
      ∀ h, h ≠ g → (u.result ⟨g, w, t⟩ r v a n).core h = s.core h := by
  refine ⟨rfl, ?_, result_issue u ⟨g, w, t⟩ r v a n, ?_, result_readyAt u ⟨g, w, t⟩ v a n, fun q hq => ?_, fun h hne => ?_⟩
  · rw [← ready_core hready g]
    exact result_pc u ⟨g, w, t⟩ r v a n
  · exact (result_get u ⟨g, w, t⟩ r r v a n).trans (if_pos rfl)
  · rw [← ready_core hready g]
    exact (result_get u ⟨g, w, t⟩ r q v a n).trans (if_neg hq)
  · rw [← ready_core hready h]
    exact result_other u ⟨g, w, t⟩ r v a n hne

end

theorem bellCountLo_ne_gcErrors (g : Nat) : BELL_COUNT_LO ≠ GC_ERRORS g := by
  unfold BELL_COUNT_LO GC_ERRORS
  omega

/-- Settles O33: every row is a register or an immediate operation with its number. -/
theorem coreArithmetic : Obligations.CoreArithmetic := by
  unfold Obligations.CoreArithmetic
  intro s u g k w t hready
  refine ⟨fun row hmem => chalkA_row hready ?alu, fun row hmem => chalkB_row hready ?imm,
    fun hk => live_next hready.1 (onCore_issues hready _ _ hk), fun hk => live_next hready.1 (onCore_issues hready _ _ hk),
    fun hk => live_next hready.1 ?bell, fun hk => live_next hready.1 (onCore_issues hready _ _ hk), result_leaves hready⟩
  case alu =>
    revert row
    simp only [List.forall_mem_cons]
    refine ⟨rfl, rfl, rfl, rfl, rfl, rfl, rfl, rfl, ?slt, ?sltu, rfl, rfl, rfl, ?min, ?max, rfl, rfl, rfl, rfl, rfl,
      List.forall_mem_nil _⟩
    case slt => simp only [← wBool_slt]; rfl
    case sltu => simp only [← wBool_ult]; rfl
    case min => simp only [← ite_slt]; rfl
    case max => simp only [← ite_slt]; rfl
  case imm =>
    revert row
    simp only [List.forall_mem_cons]
    refine ⟨rfl, rfl, rfl, rfl, rfl, rfl, rfl, ?slti, List.forall_mem_nil _⟩
    simp only [← immS_toInt, ← wBool_slt]
    rfl
  case bell =>
    rw [onCore_issues hready (ckSys 3) _ hk, ready_reg hready (bellCountLo_ne_gcErrors g)]

end Sys2Proof.Machine
end

