-- ==== Sys2Proof/Proofs/CoreMemory.lean ====
section
/-! Loads and stores of a general core: the area an address leads to, and the windows of the tile buffer (06 R175-R178, R192,
R193). -/

namespace Sys2Proof.Machine

/-! Areas. -/

theorem coreArea_local {a : Nat} (h : a < 0x8000) : coreArea a = .localMem a := if_pos h

theorem coreArea_buffer {a : Nat} (hlo : 0x400000 ≤ a) (hhi : a < 0x800000) : coreArea a = .buffer (a - 0x400000) := by
  have hin : (decide (0x400000 ≤ a) && decide (a < 0x800000)) = true := by simp [hlo, hhi]
  rw [coreArea, if_neg (by omega), if_pos hin]

theorem coreArea_patchNow {a : Nat} (hlo : 0x1000000 ≤ a) (hhi : a < 0x1004000) :
    coreArea a = .patchNow ((a - 0x1000000) / 4) := by
  have hbuf : ¬ (decide (0x400000 ≤ a) && decide (a < 0x800000)) = true := by simp; omega
  have hin : (decide (0x1000000 ≤ a) && decide (a < 0x1004000)) = true := by simp [hlo, hhi]
  rw [coreArea, if_neg (by omega), if_neg hbuf, if_pos hin]

theorem coreArea_patchNext {a : Nat} (hlo : 0x1010000 ≤ a) (hhi : a < 0x1014000) :
    coreArea a = .patchNext ((a - 0x1010000) / 4) := by
  have hbuf : ¬ (decide (0x400000 ≤ a) && decide (a < 0x800000)) = true := by simp; omega
  have hnow : ¬ (decide (0x1000000 ≤ a) && decide (a < 0x1004000)) = true := by simp; omega
  have hin : (decide (0x1010000 ≤ a) && decide (a < 0x1014000)) = true := by simp [hlo, hhi]
  rw [coreArea, if_neg (by omega), if_neg hbuf, if_neg hnow, if_pos hin]

theorem coreArea_unmapped {a : Nat} (hlo : 0x8000 ≤ a) (hhi : a < 0x400000) : coreArea a = .none := by
  have hbuf : ¬ (decide (0x400000 ≤ a) && decide (a < 0x800000)) = true := by simp; omega
  have hnow : ¬ (decide (0x1000000 ≤ a) && decide (a < 0x1004000)) = true := by simp; omega
  have hnext : ¬ (decide (0x1010000 ≤ a) && decide (a < 0x1014000)) = true := by simp; omega
  rw [coreArea, if_neg (by omega), if_neg hbuf, if_neg hnow, if_neg hnext]

/-! A load or store that its core issues. -/

/-- A load of an aligned address, by the area it leads to. -/
def State.loadArea (u : State) (x : Issued) (a bytes : Nat) (signed : Bool) : CoreArea → State
  | .localMem off => u.localLoad x off bytes signed
  | .buffer off => u.modCore x.g (fun c => { c with tb := some ⟨false, off, bytes, signed, ckRd x.w, 0, windowAt x.g x.t⟩ })
  | .patchNow _ => u.result x (ckRd x.w) 0 2 1
  | .patchNext _ => u.result x (ckRd x.w) 0 2 1
  | .none => u.trap x.g x.t trUNMAPPED (some a)

/-- A store of a value to an aligned address, by the area it leads to. -/
def State.storeArea (u : State) (x : Issued) (a bytes v : Nat) : CoreArea → State
  | .localMem off => u.localStore x off bytes v
  | .buffer off => u.bufferStore x off bytes v
  | .patchNow i => if bytes = 4 then u.patchCurrent x a i v else u.trap x.g x.t trUNMAPPED (some a)
  | .patchNext i => if bytes = 4 then u.patchBuffer x a i v else u.trap x.g x.t trUNMAPPED (some a)
  | .none => u.trap x.g x.t trUNMAPPED (some a)

theorem storeArea_patchNow (u : State) (x : Issued) (a v i : Nat) :
    u.storeArea x a 4 v (.patchNow i) = u.patchCurrent x a i v := rfl

theorem storeArea_patchNext (u : State) (x : Issued) (a v i : Nat) :
    u.storeArea x a 4 v (.patchNext i) = u.patchBuffer x a i v := rfl

section
variable {s u : State} {g k w t a : Nat} (hready : CoreReady s u g k w t) (ha : a = u.coreAddr ⟨g, w, t⟩)
include hready ha

theorem chalkLoad_aligned {op bytes : Nat} (signed : Bool) (hk : k = op) (halign : a % bytes = 0) :
    s.chalkLoad g op bytes signed = u.loadArea ⟨g, w, t⟩ a bytes signed (coreArea a) := by
  subst ha
  rw [State.chalkLoad, onCore_issues hready _ _ hk]
  refine (if_neg (not_not.2 halign)).trans ?_
  cases coreArea (u.coreAddr ⟨g, w, t⟩) <;> rfl

theorem chalkLoad_misaligned {op bytes : Nat} (signed : Bool) (hk : k = op) (halign : a % bytes ≠ 0) :
    s.chalkLoad g op bytes signed = u.trap g t trMISALIGNED (some a) := by
  subst ha
  rw [State.chalkLoad, onCore_issues hready _ _ hk]
  exact if_pos halign

theorem chalkStore_aligned {op bytes : Nat} (hk : k = op) (halign : a % bytes = 0) :
    s.chalkStore g op bytes =
      u.storeArea ⟨g, w, t⟩ a bytes (((s.core g).get (ckRd w)).toNat % 2 ^ (8 * bytes)) (coreArea a) := by
  subst ha
  rw [State.chalkStore, onCore_issues hready _ _ hk, ← ready_core hready g]
  refine (if_neg (not_not.2 halign)).trans ?_
  cases coreArea (u.coreAddr ⟨g, w, t⟩) <;> rfl

theorem chalkStore_misaligned {op bytes : Nat} (hk : k = op) (halign : a % bytes ≠ 0) :
    s.chalkStore g op bytes = u.trap g t trMISALIGNED (some a) := by
  subst ha
  rw [State.chalkStore, onCore_issues hready _ _ hk]
  exact if_pos halign

end

/-- A load from a word of local memory without poison or a stored error. -/
theorem localLoad_clean (u : State) (x : Issued) {off bytes : Nat} (signed : Bool) (hbad : lmPoisoned u.mem (lmAddr x.g off) = false)
    (herr : tgetD u.mem.lmErr (lmAddr x.g off / 4) 0 = 0) : u.localLoad x off bytes signed =
      u.result x (ckRd x.w) (extend bytes (leVal (memRead u.mem (lmAddr x.g off) bytes)) signed) 2 1 := by
  rw [State.localLoad]
  simp only [herr, hbad]
  rfl

theorem localStore_high (u : State) (x : Issued) {off bytes v : Nat} (h : 0x1000 ≤ off) : u.localStore x off bytes v =
    (u.lmStoreAt (lmAddr x.g off) (leBytes bytes v) (u.tainted x.g)).nextInstr x (if bytes = 4 then 1 else 2) := by
  have hlow : ¬ (decide (off < 0x1000) && !u.flag (GC_STATUS x.g) GC_STATUS_runtime) = true := by
    rw [decide_eq_false (Nat.not_lt.2 h)]
    exact Bool.false_ne_true
  exact if_neg hlow

theorem localStore_protected (u : State) (x : Issued) {off bytes v : Nat} (h : off < 0x1000)
    (hrun : u.flag (GC_STATUS x.g) GC_STATUS_runtime = false) :
    u.localStore x off bytes v = u.trap x.g x.t trPROTECTED (some off) := by
  have hlow : (decide (off < 0x1000) && !u.flag (GC_STATUS x.g) GC_STATUS_runtime) = true := by
    rw [decide_eq_true h, hrun]
    rfl
  exact if_pos hlow

theorem bufferStore_waits (u : State) (x : Issued) {off bytes v : Nat}
    (h : (List.range bytes).any (fun i => u.areaOffset (off + i) || u.shadowOffset (off + i)) = false) :
    u.bufferStore x off bytes v =
      u.modCore x.g (fun c => { c with tb := some ⟨true, off, bytes, false, 0, v, windowAt x.g x.t⟩ }) := by
  rw [State.bufferStore, h]
  rfl

theorem patchBuffer_queues (u : State) (x : Issued) {a i v : Nat} (htaint : u.tainted x.g = false)
    (hroom : (u.tile (x.g / 64)).nextPatches.length < 64) : u.patchBuffer x a i v =
      let r := u.modTile (x.g / 64) (fun y => { y with nextPatches := y.nextPatches ++ [⟨i, v, 0, 0⟩] })
      (r.setF (GC_PATCH_LT (x.g / 64)) GC_PATCH_LT_pending (r.tile (x.g / 64)).nextPatches.length).nextInstr x 1 := by
  rw [State.patchBuffer, htaint]
  exact if_neg (Nat.not_le.2 hroom)

theorem patchCurrent_lands (u : State) (x : Issued) {a i v : Nat} (htaint : u.tainted x.g = false)
    (hpass : isOverwritePass (armedProgram (u.tile (x.g / 64))) i = true) : u.patchCurrent x a i v =
      (u.modTile (x.g / 64) (fun y => { y with
        curPatches := y.curPatches ++ [⟨i, v, (u.crsOf (u.partOfLt (x.g / 64))).lessonBell, 2 * (x.t + 2)⟩] })).nextInstr x 1 := by
  rw [State.patchCurrent]
  simp only [htaint, hpass]
  rfl

/-- What a store to local memory leaves: its bytes, and the counts of the read that a part of a word needs. -/
theorem lmStoreAt_leaves (u : State) (b : Nat) (data : List Byte) (p : Bool) :
    (u.lmStoreAt b data p).mem = lmStoreBytes u.mem b data p ∧
      u.lmStoreAt b data p = { u with mem := (u.lmStoreAt b data p).mem, regs := (u.lmStoreAt b data p).regs } ∧
      ((data.length = 4 ∨ tgetD u.mem.lmErr (b / 4) 0 = 0) → (u.lmStoreAt b data p).regs = u.regs) ∧
      (data.length ≠ 4 → tgetD u.mem.lmErr (b / 4) 0 = 1 →
        (u.lmStoreAt b data p).regs = (u.incF (GC_ERRORS ((b - lmBase) / 0x8000)) GC_ERRORS_lm_corrected 1).regs) := by
  have hquiet : (if data.length = 4 then 0 else tgetD u.mem.lmErr (b / 4) 0) = 0 →
      u.lmStoreAt b data p = { u with mem := lmStoreBytes u.mem b data p } := fun he => by
    simp only [State.lmStoreAt, he]
    rfl
  refine ⟨?mem, ?frame, fun h => ?whole, fun hpart herr => ?part⟩
  case mem =>
    simp only [State.lmStoreAt]
    split_ifs <;> rfl
  case frame =>
    simp only [State.lmStoreAt]
    split_ifs <;> rfl
  case whole =>
    rw [hquiet]
    rcases h with hlen | herr
    · exact if_pos hlen
    · rw [herr, ite_self]
  case part =>
    simp only [State.lmStoreAt, if_neg hpart, herr]
    rfl

/-! The windows of the tile buffer. -/

theorem tileReg_low {lt a : Nat} (h : a < ARI_SUMMARY) : tileReg lt a = false := by
  unfold ARI_SUMMARY at h
  have hevent : eventReg a = false := eventReg_low (by unfold EVT_RING_TAIL; omega)
  have hunit : a ∉ [TB_ERRORS_LT lt, TB_FAULT_LT lt, TB_READS_LT lt, MXE_ERRORS_LT lt, MXE_STATUS_LT lt, MXE_PROGRESS_LT lt,
      VE_ERRORS_LT lt, VE_STATUS_LT lt, VE_PROGRESS_LT lt, ARI_FLAGS_LT lt] := by
    simp only [List.mem_cons, List.not_mem_nil, or_false, not_or, TB_ERRORS_LT, TB_FAULT_LT, TB_READS_LT, MXE_ERRORS_LT,
      MXE_STATUS_LT, MXE_PROGRESS_LT, VE_ERRORS_LT, VE_STATUS_LT, VE_PROGRESS_LT, ARI_FLAGS_LT]
    omega
  have hperf : (List.range 4).any (fun p => (List.range 8).any fun k => a == PERF_LO p k || a == PERF_HI p k) = false := by
    simp only [List.any_eq_false, PERF_LO, PERF_HI]
    intro p _ hk
    rw [List.any_eq_true] at hk
    obtain ⟨k, _, hk⟩ := hk
    simp only [Bool.or_eq_true, beq_iff_eq] at hk
    omega
  rw [tileReg, hevent, hperf, List.contains_eq_mem, decide_eq_false hunit, beq_eq_false_iff_ne.2 (by unfold ARI_SUMMARY; omega),
    beq_eq_false_iff_ne.2 (by unfold ARI_FIRST; omega)]
  rfl

/-- What the engines of a tile have done leaves every core's access where it waits. -/
theorem windowAccess_within {lt : Nat} {s v : State} (h : WithinTile lt s v) {q : Nat} (hq : q / 64 < 256) (x : Nat) :
    v.windowAccess q x = s.windowAccess q x := by
  obtain ⟨hframe, -, -, -, hregs⟩ := h
  have hseat : v.reg (STK_SEAT_LT (q / 64)) = s.reg (STK_SEAT_LT (q / 64)) :=
    hregs _ (tileReg_low (by unfold STK_SEAT_LT ARI_SUMMARY; omega))
  have hpresent : v.present (q / 64) = s.present (q / 64) := by
    rw [State.present, State.present, State.seatIdx, State.seatIdx, State.getF, State.getF, hseat]
  have hcore : v.core q = s.core q := core_congr (congrArg (·.cores) hframe) q
  rw [State.windowAccess, State.windowAccess, hpresent, hcore]

theorem windowAccess_none {s : State} {q : Nat} (h : (s.core q).tb = none) (x : Nat) : s.windowAccess q x = none := by
  rw [State.windowAccess, h]
  split_ifs <;> rfl

theorem result_tb (u : State) (x : Issued) (r : Nat) (v : Word) (a n : Nat) :
    ((u.result x r v a n).core x.g).tb = (u.core x.g).tb := by
  rw [result_core]
  unfold CoreSt.put
  split_ifs <;> rfl

/-- A load in its window is over. -/
theorem windowLoad_tb (s : State) (g t : Nat) (a : TbAccess) : ((s.windowLoad g t a).core g).tb = none := by
  refine (result_tb _ ⟨g, 0, t⟩ _ _ _ _).trans ?_
  rw [core_modCore_same]

theorem windowStore_tile (s : State) (g t : Nat) (a : TbAccess) {n : Nat} (hn : n ≠ g / 64) :
    (s.windowStore g t a).tile n = s.tile n :=
  (tile_modTile s (g / 64) n (fun y => { y with
    uses := y.uses ++ useEntries s.mem (g / 64) (2 * t) 4 0 a.off a.bytes none [] })).trans (if_neg hn)

/-- One access that waits in a window, a load or a store. -/
def State.serveOne (v : State) (q x : Nat) (acc : TbAccess) : State :=
  if acc.isStore then v.windowStore q x acc else v.windowLoad q x acc

theorem serveOne_load (v : State) (q x : Nat) {acc : TbAccess} (h : acc.isStore = false) :
    v.serveOne q x acc = v.windowLoad q x acc := by
  rw [State.serveOne, h]
  rfl

theorem serveOne_store (v : State) (q x : Nat) {acc : TbAccess} (h : acc.isStore = true) :
    v.serveOne q x acc = v.windowStore q x acc := if_pos h

section
variable {s e v : State} {lt x q : Nat} (hlt : lt < 256) (hq : q / 64 = lt) (he : e = s.engines lt (2 * x))
  (hv : v = { e with cyc := 2 * x % 4096 })
  (honly : (List.range 64).filter (fun c => (s.windowAccess (64 * lt + c) x).isSome && !s.windowLate (64 * lt + c) x) = [q % 64])
include hlt hq he hv honly

/-- A window in which one core alone has an access. -/
theorem tbWindow_one {acc : TbAccess} (hacc : s.windowAccess q x = some acc) : s.tbWindow lt x = v.serveOne q x acc := by
  have hcores : ((List.range 64).map (64 * lt + ·)).filter (fun g => (s.windowAccess g x).isSome && !s.windowLate g x) = [q] := by
    rw [List.filter_map]
    refine (congrArg (List.map (64 * lt + ·)) honly).trans ?_
    rw [List.map_singleton, ← hq, Nat.div_add_mod]
  have hwithin : WithinTile lt s v := by
    rw [hv, he]
    exact (engines_within s lt hlt (2 * x)).cyc _
  have hsame : v.windowAccess q x = some acc := (windowAccess_within hwithin (by omega) x).trans hacc
  rw [State.tbWindow, hcores, ← he, ← hv]
  simp only [forEach, List.foldl_cons, List.foldl_nil, hsame]
  cases hstore : acc.isStore with
  | true => simp only [State.serveOne, hstore, Bool.true_eq_false, if_false, if_true, hsame]
  | false =>
    simp only [State.serveOne, hstore, Bool.false_eq_true, if_false, if_true, windowAccess_none (windowLoad_tb v q x acc) x]

end

/-- Settles O34: the area an address leads to decides what a load or a store is. -/
theorem coreMemory : Obligations.CoreMemory := by
  unfold Obligations.CoreMemory
  intro s u g k w t a hready ha
  have hon := hready.1
  have hmem : u.mem = s.mem := ready_mem hready
  have hcore : u.core g = s.core g := ready_core hready g
  refine ⟨fun row hrow hk => ?loads, fun row hrow hk => ?stores, fun b data p v hv => ?word,
    fun hk halign hlo hhi htaint hroom => live_next hon ?next, fun hk halign hlo hhi htaint hpass => live_next hon ?now,
    fun lt x q e v hlt halive hq he hv honly => ?window⟩
  case loads =>
    have hexec : exec row.1 s = live s (s.chalkLoad g row.2.1 row.2.2.1 row.2.2.2) := by
      revert row
      simp only [List.forall_mem_cons]
      exact ⟨fun _ => rfl, fun _ => rfl, fun _ => rfl, fun _ => rfl, fun _ => rfl, List.forall_mem_nil _⟩
    have haligned := fun halign => chalkLoad_aligned hready ha (bytes := row.2.2.1) row.2.2.2 hk halign
    refine ⟨fun halign hlow hclean herr => ?_, fun halign hlo hhi => ?_, fun halign hpatch => ?_, fun halign hlo hhi => ?_,
      fun halign => ?_⟩
    all_goals refine hexec.trans (live_next hon ?_)
    · rw [← hmem] at hclean herr ⊢
      rw [haligned halign, coreArea_local hlow]
      exact localLoad_clean u ⟨g, w, t⟩ _ hclean herr
    · rw [haligned halign, coreArea_buffer hlo hhi]
      rfl
    · rw [haligned halign]
      rcases hpatch with ⟨hlo, hhi⟩ | ⟨hlo, hhi⟩
      · rw [coreArea_patchNow hlo hhi]
        rfl
      · rw [coreArea_patchNext hlo hhi]
        rfl
    · rw [haligned halign, coreArea_unmapped hlo hhi]
      rfl
    · exact chalkLoad_misaligned hready ha _ hk halign
  case stores =>
    have hexec : exec row.1 s = live s (s.chalkStore g row.2.1 row.2.2) := by
      revert row
      simp only [List.forall_mem_cons]
      exact ⟨fun _ => rfl, fun _ => rfl, fun _ => rfl, List.forall_mem_nil _⟩
    have haligned := fun halign => chalkStore_aligned hready ha (bytes := row.2.2) hk halign
    refine ⟨fun halign hlo hhi => ?_, fun halign hlow hrun => ?_, fun halign hlo hhi hfree => ?_, fun halign => ?_⟩
    all_goals refine hexec.trans (live_next hon ?_)
    · rw [haligned halign, coreArea_local hhi]
      exact localStore_high u ⟨g, w, t⟩ hlo
    · rw [haligned halign, coreArea_local (by omega)]
      exact localStore_protected u ⟨g, w, t⟩ hlow hrun
    · rw [haligned halign, coreArea_buffer hlo hhi]
      exact bufferStore_waits u ⟨g, w, t⟩ hfree
    · exact chalkStore_misaligned hready ha hk halign
  case word =>
    subst hv
    exact lmStoreAt_leaves u b data p
  case next =>
    rw [chalkStore_aligned hready ha hk halign, coreArea_patchNext hlo hhi, storeArea_patchNext,
      patchBuffer_queues u ⟨g, w, t⟩ htaint hroom]
  case now =>
    rw [chalkStore_aligned hready ha hk halign, coreArea_patchNow hlo hhi, storeArea_patchNow,
      patchCurrent_lands u ⟨g, w, t⟩ htaint hpass]
  case window =>
    have hexec : exec (.gcTbWindow lt x) s = live s (s.tbWindow lt x) :=
      congrArg (live s) (if_pos (by rw [decide_eq_true hlt, halive]; rfl))
    have hserve := fun acc => tbWindow_one hlt hq he hv honly (acc := acc)
    refine ⟨fun acc m y hacc hload hm hy => hexec.trans (live_next hon ?_), fun acc m hacc hstore hm =>
      gives_of_live hon hexec ?_⟩
    · rw [hserve acc hacc, serveOne_load v q x hload]
      subst hq hm hy
      rfl
    · rw [hserve acc hacc, serveOne_store v q x hstore]
      subst hq hm
      exact ⟨rfl, rfl, rfl, fun n hn => windowStore_tile v q x acc hn⟩

end Sys2Proof.Machine
end

