-- ==== Sys2Proof/Proofs/CoreControl.lean ====
section
/-! Branches, jumps, the system instructions, traps, tasks and their deadlines (06 R177, R180-R183, R189, R190). -/

namespace Sys2Proof.Machine

theorem decide_slt (a b : Word) : a.slt b = decide (a.toInt < b.toInt) := rfl

theorem decide_sge (a b : Word) : (!a.slt b) = decide (b.toInt ≤ a.toInt) := by
  rw [decide_slt, ← decide_not]
  exact decide_eq_decide.2 not_lt

theorem decide_uge (a b : Word) : (!a.ult b) = decide (b.toNat ≤ a.toNat) := by
  rw [BitVec.ult, ← decide_not]
  exact decide_eq_decide.2 not_lt

theorem bne_eq_decide (a b : Word) : (a != b) = decide (a ≠ b) := by
  rw [bne, Bool.beq_eq_decide_eq, ← decide_not]

/-! Traps. -/

/-- The registers of core g after a trap at pc. -/
def State.trapRegs (s : State) (g cause pc a : Nat) : State :=
  ((((s.setF (GC_STATUS g) GC_STATUS_trap_cause cause).setB (GC_STATUS g) GC_STATUS_running false).setB (GC_STATUS g)
    GC_STATUS_runtime true).setF (GC_TRAP_PC g) GC_TRAP_PC_pc pc).setF (GC_TRAP_ADDR g) GC_TRAP_ADDR_addr a

/-- A trap of core g before it is reported: the task has stopped, and the core is in the runtime at address 0. -/
def State.trapped (s : State) (g t cause a : Nat) : State :=
  (({ s with cyc := 2 * t % 4096 } : State).trapRegs g cause (s.core g).pc a).modCore g (fun c =>
    { c with pc := 0, issue := t + 1, tb := none, waitc := none })

theorem trap_trapped (s : State) (g t cause a : Nat) :
    s.trap g t cause (some a) = (s.trapped g t cause a).trapReport g cause (s.core g).pc a := rfl

/-- Registers of core g that a trap loads. -/
def trapReg (g a : Nat) : Prop := a = GC_STATUS g ∨ a = GC_TRAP_PC g ∨ a = GC_TRAP_ADDR g

theorem trapRegs_loads (s : State) (g cause pc a : Nat) : LoadsOnly (trapReg g) s (s.trapRegs g cause pc a) :=
  (((((LoadsOnly.refl (trapReg g) s).setF (.inl rfl) _ _).setB (.inl rfl) _ _).setB (.inl rfl) _ _).setF
    (.inr (.inl rfl)) _ _).setF (.inr (.inr rfl)) _ _

theorem reg_modCore (s : State) (g b : Nat) (f : CoreSt → CoreSt) : (s.modCore g f).reg b = s.reg b := rfl

theorem trapped_reg (s : State) (g t cause a : Nat) {b : Nat} (hb : ¬ trapReg g b) : (s.trapped g t cause a).reg b = s.reg b := by
  rw [State.trapped, reg_modCore]
  exact (trapRegs_loads _ g cause (s.core g).pc a).2 b hb

theorem gcStatus_ne_trapPc (g : Nat) : GC_STATUS g ≠ GC_TRAP_PC g ∧ GC_STATUS g ≠ GC_TRAP_ADDR g := by
  unfold GC_STATUS GC_TRAP_PC GC_TRAP_ADDR
  omega

/-- The status of a core after a trap. -/
theorem trapRegs_status (s : State) (g cause pc a : Nat) :
    (s.trapRegs g cause pc a).getF (GC_STATUS g) GC_STATUS_trap_cause = cause % 2 ^ 8 ∧
      (s.trapRegs g cause pc a).flag (GC_STATUS g) GC_STATUS_runtime = true ∧
      (s.trapRegs g cause pc a).flag (GC_STATUS g) GC_STATUS_running = false := by
  obtain ⟨hpc, haddr⟩ := gcStatus_ne_trapPc g
  rw [State.trapRegs]
  refine ⟨?_, ?_, ?_⟩
  · rw [getF_setF_reg _ _ _ _ haddr, getF_setF_reg _ _ _ _ hpc, State.setB, getF_setF_fld _ _ _ (by decide) (by decide),
      State.setB, getF_setF_fld _ _ _ (by decide) (by decide), getF_setF _ _ _ _ (by decide)]
    rfl
  · rw [flag_setF_reg _ _ _ _ haddr, flag_setF_reg _ _ _ _ hpc, flag_setB _ _ _ (by decide) (by decide)]
  · rw [flag_setF_reg _ _ _ _ haddr, flag_setF_reg _ _ _ _ hpc, State.setB, flag_setF_fld _ _ _ (by decide) (by decide),
      flag_setB _ _ _ (by decide) (by decide)]

theorem trapped_status (s : State) (g t cause a : Nat) :
    (s.trapped g t cause a).getF (GC_STATUS g) GC_STATUS_trap_cause = cause % 2 ^ 8 ∧
      (s.trapped g t cause a).flag (GC_STATUS g) GC_STATUS_runtime = true ∧
      (s.trapped g t cause a).flag (GC_STATUS g) GC_STATUS_running = false := by
  rw [State.trapped, State.flag, State.flag, State.getF, State.getF, State.getF, reg_modCore]
  exact trapRegs_status _ g cause (s.core g).pc a

theorem trapped_core (s : State) (g t cause a : Nat) :
    (s.trapped g t cause a).core g = { s.core g with pc := 0, issue := t + 1, tb := none, waitc := none } :=
  core_modCore_same _ g _

theorem courseGoes_congr {s t : State} {p : Nat} (h : t.reg (BELL_CRS_STATE p) = s.reg (BELL_CRS_STATE p)) :
    t.courseGoes p = s.courseGoes p := by
  have hstate : t.courseState p = s.courseState p := congrArg (fldGet · BELL_CRS_STATE_state) h
  rw [State.courseGoes, State.courseGoes, State.courseRunning, State.courseRunning, hstate]

/-- A halt of a partition whose course does not go changes nothing. -/
theorem declareHalt_idle {s : State} {p : Nat} (h : s.courseGoes p = false) (cause : Nat) : s.declareHalt p cause = s :=
  if_neg (by rw [h]; exact Bool.false_ne_true)

theorem partOfLt_congr {s t : State} (h : t.reg CMD_PART = s.reg CMD_PART) (lt : Nat) : t.partOfLt lt = s.partOfLt lt := by
  have hcount : t.partCount = s.partCount := congrArg (fldGet · CMD_PART_count) h
  rw [State.partOfLt, State.partOfLt, State.partOfField, State.partOfField, hcount]

/-- Where no course goes, a trap is the raising of its event. -/
theorem trap_raises {s : State} {g : Nat} (hg : g < 16384) (hidle : s.courseGoes (s.partOfLt (g / 64)) = false)
    (t cause a : Nat) : s.trap g t cause (some a) = (s.trapped g t cause a).raise evGcTrap
      ((s.trapped g t cause a).partOfLt (g / 64)) 1 (g / 64) (g % 64) cause (s.core g).pc a := by
  have hreg : ∀ b, b < GC_STATUS g → (s.trapped g t cause a).reg b = s.reg b := fun b hb =>
    trapped_reg s g t cause a (by unfold trapReg GC_TRAP_PC GC_TRAP_ADDR; unfold GC_STATUS at hb ⊢; omega)
  have hpart : (s.trapped g t cause a).partOfLt (g / 64) = s.partOfLt (g / 64) := partOfLt_congr (trapped_reg s g t cause a
    (by unfold trapReg CMD_PART GC_STATUS GC_TRAP_PC GC_TRAP_ADDR; omega)) _
  have hp : s.partOfLt (g / 64) < 4 := partOfLt_lt s (by omega)
  rw [trap_trapped, State.trapReport]
  refine declareHalt_idle ?_ _
  rw [hpart, ← hidle]
  refine courseGoes_congr (((reports_raise _ _ _ _ _ _ _ _ (Reports.refl _)).2 _ (eventReg_low ?_)).trans (hreg _ ?_))
  · unfold BELL_CRS_STATE EVT_RING_TAIL
    omega
  · unfold BELL_CRS_STATE GC_STATUS
    omega

/-! Control. -/

section
variable {s u : State} {g k w t : Nat} (hready : CoreReady s u g k w t)
include hready

theorem branch_row {c : Instr} {op : Nat} {h : Word → Word → Bool} (hexec : exec c s = live s (s.branch g op h)) (hk : k = op) :
    exec c s = .next (u.modCore g (fun c => if h ((s.core g).get (ckRd w)) ((s.core g).get (ckRa w)) then
        { c with issue := t + 2, pc := (BitVec.ofNat 32 c.pc + 4 * ckSImm14 w : Word).toNat % 2 ^ 32 }
      else { c with issue := t + 1, pc := (c.pc + 4) % 2 ^ 32 })) := by
  refine hexec.trans (live_next hready.1 ?_)
  rw [State.branch, onCore_issues hready _ _ hk, ← ready_core hready g]
  dsimp only
  split_ifs with htaken
  · exact modCore_congr rfl
  · exact modCore_congr rfl

theorem jump_leaves (target : Word) : (u.jump ⟨g, w, t⟩ target) = { u with cores := (u.jump ⟨g, w, t⟩ target).cores } ∧
    ((u.jump ⟨g, w, t⟩ target).core g).pc = target.toNat ∧ ((u.jump ⟨g, w, t⟩ target).core g).issue = t + 2 ∧
    ((u.jump ⟨g, w, t⟩ target).core g).get (ckRd w) = (if ckRd w = 0 then 0 else BitVec.ofNat 32 ((s.core g).pc + 4)) := by
  have hcore : (u.jump ⟨g, w, t⟩ target).core g = { (u.result ⟨g, w, t⟩ (ckRd w) (BitVec.ofNat 32 ((u.core g).pc + 4)) 1 2).core g
      with issue := t + 2, pc := target.toNat % 2 ^ 32 } := core_modCore_same _ g _
  refine ⟨rfl, ?_, ?_, ?_⟩
  · rw [hcore]
    exact Nat.mod_eq_of_lt target.isLt
  · rw [hcore]
  · rw [hcore, ← ready_core hready g]
    exact (result_get u ⟨g, w, t⟩ _ _ _ 1 2).trans (if_pos rfl)

end

/-! Tasks. -/

/-- A task starts: the flags of its core, and the core with the task's argument, lesson and iteration. -/
theorem taskStart_starts {s : State} {lt i c : Nat} {p : List Byte} (hp : p = armedProgram (s.tile lt))
    (hc : c = 64 * lt + tkAt p i 0 1 % 64) (hi : i < tpTaskCount p) (hworks : s.tileWorks lt (tkAt p i 2 2) = true)
    (hidle : s.coreIdle c = true) : s.taskStart lt i =
      ((((({ s with cyc := tkAt p i 4 2 } : State).setB (GC_STATUS c) GC_STATUS_running true).setB (GC_STATUS c)
        GC_STATUS_tainted false).setF (GC_STATUS c) GC_STATUS_task i).modCore c (fun x =>
        { ((x.put 1 (BitVec.ofNat 32 (tkAt p i 12 4))).put 2 (BitVec.ofNat 32 (s.crsOf (s.partOfLt lt)).lesson)).put 3
            (BitVec.ofNat 32 (s.crsOf (s.partOfLt lt)).iter) with
          pc := tkAt p i 8 4, issue := tkAt p i 4 2 / 2, ready := [], tb := none, waitc := none, deadline := tkAt p i 6 2 })) := by
  subst hp hc
  have hgo : (decide (i < tpTaskCount (armedProgram (s.tile lt))) && s.tileWorks lt (tkAt (armedProgram (s.tile lt)) i 2 2) &&
      s.coreIdle (64 * lt + tkAt (armedProgram (s.tile lt)) i 0 1 % 64)) = true := by
    rw [decide_eq_true hi, hworks, hidle]
    rfl
  exact if_pos hgo

/-- Settles O35: every row is the issue of its instruction; a trap, a wake, a start and a deadline by their own rules. -/
theorem coreControl : Obligations.CoreControl := by
  unfold Obligations.CoreControl
  intro s u g k w t hready
  have hon := hready.1
  have hcore : u.core g = s.core g := ready_core hready g
  refine ⟨fun row hrow hk => branch_row hready ?branch hk, fun hk => gives_of_live hon rfl ?jal,
    fun hk => gives_of_live hon rfl ?jalr, fun hk hrun => gives_of_live hon rfl ?endTask,
    fun hk hfuture hmax => live_next hon ?waitc, fun hk hpast => live_next hon ?passed,
    fun v h hpow hbusy hwait hdead => live_next hpow ?wake, fun hk hlo hhi => live_next hon ?software,
    fun hk hrun => live_next hon ?ret, fun hk hrun => live_next hon ?illegal, fun cause a hg hstop hstart => ?trap,
    fun lt i p c hpow hp hc hi hworks hidle => gives_of_live hpow rfl ?start,
    fun h hpow hbusy hrun hdue => live_next hpow ?deadline⟩
  case branch =>
    revert row
    simp only [List.forall_mem_cons, ← bne_eq_decide, ← Bool.beq_eq_decide_eq, ← decide_slt, ← decide_sge, ← decide_uge]
    exact ⟨fun _ => rfl, fun _ => rfl, fun _ => rfl, fun _ => rfl, fun _ => rfl, fun _ => rfl, List.forall_mem_nil _⟩
  case jal =>
    rw [onCore_issues hready _ _ hk, hcore]
    exact jump_leaves hready _
  case jalr =>
    rw [onCore_issues hready _ _ hk, hcore]
    exact jump_leaves hready _
  case endTask =>
    have hne : GC_STATUS g ≠ GC_ERRORS g := by unfold GC_STATUS GC_ERRORS; omega
    have hrunning : u.flag (GC_STATUS g) GC_STATUS_running = true := by
      rw [State.flag, State.getF, ready_reg hready hne]
      exact hrun
    rw [State.chalkEnd, onCore_issues hready (ckSys 0) _ hk]
    exact if_pos hrunning
  case waitc =>
    rw [State.chalkWaitc, onCore_issues hready (ckSys 1) _ hk]
    dsimp only
    rw [hcore]
    exact if_pos (by simp [hfuture, hmax])
  case passed =>
    rw [State.chalkWaitc, onCore_issues hready (ckSys 1) _ hk]
    dsimp only
    rw [hcore]
    exact if_neg (by simp; omega)
  case wake =>
    have hgo : ¬ (!s.coreBusy h || (s.flag (GC_STATUS h) GC_STATUS_running && decide ((s.core h).deadline < v))) = true := by
      rw [hbusy, decide_eq_false (Nat.not_lt.2 hdead), Bool.and_false]
      exact Bool.false_ne_true
    rw [State.waitcWake, hwait]
    exact if_neg hgo
  case software =>
    rw [State.chalkTrap, onCore_issues hready (ckSys 5) _ hk]
    dsimp only
    rw [hcore]
    exact if_pos (by simp [hlo, hhi])
  case ret =>
    rw [State.chalkRet, onCore_issues hready (ckSys 6) _ hk]
    exact if_pos hrun
  case illegal =>
    rw [State.chalkRet, onCore_issues hready (ckSys 6) _ hk]
    exact if_neg (by rw [hrun]; exact Bool.false_ne_true)
  case trap =>
    have hidle : s.courseGoes (s.partOfLt (g / 64)) = false := by
      rw [State.courseGoes, hstop, beq_eq_false_iff_ne.2 hstart]
      rfl
    obtain ⟨hcause, hruntime, hrunning⟩ := trapped_status s g t cause a
    have htrapped := trapped_core s g t cause a
    exact ⟨s.trapped g t cause a, trap_raises hg hidle t cause a, rfl, hcause, hruntime, hrunning, by rw [htrapped],
      by rw [htrapped], by rw [htrapped]⟩
  case start =>
    rw [taskStart_starts hp hc hi hworks hidle]
    refine ⟨rfl, ?running, ?tainted, ?pc, ?dead, ?one, ?two, ?three, fun a ha => ?regs, fun h hne => core_modCore_other _ _ hne⟩
    case running =>
      refine (flag_setF_fld _ _ _ (by decide) (by decide)).trans ((flag_setF_fld _ _ _ (by decide) (by decide)).trans ?_)
      exact flag_setB _ _ _ (by decide) (by decide)
    case tainted =>
      exact (flag_setF_fld _ _ _ (by decide) (by decide)).trans (flag_setB _ _ _ (by decide) (by decide))
    case regs =>
      have hloads : LoadsOnly (· = GC_STATUS c) ({ s with cyc := tkAt p i 4 2 } : State) _ :=
        (((LoadsOnly.refl (· = GC_STATUS c) _).setB rfl GC_STATUS_running true).setB rfl GC_STATUS_tainted false).setF rfl
          GC_STATUS_task i
      exact hloads.2 a ha
    all_goals rw [core_modCore_same]
    case one => exact (get_put _ 3 1 _).trans ((get_put _ 2 1 _).trans (get_put _ 1 1 _))
    case two => exact (get_put _ 3 2 _).trans (get_put _ 2 2 _)
    case three => exact get_put _ 3 3 _
  case deadline =>
    exact if_pos (by rw [hbusy, hrun, hdue]; rfl)

end Sys2Proof.Machine
end

