-- ==== Sys2Proof/Proofs/NearBankSequences.lean ====
section
/-! Sequences of the near-bank units: how one begins, goes on and ends, and the commands it serves (09 R263, R268-R278). -/

namespace Sys2Proof.Machine

/-- An accepted command is held in its first phase. -/
theorem held_of_accepted {s : State} {ring tag op : Nat} {c : Cmd} (h : Accepted s ring tag op c) :
    Held s ring tag op c .accepted := ⟨h.1, h.2.1, h.2.2.1⟩

/-! What shows the sequences of a layer. -/

theorem showSeqs_loads (s : State) (l : Nat) : LoadsOnly (fun _ => True) s (s.showSeqs l) :=
  ((((LoadsOnly.refl (fun _ => True) s).setB trivial _ _).setF trivial _ _).setF trivial _ _).setF trivial _ _

theorem showBusy_loads (s : State) (l : Nat) (tiles : List Nat) : LoadsOnly (fun _ => True) s (s.showBusy l tiles) :=
  (LoadsOnly.refl _ s).forEach fun _ _ _ => (LoadsOnly.refl _ _).setF trivial _ _

theorem shown_loads (s : State) (l : Nat) (tiles : List Nat) : LoadsOnly (fun _ => True) s ((s.showSeqs l).showBusy l tiles) :=
  (showSeqs_loads s l).trans (showBusy_loads _ l tiles)

/-- The sequence that an entry begins. -/
def State.newSeq (s : State) (p idx e bell t : Nat) (owner : Option (Nat × Nat)) : SeqRun :=
  let g := if p < 4 then tgetD (s.activeTable p) (sqGroup e) 0 else 0
  { part := p, idx := idx, entry := e, xfer := 0, bell := bell, t := t, step := g % 2 ^ 15, shift := bitsAt g 16 4,
    tokens := sqLockers e, nbus := [], owner := owner }

/-- The beginning of a sequence enters it in its layer; the registers show it. -/
theorem seqBegin_loads (s : State) (l p idx e bell t : Nat) (owner : Option (Nat × Nat)) :
    LoadsOnly (fun _ => True) (s.modLayer l (fun y => { y with
      seqs := y.seqs ++ [s.newSeq p idx e bell t owner], last := if p < 4 then some (p, idx) else y.last }))
      (s.seqBegin l p idx e bell t owner) :=
  (LoadsOnly.ite (((LoadsOnly.refl _ _).setF trivial _ _).setF trivial _ _) (.refl _ _)).trans (shown_loads _ l _)

/-- The end of sequences takes them from their layer; the registers show it. -/
theorem dropSeqs_loads (s : State) (l : Nat) (gone : SeqRun → Bool) :
    LoadsOnly (fun _ => True) (s.modLayer l (fun y => { y with seqs := y.seqs.filter (fun q => !gone q) })) (s.dropSeqs l gone) :=
  shown_loads _ l _

theorem layer_of_loads {s t : State} {A : Nat → Prop} {l : Nat} {f : LayerSt → LayerSt} (h : LoadsOnly A (s.modLayer l f) t) (k : Nat) :
    t.layer k = if k = l then f (s.layer l) else s.layer k :=
  (layer_congr (congrArg (·.layers) h.1) k).trans (layer_modLayer s l k f)

theorem frame_of_modLayer {s t : State} {A : Nat → Prop} {l : Nat} {f : LayerSt → LayerSt} (h : LoadsOnly A (s.modLayer l f) t) :
    t = { s with regs := t.regs, layers := t.layers } := by
  have hlayers : t.layers = (s.modLayer l f).layers := congrArg (·.layers) h.1
  rw [hlayers]
  exact h.1

section
variable {s : State} {l p idx : Nat} {q : SeqRun}

theorem seqStart_begins {e : Nat} (he : e = seqAt (tgetD (s.layer l).prog p []) idx) (hidx : idx < lpCount (tgetD (s.layer l).prog p []))
    (hworks : s.working p = true) (hbell : (s.crsOf p).lessonBell = dStartBell e) (hhalt : p ∉ (s.layer l).halted)
    (hnew : s.findSeq l p idx = none) (hfree : s.tokensFree l e = true) :
    s.seqStart l p idx = ({ s with cyc := dStartCycle e } : State).seqBegin l p idx e (dStartBell e) (dStartCycle e / 4 + 8) none := by
  subst he
  rw [State.seqStart]
  refine if_pos ?_
  simp [hidx, hworks, hbell, hhalt, hnew, hfree]

theorem findSeq_part (hfind : s.findSeq l p idx = some q) : q.part = p := by
  have hmatch := List.find?_some hfind
  simp only [Bool.and_eq_true, beq_iff_eq] at hmatch
  exact hmatch.1

/-! The transfers of a bell. -/

/-- A sequence that was not left behind in an earlier bell. -/
theorem not_behind (hfind : s.findSeq l p idx = some q) (hnow : p < 4 ∨ s.bellCount ≤ q.bell) :
    ¬ (decide (q.part = 255) && decide (q.bell < s.bellCount)) = true := by
  rw [findSeq_part hfind]
  simp only [Bool.and_eq_true, decide_eq_true_eq]
  omega

theorem xferNext_runs (hnow : ¬ (decide (q.part = 255) && decide (q.bell < s.bellCount)) = true) (hleft : q.xfer < xferCount q.entry)
    (hfits : q.t + xferCycles q.entry (xferAt q.entry q.xfer) + 4 ≤ 944) (hdue : s.seqDue q = true) :
    s.xferNext l q = s.runXfer l q := by
  rw [State.xferNext, if_neg hnow, if_neg (Nat.not_le.2 hleft), if_neg (Nat.not_lt.2 hfits), if_pos hdue]

theorem xferNext_waits (hnow : ¬ (decide (q.part = 255) && decide (q.bell < s.bellCount)) = true) (hleft : q.xfer < xferCount q.entry)
    (hlate : 944 < q.t + xferCycles q.entry (xferAt q.entry q.xfer) + 4) :
    s.xferNext l q = s.putSeq l { q with bell := q.bell + 1, t := 8 } := by
  rw [State.xferNext, if_neg hnow, if_neg (Nat.not_le.2 hleft), if_pos hlate]

/-- A sequence from below that an earlier bell left goes on at the beginning of this one. -/
theorem xferNext_resumes (hpart : q.part = 255) (hbehind : q.bell < s.bellCount) :
    s.xferNext l q = s.xferNext l { q with bell := s.bellCount, t := 8 } := by
  have hold : (decide (q.part = 255) && decide (q.bell < s.bellCount)) = true := by
    rw [decide_eq_true hpart, decide_eq_true hbehind]
    rfl
  have hnew : ¬ (decide (q.part = 255) && decide (s.bellCount < s.bellCount)) = true := by simp
  simp only [State.xferNext, if_pos hold, if_neg hnew]

theorem nbuTransfer_next (hon : s.powered = true) (hfind : s.findSeq l p idx = some q) :
    exec (.nbuTransfer l p idx) s = .next (s.xferNext l q) := by
  have hexec : exec (.nbuTransfer l p idx) s = live s (match s.findSeq l p idx with
    | some q => s.xferNext l q
    | none => s) := rfl
  rw [hexec, hfind]
  exact live_on hon

theorem seqWork_same (hfind : s.findSeq l p idx = some q) {op : Nat} (hop : sqOp q.entry = op) :
    s.seqWork l p idx op = seqRunBell 118 s l p idx := by
  rw [State.seqWork, hfind]
  exact if_pos hop

theorem seqWork_other (hfind : s.findSeq l p idx = some q) {op : Nat} (hop : sqOp q.entry ≠ op) : s.seqWork l p idx op = s := by
  rw [State.seqWork, hfind]
  exact if_neg hop

theorem seqRunBell_due (k : Nat) (hfind : s.findSeq l p idx = some q) (hleft : q.xfer < xferCount q.entry) (hdue : s.seqDue q = true) :
    seqRunBell (k + 1) s l p idx = seqRunBell k (s.xferNext l q) l p idx := by
  rw [seqRunBell, hfind]
  exact if_pos (by rw [decide_eq_true hleft, hdue]; rfl)

theorem seqRunBell_rests (k : Nat) (hfind : s.findSeq l p idx = some q) (h : xferCount q.entry ≤ q.xfer ∨ s.seqDue q = false) :
    seqRunBell (k + 1) s l p idx = s := by
  rw [seqRunBell, hfind]
  refine if_neg ?_
  rcases h with hdone | hidle
  · simp [hdone]
  · simp [hidle]

/-! One transfer of one unit. -/

theorem nbuXfer_fill (locker : Nat) (n : NbuSt) {i : Nat} (h : xferAt q.entry q.xfer = .fill i) :
    (s.nbuXfer l locker q n).2 = { s with
      mem := lkPutWords s.mem (rowAddr l locker (sqDstBank q.entry) (sqDstRow q.entry + i))
        (List.replicate 128 (sqPattern q.entry, sqPoison q.entry)) } := by
  rw [State.nbuXfer, h]

theorem nbuXfer_result (locker : Nat) (n : NbuSt) {i : Nat} (h : xferAt q.entry q.xfer = .result i) :
    (s.nbuXfer l locker q n).2 = { s with
      mem := lkPutWords s.mem (rowAddr l locker (sqDstBank q.entry) (sqDstRow q.entry + i)) n.resultRow } ∧
    (s.nbuXfer l locker q n).1.n.acc = [] := by
  rw [State.nbuXfer, h]
  exact ⟨rfl, rfl⟩

theorem nbuXfer_pair (locker : Nat) (n : NbuSt) {i : Nat} {d : List Byte} {b : List Bool} {u : State}
    (h : xferAt q.entry q.xfer = .pair i)
    (hrow : s.nbuRow (rowAddr l locker (sqSrcBank q.entry) (sqSrcRow q.entry + i)) = ((d, b), u)) :
    (s.nbuXfer l locker q n).2 = { u with
      mem := lkPutWords u.mem (rowAddr l locker (sqDstBank q.entry) (sqDstRow q.entry + i))
        ((List.range 128).map (fun k => (leAt d (8 * k) 8, b.getD k false))) } := by
  rw [State.nbuXfer, h]
  dsimp only
  rw [hrow]

theorem signUpdate_decays (m sign : Int) {sh : Nat} (step : Nat) (h : sh ≠ 0) :
    (signUpdate step sh m sign).1 = max (-32767) (min 32767 (m - step * sign - m / 2 ^ sh)) := by
  rw [signUpdate, if_neg h]
  rfl

theorem signUpdate_plain (m sign : Int) (step : Nat) :
    (signUpdate step 0 m sign).1 = max (-32767) (min 32767 (m - step * sign)) := by
  rw [signUpdate, if_pos rfl, Int.sub_zero]
  rfl

/-! The end of a sequence. -/

theorem seqEnd_alone (hfind : s.findSeq l p idx = some q) (hdone : xferCount q.entry ≤ q.xfer) (howner : q.owner = none)
    (hwait : s.nfWaiting = []) : s.seqEnd l p idx = s.dropSeqs l (fun z => z.part == p && z.idx == idx) := by
  have hcmds : (s.dropSeqs l (fun z => z.part == p && z.idx == idx)).cmds = s.cmds :=
    congrArg (·.cmds) (dropSeqs_loads s l _).1
  have hwait' : (s.dropSeqs l (fun z => z.part == p && z.idx == idx)).nfWaiting = [] := by
    rw [State.nfWaiting, hcmds]
    exact hwait
  rw [State.seqEnd, hfind]
  dsimp only
  rw [if_neg (Nat.not_lt.2 hdone), howner]
  dsimp only [Option.bind_none]
  rw [hwait']
  rfl

theorem seqEnd_serves {o : Nat × Nat} {c : Cmd} (hfind : s.findSeq l p idx = some q) (hdone : xferCount q.entry ≤ q.xfer)
    (howner : q.owner = some o) (hcmd : s.findTag o.1 o.2 = some c) : s.seqEnd l p idx =
      let v := (s.dropSeqs l (fun z => z.part == p && z.idx == idx)).putCmd c { c with data := [nfStarted c, nfEnded c + 1] }
      forEach v.nfWaiting v State.nfGo := by
  have htag : (s.dropSeqs l (fun z => z.part == p && z.idx == idx)).findTag o.1 o.2 = some c :=
    (findTag_congr (congrArg (·.cmds) (dropSeqs_loads s l _).1) o.1 o.2).trans hcmd
  rw [State.seqEnd, hfind]
  dsimp only
  rw [if_neg (Nat.not_lt.2 hdone), howner]
  dsimp only [Option.bind_some]
  rw [htag]

end

/-! Commands. -/

theorem nbuCommand_begins {s : State} {locker w : Nat} (hpresent : s.present (locker / 64) = true) (hcmd : lcCmd w = 8)
    (hparity : lcParity w = true) (hside : lcSide w ≠ 0) (hsub : nlSub w = 4 ∨ nlSub w = 5) (hzero : bitsAt w 40 7 = 0)
    (hrows : entryRowsGood (belowEntry locker w) = true) (hopen : s.openBell (s.partOfLt (locker / 64)) = true)
    (hfree : s.tokensFree (lcLayer w) (belowEntry locker w) = true) : s.nbuCommand locker w =
      s.seqBegin (lcLayer w) 255 locker (belowEntry locker w) s.bellCount (ceilDiv s.cyc 4 + 8) none := by
  have hhere : ¬ (!s.present (locker / 64) || decide (lcCmd w ≠ 8)) = true := by simp [hpresent, hcmd]
  have hgood : ¬ (!lcParity w) = true := by simp [hparity]
  rw [State.nbuCommand]
  dsimp only
  rw [if_neg hhere, if_neg hgood, if_neg hside]
  refine if_pos ?_
  simp [hsub, hzero, hrows, hopen, hfree]

section
variable {s : State} {c : Cmd} (hphase : c.phase = .accepted) (hswitch : s.switchWait c = false)
include hphase hswitch

theorem nfTake_refused (e : Nat) : s.nfTake c (some e) = s.fail c e := by
  rw [State.nfTake, if_neg (not_not.2 hphase), hswitch]
  rfl

theorem nfTake_passes : s.nfTake c none = (s.putCmd c { c with phase := .active, data := [0, 0] }).nfGo
    { c with phase := .active, data := [0, 0] } := by
  rw [State.nfTake, if_neg (not_not.2 hphase), hswitch]
  rfl

end

theorem nfGo_ends {s : State} {c : Cmd} (h : (nfLockers c.pkt).length ≤ nfEnded c) :
    s.nfGo c = (s.countMoved c (1024 * nfRows c.pkt * (nfLockers c.pkt).length)).ok c
      (1024 * nfRows c.pkt * (nfLockers c.pkt).length) := if_pos h

theorem nfGo_starts {s : State} {c : Cmd} (h : nfEnded c < (nfLockers c.pkt).length) (hopen : s.openBell c.part = true) :
    s.nfGo c = (nfStart c s ((nfLockers c.pkt).drop (nfStarted c)) 0).2.putCmd c
      { c with data := [nfStarted c + (nfStart c s ((nfLockers c.pkt).drop (nfStarted c)) 0).1, nfEnded c] } := by
  rw [State.nfGo]
  dsimp only
  rw [if_neg (Nat.not_le.2 h), hopen]
  rfl

/-- Settles O37: each clause is the rule of the transfer, the sequence or the command it names. -/
theorem nearBankSequences : Obligations.NearBankSequences := by
  unfold Obligations.NearBankSequences
  intro s l p idx q hon
  refine ⟨fun e hl hp he hidx hworks hbell hhalt hnew hfree => gives_of_live hon rfl ?start,
    fun hfind hleft hfits hdue hnow => (nbuTransfer_next hon hfind).trans
      (congrArg _ (xferNext_runs (not_behind hfind hnow) hleft hfits hdue)),
    fun hfind hp hbehind => (nbuTransfer_next hon hfind).trans
      (congrArg _ (xferNext_resumes ((findSeq_part hfind).trans hp) hbehind)),
    fun hfind hleft hnow hlate => (nbuTransfer_next hon hfind).trans
      (congrArg _ (xferNext_waits (not_behind hfind hnow) hleft hlate)),
    fun row hrow hfind => ?work, fun k hfind => ⟨seqRunBell_due k hfind, seqRunBell_rests k hfind⟩,
    fun locker n i h => nbuXfer_fill locker n h, fun locker n i h => nbuXfer_result locker n h,
    fun locker n i d b u h hrow => nbuXfer_pair locker n h hrow,
    fun m sign sh step _ _ hsh => ⟨signUpdate_decays m sign step hsh, signUpdate_plain m sign step⟩,
    fun hfind hdone howner hwait => gives_of_live hon rfl ?ends,
    fun o c hfind hdone howner hcmd => live_next hon (seqEnd_serves hfind hdone howner hcmd),
    fun locker w hpresent hcmd hparity hside hsub hzero hrows hopen hfree =>
      live_next hon (nbuCommand_begins hpresent hcmd hparity hside hsub hzero hrows hopen hfree),
    fun ring tag c d hc hcheck hd => (onActive_held (held_of_accepted hc)).trans (congrArg _ ?fill),
    fun ring tag c d hc hover hcheck hd => (onActive_held (held_of_accepted hc)).trans (congrArg _ ?copy),
    fun c n hn h => hn ▸ nfGo_ends h, fun c r h hopen hr => hr ▸ nfGo_starts h hopen,
    fun c x k n => ⟨fun hfree => if_pos hfree, fun hfull => if_neg (by rw [hfull]; exact Bool.false_ne_true)⟩,
    fun ring tag c e hc hcheck => (onActive_held (held_of_accepted hc)).trans (congrArg _ ?fillFails),
    fun ring tag c hc hover => (onActive_held (held_of_accepted hc)).trans (congrArg _ (if_pos hover))⟩
  case start =>
    have hplace : (decide (l < 4) && decide (p < 4)) = true := by rw [decide_eq_true hl, decide_eq_true hp]; rfl
    rw [if_pos hplace, seqStart_begins he hidx hworks hbell hhalt hnew hfree]
    have hloads := seqBegin_loads ({ s with cyc := dStartCycle e } : State) l p idx e (dStartBell e) (dStartCycle e / 4 + 8) none
    have hlayer := layer_of_loads hloads
    refine ⟨frame_of_modLayer hloads, ?_, ?_, fun k hk => (hlayer k).trans (if_neg hk)⟩
    · rw [hlayer l, if_pos rfl, State.newSeq, if_pos hp]
      rfl
    · rw [hlayer l, if_pos rfl]
      rfl
  case work =>
    have hexec : exec row.1 s = live s (s.seqWork l p idx row.2) := by
      revert row
      simp only [List.forall_mem_cons]
      exact ⟨rfl, rfl, rfl, rfl, rfl, List.forall_mem_nil _⟩
    exact ⟨fun hop => hexec.trans (live_next hon (seqWork_same hfind hop)),
      fun hop => hexec.trans (live_next hon (seqWork_other hfind hop))⟩
  case ends =>
    rw [seqEnd_alone hfind hdone howner hwait]
    have hloads := dropSeqs_loads s l (fun z => z.part == p && z.idx == idx)
    have hlayer := layer_of_loads hloads
    refine ⟨frame_of_modLayer hloads, ?_, fun k hk => (hlayer k).trans (if_neg hk)⟩
    rw [hlayer l, if_pos rfl]
  case fill =>
    subst hd
    rw [State.nbuFill, hcheck]
    exact nfTake_passes hc.2.2.1 hc.2.2.2
  case copy =>
    subst hd
    rw [State.nbuCopy, hover, hcheck]
    exact nfTake_passes hc.2.2.1 hc.2.2.2
  case fillFails =>
    rw [State.nbuFill, hcheck]
    exact nfTake_refused hc.2.2.1 hc.2.2.2 e

end Sys2Proof.Machine
end

