-- ==== Sys2Proof/Proofs/TileBytes.lean ====
section
/-! Little-endian values, the bytes of a tile buffer after a store, and the words of the page area (07 R210, 10 R286). -/

namespace Sys2Proof.Machine

/-! Little-endian values. -/

@[simp] theorem leBytes_length (n v : Nat) : (leBytes n v).length = n := by
  induction n generalizing v with
  | zero => rfl
  | succ n ih => rw [leBytes, List.length_cons, ih]

theorem leVal_leBytes (n v : Nat) : leVal (leBytes n v) = v % 256 ^ n := by
  induction n generalizing v with
  | zero => rw [leBytes, leVal, pow_zero, Nat.mod_one]
  | succ n ih =>
    have hlow : (BitVec.ofNat 8 (v % 256)).toNat = v % 256 := by
      rw [BitVec.toNat_ofNat]
      exact Nat.mod_eq_of_lt (Nat.mod_lt _ (by decide))
    rw [leBytes, leVal, ih, hlow, pow_succ, Nat.mul_comm (256 ^ n), Nat.mod_mul]

theorem leVal_lt (l : List Byte) : leVal l < 256 ^ l.length := by
  induction l with
  | nil => exact Nat.one_pos
  | cons b l ih =>
    have hb : b.toNat < 256 := b.isLt
    rw [leVal, List.length_cons, pow_succ]
    omega

/-! Bytes of a tile buffer after a store. -/

theorem tbByte_stored (m : MemSt) (a : Nat) (b : Byte) (x : Nat) :
    tbByte { memPut m a b with tbChk := tdel m.tbChk a } x = if x = a then (b, .good) else tbByte m x := by
  have hget : memGet { memPut m a b with tbChk := tdel m.tbChk a } x = if x = a then b else memGet m x := memGet_memPut m a b x
  rw [tbByte, hget, tgetD_tdel]
  by_cases h : x = a
  · rw [if_pos h, if_pos h, if_pos h]
    rfl
  · rw [if_neg h, if_neg h, if_neg h, tbByte]

theorem tbByte_tbStoreBytes (l : List Byte) : ∀ (m : MemSt) (a x : Nat),
    tbByte (tbStoreBytes m a l) x = if a ≤ x ∧ x < a + l.length then (l.getD (x - a) 0, .good) else tbByte m x := by
  induction l with
  | nil =>
    intro m a x
    rw [if_neg (by simp), tbStoreBytes]
  | cons b l ih =>
    intro m a x
    rw [tbStoreBytes, ih, tbByte_stored, List.length_cons]
    rcases Nat.lt_trichotomy x a with hlt | rfl | hgt
    · rw [if_neg (by omega), if_neg (by omega), if_neg (by omega)]
    · rw [if_neg (by omega), if_pos rfl, if_pos (by omega), Nat.sub_self, List.getD_cons_zero]
    · have hsub : x - a = (x - (a + 1)) + 1 := by omega
      by_cases hin : x < a + (l.length + 1)
      · rw [if_pos (by omega), if_pos (by omega), hsub, List.getD_cons_succ]
      · rw [if_neg (by omega), if_neg (by omega), if_neg (by omega)]

theorem tbByte_setSlotPoison (m : MemSt) (k : Nat) (b : Bool) (x : Nat) : tbByte (setSlotPoison m k b) x = tbByte m x := rfl

theorem tbByte_setSlotEmpty (m : MemSt) (k : Nat) (b : Bool) (x : Nat) : tbByte (setSlotEmpty m k b) x = tbByte m x := rfl

/-- The marks of the slots leave the bytes as they are. -/
theorem tbByte_tbWrite (m : MemSt) (lt off : Nat) (l : List Byte) (poison : List Bool) (tag x : Nat) :
    tbByte (tbWrite m lt off l poison tag) x =
      if tbAddr lt off ≤ x ∧ x < tbAddr lt off + l.length then (l.getD (x - tbAddr lt off) 0, .good) else tbByte m x := by
  rw [← tbByte_tbStoreBytes]
  unfold tbWrite
  refine foldl_keeps_mem (P := fun w : MemSt => tbByte w x = tbByte (tbStoreBytes m (tbAddr lt off) l) x) _
    (fun u k _ hu => ?_) rfl
  dsimp only
  split_ifs <;> simp only [tbByte_setSlotEmpty, tbByte_setSlotPoison, hu]

/-! Words of the page area. -/

theorem areaWord_eq (s : State) (lt off n : Nat) :
    s.areaWord lt off n = leVal ((List.range n).map (fun i => (tbByte s.mem (tbAddr lt (s.areaBase + off + i))).1)) := by
  rw [State.areaWord, tbPeek, List.map_map]
  rfl

theorem areaWord_lt (s : State) (lt off n : Nat) : s.areaWord lt off n < 256 ^ n := by
  have hlt := leVal_lt ((List.range n).map (fun i => (tbByte s.mem (tbAddr lt (s.areaBase + off + i))).1))
  rwa [← areaWord_eq, List.length_map, List.length_range] at hlt

theorem tbByte_putArea (s : State) (lt off n v x : Nat) : tbByte (s.putArea lt off n v).mem x =
    if tbAddr lt (s.areaBase + off) ≤ x ∧ x < tbAddr lt (s.areaBase + off) + n then
      ((leBytes n v).getD (x - tbAddr lt (s.areaBase + off)) 0, .good) else tbByte s.mem x := by
  rw [State.putArea, tbByte_tbWrite, leBytes_length]

theorem areaWord_putArea (s : State) (lt off n v : Nat) : (s.putArea lt off n v).areaWord lt off n = v % 256 ^ n := by
  rw [areaWord_eq, ← leVal_leBytes]
  refine congrArg leVal (List.ext_getElem (by simp) fun i hi hi' => ?_)
  have hin : i < n := by simpa using hi
  have hbyte := tbByte_putArea s lt off n v (tbAddr lt (s.areaBase + off + i))
  rw [if_pos (by unfold tbAddr; omega)] at hbyte
  have hoff : tbAddr lt (s.areaBase + off + i) - tbAddr lt (s.areaBase + off) = i := by unfold tbAddr; omega
  have hlist : (leBytes n v).getD i 0 = (leBytes n v)[i] := by
    rw [List.getD_eq_getElem?_getD, List.getElem?_eq_getElem hi', Option.getD_some]
  rw [hoff, hlist] at hbyte
  rw [List.getElem_map, List.getElem_range]
  exact congrArg Prod.fst hbyte

/-- A write to the area leaves the words beside it. -/
theorem areaWord_putArea_other (s : State) (lt v : Nat) {off n off' n' : Nat} (h : off' + n' ≤ off ∨ off + n ≤ off') :
    (s.putArea lt off n v).areaWord lt off' n' = s.areaWord lt off' n' := by
  rw [areaWord_eq, areaWord_eq]
  refine congrArg leVal (List.map_congr_left fun i hi => ?_)
  have hin : i < n' := List.mem_range.mp hi
  have hbase : (s.putArea lt off n v).areaBase = s.areaBase := rfl
  rw [hbase, tbByte_putArea, if_neg (by unfold tbAddr; omega)]

/-- t is s but for its memory. -/
def MemOnly (s t : State) : Prop := t = { s with mem := t.mem }

theorem MemOnly.refl (s : State) : MemOnly s s := rfl

theorem MemOnly.trans {s t u : State} (h : MemOnly s t) (h' : MemOnly t u) : MemOnly s u := by
  unfold MemOnly at *
  rw [h', h]

theorem putArea_memOnly (s : State) (lt off n v : Nat) : MemOnly s (s.putArea lt off n v) := rfl

theorem MemOnly.forEach {α : Type} {s t : State} (h : MemOnly s t) {l : List α} {f : State → α → State}
    (hf : ∀ u, ∀ x ∈ l, MemOnly u (f u x)) : MemOnly s (forEach l t f) :=
  foldl_keeps_mem l (fun u x hx hu => hu.trans (hf u x hx)) h

end Sys2Proof.Machine
end

