-- ==== Sys2Proof/Proofs/PageCommands.lean ====
section
/-! The page commands: their checks, their commit, and what each writes into the tables (10 R286-R292). -/

namespace Sys2Proof.Machine

/-! The words of the tables: their places, and how a write to one leaves the others. -/

/-- A page word stands behind the directory and the frame counts. -/
theorem wordOff_high {e vp o : Nat} (h : wordOff e vp = some o) : 0xC000 ≤ o := by
  unfold wordOff at h
  split_ifs at h
  have ho := Option.some.inj h
  omega

theorem frame_lt (w : Nat) : wordFrame w % 16384 < 16384 := Nat.mod_lt _ (by decide)

section
variable (s : State) (lt : Nat)

theorem dirEntry_putArea_other {off n v q : Nat} (hq : q < 4096) (hoff : 0x4000 ≤ off) :
    (s.putArea lt off n v).dirEntry lt q = s.dirEntry lt q :=
  areaWord_putArea_other s lt v (.inl (by omega))

theorem dirEntry_setFrameCount {q i v : Nat} (hq : q < 4096) : (s.setFrameCount lt i v).dirEntry lt q = s.dirEntry lt q :=
  dirEntry_putArea_other s lt hq (by omega)

theorem frameCount_setFrameCount (i v : Nat) : (s.setFrameCount lt i v).frameCount lt i = v % 65536 :=
  areaWord_putArea s lt _ 2 v

theorem frameCount_lt (i : Nat) : s.frameCount lt i < 65536 := areaWord_lt s lt _ 2

/-- A write behind the frame counts leaves them. -/
theorem frameCount_putArea {off n v i : Nat} (hi : i < 16384) (hoff : 0xC000 ≤ off) :
    (s.putArea lt off n v).frameCount lt i = s.frameCount lt i :=
  areaWord_putArea_other s lt v (.inl (by omega))

/-- A write of a count leaves the page words. -/
theorem pageWord_setFrameCount {i v o : Nat} (hi : i < 16384) (ho : 0xC000 ≤ o) :
    (s.setFrameCount lt i v).areaWord lt o 4 = s.areaWord lt o 4 :=
  areaWord_putArea_other s lt v (.inr (by omega))

variable {s lt}

theorem pageWord_some {q vp o : Nat} (h : wordOff (s.dirEntry lt q) vp = some o) : s.pageWord lt q vp = s.areaWord lt o 4 := by
  rw [State.pageWord, h]

/-- A page that is mapped has a place. -/
theorem wordOff_of_valid {q vp : Nat} (h : wordValid (s.pageWord lt q vp) = true) :
    ∃ o, wordOff (s.dirEntry lt q) vp = some o := by
  cases ho : wordOff (s.dirEntry lt q) vp with
  | some o => exact ⟨o, rfl⟩
  | none =>
    have hzero : s.pageWord lt q vp = 0 := by rw [State.pageWord, ho]
    rw [hzero] at h
    exact absurd h (by decide)

theorem freeRow_lt {c r : Nat} (h : (s.freeRows lt c).head? = some r) : r < 2048 := by
  have hmem : r ∈ s.poolRows := List.mem_of_mem_filter (List.mem_of_head? h)
  have hlast : s.getF TRN_POOL TRN_POOL_row_last < 2048 := getF_lt s _ _
  simp only [State.poolRows, List.mem_map, List.mem_range] at hmem
  obtain ⟨k, hk, rfl⟩ := hmem
  omega

/-! One page of one tile. -/

theorem mapPage_mapped {q vp : Nat} (h : wordValid (s.pageWord lt q vp) = true) : s.mapPage lt q vp = s := if_pos h

theorem mapPage_maps {q vp o r : Nat} (hoff : wordOff (s.dirEntry lt q) vp = some o)
    (hnew : wordValid (s.pageWord lt q vp) = false) (hrow : (s.freeRows lt (vp % 8)).head? = some r) : s.mapPage lt q vp =
      (s.setFrameCount lt (2048 * (vp % 8) + r) 1).putArea lt o 4 (16384 * lt + (2048 * (vp % 8) + r) + 2 ^ 31) := by
  rw [State.mapPage, hnew, if_neg Bool.false_ne_true, hoff, hrow]

theorem mapPage_leaves {q vp o r : Nat} (hlt : lt < 256) (hq : q < 4096) (hoff : wordOff (s.dirEntry lt q) vp = some o)
    (hnew : wordValid (s.pageWord lt q vp) = false) (hrow : (s.freeRows lt (vp % 8)).head? = some r) :
    (s.mapPage lt q vp).pageWord lt q vp = 16384 * lt + 2048 * (vp % 8) + r + 2 ^ 31 ∧
      (s.mapPage lt q vp).frameCount lt (2048 * (vp % 8) + r) = 1 ∧ MemOnly s (s.mapPage lt q vp) := by
  have hr := freeRow_lt hrow
  have ho := wordOff_high hoff
  have hframe : 2048 * (vp % 8) + r < 16384 := by omega
  rw [mapPage_maps hoff hnew hrow]
  refine ⟨?_, ?_, (putArea_memOnly _ _ _ _ _).trans (putArea_memOnly _ _ _ _ _)⟩
  · rw [pageWord_some (o := o) (by rw [dirEntry_putArea_other _ _ hq (by omega), dirEntry_setFrameCount _ _ hq, hoff]),
      areaWord_putArea, Nat.mod_eq_of_lt (by omega)]
    omega
  · rw [frameCount_putArea _ _ hframe ho, frameCount_setFrameCount]

theorem releasePage_memOnly (s : State) (lt q vp : Nat) : MemOnly s (s.releasePage lt q vp) := by
  unfold State.releasePage
  split
  · exact .refl s
  · dsimp only
    split_ifs
    · exact (putArea_memOnly _ _ _ _ _).trans (putArea_memOnly _ _ _ _ _)
    · exact .refl s

theorem releasePage_releases {q vp o w : Nat} (hoff : wordOff (s.dirEntry lt q) vp = some o) (hw : s.areaWord lt o 4 = w)
    (hvalid : wordValid w = true) : s.releasePage lt q vp = (s.putArea lt o 4 0).setFrameCount lt (wordFrame w % 16384)
      (s.frameCount lt (wordFrame w % 16384) - 1) := by
  rw [State.releasePage, hoff]
  dsimp only
  rw [hw, if_pos hvalid]

theorem releasePage_leaves {q vp w : Nat} (hq : q < 4096) (hw : s.pageWord lt q vp = w) (hvalid : wordValid w = true) :
    (s.releasePage lt q vp).pageWord lt q vp = 0 ∧
      (s.releasePage lt q vp).frameCount lt (wordFrame w % 16384) = s.frameCount lt (wordFrame w % 16384) - 1 := by
  obtain ⟨o, hoff⟩ := wordOff_of_valid (s := s) (by rwa [hw])
  have ho := wordOff_high hoff
  have hcount := frameCount_lt s lt (wordFrame w % 16384)
  rw [releasePage_releases hoff ((pageWord_some hoff).symm.trans hw) hvalid]
  constructor
  · rw [pageWord_some (o := o) (by rw [dirEntry_setFrameCount _ _ hq, dirEntry_putArea_other _ _ hq (by omega), hoff]),
      pageWord_setFrameCount _ _ (frame_lt w) ho, areaWord_putArea, Nat.zero_mod]
  · rw [frameCount_setFrameCount, Nat.mod_eq_of_lt (by omega)]

theorem forkPage_forks {src dst vp w o : Nat} (hw : s.pageWord lt src vp = w) (hvalid : wordValid w = true)
    (hoff : wordOff (s.dirEntry lt dst) vp = some o) : s.forkPage lt src dst vp =
      (s.putArea lt o 4 w).setFrameCount lt (wordFrame w % 16384)
        ((s.putArea lt o 4 w).frameCount lt (wordFrame w % 16384) + 1) := by
  rw [State.forkPage, hoff]
  dsimp only
  rw [hw, if_pos hvalid]

theorem forkPage_leaves {src dst vp w o : Nat} (hdst : dst < 4096) (hw : s.pageWord lt src vp = w) (hvalid : wordValid w = true)
    (hoff : wordOff (s.dirEntry lt dst) vp = some o) (hroom : s.frameCount lt (wordFrame w % 16384) < 65535) :
    (s.forkPage lt src dst vp).pageWord lt dst vp = w ∧
      (s.forkPage lt src dst vp).frameCount lt (wordFrame w % 16384) = s.frameCount lt (wordFrame w % 16384) + 1 := by
  obtain ⟨o', hsrc⟩ := wordOff_of_valid (s := s) (q := src) (by rwa [hw])
  have hword : w < 256 ^ 4 := by
    rw [← hw, pageWord_some hsrc]
    exact areaWord_lt s lt o' 4
  have ho := wordOff_high hoff
  rw [forkPage_forks hw hvalid hoff]
  constructor
  · rw [pageWord_some (o := o) (by rw [dirEntry_setFrameCount _ _ hdst, dirEntry_putArea_other _ _ hdst (by omega), hoff]),
      pageWord_setFrameCount _ _ (frame_lt w) ho, areaWord_putArea, Nat.mod_eq_of_lt hword]
  · rw [frameCount_setFrameCount, frameCount_putArea _ _ (frame_lt w) ho, Nat.mod_eq_of_lt (by omega)]

end

/-! The effect of SEQ_OPEN and SEQ_CLOSE on a tile. -/

theorem pageTile_open (s : State) {k : Packet} (lt : Nat) (hop : k.opcode = opSEQ_OPEN) :
    s.pageTile k lt = s.putArea lt (4 * k.p0) 4 (2 ^ 31) := if_pos hop

/-- A sequence that closes releases its pages. -/
def State.releaseAll (s : State) (lt q : Nat) : State :=
  forEach (List.range (16 * dirCount (s.dirEntry lt q))) s (fun u vp => u.releasePage lt q vp)

theorem pageTile_close (s : State) {k : Packet} (lt : Nat) (hop : k.opcode = opSEQ_CLOSE) :
    s.pageTile k lt = (s.releaseAll lt k.p0).putArea lt (4 * k.p0) 4 0 := by
  have hopen : ¬ k.opcode = opSEQ_OPEN := by rw [hop]; decide
  exact (if_neg hopen).trans (if_pos hop)

theorem releaseAll_memOnly (s : State) (lt q : Nat) : MemOnly s (s.releaseAll lt q) :=
  (MemOnly.refl s).forEach fun u vp _ => releasePage_memOnly u lt q vp

theorem dirEntry_putArea (s : State) (lt q v : Nat) : (s.putArea lt (4 * q) 4 v).dirEntry lt q = v % 2 ^ 32 :=
  areaWord_putArea s lt _ 4 v

/-! Checks and commit. -/

section
variable {s : State} {c : Cmd} {ring tag op : Nat}

theorem pageAccept_passes (h : s.pageFails c.part c.pkt = none) : s.pageAccept c = s.putCmd c { c with phase := .active } := by
  rw [State.pageAccept, h]

theorem pageAccept_fails {e : Nat} (h : s.pageFails c.part c.pkt = some e) : s.pageAccept c = s.fail c e := by
  rw [State.pageAccept, h]

theorem pageCommit_closed (h : s.serviceOpen c.part = false) : s.pageCommit c = s := if_pos (by rw [h]; rfl)

theorem pageCommit_passes (hopen : s.serviceOpen c.part = true) (h : s.pageFails c.part c.pkt = none) : s.pageCommit c =
    (forEach (s.tilesOf c.part) s (fun u lt => (u.pageTile c.pkt lt).showFree lt)).ok c
      (((s.tilesOf c.part).map (fun lt => (s.framesWanted c.pkt lt).length)).sum) := by
  have hshut : ¬ (!s.serviceOpen c.part) = true := by simp [hopen]
  rw [State.pageCommit, if_neg hshut, h, List.sum_eq_foldl, List.foldl_map]

theorem pageCommit_fails {e : Nat} (hopen : s.serviceOpen c.part = true) (h : s.pageFails c.part c.pkt = some e) :
    s.pageCommit c = s.fail c e := by
  have hshut : ¬ (!s.serviceOpen c.part) = true := by simp [hopen]
  rw [State.pageCommit, if_neg hshut, h]

theorem commit_next (hon : s.powered = true) (hfind : s.findTag ring tag = some c) (hop : isPageOp c.pkt.opcode = true)
    (hphase : c.phase = .active) : exec (.pageCommandCommit ring tag) s = .next (s.pageCommit c) := by
  have hexec : exec (.pageCommandCommit ring tag) s = live s (match s.findTag ring tag with
    | some c => if isPageOp c.pkt.opcode && c.phase = .active then s.pageCommit c else s
    | none => s) := rfl
  rw [hexec, hfind]
  refine live_next hon (if_pos ?_)
  rw [hop, hphase]
  rfl

theorem pageFails_areaOff {p : Nat} {k : Packet} (h : s.areaOn = false) : s.pageFails p k = some stAREA_OFF :=
  if_pos (by rw [h]; rfl)

theorem pageFails_areaLost {p lt : Nat} {k : Packet} (hon : s.areaOn = true) (hmem : lt ∈ s.tilesOf p)
    (hlost : s.flag (TRN_STATUS_LT lt) TRN_STATUS_LT_area_lost = true) : s.pageFails p k = some stAREA_LOST := by
  have hoff : ¬ (!s.areaOn) = true := by simp [hon]
  rw [State.pageFails, if_neg hoff]
  exact if_pos (List.any_eq_true.2 ⟨lt, hmem, hlost⟩)

theorem pageFails_seqState {p lt : Nat} {k : Packet} (hon : s.areaOn = true)
    (hkept : ∀ n ∈ s.tilesOf p, s.flag (TRN_STATUS_LT n) TRN_STATUS_LT_area_lost = false) (hmem : lt ∈ s.tilesOf p)
    (hstate : s.seqStateFails k lt = true) : s.pageFails p k = some stSEQ_STATE := by
  have hoff : ¬ (!s.areaOn) = true := by simp [hon]
  have hlost : ¬ (s.tilesOf p).any (fun n => s.flag (TRN_STATUS_LT n) TRN_STATUS_LT_area_lost) = true := by
    simpa using hkept
  rw [State.pageFails, if_neg hoff]
  exact (if_neg hlost).trans (if_pos (List.any_eq_true.2 ⟨lt, hmem, hstate⟩))

end

/-- Settles O38: the checks and the commit by their rules, the tables by the words that each write leaves. -/
theorem pageCommands : Obligations.PageCommands := by
  unfold Obligations.PageCommands
  intro s ring tag c e
  refine ⟨fun row hrow hc => ?accept, fun hon hfind hop hphase => ?commit, pageFails_areaOff,
    fun lt hon hmem hlost => pageFails_areaLost hon hmem hlost, fun lt hon hkept hmem hstate => pageFails_seqState hon hkept hmem hstate,
    fun lt _ hop => ?opens, fun lt _ hop => ?closes, fun lt q vp o r _ hlt hq hoff hnew hrow => mapPage_leaves hlt hq hoff hnew hrow,
    fun lt q vp hvalid => mapPage_mapped hvalid, fun lt q vp w _ hq hw hvalid => releasePage_leaves hq hw hvalid,
    fun lt src dst vp w o _ _ hdst hw hvalid hoff hroom => forkPage_leaves hdst hw hvalid hoff hroom⟩
  case accept =>
    have hexec : exec row.1 s = live s (s.onCmd ring tag row.2 State.pageAccept) := by
      clear hc
      revert row
      simp only [List.forall_mem_cons]
      exact ⟨rfl, rfl, rfl, rfl, rfl, rfl, List.forall_mem_nil _⟩
    have hnext := hexec.trans (onCmd_accepted hc)
    exact ⟨fun h => hnext.trans (congrArg _ (pageAccept_passes h)), fun h => hnext.trans (congrArg _ (pageAccept_fails h))⟩
  case commit =>
    have hnext := commit_next hon hfind hop hphase
    exact ⟨fun hshut => hnext.trans (congrArg _ (pageCommit_closed hshut)),
      fun hopen h => hnext.trans (congrArg _ (pageCommit_passes hopen h)),
      fun hopen h => hnext.trans (congrArg _ (pageCommit_fails hopen h))⟩
  case opens =>
    rw [pageTile_open s lt hop]
    exact ⟨dirEntry_putArea s lt _ _, putArea_memOnly _ _ _ _ _⟩
  case closes =>
    rw [pageTile_close s lt hop]
    refine ⟨?_, (releaseAll_memOnly s lt _).trans (putArea_memOnly _ _ _ _ _)⟩
    rw [State.seqOpen, dirEntry_putArea]
    rfl

end Sys2Proof.Machine
end

