-- ==== Sys2Proof/Proofs/Translation.lean ====
section
/-! The translation of rosters: the job and its entries, the bytes of a record, the fall-back and the statuses (10 R295-R300). -/

namespace Sys2Proof.Machine

/-! Little-endian fields of a byte string. -/

theorem leAt_append_right (a b : List Byte) (off n : Nat) : leAt (a ++ b) (a.length + off) n = leAt b off n := by
  simp only [leAt, bytesFrom, List.drop_append, Nat.add_sub_cancel_left, List.drop_eq_nil_of_le (Nat.le_add_right a.length off),
    List.nil_append]

theorem leAt_leBytes_append (n v : Nat) (b : List Byte) : leAt (leBytes n v ++ b) 0 n = v % 256 ^ n := by
  have htake : (leBytes n v ++ b).take n = leBytes n v := List.take_left' (leBytes_length n v)
  rw [leAt, bytesFrom, List.drop_zero]
  simp only [htake, leBytes_length, Nat.sub_self, List.replicate_zero, List.append_nil, leVal_leBytes]

/-- Word k of words packed four bytes each. -/
theorem leAt_words (l : List Nat) : ∀ k, k < l.length → leAt (l.flatMap (leBytes 4)) (4 * k) 4 = l.getD k 0 % 2 ^ 32 := by
  induction l with
  | nil => exact fun k hk => absurd hk (Nat.not_lt_zero k)
  | cons v l ih =>
    intro k hk
    rw [List.flatMap_cons]
    cases k with
    | zero => exact leAt_leBytes_append 4 v _
    | succ k =>
      have hoff : 4 * (k + 1) = (leBytes 4 v).length + 4 * k := by rw [leBytes_length]; omega
      rw [hoff, leAt_append_right, ih k (by simpa using hk), List.getD_cons_succ]

theorem flatMap_leBytes_length (l : List Nat) : (l.flatMap (leBytes 4)).length = 4 * l.length := by
  induction l with
  | nil => rfl
  | cons v l ih => rw [List.flatMap_cons, List.length_append, leBytes_length, ih, List.length_cons]; omega

/-! The bytes of a record. -/

section
variable (y : Plan) (e : RosterEntry) (st need bell : Nat) (pages : List PageRead)

/-- The head of a record. -/
def recordHead : List Byte :=
  leBytes 4 e.seq ++ leBytes 2 (if st = 0 then need else 0) ++ leBytes 1 st ++ leBytes 1 0 ++
  leBytes 4 bell ++ leBytes 2 e.flags ++ leBytes 2 e.newTokens

/-- The page words of a record, 0 where a page has none. -/
def recordTail : List Nat :=
  let ws := if st = 0 then pages.map recordWord else []
  ws ++ List.replicate (y.words - ws.length) 0

theorem recordBytes_eq : recordBytes y e st need bell pages =
    recordHead e st need bell ++ (recordTail y st pages).flatMap (leBytes 4) := rfl

theorem recordHead_length : (recordHead e st need bell).length = 16 := by
  simp [recordHead]

theorem recordTail_length (h : pages.length ≤ y.words) : (recordTail y st pages).length = y.words := by
  unfold recordTail
  split_ifs
  · simp only [List.length_append, List.length_map, List.length_replicate]
    omega
  · simp

theorem recordTail_word {k : Nat} : (recordTail y st pages).getD k 0 = if st = 0 then (pages.map recordWord).getD k 0 else 0 := by
  have hpad : ∀ (ws : List Nat) n, (ws ++ List.replicate n 0).getD k 0 = ws.getD k 0 := fun ws n => by
    by_cases hk : k < ws.length
    · simp [List.getD_eq_getElem?_getD, List.getElem?_append_left hk]
    · have hnone : ws[k]? = none := List.getElem?_eq_none (Nat.not_lt.1 hk)
      simp only [List.getD_eq_getElem?_getD, List.getElem?_append_right (Nat.not_lt.1 hk), hnone, Option.getD_none,
        List.getElem?_replicate]
      split_ifs <;> rfl
  unfold recordTail
  rw [hpad]
  split_ifs <;> rfl

theorem recordBytes_seq : leAt (recordBytes y e st need bell pages) 0 4 = e.seq % 2 ^ 32 := by
  simp only [recordBytes_eq, recordHead, List.append_assoc]
  exact leAt_leBytes_append 4 e.seq _

theorem recordBytes_status : leAt (recordBytes y e st need bell pages) 6 1 = st % 256 := by
  simp only [recordBytes_eq, recordHead, List.append_assoc]
  refine (leAt_append_right (leBytes 4 e.seq) _ 2 1).trans ?_
  refine (leAt_append_right (leBytes 2 (if st = 0 then need else 0)) _ 0 1).trans ?_
  exact leAt_leBytes_append 1 st _

theorem recordBytes_bell : leAt (recordBytes y e st need bell pages) 8 4 = bell % 2 ^ 32 := by
  simp only [recordBytes_eq, recordHead, List.append_assoc]
  refine (leAt_append_right (leBytes 4 e.seq) _ 4 4).trans ?_
  refine (leAt_append_right (leBytes 2 (if st = 0 then need else 0)) _ 2 4).trans ?_
  refine (leAt_append_right (leBytes 1 st) _ 1 4).trans ?_
  refine (leAt_append_right (leBytes 1 0) _ 0 4).trans ?_
  exact leAt_leBytes_append 4 bell _

theorem recordBytes_length (h : pages.length ≤ y.words) : (recordBytes y e st need bell pages).length = 16 + 4 * y.words := by
  rw [recordBytes_eq, List.length_append, recordHead_length, flatMap_leBytes_length, recordTail_length y st pages h]

theorem recordBytes_word (h : pages.length ≤ y.words) {k : Nat} (hk : k < y.words) :
    leAt (recordBytes y e st need bell pages) (16 + 4 * k) 4 =
      (if st = 0 then (pages.map recordWord).getD k 0 else 0) % 2 ^ 32 := by
  rw [recordBytes_eq, ← recordHead_length e st need bell, leAt_append_right,
    leAt_words _ k (by rwa [recordTail_length y st pages h]), recordTail_word]

end

/-- A record fits its place. -/
theorem record_fits (n : Nat) : 16 + 4 * n ≤ recordSize n := by
  unfold recordSize ceilDiv
  omega

/-! The job of a lesson. -/

section
variable {s : State} {lt p cap l it : Nat} (hp : p = s.partOfLt lt) (hjob : s.jobRoster p = some (cap, l, it))
include hp hjob

theorem jobBegin_starts (halive : s.alive lt = true) (hworks : s.working p = true)
    (hvalid : tpRosterValid (armedProgram (s.tile lt)) = true) (hhalt : (s.tile lt).halted = false)
    (hbell : (s.crsOf p).lessonBell = jobStart (tpRosterCycle (armedProgram (s.tile lt))) cap / 3776)
    (hback : s.flag (TRN_STATUS_LT lt) TRN_STATUS_LT_fallback = false) : s.jobBegin lt =
      (({ s with cyc := jobStart (tpRosterCycle (armedProgram (s.tile lt))) cap % 3776 } : State).setB (TRN_STATUS_LT lt)
        TRN_STATUS_LT_busy (cap != 0)).modTile lt (fun y => { y with trnNext := 0 }) := by
  subst hp
  simp only [State.jobBegin, hjob]
  exact if_pos (by simp [halive, hworks, hvalid, hhalt, hbell, hback])

theorem jobBegin_fallback (hback : s.flag (TRN_STATUS_LT lt) TRN_STATUS_LT_fallback = true) : s.jobBegin lt = s := by
  subst hp
  simp only [State.jobBegin, hjob]
  exact if_neg (by simp [hback])

variable {a n x i : Nat} (ha : a = tpRosterAddr (armedProgram (s.tile lt))) (hn : n = leAt (tbPeek s.mem lt (a - 64) 64 true).1 8 2)
  (hx : x = jobStart (tpRosterCycle (armedProgram (s.tile lt))) cap + i * entryCycles n)
include ha hn hx

theorem translateEntry_next (halive : s.alive lt = true) (hworks : s.working p = true)
    (hbusy : s.flag (TRN_STATUS_LT lt) TRN_STATUS_LT_busy = true) (hbell : (s.crsOf p).lessonBell = x / 3776) (hcap : i < cap)
    (hnext : i = (s.tile lt).trnNext) : s.translateEntry lt i =
      let t := (({ s with cyc := x % 3776 } : State).translate lt i x cap a (firstBell (s.crsOf p) l it)).modTile lt (fun y =>
        { y with trnNext := i + 1 })
      if i + 1 = cap then t.setB (TRN_STATUS_LT lt) TRN_STATUS_LT_busy false else t := by
  subst hp ha hn hx
  simp only [State.translateEntry, hjob]
  exact if_pos (by simp [halive, hworks, hbusy, hbell, hcap, ← hnext])

omit ha hn hx in
theorem translateEntry_waits (h : cap ≤ i ∨ i ≠ (s.tile lt).trnNext) : s.translateEntry lt i = s := by
  subst hp
  simp only [State.translateEntry, hjob]
  refine if_neg ?_
  rcases h with hpast | hother
  · simp [Nat.not_lt.2 hpast]
  · simp [hother]

end

/-! One entry. -/

/-- An entry past the roster's end, with a bad plan, or of a lost area gets its status without its pages. -/
theorem translate_early {s u v w z : State} {lt i x cap a it st : Nat} {pd hd ed : List Byte} {pp hdp ep : List Bool} {dd : List Byte × List Bool}
    (hplan : s.trnRead lt x (a - 64) 64 = ((pd, pp), u)) (hhead : u.trnRead lt (x + 1) a 32 = ((hd, hdp), v))
    (hentry : v.trnRead lt (x + 2) (a + 32 + 16 * i) 16 = ((ed, ep), w))
    (hdir : w.trnRead lt (x + 3) (w.areaBase + 4 * ((entryOf ed).seq % 4096)) 4 = (dd, z))
    (hst : leAt hd 0x10 4 ≤ i ∧ st = 1 ∨ i < leAt hd 0x10 4 ∧ w.planBad (planOf pd) a cap = true ∧ st = 0x16 ∨
      i < leAt hd 0x10 4 ∧ w.planBad (planOf pd) a cap = false ∧ w.flag (TRN_STATUS_LT lt) TRN_STATUS_LT_area_lost = true ∧
        st = 0x17) :
    s.translate lt i x cap a it = (if noPlace (planOf pd) (i + 1) = true then z
      else z.trnWrite lt (x + 4 + 2 * (planOf pd).words) ((planOf pd).map + i * recordSize (planOf pd).words)
        (recordBytes (planOf pd) (entryOf ed) st
          (ceilDiv ((entryOf ed).position + (entryOf ed).newTokens) (planOf pd).tpp) it [])).recordDone lt (entryOf ed) st := by
  unfold State.translate
  rw [hplan]
  dsimp only
  rw [hhead]
  dsimp only
  rw [hentry]
  dsimp only
  rw [hdir]
  dsimp only
  rcases hst with ⟨hpast, rfl⟩ | ⟨hin, hbad, rfl⟩ | ⟨hin, hgood, hlost, rfl⟩
  · simp [hpast]
  · simp [hbad, Nat.not_le.2 hin]
  · simp [hgood, hlost, Nat.not_le.2 hin]

/-! The statuses. -/

theorem case_eq_zero {c : Prop} [Decidable c] {n x : Nat} (hn : n ≠ 0) : (if c then n else x) = 0 ↔ ¬ c ∧ x = 0 := by
  by_cases h : c
  · simp [h, hn]
  · simp [h]

/-- The status is 0 where no case applies. -/
theorem readStatus_zero (lt : Nat) (y : Plan) (e : RosterEntry) (opened poison : Bool) (need : Nat) (pages : List PageRead) :
    readStatus lt y e opened poison need pages = 0 ↔
      (poison = false ∧ (∀ r ∈ pages, r.poison = false) ∧ opened = true ∧ need ≤ y.words ∧ y.vpBase + need - 1 ≤ 4095 ∧
        (∀ r ∈ pages, wordValid r.word = true) ∧
        (∀ r ∈ pages.zip (List.range need), wordFrame r.1.word / 2048 = 8 * lt + (y.vpBase + r.2) % 8) ∧
        (bitSet e.flags 0 = true → ∀ r ∈ pages.zip (List.range need), e.position / y.tpp ≤ r.2 →
          r.2 ≤ (e.position + e.newTokens - 1) / y.tpp → r.1.count ≤ 1)) := by
  unfold readStatus
  rw [case_eq_zero (by decide), case_eq_zero (by decide), case_eq_zero (by decide), case_eq_zero (by decide),
    case_eq_zero (by decide), case_eq_zero (by decide)]
  have hpoison : ¬ (poison || pages.any (·.poison)) = true ↔ poison = false ∧ ∀ r ∈ pages, r.poison = false := by simp
  have hopen : ¬ (!opened) = true ↔ opened = true := by simp
  have hrange : ¬ (decide (y.words < need) || decide (4095 < y.vpBase + need - 1)) = true ↔
      need ≤ y.words ∧ y.vpBase + need - 1 ≤ 4095 := by simp
  have hvalid : ¬ pages.any (fun r => !wordValid r.word) = true ↔ ∀ r ∈ pages, wordValid r.word = true := by simp
  have hforeign : ¬ (pages.zip (List.range need)).any (fun r => wordForeign lt (y.vpBase + r.2) r.1.word) = true ↔
      ∀ r ∈ pages.zip (List.range need), wordFrame r.1.word / 2048 = 8 * lt + (y.vpBase + r.2) % 8 := by
    simp only [List.any_eq_true, not_exists, not_and, wordForeign, bne_iff_ne, not_not]
  have hshared : ¬ (bitSet e.flags 0 && (pages.zip (List.range need)).any (fun r => decide (e.position / y.tpp ≤ r.2) &&
      decide (r.2 ≤ (e.position + e.newTokens - 1) / y.tpp) && decide (1 < r.1.count))) = true ↔
      (bitSet e.flags 0 = true → ∀ r ∈ pages.zip (List.range need), e.position / y.tpp ≤ r.2 →
        r.2 ≤ (e.position + e.newTokens - 1) / y.tpp → r.1.count ≤ 1) := by
    simp only [Bool.and_eq_true, List.any_eq_true, not_exists, not_and, decide_eq_true_eq, and_imp, not_lt]
  rw [hpoison, hopen, hrange, hvalid, hforeign, hshared]
  simp only [and_assoc, and_true]

/-! A record that is written. -/

theorem trnStatus_ne_count (lt n : Nat) : TRN_STATUS_LT lt ≠ TRN_COUNT_LT n := by
  unfold TRN_STATUS_LT TRN_COUNT_LT
  omega

theorem recordDone_accepted (s : State) (lt : Nat) (e : RosterEntry) {st : Nat} (h : st < 0x10) :
    s.recordDone lt e st = s.setF (TRN_STATUS_LT lt) TRN_STATUS_LT_last_status st := by
  have hpoison : ¬ st = 0x15 := by omega
  simp only [State.recordDone, if_neg hpoison, if_neg (Nat.not_le.2 h)]

/-- A refused record after the first of its lesson. -/
theorem recordDone_refused {s : State} {lt : Nat} (e : RosterEntry) {st : Nat} (h : 0x10 ≤ st) (hpoison : st ≠ 0x15)
    (hsent : (s.tile lt).trnRefusedSent = true) : s.recordDone lt e st =
      (s.setF (TRN_STATUS_LT lt) TRN_STATUS_LT_last_status st).incF (TRN_COUNT_LT lt) TRN_COUNT_LT_refused 1 := by
  have hsent' : (((s.setF (TRN_STATUS_LT lt) TRN_STATUS_LT_last_status st).incF (TRN_COUNT_LT lt) TRN_COUNT_LT_refused 1).tile
      lt).trnRefusedSent = true := hsent
  simp only [State.recordDone, if_neg hpoison, if_pos h, hsent', if_true]

/-! The fall-back. -/

/-- A plan that is not bad gives every record of the roster its place. -/
theorem noPlace_of_planBad {s : State} {y : Plan} {a cap i : Nat} (h : s.planBad y a cap = false) (hi : i < cap) :
    noPlace y (i + 1) = false := by
  have hcap : noPlace y cap = false := by
    simp only [State.planBad, Bool.or_eq_false_iff] at h
    tauto
  have hfit : (i + 1) * recordSize y.words ≤ cap * recordSize y.words := Nat.mul_le_mul_right _ hi
  simp only [noPlace, Bool.or_eq_false_iff, decide_eq_false_iff_not] at hcap ⊢
  obtain ⟨hplace, hend⟩ := hcap
  exact ⟨hplace, by omega⟩

/-- The record that the control cores have written in the fall-back, d at o. -/
def State.fallWritten (s : State) (lt o size : Nat) (d : List Byte) : State :=
  ({ s with mem := forEach (sliceSpans o d.length) s.mem (fun m x => s.tbOutside lt (o + x.1) ((d.drop x.1).take x.2) [] 1 m) } :
    State).modTile lt (fun t => { t with fallBytes := t.fallBytes + if s.cyc < 3968 then 0 else size })

section
variable {s : State} {lt i l it : Nat} {c : Course} (hc : c = s.crsOf (s.partOfLt lt)) {r : Roster} {prev : Nat × Nat}
  (hfind : c.rosters.find? (fun r => r.committed && r.lesson == l && r.iter == it) = some r) (hprev : prevPos c l it = some prev)
  {t : List Byte} (ht : t = programOf c.image prev.1 lt) {cap : Nat} (hcap : cap = lsCapacity c.image l) {b dd : List Byte}
  {pp dp : List Bool} (hpeek : tbPeek s.mem lt (tpRosterAddr t - 64) 64 false = (b, pp)) {y : Plan} (hy : y = planOf b)
  {e : RosterEntry} (he : e = entryOf (bytesFrom r.data (32 + 16 * i) 16))
  (hdir : tbPeek s.mem lt (s.areaBase + 4 * (e.seq % 4096)) 4 false = (dd, dp))
include hc hfind hprev ht hcap hpeek hy he hdir

/-- The control cores write the record of an entry whose pages are all in range. -/
theorem fallbackRecord_writes (halive : s.alive lt = true) (hvalid : tpRosterValid t = true) (hi : i < cap)
    (hback : s.flag (TRN_STATUS_LT lt) TRN_STATUS_LT_fallback = true) (hroom : s.fallRoom lt (recordSize y.words) = true)
    (hin : i < leAt r.data 0x10 4) (hgood : s.planBad y (tpRosterAddr t) cap = false)
    (hlost : s.flag (TRN_STATUS_LT lt) TRN_STATUS_LT_area_lost = false) (hseq : e.seq < 4096) (hopen : dirOpen (leVal dd) = true)
    (harea : s.areaOn = true) {need : Nat} (hneed : need = ceilDiv (e.position + e.newTokens) y.tpp) (hwords : need ≤ y.words)
    (hrange : y.vpBase + need ≤ 4096) {pages : List PageRead} (hpages : pages = s.svcPages lt y (leVal dd) need) {st : Nat}
    (hst : st = readStatus lt y e true ((pp ++ dp).any id) need pages) {v : State}
    (hv : v = s.fallWritten lt (y.map + i * recordSize y.words) (recordSize y.words)
      (recordBytes y e st need (firstBell c l it) pages)) :
    s.fallbackRecord lt l it i = State.recordDone (if recordLate c l it prev (jobStart (tpRosterCycle t) cap +
      cap * entryCycles y.words + 16) = true then v.incF (TRN_COUNT_LT lt) TRN_COUNT_LT_fallback_late 1 else v) lt e st := by
  have hplace := noPlace_of_planBad hgood hi
  have hgo : (s.alive lt && tpRosterValid t && decide (i < cap) && s.flag (TRN_STATUS_LT lt) TRN_STATUS_LT_fallback &&
      s.fallRoom lt (recordSize y.words)) = true := by
    rw [halive, hvalid, decide_eq_true hi, hback, hroom]
    rfl
  have hopened : (decide (e.seq < 4096) && dirOpen (leVal dd) && s.areaOn) = true := by
    rw [decide_eq_true hseq, hopen, harea]
    rfl
  have hinRange : (decide (need ≤ y.words) && decide (y.vpBase + need ≤ 4096)) = true := by
    rw [decide_eq_true hwords, decide_eq_true hrange]
    rfl
  rw [State.fallbackRecord]
  dsimp only
  rw [← hc, hfind, hprev]
  dsimp only
  rw [← ht, ← hcap, hpeek]
  dsimp only
  rw [← hy, if_pos hgo, ← he, hdir]
  dsimp only
  rw [← hneed, hopened, hinRange, hgood, hlost, hplace, ← hpages]
  simp only [Nat.not_le.2 hin, if_false, Bool.false_eq_true, Bool.not_true, Bool.or_self, ← hst]
  subst hv
  rfl

end

/-- Settles O39: each clause is the rule of the job, the entry, the record or the status it names. -/
theorem translation : Obligations.Translation := by
  unfold Obligations.Translation
  intro s lt i p cap l it hon hp
  refine ⟨fun hjob halive hworks hvalid hhalt hbell =>
      ⟨fun hback => live_next hon (jobBegin_starts hp hjob halive hworks hvalid hhalt hbell hback),
        fun hback => live_next hon (jobBegin_fallback hp hjob hback)⟩,
    fun a n x hjob ha hn hx halive hworks hbusy hbell => ?entry,
    fun x a pd pp u hd hdp v ed ep w dd z st hplan hhead hentry hdir hst => translate_early hplan hhead hentry hdir hst,
    fun y e st need bell pages hlen hwords => ⟨recordBytes_length y e st need bell pages hlen, record_fits _,
      recordBytes_seq y e st need bell pages, recordBytes_status y e st need bell pages, recordBytes_bell y e st need bell pages,
      fun k hk => recordBytes_word y e st need bell pages hlen hk⟩,
    ?fallback, readStatus_zero lt, fun e st hlt => ⟨fun hlo hhi hpoison hsent => ?refused, fun hlow => ?accepted⟩⟩
  case entry =>
    have hnext := fun hcap hi => translateEntry_next hp hjob ha hn hx halive hworks hbusy hbell hcap hi
    exact ⟨fun hi hcap => live_next hon ((hnext (by omega) hi).trans (if_neg (by omega))),
      fun hi hcap => live_next hon ((hnext (by omega) hi).trans (if_pos hcap)),
      fun h => live_next hon (translateEntry_waits hp hjob h)⟩
  case fallback =>
    intro r prev b pp t u v y e dd dp need pages o d hfind hprev ht hcap halive hvalid hi hback hpeek hy he hdir hneed hin hgood
      hlost hseq hopen harea hwords hrange hpages hroom ho hd hu hv
    subst hp ho hd hv hu
    exact live_next hon (fallbackRecord_writes rfl hfind hprev ht hcap hpeek hy he hdir halive hvalid hi hback hroom hin hgood
      hlost hseq hopen harea hneed hwords hrange hpages rfl rfl)
  case refused =>
    rw [recordDone_refused e hlo hpoison hsent]
    refine ⟨?_, ?_, rfl⟩
    · rw [State.incF, getF_setF_reg _ _ _ _ (trnStatus_ne_count lt lt), getF_setF_lt _ _ (by decide) hhi]
    · rw [getF_incF _ _ _ (by decide), getF_setF_reg _ _ _ _ (trnStatus_ne_count lt lt).symm]
      rfl
  case accepted =>
    rw [recordDone_accepted s lt e hlow]
    exact ⟨getF_setF_lt _ _ (by decide) (by show st < 2 ^ 8; omega), fun a ha => (reg_setF _ _ _ _ _).trans (if_neg ha)⟩

end Sys2Proof.Machine
end

