-- ==== Sys2Proof/Proofs/MeshBeats.lean ====
section
/-! Timed beats of the data mesh: routes and latencies, injection, routing, ejection and their collisions (07 R216-R225). -/

namespace Sys2Proof.Machine

/-! Routes and their latencies (R219, R221). -/

theorem hopOf_none_iff (r c dr dc : Nat) : hopOf r c dr dc = none ↔ r = dr ∧ c = dc := by
  unfold hopOf
  split_ifs <;> simp <;> omega

/-- A hop is one router nearer; the row first, then the column. -/
theorem hopOf_nearer {r c dr dc : Nat} {h : Hop} (hhop : hopOf r c dr dc = some h) :
    h.cycles = 2 + 2 * seamsBetween r c h.row h.col ∧ absDiff h.row dr + absDiff h.col dc + 1 = absDiff r dr + absDiff c dc ∧
      (c ≠ dc → h.row = r) ∧ (c = dc → h.col = c) := by
  unfold hopOf at hhop
  unfold absDiff
  split_ifs at hhop
  all_goals
    obtain rfl := Option.some.inj hhop
    dsimp only [hopTo]
    refine ⟨rfl, ?_, ?_, ?_⟩ <;> omega

theorem le_foldl_max (l : List Nat) (k : Nat) : k ≤ l.foldl max k ∧ ∀ x ∈ l, x ≤ l.foldl max k := by
  induction l generalizing k with
  | nil => exact ⟨Nat.le_refl k, fun x hx => absurd hx List.not_mem_nil⟩
  | cons y l ih =>
    obtain ⟨hstart, hmem⟩ := ih (max k y)
    refine ⟨(Nat.le_max_left k y).trans hstart, fun x hx => ?_⟩
    rcases List.mem_cons.mp hx with rfl | hx
    · exact (Nat.le_max_right k x).trans hstart
    · exact hmem x hx

theorem foldl_max_le {l : List Nat} {n : Nat} (h : ∀ x ∈ l, x ≤ n) : l.foldl max 0 ≤ n :=
  foldl_keeps_mem (P := (· ≤ n)) l (fun _ x hx hk => Nat.max_le.2 ⟨hk, h x hx⟩) (Nat.zero_le n)

/-- Latency between the candidate seats i and j of the forms of two tiles. -/
theorem seatLatency_le_routeL (m n : Nat) {i j : Nat} (hi : i < 18) (hj : j < 18) :
    seatLatency (18 * ltForm m + i) (18 * ltForm n + j) ≤ routeL m n :=
  (le_foldl_max _ 0).2 _ (List.mem_flatMap.2 ⟨i, List.mem_range.2 hi, List.mem_map.2 ⟨j, List.mem_range.2 hj, rfl⟩⟩)

theorem routeL_le {m n k : Nat} (h : ∀ i j, i < 18 → j < 18 → seatLatency (18 * ltForm m + i) (18 * ltForm n + j) ≤ k) :
    routeL m n ≤ k := by
  refine foldl_max_le fun x hx => ?_
  obtain ⟨i, hi, hx⟩ := List.mem_flatMap.1 hx
  obtain ⟨j, hj, rfl⟩ := List.mem_map.1 hx
  exact h i j (List.mem_range.1 hi) (List.mem_range.1 hj)

theorem seatRow_of_form (f : Nat) {i : Nat} (h : i < 18) : seatRow (18 * f + i) = 8 * (f / 8) + 2 * (f % 4) + i / 9 := by
  unfold seatRow
  omega

theorem seatCol_of_form (f : Nat) {i : Nat} (h : i < 18) : seatCol (18 * f + i) = 9 * (f / 4 % 2) + i % 9 := by
  unfold seatCol
  omega

theorem boolNat_le_one (b : Bool) : boolNat b ≤ 1 := by
  cases b <;> decide

theorem absDiff_comm (a b : Nat) : absDiff a b = absDiff b a := by
  rw [absDiff, absDiff, Nat.max_comm, Nat.min_comm]

theorem seamsBetween_comm (r c r' c' : Nat) : seamsBetween r c r' c' = seamsBetween r' c' r c := by
  simp only [seamsBetween, bne_comm]

theorem seatLatency_comm (m n : Nat) : seatLatency m n = seatLatency n m := by
  simp only [seatLatency, absDiff_comm, seamsBetween_comm]

/-- No two seats of the sixteen forms are more than 72 cycles apart. -/
theorem seatLatency_le {f g i j : Nat} (hf : f < 16) (hg : g < 16) (hi : i < 18) (hj : j < 18) :
    seatLatency (18 * f + i) (18 * g + j) ≤ 72 := by
  have hrow := boolNat_le_one (seatRow (18 * f + i) / 8 != seatRow (18 * g + j) / 8)
  have hcol := boolNat_le_one (seatCol (18 * f + i) / 9 != seatCol (18 * g + j) / 9)
  unfold seatLatency seamsBetween absDiff
  rw [seatRow_of_form f hi, seatRow_of_form g hj, seatCol_of_form f hi, seatCol_of_form g hj] at *
  omega

/-- Two seats of one form are on the same side of every seam. -/
theorem seatLatency_form_le {f i j : Nat} (hi : i < 18) (hj : j < 18) : seatLatency (18 * f + i) (18 * f + j) ≤ 22 := by
  have hrow : seatRow (18 * f + i) / 8 = seatRow (18 * f + j) / 8 := by
    rw [seatRow_of_form f hi, seatRow_of_form f hj]
    omega
  have hcol : seatCol (18 * f + i) / 9 = seatCol (18 * f + j) / 9 := by
    rw [seatCol_of_form f hi, seatCol_of_form f hj]
    omega
  have hseams : seamsBetween (seatRow (18 * f + i)) (seatCol (18 * f + i)) (seatRow (18 * f + j)) (seatCol (18 * f + j)) = 0 := by
    rw [seamsBetween, hrow, hcol, bne_self_eq_false, bne_self_eq_false]
    rfl
  unfold seatLatency absDiff
  rw [hseams, seatRow_of_form f hi, seatRow_of_form f hj, seatCol_of_form f hi, seatCol_of_form f hj]
  omega

/-- The far corners of a form are 22 cycles apart. -/
theorem seatLatency_corners (f : Nat) : 22 ≤ seatLatency (18 * f + 0) (18 * f + 17) := by
  unfold seatLatency absDiff
  rw [seatRow_of_form f (by decide), seatRow_of_form f (by decide), seatCol_of_form f (by decide), seatCol_of_form f (by decide)]
  omega

theorem routeL_form {m n : Nat} (h : ltForm m = ltForm n) : routeL m n = 22 := by
  refine Nat.le_antisymm (routeL_le fun i j hi hj => ?_) ?_
  · rw [h]
    exact seatLatency_form_le hi hj
  · refine (seatLatency_corners (ltForm m)).trans ?_
    have hlat := seatLatency_le_routeL m n (i := 0) (j := 17) (by decide) (by decide)
    rwa [← h] at hlat

theorem routeL_comm_le (m n : Nat) : routeL m n ≤ routeL n m := by
  refine routeL_le fun i j hi hj => ?_
  rw [seatLatency_comm]
  exact seatLatency_le_routeL n m hj hi

theorem routeL_le_72 {m n : Nat} (hm : m < 256) (hn : n < 256) : routeL m n ≤ 72 :=
  routeL_le fun _ _ hi hj => seatLatency_le (by unfold ltForm; omega) (by unfold ltForm; omega) hi hj

/-! Poison of the spans. -/

theorem bitSet_withBit (v : Nat) {j k : Nat} (hj : j < 2) (hk : k < 2) :
    bitSet (withBit v j) k = (bitSet v k || decide (k = j)) := by
  have hbit : ∀ w i, bitSet w i = true ↔ w / 2 ^ i % 2 = 1 := fun w i => by rw [bitSet, bitAt, beq_iff_eq]
  rw [Bool.eq_iff_iff, Bool.or_eq_true, decide_eq_true_eq, hbit, hbit, withBit]
  by_cases hset : bitSet v j = true
  · rw [if_pos hset]
    rw [hbit] at hset
    exact ⟨Or.inl, fun h => h.elim id fun hkj => hkj ▸ hset⟩
  · rw [if_neg hset]
    rw [hbit] at hset
    interval_cases j <;> interval_cases k <;> simp only [pow_zero, pow_one, Nat.div_one, Nat.one_ne_zero, Nat.zero_ne_one, or_true, or_false, iff_true] at hset ⊢ <;>
      omega

/-! Injection. -/

section
variable {s g : State} {lt cycle : Nat} (hg : g = s.engines lt cycle)
include hg

theorem inject_none (h : g.offers lt cycle = []) : s.inject lt cycle = g := by
  subst hg
  rw [State.inject]
  dsimp only
  rw [h]
  rfl

theorem inject_one {b : Beat} (h : g.offers lt cycle = [b]) :
    s.inject lt cycle = ({ g with cyc := cycle % 4096 } : State).launch b := by
  subst hg
  have hfirst : [b].find? (fun y => [b].all (fun x => decide (y.unit ≤ x.unit))) = some b := by simp
  have hrest : [b].filter (fun x => x.id != b.id) = [] := by simp
  rw [State.inject]
  dsimp only
  rw [h, hfirst]
  dsimp only
  rw [hrest]
  rfl

theorem inject_two {b x : Beat} (hunit : b.unit < x.unit) (hid : b.id ≠ x.id) {v : State}
    (h : g.offers lt cycle = [b, x] ∨ g.offers lt cycle = [x, b]) (hv : v = ({ g with cyc := cycle % 4096 } : State).launch b) :
    s.inject lt cycle = (v.dropBeat x.id).collide lt (v.seatOf lt) cycle 0 := by
  subst hg hv
  have hnot : ¬ x.unit ≤ b.unit := Nat.not_le.2 hunit
  have hid' : x.id ≠ b.id := Ne.symm hid
  rw [State.inject]
  dsimp only
  rcases h with h | h
  · have hfirst : [b, x].find? (fun y => [b, x].all (fun z => decide (y.unit ≤ z.unit))) = some b := by simp [Nat.le_of_lt hunit]
    have hrest : [b, x].filter (fun z => z.id != b.id) = [x] := by simp [hid']
    rw [h, hfirst]
    dsimp only
    rw [hrest]
    rfl
  · have hfirst : [x, b].find? (fun y => [x, b].all (fun z => decide (y.unit ≤ z.unit))) = some b := by
      simp [Nat.le_of_lt hunit, hnot]
    have hrest : [x, b].filter (fun z => z.id != b.id) = [x] := by simp [hid']
    rw [h, hfirst]
    dsimp only
    rw [hrest]
    rfl

end

/-- The targets of a beat for one tile. -/
theorem meshTargets_single (s : State) (src dest : Nat) {mc : Nat} (h : mc = 0) :
    s.meshTargets src dest mc = if s.present dest = true then [dest] else [] := by
  rw [State.meshTargets, if_pos h, List.filter_cons]
  rfl

/-! Routing. -/

section
variable {s : State} {id corrected : Nat} {bad : List Nat} {d : Bool} {b c : Beat}

/-- A beat at a router, less the tiles that are gone. -/
theorem meshRoute_found (hfind : s.mesh.beats.find? (fun y => y.id == id && y.injected && y.kind != 2) = some b)
    (hc : c = { b with targets := b.targets.filter s.present }) : s.meshRoute id corrected bad d =
      if c.targets = [] then s.dropBeat id
      else match s.nextHops c with
        | some (h, ts) => s.routeTimed c h ts corrected bad d
        | none => s := by
  subst hc
  rw [State.meshRoute, hfind] <;> rfl

theorem routeTimed_lost {h : Hop} {l : List Nat} {u : State} (hu : u = { s with cyc := c.arrive % 4096 })
    (hlost : u.outputLost c h.out = true) :
    s.routeTimed c h l corrected bad d = (u.without c l).collide c.srcLt c.seat c.arrive 0 := by
  subst hu
  exact if_pos hlost

theorem routeTimed_passes {h : Hop} {l : List Nat} {u v : State} (hu : u = { s with cyc := c.arrive % 4096 })
    (hpass : u.outputLost c h.out = false) (hv : v = u.oust c h.out) :
    s.routeTimed c h l corrected bad d = ({ v with
      mesh := { v.mesh with uses := v.mesh.uses ++ [⟨c.seat, h.out, c.arrive, c.side, c.root, true⟩] } } : State).advance c h l
        c.arrive corrected bad d := by
  subst hu hv
  have hnot : ¬ ({ s with cyc := c.arrive % 4096 } : State).outputLost c h.out = true := by rw [hpass]; exact Bool.false_ne_true
  exact if_neg hnot

/-! Which of two beats passes. -/

theorem outputLost_of_use {out : Nat} {u : RouteUse} (hmem : u ∈ s.mesh.uses) (htimed : u.timed = true) (hseat : u.seat = b.seat)
    (hout : u.out = out) (hcycle : u.cycle = b.arrive) (hroot : u.beat ≠ b.root) (hside : u.side < b.side) :
    s.outputLost b out = true := by
  have hany : s.mesh.uses.any (fun u => u.timed && u.seat == b.seat && u.out == out && u.cycle == b.arrive && u.beat != b.root &&
      (decide (u.side < b.side) || (u.side == b.side && decide (u.beat < b.root)))) = true :=
    List.any_eq_true.2 ⟨u, hmem, by simp [htimed, hseat, hout, hcycle, hroot, hside]⟩
  rw [State.outputLost]
  exact (congrArg (· || _) hany).trans (Bool.true_or _)

theorem outputLost_of_need {out : Nat} {y : Beat} (hmem : y ∈ s.mesh.beats) (hinj : y.injected = true) (hkind : y.kind ≠ 2)
    (hroot : y.root ≠ b.root) (hseat : y.seat = b.seat) (harrive : y.arrive = b.arrive) (hneeds : s.needs y out = true)
    (hside : y.side < b.side) : s.outputLost b out = true := by
  have hin : y ∈ s.contenders b.seat out b.arrive b.root :=
    List.mem_filter.2 ⟨hmem, by simp [hinj, hkind, hroot, hseat, harrive, hneeds]⟩
  have hany : (s.contenders b.seat out b.arrive b.root).any (fun y =>
      (decide (y.side < b.side) || (y.side == b.side && decide (y.root < b.root)))) = true :=
    List.any_eq_true.2 ⟨y, hin, by simp [hside]⟩
  rw [State.outputLost]
  exact (congrArg (_ || ·) hany).trans (Bool.or_true _)

theorem output_free {out : Nat} (huses : s.mesh.uses = []) (hnone : s.contenders b.seat out b.arrive b.root = []) :
    s.outputLost b out = false ∧ s.oust b out = s := by
  constructor
  · rw [State.outputLost, huses, hnone]
    rfl
  · rw [State.oust, huses]
    rfl

theorem oust_one {out : Nat} {u : RouteUse} {x : Beat} (huses : s.mesh.uses = [u]) (htimed : u.timed = true) (hseat : u.seat = b.seat)
    (hout : u.out = out) (hcycle : u.cycle = b.arrive) (hroot : u.beat ≠ b.root)
    (hgone : s.mesh.beats.filter (fun y => y.root == u.beat && y.path.contains (b.seat, out)) = [x]) :
    s.oust b out = ({ s with mesh := { s.mesh with beats := s.mesh.beats.filter (fun y => y != x), uses := [] } } : State).collide
      x.srcLt b.seat b.arrive 0 := by
  have hlist : s.mesh.uses.filter (fun u => u.timed && u.seat == b.seat && u.out == out && u.cycle == b.arrive && u.beat != b.root) =
      [u] := by
    rw [huses]
    simp [htimed, hseat, hout, hcycle, hroot]
  have hothers : s.mesh.beats.filter (fun y => !([x] : List Beat).contains y) = s.mesh.beats.filter (fun y => y != x) :=
    List.filter_congr fun y _ => by rw [List.contains_eq_mem, bne, Bool.eq_iff_iff]; simp
  have herase : s.mesh.uses.erase u = [] := by rw [huses]; simp
  rw [State.oust]
  dsimp only
  rw [hlist]
  simp only [forEach, List.foldl_cons, List.foldl_nil, hgone, hothers, herase]
  rfl

end

/-! Ejection. -/

section
variable {s u v : State} {id t : Nat} {b x : Beat}

theorem meshEject_found (hfind : s.mesh.beats.find? (fun y => y.id == id && y.injected && y.kind != 2) = some b)
    (htile : b.targets.find? (fun t => s.present t && s.seatOf t == b.seat) = some t) (hx : x = { b with destLt := t }) :
    s.meshEject id = if s.ejectEarly x then s else (s.without b [t]).ejectBeat x := by
  subst hx
  rw [State.meshEject, hfind]
  dsimp only
  rw [htile]

theorem seatOf_cyc (s : State) (n lt : Nat) : ({ s with cyc := n } : State).seatOf lt = s.seatOf lt := rfl

/-- The copy of a beat at the ejection port of a seat. -/
def State.ejectAt (u : State) (x : Beat) (seat : Nat) : State :=
  if u.partOfLt x.srcLt ≠ u.partOfLt x.destLt then u.meshRecord seat (deliverCycle x) 2
  else if u.ejectLoses x then u.collide x.srcLt seat (deliverCycle x) 1
  else
    let v : State := { u with mesh := { u.mesh with uses := u.mesh.uses ++ [⟨seat, 4, deliverCycle x, x.side, x.root, true⟩] } }
    if !v.alive x.destLt then v else if x.kind = 1 then v.mergeBeat x
      else v.portWrite x.destLt (deliverCycle x) 1 6 x.dstOff x.data (beatPoison x) x.dstTag

theorem ejectBeat_at (hu : u = { s with cyc := deliverCycle x % 4096 }) : s.ejectBeat x = u.ejectAt x (u.seatOf x.destLt) := by
  have hseat : u.seatOf x.destLt = s.seatOf x.destLt := by rw [hu, seatOf_cyc]
  rw [hseat, hu]
  rfl

theorem ejectBeat_foreign (hu : u = { s with cyc := deliverCycle x % 4096 }) (hpart : u.partOfLt x.srcLt ≠ u.partOfLt x.destLt) :
    s.ejectBeat x = u.meshRecord (u.seatOf x.destLt) (deliverCycle x) 2 :=
  (ejectBeat_at hu).trans (if_pos hpart)

theorem ejectBeat_loses (hu : u = { s with cyc := deliverCycle x % 4096 }) (hpart : u.partOfLt x.srcLt = u.partOfLt x.destLt)
    (hlost : u.ejectLoses x = true) : s.ejectBeat x = u.collide x.srcLt (u.seatOf x.destLt) (deliverCycle x) 1 :=
  (ejectBeat_at hu).trans ((if_neg (not_not.2 hpart)).trans (if_pos hlost))

theorem ejectBeat_writes (hu : u = { s with cyc := deliverCycle x % 4096 }) (hpart : u.partOfLt x.srcLt = u.partOfLt x.destLt)
    (hkept : u.ejectLoses x = false) (hv : v = { u with
      mesh := { u.mesh with uses := u.mesh.uses ++ [⟨u.seatOf x.destLt, 4, deliverCycle x, x.side, x.root, true⟩] } }) :
    s.ejectBeat x = if !v.alive x.destLt then v else if x.kind = 1 then v.mergeBeat x
      else v.portWrite x.destLt (deliverCycle x) 1 6 x.dstOff x.data (beatPoison x) x.dstTag := by
  rw [ejectBeat_at hu, State.ejectAt, if_neg (not_not.2 hpart), hkept, if_neg Bool.false_ne_true, hv]

theorem mergeBeat_kept {k n : Nat} (h : s.mergeFor b.destLt b.srcLt (deliverCycle b) = some (k, n)) :
    s.mergeBeat b = s.modTile b.destLt (fun t => { t with
      mxe := { t.mxe with
        merges := tput t.mxe.merges (2 ^ 14 * k + n) ⟨b.data, b.poison, signedOf b.dstOff 10⟩ } }) := by
  rw [State.mergeBeat]
  dsimp only
  rw [h]

theorem mergeBeat_dropped (h : s.mergeFor b.destLt b.srcLt (deliverCycle b) = none) :
    s.mergeBeat b = s.setB (MXE_STATUS_LT b.destLt) MXE_STATUS_LT_merge_dropped true := by
  rw [State.mergeBeat]
  dsimp only
  rw [h]

end

/-! What is recorded of a collision. -/

section
variable {s : State} {seat k n t : Nat}

theorem meshRecord_valid (h : s.flag MESH_CONFLICT MESH_CONFLICT_valid = true) : s.meshRecord seat k n = s := if_pos h

/-- The word that records a collision or a discard. -/
def conflictWord (t k n : Nat) : Word := BitVec.ofNat 32 (t + 2 ^ 8 * (k % 4096) + 2 ^ 20 * n + 2 ^ 31)

theorem meshRecord_records (h : s.flag MESH_CONFLICT MESH_CONFLICT_valid = false) (hseat : s.ltAtSeat seat = some t) :
    s.meshRecord seat k n = (s.setReg MESH_CONFLICT (conflictWord t k n)).drawn 1 := by
  rw [State.meshRecord, h, hseat]
  rfl

theorem conflictWord_fields (ht : t < 256) (hn : n < 4) :
    fldGet (conflictWord t k n) MESH_CONFLICT_lt = t ∧ fldGet (conflictWord t k n) MESH_CONFLICT_valid = 1 := by
  have hword : (conflictWord t k n).toNat = t + 2 ^ 8 * (k % 4096) + 2 ^ 20 * n + 2 ^ 31 := by
    rw [conflictWord, BitVec.toNat_ofNat]
    omega
  constructor
  · rw [fldGet, hword]
    simp only [MESH_CONFLICT_lt]
    omega
  · rw [fldGet, hword]
    simp only [MESH_CONFLICT_valid]
    omega

theorem reg_drawn (s : State) (n a : Nat) : (s.drawn n).reg a = s.reg a := rfl

end

/-- A link without an uncorrectable word counts what it corrected. -/
theorem linkErrors_good (s : State) (b : Beat) (corrected : Nat) : s.linkErrors b corrected [] false =
    ((s.incF (MESH_ERRORS_SEAT b.seat) MESH_ERRORS_SEAT_link_corrected corrected).incF (MESH_ERRORS_SEAT b.seat)
      MESH_ERRORS_SEAT_link_uncorrected 0).putBeat b := rfl

theorem overDead_here {s : State} (r c k : Nat) {h : Hop} (halive : s.bypassed (seatAt h.row h.col) = false) :
    s.overDead r c (k + 1) h = h := by
  rw [State.overDead, halive]
  rfl

theorem overDead_on {s : State} {r c : Nat} (k : Nat) {h n : Hop} (hdead : s.bypassed (seatAt h.row h.col) = true)
    (hnext : hopOf h.row h.col r c = some n) :
    s.overDead r c (k + 1) h = s.overDead r c k { n with out := h.out, cycles := h.cycles + n.cycles } := by
  rw [State.overDead, hdead, hnext]
  rfl

/-- Settles O40: each clause is the rule of the router, the link or the port it names. -/
theorem meshBeats : Obligations.MeshBeats := by
  unfold Obligations.MeshBeats
  intro s g lt cycle id corrected bad b x hon hg
  refine ⟨fun h => live_next hon (inject_one hg h), fun v hunit hid h hv => live_next hon (inject_two hg hunit hid h hv),
    fun h => live_next hon (inject_none hg h), fun l hl => ?launch, fun c d hfind hc => ?route,
    fun out => ⟨fun u hmem htimed hseat hout hcycle hroot hside => outputLost_of_use hmem htimed hseat hout hcycle hroot hside,
      fun y hmem hinj hkind hroot hseat harrive hneeds hside =>
        outputLost_of_need hmem hinj hkind hroot hseat harrive hneeds hside,
      output_free, fun u huses htimed hseat hout hcycle hroot hgone => oust_one huses htimed hseat hout hcycle hroot hgone⟩,
    fun t u hfind htile hx => ?eject, fun k n h => mergeBeat_kept h, mergeBeat_dropped, fun seat k h => meshRecord_valid h,
    fun seat k n t hvalid hseat ht hn => ?record, fun _ => linkErrors_good s b corrected,
    fun w k hw hk => ?poison, fun r c k h => ⟨overDead_here r c k, fun n hdead hnext => overDead_on k hdead hnext⟩,
    fun r c dr dc => ⟨hopOf_none_iff r c dr dc, fun h hhop => hopOf_nearer hhop⟩,
    fun m n hm hn => ⟨routeL_form, routeL_le_72 hm hn, Nat.le_antisymm (routeL_comm_le m n) (routeL_comm_le n m),
      fun i j hi hj => seatLatency_le_routeL m n hi hj⟩, rfl⟩
  case launch =>
    subst hl
    exact ⟨fun hnone => if_pos hnone, fun hsome => if_neg hsome, meshTargets_single s b.srcLt b.destLt⟩
  case route =>
    have hroute := meshRoute_found (corrected := corrected) (bad := bad) (d := d) hfind hc
    refine ⟨fun hnone => live_next hon (hroute.trans (if_pos hnone)),
      fun hsome hstay => live_next hon (hroute.trans ((if_neg hsome).trans ?_)), fun h l u hsome hnext hu => ?_⟩
    · rw [hstay]
    · have htimed : s.meshRoute id corrected bad d = s.routeTimed c h l corrected bad d := by
        rw [hroute, if_neg hsome, hnext]
      subst hc
      exact ⟨fun hlost => live_next hon (htimed.trans (routeTimed_lost hu hlost)),
        fun v hpass hv => live_next hon (htimed.trans (routeTimed_passes hu hpass hv))⟩
  case eject =>
    have heject := meshEject_found hfind htile hx
    refine ⟨fun hearly => live_next hon (heject.trans (if_pos hearly)), fun hlate hu => ?_⟩
    have hout : s.meshEject id = (s.without b [t]).ejectBeat x := heject.trans (if_neg (by rw [hlate]; exact Bool.false_ne_true))
    subst hx
    refine ⟨fun hpart => live_next hon (hout.trans (ejectBeat_foreign hu hpart)),
      fun hpart hlost => live_next hon (hout.trans (ejectBeat_loses hu hpart hlost)), fun v hpart hkept hv => ?_⟩
    have hwrites := hout.trans (ejectBeat_writes hu hpart hkept hv)
    dsimp only at hwrites
    refine ⟨fun halive hkind => live_next hon (hwrites.trans ?_), fun halive hkind => live_next hon (hwrites.trans ?_),
      fun hdead => live_next hon (hwrites.trans ?_)⟩
    · rw [halive, Bool.not_true, if_neg Bool.false_ne_true, if_pos hkind]
    · rw [halive, Bool.not_true, if_neg Bool.false_ne_true, if_neg hkind]
      rfl
    · rw [hdead]
      rfl
  case record =>
    obtain ⟨hlt, hval⟩ := conflictWord_fields (k := k) ht hn
    have hself : ((s.setReg MESH_CONFLICT (conflictWord t k n)).drawn 1).reg MESH_CONFLICT = conflictWord t k n := by
      rw [reg_drawn, reg_setReg, if_pos rfl]
    rw [meshRecord_records hvalid hseat]
    refine ⟨?_, ?_, fun a ha => ?_⟩
    · rw [State.getF, hself, hlt]
    · rw [State.flag, State.getF, hself, hval]
      rfl
    · rw [reg_drawn, reg_setReg, if_neg ha]
  case poison =>
    have hspan : w % 16 = w := Nat.mod_eq_of_lt hw
    rw [List.foldl_cons, List.foldl_nil, bitSet_withBit _ (by omega) hk, hspan]

end Sys2Proof.Machine
end

