-- ==== Sys2Proof/Proofs/ServiceAndControl.lean ====
section
/-! Service beats, hall passes and the messages of the control network (07 R226-R231). -/

namespace Sys2Proof.Machine

/-! Service beats. -/

section
variable {s : State} {id cycle corrected : Nat} {bad : List Nat} {d : Bool} {b : Beat}

/-- A service beat whose tile is present moves unless it has moved in this cycle already. -/
theorem serviceAdvance_found (hfind : s.mesh.beats.find? (fun x => x.id == id && x.injected && x.kind == 2) = some b)
    (hpresent : s.present b.destLt = true) : s.serviceAdvance id cycle corrected bad d =
      if b.injBell = s.bellCount && cycle < b.arrive then s
      else match s.hop b b.destLt with
        | none => s.writeService b cycle
        | some h =>
          if s.linkBusy b.seat h.out cycle || 4 ≤ s.atInput (seatAt h.row h.col) h.side then s
          else
            let u : State := { s with mesh := { s.mesh with uses := s.mesh.uses ++ [⟨b.seat, h.out, cycle, b.side, b.root, false⟩] } }
            let v := u.advance { b with injBell := s.bellCount } h b.targets cycle corrected bad d
            if d then v.passBack b.destLt 1 else v := by
  have hhere : ¬ (!s.present b.destLt) = true := by simp [hpresent]
  rw [State.serviceAdvance, hfind]
  exact if_neg hhere

theorem serviceAdvance_gone (hfind : s.mesh.beats.find? (fun x => x.id == id && x.injected && x.kind == 2) = some b)
    (hgone : s.present b.destLt = false) :
    s.serviceAdvance id cycle corrected bad d = (s.dropBeat id).passBack b.destLt 1 := by
  rw [State.serviceAdvance, hfind]
  exact if_pos (by rw [hgone]; rfl)

/-! The service port. -/

variable {v : State} (hv : v = s.engines b.destLt cycle)
include hv

theorem writeService_foreign (hpart : v.partOfLt b.srcLt ≠ v.partOfLt b.destLt) :
    s.writeService b cycle = ((v.dropBeat b.id).meshRecord b.seat cycle 2).passBack b.destLt 1 := by
  subst hv
  exact if_pos hpart

theorem writeService_waits (hpart : v.partOfLt b.srcLt = v.partOfLt b.destLt) (hused : ∃ u ∈ (v.tile b.destLt).uses,
    u.cycle = cycle ∧ u.port = 1 ∧ u.slice ∈ slicesOf b.dstOff b.data.length) : s.writeService b cycle = v := by
  subst hv
  obtain ⟨u, hmem, hcycle, hport, hslice⟩ := hused
  exact (if_neg (not_not.2 hpart)).trans (if_pos (List.any_eq_true.2 ⟨u, hmem, by simp [hcycle, hport, hslice]⟩))

theorem writeService_writes (hpart : v.partOfLt b.srcLt = v.partOfLt b.destLt) (hfree : ∀ u ∈ (v.tile b.destLt).uses,
      u.cycle = cycle → u.port = 1 → u.slice ∉ slicesOf b.dstOff b.data.length) (halive : v.alive b.destLt = true) :
    s.writeService b cycle = ({ v with
      mesh := { v.mesh with beats := v.mesh.beats.filter (fun x => x.id != b.id) }
      mem := tbWrite v.mem b.destLt b.dstOff b.data (beatPoison b) 1 } : State).passBack b.destLt 1 := by
  subst hv
  have hnone : ¬ ((s.engines b.destLt cycle).tile b.destLt).uses.any (fun u =>
      u.cycle == cycle && u.port == 1 && (slicesOf b.dstOff b.data.length).contains u.slice) = true := by
    simp only [List.any_eq_true, not_exists, not_and, Bool.and_eq_true, beq_iff_eq, List.contains_iff_mem, and_imp]
    exact hfree
  have halive' : ((s.engines b.destLt cycle).dropBeat b.id).alive b.destLt = true := halive
  rw [State.writeService]
  dsimp only
  rw [if_neg (not_not.2 hpart), if_neg hnone, if_pos halive']
  rfl

end

/-! Hall passes. -/

section
variable {s : State} {lt c dest n : Nat}

theorem hallReq_joins (hlt : lt < 256) (hc : c < 8) (hpresent : s.present dest = true) (hposts : (s.chan (8 * lt + c)).posts ≠ [])
    (hn : 1 ≤ n) (hroom : (s.chan (8 * lt + c)).passes + s.hallAsked (8 * lt + c) + n ≤ 16)
    (honly : s.hallOnly (8 * lt + c) dest = true)
    (hheld : (s.chan (8 * lt + c)).passes = 0 ∨ (s.chan (8 * lt + c)).passTile = dest) :
    s.hallReq lt c dest n = s.modTile dest (fun t => { t with hallQueue := t.hallQueue ++ [(8 * lt + c, n)] }) := by
  have hdest : dest < 256 := by
    simp only [State.present, Bool.and_eq_true, decide_eq_true_eq] at hpresent
    exact hpresent.1
  refine if_pos ?_
  simp [hlt, hc, hdest, hpresent, hposts, hn, hroom, honly, hheld]

theorem hallReq_refused (h : 16 < (s.chan (8 * lt + c)).passes + s.hallAsked (8 * lt + c) + n ∨ n = 0 ∨
    s.hallOnly (8 * lt + c) dest = false) : s.hallReq lt c dest n = s := by
  refine if_neg ?_
  rcases h with hmany | rfl | hother
  · simp [Nat.not_le.2 hmany]
  · simp
  · simp [hother]

theorem hallGrant_grants {g k f : Nat} {rest : List (Nat × Nat)} (hqueue : (s.tile lt).hallQueue = (g, k) :: rest)
    (hf : f = s.getF (TB_HALL_LT lt) TB_HALL_LT_free) (hk : 0 < k) (hpos : 0 < f) : s.hallGrant lt =
      ((s.setF (TB_HALL_LT lt) TB_HALL_LT_free (f - min k f)).modTile lt (fun t => { t with
        hallQueue := if f < k then (g, k - f) :: rest else rest })).modChan g (fun v => { v with
          passes := v.passes + min k f, passTile := lt }) := by
  have hsome : ¬ min k f = 0 := by omega
  have hrest : (if min k f < k then (g, k - min k f) :: rest else rest) = if f < k then (g, k - f) :: rest else rest := by
    by_cases hfew : f < k
    · rw [if_pos hfew, if_pos (by omega), Nat.min_eq_right (Nat.le_of_lt hfew)]
    · rw [if_neg hfew, if_neg (by omega)]
  rw [State.hallGrant, hqueue]
  dsimp only
  rw [← hf, if_neg hsome, hrest]

theorem hallGrant_waits (hfree : s.getF (TB_HALL_LT lt) TB_HALL_LT_free = 0) : s.hallGrant lt = s := by
  rw [State.hallGrant]
  split
  · dsimp only
    rw [hfree]
    exact if_pos (Nat.min_zero _)
  · rfl

theorem hallReturn_one {k : Nat} (howed : (s.chan (8 * lt + c)).owed = [(k, n)]) :
    s.hallReturn lt c = (s.passBack k n).modChan (8 * lt + c) (fun v => { v with owed := [] }) := by
  rw [State.hallReturn, howed]
  rfl

theorem passBack_leaves : (s.passBack lt n).getF (TB_HALL_LT lt) TB_HALL_LT_free =
      min 16 (s.getF (TB_HALL_LT lt) TB_HALL_LT_free + n) ∧
    s.passBack lt n = { s with regs := (s.passBack lt n).regs } ∧
    ∀ a, a ≠ TB_HALL_LT lt → (s.passBack lt n).reg a = s.reg a :=
  ⟨getF_setF_lt s _ (by decide) (lt_of_le_of_lt (Nat.min_le_left _ _) (by decide)), rfl,
    fun a ha => (reg_setF s _ _ _ a).trans (if_neg ha)⟩

/-- The transfer at the front of a channel ends; its passes are owed to their tile. -/
theorem dropPost_chan : (s.dropPost lt c).chan (8 * lt + c) = { s.chan (8 * lt + c) with
    posts := (s.chan (8 * lt + c)).posts.drop 1, passes := 0
    owed := if (s.chan (8 * lt + c)).passes = 0 then (s.chan (8 * lt + c)).owed
      else (s.chan (8 * lt + c)).owed ++ [((s.chan (8 * lt + c)).passTile, (s.chan (8 * lt + c)).passes)] } := by
  rw [State.dropPost, chan_modChan, if_pos rfl]
  rfl

end

/-! The control network. -/

section
variable {s u : State} {m : CnetMsg} {typ corrected : Nat} {d : Bool} {k : List CnetMsg} {f : State → CnetMsg → State}
  (hu : u = ((({ s with mesh := { s.mesh with msgs := k } } : State).trace 0 none none none).incF CNET_ERRORS
    CNET_ERRORS_word_corrected corrected))
include hu

theorem onCnet_drops (hbad : cnetVoid m = true ∨ d = true)
    (hk : (m.prio = false ∨ m.second = true) ∧ k = s.mesh.msgs.erase m ∨ m.prio = true ∧ m.second = false ∧
      k = if { m with second := true } ∈ s.mesh.msgs.erase m then s.mesh.msgs.erase m
        else { m with second := true } :: s.mesh.msgs.erase m) :
    s.onCnet m typ corrected d f = u.incF CNET_ERRORS CNET_ERRORS_word_dropped (1 + m.words.length) := by
  have hdrop : (d || cnetVoid m) = true := by rcases hbad with h | h <;> simp [h]
  have hmsgs : (if !m.prio || m.second then s.mesh.msgs.erase m
      else if !(d || cnetVoid m) then (s.mesh.msgs.erase m).erase { m with second := true }
      else if (s.mesh.msgs.erase m).contains { m with second := true } then s.mesh.msgs.erase m
      else { m with second := true } :: s.mesh.msgs.erase m) = k := by
    rcases hk with ⟨hplain, rfl⟩ | ⟨hprio, hfirst, rfl⟩
    · exact if_pos (by rcases hplain with h | h <;> simp [h])
    · rw [hdrop, hprio, hfirst]
      simp only [List.contains_iff_mem]
      rfl
  subst hu
  rw [State.onCnet]
  dsimp only
  rw [hmsgs, hdrop]
  rfl

theorem onCnet_good (hgood : cnetVoid m = false)
    (hk : m.prio = false ∧ m.second = false ∧ k = s.mesh.msgs.erase m ∨
      m.prio = true ∧ m.second = false ∧ k = (s.mesh.msgs.erase m).erase { m with second := true } ∨
      m.second = true ∧ k = s.mesh.msgs.erase m) :
    s.onCnet m typ corrected false f = if (m.second && !s.mesh.msgs.contains m) || m.typ ≠ typ then u
      else forEach (u.cnetNodes m) u (fun v x => f v { m with dest := x }) := by
  have hmsgs : (if !m.prio || m.second then s.mesh.msgs.erase m
      else if !(false || cnetVoid m) then (s.mesh.msgs.erase m).erase { m with second := true }
      else if (s.mesh.msgs.erase m).contains { m with second := true } then s.mesh.msgs.erase m
      else { m with second := true } :: s.mesh.msgs.erase m) = k := by
    rcases hk with ⟨hplain, -, rfl⟩ | ⟨hprio, hfirst, rfl⟩ | ⟨hsecond, rfl⟩
    · exact if_pos (by simp [hplain])
    · rw [hgood, hprio, hfirst]
      rfl
    · exact if_pos (by simp [hsecond])
  subst hu
  rw [State.onCnet]
  dsimp only
  rw [hmsgs, hgood]
  rfl

theorem onCnet_acts (hgood : cnetVoid m = false) (htyp : m.typ = typ)
    (hk : m.prio = false ∧ m.second = false ∧ k = s.mesh.msgs.erase m ∨
      m.prio = true ∧ m.second = false ∧ k = (s.mesh.msgs.erase m).erase { m with second := true } ∨
      m.second = true ∧ m ∈ s.mesh.msgs ∧ k = s.mesh.msgs.erase m) :
    s.onCnet m typ corrected false f = forEach (u.cnetNodes m) u (fun v x => f v { m with dest := x }) := by
  refine (onCnet_good hu hgood ?_).trans (if_neg ?_)
  · rcases hk with h | h | ⟨hsecond, -, hlist⟩
    · exact .inl h
    · exact .inr (.inl h)
    · exact .inr (.inr ⟨hsecond, hlist⟩)
  · rcases hk with ⟨-, hfirst, -⟩ | ⟨-, hfirst, -⟩ | ⟨-, hmem, -⟩
    · simp [hfirst, htyp]
    · simp [hfirst, htyp]
    · simp [hmem, htyp]

theorem onCnet_twin (hgood : cnetVoid m = false) (hsecond : m.second = true) (hmem : m ∉ s.mesh.msgs)
    (hk : k = s.mesh.msgs.erase m) : s.onCnet m typ corrected false f = u :=
  (onCnet_good hu hgood (.inr (.inr ⟨hsecond, hk⟩))).trans (if_pos (by simp [hsecond, hmem]))

end

theorem cnetVoid_of {m : CnetMsg} (h : 10 < m.typ ∨ ((m.typ = 8 ∨ m.typ = 9) ∧ m.prio = false) ∨ 3 < m.words.length ∨
    (m.bcast = false ∧ m.dest < 256 ∧ m.seat = none)) : cnetVoid m = true := by
  have hwords : 4 < cnetWords m ↔ 3 < m.words.length := by unfold cnetWords; omega
  simp only [cnetVoid, Bool.or_eq_true, Bool.and_eq_true, decide_eq_true_eq, beq_iff_eq, Bool.not_eq_true', Option.isNone_iff_eq_none,
    hwords]
  tauto

theorem cnetNodes_of (s : State) (m : CnetMsg) : (m.bcast = true → s.cnetNodes m = s.tilesOf (m.payload % 4)) ∧
    (m.bcast = false → m.dest < 256 → s.cnetNodes m = if m.seat = some (s.seatOf m.dest) then [m.dest] else []) ∧
    (m.bcast = false → 256 ≤ m.dest → s.cnetNodes m = [m.dest]) := by
  refine ⟨fun hall => if_pos hall, fun hone hlt => ?_, fun hone hge => ?_⟩
  · rw [State.cnetNodes, hone, if_neg Bool.false_ne_true, if_pos hlt]
  · rw [State.cnetNodes, hone, if_neg Bool.false_ne_true, if_neg (Nat.not_lt.2 hge)]

theorem cnetPost_posts {s : State} {m : CnetMsg} (halive : s.alive m.dest = true) (hreset : s.clock.resetBegun = false) :
    ∃ x : ServicePost,
      s.cnetPost m = s.modChan (8 * m.dest + m.payload % 8) (fun v => { v with posts := v.posts ++ [x] }) ∧
      x.src = m.words.getD 0 0 % 2 ^ 48 ∧ x.dst = m.words.getD 1 0 % 2 ^ 48 ∧ x.bytes = m.payload % 2 ^ 32 / 8 + 1 := by
  have hgo : (s.alive m.dest && !s.clock.resetBegun) = true := by rw [halive, hreset]; rfl
  exact ⟨_, if_pos hgo, rfl, rfl, rfl⟩

/-- Settles O41: each clause is the rule of the beat, the pass or the message it names. -/
theorem serviceAndControl : Obligations.ServiceAndControl := by
  unfold Obligations.ServiceAndControl
  intro s id cycle corrected lt c dest n bad d b m hon
  refine ⟨fun hfind => ?service, fun v hv => ⟨fun hpart => writeService_foreign hv hpart, fun hpart =>
      ⟨fun hused => writeService_waits hv hpart hused, fun hfree halive => writeService_writes hv hpart hfree halive⟩⟩,
    fun hlt hc hpresent hposts hn hroom honly hheld =>
      live_next hon (hallReq_joins hlt hc hpresent hposts hn hroom honly hheld),
    fun h => live_next hon (hallReq_refused h),
    fun g k rest f hlt hqueue hf hk hpos => live_next hon ((if_pos hlt).trans (hallGrant_grants hqueue hf hk hpos)),
    fun hlt hfree => live_next hon ((if_pos hlt).trans (hallGrant_waits hfree)),
    fun k hlt hc howed => live_next hon ((if_pos (by simp [hlt, hc])).trans (hallReturn_one howed)), dropPost_chan,
    fun _ => passBack_leaves, fun row hrow k u l hl hu => ?rows, cnetVoid_of, cnetNodes_of s m,
    ⟨fun hreg => if_pos hreg, fun hreg => if_neg hreg⟩, fun halive => if_pos halive, cnetPost_posts⟩
  case service =>
    refine ⟨fun hgone => live_next hon (serviceAdvance_gone hfind hgone), fun hpresent hbell hearly => ?_, fun hpresent hdue => ?_⟩
    all_goals have hadv := serviceAdvance_found (cycle := cycle) (corrected := corrected) (bad := bad) (d := d) hfind hpresent
    · exact live_next hon (hadv.trans (if_pos (by simp [hbell, hearly])))
    · have hgo : ¬ (decide (b.injBell = s.bellCount) && decide (cycle < b.arrive)) = true := by
        simp only [Bool.and_eq_true, decide_eq_true_eq, not_and, Nat.not_lt]
        exact hdue
      rw [if_neg hgo] at hadv
      refine ⟨fun hhop => live_next hon ?_, fun h hhop hbusy => live_next hon ?_, fun h u v hhop hfree hroom hu hv => ?_⟩
      · rw [hadv, hhop]
      · rw [hadv, hhop]
        refine if_pos ?_
        rcases hbusy with h | h <;> simp [h]
      · have hmove : ¬ (s.linkBusy b.seat h.out cycle || decide (4 ≤ s.atInput (seatAt h.row h.col) h.side)) = true := by
          simp [hfree, hroom]
        rw [hhop] at hadv
        dsimp only at hadv
        rw [if_neg hmove, ← hu, ← hv] at hadv
        exact ⟨fun hd => live_next hon (hadv.trans (if_neg (by simp [hd]))), fun hd => live_next hon (hadv.trans (if_pos hd))⟩
  case rows =>
    have hexec : ∀ e, exec (row.1 e) s = live s (s.onCnet m row.2.1 corrected e row.2.2) := by
      clear hu hl
      revert row
      simp only [List.forall_mem_cons]
      exact ⟨fun _ => rfl, fun _ => rfl, fun _ => rfl, fun _ => rfl, fun _ => rfl, fun _ => rfl, List.forall_mem_nil _⟩
    subst hl
    exact ⟨fun hgood htyp hk => (hexec false).trans (live_next hon (onCnet_acts hu hgood htyp hk)),
      fun hgood hsecond hmem hk => (hexec false).trans (live_next hon (onCnet_twin hu hgood hsecond hmem hk)),
      fun hbad hk => (hexec d).trans (live_next hon (onCnet_drops hu hbad hk))⟩

end Sys2Proof.Machine
end

