-- ==== Sys2Proof/Proofs/PortPrograms.lean ====
section
/-! The frames of port programs: the entries that fall, sending and receiving, sums and votes (12 R328, R329, R337-R344). -/

namespace Sys2Proof.Machine

/-! Sums and signs. -/

theorem addWrap_range (a b : Int) : (addWrap a b 32 - (a + b)) % 2 ^ 32 = 0 ∧ -(2 ^ 31) ≤ addWrap a b 32 ∧ addWrap a b 32 < 2 ^ 31 := by
  have hsum : ((a + b).bmod (2 ^ 32)) % 2 ^ 32 = (a + b) % 2 ^ 32 := Int.bmod_emod
  have hlo : -((2 : Nat) ^ 32 : Nat) / 2 ≤ (a + b).bmod (2 ^ 32) := Int.le_bmod (by decide)
  have hhi : (a + b).bmod (2 ^ 32) < ((2 : Nat) ^ 32 + 1 : Int) / 2 := Int.bmod_lt (by decide)
  rw [addWrap_eq_bmod]
  refine ⟨?_, ?_, ?_⟩
  · rw [Int.sub_emod, hsum, Int.sub_self]
    rfl
  · omega
  · omega

/-- A number packed as INT32. -/
theorem packElems_int32 (l : List Int) : packElems fINT32 l = l.flatMap (fun v => leBytes 4 (codeOf v 32)) := rfl

section
variable {planes : List Nat} {n e c : Nat}
  (hc : c = (((planes.drop 1).zip (List.range planes.length)).map (fun x => bitAt x.1 e * 2 ^ x.2)).sum)
include hc

theorem signBit_eq : signBit planes n e = if n < 2 * c then 1 else if 2 * c < n then 0 else bitAt (planes.headD 0) e := by
  rw [signBit, hc, List.sum_eq_foldl, List.foldl_map]

theorem signBit_vote : (n < 2 * c → signBit planes n e = 1) ∧ (2 * c < n → signBit planes n e = 0) ∧
    (2 * c = n → signBit planes n e = bitAt (planes.headD 0) e) := by
  rw [signBit_eq hc]
  exact ⟨fun h => if_pos h, fun h => (if_neg (by omega)).trans (if_pos h), fun h => (if_neg (by omega)).trans (if_neg (by omega))⟩

end

/-! Entries. -/

section
variable {s : State} {port idx i op : Nat} {w : PortWork}

/-- The frame of an entry that falls: its place, its cycle, and why it falls. -/
theorem portWork_some (h : s.portWork port idx i op = some w) : w.port = port ∧ w.i = i ∧ i < peFrames w.desc ∧
    w.t = dStartCycle w.desc + i * peGap w.desc ∧ (s.port port).quiesced = false ∧ s.working (s.partOfPort port) = true ∧
    dStartBell w.desc = (s.crsOf (s.partOfPort port)).lessonBell := by
  unfold State.portWork at h
  dsimp only at h
  split_ifs at h with hgo
  simp only [Bool.and_eq_true, decide_eq_true_eq, Bool.not_eq_true'] at hgo
  obtain ⟨⟨⟨⟨⟨⟨-, -⟩, -⟩, hframes⟩, hworks⟩, hquiet⟩, hbell⟩ := hgo
  obtain rfl := Option.some.inj h
  exact ⟨rfl, rfl, hframes, rfl, hquiet, hworks, hbell⟩

theorem onPort_some (h : s.portWork port idx i op = some w) (f : State → PortWork → State) :
    s.onPort port idx i op f = f { s with cyc := w.t } w := by
  rw [State.onPort, h]

theorem onPort_none (h : s.portWork port idx i op = none) (f : State → PortWork → State) : s.onPort port idx i op f = s := by
  rw [State.onPort, h]

end

/-! Receiving. -/

section
variable {s : State} {port spans : Nat} {f : Frame} {bad : Bool}

theorem frameReceive_down (hdown : s.portUp port = false) : s.frameReceive port f bad spans = s := if_pos (by rw [hdown]; rfl)

/-- A frame whose header is bad: an expected timed frame is absent, another is counted. -/
theorem frameReceive_bad (hup : s.portUp port = true) : s.frameReceive port f true spans =
    if f.kind = fkTIMED then s else s.incF (PORT_ERRORS port) PORT_ERRORS_frames_absent 1 := by
  rw [State.frameReceive, hup]
  rfl

variable (hup : s.portUp port = true) (hhead : s.frameHeader f = true)
include hup hhead

theorem frameReceive_timed (hkind : f.kind = fkTIMED) : s.frameReceive port f false spans = s.modPort port (fun t => { t with
    rx := t.rx ++ [{ f with
      poison := if spans ≠ 0 then Nat.lor f.poison (spans % 2 ^ 60) else if f.crc ≠ crc32 (frameBytes f) then 2 ^ 60 - 1
        else f.poison }] }) := by
  rw [State.frameReceive, hup, hhead]
  simp only [bne_iff_ne]
  exact if_pos hkind

theorem frameReceive_queued (hkind : f.kind ≠ fkTIMED) (hcrc : f.crc = crc32 (frameBytes f)) (hpoison : f.poison = 0)
    (hroom : (s.port port).svcQueue.length < 16) : s.frameReceive port f false 0 =
      s.modPort port (fun t => { t with svcQueue := t.svcQueue ++ [f] }) := by
  have hgood : ¬ (f.crc != crc32 (frameBytes f) || decide (0 ≠ 0) || decide (f.poison ≠ 0)) = true := by simp [hcrc, hpoison]
  rw [State.frameReceive, hup, hhead]
  exact (if_neg hkind).trans ((if_neg hgood).trans (if_pos hroom))

theorem frameReceive_spoiled (hkind : f.kind ≠ fkTIMED) (hreply : f.kind ≠ fkREPLY) (hspans : spans ≠ 0) :
    s.frameReceive port f false spans = (s.returnCredit port).svcAnswer f stUNCORRECTABLE [] := by
  have hbad : (f.crc != crc32 (frameBytes f) || decide (spans ≠ 0) || decide (f.poison ≠ 0)) = true := by simp [hspans]
  rw [State.frameReceive, hup, hhead]
  exact (if_neg hkind).trans ((if_pos hbad).trans (if_neg hreply))

end

section
variable {s : State} {port stream seq cycle : Nat} {f : Frame}

/-- What an expected frame is. -/
theorem expected_of {due : Nat} (hdue : due = f.bell * 4096 + f.sendCycle + s.getF (PORT_LATENCY port) PORT_LATENCY_d_rec + 80)
    (h : s.expected port stream seq cycle f = true) : f.src = s.getF (PORT_STATE port) PORT_STATE_neighbour ∧ f.stream = stream ∧
      f.seq = seq ∧ due ≤ s.bellCount * 4096 + cycle ∧ s.bellCount * 4096 + cycle < due + 4096 := by
  subst hdue
  unfold State.expected at h
  simp only [Bool.and_eq_true, decide_eq_true_eq, beq_iff_eq] at h
  obtain ⟨⟨⟨⟨⟨hsrc, hstream⟩, hseq⟩, hdue⟩, hlate⟩, -⟩ := h
  exact ⟨hsrc, hstream, hseq, hdue, hlate⟩

theorem consume_found (h : (s.port port).rx.find? (s.expected port stream seq cycle) = some f) :
    (s.consume port stream seq cycle).1 = (f.payload, f.poison, some f.tieId) ∧
      (s.consume port stream seq cycle).2.port port = { s.port port with
        rx := dropThrough stream f (s.port port).rx, lastTaken := some (f.bell * 4096 + f.sendCycle) } := by
  have hport : ∀ u : State, (if f.poison = 0 then u else u.incF (PORT_ERRORS port) PORT_ERRORS_frames_poisoned 1).port port =
      u.port port := fun u => by split_ifs <;> rfl
  rw [State.consume, h]
  refine ⟨rfl, ?_⟩
  dsimp only
  rw [hport, port_modPort, if_pos rfl, sentAt]

theorem consume_absent (h : (s.port port).rx.find? (s.expected port stream seq cycle) = none) :
    (s.consume port stream seq cycle).1.2 = (2 ^ 60 - 1, none) ∧
      (s.consume port stream seq cycle).2 = (s.drawn 3840).incF (PORT_ERRORS port) PORT_ERRORS_frames_absent 1 := by
  rw [State.consume, h]
  exact ⟨rfl, rfl⟩

end

/-! Sending. -/

section
variable {s : State} {port cycle stream seq b p t : Nat} {last : Bool} {d : List Byte}

theorem portSend_down (hdown : port < 6 → s.portUp port = false) : s.portSend port cycle stream seq last d p t = s := by
  refine if_neg ?_
  by_cases hport : port < 6
  · simp [hdown hport]
  · simp [hport]

theorem portSend_soon (hhalf : s.flag (PORT_STATE port) PORT_STATE_half_width = true)
    (hsoon : ∃ k, (s.port port).lastSent = some k ∧ s.bellCount * 4096 + cycle < k + 14) :
    s.portSend port cycle stream seq last d p t = s := by
  obtain ⟨k, hlast, hk⟩ := hsoon
  refine if_neg ?_
  simp [State.tooSoon, hhalf, hlast, hk]

/-- A frame of an entry on its way to the neighbour. -/
theorem portSend_sends (f : Frame) (hport : port < 6) (hup : s.portUp port = true)
    (hrate : s.flag (PORT_STATE port) PORT_STATE_half_width = true → (s.port port).lastSent = none) :
    s.portSend port cycle stream seq last d p t = ((s.modPort port (fun z => { z with
      lastSent := some (s.bellCount * 4096 + cycle) })).send (.frame port (sealFrame { f with
        kind := fkTIMED, flags := boolNat last, src := s.deviceId, dst := s.getF (PORT_STATE port) PORT_STATE_neighbour
        stream := stream, bell := s.bellCount, seq := seq, sendCycle := cycle, tieId := t, poison := p, gaddr := 0
        bytes := 3839, status := 0, payload := bytesFrom d 0 3840, crc := 0, rsvHdr := 0, rsvTail := 0 }))).perfAdd
          (s.partOfPort port) 5 1 := by
  have hgo : (decide (port < 6) && s.portUp port &&
      !s.tooSoon port (s.bellCount * 4096 + cycle) (s.port port).lastSent) = true := by
    have hnow : s.tooSoon port (s.bellCount * 4096 + cycle) (s.port port).lastSent = false := by
      rw [State.tooSoon]
      cases hhalf : s.flag (PORT_STATE port) PORT_STATE_half_width with
      | false => rfl
      | true => rw [hrate hhalf]; rfl
    rw [decide_eq_true hport, hup, hnow]
    rfl
  exact if_pos hgo

end

/-! The data operations. -/

section
variable {s u v : State} {w : PortWork}

theorem doSend_sends {b : List Byte} {p : List Bool} (h : s.portSource w 3840 = ((b, p), u)) :
    s.doSend w = u.portSend w.port w.t (peStream w.desc) w.i w.last b (spansOf p) 0 ∧
      s.doVoteSend w = u.portSend w.port w.t (peStream w.desc) w.i w.last b (spansOf p) u.deviceId := by
  rw [State.doSend, State.doVoteSend, h]
  exact ⟨rfl, rfl⟩

theorem doRecv_writes {b : List Byte} {p : Nat} {t : Option Nat} {k : Nat}
    (h : s.consume w.port (peStream w.desc) w.i w.t = ((b, p, t), u)) (htie : u.tieOf t = (k, v)) :
    s.doRecv w = v.portDest w b (spanBytes p 3840) [] k := by
  rw [State.doRecv, h]
  dsimp only
  rw [htie]

theorem doRelay_sends {b : List Byte} {p : Nat} {t : Option Nat} (h : s.consume w.port (peStream w.desc) w.i w.t = ((b, p, t), u)) :
    s.doRelay w = u.portSend (peOutPort w.desc) (w.t + 8) (peOutStream w.desc) w.i w.last b p (t.getD 0) := by
  rw [State.doRelay, h]

theorem tieOf_some {k x : Nat} (htie : u.tieOf (some x) = (k, v)) : k = x ∧ v = u := by
  have hpair : (x, u) = (k, v) := htie
  exact ⟨(congrArg Prod.fst hpair).symm, (congrArg Prod.snd hpair).symm⟩

/-- A REDUCE that writes INT32 to its reduction buffer alone. -/
theorem doReduce_writes {b : List Byte} {p : Nat} {t : Option Nat} {tm : Terms}
    (h : s.consume w.port (peStream w.desc) w.i w.t = ((b, p, t), u)) (hlocal : u.reduceLocal w = (tm, v))
    (hout : peOutPort w.desc = 7) (hdst : peDst w.desc = 2) (hfmt : peDstFmt w.desc = fINT32) : s.doReduce w =
      (v.portDest w ((List.range 960).flatMap (fun e =>
          leBytes 4 (codeOf (addWrap (elemAt fINT32 b e) (tm.terms.getD e (0, false)).1 32) 32)))
        ((List.range 960).flatMap (fun e => List.replicate 4 (bitSet p (e / 16) || (tm.terms.getD e (0, false)).2))) [] 0).portFlags
          w.port tm.flags := by
  have hbuffer : ¬ peDst w.desc = 0 := by rw [hdst]; decide
  have hint : ¬ peDstFmt w.desc = fSBI16 := by rw [hfmt]; decide
  rw [State.doReduce]
  dsimp only
  rw [h]
  dsimp only
  rw [hlocal]
  dsimp only
  rw [if_pos hout, if_neg hbuffer, if_neg hint, packElems_int32, List.map_map, List.flatMap_map, List.flatMap_map]
  rfl

end

/-- Settles O42: each clause is the rule of the entry, the frame or the sum it names. -/
theorem portPrograms : Obligations.PortPrograms := by
  unfold Obligations.PortPrograms
  intro s port idx i f w hon
  refine ⟨fun row hrow => ?rows, fun op h => portWork_some h,
    fun spans hport hup hkind hhead => live_next hon ((if_pos hport).trans (frameReceive_timed hup hhead hkind)),
    fun spans hport hup hkind => live_next hon ((if_pos hport).trans ((frameReceive_bad hup).trans (if_pos hkind))),
    fun spans hdown => live_next hon ?down,
    fun spans hport hup hkind => live_next hon ((if_pos hport).trans ((frameReceive_bad hup).trans (if_neg hkind))),
    fun hport hup hkind hhead hcrc hpoison hroom =>
      live_next hon ((if_pos hport).trans (frameReceive_queued hup hhead hkind hcrc hpoison hroom)),
    fun spans hport hup hkind hreply hhead hspans =>
      live_next hon ((if_pos hport).trans (frameReceive_spoiled hup hhead hkind hreply hspans)),
    fun stream seq cycle hfind => ?found, fun stream seq cycle hnone => consume_absent hnone,
    fun stream seq cycle due hdue h => expected_of hdue h, fun cycle stream seq last b p t hdown => portSend_down hdown,
    fun cycle stream seq last b p t hhalf hsoon => portSend_soon hhalf hsoon,
    fun cycle stream seq last b p t hport hup hrate => portSend_sends f hport hup hrate, fun b p u h => doSend_sends h,
    fun b p t u k v h htie => ⟨doRecv_writes h htie, fun x hx => tieOf_some (hx ▸ htie), doRelay_sends h⟩,
    fun b p t u tm v r h hlocal hout hdst hfmt hr => hr.trans (doReduce_writes h hlocal hout hdst hfmt),
    fun a b k hk => hk ▸ addWrap_range a b, fun planes n e c hc => signBit_vote hc⟩
  case rows =>
    have hexec : exec row.1 s = live s (s.onPort port idx i row.2.1 row.2.2) := by
      revert row
      simp only [List.forall_mem_cons]
      exact ⟨rfl, rfl, rfl, rfl, rfl, rfl, rfl, List.forall_mem_nil _⟩
    exact ⟨fun h => hexec.trans (live_next hon (onPort_some h _)), fun h => hexec.trans (live_next hon (onPort_none h _))⟩
  case down =>
    split
    · exact frameReceive_down hdown
    · rfl
  case found =>
    obtain ⟨hframe, hport⟩ := consume_found hfind
    exact ⟨hframe, by rw [hport], by rw [hport]⟩

end Sys2Proof.Machine
end

