-- ==== Sys2Proof/Proofs/ServiceFrames.lean ====
section
/-! Service frames, remote accesses, accesses that wait for their window, and the symbols of a link (12 R330-R337). -/

namespace Sys2Proof.Machine

/-! The oldest service frame of a port. -/

section
variable {s u : State} {port kind : Nat} {f : Frame} {l : List Frame} {act : State → Frame → State}

theorem onSvc_takes (hport : port < 6) (hqueue : (s.port port).svcQueue = f :: l) (hkind : f.kind = kind)
    (hu : u = (s.modPort port (fun t => { t with svcQueue := l })).sendSym port (mkSym 6 1 s.deviceId 0 0)) :
    s.onSvc port kind act = if f.dst = s.deviceId then act u f else u.svcRoute f := by
  have hgo : (decide (f.kind = kind) && decide (port < 6)) = true := by rw [decide_eq_true hkind, decide_eq_true hport]; rfl
  subst hu
  rw [State.onSvc, hqueue]
  exact if_pos hgo

theorem onSvc_empty (hqueue : (s.port port).svcQueue = []) : s.onSvc port kind act = s := by
  rw [State.onSvc, hqueue]

theorem onSvc_other (hqueue : (s.port port).svcQueue = f :: l) (hkind : f.kind ≠ kind) : s.onSvc port kind act = s := by
  rw [State.onSvc, hqueue]
  exact if_neg (by rw [decide_eq_false hkind]; exact Bool.false_ne_true)

end

/-! What a service frame does. -/

section
variable {s u : State} {f : Frame}

theorem doSvcWrite_writes {st n : Nat} (hopen : s.rangeOpen (gaAddr f.gaddr) (f.payload.take (f.bytes + 1)).length = true)
    (hwrite : s.localWrite (gaAddr f.gaddr) (f.payload.take (f.bytes + 1)) = ((st, n), u)) :
    s.doSvcWrite f = u.svcAnswer f st [] := by
  refine (if_pos hopen).trans ?_
  rw [svcData, hwrite]

theorem doSvcWrite_waits (hshut : s.rangeOpen (gaAddr f.gaddr) (f.payload.take (f.bytes + 1)).length = false) :
    s.doSvcWrite f = s.svcHold (.peer f) true (gaAddr f.gaddr) (f.payload.take (f.bytes + 1)).length
      (f.payload.take (f.bytes + 1)) :=
  if_neg (by rw [svcData, hshut]; exact Bool.false_ne_true)

theorem doSvcRead_reads {st : Nat} {d : List Byte} (hopen : s.rangeOpen (gaAddr f.gaddr) (f.bytes + 1) = true)
    (hread : s.localRead (2 ^ 16 + f.src) (gaAddr f.gaddr) (f.bytes + 1) = ((st, d), u)) :
    s.doSvcRead f = u.svcAnswer f st d := by
  rw [State.doSvcRead, if_pos hopen, hread]

theorem doSvcRead_waits (hshut : s.rangeOpen (gaAddr f.gaddr) (f.bytes + 1) = false) :
    s.doSvcRead f = s.svcHold (.peer f) false (gaAddr f.gaddr) (f.bytes + 1) [] :=
  if_neg (by rw [hshut]; exact Bool.false_ne_true)

end

/-! Accesses that waited. -/

section
variable {s u : State} {x : SvcAcc}

theorem svcServe_waits (hshut : s.rangeOpen x.addr x.len = false) : s.svcServe x = { s with svcWait := s.svcWait ++ [x] } :=
  if_pos (by rw [hshut]; rfl)

theorem svcServe_reads {st : Nat} {d : List Byte} (hopen : s.rangeOpen x.addr x.len = true) (hkind : x.write = false)
    (hread : s.localRead x.requester x.addr x.len = ((st, d), u)) : s.svcServe x = u.svcGot x st d := by
  rw [State.svcServe, hopen, hkind, hread]
  rfl

theorem svcServe_writes {st n : Nat} (hopen : s.rangeOpen x.addr x.len = true) (hkind : x.write = true)
    (hwrite : s.localWrite x.addr x.data = ((st, n), u)) : s.svcServe x = u.svcPut x st n := by
  rw [State.svcServe, hopen, hkind, hwrite]
  rfl

end

/-! Replies. -/

section
variable {s : State} {f : Frame} {r : Remote}

section
variable (hfind : s.remotes.find? (fun x => x.tag == f.stream) = some r)
include hfind

/-- The part of a write that was answered is done; the next part goes out. -/
theorem doSvcReply_goesOn (hkind : r.write = true) (hok : f.status = 0) (hmore : r.done + 3840 < r.bytes) :
    s.doSvcReply f = ({ s with remotes := s.remotes.erase r } : State).remoteGo { r with done := r.done + 3840 } := by
  have hdone : min r.bytes (r.done + 3840) = r.done + 3840 := Nat.min_eq_right (Nat.le_of_lt hmore)
  rw [State.doSvcReply, hfind]
  dsimp only
  simp only [hkind, if_true, ne_eq, hok, not_true, if_false, hdone, hmore]

/-- The last part of a read has come. -/
theorem doSvcReply_ends (hkind : r.write = false) (hok : f.status = 0) (hlast : r.bytes ≤ r.done + 3840) :
    s.doSvcReply f = ({ s with remotes := s.remotes.erase r } : State).remoteDone
      { r with done := r.bytes, data := r.data ++ f.payload.take (f.bytes + 1) } 0 := by
  have hdone : min r.bytes (r.done + 3840) = r.bytes := Nat.min_eq_left hlast
  rw [State.doSvcReply, hfind]
  dsimp only
  simp only [hkind, Bool.false_eq_true, ne_eq, hok, not_true, if_false, hdone, Nat.lt_irrefl]

theorem doSvcReply_fails (hkind : r.write = true) (hbad : f.status ≠ 0) :
    s.doSvcReply f = ({ s with remotes := s.remotes.erase r } : State).remoteDone r f.status := by
  rw [State.doSvcReply, hfind]
  dsimp only
  rw [if_pos hbad, if_pos hkind]

end

theorem remoteTimeout_ends (hfind : s.remotes.find? (fun x => x.tag == r.tag) = some r) : s.remoteTimeout r.tag =
    ({ s with remotes := s.remotes.erase r } : State).remoteDone { r with data := [] } stREMOTE_TIMEOUT := by
  rw [State.remoteTimeout, hfind]

theorem remoteDone_mem {t st : Nat} (howner : r.owner = .mem t) :
    s.remoteDone r st = s.memReply t (if r.write then .memAck t st r.gaddr else .memData t st r.gaddr r.data) := by
  rw [State.remoteDone, howner]

theorem remoteDone_memCut {t st : Nat} (howner : r.owner = .memCut t) :
    s.remoteDone r st = s.memReply t (.memAck t (if st = 0 then stUNCORRECTABLE else st) r.gaddr) := by
  rw [State.remoteDone, howner]

end

/-! Symbols. -/

section
variable {s : State} {port typ : Nat} {y : Sym} {bad : Bool}

/-- TRAIN and PROBE are heard while the port trains, any other symbol while it is UP. -/
theorem symHeard_iff : (typ = 8 ∨ typ = 9 → (s.symHeard port typ = true ↔ s.portSt port = 4 ∨ s.portSt port = 5 ∨ s.portSt port = 8)) ∧
    (typ ≠ 8 → typ ≠ 9 → (s.symHeard port typ = true ↔ s.portSt port = 7)) := by
  unfold State.symHeard
  refine ⟨fun htrain => ?_, fun h8 h9 => ?_⟩
  · rw [if_pos (by simpa using htrain)]
    simp
  · rw [if_neg (by simp [h8, h9]), State.portUp, beq_iff_eq, State.portSt]

theorem onSym_good (hport : port < 6) (hheard : s.symHeard port typ = true) (htyp : y.typ = typ) (hcrc : y.crc = crc16 (symBytes y))
    (hbad : bad = false) (f : State → State) : s.onSym port typ y bad f = f s := by
  have hgood : symGood typ y bad = true := by simp [symGood, htyp, ← hcrc, hbad]
  refine (if_neg ?_).trans (if_pos hgood)
  simp [hport, hheard]

theorem onSym_bad (hport : port < 6) (hheard : s.symHeard port typ = true)
    (hwrong : y.typ ≠ typ ∨ y.crc ≠ crc16 (symBytes y) ∨ bad = true) (f : State → State) :
    s.onSym port typ y bad f = s.incF (PORT_ERRORS port) PORT_ERRORS_symbols_dropped 1 := by
  have hnot : ¬ symGood typ y bad = true := by
    simp only [symGood, Bool.and_eq_true, beq_iff_eq, Bool.not_eq_true']
    rintro ⟨⟨htyp, hcrc⟩, hbad⟩
    rcases hwrong with h | h | h
    · exact h htyp
    · exact h hcrc
    · rw [hbad] at h
      exact Bool.false_ne_true h
  refine (if_neg ?_).trans (if_neg hnot)
  simp [hport, hheard]

theorem onSym_lost (hlost : s.symHeard port typ = false) (f : State → State) : s.onSym port typ y bad f = s :=
  if_pos (by simp [hlost])

theorem symCredit_credits (hqueue : (s.port port).svcOut = []) :
    ((s.symCredit port y).port port).credits = min 16 ((s.port port).credits + y.a8) := by
  have hport : (s.modPort port (fun t => { t with credits := min 16 (t.credits + y.a8) })).port port =
      { s.port port with credits := min 16 ((s.port port).credits + y.a8) } := (port_modPort s port port _).trans (if_pos rfl)
  rw [State.symCredit, hport, hqueue, svcDrain, port_modPort, if_pos rfl, hport]

theorem symTrain_learns (h : s.portSt port = 4 ∨ s.portSt port = 8 ∧ (s.port port).again = 1) :
    s.symTrain port y = s.modPort port (fun t => { t with
      learnt := some (y.bell + 2 ^ 48 * (y.b32 % 2 ^ 16), y.b32 / 2 ^ 24 % 256, y.b32 / 2 ^ 16 % 256 == 1) }) :=
  if_pos (by simpa using h)

theorem measuring_iff : s.measuring port = true ↔ s.portSt port = 5 ∨ s.portSt port = 8 ∧ (s.port port).again = 2 := by
  simp [State.measuring]

variable {arrival far depart : Nat}

/-- The PROBE that is expected completes its round trip. -/
theorem symProbe_expected {u : State} (hmeas : s.measuring port = true) (hleft : (s.port port).probes < 1024)
    (hnext : y.a8 = (s.port port).probes % 256) (hu : u = s.modPort port (fun t => { t with
      probes := t.probes + 1, trips := t.trips + ((arrival : Int) - y.b32 + far) })) :
    s.symProbe port y arrival far depart =
      if (s.port port).probes = 1023 then u
      else u.sendSym port (mkSym 9 (((s.port port).probes + 1) % 256) u.deviceId 0 (depart % 2 ^ 32)) := by
  subst hu
  exact if_pos (by simp [hmeas, hleft, hnext])

theorem symProbe_other (hnext : y.a8 ≠ (s.port port).probes % 256) : s.symProbe port y arrival far depart = s :=
  if_neg (by simp [hnext])

theorem symProbe_over (hall : (s.port port).probes = 1024) : s.symProbe port y arrival far depart = s :=
  if_neg (by simp [hall])

end

/-- Settles O43: each clause is the rule of the frame, the access or the symbol it names. -/
theorem serviceFramesAndSymbols : Obligations.ServiceFramesAndSymbols := by
  unfold Obligations.ServiceFramesAndSymbols
  intro s port arrival far depart f l y bad r hon
  refine ⟨fun row hrow => ?frames, fun d st n u hd => ?write, fun st d u hopen hread => doSvcRead_reads hopen hread,
    doSvcRead_waits, fun x hshut => svcServe_waits hshut, fun x st d u hopen hkind hread => svcServe_reads hopen hkind hread,
    fun x st n u hopen hkind hwrite => svcServe_writes hopen hkind hwrite,
    fun hfind hkind hok hmore => doSvcReply_goesOn hfind hkind hok hmore,
    fun hfind hkind hok hlast => doSvcReply_ends hfind hkind hok hlast, fun hfind hkind hbad => doSvcReply_fails hfind hkind hbad,
    fun hfind => live_next hon (congrArg State.release (remoteTimeout_ends hfind)), fun t st howner => remoteDone_mem howner,
    fun t st howner => remoteDone_memCut howner, fun hport row hrow => ?symbols, fun k => symHeard_iff, symCredit_credits,
    symTrain_learns, fun hmeas hleft => ⟨fun hnext u hu => ?probe, fun hnext => symProbe_other hnext⟩, symProbe_over⟩
  case frames =>
    have hexec : exec row.1 s = live s (row.2.2.2 (s.onSvc port row.2.1 row.2.2.1)) := by
      revert row
      simp only [List.forall_mem_cons]
      exact ⟨rfl, rfl, rfl, List.forall_mem_nil _⟩
    refine ⟨fun hport hqueue hkind u hu => ?_, fun hqueue => hexec.trans (live_next hon (congrArg _ (onSvc_empty hqueue))),
      fun hqueue hkind => hexec.trans (live_next hon (congrArg _ (onSvc_other hqueue hkind)))⟩
    have htakes := hexec.trans (live_next hon (congrArg row.2.2.2 (onSvc_takes (act := row.2.2.1) hport hqueue hkind hu)))
    exact ⟨fun hdst => by rw [htakes, if_pos hdst], fun hdst => by rw [htakes, if_neg hdst]⟩
  case write =>
    subst hd
    exact ⟨doSvcWrite_writes, doSvcWrite_waits⟩
  case symbols =>
    have hexec : exec row.1 s = live s (s.onSym port row.2.1 y bad row.2.2) := by
      revert row
      simp only [List.forall_mem_cons]
      exact ⟨rfl, rfl, rfl, rfl, rfl, List.forall_mem_nil _⟩
    exact ⟨fun hheard htyp hcrc hbad => hexec.trans (live_next hon (onSym_good hport hheard htyp hcrc hbad _)),
      fun hheard hwrong => hexec.trans (live_next hon (onSym_bad hport hheard hwrong _)),
      fun hlost => hexec.trans (live_next hon (onSym_lost hlost _))⟩
  case probe =>
    have hexp := symProbe_expected (depart := depart) (measuring_iff.2 hmeas) hleft hnext hu
    exact ⟨fun hfew => hexp.trans (if_neg (by omega)), fun hlast => hexp.trans (if_pos hlast)⟩

end Sys2Proof.Machine
end

