-- ==== Sys2Proof/Proofs/LinkTraining.lean ====
section
/-! Lane swaps, the training of a port, retraining, and the link map (12 R326, R333-R337). -/

namespace Sys2Proof.Machine

/-! A port enters a state: its register, LINK_STATE, the trace. -/

/-- t is s but for the state register of a port, and what reports its change. -/
def EntersOnly (port : Nat) (s t : State) : Prop :=
  t = { s with regs := t.regs, freeCtr := t.freeCtr, mxl := t.mxl, evRings := t.evRings, mgmt := t.mgmt, out := t.out } ∧
  ∀ a, eventReg a = false → a ≠ PORT_STATE port → t.reg a = s.reg a

theorem Reports.entersOnly {s u t : State} {port : Nat} (h : Reports u t) (hu : LoadsOnly (· = PORT_STATE port) s u) :
    EntersOnly port s t := by
  refine ⟨?_, fun a ha hne => (h.2 a ha).trans (hu.2 a hne)⟩
  rw [h.1, hu.1]

section
variable {s : State} {port st n : Nat}

/-- The state register as a port enters a state, before that is reported. -/
def State.portSet (s : State) (port st n : Nat) : State :=
  (s.setF (PORT_STATE port) PORT_STATE_state st).setF (PORT_STATE port) PORT_STATE_down_reason n

theorem portTo_same (h : s.getF (PORT_STATE port) PORT_STATE_state = st) : s.portTo port st n = s := if_pos h

theorem portTo_reports (h : s.getF (PORT_STATE port) PORT_STATE_state ≠ st) :
    Reports (s.portSet port st n) (s.portTo port st n) := by
  rw [State.portTo, if_neg h]
  exact reports_raise _ _ _ _ _ _ _ _ (reports_trace _ _ _ _ (Reports.refl _))

theorem portTo_entersOnly (s : State) (port st n : Nat) : EntersOnly port s (s.portTo port st n) := by
  by_cases h : s.getF (PORT_STATE port) PORT_STATE_state = st
  · rw [portTo_same h]
    exact ⟨rfl, fun _ _ _ => rfl⟩
  · exact (portTo_reports h).entersOnly (((LoadsOnly.refl (· = PORT_STATE port) s).setF rfl _ _).setF rfl _ _)

theorem portState_quiet (hport : port < 6) : eventReg (PORT_STATE port) = false :=
  eventReg_low (by unfold PORT_STATE EVT_RING_TAIL; omega)

theorem portTo_shows (hport : port < 6) (hst : st < 16) (hn : n < 16) (hnew : st ≠ s.portSt port) :
    (s.portTo port st n).portSt port = st ∧ (s.portTo port st n).getF (PORT_STATE port) PORT_STATE_down_reason = n := by
  have hrep := portTo_reports (n := n) (Ne.symm hnew)
  have hquiet := portState_quiet hport
  refine ⟨(hrep.getF hquiet _).trans ?_, (hrep.getF hquiet _).trans (getF_setF_lt _ _ (by decide) hn)⟩
  exact (getF_setF_fld _ _ _ (by decide) (.inr (by decide))).trans (getF_setF_lt _ _ (by decide) hst)

end

/-! Lane swaps. -/

section
variable {s u : State} {port lane codeword corrected : Nat} {lost : Bool}

section
variable (hbad : lost = true ∨ s.getF (PORT_LANES port) PORT_LANES_swap_threshold < corrected) (hu : u = s.carryLane port lane)
include hbad hu

theorem laneFault_swaps (hspare : (u.port port).rxSwaps.length < u.getF (PORT_LANES port) PORT_LANES_spares_left) :
    s.laneFault port lane codeword corrected lost =
      (u.sendSym port (mkSym 7 lane u.deviceId 0 ((codeword + 256) % 2 ^ 32))).modPort port (fun t => { t with
        rxSwaps := t.rxSwaps ++ [(lane, (codeword + 256) % 2 ^ 32)] }) := by
  subst hu
  rw [State.laneFault, if_neg (by simpa [or_iff_not_imp_left] using hbad)]
  exact if_pos hspare

theorem laneFault_retrains (hnone : u.getF (PORT_LANES port) PORT_LANES_spares_left ≤ (u.port port).rxSwaps.length) :
    s.laneFault port lane codeword corrected lost = u.retrain port := by
  subst hu
  rw [State.laneFault, if_neg (by simpa [or_iff_not_imp_left] using hbad)]
  exact if_neg (Nat.not_lt.2 hnone)

end

theorem laneFault_within (hfew : corrected ≤ s.getF (PORT_LANES port) PORT_LANES_swap_threshold) :
    s.laneFault port lane codeword corrected false = s :=
  if_pos (by simpa using hfew)

theorem spares_after_swap (s : State) (port : Nat) (f : PortSt → PortSt) :
    ((s.modPort port f).incF (PORT_LANES port) PORT_LANES_swaps 1).getF (PORT_LANES port) PORT_LANES_spares_left =
      s.getF (PORT_LANES port) PORT_LANES_spares_left :=
  getF_setF_fld (s.modPort port f) _ _ (by decide) (.inr (by decide))

/-- A spare takes over in the direction whose boundary has come. -/
theorem laneTakeover_takes {sent : Bool} {w x n : Nat} {l : List (Nat × Nat)}
    (hswap : (if sent then (s.port port).txSwaps else (s.port port).rxSwaps) = (w, x) :: l)
    (hleft : s.getF (PORT_LANES port) PORT_LANES_spares_left - boolNat (!sent) = n) :
    s.laneTakeover port sent =
      ((((s.modPort port (fun t => if sent then { t with txSwaps := l } else { t with rxSwaps := l })).incF (PORT_LANES port)
        PORT_LANES_swaps 1).setF (PORT_LANES port) PORT_LANES_spares_left n).raise evLaneSwap 255 3 port w n 0 0) := by
  rw [State.laneTakeover, hswap]
  dsimp only
  rw [spares_after_swap, hleft]

theorem laneTakeover_none {sent : Bool} (hswap : (if sent then (s.port port).txSwaps else (s.port port).rxSwaps) = []) :
    s.laneTakeover port sent = s := by
  rw [State.laneTakeover, hswap]

end

/-! Training. -/

section
variable {s u : State} {port lanes fibres round depart : Nat}

theorem widthOf_full (hlanes : 32 ≤ lanes) (hfibres : fibres = 2 ^ 32 - 1) : widthOf lanes fibres = some false :=
  if_pos (by simp [hlanes, hfibres])

/-- The registers of a port whose lanes have been ranked. -/
def State.ranked (s : State) (port lanes spares : Nat) (half : Bool) : State :=
  ((s.setF (PORT_LANES port) PORT_LANES_lanes_good lanes).setF (PORT_LANES port) PORT_LANES_spares_left spares).setB
    (PORT_STATE port) PORT_STATE_half_width half

/-- Spares that good lanes leave at a width. -/
def sparesOf (lanes : Nat) (half : Bool) : Nat := if half then 0 else min 2 (lanes - 32)

theorem sparesOf_full (lanes : Nat) : sparesOf lanes false = min 2 (lanes - 32) := if_neg Bool.false_ne_true

theorem lanesRanked_eq (s : State) (port lanes fibres : Nat) :
    s.lanesRanked port lanes fibres = (widthOf lanes fibres).map (fun half => s.ranked port lanes (sparesOf lanes half) half) := rfl

theorem trainDone_lanes (hst : s.portSt port = 2) {half : Bool} {spares : Nat} (hwidth : widthOf lanes fibres = some half)
    (hspares : sparesOf lanes half = spares) :
    s.trainDone port lanes fibres round depart = (s.ranked port lanes spares half).portTo port 3 0 := by
  rw [State.trainDone, hst, lanesRanked_eq, hwidth, ← hspares]
  rfl

theorem trainDone_noLanes (hst : s.portSt port = 2) (hwidth : widthOf lanes fibres = none) :
    s.trainDone port lanes fibres round depart = s.portTo port 9 1 := by
  rw [State.trainDone, hst, lanesRanked_eq, hwidth]
  rfl

theorem trainDone_align (hst : s.portSt port = 3) :
    s.trainDone port lanes fibres round depart = (s.portTo port 4 0).identBegins port := by
  rw [State.trainDone, hst]
  rfl

theorem trainDone_ident (hst : s.portSt port = 4) (hlearnt : (s.port port).learnt.isSome = true) :
    s.trainDone port lanes fibres round depart = (s.portTo port 5 0).measureBegins port depart := by
  rw [State.trainDone, hst]
  exact if_pos hlearnt

theorem trainDone_measure (hst : s.portSt port = 5) (hprobes : (s.port port).probes = 1024) :
    s.trainDone port lanes fibres round depart = (s.measured port round).portTo port 6 0 := by
  rw [State.trainDone, hst]
  exact if_pos hprobes

theorem trainDone_realign (hst : s.portSt port = 8) (hagain : (s.port port).again = 0) :
    s.trainDone port lanes fibres round depart = (s.modPort port (fun t => { t with again := 1 })).identBegins port := by
  simp [State.trainDone, hst, hagain]

theorem trainDone_reident (hst : s.portSt port = 8) (hagain : (s.port port).again = 1)
    (hlearnt : (s.port port).learnt.isSome = true) : s.trainDone port lanes fibres round depart =
      (s.modPort port (fun t => { t with again := 2 })).measureBegins port depart := by
  simp [State.trainDone, hst, hagain, hlearnt]

end

/-! Retraining. -/

section
variable {s u : State} {port lanes fibres round cycle : Nat}

/-- An UP port as it begins to retrain. -/
def State.retrainBegins (s : State) (port : Nat) : State :=
  (s.modPort port (fun t => { t with again := 0, probes := 0, trips := 0, rxSwaps := [], txSwaps := [] })).portTo port 8 0

theorem retrain_up (hup : s.portUp port = true) : s.retrain port =
    if (s.retrainBegins port).flag CLK_REF CLK_REF_ref_sel && (s.retrainBegins port).getF CLK_REF CLK_REF_upstream_port = port
    then (s.retrainBegins port).referenceLoss else s.retrainBegins port :=
  if_pos hup

theorem retrainBegins_clkRef (hport : port < 6) (f : Fld) :
    (s.retrainBegins port).getF CLK_REF f = s.getF CLK_REF f := by
  have hreg := (portTo_entersOnly (s.modPort port (fun t => { t with
    again := 0, probes := 0, trips := 0, rxSwaps := [], txSwaps := [] })) port 8 0).2 CLK_REF (by decide)
    (by unfold CLK_REF PORT_STATE; omega)
  exact congrArg (fldGet · f) hreg

theorem retrain_free (hport : port < 6) (hup : s.portUp port = true) (hsel : s.flag CLK_REF CLK_REF_ref_sel = false) :
    s.retrain port = s.retrainBegins port := by
  have hflag : (s.retrainBegins port).flag CLK_REF CLK_REF_ref_sel = false :=
    (congrArg (· != 0) (retrainBegins_clkRef hport _)).trans hsel
  rw [retrain_up hup, hflag]
  rfl

/-- Where the root PLL follows the port, retraining loses the reference. -/
theorem retrain_losesReference (hport : port < 6) (hup : s.portUp port = true) (hsel : s.flag CLK_REF CLK_REF_ref_sel = true)
    (hfrom : s.getF CLK_REF CLK_REF_upstream_port = port) : s.retrain port = (s.retrainBegins port).referenceLoss := by
  have hflag : (s.retrainBegins port).flag CLK_REF CLK_REF_ref_sel = true :=
    (congrArg (· != 0) (retrainBegins_clkRef hport _)).trans hsel
  rw [retrain_up hup, hflag, retrainBegins_clkRef hport, hfrom]
  exact if_pos (by simp)

theorem referenceLoss_loads (s : State) : LoadsOnly (fun a => a = CLK_REF ∨ a = BELL_SYNC) s s.referenceLoss := by
  have hself := LoadsOnly.refl (fun a => a = CLK_REF ∨ a = BELL_SYNC) s
  have hheld := ((hself.setB (.inl rfl) CLK_REF_holdover true).setB (.inr rfl) BELL_SYNC_holdover true).setB
    (.inl rfl) CLK_REF_locked false
  exact LoadsOnly.ite hself ((LoadsOnly.ite hheld (hheld.setB (.inl rfl) _ _)).incF (.inl rfl) _ _)

theorem referenceLoss_holdover (s : State) : s.referenceLoss.flag CLK_REF CLK_REF_holdover = true := by
  have hother : ∀ (u : State) (f : Fld) (n : Nat), f.lo + f.len ≤ 32 →
      (f.lo + f.len ≤ CLK_REF_holdover.lo ∨ CLK_REF_holdover.lo + CLK_REF_holdover.len ≤ f.lo) →
      u.flag CLK_REF CLK_REF_holdover = true → (u.setF CLK_REF f n).flag CLK_REF CLK_REF_holdover = true :=
    fun u f n hf hd h => (flag_setF_fld u _ n hf hd).trans h
  have hheld : ((s.setHoldover true).setB CLK_REF CLK_REF_locked false).flag CLK_REF CLK_REF_holdover = true := by
    refine hother _ _ _ (by decide) (by decide) ?_
    exact (flag_setB_reg _ _ _ _ (by decide)).trans (flag_setB s _ true (by decide) (by decide))
  unfold State.referenceLoss
  split
  case isTrue hhold => exact hhold
  case isFalse =>
    refine hother _ _ _ (by decide) (by decide) ?_
    split
    · exact hheld
    · exact hother _ _ _ (by decide) (by decide) hheld

theorem retrain_reference (hport : port < 6) (hup : s.portUp port = true) :
    (s.retrainBegins port).referenceLoss.portSt port = 8 ∧ (s.retrainBegins port).referenceLoss.crs = s.crs ∧
      (s.retrainBegins port).referenceLoss.mem = s.mem := by
  have hup' : s.portSt port = 7 := beq_iff_eq.1 hup
  have hnew : 8 ≠ (s.modPort port (fun t => { t with
      again := 0, probes := 0, trips := 0, rxSwaps := [], txSwaps := [] })).portSt port := by
    have hkept : (s.modPort port (fun t => { t with
      again := 0, probes := 0, trips := 0, rxSwaps := [], txSwaps := [] })).portSt port = 7 := hup'
    rw [hkept]
    decide
  obtain ⟨hframe, hreg⟩ := referenceLoss_loads (s.retrainBegins port)
  obtain ⟨hbegun, -⟩ := portTo_entersOnly (s.modPort port (fun t => { t with
    again := 0, probes := 0, trips := 0, rxSwaps := [], txSwaps := [] })) port 8 0
  have hcrs : (s.retrainBegins port).crs = s.crs := (congrArg State.crs hbegun).trans rfl
  have hmem : (s.retrainBegins port).mem = s.mem := (congrArg State.mem hbegun).trans rfl
  refine ⟨?_, (congrArg State.crs hframe).trans hcrs, (congrArg State.mem hframe).trans hmem⟩
  exact (congrArg (fldGet · PORT_STATE_state) (hreg _ (by unfold PORT_STATE CLK_REF BELL_SYNC; omega))).trans
    (portTo_shows hport (by decide) (by decide) hnew).1

section
variable (hst : s.portSt port = 8) (hagain : (s.port port).again = 2) (hprobes : (s.port port).probes = 1024) {half : Bool}
  {spares : Nat} (hwidth : widthOf lanes fibres = some half) (hspares : sparesOf lanes half = spares)
  (hu : u = (s.ranked port lanes spares half).measured port round)
include hst hagain hprobes hwidth hspares hu

theorem retrainDone_eq : s.retrainDone port lanes fibres round 0 =
    if ceilDiv round 8 + 32 ≤ u.getF (PORT_LATENCY port) PORT_LATENCY_d_rec
    then svcDrain port (u.portTo port 7 0) ((u.portTo port 7 0).port port).svcOut else u.portTo port 9 4 := by
  subst hspares hu
  rw [State.retrainDone, if_neg (by simp [hst, hagain, hprobes]), lanesRanked_eq, hwidth]
  rfl

end

theorem retrainDone_not (h : cycle ≠ 0 ∨ s.portSt port ≠ 8 ∨ (s.port port).again ≠ 2 ∨ (s.port port).probes ≠ 1024) :
    s.retrainDone port lanes fibres round cycle = s :=
  if_pos (by simpa [or_assoc] using h)

end

/-! The link map. -/

section
variable {s u : State} {c : Cmd} {m : List Byte}

theorem linkmapLoad_applies (hread : s.readObject c.pkt.p0 128 = ((m, 0), u)) (hgood : u.linkmapFails m = none) :
    s.linkmapLoad c = (u.linkApply m).ok c 0 := by
  rw [State.linkmapLoad, hread]
  dsimp only
  rw [if_neg (not_not.2 rfl), hgood]

theorem linkmapLoad_fails {e : Nat} (hread : s.readObject c.pkt.p0 128 = ((m, 0), u)) (hbad : u.linkmapFails m = some e) :
    s.linkmapLoad c = u.fail c e := by
  rw [State.linkmapLoad, hread]
  dsimp only
  rw [if_neg (not_not.2 rfl), hbad]

theorem linkmapFails_joined (hjoined : s.flag BELL_SYNC BELL_SYNC_joined = true) : s.linkmapFails m = some stDEVICE_STATE :=
  if_pos hjoined

theorem linkmapFails_format (hfree : s.flag BELL_SYNC BELL_SYNC_joined = false) (hformat : lmFormat m = false) :
    s.linkmapFails m = some stLINKMAP_FORMAT :=
  (if_neg (by rw [hfree]; exact Bool.false_ne_true)).trans (if_pos (by rw [hformat]; rfl))

/-- A record's entry for a port that the port takes over, before its state follows. -/
def State.linkSet (s : State) (m : List Byte) (p : Nat) : State :=
  if lmLit m p then
    ((s.setF (PORT_STATE p) PORT_STATE_neighbour (lmPort m p 0 2)).setF (PORT_LATENCY p) PORT_LATENCY_d_rec
      (lmPort m p 4 4)).modPort p (fun t => { t with enabled := true, recHalf := lmFlag m p 1, heldDark := false })
  else s.modPort p (fun t => { t with enabled := false, heldDark := true })

theorem linkPort_eq (s : State) (m : List Byte) (p : Nat) :
    s.linkPort m p = (s.linkSet m p).portTo p (if lmLit m p then 7 else 0) 0 := by
  unfold State.linkPort State.linkSet
  split <;> rfl

theorem port_linkPort (s : State) (m : List Byte) (p q : Nat) :
    (s.linkPort m p).port q = (s.linkSet m p).port q := by
  rw [linkPort_eq]
  exact port_congr (congrArg State.ports (portTo_entersOnly _ p _ 0).1) q

theorem linkPort_enabled (s : State) (m : List Byte) (p : Nat) : ((s.linkPort m p).port p).enabled = lmLit m p := by
  rw [port_linkPort]
  unfold State.linkSet
  cases hlit : lmLit m p with
  | false => exact congrArg PortSt.enabled ((port_modPort s p p _).trans (if_pos rfl))
  | true => exact congrArg PortSt.enabled ((port_modPort _ p p _).trans (if_pos rfl))

theorem linkPort_other (s : State) (m : List Byte) {p q : Nat} (hne : q ≠ p) : (s.linkPort m p).port q = s.port q := by
  rw [port_linkPort]
  unfold State.linkSet
  split <;> exact (port_modPort _ p q _).trans (if_neg hne)

theorem linkPort_keeps (s : State) (m : List Byte) (p : Nat) :
    (s.linkPort m p).crs = s.crs ∧ (s.linkPort m p).mem = s.mem ∧ (s.linkPort m p).map = s.map := by
  have hset : (s.linkSet m p).crs = s.crs ∧ (s.linkSet m p).mem = s.mem ∧ (s.linkSet m p).map = s.map := by
    unfold State.linkSet
    split <;> exact ⟨rfl, rfl, rfl⟩
  obtain ⟨hcrs, hmem, hmap⟩ := hset
  rw [linkPort_eq]
  have hframe := (portTo_entersOnly (s.linkSet m p) p (if lmLit m p then 7 else 0) 0).1
  exact ⟨(congrArg State.crs hframe).trans hcrs, (congrArg State.mem hframe).trans hmem, (congrArg State.map hframe).trans hmap⟩

/-- Every port takes over its entry of a record. -/
def State.linkPorts (s : State) (m : List Byte) : State := forEach (List.range 6) s (fun s p => s.linkPort m p)

theorem linkPorts_enabled (s : State) (m : List Byte) {p : Nat} (hp : p < 6) :
    ((s.linkPorts m).port p).enabled = lmLit m p := by
  refine forEach_range_all (P := fun p t => (t.port p).enabled = lmLit m p) (fun u p => linkPort_enabled u m p)
    (fun u i j hi => ?_) 6 s p hp
  by_cases hij : i = j
  · rw [hij]
    exact linkPort_enabled u m j
  · rw [linkPort_other u m hij, hi]

theorem linkPorts_keeps (s : State) (m : List Byte) :
    (s.linkPorts m).crs = s.crs ∧ (s.linkPorts m).mem = s.mem ∧ (s.linkPorts m).map = s.map := by
  refine foldl_keeps (P := fun t : State => t.crs = s.crs ∧ t.mem = s.mem ∧ t.map = s.map) _ (fun t p ht => ?_) ⟨rfl, rfl, rfl⟩
  obtain ⟨hcrs, hmem, hmap⟩ := ht
  obtain ⟨hcrs', hmem', hmap'⟩ := linkPort_keeps t m p
  exact ⟨hcrs'.trans hcrs, hmem'.trans hmem, hmap'.trans hmap⟩

/-- The map that a record gives. -/
def lmMap (m : List Byte) : LinkMap :=
  { loaded := true, device := leAt m 6 2, nx := lmDim m 0, ny := lmDim m 1, nz := lmDim m 2, timekeeper := leAt m 0x0C 2,
    backup := leAt m 0x0E 2, horizon := leAt m 0x70 2 }

/-- The identity and the map of a record, before the ports take over theirs. -/
def State.linkNamed (s : State) (m : List Byte) : State :=
  { (s.setF STK_ID STK_ID_device_id (leAt m 6 2)).setB STK_ID STK_ID_id_valid true with map := lmMap m }

theorem linkApply_loads (s : State) (m : List Byte) :
    LoadsOnly (fun _ => True) ((s.linkNamed m).linkPorts m) (s.linkApply m) := by
  have hself := LoadsOnly.refl (fun _ => True) ((s.linkNamed m).linkPorts m)
  exact ((((((hself.setF trivial _ _).setF trivial _ _).setF trivial _ _).setF trivial _ _).setB trivial _ _).setB trivial
    _ _).setB trivial _ _

theorem linkApply_shows (s : State) (m : List Byte) : (s.linkApply m).map = lmMap m ∧
    (∀ p, p < 6 → ((s.linkApply m).port p).enabled = lmLit m p) ∧ (s.linkApply m).crs = s.crs ∧ (s.linkApply m).mem = s.mem := by
  have hframe := (linkApply_loads s m).1
  obtain ⟨hcrs, hmem, hmap⟩ := linkPorts_keeps (s.linkNamed m) m
  refine ⟨(congrArg State.map hframe).trans hmap, fun p hp => ?_, (congrArg State.crs hframe).trans hcrs,
    (congrArg State.mem hframe).trans hmem⟩
  rw [port_congr (congrArg State.ports hframe) p]
  exact linkPorts_enabled _ m hp

theorem leAt_two_lt (m : List Byte) (off : Nat) : leAt m off 2 < 65536 := by
  refine Nat.lt_of_lt_of_le (leVal_lt (bytesFrom m off 2)) ?_
  have hlen : (bytesFrom m off 2).length ≤ 2 := by simp [bytesFrom]
  exact Nat.pow_le_pow_right (by decide) hlen

end

/-- Settles O44: what each check of a lane, each training state and each command answers, and what a link map leaves. -/
theorem linkTraining : Obligations.LinkTraining := by
  unfold Obligations.LinkTraining
  intro s port lane codeword corrected fibres lanes round depart ring tag lost c hon hport
  have hfault : ∀ b, exec (.portLaneFault port lane ⟨codeword, corrected, b⟩) s =
      live s (if port < 6 && s.portUp port then s.laneFault port lane codeword corrected b else s) := fun _ => rfl
  have hup : ∀ {α : Type} {x y : α}, s.portUp port = true → (if port < 6 && s.portUp port then x else y) = x :=
    fun h => if_pos (by simp [hport, h])
  have htrain : exec (.portTrainStateDone port lanes fibres round depart) s = .next (s.trainDone port lanes fibres round depart) :=
    live_next hon (if_pos hport)
  have hretrain : exec (.portRetrain port) s = .next (s.retrain port) := live_next hon (if_pos hport)
  have hdone : ∀ cycle, exec (.portRetrainDone port lanes fibres round cycle) s = .next (s.retrainDone port lanes fibres round cycle) :=
    fun _ => live_next hon (if_pos hport)
  have htake : exec (.portLaneTakeover port) s = .next (s.laneTakeover port (s.port port).rxSwaps.isEmpty) :=
    live_next hon (if_pos hport)
  refine ⟨fun u hportUp hbad hu => ⟨fun hspare => (hfault _).trans (live_next hon ((hup hportUp).trans (laneFault_swaps hbad hu hspare))),
      fun hnone => (hfault _).trans (live_next hon ((hup hportUp).trans (laneFault_retrains hbad hu hnone)))⟩,
    ?fewErrors, fun hdown => (hfault _).trans (live_next hon (if_neg (by simp [hdown]))),
    fun w x l n hrx hleft => htake.trans (congrArg _ ?swapRx), fun w x l n hrx htx hleft => htake.trans (congrArg _ ?swapTx),
    fun hrx htx => htake.trans (congrArg _ ?swapNone),
    fun hst hlight => live_next hon (if_pos (by simp [hport, hst, hlight])),
    fun hdark => live_next hon (if_neg (by simp [Nat.not_le.2 hdark])),
    fun hst hlanes _ hfibres => htrain.trans (congrArg _ (trainDone_lanes hst (widthOf_full hlanes hfibres)
      (sparesOf_full lanes))),
    fun hst hhalf => htrain.trans (congrArg _ (trainDone_lanes hst hhalf (if_pos rfl))),
    fun hst hnone => htrain.trans (congrArg _ (trainDone_noLanes hst hnone)),
    fun u hst hu => ?aligned, fun u hst hlearnt hu => ?identified,
    fun hst hprobes => htrain.trans (congrArg _ (trainDone_measure hst hprobes)),
    fun hst hagain => htrain.trans (congrArg _ (trainDone_realign hst hagain)),
    fun hst hagain hlearnt => htrain.trans (congrArg _ (trainDone_reident hst hagain hlearnt)),
    fun hst => live_next hon (if_pos ?late), fun hst => live_next hon (if_neg ?notTraining),
    fun hportUp hsel => hretrain.trans (congrArg _ (retrain_free hport hportUp hsel)),
    fun hportUp hsel hfrom => ?reference, fun hst hagain hprobes hlanes _ hfibres u hu => ?back,
    fun cycle h => (hdone cycle).trans (congrArg _ (retrainDone_not h)),
    fun m u hc hread hgood => (onCmd_accepted hc).trans (congrArg _ (linkmapLoad_applies hread hgood)),
    fun m u e hc hread hbad => (onCmd_accepted hc).trans (congrArg _ (linkmapLoad_fails hread hbad)),
    fun hjoined m => linkmapFails_joined hjoined, fun hfree m hformat => linkmapFails_format hfree hformat,
    fun m => ⟨leAt_two_lt m 6, linkApply_shows s m⟩, fun st n hst hn hnew => portTo_shows hport hst hn hnew⟩
  case fewErrors =>
    intro hfew
    refine (hfault _).trans (live_next hon ?_)
    rw [laneFault_within hfew, ite_self]
  case swapRx =>
    rw [hrx]
    exact laneTakeover_takes (sent := false) hrx (by rw [hleft]; rfl)
  case swapTx =>
    rw [hrx]
    exact laneTakeover_takes (sent := true) htx hleft
  case swapNone =>
    rw [hrx]
    exact laneTakeover_none (sent := true) htx
  case aligned =>
    subst hu
    exact htrain.trans (congrArg _ (trainDone_align hst))
  case identified =>
    subst hu
    exact htrain.trans (congrArg _ (trainDone_ident hst hlearnt))
  case late => simpa [hport] using hst
  case notTraining =>
    rw [List.mem_cons, List.mem_cons, List.mem_cons, List.mem_cons, List.mem_singleton] at hst
    rcases hst with h | h | h | h | h <;> simp [h]
  case reference =>
    rw [Gives, hretrain, retrain_losesReference hport hportUp hsel hfrom]
    obtain ⟨hst, hcrs, hmem⟩ := retrain_reference hport hportUp
    exact ⟨_, rfl, hst, referenceLoss_holdover _, hcrs, hmem⟩
  case back =>
    have hend := retrainDone_eq hst hagain hprobes (widthOf_full hlanes hfibres) (sparesOf_full lanes) hu
    exact ⟨fun hroom => (hdone 0).trans (congrArg _ (hend.trans (if_pos hroom))),
      fun hslow => (hdone 0).trans (congrArg _ (hend.trans (if_neg (Nat.not_le.2 hslow))))⟩

end Sys2Proof.Machine
end

