-- ==== Sys2Proof/Proofs/HostFlits.lean ====
section
/-! Flits from the host, the requests of their messages, and the device's reads of host memory (13 R356-R365). -/

namespace Sys2Proof.Machine

/-! A flit arrives. -/

section
variable {s u : State} {x : RxFlit} {f : State → State}

theorem flitGood_iff (f : Flit) : flitGood f = true ↔ f.crc = crc32 (flitBytes f) := beq_iff_eq

theorem onFlit_down (hdown : s.mxlUp = false) : s.onFlit x f = s := if_pos (by rw [hdown]; rfl)

theorem onFlit_fails (hup : s.mxlUp = true) (hbad : x.flit.crc ≠ crc32 (flitBytes x.flit)) : s.onFlit x f = s.flitFails x.flit :=
  (if_neg (by rw [hup]; exact Bool.false_ne_true)).trans (if_pos (by rw [flitGood, beq_false_of_ne hbad]; rfl))

section
variable (hup : s.mxlUp = true) (hcrc : x.flit.crc = crc32 (flitBytes x.flit)) (hu : u = s.takeHeader x)
include hup hcrc hu

theorem onFlit_header : s.onFlit x f = if !u.mxlUp then u else if u.flitKnown x.flit then f u else u.flitUnknown x.flit := by
  subst hu
  have hgood : flitGood x.flit = true := (flitGood_iff _).2 hcrc
  rw [State.onFlit, hup, hgood]
  rfl

theorem onFlit_retrains (hdown : u.mxlUp = false) : s.onFlit x f = u := by
  rw [onFlit_header hup hcrc hu, hdown]
  rfl

theorem onFlit_unknown (hup' : u.mxlUp = true) (hrow : u.flitKnown x.flit = false) : s.onFlit x f = u.flitUnknown x.flit := by
  rw [onFlit_header hup hcrc hu, hup', hrow]
  rfl

theorem onFlit_acts (hup' : u.mxlUp = true) (hrow : u.flitKnown x.flit = true) : s.onFlit x f = f u := by
  rw [onFlit_header hup hcrc hu, hup', hrow]
  rfl

end

/-- What a flit that brings neither nak nor corrected bytes leaves of its header. -/
theorem takeHeader_plain {left : List TxFlit} (hleft : left = ackedList x.flit.ack s.mxl.replay) (hnak : x.flit.nak = false)
    (hclean : x.corrected = false) : s.takeHeader x = ({ s with
      mxl := { s.mxl with
        replay := left, acked := x.flit.ack, cmdCredits := s.mxl.cmdCredits + x.flit.cmdCredits
        bulkCredits := s.mxl.bulkCredits + x.flit.bulkCredits
        sameReplays := if left.length < s.mxl.replay.length then 0 else s.mxl.sameReplays } } : State).mxlFlush := by
  subst hleft
  simp only [State.takeHeader, hnak, hclean, Bool.false_eq_true, if_false]

theorem ackedList_covers (t : TxFlit) {a : List TxFlit} (b : List TxFlit) (h : ∀ y ∈ a, y.flit.seq ≠ t.flit.seq) :
    ackedList t.flit.seq (a ++ t :: b) = b := by
  have hdrop : (a ++ t :: b).dropWhile (fun y => y.flit.seq != t.flit.seq) = t :: b := by
    rw [List.dropWhile_append_of_pos (fun y hy => by simpa using h y hy)]
    exact List.dropWhile_cons_of_neg (by simp)
  rw [ackedList, if_pos (by simp), hdrop]
  rfl

theorem ackedList_other {k : Nat} {a : List TxFlit} (h : ∀ y ∈ a, y.flit.seq ≠ k) : ackedList k a = a :=
  if_neg (by simpa using h)

end

/-! A flit of a COMMAND or BULK message. -/

section
variable {u : State} {x : RxFlit} {typ : Nat} {f : State → List Flit → State} {l : List Flit}

/-- What a flit of a message does behind its header. -/
def State.messageFlit (u : State) (x : RxFlit) (typ : Nat) (f : State → List Flit → State) : State :=
  let h := x.flit
  let bulk := h.cls == fcBULK
  if h.typ ≠ typ || h.seq ≠ (u.mxl.rxSeq + 1) % 4096 || (if bulk then u.mxl.bulkGrant else u.mxl.cmdGrant) = 0 then u
  else
    let l := (if bitSet h.flags 0 then [] else u.rxPart bulk) ++ [h]
    let whole := bitSet h.flags 1
    let m := { u.mxl with rxSeq := h.seq, discarding := false }
    let keep := if whole then [] else l
    let m := if bulk then { m with rxBulk := keep, bulkGrant := m.bulkGrant - 1 }
      else { m with rxCmd := keep, cmdGrant := m.cmdGrant - 1 }
    let n := if whole then l.length else 0
    let s := ({ u with mxl := m } : State).sendIdle false (if bulk then 0 else n) (if bulk then n else 0)
    if whole then f s l else s

theorem takeFlit_eq (s : State) (x : RxFlit) (typ : Nat) (f : State → List Flit → State) :
    s.takeFlit x typ f = s.onFlit x (fun u => u.messageFlit x typ f) := rfl

theorem messageFlit_ignored (h : x.flit.typ ≠ typ ∨ x.flit.seq ≠ (u.mxl.rxSeq + 1) % 4096 ∨
    (x.flit.cls ≠ fcBULK ∧ u.mxl.cmdGrant = 0) ∨ (x.flit.cls = fcBULK ∧ u.mxl.bulkGrant = 0)) : u.messageFlit x typ f = u := by
  refine if_pos ?_
  rcases h with htyp | hseq | ⟨hcls, hgrant⟩ | ⟨hcls, hgrant⟩
  · simp [htyp]
  · simp [hseq]
  · simp [hcls, hgrant]
  · simp [hcls, hgrant]

section
variable (htyp : x.flit.typ = typ) (hseq : x.flit.seq = (u.mxl.rxSeq + 1) % 4096)
include htyp hseq

section
variable (hcls : x.flit.cls ≠ fcBULK) (hgrant : u.mxl.cmdGrant ≠ 0) (hl : l = (if bitSet x.flit.flags 0 then [] else u.mxl.rxCmd) ++ [x.flit])
include hcls hgrant hl

theorem messageFlit_commandPart (hmore : bitSet x.flit.flags 1 = false) : u.messageFlit x typ f = ({ u with mxl := { u.mxl with
    rxSeq := x.flit.seq, discarding := false, rxCmd := l, cmdGrant := u.mxl.cmdGrant - 1 } } : State).sendIdle false 0 0 := by
  have hclass : (x.flit.cls == fcBULK) = false := beq_false_of_ne hcls
  subst hl
  rw [State.messageFlit, hclass, hmore, htyp, ← hseq]
  exact if_neg (by simpa using hgrant)

theorem messageFlit_commandEnd (hlast : bitSet x.flit.flags 1 = true) : u.messageFlit x typ f = f (({ u with mxl := { u.mxl with
    rxSeq := x.flit.seq, discarding := false, rxCmd := [], cmdGrant := u.mxl.cmdGrant - 1 } } : State).sendIdle false
    l.length 0) l := by
  have hclass : (x.flit.cls == fcBULK) = false := beq_false_of_ne hcls
  subst hl
  rw [State.messageFlit, hclass, hlast, htyp, ← hseq]
  exact if_neg (by simpa using hgrant)

end

section
variable (hcls : x.flit.cls = fcBULK) (hgrant : u.mxl.bulkGrant ≠ 0) (hl : l = (if bitSet x.flit.flags 0 then [] else u.mxl.rxBulk) ++ [x.flit])
include hcls hgrant hl

theorem messageFlit_bulkPart (hmore : bitSet x.flit.flags 1 = false) : u.messageFlit x typ f = ({ u with mxl := { u.mxl with
    rxSeq := x.flit.seq, discarding := false, rxBulk := l, bulkGrant := u.mxl.bulkGrant - 1 } } : State).sendIdle false 0 0 := by
  have hclass : (x.flit.cls == fcBULK) = true := beq_iff_eq.2 hcls
  subst hl
  rw [State.messageFlit, hclass, hmore, htyp, ← hseq]
  exact if_neg (by simpa using hgrant)

theorem messageFlit_bulkEnd (hlast : bitSet x.flit.flags 1 = true) : u.messageFlit x typ f = f (({ u with mxl := { u.mxl with
    rxSeq := x.flit.seq, discarding := false, rxBulk := [], bulkGrant := u.mxl.bulkGrant - 1 } } : State).sendIdle false
    0 l.length) l := by
  have hclass : (x.flit.cls == fcBULK) = true := beq_iff_eq.2 hcls
  subst hl
  rw [State.messageFlit, hclass, hlast, htyp, ← hseq]
  exact if_neg (by simpa using hgrant)

end

end

end

/-! The order of the host's requests (R363), and what each does. -/

section
variable {s u : State} {q : HostReq} {part ring tail tag g width v now n st : Nat} {d y : List Byte}

theorem issue_serves (hfree : s.waitsOf q = []) (hnone : s.mxl.heldReqs = []) : s.issue q = s.serveReq q :=
  if_pos (by rw [hfree, hnone]; simp)

theorem issue_holds (hwait : s.waitsOf q ≠ []) : s.issue q = { s with
    mxl := { s.mxl with heldReqs := s.mxl.heldReqs ++ [{ req := reqHeld q, waits := s.waitsOf q }] } } :=
  if_neg (by simp [hwait])

theorem waitsOf_writes {o : BulkOpen} (hopen : o ∈ s.bulkOpen) (hwrite : o.write = true) :
    o.tag ∈ s.waitsOf (.doorbell part ring tail) ∧ o.tag ∈ s.waitsOf (.regWrite tag g width v now) := by
  have hmem : o.tag ∈ (s.bulkOpen.filter (·.write)).map (·.tag) := List.mem_map_of_mem (List.mem_filter.2 ⟨hopen, hwrite⟩)
  exact ⟨hmem, hmem⟩

theorem doorbell_rings (hon : s.ringOn ring = true) (hpart : s.ringPart ring = part)
    (hroom : ringUsed (s.reg (CMD_RING_HEAD ring)).toNat (tail % 2 ^ 32) ≤ 2 ^ s.ringSize ring) :
    s.doorbell part ring tail = s.setReg (CMD_RING_TAIL ring) (BitVec.ofNat 32 tail) :=
  if_neg (by simpa [hon, hpart] using hroom)

theorem doorbell_drops (h : s.ringOn ring = false ∨ s.ringPart ring ≠ part ∨
    2 ^ s.ringSize ring < ringUsed (s.reg (CMD_RING_HEAD ring)).toNat (tail % 2 ^ 32)) :
    s.doorbell part ring tail = s.incF MXL_ERRORS MXL_ERRORS_db_dropped 1 :=
  if_pos (by simpa [or_assoc] using h)

section
variable (hlocal : s.gaLocal g = true)
include hlocal

theorem register_accesses {w : Nat} (hreg : isRegister (gaAddr g) = true) (hread : s.accessRead 0 (gaAddr g) width = (w, u)) :
    s.mxlRegRead tag g width = u.mxlSend (.regData tag 0 g (leBytes width w)) ∧
      s.mxlRegWrite tag g width v now = s.accessWrite (gaAddr g) width v now := by
  refine ⟨?_, (if_pos hlocal).trans (if_pos hreg)⟩
  rw [State.mxlRegRead, if_pos hlocal, if_pos hreg, hread]

theorem register_unmapped (hreg : isRegister (gaAddr g) = false) :
    s.mxlRegRead tag g width = s.mxlSend (.regData tag stADDR_UNMAPPED g (leBytes width 0)) ∧
      s.mxlRegWrite tag g width v now = s := by
  have hnot : ¬ isRegister (gaAddr g) = true := by rw [hreg]; exact Bool.false_ne_true
  exact ⟨(if_pos hlocal).trans (if_neg hnot), (if_pos hlocal).trans (if_neg hnot)⟩

theorem mxlMemRead_reads (hopen : s.rangeOpen (gaAddr g) n = true) (hread : s.localRead 0 (gaAddr g) n = ((st, y), u)) :
    s.mxlMemRead tag g n = u.memReply tag (.memData tag st g y) := by
  rw [State.mxlMemRead, if_pos hlocal, if_pos hopen, hread]

theorem mxlMemRead_waits (hshut : s.rangeOpen (gaAddr g) n = false) :
    s.mxlMemRead tag g n = s.svcHold (.mem tag g) false (gaAddr g) n [] :=
  (if_pos hlocal).trans (if_neg (by rw [hshut]; exact Bool.false_ne_true))

theorem mxlMemWrite_writes {k : Nat} (hopen : s.rangeOpen (gaAddr g) d.length = true) (hdata : d ≠ [])
    (hwrite : s.localWrite (gaAddr g) d = ((st, k), u)) (bad : Bool) :
    s.mxlMemWrite tag g d bad = u.memReply tag (.memAck tag (if st = 0 && bad then stUNCORRECTABLE else st) g) := by
  rw [State.mxlMemWrite, if_pos hlocal, if_pos hopen, if_neg hdata, hwrite]

/-- A write whose first flit is poisoned writes nothing. -/
theorem mxlMemWrite_poisoned : s.mxlMemWrite tag g [] true = s.memReply tag (.memAck tag stUNCORRECTABLE g) :=
  (if_pos hlocal).trans (if_pos rfl)

end

section
variable (hremote : s.gaLocal g = false)
include hremote

theorem remote_refused {e : Nat} (hrefuse : s.remoteRefuse g = some e) (bad : Bool) :
    s.mxlRegRead tag g width = s.mxlSend (.regData tag e g (leBytes width 0)) ∧ s.mxlRegWrite tag g width v now = s ∧
      s.mxlMemRead tag g n = s.memReply tag (.memData tag e g []) ∧
      s.mxlMemWrite tag g d bad = s.memReply tag (.memAck tag e g) := by
  have hnot : ¬ s.gaLocal g = true := by rw [hremote]; exact Bool.false_ne_true
  refine ⟨(if_neg hnot).trans ?_, (if_neg hnot).trans ?_, (if_neg hnot).trans ?_, (if_neg hnot).trans ?_⟩ <;> rw [hrefuse]

theorem remote_starts (hgo : s.remoteRefuse g = none) :
    s.mxlRegRead tag g width = s.remoteGo ⟨0, .reg tag, false, g, width, 0, []⟩ ∧
      s.mxlRegWrite tag g width v now = s.remoteGo ⟨0, .reg tag, true, g, width, 0, leBytes width v⟩ ∧
      s.mxlMemRead tag g n = s.remoteGo ⟨0, .mem tag, false, g, n, 0, []⟩ ∧
      (d ≠ [] → s.mxlMemWrite tag g d false = s.remoteGo ⟨0, .mem tag, true, g, d.length, 0, d⟩ ∧
        s.mxlMemWrite tag g d true = s.remoteGo ⟨0, .memCut tag, true, g, d.length, 0, d⟩) := by
  have hnot : ¬ s.gaLocal g = true := by rw [hremote]; exact Bool.false_ne_true
  refine ⟨(if_neg hnot).trans ?_, (if_neg hnot).trans ?_, (if_neg hnot).trans ?_,
    fun hdata => ⟨(if_neg hnot).trans ?_, (if_neg hnot).trans ?_⟩⟩
  · rw [hgo]
  · rw [hgo]
  · rw [hgo]
  · rw [hgo]
    exact if_neg hdata
  · rw [hgo]
    exact if_neg hdata

end

end

/-! The device's reads of host memory. -/

section
variable {s : State} {r : HostRead} {l : List Flit} {tag : Nat}

section
variable (hread : s.readOf (l.headD (blankFlit 0 0 0 0 [])) = some r)
include hread

theorem takeHostData_good (hclean : hasPoison l = false) : s.takeHostData l = s.hostReadDone r 0 (cleanData l) := by
  rw [State.takeHostData, hread]
  exact if_neg (by rw [hclean]; exact Bool.false_ne_true)

theorem takeHostData_poisoned (hpoison : hasPoison l = true) :
    s.takeHostData l = (s.stopTransfers r.ring r.cmdTag).hostReadDone r stUNCORRECTABLE (cleanData l) := by
  rw [State.takeHostData, hread]
  exact if_pos hpoison

end

theorem hostReadDone_arrives {c : Cmd} (hfind : s.findTag r.ring r.cmdTag = some c) (st : Nat) (d : List Byte) :
    s.hostReadDone r st d = ({ s with mxl := { s.mxl with hostReads := s.mxl.hostReads.erase r } } : State).xferArrive c st
      (if st = 0 then bytesFrom d 0 r.len else d.take r.len) := by
  have hkept : ({ s with mxl := { s.mxl with hostReads := s.mxl.hostReads.erase r } } : State).findTag r.ring r.cmdTag = some c :=
    (findTag_congr rfl r.ring r.cmdTag).trans hfind
  rw [State.hostReadDone]
  dsimp only
  rw [hkept]

theorem hostReadTimeout_ends {c : Cmd} (hread : s.mxl.hostReads.find? (fun y => y.tag == tag) = some r)
    (hfind : s.findTag r.ring r.cmdTag = some c) : s.hostReadTimeout tag =
      ({ s with mxl := { s.mxl with hostReads := s.mxl.hostReads.erase r } } : State).xferArrive c stHOST_TIMEOUT [] := by
  rw [State.hostReadTimeout, hread]
  refine (hostReadDone_arrives hfind stHOST_TIMEOUT []).trans ?_
  rw [if_neg (by decide), List.take_nil]

theorem hostReadTimeout_none (hread : s.mxl.hostReads.find? (fun y => y.tag == tag) = none) : s.hostReadTimeout tag = s := by
  rw [State.hostReadTimeout, hread]

end

/-- Settles O45: each kind of message along the paths of a flit, then each request by where its address lies. -/
theorem hostFlits : Obligations.HostFlits := by
  unfold Obligations.HostFlits
  intro s x part ring tail g width v now n tag d bad hon
  refine ⟨fun row hrow => ?messages, fun left hleft hnak hclean => takeHeader_plain hleft hnak hclean,
    fun t a b h => ackedList_covers t b h, fun k a h => ackedList_other h, fun q u hrow => ?requests,
    fun o hopen hwrite => waitsOf_writes hopen hwrite, fun hring hpart hroom => doorbell_rings hring hpart hroom,
    fun h => doorbell_drops h, fun hlocal hreg y u hread => register_accesses hlocal hreg hread,
    fun hlocal hreg => register_unmapped hlocal hreg, fun e hremote hrefuse => remote_refused hremote hrefuse bad,
    fun hremote hgo => remote_starts hremote hgo, fun st y u hlocal hopen hread => mxlMemRead_reads hlocal hopen hread,
    fun st y u hlocal hopen hdata hwrite => ⟨?wholeWrite, fun hst => ?cutWrite⟩, fun hlocal => ?cutEmpty,
    fun hlocal hshut => mxlMemRead_waits hlocal hshut,
    fun r l hread => ⟨takeHostData_good hread, takeHostData_poisoned hread⟩, fun r c hfind => hostReadDone_arrives hfind 0 d,
    fun r c hread hfind => live_next hon (hostReadTimeout_ends hread hfind), fun hread => live_next hon (hostReadTimeout_none hread)⟩
  case messages =>
    have hexec : exec row.1 s = .next (s.onFlit x (fun u => u.messageFlit x row.2.1 row.2.2)) := by
      rw [← live_on hon]
      revert row
      simp only [List.forall_mem_cons]
      exact ⟨rfl, rfl, rfl, rfl, rfl, rfl, List.forall_mem_nil _⟩
    rw [hexec]
    refine ⟨fun hdown => congrArg _ (onFlit_down hdown), fun hup hbad => congrArg _ (onFlit_fails hup hbad),
      fun u hup hcrc hu hdown => congrArg _ (onFlit_retrains hup hcrc hu hdown), fun u hup hcrc hu hup' =>
        ⟨fun hrow => congrArg _ (onFlit_unknown hup hcrc hu hup' hrow), fun hknown => ?known⟩⟩
    have hacts := onFlit_acts hup hcrc hu hup' hknown (f := fun u => u.messageFlit x row.2.1 row.2.2)
    exact ⟨fun h => congrArg _ (hacts.trans (messageFlit_ignored h)), fun htyp hseq =>
      ⟨fun l hcls hgrant hl => ⟨fun hmore => congrArg _ (hacts.trans (messageFlit_commandPart htyp hseq hcls hgrant hl hmore)),
          fun hlast => congrArg _ (hacts.trans (messageFlit_commandEnd htyp hseq hcls hgrant hl hlast))⟩,
        fun l hcls hgrant hl => ⟨fun hmore => congrArg _ (hacts.trans (messageFlit_bulkPart htyp hseq hcls hgrant hl hmore)),
          fun hlast => congrArg _ (hacts.trans (messageFlit_bulkEnd htyp hseq hcls hgrant hl hlast))⟩⟩⟩
  case requests =>
    have hserve : s.serveReq q = u := by
      simp only [List.mem_cons, List.not_mem_nil, or_false, Prod.mk.injEq] at hrow
      rcases hrow with ⟨rfl, rfl⟩ | ⟨rfl, rfl⟩ | ⟨rfl, rfl⟩ | ⟨rfl, rfl⟩ | ⟨rfl, rfl⟩ <;> rfl
    exact ⟨fun hfree hnone => (issue_serves hfree hnone).trans hserve, fun hwait => issue_holds hwait⟩
  case wholeWrite =>
    rw [mxlMemWrite_writes hlocal hopen hdata hwrite, Bool.and_false]
    rfl
  case cutWrite =>
    rw [mxlMemWrite_writes hlocal hopen hdata hwrite, hst]
    rfl
  case cutEmpty => exact mxlMemWrite_poisoned hlocal

end Sys2Proof.Machine
end

