-- ==== Sys2Proof/Proofs/MilbexLink.lean ====
section
/-! PRIORITY packets, failed flits, replay, lanes and states of the Milbex Link (13 R353-R361). -/

namespace Sys2Proof.Machine

/-! PRIORITY packets and lane swaps in flits (R353, R359). -/

section
variable {u : State} {f : Flit}

theorem takePrio_first (htyp : f.typ = ftPRIO_CMD) (hfirst : bitSet f.flags 3 = false) : u.takePrio f =
    ({ u with mxl := { u.mxl with pair := .good } } : State).prioCmd (packetOf ((msgBytes [f]).drop 16)) := by
  simp only [State.takePrio, htyp, hfirst, ne_eq, not_true, Bool.false_and, Bool.false_eq_true, if_false]

theorem takePrio_second (htyp : f.typ = ftPRIO_CMD) (hsecond : bitSet f.flags 3 = true) (hlost : u.mxl.pair ≠ .good) : u.takePrio f =
    ({ u with mxl := { u.mxl with pair := .idle } } : State).prioCmd (packetOf ((msgBytes [f]).drop 16)) := by
  simp only [State.takePrio, htyp, hsecond, ne_eq, not_true, Bool.true_and, decide_eq_true_eq, hlost, if_false, if_true]

theorem takePrio_ignored (htyp : f.typ = ftPRIO_CMD) (hsecond : bitSet f.flags 3 = true) (hgood : u.mxl.pair = .good) :
    u.takePrio f = { u with mxl := { u.mxl with pair := .idle } } :=
  (if_neg (not_not.2 htyp)).trans (if_pos (by rw [hsecond, hgood]; rfl))

theorem takeLaneSwap_names (htyp : f.typ = ftLANE_SWAP) :
    u.takeLaneSwap f = { u with mxl := { u.mxl with txSwap := some (leAt f.payload 0 1, f.tag) } } := if_pos htyp

end

section
variable {s : State} {k : Packet}

theorem prioCmd_held (hroom : s.prioHeld < 16) : ∃ u : State, u = ((s.setF MXL_PRIO MXL_PRIO_last_tag k.tag).accept
      ⟨255, 0, 0, k, .accepted, s.bellCount, []⟩ false) ∧
    s.prioCmd k = ({ u with cmds := prioOrder u.cmds } : State).showPrio :=
  ⟨_, rfl, if_neg (Nat.not_le.2 hroom)⟩

theorem prioCmd_busy (hfull : 16 ≤ s.prioHeld) : s.prioCmd k = (s.incF MXL_PRIO MXL_PRIO_overflow 1).sendRecord
    ⟨255, 0, 0, k, .accepted, s.bellCount, []⟩ stPRIO_BUSY false 0 0 := if_pos hfull

end

/-- STOP packets come first; behind them is what else was held. -/
theorem prioOrder_spec {l y z : List Cmd} (hsplit : prioOrder l = y ++ z)
    (hstops : y = l.filter (fun c => c.ring == 255 && c.pkt.opcode == opSTOP)) :
    (∀ c ∈ z, c.ring ≠ 255 ∨ c.pkt.opcode ≠ opSTOP) ∧ (prioOrder l).Perm l := by
  have hrest : z = l.filter (fun c => !(c.ring == 255 && c.pkt.opcode == opSTOP)) := by
    rw [hstops] at hsplit
    exact (List.append_cancel_left hsplit).symm
  refine ⟨fun c hc => ?_, List.filter_append_perm _ l⟩
  rw [hrest, List.mem_filter] at hc
  simpa [← not_and_or] using hc.2

/-! Flits that fail (R357, R359, R360). -/

section
variable {s u : State} {f : Flit}

theorem flitFails_naks (hu : u = s.incF MXL_ERRORS MXL_ERRORS_flits_failed 1) (hcls : f.cls ≠ fcPRIORITY) :
    s.flitFails f = ({ u with mxl := { u.mxl with discarding := true } } : State).sendIdle true 0 0 := by
  subst hu
  exact if_neg hcls

theorem prioFails_eq (u : State) : u.prioFails =
    if u.mxl.pair = .failed then ({ u with mxl := { u.mxl with pair := .idle } } : State).incF MXL_PRIO MXL_PRIO_prio_bad 1
    else { u with mxl := { u.mxl with pair := if u.mxl.pair = .good then .idle else .failed } } := by
  rw [State.prioFails]
  cases hpair : u.mxl.pair <;> rfl

theorem flitFails_priority (hu : u = s.incF MXL_ERRORS MXL_ERRORS_flits_failed 1) (hcls : f.cls = fcPRIORITY) :
    s.flitFails f = u.prioFails := by
  subst hu
  exact if_pos hcls

theorem flitUnknown_naks (hu : u = s.incF MXL_ERRORS MXL_ERRORS_bad_type 1) (hcls : f.cls ∈ [fcCOMMAND, fcBULK]) :
    s.flitUnknown f = ({ u with mxl := { u.mxl with discarding := true } } : State).sendIdle true 0 0 := by
  subst hu
  exact if_pos (by simpa using hcls)

theorem flitUnknown_drops (hu : u = s.incF MXL_ERRORS MXL_ERRORS_bad_type 1) (hcls : f.cls ∉ [fcCOMMAND, fcBULK]) :
    s.flitUnknown f = u := by
  subst hu
  exact if_neg (by simpa using hcls)

theorem takeHeader_nak {x : RxFlit} {left : List TxFlit} (hleft : left = ackedList x.flit.ack s.mxl.replay)
    (hnak : x.flit.nak = true) (hclean : x.corrected = false) : s.takeHeader x = (({ s with
      mxl := { s.mxl with
        replay := left, acked := x.flit.ack, cmdCredits := s.mxl.cmdCredits + x.flit.cmdCredits
        bulkCredits := s.mxl.bulkCredits + x.flit.bulkCredits
        sameReplays := if left.length < s.mxl.replay.length then 0 else s.mxl.sameReplays } } : State).mxlReplay).mxlFlush := by
  subst hleft
  simp only [State.takeHeader, hnak, hclean, Bool.false_eq_true, if_false, if_true]

end

/-! Replay (R361). -/

/-- t is s but for flits that have left, and the counts that follow them. -/
def EmitsOnly (s t : State) : Prop :=
  t = { s with
    out := t.out
    mxl := { s.mxl with
      cmdRun := t.mxl.cmdRun, sinceIdle := t.mxl.sinceIdle, cmdGrant := t.mxl.cmdGrant, bulkGrant := t.mxl.bulkGrant } }

theorem EmitsOnly.trans {s t u : State} (h : EmitsOnly s t) (h' : EmitsOnly t u) : EmitsOnly s u := by
  rw [EmitsOnly] at h h' ⊢
  rw [h', h]

theorem putFlit_emitsOnly (s : State) (f : Flit) : EmitsOnly s (s.putFlit f) := rfl

theorem sendIdle_emitsOnly (s : State) (nak : Bool) (cmd bulk : Nat) : EmitsOnly s (s.sendIdle nak cmd bulk) := rfl

theorem emitFlit_emitsOnly (s : State) (f : Flit) : EmitsOnly s (s.emitFlit f) := by
  unfold State.emitFlit
  split
  · exact (sendIdle_emitsOnly s false 0 0).trans (putFlit_emitsOnly _ f)
  · exact putFlit_emitsOnly s f

theorem emitFlit_plain {s : State} {f : Flit} (h : s.mxl.sinceIdle < 4095) : s.emitFlit f = s.putFlit f := by
  rw [State.emitFlit, if_neg (Nat.not_le.2 h)]

/-- Flits go out again, one after another. -/
def State.emitAll (s : State) (l : List TxFlit) : State := forEach l s (fun s t => s.emitFlit t.flit)

theorem emitAll_emitsOnly (s : State) (l : List TxFlit) : EmitsOnly s (s.emitAll l) :=
  foldl_keeps (P := EmitsOnly s) l (fun t x ht => ht.trans (emitFlit_emitsOnly t x.flit)) rfl

theorem putFlit_sinceIdle_le (s : State) (f : Flit) : (s.putFlit f).mxl.sinceIdle ≤ s.mxl.sinceIdle + 1 := by
  have hcount : (s.putFlit f).mxl.sinceIdle = if f.cls = fcIDLE && f.typ = ftIDLE then 0 else s.mxl.sinceIdle + 1 := rfl
  rw [hcount]
  split
  · exact Nat.zero_le _
  · exact Nat.le_refl _

theorem emitAll_out (l : List TxFlit) : ∀ s : State, s.mxl.sinceIdle + l.length ≤ 4095 →
    (s.emitAll l).out = s.out ++ l.map (fun y => Out.flit (sealFlit { y.flit with ack := s.mxl.rxSeq })) := by
  induction l with
  | nil => exact fun s _ => (List.append_nil _).symm
  | cons t l ih =>
    intro s hroom
    rw [List.length_cons] at hroom
    have hput : s.emitAll (t :: l) = (s.putFlit t.flit).emitAll l :=
      congrArg (State.emitAll · l) (emitFlit_plain (f := t.flit) (by omega))
    have hcount := putFlit_sinceIdle_le s t.flit
    rw [hput, ih _ (by omega), List.map_cons]
    exact (List.append_assoc _ [_] _)

section
variable {s : State} {t : TxFlit} {l : List TxFlit}

/-- A replay is counted, by the flit that it begins at. -/
def State.replayNoted (s : State) (q n : Nat) : State :=
  let u := s.incF MXL_RETRY MXL_RETRY_replays 1
  { u with mxl := { u.mxl with sameReplays := n, lastReplay := q } }

theorem mxlReplay_sends (hreplay : s.mxl.replay = t :: l) (hfew : s.mxl.lastReplay ≠ t.flit.seq ∨ s.mxl.sameReplays < 7) :
    s.mxlReplay = (s.replayNoted t.flit.seq
      (if s.mxl.lastReplay = t.flit.seq then s.mxl.sameReplays + 1 else 1)).emitAll (t :: l) := by
  have hless : (if s.mxl.lastReplay = t.flit.seq then s.mxl.sameReplays + 1 else 1) < 8 := by
    split
    case isTrue hsame => exact Nat.succ_lt_succ (hfew.resolve_left (not_not.2 hsame))
    case isFalse => decide
  rw [State.mxlReplay, hreplay]
  exact (if_pos hless).trans (congrArg (State.emitAll _) hreplay)

theorem mxlReplay_shows (hreplay : s.mxl.replay = t :: l) (hfew : s.mxl.lastReplay ≠ t.flit.seq ∨ s.mxl.sameReplays < 7) :
    (s.mxl.sinceIdle + (t :: l).length ≤ 4095 → s.mxlReplay.out =
      s.out ++ (t :: l).map (fun y => Out.flit (sealFlit { y.flit with ack := s.mxl.rxSeq }))) ∧
    s.mxlReplay.getF MXL_RETRY MXL_RETRY_replays =
      min (2 ^ MXL_RETRY_replays.len - 1) (s.getF MXL_RETRY MXL_RETRY_replays + 1) ∧
    s.mxlReplay.mxl.replay = t :: l ∧ s.mxlReplay.mxl.lastReplay = t.flit.seq ∧
    s.mxlReplay.mxl.sameReplays = if s.mxl.lastReplay = t.flit.seq then s.mxl.sameReplays + 1 else 1 := by
  rw [mxlReplay_sends hreplay hfew]
  generalize (if s.mxl.lastReplay = t.flit.seq then s.mxl.sameReplays + 1 else 1) = n
  have hframe := emitAll_emitsOnly (s.replayNoted t.flit.seq n) (t :: l)
  refine ⟨fun hroom => emitAll_out (t :: l) (s.replayNoted t.flit.seq n) hroom, ?_,
    (congrArg (fun u : State => u.mxl.replay) hframe).trans hreplay, congrArg (fun u : State => u.mxl.lastReplay) hframe,
    congrArg (fun u : State => u.mxl.sameReplays) hframe⟩
  refine (congrArg (fun u : State => u.getF MXL_RETRY MXL_RETRY_replays) hframe).trans ?_
  exact getF_setF_lt s _ (by decide) (Nat.lt_of_le_of_lt (Nat.min_le_left _ _) (by decide))

end

/-! Lanes (R353). -/

section
variable {s u : State} {lane corrected : Nat} {lost : Bool}

theorem mxlLaneFault_within (hfew : corrected ≤ s.getF MXL_LANES MXL_LANES_swap_threshold) : s.mxlLaneFault lane corrected false = s :=
  if_pos (by simpa using hfew)

section
variable (hbad : lost = true ∨ s.getF MXL_LANES MXL_LANES_swap_threshold < corrected)
  (hu : u = (s.setF MXL_LANES MXL_LANES_good (withoutBit (s.getF MXL_LANES MXL_LANES_good) lane)).carryLane 6 lane)
include hbad hu

theorem mxlLaneFault_eq : s.mxlLaneFault lane corrected lost =
    if !u.mxl.logical.contains lane then { u with mxl := { u.mxl with spare := u.mxl.spare.filter (· != lane) } }
    else if u.mxl.swap = none && u.mxl.spare.isSome then
      ({ u with mxl := { u.mxl with swap := some (lane, 64) } } : State).sendLaneSwap lane 64
    else ({ u with mxl := { u.mxl with swap := none, halfNext := true } } : State).mxlRetrain := by
  subst hu
  exact if_neg (by simpa [or_iff_not_imp_left] using hbad)

theorem mxlLaneFault_idle (hidle : lane ∉ u.mxl.logical) : s.mxlLaneFault lane corrected lost =
    { u with mxl := { u.mxl with spare := u.mxl.spare.filter (· != lane) } } :=
  (mxlLaneFault_eq hbad hu).trans (if_pos (by simpa using hidle))

theorem mxlLaneFault_swaps (hused : lane ∈ u.mxl.logical) (hfree : u.mxl.swap = none) (hspare : u.mxl.spare ≠ none) :
    s.mxlLaneFault lane corrected lost =
      ({ u with mxl := { u.mxl with swap := some (lane, 64) } } : State).sendLaneSwap lane 64 :=
  (mxlLaneFault_eq hbad hu).trans ((if_neg (by simpa using hused)).trans
    (if_pos (by simp [hfree, Option.isSome_iff_ne_none.2 hspare])))

theorem mxlLaneFault_retrains (hused : lane ∈ u.mxl.logical) (hnone : u.mxl.swap ≠ none ∨ u.mxl.spare = none) :
    s.mxlLaneFault lane corrected lost =
      ({ u with mxl := { u.mxl with swap := none, halfNext := true } } : State).mxlRetrain := by
  refine (mxlLaneFault_eq hbad hu).trans ((if_neg (by simpa using hused)).trans (if_neg ?_))
  rcases hnone with hswap | hspare
  · simp [hswap]
  · simp [hspare]

end

variable {a b : Nat}

theorem mxlTakeover_received (hswap : s.mxl.swap = some (a, b)) : s.mxlTakeover false = (({ s with
    mxl := { s.mxl with
      swap := none, spare := none
      logical := s.mxl.logical.map (fun q => if q = a then s.mxl.spare.getD q else q) } } : State).setB MXL_STATE
    MXL_STATE_spare_used true).raise evLaneSwap 255 8 0 a 0 0 0 := by
  rw [State.mxlTakeover]
  dsimp only
  rw [if_neg Bool.false_ne_true, hswap]
  rfl

theorem mxlTakeover_sent (hswap : s.mxl.txSwap = some (a, b)) : s.mxlTakeover true =
    (({ s with mxl := { s.mxl with txSwap := none } } : State).setB MXL_STATE MXL_STATE_spare_used true).raise evLaneSwap
      255 8 0 a 0 0 0 := by
  rw [State.mxlTakeover]
  dsimp only
  rw [if_pos rfl, hswap]
  rfl

theorem mxlTakeover_none (hswap : s.mxl.txSwap = none) : s.mxlTakeover true = s := by
  rw [State.mxlTakeover]
  dsimp only
  rw [if_pos rfl, hswap]

end

/-! States (R354). -/

section
variable {s : State} {lanes : List Nat} {cmd bulk : Nat}

/-- Lanes carry what the ranking gives them, at full or half width. -/
def State.mxlLaid (s : State) (lanes : List Nat) (half : Bool) : State :=
  ((({ s with
    mxl := { s.mxl with
      logical := lanes.take (if half then 4 else 8), spare := if half then none else lanes[8]?
      swap := none, txSwap := none, halfNext := false } } : State).setF MXL_LANES MXL_LANES_good (maskOf lanes)).setB MXL_STATE
    MXL_STATE_half_width half).setB MXL_STATE MXL_STATE_spare_used false

theorem mxlRanked_lays {half : Bool} (hmany : 4 ≤ lanes.length)
    (hhalf : half = (decide (lanes.length < 8) || s.heldHalf || s.mxl.halfNext)) :
    s.mxlRanked lanes = some (s.mxlLaid lanes half) := by
  subst hhalf
  exact if_neg (Nat.not_lt.2 hmany)

theorem mxlStateDone_lays {st : Nat × Nat} (hrow : st ∈ [(2, 3), (6, 5)]) (hst : s.mxlSt = st.1) {half : Bool} (hmany : 4 ≤ lanes.length)
    (hhalf : half = (decide (lanes.length < 8) || s.heldHalf || s.mxl.halfNext)) :
    s.mxlStateDone lanes cmd bulk = (s.mxlLaid lanes half).mxlTo st.2 0 := by
  rw [List.mem_cons, List.mem_singleton] at hrow
  rcases hrow with rfl | rfl
  · rw [State.mxlStateDone, hst, mxlRanked_lays hmany hhalf]
    rfl
  · rw [State.mxlStateDone, hst, mxlRanked_lays hmany hhalf]
    rfl

theorem mxlStateDone_fails (hst : s.mxlSt ∈ [2, 6]) (hfew : lanes.length < 4) : s.mxlStateDone lanes cmd bulk = s.mxlTo 7 1 := by
  have hranked : s.mxlRanked lanes = none := if_pos hfew
  rw [List.mem_cons, List.mem_singleton] at hst
  rcases hst with hst | hst
  · rw [State.mxlStateDone, hst, hranked]
    rfl
  · rw [State.mxlStateDone, hst, hranked]
    rfl

theorem mxlStateDone_detect (hst : s.mxlSt = 1) :
    s.mxlStateDone lanes cmd bulk = if 4 ≤ lanes.length then s.mxlTo 2 0 else s := by
  rw [State.mxlStateDone, hst]
  rfl

theorem mxlStateDone_align (hst : s.mxlSt = 3) : s.mxlStateDone lanes cmd bulk = s.mxlTo 4 0 := by
  rw [State.mxlStateDone, hst]
  rfl

theorem mxlStateDone_credit (hst : s.mxlSt = 4) : s.mxlStateDone lanes cmd bulk = (s.mxlCredited cmd bulk).mxlTo 5 0 := by
  rw [State.mxlStateDone, hst]
  rfl

theorem mxlStateDone_rests (hst : s.mxlSt ∈ [0, 5, 7]) : s.mxlStateDone lanes cmd bulk = s := by
  simp only [List.mem_cons, List.not_mem_nil, or_false] at hst
  rcases hst with hst | hst | hst <;> simp [State.mxlStateDone, hst]

end

/-! What remains of the replay buffer while the link is not UP. -/

/-- The link is not UP, and its replay buffer holds l. -/
def LinkRests (l : List TxFlit) (t : State) : Prop := t.mxlUp = false ∧ t.mxl.replay = l

section
variable {l : List TxFlit} {t : State}

theorem mxlUp_quiet {u : State} (h : Reports t u) : u.mxlUp = t.mxlUp :=
  congrArg (· == 5) (h.getF (by decide) MXL_STATE_state)

theorem LinkRests.mxlSend (h : LinkRests l t) (x : Msg) : LinkRests l (t.mxlSend x) := by
  obtain ⟨hdown, hreplay⟩ := h
  refine ⟨(mxlUp_quiet (reports_mxlSend x (Reports.refl t))).trans hdown, ?_⟩
  have hnot : ¬ t.mxlUp = true := by rw [hdown]; exact Bool.false_ne_true
  rw [State.mxlSend, State.mxlFlush]
  exact (congrArg (fun u : State => u.mxl.replay) (if_neg hnot)).trans hreplay

theorem LinkRests.evWrite {e : Nat} (he : e < 8) (h : LinkRests l t) (n : Nat) (r : EvRec) : LinkRests l (t.evWrite e n r) :=
  ⟨(mxlUp_quiet (reports_evWrite n r he (Reports.refl t))).trans h.1, (h.mxlSend _).2⟩

theorem LinkRests.evOffer {e : Nat} (he : e < 8) (h : LinkRests l t) (n : Nat) (r : EvRec) : LinkRests l (t.evOffer e n r) := by
  refine ⟨(mxlUp_quiet (reports_evOffer n r he (Reports.refl t))).trans h.1, ?_⟩
  unfold State.evOffer
  split
  · exact (h.evWrite he n r).2
  · split
    · exact h.2
    · exact h.2

theorem LinkRests.evRoute (h : LinkRests l t) (r : EvRec) : LinkRests l (t.evRoute r) := by
  refine ⟨(mxlUp_quiet (reports_evRoute r (Reports.refl t))).trans h.1, ?_⟩
  unfold State.evRoute
  dsimp only
  split
  · exact h.2
  · refine (foldl_keeps_mem (P := LinkRests l) _ (fun u e he hu => ?_) h).2
    exact hu.evOffer (List.mem_range.mp (List.mem_filter.mp he).1) _ r

theorem alertIbi_mxl (s : State) : s.alertIbi.mxl = s.mxl := by
  unfold State.alertIbi State.raiseIbi
  split
  · rfl
  · split <;> rfl

theorem LinkRests.raise (h : LinkRests l t) (code part kind unit d0 d1 d2 d3 : Nat) :
    LinkRests l (t.raise code part kind unit d0 d1 d2 d3) := by
  refine ⟨(mxlUp_quiet (reports_raise code part kind unit d0 d1 d2 d3 (Reports.refl t))).trans h.1, ?_⟩
  have hnumbered : LinkRests l (t.setReg EVT_SEQ (BitVec.ofNat 32 ((t.reg EVT_SEQ).toNat + 1))) :=
    ⟨(mxlUp_quiet (reports_setReg (by decide) (Reports.refl t))).trans h.1, h.2⟩
  have htraced : ∀ r c, ((t.setReg EVT_SEQ (BitVec.ofNat 32 ((t.reg EVT_SEQ).toNat + 1))).evRoute r |>.trace 2 c none none).mxl.replay
      = l := fun r c => (congrArg (fun u : State => u.mxl.replay) (trace_frame _ 2 c none none)).trans (hnumbered.evRoute r).2
  unfold State.raise State.raiseWith
  dsimp only
  split
  · rw [alertIbi_mxl]
    exact htraced _ _
  · exact htraced _ _

end

/-! The link enters a state. -/

section
variable {s : State} {st r : Nat}

/-- The state register as the link enters a state, and what is cleared then, before that is reported. -/
def State.mxlSet (s : State) (st r : Nat) : State :=
  let u := ((s.setF MXL_STATE MXL_STATE_state st).setF MXL_STATE MXL_STATE_down_reason r).trace 4 none none none
  if st = 7 || st = 0 then
    { u with
      mxl := { u.mxl with
        replay := [], discarding := false, cmdQ := wholeMsgs u.mxl.cmdQ, bulkQ := wholeMsgs u.mxl.bulkQ, rxCmd := []
        rxBulk := [], pair := .idle } }
  else u

theorem mxlTo_enters (hnew : s.mxlSt ≠ st) (hup : st ≠ 5) : s.mxlTo st r =
    (s.mxlSet st r).raise evLinkState 255 8 0 st r ((s.mxlSet st r).getF MXL_STATE MXL_STATE_half_width) 0 :=
  (if_neg hnew).trans (if_neg hup)

theorem mxlSet_reports (s : State) (st r : Nat) :
    Reports ((s.setF MXL_STATE MXL_STATE_state st).setF MXL_STATE MXL_STATE_down_reason r) (s.mxlSet st r) := by
  have htrace := reports_trace 4 none none none
    (Reports.refl ((s.setF MXL_STATE MXL_STATE_state st).setF MXL_STATE MXL_STATE_down_reason r))
  unfold State.mxlSet
  dsimp only
  split
  · exact htrace.trans ⟨rfl, fun _ _ => rfl⟩
  · exact htrace

theorem mxlTo_shows (hst : st < 16) (hr : r < 16) (hnew : s.mxlSt ≠ st) (hup : st ≠ 5) :
    (s.mxlTo st r).mxlSt = st ∧ (s.mxlTo st r).getF MXL_STATE MXL_STATE_down_reason = r := by
  have hrep : Reports ((s.setF MXL_STATE MXL_STATE_state st).setF MXL_STATE MXL_STATE_down_reason r) (s.mxlTo st r) := by
    rw [mxlTo_enters hnew hup]
    exact reports_raise _ _ _ _ _ _ _ _ (mxlSet_reports s st r)
  refine ⟨(hrep.getF (by decide) _).trans ?_, (hrep.getF (by decide) _).trans (getF_setF_lt _ _ (by decide) hr)⟩
  exact (getF_setF_fld _ _ _ (by decide) (.inr (by decide))).trans (getF_setF_lt _ _ (by decide) hst)

/-- A link that goes DOWN has nothing left to replay. -/
theorem mxlTo_down_replay (hnew : s.mxlSt ≠ 7) : (s.mxlTo 7 r).mxl.replay = [] := by
  have hstate : (s.mxlSet 7 r).getF MXL_STATE MXL_STATE_state = 7 :=
    ((mxlSet_reports s 7 r).getF (by decide) _).trans
      ((getF_setF_fld _ _ _ (by decide) (.inr (by decide))).trans (getF_setF_lt _ _ (by decide) (by decide)))
  have hrests : LinkRests [] (s.mxlSet 7 r) := by
    refine ⟨?_, rfl⟩
    rw [State.mxlUp, hstate]
    rfl
  rw [mxlTo_enters hnew (by decide)]
  exact (hrests.raise _ _ _ _ _ _ _ _).2

end

/-- Settles O46: flits that act and fail, the replay, the lanes, and each state of the link. -/
theorem milbexLink : Obligations.MilbexLink := by
  unfold Obligations.MilbexLink
  intro s x k lane corrected cmd bulk lanes lost hon
  have hfault : exec (.mxlLaneFault ⟨lane, corrected, lost⟩) s =
      live s (if s.mxlUp && lane < 9 then s.mxlLaneFault lane corrected lost else s) := rfl
  have hdone : exec (.mxlStateDone lanes cmd bulk) s = .next (s.mxlStateDone lanes cmd bulk) := live_next hon rfl
  have htake : exec .mxlLaneTakeover s = .next (s.mxlTakeover s.mxl.swap.isNone) := live_next hon rfl
  refine ⟨fun u hup hcrc hu hup' hknown => ?good, fun hroom => prioCmd_held hroom, fun hfull => prioCmd_busy hfull,
    fun l y z hsplit hstops => prioOrder_spec hsplit hstops, fun hdown => ?down,
    fun hup => live_next hon (if_pos (by rw [hup]; rfl)),
    fun u hu => ⟨flitFails_naks hu, fun hcls => (flitFails_priority hu hcls).trans (prioFails_eq u)⟩,
    fun u hu => ⟨flitUnknown_naks hu, flitUnknown_drops hu⟩, fun left hleft hnak hclean => takeHeader_nak hleft hnak hclean,
    fun hup hsome => live_next hon (if_pos (by simp [hup, hsome])), fun hnone => live_next hon (if_neg (by simp [hnone])),
    fun t l hreplay hfew => mxlReplay_shows hreplay hfew, fun hup hfew => ?fewErrors,
    fun u hlane hup hbad hu => ?fault, fun a b hswap => ?received, fun a b hfree hswap => ?sent, fun hfree hnone => ?noSwap,
    fun hst hmany => ?detect, fun hst hfew => ?dark, fun st hrow hst hmany half hhalf =>
      hdone.trans (congrArg _ (mxlStateDone_lays hrow hst hmany hhalf)),
    fun hst hfew => hdone.trans (congrArg _ (mxlStateDone_fails hst hfew)),
    fun hst => hdone.trans (congrArg _ (mxlStateDone_align hst)), fun hst => hdone.trans (congrArg _ (mxlStateDone_credit hst)),
    fun hst => hdone.trans (congrArg _ (mxlStateDone_rests hst)), fun hst => live_next hon (if_pos (by simpa using hst)),
    fun hst => live_next hon (if_neg ?notTraining), fun hst => live_next hon (if_pos hst), fun hst => live_next hon (if_neg hst),
    live_next hon rfl, fun st hst r hr hnew => ?enters⟩
  case good =>
    have hacts : ∀ f : State → State, live s (s.onFlit x f) = .next (f u) :=
      fun f => live_next hon (onFlit_acts hup hcrc hu hup' hknown)
    refine ⟨hacts id, hacts id, ?_, fun htyp => (hacts _).trans (congrArg _ (takeLaneSwap_names htyp)),
      fun htyp hfirst => (hacts _).trans (congrArg _ (takePrio_first htyp hfirst)),
      fun htyp hsecond hlost => (hacts _).trans (congrArg _ (takePrio_second htyp hsecond hlost)),
      fun htyp hsecond hgood => (hacts _).trans (congrArg _ (takePrio_ignored htyp hsecond hgood))⟩
    refine live_next hon ((if_neg ?_).trans (onFlit_acts hup hcrc hu hup' hknown))
    rw [Bool.and_false]
    exact Bool.false_ne_true
  case down =>
    have hnone : ∀ f : State → State, live s (s.onFlit x f) = .next s := fun f => live_next hon (onFlit_down hdown)
    refine ⟨hnone _, hnone _, hnone _, hnone _, live_next hon ((if_neg ?_).trans (onFlit_down hdown)),
      live_next hon (if_neg ?_), hfault.trans (live_next hon (if_neg ?_))⟩ <;> simp [hdown]
  case fewErrors =>
    refine live_next hon ?_
    dsimp only
    rw [mxlLaneFault_within hfew, ite_self]
  case fault =>
    have hgo : exec (.mxlLaneFault ⟨lane, corrected, lost⟩) s = .next (s.mxlLaneFault lane corrected lost) :=
      hfault.trans (live_next hon (if_pos (by simp [hup, hlane])))
    exact ⟨fun hidle => hgo.trans (congrArg _ (mxlLaneFault_idle hbad hu hidle)),
      fun hused hfree hspare => hgo.trans (congrArg _ (mxlLaneFault_swaps hbad hu hused hfree hspare)),
      fun hused hnone => hgo.trans (congrArg _ (mxlLaneFault_retrains hbad hu hused hnone))⟩
  case received =>
    rw [htake, hswap]
    exact congrArg _ (mxlTakeover_received hswap)
  case sent =>
    rw [htake, hfree]
    exact congrArg _ (mxlTakeover_sent hswap)
  case noSwap =>
    rw [htake, hfree]
    exact congrArg _ (mxlTakeover_none hnone)
  case detect => exact hdone.trans (congrArg _ ((mxlStateDone_detect hst).trans (if_pos hmany)))
  case dark => exact hdone.trans (congrArg _ ((mxlStateDone_detect hst).trans (if_neg (Nat.not_le.2 hfew))))
  case notTraining =>
    simp only [List.mem_cons, List.not_mem_nil, or_false] at hst
    rcases hst with h | h | h | h <;> simp [h]
  case enters =>
    have hrange : st < 16 ∧ st ≠ 5 := by
      simp only [List.mem_cons, List.not_mem_nil, or_false] at hst
      omega
    obtain ⟨hstate, hreason⟩ := mxlTo_shows hrange.1 hr hnew hrange.2
    refine ⟨hstate, hreason, fun hdown => ?_⟩
    subst hdown
    exact mxlTo_down_replay hnew

end Sys2Proof.Machine
end

