-- ==== Sys2Proof/Proofs/FetchAndAbort.lean ====
section
/-! Fetching a command, the checks at its acceptance, and ABORT (14 R373-R383). -/

namespace Sys2Proof.Machine

/-! The ring whose turn it is. -/

section
variable {s : State} {r : Nat}

theorem canFetch_spec (h : s.canFetch r = true) : s.ringOn r = true ∧ 0 < s.ringPending r ∧ s.ringOpen r < 64 ∧ s.cmds.length < 1024 ∧
    s.cplFree (s.getF (CMD_RING_CFG r) CMD_RING_CFG_cpl_ring) = true ∧ (s.fences.contains r = true → s.ringOpen r = 0) := by
  simp only [State.canFetch, Bool.and_eq_true, Bool.or_eq_true, Bool.not_eq_true', decide_eq_true_eq, beq_iff_eq] at h
  obtain ⟨⟨⟨⟨⟨hon, hpending⟩, hcpl⟩, hopen⟩, hroom⟩, hfence⟩ := h
  exact ⟨hon, hpending, hopen, hroom, hcpl, fun hf => hfence.resolve_left (by rw [hf]; decide)⟩

theorem nextRing_canFetch {q : Nat} (h : s.nextRing = some q) : s.canFetch q = true := by
  unfold State.nextRing at h
  split at h
  case isTrue hlast =>
    rw [← Option.some.inj h]
    exact (Bool.and_eq_true_iff.1 hlast).1
  case isFalse => exact List.find?_some h

/-- The ring served last goes on up to its weight. -/
theorem nextRing_last (hcan : s.canFetch s.lastRing = true) (hrun : s.lastRun < s.ringWeight s.lastRing) :
    s.nextRing = some s.lastRing :=
  if_pos (by rw [hcan, decide_eq_true hrun]; rfl)

/-- Then the first one behind it that can fetch. -/
theorem nextRing_first {q j : Nat} (hj : j < 64) (hq : q = (s.lastRing + 1 + j) % 64) (hrun : s.ringWeight s.lastRing ≤ s.lastRun)
    (hcan : s.canFetch q = true) (hnone : ∀ l, l < j → s.canFetch ((s.lastRing + 1 + l) % 64) = false) : s.nextRing = some q := by
  have hspent : ¬ (s.canFetch s.lastRing && decide (s.lastRun < s.ringWeight s.lastRing)) = true := by
    rw [decide_eq_false (Nat.not_lt.2 hrun), Bool.and_false]
    exact Bool.false_ne_true
  refine (if_neg hspent).trans (List.find?_eq_some_iff_getElem.2 ⟨hcan, j, by simpa using hj, by simpa using hq.symm, fun l hl => ?_⟩)
  rw [List.getElem_map, List.getElem_range, hnone l hl]
  rfl

end

/-! The entry at the head of a ring. -/

section
variable {s u v : State} {r h : Nat} {b : List Byte}

theorem LinkOnly.keeps {α : Type} {s t : State} (h : LinkOnly s t) (f : State → α)
    (hf : ∀ (u : State) (m : MxlSt) (o : List Out), f { u with mxl := m, out := o } = f u) : f t = f s :=
  (congrArg f h).trans (hf s _ _)

theorem readEntry_linkOnly (s : State) (r i : Nat) : LinkOnly s (s.readEntry r i) := .of_mxl (mxlSend_linkOnly _ _)

theorem readEntry_reg (s : State) (r i a : Nat) : (s.readEntry r i).reg a = s.reg a :=
  (readEntry_linkOnly s r i).keeps (State.reg · a) (fun _ _ _ => rfl)

section
variable (hh : h = (s.reg (CMD_RING_HEAD r)).toNat)
include hh

/-- An entry that an ABORT has fetched is passed over. -/
theorem fetch_skips (hskip : (s.ringOn r && s.skips.contains (r, h)) = true)
    (hu : u = s.setReg (CMD_RING_HEAD r) (BitVec.ofNat 32 (h + 1))) : s.fetch r b = { u with skips := s.skips.erase (r, h) } := by
  subst hh hu
  exact if_pos hskip

section
variable (hskip : (s.ringOn r && s.skips.contains (r, h)) = false)
include hskip

theorem fetch_not (hnext : s.nextRing ≠ some r) : s.fetch r b = s := by
  subst hh
  exact (if_neg (by rw [hskip]; exact Bool.false_ne_true)).trans (if_neg hnext)

section
variable (hnext : s.nextRing = some r) (hu : u = s.readEntry r h)
include hnext hu

/-- An entry with its fence flag set waits for the earlier commands of its ring. -/
theorem fetch_fenced (hflag : (packetOf b).flags % 2 = 1) (hopen : s.ringOpen r ≠ 0) :
    s.fetch r b = { u with fences := s.fences.filter (fun q => q != r) ++ [r] } := by
  have hkept : (s.readEntry r h).ringOpen r = s.ringOpen r := 
    (readEntry_linkOnly s r h).keeps (State.ringOpen · r) (fun _ _ _ => rfl)
  subst hu hh
  refine (if_neg (by rw [hskip]; exact Bool.false_ne_true)).trans ((if_pos hnext).trans (if_pos ?_))
  rw [hkept, decide_eq_true hflag, decide_eq_true hopen]
  rfl

theorem fetch_accepts (hfence : (packetOf b).flags % 2 = 1 → s.ringOpen r = 0)
    (hv : v = u.setReg (CMD_RING_HEAD r) (BitVec.ofNat 32 (h + 1))) :
    s.fetch r b = ({ v with
        lastRing := r
        lastRun := if s.lastRing = r then s.lastRun + 1 else 1
        fences := s.fences.filter (fun q => q != r) } : State).acceptRing
      ⟨r, s.getF (CMD_RING_CFG r) CMD_RING_CFG_cpl_ring, s.ringPart r, packetOf b, .accepted, s.bellCount, []⟩
      (s.flag (CMD_RING_CFG r) CMD_RING_CFG_device) := by
  have hframe := readEntry_linkOnly s r h
  have hkept : (s.readEntry r h).ringOpen r = s.ringOpen r := hframe.keeps (State.ringOpen · r) (fun _ _ _ => rfl)
  have hlast : (s.readEntry r h).lastRing = s.lastRing := hframe.keeps State.lastRing (fun _ _ _ => rfl)
  have hrun : (s.readEntry r h).lastRun = s.lastRun := hframe.keeps State.lastRun (fun _ _ _ => rfl)
  have hgo : ¬ (decide ((packetOf b).flags % 2 = 1) && decide ((s.readEntry r h).ringOpen r ≠ 0)) = true := by
    rw [hkept, Bool.and_eq_true, decide_eq_true_eq, decide_eq_true_eq]
    exact fun hboth => hboth.2 (hfence hboth.1)
  have hreg : ∀ a, a ≠ CMD_RING_HEAD r → v.reg a = s.reg a := fun a ha => by
    rw [hv, reg_setReg, if_neg ha, hu, readEntry_reg]
  have hcfg : v.reg (CMD_RING_CFG r) = s.reg (CMD_RING_CFG r) := hreg _ (by unfold CMD_RING_CFG CMD_RING_HEAD; omega)
  have hcmd : (⟨r, v.getF (CMD_RING_CFG r) CMD_RING_CFG_cpl_ring, v.ringPart r, packetOf b, .accepted, v.bellCount, []⟩ : Cmd) =
      ⟨r, s.getF (CMD_RING_CFG r) CMD_RING_CFG_cpl_ring, s.ringPart r, packetOf b, .accepted, s.bellCount, []⟩ := by
    have hbell : v.bellCount = s.bellCount := pair_congr (hreg _ (by unfold BELL_COUNT_LO CMD_RING_HEAD; omega))
      (hreg _ (by unfold BELL_COUNT_LO CMD_RING_HEAD; omega))
    rw [State.ringPart, State.ringPart, State.getF, State.getF, State.getF, State.getF, hcfg, hbell]
  have hdevice : v.flag (CMD_RING_CFG r) CMD_RING_CFG_device = s.flag (CMD_RING_CFG r) CMD_RING_CFG_device := by
    rw [State.flag, State.flag, State.getF, State.getF, hcfg]
  subst hv hu hh
  refine (if_neg (by rw [hskip]; exact Bool.false_ne_true)).trans ((if_pos hnext).trans ((if_neg hgo).trans ?_))
  rw [← hlast, ← hrun]
  exact congrArg₂ (State.acceptRing _) hcmd hdevice

end

end

end

end

/-! The checks at acceptance (R381). -/

section
variable {s t : State} {k : Packet} {row : OpRow} {p d : Bool}

theorem acceptFails_unknown (hrow : opRow k.opcode = none) : s.acceptFails k p d = some (stBAD_OPCODE, 0) := by
  rw [State.acceptFails, hrow]

section
variable (hrow : opRow k.opcode = some row)
include hrow

theorem acceptFails_path (hpath : (if p then row.prio else row.ring) = false) : s.acceptFails k p d = some (stBAD_OPCODE, 0) := by
  rw [State.acceptFails, hrow]
  exact if_pos (by rw [hpath]; rfl)

section
variable (hring : row.ring = true) (hstage : s.stageFails row = false)
include hring hstage

theorem acceptFails_partition (hdevice : row.device = true) : s.acceptFails k false false = some (stWRONG_PARTITION, 0) := by
  simp [State.acceptFails, hrow, hring, hstage, hdevice]

theorem acceptFails_stray {w b : Nat} (hdevice : row.device = false ∨ d = true) (hflags : k.flags / 2 = 0)
    (hstray : strayParam row k false = some (w, b)) : s.acceptFails k false d = some (stBAD_PARAM, w + 256 * b) := by
  have hgate : (row.device && !d) = false := by
    rcases hdevice with h | h
    · rw [h, Bool.false_and]
    · rw [h, Bool.not_true, Bool.and_false]
  simp [State.acceptFails, hrow, hring, hstage, hgate, hflags, hstray]

end

end

/-- The checks read two registers of the state. -/
theorem acceptFails_congr (hstage : t.reg BRG_STAGE = s.reg BRG_STAGE) (hlicence : t.reg SEC_LICENCE = s.reg SEC_LICENCE)
    (k : Packet) (p d : Bool) : t.acceptFails k p d = s.acceptFails k p d := by
  have hstages : ∀ r, t.stageFails r = s.stageFails r := fun r => by
    rw [State.stageFails, State.stageFails, State.getF, State.getF, State.getF, State.getF, hstage]
  have hlicences : t.licenceFails k = s.licenceFails k := by
    have hfeatures : t.getF SEC_LICENCE SEC_LICENCE_features = s.getF SEC_LICENCE SEC_LICENCE_features :=
      congrArg (fldGet · SEC_LICENCE_features) hlicence
    rw [State.licenceFails, State.licenceFails, State.licensed, State.licensed, State.licensedParts, State.licensedParts, hfeatures]
  simp only [State.acceptFails, hstages, hlicences]

end

/-! Acceptance. -/

section
variable {s : State} {c : Cmd} {d : Bool}

/-- A command enters the accepted commands, before its checks. -/
def State.entered (s : State) (c : Cmd) : State := ({ s with cmds := s.cmds ++ [c] } : State).trace 1 none (some c.ring) none

theorem entered_reports (s : State) (c : Cmd) : Reports { s with cmds := s.cmds ++ [c] } (s.entered c) :=
  reports_trace 1 none (some c.ring) none (Reports.refl _)

theorem accept_eq (s : State) (c : Cmd) (d : Bool) : s.accept c d = match s.acceptFails c.pkt (c.ring == 255) d with
    | some (st, e) => (s.entered c).finish c st false e 0
    | none => s.entered c := by
  have hsame : (s.entered c).acceptFails c.pkt (c.ring == 255) d = s.acceptFails c.pkt (c.ring == 255) d :=
    acceptFails_congr ((entered_reports s c).2 _ (by decide)) ((entered_reports s c).2 _ (by decide)) _ _ _
  rw [← hsame]
  rfl

theorem accept_enters (hgood : s.acceptFails c.pkt (c.ring == 255) d = none) : s.accept c d = s.entered c := by
  rw [accept_eq, hgood]

theorem perfAdd_cmds (s : State) (p k n : Nat) : (s.perfAdd p k n).cmds = s.cmds := by
  unfold State.perfAdd
  dsimp only
  split
  · rfl
  · split
    · rfl
    · exact raise_cmds _ _ _ _ _ _ _ _ _

/-- A command that completes leaves the accepted commands. -/
theorem finish_cmds (s : State) (c : Cmd) (status : Nat) (changed : Bool) (detail result : Nat) :
    (s.finish c status changed detail result).cmds = s.cmds.erase c := by
  have hphases : (s.tracePhases c changed).cmds = s.cmds := foldl_keeps (P := fun u : State => u.cmds = s.cmds) _
    (fun u _ hu => (congrArg State.cmds (trace_frame u 1 none (some c.ring) none)).trans hu) rfl
  have hsent : ∀ u : State, ((u.sendRecord c status changed detail result).trace 1 none (some c.ring) none).cmds = u.cmds := fun u => by
    refine (congrArg State.cmds (trace_frame (u.sendRecord c status changed detail result) 1 none (some c.ring) none)).trans ?_
    unfold State.sendRecord
    dsimp only
    split <;> exact (mxlSend_linkOnly u _).keeps State.cmds (fun _ _ _ => rfl)
  have hdone : ∀ u : State, (if c.ring < 64 then u.perfAdd c.part 7 1 else u.showPrio).cmds = u.cmds := fun u => by
    split
    · exact perfAdd_cmds u _ _ _
    · rfl
  rw [← hphases]
  exact (hdone _).trans (hsent _)

theorem accept_fails {e : Nat × Nat} (hbad : s.acceptFails c.pkt (c.ring == 255) d = some e) (hnew : c ∉ s.cmds) (hc : c.placed) :
    (s.accept c d).cmds = s.cmds ∧ Completes s (s.accept c d) := by
  have haccept : s.accept c d = (s.entered c).finish c e.1 false e.2 0 := by rw [accept_eq, hbad]
  have hentered : (s.entered c).cmds = s.cmds ++ [c] := congrArg State.cmds (entered_reports s c).1
  rw [haccept]
  refine ⟨?_, completes_finish _ _ _ _ hc (Completes.trans ⟨rfl, fun _ _ => rfl⟩ (entered_reports s c).completes)⟩
  rw [finish_cmds, hentered, List.erase_append_right _ hnew, List.erase_cons_head, List.append_nil]

theorem acceptRing_plain (h : c.pkt.opcode ≠ opROSTER_COMMIT ∨ c ∉ (s.accept c d).cmds) : s.acceptRing c d = s.accept c d := by
  refine if_neg ?_
  rw [Bool.and_eq_true, decide_eq_true_eq, List.contains_iff_mem]
  exact not_and_or.2 h

theorem acceptRing_roster (hop : c.pkt.opcode = opROSTER_COMMIT) (hin : c ∈ (s.accept c d).cmds) :
    s.acceptRing c d = (s.accept c d).readRoster c := by
  refine if_pos ?_
  rw [Bool.and_eq_true, decide_eq_true_eq, List.contains_iff_mem]
  exact ⟨hop, hin⟩

end

/-! ABORT (R383). -/

section
variable {s : State} {c t : Cmd}

section
variable (hfind : s.findTag c.pkt.p0 c.pkt.p1 = some t) (e : Option (Nat × List Byte))
include hfind

theorem abort_target (hmay : notAborted t.pkt.opcode = false) (hbefore : s.pastCommit t = false) : s.abort c e = s.abortTarget c t := by
  unfold State.abort
  dsimp only
  rw [hfind]
  simp only [hmay, hbefore, Bool.false_eq_true, if_false]

theorem abort_late (hmay : notAborted t.pkt.opcode = false) (hpast : s.pastCommit t = true) :
    s.abort c e = s.fail c stABORT_TOO_LATE := by
  unfold State.abort
  dsimp only
  rw [hfind]
  simp only [hmay, hpast, Bool.false_eq_true, if_false, if_true]

theorem abort_excluded (hnot : notAborted t.pkt.opcode = true) : s.abort c e = s.badParam c 1 0 := by
  unfold State.abort
  dsimp only
  rw [hfind]
  exact if_pos hnot

end

section
variable (hfind : s.findTag c.pkt.p0 c.pkt.p1 = none)
include hfind

theorem abort_pending {i : Nat} {b : List Byte} (htag : (packetOf b).tag = c.pkt.p1) (hpending : s.isPending c.pkt.p0 i = true) :
    s.abort c (some (i, b)) = (s.readEntry c.pkt.p0 i).abortPending c c.pkt.p0 i (packetOf b) := by
  unfold State.abort
  dsimp only
  rw [hfind]
  exact if_pos (by rw [hpending, decide_eq_true htag]; rfl)

theorem abort_done {d : DoneCmd} (hdone : s.done.reverse.find? (fun d => d.ring == c.pkt.p0 && d.tag == c.pkt.p1) = some d) :
    s.abort c none = if notAborted d.opcode then s.badParam c 1 0 else s.fail c stABORT_TOO_LATE := by
  unfold State.abort
  dsimp only
  rw [hfind, hdone]

theorem abort_noTarget (hnone : s.done.any (fun d => d.ring == c.pkt.p0 && d.tag == c.pkt.p1) = false) :
    s.abort c none = s.fail c stABORT_NO_TARGET := by
  have hmiss : s.done.reverse.find? (fun d => d.ring == c.pkt.p0 && d.tag == c.pkt.p1) = none := by
    rw [List.find?_eq_none]
    intro d hd hyes
    rw [List.any_eq_false] at hnone
    exact hnone d (List.mem_reverse.1 hd) hyes
  unfold State.abort
  dsimp only
  rw [hfind, hmiss]

end

theorem abortTarget_accepted (hphase : t.phase = .accepted) : s.abortTarget c t = (s.fail t stABORTED).ok c 0 := by
  rw [State.abortTarget, hphase]
  rfl

theorem abortTarget_active (hphase : t.phase = .active) : s.abortTarget c t = ((s.fail t stABORTED).undo t).ok c 0 := by
  rw [State.abortTarget, hphase]
  rfl

end

/-- Settles O47: the entry at the head of a ring, the round robin, the checks, and each case of ABORT. -/
theorem commandFetchAndAbort : Obligations.CommandFetchAndAbort := by
  unfold Obligations.CommandFetchAndAbort
  intro s r ring tag i h b k c t hon hk hh
  subst hk
  refine ⟨fun e u v hskip hnext hfence hu hv he => live_next hon ?accepts,
    fun u hskip hnext hflag hopen hu => live_next hon (fetch_fenced hh hskip hnext hu hflag hopen),
    fun u hskip hu => live_next hon (fetch_skips hh hskip hu), fun hskip hnext => live_next hon (fetch_not hh hskip hnext),
    fun m hm => ?entry, canFetch_spec, fun q => nextRing_canFetch, nextRing_last, fun q j => nextRing_first,
    fun d => acceptRing_plain, fun d => acceptRing_roster, fun d => accept_enters, fun d e hbad hnew hring hc => ?refused,
    acceptFails_unknown, fun p d row => acceptFails_path, fun row hrow hring hstage => acceptFails_partition hrow hring hstage,
    fun row w b d hrow hring hstage => acceptFails_stray hrow hring hstage,
    fun e hc hfind => ⟨fun hmay hbefore => (onCmd_accepted hc).trans (congrArg _ (abort_target hfind e hmay hbefore)),
      fun hmay hpast => (onCmd_accepted hc).trans (congrArg _ (abort_late hfind e hmay hpast)),
      fun hnot => (onCmd_accepted hc).trans (congrArg _ (abort_excluded hfind e hnot))⟩,
    fun hc hfind => ⟨fun htag hpending => (onCmd_accepted hc).trans (congrArg _ (abort_pending hfind htag hpending)),
      fun d hdone => ⟨fun hmay => ?doneLate, fun hnot => ?doneExcluded⟩,
      fun hnone => (onCmd_accepted hc).trans (congrArg _ (abort_noTarget hfind hnone))⟩,
    abortTarget_accepted, abortTarget_active⟩
  case accepts =>
    subst he
    exact fetch_accepts hh hskip hnext hu hfence hv
  case entry =>
    subst hm
    rfl
  case refused =>
    obtain ⟨hcmds, hframe, -⟩ := accept_fails hbad hnew hc
    exact ⟨_, rfl, hcmds, (congrArg State.crs hframe).trans rfl, (congrArg State.tiles hframe).trans rfl,
      (congrArg State.cores hframe).trans rfl, (congrArg State.mem hframe).trans rfl, (congrArg State.bring hframe).trans rfl, (congrArg State.sec hframe).trans rfl⟩
  case doneLate =>
    refine (onCmd_accepted hc).trans (congrArg _ ((abort_done hfind hdone).trans (if_neg ?_)))
    rw [hmay]
    exact Bool.false_ne_true
  case doneExcluded => exact (onCmd_accepted hc).trans (congrArg _ ((abort_done hfind hdone).trans (if_pos hnot)))

end Sys2Proof.Machine
end

