-- ==== Sys2Proof/Proofs/CourseLoading.lean ====
section
/-! COURSE_LOAD: its checks in order, and what a loaded course is (02 R79, R81, 06 R188). -/

namespace Sys2Proof.Machine

/-! The command and its checks. -/

section
variable {s u : State} {c : Cmd} {m : List Byte} {p size : Nat}

section
variable {st : Nat} (hread : s.readObject c.pkt.p0 (c.pkt.p1 % 2 ^ 32) = ((m, st), u))
include hread

theorem courseLoad_unread (hst : st ≠ 0) : s.courseLoad c = u.fail c st := by
  unfold State.courseLoad
  dsimp only
  rw [hread]
  exact if_pos hst

theorem courseLoad_fails {e : Nat} (hst : st = 0) (hbad : u.loadFails m c.part (c.pkt.p1 % 2 ^ 32) = some e) :
    s.courseLoad c = u.fail c e := by
  unfold State.courseLoad
  dsimp only
  rw [hread, hst, hbad]
  exact if_neg (not_not.2 rfl)

theorem courseLoad_loads (hst : st = 0) (hgood : u.loadFails m c.part (c.pkt.p1 % 2 ^ 32) = none) :
    s.courseLoad c = (u.loadCourse c.part c.pkt.p0 m).ok c (hdCourseId m) := by
  unfold State.courseLoad
  dsimp only
  rw [hread, hst, hgood]
  exact if_neg (not_not.2 rfl)

end

theorem loadFails_format (h : s.formatFails m p size = true) : s.loadFails m p size = some stTT_FORMAT := if_pos h

section
variable (hformat : s.formatFails m p size = false)
include hformat

theorem loadFails_device (h : s.deviceFails m p = true) : s.loadFails m p size = some stTT_DEVICE := by
  simp only [State.loadFails, hformat, h, Bool.false_eq_true, if_false, if_true]

section
variable (hdevice : s.deviceFails m p = false)
include hdevice

theorem loadFails_seating (h : s.seatingFails m p = true) : s.loadFails m p size = some stSEATING_MISMATCH := by
  simp only [State.loadFails, hformat, hdevice, h, Bool.false_eq_true, if_false, if_true]

section
variable (hseating : s.seatingFails m p = false)
include hseating

theorem loadFails_licence (h : s.licenceRefuses m = true) : s.loadFails m p size = some stLICENCE := by
  simp only [State.loadFails, hformat, hdevice, hseating, h, Bool.false_eq_true, if_false, if_true]

section
variable (hlicence : s.licenceRefuses m = false)
include hlicence

theorem loadFails_limit (h : s.limitFails m = true) : s.loadFails m p size = some stTT_LIMIT := by
  simp only [State.loadFails, hformat, hdevice, hseating, hlicence, h, Bool.false_eq_true, if_false, if_true]

theorem loadFails_last (h : s.limitFails m = false) :
    s.loadFails m p size = if s.courseLoaded p then some stCOURSE_BUSY else none := by
  simp only [State.loadFails, hformat, hdevice, hseating, hlicence, h, Bool.false_eq_true, if_false]

end

end

end

end

end

/-! Local memories, which lie above the stack's own bytes (06 R188). -/

theorem tfind_filter {α : Type} (t : Tbl α) (f : Nat → Bool) {x : Nat} (hx : f x = true) :
    tfind (t.filter (fun c => f c.1)) x = tfind t x := by
  induction t with
  | nil => rfl
  | cons c t ih =>
    obtain ⟨k, v⟩ := c
    rw [List.filter_cons]
    by_cases hk : f k = true
    · rw [if_pos hk, tfind, tfind, ih]
    · have hne : x ≠ k := fun h => hk (h ▸ hx)
      rw [if_neg hk, ih, tfind, if_neg hne]

theorem memWrite_below (l : List Byte) (m : MemSt) {a x : Nat} (hx : x < a) :
    tgetD (memWrite m a l).bytes x 0 = tgetD m.bytes x 0 := by
  induction l generalizing m a with
  | nil => rfl
  | cons b l ih =>
    refine (ih (memPut m a b) (Nat.lt_succ_of_lt hx)).trans ?_
    exact (tgetD_tset m.bytes a x (b ^^^ memBase m a) 0).trans (if_neg (Nat.ne_of_lt hx))

/-- Bytes below the local memories are those of s. -/
def KeepsStack (m n : MemSt) : Prop := ∀ x, x < lmBase → tgetD n.bytes x 0 = tgetD m.bytes x 0

theorem lmBase_le_lmAddr (core off : Nat) : lmBase ≤ lmAddr core off := by
  unfold lmAddr
  omega

theorem lmClear_keepsStack (m : MemSt) (core lo hi : Nat) : KeepsStack m (lmClear m core lo hi) := by
  intro x hx
  have hlow : (!(decide (lmAddr core lo ≤ x) && decide (x < lmAddr core hi))) = true := by
    rw [decide_eq_false (Nat.not_le.2 (Nat.lt_of_lt_of_le hx (lmBase_le_lmAddr core lo)))]
    rfl
  exact congrArg (·.getD 0) (tfind_filter m.bytes (fun k => !(decide (lmAddr core lo ≤ k) && decide (k < lmAddr core hi))) hlow)

theorem lmStore_keepsStack (m : MemSt) {a : Nat} (ha : lmBase ≤ a) (w : Nat) (p : Bool) : KeepsStack m (lmStore m a w p) :=
  fun _ hx => memWrite_below (leBytes 4 w) m (Nat.lt_of_lt_of_le hx ha)

theorem KeepsStack.trans {m n o : MemSt} (h : KeepsStack m n) (h' : KeepsStack n o) : KeepsStack m o :=
  fun x hx => (h' x hx).trans (h x hx)

/-- Loading local memories writes nothing else. -/
def LoadsLocals (s t : State) : Prop := t = { s with mem := t.mem } ∧ KeepsStack s.mem t.mem

theorem LoadsLocals.refl (s : State) : LoadsLocals s s := ⟨rfl, fun _ _ => rfl⟩

theorem LoadsLocals.trans {s t u : State} (h : LoadsLocals s t) (h' : LoadsLocals t u) : LoadsLocals s u := by
  refine ⟨?_, h.2.trans h'.2⟩
  rw [h'.1, h.1]

theorem loadLocal_loads (s : State) (lt : Nat) (prog : List Byte) : LoadsLocals s (s.loadLocal lt prog) := by
  refine foldl_keeps (P := LoadsLocals s) _ (fun t c ht => ht.trans ⟨rfl, ?_⟩) (LoadsLocals.refl s)
  refine foldl_keeps (P := KeepsStack t.mem) _ (fun n i hn => hn.trans (lmStore_keepsStack n ?_ _ _))
    (lmClear_keepsStack t.mem (64 * lt + c) 0x1000 0x8000)
  exact Nat.le_trans (lmBase_le_lmAddr _ _) (Nat.le_add_right _ _)

/-! A loaded course. -/

section
variable (s : State) (p a : Nat) (m : List Byte)

/-- Staging writes the programs of a lesson. -/
theorem stageLesson_frame (lesson : Nat) : s.stageLesson p lesson =
    { s with tiles := (s.stageLesson p lesson).tiles, layers := (s.stageLesson p lesson).layers
             ports := (s.stageLesson p lesson).ports } := by
  refine foldl_keeps (P := fun t : State => t = { s with tiles := t.tiles, layers := t.layers, ports := t.ports }) _
    (fun t q ht => ?_) ?_
  · rw [State.modPort, ht]
  refine foldl_keeps (P := fun t : State => t = { s with tiles := t.tiles, layers := t.layers, ports := t.ports }) _
    (fun t l ht => ?_) ?_
  · rw [State.modLayer, ht]
  refine foldl_keeps (P := fun t : State => t = { s with tiles := t.tiles, layers := t.layers, ports := t.ports }) _
    (fun t lt ht => ?_) rfl
  rw [State.modTile, ht]

/-- A course as COURSE_LOAD leaves it. -/
def loadedCourse : Course := { course0 with imgAddr := a, image := m, staged := true }

/-- The course a partition has, before its first lesson is staged. -/
def State.courseSet : State :=
  (({ s with crs := tput s.crs p (loadedCourse a m) } : State).setCourseState p csLoaded).setF
    (BELL_CRS_STATE p) BELL_CRS_STATE_roster_late 0

theorem loadCourse_loads : LoadsLocals ((s.courseSet p a m).stageLesson p 0) (s.loadCourse p a m) :=
  foldl_keeps (P := LoadsLocals ((s.courseSet p a m).stageLesson p 0)) _ (fun t lt ht => ht.trans (loadLocal_loads t lt _))
    (LoadsLocals.refl _)

theorem crsOf_loadCourse (q : Nat) : (s.loadCourse p a m).crsOf q =
    if q = p then loadedCourse a m else s.crsOf q := by
  have hcrs : (s.loadCourse p a m).crs = (s.courseSet p a m).crs :=
    ((congrArg State.crs (loadCourse_loads s p a m).1).trans rfl).trans ((congrArg State.crs (stageLesson_frame _ p 0)).trans rfl)
  rw [crsOf_congr hcrs]
  exact tgetD_tput s.crs p q _ course0

theorem loadCourse_state {p : Nat} (hp : p < 4) : (s.loadCourse p a m).courseState p = csLoaded := by
  have hregs : (s.loadCourse p a m).courseState p = (s.courseSet p a m).courseState p :=
    ((congrArg (State.courseState · p) (loadCourse_loads s p a m).1).trans rfl).trans
      ((congrArg (State.courseState · p) (stageLesson_frame _ p 0)).trans rfl)
  rw [hregs]
  exact (getF_setF_fld _ _ _ (by decide) (.inr (by decide))).trans (courseState_setCourseState _ hp (by decide))

theorem loadCourse_mem : KeepsStack s.mem (s.loadCourse p a m).mem := by
  have hstage : ((s.courseSet p a m).stageLesson p 0).mem = s.mem :=
    (congrArg State.mem (stageLesson_frame (s.courseSet p a m) p 0)).trans rfl
  rw [← hstage]
  exact (loadCourse_loads s p a m).2

theorem loadCourse_cmds : (s.loadCourse p a m).cmds = s.cmds :=
  ((congrArg State.cmds (loadCourse_loads s p a m).1).trans rfl).trans
    ((congrArg State.cmds (stageLesson_frame (s.courseSet p a m) p 0)).trans rfl)

end

/-- Settles O48: the command by the first check that fails, the order of the checks, and the state of a loaded course. -/
theorem courseLoading : Obligations.CourseLoading := by
  unfold Obligations.CourseLoading
  intro s ring tag c m u p size a
  refine ⟨fun hc hread => ⟨fun hgood => (onCmd_accepted hc).trans (congrArg _ (courseLoad_loads hread rfl hgood)),
      fun e hbad => (onCmd_accepted hc).trans (congrArg _ (courseLoad_fails hread rfl hbad))⟩,
    fun st hc hread hst => (onCmd_accepted hc).trans (congrArg _ (courseLoad_unread hread hst)), loadFails_format,
    loadFails_device, loadFails_seating, loadFails_licence, loadFails_limit, loadFails_last, fun hp => ?loaded⟩
  case loaded =>
    have hself := (crsOf_loadCourse s p a m p).trans (if_pos rfl)
    exact ⟨loadCourse_state s a m hp, congrArg Course.image hself, congrArg Course.imgAddr hself, congrArg Course.lesson hself,
      congrArg Course.iter hself, congrArg Course.staged hself, congrArg Course.rosters hself,
      fun q hq => (crsOf_loadCourse s p a m q).trans (if_neg hq), loadCourse_mem s p a m, loadCourse_cmds s p a m⟩

end Sys2Proof.Machine
end

