-- ==== Sys2Proof/Proofs/ExamsAndRepairs.lean ====
section
/-! EXAM and the automatic exams, EVACUATE, AREA_RESTORE and RENUMBER (20 R483-R495). -/

namespace Sys2Proof.Machine

/-! Exams of seats. -/

section
variable {s : State} {c : Cmd} {f : Nat}

section
variable (hf : f = bitsAt c.pkt.p1 0 4)
include hf

theorem examStart_partition (hpart : s.partOfForm f ≠ c.part) : s.examStart c = s.failAt c stWRONG_PARTITION 1 0 := by
  subst hf
  exact if_pos hpart

section
variable (hpart : s.partOfForm f = c.part)
include hpart

theorem examStart_starts (hspare : bitSet c.pkt.p1 8 = false) (hfree : s.bring.exam = none) : s.examStart c = (({ s with
    bring := { s.bring with exam := some ⟨c.ring, c.pkt.tag, f, s.examSeats f c.pkt.p0 false⟩ } } : State).setB
      BRG_EXAM_STATUS BRG_EXAM_STATUS_active true).putCmd c { c with phase := .committed } := by
  subst hf
  simp only [State.examStart, hpart, hspare, hfree, ne_eq, not_true, if_false, Bool.false_and, Bool.false_eq_true,
    Option.isSome_none]

theorem examStart_busy (hactive : bitSet c.pkt.p1 8 = true) (hloaded : s.courseLoaded c.part = true) :
    s.examStart c = s.fail c stCOURSE_BUSY := by
  subst hf
  refine (if_neg (not_not.2 hpart)).trans (if_pos ?_)
  rw [hactive, hloaded]
  rfl

theorem examStart_sequences (hactive : bitSet c.pkt.p1 8 = true) (hfree : s.courseLoaded c.part = false)
    (hopen : s.seqOpenIn c.part = true) : s.examStart c = s.fail c stDEVICE_STATE := by
  subst hf
  refine (if_neg (not_not.2 hpart)).trans ((if_neg ?_).trans (if_pos ?_))
  · rw [hfree, Bool.and_false]
    exact Bool.false_ne_true
  · rw [hactive, hopen]
    rfl

end

end

theorem mem_examSeats {mask k : Nat} {a : Bool} : k ∈ s.examSeats f mask a ↔
    k < 18 ∧ bitSet mask k = true ∧ s.seatStatus (18 * f + k) ≠ 1 ∧ (a = true ∨ s.seatUsed (18 * f + k) = false) := by
  simp only [State.examSeats, List.mem_filter, List.mem_range, Bool.and_eq_true, Bool.or_eq_true, bne_iff_ne, Bool.not_eq_true',
    and_assoc]

section
variable {m t : Nat} (hauto : s.flag BRG_EXAM_CTRL BRG_EXAM_CTRL_auto = true)
include hauto

theorem autoStep_takes (hnone : s.bring.autoSeat = none) (hnext : s.nextAuto = some m) : s.autoStep none =
    (({ s with bring := { s.bring with autoSeat := some m } } : State).setF BRG_EXAM_STATUS BRG_EXAM_STATUS_seat m).setB
      BRG_EXAM_STATUS BRG_EXAM_STATUS_active true := by
  simp only [State.autoStep, hauto, hnone, hnext, Bool.not_true, Bool.false_eq_true, if_false]

variable (hseat : s.bring.autoSeat = some m)
include hseat

theorem autoStep_goesOn : s.autoStep none = s := by
  simp only [State.autoStep, hauto, hseat, Bool.not_true, Bool.false_eq_true, if_false]

theorem autoStep_passes : s.autoStep (some 0) = s.autoEnds := by
  simp only [State.autoStep, hauto, hseat, Bool.not_true, Bool.false_eq_true, if_false]

theorem autoStep_fails : s.autoStep (some (t + 1)) =
    (((s.seatFails m (t + 1)).examCount 1).afterExam (m / 18) (s.spares (m / 18))).autoEnds := by
  simp only [State.autoStep, hauto, hseat, Bool.not_true, Bool.false_eq_true, if_false]

end

theorem examOpen_of {m : Nat} (h : s.bring.autoSeat = none ∧ s.nextAuto = some m ∨ s.bring.autoSeat = some m)
    (hopen : s.serviceOpen (s.partOfForm (m / 18)) = true) : s.examOpen = true := by
  have hseat : (s.bring.autoSeat <|> s.nextAuto) = some m := by
    rcases h with ⟨hnone, hnext⟩ | hsome
    · rw [hnone, hnext]
      rfl
    · rw [hsome]
      rfl
  rw [State.examOpen, hseat]
  exact hopen

/-- With no seat left to examine, EXAM_DONE goes before the record of the command. -/
theorem examDone_ends {failing : List (Nat × Nat)} {e : Exam} {u v w : State} (hexam : s.bring.exam = some e) (hform : e.form = f)
    (hleft : e.left = []) (hu : u = ({ s with bring := { s.bring with exam := none } } : State).afterExam f (s.spares f))
    (hv : v = (u.setB BRG_EXAM_STATUS BRG_EXAM_STATUS_active u.bring.autoSeat.isSome).logAppend logEXAM 0xFF 0 f [0, 0, 0, 0])
    (hpart : v.partOfForm f = s.partOfForm f) (hw : w = v.raise evExamDone (s.partOfForm f) 5 f 0 0 0 0)
    (hfind : w.findTag e.ring e.tag = some c) : s.examDone failing = w.ok c 0 := by
  have hgo : s.examDone failing = match (v.raise evExamDone (v.partOfForm f) 5 f 0 0 0 0).findTag e.ring e.tag with
      | some c => (v.raise evExamDone (v.partOfForm f) 5 f 0 0 0 0).ok c 0
      | none => v.raise evExamDone (v.partOfForm f) 5 f 0 0 0 0 := by
    subst hform hv hu
    rw [State.examDone, hexam]
    dsimp only
    rw [hleft]
    rfl
  rw [hgo, hpart, ← hw, hfind]

theorem examDone_none {failing : List (Nat × Nat)} (hnone : s.bring.exam = none) : s.examDone failing = s := by
  rw [State.examDone, hnone]

end

/-! EVACUATE. -/

section
variable {s : State} {c : Cmd} {lt : Nat} (hlt : lt = c.pkt.p0)
include hlt

theorem evacuate_partition (hpart : s.partOfLt lt ≠ c.part) : s.evacuate c = s.fail c stWRONG_PARTITION := by
  subst hlt
  exact if_pos hpart

variable (hpart : s.partOfLt lt = c.part)
include hpart

theorem evacuate_pending (hpending : s.evacPending lt = true) :
    s.evacuate c = if s.bring.evac.isSome then s.fail c stLOCKER_MOVING else s.evacStart c lt := by
  subst hlt
  exact (if_neg (not_not.2 hpart)).trans (if_pos hpending)

section
variable (hpending : s.evacPending lt = false)
include hpending

theorem evacuate_running (hrun : s.courseRunning c.part = true) : s.evacuate c = s.fail c stDEVICE_STATE := by
  subst hlt
  exact (if_neg (not_not.2 hpart)).trans ((if_neg (by rw [hpending]; exact Bool.false_ne_true)).trans (if_pos hrun))

variable (hrest : s.courseRunning c.part = false)
include hrest

theorem evacuate_noSpare (hnone : s.nextSubstitute (ltForm lt) = none) : s.evacuate c = s.fail c stNO_SPARE := by
  subst hlt
  simp [State.evacuate, hpart, hpending, hrest, hnone]

theorem evacuate_substitutes {k : Nat} (hpresent : s.present lt = true) (hspare : s.nextSubstitute (ltForm lt) = some k)
    (hfree : s.bring.evac = none) : s.evacuate c = (s.substitute lt 0).evacStart c lt := by
  subst hlt
  simp [State.evacuate, hpart, hpending, hrest, hpresent, hspare, hfree]

end

end

/-! AREA_RESTORE. -/

section
variable {s : State} {c : Cmd} {lt : Nat} (hlt : lt = c.pkt.p0)
include hlt

theorem areaRestore_partition (hpart : s.partOfLt lt ≠ c.part) : s.areaRestore c = s.fail c stWRONG_PARTITION := by
  subst hlt
  exact if_pos hpart

variable (hpart : s.partOfLt lt = c.part)
include hpart

theorem areaRestore_running (hrun : s.courseRunning c.part = true) : s.areaRestore c = s.fail c stCOURSE_BUSY := by
  subst hlt
  exact (if_neg (not_not.2 hpart)).trans (if_pos hrun)

variable (hrest : s.courseRunning c.part = false)
include hrest

theorem areaRestore_notLost (hkept : s.flag (TRN_STATUS_LT lt) TRN_STATUS_LT_area_lost = false) :
    s.areaRestore c = s.fail c stDEVICE_STATE := by
  subst hlt
  simp [State.areaRestore, hpart, hrest, hkept]

variable (hlost : s.flag (TRN_STATUS_LT lt) TRN_STATUS_LT_area_lost = true)
include hlost

theorem areaRestore_bare (hbare : c.pkt.p1 = 0) : s.areaRestore c = s.areaRestored c lt (s.bareArea lt) := by
  subst hlt
  simp [State.areaRestore, hpart, hrest, hlost, hbare]

theorem areaRestore_copies {b : List Byte} {u : State} (hcopy : c.pkt.p1 ≠ 0)
    (hread : s.readObject c.pkt.p1 s.areaBytes = ((b, 0), u)) :
    s.areaRestore c = if u.copyFits lt b then u.areaRestored c lt b else u.badParam c 1 0 := by
  subst hlt
  have hgo : s.areaRestore c = if !u.copyFits c.pkt.p0 b then u.badParam c 1 0 else u.areaRestored c c.pkt.p0 b := by
    simp [State.areaRestore, hpart, hrest, hlost, hcopy, hread]
  rw [hgo]
  cases u.copyFits c.pkt.p0 b <;> rfl

end

theorem bytesFrom_eq_map (l : List Byte) (off n : Nat) : bytesFrom l off n = (List.range n).map (fun i => l.getD (off + i) 0) := by
  refine List.ext_getElem ?_ fun i hi hi' => ?_
  · simp only [bytesFrom, List.length_append, List.length_take, List.length_replicate, List.length_map, List.length_range]
    omega
  · have hn : i < n := by simpa using hi'
    rw [List.getElem_map, List.getElem_range]
    by_cases hin : off + i < l.length
    · have htake : i < ((l.drop off).take n).length := by
        rw [List.length_take, List.length_drop]
        omega
      simp only [bytesFrom]
      rw [List.getElem_append_left htake, List.getElem_take, List.getElem_drop, List.getD_eq_getElem?_getD,
        List.getElem?_eq_getElem hin, Option.getD_some]
    · have htake : ((l.drop off).take n).length ≤ i := by
        rw [List.length_take, List.length_drop]
        omega
      simp only [bytesFrom]
      rw [List.getElem_append_right htake, List.getElem_replicate, List.getD_eq_getElem?_getD,
        List.getElem?_eq_none (Nat.le_of_not_lt hin), Option.getD_none]

/-- The directory of a restored area is the copy's. -/
theorem dirEntry_fillArea (s : State) (lt : Nat) (b : List Byte) {q : Nat} (hq : q < 4096) :
    (s.fillArea lt b).dirEntry lt q = leAt b (4 * q) 4 := by
  have hbase : (s.fillArea lt b).areaBase = s.areaBase := rfl
  have hlen : (bytesFrom b 0 0x4000).length = 0x4000 := by rw [bytesFrom_eq_map, List.length_map, List.length_range]
  rw [State.dirEntry, areaWord_eq, leAt, bytesFrom_eq_map b (4 * q) 4]
  refine congrArg leVal (List.map_congr_left fun i hi => ?_)
  have hin : i < 4 := List.mem_range.mp hi
  have hget : (bytesFrom b 0 0x4000).getD (4 * q + i) 0 = b.getD (4 * q + i) 0 := by
    have hlt : 4 * q + i < ((List.range 0x4000).map (fun j => b.getD (0 + j) 0)).length := by
      rw [List.length_map, List.length_range]
      omega
    rw [bytesFrom_eq_map, List.getD_eq_getElem?_getD, List.getElem?_eq_getElem hlt, Option.getD_some, List.getElem_map,
      List.getElem_range, Nat.zero_add]
  have hoff : tbAddr lt (s.areaBase + 4 * q + i) - tbAddr lt s.areaBase = 4 * q + i := by unfold tbAddr; omega
  rw [hbase, State.fillArea]
  dsimp only
  rw [tbByte_tbWrite, if_neg (by unfold tbAddr; omega), tbByte_tbWrite, if_neg (by unfold tbAddr; omega), tbByte_tbWrite, hlen,
    if_pos (by unfold tbAddr; omega), hoff]
  exact hget

/-! RENUMBER. -/

section
variable {s : State} {c : Cmd}

theorem renumber_loaded (hloaded : s.anyLoaded = true) : s.renumber c = s.fail c stCOURSE_BUSY := if_pos hloaded

variable (hfree : s.anyLoaded = false)
include hfree

theorem renumber_open (hopen : (s.anySeqOpen || s.anyEvacPending) = true) : s.renumber c = s.fail c stDEVICE_STATE :=
  (if_neg (by rw [hfree]; exact Bool.false_ne_true)).trans (if_pos hopen)

variable (hshut : (s.anySeqOpen || s.anyEvacPending) = false)
include hshut

theorem renumber_noSpare {p : Nat} (hp : p < s.partCount) (hall : ∀ n, n < 16 → s.partOfForm n = p → s.willExclude n = true) :
    s.renumber c = s.fail c stNO_SPARE := by
  refine (if_neg (by rw [hfree]; exact Bool.false_ne_true)).trans ((if_neg (by rw [hshut]; exact Bool.false_ne_true)).trans (if_pos ?_))
  simp only [List.any_eq_true, List.all_eq_true, List.mem_filter, List.mem_range, beq_iff_eq]
  exact ⟨p, hp, fun n hn => hall n hn.1 hn.2⟩

theorem renumber_renumbers (hleft : ∀ q, q < s.partCount → ∃ n, n < 16 ∧ s.partOfForm n = q ∧ s.willExclude n = false) :
    s.renumber c = ((forEach (List.range 16) s State.renumberForm).writeCarry).ok c
      (maskOf ((List.range 16).filter s.willExclude) +
        2 ^ 16 * maskOf ((List.range 16).filter (fun n => s.excluded n && !s.willExclude n))) := by
  refine (if_neg (by rw [hfree]; exact Bool.false_ne_true)).trans ((if_neg (by rw [hshut]; exact Bool.false_ne_true)).trans (if_neg ?_))
  simp only [List.any_eq_true, List.all_eq_true, List.mem_filter, List.mem_range, beq_iff_eq, not_exists, not_and, not_forall]
  intro p hp
  obtain ⟨n, hn, hpart, hstays⟩ := hleft p hp
  exact ⟨n, ⟨hn, hpart⟩, by rw [hstays]; exact Bool.false_ne_true⟩

end

theorem renumberForm_stays {s : State} {f : Nat} (hin : s.willExclude f = false) (hwas : s.excluded f = false) :
    s.renumberForm f = s := by
  simp only [State.renumberForm, hin, hwas, Bool.false_eq_true, if_false]

/-- Settles O49: each command by the first of its conditions that holds, and the two kinds of exam. -/
theorem examsAndRepairs : Obligations.ExamsAndRepairs := by
  unfold Obligations.ExamsAndRepairs
  intro s ring tag f p lt m t c hon
  refine ⟨fun hc hf => ⟨fun hpart hspare hfree => (onCmd_accepted hc).trans (congrArg _ (examStart_starts hf hpart hspare hfree)),
      fun hpart => (onCmd_accepted hc).trans (congrArg _ (examStart_partition hf hpart)),
      fun hpart hactive hloaded => (onCmd_accepted hc).trans (congrArg _ (examStart_busy hf hpart hactive hloaded)),
      fun hpart hactive hfree hopen => (onCmd_accepted hc).trans (congrArg _ (examStart_sequences hf hpart hactive hfree hopen))⟩,
    fun mask a k => mem_examSeats, fun hstage hauto hopen => ?automatic,
    fun failing e u w hexam hfind hform hleft hu hw hfind' hpart =>
      live_next hon (examDone_ends hexam hform hleft hu rfl hpart hw hfind'),
    fun failing hnone => live_next hon (examDone_none hnone), fun hc hlt => ⟨fun hpart => (onCmd_accepted hc).trans (congrArg _
        (evacuate_partition hlt hpart)), fun hpart hpending hfree => ?evacuates, fun hpart hpending hmoving => ?moving,
      fun hpart hpending hrun => (onCmd_accepted hc).trans (congrArg _ (evacuate_running hlt hpart hpending hrun)),
      fun hpart hpending hrest hnone => (onCmd_accepted hc).trans (congrArg _ (evacuate_noSpare hlt hpart hpending hrest hnone)),
      fun k hpart hpending hrest hpresent hspare hfree => (onCmd_accepted hc).trans (congrArg _
        (evacuate_substitutes hlt hpart hpending hrest hpresent hspare hfree))⟩,
    fun hc hlt => ⟨fun hpart => (onCmd_accepted hc).trans (congrArg _ (areaRestore_partition hlt hpart)),
      fun hpart hrun => (onCmd_accepted hc).trans (congrArg _ (areaRestore_running hlt hpart hrun)),
      fun hpart hrest hkept => (onCmd_accepted hc).trans (congrArg _ (areaRestore_notLost hlt hpart hrest hkept)),
      fun hpart hrest hlost hbare => (onCmd_accepted hc).trans (congrArg _ (areaRestore_bare hlt hpart hrest hlost hbare)),
      fun b u hpart hrest hlost hcopy hread => (onCmd_accepted hc).trans (congrArg _
        (areaRestore_copies hlt hpart hrest hlost hcopy hread))⟩,
    fun b => rfl, fun b q _ hq _ _ => dirEntry_fillArea s lt b hq,
    fun hc => ⟨fun hloaded => (onCmd_accepted hc).trans (congrArg _ (renumber_loaded hloaded)),
      fun hfree hopen => (onCmd_accepted hc).trans (congrArg _ (renumber_open hfree hopen)),
      fun hfree hshut hp hall => (onCmd_accepted hc).trans (congrArg _ (renumber_noSpare hfree hshut hp hall)),
      fun hfree hshut hleft => (onCmd_accepted hc).trans (congrArg _ (renumber_renumbers hfree hshut hleft))⟩,
    fun hin hwas => renumberForm_stays hin hwas⟩
  case automatic =>
    have hgo : ∀ r, s.examOpen = true → exec (.autoExamStep r) s = .next (s.autoStep r) := fun r hslot =>
      live_next hon (if_pos (by rw [hstage, hslot]; rfl))
    refine ⟨fun hnone hnext => (hgo _ (examOpen_of (.inl ⟨hnone, hnext⟩) hopen)).trans (congrArg _ (autoStep_takes hauto hnone hnext)),
      fun hseat => ?_⟩
    have hslot := examOpen_of (.inr hseat) hopen
    exact ⟨(hgo _ hslot).trans (congrArg _ (autoStep_goesOn hauto hseat)), (hgo _ hslot).trans (congrArg _ (autoStep_passes hauto hseat)),
      (hgo _ hslot).trans (congrArg _ (autoStep_fails hauto hseat))⟩
  case evacuates =>
    refine (onCmd_accepted hc).trans (congrArg _ ((evacuate_pending hlt hpart hpending).trans ?_))
    rw [hfree]
    rfl
  case moving => exact (onCmd_accepted hc).trans (congrArg _ ((evacuate_pending hlt hpart hpending).trans (if_pos hmoving)))

end Sys2Proof.Machine
end

