-- ==== Sys2Proof/Proofs/Management.lean ====
section
/-! Management over I3C: addresses, events, private reads and commands (22 R519-R522). -/

namespace Sys2Proof.Machine

section
variable {s : State}

theorem i3cAddr_setAddr (s : State) {addr : Nat} (h : addr < 128) : (s.setF MGMT_STATUS MGMT_STATUS_i3c_addr addr).i3cAddr = addr :=
  getF_setF_lt s _ (by decide) h

/-- Interrupts that waited go out in order. -/
theorem sendIbis (l : List Nat) : ∀ s : State, forEach l s (fun s b => s.send (.ibi b)) = { s with out := s.out ++ l.map Out.ibi } := by
  induction l with
  | nil =>
    intro s
    rw [List.map_nil, List.append_nil]
    rfl
  | cons b l ih =>
    intro s
    have hcons : forEach (b :: l) s (fun s b => s.send (.ibi b)) = forEach l (s.send (.ibi b)) (fun s b => s.send (.ibi b)) := rfl
    rw [hcons, ih, State.send, List.map_cons]
    dsimp only
    rw [List.append_assoc, List.singleton_append]

section
variable {mask : Nat}

theorem enable_sends (hopen : bitSet (Nat.lor s.mgmt.events (mask % 256)) 0 = true) : s.enable mask = { s with
    mgmt := { s.mgmt with events := Nat.lor s.mgmt.events (mask % 256), pendingIbi := [] }
    out := s.out ++ s.mgmt.pendingIbi.map Out.ibi } :=
  (if_pos hopen).trans (sendIbis _ _)

theorem enable_waits (hshut : bitSet (Nat.lor s.mgmt.events (mask % 256)) 0 = false) : s.enable mask = { s with
    mgmt := { s.mgmt with events := Nat.lor s.mgmt.events (mask % 256) } } :=
  if_neg (by rw [hshut]; exact Bool.false_ne_true)

end

theorem privateRead_answers {n : Nat} {u : State} (hn : 0 < n) (hu : u = { s with mgmt := { s.mgmt with latched := s.mgmt.telemetry } }) :
    s.privateRead n = { u with
      mgmt := { u.mgmt with index := (s.mgmt.index + n) % 65536 }
      out := s.out ++ [.i3cData ((List.range n).map (fun k => u.mapByte ((s.mgmt.index + k) % 65536)))] } := by
  subst hu
  exact if_neg (Nat.ne_of_gt hn)

/-! Management commands. -/

section
variable {code : Nat} {accepted : Bool} {f : State → State}

theorem mgmtCmd_unaddressed (haddr : s.i3cAddr = 0) : s.mgmtCmd code accepted f = s := if_pos haddr

variable (haddr : s.i3cAddr ≠ 0)
include haddr

theorem mgmtCmd_done (hfree : s.clock.resetPending = none) (hmay : accepted = true) :
    s.mgmtCmd code accepted f = (f s).mgmtResult code (255 - code) 0 := by
  subst hmay
  refine (if_neg haddr).trans ((if_neg ?_).trans (if_neg Bool.false_ne_true))
  rw [hfree]
  exact Bool.false_ne_true

theorem mgmtCmd_refused (hfree : s.clock.resetPending = none) (hnot : accepted = false) :
    s.mgmtCmd code accepted f = s.mgmtResult code (255 - code) 1 := by
  subst hnot
  refine (if_neg haddr).trans ((if_neg ?_).trans (if_pos rfl))
  rw [hfree]
  exact Bool.false_ne_true

theorem mgmtCmd_busy (hpending : s.clock.resetPending.isSome = true) :
    s.mgmtCmd code accepted f = s.mgmtResult code (255 - code) 2 :=
  (if_neg haddr).trans (if_pos hpending)

end

theorem mgmtResult_shows {code cpl r : Nat} (hcode : code < 256) (hr : r < 16) :
    (s.mgmtResult code cpl r).mgmt = { s.mgmt with index := 0x100, control := [code, cpl, r] } ∧
    (s.mgmtResult code cpl r).getF MGMT_STATUS MGMT_STATUS_last_cmd = code ∧
    (s.mgmtResult code cpl r).getF MGMT_STATUS MGMT_STATUS_last_result = r ∧
    ∀ a, a ≠ MGMT_STATUS → (s.mgmtResult code cpl r).reg a = s.reg a := by
  refine ⟨rfl, ?_, getF_setF_lt _ _ (by decide) (Nat.lt_trans hr (by decide)), fun a ha => ?_⟩
  · exact (getF_setF_fld _ _ _ (by decide) (by decide)).trans (getF_setF_lt _ _ (by decide) hcode)
  · rw [State.mgmtResult, reg_setF, if_neg ha, reg_setF, if_neg ha]
    rfl

/-! The clearing of the ledger. -/

theorem requestReset_clock (s : State) (cause : Nat) : ∃ x, s.requestReset cause = { s with clock := x } := by
  unfold State.requestReset
  split
  · exact ⟨_, rfl⟩
  · exact ⟨_, rfl⟩

theorem setUnready_shows (s : State) {n : Nat} (hn : n < 16) :
    (s.setUnready n).getF BRG_STAGE BRG_STAGE_unready = n ∧ (s.setUnready n).bring = s.bring := by
  have hibi := reports_raiseIbi 1 (Reports.refl (s.setF BRG_STAGE BRG_STAGE_unready n))
  unfold State.setUnready
  split
  case isTrue hsame => exact ⟨hsame, rfl⟩
  case isFalse =>
    exact ⟨(hibi.getF (by decide) _).trans (getF_setF_lt s _ (by decide) hn), (congrArg State.bring hibi.1).trans rfl⟩

theorem ledgerClear_clears (s : State) : s.ledgerClear.bring.carry.alts = [] ∧ s.ledgerClear.getF BRG_STAGE BRG_STAGE_unready = 0 := by
  unfold State.ledgerClear
  dsimp only
  generalize hw : State.writeCarry _ = w
  have halts : w.bring.carry.alts = [] := by rw [← hw]; rfl
  obtain ⟨hunready, hbring⟩ := setUnready_shows w (n := 0) (by decide)
  obtain ⟨x, hreset⟩ := requestReset_clock (w.setUnready 0) 3
  rw [hreset]
  exact ⟨(congrArg (fun b : BringSt => b.carry.alts) hbring).trans halts, hunready⟩

end

/-- Settles O50: a target without an address answers the addressing alone; one with an address, each command by its rule. -/
theorem i3cManagement : Obligations.I3cManagement := by
  unfold Obligations.I3cManagement
  intro s addr mask index n code cpl hon
  refine ⟨fun haddr => ⟨live_next hon (if_pos haddr), live_next hon (if_pos haddr), live_next hon (if_pos haddr),
      live_next hon (if_pos haddr), live_next hon (if_pos haddr), live_next hon (if_pos haddr), live_next hon (if_pos haddr),
      live_next hon (mgmtCmd_unaddressed haddr), live_next hon (if_pos (by rw [decide_eq_true haddr]; rfl))⟩,
    live_next hon rfl, fun h => i3cAddr_setAddr s h, fun haddr => ⟨live_next hon (if_neg haddr), live_next hon (if_neg haddr),
      fun hopen => live_next hon ((if_neg haddr).trans (enable_sends hopen)),
      fun hshut => live_next hon ((if_neg haddr).trans (enable_waits hshut)), live_next hon (if_neg haddr),
      ⟨s.freeNat, live_next hon (if_neg haddr)⟩, live_next hon (if_neg haddr), live_next hon ((if_neg haddr).trans (if_pos rfl)),
      fun hn u hu => live_next hon ((if_neg haddr).trans (privateRead_answers hn hu))⟩,
    rfl, fun row hrow haddr => ?commands, fun haddr hbad => live_next hon (if_neg (by simp [haddr, hbad])),
    fun _ hgood => live_next hon (if_pos (by simp [hgood])), fun r hcode hr => mgmtResult_shows hcode hr,
    fun _ => ledgerClear_clears s⟩
  case commands =>
    have hexec : exec row.1 s = live s (s.mgmtCmd row.2.1 row.2.2.1 row.2.2.2) := by
      revert row
      simp only [List.forall_mem_cons]
      exact ⟨rfl, rfl, rfl, rfl, List.forall_mem_nil _⟩
    exact ⟨fun hfree hmay => hexec.trans (live_next hon (mgmtCmd_done haddr hfree hmay)),
      fun hfree hnot => hexec.trans (live_next hon (mgmtCmd_refused haddr hfree hnot)),
      fun hpending => hexec.trans (live_next hon (mgmtCmd_busy haddr hpending))⟩

end Sys2Proof.Machine
end

