-- ==== Sys2Proof/Proofs/TestPort.lean ====
section
/-! The test access port, its instruments, and TRACE_CONFIG (22 R524-R528). -/

namespace Sys2Proof.Machine

/-! Levels of the cells as a number (23 R539). -/

theorem maskOf_filter_range (p : Nat → Bool) (n : Nat) : maskOf ((List.range n).filter p) < 2 ^ n ∧
    ∀ k, (maskOf ((List.range n).filter p)).testBit k = (decide (k < n) && p k) := by
  induction n with
  | zero => exact ⟨Nat.one_pos, fun k => Nat.zero_testBit k⟩
  | succ n ih =>
    obtain ⟨hlt, hbits⟩ := ih
    have hgrow : 2 ^ n < 2 ^ (n + 1) := Nat.pow_lt_pow_right (by decide) (Nat.lt_succ_self n)
    rw [List.range_succ, List.filter_append]
    cases hp : p n with
    | false =>
      have hlast : [n].filter p = [] := by rw [List.filter_cons_of_neg (by rw [hp]; exact Bool.false_ne_true)]; rfl
      rw [hlast, List.append_nil]
      refine ⟨hlt.trans hgrow, fun k => (hbits k).trans ?_⟩
      rcases Nat.lt_trichotomy k n with h | rfl | h
      · rw [decide_eq_true h, decide_eq_true (Nat.lt_succ_of_lt h)]
      · rw [hp, Bool.and_false, Bool.and_false]
      · rw [decide_eq_false (by omega), decide_eq_false (by omega)]
    | true =>
      have hlast : [n].filter p = [n] := List.filter_cons_of_pos hp
      have hfree : bitSet (maskOf ((List.range n).filter p)) n = false := by
        rw [bitSet_eq_testBit]
        exact Nat.testBit_lt_two_pow hlt
      have hadd : maskOf ((List.range n).filter p ++ [n]) = 2 ^ n + maskOf ((List.range n).filter p) := by
        rw [maskOf, List.foldl_append]
        exact (if_neg (by rw [← maskOf, hfree]; exact Bool.false_ne_true)).trans (Nat.add_comm _ _)
      rw [hlast, hadd]
      refine ⟨by rw [Nat.pow_succ]; omega, fun k => ?_⟩
      rcases Nat.lt_trichotomy k n with h | rfl | h
      · rw [Nat.testBit_two_pow_add_gt h, hbits, decide_eq_true h, decide_eq_true (Nat.lt_succ_of_lt h)]
      · rw [Nat.testBit_two_pow_add_eq, hbits, decide_eq_false (Nat.lt_irrefl k), decide_eq_true (Nat.lt_succ_self k), hp]
        rfl
      · have hover : 2 ^ n + maskOf ((List.range n).filter p) < 2 ^ k :=
          Nat.lt_of_lt_of_le (by rw [Nat.pow_succ]; omega) (Nat.pow_le_pow_right (by decide) h)
        rw [Nat.testBit_lt_two_pow hover, decide_eq_false (by omega)]
        rfl

theorem leVal_testBit (l : List Byte) : ∀ k, (leVal l).testBit k = (l.getD (k / 8) 0).toNat.testBit (k % 8) := by
  induction l with
  | nil => exact fun k => by rw [leVal, Nat.zero_testBit, List.getD_nil]; exact (Nat.zero_testBit _).symm
  | cons b l ih =>
    intro k
    rw [leVal, Nat.add_comm, show 256 = 2 ^ 8 from rfl, Nat.testBit_two_pow_mul_add _ b.isLt]
    by_cases hk : k < 8
    · rw [if_pos hk, Nat.div_eq_of_lt hk, Nat.mod_eq_of_lt hk, List.getD_cons_zero]
    · have hdiv : k / 8 = (k - 8) / 8 + 1 := by omega
      have hmod : k % 8 = (k - 8) % 8 := by omega
      rw [if_neg hk, ih, hdiv, hmod, List.getD_cons_succ]

theorem cellsVal_bit (pins : List Bool) {k : Nat} (hk : k < 27) : bitSet (cellsVal pins) k = pins.getD k false := by
  have hbyte : k / 8 < ((List.range 4).map (fun j => BitVec.ofNat 8 (maskOf ((List.range 8).filter (fun i =>
      8 * j + i < 27 && pins.getD (8 * j + i) false))))).length := by
    rw [List.length_map, List.length_range]
    omega
  have hbit := (maskOf_filter_range (fun i => decide (8 * (k / 8) + i < 27) && pins.getD (8 * (k / 8) + i) false) 8).2 (k % 8)
  have hsum : 8 * (k / 8) + k % 8 = k := Nat.div_add_mod k 8
  rw [hsum, decide_eq_true (Nat.mod_lt k (by decide)), decide_eq_true hk] at hbit
  rw [bitSet_eq_testBit, cellsVal, leVal_testBit, List.getD_eq_getElem?_getD, List.getElem?_eq_getElem hbyte, Option.getD_some,
    List.getElem_map, List.getElem_range, BitVec.toNat_ofNat, Nat.testBit_mod_two_pow, hbit]
  simp [Nat.mod_lt]

/-! Instructions of the port. -/

section
variable {s : State}

theorem idcode_form (s : State) : s.idcode % 2 = 1 ∧ s.idcode / 2 ^ 12 % 2 ^ 16 = 0xA4A4 := by
  unfold State.idcode
  generalize s.getF SEC_STEPPING SEC_STEPPING_bd = b
  generalize Config.jep106 = j
  omega

/-! Instrument operations. -/

section
variable {op space addr data : Nat}

theorem instStart_starts (hfree : s.mgmt.instOp = none) : s.instStart op space addr data = { s with
    mgmt := { s.mgmt with
      ir := 0x10, drive := 0, instOp := some (op, space % 16, addr % 2 ^ 48, data % 2 ^ 32), instStatus := 3 } } :=
  if_neg (by rw [hfree]; exact Bool.false_ne_true)

theorem instStart_busy (hbusy : s.mgmt.instOp.isSome = true) :
    s.instStart op space addr data = { s with mgmt := { s.mgmt with ir := 0x10, drive := 0 } } := if_pos hbusy

theorem instDone_none (hfree : s.mgmt.instOp = none) : s.instDone = s := by
  rw [State.instDone, hfree]

/-- An access by its stack address waits for a window. -/
theorem instDone_waits (hop : s.mgmt.instOp = some (op, 0, addr, data)) (halign : addr % 4 = 0)
    (hshut : s.rangeOpen addr 4 = false) : s.instDone = s := by
  simp [State.instDone, hop, halign, hshut]

theorem instDone_reads (hop : s.mgmt.instOp = some (1, space, addr, data))
    (hopen : space = 0 → addr % 4 = 0 → s.rangeOpen addr 4 = true) : s.instDone = s.instRead space addr := by
  have hgo : ¬ (decide (space = 0) && decide (addr % 4 = 0) && !s.rangeOpen addr 4) = true := by
    simp only [Bool.and_eq_true, decide_eq_true_eq, Bool.not_eq_true', not_and, and_imp]
    exact fun hspace halign => by rw [hopen hspace halign]; decide
  rw [State.instDone, hop]
  exact (if_neg hgo).trans (if_pos rfl)

theorem instDone_writes (hop : s.mgmt.instOp = some (2, 0, addr, data)) (hopen : s.rangeOpen addr 4 = true) :
    s.instDone = s.instWrite 0 addr data := by
  simp [State.instDone, hop, hopen]

theorem instRead_memory {st : Nat} {d : List Byte} {u : State} (halign : addr % 4 = 0) (hread : s.localRead 2 addr 4 = ((st, d), u)) :
    s.instRead 0 addr = u.instEnd (instAnswer st) (leAt d 0 4) := by
  have hread' : s.localRead reqJtag addr 4 = ((st, d), u) := hread
  rw [State.instRead, if_pos rfl, if_neg (not_not.2 halign), hread']

theorem instWrite_memory {st d : Nat} {u : State} (halign : addr % 4 = 0) (hwrite : s.localWrite addr (leBytes 4 data) = ((st, d), u)) :
    s.instWrite 0 addr data = u.instEnd (instAnswer st) u.mgmt.instData := by
  rw [State.instWrite, if_neg (by simp [halign]), hwrite]

theorem instRead_control (halign : addr % 4 = 0) : s.instRead 3 addr = s.instEnd 0 (leVal (ccRead s (addr % 2 ^ 23) 4)) := by
  simp [State.instRead, halign]

section
variable (hpresent : s.present (addr % 256) = true)
include hpresent

theorem instEngine_shut (hshut : s.courseRunning (s.partOfLt (addr % 256)) = true ∨ s.openBell (s.partOfLt (addr % 256)) = false)
    (x : Nat) : s.instEngine x addr = (1, 0) := by
  have hnot : s.instOpen (addr % 256) = false := by
    rw [State.instOpen]
    rcases hshut with h | h
    · rw [h, Bool.not_true, Bool.false_and]
    · rw [h, Bool.and_false]
  simp [State.instEngine, hpresent, hnot]

theorem instEngine_accumulator (hrest : s.courseRunning (s.partOfLt (addr % 256)) = false)
    (hopen : s.openBell (s.partOfLt (addr % 256)) = true) : s.instEngine 1 addr =
      (0, accHalf (tgetD (s.tile (addr % 256)).mxe.acc (bitsAt addr 8 11 * 128 + bitsAt addr 19 7) accEntry0) (bitAt addr 26)) := by
  simp [State.instEngine, State.instOpen, hpresent, hrest, hopen]

end

theorem instRead_engine {x st v : Nat} (hx : x = 1 ∨ x = 2) (hengine : s.instEngine x addr = (st, v)) :
    s.instRead x addr = s.instEnd st v := by
  rcases hx with rfl | rfl
  · simp [State.instRead, hengine]
  · simp [State.instRead, hengine]

end

/-! TRACE_CONFIG. -/

section
variable {c : Cmd} {b : List Byte} {u : State} (hread : s.readObject c.pkt.p0 32 = ((b, 0), u))
include hread

theorem traceConfig_stops (hnone : leAt b 0x0C 4 = 0) : s.traceConfig c = u.traceStop.ok c 0 := by
  rw [State.traceConfig, hread]
  exact (if_neg (not_not.2 rfl)).trans (if_pos hnone)

variable (hsome : leAt b 0x0C 4 ≠ 0)
include hsome

theorem traceConfig_running (hrun : u.flag TRC_STATUS TRC_STATUS_running = true) : s.traceConfig c = u.fail c stDEVICE_STATE := by
  rw [State.traceConfig, hread]
  exact (if_neg (not_not.2 rfl)).trans ((if_neg hsome).trans (if_pos hrun))

variable (hrest : u.flag TRC_STATUS TRC_STATUS_running = false)
include hrest

theorem traceConfig_bad (hbad : setupGood b = false) : s.traceConfig c = u.badParam c 0 0 := by
  rw [State.traceConfig, hread]
  dsimp only
  rw [if_neg (not_not.2 rfl), if_neg hsome, hrest, hbad]
  rfl

theorem traceConfig_starts (hgood : setupGood b = true) : s.traceConfig c = (u.traceStart b).ok c 0 := by
  rw [State.traceConfig, hread]
  dsimp only
  rw [if_neg (not_not.2 rfl), if_neg hsome, hrest, hgood]
  rfl

end

theorem traceStart_running (s : State) (b : List Byte) : (s.traceStart b).flag TRC_STATUS TRC_STATUS_running = true := by
  have hbit : (fldPut (s.reg TRC_STATUS) ⟨0, 16⟩ 1).toNat.testBit 0 = true := by
    rw [fldPut_bit _ _ _ _ (by decide)]
    exact if_pos ⟨Nat.le_refl 0, by decide⟩
  have hreg : (s.traceStart b).reg TRC_STATUS = fldPut (s.reg TRC_STATUS) ⟨0, 16⟩ 1 := (reg_setReg _ _ _ _).trans (if_pos rfl)
  have hodd : (fldPut (s.reg TRC_STATUS) ⟨0, 16⟩ 1).toNat % 2 = 1 := by simpa [Nat.testBit_zero] using hbit
  have hget : (s.traceStart b).getF TRC_STATUS TRC_STATUS_running = 1 := by
    rw [State.getF, hreg, fldGet]
    simp only [TRC_STATUS_running]
    omega
  rw [State.flag, hget]
  rfl

end

/-- Settles O51: each instruction of the port, the operations of its instruments, and the setups of a trace. -/
theorem testPortAndTrace : Obligations.TestPortAndTrace := by
  unfold Obligations.TestPortAndTrace
  intro s cells pins space addr data ring tag c hon
  obtain ⟨hodd, hpart⟩ := idcode_form s
  refine ⟨fun row hrow => ?drivers, live_next hon rfl, live_next hon rfl, live_next hon rfl, live_next hon rfl, live_next hon rfl,
    live_next hon rfl, hodd, hpart, fun ir dr drive => rfl, rfl, fun k hk => cellsVal_bit pins hk,
    fun hfree => ⟨live_next hon (instStart_starts hfree), live_next hon (instStart_starts hfree), live_next hon (instDone_none hfree)⟩,
    fun hbusy => ⟨live_next hon (instStart_busy hbusy), live_next hon (instStart_busy hbusy)⟩,
    fun op hop halign hshut => live_next hon (instDone_waits hop halign hshut),
    fun st d u hop halign hopen hread => live_next hon
      ((instDone_reads hop (fun _ _ => hopen)).trans (instRead_memory halign hread)),
    fun st d u hop halign hopen hwrite => live_next hon ((instDone_writes hop hopen).trans (instWrite_memory halign hwrite)),
    fun hop halign => live_next hon ((instDone_reads hop (fun h => absurd h (by decide))).trans (instRead_control halign)),
    fun v hop hpresent hrest hopen hv => live_next hon ?accumulator, fun x hx hop hpresent hshut => live_next hon ?shut,
    fun b u hc hread => ⟨fun hnone => (onCmd_accepted hc).trans (congrArg _ (traceConfig_stops hread hnone)),
      fun hsome hrun => (onCmd_accepted hc).trans (congrArg _ (traceConfig_running hread hsome hrun)),
      fun hsome hrest hbad => (onCmd_accepted hc).trans (congrArg _ (traceConfig_bad hread hsome hrest hbad)),
      fun hsome hrest hgood => (onCmd_accepted hc).trans (congrArg _ (traceConfig_starts hread hsome hrest hgood))⟩,
    fun b => ⟨rfl, traceStart_running s b⟩, flag_setB _ _ false (by decide) (by decide), rfl⟩
  case drivers =>
    have hexec : exec row.1 s = live s (if s.extestOk then row.2 s else s.extestRefused) := by
      revert row
      simp only [List.forall_mem_cons]
      exact ⟨rfl, rfl, rfl, List.forall_mem_nil _⟩
    exact ⟨fun hfree hdown => hexec.trans (live_next hon (if_pos (extestOk_iff.2 ⟨hfree, hdown⟩))),
      fun h => hexec.trans (live_next hon (if_neg (ne_true_of_eq_false (extestOk_eq_false_iff.2 h))))⟩
  case accumulator =>
    subst hv
    exact (instDone_reads hop (fun h => absurd h (by decide))).trans
      (instRead_engine (.inl rfl) (instEngine_accumulator hpresent hrest hopen))
  case shut =>
    refine (instDone_reads hop (fun h => ?_)).trans (instRead_engine hx (instEngine_shut hpresent hshut x))
    omega

end Sys2Proof.Machine
end

