-- ==== Sys2Proof/Proofs/Samples.lean ====
section
/-! A sample of the sensors: readings, pairs, adopted estimates, and the trip (19 R453-R466). -/

namespace Sys2Proof.Machine

/-- Registers between those of the event rings and those of management are none that the raising of an event loads. -/
theorem eventReg_between {a : Nat} (hlow : 0xf00000150000 ≤ a) (hhigh : a < 0xf000001a0000) : eventReg a = false := by
  have hring : ∀ e, e < 8 → a ≠ EVT_RING_TAIL e ∧ a ≠ EVT_RING_LOST e := fun e he => by
    unfold EVT_RING_TAIL EVT_RING_LOST
    omega
  simp only [eventReg, Bool.or_eq_false_iff, beq_eq_false_iff_ne, List.any_eq_false, Bool.or_eq_true, beq_iff_eq, not_or]
  refine ⟨⟨⟨⟨?_, ?_⟩, ?_⟩, ?_⟩, fun e he => hring e (List.mem_range.1 he)⟩
  all_goals
    simp only [EVT_SEQ, EVT_UNROUTED, TRC_STATUS, MGMT_STATUS]
    omega

theorem eventReg_sensor {n : Nat} (hn : n < 864) : eventReg (THM_SENSOR n) = false :=
  eventReg_between (by unfold THM_SENSOR; omega) (by unfold THM_SENSOR; omega)

/-! Pairs (R457). -/

section
variable {s : State} {q a b : Nat}

theorem pairValue_both (h : s.distrusts (2 * q) = false) (h' : s.distrusts (2 * q + 1) = false) : s.pairValue q a b = (max a b, 0) := by
  rw [State.pairValue, h, h']

theorem pairValue_second (h : s.distrusts (2 * q) = true) (h' : s.distrusts (2 * q + 1) = false) : s.pairValue q a b = (b + 48, 1) := by
  rw [State.pairValue, h, h']

theorem pairValue_first (h : s.distrusts (2 * q) = false) (h' : s.distrusts (2 * q + 1) = true) : s.pairValue q a b = (a + 48, 1) := by
  rw [State.pairValue, h, h']

theorem pairValue_model (h : s.distrusts (2 * q) = true) (h' : s.distrusts (2 * q + 1) = true) :
    s.pairValue q a b = (s.modelAt (sensorRegion (2 * q)) + 80, 2) := by
  rw [State.pairValue, h, h']

/-- The larger of two values with their sources. -/
def larger (m x : Nat × Nat) : Nat × Nat := if m.1 < x.1 then x else m

theorem le_foldl_larger (f : Nat → Nat × Nat) (l : List Nat) (m : Nat × Nat) :
    m.1 ≤ (l.foldl (fun m q => larger m (f q)) m).1 ∧ ∀ q ∈ l, (f q).1 ≤ (l.foldl (fun m q => larger m (f q)) m).1 := by
  induction l generalizing m with
  | nil => exact ⟨Nat.le_refl _, fun q hq => absurd hq List.not_mem_nil⟩
  | cons p l ih =>
    obtain ⟨hstart, hmem⟩ := ih (larger m (f p))
    have hboth : m.1 ≤ (larger m (f p)).1 ∧ (f p).1 ≤ (larger m (f p)).1 := by
      unfold larger
      split <;> omega
    refine ⟨hboth.1.trans hstart, fun q hq => ?_⟩
    rcases List.mem_cons.1 hq with rfl | hq
    · exact hboth.2.trans hstart
    · exact hmem q hq

theorem pairValue_le_sensorValue (s : State) (v : List Nat) {r p : Nat} (hp : p ∈ regionPairs r) :
    (s.pairValue p (v.getD (2 * p) 0) (v.getD (2 * p + 1) 0)).1 ≤ (s.sensorValue r v).1 :=
  (le_foldl_larger (fun q => s.pairValue q (v.getD (2 * q) 0) (v.getD (2 * q + 1) 0)) (regionPairs r) (0, 0)).2 p hp

/-- How long a pair's readings have been apart, and together, with one more sample. -/
def State.apartCount (s : State) (q a b : Nat) : Nat :=
  if !s.distrusts (2 * q) && !s.distrusts (2 * q + 1) && decide (48 < absDiff a b) then min 16 (tgetD s.therm.apart q 0 + 1) else 0

def State.togetherCount (s : State) (q a b : Nat) : Nat :=
  if absDiff a b ≤ 48 then min 16 (tgetD s.therm.together q 0 + 1) else 0

def State.pairNoted (s : State) (q a b : Nat) : State :=
  { s with
    therm := { s.therm with
      apart := tset s.therm.apart q (s.apartCount q a b) 0, together := tset s.therm.together q (s.togetherCount q a b) 0 } }

/-- Both sensors of a pair show that they disagree. -/
def State.pairShown (s : State) (q : Nat) (v : Bool) : State :=
  (s.setB (THM_SENSOR (2 * q)) THM_SENSOR_disagree v).setB (THM_SENSOR (2 * q + 1)) THM_SENSOR_disagree v

theorem pairDisagree_eq (s : State) (q a b : Nat) : s.pairDisagree q a b =
    if s.apartCount q a b = 16 && !s.flag (THM_SENSOR (2 * q)) THM_SENSOR_disagree then
      (((s.pairNoted q a b).pairShown q true).incF THM_COUNTS THM_COUNTS_disagree 1).raise evSensorDisagree 255 7 (2 * q) (2 * q + 1)
        (absDiff a b / 4) 0 0
    else if s.togetherCount q a b = 16 && s.flag (THM_SENSOR (2 * q)) THM_SENSOR_disagree then (s.pairNoted q a b).pairShown q false
    else s.pairNoted q a b := rfl

theorem pairDisagree_shows (hq : q < 432) (h : s.distrusts (2 * q) = false) (h' : s.distrusts (2 * q + 1) = false)
    (hapart : 48 < absDiff a b) (hcount : tgetD s.therm.apart q 0 = 15)
    (hnew : s.flag (THM_SENSOR (2 * q)) THM_SENSOR_disagree = false) :
    (s.pairDisagree q a b).flag (THM_SENSOR (2 * q)) THM_SENSOR_disagree = true ∧
      (s.pairDisagree q a b).flag (THM_SENSOR (2 * q + 1)) THM_SENSOR_disagree = true := by
  have hfull : s.apartCount q a b = 16 := by
    rw [State.apartCount, h, h', decide_eq_true hapart, hcount]
    rfl
  have hgo := (pairDisagree_eq s q a b).trans (if_pos (by rw [hfull, hnew]; rfl))
  have hrep := reports_raise evSensorDisagree 255 7 (2 * q) (2 * q + 1) (absDiff a b / 4) 0 0
    (Reports.refl (((s.pairNoted q a b).pairShown q true).incF THM_COUNTS THM_COUNTS_disagree 1))
  have hcounts : ∀ n, THM_SENSOR n ≠ THM_COUNTS := fun n => by unfold THM_SENSOR THM_COUNTS; omega
  rw [hgo]
  refine ⟨(hrep.flag (eventReg_sensor (by omega)) _).trans ((flag_setF_reg _ _ _ _ (hcounts _)).trans ?_),
    (hrep.flag (eventReg_sensor (by omega)) _).trans ((flag_setF_reg _ _ _ _ (hcounts _)).trans ?_)⟩
  · exact (flag_setB_reg _ _ _ _ (by unfold THM_SENSOR; omega)).trans (flag_setB _ _ true (by decide) (by decide))
  · exact flag_setB _ _ true (by decide) (by decide)

end

/-! A reading against the model (R458). -/

section
variable {s : State} {n a : Nat}

/-- How long a sensor has been far from the model, and near it, with one more sample. -/
def State.farCount (s : State) (n a : Nat) : Nat :=
  if 128 < absDiff a (s.modelAt (sensorRegion n)) then min 16 (tgetD s.therm.far n 0 + 1) else 0

def State.nearCount (s : State) (n a : Nat) : Nat :=
  if absDiff a (s.modelAt (sensorRegion n)) ≤ 64 then min 4096 (tgetD s.therm.near n 0 + 1) else 0

def State.readingNoted (s : State) (n a : Nat) : State :=
  let u := s.setF (THM_SENSOR n) THM_SENSOR_reading (min 1023 (a / 4))
  { u with therm := { u.therm with far := tset u.therm.far n (s.farCount n a) 0, near := tset u.therm.near n (s.nearCount n a) 0 } }

theorem readingNoted_suspect (s : State) (n a : Nat) : (s.readingNoted n a).suspect n = s.suspect n :=
  flag_setF_fld s (THM_SENSOR n) _ (by decide) (.inl (by decide))

theorem readingNoted_reading (s : State) (n a : Nat) :
    (s.readingNoted n a).getF (THM_SENSOR n) THM_SENSOR_reading = min 1023 (a / 4) :=
  getF_setF_lt s (THM_SENSOR n) (by decide) (Nat.lt_of_le_of_lt (Nat.min_le_left _ _) (by decide))

theorem sensorReading_eq (hvalid : s.therm.modelValid = true) : s.sensorReading n a =
    if s.farCount n a = 16 && !s.suspect n then (s.readingNoted n a).markSuspect n a
    else if s.nearCount n a = 4096 && s.suspect n then
      ((s.readingNoted n a).setB (THM_SENSOR n) THM_SENSOR_suspect false).carrySuspects
    else s.readingNoted n a := by
  rw [← readingNoted_suspect s n a]
  exact if_neg (by
    have hkept : (s.setF (THM_SENSOR n) THM_SENSOR_reading (min 1023 (a / 4))).therm.modelValid = true := hvalid
    rw [hkept]
    exact Bool.false_ne_true)

theorem markSuspect_shows (u : State) (hn : n < 864) : (u.markSuspect n a).suspect n = true ∧
    (u.markSuspect n a).getF (THM_SENSOR n) THM_SENSOR_reading = u.getF (THM_SENSOR n) THM_SENSOR_reading := by
  have hrep := reports_raise evSensorSuspect 255 7 n (a / 4)
    (((u.setB (THM_SENSOR n) THM_SENSOR_suspect true).incF THM_COUNTS THM_COUNTS_suspect 1).modelAt (sensorRegion n) / 4) 0 0
    (Reports.refl ((u.setB (THM_SENSOR n) THM_SENSOR_suspect true).incF THM_COUNTS THM_COUNTS_suspect 1).carrySuspects)
  have hcounts : THM_SENSOR n ≠ THM_COUNTS := by unfold THM_SENSOR THM_COUNTS; omega
  refine ⟨(hrep.flag (eventReg_sensor hn) _).trans ?_, (hrep.getF (eventReg_sensor hn) _).trans ?_⟩
  · exact (flag_setF_reg _ _ _ _ hcounts).trans (flag_setB u _ true (by decide) (by decide))
  · exact (getF_setF_reg _ _ _ _ hcounts).trans (getF_setF_fld u _ _ (by decide) (.inr (by decide)))

/-- A sensor far from the model for the 16th sample is suspect; before that the sample is counted. -/
theorem sensorReading_far (hn : n < 864) (hvalid : s.therm.modelValid = true) (htrusted : s.suspect n = false)
    (hfar : 128 < absDiff a (s.modelAt (sensorRegion n))) :
    (tgetD s.therm.far n 0 = 15 → (s.sensorReading n a).suspect n = true ∧
      (s.sensorReading n a).getF (THM_SENSOR n) THM_SENSOR_reading = min 1023 (a / 4)) ∧
    (tgetD s.therm.far n 0 < 15 → (s.sensorReading n a).suspect n = false ∧
      tgetD (s.sensorReading n a).therm.far n 0 = tgetD s.therm.far n 0 + 1) := by
  have hcount : s.farCount n a = min 16 (tgetD s.therm.far n 0 + 1) := if_pos hfar
  refine ⟨fun h => ?_, fun h => ?_⟩
  · have hfull : s.farCount n a = 16 := by
      rw [hcount, h]
      rfl
    rw [sensorReading_eq hvalid, if_pos (by rw [hfull, htrusted]; rfl)]
    obtain ⟨hsuspect, hreading⟩ := markSuspect_shows (a := a) (s.readingNoted n a) hn
    exact ⟨hsuspect, hreading.trans (readingNoted_reading s n a)⟩
  · have hnext : s.farCount n a = tgetD s.therm.far n 0 + 1 := by rw [hcount]; omega
    have hless : ¬ s.farCount n a = 16 := by omega
    rw [sensorReading_eq hvalid, htrusted, Bool.and_false, if_neg (by rw [decide_eq_false hless]; exact Bool.false_ne_true),
      if_neg Bool.false_ne_true]
    exact ⟨(readingNoted_suspect s n a).trans htrusted, ((tgetD_tset _ n n _ 0).trans (if_pos rfl)).trans hnext⟩

/-- One near the model for the 4,096th sample is no longer suspect. -/
theorem sensorReading_near (hvalid : s.therm.modelValid = true) (hsuspect : s.suspect n = true)
    (hnear : absDiff a (s.modelAt (sensorRegion n)) ≤ 64) (hcount : tgetD s.therm.near n 0 = 4095) :
    (s.sensorReading n a).suspect n = false := by
  have hfull : s.nearCount n a = 4096 := by
    rw [State.nearCount, if_pos hnear, hcount]
    rfl
  rw [sensorReading_eq hvalid, hsuspect, if_neg (by rw [Bool.not_true, Bool.and_false]; exact Bool.false_ne_true),
    if_pos (by rw [hfull]; rfl)]
  exact flag_setB (s.readingNoted n a) (THM_SENSOR n) false (by decide) (by decide)

end

/-! Adopted estimates (R457, R459). -/

section
variable {s : State} {v : List Nat} {r x can : Nat}

/-- The canary estimate of a region is believed over its sensor value x. -/
def State.believes (s : State) (r x : Nat) : Bool :=
  regionDie r == 1 && s.therm.modelValid && decide (x + 48 < 4 * tgetD s.therm.canary r 0) && decide (x + 48 < s.modelAt r)

/-- The register of a region takes its adopted estimate and where that comes from. -/
def State.adoptShown (s : State) (r a src : Nat) : State :=
  (((s.setF (THM_REGION r) THM_REGION_adopted (min 1023 (a / 4))).setF (THM_REGION r) THM_REGION_model
    (min 1023 (s.modelAt r / 4))).setF (THM_REGION r) THM_REGION_source src).setF (THM_REGION r) THM_REGION_canary
    (if regionDie r = 1 then min 1023 (tgetD s.therm.canary r 0) else 0)

theorem adopt_eq (hx : x = (s.sensorValue r v).1) : s.adopt r v = (if s.believes r x then 4 * tgetD s.therm.canary r 0 else x,
    if s.believes r x && s.getF (THM_REGION r) THM_REGION_source ≠ 3
    then (s.adoptShown r (if s.believes r x then 4 * tgetD s.therm.canary r 0 else x)
      (if s.believes r x then 3 else (s.sensorValue r v).2)).incF THM_COUNTS THM_COUNTS_override 1
    else s.adoptShown r (if s.believes r x then 4 * tgetD s.therm.canary r 0 else x)
      (if s.believes r x then 3 else (s.sensorValue r v).2)) := by
  subst hx
  rfl

theorem region_ne_counts (k : Nat) : THM_REGION k ≠ THM_COUNTS := by unfold THM_REGION THM_COUNTS; omega

/-- The count of overrides stands beside the register of the region. -/
theorem adopt_shows (hx : x = (s.sensorValue r v).1) (f : Fld) : (s.adopt r v).2.getF (THM_REGION r) f =
    (s.adoptShown r (if s.believes r x then 4 * tgetD s.therm.canary r 0 else x)
      (if s.believes r x then 3 else (s.sensorValue r v).2)).getF (THM_REGION r) f := by
  rw [adopt_eq hx]
  dsimp only
  split
  · exact getF_setF_reg _ _ _ _ (region_ne_counts r)
  · rfl

theorem adoptShown_adopted (s : State) (r a src : Nat) :
    (s.adoptShown r a src).getF (THM_REGION r) THM_REGION_adopted = min 1023 (a / 4) := by
  rw [State.adoptShown, getF_setF_fld _ _ _ (by decide) (.inr (by decide)), getF_setF_fld _ _ _ (by decide) (.inr (by decide)),
    getF_setF_fld _ _ _ (by decide) (.inr (by decide))]
  exact getF_setF_lt s _ (by decide) (Nat.lt_of_le_of_lt (Nat.min_le_left _ _) (by decide))

theorem adoptShown_source (s : State) (r a : Nat) {src : Nat} (hsrc : src < 4) :
    (s.adoptShown r a src).getF (THM_REGION r) THM_REGION_source = src := by
  rw [State.adoptShown, getF_setF_fld _ _ _ (by decide) (.inr (by decide))]
  exact getF_setF_lt _ _ (by decide) hsrc

theorem adopt_believes (hx : x = (s.sensorValue r v).1) (hyes : s.believes r x = true) :
    (s.adopt r v).1 = 4 * tgetD s.therm.canary r 0 ∧ (s.adopt r v).2.getF (THM_REGION r) THM_REGION_source = 3 := by
  refine ⟨(congrArg Prod.fst (adopt_eq hx)).trans (if_pos hyes), (adopt_shows hx _).trans ?_⟩
  rw [if_pos hyes, if_pos hyes]
  exact adoptShown_source s r _ (by decide)

theorem adopt_sensor (hx : x = (s.sensorValue r v).1) (hno : s.believes r x = false) : (s.adopt r v).1 = x :=
  (congrArg Prod.fst (adopt_eq hx)).trans (if_neg (by rw [hno]; exact Bool.false_ne_true))

theorem adopt_adopted (s : State) (r : Nat) (v : List Nat) : (s.adopt r v).2.adopted r = min 1023 ((s.adopt r v).1 / 4) := by
  rw [State.adopted, adopt_shows (v := v) rfl, adoptShown_adopted, adopt_eq (v := v) rfl]

theorem adopt_loads (s : State) (r : Nat) (v : List Nat) :
    LoadsOnly (fun a => a = THM_REGION r ∨ a = THM_COUNTS) s (s.adopt r v).2 := by
  have hshown : ∀ a src, LoadsOnly (fun a => a = THM_REGION r ∨ a = THM_COUNTS) s (s.adoptShown r a src) := fun a src =>
    ((((LoadsOnly.refl _ s).setF (.inl rfl) _ _).setF (.inl rfl) _ _).setF (.inl rfl) _ _).setF (.inl rfl) _ _
  rw [adopt_eq (v := v) rfl]
  exact LoadsOnly.ite ((hshown _ _).incF (.inr rfl) _ _) (hshown _ _)

theorem adopt_other {k : Nat} (hne : k ≠ r) : (s.adopt r v).2.reg (THM_REGION k) = s.reg (THM_REGION k) :=
  (adopt_loads s r v).2 _ (not_or.2 ⟨by unfold THM_REGION; omega, region_ne_counts k⟩)

end

/-! The trip (R461). -/

section
variable {s : State} {l : List Nat} {q a b : Nat}

theorem trip_unpowered (s : State) (cause region value : Nat) : (s.trip cause region value).powered = false := rfl

theorem comparator_trips (hq : q < 432) (ha : 16 * s.tripLimit (sensorRegion (2 * q)) ≤ a)
    (hb : 16 * s.tripLimit (sensorRegion (2 * q)) ≤ b) : s.comparator q a b = s.trip 5 (sensorRegion (2 * q)) (max a b / 4) :=
  if_pos (by rw [decide_eq_true hq, decide_eq_true ha, decide_eq_true hb]; rfl)

theorem comparator_rests (h : min a b < 16 * s.tripLimit (sensorRegion (2 * q))) : s.comparator q a b = s := by
  refine if_neg fun hgo => ?_
  simp only [Bool.and_eq_true, decide_eq_true_eq] at hgo
  omega

theorem tripped_ne_none {k : Nat} (hk : k < 88) (hlimit : 16 * s.tripLimit k ≤ l.getD k 0) : s.tripped l ≠ none := fun hnone =>
  List.find?_eq_none.1 hnone (k, l.getD k 0) (List.mem_map.2 ⟨k, List.mem_range.2 hk, rfl⟩) (decide_eq_true hlimit)

theorem tripLimit_mgmt (s : State) (m : MgmtSt) (k : Nat) : ({ s with mgmt := m } : State).tripLimit k = s.tripLimit k := rfl

/-- A region at its trip limit leaves the module without power. -/
theorem sampleEffects_trips (h : ∃ k, k < 88 ∧ 16 * (s.hotSample l).limitSample.tripLimit k ≤ l.getD k 0) :
    (s.sampleEffects l).powered = false := by
  obtain ⟨k, hk, hlimit⟩ := h
  unfold State.sampleEffects
  dsimp only
  split
  case h_1 => exact trip_unpowered _ _ _ _
  case h_2 hnone => exact absurd hnone (tripped_ne_none hk (by rw [tripLimit_mgmt]; exact hlimit))

end

/-- Settles O52: the order of a sample, then pairs, adopted estimates, suspect sensors, disagreements and the trip. -/
theorem samplesAndTrip : Obligations.SamplesAndTrip := by
  unfold Obligations.SamplesAndTrip
  intro s v powers inlet outlet q r n a b x can hon
  refine ⟨fun u l hall => live_next hon ?sample, fun r l w u hw hu => ?all, fun h h' => pairValue_both h h',
    fun h h' => pairValue_second h h', fun h h' => pairValue_first h h', fun h h' => pairValue_model h h',
    fun p hp => pairValue_le_sensorValue s v hp, fun hr hx hcan => ⟨?believes, ?sensor, adopt_adopted s r v, fun k _ hne => adopt_other hne⟩,
    fun hn hvalid htrusted hfar => sensorReading_far hn hvalid htrusted hfar,
    fun _ hvalid hsuspect hnear hcount => sensorReading_near hvalid hsuspect hnear hcount,
    fun hq h h' hapart hcount hnew => pairDisagree_shows hq h h' hapart hcount hnew,
    fun hq ha hb => live_next hon (comparator_trips hq ha hb), fun h => live_next hon (comparator_rests h),
    fun l h => sampleEffects_trips h, fun c => ⟨trip_unpowered s c r a, rfl, rfl, rfl⟩⟩
  case sample =>
    rw [State.sample, hall]
  case all =>
    subst hu hw
    rfl
  case believes =>
    intro hdie hvalid hsensor hmodel
    have hyes : s.believes r x = true := by
      subst hcan
      simp [State.believes, hdie, hvalid, hsensor, hmodel]
    obtain ⟨hvalue, hsource⟩ := adopt_believes hx hyes
    exact ⟨hvalue.trans hcan.symm, hsource⟩
  case sensor =>
    intro h
    refine adopt_sensor hx ?_
    subst hcan
    rw [State.believes]
    rcases h with hdie | hcanary | hmodel
    · simp [hdie]
    · rw [decide_eq_false (Nat.not_lt.2 hcanary), Bool.and_false, Bool.false_and]
    · rw [decide_eq_false (Nat.not_lt.2 hmodel), Bool.and_false]

end Sys2Proof.Machine
end

