-- ==== Sys2Proof/Proofs/ForecastAndCoolant.lean ====
section
/-! The thermal forecast at a recess point, and the evaluation of the coolant (19 R462-R465). -/

namespace Sys2Proof.Machine

/-! The largest of a list of values. -/

/-- One more value is compared with the largest so far. -/
def largestStep (m : Option (Nat × Nat)) (x : Nat × Nat) : Option (Nat × Nat) :=
  match m with
  | some y => if y.2 < x.2 then some x else some y
  | none => some x

theorem largestStep_spec {m : Option (Nat × Nat)} {x : Nat × Nat} : ∃ z, largestStep m x = some z ∧ (z = x ∨ m = some z) ∧
    x.2 ≤ z.2 ∧ ∀ y, m = some y → y.2 ≤ z.2 := by
  cases m with
  | none => exact ⟨x, rfl, .inl rfl, Nat.le_refl _, fun y hy => absurd hy (Option.some_ne_none y).symm⟩
  | some y =>
    by_cases h : y.2 < x.2
    · exact ⟨x, if_pos h, .inl rfl, Nat.le_refl _, fun z hz => Option.some.inj hz ▸ Nat.le_of_lt h⟩
    · exact ⟨y, if_neg h, .inr rfl, Nat.le_of_not_lt h, fun z hz => Option.some.inj hz ▸ Nat.le_refl _⟩

theorem foldl_largestStep (l : List (Nat × Nat)) : ∀ {m : Option (Nat × Nat)} {z : Nat × Nat}, l.foldl largestStep m = some z →
    (z ∈ l ∨ m = some z) ∧ (∀ x ∈ l, x.2 ≤ z.2) ∧ ∀ y, m = some y → y.2 ≤ z.2 := by
  induction l with
  | nil =>
    intro m z h
    exact ⟨.inr h, fun x hx => absurd hx List.not_mem_nil, fun y hy => Option.some.inj (hy.symm.trans h) ▸ Nat.le_refl _⟩
  | cons x l ih =>
    intro m z h
    obtain ⟨w, hw, hfrom, hx, hm⟩ := largestStep_spec (m := m) (x := x)
    obtain ⟨hmem, hall, hbest⟩ := ih h
    have hwz : w.2 ≤ z.2 := hbest w hw
    refine ⟨?_, fun y hy => ?_, fun y hy => (hm y hy).trans hwz⟩
    · rcases hmem with hz | hz
      · exact .inl (List.mem_cons_of_mem _ hz)
      · have hsame : w = z := Option.some.inj (hw.symm.trans hz)
        exact hfrom.imp (fun h => by rw [← hsame, h]; exact List.mem_cons_self) (fun h => by rw [← hsame, h])
    · rcases List.mem_cons.1 hy with rfl | hy
      · exact hx.trans hwz
      · exact hall y hy

theorem largestOf_spec {l : List (Nat × Nat)} {g a : Nat} (h : largestOf l = some (g, a)) : (g, a) ∈ l ∧ ∀ x ∈ l, x.2 ≤ a := by
  have hfold : l.foldl largestStep none = some (g, a) := h
  obtain ⟨hmem, hall, -⟩ := foldl_largestStep l hfold
  exact ⟨hmem.resolve_right (Option.some_ne_none _).symm, hall⟩

/-! The forecast and the request it calls for. -/

section
variable {s u : State} {ctr n r g a : Nat} {peaks : List (Nat × Nat)}

theorem forecast_idle (h : ∀ p, p < 4 → s.atRecessPoint p = false) : s.forecast = s := by
  refine if_pos (List.filter_eq_nil_iff.2 fun p hp => ?_)
  rw [h p (List.mem_range.1 hp)]
  exact Bool.false_ne_true

section
variable {ps : List Nat} (hps : ps = (List.range 4).filter s.atRecessPoint) (hsome : ps ≠ [])
  (hpeaks : peaks = (List.range 88).map (fun g => (g, Config.forecastPeak s.markPoint.freeCtr g 0 0 0)))
  (hlargest : largestOf peaks = some (g, a))
  (hu : u = (((s.markPoint.drawn 1).setF THM_FORECAST THM_FORECAST_peak (min 1023 a)).setF THM_FORECAST THM_FORECAST_region g))
include hps hsome hpeaks hlargest hu

theorem forecast_shows (hnone : u.nextPoint ps = none) : s.forecast = u := by
  subst hps hpeaks hu
  rw [State.forecast, if_neg hsome]
  dsimp only
  rw [hlargest, Option.getD_some, hnone]

theorem forecast_asks (hnext : u.nextPoint ps = some r) : s.forecast = u.thermalRequest s.markPoint.freeCtr r peaks := by
  subst hps hpeaks hu
  rw [State.forecast, if_neg hsome]
  dsimp only
  rw [hlargest, Option.getD_some, hnext]

end

theorem thermalRequest_none (hlimit : s.therm.limitReached = false) (hcool : ∀ x ∈ peaks, x.2 + 4 < 4 * s.throttleLimit x.1) :
    s.thermalRequest ctr r peaks = s := by
  have hnone : peaks.filter (fun x => decide (4 * s.throttleLimit x.1 ≤ x.2 + 4)) = [] :=
    List.filter_eq_nil_iff.2 fun x hx => by
      rw [decide_eq_true_eq]
      exact Nat.not_le.2 (hcool x hx)
  rw [State.thermalRequest, hlimit, hnone]
  rfl

theorem thermalRequest_forecast (hlimit : s.therm.limitReached = false)
    (hlargest : largestOf (peaks.filter (fun x => decide (4 * s.throttleLimit x.1 ≤ x.2 + 4))) = some (g, a))
    (hn : n = s.pointsUntil r (s.bellCount + min 34180 (Config.forecastBell ctr g))) {k : Nat} (hk : k = s.recessLength ctr n r) :
    s.thermalRequest ctr r peaks = (s.setF THM_FORECAST THM_FORECAST_k_last k).requestRecess k n r (s.thermalReason g a).1
      (s.thermalReason g a).2 := by
  subst hk hn
  rw [State.thermalRequest, hlimit, hlargest]
  rfl

theorem thermalRequest_limit (hlimit : s.therm.limitReached = true)
    (hlargest : largestOf (((List.range 88).map (fun g => (g, s.adopted g))).filter
      (fun x => decide (4 * s.throttleLimit x.1 ≤ x.2 + 4))) = some (g, a)) :
    s.thermalRequest ctr r peaks = (s.setF THM_FORECAST THM_FORECAST_k_last 255).requestRecess 255 1 r (s.thermalReason g a).1
      (s.thermalReason g a).2 := by
  rw [State.thermalRequest, hlimit, hlargest]
  rfl

/-- k recess bells at each of n points from bell r keep every region below its limit. -/
def State.keepsCool (s : State) (ctr n r k : Nat) : Bool :=
  (List.range 88).all (fun g => decide (Config.forecastPeak ctr g k n r + 4 < 4 * s.throttleLimit g))

theorem keepsCool_iff {k : Nat} :
    s.keepsCool ctr n r k = true ↔ ∀ g, g < 88 → Config.forecastPeak ctr g k n r + 4 < 4 * s.throttleLimit g := by
  simp only [State.keepsCool, List.all_eq_true, List.mem_range, decide_eq_true_eq]

theorem not_keepsCool {k : Nat} (h : s.keepsCool ctr n r k = false) :
    ∃ g, g < 88 ∧ 4 * s.throttleLimit g ≤ Config.forecastPeak ctr g k n r + 4 := by
  by_contra hall
  have hcool : s.keepsCool ctr n r k = true := keepsCool_iff.2 fun g hg =>
    Nat.lt_of_not_le fun hle => hall ⟨g, hg, hle⟩
  exact Bool.false_ne_true (h.symm.trans hcool)

theorem recessLength_eq (s : State) (ctr n r : Nat) :
    s.recessLength ctr n r = (((List.range 255).map (· + 1)).find? (s.keepsCool ctr n r)).getD 255 := rfl

/-- The smallest of the lengths 1 to 255 that keeps every region cool, or 255. -/
theorem recessLength_spec (s : State) (ctr n r : Nat) : 1 ≤ s.recessLength ctr n r ∧ s.recessLength ctr n r ≤ 255 ∧
    (∀ k, 1 ≤ k → k < s.recessLength ctr n r → s.keepsCool ctr n r k = false) ∧
    (s.recessLength ctr n r < 255 → s.keepsCool ctr n r (s.recessLength ctr n r) = true) := by
  rw [recessLength_eq]
  cases hfind : ((List.range 255).map (· + 1)).find? (s.keepsCool ctr n r) with
  | none =>
    rw [Option.getD_none]
    refine ⟨by decide, Nat.le_refl _, fun k hk hless => ?_, fun h => absurd h (Nat.lt_irrefl _)⟩
    have hmiss := List.find?_eq_none.1 hfind k (List.mem_map.2 ⟨k - 1, List.mem_range.2 (by omega), by omega⟩)
    exact Bool.eq_false_iff.2 hmiss
  | some m =>
    rw [Option.getD_some]
    obtain ⟨hcool, i, hi, hget, hbefore⟩ := List.find?_eq_some_iff_getElem.1 hfind
    rw [List.length_map, List.length_range] at hi
    rw [List.getElem_map, List.getElem_range] at hget
    refine ⟨by omega, by omega, fun k hk hless => ?_, fun _ => hcool⟩
    have hearlier := hbefore (k - 1) (by omega)
    rw [List.getElem_map, List.getElem_range, Nat.sub_add_cancel hk] at hearlier
    exact Bool.eq_false_iff.2 (by simpa using hearlier)

end

/-! Coolant (R465). -/

section
variable {s u : State} {num : Int} {den n x : Nat}

theorem coolantEvaluate_waits (h : s.variant ≠ .ahn4W ∨ s.therm.samples < 1024) : s.coolantEvaluate = s :=
  if_pos (by simpa using h)

section
variable (hvariant : s.variant = .ahn4W) (hsamples : 1024 ≤ s.therm.samples)
  (hnum : num = s.therm.riseSum * (697 * s.flow) - 400 * s.therm.powerSum) (hden : den = 697 * s.flow * s.therm.samples)
  (hn : n = (if (s.getF THM_COOLANT_CTRL THM_COOLANT_CTRL_threshold : Int) * den < num then min 16 (s.therm.declineCount + 1) else 0))
  (hx : x = min 1023 (num / den).toNat)
  (hu : u = { s.setF THM_COOLANT THM_COOLANT_excess x with
    therm := { s.therm with samples := 0, riseSum := 0, powerSum := 0, declineCount := n } })
include hvariant hsamples hnum hden hn hx hu

theorem coolantEvaluate_eq : s.coolantEvaluate = if n = 16 && !s.flag THM_COOLANT THM_COOLANT_decline then
    (u.setB THM_COOLANT THM_COOLANT_decline true).raise evCoolantDecline 255 0 0 x 0 0 0 else u := by
  have hgo : ¬ (decide (s.variant ≠ .ahn4W) || decide (s.therm.samples < 1024)) = true := by
    simp [hvariant, Nat.not_lt.2 hsamples]
  have hflag : (s.setF THM_COOLANT THM_COOLANT_excess x).flag THM_COOLANT THM_COOLANT_decline =
      s.flag THM_COOLANT THM_COOLANT_decline := flag_setF_fld s _ _ (by decide) (by decide)
  have hcount : n = (if decide ((s.getF THM_COOLANT_CTRL THM_COOLANT_CTRL_threshold : Int) * den < num) then
      min 16 (s.therm.declineCount + 1) else 0) := by
    rw [hn]
    simp only [decide_eq_true_eq]
  rw [← hflag]
  subst hu hx hcount hden hnum
  exact if_neg hgo

theorem coolantEvaluate_shows (h : n < 16 ∨ s.flag THM_COOLANT THM_COOLANT_decline = true) : s.coolantEvaluate = u := by
  refine (coolantEvaluate_eq hvariant hsamples hnum hden hn hx hu).trans (if_neg ?_)
  rcases h with h | h
  · rw [decide_eq_false (Nat.ne_of_lt h), Bool.false_and]
    exact Bool.false_ne_true
  · rw [h, Bool.not_true, Bool.and_false]
    exact Bool.false_ne_true

theorem coolantEvaluate_declines (hfull : n = 16) (hnew : s.flag THM_COOLANT THM_COOLANT_decline = false) :
    s.coolantEvaluate = (u.setB THM_COOLANT THM_COOLANT_decline true).raise evCoolantDecline 255 0 0 x 0 0 0 :=
  (coolantEvaluate_eq hvariant hsamples hnum hden hn hx hu).trans
    (if_pos (by rw [decide_eq_true hfull, hnew]; rfl))

end

end

/-- Settles O53: the forecast with and without a recess point ahead, its request and length, and the coolant. -/
theorem forecastAndCoolant : Obligations.ForecastAndCoolant := by
  unfold Obligations.ForecastAndCoolant
  intro s hon
  refine ⟨fun h => live_next hon (forecast_idle h), fun u g a peaks ps hps hsome hpeaks hlargest hu =>
      ⟨fun hnone => live_next hon (forecast_shows hps hsome hpeaks hlargest hu hnone),
        fun r hnext => live_next hon (forecast_asks hps hsome hpeaks hlargest hu hnext)⟩,
    fun l g a => largestOf_spec, fun ctr r peaks => thermalRequest_none,
    fun ctr r peaks g a n k hlimit hlargest hn hk => thermalRequest_forecast hlimit hlargest hn hk,
    fun ctr r peaks g a => thermalRequest_limit, fun ctr n r => ?length, rfl, fun h => live_next hon (coolantEvaluate_waits h),
    fun num den n x u hvariant hsamples hnum hden hn hx hu =>
      ⟨fun h => live_next hon (coolantEvaluate_shows hvariant hsamples hnum hden hn hx hu h),
        fun hfull hnew => live_next hon (coolantEvaluate_declines hvariant hsamples hnum hden hn hx hu hfull hnew)⟩⟩
  case length =>
    obtain ⟨hone, hmost, hbefore, hcool⟩ := recessLength_spec s ctr n r
    exact ⟨hone, hmost, fun k hk hless => not_keepsCool (hbefore k hk hless), fun hless => keepsCool_iff.1 (hcool hless)⟩

end Sys2Proof.Machine
end

