-- ==== Sys2Proof/Proofs/Substitution.lean ====
section
/-! Declared tile failures and the substitution of a seat (20 R486-R494). -/

namespace Sys2Proof.Machine

/-! Declared failures (R486, R487). -/

section
variable {s : State} {lt test : Nat}

theorem present_index (h : s.present lt = true) : lt < 256 := by
  rw [State.present, Bool.and_eq_true, decide_eq_true_eq] at h
  exact h.1

theorem tileFailure_declares (hpresent : s.present lt = true) (hnew : s.bring.substs.any (fun x => x.lt == lt) = false) :
    s.tileFailure lt test = { s.declareHalt (s.partOfLt lt) hcTile with
      bring := { (s.declareHalt (s.partOfLt lt) hcTile).bring with
        substs := (s.declareHalt (s.partOfLt lt) hcTile).bring.substs ++
          [{ lt := lt, test := test, bell := s.bellCount + boolNat (s.courseGoes (s.partOfLt lt)) }] } } :=
  if_neg (by rw [hpresent, hnew]; exact Bool.false_ne_true)

theorem tileFailure_known (hknown : s.bring.substs.any (fun x => x.lt == lt) = true) : s.tileFailure lt test = s :=
  if_pos (by rw [hknown, Bool.or_true])

theorem errorsThreshold_absent (habsent : s.present lt = false) : s.errorsThreshold lt = s :=
  if_pos (by rw [habsent]; rfl)

section
variable (hpresent : s.present lt = true)
include hpresent

theorem errorsThreshold_reached (hth : s.getF BRG_SUB_CTRL BRG_SUB_CTRL_threshold ≠ 0)
    (hmany : (s.tile lt).errBase + s.getF BRG_SUB_CTRL BRG_SUB_CTRL_threshold ≤ s.tileErrors lt)
    (hin : s.bellCount < (s.tile lt).errBell + 1024) : s.errorsThreshold lt = s.tileFailure lt 0 := by
  refine (if_neg (by rw [hpresent]; exact Bool.false_ne_true)).trans (if_pos ?_)
  rw [Bool.and_eq_true, Bool.and_eq_true, decide_eq_true_eq, decide_eq_true_eq, decide_eq_true_eq]
  exact ⟨⟨hth, by omega⟩, hin⟩

/-- A window that has passed starts again. -/
theorem errorsThreshold_restarts (hpast : (s.tile lt).errBell + 1024 ≤ s.bellCount) :
    s.errorsThreshold lt = s.modTile lt (fun t => { t with errBase := s.tileErrors lt, errBell := s.bellCount }) := by
  refine (if_neg (by rw [hpresent]; exact Bool.false_ne_true)).trans ((if_neg ?_).trans (if_pos ?_))
  · rw [decide_eq_false (Nat.not_lt.2 hpast), Bool.and_false]
    exact Bool.false_ne_true
  · rw [decide_eq_true hpast]
    rfl

theorem errorsThreshold_off (hoff : s.getF BRG_SUB_CTRL BRG_SUB_CTRL_threshold = 0) (hin : s.bellCount < (s.tile lt).errBell + 1024)
    (hkept : (s.tile lt).errBase ≤ s.tileErrors lt) : s.errorsThreshold lt = s := by
  refine (if_neg (by rw [hpresent]; exact Bool.false_ne_true)).trans ((if_neg ?_).trans (if_neg ?_))
  · rw [decide_eq_false (not_not.2 hoff), Bool.false_and, Bool.false_and]
    exact Bool.false_ne_true
  · rw [decide_eq_false (Nat.not_le.2 hin), decide_eq_false (Nat.not_lt.2 hkept)]
    exact Bool.false_ne_true

end

/-! The turn of a substitution (R487, R489). -/

theorem firstDue_iff : s.firstDue lt = true ↔ (∀ y ∈ s.bring.substs, y.lt / 16 = lt / 16 → lt ≤ y.lt) ∧
    ∀ y ∈ s.bring.substs, y.lt = lt → y.bell ≤ s.bellCount := by
  simp only [State.firstDue, Bool.and_eq_true, List.all_eq_true, Bool.or_eq_true, bne_iff_ne, decide_eq_true_eq, ne_eq,
    ← imp_iff_not_or]

theorem substitutionDone_takes {x : Subst} (hfind : s.bring.substs.find? (fun y => y.lt == lt) = some x) : s.substitutionDone lt =
    ({ s with bring := { s.bring with substs := s.bring.substs.filter (fun y => y.lt != lt) } } : State).substitute lt x.test := by
  rw [State.substitutionDone, hfind]

theorem substitutionDone_none (hfind : s.bring.substs.find? (fun y => y.lt == lt) = none) : s.substitutionDone lt = s := by
  rw [State.substitutionDone, hfind]

end

/-! What the rest of a substitution leaves: the courses, the attendance list, the seats and the page area's setting. -/

def planReg (a : Nat) : Prop := (0xf00000010400 ≤ a ∧ a < 0xf00000010800) ∨ a = TRN_AREA

def KeepsPlan (s t : State) : Prop :=
  t.crs = s.crs ∧ t.bring.carry.seats = s.bring.carry.seats ∧ ∀ a, planReg a → t.reg a = s.reg a

section
variable {s t u : State} {lt : Nat}

theorem KeepsPlan.refl (s : State) : KeepsPlan s s := ⟨rfl, rfl, fun _ _ => rfl⟩

theorem KeepsPlan.trans (h : KeepsPlan s t) (h' : KeepsPlan t u) : KeepsPlan s u := by
  obtain ⟨hcrs, hseats, hreg⟩ := h
  obtain ⟨hcrs', hseats', hreg'⟩ := h'
  exact ⟨hcrs'.trans hcrs, hseats'.trans hseats, fun a ha => (hreg' a ha).trans (hreg a ha)⟩

theorem KeepsPlan.ite {c : Prop} [Decidable c] (ht : KeepsPlan s t) (hu : KeepsPlan s u) : KeepsPlan s (if c then t else u) := by
  split
  · exact ht
  · exact hu

theorem LoadsOnly.keepsPlan {A : Nat → Prop} (h : LoadsOnly A s t) (hA : ∀ a, planReg a → ¬ A a) : KeepsPlan s t :=
  ⟨(congrArg State.crs h.1).trans rfl, (congrArg (fun u : State => u.bring.carry.seats) h.1).trans rfl, fun a ha => h.2 a (hA a ha)⟩

theorem planReg_quiet {a : Nat} (ha : planReg a) : eventReg a = false := by
  refine eventReg_low ?_
  unfold planReg TRN_AREA at ha
  unfold EVT_RING_TAIL
  omega

theorem Reports.keepsPlan (h : Reports s t) : KeepsPlan s t :=
  ⟨(congrArg State.crs h.1).trans rfl, (congrArg (fun u : State => u.bring.carry.seats) h.1).trans rfl,
    fun a ha => h.2 a (planReg_quiet ha)⟩

theorem LoadsLocals.keepsPlan (h : LoadsLocals s t) : KeepsPlan s t :=
  ⟨(congrArg State.crs h.1).trans rfl, (congrArg (fun u : State => u.bring.carry.seats) h.1).trans rfl,
    fun a _ => (congrArg (State.reg · a) h.1).trans rfl⟩

/-- Registers that show a form. -/
def formReg (f a : Nat) : Prop := a = STK_FORM_STATUS f ∨ (∃ k, k < 18 ∧ (a = BRG_SEAT (18 * f + k) ∨ a = MESH_ERRORS_SEAT (18 * f + k))) ∨
  a = ARI_SUMMARY

theorem showFormStatus_loads (s : State) (f : Nat) (excluded : Bool) : LoadsOnly (formReg f) s (s.showFormStatus f excluded) := by
  have hstatus : LoadsOnly (formReg f) s (s.setReg (STK_FORM_STATUS f) (BitVec.ofNat 32 (s.deadMask f +
      2 ^ 18 * (if excluded then 0 else min 2 (s.freeSeats f).length) +
      2 ^ 20 * boolNat (!excluded && (if excluded then 0 else min 2 (s.freeSeats f).length) == 0) + 2 ^ 21 * boolNat excluded +
      2 ^ 22 * boolNat (s.isolated f)))) := (LoadsOnly.refl _ s).setReg (.inl rfl) _
  refine (hstatus.forEach fun u k hk => ?_).setReg (.inr (.inr rfl)) _
  have hk18 := List.mem_range.1 hk
  exact ((LoadsOnly.refl _ u).setReg (.inr (.inl ⟨k, hk18, .inl rfl⟩)) _).setB (.inr (.inl ⟨k, hk18, .inr rfl⟩)) _ _

theorem formReg_plan {f a : Nat} (hf : f < 16) (ha : planReg a) : ¬ formReg f a := by
  unfold planReg TRN_AREA at ha
  rintro (h | ⟨k, hk, h | h⟩ | h)
  · unfold STK_FORM_STATUS at h
    omega
  · unfold BRG_SEAT at h
    omega
  · unfold MESH_ERRORS_SEAT at h
    omega
  · unfold ARI_SUMMARY at h
    omega

theorem showFormStatus_keepsPlan (s : State) {f : Nat} (hf : f < 16) (excluded : Bool) : KeepsPlan s (s.showFormStatus f excluded) :=
  (showFormStatus_loads s f excluded).keepsPlan fun _ ha => formReg_plan hf ha

/-- Registers that show the engines of a tile. -/
def engineReg (lt a : Nat) : Prop := a = MXE_STATUS_LT lt ∨ a = MXE_PROGRESS_LT lt ∨ a = VE_STATUS_LT lt ∨ a = VE_PROGRESS_LT lt ∨
  a = GC_PATCH_LT lt ∨ a = MXE_REPAIR_ROW_LT lt ∨ a = MXE_REPAIR_COL_LT lt ∨ ∃ c, c < 64 ∧ a = GC_STATUS (64 * lt + c)

theorem engineReg_plan {a : Nat} (hlt : lt < 256) (ha : planReg a) : ¬ engineReg lt a := by
  unfold planReg TRN_AREA at ha
  unfold engineReg MXE_STATUS_LT MXE_PROGRESS_LT VE_STATUS_LT VE_PROGRESS_LT GC_PATCH_LT MXE_REPAIR_ROW_LT MXE_REPAIR_COL_LT GC_STATUS
  rintro (h | h | h | h | h | h | h | ⟨c, hc, h⟩) <;> omega

theorem clearEngineRegs_loads (s : State) (lt : Nat) : LoadsOnly (engineReg lt) s (s.clearEngineRegs lt) := by
  have hmxe : engineReg lt (MXE_STATUS_LT lt) := .inl rfl
  have hpass : engineReg lt (MXE_PROGRESS_LT lt) := .inr (.inl rfl)
  have hve : engineReg lt (VE_STATUS_LT lt) := .inr (.inr (.inl rfl))
  have hrun : engineReg lt (VE_PROGRESS_LT lt) := .inr (.inr (.inr (.inl rfl)))
  have hpatch : engineReg lt (GC_PATCH_LT lt) := .inr (.inr (.inr (.inr (.inl rfl))))
  refine LoadsOnly.forEach ?_ fun u c hc => ?_
  · exact (((((((((((LoadsOnly.refl _ s).setB hmxe _ _).setB hmxe _ _).setF hmxe _ _).setF hmxe _ _).setF hmxe _ _).setB hpass _
      _).setB hve _ _).setB hve _ _).setF hve _ _).setB hrun _ _).setF hpatch _ _
  · have hcore : engineReg lt (GC_STATUS (64 * lt + c)) :=
      .inr (.inr (.inr (.inr (.inr (.inr (.inr ⟨c, List.mem_range.1 hc, rfl⟩))))))
    dsimp only
    exact (((((LoadsOnly.refl _ u).setB hcore _ _).setB hcore _ _).setB hcore _ _).setB hcore _ _).setB hcore _ _

theorem loadExclusions_loads (s : State) (lt : Nat) : LoadsOnly (engineReg lt) s (s.loadExclusions lt) :=
  LoadsOnly.ite (((LoadsOnly.refl _ s).setReg (.inr (.inr (.inr (.inr (.inr (.inl rfl)))))) _).setReg
    (.inr (.inr (.inr (.inr (.inr (.inr (.inl rfl))))))) _) (LoadsOnly.refl _ s)

theorem freshTile_keepsPlan (s : State) (hlt : lt < 256) : KeepsPlan s (s.freshTile lt) := by
  have hcleared : ∀ u : State, KeepsPlan u (u.clearEngines lt) := fun u =>
    (KeepsPlan.trans ⟨rfl, rfl, fun _ _ => rfl⟩ ((clearEngineRegs_loads _ lt).keepsPlan fun _ ha => engineReg_plan hlt ha))
  have hmem : KeepsPlan s { s with mem := tbClear s.mem lt } := ⟨rfl, rfl, fun _ _ => rfl⟩
  exact ((hmem.trans (hcleared _)).trans (loadLocal_loads _ lt _).keepsPlan).trans
    ((loadExclusions_loads _ lt).keepsPlan fun _ ha => engineReg_plan hlt ha)

/-! The steps of a substitution (R487-R494). -/

/-- The tile stands in seat index k of its form. -/
def State.takeSeat (s : State) (lt k : Nat) : State :=
  (s.setF (STK_SEAT_LT lt) STK_SEAT_LT_seat k).incF (STK_SEAT_LT lt) STK_SEAT_LT_moves 1

/-- An exam of seat m ends. -/
def State.endExamOf (s : State) (m : Nat) : State :=
  (if s.bring.autoSeat = some m then
      ({ s with bring := { s.bring with autoSeat := none } } : State).setB BRG_EXAM_STATUS BRG_EXAM_STATUS_active s.bring.exam.isSome
    else s).stopExam m

/-- The area of the tile is lost, where there are areas. -/
def State.loseArea (s : State) (lt : Nat) : State :=
  if s.flag TRN_AREA TRN_AREA_enable then s.setB (TRN_STATUS_LT lt) TRN_STATUS_LT_area_lost true else s

/-- Everything but the announcement of a substitution, from the new seat on. -/
def State.movedTo (s : State) (lt k : Nat) : State :=
  (((((s.takeSeat lt k).showFormStatus (ltForm lt) false).endExamOf (18 * ltForm lt + k)).freshTile lt).loseLockers lt true)

/-- The log and the events of a substitution. -/
def State.tellMove (s : State) (lt old new : Nat) : State :=
  let f := ltForm lt
  let s := s.writeCarry.logAppend logSUBSTITUTION 0xFF 0 0 [old, new, s.writeCarry.spares f, 0]
  let s := s.raise evSubstitution (s.partOfLt lt) 1 lt old new (s.spares f) 0
  if s.spares f = 0 then s.raise evFormShort (s.partOfLt lt) 5 f 0 0 0 0 else s

variable {test k : Nat}

theorem substitute_moves (hnext : (s.setSeat (s.seatOf lt) 2 test 0).nextSubstitute (ltForm lt) = some k) :
    s.substitute lt test = ((((s.setSeat (s.seatOf lt) 2 test 0).movedTo lt k).loseArea lt).setEvacPending lt true).tellMove lt
      (s.seatOf lt) (18 * ltForm lt + k) := by
  unfold State.substitute
  dsimp only
  rw [hnext]
  rfl

theorem substitute_unseats (hnext : (s.setSeat (s.seatOf lt) 2 test 0).nextSubstitute (ltForm lt) = none) :
    Reports ((((s.setSeat (s.seatOf lt) 2 test 0).putSeat lt 31).showFormStatus (ltForm lt) false).writeCarry.logAppend
      logSUBSTITUTION 0xFF 0 0 [s.seatOf lt, 0xFFFF, 0, 0]) (s.substitute lt test) := by
  unfold State.substitute
  dsimp only
  rw [hnext]
  exact reports_raise _ _ _ _ _ _ _ _ (Reports.refl _)

theorem bringUp_keepsPlan (s : State) (kind stage step detail : Nat) (body : List Nat) :
    KeepsPlan s (s.writeCarry.logAppend kind stage step detail body) := ⟨rfl, rfl, fun _ _ => rfl⟩

theorem bringUp_mem (s : State) (kind stage step detail : Nat) (body : List Nat) :
    (s.writeCarry.logAppend kind stage step detail body).mem = s.mem := rfl

theorem Reports.mem_eq (h : Reports s t) : t.mem = s.mem := (congrArg State.mem h.1).trans rfl

theorem tellMove_keepsPlan (s : State) (lt old new : Nat) : KeepsPlan s (s.tellMove lt old new) ∧
    ∀ a, eventReg a = false → (s.tellMove lt old new).reg a = s.reg a := by
  have hlog := bringUp_keepsPlan s logSUBSTITUTION 0xFF 0 0 [old, new, s.writeCarry.spares (ltForm lt), 0]
  have hreport : Reports (s.writeCarry.logAppend logSUBSTITUTION 0xFF 0 0 [old, new, s.writeCarry.spares (ltForm lt), 0])
      (s.tellMove lt old new) := by
    unfold State.tellMove
    dsimp only
    split
    · exact reports_raise _ _ _ _ _ _ _ _ (reports_raise _ _ _ _ _ _ _ _ (Reports.refl _))
    · exact reports_raise _ _ _ _ _ _ _ _ (Reports.refl _)
  exact ⟨hlog.trans hreport.keepsPlan, fun a ha => hreport.2 a ha⟩

theorem endExamOf_keepsPlan (s : State) (m : Nat) : KeepsPlan s (s.endExamOf m) := by
  have hend : KeepsPlan s (({ s with bring := { s.bring with autoSeat := none } } : State).setB BRG_EXAM_STATUS BRG_EXAM_STATUS_active
      s.bring.exam.isSome) := by
    refine ⟨rfl, rfl, fun a ha => (reg_setB_other _ _ _ ?_).trans rfl⟩
    unfold planReg TRN_AREA at ha
    unfold BRG_EXAM_STATUS
    omega
  exact (hend.ite (KeepsPlan.refl s)).trans ⟨rfl, rfl, fun _ _ => rfl⟩

theorem movedTo_keepsPlan (s : State) (hlt : lt < 256) (k : Nat) : KeepsPlan (s.takeSeat lt k) (s.movedTo lt k) := by
  have hf : ltForm lt < 16 := Nat.div_lt_of_lt_mul hlt
  exact (((showFormStatus_keepsPlan _ hf false).trans (endExamOf_keepsPlan _ _)).trans (freshTile_keepsPlan _ hlt)).trans
    ⟨rfl, rfl, fun _ _ => rfl⟩

theorem loseArea_loads (s : State) (lt : Nat) : LoadsOnly (· = TRN_STATUS_LT lt) s (s.loseArea lt) :=
  LoadsOnly.ite ((LoadsOnly.refl (· = TRN_STATUS_LT lt) s).setB rfl _ _) (LoadsOnly.refl _ s)

theorem seatIdx_keeps (h : KeepsPlan s t) {n : Nat} (hn : n < 256) : t.seatIdx n = s.seatIdx n :=
  congrArg (fldGet · STK_SEAT_LT_seat) (h.2.2 _ (.inl (by unfold STK_SEAT_LT; omega)))

theorem seatStatus_keeps (h : KeepsPlan s t) (m : Nat) : t.seatStatus m = s.seatStatus m := by
  obtain ⟨-, hseats, -⟩ := h
  rw [State.seatStatus, State.seatEntry, hseats, State.seatStatus, State.seatEntry]

theorem seatStatus_setSeat (s : State) (m : Nat) {status test passes : Nat} (hstatus : status < 4) :
    (s.setSeat m status test passes).seatStatus m = status := by
  have hentry : (s.setSeat m status test passes).seatEntry m =
      s.seatEntry m / 1024 * 1024 + status + 4 * (test % 64) + 256 * (passes % 4) :=
    (tgetD_tput s.bring.carry.seats m m _ seatEntry0).trans (if_pos rfl)
  rw [State.seatStatus, hentry, bitsAt, pow_zero, Nat.div_one]
  omega

theorem takeSeat_seats (s : State) (hk : k < 32) : (s.takeSeat lt k).seatIdx lt = k ∧ ∀ n, n ≠ lt → (s.takeSeat lt k).seatIdx n = s.seatIdx n := by
  refine ⟨(getF_setF_fld _ _ _ (by decide) (.inr (by decide))).trans (getF_setF_lt s _ (by decide) hk), fun n hn => ?_⟩
  have hne : STK_SEAT_LT n ≠ STK_SEAT_LT lt := by unfold STK_SEAT_LT; omega
  exact (getF_setF_reg _ _ _ _ hne).trans (getF_setF_reg s _ _ _ hne)

theorem putSeat_seats (s : State) (hk : k < 32) : (s.putSeat lt k).seatIdx lt = k ∧ ∀ n, n ≠ lt → (s.putSeat lt k).seatIdx n = s.seatIdx n := by
  refine ⟨getF_setF_lt s _ (by decide) hk, fun n hn => getF_setF_reg s _ _ _ ?_⟩
  unfold STK_SEAT_LT
  omega

theorem takeSeat_reg {a : Nat} (ha : a ≠ STK_SEAT_LT lt) : (s.takeSeat lt k).reg a = s.reg a := by
  rw [State.takeSeat, State.incF, reg_setF, if_neg ha, reg_setF, if_neg ha]

theorem nextSubstitute_lt {f : Nat} (h : s.nextSubstitute f = some k) : k < 32 :=
  (by decide : ∀ j ∈ substituteOrder, j < 32) k (List.mem_of_find?_eq_some h)

section
variable (hpresent : s.present lt = true)
include hpresent

/-- What holds after a substitution that found a seat. -/
theorem substitute_moved (hnext : (s.setSeat (s.seatOf lt) 2 test 0).nextSubstitute (ltForm lt) = some k) (ht : t = s.substitute lt test) :
    t.seatStatus (s.seatOf lt) = 2 ∧ t.seatIdx lt = k ∧ t.evacPending lt = true ∧
      (s.flag TRN_AREA TRN_AREA_enable = true → t.flag (TRN_STATUS_LT lt) TRN_STATUS_LT_area_lost = true) ∧
      (∀ n, n < 256 → n ≠ lt → t.seatIdx n = s.seatIdx n) ∧ t.crs = s.crs := by
  have hlt := present_index hpresent
  have hk := nextSubstitute_lt hnext
  rw [ht, substitute_moves hnext]
  obtain ⟨htold, htoldReg⟩ := tellMove_keepsPlan ((((s.setSeat (s.seatOf lt) 2 test 0).movedTo lt k).loseArea lt).setEvacPending lt true)
    lt (s.seatOf lt) (18 * ltForm lt + k)
  generalize State.tellMove _ lt (s.seatOf lt) (18 * ltForm lt + k) = v at htold htoldReg ⊢
  have hmoved := movedTo_keepsPlan (s.setSeat (s.seatOf lt) 2 test 0) hlt k
  have harea : KeepsPlan ((s.setSeat (s.seatOf lt) 2 test 0).movedTo lt k) (((s.setSeat (s.seatOf lt) 2 test 0).movedTo lt k).loseArea lt) :=
    (loseArea_loads _ lt).keepsPlan fun a ha h => by
      unfold planReg TRN_AREA at ha
      unfold TRN_STATUS_LT at h
      omega
  have hevac : ∀ u : State, KeepsPlan u (u.setEvacPending lt true) := fun u => ⟨rfl, rfl, fun a ha => reg_setB_other _ _ _ (by
    unfold planReg TRN_AREA at ha
    unfold BRG_EVAC_PENDING
    omega)⟩
  have hall := ((hmoved.trans harea).trans (hevac _)).trans htold
  obtain ⟨hself, hothers⟩ := takeSeat_seats (lt := lt) (s.setSeat (s.seatOf lt) 2 test 0) hk
  refine ⟨(seatStatus_keeps hall _).trans (seatStatus_setSeat s (s.seatOf lt) (by decide)), (seatIdx_keeps hall hlt).trans hself, ?_,
    fun henable => ?_, fun n hn hne => (seatIdx_keeps hall hn).trans (hothers n hne), hall.1⟩
  · have hquiet : eventReg (BRG_EVAC_PENDING (lt / 32)) = false :=
      eventReg_between (by unfold BRG_EVAC_PENDING; omega) (by unfold BRG_EVAC_PENDING; omega)
    have hmod : lt % 32 < 32 := Nat.mod_lt _ (by decide)
    exact (congrArg (fun w => fldGet w ⟨lt % 32, 1⟩ != 0) (htoldReg _ hquiet)).trans
      (flag_setB _ (BRG_EVAC_PENDING (lt / 32)) true hmod Nat.one_pos)
  · have hquiet : eventReg (TRN_STATUS_LT lt) = false := eventReg_low (by unfold TRN_STATUS_LT EVT_RING_TAIL; omega)
    have hset : ((s.setSeat (s.seatOf lt) 2 test 0).movedTo lt k).flag TRN_AREA TRN_AREA_enable = true := by
      have hreg : ((s.setSeat (s.seatOf lt) 2 test 0).movedTo lt k).reg TRN_AREA = s.reg TRN_AREA :=
        (hmoved.2.2 _ (.inr rfl)).trans (takeSeat_reg (by unfold TRN_AREA STK_SEAT_LT; omega))
      exact (congrArg (fun w => fldGet w TRN_AREA_enable != 0) hreg).trans henable
    refine (congrArg (fun w => fldGet w TRN_STATUS_LT_area_lost != 0) (htoldReg _ hquiet)).trans ?_
    refine (flag_setB_reg _ _ _ _ (by unfold TRN_STATUS_LT BRG_EVAC_PENDING; omega)).trans ?_
    rw [State.loseArea, if_pos hset]
    exact flag_setB _ _ true (by decide) (by decide)

/-- What holds after one that found none. -/
theorem substitute_unseated (hnext : (s.setSeat (s.seatOf lt) 2 test 0).nextSubstitute (ltForm lt) = none) (ht : t = s.substitute lt test) :
    t.seatStatus (s.seatOf lt) = 2 ∧ t.present lt = false ∧ (∀ n, n < 256 → n ≠ lt → t.seatIdx n = s.seatIdx n) ∧ t.mem = s.mem ∧
      t.crs = s.crs := by
  have hlt := present_index hpresent
  have hf : ltForm lt < 16 := Nat.div_lt_of_lt_mul hlt
  have hreport := substitute_unseats hnext
  rw [← ht] at hreport
  have hshown := showFormStatus_loads ((s.setSeat (s.seatOf lt) 2 test 0).putSeat lt 31) (ltForm lt) false
  have hall := ((showFormStatus_keepsPlan ((s.setSeat (s.seatOf lt) 2 test 0).putSeat lt 31) hf false).trans
    (bringUp_keepsPlan _ logSUBSTITUTION 0xFF 0 0 [s.seatOf lt, 0xFFFF, 0, 0])).trans hreport.keepsPlan
  obtain ⟨hgone, hothers⟩ := putSeat_seats (lt := lt) (k := 31) (s.setSeat (s.seatOf lt) 2 test 0) (by decide)
  have hself : t.seatIdx lt = 31 := (seatIdx_keeps hall hlt).trans hgone
  have hmem : t.mem = (((s.setSeat (s.seatOf lt) 2 test 0).putSeat lt 31).showFormStatus (ltForm lt) false).mem :=
    hreport.mem_eq.trans (bringUp_mem _ _ _ _ _ _)
  refine ⟨(seatStatus_keeps hall _).trans (seatStatus_setSeat s (s.seatOf lt) (by decide)), ?_,
    fun n hn hne => (seatIdx_keeps hall hn).trans (hothers n hne), hmem.trans ((congrArg State.mem hshown.1).trans rfl), hall.1⟩
  rw [State.present, hself]
  exact Bool.and_false _

end

end

/-- Settles O54: failures as they are declared, the turn of a substitution, and the plan after it. -/
theorem substitution : Obligations.Substitution := by
  unfold Obligations.Substitution
  intro s lt test hon
  refine ⟨fun hpresent hnew => live_next hon ((if_pos hpresent).trans (tileFailure_declares hpresent hnew)), fun hknown => live_next hon ?known,
    fun habsent => ⟨live_next hon (if_neg (by rw [habsent]; exact Bool.false_ne_true)), live_next hon (errorsThreshold_absent habsent)⟩,
    fun th hth hpresent hne hmany hin => ?reached,
    fun hpresent hpast => live_next hon (errorsThreshold_restarts hpresent hpast),
    fun hpresent hoff hin hkept => live_next hon (errorsThreshold_off hpresent hoff hin hkept),
    fun x hfind hlow hbell => live_next hon ((if_pos (firstDue_iff.2 ⟨hlow, hbell⟩)).trans (substitutionDone_takes hfind)),
    fun ⟨y, hy, hform, hless⟩ => live_next hon (if_neg fun hdue => absurd ((firstDue_iff.1 hdue).1 y hy hform) (Nat.not_le.2 hless)),
    fun ⟨y, hy, hsame, hlate⟩ => live_next hon (if_neg fun hdue => absurd ((firstDue_iff.1 hdue).2 y hy hsame) (Nat.not_le.2 hlate)),
    fun hfind => live_next hon ?none, fun k t hpresent _ hnext ht => substitute_moved hpresent hnext ht,
    fun t hpresent _ hnext ht => substitute_unseated hpresent hnext ht⟩
  case known => rw [tileFailure_known hknown, ite_self]
  case reached =>
    subst hth
    exact live_next hon (errorsThreshold_reached hpresent hne hmany hin)
  case none => rw [substitutionDone_none hfind, ite_self]

end Sys2Proof.Machine
end

