-- ==== Sys2Proof/Proofs/RegisterKinds.lean ====
section
/-! Which kind a register is of, for the registers that come in numbers (00 R12), and what a plain write does to it. -/

namespace Sys2Proof.Machine

/-- The last address of a kind. -/
def RegKind.last (k : RegKind) : Nat := k.base + k.s1 * (k.n1 - 1) + k.s2 * (k.n2 - 1)

/-- The greatest step that the addresses of both kinds keep. -/
def RegKind.step (k l : RegKind) : Nat := Nat.gcd (Nat.gcd k.s1 k.s2) (Nat.gcd l.s1 l.s2)

/-- No address is of both kinds: their spans are disjoint, or they lie on one grid at different offsets. -/
def RegKind.apart (k l : RegKind) : Bool :=
  decide (k.last < l.base) || decide (l.last < k.base) || decide (k.base % k.step l ≠ l.base % k.step l)

/-- Every other kind lies apart from this one. -/
def RegKind.alone (k : RegKind) : Bool := regKinds.all (fun l => l == k || k.apart l)

section
variable {k l : RegKind} {a : Nat}

theorem RegKind.has_span (h : k.has a = true) : k.base ≤ a ∧ a ≤ k.last ∧ ∃ m, a = k.base + Nat.gcd k.s1 k.s2 * m := by
  rw [RegKind.has, Bool.and_eq_true, Bool.and_eq_true, Bool.and_eq_true, decide_eq_true_eq, decide_eq_true_eq, decide_eq_true_eq,
    beq_iff_eq] at h
  obtain ⟨⟨⟨hlow, hi⟩, hj⟩, hgrid⟩ := h
  have hrow := Nat.div_add_mod (a - k.base) k.s1
  have hcell := Nat.div_add_mod ((a - k.base) % k.s1) k.s2
  rw [hgrid, Nat.add_zero] at hcell
  have hlast : a ≤ k.last := by
    have hi' := Nat.mul_le_mul_left k.s1 (Nat.le_sub_one_of_lt hi)
    have hj' := Nat.mul_le_mul_left k.s2 (Nat.le_sub_one_of_lt hj)
    rw [RegKind.last]
    omega
  have hrest : Nat.gcd k.s1 k.s2 ∣ (a - k.base) % k.s1 := (Nat.gcd_dvd_right _ _).trans (Nat.dvd_of_mod_eq_zero hgrid)
  obtain ⟨m, hm⟩ := (Nat.dvd_mod_iff (Nat.gcd_dvd_left _ _)).1 hrest
  exact ⟨hlow, hlast, m, by omega⟩

theorem RegKind.not_has_of_apart (h : k.apart l = true) (hk : k.has a = true) : l.has a = false := by
  rw [RegKind.apart, Bool.or_eq_true, Bool.or_eq_true, decide_eq_true_eq, decide_eq_true_eq, decide_eq_true_eq] at h
  by_contra hl
  obtain ⟨hlow, hhigh, m, hm⟩ := k.has_span hk
  obtain ⟨hlow', hhigh', m', hm'⟩ := l.has_span (Bool.of_not_eq_false hl)
  have hgrid : ∀ {d b g n : Nat}, d ∣ g → (b + g * n) % d = b % d := fun hd => by
    obtain ⟨q, rfl⟩ := hd
    rw [Nat.mul_assoc, Nat.add_mul_mod_self_left]
  obtain (hbefore | hafter) | hoff := h
  · omega
  · omega
  · have hleft := hgrid (b := k.base) (n := m) (Nat.gcd_dvd_left (Nat.gcd k.s1 k.s2) (Nat.gcd l.s1 l.s2))
    have hright := hgrid (b := l.base) (n := m') (Nat.gcd_dvd_right (Nat.gcd k.s1 k.s2) (Nat.gcd l.s1 l.s2))
    exact hoff (hleft.symm.trans ((congrArg (· % _) (hm.symm.trans hm')).trans hright))

/-- The kind of an address is the one it is of, where every other kind lies apart from it. -/
theorem regKind_of_has (hmem : k ∈ regKinds) (hapart : k.alone = true) (hk : k.has a = true) : regKind a = some k := by
  rw [regKind]
  cases hfind : regKinds.find? (·.has a) with
  | none => exact absurd hk (List.find?_eq_none.1 hfind k hmem)
  | some l =>
    have hcase := List.all_eq_true.1 hapart l (List.mem_of_find?_eq_some hfind)
    rw [Bool.or_eq_true, beq_iff_eq] at hcase
    obtain rfl | hfar := hcase
    · rfl
    · exact absurd (List.find?_some hfind) (by rw [RegKind.not_has_of_apart hfar hk]; exact Bool.false_ne_true)

/-- An address of a kind, by its indices. -/
theorem RegKind.has_of_index {i j : Nat} (ha : a = k.base + k.s1 * i + k.s2 * j) (hi : i < k.n1) (hj : j < k.n2) (hrow : k.s2 * k.n2 ≤ k.s1)
    (hs : 0 < k.s2) : k.has a = true := by
  have hin : k.s2 * j < k.s1 := lt_of_lt_of_le ((Nat.mul_lt_mul_left hs).2 hj) hrow
  have hoff : a - k.base = k.s2 * j + k.s1 * i := by omega
  have hs1 : 0 < k.s1 := lt_of_le_of_lt (Nat.zero_le _) hin
  have hdiv : (k.s2 * j + k.s1 * i) / k.s1 = i := by
    rw [Nat.add_mul_div_left _ _ hs1, Nat.div_eq_of_lt hin, Nat.zero_add]
  have hmod : (k.s2 * j + k.s1 * i) % k.s1 = k.s2 * j := by
    rw [Nat.add_mul_mod_self_left, Nat.mod_eq_of_lt hin]
  rw [RegKind.has, hoff, hdiv, hmod, Nat.mul_div_cancel_left _ hs, Nat.mul_mod_right]
  simp [hi, hj, ha, Nat.add_assoc]

end

/-! What a plain write loads. -/

section
variable {k : RegKind} {a : Nat}

theorem regWritten_of_rw_zero (hk : k.rw = 0) (old w now : Word) :
    regWritten k old w now = old &&& ~~~(w &&& BitVec.ofNat 32 k.w1c &&& ~~~now) := by
  rw [regWritten, hk, BitVec.and_zero, BitVec.not_zero, BitVec.and_allOnes, BitVec.or_zero]

/-- A write of a register whose only bits that take a write are write-1-to-clear. -/
theorem plainWrite_clears (h : regKind a = some k) (hk : k.rw = 0) (s : State) (w now : Word) :
    s.plainWrite a w now = s.setReg a (s.reg a &&& ~~~(w &&& BitVec.ofNat 32 k.w1c &&& ~~~now)) := by
  rw [plainWrite_of_regKind h, regWritten_of_rw_zero hk]

/-- A write of a register without such bits. -/
theorem plainWrite_loads (h : regKind a = some k) (hk : k.w1c = 0) (s : State) (w now : Word) :
    s.plainWrite a w now = s.setReg a ((s.reg a &&& ~~~BitVec.ofNat 32 k.rw) ||| (w &&& BitVec.ofNat 32 k.rw)) := by
  rw [plainWrite_of_regKind h, regWritten_of_w1c_zero hk]

end

/-! The kinds that the statements about registers need. -/

def kindAriFlagsLt : RegKind := ⟨0xf00000030400, 256, 0x4, 1, 0x4, 0x0, 0x0, 0x707, 0x0, 0x0⟩
def kindAriFlagsPort : RegKind := ⟨0xf00000030800, 6, 0x4, 1, 0x4, 0x0, 0x0, 0x7, 0x0, 0x0⟩
def kindMovStatusLt : RegKind := ⟨0xf000000a0000, 256, 0x80, 8, 0x10, 0x0, 0x0, 0x600, 0x400, 0x0⟩
def kindMemFaultHi : RegKind := ⟨0xf000000d000c, 4, 0x10, 1, 0x10, 0x0, 0x0, 0x80000000, 0x0, 0x0⟩
def kindTrnStatusLt : RegKind := ⟨0xf000000f0400, 256, 0x10, 1, 0x10, 0x0, 0x2, 0x0, 0x0, 0x0⟩
def kindPortState : RegKind := ⟨0xf00000110000, 6, 0x40, 1, 0x40, 0x40, 0x40, 0x0, 0x0, 0x0⟩
def kindCmdRingBaseLo : RegKind := ⟨0xf00000130000, 64, 0x40, 1, 0x40, 0x0, 0xfffff000, 0x0, 0x0, 0x0⟩
def kindCmdRingCfg : RegKind := ⟨0xf00000130008, 64, 0x40, 1, 0x40, 0x10000, 0xf3fff, 0x0, 0x0, 0x0⟩
def kindEvtRingCfg : RegKind := ⟨0xf00000140008, 8, 0x20, 1, 0x20, 0x0, 0x1ff03ff, 0x0, 0x0, 0x0⟩
def kindPwrForm : RegKind := ⟨0xf00000160100, 16, 0x4, 1, 0x4, 0x9b12, 0x0, 0x20, 0x40, 0x0⟩
def kindEvacPending : RegKind := ⟨0xf00000180040, 8, 0x4, 1, 0x4, 0x0, 0x0, 0xffffffff, 0xffffffff, 0x0⟩

theorem regKind_ariFlagsLt {n : Nat} (hn : n < 256) : regKind (ARI_FLAGS_LT n) = some kindAriFlagsLt :=
  regKind_of_has (by decide) (by decide) (RegKind.has_of_index (j := 0) rfl hn Nat.one_pos (by decide) (by decide))

theorem regKind_ariFlagsPort {p : Nat} (hp : p < 6) : regKind (ARI_FLAGS_PORT p) = some kindAriFlagsPort :=
  regKind_of_has (by decide) (by decide) (RegKind.has_of_index (j := 0) rfl hp Nat.one_pos (by decide) (by decide))

theorem regKind_movStatusLt {lt c : Nat} (hlt : lt < 256) (hc : c < 8) : regKind (MOV_STATUS_LT lt c) = some kindMovStatusLt :=
  regKind_of_has (by decide) (by decide) (RegKind.has_of_index rfl hlt hc (by decide) (by decide))

theorem regKind_memFaultHi {l : Nat} (hl : l < 4) : regKind (MEM_FAULT_HI l) = some kindMemFaultHi :=
  regKind_of_has (by decide) (by decide) (RegKind.has_of_index (j := 0) rfl hl Nat.one_pos (by decide) (by decide))

theorem regKind_trnStatusLt {lt : Nat} (hlt : lt < 256) : regKind (TRN_STATUS_LT lt) = some kindTrnStatusLt :=
  regKind_of_has (by decide) (by decide) (RegKind.has_of_index (j := 0) rfl hlt Nat.one_pos (by decide) (by decide))

theorem regKind_portState {p : Nat} (hp : p < 6) : regKind (PORT_STATE p) = some kindPortState :=
  regKind_of_has (by decide) (by decide) (RegKind.has_of_index (j := 0) rfl hp Nat.one_pos (by decide) (by decide))

theorem regKind_cmdRingBaseLo {r : Nat} (hr : r < 64) : regKind (CMD_RING_BASE_LO r) = some kindCmdRingBaseLo :=
  regKind_of_has (by decide) (by decide) (RegKind.has_of_index (j := 0) rfl hr Nat.one_pos (by decide) (by decide))

theorem regKind_cmdRingCfg {r : Nat} (hr : r < 64) : regKind (CMD_RING_CFG r) = some kindCmdRingCfg :=
  regKind_of_has (by decide) (by decide) (RegKind.has_of_index (j := 0) rfl hr Nat.one_pos (by decide) (by decide))

theorem regKind_evtRingCfg {e : Nat} (he : e < 8) : regKind (EVT_RING_CFG e) = some kindEvtRingCfg :=
  regKind_of_has (by decide) (by decide) (RegKind.has_of_index (j := 0) rfl he Nat.one_pos (by decide) (by decide))

theorem regKind_pwrForm {f : Nat} (hf : f < 16) : regKind (PWR_FORM f) = some kindPwrForm :=
  regKind_of_has (by decide) (by decide) (RegKind.has_of_index (j := 0) rfl hf Nat.one_pos (by decide) (by decide))

theorem regKind_evacPending {i : Nat} (hi : i < 8) : regKind (BRG_EVAC_PENDING i) = some kindEvacPending :=
  regKind_of_has (by decide) (by decide) (RegKind.has_of_index (j := 0) rfl hi Nat.one_pos (by decide) (by decide))

end Sys2Proof.Machine
end

