-- ==== Sys2Proof/Proofs/RegisterClears.lean ====
section
/-! Writes that clear (02 R85, 03 R113, R115, 09 R280, 00 R12, R13). -/

namespace Sys2Proof.Machine

/-! The summary of the arithmetic flags (03 R113). -/

section
variable {s : State} {a n p : Nat}

theorem ariFlagsLt_ne_summary : ARI_FLAGS_LT n ≠ ARI_SUMMARY := by
  unfold ARI_FLAGS_LT ARI_SUMMARY
  omega

theorem ariFlagsPort_ne_summary : ARI_FLAGS_PORT p ≠ ARI_SUMMARY := by
  unfold ARI_FLAGS_PORT ARI_SUMMARY
  omega

/-- The summary is made from other registers than its own. -/
theorem ariAny_setSummary (s : State) (w : Word) : (s.setReg ARI_SUMMARY w).ariAny = s.ariAny := by
  have hforms : (List.range 256).filter (fun n => !(s.setReg ARI_SUMMARY w).excluded (ltForm n)) =
      (List.range 256).filter (fun n => !s.excluded (ltForm n)) := by
    refine List.filter_congr fun n hn => congrArg (! ·) ?_
    have hne : STK_FORM_STATUS (ltForm n) ≠ ARI_SUMMARY := by
      have hlt := List.mem_range.1 hn
      unfold ltForm STK_FORM_STATUS ARI_SUMMARY
      omega
    exact congrArg (fldGet · STK_FORM_STATUS_excluded != 0) ((reg_setReg _ _ _ _).trans (if_neg hne))
  simp only [State.ariAny, hforms, reg_setReg, ariFlagsLt_ne_summary, ariFlagsPort_ne_summary, if_false]

/-- After a summing up the summary is the OR of what is left. -/
theorem ariResum_sums (s : State) : s.ariResum.reg ARI_SUMMARY = BitVec.ofNat 32 s.ariResum.ariAny ∧
    LoadsOnly (· = ARI_SUMMARY) s s.ariResum := by
  refine ⟨?_, (LoadsOnly.refl (· = ARI_SUMMARY) s).setReg rfl _⟩
  rw [State.ariResum, ariAny_setSummary, reg_setReg, if_pos rfl]

theorem ariAny_of_clear (hlt : ∀ n < 256, s.reg (ARI_FLAGS_LT n) = 0) (hport : ∀ p < 6, s.reg (ARI_FLAGS_PORT p) = 0) : s.ariAny = 0 := by
  have htiles : ((List.range 256).filter (fun n => !s.excluded (ltForm n))).foldl
      (fun v n => Nat.lor v ((s.reg (ARI_FLAGS_LT n)).toNat % 8)) 0 = 0 :=
    foldl_keeps_mem (P := (· = 0)) _ (fun v n hn hv => by
      rw [hv, hlt n (List.mem_range.1 (List.mem_filter.1 hn).1)]
      rfl) rfl
  have hports : (List.range 6).foldl (fun v p => Nat.lor v ((s.reg (ARI_FLAGS_PORT p)).toNat % 8)) 0 = 0 :=
    foldl_keeps_mem (P := (· = 0)) _ (fun v p hp hv => by
      rw [hv, hport p (List.mem_range.1 hp)]
      rfl) rfl
  rw [State.ariAny, htiles, hports]

/-! ARI_SUMMARY.clear_all. -/

/-- Every flag register of a list cleared. -/
def State.clearEach (s : State) (reg : Nat → Nat) (n : Nat) : State :=
  forEach (List.range n) s (fun s i => s.setReg (reg i) 0)

theorem clearEach_clears (s : State) (reg : Nat → Nat) (n : Nat) : ∀ k < n, (s.clearEach reg n).reg (reg k) = 0 :=
  forEach_range_all (P := fun k (u : State) => u.reg (reg k) = 0) (fun u i => (reg_setReg _ _ _ _).trans (if_pos rfl))
    (fun u i j h => by
      rw [reg_setReg, h]
      exact ite_self _) n s

theorem clearEach_loads (s : State) (reg : Nat → Nat) (n : Nat) : LoadsOnly (fun a => ∃ i < n, a = reg i) s (s.clearEach reg n) :=
  (LoadsOnly.refl _ s).forEach fun u i hi => (LoadsOnly.refl _ u).setReg ⟨i, List.mem_range.1 hi, rfl⟩ 0

/-- The registers that clear_all writes. -/
def ariReg (a : Nat) : Prop := a = ARI_SUMMARY ∨ a = ARI_FIRST ∨ (∃ n < 256, a = ARI_FLAGS_LT n) ∨ ∃ p < 6, a = ARI_FLAGS_PORT p

/-- The flags and the first cause, cleared. -/
def State.clearFlags (s : State) : State := ((s.clearEach ARI_FLAGS_LT 256).clearEach ARI_FLAGS_PORT 6).setReg ARI_FIRST 0

theorem clearFlags_clears (s : State) : (∀ n < 256, s.clearFlags.reg (ARI_FLAGS_LT n) = 0) ∧
    (∀ p < 6, s.clearFlags.reg (ARI_FLAGS_PORT p) = 0) ∧ s.clearFlags.reg ARI_FIRST = 0 := by
  have hfirst : ∀ {a}, a ≠ ARI_FIRST → s.clearFlags.reg a = ((s.clearEach ARI_FLAGS_LT 256).clearEach ARI_FLAGS_PORT 6).reg a :=
    fun h => (reg_setReg _ _ _ _).trans (if_neg h)
  refine ⟨fun n hn => ?_, fun p hp => ?_, (reg_setReg _ _ _ _).trans (if_pos rfl)⟩
  · refine (hfirst (by unfold ARI_FLAGS_LT ARI_FIRST; omega)).trans (((clearEach_loads _ ARI_FLAGS_PORT 6).2 _ ?_).trans
      (clearEach_clears s ARI_FLAGS_LT 256 n hn))
    rintro ⟨p, -, h⟩
    unfold ARI_FLAGS_LT ARI_FLAGS_PORT at h
    omega
  · exact (hfirst (by unfold ARI_FLAGS_PORT ARI_FIRST; omega)).trans (clearEach_clears _ ARI_FLAGS_PORT 6 p hp)

theorem writeAriSummary_clears {w : Word} (hw : fldGet w ARI_SUMMARY_clear_all = 1) : s.writeAriSummary w = s.clearFlags.ariResum :=
  if_pos hw

theorem clearAll_shows (s : State) : (∀ n < 256, s.clearFlags.ariResum.reg (ARI_FLAGS_LT n) = 0) ∧
    (∀ p < 6, s.clearFlags.ariResum.reg (ARI_FLAGS_PORT p) = 0) ∧ s.clearFlags.ariResum.reg ARI_SUMMARY = 0 ∧
    s.clearFlags.ariResum.reg ARI_FIRST = 0 ∧ LoadsOnly ariReg s s.clearFlags.ariResum := by
  obtain ⟨htiles, hports, hfirst⟩ := clearFlags_clears s
  have hkept : ∀ {a}, a ≠ ARI_SUMMARY → s.clearFlags.ariResum.reg a = s.clearFlags.reg a := fun h => (ariResum_sums _).2.2 _ h
  have hloads : LoadsOnly ariReg s s.clearFlags :=
    (((clearEach_loads s ARI_FLAGS_LT 256).mono fun _ h => .inr (.inr (.inl h))).trans
      ((clearEach_loads _ ARI_FLAGS_PORT 6).mono fun _ h => .inr (.inr (.inr h)))).setReg (.inr (.inl rfl)) 0
  refine ⟨fun n hn => (hkept ariFlagsLt_ne_summary).trans (htiles n hn), fun p hp => (hkept ariFlagsPort_ne_summary).trans (hports p hp),
    ?_, (hkept (by decide)).trans hfirst, hloads.trans ((ariResum_sums _).2.mono fun _ h => .inl h)⟩
  rw [State.ariResum, reg_setReg, if_pos rfl, ariAny_of_clear htiles hports]
  rfl

/-! The flags of one tile or port. -/

theorem writeAriFlags_clears {k : RegKind} (hkind : regKind a = some k) (hk : k.rw = 0) (ha : a ≠ ARI_SUMMARY) (w now : Word) :
    (s.writeAriFlags a w now).reg a = s.reg a &&& ~~~(w &&& BitVec.ofNat 32 k.w1c &&& ~~~now) ∧
      (s.writeAriFlags a w now).reg ARI_SUMMARY = BitVec.ofNat 32 (s.writeAriFlags a w now).ariAny ∧
      s.writeAriFlags a w now = { s with regs := (s.writeAriFlags a w now).regs } ∧
      ∀ b, b ≠ ARI_SUMMARY → b ≠ a → (s.writeAriFlags a w now).reg b = s.reg b := by
  obtain ⟨hsum, hloads⟩ := ariResum_sums (s.plainWrite a w now)
  have hplain := plainWrite_clears hkind hk s w now
  have hall : LoadsOnly (fun b => b = ARI_SUMMARY ∨ b = a) s (s.writeAriFlags a w now) := by
    refine LoadsOnly.trans ?_ (hloads.mono fun _ h => .inl h)
    rw [hplain]
    exact (LoadsOnly.refl _ s).setReg (.inr rfl) _
  refine ⟨(hloads.2 a ha).trans ?_, hsum, hall.1, fun b hb hne => hall.2 b (not_or.2 ⟨hb, hne⟩)⟩
  rw [hplain, reg_setReg, if_pos rfl]

theorem execAriFlagClear_tile (hn : n < 256) (hin : s.excluded (ltForm n) = false) (w now : Word) :
    exec (.ariFlagClear false n ⟨w, now⟩) s = live s (s.writeAriFlags (ARI_FLAGS_LT n) w now) := by
  have hserved : (n < 256 && !s.excluded (ltForm n)) = true := by
    rw [hin, decide_eq_true hn]
    rfl
  exact congrArg (live s) (if_pos hserved)

theorem execAriFlagClear_port (hp : p < 6) (w now : Word) :
    exec (.ariFlagClear true p ⟨w, now⟩) s = live s (s.writeAriFlags (ARI_FLAGS_PORT p) w now) := congrArg (live s) (if_pos hp)

end

/-- Settles O57: the clears of chapter 02 and 09, the arithmetic flags, and the write-1-to-clear bits of single registers. -/
theorem registerClears : Obligations.RegisterClears := by
  unfold Obligations.RegisterClears
  intro s w now hon
  refine ⟨fun hw => live_next hon (if_pos hw), fun hw => live_next hon (if_pos hw), fun hw => live_next hon (if_pos hw),
    fun hw => gives_of_live hon (congrArg (live s) (writeAriSummary_clears hw)) ?all,
    fun n hn hin => gives_of_live hon (execAriFlagClear_tile hn hin w now)
      (writeAriFlags_clears (regKind_ariFlagsLt hn) rfl ariFlagsLt_ne_summary w now),
    fun p hp => gives_of_live hon (execAriFlagClear_port hp w now)
      (writeAriFlags_clears (regKind_ariFlagsPort hp) rfl ariFlagsPort_ne_summary w now),
    fun l hl => live_next hon ((if_pos hl).trans (plainWrite_clears (regKind_memFaultHi hl) rfl s w now)),
    fun f hf => live_next hon ((if_pos hf).trans (plainWrite_clears (regKind_pwrForm hf) rfl s w now)),
    fun i hi => live_next hon ((if_pos hi).trans ((plainWrite_clears (regKind_evacPending hi) rfl s w now).trans ?evac)),
    live_next hon (plainWrite_clears (k := ⟨REG_ACCESS_ERR, 1, 0x4, 1, 0x4, 0x0, 0x0, 0x80000000, 0x0, 0xffff⟩) (by decide) rfl s w now),
    live_next hon (plainWrite_clears (k := ⟨THM_COOLANT, 1, 0x4, 1, 0x4, 0x80000000, 0x0, 0x40000000, 0x0, 0x0⟩) (by decide) rfl s w now),
    fun lt c hlt hc hin => live_next hon ((if_pos (by rw [hin]; simp [hlt, hc])).trans
      (plainWrite_clears (regKind_movStatusLt hlt hc) rfl s w now))⟩
  case all =>
    obtain ⟨htiles, hports, hsum, hfirst, hloads⟩ := clearAll_shows s
    refine ⟨htiles, hports, hsum, hfirst, hloads.1, fun a hs hf ht hp => hloads.2 a ?_⟩
    rintro (h | h | ⟨n, hn, h⟩ | ⟨p, hp', h⟩)
    · exact hs h
    · exact hf h
    · exact ht n hn h
    · exact hp p hp' h
  case evac =>
    have hones : BitVec.ofNat 32 kindEvacPending.w1c = BitVec.allOnes 32 := by decide
    rw [hones, BitVec.and_allOnes]

end Sys2Proof.Machine
end

