-- ==== Sys2Proof/Proofs/RegisterRules.lean ====
section
/-! Registers that take a write only under a condition (09 R264, 10 R300, 11 R312, 12 R350, 14 R395, 15 R396, R415, 19 R460). -/

namespace Sys2Proof.Machine

/-! A field that a write loads reads as it was written. -/

theorem fldGet_loaded (old w mask : Word) (f : Fld) (hf : f.lo + f.len ≤ 32) (hmask : ∀ i < f.len, mask.toNat.testBit (f.lo + i) = true) :
    fldGet ((old &&& ~~~mask) ||| (w &&& mask)) f = fldGet w f := by
  refine Nat.eq_of_testBit_eq fun i => ?_
  rw [fldGet_bit, fldGet_bit]
  by_cases hi : i < f.len
  · have hbit : mask.getLsbD (f.lo + i) = true := hmask i hi
    have hlow : f.lo + i < 32 := by omega
    have hload : ((old &&& ~~~mask) ||| (w &&& mask)).getLsbD (f.lo + i) = w.getLsbD (f.lo + i) := by
      rw [BitVec.getLsbD_or, BitVec.getLsbD_and, BitVec.getLsbD_and, BitVec.getLsbD_not, hbit]
      simp
    exact congrArg (decide (i < f.len) && ·) hload
  · rw [decide_eq_false hi, Bool.false_and, Bool.false_and]

section
variable {s : State} {w : Word}

/-! While a course is loaded. -/

theorem writeTokenLimit_discarded (h : s.anyLoaded = true) : s.writeTokenLimit w = s := if_pos h

theorem writeTokenLimit_loads (h : s.anyLoaded = false) : s.writeTokenLimit w = s.setF NBU_TOKEN_LIMIT NBU_TOKEN_LIMIT_limit
    (min (fldGet w NBU_TOKEN_LIMIT_limit) (s.getF NBU_TOKEN_LIMIT NBU_TOKEN_LIMIT_max)) :=
  if_neg (by rw [h]; exact Bool.false_ne_true)

theorem writeFabPart_discarded (h : s.anyLoaded = true) : s.writeFabPart w = s := if_pos h

theorem writeFabPart_loads (h : s.anyLoaded = false) : s.writeFabPart w =
    s.setReg FAB_PART ((s.reg FAB_PART &&& ~~~0xFFF) ||| (w &&& 0xFFF)) :=
  (if_neg (by rw [h]; exact Bool.false_ne_true)).trans
    (plainWrite_loads (k := ⟨FAB_PART, 1, 0x4, 1, 0x4, 0x0, 0xfff, 0x0, 0x0, 0x0⟩) (by decide) rfl s w 0)

theorem writeFallback_discarded (h : s.anyLoaded = true) (lt : Nat) : s.writeFallback lt w = s := if_pos h

theorem writeFallback_loads (h : s.anyLoaded = false) {lt : Nat} (hlt : lt < 256) : s.writeFallback lt w =
    s.setReg (TRN_STATUS_LT lt) ((s.reg (TRN_STATUS_LT lt) &&& ~~~2) ||| (w &&& 2)) :=
  (if_neg (by rw [h]; exact Bool.false_ne_true)).trans (plainWrite_loads (regKind_trnStatusLt hlt) rfl s w 0)

/-! The shadow tables (11 R312). -/

/-- The shadow copies of a partition start or end with UPD_SHADOW.enable. -/
def State.shadowGroup (s : State) (p : Nat) : State :=
  (s.modGroup p (fun g => { g with shadowing := s.flag UPD_SHADOW UPD_SHADOW_enable })).showCopying p

/-- What the shadow copies of the first n partitions leave, where enable is e. -/
structure Shadowed (s t : State) (n : Nat) (e : Bool) : Prop where
  groups : ∀ p < n, t.group p = { s.group p with shadowing := e }
  copying : ∀ p < n, t.flag (UPD_STATE p) UPD_STATE_copying = (((s.group p).cmd.isSome && !(s.group p).copied) || e)
  others : ∀ p, n ≤ p → t.group p = s.group p
  frame : t = { s with regs := t.regs, groups := t.groups }
  regs : ∀ a, (∀ p < n, a ≠ UPD_STATE p) → t.reg a = s.reg a

theorem updState_ne_shadow (p : Nat) : UPD_SHADOW ≠ UPD_STATE p := by
  unfold UPD_SHADOW UPD_STATE
  omega

theorem Shadowed.next {t : State} {n : Nat} {e : Bool} (h : Shadowed s t n e) (he : s.flag UPD_SHADOW UPD_SHADOW_enable = e) :
    Shadowed s (t.shadowGroup n) (n + 1) e := by
  have henable : t.flag UPD_SHADOW UPD_SHADOW_enable = e :=
    (congrArg (fldGet · UPD_SHADOW_enable != 0) (h.regs _ fun p _ => updState_ne_shadow p)).trans he
  have hgroup : ∀ p, (t.shadowGroup n).group p = if p = n then { t.group n with shadowing := e } else t.group p := fun p => by
    rw [← henable]
    exact group_modGroup t n p (fun g => { g with shadowing := t.flag UPD_SHADOW UPD_SHADOW_enable })
  have hreg : ∀ a, a ≠ UPD_STATE n → (t.shadowGroup n).reg a = t.reg a := fun a ha => (reg_setB_other _ _ _ ha).trans rfl
  refine ⟨fun p hp => ?_, fun p hp => ?_, fun p hp => ?_, ?_, fun a ha => ?_⟩
  · rw [hgroup]
    split
    next hpn => rw [hpn, h.others n le_rfl]
    next hpn => exact h.groups p (by omega)
  · rw [State.shadowGroup, showCopying_copying, group_modGroup, if_pos rfl, henable]
    split
    next hpn => rw [hpn, h.others n le_rfl]
    next hpn => exact h.copying p (by omega)
  · rw [hgroup, if_neg (by omega), h.others p (by omega)]
  · refine Eq.trans (b := { t with regs := (t.shadowGroup n).regs, groups := (t.shadowGroup n).groups }) rfl ?_
    rw [h.frame]
  · rw [hreg a (ha n (Nat.lt_succ_self n)), h.regs a fun p hp => ha p (Nat.lt_succ_of_lt hp)]

theorem shadowGroups_shadowed (s : State) (n : Nat) :
    Shadowed s (forEach (List.range n) s State.shadowGroup) n (s.flag UPD_SHADOW UPD_SHADOW_enable) := by
  induction n with
  | zero => exact ⟨fun p hp => absurd hp (Nat.not_lt_zero p), fun p hp => absurd hp (Nat.not_lt_zero p), fun _ _ => rfl, rfl, fun _ _ => rfl⟩
  | succ n ih =>
    rw [forEach_range_succ]
    exact ih.next rfl

/-- The word that a write of UPD_SHADOW leaves. -/
def State.shadowWord (s : State) (w : Word) : Word := (s.reg UPD_SHADOW &&& ~~~0x800003FF) ||| (w &&& 0x800003FF)

theorem writeShadow_discarded (h : s.anyLoaded = true ∨ 0x3F7 < fldGet w UPD_SHADOW_base) : s.writeShadow w = s :=
  if_pos (by rwa [Bool.or_eq_true, decide_eq_true_eq])

theorem writeShadow_loads (h : s.anyLoaded = false) (hbase : fldGet w UPD_SHADOW_base ≤ 0x3F7) : s.writeShadow w =
    forEach (List.range s.partCount) (s.setReg UPD_SHADOW (s.shadowWord w)) State.shadowGroup := by
  have hplain : s.plainWrite UPD_SHADOW w 0 = s.setReg UPD_SHADOW (s.shadowWord w) :=
    plainWrite_loads (k := ⟨UPD_SHADOW, 1, 0x4, 1, 0x4, 0x0, 0x800003ff, 0x0, 0x0, 0x0⟩) (by decide) rfl s w 0
  have hparts : (s.setReg UPD_SHADOW (s.shadowWord w)).partCount = s.partCount :=
    congrArg (fldGet · CMD_PART_count) ((reg_setReg _ _ _ _).trans (if_neg (by decide)))
  refine (if_neg ?_).trans ?_
  · rw [h, decide_eq_false (Nat.not_lt.2 hbase)]
    exact Bool.false_ne_true
  · rw [hplain]
    exact congrArg (fun n => forEach (List.range n) (s.setReg UPD_SHADOW (s.shadowWord w)) State.shadowGroup) hparts

/-- What a write of UPD_SHADOW that is taken leaves. -/
theorem writeShadow_shows (h : s.anyLoaded = false) (hbase : fldGet w UPD_SHADOW_base ≤ 0x3F7) {t : State} (ht : t = s.writeShadow w) :
    t.reg UPD_SHADOW = s.shadowWord w ∧
      (∀ p g, p < s.partCount → g = s.group p → t.group p = { g with shadowing := decide (fldGet w UPD_SHADOW_enable = 1) } ∧
        t.flag (UPD_STATE p) UPD_STATE_copying = ((g.cmd.isSome && !g.copied) || decide (fldGet w UPD_SHADOW_enable = 1))) ∧
      (∀ p, s.partCount ≤ p → t.group p = s.group p) ∧ t = { s with regs := t.regs, groups := t.groups } ∧
      ∀ a, a ≠ UPD_SHADOW → (∀ p < s.partCount, a ≠ UPD_STATE p) → t.reg a = s.reg a := by
  have hword : (s.setReg UPD_SHADOW (s.shadowWord w)).reg UPD_SHADOW = s.shadowWord w := (reg_setReg _ _ _ _).trans (if_pos rfl)
  have henable : (s.setReg UPD_SHADOW (s.shadowWord w)).flag UPD_SHADOW UPD_SHADOW_enable = decide (fldGet w UPD_SHADOW_enable = 1) := by
    have hbit : fldGet (s.shadowWord w) UPD_SHADOW_enable = fldGet w UPD_SHADOW_enable :=
      fldGet_loaded _ _ _ _ (by decide) (by decide)
    have hlt : fldGet w UPD_SHADOW_enable < 2 := Nat.mod_lt _ (by decide)
    rw [State.flag, State.getF, hword, hbit, Bool.eq_iff_iff, bne_iff_ne, decide_eq_true_eq]
    omega
  have hall := shadowGroups_shadowed (s.setReg UPD_SHADOW (s.shadowWord w)) s.partCount
  rw [← writeShadow_loads h hbase, ← ht, henable] at hall
  refine ⟨(hall.regs _ fun p _ => updState_ne_shadow p).trans hword, fun p g hp hg => ?_, hall.others, ?_,
    fun a hne hparts => (hall.regs a hparts).trans ((reg_setReg _ _ _ _).trans (if_neg hne))⟩
  · rw [hg]
    exact ⟨hall.groups p hp, hall.copying p hp⟩
  · exact hall.frame

/-! The rings (14 R395, 15 R396, R415). -/

variable {a cfg r e : Nat} {enable : Fld}

theorem writeRingCfg_enabled (h : s.flag a enable = true) : s.writeRingCfg a enable w = s.setF a enable (fldGet w enable) := if_pos h

theorem writeRingCfg_disabled (h : s.flag a enable = false) : s.writeRingCfg a enable w = s.plainWrite a w 0 :=
  if_neg (by rw [h]; exact Bool.false_ne_true)

theorem writeRingBase_enabled (h : s.flag cfg enable = true) : s.writeRingBase a cfg enable w = s := if_pos h

theorem writeRingBase_disabled (h : s.flag cfg enable = false) : s.writeRingBase a cfg enable w = s.plainWrite a w 0 :=
  if_neg (by rw [h]; exact Bool.false_ne_true)

/-- A register of a command ring, by its offset in the ring's block. -/
theorem writeRings_cmd (hr : r < 64) {o : Nat} (ho : o < 0x40) (ha : a = CMD_RING_BASE_LO r + o) : s.writeRings a w 0 =
    if o = 8 then s.writeRingCfg a CMD_RING_CFG_enable w
    else if o < 8 then s.writeRingBase a (CMD_RING_CFG r) CMD_RING_CFG_enable w else s.plainWrite a w 0 := by
  have hoff : a - CMD_RING_BASE_LO 0 = 0x40 * r + o := by rw [ha]; unfold CMD_RING_BASE_LO; omega
  have hin : (decide (CMD_RING_BASE_LO 0 ≤ a) && decide (0x40 * r + o < 0x1000)) = true := by
    rw [Bool.and_eq_true, decide_eq_true_eq, decide_eq_true_eq, ha]
    unfold CMD_RING_BASE_LO
    omega
  have hplace : (0x40 * r + o) % 0x40 = o := by omega
  have hring : (0x40 * r + o) / 0x40 = r := by omega
  rw [State.writeRings]
  dsimp only
  rw [hoff, if_pos hin, hplace, hring]

/-- A register of a completion ring. -/
theorem writeRings_cpl (hr : r < 64) {o : Nat} (ho : o < 12) (ha : a = CPL_RING_BASE_LO r + o) : s.writeRings a w 0 =
    if o = 8 then s.writeRingCfg a CPL_RING_CFG_enable w
    else if o < 8 then s.writeRingBase a (CPL_RING_CFG r) CPL_RING_CFG_enable w else s.plainWrite a w 0 := by
  have hoff : a - CMD_RING_BASE_LO 0 = 0x1000 + 0x20 * r + o := by rw [ha]; unfold CMD_RING_BASE_LO CPL_RING_BASE_LO; omega
  have hbase : CMD_RING_BASE_LO 0 ≤ a := by rw [ha]; unfold CMD_RING_BASE_LO CPL_RING_BASE_LO; omega
  have hout : ¬ (decide (CMD_RING_BASE_LO 0 ≤ a) && decide (0x1000 + 0x20 * r + o < 0x1000)) = true := by
    rw [Bool.and_eq_true, decide_eq_true_eq, decide_eq_true_eq]
    omega
  have hin : (decide (CMD_RING_BASE_LO 0 ≤ a) && decide (0x1000 + 0x20 * r + o < 0x1800)) = true := by
    rw [Bool.and_eq_true, decide_eq_true_eq, decide_eq_true_eq]
    omega
  have hplace : (0x1000 + 0x20 * r + o) % 0x20 = o := by omega
  have hring : (0x1000 + 0x20 * r + o - 0x1000) / 0x20 = r := by omega
  rw [State.writeRings]
  dsimp only
  rw [hoff, if_neg hout, if_pos hin, hplace, hring]
  by_cases hcfg : o = 8
  · rw [if_pos hcfg, if_pos hcfg]
  · rw [if_neg hcfg, if_neg hcfg, if_neg (show ¬ o = 12 by omega)]

/-- The configuration register of an event ring. -/
theorem writeRings_evtCfg (he : e < 8) : s.writeRings (EVT_RING_CFG e) w 0 = s.writeRingCfg (EVT_RING_CFG e) EVT_RING_CFG_enable w := by
  have hcmd : ∀ n, n ≤ 0x1800 → ¬ (decide (CMD_RING_BASE_LO 0 ≤ EVT_RING_CFG e) &&
      decide (EVT_RING_CFG e - CMD_RING_BASE_LO 0 < n)) = true := fun n hn => by
    rw [Bool.and_eq_true, decide_eq_true_eq, decide_eq_true_eq]
    unfold CMD_RING_BASE_LO EVT_RING_CFG
    omega
  have hoff : EVT_RING_CFG e - EVT_RING_BASE_LO 0 = 0x20 * e + 8 := by unfold EVT_RING_CFG EVT_RING_BASE_LO; omega
  have hin : (decide (EVT_RING_BASE_LO 0 ≤ EVT_RING_CFG e) && decide (0x20 * e + 8 < 0x100)) = true := by
    rw [Bool.and_eq_true, decide_eq_true_eq, decide_eq_true_eq]
    unfold EVT_RING_BASE_LO EVT_RING_CFG
    omega
  rw [State.writeRings]
  dsimp only
  rw [if_neg (hcmd _ (by decide)), if_neg (hcmd _ le_rfl), hoff, if_pos hin, if_pos (by omega)]

/-- A register of a command or completion ring is served by the write of ring registers. -/
theorem execRingCfgWrite_ring (hlow : CMD_RING_BASE_LO 0 ≤ a) (hhigh : a < CMD_RING_BASE_LO 0 + 0x1800) :
    exec (.ringCfgWrite a w) s = live s (s.writeRings a w 0) := by
  refine congrArg (live s) (if_pos ?_)
  rw [decide_eq_true hlow, decide_eq_true hhigh]
  rfl

theorem execRingCfgWrite_evt (he : e < 8) :
    exec (.ringCfgWrite (EVT_RING_CFG e) w) s = live s (s.writeRingCfg (EVT_RING_CFG e) EVT_RING_CFG_enable w) := by
  rw [← writeRings_evtCfg he]
  refine congrArg (live s) (if_pos ?_)
  rw [decide_eq_true (show EVT_RING_BASE_LO 0 ≤ EVT_RING_CFG e by unfold EVT_RING_BASE_LO EVT_RING_CFG; omega),
    decide_eq_true (show EVT_RING_CFG e < EVT_RING_BASE_LO 0 + 0x100 by unfold EVT_RING_BASE_LO EVT_RING_CFG; omega)]
  exact Bool.or_true _

section
variable (hr : r < 64)
include hr

theorem execRingCfgWrite_cmdCfg : exec (.ringCfgWrite (CMD_RING_CFG r) w) s =
    live s (s.writeRingCfg (CMD_RING_CFG r) CMD_RING_CFG_enable w) := by
  rw [execRingCfgWrite_ring (by unfold CMD_RING_BASE_LO CMD_RING_CFG; omega) (by unfold CMD_RING_BASE_LO CMD_RING_CFG; omega),
    writeRings_cmd (o := 8) hr (by decide) (by unfold CMD_RING_BASE_LO CMD_RING_CFG; omega), if_pos rfl]

theorem execRingCfgWrite_cmdBase : exec (.ringCfgWrite (CMD_RING_BASE_LO r) w) s =
    live s (s.writeRingBase (CMD_RING_BASE_LO r) (CMD_RING_CFG r) CMD_RING_CFG_enable w) := by
  rw [execRingCfgWrite_ring (by unfold CMD_RING_BASE_LO; omega) (by unfold CMD_RING_BASE_LO; omega),
    writeRings_cmd (o := 0) hr (by decide) (Nat.add_zero _).symm, if_neg (by decide), if_pos (by decide)]

theorem execRingCfgWrite_cplCfg : exec (.ringCfgWrite (CPL_RING_CFG r) w) s =
    live s (s.writeRingCfg (CPL_RING_CFG r) CPL_RING_CFG_enable w) := by
  rw [execRingCfgWrite_ring (by unfold CMD_RING_BASE_LO CPL_RING_CFG; omega) (by unfold CMD_RING_BASE_LO CPL_RING_CFG; omega),
    writeRings_cpl (o := 8) hr (by decide) (by unfold CPL_RING_BASE_LO CPL_RING_CFG; omega), if_pos rfl]

theorem execRingCfgWrite_cplBase : exec (.ringCfgWrite (CPL_RING_BASE_LO r) w) s =
    live s (s.writeRingBase (CPL_RING_BASE_LO r) (CPL_RING_CFG r) CPL_RING_CFG_enable w) := by
  rw [execRingCfgWrite_ring (by unfold CMD_RING_BASE_LO CPL_RING_BASE_LO; omega) (by unfold CMD_RING_BASE_LO CPL_RING_BASE_LO; omega),
    writeRings_cpl (o := 0) hr (by decide) (Nat.add_zero _).symm, if_neg (by decide), if_pos (by decide)]

end

theorem writeHead_moves {head tail : Nat}
    (h : ringUsed (s.reg head).toNat w.toNat ≤ ringUsed (s.reg head).toNat (s.reg tail).toNat) : s.writeHead head tail w = s.setReg head w :=
  if_pos h

theorem writeHead_discarded {head tail : Nat}
    (h : ringUsed (s.reg head).toNat (s.reg tail).toNat < ringUsed (s.reg head).toNat w.toNat) : s.writeHead head tail w = s :=
  if_neg (Nat.not_le.2 h)

/-! The throttle limits (19 R460). -/

theorem clampLimit_lt (f : Fld) {default : Nat} (hdefault : default < 256) : clampLimit w f default < 256 := by
  rw [clampLimit]
  omega

theorem writeThrottle_shows (s : State) (w : Word) :
    (s.writeThrottle w).getF THM_THROTTLE_LIMIT THM_THROTTLE_LIMIT_cd = clampLimit w THM_THROTTLE_LIMIT_cd 95 ∧
      (s.writeThrottle w).getF THM_THROTTLE_LIMIT THM_THROTTLE_LIMIT_ml = clampLimit w THM_THROTTLE_LIMIT_ml 90 ∧
      (s.writeThrottle w).getF THM_THROTTLE_LIMIT THM_THROTTLE_LIMIT_bd = clampLimit w THM_THROTTLE_LIMIT_bd 95 ∧
      LoadsOnly (· = THM_THROTTLE_LIMIT) s (s.writeThrottle w) := by
  refine ⟨?_, ?_, getF_setF_lt _ _ (by decide) (clampLimit_lt _ (by decide)),
    (((LoadsOnly.refl (· = THM_THROTTLE_LIMIT) s).setF rfl _ _).setF rfl _ _).setF rfl _ _⟩
  · exact (getF_setF_fld _ _ _ (by decide) (.inr (by decide))).trans ((getF_setF_fld _ _ _ (by decide) (.inr (by decide))).trans
      (getF_setF_lt _ _ (by decide) (clampLimit_lt _ (by decide))))
  · exact (getF_setF_fld _ _ _ (by decide) (.inr (by decide))).trans (getF_setF_lt _ _ (by decide) (clampLimit_lt _ (by decide)))

end

/-- Settles O58: the registers of the course, the rings with their heads, and the throttle limits. -/
theorem registerRules : Obligations.RegisterRules := by
  unfold Obligations.RegisterRules
  intro s w hon
  refine ⟨fun hloaded => ⟨live_next hon (writeTokenLimit_discarded hloaded), live_next hon (writeShadow_discarded (.inl hloaded)),
      live_next hon (writeFabPart_discarded hloaded), fun lt => live_next hon ?fallback⟩,
    fun hfree => ⟨live_next hon (writeTokenLimit_loads hfree), live_next hon (writeFabPart_loads hfree),
      fun lt hlt hin => live_next hon ((if_pos (by rw [hin]; simp [hlt])).trans (writeFallback_loads hfree hlt)),
      fun e hbase he => gives_of_live hon rfl ?shadow, fun hbase => live_next hon (writeShadow_discarded (.inr hbase))⟩,
    fun r hr => ⟨fun hena => ⟨?cmdCfg, ?cmdBase⟩, fun hdis => ⟨?cmdCfgOff, ?cmdBaseOff⟩, fun hena => ⟨?cplCfg, ?cplBase⟩,
      fun h => live_next hon ((if_pos hr).trans (writeHead_moves h)), fun h => live_next hon ((if_pos hr).trans (writeHead_discarded h))⟩,
    fun e he => ⟨fun hena => ?evtCfg, fun hdis => ?evtCfgOff, fun h => live_next hon ((if_pos he).trans (writeHead_moves h)),
      fun h => live_next hon ((if_pos he).trans (writeHead_discarded h))⟩, gives_of_live hon rfl ?throttle⟩
  case fallback => rw [writeFallback_discarded hloaded, ite_self]
  case shadow =>
    subst he
    exact writeShadow_shows hfree hbase rfl
  case cmdCfg => rw [execRingCfgWrite_cmdCfg hr, writeRingCfg_enabled hena, live_on hon]
  case cmdBase => rw [execRingCfgWrite_cmdBase hr, writeRingBase_enabled hena, live_on hon]
  case cmdCfgOff =>
    rw [execRingCfgWrite_cmdCfg hr, writeRingCfg_disabled hdis, plainWrite_loads (regKind_cmdRingCfg hr) rfl, live_on hon]
    rfl
  case cmdBaseOff =>
    rw [execRingCfgWrite_cmdBase hr, writeRingBase_disabled hdis, plainWrite_loads (regKind_cmdRingBaseLo hr) rfl, live_on hon]
    rfl
  case cplCfg => rw [execRingCfgWrite_cplCfg hr, writeRingCfg_enabled hena, live_on hon]
  case cplBase => rw [execRingCfgWrite_cplBase hr, writeRingBase_enabled hena, live_on hon]
  case evtCfg => rw [execRingCfgWrite_evt he, writeRingCfg_enabled hena, live_on hon]
  case evtCfgOff =>
    rw [execRingCfgWrite_evt he, writeRingCfg_disabled hdis, plainWrite_loads (regKind_evtRingCfg he) rfl, live_on hon]
    rfl
  case throttle =>
    obtain ⟨hcd, hml, hbd, hloads⟩ := writeThrottle_shows s w
    exact ⟨hcd, hml, hbd, hloads.1, fun a ha => hloads.2 a ha⟩

end Sys2Proof.Machine
end

