-- ==== Sys2Proof/Proofs/RegisterAccesses.lean ====
section
/-! Reads of LO and HI pairs, and writes of registers by address (02 R85, 00 R12, 12 R350, 13 R354). -/

namespace Sys2Proof.Machine

/-! Reads of LO and HI pairs. -/

theorem loPairs_aligned {a : Nat} (h : a ∈ loPairs) : a % 4 = 0 := by
  unfold loPairs at h
  simp only [List.mem_append, List.mem_cons, List.not_mem_nil, or_false, List.mem_flatMap, List.mem_map, List.mem_range] at h
  obtain (((((h | h | h | h | h | h) | ⟨p, -, h | h | h | h | h | h⟩) | ⟨r, -, h | h | h⟩) | ⟨e, -, h⟩) | ⟨i, -, h⟩) | ⟨i, -, h⟩ := h
  all_goals
    simp only [BELL_COUNT_LO, BELL_RECESS_AT_LO, BELL_RECESS_TAKEN_LO, ENERGY_SNAP_BELL_LO, ENERGY_MODULE_LO, SEC_SERIAL_LO,
      BELL_CRS_BELLS_LO, BELL_CRS_HALT_LO, BELL_CRS_CKPT_LO, UPD_ACTIVE_AT_LO, ENERGY_PART_LO, MEM_FAULT_LO, CMD_RING_BASE_LO,
      CPL_RING_BASE_LO, ENERGY_RING_LO, EVT_RING_BASE_LO, PERF_LO, MOV_FAULT_ADDR_LO_LT] at h
    omega

section
variable {s t : State} {req a : Nat} {w : Word}

theorem accessGood_word (h : a % 4 = 0) : accessGood a 4 = true := by
  rw [accessGood, h]
  rfl

/-- A 32-bit read by a requester without a kept word for the register. -/
theorem accessRead_lo (h : a ∈ loPairs) (hnone : tfind s.shadows (shadowKey req a) = none) : s.accessRead req a 4 =
    ((s.regRead a).toNat, { s with shadows := tput s.shadows (shadowKey req (a + 4)) (s.regRead (a + 4)) }) := by
  rw [State.accessRead, accessGood_word (loPairs_aligned h), Bool.not_true, if_neg Bool.false_ne_true, if_neg (by decide), hnone]
  exact if_pos (List.elem_eq_true_of_mem h)

/-- A 32-bit read of a register of which the requester keeps a word. -/
theorem accessRead_kept (h : a % 4 = 0) (hsome : tfind s.shadows (shadowKey req a) = some w) :
    s.accessRead req a 4 = (w.toNat, { s with shadows := tdel s.shadows (shadowKey req a) }) := by
  rw [State.accessRead, accessGood_word h, Bool.not_true, if_neg Bool.false_ne_true, if_neg (by decide), hsome]

end

/-! A write of a register above the courses' blocks. -/

section
variable {s : State} {a p : Nat} {w now : Word}

theorem regTile_high (h : 0xf00000110000 ≤ a) : regTile a = none := by
  have hoff : 0x110000 ≤ a - regBase := by unfold regBase; omega
  have hbase : ¬ a < regBase := by unfold regBase; omega
  have hpast : ∀ {lo hi : Nat}, hi ≤ 0x110000 → ¬ (decide (lo ≤ a - regBase) && decide (a - regBase < hi)) = true := fun hhi => by
    rw [Bool.and_eq_true, decide_eq_true_eq, decide_eq_true_eq]
    omega
  rw [regTile, if_neg hbase, if_neg (hpast (by decide)), if_neg (hpast (by decide)), if_neg (hpast (by decide)), if_neg (hpast (by decide)),
    if_neg (hpast (by decide)), if_neg (hpast (by decide)), if_neg (hpast (by decide)), if_neg (hpast (by decide)),
    if_neg (hpast (by decide))]

/-- A register of the fabric ports or above, but FAB_PART and two of the thermal block, is of a port, of the Milbex Link, or of the rings
and what is plain. -/
theorem regWrite_high (h : 0xf00000110000 ≤ a) (hfab : a ≠ FAB_PART) (hlimit : a ≠ THM_THROTTLE_LIMIT) (hcoolant : a ≠ THM_COOLANT_CTRL) :
    s.regWrite a w now =
      if PORT_STATE 0 ≤ a && a ≤ PORT_STATE 5 && (regKind a == regKind (PORT_STATE 0)) then
        s.writePortState ((a - PORT_STATE 0) / (PORT_STATE 1 - PORT_STATE 0)) w
      else if a = MXL_STATE then s.writeMxlState w else s.writeRings a w now := by
  have hexcl : s.regExcluded a = false := by rw [State.regExcluded, regTile_high h]
  have hlow : ∀ {b : Nat}, b < 0xf00000110000 → a ≠ b := fun hb => by omega
  have hflags : ¬ ((ARI_FLAGS_LT 0 ≤ a && a ≤ ARI_FLAGS_LT 255) || (ARI_FLAGS_PORT 0 ≤ a && a ≤ ARI_FLAGS_PORT 5)) = true := by
    rw [Bool.or_eq_true, Bool.and_eq_true, Bool.and_eq_true, decide_eq_true_eq, decide_eq_true_eq, decide_eq_true_eq, decide_eq_true_eq]
    unfold ARI_FLAGS_LT ARI_FLAGS_PORT
    omega
  have htrn : ¬ (TRN_STATUS_LT 0 ≤ a && a ≤ TRN_STATUS_LT 255 && (a - TRN_STATUS_LT 0) % 16 = 0) = true := by
    rw [Bool.and_eq_true, Bool.and_eq_true, decide_eq_true_eq, decide_eq_true_eq]
    unfold TRN_STATUS_LT
    omega
  have hcool : ¬ (a = THM_COOLANT_CTRL && s.variant = .ahn4H) = true := by
    rw [decide_eq_false hcoolant]
    exact Bool.false_ne_true
  rw [State.regWrite, hexcl, if_neg Bool.false_ne_true, if_neg (hlow (by decide)), if_neg (hlow (by decide)), if_neg (hlow (by decide)),
    if_neg hflags, if_neg (hlow (by decide)), if_neg (hlow (by decide)), if_neg (hlow (by decide)), if_neg (hlow (by decide)),
    if_neg htrn, if_neg (hlow (by decide)), if_neg hfab, if_neg hlimit, if_neg hcool]

theorem regWrite_portState (hp : p < 6) : s.regWrite (PORT_STATE p) w now = s.writePortState p w := by
  have hport : (PORT_STATE 0 ≤ PORT_STATE p && PORT_STATE p ≤ PORT_STATE 5 && (regKind (PORT_STATE p) == regKind (PORT_STATE 0))) = true := by
    rw [regKind_portState hp, regKind_portState (by decide : 0 < 6), beq_self_eq_true, Bool.and_true, Bool.and_eq_true, decide_eq_true_eq,
      decide_eq_true_eq]
    unfold PORT_STATE
    omega
  have hindex : (PORT_STATE p - PORT_STATE 0) / (PORT_STATE 1 - PORT_STATE 0) = p := by
    unfold PORT_STATE
    omega
  rw [regWrite_high (by unfold PORT_STATE; omega) (by unfold PORT_STATE FAB_PART; omega)
    (by unfold PORT_STATE THM_THROTTLE_LIMIT; omega) (by unfold PORT_STATE THM_COOLANT_CTRL; omega), if_pos hport, hindex]

theorem regWrite_mxlState : s.regWrite MXL_STATE w now = s.writeMxlState w := by
  rw [regWrite_high (by decide) (by decide) (by decide) (by decide), if_neg (by decide), if_pos rfl]

/-- A write outside the blocks of the rings is plain. -/
theorem writeRings_plain (h : a < CMD_RING_BASE_LO 0 ∨ EVT_RING_BASE_LO 0 + 0x100 ≤ a) : s.writeRings a w now = s.plainWrite a w now := by
  have hcmd : ∀ n, n ≤ 0x1800 → ¬ (decide (CMD_RING_BASE_LO 0 ≤ a) && decide (a - CMD_RING_BASE_LO 0 < n)) = true := fun n hn => by
    rw [Bool.and_eq_true, decide_eq_true_eq, decide_eq_true_eq]
    unfold CMD_RING_BASE_LO EVT_RING_BASE_LO at *
    omega
  have hevt : ¬ (decide (EVT_RING_BASE_LO 0 ≤ a) && decide (a - EVT_RING_BASE_LO 0 < 0x100)) = true := by
    rw [Bool.and_eq_true, decide_eq_true_eq, decide_eq_true_eq]
    unfold CMD_RING_BASE_LO EVT_RING_BASE_LO at *
    omega
  rw [State.writeRings]
  dsimp only
  rw [if_neg (hcmd _ (by decide)), if_neg (hcmd _ le_rfl), if_neg hevt]

theorem regWrite_examCtrl : s.regWrite BRG_EXAM_CTRL w now = s.setReg BRG_EXAM_CTRL ((s.reg BRG_EXAM_CTRL &&& ~~~1) ||| (w &&& 1)) := by
  rw [regWrite_high (by decide) (by decide) (by decide) (by decide), if_neg (by decide), if_neg (by decide),
    writeRings_plain (.inr (by decide))]
  exact plainWrite_loads (k := ⟨BRG_EXAM_CTRL, 1, 0x4, 1, 0x4, 0x1, 0x1, 0x0, 0x0, 0x0⟩) (by decide) rfl s w now

theorem regWrite_bellCount : s.regWrite BELL_COUNT_LO w now = s.setReg BELL_COUNT_LO (s.reg BELL_COUNT_LO) := by
  have hexcl : s.regExcluded BELL_COUNT_LO = false := by rw [State.regExcluded, (by decide : regTile BELL_COUNT_LO = none)]
  have hplain : s.regWrite BELL_COUNT_LO w now = s.writeRings BELL_COUNT_LO w now := by
    rw [State.regWrite, hexcl]
    rfl
  have hnone : s.reg BELL_COUNT_LO &&& ~~~(w &&& BitVec.ofNat 32 0 &&& ~~~now) = s.reg BELL_COUNT_LO := by
    rw [BitVec.and_zero, BitVec.zero_and, BitVec.not_zero, BitVec.and_allOnes]
  rw [hplain, writeRings_plain (.inl (by decide)),
    plainWrite_clears (k := ⟨BELL_COUNT_LO, 1, 0x4, 1, 0x4, 0x0, 0x0, 0x0, 0x0, 0x0⟩) (by decide) rfl]
  exact congrArg (s.setReg BELL_COUNT_LO) hnone

/-! The enables of a port and of the Milbex Link. -/

theorem portTo_keeps (hp : p < 6) {st n : Nat} {f : Fld} (hstate : 4 ≤ f.lo) (hreason : f.lo + f.len ≤ 8 ∨ 12 ≤ f.lo) :
    (s.portTo p st n).getF (PORT_STATE p) f = s.getF (PORT_STATE p) f := by
  by_cases h : s.getF (PORT_STATE p) PORT_STATE_state = st
  · rw [portTo_same h]
  · exact ((portTo_reports h).getF (portState_quiet hp) f).trans ((getF_setF_fld _ _ (f := PORT_STATE_down_reason) _ (by decide)
      hreason.symm).trans (getF_setF_fld _ _ (f := PORT_STATE_state) _ (by decide) (.inl hstate)))

/-- The word that a write of a port's or the link's state register leaves. -/
def enableWord (old w : Word) : Word := (old &&& ~~~0x40) ||| (w &&& 0x40)

theorem writePortState_disables (hp : p < 6) (hw : fldGet w PORT_STATE_enable = 0) :
    s.writePortState p w = (s.setReg (PORT_STATE p) (enableWord (s.reg (PORT_STATE p)) w)).portTo p 0 0 ∧
      (s.setReg (PORT_STATE p) (enableWord (s.reg (PORT_STATE p)) w)).flag (PORT_STATE p) PORT_STATE_enable = false := by
  have hplain : s.plainWrite (PORT_STATE p) w 0 = s.setReg (PORT_STATE p) (enableWord (s.reg (PORT_STATE p)) w) :=
    plainWrite_loads (regKind_portState hp) rfl s w 0
  have hoff : (s.setReg (PORT_STATE p) (enableWord (s.reg (PORT_STATE p)) w)).flag (PORT_STATE p) PORT_STATE_enable = false := by
    have hbit : fldGet (enableWord (s.reg (PORT_STATE p)) w) PORT_STATE_enable = 0 :=
      (fldGet_loaded _ _ _ _ (by decide) (by decide)).trans hw
    rw [State.flag, State.getF, reg_setReg, if_pos rfl, hbit]
    rfl
  refine ⟨?_, hoff⟩
  rw [State.writePortState]
  rw [hplain, hoff]
  rfl

/-- A port that is disabled goes DARK. -/
theorem writePortState_dark (hp : p < 6) (hw : fldGet w PORT_STATE_enable = 0) {t : State} (ht : t = s.writePortState p w) :
    t.portSt p = 0 ∧ t.flag (PORT_STATE p) PORT_STATE_enable = false ∧ EntersOnly p s t := by
  obtain ⟨hdark, hoff⟩ := writePortState_disables (s := s) hp hw
  rw [ht, hdark]
  have hloads := (LoadsOnly.refl (· = PORT_STATE p) s).setReg rfl (enableWord (s.reg (PORT_STATE p)) w)
  generalize s.setReg (PORT_STATE p) (enableWord (s.reg (PORT_STATE p)) w) = u at hoff hloads ⊢
  refine ⟨?_, (congrArg (· != 0) (portTo_keeps hp (by decide) (.inl (by decide)))).trans hoff, ?_⟩
  · by_cases h : u.portSt p = 0
    · rw [portTo_same h]
      exact h
    · exact (portTo_shows hp (by decide) (by decide) (Ne.symm h)).1
  · obtain ⟨hframe, hreg⟩ := portTo_entersOnly u p 0 0
    refine ⟨?_, fun a ha hne => (hreg a ha hne).trans (hloads.2 a hne)⟩
    rw [hframe, hloads.1]

/-- What an entry of the Milbex Link into a state but UP leaves. -/
theorem mxlTo_reports {st n : Nat} (hnew : s.mxlSt ≠ st) (hup : st ≠ 5) :
    Reports ((s.setF MXL_STATE MXL_STATE_state st).setF MXL_STATE MXL_STATE_down_reason n) (s.mxlTo st n) := by
  rw [mxlTo_enters hnew hup]
  exact reports_raise _ _ _ _ _ _ _ _ (mxlSet_reports s st n)

theorem mxlTo_same {st n : Nat} (h : s.mxlSt = st) : s.mxlTo st n = s := if_pos h

theorem writeMxlState_disables (hw : fldGet w MXL_STATE_enable = 0) :
    s.writeMxlState w = (s.setReg MXL_STATE (enableWord (s.reg MXL_STATE) w)).mxlTo 0 0 ∧
      (s.setReg MXL_STATE (enableWord (s.reg MXL_STATE) w)).flag MXL_STATE MXL_STATE_enable = false := by
  have hplain : s.plainWrite MXL_STATE w 0 = s.setReg MXL_STATE (enableWord (s.reg MXL_STATE) w) :=
    plainWrite_loads (k := ⟨MXL_STATE, 1, 0x4, 1, 0x4, 0x40, 0x40, 0x0, 0x0, 0x0⟩) (by decide) rfl s w 0
  have hoff : (s.setReg MXL_STATE (enableWord (s.reg MXL_STATE) w)).flag MXL_STATE MXL_STATE_enable = false := by
    have hbit : fldGet (enableWord (s.reg MXL_STATE) w) MXL_STATE_enable = 0 := (fldGet_loaded _ _ _ _ (by decide) (by decide)).trans hw
    rw [State.flag, State.getF, reg_setReg, if_pos rfl, hbit]
    rfl
  refine ⟨?_, hoff⟩
  rw [State.writeMxlState]
  rw [hplain, hoff]
  rfl

/-- What a change of the Milbex Link's state leaves, as `EntersOnly` says it of a port. -/
def LinkEntersOnly (s t : State) : Prop :=
  t = { s with regs := t.regs, freeCtr := t.freeCtr, mxl := t.mxl, evRings := t.evRings, mgmt := t.mgmt, out := t.out } ∧
  ∀ a, eventReg a = false → a ≠ MXL_STATE → t.reg a = s.reg a

theorem Reports.linkEntersOnly {u t : State} (h : Reports u t) (hu : LoadsOnly (· = MXL_STATE) s u) : LinkEntersOnly s t := by
  refine ⟨?_, fun a ha hne => (h.2 a ha).trans (hu.2 a hne)⟩
  rw [h.1, hu.1]

/-- A link that is disabled is DISABLED. -/
theorem writeMxlState_disabled (hw : fldGet w MXL_STATE_enable = 0) {t : State} (ht : t = s.writeMxlState w) :
    t.mxlSt = 0 ∧ t.flag MXL_STATE MXL_STATE_enable = false ∧ LinkEntersOnly s t := by
  obtain ⟨hdown, hoff⟩ := writeMxlState_disables (s := s) hw
  rw [ht, hdown]
  have hloads := (LoadsOnly.refl (· = MXL_STATE) s).setReg rfl (enableWord (s.reg MXL_STATE) w)
  generalize s.setReg MXL_STATE (enableWord (s.reg MXL_STATE) w) = u at hoff hloads ⊢
  by_cases h : u.mxlSt = 0
  · rw [mxlTo_same h]
    exact ⟨h, hoff, (Reports.refl u).linkEntersOnly hloads⟩
  · have hrep := mxlTo_reports (n := 0) h (by decide)
    refine ⟨(mxlTo_shows (by decide) (by decide) h (by decide)).1, (congrArg (· != 0) ?_).trans hoff,
      hrep.linkEntersOnly ((hloads.setF rfl _ _).setF rfl _ _)⟩
    exact (hrep.getF (by decide) _).trans ((getF_setF_fld _ _ _ (by decide) (.inr (by decide))).trans
      (getF_setF_fld _ _ _ (by decide) (.inl (by decide))))

theorem execRegisterWrite_word (h : a % 4 = 0) (v n : Nat) :
    exec (.registerWrite a 4 ⟨v, n⟩) s = live s (s.regWrite a (BitVec.ofNat 32 v) (BitVec.ofNat 32 n)) := by
  refine congrArg (live s) ((if_pos (accessGood_word h)).trans ?_)
  rw [State.accessWrite, accessGood_word h, Bool.not_true, if_neg Bool.false_ne_true, if_pos rfl]

end

/-- Settles O59: the reads of LO and HI registers, and the writes of a register by its address. -/
theorem registerAccesses : Obligations.RegisterAccesses := by
  unfold Obligations.RegisterAccesses
  intro s hon
  refine ⟨fun req a ha hnone => ⟨live_next hon (congrArg Prod.snd (accessRead_lo ha hnone)), fun t ht hshadows => ?high⟩,
    fun v now => ?exam, fun v now => ⟨_, (execRegisterWrite_word rfl v now).trans (live_next hon regWrite_bellCount), rfl, fun a => ?bell⟩,
    fun p v now hp hw => gives_of_live hon ((execRegisterWrite_word (by unfold PORT_STATE; omega) v now).trans
      (congrArg (live s) (regWrite_portState hp))) (writePortState_dark hp hw rfl),
    fun v now hw => gives_of_live hon ((execRegisterWrite_word rfl v now).trans (congrArg (live s) regWrite_mxlState))
      (writeMxlState_disabled hw rfl)⟩
  case high =>
    have hkept : tfind t.shadows (shadowKey req (a + 4)) = some (s.regRead (a + 4)) := by
      rw [hshadows, tfind_tput, if_pos rfl]
    have hread := accessRead_kept (by rw [Nat.add_mod_right]; exact loPairs_aligned ha) hkept
    exact ⟨congrArg Prod.fst hread, live_next ht (congrArg Prod.snd hread)⟩
  case exam => rw [execRegisterWrite_word rfl, regWrite_examCtrl, live_on hon]
  case bell =>
    rw [reg_setReg]
    split
    next h => rw [h]
    next h => rfl

end Sys2Proof.Machine
end

