-- ==== Sys2Proof/Proofs/StagesToMemory.lean ====
section
/-! Stage S1 of a start: what it reads from the ledger, and the choice of an image set (20 R470, 21 R507). -/

namespace Sys2Proof.Machine

section
variable {s : State} {a : Nat}

/-! Registers that the parts of a stage leave. -/

theorem setStage_reg (s : State) (stage state : Nat) (ha : a ≠ BRG_STAGE) : (s.setStage stage state).reg a = s.reg a := by
  have hloads := ((LoadsOnly.refl (· = BRG_STAGE) s).setF rfl BRG_STAGE_stage stage).setF rfl BRG_STAGE_state state
  refine Eq.trans ?_ (hloads.2 a ha)
  rw [State.setStage, State.reg, raiseIbi_regs]
  rfl

theorem writeCard_reg (s : State) (stage result duration firstFail : Nat) (c : List Nat) (ha : a < BRG_CARD 0 0) :
    (s.writeCard stage result duration firstFail c).reg a = s.reg a := by
  obtain ⟨t, hloads, hcard⟩ := writeCard_loads s stage result duration firstFail c
  rw [hcard]
  exact hloads.2 a (Nat.not_le.2 ha)

theorem stageEndsFail_reg (s : State) (stage duration firstFail : Nat) (c : List Nat) (ha : a < BRG_CARD 0 0) (hne : a ≠ BRG_STAGE) :
    (s.stageEndsFail stage duration firstFail c).reg a = s.reg a :=
  (setStage_reg _ _ _ hne).trans (writeCard_reg _ _ _ _ _ _ ha)

theorem showSets_reg (s : State) (ha : a ≠ SEC_SET) : s.showSets.reg a = s.reg a :=
  (((LoadsOnly.refl (· = SEC_SET) s).setF rfl _ _).setF rfl _ _).2 a ha

/-! The choice of a set. -/

/-- Sets marked failed are skipped. -/
theorem chooseSet_failed (lf : List Nat) {l : List Nat} (h : ∀ k ∈ l, s.setFailed k = true) : chooseSet lf l s = (none, s) := by
  induction l with
  | nil => rfl
  | cons k l ih =>
    obtain ⟨hk, hl⟩ := List.forall_mem_cons.1 h
    rw [chooseSet, if_pos hk, ih hl]

theorem candidates_lt {boot n : Nat} (hboot : boot < n) (hn : 3 ≤ n) {k : Nat} (hk : k ∈ candidates boot) : k < n := by
  obtain rfl | hk := List.mem_cons.1 hk
  · exact hboot
  · obtain hk := (List.mem_filter.1 hk).1
    have hlt : k < 3 := (by decide : ∀ j ∈ [0, 1, 2], j < 3) k hk
    omega

/-! The ledger. -/

/-- A first start, with one suspect sensor in the carry block. -/
theorem readLedger_firstStart {n : Nat} (hlog : s.bring.log = []) (hstart : s.bring.carry.start = 0) (hstored : s.stored = none)
    (hsensors : s.bring.carry.sensors = [n]) :
    s.readLedger = ((s.setReg BRG_START_COUNT 1).logAppend logSTART 1 0 0 []).setB (THM_SENSOR n) THM_SENSOR_suspect true := by
  have hlast : s.lastStart = 0 := by rw [State.lastStart, hlog, hstart]; rfl
  have hbroken : (List.range 322).filter (openIntent s.bring.log s.lastStart) = [] := by
    rw [hlog]
    exact List.filter_eq_nil_iff.2 fun i _ => Bool.false_ne_true
  have hnone : ((s.setReg BRG_START_COUNT (BitVec.ofNat 32 (s.lastStart + 1))).logAppend logSTART 1 0 0 []).stored = none := hstored
  have hcarried : ((s.setReg BRG_START_COUNT (BitVec.ofNat 32 (s.lastStart + 1))).logAppend logSTART 1 0 0 []).bring.carry.sensors = [n] :=
    hsensors
  rw [State.readLedger]
  rw [hbroken, hnone, hcarried, hlast]
  rfl

/-- S1 with every set marked failed ends FAILED. -/
theorem stageS1_fails (duration : Nat) (lf : List Nat) (h : ∀ k < 4, s.loadFuses.readLedger.setFailed k = true) : ∃ firstFail c,
    s.stageS1 duration lf = (s.loadFuses.readLedger.setReg SEC_SYLLABUS
      (BitVec.ofNat 32 (syGeneration s.loadFuses.readLedger.sec.syllabus))).showSets.stageEndsFail 1 duration firstFail c := by
  have hnone := fun u : State => chooseSet_failed (s := s.loadFuses.readLedger.setReg SEC_SYLLABUS
    (BitVec.ofNat 32 (syGeneration s.loadFuses.readLedger.sec.syllabus))) lf (l := candidates (u.getF SEC_SET SEC_SET_boot))
    fun k hk => h k (candidates_lt (getF_lt _ _ _) (by decide) hk)
  rw [State.stageS1]
  dsimp only
  rw [hnone]
  exact ⟨_, _, rfl⟩

end

/-! A carry block that names a sensor there is none of: its register would be BRG_START_COUNT. -/

/-- A first start with every set marked failed, whose carry block holds a sensor number past the last sensor. -/
def strayStart : State :=
  { State.reset with
    bring := { State.reset.bring with carry := { State.reset.bring.carry with alts := [0, 1, 2, 3], sensors := [16129] } } }

theorem loadFuses_loads (s : State) : LoadsOnly (fun a => a ≠ BRG_START_COUNT ∧ a ≠ BRG_STAGE) s s.loadFuses := by
  have hbase := (LoadsOnly.refl (fun a => a ≠ BRG_START_COUNT ∧ a ≠ BRG_STAGE) s).setPair (a := SEC_SERIAL_LO) (by decide) (by decide)
    (Config.fuseSerial % 2 ^ 64)
  have hkeys := (hbase.setReg (a := SEC_STEPPING) (by decide) (BitVec.ofNat 32 (Config.fuseStepping % 2 ^ 24))).setReg (a := SEC_KEYS)
    (by decide) (BitVec.ofNat 32 (s.sec.fuseRevoked % 16 + 2 ^ 4 * (Config.fusePurpose % 2 ^ 16) + 2 ^ 20 * (s.sec.fuseFloor % 128)))
  have hpoint := (hkeys.setF (a := PWR_VCMP) (by decide) PWR_VCMP_fused_mv fusedVcmp).setF (a := PWR_VCMP) (by decide)
    PWR_VCMP_setpoint_mv fusedVcmp
  exact (((hpoint.setF (a := NBU_TOKEN_LIMIT) (by decide) _ _).setF (a := PWR_CAP) (by decide) _ _).setF (a := PWR_PART 0) (by decide) _ _)

/-- The start number that S1 leaves there has the suspect bit set. -/
theorem strayStart_count : (strayStart.stageS1 0 []).reg BRG_START_COUNT = 1025 := by
  have hfuses := loadFuses_loads strayStart
  generalize hv : strayStart.loadFuses = v at hfuses
  have hledger : v.readLedger = ((v.setReg BRG_START_COUNT 1).logAppend logSTART 1 0 0 []).setB BRG_START_COUNT THM_SENSOR_suspect true :=
    readLedger_firstStart (n := 16129) ((congrArg (fun u : State => u.bring.log) hfuses.1).trans rfl)
      ((congrArg (fun u : State => u.bring.carry.start) hfuses.1).trans rfl) ((congrArg State.stored hfuses.1).trans rfl)
      ((congrArg (fun u : State => u.bring.carry.sensors) hfuses.1).trans rfl)
  have hcount : v.readLedger.reg BRG_START_COUNT = 1025 := by
    have hone : ((v.setReg BRG_START_COUNT 1).logAppend logSTART 1 0 0 []).reg BRG_START_COUNT = 1 :=
      (reg_setReg v BRG_START_COUNT 1 BRG_START_COUNT).trans (if_pos rfl)
    rw [hledger, State.setB, State.setF, reg_setReg, if_pos rfl, hone]
    decide
  have halts : v.readLedger.bring.carry.alts = [0, 1, 2, 3] := by
    rw [hledger]
    exact (congrArg (fun u : State => u.bring.carry.alts) hfuses.1).trans rfl
  have hfailed : ∀ k < 4, strayStart.loadFuses.readLedger.setFailed k = true := by
    rw [hv, funext (State.setFailed.eq_1 v.readLedger), halts]
    decide
  obtain ⟨firstFail, c, hends⟩ := stageS1_fails 0 [] hfailed
  rw [hends, hv, stageEndsFail_reg _ _ _ _ _ (by decide) (by decide), showSets_reg _ (by decide), reg_setReg, if_neg (by decide), hcount]

/-- Refutes O55: S1 sets the suspect flag of every sensor that the carry block names, and a number past the last sensor, which no command
puts there, makes that flag a bit of BRG_START_COUNT. -/
theorem not_stagesToMemory : ¬ Obligations.StagesToMemory := by
  unfold Obligations.StagesToMemory
  intro h
  obtain ⟨hboot, -⟩ := h strayStart 0 (by decide)
  obtain ⟨t, hexec, hcount, -⟩ := hboot [] (by decide)
  have ht : strayStart.stageS1 0 [] = t := by
    have hnext : exec (.stageS1Boot 0 []) strayStart = .next (strayStart.stageS1 0 []) := live_next (by decide) (if_pos (by decide))
    exact Host.Outcome.next.inj (hnext.symm.trans hexec)
  rw [← ht, strayStart_count] at hcount
  exact absurd hcount (by decide)

end Sys2Proof.Machine
end

