-- ==== Sys2Proof/Proofs/StageEnds.lean ====
section
/-! How a stage of a start ends (20 R477, R479, R496): its card, the cards of later stages, and BRG_STAGE. Stages S5 and S8. -/

namespace Sys2Proof.Machine

/-- What each step of a loop does to its own index, where no other step touches it. -/
theorem forEach_range_each {σ : Type} {n : Nat} {K P : Nat → σ → Prop} {f : σ → Nat → σ}
    (hkeep : ∀ u i j, i < n → j < n → i ≠ j → K i u → K i (f u j)) (hset : ∀ u i, i < n → K i u → P i (f u i))
    (hstay : ∀ u i j, i < n → j < n → i ≠ j → P i u → P i (f u j)) (s : σ) (hs : ∀ i, i < n → K i s) :
    ∀ i, i < n → P i (forEach (List.range n) s f) := by
  have hpart : ∀ m, m ≤ n → (∀ i, i < m → P i (forEach (List.range m) s f)) ∧
      ∀ i, m ≤ i → i < n → K i (forEach (List.range m) s f) := fun m => by
    induction m with
    | zero => exact fun _ => ⟨fun i hi => absurd hi (Nat.not_lt_zero i), fun i _ hi => hs i hi⟩
    | succ m ih =>
      intro hm
      obtain ⟨hdone, hleft⟩ := ih (by omega)
      rw [forEach_range_succ]
      refine ⟨fun i hi => ?_, fun i hi hn => hkeep _ i m hn hm (by omega) (hleft i (by omega) hn)⟩
      by_cases h : i = m
      · rw [h]
        exact hset _ m hm (hleft m (Nat.le_refl m) hm)
      · exact hstay _ i m (by omega) hm h (hdone i (by omega))
  exact (hpart n (Nat.le_refl n)).1

/-- BRG_STAGE and the cards of a stage and of the later ones. -/
def stageReg (stage a : Nat) : Prop := a = BRG_STAGE ∨ ∃ k i, stage ≤ k ∧ k < 9 ∧ i < 8 ∧ a = BRG_CARD k i

/-- The end of a stage changes its registers, the log, and what is signalled. -/
def EndsStage (stage : Nat) (s t : State) : Prop :=
  t = { s with
    regs := t.regs, mgmt := t.mgmt, out := t.out
    bring := { s.bring with log := t.bring.log, nextSeq := t.bring.nextSeq } } ∧
  ∀ a, ¬ stageReg stage a → t.reg a = s.reg a

/-- The eight words of a card. -/
def State.cardWords (s : State) (stage result duration firstFail : Nat) (c : List Nat) : List Nat :=
  [stage + 2 ^ 8 * (if result = cardPASS && 0 < s.altsOf stage then cardPASSALT else result) + 2 ^ 16 * s.altsOf stage,
    min duration (2 ^ 32 - 1), s.startNo, firstFail] ++ (List.range 4).map (fun i => c.getD i 0)

/-- The registers of a card take their words. -/
def State.loadCard (s : State) (stage : Nat) (ws : List Nat) : State :=
  forEach (List.range 8) s (fun s i => s.setReg (BRG_CARD stage i) (BitVec.ofNat 32 (ws.getD i 0)))

section
variable {s t u : State} {stage : Nat}

theorem writeCard_eq (s : State) (stage result duration firstFail : Nat) (c : List Nat) :
    s.writeCard stage result duration firstFail c = (s.loadCard stage (s.cardWords stage result duration firstFail c)).logAppend logCARD
      stage 0 0 (s.cardWords stage result duration firstFail c) := rfl

theorem EndsStage.trans (h : EndsStage stage s t) (h' : EndsStage stage t u) : EndsStage stage s u := by
  obtain ⟨hst, hreg⟩ := h
  obtain ⟨htu, hreg'⟩ := h'
  refine ⟨?_, fun a ha => (hreg' a ha).trans (hreg a ha)⟩
  rw [htu, hst]

theorem LoadsOnly.endsStage (h : LoadsOnly (stageReg stage) s t) : EndsStage stage s t := by
  refine ⟨?_, h.2⟩
  rw [h.1]

theorem logAppend_endsStage (s : State) (kind n step detail : Nat) (body : List Nat) :
    EndsStage stage s (s.logAppend kind n step detail body) := ⟨rfl, fun _ _ => rfl⟩

theorem logAppend_reg (s : State) (kind n step detail : Nat) (body : List Nat) (a : Nat) :
    (s.logAppend kind n step detail body).reg a = s.reg a := rfl

theorem brgCard_ne_stage (k i : Nat) : BRG_CARD k i ≠ BRG_STAGE := by
  unfold BRG_CARD BRG_STAGE
  omega

theorem loadCard_loads (s : State) (stage : Nat) (ws : List Nat) : LoadsOnly (fun a => ∃ i < 8, a = BRG_CARD stage i) s (s.loadCard stage ws) :=
  (LoadsOnly.refl _ s).forEach fun u i hi => (LoadsOnly.refl _ u).setReg ⟨i, List.mem_range.1 hi, rfl⟩ _

theorem loadCard_word (s : State) (stage : Nat) (ws : List Nat) {i : Nat} (hi : i < 8) :
    (s.loadCard stage ws).reg (BRG_CARD stage i) = BitVec.ofNat 32 (ws.getD i 0) :=
  forEach_range_each (K := fun _ _ => True)
    (P := fun i (u : State) => u.reg (BRG_CARD stage i) = BitVec.ofNat 32 (ws.getD i 0)) (fun _ _ _ _ _ _ _ => trivial)
    (fun _ _ _ _ => (reg_setReg _ _ _ _).trans (if_pos rfl))
    (fun _ _ _ _ _ hij h => ((reg_setReg _ _ _ _).trans (if_neg fun heq => hij (by unfold BRG_CARD at heq; omega))).trans h) s
    (fun _ _ => trivial) i hi

theorem writeCard_ends (s : State) (hstage : stage < 9) (result duration firstFail : Nat) (c : List Nat) :
    EndsStage stage s (s.writeCard stage result duration firstFail c) := by
  rw [writeCard_eq]
  exact ((loadCard_loads s stage _).mono fun a ⟨i, hi, ha⟩ =>
    .inr ⟨stage, i, Nat.le_refl _, hstage, hi, ha⟩).endsStage.trans (logAppend_endsStage _ _ _ _ _ _)

theorem writeCard_word (s : State) (result duration firstFail : Nat) (c : List Nat) {i : Nat} (hi : i < 8) :
    (s.writeCard stage result duration firstFail c).reg (BRG_CARD stage i) =
      BitVec.ofNat 32 ((s.cardWords stage result duration firstFail c).getD i 0) := by
  rw [writeCard_eq, logAppend_reg, loadCard_word _ _ _ hi]

/-- Registers of the cards from a stage on. -/
def cardReg (stage a : Nat) : Prop := ∃ k i, stage ≤ k ∧ k < 9 ∧ i < 8 ∧ a = BRG_CARD k i

theorem clearCards_loads (s : State) (stage : Nat) : LoadsOnly (cardReg stage) s (s.clearCards stage) :=
  (LoadsOnly.refl _ s).forEach fun u k hk => (LoadsOnly.refl _ u).forEach fun v i hi =>
    (LoadsOnly.refl _ v).setReg ⟨k, i, of_decide_eq_true (List.mem_filter.1 hk).2, List.mem_range.1 (List.mem_filter.1 hk).1,
      List.mem_range.1 hi, rfl⟩ _

theorem raiseIbi_endsStage (s : State) (n : Nat) : EndsStage stage s (s.raiseIbi n) := by
  refine ⟨?_, fun a _ => congrArg (tgetD · a (regReset a)) (raiseIbi_regs s n)⟩
  unfold State.raiseIbi
  split
  · rfl
  · rfl

theorem setStage_ends (s : State) (n state : Nat) : EndsStage stage s (s.setStage n state) :=
  (((LoadsOnly.refl (stageReg stage) s).setF (.inl rfl) _ _).setF (.inl rfl) _ _).endsStage.trans (raiseIbi_endsStage _ 1)

theorem setStage_is (s : State) {n state : Nat} (hn : n < 16) (hstate : state < 8) : (s.setStage n state).stageIs n state = true := by
  obtain ⟨hstage, hshown⟩ := setStage_shows s hn hstate
  rw [State.stageIs, hstage, hshown, beq_self_eq_true, beq_self_eq_true]
  rfl

/-! A stage ends FAILED, or passes. -/

theorem stageEndsFail_ends (s : State) (hstage : stage < 9) (duration firstFail : Nat) (c : List Nat) :
    EndsStage stage s (s.stageEndsFail stage duration firstFail c) :=
  (writeCard_ends s hstage _ _ _ _).trans (setStage_ends _ _ _)

theorem stageEndsFail_is (s : State) (hstage : stage < 9) (duration firstFail : Nat) (c : List Nat) :
    (s.stageEndsFail stage duration firstFail c).stageIs stage (if s.bring.hold then 4 else 3) = true :=
  setStage_is _ (by omega) (by split <;> omega)

theorem stageEndsFail_word (s : State) (duration firstFail : Nat) (c : List Nat) {i : Nat} (hi : i < 8) :
    (s.stageEndsFail stage duration firstFail c).reg (BRG_CARD stage i) =
      BitVec.ofNat 32 ((s.cardWords stage cardFAIL duration firstFail c).getD i 0) :=
  (setStage_reg _ _ _ (brgCard_ne_stage _ _)).trans (writeCard_word s _ _ _ _ hi)

theorem stagePasses_ends (s : State) (hstage : stage < 8) (duration : Nat) (degraded : Bool) (c : List Nat) :
    EndsStage stage s (s.stagePasses stage duration degraded c) :=
  ((writeCard_ends s (by omega) _ _ _ _).trans ((clearCards_loads _ (stage + 1)).mono fun a ⟨k, i, hk, hk9, hi, ha⟩ =>
    .inr ⟨k, i, by omega, hk9, hi, ha⟩).endsStage).trans (setStage_ends _ _ _)

theorem stagePasses_is (s : State) (hstage : stage < 8) (duration : Nat) (degraded : Bool) (c : List Nat) :
    (s.stagePasses stage duration degraded c).stageIs (stage + 1) 0 = true := setStage_is _ (by omega) (by decide)

end

/-! S5 (21 R508, R514). -/

section
variable {s t : State} {duration stepping : Nat}

theorem stageS5_mismatch (h : BitVec.ofNat 32 stepping ≠ s.reg SEC_STEPPING) : s.stageS5 duration stepping =
    (s.reject 0 (failsFor rjSTACKMISMATCH)).stageEndsFail 5 duration (2 ^ 16 * rjSTACKMISMATCH) [0, 0, (s.reg SEC_SYLLABUS).toNat, 0] :=
  if_pos h

theorem stageS5_mismatch_shows (h : BitVec.ofNat 32 stepping ≠ s.reg SEC_STEPPING) (ht : t = s.stageS5 duration stepping) :
    t.stageIs 5 (if s.bring.hold then 4 else 3) = true ∧ t.getF SEC_LAST_REJECT SEC_LAST_REJECT_reason = 13 ∧
      t.reg (BRG_CARD 5 3) = BitVec.ofNat 32 (13 * 2 ^ 16) ∧
      t = { s with regs := t.regs, bring := t.bring, mgmt := t.mgmt, out := t.out } := by
  rw [ht, stageS5_mismatch h]
  obtain ⟨hframe, hreg⟩ := stageEndsFail_ends (s.reject 0 (failsFor rjSTACKMISMATCH)) (by decide : 5 < 9) duration
    (2 ^ 16 * rjSTACKMISMATCH) [0, 0, (s.reg SEC_SYLLABUS).toNat, 0]
  have hreject : ¬ stageReg 5 SEC_LAST_REJECT := by
    rintro (h | ⟨k, i, -, hk, hi, h⟩)
    · exact absurd h (by decide)
    · unfold SEC_LAST_REJECT BRG_CARD at h
      omega
  refine ⟨stageEndsFail_is (s.reject 0 (failsFor rjSTACKMISMATCH)) (by decide) _ _ _, ?_, stageEndsFail_word _ _ _ _ (by decide), ?_⟩
  · refine (congrArg (fldGet · SEC_LAST_REJECT_reason) ((hreg _ hreject).trans ((reg_setReg _ _ _ _).trans (if_pos rfl)))).trans ?_
    decide
  · refine hframe.trans ?_
    rw [hframe]
    rfl

/-- The rights without a licence. -/
def State.noRights (s : State) : State :=
  forEach (List.range 6) ((({ s with sec := { s.sec with licences := [] } } : State).setReg SEC_LICENCE 0).setF SEC_LICENCE_SIZE
    SEC_LICENCE_SIZE_max_size 1) (fun s p => s.setB (PORT_STATE p) PORT_STATE_licensed false)

theorem formRights_none (h : s.sec.licences = []) : s.formRights = s.noRights := by
  have hbits : ∀ p ∈ List.range 6, bitSet (joinFeatures []) p = false := by decide
  rw [State.formRights, h]
  exact List.foldl_ext _ _ _ fun (u : State) p hp => congrArg (u.setB (PORT_STATE p) PORT_STATE_licensed) (hbits p hp)

theorem noRights_loads (s : State) : LoadsOnly (fun a => a = SEC_LICENCE ∨ a = SEC_LICENCE_SIZE ∨ ∃ p < 6, a = PORT_STATE p)
    { s with sec := { s.sec with licences := [] } } s.noRights :=
  (((LoadsOnly.refl _ _).setReg (.inl rfl) _).setF (.inr (.inl rfl)) _ _).forEach fun u p hp =>
    (LoadsOnly.refl _ u).setB (.inr (.inr ⟨p, List.mem_range.1 hp, rfl⟩)) _ _

theorem noRights_unlicensed (s : State) : ∀ p, p < 6 → s.noRights.flag (PORT_STATE p) PORT_STATE_licensed = false :=
  forEach_range_each (K := fun _ _ => True) (P := fun p (u : State) => u.flag (PORT_STATE p) PORT_STATE_licensed = false)
    (fun _ _ _ _ _ _ _ => trivial) (fun u _ _ _ => flag_setB u _ false (by decide) (by decide))
    (fun u _ _ _ _ _ h => (flag_setB_reg u _ _ _ (by unfold PORT_STATE; omega)).trans h) _ (fun _ _ => trivial)

theorem noRights_reg {a : Nat} (hport : ∀ p < 6, a ≠ PORT_STATE p) (s : State) : s.noRights.reg a =
    ((({ s with sec := { s.sec with licences := [] } } : State).setReg SEC_LICENCE 0).setF SEC_LICENCE_SIZE
      SEC_LICENCE_SIZE_max_size 1).reg a :=
  ((LoadsOnly.refl (fun a => ∃ p < 6, a = PORT_STATE p) _).forEach fun u p hp =>
    (LoadsOnly.refl _ u).setB ⟨p, List.mem_range.1 hp, rfl⟩ _ _).2 a fun ⟨p, hp, h⟩ => hport p hp h

theorem stageReg_low {stage a : Nat} (h : a < BRG_STAGE) : ¬ stageReg stage a := by
  rintro (heq | ⟨k, i, -, -, -, heq⟩)
  · omega
  · unfold BRG_STAGE at h
    unfold BRG_CARD at heq
    omega

theorem stageReg_high {stage a : Nat} (h : BRG_CARD 9 0 ≤ a) : ¬ stageReg stage a := by
  rintro (heq | ⟨k, i, -, hk, hi, heq⟩)
  · unfold BRG_CARD at h
    unfold BRG_STAGE at heq
    omega
  · unfold BRG_CARD at h heq
    omega

theorem stageS5_match (h : BitVec.ofNat 32 stepping = s.reg SEC_STEPPING) (hnone : s.sec.licences = []) : s.stageS5 duration stepping =
    s.noRights.stagePasses 5 duration false [s.noRights.getF SEC_LICENCE SEC_LICENCE_features,
      s.noRights.getF SEC_LICENCE SEC_LICENCE_stored, (s.reg SEC_SYLLABUS).toNat, 0] := by
  rw [State.stageS5]
  dsimp only
  rw [if_neg (not_not.2 h), formRights_none hnone]

theorem stageS5_match_shows (h : BitVec.ofNat 32 stepping = s.reg SEC_STEPPING) (hnone : s.sec.licences = [])
    (ht : t = s.stageS5 duration stepping) :
    t.stageIs 6 0 = true ∧ t.reg SEC_LICENCE = 0 ∧ t.getF SEC_LICENCE_SIZE SEC_LICENCE_SIZE_max_size = 1 ∧
      (∀ p, p < 6 → t.flag (PORT_STATE p) PORT_STATE_licensed = false) ∧
      t = { s with regs := t.regs, bring := t.bring, sec := t.sec, mgmt := t.mgmt, out := t.out } := by
  rw [ht, stageS5_match h hnone]
  obtain ⟨hframe, hreg⟩ := stagePasses_ends s.noRights (by decide : 5 < 8) duration false
    [s.noRights.getF SEC_LICENCE SEC_LICENCE_features, s.noRights.getF SEC_LICENCE SEC_LICENCE_stored, (s.reg SEC_SYLLABUS).toNat, 0]
  have hpasses := stagePasses_is s.noRights (by decide : 5 < 8) duration false
    [s.noRights.getF SEC_LICENCE SEC_LICENCE_features, s.noRights.getF SEC_LICENCE SEC_LICENCE_stored, (s.reg SEC_SYLLABUS).toNat, 0]
  generalize State.stagePasses s.noRights 5 duration false _ = v at hframe hreg hpasses ⊢
  have hloads := noRights_loads s
  have hlicence : s.noRights.reg SEC_LICENCE = 0 :=
    (noRights_reg (by unfold SEC_LICENCE PORT_STATE; omega) s).trans
      (((reg_setReg _ _ _ _).trans (if_neg (by decide))).trans ((reg_setReg _ _ _ _).trans (if_pos rfl)))
  have hsize : s.noRights.getF SEC_LICENCE_SIZE SEC_LICENCE_SIZE_max_size = 1 :=
    (congrArg (fldGet · SEC_LICENCE_SIZE_max_size) (noRights_reg (by unfold SEC_LICENCE_SIZE PORT_STATE; omega) s)).trans
      (getF_setF_lt _ _ (by decide) (by decide))
  refine ⟨hpasses, (hreg _ (stageReg_high (by decide))).trans hlicence,
    (congrArg (fldGet · SEC_LICENCE_SIZE_max_size) (hreg _ (stageReg_high (by decide)))).trans hsize, fun p hp => ?_, ?_⟩
  · exact (congrArg (fldGet · PORT_STATE_licensed != 0) (hreg _ (stageReg_low (by unfold PORT_STATE BRG_STAGE; omega)))).trans
      (noRights_unlicensed s p hp)
  · rw [hframe, hloads.1]

end

/-! S8 (20 R479, 21 R506, R508). -/

section
variable {s t : State} {duration total : Nat}

/-- The fuses and what shows them, SEC_SET and the count of unready starts, before the last card. -/
def State.readied (s : State) : State :=
  ((s.blowFuses.setF SEC_SET SEC_SET_known_good s.blowFuses.runningSet).setF BRG_STAGE BRG_STAGE_unready 0).showSets

theorem stageS8_eq (s : State) (duration total : Nat) : s.stageS8 duration total =
    (s.readied.writeCard 8 (if 0 < s.readied.altsTaken then cardPASSALT else cardPASS) duration 0
      [total, s.readied.altsTaken, 0, 0]).setStage 8 2 := rfl

/-- Registers that S8 writes before its card. -/
def readyReg (a : Nat) : Prop := a = SEC_KEYS ∨ a = SEC_SET ∨ a = BRG_STAGE

theorem blowFuses_loads (s : State) : LoadsOnly (· = SEC_KEYS) { s with sec := s.blowFuses.sec } s.blowFuses :=
  ((LoadsOnly.refl (· = SEC_KEYS) _).setF rfl _ _).setF rfl _ _

theorem readied_loads (s : State) : LoadsOnly readyReg { s with sec := s.blowFuses.sec } s.readied :=
  (((((blowFuses_loads s).mono fun _ h => .inl h).setF (.inr (.inl rfl)) _ _).setF (.inr (.inr rfl)) _ _).setF
    (.inr (.inl rfl)) _ _).setF (.inr (.inl rfl)) _ _

theorem readied_knownGood (s : State) : s.readied.getF SEC_SET SEC_SET_known_good = s.getF SEC_SET SEC_SET_running := by
  have hrunning : s.blowFuses.runningSet = s.getF SEC_SET SEC_SET_running := (blowFuses_loads s).getF (by decide) _
  refine (getF_setF_fld _ _ _ (by decide) (.inr (by decide))).trans ((getF_setF_fld _ _ _ (by decide) (.inr (by decide))).trans
    ((getF_setF_reg _ _ _ _ (by decide)).trans ((getF_setF_lt _ _ (by decide) ?_).trans hrunning)))
  rw [hrunning]
  exact getF_lt _ _ _

theorem readied_unready (s : State) : s.readied.getF BRG_STAGE BRG_STAGE_unready = 0 :=
  (getF_setF_reg _ _ _ _ (by decide)).trans ((getF_setF_reg _ _ _ _ (by decide)).trans (getF_setF_lt _ _ (by decide) (by decide)))

theorem setStage_unready (s : State) (n state : Nat) :
    (s.setStage n state).getF BRG_STAGE BRG_STAGE_unready = s.getF BRG_STAGE BRG_STAGE_unready :=
  (congrArg (fun r => fldGet (tgetD r BRG_STAGE (regReset BRG_STAGE)) BRG_STAGE_unready) (raiseIbi_regs _ 1)).trans
    ((getF_setF_fld _ _ _ (by decide) (.inl (by decide))).trans (getF_setF_fld _ _ _ (by decide) (.inl (by decide))))

theorem stageS8_shows (ht : t = s.stageS8 duration total) : t.stageIs 8 2 = true ∧
    t.getF SEC_SET SEC_SET_known_good = s.getF SEC_SET SEC_SET_running ∧ t.getF BRG_STAGE BRG_STAGE_unready = 0 ∧
    t.sec.fuseFloor = max s.sec.fuseFloor (syFloor s.sec.syllabus) ∧ t.reg (BRG_CARD 8 4) = BitVec.ofNat 32 total ∧
    t = { s with regs := t.regs, bring := t.bring, sec := t.sec, mgmt := t.mgmt, out := t.out } ∧
    ∀ a, a ≠ BRG_STAGE → a ≠ SEC_SET → a ≠ SEC_KEYS → (∀ i < 8, a ≠ BRG_CARD 8 i) → t.reg a = s.reg a := by
  have hloads := readied_loads s
  have hgood := readied_knownGood s
  have hunready := readied_unready s
  have hfloor : s.readied.sec.fuseFloor = max s.sec.fuseFloor (syFloor s.sec.syllabus) := rfl
  rw [ht, stageS8_eq]
  generalize s.readied = u at hloads hgood hunready hfloor ⊢
  have hcard := writeCard_word (stage := 8) u (if 0 < u.altsTaken then cardPASSALT else cardPASS) duration 0 [total, u.altsTaken, 0, 0]
    (by decide : 4 < 8)
  have hwrite := writeCard_ends u (by decide : 8 < 9) (if 0 < u.altsTaken then cardPASSALT else cardPASS) duration 0
    [total, u.altsTaken, 0, 0]
  have hstage := writeCard_reg u 8 (if 0 < u.altsTaken then cardPASSALT else cardPASS) duration 0 [total, u.altsTaken, 0, 0]
    (by decide : BRG_STAGE < BRG_CARD 0 0)
  generalize State.writeCard u 8 _ duration 0 _ = v at hcard hwrite hstage ⊢
  have hbefore : v.getF BRG_STAGE BRG_STAGE_unready = 0 := (congrArg (fldGet · BRG_STAGE_unready) hstage).trans hunready
  obtain ⟨hframe, hreg⟩ := hwrite.trans (setStage_ends (stage := 8) v 8 2)
  refine ⟨setStage_is v (by decide) (by decide), (congrArg (fldGet · SEC_SET_known_good) (hreg _ (stageReg_high (by decide)))).trans hgood,
    (setStage_unready v 8 2).trans hbefore, ?_, (setStage_reg v 8 2 (brgCard_ne_stage 8 4)).trans hcard, ?_, fun a hs hset hkeys hcards => ?_⟩
  · exact ((congrArg (fun w : State => w.sec.fuseFloor) hframe).trans rfl).trans hfloor
  · rw [hframe, hloads.1]
  · refine (hreg a ?_).trans (hloads.2 a ?_)
    · rintro (h | ⟨k, i, hk, hk9, hi, h⟩)
      · exact hs h
      · rw [show k = 8 by omega] at h
        exact hcards i hi h
    · rintro (h | h | h)
      · exact hkeys h
      · exact hset h
      · exact hs h

end

end Sys2Proof.Machine
end

