-- ==== Sys2Proof/Proofs/StagePorts.lean ====
section
/-! Stage S6 of a start: the ports begin to train, and what went DOWN is held DARK (12 R322, R333, 20 R477). -/

namespace Sys2Proof.Machine

/-- A port of u is as it is in s: its state register, its own state, its alternative, and the link map. -/
def PortHeld (s : State) (p : Nat) (u : State) : Prop :=
  u.reg (PORT_STATE p) = s.reg (PORT_STATE p) ∧ u.port p = s.port p ∧ u.altInForce (316 + p) = s.altInForce (316 + p) ∧ u.map = s.map

section
variable {s t u v : State} {p q : Nat}

theorem PortHeld.refl (s : State) (p : Nat) : PortHeld s p s := ⟨rfl, rfl, rfl, rfl⟩

theorem PortHeld.trans (h : PortHeld s p t) (h' : PortHeld t p u) : PortHeld s p u := by
  obtain ⟨hreg, hport, halt, hmap⟩ := h
  obtain ⟨hreg', hport', halt', hmap'⟩ := h'
  exact ⟨hreg'.trans hreg, hport'.trans hport, halt'.trans halt, hmap'.trans hmap⟩

theorem PortHeld.ite {c : Prop} [Decidable c] (ht : PortHeld s p t) (hu : PortHeld s p u) : PortHeld s p (if c then t else u) := by
  split
  · exact ht
  · exact hu

theorem logStep_held (s : State) (kind i detail p : Nat) : PortHeld s p (s.logStep kind i detail) := ⟨rfl, rfl, rfl, rfl⟩

theorem modPort_held (s : State) (f : PortSt → PortSt) (h : p ≠ q) : PortHeld s p (s.modPort q f) :=
  ⟨rfl, (port_modPort s q p f).trans (if_neg h), rfl, rfl⟩

theorem portTo_held (s : State) (st n : Nat) (hp : p < 6) (h : p ≠ q) : PortHeld s p (s.portTo q st n) := by
  obtain ⟨hframe, hreg⟩ := portTo_entersOnly s q st n
  refine ⟨hreg _ (portState_quiet hp) (by unfold PORT_STATE; omega), port_congr ((congrArg State.ports hframe).trans rfl) p,
    congrArg (fun l : List Nat => l.contains (316 + p)) ((congrArg (fun w : State => w.bring.carry.alts) hframe).trans rfl),
    (congrArg State.map hframe).trans rfl⟩

theorem putAlt_inForce (s : State) (i : Nat) (on : Bool) : (s.putAlt i on).altInForce i = on := by
  rw [State.altInForce, State.putAlt]
  cases on with
  | true => simp [State.writeCarry]
  | false => simp [State.writeCarry]

theorem putAlt_other (s : State) {i j : Nat} (on : Bool) (h : j ≠ i) : (s.putAlt i on).altInForce j = s.altInForce j := by
  rw [State.altInForce, State.putAlt]
  cases on with
  | true => simp [State.writeCarry, State.altInForce, h]
  | false => simp [State.writeCarry, State.altInForce, h]

theorem putAlt_held (s : State) (on : Bool) (h : p ≠ q) : PortHeld s p (s.putAlt (316 + q) on) :=
  ⟨rfl, rfl, putAlt_other s on (by omega), rfl⟩

/-- What a port is to S6: in use for the fabric and not of a dimension of size 1. -/
def State.portUsed (s : State) (p : Nat) : Bool :=
  s.flag (PORT_STATE p) PORT_STATE_licensed && s.flag (PORT_STATE p) PORT_STATE_enable && !s.portAlone p

theorem PortHeld.flag (h : PortHeld s p u) (f : Fld) : u.flag (PORT_STATE p) f = s.flag (PORT_STATE p) f :=
  congrArg (fldGet · f != 0) h.1

theorem PortHeld.alone (h : PortHeld s p u) : u.portAlone p = s.portAlone p := by
  rw [State.portAlone, State.portAlone, h.2.2.2]

theorem PortHeld.used (h : PortHeld s p u) : u.portUsed p = s.portUsed p := by
  rw [State.portUsed, h.flag, h.flag, h.alone, State.portUsed]

/-! The beginning of S6. -/

theorem portBegins_held (s : State) (hp : p < 6) (h : p ≠ q) : PortHeld s p (s.portBegins q) := by
  unfold State.portBegins
  exact (PortHeld.refl s p).ite (((logStep_held s _ _ _ p).trans (modPort_held _ _ h)).ite
    ((logStep_held s _ _ _ p).trans (portTo_held _ _ _ hp h)))

theorem portBegins_idle (h : s.portAlone p = true) : s.portBegins p = s := if_pos (by rw [h, Bool.or_true])

theorem portBegins_trains (hp : p < 6) (hused : s.portUsed p = true) (halt : s.altInForce (316 + p) = false) :
    (s.portBegins p).portSt p = 1 := by
  rw [State.portUsed, Bool.and_eq_true, Bool.not_eq_true'] at hused
  obtain ⟨hlicensed, halone⟩ := hused
  have hbegins : s.portBegins p = (s.logStep logINTENT (316 + p) 0).portTo p 1 0 := by
    rw [State.portBegins, hlicensed, halone, halt]
    rfl
  rw [hbegins]
  by_cases h : (s.logStep logINTENT (316 + p) 0).portSt p = 1
  · rw [portTo_same h]
    exact h
  · exact (portTo_shows hp (by decide) (by decide) (Ne.symm h)).1

/-- The ports begin to train. -/
def State.portsBegin (s : State) : State := forEach (List.range 6) s State.portBegins

theorem portsBegin_each {P : Nat → State → Prop} (hset : ∀ p u, p < 6 → PortHeld s p u → P p (u.portBegins p))
    (hstay : ∀ p u v, PortHeld u p v → P p u → P p v) : ∀ p, p < 6 → P p s.portsBegin :=
  forEach_range_each (K := PortHeld s) (fun u _ _ hi _ hij h => h.trans (portBegins_held u hi hij))
    (fun u i hi h => hset i u hi h) (fun u i _ hi _ hij h => hstay i u _ (portBegins_held u hi hij) h) s
    (fun i _ => PortHeld.refl s i)

theorem portsBegin_alone : ∀ p, p < 6 → s.portAlone p = true → s.portsBegin.portSt p = s.portSt p :=
  portsBegin_each (P := fun p u => s.portAlone p = true → u.portSt p = s.portSt p)
    (fun _ _ _ h halone => by
      rw [portBegins_idle (h.alone.trans halone)]
      exact congrArg (fldGet · PORT_STATE_state) h.1)
    (fun _ _ _ h hu halone => (congrArg (fldGet · PORT_STATE_state) h.1).trans (hu halone))

theorem portsBegin_trains : ∀ p, p < 6 → s.portUsed p = true → s.altInForce (316 + p) = false → s.portsBegin.portSt p = 1 :=
  portsBegin_each (P := fun p u => s.portUsed p = true → s.altInForce (316 + p) = false → u.portSt p = 1)
    (fun _ _ hp h hused halt => portBegins_trains hp (h.used.trans hused) (h.2.2.1.trans halt))
    (fun _ _ _ h hu hused halt => (congrArg (fldGet · PORT_STATE_state) h.1).trans (hu hused halt))

/-! The end of S6. -/

theorem portEnds_held (s : State) (hp : p < 6) (h : p ≠ q) : PortHeld s p (s.portEnds q) := by
  unfold State.portEnds
  refine (PortHeld.refl s p).ite (PortHeld.ite ?_ ?_)
  · exact (((logStep_held s _ _ _ p).trans (putAlt_held _ _ h)).trans (modPort_held _ _ h)).trans (portTo_held _ _ _ hp h)
  · exact ((logStep_held s _ _ _ p).trans (putAlt_held _ _ h)).ite (logStep_held s _ _ _ p)

/-- A port held DARK by its alternative. -/
def HeldDark (p : Nat) (u : State) : Prop := u.portSt p = 0 ∧ (u.port p).heldDark = true ∧ u.altInForce (316 + p) = true

theorem HeldDark.held (h : HeldDark p u) (huv : PortHeld u p v) : HeldDark p v := by
  obtain ⟨hstate, hdark, halt⟩ := h
  obtain ⟨hreg, hport, halt', -⟩ := huv
  exact ⟨(congrArg (fldGet · PORT_STATE_state) hreg).trans hstate, (congrArg PortSt.heldDark hport).trans hdark, halt'.trans halt⟩

theorem portEnds_dark (hp : p < 6) (hused : s.portUsed p = true) (halt : s.altInForce (316 + p) = false) (hdown : s.portSt p = 9) :
    HeldDark p (s.portEnds p) := by
  rw [State.portUsed, Bool.and_eq_true, Bool.not_eq_true'] at hused
  obtain ⟨hlicensed, halone⟩ := hused
  have hends : s.portEnds p = (((s.logStep logALTERNATIVE (316 + p) 0).putAlt (316 + p) true).modPort p
      (fun t => { t with heldDark := true })).portTo p 0 0 := by
    rw [State.portEnds, hlicensed, halone, halt, hdown]
    rfl
  have hinForce := putAlt_inForce (s.logStep logALTERNATIVE (316 + p) 0) (316 + p) true
  have hstate : ((s.logStep logALTERNATIVE (316 + p) 0).putAlt (316 + p) true).portSt p = 9 := hdown
  rw [hends]
  generalize (s.logStep logALTERNATIVE (316 + p) 0).putAlt (316 + p) true = u at hinForce hstate ⊢
  have hne : 0 ≠ (u.modPort p (fun t => { t with heldDark := true })).portSt p := fun h => absurd (h.trans hstate) (by decide)
  obtain ⟨hframe, -⟩ := portTo_entersOnly (u.modPort p (fun t => { t with heldDark := true })) p 0 0
  refine ⟨(portTo_shows hp (by decide) (by decide) hne).1, ?_, ?_⟩
  · have hports : ((u.modPort p (fun t => { t with heldDark := true })).portTo p 0 0).ports =
        (u.modPort p (fun t => { t with heldDark := true })).ports := (congrArg State.ports hframe).trans rfl
    rw [port_congr hports, port_modPort, if_pos rfl]
  · exact (congrArg (fun l : List Nat => l.contains (316 + p)) ((congrArg (fun w : State => w.bring.carry.alts) hframe).trans rfl)).trans
      hinForce

/-- What the ports leave at the end of S6. -/
def State.portsEnd (s : State) : State := forEach (List.range 6) s State.portEnds

theorem portsEnd_dark : ∀ p, p < 6 → s.portUsed p = true → s.altInForce (316 + p) = false → s.portSt p = 9 → HeldDark p s.portsEnd :=
  forEach_range_each (K := PortHeld s)
    (P := fun p u => s.portUsed p = true → s.altInForce (316 + p) = false → s.portSt p = 9 → HeldDark p u)
    (fun u _ _ hi _ hij h => h.trans (portEnds_held u hi hij))
    (fun _ _ hi h hu ha hd => portEnds_dark hi (h.used.trans hu) (h.2.2.1.trans ha)
      ((congrArg (fldGet · PORT_STATE_state) h.1).trans hd))
    (fun u _ _ hi _ hij h hu ha hd => (h hu ha hd).held (portEnds_held u hi hij)) s (fun i _ => PortHeld.refl s i)

/-- The end of a stage leaves the ports. -/
theorem EndsStage.portHeld {stage : Nat} (h : EndsStage stage s u) (hp : p < 6) : PortHeld s p u :=
  ⟨h.2 _ (stageReg_low (by unfold PORT_STATE BRG_STAGE; omega)), port_congr ((congrArg State.ports h.1).trans rfl) p,
    congrArg (fun l : List Nat => l.contains (316 + p)) ((congrArg (fun w : State => w.bring.carry.alts) h.1).trans rfl),
    (congrArg State.map h.1).trans rfl⟩

/-! S6 as a whole. -/

variable {duration : Nat}

theorem stageS6_begins (h : s.stageIs 6 0 = true) : s.stageS6 duration = s.portsBegin.setStage 6 1 := if_pos h

theorem stageS6_ends (h : s.stageIs 6 1 = true) (hmap : s.map.loaded = true) : ∃ result words,
    s.stageS6 duration = ((s.portsEnd.writeCard 6 result duration 0 words).clearCards 7).setStage 7 1 := by
  have hnot : s.stageIs 6 0 = false := by
    rw [State.stageIs, Bool.and_eq_true, beq_iff_eq, beq_iff_eq] at h
    rw [State.stageIs, h.1, h.2]
    rfl
  rw [State.stageS6, hnot, if_neg Bool.false_ne_true, h, hmap]
  exact ⟨_, _, rfl⟩

theorem stageS6_idle (h : s.stageIs 6 0 = false) (h' : s.stageIs 6 1 = false) : s.stageS6 duration = s := by
  rw [State.stageS6, h, h']
  rfl

theorem portUsed_of (hlicensed : s.flag (PORT_STATE p) PORT_STATE_licensed = true) (henable : s.flag (PORT_STATE p) PORT_STATE_enable = true)
    (halone : s.portAlone p = false) : s.portUsed p = true := by
  rw [State.portUsed, hlicensed, henable, halone]
  rfl

theorem stageS6_begins_shows (h : s.stageIs 6 0 = true) (ht : t = s.stageS6 duration) : t.stageIs 6 1 = true ∧
    (∀ p, p < 6 → s.portAlone p = true → t.portSt p = s.portSt p) ∧
    ∀ p, p < 6 → s.portUsed p = true → s.altInForce (316 + p) = false → t.portSt p = 1 := by
  rw [ht, stageS6_begins h]
  have hheld : ∀ {p}, p < 6 → (s.portsBegin.setStage 6 1).portSt p = s.portsBegin.portSt p := fun hp =>
    congrArg (fldGet · PORT_STATE_state) ((setStage_ends (stage := 6) s.portsBegin 6 1).portHeld hp).1
  exact ⟨setStage_is _ (by decide) (by decide), fun p hp halone => (hheld hp).trans (portsBegin_alone p hp halone),
    fun p hp hused halt => (hheld hp).trans (portsBegin_trains p hp hused halt)⟩

theorem stageS6_ends_shows (h : s.stageIs 6 1 = true) (hmap : s.map.loaded = true) (ht : t = s.stageS6 duration) : t.stageIs 7 1 = true ∧
    ∀ p, p < 6 → s.portUsed p = true → s.altInForce (316 + p) = false → s.portSt p = 9 → HeldDark p t := by
  obtain ⟨result, words, hends⟩ := stageS6_ends (duration := duration) h hmap
  rw [ht, hends]
  have hend : EndsStage 6 s.portsEnd (((s.portsEnd.writeCard 6 result duration 0 words).clearCards 7).setStage 7 1) :=
    ((writeCard_ends _ (by decide) _ _ _ _).trans ((clearCards_loads _ 7).mono fun a ⟨k, i, hk, hk9, hi, ha⟩ =>
      .inr ⟨k, i, by omega, hk9, hi, ha⟩).endsStage).trans (setStage_ends _ _ _)
  exact ⟨setStage_is _ (by decide) (by decide), fun p hp hused halt hdown =>
    (portsEnd_dark p hp hused halt hdown).held (hend.portHeld hp)⟩

end

end Sys2Proof.Machine
end

