-- ==== Sys2Proof/Proofs/StageSeating.lean ====
section
/-! Stage S4 of a start: the quiz of the seats, the seating of the forms, and the tiles afresh (01 R29, 20 R480-R482, R490). -/

namespace Sys2Proof.Machine

/-! The quiz of the seats. -/

/-- The quiz of seat m leaves the power, the clocks, the security block, and the attendance of every other seat. -/
def QuizKeeps (m : Nat) (s t : State) : Prop :=
  t.power = s.power ∧ t.clock = s.clock ∧ t.sec = s.sec ∧ ∀ n, n ≠ m → t.seatEntry n = s.seatEntry n

section
variable {s t u : State} {m n : Nat} {quiz : List (Nat × Nat)} {covers : List (Nat × Bool × Nat × Nat)}

theorem QuizKeeps.refl (m : Nat) (s : State) : QuizKeeps m s s := ⟨rfl, rfl, rfl, fun _ _ => rfl⟩

theorem QuizKeeps.trans (h : QuizKeeps m s t) (h' : QuizKeeps m t u) : QuizKeeps m s u := by
  obtain ⟨hpower, hclock, hsec, hseats⟩ := h
  obtain ⟨hpower', hclock', hsec', hseats'⟩ := h'
  exact ⟨hpower'.trans hpower, hclock'.trans hclock, hsec'.trans hsec, fun n hn => (hseats' n hn).trans (hseats n hn)⟩

theorem QuizKeeps.ite {c : Prop} [Decidable c] (ht : QuizKeeps m s t) (hu : QuizKeeps m s u) : QuizKeeps m s (if c then t else u) := by
  split
  · exact ht
  · exact hu

theorem Reports.quizKeeps (h : Reports s t) (m : Nat) : QuizKeeps m s t :=
  ⟨(congrArg State.power h.1).trans rfl, (congrArg State.clock h.1).trans rfl, (congrArg State.sec h.1).trans rfl, fun n _ =>
    congrArg (tgetD · n seatEntry0) ((congrArg (fun w : State => w.bring.carry.seats) h.1).trans rfl)⟩

theorem setSeat_quizKeeps (s : State) (m status test passes : Nat) : QuizKeeps m s (s.setSeat m status test passes) :=
  ⟨rfl, rfl, rfl, fun n hn => (tgetD_tput s.bring.carry.seats m n _ seatEntry0).trans (if_neg hn)⟩

theorem seatFails_quizKeeps (s : State) (m test : Nat) : QuizKeeps m s (s.seatFails m test) :=
  ((setSeat_quizKeeps s m 2 test 0).trans ((reports_raise _ _ _ _ _ _ _ _ (Reports.refl _)).quizKeeps m)).ite
    (setSeat_quizKeeps s m (s.seatStatus m) test 0)

theorem refine_quizKeeps (s : State) (m test : Nat) : QuizKeeps m s (s.refine m test) :=
  (seatFails_quizKeeps s m test).ite (((setSeat_quizKeeps s m _ _ _).ite (setSeat_quizKeeps s m _ _ _)).ite (QuizKeeps.refl m s))

theorem coverFault_quizKeeps (s : State) (m : Nat) (col : Bool) (group value : Nat) :
    QuizKeeps m s (s.coverFault m col group value).2 := by
  unfold State.coverFault
  dsimp only
  split
  · exact QuizKeeps.refl m s
  · split
    · exact ⟨rfl, rfl, rfl, fun n hn => (tgetD_tput s.bring.carry.seats m n _ seatEntry0).trans (if_neg hn)⟩
    · exact QuizKeeps.refl m s

theorem coverSeat_quizKeeps (s : State) (m : Nat) (covers : List (Nat × Bool × Nat × Nat)) : QuizKeeps m s (s.coverSeat m covers).2 := by
  refine foldl_keeps_mem (P := fun x : Bool × State => QuizKeeps m s x.2) covers (fun x c _ hx => ?_) (QuizKeeps.refl m s)
  dsimp only
  split
  · exact hx
  · split
    · exact hx.trans (coverFault_quizKeeps x.2 m _ _ _)
    · exact hx

theorem quizSeat_keeps (s : State) (m : Nat) (quiz : List (Nat × Nat)) (covers : List (Nat × Bool × Nat × Nat)) :
    QuizKeeps m s (s.quizSeat m quiz covers) := by
  have hlog : ∀ (v : State) kind i detail, QuizKeeps m v (v.logStep kind i detail) := fun _ _ _ _ => ⟨rfl, rfl, rfl, fun _ _ => rfl⟩
  have hdead := (hlog s logALTERNATIVE (12 + m) 0).trans (refine_quizKeeps _ m 0x01)
  unfold State.quizSeat
  refine (QuizKeeps.refl m s).ite (QuizKeeps.ite (hdead.trans ⟨rfl, rfl, rfl, fun _ _ => rfl⟩) ?_)
  exact (((hlog s _ _ _).trans (coverSeat_quizKeeps _ m covers)).trans (hlog _ _ _ _)).trans (refine_quizKeeps _ m _)

/-- A seat that fails a test is not good. -/
theorem seatFails_dead (s : State) (m test : Nat) : (s.seatFails m test).seatGood m = false := by
  have hset : ∀ status, status < 4 → status ≠ 0 → (s.setSeat m status test 0).seatGood m = false := fun status hlt hne => by
    rw [State.seatGood, seatStatus_setSeat s m hlt]
    exact beq_eq_false_iff_ne.2 hne
  have hstatus : s.seatStatus m < 4 := Nat.mod_lt _ (by decide)
  by_cases h : s.seatGood m = true
  · rw [State.seatFails, if_pos h]
    have hraise := (reports_raise evSeatDead (s.partOfForm (m / 18)) 2 m test 0 0 0 (Reports.refl (s.setSeat m 2 test 0))).1
    have hseats := (congrArg (fun w : State => w.bring.carry.seats) hraise).trans rfl
    exact (congrArg (fun l : Tbl Nat => bitsAt (tgetD l m seatEntry0) 0 2 == 0) hseats).trans (hset 2 (by decide) (by decide))
  · rw [State.seatFails, if_neg h]
    exact hset _ hstatus fun hzero => h (by rw [State.seatGood, hzero]; rfl)

theorem refine_dead (s : State) (m : Nat) {test : Nat} (h : test ≠ 0) : (s.refine m test).seatGood m = false := by
  rw [State.refine, if_pos h]
  exact seatFails_dead s m test

/-- A seat of which the quiz found a fault is not good. -/
theorem quizSeat_dead (h : s.seatStatus m ≠ 1) {test : Nat} (hpos : 0 < test) (hlt : test < 64) :
    (s.quizSeat m [(m, test)] []).seatGood m = false := by
  have hfind : [(m, test)].find? (fun x => x.1 == m) = some (m, test) := List.find?_cons_of_pos (beq_self_eq_true m)
  rw [State.quizSeat, if_neg h]
  split
  · exact (refine_dead (s.logStep logALTERNATIVE (12 + m) 0) m (by decide))
  · rw [hfind]
    refine refine_dead _ m ?_
    dsimp only
    omega

/-- The quiz of every seat. -/
def State.quizSeats (s : State) (quiz : List (Nat × Nat)) (covers : List (Nat × Bool × Nat × Nat)) : State :=
  forEach (List.range 288) s (fun s m => s.quizSeat m quiz covers)

theorem quizSeats_keeps (s : State) (quiz : List (Nat × Nat)) (covers : List (Nat × Bool × Nat × Nat)) :
    (s.quizSeats quiz covers).power = s.power ∧ (s.quizSeats quiz covers).clock = s.clock ∧ (s.quizSeats quiz covers).sec = s.sec :=
  foldl_keeps_mem (P := fun u : State => u.power = s.power ∧ u.clock = s.clock ∧ u.sec = s.sec) _ (fun u m _ hu => by
    obtain ⟨hpower, hclock, hsec⟩ := hu
    obtain ⟨hpower', hclock', hsec', -⟩ := quizSeat_keeps u m quiz covers
    exact ⟨hpower'.trans hpower, hclock'.trans hclock, hsec'.trans hsec⟩) ⟨rfl, rfl, rfl⟩

theorem quizSeats_dead (hm : m < 288) (h : s.seatStatus m ≠ 1) {test : Nat} (hpos : 0 < test) (hlt : test < 64) :
    (s.quizSeats [(m, test)] []).seatGood m = false :=
  forEach_range_each (K := fun i u => u.seatEntry i = s.seatEntry i) (P := fun i u => i = m → u.seatGood m = false)
    (fun u i j _ _ hij hu => ((quizSeat_keeps u j _ _).2.2.2 i hij).trans hu)
    (fun u i _ hu hi => by
      rw [hi] at hu ⊢
      exact quizSeat_dead (fun hone => h ((congrArg (fun e => bitsAt e 0 2) hu).symm.trans hone)) hpos hlt)
    (fun u i j _ _ hij hu hi => by
      have hentry := (quizSeat_keeps u j [(m, test)] []).2.2.2 m (by omega)
      exact (congrArg (fun e => bitsAt e 0 2 == 0) hentry).trans (hu hi)) s (fun _ _ => rfl) m hm rfl

end

/-! The seating of the forms, and the tiles afresh. -/

/-- What seating leaves: the power, the clocks, the security block, the attendance of the seats, and the status of every form but those
of F. -/
def SeatingKeeps (F : Nat → Prop) (s t : State) : Prop :=
  t.power = s.power ∧ t.clock = s.clock ∧ t.sec = s.sec ∧ t.bring.carry.seats = s.bring.carry.seats ∧
    ∀ f, f < 16 → ¬ F f → t.reg (STK_FORM_STATUS f) = s.reg (STK_FORM_STATUS f)

section
variable {F : Nat → Prop} {s t u : State} {f lt : Nat}

theorem SeatingKeeps.refl (F : Nat → Prop) (s : State) : SeatingKeeps F s s := ⟨rfl, rfl, rfl, rfl, fun _ _ _ => rfl⟩

theorem SeatingKeeps.trans (h : SeatingKeeps F s t) (h' : SeatingKeeps F t u) : SeatingKeeps F s u := by
  obtain ⟨hpower, hclock, hsec, hseats, hreg⟩ := h
  obtain ⟨hpower', hclock', hsec', hseats', hreg'⟩ := h'
  exact ⟨hpower'.trans hpower, hclock'.trans hclock, hsec'.trans hsec, hseats'.trans hseats,
    fun f hf hF => (hreg' f hf hF).trans (hreg f hf hF)⟩

theorem SeatingKeeps.ite {c : Prop} [Decidable c] (ht : SeatingKeeps F s t) (hu : SeatingKeeps F s u) :
    SeatingKeeps F s (if c then t else u) := by
  split
  · exact ht
  · exact hu

theorem SeatingKeeps.forEach {α : Type} (h : SeatingKeeps F s t) {l : List α} {step : State → α → State}
    (hstep : ∀ u, ∀ x ∈ l, SeatingKeeps F u (step u x)) : SeatingKeeps F s (forEach l t step) :=
  foldl_keeps_mem l (fun u x hx hu => hu.trans (hstep u x hx)) h

theorem LoadsOnly.seating {A : Nat → Prop} (h : LoadsOnly A s t) (hA : ∀ f, f < 16 → ¬ F f → ¬ A (STK_FORM_STATUS f)) : SeatingKeeps F s t :=
  ⟨(congrArg State.power h.1).trans rfl, (congrArg State.clock h.1).trans rfl, (congrArg State.sec h.1).trans rfl,
    (congrArg (fun u : State => u.bring.carry.seats) h.1).trans rfl, fun f hf hF => h.2 _ (hA f hf hF)⟩

theorem putSeat_seating (s : State) (hlt : lt < 256) (k : Nat) : SeatingKeeps F s (s.putSeat lt k) :=
  ((LoadsOnly.refl (· = STK_SEAT_LT lt) s).setF rfl _ _).seating fun f _ _ h => by
    unfold STK_FORM_STATUS STK_SEAT_LT at h
    omega

theorem formTile_lt (hf : f < 16) {k : Nat} (hk : k ∈ List.range 16) : 16 * f + k < 256 := by
  have hk16 := List.mem_range.1 hk
  omega

theorem loadExclusions_seating (s : State) (lt : Nat) : SeatingKeeps F s (s.loadExclusions lt) :=
  (loadExclusions_loads s lt).seating fun f _ _ h => by
    unfold engineReg MXE_STATUS_LT MXE_PROGRESS_LT VE_STATUS_LT VE_PROGRESS_LT GC_PATCH_LT MXE_REPAIR_ROW_LT MXE_REPAIR_COL_LT GC_STATUS
      STK_FORM_STATUS at h
    omega

theorem showFormStatus_seating (s : State) (f : Nat) (excluded : Bool) : SeatingKeeps (· = f) s (s.showFormStatus f excluded) :=
  (showFormStatus_loads s f excluded).seating fun g _ hne h => by
    rcases h with h | ⟨k, hk, h | h⟩ | h
    · unfold STK_FORM_STATUS at h
      omega
    · unfold STK_FORM_STATUS BRG_SEAT at h
      omega
    · unfold STK_FORM_STATUS MESH_ERRORS_SEAT at h
      omega
    · unfold STK_FORM_STATUS ARI_SUMMARY at h
      omega

theorem logAppend_seating (s : State) (kind stage step detail : Nat) (body : List Nat) :
    SeatingKeeps F s (s.logAppend kind stage step detail body) := ⟨rfl, rfl, rfl, rfl, fun _ _ _ => rfl⟩

theorem logStep_seating (s : State) (kind i detail : Nat) : SeatingKeeps F s (s.logStep kind i detail) := logAppend_seating s _ _ _ _ _

theorem putAlt_seating (s : State) (i : Nat) (on : Bool) : SeatingKeeps F s (s.putAlt i on) := ⟨rfl, rfl, rfl, rfl, fun _ _ _ => rfl⟩

theorem loseLockers_seating (s : State) (lt : Nat) (keep : Bool) : SeatingKeeps F s (s.loseLockers lt keep) :=
  ⟨rfl, rfl, rfl, rfl, fun _ _ _ => rfl⟩

theorem reseat_seating (s : State) (hlt : lt < 256) : SeatingKeeps F s (s.reseat lt) := by
  have hseat : ∀ k, SeatingKeeps F s ((s.setF (STK_SEAT_LT lt) STK_SEAT_LT_seat k).incF (STK_SEAT_LT lt) STK_SEAT_LT_moves 1) := fun k =>
    (((LoadsOnly.refl (· = STK_SEAT_LT lt) s).setF rfl _ _).incF rfl _ _).seating fun f _ _ h => by
      unfold STK_FORM_STATUS STK_SEAT_LT at h
      omega
  have hevac : ∀ v : State, SeatingKeeps F v (v.setEvacPending lt true) := fun v =>
    ((LoadsOnly.refl (· = BRG_EVAC_PENDING (lt / 32)) v).setB rfl _ _).seating fun f hf _ h => by
      unfold STK_FORM_STATUS BRG_EVAC_PENDING at h
      omega
  rw [State.reseat]
  split
  · exact (((hseat _).trans (loseLockers_seating _ lt true)).trans (hevac _)).trans (logAppend_seating _ _ _ _ _ _)
  · exact SeatingKeeps.refl F s

theorem seatForm_seating (s : State) (hf : f < 16) : SeatingKeeps (· = f) s (s.seatForm f) := by
  unfold State.seatForm
  dsimp only
  refine SeatingKeeps.forEach (SeatingKeeps.ite ?_ ?_) fun u k _ => loadExclusions_seating u _
  · exact ((SeatingKeeps.refl _ s).forEach fun u k hk => putSeat_seating u (formTile_lt hf hk) _).trans (showFormStatus_seating _ f _)
  · exact ((SeatingKeeps.refl _ s).forEach fun u k hk => putSeat_seating u (formTile_lt hf hk) _).trans (showFormStatus_seating _ f _)

theorem takePlan_seating (s : State) (hf : f < 16) : SeatingKeeps F s (s.takePlan f) :=
  (SeatingKeeps.refl F s).forEach fun u _ hk => putSeat_seating u (formTile_lt hf hk) _

theorem displaced_lt (hf : f < 16) (hlt : lt ∈ s.displaced f) : lt < 256 := by
  obtain ⟨k, hk, rfl⟩ := List.mem_map.1 (List.mem_filter.1 hlt).1
  exact formTile_lt hf hk

theorem seatAtS4_seating (s : State) (hf : f < 16) (excluded : Bool) : SeatingKeeps (· = f) s (s.seatAtS4 f excluded) := by
  unfold State.seatAtS4
  refine SeatingKeeps.ite ?_ (SeatingKeeps.ite ?_ ?_)
  · exact ((SeatingKeeps.refl _ s).forEach fun u k hk => putSeat_seating u (formTile_lt hf hk) _).trans (showFormStatus_seating _ f _)
  · exact (((takePlan_seating s hf).forEach fun u n hn => reseat_seating u (displaced_lt hf hn)).trans
      (showFormStatus_seating _ f false)).forEach fun u _ _ => loadExclusions_seating u _
  · exact (seatForm_seating s hf).forEach fun u _ _ => (loseLockers_seating u _ _).ite (SeatingKeeps.refl _ u)

theorem runStep_seating (s : State) (i : Nat) (fails : Bool) : SeatingKeeps F s (s.runStep i fails).2 := by
  have hretry := logStep_seating (F := F) s logRETRY i 0
  have hintent := logStep_seating (F := F) s logINTENT i 0
  unfold State.runStep
  dsimp only
  split
  · split
    · split
      · exact hretry.trans (logStep_seating _ _ _ _)
      · exact (hretry.trans (logStep_seating _ _ _ _)).trans (putAlt_seating _ _ _)
    · exact logStep_seating s _ _ _
  · split
    · exact (hintent.trans (logStep_seating _ _ _ _)).trans (putAlt_seating _ _ _)
    · exact hintent.trans (logStep_seating _ _ _ _)

/-- A step that fails takes its alternative. -/
theorem runStep_fails (s : State) (i : Nat) : (s.runStep i true).1 = true := by
  unfold State.runStep
  dsimp only
  split
  · split
    · rfl
    · rfl
  · rfl

theorem freshTile_seating (s : State) (lt : Nat) : SeatingKeeps F s (s.freshTile lt) := by
  have hcleared : ∀ v : State, SeatingKeeps F v (v.clearEngines lt) := fun v =>
    SeatingKeeps.trans ⟨rfl, rfl, rfl, rfl, fun _ _ _ => rfl⟩ ((clearEngineRegs_loads _ lt).seating fun f hf _ h => by
      unfold engineReg MXE_STATUS_LT MXE_PROGRESS_LT VE_STATUS_LT VE_PROGRESS_LT GC_PATCH_LT MXE_REPAIR_ROW_LT MXE_REPAIR_COL_LT GC_STATUS
        STK_FORM_STATUS at h
      omega)
  have hlocal : ∀ (v : State) image, SeatingKeeps F v (v.loadLocal lt image) := fun v image => by
    obtain ⟨hframe, -⟩ := loadLocal_loads v lt image
    exact ⟨(congrArg State.power hframe).trans rfl, (congrArg State.clock hframe).trans rfl, (congrArg State.sec hframe).trans rfl,
      (congrArg (fun w : State => w.bring.carry.seats) hframe).trans rfl, fun f _ _ =>
      (congrArg (State.reg · (STK_FORM_STATUS f)) hframe).trans rfl⟩
  have hmem : SeatingKeeps F s { s with mem := tbClear s.mem lt } := ⟨rfl, rfl, rfl, rfl, fun _ _ _ => rfl⟩
  exact ((hmem.trans (hcleared _)).trans (hlocal _ _)).trans (loadExclusions_seating _ lt)

/-! An excluded form. -/

theorem foldl_bits_lt (p : Nat → Bool) (n : Nat) : (List.range n).foldl (fun v k => if p k then v else v + 2 ^ k) 0 < 2 ^ n := by
  induction n with
  | zero => exact Nat.one_pos
  | succ n ih =>
    rw [List.range_succ, List.foldl_append, Nat.pow_succ]
    simp only [List.foldl_cons, List.foldl_nil]
    split
    · omega
    · omega

/-- The word that shows an excluded form. -/
theorem excludedWord_bit {dead isolated : Nat} (hdead : dead < 2 ^ 18) :
    fldGet (BitVec.ofNat 32 (dead + 2 ^ 21 + 2 ^ 22 * isolated)) STK_FORM_STATUS_excluded = 1 := by
  simp only [fldGet, STK_FORM_STATUS_excluded, BitVec.toNat_ofNat]
  omega

/-- Showing the seats and the summary leaves the status itself. -/
theorem showForm_status (s : State) (hf : f < 16) : (s.showForm f).ariResum.reg (STK_FORM_STATUS f) = s.reg (STK_FORM_STATUS f) := by
  have hshown : LoadsOnly (fun a => 0xf00000030000 ≤ a) s (s.showForm f).ariResum := by
    refine LoadsOnly.setReg (LoadsOnly.forEach (LoadsOnly.refl _ s) fun u k _ => ?_) (by decide) _
    exact ((LoadsOnly.refl _ u).setReg (by unfold BRG_SEAT; omega) _).setB (by unfold MESH_ERRORS_SEAT; omega) _ _
  exact hshown.2 _ (by unfold STK_FORM_STATUS; omega)

theorem showFormStatus_excludes (s : State) (hf : f < 16) : (s.showFormStatus f true).excluded f = true := by
  have hdead : s.deadMask f < 2 ^ 18 := foldl_bits_lt (fun k => s.seatGood (18 * f + k)) 18
  have hword : (s.showFormStatus f true).reg (STK_FORM_STATUS f) =
      BitVec.ofNat 32 (s.deadMask f + 2 ^ 21 + 2 ^ 22 * boolNat (s.isolated f)) := by
    refine (showForm_status _ hf).trans (((reg_setReg _ _ _ _).trans (if_pos rfl)).trans ?_)
    rfl
  rw [State.excluded, State.flag, State.getF, hword, excludedWord_bit hdead]
  rfl

/-- One form of S4: its ungating, and its seats. -/
def State.startForm (s : State) (f : Nat) (fails : Bool) : State :=
  (s.runStep (300 + f) fails).2.seatAtS4 f (s.runStep (300 + f) fails).1

theorem startForm_seating (s : State) (hf : f < 16) (fails : Bool) : SeatingKeeps (· = f) s (s.startForm f fails) :=
  (runStep_seating s _ fails).trans (seatAtS4_seating _ hf _)

theorem startForm_excludes (s : State) (hf : f < 16) : (s.startForm f true).excluded f = true := by
  rw [State.startForm, runStep_fails]
  exact showFormStatus_excludes _ hf

/-- The forms of S4, one after another. -/
def State.startForms (s : State) (gate : List Nat) : State :=
  forEach (List.range 16) s (fun s f => s.startForm f (gate.contains f))

theorem startForms_keeps (s : State) (gate : List Nat) : SeatingKeeps (fun _ => True) s (s.startForms gate) :=
  (SeatingKeeps.refl _ s).forEach fun u f hf => by
    obtain ⟨hpower, hclock, hsec, hseats, -⟩ := startForm_seating u (List.mem_range.1 hf) (gate.contains f)
    exact ⟨hpower, hclock, hsec, hseats, fun _ _ h => absurd trivial h⟩

theorem excluded_keeps (h : SeatingKeeps F s t) (hf : f < 16) (hF : ¬ F f) : t.excluded f = s.excluded f :=
  congrArg (fldGet · STK_FORM_STATUS_excluded != 0) (h.2.2.2.2 f hf hF)

theorem startForms_excludes (s : State) (gate : List Nat) :
    ∀ f, f < 16 → gate.contains f = true → (s.startForms gate).excluded f = true :=
  forEach_range_each (K := fun _ _ => True) (P := fun f u => gate.contains f = true → u.excluded f = true)
    (fun _ _ _ _ _ _ _ => trivial) (fun u f hf _ hgate => by
      rw [hgate]
      exact startForm_excludes u hf)
    (fun u f g hf hg hne h hgate => (excluded_keeps (startForm_seating u hg _) hf hne).trans (h hgate)) s (fun _ _ => trivial)

/-- Every tile that is present, afresh. -/
def State.freshTiles (s : State) : State := forEach ((List.range 256).filter s.present) s (fun s lt => s.freshTile lt)

theorem freshTiles_keeps (s : State) : SeatingKeeps (fun _ => False) s s.freshTiles :=
  (SeatingKeeps.refl _ s).forEach fun u lt _ => freshTile_seating u lt

/-! S4 as a whole. -/

/-- The path resistances measured, and a thermal model that holds. -/
def State.withPaths (s : State) (rf : List Nat) : State :=
  ({ s with
    bring := { s.bring with carry := { s.bring.carry with rf := (List.range 16).map (fun f => (f, rf.getD f 0)) } }
    therm := { s.therm with modelValid := true } } : State).writeCarry

/-- What S4 leaves before its card. -/
def State.seated (s : State) (quiz : List (Nat × Nat)) (covers : List (Nat × Bool × Nat × Nat)) (gate rf : List Nat) : State :=
  (((s.quizSeats quiz covers).startForms gate).freshTiles).withPaths rf

theorem stageS4_passes (s : State) (duration : Nat) (quiz : List (Nat × Nat)) (covers : List (Nat × Bool × Nat × Nat)) (gate rf : List Nat) :
    ∃ degraded words, s.stageS4 duration quiz covers gate rf = (s.seated quiz covers gate rf).stagePasses 4 duration degraded words :=
  ⟨_, _, rfl⟩

theorem tfind_range_map (g : Nat → Nat) {n k : Nat} (hk : k < n) : tfind ((List.range n).map (fun f => (f, g f))) k = some (g k) := by
  have hfound : ∀ l : List Nat, k ∈ l → tfind (l.map (fun f => (f, g f))) k = some (g k) := fun l => by
    induction l with
    | nil => exact fun h => absurd h List.not_mem_nil
    | cons x l ih =>
      intro h
      rw [List.map_cons, tfind]
      split
      next hx => rw [hx]
      next hx => exact ih ((List.mem_cons.1 h).resolve_left hx)
  exact hfound _ (List.mem_range.2 hk)

variable {quiz : List (Nat × Nat)} {covers : List (Nat × Bool × Nat × Nat)} {gate rf : List Nat} {duration : Nat}

theorem stageS4_shows (ht : t = s.stageS4 duration quiz covers gate rf) : t.stageIs 5 0 = true ∧ t.therm.modelValid = true ∧
    (∀ f, f < 16 → tgetD t.bring.carry.rf f 0 = rf.getD f 0) ∧ (∀ f, f < 16 → gate.contains f = true → t.excluded f = true) ∧
    t.power = s.power ∧ t.clock = s.clock ∧ t.sec = s.sec := by
  obtain ⟨degraded, words, hpasses⟩ := stageS4_passes s duration quiz covers gate rf
  rw [ht, hpasses]
  have hshown := stagePasses_is (s.seated quiz covers gate rf) (by decide : 4 < 8) duration degraded words
  obtain ⟨hframe, hreg⟩ := stagePasses_ends (s.seated quiz covers gate rf) (by decide : 4 < 8) duration degraded words
  generalize State.stagePasses _ 4 duration degraded words = v at hshown hframe hreg ⊢
  obtain ⟨hpower, hclock, hsec⟩ := quizSeats_keeps s quiz covers
  obtain ⟨hpower', hclock', hsec', -, -⟩ := startForms_keeps (s.quizSeats quiz covers) gate
  have hfresh := freshTiles_keeps ((s.quizSeats quiz covers).startForms gate)
  refine ⟨hshown, (congrArg (fun w : State => w.therm.modelValid) hframe).trans rfl, fun f hf => ?_, fun f hf hgate => ?_, ?_, ?_, ?_⟩
  · have hrf : v.bring.carry.rf = (List.range 16).map (fun f => (f, rf.getD f 0)) :=
      (congrArg (fun w : State => w.bring.carry.rf) hframe).trans rfl
    rw [hrf, tgetD, tfind_range_map _ hf]
    rfl
  · have hstatus := hreg (STK_FORM_STATUS f) (stageReg_low (by unfold STK_FORM_STATUS BRG_STAGE; omega))
    exact (congrArg (fldGet · STK_FORM_STATUS_excluded != 0) hstatus).trans
      ((excluded_keeps hfresh hf not_false).trans (startForms_excludes _ gate f hf hgate))
  · exact ((congrArg State.power hframe).trans rfl).trans (hfresh.1.trans (hpower'.trans hpower))
  · exact ((congrArg State.clock hframe).trans rfl).trans (hfresh.2.1.trans (hclock'.trans hclock))
  · exact ((congrArg State.sec hframe).trans rfl).trans (hfresh.2.2.1.trans (hsec'.trans hsec))

theorem stageS4_dead {m test : Nat} (hm : m < 288) (h : s.seatStatus m ≠ 1) (hpos : 0 < test) (hlt : test < 64)
    (ht : t = s.stageS4 duration [(m, test)] [] [] []) : t.seatGood m = false := by
  obtain ⟨degraded, words, hpasses⟩ := stageS4_passes s duration [(m, test)] [] [] []
  rw [ht, hpasses]
  obtain ⟨hframe, -⟩ := stagePasses_ends (s.seated [(m, test)] [] [] []) (by decide : 4 < 8) duration degraded words
  generalize State.stagePasses _ 4 duration degraded words = v at hframe ⊢
  obtain ⟨-, -, -, hforms, -⟩ := startForms_keeps (s.quizSeats [(m, test)] []) []
  obtain ⟨-, -, -, hfresh, -⟩ := freshTiles_keeps ((s.quizSeats [(m, test)] []).startForms [])
  have hseats : v.bring.carry.seats = (s.quizSeats [(m, test)] []).bring.carry.seats :=
    ((congrArg (fun w : State => w.bring.carry.seats) hframe).trans rfl).trans (hfresh.trans hforms)
  exact (congrArg (fun l : Tbl Nat => bitsAt (tgetD l m seatEntry0) 0 2 == 0) hseats).trans (quizSeats_dead hm h hpos hlt)

end

/-- Settles O56: seats tested and forms seated, licences, ports, and the ready device. -/
theorem stagesToReady : Obligations.StagesToReady := by
  unfold Obligations.StagesToReady
  intro s d hon
  refine ⟨fun quiz covers gate rf h => gives_of_live hon (congrArg (live s) (if_pos h)) (stageS4_shows rfl),
    fun m test h hm hstatus hpos hlt => gives_of_live hon (congrArg (live s) (if_pos h)) (stageS4_dead hm hstatus hpos hlt rfl),
    fun stepping h hne => gives_of_live hon (congrArg (live s) (if_pos h)) (stageS5_mismatch_shows hne rfl),
    fun stepping h heq hnone => gives_of_live hon (congrArg (live s) (if_pos h)) (stageS5_match_shows heq hnone rfl),
    fun h => gives_of_live hon rfl ?begins, fun h hmap => gives_of_live hon rfl ?ends,
    fun total h => gives_of_live hon (congrArg (live s) (if_pos h)) (stageS8_shows rfl),
    fun quiz covers gate rf x total => ⟨fun h => live_next hon ?off4, fun h => live_next hon ?off5,
      fun h h' => live_next hon (stageS6_idle h h'), fun h => live_next hon ?off8⟩⟩
  case begins =>
    obtain ⟨hstage, halone, htrains⟩ := stageS6_begins_shows (duration := d) h rfl
    exact ⟨hstage, halone, fun p hp hlic hena halt hal => htrains p hp (portUsed_of hlic hena hal) halt⟩
  case ends =>
    obtain ⟨hstage, hdark⟩ := stageS6_ends_shows (duration := d) h hmap rfl
    exact ⟨hstage, fun p hp hlic hena halt hal hdown => hdark p hp (portUsed_of hlic hena hal) halt hdown⟩
  case off4 => rw [h, if_neg Bool.false_ne_true]
  case off5 => rw [h, if_neg Bool.false_ne_true]
  case off8 => rw [h, if_neg Bool.false_ne_true]

end Sys2Proof.Machine
end

