-- ==== Sys2Proof/Proofs/Completion.lean ====
section
/-! Every command runs, and what it answers under the conditions of its rules: the lemmas of the families say what an engine, a
core, a port or a flit does with what is next for it; the rest is the meaning of the command itself. -/

namespace Sys2Proof.Machine

/-! What is next for an engine, a core, a mover or a link, and what it leaves. -/

theorem slateStep_leaves {s u v : State} {lt op x : Nat} {r z : VeRun} {i : Slate} {y : SlateIn} {d : VeDst}
    (hready : SlateReady s lt r i x) (f : SlateIn → VeFlight) (hop : i.op = op) (hnop : op ≠ 0)
    (hin : ({ s.engines lt x with cyc := x % 4096 } : State).slateIn lt r i x = ((y, d, z), u))
    (hv : v = u.modVe lt (fun e => { e with flight := insertFlight { f y with at_ := landAt x op d, dst := d } e.flight })) :
    s.slateStep lt op f = ((v.perfAdd (v.partOfLt lt) 2 1).issued lt z).showVe lt := by
  subst hv
  rw [slateStep_issues hready f hop hnop, hin]

section
variable {s u : State} {g k w t : Nat} (hready : CoreReady s u g k w t)
include hready

theorem chalkLoad_local {op bytes off : Nat} (signed : Bool) (hk : k = op) (halign : u.coreAddr ⟨g, w, t⟩ % bytes = 0)
    (harea : coreArea (u.coreAddr ⟨g, w, t⟩) = .localMem off) :
    s.chalkLoad g op bytes signed = u.localLoad ⟨g, w, t⟩ off bytes signed := by
  rw [chalkLoad_aligned hready rfl signed hk halign, harea]
  rfl

theorem chalkStore_local {op bytes off : Nat} (hk : k = op) (halign : u.coreAddr ⟨g, w, t⟩ % bytes = 0)
    (harea : coreArea (u.coreAddr ⟨g, w, t⟩) = .localMem off) :
    s.chalkStore g op bytes = u.localStore ⟨g, w, t⟩ off bytes (((u.core g).get (ckRd w)).toNat % 2 ^ (8 * bytes)) := by
  rw [chalkStore_aligned hready rfl hk halign, harea, ready_core hready g]
  rfl

end

theorem moverCopy_begins {s : State} {lt idx d : Nat} (hnext : s.movEntry lt idx 1 = some d) :
    s.moverCopy lt idx = (({ s with cyc := dStartCycle d } : State).movBegin lt (mvChannel d)).beginCopy lt (mvChannel d)
      (copyOf d (dStartCycle d)) := by
  rw [State.moverCopy, hnext]

theorem moverIndirect_begins {s : State} {lt idx d : Nat} (hnext : s.movEntry lt idx 2 = some d) :
    s.moverIndirect lt idx = (({ s with cyc := dStartCycle d } : State).movBegin lt (mvChannel d)).modChan (8 * lt + mvChannel d)
      (fun ch => { ch with ind := some ⟨inList d, inCount d, 0, dStartCycle d, inCycles d, dStartCycle d⟩ }) := by
  rw [State.moverIndirect, hnext]

theorem waitcWake_goes {s : State} {g v : Nat} (hwait : (s.core g).waitc = some v) (hbusy : s.coreBusy g = true)
    (hdue : v ≤ (s.core g).deadline) : s.waitcWake g = ({ s with cyc := v } : State).modCore g (fun c =>
      { c with waitc := none, issue := max c.issue ((v + 1) / 2) }) := by
  have hgo : ¬ (!s.coreBusy g || (s.flag (GC_STATUS g) GC_STATUS_running && decide ((s.core g).deadline < v))) = true := by
    rw [hbusy, decide_eq_false (Nat.not_lt.2 hdue), Bool.and_false]
    exact Bool.false_ne_true
  rw [State.waitcWake, hwait]
  exact if_neg hgo

theorem onSvc_here {s u : State} {port kind : Nat} {x : Frame} {l : List Frame} (act : State → Frame → State) (hport : port < 6)
    (hqueue : (s.port port).svcQueue = x :: l) (hkind : x.kind = kind)
    (hu : u = (s.modPort port (fun t => { t with svcQueue := l })).returnCredit port) (hdst : x.dst = u.deviceId) :
    s.onSvc port kind act = act u x := by
  have hgo : (decide (x.kind = kind) && decide (port < 6)) = true := by rw [decide_eq_true hkind, decide_eq_true hport]; rfl
  subst hu
  rw [State.onSvc, hqueue]
  exact (if_pos hgo).trans (if_pos hdst)

theorem onSym_acts {s : State} {port typ : Nat} {y : Sym} {bad : Bool} (f : State → State) (hport : port < 6)
    (hheard : s.symHeard port typ = true) (hgood : symGood typ y bad = true) : s.onSym port typ y bad f = f s := by
  refine (if_neg ?_).trans (if_pos hgood)
  simp [hport, hheard]

section
variable {s u : State} {x : RxFlit} {typ : Nat} (hup : s.mxlUp = true) (hcrc : x.flit.crc = crc32 (flitBytes x.flit))
  (hu : u = s.takeHeader x) (hup' : u.mxlUp = true) (hrow : u.flitKnown x.flit = true) (htyp : x.flit.typ = typ)
  (hseq : x.flit.seq = (u.mxl.rxSeq + 1) % 4096)
include hup hcrc hu hup' hrow htyp hseq

/-- The one flit of a COMMAND message carries it out. -/
theorem takeFlit_command (f : State → List Flit → State) (hcls : x.flit.cls ≠ fcBULK) (hgrant : u.mxl.cmdGrant ≠ 0)
    (hfirst : bitSet x.flit.flags 0 = true) (hlast : bitSet x.flit.flags 1 = true) :
    s.takeFlit x typ f = f (({ u with mxl := { u.mxl with
      rxSeq := x.flit.seq, discarding := false, rxCmd := [], cmdGrant := u.mxl.cmdGrant - 1 } } : State).sendIdle false 1 0)
      [x.flit] := by
  have hl : [x.flit] = (if bitSet x.flit.flags 0 then [] else u.mxl.rxCmd) ++ [x.flit] := by simp [hfirst]
  rw [takeFlit_eq, onFlit_acts hup hcrc hu hup' hrow]
  exact messageFlit_commandEnd htyp hseq hcls hgrant hl hlast

/-- The one flit of a BULK message carries it out. -/
theorem takeFlit_bulk (f : State → List Flit → State) (hcls : x.flit.cls = fcBULK) (hgrant : u.mxl.bulkGrant ≠ 0)
    (hfirst : bitSet x.flit.flags 0 = true) (hlast : bitSet x.flit.flags 1 = true) :
    s.takeFlit x typ f = f (({ u with mxl := { u.mxl with
      rxSeq := x.flit.seq, discarding := false, rxBulk := [], bulkGrant := u.mxl.bulkGrant - 1 } } : State).sendIdle false 0 1)
      [x.flit] := by
  have hl : [x.flit] = (if bitSet x.flit.flags 0 then [] else u.mxl.rxBulk) ++ [x.flit] := by simp [hfirst]
  rw [takeFlit_eq, onFlit_acts hup hcrc hu hup' hrow]
  exact messageFlit_bulkEnd htyp hseq hcls hgrant hl hlast

end

theorem onActive_found {s : State} {ring tag op : Nat} {c : Cmd} (f : State → Cmd → State)
    (hfind : s.findCmd ring tag op = some c) : s.onActive ring tag op f = f s c := by
  rw [State.onActive, hfind]

/-- A command of any phase whose work asks for one. -/
theorem onActive_inPhase {s : State} {ring tag op : Nat} {c : Cmd} {ph : CmdPhase} (f : State → Cmd → State)
    (hfind : s.findCmd ring tag op = some c) (hphase : c.phase = ph) :
    s.onActive ring tag op (fun s c => if c.phase = ph then f s c else s) = f s c :=
  (onActive_found _ hfind).trans (if_pos hphase)

theorem exec_imageActivateCommit_due {s : State} {j : SecJob} {c : Cmd} (hon : s.powered = true) (hjob : s.sec.job = some j)
    (hfind : s.findTag j.ring j.tag = some c) (hop : c.pkt.opcode = opIMAGE_ACTIVATE) (hphase : c.phase = .active)
    (hturn : s.atCourseBoundary = true) : exec .imageActivateCommit s = .next (s.activateCommit c) := by
  refine live_next hon ?_
  rw [hjob]
  dsimp only
  rw [hfind]
  refine if_pos ?_
  rw [hop, hphase, hturn]
  rfl

/-- Settles O60: the condition of each command is the one under which its meaning is the operation. -/
theorem everyCommandCompletes : Obligations.EveryCommandCompletes := by
  unfold Obligations.EveryCommandCompletes
  intro s
  refine ⟨fun _ => rfl, fun _ _ hrising => congrArg Host.Outcome.next (if_pos hrising), fun _ _ hlatched hms => if_pos ?low,
    fun hphase hgate => congrArg Host.Outcome.next (if_pos ?release), fun hon => ⟨?power, ?clocks, ?reset, ?forms, ?halts, ?courses, ?tables,
      ?matrix, ?vector, ?cores, ?movers, ?lockers, ?nearBank, ?networks, ?ports, ?bellTree, ?links, ?flits, ?commands, ?aborts,
      ?samples, ?stages, ?exams, ?management, ?registers, ?others, live_on hon⟩⟩
  case low => simp [hlatched, hms]
  case release => simp [hphase, hgate]
  case power =>
    exact ⟨fun v ms => (exec_shutdown_on hon v ms).1, fun _ => live_on hon, fun _ => live_on hon, fun _ => live_on hon,
      fun _ => live_on hon, fun _ _ => live_on hon, live_on hon, fun _ _ _ => live_on hon,
      fun e hfresh => live_next hon (if_neg (ne_true_of_eq_false hfresh)), live_on hon, live_on hon⟩
  case clocks =>
    exact ⟨live_on hon, live_on hon, fun hhold => live_next hon (if_pos hhold), fun _ _ => live_on hon, fun _ _ _ => live_on hon,
      fun _ _ _ hlong => live_next hon (if_pos hlong), fun _ _ _ => live_on hon, fun _ _ _ => live_on hon, fun _ _ => live_on hon⟩
  case reset =>
    exact ⟨fun hdue => live_next hon (if_pos hdue), fun hbegun => live_next hon (if_pos hbegun), fun _ => live_on hon,
      fun _ => live_on hon, live_on hon, fun _ _ => live_on hon, live_on hon, fun _ _ => live_on hon⟩
  case forms =>
    exact ⟨fun _ _ => live_on hon, fun _ _ => live_on hon, fun _ hp => live_next hon (if_pos hp), live_on hon, live_on hon,
      live_on hon, fun _ hp => live_next hon (if_pos hp)⟩
  case halts =>
    exact ⟨fun _ h => live_next hon (if_pos h), fun _ h => live_next hon (if_pos h), fun _ h => live_next hon (if_pos h),
      fun _ => live_on hon, live_on hon⟩
  case courses =>
    exact ⟨live_on hon, fun _ _ _ h => live_next hon (onActive_found _ h), fun _ _ _ h => live_next hon (onActive_found _ h),
      fun _ => live_on hon, fun _ _ hwait hop => exec_courseStartCommit_pending hon hwait hop,
      fun _ _ hwait hop => exec_courseResumeCommit_pending hon hwait hop, fun _ hp => live_next hon (if_pos hp)⟩
  case tables =>
    exact ⟨fun _ hp => live_next hon (if_pos hp), fun _ _ _ h hphase => live_next hon (onActive_inPhase _ h hphase), live_on hon,
      fun _ _ hjob hfind hop hphase hturn => exec_imageActivateCommit_due hon hjob hfind hop hphase hturn, fun _ => live_on hon,
      live_on hon⟩
  case matrix =>
    refine ⟨fun _ _ _ h hphase => live_next hon (onActive_inPhase _ h hphase),
      fun _ _ _ h hphase => live_next hon (onActive_inPhase _ h hphase), ?_, ?_, ?_, fun _ _ _ => live_on hon,
      fun _ _ => live_on hon⟩
    · rintro lt idx d u hdesc rfl
      exact live_next hon (onMxe_starts _ hdesc)
    · rintro lt idx d u hdesc rfl
      exact live_next hon (onMxe_starts _ hdesc)
    · rintro lt idx d u hdesc rfl
      exact live_next hon (onMxe_starts _ hdesc)
  case vector =>
    refine ⟨?_, ?_, ?_, fun _ _ _ _ hready hop => live_next hon (slateStep_nop hready _ hop), ?_⟩
    · rintro lt idx d u hready rfl
      exact live_next hon (onVe_starts _ hready rfl)
    · rintro lt idx d u hready rfl
      exact live_next hon (onVe_starts _ hready (beq_self_eq_true _))
    · rintro lt idx d u hready rfl
      exact live_next hon (onVe_starts _ hready (beq_self_eq_true _))
    · intro lt r i x hready row hmem hop y d z u v hin hv
      have hexec : exec row.1 s = live s (s.slateStep lt row.2.1 row.2.2) ∧ row.2.1 ≠ 0 := by
        clear hop hv
        fin_cases hmem
        all_goals exact ⟨rfl, Nat.succ_ne_zero _⟩
      exact hexec.1.trans (live_next hon (slateStep_leaves hready row.2.2 hop hexec.2 hin hv))
  case cores =>
    refine ⟨fun _ _ => live_on hon, fun _ hbusy hrun hdue => live_next hon (if_pos ?deadline), fun _ _ h => live_next hon (if_pos h),
      fun _ _ hwait hbusy hdue => live_next hon (waitcWake_goes hwait hbusy hdue), ?alu, ?immediate, ?lui, ?ldw, ?ldh, ?ldhu, ?ldb,
      ?ldbu, ?stw, ?sth, ?stb, ?beq, ?bne, ?blt, ?bge, ?bltu, ?bgeu, ?jal, ?jalr, ?endTask, ?waitc, ?rdcyc, ?rdbell, ?rdid, ?trap,
      ?ret⟩
    case deadline =>
      rw [hbusy, hrun, hdue]
      rfl
    case alu =>
      intro g k w t u hready row hmem hk
      have hexec : exec row.1 s = live s (s.chalkA g row.2.1 row.2.2.1 row.2.2.2.1 row.2.2.2.2) := by
        clear hk
        fin_cases hmem
        all_goals rfl
      rw [ready_core hready g]
      exact (chalkA_row hready hexec).1 hk
    case immediate =>
      intro g k w t u hready row hmem hk
      have hexec : exec row.1 s = live s (s.chalkB g row.2.1 row.2.2) := by
        clear hk
        fin_cases hmem
        all_goals rfl
      rw [ready_core hready g]
      exact (chalkB_row hready hexec).1 hk
    case lui => exact fun _ _ _ _ _ hready hk => live_next hon (onCore_issues hready _ _ hk)
    case ldw => exact fun _ _ _ _ _ _ hready hk hal harea => live_next hon (chalkLoad_local hready false hk hal harea)
    case ldh => exact fun _ _ _ _ _ _ hready hk hal harea => live_next hon (chalkLoad_local hready true hk hal harea)
    case ldhu => exact fun _ _ _ _ _ _ hready hk hal harea => live_next hon (chalkLoad_local hready false hk hal harea)
    case ldb => exact fun _ _ _ _ _ _ hready hk hal harea => live_next hon (chalkLoad_local hready true hk hal harea)
    case ldbu => exact fun _ _ _ _ _ _ hready hk hal harea => live_next hon (chalkLoad_local hready false hk hal harea)
    case stw => exact fun _ _ _ _ _ _ hready hk hal harea => live_next hon (chalkStore_local hready hk hal harea)
    case sth => exact fun _ _ _ _ _ _ hready hk hal harea => live_next hon (chalkStore_local hready hk hal harea)
    case stb => exact fun _ _ _ _ _ _ hready hk hal harea => live_next hon (chalkStore_local hready hk hal harea)
    case beq => exact fun _ _ _ _ _ hready hk => live_next hon (onCore_issues hready _ _ hk)
    case bne => exact fun _ _ _ _ _ hready hk => live_next hon (onCore_issues hready _ _ hk)
    case blt => exact fun _ _ _ _ _ hready hk => live_next hon (onCore_issues hready _ _ hk)
    case bge => exact fun _ _ _ _ _ hready hk => live_next hon (onCore_issues hready _ _ hk)
    case bltu => exact fun _ _ _ _ _ hready hk => live_next hon (onCore_issues hready _ _ hk)
    case bgeu => exact fun _ _ _ _ _ hready hk => live_next hon (onCore_issues hready _ _ hk)
    case jal => exact fun _ _ _ _ _ hready hk => live_next hon (onCore_issues hready _ _ hk)
    case jalr => exact fun _ _ _ _ _ hready hk => live_next hon (onCore_issues hready _ _ hk)
    case endTask => exact fun _ _ _ _ _ hready hk hrun => live_next hon ((onCore_issues hready _ _ hk).trans (if_pos hrun))
    case waitc =>
      rintro g k w t u v z hready hk rfl rfl
      exact live_next hon (onCore_issues hready _ _ hk)
    case rdcyc => exact fun _ _ _ _ _ hready hk => live_next hon (onCore_issues hready _ _ hk)
    case rdbell => exact fun _ _ _ _ _ hready hk => live_next hon (onCore_issues hready _ _ hk)
    case rdid => exact fun _ _ _ _ _ hready hk => live_next hon (onCore_issues hready _ _ hk)
    case trap =>
      rintro g k w t u v hready hk rfl hlo hhi
      exact live_next hon ((onCore_issues hready _ _ hk).trans (if_pos (by simp [hlo, hhi])))
    case ret => exact fun _ _ _ _ _ hready hk hruntime => live_next hon ((onCore_issues hready _ _ hk).trans (if_pos hruntime))
  case movers =>
    exact ⟨fun _ _ _ h => live_next hon (moverCopy_begins h), fun _ _ _ h => live_next hon (moverIndirect_begins h),
      fun _ _ h => live_next hon (if_pos h), fun _ _ h => live_next hon (if_pos h), fun _ _ h => live_next hon (if_pos h)⟩
  case lockers =>
    exact ⟨fun _ _ h => live_next hon (if_pos (by simpa using h)), fun _ _ h => live_next hon (if_pos (by simpa using h)),
      fun _ _ _ _ => live_on hon, fun _ _ => live_on hon⟩
  case nearBank =>
    exact ⟨fun _ _ _ _ => live_on hon, fun _ => live_on hon, live_on hon,
      fun _ _ _ h => live_next hon (if_pos (by simpa using h)), fun _ _ _ _ h hop => live_next hon (seqWork_same h hop),
      fun _ _ _ _ h hop => live_next hon (seqWork_same h hop), fun _ _ _ _ h hop => live_next hon (seqWork_same h hop),
      fun _ _ _ _ h hop => live_next hon (seqWork_same h hop), fun _ _ _ _ h hop => live_next hon (seqWork_same h hop),
      fun _ _ _ _ h => nbuTransfer_next hon h, fun _ _ _ => live_on hon⟩
  case networks =>
    refine ⟨fun _ => live_on hon, fun _ _ => live_on hon, fun _ _ _ _ => live_on hon, fun _ _ => live_on hon,
      fun _ _ _ _ => live_on hon, fun _ => live_on hon, fun _ _ _ _ _ => live_on hon, fun _ _ _ _ => live_on hon,
      fun _ h => live_next hon (if_pos h), fun _ _ h => live_next hon (if_pos h), ?_, ?_, ?_, ?_, ?_, ?_⟩
    · exact fun _ _ _ hgood htyp hone hfirst hu => live_next hon (onCnet_acts hu hgood htyp (.inl ⟨hone, hfirst, rfl⟩))
    · exact fun _ _ _ _ hgood htyp hone hfirst hu => live_next hon (onCnet_acts hu hgood htyp (.inl ⟨hone, hfirst, rfl⟩))
    · exact fun _ _ _ hgood htyp hone hfirst hu => live_next hon (onCnet_acts hu hgood htyp (.inl ⟨hone, hfirst, rfl⟩))
    · exact fun _ _ _ hgood htyp hone hfirst hu => live_next hon (onCnet_acts hu hgood htyp (.inl ⟨hone, hfirst, rfl⟩))
    · exact fun _ _ _ hgood htyp hone hfirst hu => live_next hon (onCnet_acts hu hgood htyp (.inl ⟨hone, hfirst, rfl⟩))
    · exact fun _ _ _ hgood htyp hone hfirst hu => live_next hon (onCnet_acts hu hgood htyp (.inl ⟨hone, hfirst, rfl⟩))
  case ports =>
    exact ⟨fun _ _ _ _ h => live_next hon (onPort_some h _), fun _ _ _ _ h => live_next hon (onPort_some h _),
      fun _ _ _ _ h => live_next hon (onPort_some h _), fun _ _ _ _ h => live_next hon (onPort_some h _),
      fun _ _ _ _ h => live_next hon (onPort_some h _), fun _ _ _ _ h => live_next hon (onPort_some h _),
      fun _ _ _ _ h => live_next hon (onPort_some h _), fun _ _ _ _ hport => live_next hon (if_pos hport),
      fun _ _ _ _ hport hqueue hkind hu hdst => live_next hon (onSvc_here _ hport hqueue hkind hu hdst),
      fun _ _ _ _ hport hqueue hkind hu hdst => live_next hon (onSvc_here _ hport hqueue hkind hu hdst),
      fun _ _ _ _ hport hqueue hkind hu hdst => live_next hon (congrArg State.release (onSvc_here _ hport hqueue hkind hu hdst)),
      fun _ => live_on hon⟩
  case bellTree =>
    exact ⟨fun _ _ _ _ _ => live_on hon, fun _ _ _ => live_on hon, fun _ _ _ => live_on hon, fun _ _ _ => live_on hon⟩
  case links =>
    exact ⟨fun _ _ _ hport hheard hgood => live_next hon (onSym_acts _ hport hheard hgood),
      fun _ _ _ hport hheard hgood => live_next hon (onSym_acts _ hport hheard hgood),
      fun _ _ _ hport hheard hgood => live_next hon (onSym_acts _ hport hheard hgood),
      fun _ _ _ _ _ _ hport hheard hgood => live_next hon (onSym_acts _ hport hheard hgood),
      fun _ _ _ hport hheard hgood => live_next hon (onSym_acts id hport hheard hgood),
      fun _ _ _ _ _ h => live_next hon (if_pos h), fun _ hport => live_next hon (if_pos hport),
      fun _ _ h => live_next hon (if_pos h), fun _ _ _ _ _ hport => live_next hon (if_pos hport),
      fun _ h => live_next hon (if_pos h), fun _ hport => live_next hon (if_pos hport),
      fun _ _ _ _ hport => live_next hon (if_pos hport)⟩
  case flits =>
    refine ⟨fun _ _ hup hcrc hu hup' hrow => live_next hon (onFlit_acts hup hcrc hu hup' hrow), ?doorbell, ?regRead, ?regWrite,
      ?memRead, ?memWrite, ?hostData, fun _ _ hup hcrc hu hup' hrow => live_next hon (onFlit_acts hup hcrc hu hup' hrow),
      fun _ _ hup hcrc hu hup' hrow => live_next hon (onFlit_acts hup hcrc hu hup' hrow),
      fun _ hup => live_next hon (if_pos (by rw [hup]; rfl)),
      fun _ _ hup hcrc hu hup' hrow => live_next hon (onFlit_acts hup hcrc hu hup' hrow), fun h => live_next hon (if_pos h),
      fun _ => live_on hon, fun _ _ _ h => live_next hon (if_pos h), fun _ _ _ => live_on hon, fun h => live_next hon (if_pos h),
      fun h => live_next hon (if_pos h)⟩
    case doorbell =>
      exact fun _ _ _ hup hcrc hu hup' hrow htyp hseq hcls hgrant hfirst hlast =>
        live_next hon (takeFlit_command hup hcrc hu hup' hrow htyp hseq _ hcls hgrant hfirst hlast)
    case regRead =>
      exact fun _ _ hup hcrc hu hup' hrow htyp hseq hcls hgrant hfirst hlast =>
        live_next hon (takeFlit_command hup hcrc hu hup' hrow htyp hseq _ hcls hgrant hfirst hlast)
    case regWrite =>
      exact fun _ _ _ hup hcrc hu hup' hrow htyp hseq hcls hgrant hfirst hlast =>
        live_next hon (takeFlit_command hup hcrc hu hup' hrow htyp hseq _ hcls hgrant hfirst hlast)
    case memRead =>
      exact fun _ _ hup hcrc hu hup' hrow htyp hseq hcls hgrant hfirst hlast =>
        live_next hon (takeFlit_bulk hup hcrc hu hup' hrow htyp hseq _ hcls hgrant hfirst hlast)
    case memWrite =>
      exact fun _ _ hup hcrc hu hup' hrow htyp hseq hcls hgrant hfirst hlast =>
        live_next hon (takeFlit_bulk hup hcrc hu hup' hrow htyp hseq _ hcls hgrant hfirst hlast)
    case hostData =>
      exact fun _ _ hup hcrc hu hup' hrow htyp hseq hcls hgrant hfirst hlast =>
        live_next hon (takeFlit_bulk hup hcrc hu hup' hrow htyp hseq _ hcls hgrant hfirst hlast)
  case commands =>
    refine ⟨fun _ _ => live_on hon, live_on hon, fun ring tag c => ?_, fun _ _ hacc => onCmd_accepted hacc⟩
    simp only [List.forall_mem_cons]
    exact ⟨onCmd_accepted, onCmd_accepted, onCmd_accepted, onCmd_accepted, onCmd_accepted, onCmd_accepted, onCmd_accepted,
      onCmd_accepted, onCmd_accepted, onCmd_accepted, onCmd_accepted, onCmd_accepted, onCmd_accepted, onCmd_accepted,
      onCmd_accepted, onCmd_accepted, onCmd_accepted, onCmd_accepted, onCmd_accepted, onCmd_accepted, onCmd_accepted,
      onCmd_accepted, onCmd_accepted, onCmd_accepted, onCmd_accepted, onCmd_accepted, onCmd_accepted, onCmd_accepted,
      onCmd_accepted, onCmd_accepted, onCmd_accepted, onCmd_accepted, onCmd_accepted, onCmd_accepted, onCmd_accepted,
      onCmd_accepted, onCmd_accepted, List.forall_mem_nil _⟩
  case aborts =>
    exact ⟨fun _ _ _ _ hacc => onCmd_accepted hacc, fun _ _ _ h => live_next hon (onActive_found _ h),
      fun _ _ _ h => live_next hon (onActive_found _ h), fun _ _ _ hfind hop hphase => commit_next hon hfind hop hphase⟩
  case samples =>
    exact ⟨fun _ _ _ h hphase => live_next hon (onActive_inPhase _ h hphase),
      fun _ _ _ h hphase => live_next hon (onActive_inPhase _ h hphase), fun _ _ _ _ => live_on hon, fun _ _ _ => live_on hon,
      live_on hon, live_on hon⟩
  case stages =>
    exact ⟨fun _ _ h => live_next hon (if_pos h), fun _ _ _ => live_on hon, fun _ _ _ _ _ _ _ h => live_next hon (if_pos h),
      fun _ _ _ _ _ h => live_next hon (if_pos h), fun _ _ h => live_next hon (if_pos h), fun _ => live_on hon,
      fun _ _ h => live_next hon (if_pos h)⟩
  case exams =>
    exact ⟨fun _ h hopen => live_next hon (if_pos (by rw [h, hopen]; rfl)), fun _ => live_on hon,
      fun _ h => live_next hon (if_pos h), fun _ => live_on hon, fun _ h => live_next hon (if_pos h)⟩
  case management =>
    exact ⟨fun _ h => live_next hon (if_pos h), fun _ h => live_next hon (if_pos h), live_on hon,
      fun _ h => live_next hon (if_neg h), fun _ h => live_next hon (if_neg h), fun h => live_next hon (if_neg h),
      fun _ h => live_next hon (if_neg h), fun _ h => live_next hon (if_neg h),
      fun h hfree => live_next hon (mgmtCmd_done h hfree rfl),
      fun h hfree hstage => live_next hon (mgmtCmd_done h hfree (by simpa using hstage)),
      fun h hfree => live_next hon (mgmtCmd_done h hfree rfl), fun h hfree => live_next hon (mgmtCmd_done h hfree rfl),
      fun _ _ h hwrong => live_next hon (if_neg (by simp [h, hwrong])), fun _ _ h => live_next hon (if_pos h),
      fun _ _ => live_on hon, live_on hon, fun h => live_next hon (if_pos h), fun h => live_next hon (if_pos h),
      fun _ _ => live_on hon, fun _ _ => live_on hon, live_on hon, fun _ _ => live_on hon, fun _ _ _ => live_on hon, live_on hon⟩
  case registers =>
    exact ⟨fun _ => live_on hon, fun _ => live_on hon, fun _ => live_on hon,
      fun _ _ _ h => live_next hon ((if_pos rfl).trans (if_pos h)),
      fun _ _ _ h hseated => live_next hon ((if_neg Bool.false_ne_true).trans (if_pos (by simp [h, hseated]))),
      fun _ _ _ h => live_next hon (if_pos h), fun _ => live_on hon, fun _ => live_on hon, fun _ => live_on hon,
      fun _ => live_on hon, fun _ _ h => live_next hon (if_pos h), fun _ => live_on hon, fun _ => live_on hon,
      fun _ _ h => live_next hon (if_pos (by simpa using h)), fun _ _ h => live_next hon (if_pos h),
      fun _ _ h => live_next hon (if_pos h), fun _ => live_on hon, fun _ _ => live_on hon,
      fun _ _ _ h => live_next hon (if_pos h), fun _ _ _ h => live_next hon (if_pos h), fun _ _ => live_on hon,
      fun _ _ _ _ h => live_next hon (if_pos h), fun _ _ => live_on hon,
      fun _ _ _ h => live_next hon (if_neg (ne_true_of_eq_false h)), fun _ _ _ _ h => live_next hon (if_pos h)⟩
  case others =>
    exact ⟨live_on hon, live_on hon, live_on hon, fun _ _ h hphase => live_next hon (onActive_inPhase _ h hphase)⟩

end Sys2Proof.Machine
end

