-- ==== Sys2Proof/Proofs/HeldBase.lean ====
section
/-! What each operation keeps, on any state: the queue and the variant. Here: registers, events, memory and commands. -/

namespace Sys2Proof.Machine

/-- The queue and the variant. -/
def State.held (s : State) : List Instr × Variant := (s.pending, s.variant)

/-- An update of other fields. -/
@[simp] theorem held_update {e : State} (regs shadows mem freeCtr cyc bell map crs groups tiles cores chans layers mesh ports
    remotes svcWait nextSvcTag mxl cmds done skips lastRing lastRun fences evRings stop energy clock power stored ariAt therm bring
    sec mgmt out) :
    State.held ⟨regs, shadows, mem, freeCtr, e.variant, cyc, bell, map, crs, groups, tiles, cores, chans, layers, mesh, ports,
    remotes, svcWait, nextSvcTag, mxl, cmds, done, skips, lastRing, lastRun, fences, evRings, stop, energy, clock, power, stored,
    ariAt, therm, bring, sec, mgmt, out, e.pending⟩ = e.held := by rfl

@[simp] theorem held_ite {c : Prop} [Decidable c] (a b : State) : (if c then a else b).held = if c then a.held else b.held :=
  apply_ite State.held c a b

@[simp] theorem held_ite_snd {α : Type} {c : Prop} [Decidable c] (a b : α × State) :
    (if c then a else b).2.held = if c then a.2.held else b.2.held := apply_ite (fun p : α × State => p.2.held) c a b

theorem held_foldl {α : Type} (l : List α) {f : State → α → State} (hf : ∀ s x, (f s x).held = s.held) (s : State) :
    (l.foldl f s).held = s.held := foldl_keeps (P := fun t => t.held = s.held) l (fun t x ht => (hf t x).trans ht) rfl

theorem held_foldl_snd {α β : Type} (l : List α) {f : β × State → α → β × State} (hf : ∀ p x, (f p x).2.held = p.2.held)
    (p : β × State) : (l.foldl f p).2.held = p.2.held :=
  foldl_keeps (P := fun t : β × State => t.2.held = p.2.held) l (fun t x ht => (hf t x).trans ht) rfl

@[simp] theorem held_forEach {α : Type} (l : List α) {f : State → α → State} (hf : ∀ s x, (f s x).held = s.held) (s : State) :
    (forEach l s f).held = s.held := held_foldl l hf s

@[simp] theorem State.setReg_held (s : State) (a : Nat) (w : Word) : (s.setReg a w).held = s.held := by rfl

theorem held_of_snd {α : Type} {a : α} {s t : State} {p : α × State} (e : p = (a, t)) (h : p.2.held = s.held) :
    t.held = s.held := by
  subst e
  exact h

@[simp] theorem State.setF_held (s : State) (a : Nat) (f : Fld) (v : Nat) : (s.setF a f v).held = s.held := by
  simp only [State.setF, State.setReg_held]

@[simp] theorem State.setB_held (s : State) (a : Nat) (f : Fld) (b : Bool) : (s.setB a f b).held = s.held := by
  simp only [State.setB, State.setF_held]

@[simp] theorem State.incF_held (s : State) (a : Nat) (f : Fld) (n : Nat) : (s.incF a f n).held = s.held := by
  simp only [State.incF, State.setF_held]

@[simp] theorem State.setPair_held (s : State) (lo v : Nat) : (s.setPair lo v).held = s.held := by
  simp only [State.setPair, State.setReg_held]

@[simp] theorem State.drawn_held (s : State) (n : Nat) : (s.drawn n).held = s.held := by
  simp only [State.drawn, held_update]

@[simp] theorem State.setCourseState_held (s : State) (p v : Nat) : (s.setCourseState p v).held = s.held := by
  simp only [State.setCourseState, State.setF_held, State.setB_held]

@[simp] theorem State.modCrs_held (s : State) (p : Nat) (f : Course → Course) : (s.modCrs p f).held = s.held := by
  simp only [State.modCrs, held_update]

@[simp] theorem State.modTile_held (s : State) (n : Nat) (f : TileSt → TileSt) : (s.modTile n f).held = s.held := by
  simp only [State.modTile, held_update]

@[simp] theorem State.modCore_held (s : State) (n : Nat) (f : CoreSt → CoreSt) : (s.modCore n f).held = s.held := by
  simp only [State.modCore, held_update]

@[simp] theorem State.modChan_held (s : State) (n : Nat) (f : ChanSt → ChanSt) : (s.modChan n f).held = s.held := by
  simp only [State.modChan, held_update]

@[simp] theorem State.modLayer_held (s : State) (l : Nat) (f : LayerSt → LayerSt) : (s.modLayer l f).held = s.held := by
  simp only [State.modLayer, held_update]

@[simp] theorem State.modGroup_held (s : State) (p : Nat) (f : GroupSt → GroupSt) : (s.modGroup p f).held = s.held := by
  simp only [State.modGroup, held_update]

@[simp] theorem State.modPort_held (s : State) (p : Nat) (f : PortSt → PortSt) : (s.modPort p f).held = s.held := by
  simp only [State.modPort, held_update]

@[simp] theorem State.modEvRing_held (s : State) (e : Nat) (f : EvRing → EvRing) : (s.modEvRing e f).held = s.held := by
  simp only [State.modEvRing, held_update]

@[simp] theorem State.showCopying_held (s : State) (p : Nat) : (s.showCopying p).held = s.held := by
  simp only [State.showCopying, State.setB_held]

@[simp] theorem State.send_held (s : State) (o : Out) : (s.send o).held = s.held := by
  simp only [State.send, held_update]

@[simp] theorem State.putFlit_held (s : State) (f : Flit) : (s.putFlit f).held = s.held := by
  simp only [State.putFlit, held_update]

@[simp] theorem State.sendIdle_held (s : State) (nak : Bool) (cmd bulk : Nat) : (s.sendIdle nak cmd bulk).held = s.held := by
  simp only [State.sendIdle, held_update, State.putFlit_held]

@[simp] theorem State.emitFlit_held (s : State) (f : Flit) : (s.emitFlit f).held = s.held := by
  simp only [State.emitFlit, held_ite, State.sendIdle_held, State.putFlit_held, ite_self]

@[simp] theorem State.sendLaneSwap_held (s : State) (lane flits : Nat) : (s.sendLaneSwap lane flits).held = s.held := by
  simp only [State.sendLaneSwap, State.emitFlit_held]

@[simp] theorem State.sendNext_held (s : State) (t : TxFlit) : (s.sendNext t).held = s.held := by
  simp only [State.sendNext, held_ite, held_update, State.emitFlit_held, ite_self]

@[simp] theorem flitPump_held (k : Nat) : ∀ s : State, (flitPump k s).held = s.held := by
  induction k with
  | zero => exact fun _ => rfl
  | succ k ih =>
    intro s
    unfold flitPump
    split <;> simp [ih]

@[simp] theorem State.mxlFlush_held (s : State) : s.mxlFlush.held = s.held := by
  simp only [State.mxlFlush, held_ite, flitPump_held, ite_self]

@[simp] theorem State.mxlSend_held (s : State) (x : Msg) : (s.mxlSend x).held = s.held := by
  simp only [State.mxlSend, held_update, State.mxlFlush_held]

@[simp] theorem State.raiseIbi_held (s : State) (b : Nat) : (s.raiseIbi b).held = s.held := by
  simp only [State.raiseIbi, held_ite, held_update, State.send_held, ite_self]

@[simp] theorem State.alertIbi_held (s : State) : s.alertIbi.held = s.held := by
  simp only [State.alertIbi, held_ite, State.raiseIbi_held, State.setB_held, ite_self]

@[simp] theorem State.trace_held (s : State) (src : Nat) (code node data : Option Nat) :
    (s.trace src code node data).held = s.held := by
  simp only [State.trace, held_ite, held_update, State.incF_held, State.drawn_held, ite_self]

@[simp] theorem State.setStage_held (s : State) (stage state : Nat) : (s.setStage stage state).held = s.held := by
  simp only [State.setStage, State.setF_held, State.raiseIbi_held]

@[simp] theorem State.setUnready_held (s : State) (n : Nat) : (s.setUnready n).held = s.held := by
  simp only [State.setUnready, held_ite, State.setF_held, State.raiseIbi_held, ite_self]

@[simp] theorem State.evWrite_held (s : State) (e n : Nat) (r : EvRec) : (s.evWrite e n r).held = s.held := by
  simp only [State.evWrite, State.mxlSend_held, State.setReg_held, State.modEvRing_held]

@[simp] theorem evDrain_held (k : Nat) : ∀ (e n : Nat) (s : State), (evDrain k e n s).held = s.held := by
  induction k with
  | zero => exact fun _ _ _ => rfl
  | succ k ih =>
    intro e n s
    unfold evDrain
    split <;> simp [ih]

@[simp] theorem State.evOffer_held (s : State) (e n : Nat) (r : EvRec) : (s.evOffer e n r).held = s.held := by
  simp only [State.evOffer, held_ite, State.evWrite_held, State.modEvRing_held, State.incF_held, ite_self]

@[simp] theorem State.evRoute_held (s : State) (r : EvRec) : (s.evRoute r).held = s.held := by
  simp only [State.evRoute, held_ite, held_forEach, State.incF_held, State.evOffer_held, ite_self, implies_true]

@[simp] theorem State.raiseWith_held (s : State) (late : Bool) (code part kind unit d0 d1 d2 d3 : Nat) :
    (s.raiseWith late code part kind unit d0 d1 d2 d3).held = s.held := by
  simp only [State.raiseWith, held_ite, State.setReg_held, State.evRoute_held, State.trace_held, State.alertIbi_held, ite_self]

@[simp] theorem State.raise_held (s : State) (code part kind unit d0 d1 d2 d3 : Nat) :
    (s.raise code part kind unit d0 d1 d2 d3).held = s.held := by
  simp only [State.raise, State.raiseWith_held]

@[simp] theorem State.perfAdd_held (s : State) (p k n : Nat) : (s.perfAdd p k n).held = s.held := by
  simp only [State.perfAdd, held_ite, State.setReg_held, State.setF_held, State.setB_held, State.raise_held, ite_self]

@[simp] theorem State.recessTaken_held (s : State) : s.recessTaken.held = s.held := by
  simp only [State.recessTaken, held_ite, State.setReg_held, State.setF_held, State.setB_held, ite_self]

@[simp] theorem State.sendSym_held (s : State) (p : Nat) (y : Sym) : (s.sendSym p y).held = s.held := by
  simp only [State.sendSym, State.send_held]

@[simp] theorem State.sendSym3_held (s : State) (p : Nat) (y : Sym) : (s.sendSym3 p y).held = s.held := by
  simp only [State.sendSym3, State.sendSym_held]

@[simp] theorem State.sendSym3All_held (s : State) (ps : List Nat) (y : Sym) : (s.sendSym3All ps y).held = s.held := by
  simp only [State.sendSym3All, held_forEach, State.sendSym3_held, implies_true]

@[simp] theorem State.sendCnet_held (s : State) (m : CnetMsg) : (s.sendCnet m).held = s.held := by
  simp only [State.sendCnet, held_update, State.trace_held]

@[simp] theorem State.nameHalt_held (s : State) (p bell reason declarer : Nat) (late : Bool) :
    (s.nameHalt p bell reason declarer late).held = s.held := by
  simp only [State.nameHalt, held_ite, State.modCrs_held, State.setPair_held, State.setB_held, State.setCourseState_held, ite_self]

@[simp] theorem State.declareHalt_held (s : State) (p cause : Nat) : (s.declareHalt p cause).held = s.held := by
  simp only [State.declareHalt, held_ite, State.nameHalt_held, State.modCrs_held, State.sendSym3All_held, ite_self]

@[simp] theorem State.outOfStep_held (s : State) (cause : Nat) : (s.outOfStep cause).held = s.held := by
  simp only [State.outOfStep, held_ite, held_update, held_forEach, State.setB_held, State.raise_held, State.declareHalt_held,
    ite_self, implies_true]

@[simp] theorem State.tbFault_held (s : State) (lt off kind : Nat) : (s.tbFault lt off kind).held = s.held := by
  simp only [State.tbFault, held_ite, State.setF_held, State.setB_held, ite_self]

@[simp] theorem State.tbCount_held (s : State) (m : MemSt) (lt off n : Nat) : (s.tbCount m lt off n).held = s.held := by
  refine held_forEach _ (fun t i => ?_) s
  split <;> simp

@[simp] theorem State.tbRead_held (s : State) (m : MemSt) (lt off n : Nat) (timed : Bool) :
    (s.tbRead m lt off n timed).2.held = s.held := by
  simp only [State.tbRead, State.tbCount_held, State.incF_held]

@[simp] theorem State.tbConflict_held (s : State) (lt off n : Nat) : (s.tbConflict lt off n).held = s.held := by
  simp only [State.tbConflict, held_ite, State.incF_held, State.tbFault_held, State.modTile_held, State.raise_held, ite_self]

@[simp] theorem State.withdraw_held (s : State) (lt : Nat) (u : SliceUse) : (s.withdraw lt u).held = s.held := by
  simp only [State.withdraw, held_ite, held_update, State.modChan_held, State.drawn_held, ite_self]

@[simp] theorem State.giveWay_held (s : State) (lt : Nat) (u : SliceUse) : (s.giveWay lt u).held = s.held := by
  simp only [State.giveWay, held_ite, held_update, State.withdraw_held, ite_self]

@[simp] theorem State.useSlices_held (s : State) (lt cycle port prio off n : Nat) (sink : Option Nat) :
    (s.useSlices lt cycle port prio off n sink).2.held = s.held := by
  simp only [State.useSlices, held_ite, held_forEach, State.giveWay_held, State.modTile_held, State.tbConflict_held, ite_self,
    implies_true]

@[simp] theorem State.tbPortRead_held (s : State) (lt cycle port prio off n : Nat) (sink : Option Nat) :
    (s.tbPortRead lt cycle port prio off n sink).2.held = s.held := by
  simp only [State.tbPortRead, held_ite_snd, State.useSlices_held, State.tbRead_held, State.drawn_held, ite_self]

@[simp] theorem State.tbPortWrite_held (s : State) (lt cycle port prio off : Nat) (data : List Byte) (poison : List Bool) (tag :
    Nat) :
    (s.tbPortWrite lt cycle port prio off data poison tag).held = s.held := by
  simp only [State.tbPortWrite, held_update, State.useSlices_held]

@[simp] theorem State.memFaultAt_held (s : State) (l a kind : Nat) : (s.memFaultAt l a kind).held = s.held := by
  simp only [State.memFaultAt, held_ite, State.setF_held, State.setB_held, State.raise_held, ite_self]

@[simp] theorem State.memFault_held (s : State) (a kind : Nat) : (s.memFault a kind).held = s.held := by
  simp only [State.memFault, State.memFaultAt_held]

@[simp] theorem State.lkCount_held (s : State) (a : Nat) (k : WordCheck) : (s.lkCount a k).held = s.held := by
  unfold State.lkCount
  split <;> simp only [State.incF_held, State.memFault_held]

@[simp] theorem State.lkLoad_held (s : State) (a : Nat) : (s.lkLoad a).2.held = s.held := by
  simp only [State.lkLoad, State.lkCount_held]

@[simp] theorem State.lmStoreAt_held (s : State) (a : Nat) (data : List Byte) (poison : Bool) :
    (s.lmStoreAt a data poison).held = s.held := by
  simp only [State.lmStoreAt, held_ite, held_update, State.incF_held, ite_self]

@[simp] theorem State.svcReadPiece_held (s : State) (a n : Nat) : (s.svcReadPiece a n).2.held = s.held := by
  simp only [State.svcReadPiece]
  (repeat' split) <;> simp only [State.lkLoad_held, State.tbRead_held, State.incF_held]

@[simp] theorem svcReadPieces_held (l : List (Nat × Nat)) :
    ∀ (s : State) (d : List Byte), (svcReadPieces s l d).2.held = s.held := by
  induction l with
  | nil => exact fun _ _ => rfl
  | cons p l ih =>
    intro s d
    have hread := State.svcReadPiece_held s p.1 p.2
    unfold svcReadPieces
    split
    next heq => rw [ih, ← hread, heq]
    next heq => rw [← hread, heq]

@[simp] theorem State.svcRead_held (s : State) (a n : Nat) : (s.svcRead a n).2.held = s.held := by
  simp only [State.svcRead, svcReadPieces_held]

@[simp] theorem State.svcWritePiece_held (s : State) (a : Nat) (d : List Byte) : (s.svcWritePiece a d).2.held = s.held := by
  simp only [State.svcWritePiece]
  (repeat' split) <;> simp only [held_update, State.lkLoad_held, State.lmStoreAt_held]

@[simp] theorem svcWritePieces_held (l : List (Nat × Nat)) :
    ∀ (s : State) (d : List Byte) (k : Nat), (svcWritePieces s l d k).2.held = s.held := by
  induction l with
  | nil => exact fun _ _ _ => rfl
  | cons p l ih =>
    intro s d k
    have hwrite := State.svcWritePiece_held s p.1 (d.take p.2)
    unfold svcWritePieces
    split
    next heq => rw [ih, ← hwrite, heq]
    next heq => rw [← hwrite, heq]

@[simp] theorem State.svcWrite_held (s : State) (a : Nat) (d : List Byte) : (s.svcWrite a d).2.held = s.held := by
  simp only [State.svcWrite, svcWritePieces_held]

@[simp] theorem State.readObject_held (s : State) (a n : Nat) : (s.readObject a n).2.held = s.held := by
  simp only [State.readObject, held_ite_snd, State.svcRead_held, ite_self]

@[simp] theorem State.sendRecord_held (s : State) (c : Cmd) (status : Nat) (changed : Bool) (detail result : Nat) :
    (s.sendRecord c status changed detail result).held = s.held := by
  simp only [State.sendRecord, held_ite, State.mxlSend_held, State.setReg_held, ite_self]

@[simp] theorem State.showPrio_held (s : State) : s.showPrio.held = s.held := by
  simp only [State.showPrio, State.setF_held]

@[simp] theorem State.tracePhases_held (s : State) (c : Cmd) (changed : Bool) : (s.tracePhases c changed).held = s.held := by
  simp only [State.tracePhases, held_forEach, State.trace_held, implies_true]

@[simp] theorem State.finish_held (s : State) (c : Cmd) (status : Nat) (changed : Bool) (detail result : Nat) :
    (s.finish c status changed detail result).held = s.held := by
  simp only [State.finish, held_ite, held_update, State.tracePhases_held, State.sendRecord_held, State.trace_held,
    State.perfAdd_held, State.showPrio_held, ite_self]

@[simp] theorem State.fail_held (s : State) (c : Cmd) (status : Nat) : (s.fail c status).held = s.held := by
  simp only [State.fail, State.finish_held]

@[simp] theorem State.failAt_held (s : State) (c : Cmd) (status word bit : Nat) : (s.failAt c status word bit).held = s.held := by
  simp only [State.failAt, State.finish_held]

@[simp] theorem State.ok_held (s : State) (c : Cmd) (result : Nat) : (s.ok c result).held = s.held := by
  simp only [State.ok, State.finish_held]

@[simp] theorem State.badParam_held (s : State) (c : Cmd) (word bit : Nat) : (s.badParam c word bit).held = s.held := by
  simp only [State.badParam, State.failAt_held]

@[simp] theorem State.putCmd_held (s : State) (c c' : Cmd) : (s.putCmd c c').held = s.held := by
  simp only [State.putCmd, held_ite, held_update, State.trace_held, ite_self]

@[simp] theorem State.onCmd_held (s : State) (ring tag opcode : Nat) (f : State → Cmd → State) (hf :
    ∀ s x, (f s x).held = s.held) : (s.onCmd ring tag opcode f).held = s.held := by
  unfold State.onCmd
  split
  · split_ifs
    · exact hf _ _
    · rfl
  · rfl

@[simp] theorem State.onActive_held (s : State) (ring tag opcode : Nat) (f : State → Cmd → State) (hf :
    ∀ s x, (f s x).held = s.held) : (s.onActive ring tag opcode f).held = s.held := by
  unfold State.onActive
  split
  · exact hf _ _
  · rfl

@[simp] theorem State.accept_held (s : State) (c : Cmd) (device : Bool) : (s.accept c device).held = s.held := by
  simp only [State.accept]
  (repeat' split) <;> simp only [held_update, State.trace_held, State.finish_held]

@[simp] theorem State.readEntry_held (s : State) (r i : Nat) : (s.readEntry r i).held = s.held := by
  simp only [State.readEntry, held_update, State.mxlSend_held]

@[simp] theorem State.readRoster_held (s : State) (c : Cmd) : (s.readRoster c).held = s.held := by
  simp only [State.readRoster, held_ite_snd, State.readObject_held, State.putCmd_held, ite_self]

@[simp] theorem State.acceptRing_held (s : State) (c : Cmd) (device : Bool) : (s.acceptRing c device).held = s.held := by
  simp only [State.acceptRing, held_ite, State.accept_held, State.readRoster_held, ite_self]

@[simp] theorem State.fetch_held (s : State) (r : Nat) (d : List Byte) : (s.fetch r d).held = s.held := by
  simp only [State.fetch, held_ite, held_update, State.setReg_held, State.readEntry_held, State.acceptRing_held, ite_self]

@[simp] theorem State.ariResum_held (s : State) : s.ariResum.held = s.held := by
  simp only [State.ariResum, State.setReg_held]

@[simp] theorem State.ariFirst_held (s : State) (f : Flags) (unit part : Nat) (port : Bool) :
    (s.ariFirst f unit part port).held = s.held := by
  simp only [State.ariFirst, held_ite, held_update, State.setReg_held, ite_self]

@[simp] theorem State.ariSummary_held (s : State) (f : Flags) (unit part kind : Nat) :
    (s.ariSummary f unit part kind).held = s.held := by
  simp only [State.ariSummary, held_ite, held_forEach, State.setB_held, State.raise_held, ite_self, implies_true]

@[simp] theorem State.tileFlags_held (s : State) (lt : Nat) (f : Flags) (src : Nat) : (s.tileFlags lt f src).held = s.held := by
  simp only [State.tileFlags, held_ite, State.setReg_held, State.ariFirst_held, State.ariSummary_held, ite_self]

@[simp] theorem State.portFlags_held (s : State) (port : Nat) (f : Flags) : (s.portFlags port f).held = s.held := by
  simp only [State.portFlags, held_ite, State.setReg_held, State.ariFirst_held, State.ariSummary_held, ite_self]

@[simp] theorem State.ariStart_held (s : State) (p : Nat) : (s.ariStart p).held = s.held := by
  simp only [State.ariStart, held_ite, held_forEach, State.setReg_held, State.ariResum_held, ite_self, implies_true]

@[simp] theorem State.modVe_held (s : State) (lt : Nat) (f : VeSt → VeSt) : (s.modVe lt f).held = s.held := by
  simp only [State.modVe, State.modTile_held]

@[simp] theorem State.laneFlags_held (s : State) (lt lo : Nat) (inx sat : List Bool) :
    (s.laneFlags lt lo inx sat).held = s.held := by
  simp only [State.laneFlags, held_ite, State.modVe_held, State.tileFlags_held, ite_self]

@[simp] theorem State.outWrite_held (s : State) (lt : Nat) (f : VeFlight) (addr scaleAddr fmt : Nat) (exp : Int) :
    (s.outWrite lt f addr scaleAddr fmt exp).held = s.held := by
  simp only [State.outWrite, held_ite, State.laneFlags_held, State.tbPortWrite_held, ite_self]

@[simp] theorem State.land_held (s : State) (lt : Nat) (f : VeFlight) : (s.land lt f).held = s.held := by
  unfold State.land
  (repeat' split) <;> simp only [State.modVe_held, State.laneFlags_held, State.setB_held, State.incF_held, State.outWrite_held]

@[simp] theorem State.landStep_held (s : State) (lt : Nat) : (s.landStep lt).held = s.held := by
  unfold State.landStep
  split <;> simp only [held_update, State.modVe_held, State.land_held]

end Sys2Proof.Machine
end

