-- ==== Sys2Proof/Proofs/HeldEngines.lean ====
section
/-! What each operation keeps, on any state: the queue and the variant. Here: the engines of a tile and the bells. -/

namespace Sys2Proof.Machine

@[simp] theorem State.modMxe_held (s : State) (lt : Nat) (f : MxeSt → MxeSt) : (s.modMxe lt f).held = s.held := by
  simp only [State.modMxe, State.modTile_held]

@[simp] theorem State.loadColumn_held (s : State) (lt d j : Nat) : (s.loadColumn lt d j).2.held = s.held := by
  simp only [State.loadColumn, State.tbPortRead_held]

@[simp] theorem State.loadStep_held (s : State) (lt : Nat) : (s.loadStep lt).held = s.held := by
  unfold State.loadStep
  split <;> simp only [State.loadColumn_held, State.modMxe_held]

@[simp] theorem State.showPlane_held (s : State) (lt : Nat) : (s.showPlane lt).held = s.held := by
  simp only [State.showPlane, State.setF_held]

@[simp] theorem State.swapPlanes_held (s : State) (lt : Nat) : (s.swapPlanes lt).held = s.held := by
  simp only [State.swapPlanes, State.modMxe_held, State.showPlane_held]

@[simp] theorem State.accRead_held (s : State) (lt row : Nat) : (s.accRead lt row).2.held = s.held := by
  simp only [State.accRead, State.incF_held]

@[simp] theorem State.passInput_held (s : State) (lt d r x k : Nat) : (s.passInput lt d r x k).2.held = s.held := by
  simp only [State.passInput, State.tbPortRead_held]

@[simp] theorem State.passStep_held (s : State) (lt : Nat) : (s.passStep lt).held = s.held := by
  unfold State.passStep
  split <;> simp only [held_update, State.passInput_held, State.incF_held, State.perfAdd_held, State.modMxe_held]

@[simp] theorem State.accUpdate_held (s : State) (lt : Nat) (u : AccUpdate) : (s.accUpdate lt u).held = s.held := by
  unfold State.accUpdate
  split <;> simp only [held_update, State.modMxe_held, State.accRead_held, State.tileFlags_held, State.setF_held]

@[simp] theorem State.updateStep_held (s : State) (lt : Nat) : (s.updateStep lt).held = s.held := by
  unfold State.updateStep
  split <;> simp only [State.modMxe_held, State.accUpdate_held]

@[simp] theorem State.offerBeat_held (s : State) (b : Beat) : (s.offerBeat b).held = s.held := by
  simp only [State.offerBeat, held_update]

@[simp] theorem State.sendRow_held (s : State) (lt d r : Nat) : (s.sendRow lt d r).held = s.held := by
  simp only [State.sendRow, held_ite, held_forEach, State.accRead_held, State.modMxe_held, State.offerBeat_held, ite_self,
    implies_true]

@[simp] theorem State.sendStep_held (s : State) (lt : Nat) : (s.sendStep lt).held = s.held := by
  unfold State.sendStep
  split <;> simp only [held_update, State.sendRow_held, State.modMxe_held]

@[simp] theorem State.showTables_held (s : State) (lt : Nat) : (s.showTables lt).held = s.held := by
  simp only [State.showTables, State.setF_held]

@[simp] theorem State.cacheRead_held (s : State) (lt n w : Nat) : (s.cacheRead lt n w).2.held = s.held := by
  simp only [State.cacheRead, State.incF_held]

@[simp] theorem State.cacheLine_held (s : State) (lt d i : Nat) : (s.cacheLine lt d i).held = s.held := by
  simp only [State.cacheLine, held_ite, State.tbPortRead_held, State.modVe_held, State.cacheRead_held, State.tbPortWrite_held,
    ite_self]

@[simp] theorem State.jobStep_held (s : State) (lt : Nat) : (s.jobStep lt).held = s.held := by
  simp only [State.jobStep]
  (repeat' split) <;> simp only [held_update, State.cacheLine_held, State.modVe_held, State.tbPortRead_held, State.showTables_held,
    State.setB_held]

@[simp] theorem State.engineStep_held (s : State) (lt : Nat) (e : TileDue) : (s.engineStep lt e).held = s.held := by
  unfold State.engineStep
  split <;> simp only [State.passStep_held, State.loadStep_held, State.sendStep_held, State.jobStep_held, State.landStep_held,
    State.updateStep_held]

@[simp] theorem engineRun_held (lt key k : Nat) : ∀ s : State, (engineRun lt key k s).held = s.held := by
  induction k with
  | zero => exact fun _ => rfl
  | succ k ih =>
    intro s
    unfold engineRun
    split <;> simp [ih]

@[simp] theorem State.showMxe_held (s : State) (lt : Nat) : (s.showMxe lt).held = s.held := by
  simp only [State.showMxe, held_ite, State.setB_held, ite_self]

@[simp] theorem State.showVe_held (s : State) (lt : Nat) : (s.showVe lt).held = s.held := by
  simp only [State.showVe, held_ite, State.setB_held, ite_self]

@[simp] theorem State.showEngines_held (s : State) (lt : Nat) : (s.showEngines lt).held = s.held := by
  simp only [State.showEngines, State.showMxe_held, State.showVe_held]

@[simp] theorem State.engines_held (s : State) (lt x : Nat) : (s.engines lt x).held = s.held := by
  simp only [State.engines, held_ite, held_update, engineRun_held, State.showEngines_held, ite_self]

@[simp] theorem State.enginesAll_held (s : State) : s.enginesAll.held = s.held := by
  simp only [State.enginesAll, held_forEach, State.engines_held, implies_true]

@[simp] theorem State.portRead_held (s : State) (lt cycle port prio off n : Nat) (sink : Option Nat) :
    (s.portRead lt cycle port prio off n sink).2.held = s.held := by
  simp only [State.portRead, State.engines_held, State.tbPortRead_held]

@[simp] theorem State.portWrite_held (s : State) (lt cycle port prio off : Nat) (data : List Byte) (poison : List Bool) (tag : Nat)
    :
    (s.portWrite lt cycle port prio off data poison tag).held = s.held := by
  simp only [State.portWrite, State.engines_held, State.tbPortWrite_held]

@[simp] theorem State.stopEngines_held (s : State) (lt : Nat) : (s.stopEngines lt).held = s.held := by
  simp only [State.stopEngines, State.engines_held, State.modTile_held, State.showEngines_held]

@[simp] theorem State.setGated_held (s : State) (f : Nat) (b : Bool) : (s.setGated f b).held = s.held := by
  simp only [State.setGated, held_forEach, State.setB_held, State.modTile_held, implies_true]

@[simp] theorem State.gateOutside_held (s : State) (p mask : Nat) : (s.gateOutside p mask).held = s.held := by
  simp only [State.gateOutside, held_ite, held_forEach, State.setGated_held, ite_self, implies_true]

@[simp] theorem State.dropRosters_held (s : State) (p : Nat) (gone : Roster → Bool) : (s.dropRosters p gone).held = s.held := by
  refine (held_forEach _ (fun t r => ?_) _).trans (s.modCrs_held p _)
  extract_lets u
  have hcount : u.held = t.held := t.incF_held _ _ _
  split
  · exact (u.fail_held _ _).trans hcount
  · exact hcount

@[simp] theorem State.endBell_held (s : State) (p : Nat) : (s.endBell p).held = s.held := by
  simp only [State.endBell]
  (repeat' split) <;> simp only [State.setPair_held, State.modCrs_held, State.dropRosters_held]

@[simp] theorem State.lessonStart_held (s : State) (p : Nat) : (s.lessonStart p).held = s.held := by
  simp only [State.lessonStart, held_forEach, State.setF_held, State.setReg_held, State.modTile_held, State.gateOutside_held,
    State.raise_held, implies_true]

@[simp] theorem State.courseDone_held (s : State) (p : Nat) : (s.courseDone p).held = s.held := by
  simp only [State.courseDone, State.setCourseState_held, State.setB_held, State.dropRosters_held, State.gateOutside_held,
    State.setF_held, State.raise_held]

@[simp] theorem State.courseBell_held (s : State) (p b : Nat) (recess : Bool) : (s.courseBell p b recess).held = s.held := by
  simp only [State.courseBell, held_ite, State.setCourseState_held, State.setB_held, State.courseDone_held, State.gateOutside_held,
    State.modCrs_held, State.perfAdd_held, State.lessonStart_held, ite_self]

@[simp] theorem State.showRecess_held (s : State) : s.showRecess.held = s.held := by
  unfold State.showRecess
  split <;> simp only [State.setPair_held, State.setF_held]

@[simp] theorem State.beginRecess_held (s : State) (r : Recess) : (s.beginRecess r).held = s.held := by
  simp only [State.beginRecess, held_update]

@[simp] theorem State.throttleRecord_held (s : State) (r : RecessNow) : (s.throttleRecord r).held = s.held := by
  simp only [State.throttleRecord, held_forEach, State.setReg_held, State.raise_held, implies_true]

@[simp] theorem State.endRecess_held (s : State) : s.endRecess.held = s.held := by
  unfold State.endRecess
  split <;> simp only [held_ite, held_update, State.throttleRecord_held, ite_self]

@[simp] theorem State.takeAnnounced_held (s : State) (b : Nat) : (s.takeAnnounced b).held = s.held := by
  unfold State.takeAnnounced
  split <;> simp only [held_ite, held_update, State.showRecess_held, State.beginRecess_held, ite_self]

@[simp] theorem State.recessBell_held (s : State) (b : Nat) : (s.recessBell b).2.held = s.held := by
  unfold State.recessBell
  split <;> simp only [held_ite_snd, held_update, State.recessTaken_held, State.setB_held, ite_self]

@[simp] theorem State.showStretch_held (s : State) : s.showStretch.held = s.held := by
  simp only [State.showStretch, held_ite, State.trace_held, State.setF_held, ite_self]

@[simp] theorem State.newBell_held (s : State) : s.newBell.held = s.held := by
  simp only [State.newBell, held_update]

@[simp] theorem State.showMargins_held (s : State) : s.showMargins.held = s.held := by
  simp only [State.showMargins, held_update, held_forEach, State.setF_held, implies_true]

@[simp] theorem State.groupSwitch_held (s : State) (p b : Nat) : (s.groupSwitch p b).held = s.held := by
  unfold State.groupSwitch
  split <;> simp only [held_ite, State.setF_held, State.setReg_held, State.setPair_held, State.modGroup_held, ite_self]

@[simp] theorem State.bellStart_held (s : State) (depart : Nat) : (s.bellStart depart).held = s.held := by
  simp only [State.bellStart, held_ite, held_forEach, State.showStretch_held, State.showMargins_held, State.newBell_held,
    State.setPair_held, State.endBell_held, State.endRecess_held, State.takeAnnounced_held, State.recessBell_held,
    State.groupSwitch_held, State.courseBell_held, State.sendSym_held, ite_self, implies_true]

@[simp] theorem State.slotBDecide_held (s : State) (l : Nat) : (s.slotBDecide l).held = s.held := by
  simp only [State.slotBDecide, State.modLayer_held, State.setB_held]

@[simp] theorem State.payBack_held (s : State) : s.payBack.held = s.held := by
  simp only [State.payBack, held_update]

@[simp] theorem State.guardStart_held (s : State) : s.guardStart.held = s.held := by
  simp only [State.guardStart, held_update, held_forEach, State.payBack_held, State.setF_held, State.slotBDecide_held, implies_true]

@[simp] theorem State.bellOverrun_held (s : State) : s.bellOverrun.held = s.held := by
  simp only [State.bellOverrun, held_ite, held_update, State.raise_held, State.incF_held, State.outOfStep_held, ite_self]

@[simp] theorem State.dropSym_held (s : State) (port : Nat) : (s.dropSym port).held = s.held := by
  simp only [State.dropSym, State.incF_held]

@[simp] theorem State.measurePhase_held (s : State) (e : Int) : (s.measurePhase e).held = s.held := by
  simp only [State.measurePhase, held_ite, held_update, State.setF_held, State.raise_held, State.outOfStep_held, ite_self]

@[simp] theorem State.joinedBell_held (s : State) (bell : Nat) (e : Int) : (s.joinedBell bell e).held = s.held := by
  simp only [State.joinedBell, held_ite, held_update, State.setPair_held, State.setF_held, State.measurePhase_held,
    State.outOfStep_held, ite_self]

@[simp] theorem State.joiningBell_held (s : State) (j : Join) (e : Int) : (s.joiningBell j e).held = s.held := by
  simp only [State.joiningBell, held_ite, held_update, State.measurePhase_held, ite_self]

@[simp] theorem State.symBell_held (s : State) (port : Nat) (y : Sym) (bad : Bool) (arrival : Int) (resid : Nat) :
    (s.symBell port y bad arrival resid).held = s.held := by
  simp only [State.symBell]
  (repeat' split) <;> simp only [held_update, held_forEach, State.dropSym_held, State.setB_held, State.setF_held,
    State.joinedBell_held, State.sendSym_held, State.joiningBell_held, implies_true]

@[simp] theorem State.bellMissing_held (s : State) : s.bellMissing.held = s.held := by
  simp only [State.bellMissing, held_ite, State.setB_held, State.setF_held, ite_self]

@[simp] theorem State.rejoin_held (s : State) : s.rejoin.held = s.held := by
  simp only [State.rejoin, held_ite, held_update, State.setB_held, ite_self]

@[simp] theorem State.symHalt_held (s : State) (port : Nat) (y : Sym) (bad : Bool) : (s.symHalt port y bad).held = s.held := by
  simp only [State.symHalt, held_ite, State.dropSym_held, State.modPort_held, State.sendSym3All_held, State.nameHalt_held, ite_self]

@[simp] theorem State.haltReached_held (s : State) (p : Nat) : (s.haltReached p).held = s.held := by
  simp only [State.haltReached]
  (repeat' split) <;> simp only [State.endBell_held, State.setCourseState_held, State.setB_held, State.modCrs_held,
    State.dropRosters_held, State.gateOutside_held, State.setF_held, State.sendCnet_held, State.raiseWith_held]

@[simp] theorem State.scheduleRecess_held (s : State) (r : Recess) : (s.scheduleRecess r).held = s.held := by
  simp only [State.scheduleRecess, held_update, State.showRecess_held]

@[simp] theorem State.recessAnnounce_held (s : State) : s.recessAnnounce.held = s.held := by
  simp only [State.recessAnnounce]
  (repeat' split) <;> simp only [held_update, State.sendSym3All_held, State.scheduleRecess_held]

@[simp] theorem State.symRecess_held (s : State) (port : Nat) (y : Sym) (bad : Bool) : (s.symRecess port y bad).held = s.held := by
  simp only [State.symRecess, held_ite, State.dropSym_held, State.modPort_held, State.sendSym3All_held, State.scheduleRecess_held,
    ite_self]

@[simp] theorem State.symRecessReq_held (s : State) (port : Nat) (y : Sym) (bad : Bool) :
    (s.symRecessReq port y bad).held = s.held := by
  simp only [State.symRecessReq, held_ite, held_update, State.dropSym_held, State.modPort_held, State.sendSym3_held, ite_self]

@[simp] theorem State.markPoint_held (s : State) : s.markPoint.held = s.held := by
  simp only [State.markPoint, held_ite, held_update, ite_self]

@[simp] theorem State.requestRecess_held (s : State) (k n r reason value : Nat) :
    (s.requestRecess k n r reason value).held = s.held := by
  simp only [State.requestRecess, held_ite, held_update, State.sendSym3_held, ite_self]

end Sys2Proof.Machine
end

