-- ==== Sys2Proof/Proofs/HeldCourses.lean ====
section
/-! What each operation keeps, on any state: the queue and the variant. Here: seats, courses, power, clocks and pages. -/

namespace Sys2Proof.Machine

@[simp] theorem State.logAppend_held (s : State) (kind stage step detail : Nat) (body : List Nat) :
    (s.logAppend kind stage step detail body).held = s.held := by
  simp only [State.logAppend, held_update]

@[simp] theorem State.writeCarry_held (s : State) : s.writeCarry.held = s.held := by
  simp only [State.writeCarry, held_update]

@[simp] theorem State.carryLane_held (s : State) (port lane : Nat) : (s.carryLane port lane).held = s.held := by
  simp only [State.carryLane, held_update, State.writeCarry_held]

@[simp] theorem State.showSeat_held (s : State) (m : Nat) : (s.showSeat m).held = s.held := by
  simp only [State.showSeat, State.setReg_held, State.setB_held]

@[simp] theorem State.showForm_held (s : State) (f : Nat) : (s.showForm f).held = s.held := by
  simp only [State.showForm, held_forEach, State.showSeat_held, implies_true]

@[simp] theorem State.setSeat_held (s : State) (m status test passes : Nat) : (s.setSeat m status test passes).held = s.held := by
  simp only [State.setSeat, held_update]

@[simp] theorem State.showFormStatus_held (s : State) (f : Nat) (excluded : Bool) :
    (s.showFormStatus f excluded).held = s.held := by
  simp only [State.showFormStatus, State.setReg_held, State.showForm_held, State.ariResum_held]

@[simp] theorem State.seatFails_held (s : State) (m test : Nat) : (s.seatFails m test).held = s.held := by
  simp only [State.seatFails, held_ite, State.setSeat_held, State.raise_held, ite_self]

@[simp] theorem State.refine_held (s : State) (m test : Nat) : (s.refine m test).held = s.held := by
  simp only [State.refine, held_ite, State.seatFails_held, State.setSeat_held, ite_self]

@[simp] theorem State.loseLockers_held (s : State) (lt : Nat) (keep : Bool) : (s.loseLockers lt keep).held = s.held := by
  simp only [State.loseLockers, held_update]

@[simp] theorem State.putSeat_held (s : State) (lt idx : Nat) : (s.putSeat lt idx).held = s.held := by
  simp only [State.putSeat, State.setF_held]

@[simp] theorem State.loadExclusions_held (s : State) (lt : Nat) : (s.loadExclusions lt).held = s.held := by
  simp only [State.loadExclusions, held_ite, State.setReg_held, ite_self]

@[simp] theorem State.seatForm_held (s : State) (f : Nat) : (s.seatForm f).held = s.held := by
  simp only [State.seatForm, held_ite, held_forEach, State.putSeat_held, State.showFormStatus_held, State.loadExclusions_held,
    ite_self, implies_true]

@[simp] theorem State.clearEngineRegs_held (s : State) (lt : Nat) : (s.clearEngineRegs lt).held = s.held := by
  simp only [State.clearEngineRegs, held_forEach, State.setB_held, State.setF_held, implies_true]

@[simp] theorem State.clearEngines_held (s : State) (lt : Nat) : (s.clearEngines lt).held = s.held := by
  simp only [State.clearEngines, held_update, State.modTile_held, State.clearEngineRegs_held]

@[simp] theorem State.loadLocal_held (s : State) (lt : Nat) (prog : List Byte) : (s.loadLocal lt prog).held = s.held := by
  simp only [State.loadLocal, held_update, held_forEach, implies_true]

@[simp] theorem State.tileFailure_held (s : State) (lt test : Nat) : (s.tileFailure lt test).held = s.held := by
  simp only [State.tileFailure, held_ite, held_update, State.declareHalt_held, ite_self]

@[simp] theorem State.setEvacPending_held (s : State) (lt : Nat) (b : Bool) : (s.setEvacPending lt b).held = s.held := by
  simp only [State.setEvacPending, State.setB_held]

@[simp] theorem State.freshTile_held (s : State) (lt : Nat) : (s.freshTile lt).held = s.held := by
  simp only [State.freshTile, held_update, State.clearEngines_held, State.loadLocal_held, State.loadExclusions_held]

@[simp] theorem State.stopExam_held (s : State) (m : Nat) : (s.stopExam m).held = s.held := by
  simp only [State.stopExam, held_update]

@[simp] theorem State.substitute_held (s : State) (lt test : Nat) : (s.substitute lt test).held = s.held := by
  simp only [State.substitute]
  (repeat' split) <;> simp only [held_update, State.setSeat_held, State.setF_held, State.incF_held, State.showFormStatus_held,
    State.setB_held, State.stopExam_held, State.freshTile_held, State.loseLockers_held, State.setEvacPending_held,
    State.writeCarry_held, State.logAppend_held, State.raise_held, State.putSeat_held]

@[simp] theorem State.substitutionDone_held (s : State) (lt : Nat) : (s.substitutionDone lt).held = s.held := by
  unfold State.substitutionDone
  split <;> simp only [held_update, State.substitute_held]

@[simp] theorem State.errorsThreshold_held (s : State) (lt : Nat) : (s.errorsThreshold lt).held = s.held := by
  simp only [State.errorsThreshold, held_ite, State.tileFailure_held, State.modTile_held, ite_self]

@[simp] theorem State.haltChan_held (s : State) (lt c : Nat) : (s.haltChan lt c).held = s.held := by
  simp only [State.haltChan, held_ite, State.modChan_held, State.setF_held, State.setB_held, ite_self]

@[simp] theorem State.haltCore_held (s : State) (g : Nat) : (s.haltCore g).held = s.held := by
  simp only [State.haltCore, State.modCore_held, State.setB_held]

@[simp] theorem State.haltTile_held (s : State) (lt : Nat) : (s.haltTile lt).held = s.held := by
  simp only [State.haltTile, held_forEach, State.stopEngines_held, State.haltCore_held, State.haltChan_held, State.setB_held,
    implies_true]

@[simp] theorem State.showSeqs_held (s : State) (l : Nat) : (s.showSeqs l).held = s.held := by
  simp only [State.showSeqs, State.setB_held, State.setF_held]

@[simp] theorem State.showBusy_held (s : State) (l : Nat) (tiles : List Nat) : (s.showBusy l tiles).held = s.held := by
  simp only [State.showBusy, held_forEach, State.setF_held, implies_true]

@[simp] theorem State.dropSeqs_held (s : State) (l : Nat) (gone : SeqRun → Bool) : (s.dropSeqs l gone).held = s.held := by
  simp only [State.dropSeqs, State.modLayer_held, State.showSeqs_held, State.showBusy_held]

@[simp] theorem State.haltLayer_held (s : State) (l p : Nat) : (s.haltLayer l p).held = s.held := by
  simp only [State.haltLayer, State.modLayer_held, State.setB_held, State.dropSeqs_held]

@[simp] theorem State.stopPart_held (s : State) (p : Nat) : (s.stopPart p).held = s.held := by
  simp only [State.stopPart, held_forEach, State.fail_held, State.declareHalt_held, implies_true]

@[simp] theorem State.stopCmd_held (s : State) (c : Cmd) : (s.stopCmd c).held = s.held := by
  simp only [State.stopCmd, held_update, held_forEach, State.stopPart_held, State.sendCnet_held, State.setF_held,
    State.putCmd_held, implies_true]

@[simp] theorem State.setAwaited_held (s : State) (t : StopSt) (rest : List Nat) : (s.setAwaited t rest).held = s.held := by
  simp only [State.setAwaited, held_update]

@[simp] theorem State.quiesce_held (s : State) (node : Nat) : (s.quiesce node).held = s.held := by
  simp only [State.quiesce]
  (repeat' split) <;> simp only [State.engines_held, State.incF_held, State.setAwaited_held]

@[simp] theorem State.stopTimeout_held (s : State) : s.stopTimeout.held = s.held := by
  unfold State.stopTimeout
  split <;> simp only [held_ite, held_update, State.setB_held, State.raise_held, ite_self]

@[simp] theorem State.stageLesson_held (s : State) (p lesson : Nat) : (s.stageLesson p lesson).held = s.held := by
  simp only [State.stageLesson, held_forEach, State.modTile_held, State.modLayer_held, State.modPort_held, implies_true]

@[simp] theorem State.prefetch_held (s : State) (p : Nat) : (s.prefetch p).held = s.held := by
  simp only [State.prefetch]
  (repeat' split) <;> simp only [held_forEach, State.modTile_held, State.modLayer_held, State.modPort_held, implies_true]

@[simp] theorem State.armStart_held (s : State) (c : Cmd) (inPlace resuming : Bool) :
    (s.armStart c inPlace resuming).held = s.held := by
  simp only [State.armStart, State.modCrs_held, State.putCmd_held]

@[simp] theorem State.courseStart_held (s : State) (c : Cmd) : (s.courseStart c).held = s.held := by
  unfold State.courseStart
  split <;> simp only [held_ite, State.fail_held, State.armStart_held, ite_self]

@[simp] theorem State.courseResume_held (s : State) (c : Cmd) : (s.courseResume c).held = s.held := by
  unfold State.courseResume
  (repeat' split) <;> simp only [held_ite, State.fail_held, State.armStart_held, ite_self]

@[simp] theorem State.restage_held (s : State) (p : Nat) : (s.restage p).held = s.held := by
  unfold State.restage
  split <;> simp only [held_ite, State.stageLesson_held, State.modCrs_held, ite_self]

@[simp] theorem State.startClears_held (s : State) (p : Nat) : (s.startClears p).held = s.held := by
  simp only [State.startClears, held_forEach, State.clearEngines_held, State.modLayer_held, State.setB_held, State.modPort_held,
    State.ariStart_held, implies_true]

@[simp] theorem State.startCommit_held (s : State) (p : Nat) (c : Cmd) : (s.startCommit p c).held = s.held := by
  simp only [State.startCommit, held_ite, State.fail_held, State.startClears_held, State.modCrs_held, State.setPair_held,
    State.setCourseState_held, State.setB_held, State.dropRosters_held, State.ok_held, ite_self]

@[simp] theorem State.courseEnd_held (s : State) (c : Cmd) : (s.courseEnd c).held = s.held := by
  simp only [State.courseEnd, held_ite, State.fail_held, State.ok_held, State.modCrs_held, State.dropRosters_held, ite_self]

@[simp] theorem State.returnSeats_held (s : State) (p : Nat) : (s.returnSeats p).held = s.held := by
  simp only [State.returnSeats, held_ite, held_forEach, State.setSeat_held, State.showFormStatus_held, State.writeCarry_held,
    ite_self, implies_true]

@[simp] theorem State.courseUnload_held (s : State) (c : Cmd) : (s.courseUnload c).held = s.held := by
  simp only [State.courseUnload, held_ite, held_update, State.fail_held, State.dropRosters_held, State.setCourseState_held,
    State.returnSeats_held, State.ok_held, ite_self]

@[simp] theorem State.failLate_held (s : State) (c : Cmd) : (s.failLate c).held = s.held := by
  simp only [State.failLate, State.incF_held, State.fail_held]

@[simp] theorem State.rosterCommit_held (s : State) (c : Cmd) : (s.rosterCommit c).held = s.held := by
  simp only [State.rosterCommit]
  (repeat' split) <;> simp only [State.fail_held, State.failAt_held, State.failLate_held, State.modCrs_held, State.putCmd_held]

@[simp] theorem State.rosterDone_held (s : State) (c : Cmd) : (s.rosterDone c).held = s.held := by
  unfold State.rosterDone
  split <;> simp only [held_ite, State.dropRosters_held, State.modCrs_held, State.finish_held, ite_self]

@[simp] theorem State.rosterDeadline_held (s : State) (c : Cmd) : (s.rosterDeadline c).held = s.held := by
  unfold State.rosterDeadline
  split <;> simp only [held_ite, State.dropRosters_held, ite_self]

@[simp] theorem State.rosterWrite_held (s : State) (lt : Nat) : (s.rosterWrite lt).held = s.held := by
  simp only [State.rosterWrite]
  (repeat' split) <;> simp only [held_update]

@[simp] theorem State.shutdown_held (s : State) (cause region value : Nat) : (s.shutdown cause region value).held = s.held := by
  simp only [State.shutdown, held_update]

@[simp] theorem State.inputValid_held (s : State) (volts : Nat) : (s.inputValid volts).held = s.held := by
  simp only [State.inputValid, held_ite, held_update, State.setF_held, ite_self]

@[simp] theorem State.showCeiling_held (s : State) (f : Nat) : (s.showCeiling f).held = s.held := by
  simp only [State.showCeiling, State.setF_held]

@[simp] theorem State.phaseFault_held (s : State) (ph : Nat) : (s.phaseFault ph).held = s.held := by
  simp only [State.phaseFault, held_ite, held_update, State.setB_held, State.setF_held, State.writeCarry_held,
    State.showCeiling_held, State.raise_held, ite_self]

@[simp] theorem State.isolate_held (s : State) (f amps : Nat) : (s.isolate f amps).held = s.held := by
  simp only [State.isolate, held_ite, State.setB_held, State.declareHalt_held, State.raise_held, ite_self]

@[simp] theorem State.setSetpoint_held (s : State) (mv : Nat) : (s.setSetpoint mv).held = s.held := by
  simp only [State.setSetpoint, held_forEach, State.setF_held, State.showCeiling_held, implies_true]

@[simp] theorem State.setpointStep_held (s : State) : s.setpointStep.held = s.held := by
  simp only [State.setpointStep, held_ite, held_update, State.setSetpoint_held, ite_self]

@[simp] theorem State.crackCompare_held (s : State) (f mv amps : Nat) : (s.crackCompare f mv amps).held = s.held := by
  simp only [State.crackCompare, held_ite, held_update, State.setF_held, State.setB_held, State.raise_held, ite_self]

@[simp] theorem State.ungateForm_held (s : State) (k f : Nat) : (s.ungateForm k f).held = s.held := by
  simp only [State.ungateForm, held_ite, held_forEach, State.modTile_held, State.setB_held, ite_self, implies_true]

@[simp] theorem State.ungateStep_held (s : State) (p k : Nat) : (s.ungateStep p k).held = s.held := by
  simp only [State.ungateStep, held_ite, held_update, held_forEach, State.ungateForm_held, ite_self, implies_true]

@[simp] theorem State.gateForm_held (s : State) (k f : Nat) : (s.gateForm k f).held = s.held := by
  simp only [State.gateForm, held_ite, held_forEach, State.modTile_held, State.setB_held, ite_self, implies_true]

@[simp] theorem State.gateStep_held (s : State) (p k : Nat) : (s.gateStep p k).held = s.held := by
  simp only [State.gateStep, held_ite, held_update, held_forEach, State.gateForm_held, ite_self, implies_true]

@[simp] theorem State.partEnergy_held (s : State) (e : BellEnergy) (p : Nat) : (s.partEnergy e p).held = s.held := by
  simp only [State.partEnergy, held_update, State.setF_held]

@[simp] theorem State.addBell_held (s : State) (e : BellEnergy) : (s.addBell e).held = s.held := by
  simp only [State.addBell, held_ite, held_update, held_forEach, State.partEnergy_held, State.setF_held, ite_self, implies_true]

@[simp] theorem State.energyAccumulate_held (s : State) (e : BellEnergy) : (s.energyAccumulate e).held = s.held := by
  simp only [State.energyAccumulate, held_ite, State.addBell_held, ite_self]

@[simp] theorem State.snapshot_held (s : State) (c : Cmd) : (s.snapshot c).held = s.held := by
  simp only [State.snapshot, held_ite, held_forEach, State.setReg_held, State.setPair_held, State.ok_held, ite_self, implies_true]

@[simp] theorem State.clearErrors_held (s : State) : s.clearErrors.held = s.held := by
  simp only [State.clearErrors, held_forEach, State.setReg_held, implies_true]

@[simp] theorem State.clearPerf_held (s : State) : s.clearPerf.held = s.held := by
  simp only [State.clearPerf, held_forEach, State.setReg_held, implies_true]

@[simp] theorem State.clearThrottle_held (s : State) : s.clearThrottle.held = s.held := by
  simp only [State.clearThrottle, held_forEach, State.setReg_held, implies_true]

@[simp] theorem State.countersClear_held (s : State) (c : Cmd) : (s.countersClear c).held = s.held := by
  simp only [State.countersClear, held_ite, held_update, State.clearErrors_held, State.clearPerf_held, State.clearThrottle_held,
    State.ok_held, ite_self]

@[simp] theorem State.powerCap_held (s : State) (c : Cmd) : (s.powerCap c).held = s.held := by
  simp only [State.powerCap, held_ite, held_update, State.failAt_held, State.setF_held, State.ok_held, ite_self]

@[simp] theorem State.budgetMove_held (s : State) (c : Cmd) : (s.budgetMove c).held = s.held := by
  simp only [State.budgetMove, held_ite, held_update, State.failAt_held, State.ok_held, ite_self]

@[simp] theorem State.budgetTake_held (s : State) : s.budgetTake.held = s.held := by
  unfold State.budgetTake
  split <;> simp only [held_update, held_forEach, State.setF_held, implies_true]

@[simp] theorem State.powerRecess_held (s : State) : s.powerRecess.held = s.held := by
  simp only [State.powerRecess]
  (repeat' split) <;> simp only [State.markPoint_held, State.requestRecess_held]

@[simp] theorem State.setHoldover_held (s : State) (b : Bool) : (s.setHoldover b).held = s.held := by
  simp only [State.setHoldover, State.setB_held]

@[simp] theorem State.referenceLoss_held (s : State) : s.referenceLoss.held = s.held := by
  simp only [State.referenceLoss, held_ite, State.setHoldover_held, State.setB_held, State.incF_held, ite_self]

@[simp] theorem State.referenceSwitch_held (s : State) : s.referenceSwitch.held = s.held := by
  simp only [State.referenceSwitch, State.setHoldover_held, State.setB_held, State.setF_held]

@[simp] theorem State.holdoverEnds_held (s : State) : s.holdoverEnds.held = s.held := by
  simp only [State.holdoverEnds, held_update, State.outOfStep_held]

@[simp] theorem State.referenceRegained_held (s : State) : s.referenceRegained.held = s.held := by
  simp only [State.referenceRegained, held_ite, State.setHoldover_held, State.setB_held, ite_self]

@[simp] theorem State.charge_held (s : State) (n : Nat) : (s.charge n).held = s.held := by
  simp only [State.charge, held_ite, held_update, State.payBack_held, ite_self]

@[simp] theorem State.droopAssert_held (s : State) (die site : Nat) : (s.droopAssert die site).held = s.held := by
  simp only [State.droopAssert, held_ite, held_update, State.setF_held, State.incF_held, ite_self]

@[simp] theorem State.droopEnd_held (s : State) (die site n : Nat) : (s.droopEnd die site n).held = s.held := by
  simp only [State.droopEnd, held_ite, held_update, State.charge_held, ite_self]

@[simp] theorem State.droopMask_held (s : State) (die site periods : Nat) : (s.droopMask die site periods).held = s.held := by
  simp only [State.droopMask, held_ite, held_update, State.droopEnd_held, State.incF_held, ite_self]

@[simp] theorem State.noteMargin_held (s : State) (g margin : Nat) : (s.noteMargin g margin).held = s.held := by
  simp only [State.noteMargin, held_update]

@[simp] theorem State.canaryAct_held (s : State) (g site margin : Nat) : (s.canaryAct g site margin).held = s.held := by
  simp only [State.canaryAct, held_ite, State.noteMargin_held, State.incF_held, State.droopAssert_held, ite_self]

@[simp] theorem State.canaryWarn_held (s : State) (g site margin : Nat) : (s.canaryWarn g site margin).held = s.held := by
  simp only [State.canaryWarn, held_ite, held_update, State.noteMargin_held, ite_self]

@[simp] theorem State.setSeamPhase_held (s : State) (m : Nat) (n : Int) : (s.setSeamPhase m n).held = s.held := by
  simp only [State.setSeamPhase, State.setF_held]

@[simp] theorem State.seamExcursion_held (s : State) (m : Nat) (n : Int) : (s.seamExcursion m n).held = s.held := by
  simp only [State.seamExcursion, held_ite, held_update, held_forEach, State.setSeamPhase_held, State.incF_held,
    State.declareHalt_held, ite_self, implies_true]

@[simp] theorem State.seamRecentre_held (s : State) (m : Nat) : (s.seamRecentre m).held = s.held := by
  unfold State.seamRecentre
  split <;> simp only [held_ite, held_update, State.setSeamPhase_held, ite_self]

@[simp] theorem State.fieldTrim_held (s : State) (phases : List Int) : (s.fieldTrim phases).held = s.held := by
  simp only [State.fieldTrim, held_update, held_forEach, State.seamRecentre_held, implies_true]

@[simp] theorem State.putArea_held (s : State) (lt off n v : Nat) : (s.putArea lt off n v).held = s.held := by
  simp only [State.putArea, held_update]

@[simp] theorem State.setFrameCount_held (s : State) (lt i v : Nat) : (s.setFrameCount lt i v).held = s.held := by
  simp only [State.setFrameCount, State.putArea_held]

@[simp] theorem State.showFree_held (s : State) (lt : Nat) : (s.showFree lt).held = s.held := by
  simp only [State.showFree, held_ite, State.setReg_held, State.setF_held, ite_self]

@[simp] theorem State.releasePage_held (s : State) (lt q vp : Nat) : (s.releasePage lt q vp).held = s.held := by
  unfold State.releasePage
  split <;> simp only [held_ite, State.putArea_held, State.setFrameCount_held, ite_self]

@[simp] theorem State.growRun_held (s : State) (lt q n : Nat) : (s.growRun lt q n).held = s.held := by
  unfold State.growRun
  split <;> simp only [held_ite, held_update, State.putArea_held, ite_self]

@[simp] theorem State.mapPage_held (s : State) (lt q vp : Nat) : (s.mapPage lt q vp).held = s.held := by
  unfold State.mapPage
  (repeat' split) <;> simp only [State.setFrameCount_held, State.putArea_held]

@[simp] theorem State.copyFrame_held (s : State) (src dst : Nat) : (s.copyFrame src dst).held = s.held := by
  simp only [State.copyFrame, held_update, held_forEach, State.lkLoad_held, implies_true]

@[simp] theorem State.privatePage_held (s : State) (lt q vp : Nat) : (s.privatePage lt q vp).held = s.held := by
  simp only [State.privatePage]
  (repeat' split) <;> simp only [State.copyFrame_held, State.setFrameCount_held, State.putArea_held]

@[simp] theorem State.forkPage_held (s : State) (lt src dst vp : Nat) : (s.forkPage lt src dst vp).held = s.held := by
  unfold State.forkPage
  split <;> simp only [held_ite, State.putArea_held, State.setFrameCount_held, ite_self]

@[simp] theorem State.pageTile_held (s : State) (k : Packet) (lt : Nat) : (s.pageTile k lt).held = s.held := by
  simp only [State.pageTile, held_ite, held_forEach, State.putArea_held, State.releasePage_held, State.growRun_held,
    State.mapPage_held, State.forkPage_held, State.privatePage_held, ite_self, implies_true]

@[simp] theorem State.pageAccept_held (s : State) (c : Cmd) : (s.pageAccept c).held = s.held := by
  unfold State.pageAccept
  split <;> simp only [State.fail_held, State.putCmd_held]

@[simp] theorem State.pageCommit_held (s : State) (c : Cmd) : (s.pageCommit c).held = s.held := by
  unfold State.pageCommit
  (repeat' split) <;> simp only [held_forEach, State.fail_held, State.pageTile_held, State.showFree_held, State.ok_held,
    implies_true]

@[simp] theorem State.recordDone_held (s : State) (lt : Nat) (e : RosterEntry) (status : Nat) :
    (s.recordDone lt e status).held = s.held := by
  simp only [State.recordDone, held_ite, State.setF_held, State.incF_held, State.modTile_held, State.raise_held, ite_self]

@[simp] theorem State.jobBegin_held (s : State) (lt : Nat) : (s.jobBegin lt).held = s.held := by
  simp only [State.jobBegin]
  (repeat' split) <;> simp only [held_update, State.setB_held, State.modTile_held]

@[simp] theorem State.trnRead_held (s : State) (lt x off n : Nat) : (s.trnRead lt x off n).2.held = s.held := by
  simp only [State.trnRead, State.portRead_held]

@[simp] theorem trnPages_held (lt : Nat) (y : Plan) (dir x : Nat) (ks : List Nat) :
    ∀ (s : State) (l : List PageRead), (trnPages lt y dir x ks s l).2.held = s.held := by
  induction ks with
  | nil => exact fun _ _ => rfl
  | cons k ks ih =>
    intro s l
    unfold trnPages
    split <;> simp only [ih, held_ite_snd, State.trnRead_held, ite_self]

@[simp] theorem State.trnWrite_held (s : State) (lt x off : Nat) (b : List Byte) : (s.trnWrite lt x off b).held = s.held := by
  simp only [State.trnWrite, held_forEach, State.portWrite_held, implies_true]

@[simp] theorem State.translate_held (s : State) (lt i x cap rosterAddr courseBell : Nat) :
    (s.translate lt i x cap rosterAddr courseBell).held = s.held := by
  simp only [State.translate, held_ite, held_ite_snd, State.trnRead_held, trnPages_held, State.trnWrite_held,
    State.recordDone_held, ite_self]

@[simp] theorem State.translateEntry_held (s : State) (lt i : Nat) : (s.translateEntry lt i).held = s.held := by
  simp only [State.translateEntry]
  (repeat' split) <;> simp only [held_update, State.translate_held, State.modTile_held, State.setB_held]

@[simp] theorem State.fallbackRecord_held (s : State) (lt lesson iter i : Nat) :
    (s.fallbackRecord lt lesson iter i).held = s.held := by
  simp only [State.fallbackRecord]
  split
  · simp only [held_ite, held_update, State.recordDone_held, State.incF_held, State.modTile_held, ite_self]
  · rfl

end Sys2Proof.Machine
end

