-- ==== Sys2Proof/Proofs/HeldAccesses.lean ====
section
/-! What each operation keeps, on any state: the queue and the variant. Here: register accesses, service accesses and requests. -/

namespace Sys2Proof.Machine

@[simp] theorem State.portTo_held (s : State) (p st reason : Nat) : (s.portTo p st reason).held = s.held := by
  simp only [State.portTo, held_ite, State.setF_held, State.trace_held, State.raise_held, ite_self]

@[simp] theorem State.mxlTo_held (s : State) (st reason : Nat) : (s.mxlTo st reason).held = s.held := by
  simp only [State.mxlTo, held_ite, held_update, State.setF_held, State.trace_held, State.raise_held, State.mxlFlush_held, ite_self]

@[simp] theorem State.plainWrite_held (s : State) (a : Nat) (w now : Word) : (s.plainWrite a w now).held = s.held := by
  unfold State.plainWrite
  split <;> simp only [State.setReg_held]

@[simp] theorem State.writeStretch_held (s : State) (w : Word) : (s.writeStretch w).held = s.held := by
  simp only [State.writeStretch, held_ite, State.setF_held, ite_self]

@[simp] theorem State.writeOverrunCount_held (s : State) (w : Word) : (s.writeOverrunCount w).held = s.held := by
  simp only [State.writeOverrunCount, held_ite, State.setF_held, ite_self]

@[simp] theorem State.writeAriSummary_held (s : State) (w : Word) : (s.writeAriSummary w).held = s.held := by
  simp only [State.writeAriSummary, held_ite, held_forEach, State.setReg_held, State.ariResum_held, ite_self, implies_true]

@[simp] theorem State.writeAriFlags_held (s : State) (a : Nat) (w now : Word) : (s.writeAriFlags a w now).held = s.held := by
  simp only [State.writeAriFlags, State.plainWrite_held, State.ariResum_held]

@[simp] theorem State.writeTokenLimit_held (s : State) (w : Word) : (s.writeTokenLimit w).held = s.held := by
  simp only [State.writeTokenLimit, held_ite, State.setF_held, ite_self]

@[simp] theorem State.writeTokens_held (s : State) (w : Word) : (s.writeTokens w).held = s.held := by
  simp only [State.writeTokens, held_ite, State.setF_held, ite_self]

@[simp] theorem State.showFreeAll_held (s : State) : s.showFreeAll.held = s.held := by
  simp only [State.showFreeAll, held_forEach, State.showFree_held, implies_true]

@[simp] theorem State.writeArea_held (s : State) (w : Word) : (s.writeArea w).held = s.held := by
  simp only [State.writeArea, held_ite, State.plainWrite_held, State.showFreeAll_held, ite_self]

@[simp] theorem State.writePool_held (s : State) (w : Word) : (s.writePool w).held = s.held := by
  simp only [State.writePool, held_ite, State.plainWrite_held, State.showFreeAll_held, ite_self]

@[simp] theorem State.writeFallback_held (s : State) (lt : Nat) (w : Word) : (s.writeFallback lt w).held = s.held := by
  simp only [State.writeFallback, held_ite, State.plainWrite_held, ite_self]

@[simp] theorem State.writeShadow_held (s : State) (w : Word) : (s.writeShadow w).held = s.held := by
  simp only [State.writeShadow, held_ite, held_forEach, State.plainWrite_held, State.modGroup_held, State.showCopying_held,
    ite_self, implies_true]

@[simp] theorem State.writeFabPart_held (s : State) (w : Word) : (s.writeFabPart w).held = s.held := by
  simp only [State.writeFabPart, held_ite, State.plainWrite_held, ite_self]

@[simp] theorem State.writeRingCfg_held (s : State) (a : Nat) (enable : Fld) (w : Word) :
    (s.writeRingCfg a enable w).held = s.held := by
  simp only [State.writeRingCfg, held_ite, State.setF_held, State.plainWrite_held, ite_self]

@[simp] theorem State.writeRingBase_held (s : State) (a cfg : Nat) (enable : Fld) (w : Word) :
    (s.writeRingBase a cfg enable w).held = s.held := by
  simp only [State.writeRingBase, held_ite, State.plainWrite_held, ite_self]

@[simp] theorem State.writeHead_held (s : State) (head tail : Nat) (w : Word) : (s.writeHead head tail w).held = s.held := by
  simp only [State.writeHead, held_ite, State.setReg_held, ite_self]

@[simp] theorem State.writeThrottle_held (s : State) (w : Word) : (s.writeThrottle w).held = s.held := by
  simp only [State.writeThrottle, State.setF_held]

@[simp] theorem State.writePortState_held (s : State) (p : Nat) (w : Word) : (s.writePortState p w).held = s.held := by
  simp only [State.writePortState, held_ite, State.plainWrite_held, State.portTo_held, ite_self]

@[simp] theorem State.writeMxlState_held (s : State) (w : Word) : (s.writeMxlState w).held = s.held := by
  simp only [State.writeMxlState, held_ite, State.plainWrite_held, State.mxlTo_held, ite_self]

@[simp] theorem State.writeRings_held (s : State) (a : Nat) (w now : Word) : (s.writeRings a w now).held = s.held := by
  simp only [State.writeRings, held_ite, State.writeRingCfg_held, State.writeRingBase_held, State.plainWrite_held,
    State.writeHead_held, ite_self]

@[simp] theorem State.regWrite_held (s : State) (a : Nat) (w now : Word) : (s.regWrite a w now).held = s.held := by
  simp only [State.regWrite, held_ite, State.writeStretch_held, State.writeOverrunCount_held, State.writeAriSummary_held,
    State.writeAriFlags_held, State.writeTokenLimit_held, State.writeTokens_held, State.writeArea_held, State.writePool_held,
    State.writeFallback_held, State.writeShadow_held, State.writeFabPart_held, State.writeThrottle_held, State.writePortState_held,
    State.writeMxlState_held, State.writeRings_held, ite_self]

@[simp] theorem State.accessError_held (s : State) (a width : Nat) (write : Bool) :
    (s.accessError a width write).held = s.held := by
  simp only [State.accessError, held_ite, State.incF_held, State.setB_held, State.raise_held, ite_self]

@[simp] theorem State.accessWrite_held (s : State) (a width v now : Nat) : (s.accessWrite a width v now).held = s.held := by
  simp only [State.accessWrite, held_ite, State.accessError_held, State.regWrite_held, ite_self]

@[simp] theorem State.accessRead_held (s : State) (req a width : Nat) : (s.accessRead req a width).2.held = s.held := by
  unfold State.accessRead
  (repeat' split) <;> simp only [held_update, State.accessError_held]

@[simp] theorem State.localRead_held (s : State) (req a n : Nat) : (s.localRead req a n).2.held = s.held := by
  simp only [State.localRead]
  (repeat' split) <;> simp only [State.accessRead_held, State.svcRead_held]

@[simp] theorem State.localWrite_held (s : State) (a : Nat) (d : List Byte) : (s.localWrite a d).2.held = s.held := by
  simp only [State.localWrite]
  (repeat' split) <;> simp only [State.accessWrite_held, State.svcWrite_held]

@[simp] theorem State.svcHold_held (s : State) (owner : SvcFor) (write : Bool) (a n : Nat) (d : List Byte) :
    (s.svcHold owner write a n d).held = s.held := by
  simp only [State.svcHold, held_update]

@[simp] theorem State.svcEmit_held (s : State) (q : Nat) (f : Frame) : (s.svcEmit q f).held = s.held := by
  simp only [State.svcEmit, held_ite, State.modPort_held, State.send_held, ite_self]

@[simp] theorem svcDrain_held (p : Nat) (l : List Frame) : ∀ s : State, (svcDrain p s l).held = s.held := by
  induction l with
  | nil => exact fun s => s.modPort_held _ _
  | cons f l ih =>
    intro s
    simp only [svcDrain, held_ite, ih, State.send_held, State.modPort_held, ite_self]

@[simp] theorem State.svcRoute_held (s : State) (f : Frame) : (s.svcRoute f).held = s.held := by
  simp only [State.svcRoute, State.svcEmit_held]

@[simp] theorem State.remoteGo_held (s : State) (r : Remote) : (s.remoteGo r).held = s.held := by
  simp only [State.remoteGo, held_update, State.svcRoute_held]

@[simp] theorem State.dropPost_held (s : State) (lt c : Nat) : (s.dropPost lt c).held = s.held := by
  simp only [State.dropPost, held_update, State.modChan_held]

@[simp] theorem State.stopTransfers_held (s : State) (ring tag : Nat) : (s.stopTransfers ring tag).held = s.held := by
  simp only [State.stopTransfers, held_ite, held_forEach, State.dropPost_held, State.setF_held, State.setB_held,
    State.modChan_held, ite_self, implies_true]

@[simp] theorem State.countMoved_held (s : State) (c : Cmd) (n : Nat) : (s.countMoved c n).held = s.held := by
  simp only [State.countMoved, held_update, State.perfAdd_held]

@[simp] theorem State.xferFail_held (s : State) (c : Cmd) (st moved : Nat) : (s.xferFail c st moved).held = s.held := by
  simp only [State.xferFail, State.countMoved_held, State.finish_held]

@[simp] theorem State.xferPut_held (s : State) (c : Cmd) (dst : Side) (done : Nat) (d : List Byte) :
    (s.xferPut c dst done d).2.held = s.held := by
  unfold State.xferPut
  split <;> simp only [held_ite_snd, State.localWrite_held, State.svcHold_held, State.mxlSend_held, State.remoteGo_held, ite_self]

@[simp] theorem State.xferAsk_held (s : State) (c : Cmd) (src : Side) (done n : Nat) : (s.xferAsk c src done n).held = s.held := by
  unfold State.xferAsk
  split <;> simp only [held_update, State.remoteGo_held, State.mxlSend_held, State.svcHold_held]

theorem State.xferGet_held (s : State) (src : Side) (done n : Nat) (a : Nat × List Byte) (t : State) (e : s.xferGet src done n =
    some (a, t)) :
    t.held = s.held := by
  unfold State.xferGet at e
  split at e
  · split_ifs at e
    exact held_of_snd (Option.some.inj e) (s.localRead_held _ _ _)
  · cases e
    rfl
  · cases e

@[simp] theorem xferPump_held (k : Nat) : ∀ (c : Cmd) (s : State) (done : Nat), (xferPump k c s done).held = s.held := by
  induction k with
  | zero => exact fun _ _ _ => rfl
  | succ k ih =>
    intro c s done
    simp only [xferPump, held_ite, State.ok_held, State.countMoved_held]
    refine ite_eq_left_iff.2 (fun _ => ?_)
    split
    next => exact s.xferAsk_held _ _ _ _
    next st d u heq =>
      have hget : u.held = s.held := s.xferGet_held _ _ _ _ _ heq
      simp only [held_ite, State.xferFail_held, hget]
      refine ite_eq_left_iff.2 (fun _ => ?_)
      split
      all_goals
        next hput =>
          have hrest := (held_of_snd hput (u.xferPut_held _ _ _ _)).trans hget
          simp only [held_ite, ih, State.putCmd_held, State.xferFail_held, hrest, ite_self]

@[simp] theorem State.xferArrive_held (s : State) (c : Cmd) (st : Nat) (d : List Byte) : (s.xferArrive c st d).held = s.held := by
  simp only [State.xferArrive, held_ite, State.xferFail_held]
  refine ite_eq_left_iff.2 (fun _ => ?_)
  split
  all_goals
    next hput =>
      have hrest := held_of_snd hput (s.xferPut_held _ _ _ _)
      simp only [held_ite, xferPump_held, State.putCmd_held, State.xferFail_held, hrest, ite_self]

@[simp] theorem State.xferWritten_held (s : State) (c : Cmd) (st n : Nat) : (s.xferWritten c st n).held = s.held := by
  simp only [State.xferWritten, held_ite, State.xferFail_held, xferPump_held, State.putCmd_held, ite_self]

@[simp] theorem State.xferStart_held (s : State) (c : Cmd) : (s.xferStart c).held = s.held := by
  unfold State.xferStart
  (repeat' split) <;> simp only [State.badParam_held, State.failAt_held, xferPump_held, State.putCmd_held]

@[simp] theorem State.doorbell_held (s : State) (part ring tail : Nat) : (s.doorbell part ring tail).held = s.held := by
  simp only [State.doorbell, held_ite, State.incF_held, State.setReg_held, ite_self]

@[simp] theorem State.mxlRegRead_held (s : State) (tag g width : Nat) : (s.mxlRegRead tag g width).held = s.held := by
  simp only [State.mxlRegRead]
  (repeat' split) <;> simp only [State.accessRead_held, State.mxlSend_held, State.remoteGo_held]

@[simp] theorem State.mxlRegWrite_held (s : State) (tag g width v now : Nat) : (s.mxlRegWrite tag g width v now).held = s.held := by
  unfold State.mxlRegWrite
  (repeat' split) <;> simp only [State.accessWrite_held, State.remoteGo_held]

@[simp] theorem State.bulkDone_held (s : State) (tag : Nat) : (s.bulkDone tag).held = s.held := by
  simp only [State.bulkDone, held_update]

@[simp] theorem State.memReply_held (s : State) (tag : Nat) (x : Msg) : (s.memReply tag x).held = s.held := by
  simp only [State.memReply, State.mxlSend_held, State.bulkDone_held]

@[simp] theorem State.mxlMemRead_held (s : State) (tag g n : Nat) : (s.mxlMemRead tag g n).held = s.held := by
  simp only [State.mxlMemRead]
  (repeat' split) <;> simp only [State.localRead_held, State.memReply_held, State.svcHold_held, State.remoteGo_held]

@[simp] theorem State.mxlMemWrite_held (s : State) (tag g : Nat) (b : List Byte) (bad : Bool) :
    (s.mxlMemWrite tag g b bad).held = s.held := by
  simp only [State.mxlMemWrite]
  (repeat' split) <;> simp only [State.localWrite_held, State.memReply_held, State.svcHold_held, State.remoteGo_held]

@[simp] theorem State.serveReq_held (s : State) (q : HostReq) : (s.serveReq q).held = s.held := by
  unfold State.serveReq
  split <;> simp only [State.doorbell_held, State.mxlRegRead_held, State.mxlRegWrite_held, State.mxlMemRead_held,
    State.mxlMemWrite_held]

@[simp] theorem State.issue_held (s : State) (q : HostReq) : (s.issue q).held = s.held := by
  simp only [State.issue, held_ite, held_update, State.serveReq_held, ite_self]

@[simp] theorem releaseReqs_held (k : Nat) : ∀ s : State, (releaseReqs k s).held = s.held := by
  induction k with
  | zero => exact fun _ => rfl
  | succ k ih =>
    intro s
    unfold releaseReqs
    split <;> simp only [ih, State.serveReq_held, held_update]

@[simp] theorem State.release_held (s : State) : s.release.held = s.held := by
  simp only [State.release, releaseReqs_held]

end Sys2Proof.Machine
end

