-- ==== Sys2Proof/Proofs/HeldLinks.lean ====
section
/-! What each operation keeps, on any state: the queue and the variant. Here: the fabric ports and the Milbex Link. -/

namespace Sys2Proof.Machine

@[simp] theorem landingBeats_held (lt k : Nat) :
    ∀ (cycle off n : Nat) (s : State), (landingBeats lt cycle off k n s).2.held = s.held := by
  induction k with
  | zero => exact fun _ _ _ _ => rfl
  | succ k ih =>
    intro cycle off n s
    simp only [landingBeats, ih, State.portRead_held]

@[simp] theorem State.landingRead_held (s : State) (lt cycle off n : Nat) : (s.landingRead lt cycle off n).2.held = s.held := by
  simp only [State.landingRead, held_ite_snd, landingBeats_held, State.drawn_held, ite_self]

@[simp] theorem State.landingWrite_held (s : State) (lt cycle off : Nat) (d : List Byte) (p : List Bool) :
    (s.landingWrite lt cycle off d p).held = s.held := by
  simp only [State.landingWrite, held_ite, held_forEach, State.portWrite_held, ite_self, implies_true]

@[simp] theorem State.rbWrite_held (s : State) (port off : Nat) (d : List Byte) (p : List Bool) :
    (s.rbWrite port off d p).held = s.held := by
  simp only [State.rbWrite, held_update]

@[simp] theorem State.portSource_held (s : State) (w : PortWork) (n : Nat) : (s.portSource w n).2.held = s.held := by
  unfold State.portSource
  split <;> simp only [held_ite_snd, State.landingRead_held, ite_self]

@[simp] theorem State.portScales_held (s : State) (w : PortWork) (after : Nat) : (s.portScales w after).2.held = s.held := by
  unfold State.portScales
  split <;> simp only [held_ite_snd, State.landingRead_held, ite_self]

@[simp] theorem State.portDest_held (s : State) (w : PortWork) (b : List Byte) (p : List Bool) (scales : List Byte) (tie : Nat) :
    (s.portDest w b p scales tie).held = s.held := by
  unfold State.portDest
  split <;> simp only [held_ite, State.landingWrite_held, State.rbWrite_held, State.modPort_held, ite_self]

@[simp] theorem State.portSend_held (s : State) (port cycle stream seq : Nat) (last : Bool) (b : List Byte) (poison tie : Nat) :
    (s.portSend port cycle stream seq last b poison tie).held = s.held := by
  simp only [State.portSend, held_ite, State.modPort_held, State.send_held, State.perfAdd_held, ite_self]

@[simp] theorem State.consume_held (s : State) (port stream seq cycle : Nat) :
    (s.consume port stream seq cycle).2.held = s.held := by
  unfold State.consume
  split <;> simp only [held_ite, State.modPort_held, State.incF_held, State.drawn_held, ite_self]

@[simp] theorem State.tieOf_held (s : State) (tie : Option Nat) : (s.tieOf tie).2.held = s.held := by
  unfold State.tieOf
  split <;> simp only [State.drawn_held]

@[simp] theorem State.returnCredit_held (s : State) (port : Nat) : (s.returnCredit port).held = s.held := by
  simp only [State.returnCredit, State.sendSym_held]

@[simp] theorem State.svcAnswer_held (s : State) (f : Frame) (status : Nat) (d : List Byte) :
    (s.svcAnswer f status d).held = s.held := by
  simp only [State.svcAnswer, State.svcRoute_held]

@[simp] theorem State.frameReceive_held (s : State) (port : Nat) (f : Frame) (hdrBad : Bool) (badSpans : Nat) :
    (s.frameReceive port f hdrBad badSpans).held = s.held := by
  simp only [State.frameReceive, held_ite, State.incF_held, State.modPort_held, State.returnCredit_held, State.svcAnswer_held,
    ite_self]

@[simp] theorem State.onPort_held (s : State) (port idx i op : Nat) (f : State → PortWork → State) (hf :
    ∀ s x, (f s x).held = s.held) : (s.onPort port idx i op f).held = s.held := by
  unfold State.onPort
  split <;> simp only [held_update, hf]

@[simp] theorem State.doSend_held (s : State) (w : PortWork) : (s.doSend w).held = s.held := by
  simp only [State.doSend, State.portSource_held, State.portSend_held]

@[simp] theorem State.doRecv_held (s : State) (w : PortWork) : (s.doRecv w).held = s.held := by
  simp only [State.doRecv, State.consume_held, State.tieOf_held, State.portDest_held]

@[simp] theorem State.doRelay_held (s : State) (w : PortWork) : (s.doRelay w).held = s.held := by
  simp only [State.doRelay, State.consume_held, State.portSend_held]

@[simp] theorem State.reduceLocal_held (s : State) (w : PortWork) : (s.reduceLocal w).2.held = s.held := by
  simp only [State.reduceLocal, held_ite_snd, State.portSource_held, State.portScales_held, ite_self]

@[simp] theorem State.doReduce_held (s : State) (w : PortWork) : (s.doReduce w).held = s.held := by
  simp only [State.doReduce, held_ite, State.consume_held, State.reduceLocal_held, State.portSend_held, State.portFlags_held,
    State.portDest_held, ite_self]

@[simp] theorem State.doVoteSend_held (s : State) (w : PortWork) : (s.doVoteSend w).held = s.held := by
  simp only [State.doVoteSend, State.portSource_held, State.portSend_held]

@[simp] theorem State.voteIn_held (s : State) (w : PortWork) (j g : Nat) (v : VoteSt) : (s.voteIn w j g v).2.held = s.held := by
  simp only [State.voteIn, held_ite_snd, State.consume_held, State.tieOf_held, ite_self]

@[simp] theorem State.voteLocal_held (s : State) (w : PortWork) (j : Nat) (v : VoteSt) : (s.voteLocal w j v).2.held = s.held := by
  simp only [State.voteLocal, held_ite_snd, State.portSource_held, ite_self]

@[simp] theorem State.votePut_held (s : State) (w : PortWork) (seq plane poison tie : Nat) :
    (s.votePut w seq plane poison tie).held = s.held := by
  simp only [State.votePut, held_ite, State.portSend_held, State.portDest_held, ite_self]

@[simp] theorem State.setVote_held (s : State) (w : PortWork) (v : VoteSt) : (s.setVote w v).held = s.held := by
  simp only [State.setVote, State.modPort_held]

@[simp] theorem State.doVoteAdd_held (s : State) (w : PortWork) : (s.doVoteAdd w).held = s.held := by
  simp only [State.doVoteAdd, held_ite, State.voteIn_held, State.voteLocal_held, State.setVote_held, State.votePut_held,
    State.portFlags_held, ite_self]

@[simp] theorem State.doVoteSign_held (s : State) (w : PortWork) : (s.doVoteSign w).held = s.held := by
  simp only [State.doVoteSign, held_ite, held_ite_snd, State.voteIn_held, State.voteLocal_held, State.setVote_held,
    State.votePut_held, ite_self]

@[simp] theorem State.onSvc_held (s : State) (port kind : Nat) (f : State → Frame → State) (hf :
    ∀ s x, (f s x).held = s.held) : (s.onSvc port kind f).held = s.held := by
  unfold State.onSvc
  split <;> simp only [held_ite, State.modPort_held, State.returnCredit_held, State.svcRoute_held, hf, ite_self]

@[simp] theorem State.doSvcWrite_held (s : State) (f : Frame) : (s.doSvcWrite f).held = s.held := by
  simp only [State.doSvcWrite, held_ite, State.localWrite_held, State.svcAnswer_held, State.svcHold_held, ite_self]

@[simp] theorem State.doSvcRead_held (s : State) (f : Frame) : (s.doSvcRead f).held = s.held := by
  simp only [State.doSvcRead, held_ite, State.localRead_held, State.svcAnswer_held, State.svcHold_held, ite_self]

@[simp] theorem State.remoteDone_held (s : State) (r : Remote) (st : Nat) : (s.remoteDone r st).held = s.held := by
  unfold State.remoteDone
  (repeat' split) <;> simp only [State.mxlSend_held, State.memReply_held, State.xferWritten_held, State.xferArrive_held]

@[simp] theorem State.doSvcReply_held (s : State) (f : Frame) : (s.doSvcReply f).held = s.held := by
  unfold State.doSvcReply
  split <;> simp only [held_ite, held_update, State.remoteDone_held, State.remoteGo_held, ite_self]

@[simp] theorem State.remoteTimeout_held (s : State) (tag : Nat) : (s.remoteTimeout tag).held = s.held := by
  unfold State.remoteTimeout
  split <;> simp only [held_update, State.remoteDone_held]

@[simp] theorem State.svcGot_held (s : State) (x : SvcAcc) (st : Nat) (d : List Byte) : (s.svcGot x st d).held = s.held := by
  unfold State.svcGot
  (repeat' split) <;> simp only [State.memReply_held, State.xferArrive_held, State.svcAnswer_held]

@[simp] theorem State.svcPut_held (s : State) (x : SvcAcc) (st n : Nat) : (s.svcPut x st n).held = s.held := by
  unfold State.svcPut
  (repeat' split) <;> simp only [State.memReply_held, State.xferWritten_held, State.svcAnswer_held]

@[simp] theorem State.svcServe_held (s : State) (x : SvcAcc) : (s.svcServe x).held = s.held := by
  simp only [State.svcServe, held_ite, held_update, State.localWrite_held, State.svcPut_held, State.localRead_held,
    State.svcGot_held, ite_self]

@[simp] theorem State.svcDrainAll_held (s : State) : s.svcDrainAll.held = s.held := by
  simp only [State.svcDrainAll, held_update, held_forEach, State.svcServe_held, State.release_held, implies_true]

@[simp] theorem State.onSym_held (s : State) (port typ : Nat) (y : Sym) (bad : Bool) (f : State → State) (hf :
    ∀ s, (f s).held = s.held) : (s.onSym port typ y bad f).held = s.held := by
  simp only [State.onSym, held_ite, State.dropSym_held, hf, ite_self]

@[simp] theorem State.symCredit_held (s : State) (port : Nat) (y : Sym) : (s.symCredit port y).held = s.held := by
  simp only [State.symCredit, State.modPort_held, svcDrain_held]

@[simp] theorem State.symTrain_held (s : State) (port : Nat) (y : Sym) : (s.symTrain port y).held = s.held := by
  simp only [State.symTrain, held_ite, State.modPort_held, ite_self]

@[simp] theorem State.sendProbe_held (s : State) (port i depart : Nat) : (s.sendProbe port i depart).held = s.held := by
  simp only [State.sendProbe, State.sendSym_held]

@[simp] theorem State.symProbe_held (s : State) (port : Nat) (y : Sym) (arrival far depart : Nat) :
    (s.symProbe port y arrival far depart).held = s.held := by
  simp only [State.symProbe, held_ite, State.modPort_held, State.sendProbe_held, ite_self]

theorem State.lanesRanked_held (s : State) (port lanes fibres : Nat) (t : State) (e : s.lanesRanked port lanes fibres = some t) :
    t.held = s.held := by
  unfold State.lanesRanked at e
  obtain ⟨half, -, rfl⟩ := Option.map_eq_some_iff.1 e
  simp only [State.setB_held, State.setF_held]

@[simp] theorem State.measured_held (s : State) (port round : Nat) : (s.measured port round).held = s.held := by
  simp only [State.measured, State.setF_held]

@[simp] theorem State.identBegins_held (s : State) (port : Nat) : (s.identBegins port).held = s.held := by
  simp only [State.identBegins, State.modPort_held, State.sendSym_held]

@[simp] theorem State.measureBegins_held (s : State) (port depart : Nat) : (s.measureBegins port depart).held = s.held := by
  simp only [State.measureBegins, State.modPort_held, State.sendProbe_held]

@[simp] theorem State.trainDone_held (s : State) (port lanes fibres round depart : Nat) :
    (s.trainDone port lanes fibres round depart).held = s.held := by
  cases hranked : s.lanesRanked port lanes fibres with
  | none => simp only [State.trainDone, hranked, held_ite, State.portTo_held, State.identBegins_held, State.measureBegins_held,
      State.measured_held, State.modPort_held, ite_self]
  | some v => simp only [State.trainDone, hranked, held_ite, s.lanesRanked_held _ _ _ v hranked, State.portTo_held,
      State.identBegins_held, State.measureBegins_held, State.measured_held, State.modPort_held, ite_self]

@[simp] theorem State.retrain_held (s : State) (port : Nat) : (s.retrain port).held = s.held := by
  simp only [State.retrain, held_ite, State.modPort_held, State.portTo_held, State.referenceLoss_held, ite_self]

@[simp] theorem State.retrainDone_held (s : State) (port lanes fibres round cycle : Nat) :
    (s.retrainDone port lanes fibres round cycle).held = s.held := by
  cases hranked : s.lanesRanked port lanes fibres with
  | none => simp only [State.retrainDone, hranked, held_ite, State.portTo_held, ite_self]
  | some v => simp only [State.retrainDone, hranked, held_ite, s.lanesRanked_held _ _ _ v hranked, svcDrain_held,
      State.portTo_held, State.measured_held, ite_self]

@[simp] theorem State.laneFault_held (s : State) (port lane codeword corrected : Nat) (lost : Bool) :
    (s.laneFault port lane codeword corrected lost).held = s.held := by
  simp only [State.laneFault, held_ite, State.carryLane_held, State.sendSym_held, State.modPort_held, State.retrain_held, ite_self]

@[simp] theorem State.laneTakeover_held (s : State) (port : Nat) (sent : Bool) : (s.laneTakeover port sent).held = s.held := by
  unfold State.laneTakeover
  split <;> simp only [State.modPort_held, State.incF_held, State.setF_held, State.raise_held]

@[simp] theorem State.linkPort_held (s : State) (m : List Byte) (p : Nat) : (s.linkPort m p).held = s.held := by
  simp only [State.linkPort, held_ite, State.setF_held, State.modPort_held, State.portTo_held, ite_self]

@[simp] theorem State.linkApply_held (s : State) (m : List Byte) : (s.linkApply m).held = s.held := by
  simp only [State.linkApply, held_update, held_forEach, State.setF_held, State.setB_held, State.linkPort_held, implies_true]

@[simp] theorem State.linkmapLoad_held (s : State) (c : Cmd) : (s.linkmapLoad c).held = s.held := by
  simp only [State.linkmapLoad]
  (repeat' split) <;> simp only [State.readObject_held, State.fail_held, State.linkApply_held, State.ok_held]

@[simp] theorem State.mxlRetrain_held (s : State) : s.mxlRetrain.held = s.held := by
  simp only [State.mxlRetrain, State.incF_held, State.mxlTo_held]

@[simp] theorem State.mxlReplay_held (s : State) : s.mxlReplay.held = s.held := by
  unfold State.mxlReplay
  split <;> simp only [held_ite, held_update, held_forEach, State.incF_held, State.emitFlit_held, State.mxlRetrain_held, ite_self,
    implies_true]

@[simp] theorem State.takeHeader_held (s : State) (x : RxFlit) : (s.takeHeader x).held = s.held := by
  simp only [State.takeHeader, held_ite, held_update, State.incF_held, State.mxlReplay_held, State.mxlFlush_held, ite_self]

@[simp] theorem State.sendNak_held (s : State) : s.sendNak.held = s.held := by
  simp only [State.sendNak, held_update, State.sendIdle_held]

@[simp] theorem State.prioFails_held (s : State) : s.prioFails.held = s.held := by
  unfold State.prioFails
  split <;> simp only [held_update, State.incF_held]

@[simp] theorem State.flitFails_held (s : State) (f : Flit) : (s.flitFails f).held = s.held := by
  simp only [State.flitFails, held_ite, State.incF_held, State.prioFails_held, State.sendNak_held, ite_self]

@[simp] theorem State.flitUnknown_held (s : State) (f : Flit) : (s.flitUnknown f).held = s.held := by
  simp only [State.flitUnknown, held_ite, State.incF_held, State.sendNak_held, ite_self]

@[simp] theorem State.onFlit_held (s : State) (x : RxFlit) (f : State → State) (hf :
    ∀ s, (f s).held = s.held) : (s.onFlit x f).held = s.held := by
  simp only [State.onFlit, held_ite, State.flitFails_held, State.takeHeader_held, State.flitUnknown_held, hf, ite_self]

@[simp] theorem State.takeFlit_held (s : State) (x : RxFlit) (typ : Nat) (f : State → List Flit → State) (hf :
    ∀ s x, (f s x).held = s.held) : (s.takeFlit x typ f).held = s.held := by
  simp only [State.takeFlit, held_ite, held_update, State.onFlit_held, State.sendIdle_held, hf, ite_self, implies_true]

@[simp] theorem State.prioCmd_held (s : State) (k : Packet) : (s.prioCmd k).held = s.held := by
  simp only [State.prioCmd, held_ite, held_update, State.incF_held, State.sendRecord_held, State.setF_held, State.accept_held,
    State.showPrio_held, ite_self]

@[simp] theorem State.takePrio_held (s : State) (f : Flit) : (s.takePrio f).held = s.held := by
  simp only [State.takePrio, held_ite, held_update, State.prioCmd_held, ite_self]

@[simp] theorem State.takeDoorbell_held (s : State) (part : Nat) (l : List Flit) : (s.takeDoorbell part l).held = s.held := by
  simp only [State.takeDoorbell, State.issue_held]

@[simp] theorem State.hostReadDone_held (s : State) (r : HostRead) (st : Nat) (d : List Byte) :
    (s.hostReadDone r st d).held = s.held := by
  simp only [State.hostReadDone]
  (repeat' split) <;> simp only [held_update, State.xferArrive_held]

@[simp] theorem State.takeHostData_held (s : State) (l : List Flit) : (s.takeHostData l).held = s.held := by
  unfold State.takeHostData
  split <;> simp only [held_ite, State.stopTransfers_held, State.hostReadDone_held, ite_self]

@[simp] theorem State.hostReadTimeout_held (s : State) (tag : Nat) : (s.hostReadTimeout tag).held = s.held := by
  unfold State.hostReadTimeout
  split <;> simp only [State.hostReadDone_held]

@[simp] theorem State.takeLaneSwap_held (s : State) (f : Flit) : (s.takeLaneSwap f).held = s.held := by
  simp only [State.takeLaneSwap, held_ite, held_update, ite_self]

@[simp] theorem State.mxlLaneFault_held (s : State) (lane corrected : Nat) (lost : Bool) :
    (s.mxlLaneFault lane corrected lost).held = s.held := by
  simp only [State.mxlLaneFault, held_ite, held_update, State.setF_held, State.carryLane_held, State.sendLaneSwap_held,
    State.mxlRetrain_held, ite_self]

@[simp] theorem State.mxlTakeover_held (s : State) (sent : Bool) : (s.mxlTakeover sent).held = s.held := by
  simp only [State.mxlTakeover]
  (repeat' split) <;> simp only [held_update, State.setB_held, State.raise_held]

theorem State.mxlRanked_held (s : State) (lanes : List Nat) (t : State) (e : s.mxlRanked lanes = some t) : t.held = s.held := by
  unfold State.mxlRanked at e
  split_ifs at e
  cases e
  simp only [State.setB_held, State.setF_held, held_update]

@[simp] theorem State.mxlCredited_held (s : State) (cmd bulk : Nat) : (s.mxlCredited cmd bulk).held = s.held := by
  simp only [State.mxlCredited, held_update]

@[simp] theorem State.mxlStateDone_held (s : State) (lanes : List Nat) (cmd bulk : Nat) :
    (s.mxlStateDone lanes cmd bulk).held = s.held := by
  cases hranked : s.mxlRanked lanes with
  | none => simp only [State.mxlStateDone, hranked, held_ite, State.mxlTo_held, State.mxlCredited_held, ite_self]
  | some v => simp only [State.mxlStateDone, hranked, held_ite, s.mxlRanked_held _ v hranked, State.mxlTo_held,
      State.mxlCredited_held, ite_self]

@[simp] theorem State.flushHeld_held (s : State) : s.flushHeld.held = s.held := by
  refine (held_forEach _ (fun t e => ?_) _).trans s.mxlFlush_held
  split <;> simp only [evDrain_held]

end Sys2Proof.Machine
end

