-- ==== Sys2Proof/Proofs/HeldMemory.lean ====
section
/-! What each operation keeps, on any state: the queue and the variant. Here: commands, stacked memory and the mesh. -/

namespace Sys2Proof.Machine

@[simp] theorem State.writeCard_held (s : State) (stage result duration firstFail : Nat) (c : List Nat) :
    (s.writeCard stage result duration firstFail c).held = s.held := by
  simp only [State.writeCard, held_forEach, State.setReg_held, State.logAppend_held, implies_true]

@[simp] theorem State.clearCards_held (s : State) (stage : Nat) : (s.clearCards stage).held = s.held := by
  simp only [State.clearCards, held_forEach, State.setReg_held, implies_true]

@[simp] theorem State.resetCmd_held (s : State) (c : Cmd) : (s.resetCmd c).held = s.held := by
  simp only [State.resetCmd, held_update, State.ok_held]

@[simp] theorem State.partitionSet_held (s : State) (c : Cmd) : (s.partitionSet c).held = s.held := by
  simp only [State.partitionSet, held_ite, held_update, State.fail_held, State.setF_held, State.ok_held, ite_self]

@[simp] theorem State.recessRequest_held (s : State) (c : Cmd) : (s.recessRequest c).held = s.held := by
  simp only [State.recessRequest, held_ite, State.fail_held, State.requestRecess_held, State.ok_held, ite_self]

@[simp] theorem State.setStaging_held (s : State) (p : Nat) (t : Tbl Nat) : (s.setStaging p t).held = s.held := by
  simp only [State.setStaging, held_ite, State.modGroup_held, ite_self]

@[simp] theorem State.groupTable_held (s : State) (c : Cmd) : (s.groupTable c).held = s.held := by
  simp only [State.groupTable, held_ite, State.readObject_held, State.fail_held, State.modGroup_held, State.setB_held,
    State.showCopying_held, State.setReg_held, State.putCmd_held, ite_self]

@[simp] theorem State.shadowBank_held (s : State) (p bank : Nat) (t : Tbl Nat) : (s.shadowBank p bank t).held = s.held := by
  simp only [State.shadowBank, held_update, held_forEach, implies_true]

@[simp] theorem State.shadowHead_held (s : State) (p bank gen bell n : Nat) : (s.shadowHead p bank gen bell n).held = s.held := by
  simp only [State.shadowHead, held_update, held_forEach, implies_true]

@[simp] theorem State.groupCopied_held (s : State) (p : Nat) : (s.groupCopied p).held = s.held := by
  simp only [State.groupCopied, held_ite, State.setStaging_held, State.modGroup_held, State.showCopying_held,
    State.shadowBank_held, ite_self]

@[simp] theorem State.groupCommit_held (s : State) (c : Cmd) : (s.groupCommit c).held = s.held := by
  simp only [State.groupCommit, held_ite, State.setB_held, State.modGroup_held, State.ok_held, State.showCopying_held,
    State.incF_held, State.declareHalt_held, State.fail_held, ite_self]

@[simp] theorem State.shadowDone_held (s : State) : s.shadowDone.held = s.held := by
  simp only [State.shadowDone, held_ite, held_forEach, State.shadowBank_held, State.shadowHead_held, State.modGroup_held,
    State.showCopying_held, ite_self, implies_true]

@[simp] theorem State.shadowNext_held (s : State) (p : Nat) : (s.shadowNext p).held = s.held := by
  unfold State.shadowNext
  split <;> simp only [held_ite, State.shadowHead_held, ite_self]

@[simp] theorem State.bellJoin_held (s : State) (c : Cmd) : (s.bellJoin c).held = s.held := by
  simp only [State.bellJoin, held_ite, held_update, State.fail_held, State.putCmd_held, ite_self]

@[simp] theorem State.joinCommit_held (s : State) (c : Cmd) : (s.joinCommit c).held = s.held := by
  unfold State.joinCommit
  split <;> simp only [held_ite, held_update, State.setPair_held, State.setB_held, State.writeCard_held, State.setStage_held,
    State.ok_held, ite_self]

@[simp] theorem State.joinTimeout_held (s : State) (c : Cmd) : (s.joinTimeout c).held = s.held := by
  unfold State.joinTimeout
  split <;> simp only [held_ite, held_update, State.fail_held, ite_self]

@[simp] theorem State.rowRule_held (s : State) (a cycle : Nat) : (s.rowRule a cycle).2.held = s.held := by
  simp only [State.rowRule, held_ite_snd, State.modLayer_held, State.incF_held, State.memFault_held, ite_self]

@[simp] theorem State.wordArrives_held (s : State) (a w : Nat) (poison : Bool) (wire : Nat) :
    (s.wordArrives a w poison wire).held = s.held := by
  simp only [State.wordArrives, held_update, State.lkCount_held]

@[simp] theorem State.wordReturns_held (s : State) (a wire : Nat) : (s.wordReturns a wire).2.held = s.held := by
  simp only [State.wordReturns, State.lkLoad_held, State.lkCount_held]

@[simp] theorem State.setOp_held (s : State) (ch : Nat) (o o' : LkOp) : (s.setOp ch o o').held = s.held := by
  simp only [State.setOp, State.modChan_held]

@[simp] theorem State.refuseOp_held (s : State) (ch : Nat) (o : LkOp) : (s.refuseOp ch o).held = s.held := by
  simp only [State.refuseOp, held_ite, State.setOp_held, State.declareHalt_held, State.drawn_held, ite_self]

@[simp] theorem State.performOp_held (s : State) (ch : Nat) (o : LkOp) (wire : Nat) : (s.performOp ch o wire).held = s.held := by
  have hrule := s.rowRule_held o.addr o.cycle
  unfold State.performOp
  split
  next heq => exact (State.refuseOp_held _ _ _).trans (held_of_snd heq hrule)
  next heq =>
    simp only [held_ite, State.setOp_held, State.wordArrives_held, State.wordReturns_held, held_of_snd heq hrule, ite_self]

@[simp] theorem State.topCommand_held (s : State) (locker w : Nat) (wires : List Nat) :
    (s.topCommand locker w wires).held = s.held := by
  refine held_forEach _ (fun t i => ?_) _
  split <;> simp only [State.performOp_held]

@[simp] theorem State.baseCommand_held (s : State) (locker w : Nat) (data wires : List Nat) :
    (s.baseCommand locker w data wires).held = s.held := by
  simp only [State.baseCommand, held_ite, held_forEach, State.wordArrives_held, State.wordReturns_held, ite_self, implies_true]

@[simp] theorem State.badCommand_held (s : State) (locker w : Nat) : (s.badCommand locker w).held = s.held := by
  simp only [State.badCommand]
  (repeat' split) <;> simp only [State.incF_held, State.memFaultAt_held, State.declareHalt_held, State.modChan_held,
    State.drawn_held]

@[simp] theorem State.lockerCommand_held (s : State) (locker w : Nat) (data wires : List Nat) :
    (s.lockerCommand locker w data wires).held = s.held := by
  simp only [State.lockerCommand, held_ite, State.badCommand_held, State.baseCommand_held, State.topCommand_held, ite_self]

@[simp] theorem State.lockerDeliver_held (s : State) (lt c : Nat) : (s.lockerDeliver lt c).held = s.held := by
  simp only [State.lockerDeliver]
  (repeat' split) <;> simp only [held_update, State.portWrite_held, State.modChan_held, State.setB_held]

@[simp] theorem State.lockerAck_held (s : State) (lt c : Nat) : (s.lockerAck lt c).held = s.held := by
  simp only [State.lockerAck, held_ite, held_update, State.modChan_held, State.setB_held, ite_self]

@[simp] theorem State.refreshRow_held (s : State) (l : Nat) : (s.refreshRow l).held = s.held := by
  simp only [State.refreshRow, State.setF_held]

@[simp] theorem State.canaryRow_held (s : State) (l f r failed : Nat) : (s.canaryRow l f r failed).held = s.held := by
  simp only [State.canaryRow, held_ite, held_update, State.modLayer_held, ite_self]

@[simp] theorem State.refreshA_held (s : State) (phases : List Int) (failed : List Nat) :
    (s.refreshA phases failed).held = s.held := by
  simp only [State.refreshA, held_update, held_forEach, State.fieldTrim_held, State.refreshRow_held, State.canaryRow_held,
    implies_true]

@[simp] theorem State.scrubWord_held (s : State) (a : Nat) : (s.scrubWord a).held = s.held := by
  unfold State.scrubWord
  (repeat' split) <;> simp only [held_update, State.lkCount_held]

@[simp] theorem State.scrubHalfRow_held (s : State) (l : Nat) : (s.scrubHalfRow l).held = s.held := by
  simp only [State.scrubHalfRow, held_ite, held_forEach, State.scrubWord_held, State.setF_held, State.incF_held, ite_self,
    implies_true]

@[simp] theorem State.slotB_held (s : State) (l : Nat) : (s.slotB l).held = s.held := by
  simp only [State.slotB, held_ite, State.refreshRow_held, State.scrubHalfRow_held, ite_self]

@[simp] theorem State.scrubTile_held (s : State) (lt n : Nat) : (s.scrubTile lt n).held = s.held := by
  simp only [State.scrubTile, held_ite, held_update, held_forEach, State.incF_held, State.tbFault_held, State.modTile_held,
    ite_self, implies_true]

@[simp] theorem State.scrubTiles_held (s : State) (cut : List (Nat × Nat)) : (s.scrubTiles cut).held = s.held := by
  simp only [State.scrubTiles, held_ite, held_forEach, State.scrubTile_held, ite_self, implies_true]

@[simp] theorem State.traceWrite_held (s : State) (r : List Byte) : (s.traceWrite r).held = s.held := by
  simp only [State.traceWrite, held_ite, held_update, State.incF_held, State.setB_held, ite_self]

@[simp] theorem State.traceFlush_held (s : State) : s.traceFlush.held = s.held := by
  simp only [State.traceFlush, held_update, held_forEach, State.traceWrite_held, implies_true]

@[simp] theorem State.serviceSlot_held (s : State) (hot : List Nat) (cut : List (Nat × Nat)) :
    (s.serviceSlot hot cut).held = s.held := by
  simp only [State.serviceSlot, held_update, held_forEach, State.enginesAll_held, State.prefetch_held, State.shadowNext_held,
    State.svcDrainAll_held, State.scrubTiles_held, State.traceFlush_held, State.scrubHalfRow_held, implies_true]

@[simp] theorem State.applyPatches_held (s : State) (lt : Nat) : (s.applyPatches lt).held = s.held := by
  simp only [State.applyPatches, held_ite, held_forEach, State.modTile_held, State.setB_held, State.declareHalt_held,
    State.setF_held, ite_self, implies_true]

@[simp] theorem State.lessonArm_held (s : State) (p : Nat) : (s.lessonArm p).held = s.held := by
  simp only [State.lessonArm, held_ite, held_update, held_forEach, State.modTile_held, State.applyPatches_held,
    State.modLayer_held, State.modPort_held, State.tileFailure_held, ite_self, implies_true]

@[simp] theorem State.ccWrite_held (s : State) (off : Nat) (d : List Byte) : (s.ccWrite off d).held = s.held := by
  simp only [State.ccWrite, held_update]

@[simp] theorem State.accessBelow_held (s : State) (write : Bool) (a n off : Nat) :
    (s.accessBelow write a n off).held = s.held := by
  simp only [State.accessBelow, held_ite, State.svcWrite_held, State.svcRead_held, State.ccWrite_held, ite_self]

@[simp] theorem State.evacStep_held (s : State) (bad : List Nat) : (s.evacStep bad).held = s.held := by
  unfold State.evacStep
  split <;> simp only [held_ite, held_update, State.setF_held, ite_self]

@[simp] theorem State.evacWord_held (s : State) (a : Nat) (lost : Bool) : (s.evacWord a lost).2.held = s.held := by
  simp only [State.evacWord, held_ite_snd, held_update, State.lkCount_held, ite_self]

@[simp] theorem State.evacDone_held (s : State) : s.evacDone.held = s.held := by
  simp only [State.evacDone]
  (repeat' split) <;> simp only [held_update, held_foldl_snd, State.evacWord_held, State.incF_held, State.setB_held,
    State.raise_held, State.setEvacPending_held, State.ok_held, implies_true]

@[simp] theorem State.dropBeat_held (s : State) (id : Nat) : (s.dropBeat id).held = s.held := by
  simp only [State.dropBeat, held_update]

@[simp] theorem State.putBeat_held (s : State) (b : Beat) : (s.putBeat b).held = s.held := by
  simp only [State.putBeat, held_update]

@[simp] theorem State.without_held (s : State) (b : Beat) (ts : List Nat) : (s.without b ts).held = s.held := by
  simp only [State.without, held_ite, State.dropBeat_held, State.putBeat_held, ite_self]

@[simp] theorem State.meshRecord_held (s : State) (seat cycle kind : Nat) : (s.meshRecord seat cycle kind).held = s.held := by
  simp only [State.meshRecord, held_ite, State.setReg_held, State.drawn_held, ite_self]

@[simp] theorem State.collide_held (s : State) (src seat cycle kind : Nat) : (s.collide src seat cycle kind).held = s.held := by
  simp only [State.collide, State.meshRecord_held, State.raise_held, State.declareHalt_held]

@[simp] theorem State.launch_held (s : State) (b : Beat) : (s.launch b).held = s.held := by
  simp only [State.launch, held_ite, State.dropBeat_held, State.putBeat_held, ite_self]

@[simp] theorem State.inject_held (s : State) (lt cycle : Nat) : (s.inject lt cycle).held = s.held := by
  simp only [State.inject]
  (repeat' split) <;> simp only [held_update, held_forEach, State.engines_held, State.launch_held, State.dropBeat_held,
    State.collide_held, implies_true]

@[simp] theorem State.linkErrors_held (s : State) (b : Beat) (corrected : Nat) (bad : List Nat) (hdrBad : Bool) :
    (s.linkErrors b corrected bad hdrBad).held = s.held := by
  simp only [State.linkErrors, held_ite, State.incF_held, State.dropBeat_held, State.raise_held, State.declareHalt_held,
    State.putBeat_held, ite_self]

@[simp] theorem State.advance_held (s : State) (b : Beat) (h : Hop) (ts : List Nat) (cycle corrected : Nat) (bad : List Nat)
    (hdrBad : Bool) :
    (s.advance b h ts cycle corrected bad hdrBad).held = s.held := by
  simp only [State.advance, held_ite, held_update, State.putBeat_held, State.without_held, State.linkErrors_held, ite_self]

@[simp] theorem State.oust_held (s : State) (b : Beat) (out : Nat) : (s.oust b out).held = s.held := by
  simp only [State.oust, held_ite, held_update, held_forEach, State.collide_held, ite_self, implies_true]

@[simp] theorem State.routeTimed_held (s : State) (b : Beat) (h : Hop) (ts : List Nat) (corrected : Nat) (bad : List Nat) (hdrBad :
    Bool) :
    (s.routeTimed b h ts corrected bad hdrBad).held = s.held := by
  simp only [State.routeTimed, held_ite, held_update, State.without_held, State.collide_held, State.oust_held, State.advance_held,
    ite_self]

@[simp] theorem State.meshRoute_held (s : State) (id corrected : Nat) (bad : List Nat) (hdrBad : Bool) :
    (s.meshRoute id corrected bad hdrBad).held = s.held := by
  simp only [State.meshRoute]
  (repeat' split) <;> simp only [State.dropBeat_held, State.routeTimed_held]

@[simp] theorem State.mergeBeat_held (s : State) (b : Beat) : (s.mergeBeat b).held = s.held := by
  simp only [State.mergeBeat]
  (repeat' split) <;> simp only [State.modTile_held, State.setB_held]

@[simp] theorem State.ejectBeat_held (s : State) (b : Beat) : (s.ejectBeat b).held = s.held := by
  simp only [State.ejectBeat, held_ite, held_update, State.meshRecord_held, State.collide_held, State.mergeBeat_held,
    State.portWrite_held, ite_self]

@[simp] theorem State.meshEject_held (s : State) (id : Nat) : (s.meshEject id).held = s.held := by
  unfold State.meshEject
  (repeat' split) <;> simp only [held_ite, State.without_held, State.ejectBeat_held, ite_self]

@[simp] theorem State.passBack_held (s : State) (lt n : Nat) : (s.passBack lt n).held = s.held := by
  simp only [State.passBack, State.setF_held]

@[simp] theorem State.writeService_held (s : State) (b : Beat) (cycle : Nat) : (s.writeService b cycle).held = s.held := by
  simp only [State.writeService, held_ite, held_update, State.engines_held, State.dropBeat_held, State.meshRecord_held,
    State.passBack_held, ite_self]

@[simp] theorem State.serviceAdvance_held (s : State) (id cycle corrected : Nat) (bad : List Nat) (hdrBad : Bool) :
    (s.serviceAdvance id cycle corrected bad hdrBad).held = s.held := by
  unfold State.serviceAdvance
  (repeat' split) <;> simp only [held_update, State.dropBeat_held, State.passBack_held, State.writeService_held, State.advance_held]

@[simp] theorem State.hallReq_held (s : State) (lt c dest n : Nat) : (s.hallReq lt c dest n).held = s.held := by
  simp only [State.hallReq, held_ite, State.modTile_held, ite_self]

@[simp] theorem State.hallGrant_held (s : State) (lt : Nat) : (s.hallGrant lt).held = s.held := by
  unfold State.hallGrant
  split <;> simp only [held_ite, State.setF_held, State.modTile_held, State.modChan_held, ite_self]

@[simp] theorem State.hallReturn_held (s : State) (lt c : Nat) : (s.hallReturn lt c).held = s.held := by
  simp only [State.hallReturn, held_forEach, State.passBack_held, State.modChan_held, implies_true]

@[simp] theorem State.onCnet_held (s : State) (m : CnetMsg) (typ corrected : Nat) (bad : Bool) (f : State → CnetMsg → State) (hf :
    ∀ s x, (f s x).held = s.held) : (s.onCnet m typ corrected bad f).held = s.held := by
  simp only [State.onCnet, held_ite, held_update, held_forEach, State.trace_held, State.incF_held, hf, ite_self, implies_true]

@[simp] theorem State.cnetRead_held (s : State) (m : CnetMsg) : (s.cnetRead m).held = s.held := by
  simp only [State.cnetRead, held_ite, State.accessRead_held, State.sendCnet_held, ite_self]

@[simp] theorem State.cnetWrite_held (now : Nat) (s : State) (m : CnetMsg) : (State.cnetWrite now s m).held = s.held := by
  simp only [State.cnetWrite, held_ite, State.accessWrite_held, ite_self]

@[simp] theorem State.cnetReply_held (s : State) (m : CnetMsg) : (s.cnetReply m).held = s.held := by
  simp only [State.cnetReply, held_ite, State.send_held, ite_self]

@[simp] theorem State.cnetEvent_held (s : State) (m : CnetMsg) : (s.cnetEvent m).held = s.held := by
  simp only [State.cnetEvent, held_ite, State.raise_held, ite_self]

@[simp] theorem State.cnetArm_held (s : State) (m : CnetMsg) : (s.cnetArm m).held = s.held := by
  simp only [State.cnetArm, held_ite, State.modTile_held, ite_self]

@[simp] theorem State.cnetPost_held (s : State) (m : CnetMsg) : (s.cnetPost m).held = s.held := by
  simp only [State.cnetPost, held_ite, State.modChan_held, ite_self]

end Sys2Proof.Machine
end

