-- ==== Sys2Proof/Proofs/HeldTiles.lean ====
section
/-! What each operation keeps, on any state: the queue and the variant. Here: the units of a tile and the near-bank units. -/

namespace Sys2Proof.Machine

@[simp] theorem State.onMxe_held (s : State) (lt idx cycle op : Nat) (f : State → Nat → State) (hf :
    ∀ s x, (f s x).held = s.held) : (s.onMxe lt idx cycle op f).held = s.held := by
  unfold State.onMxe
  split <;> simp only [held_ite, held_update, State.engines_held, State.showMxe_held, hf, ite_self]

@[simp] theorem State.takeFields_held (s : State) (lt idx : Nat) : (s.takeFields lt idx).held = s.held := by
  simp only [State.takeFields]
  (repeat' split) <;> simp only [held_update, State.modTile_held]

@[simp] theorem State.startLoad_held (s : State) (lt d : Nat) : (s.startLoad lt d).held = s.held := by
  simp only [State.startLoad, State.modMxe_held]

@[simp] theorem State.startPass_held (s : State) (lt idx d : Nat) : (s.startPass lt idx d).held = s.held := by
  simp only [State.startPass, held_ite, State.swapPlanes_held, State.modMxe_held, State.setF_held, State.setB_held, ite_self]

@[simp] theorem State.startSend_held (s : State) (lt d : Nat) : (s.startSend lt d).held = s.held := by
  simp only [State.startSend, State.modMxe_held]

@[simp] theorem State.mergeRow_held (s : State) (lt idx d r : Nat) : (s.mergeRow lt idx d r).held = s.held := by
  simp only [State.mergeRow, held_ite, held_update, State.engines_held, State.accRead_held, State.modMxe_held, State.showMxe_held,
    State.setB_held, ite_self]

@[simp] theorem State.doMerge_held (s : State) (lt idx r : Nat) : (s.doMerge lt idx r).held = s.held := by
  simp only [State.doMerge, held_ite, State.mergeRow_held, ite_self]

@[simp] theorem State.onVe_held (s : State) (lt idx op : Nat) (starts : Nat → Bool) (f : State → Nat → State) (hf :
    ∀ s x, (f s x).held = s.held) : (s.onVe lt idx op starts f).held = s.held := by
  simp only [State.onVe, held_ite, held_update, State.engines_held, State.showVe_held, hf, ite_self]

@[simp] theorem State.veRun_held (s : State) (lt idx d : Nat) : (s.veRun lt idx d).held = s.held := by
  simp only [State.veRun, held_ite, State.tbPortRead_held, State.setF_held, State.setB_held, State.declareHalt_held,
    State.modVe_held, ite_self]

@[simp] theorem State.veJob_held (s : State) (lt d n : Nat) : (s.veJob lt d n).held = s.held := by
  simp only [State.veJob, State.modVe_held]

@[simp] theorem State.veTable_held (s : State) (lt d : Nat) : (s.veTable lt d).held = s.held := by
  simp only [State.veTable, State.modVe_held, State.showTables_held, State.veJob_held]

@[simp] theorem State.streamRead_held (s : State) (lt : Nat) (r : VeRun) (k w q x : Nat) :
    (s.streamRead lt r k w q x).2.held = s.held := by
  simp only [State.streamRead, held_ite_snd, State.tbPortRead_held, ite_self]

@[simp] theorem State.sourceRead_held (s : State) (lt : Nat) (r : VeRun) (i : Slate) (code x : Nat) (tags : List Int) :
    (s.sourceRead lt r i code x tags).2.held = s.held := by
  simp only [State.sourceRead, held_ite_snd, State.streamRead_held, State.cacheRead_held, ite_self]

@[simp] theorem State.oldOf_held (s : State) (lt w : Nat) (a : VReg) (d : VeDst) : (s.oldOf lt w a d).2.held = s.held := by
  unfold State.oldOf
  split <;> simp only [State.cacheRead_held]

@[simp] theorem State.issued_held (s : State) (lt : Nat) (r : VeRun) : (s.issued lt r).held = s.held := by
  simp only [State.issued, held_ite, State.modVe_held, State.setF_held, ite_self]

@[simp] theorem State.slateIn_held (s : State) (lt : Nat) (r : VeRun) (i : Slate) (x : Nat) :
    (s.slateIn lt r i x).2.held = s.held := by
  simp only [State.slateIn, held_ite_snd, State.sourceRead_held, State.accRead_held, State.oldOf_held, ite_self]

@[simp] theorem State.slateStep_held (s : State) (lt op : Nat) (f : SlateIn → VeFlight) : (s.slateStep lt op f).held = s.held := by
  unfold State.slateStep
  split <;> simp only [held_ite, held_update, State.engines_held, State.issued_held, State.showVe_held, State.slateIn_held,
    State.modVe_held, State.perfAdd_held, ite_self]

@[simp] theorem State.trapReport_held (s : State) (g cause pc addr : Nat) : (s.trapReport g cause pc addr).held = s.held := by
  simp only [State.trapReport, State.raise_held, State.declareHalt_held]

@[simp] theorem State.trap_held (s : State) (g t cause : Nat) (addr : Option Nat) : (s.trap g t cause addr).held = s.held := by
  unfold State.trap
  split <;> simp only [held_update, State.setF_held, State.setB_held, State.modCore_held, State.trapReport_held]

@[simp] theorem State.fetchDead_held (s : State) (g t : Nat) : (s.fetchDead g t).held = s.held := by
  simp only [State.fetchDead, held_ite, held_update, State.incF_held, State.setB_held, State.trapReport_held, State.trap_held,
    ite_self]

@[simp] theorem State.onCore_held (s : State) (g op : Nat) (f : State → Issued → State) (hf :
    ∀ s x, (f s x).held = s.held) : (s.onCore g op f).held = s.held := by
  simp only [State.onCore]
  (repeat' split) <;> simp only [held_update, State.trap_held, State.fetchDead_held, State.incF_held, hf]

@[simp] theorem State.goOn_held (s : State) (x : Issued) (n pc : Nat) : (s.goOn x n pc).held = s.held := by
  simp only [State.goOn, State.modCore_held]

@[simp] theorem State.result_held (s : State) (x : Issued) (r : Nat) (v : Word) (avail n : Nat) :
    (s.result x r v avail n).held = s.held := by
  simp only [State.result, State.modCore_held, State.goOn_held]

@[simp] theorem State.chalkA_held (s : State) (g fn : Nat) (h : Word → Word → Word) (avail n : Nat) :
    (s.chalkA g fn h avail n).held = s.held := by
  simp only [State.chalkA, State.onCore_held, State.result_held, implies_true]

@[simp] theorem State.chalkB_held (s : State) (g op : Nat) (h : Word → Nat → Word) : (s.chalkB g op h).held = s.held := by
  simp only [State.chalkB, State.onCore_held, State.result_held, implies_true]

@[simp] theorem State.setTaint_held (s : State) (g : Nat) : (s.setTaint g).held = s.held := by
  simp only [State.setTaint, State.setB_held]

@[simp] theorem State.localLoad_held (s : State) (x : Issued) (off bytes : Nat) (signed : Bool) :
    (s.localLoad x off bytes signed).held = s.held := by
  simp only [State.localLoad, held_ite, State.incF_held, State.setTaint_held, State.result_held, ite_self]

@[simp] theorem State.chalkLoad_held (s : State) (g op bytes : Nat) (signed : Bool) :
    (s.chalkLoad g op bytes signed).held = s.held := by
  refine s.onCore_held g op _ (fun t x => ?_)
  simp only [held_ite, State.trap_held]
  refine ite_eq_left_iff.2 (fun _ => ?_)
  split <;> simp only [State.localLoad_held, State.modCore_held, State.result_held, State.trap_held]

@[simp] theorem State.nextInstr_held (s : State) (x : Issued) (n : Nat) : (s.nextInstr x n).held = s.held := by
  simp only [State.nextInstr, State.goOn_held]

@[simp] theorem State.localStore_held (s : State) (x : Issued) (off bytes v : Nat) :
    (s.localStore x off bytes v).held = s.held := by
  simp only [State.localStore, held_ite, State.trap_held, State.lmStoreAt_held, State.nextInstr_held, ite_self]

@[simp] theorem State.bufferStore_held (s : State) (x : Issued) (off bytes v : Nat) :
    (s.bufferStore x off bytes v).held = s.held := by
  simp only [State.bufferStore, held_ite, State.trap_held, State.modCore_held, ite_self]

@[simp] theorem State.patchTainted_held (s : State) (x : Issued) : (s.patchTainted x).held = s.held := by
  simp only [State.patchTainted, State.incF_held, State.nextInstr_held]

@[simp] theorem State.patchCurrent_held (s : State) (x : Issued) (a i v : Nat) : (s.patchCurrent x a i v).held = s.held := by
  simp only [State.patchCurrent, held_ite, State.patchTainted_held, State.trap_held, State.modTile_held, State.nextInstr_held,
    ite_self]

@[simp] theorem State.patchBuffer_held (s : State) (x : Issued) (a i v : Nat) : (s.patchBuffer x a i v).held = s.held := by
  simp only [State.patchBuffer, held_ite, State.patchTainted_held, State.trap_held, State.modTile_held, State.setF_held,
    State.nextInstr_held, ite_self]

@[simp] theorem State.chalkStore_held (s : State) (g op bytes : Nat) : (s.chalkStore g op bytes).held = s.held := by
  refine s.onCore_held g op _ (fun t x => ?_)
  simp only [held_ite, State.trap_held]
  refine ite_eq_left_iff.2 (fun _ => ?_)
  split <;> simp only [held_ite, State.localStore_held, State.bufferStore_held, State.patchCurrent_held, State.patchBuffer_held,
    State.trap_held, ite_self]

@[simp] theorem State.windowLoad_held (s : State) (g t : Nat) (a : TbAccess) : (s.windowLoad g t a).held = s.held := by
  simp only [State.windowLoad, held_ite, State.tbCount_held, State.setTaint_held, State.modCore_held, State.result_held, ite_self]

@[simp] theorem State.windowStore_held (s : State) (g t : Nat) (a : TbAccess) : (s.windowStore g t a).held = s.held := by
  simp only [State.windowStore, held_update, State.modTile_held, State.modCore_held, State.nextInstr_held]

@[simp] theorem State.tbWindow_held (s : State) (lt t : Nat) : (s.tbWindow lt t).held = s.held := by
  have hserve (store : Bool) (u : State) (g : Nat) : (match u.windowAccess g t with
      | some a => if a.isStore = store then (if store then u.windowStore g t a else u.windowLoad g t a) else u
      | none => u).held = u.held := by
    split <;> simp only [held_ite, State.windowStore_held, State.windowLoad_held, ite_self]
  exact (held_forEach _ (hserve true) _).trans ((held_forEach _ (hserve false) _).trans (s.engines_held lt _))

@[simp] theorem State.branch_held (s : State) (g op : Nat) (h : Word → Word → Bool) : (s.branch g op h).held = s.held := by
  simp only [State.branch, held_ite, State.onCore_held, State.goOn_held, ite_self, implies_true]

@[simp] theorem State.jump_held (s : State) (x : Issued) (target : Word) : (s.jump x target).held = s.held := by
  simp only [State.jump, State.result_held, State.goOn_held]

@[simp] theorem State.chalkEnd_held (s : State) (g : Nat) : (s.chalkEnd g).held = s.held := by
  simp only [State.chalkEnd, held_ite, State.onCore_held, State.nextInstr_held, State.setB_held, ite_self, implies_true]

@[simp] theorem State.chalkWaitc_held (s : State) (g : Nat) : (s.chalkWaitc g).held = s.held := by
  simp only [State.chalkWaitc, held_ite, State.onCore_held, State.nextInstr_held, State.modCore_held, ite_self, implies_true]

@[simp] theorem State.waitcWake_held (s : State) (g : Nat) : (s.waitcWake g).held = s.held := by
  unfold State.waitcWake
  split <;> simp only [held_ite, held_update, State.modCore_held, ite_self]

@[simp] theorem State.chalkTrap_held (s : State) (g : Nat) : (s.chalkTrap g).held = s.held := by
  simp only [State.chalkTrap, held_ite, State.onCore_held, State.trap_held, ite_self, implies_true]

@[simp] theorem State.chalkRet_held (s : State) (g : Nat) : (s.chalkRet g).held = s.held := by
  simp only [State.chalkRet, held_ite, State.onCore_held, State.nextInstr_held, State.setB_held, State.trap_held, ite_self,
    implies_true]

@[simp] theorem State.taskStart_held (s : State) (lt idx : Nat) : (s.taskStart lt idx).held = s.held := by
  simp only [State.taskStart, held_ite, held_update, State.setB_held, State.setF_held, State.modCore_held, ite_self]

@[simp] theorem State.taskDeadline_held (s : State) (g : Nat) : (s.taskDeadline g).held = s.held := by
  simp only [State.taskDeadline, held_ite, State.trap_held, ite_self]

@[simp] theorem State.setMovFault_held (s : State) (lt c a : Nat) : (s.setMovFault lt c a).held = s.held := by
  simp only [State.setMovFault, State.setF_held]

@[simp] theorem State.movHalt_held (s : State) (lt c status a : Nat) : (s.movHalt lt c status a).held = s.held := by
  simp only [State.movHalt, State.setF_held, State.setB_held, State.setMovFault_held, State.modChan_held, State.declareHalt_held]

@[simp] theorem State.movBegin_held (s : State) (lt c : Nat) : (s.movBegin lt c).held = s.held := by
  simp only [State.movBegin, State.setF_held, State.setB_held]

@[simp] theorem State.movSettle_held (s : State) (lt c : Nat) : (s.movSettle lt c).held = s.held := by
  simp only [State.movSettle, held_ite, State.setB_held, ite_self]

@[simp] theorem State.beginCopy_held (s : State) (lt c : Nat) (k : CopyRun) : (s.beginCopy lt c k).held = s.held := by
  unfold State.beginCopy
  split <;> simp only [State.movHalt_held, State.modChan_held]

@[simp] theorem State.moverCopy_held (s : State) (lt idx : Nat) : (s.moverCopy lt idx).held = s.held := by
  unfold State.moverCopy
  split <;> simp only [held_update, State.movBegin_held, State.beginCopy_held]

@[simp] theorem State.moverIndirect_held (s : State) (lt idx : Nat) : (s.moverIndirect lt idx).held = s.held := by
  unfold State.moverIndirect
  split <;> simp only [held_update, State.movBegin_held, State.modChan_held]

@[simp] theorem State.builtDone_held (s : State) (lt c cycle : Nat) : (s.builtDone lt c cycle).held = s.held := by
  simp only [State.builtDone, State.incF_held, State.modChan_held, State.movSettle_held]

@[simp] theorem State.builtRun_held (s : State) (lt c : Nat) (i : IndirectRun) (d a : Nat) :
    (s.builtRun lt c i d a).held = s.held := by
  unfold State.builtRun
  (repeat' split) <;> simp only [held_ite, State.movHalt_held, State.modChan_held, State.builtDone_held, State.setF_held, ite_self]

@[simp] theorem State.builtNext_held (s : State) (lt c : Nat) : (s.builtNext lt c).held = s.held := by
  simp only [State.builtNext]
  (repeat' split) <;> simp only [held_update, State.movHalt_held, State.portRead_held, State.builtRun_held]

@[simp] theorem State.localBytes_held (s : State) (a n : Nat) : (s.localBytes a n).2.held = s.held := by
  simp only [State.localBytes, held_ite, held_forEach, State.incF_held, ite_self, implies_true]

@[simp] theorem lmWritePieces_held (l : List (Nat × Nat)) :
    ∀ (s : State) (d : List Byte) (p : List Bool), (lmWritePieces s l d p).held = s.held := by
  induction l with
  | nil => exact fun _ _ _ => rfl
  | cons x l ih =>
    intro s d p
    simp only [lmWritePieces, ih, State.lmStoreAt_held]

@[simp] theorem State.meshBeat_held (s : State) (lt c : Nat) (k : CopyRun) (off cycle : Nat) (d : List Byte) (p : List Bool) (first
    last : Bool) :
    (s.meshBeat lt c k off cycle d p first last).held = s.held := by
  simp only [State.meshBeat, State.offerBeat_held]

@[simp] theorem State.addOps_held (s : State) (lt c : Nat) (l : List LkOp) : (s.addOps lt c l).held = s.held := by
  simp only [State.addOps, State.modChan_held]

@[simp] theorem State.moveBeat_held (s : State) (lt c : Nat) (k : CopyRun) (p : MovPath) (src dst j n cycle : Nat) :
    (s.moveBeat lt c k p src dst j n cycle).held = s.held := by
  unfold State.moveBeat
  split <;> simp only [State.portRead_held, State.portWrite_held, State.meshBeat_held, State.addOps_held, lmWritePieces_held,
    State.localBytes_held]

@[simp] theorem State.copyDone_held (s : State) (lt c cycle : Nat) : (s.copyDone lt c cycle).held = s.held := by
  simp only [State.copyDone, held_ite, State.builtDone_held, State.modChan_held, State.movSettle_held, ite_self]

@[simp] theorem State.moverBeat_held (s : State) (lt c : Nat) : (s.moverBeat lt c).held = s.held := by
  simp only [State.moverBeat]
  (repeat' split) <;> simp only [held_update, State.movHalt_held, State.perfAdd_held, State.moveBeat_held, State.incF_held,
    State.copyDone_held, State.modChan_held]

@[simp] theorem State.postFail_held (s : State) (lt c mv st a : Nat) (x : ServicePost) :
    (s.postFail lt c mv st a x).held = s.held := by
  simp only [State.postFail]
  (repeat' split) <;> simp only [State.dropPost_held, State.setMovFault_held, State.setF_held, State.setB_held, State.xferFail_held]

@[simp] theorem State.postMoved_held (s : State) (lt c : Nat) (x : ServicePost) (n rate : Nat) :
    (s.postMoved lt c x n rate).held = s.held := by
  simp only [State.postMoved, held_ite, State.perfAdd_held, State.dropPost_held, State.setB_held, State.modChan_held, ite_self]

@[simp] theorem servicePump_held (lt c dest k : Nat) :
    ∀ (s : State) (x : ServicePost), (servicePump lt c dest k s x).held = s.held := by
  induction k with
  | zero => exact fun _ _ => rfl
  | succ k ih =>
    intro s x
    simp only [servicePump, held_ite, ih, State.svcRead_held, State.postFail_held, State.postMoved_held, State.modChan_held,
      State.offerBeat_held, ite_self]

@[simp] theorem State.serviceLocal_held (s : State) (lt c : Nat) (x : ServicePost) (rate : Nat) :
    (s.serviceLocal lt c x rate).held = s.held := by
  simp only [State.serviceLocal, held_ite, State.svcRead_held, State.postFail_held, State.svcWrite_held, State.postMoved_held,
    ite_self]

@[simp] theorem State.serviceTransfer_held (s : State) (lt c : Nat) : (s.serviceTransfer lt c).held = s.held := by
  simp only [State.serviceTransfer]
  (repeat' split) <;> simp only [State.postFail_held, servicePump_held, State.serviceLocal_held]

@[simp] theorem State.nbuWords_held (s : State) (addrs : List Nat) : (s.nbuWords addrs).2.held = s.held := by
  simp only [State.nbuWords, held_foldl_snd, State.lkLoad_held, implies_true]

@[simp] theorem State.nbuRow_held (s : State) (a : Nat) : (s.nbuRow a).2.held = s.held := by
  simp only [State.nbuRow, State.nbuWords_held]

@[simp] theorem State.indexStep_held (s : State) (l locker e bag j : Nat) (n : NbuSt) :
    (s.indexStep l locker e bag j n).2.held = s.held := by
  simp only [State.indexStep, held_ite_snd, State.nbuWords_held, ite_self]

@[simp] theorem State.signRow_held (s : State) (l locker : Nat) (q : SeqRun) (i : Nat) (n : NbuSt) :
    (s.signRow l locker q i n).2.held = s.held := by
  simp only [State.signRow, held_update, State.nbuWords_held]

@[simp] theorem State.nbuXfer_held (s : State) (l locker : Nat) (q : SeqRun) (n : NbuSt) :
    (s.nbuXfer l locker q n).2.held = s.held := by
  simp only [State.nbuXfer]
  (repeat' split) <;> simp only [held_update, State.nbuRow_held, State.indexStep_held, State.signRow_held]

@[simp] theorem State.nbuReport_held (s : State) (locker : Nat) (x : NbuStep) : (s.nbuReport locker x).held = s.held := by
  simp only [State.nbuReport, State.incF_held, State.tileFlags_held]

@[simp] theorem State.putSeq_held (s : State) (l : Nat) (q : SeqRun) : (s.putSeq l q).held = s.held := by
  simp only [State.putSeq, State.modLayer_held]

@[simp] theorem State.seqBegin_held (s : State) (l p idx e bell t : Nat) (owner : Option (Nat × Nat)) :
    (s.seqBegin l p idx e bell t owner).held = s.held := by
  simp only [State.seqBegin, held_ite, State.modLayer_held, State.setF_held, State.showSeqs_held, State.showBusy_held, ite_self]

@[simp] theorem State.seqStart_held (s : State) (l p idx : Nat) : (s.seqStart l p idx).held = s.held := by
  simp only [State.seqStart, held_ite, held_update, State.seqBegin_held, ite_self]

@[simp] theorem State.runXfer_held (s : State) (l : Nat) (q : SeqRun) : (s.runXfer l q).held = s.held := by
  simp only [State.runXfer]
  (repeat' split) <;> simp only [held_update, held_foldl_snd, State.nbuXfer_held, State.nbuReport_held, State.putSeq_held,
    State.perfAdd_held, State.putCmd_held, State.incF_held, implies_true]

@[simp] theorem State.xferNext_held (s : State) (l : Nat) (q : SeqRun) : (s.xferNext l q).held = s.held := by
  simp only [State.xferNext, held_ite, State.putSeq_held, State.runXfer_held, ite_self]

@[simp] theorem seqRunBell_held (k : Nat) : ∀ (s : State) (l p idx : Nat), (seqRunBell k s l p idx).held = s.held := by
  induction k with
  | zero => exact fun _ _ _ _ => rfl
  | succ k ih =>
    intro s l p idx
    unfold seqRunBell
    split <;> simp only [held_ite, ih, State.xferNext_held, ite_self]

@[simp] theorem State.seqWork_held (s : State) (l p idx op : Nat) : (s.seqWork l p idx op).held = s.held := by
  unfold State.seqWork
  split <;> simp only [held_ite, seqRunBell_held, ite_self]

@[simp] theorem State.nbuCommand_held (s : State) (locker w : Nat) : (s.nbuCommand locker w).held = s.held := by
  simp only [State.nbuCommand, held_ite, State.incF_held, State.memFaultAt_held, State.seqBegin_held, ite_self]

@[simp] theorem nfStart_held (c : Cmd) (l : List Nat) : ∀ (s : State) (n : Nat), (nfStart c s l n).2.held = s.held := by
  induction l with
  | nil => exact fun _ _ => rfl
  | cons x l ih =>
    intro s n
    simp only [nfStart, held_ite_snd, ih, State.seqBegin_held, ite_self]

@[simp] theorem State.nfGo_held (s : State) (c : Cmd) : (s.nfGo c).held = s.held := by
  simp only [State.nfGo, held_ite, State.countMoved_held, State.ok_held, nfStart_held, State.putCmd_held, ite_self]

@[simp] theorem State.seqEnd_held (s : State) (l p idx : Nat) : (s.seqEnd l p idx).held = s.held := by
  simp only [State.seqEnd]
  (repeat' split) <;> simp only [held_forEach, State.dropSeqs_held, State.putCmd_held, State.nfGo_held, implies_true]

@[simp] theorem State.nfTake_held (s : State) (c : Cmd) (refused : Option Nat) : (s.nfTake c refused).held = s.held := by
  unfold State.nfTake
  (repeat' split) <;> simp only [State.nfGo_held, State.fail_held, State.putCmd_held]

@[simp] theorem State.nbuFill_held (s : State) (c : Cmd) : (s.nbuFill c).held = s.held := by
  simp only [State.nbuFill, State.nfTake_held]

@[simp] theorem State.nbuCopy_held (s : State) (c : Cmd) : (s.nbuCopy c).held = s.held := by
  simp only [State.nbuCopy, held_ite, State.badParam_held, State.nfTake_held, ite_self]

@[simp] theorem State.loadCourse_held (s : State) (p addr : Nat) (m : List Byte) : (s.loadCourse p addr m).held = s.held := by
  simp only [State.loadCourse, held_update, held_forEach, State.setCourseState_held, State.setF_held, State.stageLesson_held,
    State.loadLocal_held, implies_true]

@[simp] theorem State.courseLoad_held (s : State) (c : Cmd) : (s.courseLoad c).held = s.held := by
  simp only [State.courseLoad]
  (repeat' split) <;> simp only [State.readObject_held, State.fail_held, State.loadCourse_held, State.ok_held]

end Sys2Proof.Machine
end

