-- ==== Sys2Proof/Proofs/HeldStart.lean ====
section
/-! What each operation keeps, on any state: the queue and the variant. Here: sensors, security, start and management. -/

namespace Sys2Proof.Machine

@[simp] theorem State.modelSample_held (s : State) (powers : List Nat) : (s.modelSample powers).held = s.held := by
  simp only [State.modelSample, held_ite, held_update, State.drawn_held, ite_self]

@[simp] theorem State.carrySuspects_held (s : State) : s.carrySuspects.held = s.held := by
  simp only [State.carrySuspects, held_update, State.writeCarry_held]

@[simp] theorem State.markSuspect_held (s : State) (n v : Nat) : (s.markSuspect n v).held = s.held := by
  simp only [State.markSuspect, State.setB_held, State.incF_held, State.carrySuspects_held, State.raise_held]

@[simp] theorem State.sensorReading_held (s : State) (n v : Nat) : (s.sensorReading n v).held = s.held := by
  simp only [State.sensorReading, held_ite, held_update, State.setF_held, State.markSuspect_held, State.setB_held,
    State.carrySuspects_held, ite_self]

@[simp] theorem State.pairDisagree_held (s : State) (q a b : Nat) : (s.pairDisagree q a b).held = s.held := by
  simp only [State.pairDisagree, held_ite, held_update, State.setB_held, State.incF_held, State.raise_held, ite_self]

@[simp] theorem State.adopt_held (s : State) (r : Nat) (v : List Nat) : (s.adopt r v).2.held = s.held := by
  simp only [State.adopt, held_ite, State.setF_held, State.incF_held, ite_self]

@[simp] theorem adoptAll_held (w l : List Nat) : ∀ s : State, (adoptAll w l s).2.held = s.held := by
  induction l with
  | nil => exact fun _ => rfl
  | cons r l ih =>
    intro s
    simp only [adoptAll, ih, State.adopt_held]

@[simp] theorem State.trip_held (s : State) (cause region value : Nat) : (s.trip cause region value).held = s.held := by
  simp only [State.trip, held_update]

@[simp] theorem State.hotSample_held (s : State) (l : List Nat) : (s.hotSample l).held = s.held := by
  simp only [State.hotSample, held_update]

@[simp] theorem State.limitSample_held (s : State) : s.limitSample.held = s.held := by
  simp only [State.limitSample, held_update]

@[simp] theorem State.coolantSample_held (s : State) (inlet outlet : Nat) : (s.coolantSample inlet outlet).held = s.held := by
  simp only [State.coolantSample, held_ite, held_update, State.setF_held, ite_self]

@[simp] theorem State.sampleReadings_held (s : State) (v powers : List Nat) (inlet outlet : Nat) :
    (s.sampleReadings v powers inlet outlet).held = s.held := by
  simp only [State.sampleReadings, held_forEach, State.coolantSample_held, State.modelSample_held, State.sensorReading_held,
    State.pairDisagree_held, implies_true]

@[simp] theorem State.sampleEffects_held (s : State) (l : List Nat) : (s.sampleEffects l).held = s.held := by
  simp only [State.sampleEffects]
  (repeat' split) <;> simp only [held_update, State.hotSample_held, State.limitSample_held, State.trip_held]

@[simp] theorem State.sample_held (s : State) (w powers : List Nat) (inlet outlet : Nat) :
    (s.sample w powers inlet outlet).held = s.held := by
  simp only [State.sample, State.sampleEffects_held, held_forEach, State.setF_held, adoptAll_held, State.sampleReadings_held,
    implies_true]

@[simp] theorem State.comparator_held (s : State) (q a b : Nat) : (s.comparator q a b).held = s.held := by
  simp only [State.comparator, held_ite, State.trip_held, ite_self]

@[simp] theorem State.thermalRequest_held (s : State) (ctr r : Nat) (peaks : List (Nat × Nat)) :
    (s.thermalRequest ctr r peaks).held = s.held := by
  unfold State.thermalRequest
  (repeat' split) <;> simp only [State.setF_held, State.requestRecess_held]

@[simp] theorem State.forecast_held (s : State) : s.forecast.held = s.held := by
  simp only [State.forecast]
  (repeat' split) <;> simp only [State.markPoint_held, State.drawn_held, State.setF_held, State.thermalRequest_held]

@[simp] theorem State.coolantEvaluate_held (s : State) : s.coolantEvaluate.held = s.held := by
  simp only [State.coolantEvaluate, held_ite, held_update, State.setF_held, State.setB_held, State.raise_held, ite_self]

@[simp] theorem State.reject_held (s : State) (opcode : Nat) (v : Verdict) : (s.reject opcode v).held = s.held := by
  simp only [State.reject, State.setReg_held]

@[simp] theorem State.putSlot_held (s : State) (set c : Nat) (b : List Byte) : (s.putSlot set c b).held = s.held := by
  simp only [State.putSlot, held_update]

@[simp] theorem State.showSets_held (s : State) : s.showSets.held = s.held := by
  simp only [State.showSets, State.setF_held]

@[simp] theorem State.putAlt_held (s : State) (i : Nat) (on : Bool) : (s.putAlt i on).held = s.held := by
  simp only [State.putAlt, held_update, State.writeCarry_held]

@[simp] theorem State.clearFailed_held (s : State) (k : Nat) : (s.clearFailed k).held = s.held := by
  simp only [State.clearFailed, held_ite, State.putAlt_held, ite_self]

@[simp] theorem State.loadRuntime_held (s : State) (set : Nat) : (s.loadRuntime set).held = s.held := by
  simp only [State.loadRuntime, held_update]

@[simp] theorem State.loadSet_held (s : State) (set : Nat) : (s.loadSet set).held = s.held := by
  simp only [State.loadSet, State.ccWrite_held, State.loadRuntime_held]

@[simp] theorem State.secReject_held (s : State) (c : Cmd) (st : Nat) (v : Verdict) : (s.secReject c st v).held = s.held := by
  simp only [State.secReject, State.reject_held, State.fail_held]

@[simp] theorem State.secRun_held (s : State) (c : Cmd) (b : List Byte) : (s.secRun c b).held = s.held := by
  simp only [State.secRun, held_update, State.putCmd_held]

@[simp] theorem State.stageImage_held (s : State) (c : Cmd) (b : List Byte) : (s.stageImage c b).held = s.held := by
  simp only [State.stageImage, held_ite, State.secReject_held, State.putSlot_held, State.showSets_held, State.secRun_held, ite_self]

@[simp] theorem State.stageSyllabus_held (s : State) (c : Cmd) (b : List Byte) : (s.stageSyllabus c b).held = s.held := by
  simp only [State.stageSyllabus, held_ite, State.secReject_held, State.secRun_held, ite_self]

@[simp] theorem State.stageLicence_held (s : State) (c : Cmd) (b : List Byte) : (s.stageLicence c b).held = s.held := by
  simp only [State.stageLicence, held_ite, State.secReject_held, State.secRun_held, ite_self]

@[simp] theorem State.stageReport_held (s : State) (c : Cmd) : (s.stageReport c).held = s.held := by
  simp only [State.stageReport]
  (repeat' split) <;> simp only [State.readObject_held, State.fail_held, State.failAt_held, State.secRun_held]

@[simp] theorem State.secBegin_held (s : State) (c : Cmd) : (s.secBegin c).held = s.held := by
  simp only [State.secBegin, held_ite, State.stageReport_held, State.secRun_held, State.readObject_held, State.fail_held,
    State.stageImage_held, State.stageSyllabus_held, State.stageLicence_held, ite_self]

@[simp] theorem secNext_held (l : List SecJob) : ∀ s : State, (secNext l s).held = s.held := by
  induction l with
  | nil => exact fun _ => rfl
  | cons j l ih =>
    intro s
    simp only [secNext]
    split <;> simp only [held_ite, held_update, ih, State.secBegin_held, ite_self]

@[simp] theorem State.secEnd_held (s : State) : s.secEnd.held = s.held := by
  simp only [State.secEnd, held_update, secNext_held]

@[simp] theorem State.secAccept_held (s : State) (c : Cmd) : (s.secAccept c).held = s.held := by
  simp only [State.secAccept, held_ite, held_update, State.putCmd_held, State.secBegin_held, ite_self]

@[simp] theorem State.activate_held (s : State) (c : Cmd) : (s.activate c).held = s.held := by
  simp only [State.activate, held_ite, State.secReject_held, State.setB_held, State.secAccept_held, ite_self]

@[simp] theorem State.secCommit_held (s : State) (c : Cmd) (b : List Byte) : (s.secCommit c b).held = s.held := by
  simp only [State.secCommit]
  (repeat' split) <;> simp only [held_update, State.putSlot_held, State.clearFailed_held, State.showSets_held, State.ok_held,
    State.setReg_held, State.setF_held, State.svcWrite_held]

@[simp] theorem State.secDone_held (s : State) : s.secDone.held = s.held := by
  unfold State.secDone
  (repeat' split) <;> simp only [State.secCommit_held, State.secEnd_held]

@[simp] theorem State.activateEnd_held (s : State) (c : Cmd) : (s.activateEnd c).held = s.held := by
  simp only [State.activateEnd, State.setB_held, State.ok_held, State.secEnd_held]

@[simp] theorem State.activateCommit_held (s : State) (c : Cmd) : (s.activateCommit c).held = s.held := by
  simp only [State.activateCommit, held_ite, held_update, State.activateEnd_held, State.setF_held, State.clearFailed_held,
    State.putCmd_held, ite_self]

@[simp] theorem State.switchDone_held (s : State) (rejected : Bool) : (s.switchDone rejected).held = s.held := by
  simp only [State.switchDone]
  (repeat' split) <;> simp only [held_update, State.reject_held, State.raise_held, State.setF_held, State.loadSet_held,
    State.showSets_held, State.activateEnd_held, State.secEnd_held]

@[simp] theorem State.knownGood_held (s : State) : s.knownGood.held = s.held := by
  unfold State.knownGood
  split <;> simp only [held_ite, held_update, State.setF_held, State.showSets_held, ite_self]

@[simp] theorem State.logStep_held (s : State) (kind i detail : Nat) : (s.logStep kind i detail).held = s.held := by
  simp only [State.logStep, State.logAppend_held]

@[simp] theorem State.poweredUp_held (s : State) : s.poweredUp.held = s.held := by
  simp only [State.poweredUp, held_update]

@[simp] theorem State.fuseSetpoint_held (s : State) : s.fuseSetpoint.held = s.held := by
  simp only [State.fuseSetpoint, State.setF_held]

@[simp] theorem State.powerGood_held (s : State) (volts duration : Nat) : (s.powerGood volts duration).held = s.held := by
  simp only [State.powerGood, State.poweredUp_held, State.fuseSetpoint_held, State.setF_held, State.writeCard_held,
    State.clearCards_held]

@[simp] theorem State.requestReset_held (s : State) (cause : Nat) : (s.requestReset cause).held = s.held := by
  unfold State.requestReset
  split <;> simp only [held_update]

@[simp] theorem State.watchdog_held (s : State) (step : Option Nat) : (s.watchdog step).held = s.held := by
  unfold State.watchdog
  split <;> simp only [held_ite, State.logStep_held, State.setUnready_held, State.requestReset_held, ite_self]

@[simp] theorem State.scramble_held (s : State) (a n : Nat) : (s.scramble a n).held = s.held := by
  simp only [State.scramble, held_update, State.drawn_held]

@[simp] theorem State.loseTransfer_held (s : State) (lt c : Nat) : (s.loseTransfer lt c).held = s.held := by
  simp only [State.loseTransfer]
  (repeat' split) <;> simp only [held_forEach, State.scramble_held, State.setF_held, State.setB_held, State.modChan_held,
    implies_true]

@[simp] theorem State.resetStarts_held (s : State) : s.resetStarts.held = s.held := by
  simp only [State.resetStarts, held_update, held_forEach, State.declareHalt_held, State.modLayer_held, State.loseTransfer_held,
    implies_true]

@[simp] theorem State.gateCloses_held (s : State) : s.gateCloses.held = s.held := by
  simp only [State.gateCloses, held_update, State.setF_held]

@[simp] theorem State.showPhases_held (s : State) : s.showPhases.held = s.held := by
  simp only [State.showPhases, held_forEach, State.setF_held, State.showCeiling_held, implies_true]

@[simp] theorem State.afterReset_held (s : State) : s.afterReset.held = s.held := by
  simp only [State.afterReset, held_update]

@[simp] theorem State.released_held (s : State) : s.released.held = s.held := by
  simp only [State.released, held_update, State.afterReset_held, State.showPhases_held, State.setF_held, State.incF_held,
    State.clearCards_held]

@[simp] theorem State.runStep_held (s : State) (i : Nat) (fails : Bool) : (s.runStep i fails).2.held = s.held := by
  simp only [State.runStep, held_ite_snd, State.logStep_held, State.putAlt_held, ite_self]

@[simp] theorem State.stageEndsFail_held (s : State) (stage duration firstFail : Nat) (c : List Nat) :
    (s.stageEndsFail stage duration firstFail c).held = s.held := by
  simp only [State.stageEndsFail, State.writeCard_held, State.setStage_held]

@[simp] theorem State.stagePasses_held (s : State) (stage duration : Nat) (degraded : Bool) (c : List Nat) :
    (s.stagePasses stage duration degraded c).held = s.held := by
  simp only [State.stagePasses, State.writeCard_held, State.clearCards_held, State.setStage_held]

@[simp] theorem State.loadFuses_held (s : State) : s.loadFuses.held = s.held := by
  simp only [State.loadFuses, State.setPair_held, State.setReg_held, State.fuseSetpoint_held, State.setF_held]

@[simp] theorem State.takeInterrupted_held (s : State) (l : List Nat) : (s.takeInterrupted l).held = s.held := by
  simp only [State.takeInterrupted, held_ite, held_forEach, State.reject_held, State.logStep_held, State.putAlt_held, ite_self,
    implies_true]

@[simp] theorem State.readLedger_held (s : State) : s.readLedger.held = s.held := by
  simp only [State.readLedger]
  (repeat' split) <;> simp only [held_update, held_forEach, State.setReg_held, State.logAppend_held, State.setB_held,
    State.takeInterrupted_held, implies_true]

@[simp] theorem chooseSet_held (f l : List Nat) : ∀ s : State, (chooseSet f l s).2.held = s.held := by
  induction l with
  | nil => exact fun _ => rfl
  | cons k l ih =>
    intro s
    simp only [chooseSet, held_ite_snd, ih, State.logStep_held, State.putAlt_held, State.reject_held, ite_self]

@[simp] theorem State.startSet_held (s : State) (first k : Nat) : (s.startSet first k).held = s.held := by
  simp only [State.startSet, held_ite, held_update, State.setF_held, State.loadSet_held, State.showSets_held, ite_self]

@[simp] theorem State.stageS1_held (s : State) (duration : Nat) (loadFails : List Nat) :
    (s.stageS1 duration loadFails).held = s.held := by
  have hchoose := chooseSet_held loadFails
  simp only [State.stageS1]
  split
  next heq => simp only [State.stagePasses_held, State.startSet_held, held_of_snd heq (hchoose _ _), State.setReg_held,
    State.readLedger_held, State.loadFuses_held]
  next heq => simp only [State.stageEndsFail_held, State.showSets_held, held_of_snd heq (hchoose _ _), State.setReg_held,
    State.readLedger_held, State.loadFuses_held]

theorem State.seamStep_held (s : State) (m : Nat) (fails : List (Nat × Nat)) (t : State) (e : s.seamStep m fails = some t) :
    t.held = s.held := by
  have hrun := s.runStep_held (3 + m) (fails.contains (m, 1))
  simp only [State.seamStep] at e
  split_ifs at e
  all_goals
    cases e
    simp only [State.setB_held, State.setSeamPhase_held, State.setF_held, hrun]

@[simp] theorem seamSteps_held (f : List (Nat × Nat)) (l : List Nat) : ∀ s : State, (seamSteps f l s).2.held = s.held := by
  induction l with
  | nil => exact fun _ => rfl
  | cons m l ih =>
    intro s
    unfold seamSteps
    split
    next v heq => exact (ih v).trans (s.seamStep_held m f v heq)
    next => rfl

@[simp] theorem State.alignClocks_held (s : State) (duration : Nat) (fails : List (Nat × Nat)) (trims : List Int) :
    (s.alignClocks duration fails trims).held = s.held := by
  have hseams := seamSteps_held fails (List.range 4)
  simp only [State.alignClocks]
  split
  next heq => simp only [State.stageEndsFail_held, held_of_snd heq (hseams _), held_update, State.setF_held, State.setB_held]
  next heq => simp only [held_ite, State.setStage_held, State.mxlTo_held, State.logStep_held, held_of_snd heq (hseams _),
    held_update, State.setF_held, State.setB_held, ite_self]

@[simp] theorem State.mxlStep_held (s : State) : s.mxlStep.held = s.held := by
  simp only [State.mxlStep, held_ite, State.logStep_held, State.putAlt_held, ite_self]

@[simp] theorem State.s2Ends_held (s : State) (duration : Nat) : (s.s2Ends duration).held = s.held := by
  simp only [State.s2Ends]
  (repeat' split) <;> simp only [held_update, State.mxlStep_held, State.raise_held, State.writeCard_held, State.setStage_held,
    State.stagePasses_held]

@[simp] theorem State.stageS2_held (s : State) (duration : Nat) (fails : List (Nat × Nat)) (trims : List Int) :
    (s.stageS2 duration fails trims).held = s.held := by
  simp only [State.stageS2, held_ite, State.alignClocks_held, State.s2Ends_held, ite_self]

@[simp] theorem State.trainLayer_held (s : State) (l : Nat) : (s.trainLayer l).held = s.held := by
  simp only [State.trainLayer, State.setB_held, State.modLayer_held]

@[simp] theorem State.layerStep_held (s : State) (l : Nat) (fails : Bool) (badForms : List (Nat × Nat)) :
    (s.layerStep l fails badForms).held = s.held := by
  simp only [State.layerStep, held_ite, held_forEach, State.runStep_held, State.seatFails_held, State.trainLayer_held, ite_self,
    implies_true]

@[simp] theorem State.stageS3_held (s : State) (duration : Nat) (fails : List Nat) (badForms : List (Nat × Nat)) (lost : List Nat)
    (corrected columns : Nat) (deadSeats : List Nat) :
    (s.stageS3 duration fails badForms lost corrected columns deadSeats).held = s.held := by
  unfold State.stageS3
  split <;> simp only [held_ite, held_forEach, State.runStep_held, State.layerStep_held, State.seatFails_held,
    State.writeCarry_held, State.stageEndsFail_held, State.stagePasses_held, ite_self, implies_true]

@[simp] theorem State.coverFault_held (s : State) (m : Nat) (col : Bool) (group value : Nat) :
    (s.coverFault m col group value).2.held = s.held := by
  simp only [State.coverFault, held_ite_snd, held_update, ite_self]

@[simp] theorem State.coverSeat_held (s : State) (m : Nat) (covers : List (Nat × Bool × Nat × Nat)) :
    (s.coverSeat m covers).2.held = s.held := by
  simp only [State.coverSeat, held_ite_snd, held_foldl_snd, State.coverFault_held, ite_self, implies_true]

@[simp] theorem State.quizSeat_held (s : State) (m : Nat) (quiz : List (Nat × Nat)) (covers : List (Nat × Bool × Nat × Nat)) :
    (s.quizSeat m quiz covers).held = s.held := by
  simp only [State.quizSeat, held_ite, State.logStep_held, State.refine_held, State.putAlt_held, State.coverSeat_held, ite_self]

@[simp] theorem State.takePlan_held (s : State) (f : Nat) : (s.takePlan f).held = s.held := by
  simp only [State.takePlan, held_forEach, State.putSeat_held, implies_true]

@[simp] theorem State.reseat_held (s : State) (lt : Nat) : (s.reseat lt).held = s.held := by
  unfold State.reseat
  split <;> simp only [State.setF_held, State.incF_held, State.loseLockers_held, State.setEvacPending_held, State.logAppend_held]

@[simp] theorem State.seatAtS4_held (s : State) (f : Nat) (excluded : Bool) : (s.seatAtS4 f excluded).held = s.held := by
  simp only [State.seatAtS4, held_ite, held_forEach, State.putSeat_held, State.showFormStatus_held, State.takePlan_held,
    State.reseat_held, State.loadExclusions_held, State.seatForm_held, State.loseLockers_held, ite_self, implies_true]

@[simp] theorem State.stageS4_held (s : State) (duration : Nat) (quiz : List (Nat × Nat)) (covers : List (Nat × Bool × Nat × Nat))
    (gateFails rf : List Nat) :
    (s.stageS4 duration quiz covers gateFails rf).held = s.held := by
  simp only [State.stageS4, held_update, held_forEach, State.quizSeat_held, State.runStep_held, State.seatAtS4_held,
    State.freshTile_held, State.writeCarry_held, State.stagePasses_held, implies_true]

@[simp] theorem State.formRights_held (s : State) : s.formRights.held = s.held := by
  simp only [State.formRights, held_ite, held_update, held_forEach, State.reject_held, State.setReg_held, State.setF_held,
    State.setB_held, ite_self, implies_true]

@[simp] theorem State.stageS5_held (s : State) (duration stepping : Nat) : (s.stageS5 duration stepping).held = s.held := by
  simp only [State.stageS5, held_ite, State.reject_held, State.stageEndsFail_held, State.formRights_held, State.stagePasses_held,
    ite_self]

@[simp] theorem State.portBegins_held (s : State) (p : Nat) : (s.portBegins p).held = s.held := by
  simp only [State.portBegins, held_ite, State.logStep_held, State.modPort_held, State.portTo_held, ite_self]

@[simp] theorem State.portEnds_held (s : State) (p : Nat) : (s.portEnds p).held = s.held := by
  simp only [State.portEnds, held_ite, State.logStep_held, State.putAlt_held, State.modPort_held, State.portTo_held, ite_self]

@[simp] theorem State.stageS6_held (s : State) (duration : Nat) : (s.stageS6 duration).held = s.held := by
  simp only [State.stageS6, held_ite, held_forEach, State.portBegins_held, State.setStage_held, State.portEnds_held,
    State.writeCard_held, State.clearCards_held, ite_self, implies_true]

@[simp] theorem State.blowFuses_held (s : State) : s.blowFuses.held = s.held := by
  simp only [State.blowFuses, held_update, State.setF_held]

@[simp] theorem State.stageS8_held (s : State) (duration total : Nat) : (s.stageS8 duration total).held = s.held := by
  simp only [State.stageS8, State.blowFuses_held, State.setF_held, State.showSets_held, State.writeCard_held, State.setStage_held]

@[simp] theorem State.afterExam_held (s : State) (f spares : Nat) : (s.afterExam f spares).held = s.held := by
  simp only [State.afterExam, held_ite, State.showFormStatus_held, State.writeCarry_held, State.raise_held, ite_self]

@[simp] theorem State.examCount_held (s : State) (n : Nat) : (s.examCount n).held = s.held := by
  simp only [State.examCount, State.incF_held]

@[simp] theorem State.autoEnds_held (s : State) : s.autoEnds.held = s.held := by
  simp only [State.autoEnds, held_update, State.setB_held]

@[simp] theorem State.autoStep_held (s : State) (result : Option Nat) : (s.autoStep result).held = s.held := by
  unfold State.autoStep
  (repeat' split) <;> simp only [held_update, State.autoEnds_held, State.setF_held, State.setB_held, State.seatFails_held,
    State.examCount_held, State.afterExam_held]

@[simp] theorem State.examStart_held (s : State) (c : Cmd) : (s.examStart c).held = s.held := by
  simp only [State.examStart, held_ite, held_update, State.failAt_held, State.fail_held, State.setB_held, State.putCmd_held,
    ite_self]

@[simp] theorem State.examSeat_held (s : State) (m test : Nat) : (s.examSeat m test).held = s.held := by
  simp only [State.examSeat]
  (repeat' split) <;> simp only [State.setF_held, State.examCount_held, State.refine_held, State.freshTile_held,
    State.tileFailure_held]

@[simp] theorem State.examDone_held (s : State) (failing : List (Nat × Nat)) : (s.examDone failing).held = s.held := by
  simp only [State.examDone]
  (repeat' split) <;> simp only [held_update, held_forEach, State.examSeat_held, State.afterExam_held, State.setB_held,
    State.logAppend_held, State.raise_held, State.ok_held, implies_true]

@[simp] theorem State.evacStart_held (s : State) (c : Cmd) (lt : Nat) : (s.evacStart c lt).held = s.held := by
  simp only [State.evacStart, held_update, State.setReg_held, State.putCmd_held]

@[simp] theorem State.evacuate_held (s : State) (c : Cmd) : (s.evacuate c).held = s.held := by
  simp only [State.evacuate, held_ite, State.fail_held, State.evacStart_held, State.substitute_held, ite_self]

@[simp] theorem State.fillArea_held (s : State) (lt : Nat) (b : List Byte) : (s.fillArea lt b).held = s.held := by
  simp only [State.fillArea, held_update]

@[simp] theorem State.areaRestored_held (s : State) (c : Cmd) (lt : Nat) (b : List Byte) :
    (s.areaRestored c lt b).held = s.held := by
  simp only [State.areaRestored, State.fillArea_held, State.setB_held, State.showFree_held, State.ok_held]

@[simp] theorem State.areaRestore_held (s : State) (c : Cmd) : (s.areaRestore c).held = s.held := by
  simp only [State.areaRestore, held_ite, State.fail_held, State.areaRestored_held, State.readObject_held, State.failAt_held,
    State.badParam_held, ite_self]

@[simp] theorem State.renumberForm_held (s : State) (f : Nat) : (s.renumberForm f).held = s.held := by
  simp only [State.renumberForm, held_ite, held_forEach, State.putSeat_held, State.showFormStatus_held, State.seatForm_held,
    State.loseLockers_held, State.freshTile_held, ite_self, implies_true]

@[simp] theorem State.renumber_held (s : State) (c : Cmd) : (s.renumber c).held = s.held := by
  simp only [State.renumber, held_ite, held_forEach, State.fail_held, State.renumberForm_held, State.writeCarry_held,
    State.ok_held, ite_self, implies_true]

@[simp] theorem State.secAbort_held (s : State) (c : Cmd) : (s.secAbort c).held = s.held := by
  simp only [State.secAbort]
  (repeat' split) <;> simp only [held_update, State.setB_held, State.secEnd_held]

@[simp] theorem State.undo_held (s : State) (c : Cmd) : (s.undo c).held = s.held := by
  simp only [State.undo, held_ite, held_update, held_forEach, State.modCrs_held, State.modGroup_held, State.setB_held,
    State.showCopying_held, State.dropSeqs_held, State.secAbort_held, ite_self, implies_true]

@[simp] theorem State.abortTarget_held (s : State) (c t : Cmd) : (s.abortTarget c t).held = s.held := by
  simp only [State.abortTarget, held_ite, State.fail_held, State.undo_held, State.ok_held, ite_self]

@[simp] theorem State.abortPending_held (s : State) (c : Cmd) (ring index : Nat) (k : Packet) :
    (s.abortPending c ring index k).held = s.held := by
  simp only [State.abortPending, held_ite, held_update, State.badParam_held, State.abortTarget_held, ite_self]

@[simp] theorem State.abort_held (s : State) (c : Cmd) (entry : Option (Nat × List Byte)) : (s.abort c entry).held = s.held := by
  simp only [State.abort]
  (repeat' split) <;> simp only [State.badParam_held, State.fail_held, State.abortTarget_held, State.readEntry_held,
    State.abortPending_held]

@[simp] theorem State.setAddr_held (s : State) (a : Nat) : (s.setAddr a).held = s.held := by
  simp only [State.setAddr, State.setF_held]

@[simp] theorem State.enable_held (s : State) (mask : Nat) : (s.enable mask).held = s.held := by
  simp only [State.enable, held_ite, held_update, held_forEach, State.send_held, ite_self, implies_true]

@[simp] theorem State.disable_held (s : State) (mask : Nat) : (s.disable mask).held = s.held := by
  simp only [State.disable, held_update]

@[simp] theorem State.setIndex_held (s : State) (index : Nat) : (s.setIndex index).held = s.held := by
  simp only [State.setIndex, held_update]

@[simp] theorem State.privateRead_held (s : State) (n : Nat) : (s.privateRead n).held = s.held := by
  simp only [State.privateRead, held_ite, held_update, State.send_held, State.setIndex_held, ite_self]

@[simp] theorem State.mgmtResult_held (s : State) (code complement result : Nat) :
    (s.mgmtResult code complement result).held = s.held := by
  simp only [State.mgmtResult, held_update, State.setIndex_held, State.setF_held]

@[simp] theorem State.mgmtCmd_held (s : State) (code : Nat) (accepted : Bool) (f : State → State) (hf :
    ∀ s, (f s).held = s.held) : (s.mgmtCmd code accepted f).held = s.held := by
  simp only [State.mgmtCmd, held_ite, State.mgmtResult_held, hf, ite_self]

@[simp] theorem State.ledgerClear_held (s : State) : s.ledgerClear.held = s.held := by
  simp only [State.ledgerClear, held_update, State.writeCarry_held, State.setUnready_held, State.requestReset_held]

@[simp] theorem State.tap_held (s : State) (ir dr drive : Nat) : (s.tap ir dr drive).held = s.held := by
  simp only [State.tap, held_update]

@[simp] theorem State.setCells_held (s : State) (cells : List Bool) : (s.setCells cells).held = s.held := by
  simp only [State.setCells, held_update]

@[simp] theorem State.extestRefused_held (s : State) : s.extestRefused.held = s.held := by
  simp only [State.extestRefused, State.tap_held, State.setB_held]

@[simp] theorem State.instStart_held (s : State) (op space addr data : Nat) : (s.instStart op space addr data).held = s.held := by
  simp only [State.instStart, held_ite, held_update, ite_self]

@[simp] theorem State.instEnd_held (s : State) (status data : Nat) : (s.instEnd status data).held = s.held := by
  simp only [State.instEnd, held_update]

@[simp] theorem State.instRead_held (s : State) (space addr : Nat) : (s.instRead space addr).held = s.held := by
  simp only [State.instRead, held_ite, State.instEnd_held, State.localRead_held, ite_self]

@[simp] theorem State.instWrite_held (s : State) (space addr data : Nat) : (s.instWrite space addr data).held = s.held := by
  simp only [State.instWrite, held_ite, State.instEnd_held, State.localWrite_held, ite_self]

@[simp] theorem State.instDone_held (s : State) : s.instDone.held = s.held := by
  unfold State.instDone
  split <;> simp only [held_ite, State.instRead_held, State.instWrite_held, ite_self]

@[simp] theorem State.traceStart_held (s : State) (b : List Byte) : (s.traceStart b).held = s.held := by
  simp only [State.traceStart, held_update, State.setReg_held]

@[simp] theorem State.traceStop_held (s : State) : s.traceStop.held = s.held := by
  simp only [State.traceStop, held_update, State.setB_held]

@[simp] theorem State.traceConfig_held (s : State) (c : Cmd) : (s.traceConfig c).held = s.held := by
  simp only [State.traceConfig, held_ite, State.readObject_held, State.fail_held, State.traceStop_held, State.ok_held,
    State.badParam_held, State.traceStart_held, ite_self]

end Sys2Proof.Machine
end

