-- ==== Sys2Proof/Proofs/Answers.lean ====
section
/-! Every command answers a next state: a command that waits for power by the laws of its operation, the commands of the power
sequence and the end of a reset one by one. -/

namespace Sys2Proof.Machine

/-- The commands that a module without power carries out: those of the power sequence and the end of a reset. -/
def ActsUnpowered : Instr → Bool
  | .inputValid _ | .powerGood _ _ | .inputLowShutdown _ _ | .stackResetRelease => true
  | _ => false

/-- The answer of a command: a next state with the same queue and the same variant. -/
def Answers (c : Instr) (s : State) : Prop := ∃ t, exec c s = .next t ∧ t.held = s.held

theorem answers_live {c : Instr} {s t : State} (hexec : exec c s = live s t) (ht : t.held = s.held) :
    Answers c s ∧ (s.powered = false → exec c s = .next s) := by
  refine ⟨⟨_, hexec, ?_⟩, fun hoff => hexec.trans (live_off hoff)⟩
  rw [held_ite, ht, ite_self]

/-- A command that waits for power answers with what its operation leaves, and without power with the state as it was. -/
theorem answers_powered (c : Instr) (s : State) (hc : ActsUnpowered c = false) :
    Answers c s ∧ (s.powered = false → exec c s = .next s) := by
  cases c with
  | inputValid | powerGood | inputLowShutdown | stackResetRelease => cases hc
  | courseStartCommit | courseResumeCommit | imageActivateCommit | nbuTransfer | pageCommandCommit =>
    refine answers_live rfl ?_
    (repeat' split) <;> simp
  | _ => exact answers_live rfl (by simp)

theorem answers_unpowered (c : Instr) (s : State) (hc : ActsUnpowered c = true) : Answers c s := by
  cases c with
  | inputValid volts => exact ⟨_, rfl, s.inputValid_held volts⟩
  | powerGood volts duration => exact ⟨_, rfl, by simp⟩
  | inputLowShutdown value ms =>
    have hlow : exec (.inputLowShutdown value ms) s = execInputLowShutdown value ms s := rfl
    by_cases hlatched : (s.power.phase = .latched && 100 ≤ ms) = true
    · exact ⟨_, hlow.trans (if_pos hlatched), rfl⟩
    · exact ⟨_, hlow.trans (if_neg hlatched), by simp⟩
  | stackResetRelease => exact ⟨_, rfl, by simp⟩
  | _ => cases hc

/-- Settles O11: a command waits for power or is of the power sequence, and each answers a next state. -/
theorem everyCommandAnswers : Obligations.EveryCommandAnswers := by
  unfold Obligations.EveryCommandAnswers
  intro c s
  cases hc : ActsUnpowered c with
  | true =>
    obtain ⟨t, hexec, hheld⟩ := answers_unpowered c s hc
    obtain ⟨hpending, hvariant⟩ := Prod.mk.inj hheld
    refine ⟨t, hexec, hpending, hvariant, fun _ hvalid hgood hlow hrelease => absurd hc ?_⟩
    cases c with
    | inputValid v => exact absurd rfl (hvalid v)
    | powerGood v d => exact absurd rfl (hgood v d)
    | inputLowShutdown v ms => exact absurd rfl (hlow v ms)
    | stackResetRelease => exact absurd rfl hrelease
    | _ => exact Bool.false_ne_true
  | false =>
    obtain ⟨⟨t, hexec, hheld⟩, hoff⟩ := answers_powered c s hc
    obtain ⟨hpending, hvariant⟩ := Prod.mk.inj hheld
    exact ⟨t, hexec, hpending, hvariant, fun hdown _ _ _ _ => Host.Outcome.next.inj (hexec.symm.trans (hoff hdown))⟩

end Sys2Proof.Machine
end
